-- ==== Sys2Proof/Word.lean ====
section
/-! DEFINITION. Bytes, words, nodes and the little-endian reading of byte strings (R4). -/

namespace Sys2Proof

/-- One byte of a message, descriptor or store. -/
abbrev Byte := BitVec 8

/-- One 32-bit register or Tally word. -/
abbrev Word := BitVec 32

/-- A Dorlink node ID (R82), 16 bits wide where it is encoded. -/
abbrev Node := Nat

/-- A finite table keyed by a number: a list in rising key order, at most one entry per key. -/
abbrev AMap (α : Type) := List (Nat × α)

/-- The number a byte string spells, least significant byte first (R4). -/
def leNat : List Byte → Nat
  | [] => 0
  | b :: bs => b.toNat + 256 * leNat bs

/-- The `n` bytes that spell `v`, least significant byte first (R4). -/
def leBytes : Nat → Nat → List Byte
  | 0, _ => []
  | n + 1, v => BitVec.ofNat 8 v :: leBytes n (v / 256)

/-- The number that `n` bytes at offset `off` spell (R4). -/
def field (bs : List Byte) (off n : Nat) : Nat := leNat ((bs.drop off).take n)

/-- Bits `[lo + n - 1 : lo]` of a number. -/
def bits (v lo n : Nat) : Nat := v / 2 ^ lo % 2 ^ n

/-- Bit `i` of a number. -/
def bit (v i : Nat) : Bool := v / 2 ^ i % 2 == 1

/-- 1 for true and 0 for false. -/
def b2n : Bool → Nat
  | true => 1
  | false => 0

/-- Division rounded up; 0 when the divisor is 0. -/
def ceilDiv (a b : Nat) : Nat := (b - 1 + a) / b

end Sys2Proof
end

