-- ==== Sys2Proof/Syntax.lean ====
section
/-! DEFINITION. The commands the FV7 takes: one constructor per row of opcode_table.json, with what the event
or request brings from outside. -/

namespace Sys2Proof

/-- The envelope of a Dorlink message whose flits have been accepted (R93, R94): port it came in on, origin
node, job key index and transaction tag. -/
structure Hdr where
  port : Nat
  src : Node
  key : Nat
  tag : Nat
  deriving DecidableEq, Repr

/-- The path of a management access: I3C, or Dorlink under a job key (R368). -/
inductive Path where
  | i3c
  | dorlink (key : Nat)
  deriving DecidableEq, Repr

/-- Levels of the input discretes, true while the line is low (R31). -/
structure Lines where
  prsntEarly : Bool
  prsntLate : Bool
  pwrfail : Bool
  leak : Bool
  unplug : Bool
  deriving DecidableEq, Repr

/-- One partition as the PARTITIONS section declares it: its clusters, and space-only or time-sliced (R338). -/
structure PartDecl where
  clusters : List Nat
  spaceOnly : Bool
  deriving DecidableEq, Repr

/-- A section's content. Sections whose byte layout the manual gives are raw bytes; the others carry their
decoded values (log 11); `malformed` is one whose length or layout is not its definition's. -/
inductive SecBody where
  | raw (bs : List Byte)
  | partitions (ps : List PartDecl)
  | thermos (units : Nat)
  | quotas (q : List (List Nat))
  | ftl (percent budgetMiB : Nat)
  | spares (valid : Bool)
  | malformed
  deriving DecidableEq, Repr

/-- A section directory entry (R65). -/
structure DirEntry where
  typ : Nat
  required : Bool
  offset : Nat
  length : Nat
  deriving DecidableEq, Repr

/-- What a read of one NOR image slot delivers: whether the read completes, the bytes of the slot, and by section type what the
bytes of a section say whose byte layout the manual does not give (log 11). -/
structure SlotImage where
  readOk : Bool
  bytes : List Byte
  decoded : List (Nat × SecBody) := []
  deriving DecidableEq, Repr

/-- The flash dies found at ONFI training (Table 10.1). -/
structure Geometry where
  tbit : Nat
  bitsPerCell : Nat
  wordlines : Nat
  blocks : Nat
  deriving DecidableEq, Repr

/-- One laser bay at optical calibration (R404). -/
structure BayCal where
  present : Bool
  power : Int
  lightsAll : Bool
  deriving DecidableEq, Repr

/-- The wavelengths 0 to 8 of one port that fail at optical calibration, per direction (R404). -/
structure LaneCal where
  txBad : List Nat
  rxBad : List Nat
  deriving DecidableEq, Repr

/-- A 288-byte frame (R89): the 256-byte flit or body, the 64-bit link word of Table 4.2 and the 24 bytes of parity as its sender made
them, and how many bytes of its two codewords, of even and of odd offsets, the line has changed on the way. -/
structure Frame where
  body : List Byte
  link : BitVec 64
  parity : List Byte := []
  errs : Nat × Nat := (0, 0)
  deriving DecidableEq, Repr

/-- One entry of a RESULT message (Table 14.3). -/
structure ResEntry where
  tagIdx : Nat
  handle : Nat
  entry : Nat
  deriving DecidableEq, Repr

/-- One release of a PAGE_WR (Table 14.4). -/
structure RelEntry where
  handle : Nat
  layer : Nat
  deriving DecidableEq, Repr

/-- What an SRAM error hits (R359): a core's stores, or a Hamper row. -/
inductive SramSite where
  | core (slot : Nat)
  | hamper (row : Nat)
  deriving DecidableEq, Repr

/-- The unit a MEMORY or INTERNAL fault names (R418, Table 13.5). -/
inductive FailUnit where
  | ftl
  | hbm (stack : Nat)
  | other (cls unit : Nat)
  deriving DecidableEq, Repr

/-- Which array a flash read serves (R319). -/
inductive FlashTarget where
  | image (id granule : Nat)
  | journal (id : Nat)
  deriving DecidableEq, Repr

/-- Every command, in the table's order. An op row names the ring whose next entry it starts. -/
inductive Instr where
  -- power, pins, thermal (02)
  | vin60Contact (vin : Nat)
  | softStartDone (vin : Nat)
  | prsntEarlyHigh
  | outputsEnable
  | prsntLateHigh
  | pwrfailAssert
  | undervoltage (vin : Nat)
  | overvoltageShutdown (vin : Nat)
  | diodeReverseCurrent
  | windowFlushDone
  | bankChargeDone (energy : Nat)
  | bankBelowReady
  | unplugRequest
  | quiesceOpDeadline
  | sensorSample (n : Nat) (temp : Int)
  | thermalLevelExit
  | powerLevelStepDown
  | leakResponse
  | lossOfLock
  | epochPrewrite
  | cclkWrap
  -- start (03)
  | rstLFall
  | rstLRise (lines : Lines)
  | cfgRestart (path : Path) (key : Nat)
  | refclkPresent (badWords : List Nat)
  | pllLock (straps : Nat)
  | imageSlotChecked (img : SlotImage)
  | sensorTrimDone
  | hbmTrainingDone (ppr : List (Nat × Nat)) (failed : Option Nat)
  | hbmZeroDone
  | onfiTrainingDone (geo : Geometry) (present : List (Nat × Nat)) (offline : List (Nat × Nat))
  | arrayChecksDone (banks : List Nat) (rows : List (Nat × Nat)) (tally : List Nat)
  | coreSelfTestDone (bad : List (Nat × Nat))
  | opticalCalibrationDone (bays : List BayCal) (lanes : List LaneCal)
  | serviceStartDone
  | rdyAssert
  | blockPassDone
  | regionScanDone
  | ondemandScanDone
  -- Dorlink (04)
  | linkUp (port : Nat) (peer : Node)
  | portDown (port : Nat)
  | laserBayLow (bay : Nat) (removed : Bool) (power : Int)
  | laneMarginFail (port lane : Nat)
  | subReq (port lane : Nat)
  | subReady (port lane : Nat)
  | subDone (port lane : Nat)
  | frameReceive (port : Nat) (f : Frame)
  | flitForward (port : Nat) (flit : List Byte)
  | rdUnc (h : Hdr) (addr len : Nat)
  | wrUnc (h : Hdr) (addr mask : Nat) (data : List Byte)
  | rdS (h : Hdr) (addr : Nat)
  | rdE (h : Hdr) (addr : Nat)
  | upg (h : Hdr) (addr : Nat)
  | wb (h : Hdr) (addr : Nat) (data : List Byte)
  | snpResp (h : Hdr) (addr : Nat) (data : Option (List Byte)) (wbPending : Bool)
  | snoopTimeout (addr : Nat) (node : Node)
  | doorbell (h : Hdr) (ring first cqHead count : Nat) (entries : List (List Byte))
  | data (h : Hdr) (poison : Bool) (bytes : List Byte)
  | ack (h : Hdr)
  | nak (h : Hdr) (status : Nat)
  | requesterReadTimeout (tag : Nat)
  | tileAckTimeout (tag : Nat)
  | tileSend (op : Nat)
  | completionWrite (ring : Nat)
  | ringDrainDone (ring : Nat)
  | unknownOp (ring : Nat)
  -- sequences and paging (05)
  | seqOpen (ring : Nat)
  | seqClose (ring : Nat)
  | seqFork (ring : Nat)
  | kvAppend (ring : Nat)
  | ladderDemoteTimeout (op : Nat)
  | freedRunService (part : Nat)
  | encodeDone (part : Nat)
  | translationDrainDone (id : Nat)
  | ticketWrite (part : Nat)
  | mdLoad (path : Path)
  | mdRead (path : Path)
  | mdUnload (path : Path)
  -- prefix store (06)
  | pfxLookup (ring : Nat)
  | pfxPublish (ring : Nat)
  | publishWaitEnd (op : Nat)
  | pfxRetire (ring : Nat)
  | policyInsert (path : Path)
  | policyDelete (path : Path)
  | policyRead (path : Path)
  | pmaPatrolRead (errors : List Nat)
  -- attention (07)
  | attnDecode (ring : Nat)
  | attnChunk (ring : Nat)
  | attnBwd (ring : Nat)
  | kvFetch (ring : Nat)
  | kvPrefetch (ring : Nat)
  | workUnitDispatch (cluster core : Nat)
  | workUnitEnd (cluster core : Nat)
  -- tiers (09)
  | objHint (ring : Nat)
  | objMigrate (ring : Nat)
  | heatHalving
  | halvingSweepEnd
  | backgroundMove (part : Nat)
  | moveCopyDone (move : Nat) (ok : Bool)
  | tierQuotaWrite (path : Path) (part k value : Nat)
  | wtLoad (ring : Nat)
  | wtStream (ring : Nat)
  | extGrant (ring : Nat)
  | extZeroDone (ext : Nat)
  | extRevoke (ring index : Nat)
  | snoopFilterScanDone (ctrl ext : Nat)
  | gracePeriodEnd (ext : Nat)
  -- flash (10)
  | flashProgramDone (id : Nat) (ok : Bool)
  | flashReadDone (target : FlashTarget) (corrected step : Nat)
  | writePathTimeout (op : Nat)
  | fold (unit : Nat)
  | gcCollect (die : Nat)
  | stripeCloseVerify (stripe corrected : Nat)
  | flashPatrol (stripe corrected : Nat)
  | writeHeatHalving
  | catalogCompaction
  | reserveRefill
  | discard (ring : Nat)
  | discardSecure (ring : Nat)
  | hourOfService (junction flash : Int)
  -- scheduling (11)
  | step (ring : Nat)
  | stepSubchunkIssue (op : Nat)
  | ctxWrite (path : Path)
  | ctxRead (path : Path)
  | ctxDisable (path : Path)
  | quantumExpiry (part : Nat)
  | cheapPointStop (cluster core bytes : Nat)
  | cheapWaitExpiry (part : Nat)
  | saveDone (part : Nat)
  | scrubDone (part : Nat)
  | restoreDone (part : Nat)
  | deadlineEvaluation (op : Nat)
  | slowdownPublish
  | sramUncorrectable (cluster : Nat) (site : SramSite)
  | microcodeTrap (cluster : Nat)
  | cheapPointTimeout (cluster : Nat)
  | fabricPortProtocolError (cluster : Nat)
  | partitionResetWrite (path : Path) (part : Nat)
  | partitionResetDone (part : Nat) (bad : List (Nat × Nat))
  -- security (12)
  | kmRequestReceive (session code flags len kmSeq named : Nat) (rest : List Byte)
  | kmTenantCreate (session : Nat)
  | kmTenantRemove (session : Nat)
  | removeDrainDone
  | kmJobOpen (session : Nat)
  | kmJobClose (session : Nat)
  | kmPeerOpen (session : Nat)
  | getVersion (h : Hdr) (body : List Byte)
  | getCapabilities (h : Hdr) (body : List Byte)
  | negotiateAlgorithms (h : Hdr) (body : List Byte)
  | getDigests (h : Hdr) (body : List Byte)
  | getCertificate (h : Hdr) (body : List Byte)
  | challenge (h : Hdr) (body : List Byte)
  | getMeasurements (h : Hdr) (body : List Byte)
  | keyExchange (h : Hdr) (body : List Byte)
  | finish (h : Hdr) (body : List Byte)
  | endSession (h : Hdr) (body : List Byte)
  | spdmUnsupported (h : Hdr) (code : Nat) (body : List Byte)
  | fuseProgram (path : Path) (key slot : Nat)
  | fuseRevoke (path : Path) (key slot : Nat)
  | debugHalt (path : Path) (halt : Bool)
  | debugStep (path : Path)
  | debugDataAccess (path : Path) (write : Option Nat)
  | tenantViewSnapshot
  | powerViewSnapshot
  | hbmBackgroundZero (part start len : Nat)
  -- spares and Saddlebag (13)
  | bankRebuildDone (bank : Nat)
  | hbmUncorrectable (addr : Nat)
  | hbmCorrectedError (stack block : Nat)
  | hbmRemapDone (stack block : Nat)
  | bridgeCrcLimit (die errors : Nat)
  | bridgeRetrainDone (die : Nat) (ok : Bool)
  | fatalMemoryInternal (memory : Bool) (unit : FailUnit) (detail : Nat) (hit : List Nat)
  | saddlebagEventWrite
  | suppressionIntervalEnd
  | saddlebagCopyDone
  | operatorSnapshot (path : Path)
  | holdSlot (path : Path) (slot : Nat)
  | releaseSlot (path : Path) (slot : Nat)
  | bbxReadDataRead (path : Path)
  | tlyWordWrite (path : Path) (value : Nat)
  -- cascade (14)
  | helloInterval
  | hello (h : Hdr) (pos view mask epoch : Nat) (digest : List Byte)
  | positionDead (pos : Nat)
  | search (h : Hdr) (view owner bankSet sid : Nat) (keys : List (List Byte))
  | searchAck (h : Hdr) (sid : Nat) (prios : List Nat)
  | claim (h : Hdr) (view sid won : Nat)
  | result (h : Hdr) (sid : Nat) (entries : List ResEntry)
  | read (h : Hdr) (handle layer offset len : Nat)
  | pageData (h : Hdr) (status : Nat) (bytes : List Byte)
  | release (h : Hdr) (entries : List RelEntry)
  | peerReadTimeout (tag : Nat)
  -- reference (15)
  | nop (ring : Nat)
  | mgmtRd (h : Hdr) (off len : Nat)
  | mgmtWr (h : Hdr) (off : Nat) (bytes : List Byte)
  | spdm (h : Hdr) (code : Nat) (body : List Byte)
  | i3cPrivateWrite (bytes : List Byte)
  | i3cPrivateRead (words : Nat)
  | entdaa (addr : Nat)
  | setdasa (addr : Nat)
  | rstdaa
  | getpid
  | getbcr
  | getdcr
  | getstatus
  | rngWriteEntry (path : Path)
  | rngReadEntry (path : Path)
  | rngSetDrain (path : Path)
  | topCclkLoRead (path : Path)
  | atnKeysLoRead (path : Path)
  | ftlSeqLoRead (path : Path)
  | schAcctCycLoRead (path : Path)
  | schAcctSaveLoRead (path : Path)
  | registerWrite (path : Path) (off value : Nat)
  | stirrupBeat (value : Nat)
  | powerGovernorMeasure (vin power level : Nat) (lines : Lines)
  | bankBleedBelow20v
  | flashEraseDone (die block : Nat) (ok : Bool)
  deriving DecidableEq, Repr

end Sys2Proof
end

