-- ==== Sys2Proof/Decode.lean ====
section
/-! DEFINITION. Commands spelled by a word. The table of operations and events gives no row any bits, so no word
spells a command. -/

namespace Sys2Proof

/-- The command that the `nbits` bits of `w` spell: none, since no row of the table carries bits. -/
def decodeTableWord (_nbits _w : Nat) : Option Instr := none

end Sys2Proof
end

