-- ==== Sys2Proof/Machine/Map.lean ====
section
/-! DEFINITION. Finite tables in key order, lists as fixed register files, and free queues. -/

namespace Sys2Proof.Machine

open Sys2Proof

/-- The entry at key `k`. -/
def mget {α : Type} (m : AMap α) (k : Nat) : Option α :=
  match m with
  | [] => none
  | (j, v) :: r => if j == k then some v else mget r k

/-- The table with `v` at key `k`; keys stay in rising order. -/
def mset {α : Type} (m : AMap α) (k : Nat) (v : α) : AMap α :=
  match m with
  | [] => [(k, v)]
  | (j, w) :: r => if k < j then (k, v) :: (j, w) :: r else if j == k then (k, v) :: r else (j, w) :: mset r k v

/-- The table without key `k`. -/
def mdel {α : Type} (m : AMap α) (k : Nat) : AMap α :=
  match m with
  | [] => []
  | (j, w) :: r => if j == k then r else (j, w) :: mdel r k

/-- The entry at `k`, or `d`. -/
def mgetD {α : Type} (m : AMap α) (k : Nat) (d : α) : α := (mget m k).getD d

/-- The table with `f` applied at key `k`, where it has one. -/
def mmod {α : Type} (m : AMap α) (k : Nat) (f : α → α) : AMap α :=
  match mget m k with
  | none => m
  | some v => mset m k (f v)

/-- The table with `f` applied at `k`, from `d` where it has none. -/
def mupd {α : Type} (m : AMap α) (k : Nat) (d : α) (f : α → α) : AMap α := mset m k (f (mgetD m k d))

/-- Whether the table has key `k`. -/
def mhas {α : Type} (m : AMap α) (k : Nat) : Bool := (mget m k).isSome

/-- The lowest number from `i` on that is no key, looking at `n` numbers. -/
def lowestFree {α : Type} (m : AMap α) : Nat → Nat → Option Nat
  | _, 0 => none
  | i, n + 1 => if mhas m i then lowestFree m (i + 1) n else some i

/-- Element `i` of a register file, or `d`. -/
def nth {α : Type} (l : List α) (i : Nat) (d : α) : α := l.getD i d

/-- The list with `f` applied at place `i`. -/
def lmod {α : Type} (l : List α) (i : Nat) (f : α → α) : List α :=
  match l, i with
  | [], _ => []
  | x :: r, 0 => f x :: r
  | x :: r, n + 1 => x :: lmod r n f

/-- The list with `v` at place `i`. -/
def lput {α : Type} (l : List α) (i : Nat) (v : α) : List α := lmod l i fun _ => v

/-- Sum of a list of numbers. -/
def sum (l : List Nat) : Nat := l.foldl (· + ·) 0

/-- Largest of a list of numbers, 0 for none. -/
def maxOf (l : List Nat) : Nat := l.foldl max 0

/-- Smallest of a list of numbers, none for none. -/
def minOf : List Nat → Option Nat
  | [] => none
  | x :: r => match minOf r with
    | none => some x
    | some y => some (min x y)

/-- How many elements satisfy `p`. -/
def count {α : Type} (p : α → Bool) (l : List α) : Nat := (l.filter p).length

/-- Insert `x` before the first element it is below under `lt`. -/
def insertBy {α : Type} (lt : α → α → Bool) (x : α) : List α → List α
  | [] => [x]
  | y :: r => if lt x y then x :: y :: r else y :: insertBy lt x r

/-- Stable sort. -/
def sortBy {α : Type} (lt : α → α → Bool) (l : List α) : List α := l.foldl (fun acc x => insertBy lt x acc) []

/-- The list without repeats, first occurrences kept. -/
def nodup {α : Type} [BEq α] (l : List α) : List α :=
  l.foldl (fun acc x => if acc.contains x then acc else acc ++ [x]) []

/-- A saturating 32-bit count (R57, R123). -/
def sat32 (n : Nat) : Nat := min n 0xFFFFFFFF

/-- A saturating 16-bit count. -/
def sat16 (n : Nat) : Nat := min n 0xFFFF

/-- Mask of the listed bits. -/
def maskOf (l : List Nat) : Nat := sum ((nodup l).map fun i => 2 ^ i)

/-- The set bits among the first `n`. -/
def bitsOf (n v : Nat) : List Nat := (List.range n).filter fun i => bit v i

/-- Bitwise or of a mask with bit `i`. -/
def setBit (v i : Nat) : Nat := if bit v i then v else v + 2 ^ i

end Sys2Proof.Machine
end

