-- ==== Sys2Proof/Machine/State.lean ====
section
/-! DEFINITION. Everything the spec gives the FV7 to hold, as plain data, and the state after reset. A field's
default is its value in `State.reset`; INVENTORY.md cites the rule and table of each. -/

namespace Sys2Proof.Machine

/-! ### Pins, power, thermal, clock (01, 02) -/

/-- ATTN_LED indications (Table 2.6). -/
inductive Led where
  | off | blink1 | steady | blink4
  deriving DecidableEq, Repr

/-- Input levels (true while the line is low), and what the FV7 drives each output to once outputs are enabled (true for
asserted). Until then `rdy` and `cascMaster` stay false, and what `fault`, `therm` and `led` ask for does not reach the balls
(R33): `Pins.faultLow`, `Pins.thermLow` and `Pins.ledShown` give the balls.
`xspiReset` says that XSPI_RESET_L is driven high, and `xspiDriven` that the other XSPI outputs are driven (R63). -/
structure Pins where
  vin : Nat := 0
  prsntEarly : Bool := false
  prsntLate : Bool := false
  pwrfail : Bool := false
  leak : Bool := false
  unplug : Bool := false
  rst : Bool := false
  straps : Nat := 0
  outputsEnabled : Bool := false
  rdy : Bool := false
  fault : Bool := false
  therm : Bool := false
  led : Led := .off
  cascMaster : Bool := false
  xspiReset : Bool := false
  xspiDriven : Bool := false
  deriving DecidableEq, Repr

/-- Progress of the 60 V rail (R36, R49). -/
inductive Rail where
  | off | softStart | valid
  deriving DecidableEq, Repr

/-- The rail, the governor and the hold-up bank (02). Energies are in units of 0.125 J. `charged`: the bank has come to 57.0 V
and not fallen below 20 V since; `partly`: a charge has begun since it was last below 20 V, and may have passed 20 V. -/
structure Power where
  rail : Rail := .off
  converters : Bool := false
  charged : Bool := false
  partly : Bool := false
  diodeOpen : Bool := false
  ovShutdown : Bool := false
  ovEvent : Bool := false
  uvEvent : Bool := false
  govLevel : Nat := 0
  peakActive : Bool := false
  pinPower : Nat := 0
  low60 : Bool := false
  mgmtOnly : Bool := false
  flushOnly : Bool := false
  charging : Bool := false
  bleeding : Bool := false
  measuring : Bool := false
  measured : Bool := false
  eMeasured : Nat := 0
  eEff : Nat := 0
  ready : Bool := false
  bankLow : Bool := false
  bankMismatch : Bool := false
  eDeclared : Nat := 0
  window : Nat := 0
  safeToPull : Bool := false
  viewPin : Nat := 0
  deriving DecidableEq, Repr

/-- Sensors and the thermal level, 4 being the trip (Table 2.7). -/
structure Thermal where
  temps : List Int := List.replicate 64 0
  valid : List Bool := List.replicate 64 false
  level : Nat := 0
  leakIn : Bool := false
  leakShutdown : Bool := false
  deriving DecidableEq, Repr

/-- The root PLL, the CCLK counter and the boot epoch (R17, R22 to R24). -/
structure Clock where
  refPresent : Bool := false
  pllLocked : Bool := false
  holdover : Bool := false
  running : Bool := false
  count : BitVec 48 := 0
  epoch : BitVec 32 := 0
  nextEpoch : BitVec 32 := 0
  lastCause : Bool := false
  prewritten : Bool := false
  deriving DecidableEq, Repr

/-! ### Start, image, responses (03) -/

/-- The start in progress and the flash rebuild after it (R58 to R79). `done` lists the phases of Table 3.5
that have ended, and 13 for RDY; `waiting` is the kind of a start that waits for RST_L to go high; `rstLow` and `rstPulse` say
that RST_L went low, and then high, while a response ran (R59); `norReads` lists the NOR reads of the start, address and length
(R62, R67); `phase` is 0, or the response CFG_START.phase shows. -/
structure StartSt where
  active : Bool := false
  cold : Bool := true
  done : List Nat := []
  waiting : Option Bool := none
  rstLow : Bool := false
  rstPulse : Bool := false
  phase : Nat := 0
  readB : Bool := false
  norReads : List (Nat × Nat) := []
  norReleased : Bool := false
  wearReady : Bool := false
  regions : List Nat := []
  rdyTime : Nat := 0
  deriving DecidableEq, Repr

/-- A predictor entry or cost prior (R66, R356). -/
structure Cost where
  op : Nat
  codec : Nat
  tier : Nat
  fixed : Nat
  perUnit : Nat
  deriving DecidableEq, Repr

/-- The accepted Ivzer image's static shape (Table 3.3). -/
structure Image where
  nodeId : Nat := 0
  torusBase : Nat := 0
  kx : Nat := 1
  ky : Nat := 1
  kz : Nat := 1
  ports : List Nat := []
  parts : List PartDecl := []
  cascPos : Nat := 0
  cascSize : Nat := 1
  cascNodes : List Nat := []
  eDeclared : Nat := 0
  quotas : Option (List (List Nat)) := none
  slotPart : List (Option Nat) := []
  preloads : List (Nat × List Byte) := []
  kmKeys : List (List Byte) := []
  costs : List Cost := []
  bufPercent : Nat := 2
  fineMiB : Nat := 4096
  spares : Bool := false
  ucode : List Byte := []
  skoma : List Byte := []
  partsRaw : List PartDecl := []
  modelsRaw : List Byte := []
  rollback : Nat := 0
  buildId : Nat := 0
  sections : Nat := 0
  digest : List Byte := []
  deriving DecidableEq, Repr

/-- CFG_IMG_STATUS and the image in service. -/
structure ImgSt where
  accepted : Bool := false
  slotB : Bool := false
  rejectA : Nat := 0
  rejectB : Nat := 0
  cur : Option Image := none
  deriving DecidableEq, Repr

/-- The response the FV7 carries out (R45, R50, R56, R59, R417). -/
inductive RespKind where
  | none | quiesce | reset | powerFail | leak | fatal
  deriving DecidableEq, Repr

/-- Stage of a response: ops may still run, the window is flushed, extents are revoked, the copy alone is awaited, its steps
have ended. -/
inductive RespStage where
  | idle | ops | flush | extents | copy | ended
  deriving DecidableEq, Repr

/-- Progress of the response. `halted`: all work has stopped (R21, R55). `skip` lists the records a flush leaves out, those that lie on a failed channel (R418). -/
structure Resp where
  kind : RespKind := .none
  stage : RespStage := .idle
  viaPin : Bool := false
  fatalClass : Nat := 0
  leakJoin : Bool := false
  tripJoin : Bool := false
  halted : Bool := false
  bleedDue : Bool := false
  skip : List Nat := []
  deriving DecidableEq, Repr

/-! ### Tally, spares, Saddlebag (13) -/

/-- A physical MRAM word (R408): value, 20-bit write count, failing its check. -/
structure PhysWord where
  value : BitVec 32 := 0
  count : Nat := 0
  bad : Bool := false
  deriving DecidableEq, Repr

/-- Tally: physical words, SRAM copy, remap table (R408, R409). A word not listed holds its factory value. -/
structure Tally where
  phys : AMap PhysWord := []
  copy : AMap (BitVec 32) := []
  remap : AMap Nat := []
  wornFail : Bool := false
  sel : Nat := 0
  deriving DecidableEq, Repr

/-- Repair log, error counts and unit generations (R399 to R406). `hamper` lists the replaced rows of the slices, in order of
replacement; `hamperDue` those a reset in progress replaces; `unwritten` holds the spare words whose record could not be written
(Table 13.3). -/
structure Spare where
  hbmRemap : List (Nat × Nat) := []
  hamper : List (Nat × Nat) := []
  corrected : List ((Nat × Nat) × (Nat × Nat)) := []
  remapping : List (Nat × Nat) := []
  coreErr : List (Nat × Nat) := []
  retireDue : List (Nat × Nat) := []
  hamperDue : List (Nat × Nat) := []
  unwritten : AMap Nat := []
  genCl : List (BitVec 8) := List.replicate 32 0
  genBank : List (BitVec 8) := List.replicate 32 0
  genDie : List (BitVec 8) := List.replicate 3 0
  retraining : List Nat := []
  deriving DecidableEq, Repr

/-- A Saddlebag event (Table 13.5). -/
structure Event where
  time : Nat := 0
  serial : Nat := 0
  epoch : Nat := 0
  cls : Nat := 0
  unit : Nat := 0
  code : Nat
  a0 : Nat := 0
  a1 : Nat := 0
  a2 : Nat := 0
  a3 : Nat := 0
  deriving DecidableEq, Repr

/-- A snapshot slot: descriptor (Table 13.7) and events, oldest first. -/
structure Snapshot where
  serial : Nat := 0
  cls : Nat := 0
  complete : Bool := false
  held : Bool := false
  fatal : Bool := false
  causes : Nat := 0
  epoch : Nat := 0
  time : Nat := 0
  lost : Nat := 0
  spareGen : Nat := 0
  buildId : Nat := 0
  events : List Event := []
  deriving DecidableEq, Repr

/-- A copy in progress: its slot and its first class (R415). -/
structure CopySt where
  slot : Nat
  cls : Nat
  deriving DecidableEq, Repr

/-- One kind of event in the running interval (R412). -/
structure Rate where
  cls : Nat
  unit : Nat
  code : Nat
  count : Nat
  deriving DecidableEq, Repr

/-- The black box (R412 to R416). -/
structure Bbx where
  ring : List Event := []
  queue : List Event := []
  frozen : Bool := false
  copy : Option CopySt := none
  lastSlot : Nat := 0
  cause : Nat := 0
  slots : List Snapshot := List.replicate 4 {}
  written : Nat := 0
  lost : Nat := 0
  suppressed : Nat := 0
  serial : Nat := 0
  rate : List Rate := []
  readSel : Nat := 4
  readAddr : Nat := 0
  deriving DecidableEq, Repr

/-! ### Dorlink (04) -/

/-- LNK_PORTn_STATUS.state. -/
inductive PortState where
  | down | training | up | failed
  deriving DecidableEq, Repr

/-- Stage of a lane substitution in one direction (R87). -/
inductive SubStage where
  | idle | requested (lane : Nat) | duplicated (lane : Nat)
  deriving DecidableEq, Repr

/-- One Dorlink port: status and counters (Table 4.14), retry (`nakOut`: the next frame carries nak; `nakSent`: it has
been carried and no flit frame has been taken since), credits held and owed, egress queues and Bridle rank. -/
structure Port where
  state : PortState := .down
  torus : Bool := false
  dim : Nat := 0
  dir : Nat := 0
  txSub : Nat := 15
  rxSub : Nat := 15
  bay : Nat := 0
  fec : Nat := 0
  retry : Nat := 0
  authFail : Nat := 0
  replay : Nat := 0
  nokey : Nat := 0
  peer : Node := 0
  txSeq : Nat := 0
  retryBuf : List (Nat × List Byte) := []
  rxLast : Option Nat := none
  sinceAck : Nat := 0
  nakOut : Bool := false
  nakSent : Bool := false
  credits : List Nat := List.replicate 8 0
  owed : List Nat := List.replicate 8 0
  queues : List (List (List Byte)) := List.replicate 12 []
  rank : List Nat := List.range 12
  txStage : SubStage := .idle
  rxStage : SubStage := .idle
  deriving DecidableEq, Repr

/-- One laser bay (Table 4.15); powers in 0.01 dBm. -/
structure Bay where
  present : Bool := false
  ok : Bool := false
  power : Int := 0
  recorded : Int := 0
  deriving DecidableEq, Repr

/-- A message under reassembly (R94): flits by index, and the index of the last. -/
structure Partial where
  src : Node
  vc : Nat
  seq : Nat
  key : Nat
  typ : Nat
  parts : AMap (List Byte) := []
  last : Option Nat := none
  deriving DecidableEq, Repr

/-- A message delivered by the transport (R94). -/
structure InMsg where
  port : Nat
  src : Node
  vc : Nat
  typ : Nat
  key : Nat
  body : List Byte
  deriving DecidableEq, Repr

/-- A message the FV7 sends (R94, Table 4.6). -/
structure OutMsg where
  typ : Nat
  vc : Nat
  dst : Node
  key : Nat
  tag : Nat := 0
  addr : Nat := 0
  status : Nat := 0
  flags : Nat := 0
  body : List Byte := []
  deriving DecidableEq, Repr

/-- The link unit (04). `wire` holds the frames put on each port, `outbox` the messages sent; `chosen` gives the FABRIC port of
4 * dst + vc (R97), and `heldCredits` the port, class and source of each credit held back from a source with 4,096 requests
outstanding (R98). -/
structure Link where
  ports : List Port := (List.range 16).map fun n => ({ bay := n / 4 } : Port)
  bays : List Bay := List.replicate 5 {}
  spareServes : Nat := 7
  partials : List Partial := []
  dropping : List (Node × Nat × Nat) := []
  inbox : List InMsg := []
  outbox : List OutMsg := []
  wire : List (Nat × Frame) := []
  msgSeq : List Nat := List.replicate 4 0
  chosen : AMap Nat := []
  heldCredits : List (Nat × Nat × Node) := []
  detour : List (Node × Node × Nat) := []
  tileTurn : Nat := 0
  deriving DecidableEq, Repr

/-! ### Coherence and extents (04, 09) -/

/-- A snoop-filter entry (R99): E or S, holders oldest first, allocation order. -/
structure LineEnt where
  excl : Bool
  holders : List Node
  alloc : Nat
  deriving DecidableEq, Repr

/-- Requests that reach the home (Table 4.7), and an addition into a gradient buffer, made there (R234). -/
inductive ReqKind where
  | rdUnc | rdS | rdE | upg | wb | wrUnc | add
  deriving DecidableEq, Repr

/-- A request at the home. `before` names the extent whose revoke point it was checked before (R298). -/
structure LineReq where
  kind : ReqKind
  src : Node
  key : Nat
  tag : Nat
  addr : Nat
  len : Nat := 64
  mask : Nat := 0
  data : List Byte := []
  before : Option Nat := none
  deriving DecidableEq, Repr

/-- A snoop in flight: to whom, invalidating or sharing, answered with wb_pending, holder had E. -/
structure Snoop where
  node : Node
  inv : Bool
  wbPending : Bool := false
  hadE : Bool := false
  deriving DecidableEq, Repr

/-- A transaction on a line: the request it serves (none for an eviction or a recall) and its open snoops. -/
structure Trans where
  req : Option LineReq
  snoops : List Snoop
  recalled : Option Nat := none
  deriving DecidableEq, Repr

/-- Home side of coherence (R99 to R104). `mem` is keyed by Dorlink address; an unlisted byte reads 0. `beyond` holds the requests
that wait in their source's credits (R98). -/
structure Coh where
  mem : List Host.Cell := []
  filter : AMap LineEnt := []
  txs : AMap Trans := []
  waiting : List LineReq := []
  beyond : List LineReq := []
  poison : List Nat := []
  poisonPhys : List Nat := []
  allocSeq : Nat := 0
  deriving DecidableEq, Repr

/-- A contiguous run of 4 KiB HBM frames. -/
structure Run where
  start : Nat
  len : Nat
  deriving DecidableEq, Repr

/-- State of an extent (R295). -/
inductive ExtState where
  | free | zeroing | active | revoking
  deriving DecidableEq, Repr

/-- A revocation in progress (R296 to R299), with the counts of Table 9.9. `recalling` once the recall has begun;
`eHolders` held a line in E at the point, and `lost` are those whose data has been counted as discarded. -/
structure Revoke where
  op : Option Nat := none
  recalling : Bool := false
  graceOpen : Bool := true
  scanned : List Nat := []
  eHolders : List (Nat × Node) := []
  lost : List (Nat × Node) := []
  before : Nat := 0
  afterDone : Nat := 0
  loads : Nat := 0
  stores : Nat := 0
  snoops : Nat := 0
  accepted : Nat := 0
  discarded : Nat := 0
  unanswered : Nat := 0
  linesLost : Nat := 0
  deriving DecidableEq, Repr

/-- One extent (R293, Table 9.8). -/
structure Extent where
  state : ExtState := .free
  log2 : Nat := 0
  grantees : List (Node × Bool) := []
  key : Nat := 0
  grace : Nat := 0
  part : Nat := 0
  tenant : Nat := 0
  runs : List Run := []
  op : Option Nat := none
  rev : Option Revoke := none
  deriving DecidableEq, Repr

/-- A queue of numbers that hands out the one released longest ago: numbers from `next` on that are not in
`skip`, then the released ones in order (R124, R178, R290, R294, R432). -/
structure FreeQ where
  next : Nat := 0
  bound : Nat
  skip : List Nat := []
  back : List Nat := []
  deriving DecidableEq, Repr

/-- The extents (09). -/
structure Ext where
  table : AMap Extent := []
  freeQ : FreeQ := { bound := 4096 }
  sel : Nat := 0
  deriving DecidableEq, Repr

/-- A page's old home waiting for the drain (R148): its runs of frames, its space in the spill area and its flash image, and the
bytes that freeing the frames returns to the quota. -/
structure Drain where
  id : Nat
  part : Nat
  runs : List Run
  bytes : Nat := 0
  spill : List Run := []
  image : Option Nat := none
  deriving DecidableEq, Repr

/-- HBM frames and quota use (R137, R286, R309, R380), and the free space of each partition's spill area in 256-byte units (R161). -/
structure Hbm where
  free : AMap (List Run) := []
  spillFree : AMap (List Run) := []
  dirty : List (Nat × Run) := []
  drains : List Drain := []
  nextDrain : Nat := 0
  used : AMap (List Nat) := []
  staging : AMap Nat := []
  deriving DecidableEq, Repr

/-! ### Rings and requester buffers (04) -/

/-- A completion before it is written (Table 4.12). -/
structure Cpl where
  tag : Nat
  status : Nat
  rung : Nat := 0
  loss : Nat := 0
  a : Nat := 0
  b : Nat := 0
  c : Nat := 0
  time : Nat := 0
  epoch : Nat := 0
  forEntry : Bool := true
  deriving DecidableEq, Repr

/-- Where an accepted entry stands. -/
inductive EntrySt where
  | waiting | started
  deriving DecidableEq, Repr

/-- An accepted submission entry: its 64 bytes and its arrival (R118). `idx` numbers the entries the ring has accepted since the
start; the 16-bit index of Table 4.9 is its remainder. -/
structure Entry where
  idx : Nat
  raw : List Byte
  arrival : Nat
  st : EntrySt := .waiting
  operands : Option (List Byte) := none
  readFailed : Bool := false
  deriving DecidableEq, Repr

/-- A ring pair (Table 4.9), its accepted entries and its completions not yet written. `taken` counts the entries accepted since the
start. -/
structure Ring where
  context : Nat := 0
  sqLog2 : Nat := 0
  cqLog2 : Nat := 0
  key : Nat := 0
  reqNode : Node := 0
  cplNode : Node := 0
  enable : Bool := false
  drain : Bool := false
  cqBase : Nat := 0
  sqTail : BitVec 16 := 0
  cqTail : BitVec 16 := 0
  cqHead : BitVec 16 := 0
  submitted : Nat := 0
  completed : Nat := 0
  charged : Nat := 0
  taken : Nat := 0
  entries : List Entry := []
  ready : List Cpl := []
  deriving DecidableEq, Repr

/-- Ring pairs and the RNG_ registers (R116, R123). -/
structure Rng where
  rings : AMap Ring := []
  sel : Nat := 0
  entry : List Byte := List.replicate 64 0
  err : Bool := false
  busy : Bool := false
  discards : Nat := 0
  deriving DecidableEq, Repr

/-- What a read of a requester buffer is for. -/
inductive ReadFor where
  | operands (ring idx : Nat)
  | op (id buf : Nat)
  deriving DecidableEq, Repr

/-- An outstanding read of a requester buffer (R119, R462). -/
structure ReqRead where
  for_ : ReadFor
  node : Node
  addr : Nat
  len : Nat
  key : Nat
  got : List Byte := []
  resends : Nat := 0
  deriving DecidableEq, Repr

/-- A TILE_WRITE not yet acknowledged (R238). `lay` is the layer of the schedule, `tile` the tile it belongs
to, none for a record or an output; `last` the count under its key of its last flit, which left a port at `left`. -/
structure TileMsg where
  op : Nat
  lay : Nat
  tile : Option Nat
  dst : Node
  addr : Nat
  key : Nat
  bytes : List Byte
  resends : Nat := 0
  last : Option Nat := none
  left : Option Nat := none
  deriving DecidableEq, Repr

/-- Outstanding traffic toward requesters. -/
structure Io where
  reads : AMap ReqRead := []
  tiles : AMap TileMsg := []
  nextTag : Nat := 1
  deriving DecidableEq, Repr

/-! ### Pages, sequences (05, 08) -/

/-- Where a page's data lives (Table 5.6). -/
inductive Tier where
  | hamper | hbm | slc | bulk | peer | dropped
  deriving DecidableEq, Repr

/-- A head record (Table 8.3); errors are FP32 patterns. -/
structure HeadRec where
  kErr : BitVec 32 := 0
  vErr : BitVec 32 := 0
  kSat : Nat := 0
  vSat : Nat := 0
  kOut : Nat := 0
  vOut : Nat := 0
  deriving DecidableEq, Repr

/-- The sections of an encoded image (Table 8.4): one code per element, table entries or exponents, outlier
counts, outlier records (raw value, index in group). -/
structure EncImg where
  kc : List Nat := []
  vc : List Nat := []
  kt : List Nat := []
  vt : List Nat := []
  oc : List Nat := []
  ol : List (Nat × Nat) := []
  deriving DecidableEq, Repr

/-- A page's stored bytes: rows as appended, or an encoded image. -/
inductive Content where
  | raw (rows : List (List Byte))
  | enc (img : EncImg)
  deriving DecidableEq, Repr

/-- A page: its leaf (Table 5.5) and what the home holds: `run` and `metaRun` in HBM, `spill` the space of a spill page, in 256-byte
units. -/
structure Page where
  size : Nat := 0
  tier : Tier := .hbm
  codec : Nat := 0
  durable : Bool := false
  moving : Bool := false
  home : Nat := 0
  gen : BitVec 7 := 0
  rows : Nat := 0
  sealed : Bool := false
  content : Content := .raw []
  run : Option Run := none
  metaRun : Option Run := none
  hasMeta : Bool := false
  sketch : Option (List (BitVec 16)) := none
  heads : List HeadRec := []
  inherited : Bool := false
  sealSeq : Nat := 0
  sealTime : Nat := 0
  sealEpoch : Nat := 0
  layer : Nat := 0
  first : Nat := 0
  seq : Nat := 0
  spill : List Run := []
  rawForLife : Bool := false
  backing : Option Nat := none
  oldBacking : Option Nat := none
  part : Nat := 0
  tenant : Nat := 0
  sid : Nat := 0
  bid : Option Nat := none
  desc : List Byte := []
  deriving DecidableEq, Repr

/-- A table entry: a page of its own, or a shared record index (R142). -/
inductive PRef where
  | own (p : Page)
  | shared (r : Nat)
  deriving DecidableEq, Repr

/-- One mapped page of a sequence: layer, first position, size code, and the generation of an entry that is SHARED (an entry of its
own page has the page's). -/
structure PEnt where
  layer : Nat
  first : Nat
  size : Nat
  ref : PRef
  gen : BitVec 7 := 0
  deriving DecidableEq, Repr

/-- A sequence table entry (Table 5.1) with its tables and pages. -/
structure Seq where
  durable : Bool := false
  model : Nat := 0
  ctx : Nat := 0
  part : Nat := 0
  tenant : Nat := 0
  hint : Nat := 0
  prio : Nat := 0
  length : Nat := 0
  dirSpan : Nat := 0
  dirRun : Option Run := none
  l2 : List (Nat × Nat × Run) := []
  parent : Nat := 0
  parentSid : Nat := 0
  forked : Bool := false
  forkLen : Nat := 0
  serial : Nat := 0
  pages : List PEnt := []
  sid : Nat := 0
  closing : Bool := false
  rebuild : List Nat := []
  deriving DecidableEq, Repr

/-- A shared record (R142) with its shared-hint word (R274). -/
structure SharedRec where
  page : Page
  count : Nat
  hint : Nat := 0
  prio : Nat := 0
  deriving DecidableEq, Repr

/-- A recompute ticket (Table 5.14). -/
structure Ticket where
  num : Nat
  handle : Nat
  reason : Nat
  first : Nat
  count : Nat
  layer : Nat
  layers : Nat
  time : Nat
  epoch : Nat
  deriving DecidableEq, Repr

/-- A lookaside entry (R144): handle, layer, page first position, size code, range, the leaf it resolved to, shared record. -/
structure PlbEnt where
  handle : Nat
  layer : Nat
  first : Nat
  size : Nat := 0
  range : Nat := 0
  leaf : BitVec 64 := 0
  rec_ : Option Nat := none
  deriving DecidableEq, Repr

/-- Sequences and paging (05). `plb` and `seqCache` hold, by page walk unit, its lookaside buffer and its sequence cache, newest
first (R144). -/
structure Seqs where
  tab : AMap Seq := []
  serials : AMap Nat := []
  freeQ : FreeQ := { bound := 16777216 }
  recs : AMap SharedRec := []
  md : AMap (List Byte) := []
  mdSel : Nat := 0
  mdData : List Byte := List.replicate 64 0
  mdErr : Bool := false
  mdBusy : Bool := false
  tktRing : AMap (Nat × Bool) := []
  tickets : AMap (List Ticket) := []
  tktNext : Nat := 1
  tktLost : AMap Nat := []
  ladder : AMap (List Nat) := []
  plb : AMap (List PlbEnt) := []
  seqCache : AMap (List (Nat × List Byte)) := []
  plbHit : AMap Nat := []
  plbMiss : AMap Nat := []
  sealSeq : Nat := 0
  deriving DecidableEq, Repr

/-! ### Prefix store and cascade (06, 14) -/

/-- An exact row or overflow slot in use (Table 6.2). Its tier_hint is what the block's pages give at any moment. -/
structure Row where
  tag : Nat
  prio : Nat
  owner : Nat
  lock : Bool
  block : Nat
  gen : Nat
  deriving DecidableEq, Repr

/-- Where a block's entry is (Table 6.3). -/
inductive Loc where
  | array (bank row : Nat)
  | overflow (bucket slot : Nat)
  deriving DecidableEq, Repr

/-- Block table state (Table 6.3). -/
inductive BlkState where
  | pending | published | retiring
  deriving DecidableEq, Repr

/-- A block table entry with its verification record and layer list (R178). -/
structure Block where
  state : BlkState
  durable : Bool
  locked : Bool
  owner : Nat
  gen : Nat
  loc : Option Loc
  recs : List Nat
  run : Option Run
  prio : Nat
  key : List Byte
  num : Nat
  bid : Nat
  parentBid : Nat
  pubSid : Nat
  part : Nat
  model : Nat
  deriving DecidableEq, Repr

/-- A policy row (Table 6.6). -/
structure PolRow where
  value : Nat
  mask : Nat
  action : Nat
  deriving DecidableEq, Repr

/-- A key in the pending table (R192). -/
structure PendKey where
  owner : Nat
  key : List Byte
  op : Nat
  deriving DecidableEq, Repr

/-- The prefix store (06). Rows are keyed by 65,536 * bank + row, overflow slots by 4 * bucket + slot. -/
structure Pfx where
  rows : AMap Row := []
  ovf : AMap Row := []
  blocks : AMap Block := []
  gens : AMap Nat := []
  freeQ : FreeQ := { bound := 33554432 }
  pol : List PolRow := []
  polSel : Nat := 0
  polVal : Nat := 0
  polMask : Nat := 0
  polAct : Nat := 0
  polErr : Bool := false
  polBusy : Bool := false
  pending : List PendKey := []
  patrolRow : Nat := 256
  pubCount : AMap Nat := []
  rebuilding : List Nat := []
  bankErr : AMap Nat := []
  searches : Nat := 0
  tagHits : Nat := 0
  verifyFail : Nat := 0
  patrolFix : Nat := 0
  ovfTags : Nat := 0
  pubOk : Nat := 0
  pubAlready : Nat := 0
  pubDivergent : Nat := 0
  deriving DecidableEq, Repr

/-- A cascade position as this device sees it (R423, Table 14.7). -/
structure PosSt where
  hellos : Nat := 0
  live : Bool := false
  digestBad : Bool := false
  epoch : Nat := 0
  deriving DecidableEq, Repr

/-- A search latched at a member (R204 step 2): keys, owner class and the winner of each tag. -/
structure MSearch where
  sid : Nat
  master : Node
  key : Nat
  owner : Nat
  keys : List (List Byte)
  wins : List (Option (Nat × Row))
  deriving DecidableEq, Repr

/-- The master's lookup in progress (R204, R428, R431). -/
structure MLookup where
  op : Nat
  sid : Nat
  view : Nat
  owner : Nat
  bankSet : Nat
  keys : List (List Byte)
  wins : List (Option (Nat × Row))
  acks : List (Nat × List Nat)
  awaited : List Nat
  results : List (Nat × List ResEntry)
  stirrup : Bool
  maxes : List Nat := []
  kept : List Bool := []
  stalled : Bool := false
  deriving DecidableEq, Repr

/-- Beat counting on the Stirrup bus (R206, R207). -/
structure Stirrup where
  count : Nat
  beat : Nat := 0
  prios : List Nat
  won : List Bool := []
  final : List Bool := []
  deriving DecidableEq, Repr

/-- An export slot (R432). `seen` holds, by layer, the codec of the image that the present run of READs began with. -/
structure Export where
  holder : Node
  block : Nat
  gen : Nat
  layers : Nat
  released : List Nat
  recs : List Nat
  run : Option Run
  part : Nat
  seen : List (Nat × Nat) := []
  deriving DecidableEq, Repr

/-- An import record (R433). -/
structure Import where
  node : Node
  handle : Nat
  seq : Nat
  first : Nat
  tokens : Nat
  recs : List Nat
  released : List Nat := []
  deriving DecidableEq, Repr

/-- Who reads a page from a peer, each for itself: an op, a work unit, or a run of READs served of a page that is itself a Peer page
(export slot and layer). -/
inductive PeerFor where
  | op (id : Nat)
  | unit (id : Nat)
  | chain (slot layer : Nat)
  deriving DecidableEq, Repr

/-- A peer READ in flight (R434). -/
structure PeerRead where
  who : PeerFor
  node : Node
  handle : Nat
  layer : Nat
  offset : Nat
  len : Nat
  rec_ : Nat
  resends : Nat := 0
  deriving DecidableEq, Repr

/-- What has arrived of the image of a record's Peer page, for one reader (R434). -/
structure PeerImg where
  who : PeerFor
  rec_ : Nat
  bytes : List Byte
  deriving DecidableEq, Repr

/-- A READ that waits for bytes of a page that is itself a Peer page. -/
structure ChainRead where
  port : Nat
  src : Node
  key : Nat
  tag : Nat
  handle : Nat
  layer : Nat
  offset : Nat
  len : Nat
  deriving DecidableEq, Repr

/-- Cascade group state (14). `matchOut` holds the beats driven on MATCH_OUT; `abandoned` the searches that have ended or
been given up, and the layers of their models. -/
structure Casc where
  view : Nat := 0
  mask : Nat := 0
  masterPos : Nat := 0
  highest : Nat := 0
  pos : List PosSt := List.replicate 8 {}
  searches : List MSearch := []
  lookup : Option MLookup := none
  stirrup : Option Stirrup := none
  matchOut : List Nat := []
  abandoned : List (Nat × Nat) := []
  nextSid : Nat := 0
  exports : AMap Export := []
  exportQ : FreeQ := { bound := 1048576 }
  imports : AMap Import := []
  reads : AMap PeerRead := []
  images : List PeerImg := []
  chained : List ChainRead := []
  viewChanges : Nat := 0
  dorlinkResolve : Nat := 0
  peerRefused : Nat := 0
  peerSwept : Nat := 0
  deriving DecidableEq, Repr

/-! ### Ops in progress (05 to 11) -/

/-- Names a page: of a sequence, of a shared record, or a weight tile. -/
inductive PageAt where
  | seq (handle layer first : Nat)
  | rec_ (idx : Nat)
  | tile (obj i : Nat)
  deriving DecidableEq, Repr

/-- A page of an entry, as its positions are read: its place, what it holds, and the record of a Peer page whose image is still to
come. -/
structure Seen where
  at_ : PageAt
  page : Page
  peer : Option Nat
  deriving DecidableEq, Repr

/-- A tile staged in the Hamper ahead of its turn (R239, R292): its pages out of flash or from a peer, and the bytes held. -/
structure Staged where
  tile : Nat
  pages : List Seen
  bytes : Nat
  deriving DecidableEq, Repr

/-- How far a need has come down the ladder (R158): at its top; its step 2 waiting for the write path; step 2 or 3 waiting for the
frames of its victim, which are `runs`, to fall free (R148), after move `move` where it is under way, `made` once the page has gone;
or past step 2. -/
inductive Descent where
  | top
  | asking
  | freeing (step : Nat) (move : Option Nat) (runs : List Run) (made : Bool)
  | past
  deriving DecidableEq, Repr

/-- What each block of a lookup's run is attached from (R186): a block here, or an export handle of another member. -/
inductive Source where
  | here (block gen : Nat)
  | peer (node handle : Nat)
  deriving DecidableEq, Repr

/-- A lookup whose search has ended and that attaches (R186, R187): the sources still to attach, the blocks attached, the run that
its keys verified, what each key gave and its result entry, and its need for a table. -/
structure AttachSt where
  rest : List Source
  srcs : List Source
  done : Nat := 0
  full : Nat
  hits : List Bool
  failed : List Bool
  ents : List (Option Nat)
  need : Descent := .top
  deriving DecidableEq, Repr

/-- An append in progress (R149 to R162): what it writes and what has happened so far. `todo` holds the pages a REPLACE has still to
refill, and `need` how far its present need has come. -/
structure AppendSt where
  seq : Nat
  replace : Bool
  first : Nat
  count : Nat
  firstLayer : Nat
  layers : Nat
  src : Node
  addr : Nat
  stride : Nat
  stored : Nat := 0
  spilled : List (Nat × Nat) := []
  drops : Nat := 0
  demotions : Nat := 0
  replaced : Nat := 0
  need : Descent := .top
  begun : Bool := false
  todo : List (Nat × Nat) := []
  next : Nat := 0
  held : List (Nat × Page) := []
  later : List (Nat × Nat) := []
  result : Option Nat := none
  waitAck : List Nat := []
  deriving DecidableEq, Repr

/-- One entry of a length table (Table 7.3). -/
structure LenEnt where
  seq : Nat
  cached : Nat
  new : Nat
  segment : Nat
  q : Nat
  deriving DecidableEq, Repr

/-- The part of a row's attention a work unit returns: m, l and O (R223), or its part of dQ in O (R232), FP32 patterns.
`first` is the position of its first key. -/
structure PartRes where
  entry : Nat
  head : Nat
  token : Nat
  row : Nat
  first : Nat
  m : BitVec 32
  l : BitVec 32
  o : List (BitVec 32)
  keys : Nat
  kErr : BitVec 32
  vErr : BitVec 32
  deriving DecidableEq, Repr

/-- A page that a selection skips: its first position, its keys, and each query row's bound (R229, R231). -/
structure Skip where
  first : Nat
  keys : Nat
  ubs : List (BitVec 32)
  deriving DecidableEq, Repr

/-- What is fixed for an (entry, KV head, query block) when its first span starts (R230): the rung, the first positions
of the pages attended, and the pages skipped. -/
structure Select where
  entry : Nat
  head : Nat
  qFirst : Nat
  rung : Nat
  pages : List Nat
  skipped : List Skip
  deriving DecidableEq, Repr

/-- An attention op in progress (R212 to R245). `clusters` lists the clusters that have run spans of an entry and KV head. `ladder` to `tol` are what applies after R357; `total` counts the units
cut and `left` those that have not ended; `failed` lists the entries not computed; `rates` holds, by codec and tier, the core
time and the keys of the units that have ended (R356). -/
structure AttnSt where
  opcode : Nat
  desc : List Byte
  ents : List LenEnt
  ladder : Nat
  k : Nat
  sink : Nat
  window : Nat
  tol : BitVec 16
  total : Nat := 0
  left : Nat := 0
  cut : Bool := false
  parts : List PartRes := []
  selects : List Select := []
  failed : List Nat := []
  dropped : Bool := false
  poisoned : Bool := false
  revoked : Bool := false
  clusters : List (Nat × Nat × Nat) := []
  rates : List ((Nat × Nat) × (Nat × Nat)) := []
  deriving DecidableEq, Repr

/-- Tiles sent in order: of one layer of a fetch, or of a weight stream. `lateIdx` lists the tiles that left late, `lost`
those counted as not sent after they had left; `ackAt` is when a message was last acknowledged (R240). -/
structure TileSt where
  next : Nat := 0
  staged : List Staged := []
  sent : Nat := 0
  unsent : Nat := 0
  lateIdx : List Nat := []
  lost : List Nat := []
  dropped : Bool := false
  poisoned : Bool := false
  err : BitVec 32 := 0
  ackAt : Option Nat := none
  recDone : Bool := false
  deriving DecidableEq, Repr

/-- A fetch in progress (R236 to R243): the layer it is at, the layers whose gathering has begun, its layers, and the first layer sent as
stored where the AS_STORED rung has been taken. -/
structure FetchSt where
  desc : List Byte
  lay : Nat := 0
  ahead : Nat := 2
  lays : List TileSt
  storedFrom : Option Nat := none
  deriving DecidableEq, Repr

/-- A prefetch in progress (R242): pages still to take, with their layer of the schedule, and the moves under way. -/
structure PrefetchSt where
  desc : List Byte
  todo : List (Nat × PageAt)
  moved : Nat := 0
  already : Nat := 0
  notMoved : Nat := 0
  dropped : Bool := false
  quota : Bool := false
  late : Bool := false
  moves : List Nat := []
  deriving DecidableEq, Repr

/-- A publish in progress (R194): `stage` is the step it waits at (5, 7) or goes on from (8 the search, 9 the compare and the switch). Of
an existing block it has `found`, its index and generation, the records held, and whether the publish is counted and compared. -/
structure PubSt where
  seq : Nat
  block : Nat
  adapter : Nat
  prio : Nat
  tol : BitVec 16
  parent : List Byte
  key : List Byte
  stage : Nat := 0
  found : Option (Nat × Nat) := none
  refs : List Nat := []
  counted : Bool := false
  compare : Bool := false
  id : Nat := 0
  deriving DecidableEq, Repr

/-- An append record of a STEP (R347). -/
structure StepRec where
  app : AppendSt
  started : Bool := false
  issued : Nat := 0
  readFailed : Bool := false
  status : Option (Nat × Nat × Nat × Nat) := none
  deriving DecidableEq, Repr

/-- What an op in progress holds. -/
inductive OpBody where
  | seqClose (seq : Nat)
  | append (a : AppendSt)
  | attn (a : AttnSt)
  | fetch (f : FetchSt)
  | prefetch (f : PrefetchSt)
  | stream (obj first count : Nat) (t : TileSt)
  | wtLoad (obj first count : Nat) (seals : Bool) (pending : List Nat)
  | publish (p : PubSt)
  | lookup (attach : Option AttachSt)
  | seqOpen (need : Descent)
  | seqFork (seq : Nat) (runs : List Run) (need : Descent)
  | extGrant (ext : Nat)
  | extRevoke (ext : Nat)
  | migrate (todo : List PageAt) (moved already notMoved : Nat) (dropped quota : Bool) (moves : List Nat)
  | discard (secure : Bool) (kind obj : Nat) (done : Bool) (freed kept copies count : Nat) (blocks : List Nat)
  | step (recs : List StepRec) (results : Nat) (flags : Nat) (attn : Option AttnSt) (ans : Option (List Nat))
  deriving DecidableEq, Repr

/-- An op in progress: the entry it serves and its body. `solos` holds its solo estimate at each rung; `cls` and `units` are
the predictor class and the work of an op without work units (R356). -/
structure Op where
  ring : Nat
  idx : Nat
  ctx : Nat
  tag : Nat
  opcode : Nat
  raw : List Byte
  arrival : Nat
  deadline : Nat
  bufs : AMap (List Byte) := []
  failed : Bool := false
  rung : Nat := 0
  maxRung : Nat := 0
  began : Bool := false
  preempted : Bool := false
  solo : Nat := 0
  solos : List Nat := []
  cls : Nat × Nat := (0, 1)
  units : Nat := 0
  startTime : Nat := 0
  body : OpBody
  deriving DecidableEq, Repr

/-- Ops in progress. -/
structure Ops where
  tab : AMap Op := []
  next : Nat := 0
  deriving DecidableEq, Repr

/-! ### Attention units, cores, codecs, tiers (07 to 09) -/

/-- Where a work unit stands (R343, R351, R353). -/
inductive UState where
  | queued
  | running (cluster core since : Nat) (stopped : Bool)
  | saved (cluster core : Nat)
  deriving DecidableEq, Repr

/-- A work unit (R219 to R221): keys [lo, hi) of its entries before splitting, of which it takes span `span` of `spans`.
`codec` and `tier` choose its predictor entry; `slot` is the save slot it was saved into and `live` the bytes saved; `used` is
the core time it has had (R342); `seen` holds for each entry the pages its walk resolved when it started. -/
structure WUnit where
  op : Nat
  ctx : Nat
  part : Nat
  entries : List Nat
  heads : List Nat
  qFirst : Nat
  qCount : Nat
  lo : Nat
  hi : Nat
  span : Nat
  spans : Nat
  grouped : Bool
  codec : Nat
  tier : Nat
  rung : Nat := 0
  live : Nat := 0
  slot : Option Nat := none
  used : Nat := 0
  id : Nat := 0
  seen : List (Nat × List Seen) := []
  st : UState := .queued
  deriving DecidableEq, Repr

/-- Attention registers and work units (R247). -/
structure Attn where
  splitEn : Bool := true
  groupEn : Bool := true
  units : AMap WUnit := []
  nextUnit : Nat := 0
  ops : List Nat := List.replicate 5 0
  keys : Nat := 0
  grouped : Nat := 0
  split : Nat := 0
  skippedPages : Nat := 0
  tolRows : Nat := 0
  failed : Nat := 0
  tilesSent : Nat := 0
  tilesLate : Nat := 0
  tilesResent : Nat := 0
  prefetched : Nat := 0
  deriving DecidableEq, Repr

/-- Core stores by byte, keyed by 2^20 * core + space offset; an unlisted byte is 0 (R352, R393). `halted` gives each halted
core the count at which it was halted. -/
structure Cores where
  mem : AMap (BitVec 8) := []
  dirty : List Nat := []
  halted : AMap Nat := []
  deriving DecidableEq, Repr

/-- A place in the encode queue (R260): waiting, or encoding into a run. -/
structure EncItem where
  at_ : PageAt
  part : Nat
  order : Nat
  metaOnly : Bool := false
  run : Option Run := none
  deriving DecidableEq, Repr

/-- The codec unit (08). `tables` holds, of each HBM controller's expander, the addresses of the tables used last, the newest first (R267). -/
structure Cdc where
  encQ : List EncItem := []
  rotation : AMap Nat := []
  enc : List Nat := List.replicate 3 0
  kept : Nat := 0
  e8Sat : Nat := 0
  outliers : Nat := 0
  cut : Nat := 0
  trim : Nat := 0
  tilesStored : Nat := 0
  tilesExpanded : Nat := 0
  tableMiss : Nat := 0
  tables : AMap (List Nat) := []
  deriving DecidableEq, Repr

/-- A move in progress (R281). `op` is the op waiting for it; `image` the flash image being written. -/
structure Move where
  at_ : PageAt
  toHbm : Bool
  part : Nat
  run : Option Run := none
  metaRun : Option Run := none
  image : Option Nat := none
  op : Option Nat := none
  heatTo : Option Nat := none
  lay : Nat := 0
  deriving DecidableEq, Repr

/-- The tier mover and heat (09). -/
structure Tiers where
  sampleLog2 : Nat := 6
  promote : Nat := 192
  demote : Nat := 64
  lowLog2 : Nat := 4
  highLog2 : Nat := 3
  warm : Bool := false
  sweep : Bool := false
  quotaErr : Bool := false
  due : Nat := 0
  halvings : Nat := 0
  halvEnded : Nat := 0
  promoted : Nat := 0
  demoted : Nat := 0
  moveAbort : Nat := 0
  access : AMap Nat := []
  samples : Nat := 0
  heat : AMap Nat := []
  flashHeat : AMap (Nat × Nat) := []
  moves : AMap Move := []
  nextMove : Nat := 0
  cap : List Nat := List.replicate 5 0
  wtSel : Nat := 0
  relief : List Nat := []
  deriving DecidableEq, Repr

/-- A weight object (R289, R290). `tiles` are written in order; `toHold` are those that its seal is still to bring to HBM (Table 9.2). -/
structure WtObj where
  oid : Nat
  part : Nat
  tenant : Nat
  size : Nat
  hint : Nat
  prio : Nat
  sealed : Bool := false
  digest : List Byte := []
  tiles : List Page := []
  table : Option Run := none
  rebuild : List Nat := []
  toHold : List Nat := []
  deriving DecidableEq, Repr

/-- Weight objects. -/
structure Wt where
  objs : AMap WtObj := []
  freeQ : FreeQ := { bound := 1048576 }
  deriving DecidableEq, Repr

/-! ### Flash (10) -/

/-- State of a flash block. -/
inductive FbState where
  | free | opened | closed | retired
  deriving DecidableEq, Repr

/-- A flash block (R315): keyed by 2^14 * die + block, die = 16 * channel + target. -/
structure FBlock where
  erases : Nat := 0
  st : FbState := .free
  use : Nat := 0
  stripe : Option Nat := none
  deriving DecidableEq, Repr

/-- A stripe of 16 blocks, fewer on dies left over (R303, R326, R327): use as in Table 10.8, granules written, parity kept. One that is
freed keeps what its blocks hold until they are erased, and is `whole` until the first of them is; one that a DISCARD_SECURE has listed
is `leaving` until its other live data has been copied out (R329). -/
structure Stripe where
  use : Nat
  region : Nat
  blocks : List Nat
  fill : Nat := 0
  closed : Bool := false
  parity : Bool := true
  collectFirst : Bool := false
  opened : Nat := 0
  holds : List (Nat × Nat) := []
  freed : Bool := false
  whole : Bool := true
  leaving : Bool := false
  deriving DecidableEq, Repr

/-- A logical unit: map entry and ledger (R307, R308). Kind 0 unmapped, 1 large, which lies in a slot of a stripe, 2 fine, which takes
the fine table `table`. -/
structure FUnit where
  kind : Nat := 0
  region : Nat := 0
  alloc : Nat := 0
  heat : Nat := 0
  slot : Option (Nat × Nat) := none
  table : Option Nat := none
  padded : Bool := false
  deriving DecidableEq, Repr

/-- Granules of an image in one logical unit, or of a record, programmed one after another: `n` of them, the first at place `at_` of its
stripe, with the sequence number of the first and the copy generation (R324). -/
structure FPlace where
  stripe : Nat
  at_ : Nat
  n : Nat
  unit : Nat
  seq : Nat
  gen : Nat
  deriving DecidableEq, Repr

/-- Identity of an image (Table 10.7). -/
inductive Ident where
  | page (handle layer sid first size codec : Nat)
  | block (layer bid : Nat)
  | tile (handle oid i : Nat)
  deriving DecidableEq, Repr

/-- An image in flash or on its way there (R314). One that a move writes is charged at the move's step 5 (R286). -/
structure FImage where
  ident : Ident
  tenant : Nat
  part : Nat
  seq : Nat
  gen : Nat := 0
  unit : Nat
  granule : Nat
  granules : Nat
  programmed : Bool := false
  bulk : Bool := false
  durable : Bool := false
  backing : Bool := false
  waiting : Bool := false
  lost : Bool := false
  page : Page
  move : Option Nat := none
  charged : Bool := true
  places : List FPlace := []
  folded : List Nat := []
  live : Bool := true
  deriving DecidableEq, Repr

/-- Catalog records (Table 10.9). -/
inductive CatRec where
  | seq (handle sid : Nat) (open_ : Bool) (model tenant part : Nat) (durable : Bool) (hint prio length : Nat)
      (tailOpen : Bool) (parentSid forkLen : Nat)
  | attach (sid first run lastBid : Nat)
  | block (bid parentBid : Nat) (key : List Byte) (owner prio : Nat) (lock : Bool) (num pubSid part model : Nat)
  | retire (bid : Nat)
  | weight (handle oid size hint prio : Nat) (sealed : Bool) (digest : List Byte) (part tenant : Nat)
  | end_ (oid : Nat)
  deriving DecidableEq, Repr

/-- What a durable record holds: journal rows (R311) or a catalog record (R316). -/
inductive RecBody where
  | journal (handle sid layer layers first count : Nat) (rows : List (List (List Byte)))
  | catalog (c : CatRec)
  deriving DecidableEq, Repr

/-- A journal or catalog record; `turn` is its place in the order of acknowledgement (R311). -/
structure FRec where
  body : RecBody
  bytes : Nat
  tenant : Nat
  seq : Nat
  durable : Bool
  acked : Bool := false
  turn : Nat := 0
  programmed : Bool := false
  live : Bool := true
  op : Option Nat := none
  places : List FPlace := []
  deriving DecidableEq, Repr

/-- The FTL (10). `onDemand` lists the regions of the flash map that on-demand scans read, in order, and
`asked` the sequences and weight objects (true) asked for before the block pass has ended (R79). `ghosts` are images unmapped in the map, which lives in HBM, whose pages flash may still hold (R332). -/
structure Ftl where
  geo : Geometry := { tbit := 0, bitsPerCell := 0, wordlines := 0, blocks := 0 }
  dies : List Nat := []
  offline : List Nat := []
  blocks : AMap FBlock := []
  stripes : AMap Stripe := []
  nextStripe : Nat := 0
  nextGroup : Nat := 0
  withheld : List (Nat × Nat × Nat) := []
  units : AMap FUnit := []
  images : AMap FImage := []
  ghosts : AMap FImage := []
  recs : AMap FRec := []
  nextId : Nat := 0
  nextTurn : Nat := 0
  seqNo : Nat := 1
  reserveUsed : Nat := 0
  reserveReady : Bool := false
  rewritePct : Nat := 60
  patrolEn : Bool := true
  dieSel : Nat := 0
  errs : List Nat := List.replicate 8 0
  secure : Nat := 0
  freeTick : Nat := 0
  heatSamples : Nat := 0
  onDemand : List Nat := []
  asked : List (Bool × Nat) := []
  deriving DecidableEq, Repr

/-! ### Scheduling (11) -/

/-- A context entry (Table 11.1), its virtual time and its accounts (R363). -/
structure Ctx where
  enable : Bool := false
  part : Nat := 0
  tenant : Nat := 0
  weight : Nat := 0
  ladder : Nat := 0
  sketchK : Nat := 0
  sink : Nat := 0
  window : Nat := 0
  tol : Nat := 0
  clusters : Nat := 0
  v : BitVec 64 := 0
  cyc : Nat := 0
  preempt : Nat := 0
  save : Nat := 0
  late : Nat := 0
  abstained : Nat := 0
  rungs : List Nat := List.replicate 4 0
  waits : List Nat := List.replicate 16 0
  slow : Nat := 0
  slowOps : Nat := 0
  actual : Nat := 0
  solo : Nat := 0
  opsDone : Nat := 0
  deriving DecidableEq, Repr

/-- Stage of a slice switch (R351). -/
inductive Switch where
  | none | stopping | saving | scrubbing | restoring
  deriving DecidableEq, Repr

/-- Stage of a partition reset (Table 11.5). -/
inductive ResetSt where
  | none | clearing | testing
  deriving DecidableEq, Repr

/-- Run-time state of a partition (11). -/
structure Part where
  mgmtValid : Bool := false
  mgmtCtx : Nat := 0
  reset : ResetSt := .none
  switch : Switch := .none
  running : Nat := 0
  slice : Option Nat := none
  expired : Bool := false
  outgoing : Option Nat := none
  incoming : Option Nat := none
  slots : List (Option Nat) := List.replicate 4 none
  resets : Nat := 0
  scrubbing : Bool := false
  deriving DecidableEq, Repr

/-- The scheduler (11). -/
structure Sch where
  ctxs : AMap Ctx := []
  parts : AMap Part := []
  quantum : Nat := 10
  cheapWait : Nat := 4
  monitorEn : Bool := true
  ctxSel : Nat := 0
  ctxData : List Byte := List.replicate 32 0
  ctxErr : Bool := false
  ctxBusy : Bool := false
  acctSel : Nat := 0
  pred : List Cost := []
  deriving DecidableEq, Repr

/-! ### Security (12) -/

/-- A key-table entry (R110, R111, R377, R385). `hi` is the highest accepted count, none before the first. -/
structure JobKey where
  dying : Bool := false
  tenant : Nat
  node : Node
  bytes : List Byte
  pair : Bool := false
  mgmt : Bool := false
  hi : Option Nat := none
  seen : List Nat := []
  sent : Nat := 0
  discarded : Nat := 0
  deriving DecidableEq, Repr

/-- An SPDM session (R381, R383). -/
structure Session where
  node : Node
  finished : Bool := false
  kmSeq : Nat := 0
  ems : List Byte := []
  key : Nat := 0
  deriving DecidableEq, Repr

/-- A key-management request whose signature has been verified (R383). -/
structure KmReq where
  session : Nat
  code : Nat
  flags : Nat
  seq : Nat
  body : List Byte
  deriving DecidableEq, Repr

/-- A removal in progress, or the close of one key (R391), with the counts of Table 12.8. `stage` is 0 while step 2 waits for a
slice switch, 1 in the drain and 2 in the scrubs. -/
structure Removal where
  tenant : Option Nat
  erase : Bool
  session : Nat
  seq : Nat
  code : Nat
  keys : List Nat
  aborted : Nat := 0
  units : Nat := 0
  flits : Nat := 0
  scrubs : List Nat := []
  stage : Nat := 0
  deriving DecidableEq, Repr

/-- A tenant number (R373, R379). -/
structure Tenant where
  created : Bool := false
  flashKey : Option (List Byte) := none
  removing : Bool := false
  deriving DecidableEq, Repr

/-- An image-root fuse slot (R374). -/
structure Root where
  digest : List Byte := List.replicate 64 0
  programmed : Bool := false
  revoked : Bool := false
  deriving DecidableEq, Repr

/-- A model slot's binding (R367, R388). -/
structure SlotBind where
  tenant : Nat := 0
  bound : Bool := false
  scope : Bool := false
  deriving DecidableEq, Repr

/-- The security unit (12). -/
structure Sec where
  keys : AMap JobKey := []
  sessions : AMap Session := []
  nextSession : Nat := 0
  tenants : AMap Tenant := [(0, { created := true })]
  km : List KmReq := []
  removals : List Removal := []
  roots : List Root := List.replicate 4 {}
  matched : Option Nat := none
  slots : AMap SlotBind := []
  scrubs : AMap Nat := []
  aborts : Nat := 0
  keySel : Nat := 0
  tenantSel : Nat := 0
  fuseData : List Byte := List.replicate 64 0
  fuseErr : Bool := false
  fuseBusy : Bool := false
  dbgCluster : Nat := 0
  dbgCore : Nat := 0
  dbgActive : Bool := false
  dbgSpace : Nat := 0
  dbgAddr : Nat := 0
  spdm : AMap (List Byte) := []
  deriving DecidableEq, Repr

/-- Management unit (15): I3C pointer and address, the two sets of latches (R455), the tenant-view snapshot,
and the words the last I3C read or common command returned. -/
structure Mgmt where
  i3cPtr : Nat := 0
  i3cAddr : Option Nat := none
  latI3c : List Nat := List.replicate 5 0
  latDl : List Nat := List.replicate 5 0
  view : AMap Nat := []
  reply : List Nat := []
  deriving DecidableEq, Repr

/-! ### The machine -/

/-- The whole FV7. `pending` is the queue of commands that wait; `free` numbers the free values (log 5). -/
structure State where
  pending : List Instr := []
  free : Nat := 0
  pins : Pins := {}
  pwr : Power := {}
  thm : Thermal := {}
  clk : Clock := {}
  start : StartSt := {}
  img : ImgSt := {}
  resp : Resp := {}
  tly : Tally := {}
  spare : Spare := {}
  bbx : Bbx := {}
  link : Link := {}
  coh : Coh := {}
  ext : Ext := {}
  hbm : Hbm := {}
  rng : Rng := {}
  io : Io := {}
  seqs : Seqs := {}
  pfx : Pfx := {}
  casc : Casc := {}
  ops : Ops := {}
  attn : Attn := {}
  core : Cores := {}
  cdc : Cdc := {}
  tier : Tiers := {}
  wt : Wt := {}
  ftl : Ftl := {}
  sch : Sch := {}
  sec : Sec := {}
  mgmt : Mgmt := {}
  deriving DecidableEq, Repr

/-- The machine right after reset: not yet seated, no start begun, every register at its Reset value (R457,
log 1), no command waiting. -/
def State.reset : State := {}

/-- Why a run stops with a fault. No meaning raises one: every error the spec describes is a status, an event
or a fatal class with FAULT_L (R417). -/
inductive Fault where
  /-- Raised by no meaning; safe. -/
  | unreachable
  deriving DecidableEq, Repr

/-- Why a command has no meaning. -/
inductive Refusal where
  /-- The command of this mnemonic has no meaning in the model yet; raised by `exec` alone; safe. -/
  | notModelled (mnemonic : String)
  deriving DecidableEq, Repr

/-- What a meaning answers. -/
abbrev Out := Host.Outcome State Fault Refusal

end Sys2Proof.Machine
end

