-- ==== Sys2Proof/Machine/Flags.lean ====
section
/-! DEFINITION. Status codes, event codes, message types, classes and the assembly of register words from fields. -/

namespace Sys2Proof.Machine

open Sys2Proof

/-! ### Status codes (Table 15.4) -/

abbrev stOk : Nat := 0x00
abbrev stApprox : Nat := 0x01
abbrev stSpilled : Nat := 0x02
abbrev stAlready : Nat := 0x03
abbrev stDivergent : Nat := 0x04
abbrev stNoSpace : Nat := 0x10
abbrev stDropped : Nat := 0x11
abbrev stLate : Nat := 0x12
abbrev stRevoked : Nat := 0x13
abbrev stKeyGone : Nat := 0x14
abbrev stLengthLimit : Nat := 0x15
abbrev stQuota : Nat := 0x16
abbrev stTallyWorn : Nat := 0x17
abbrev stVerifyMiss : Nat := 0x20
abbrev stPartReset : Nat := 0x30
abbrev stPoison : Nat := 0x31
abbrev stInternal : Nat := 0x3F

/-! ### Saddlebag event codes (Table 13.6) and freeze classes (Table 13.8) -/

abbrev evStart : Nat := 0x0001
abbrev evFreeze : Nat := 0x0002
abbrev evSuppressed : Nat := 0x0003
abbrev evImageReject : Nat := 0x0004
abbrev evFatal : Nat := 0x0005
abbrev evImageAccept : Nat := 0x0006
abbrev evPartReset : Nat := 0x0010
abbrev evSpareCore : Nat := 0x0011
abbrev evWithdrawn : Nat := 0x0012
abbrev evSpareBank : Nat := 0x0013
abbrev evHbmRepair : Nat := 0x0014
abbrev evHamper : Nat := 0x0015
abbrev evLaneSub : Nat := 0x0016
abbrev evPortFailed : Nat := 0x0017
abbrev evLaserSpare : Nat := 0x0018
abbrev evGeneration : Nat := 0x0019
abbrev evBridge : Nat := 0x001A
abbrev evChannel : Nat := 0x001B
abbrev evTallyWarn : Nat := 0x0020
abbrev evTallyRemap : Nat := 0x0021
abbrev evTallyWorn : Nat := 0x0022
abbrev evPoison : Nat := 0x0030
abbrev evWbDiscard : Nat := 0x0031
abbrev evDoorbell : Nat := 0x0032
abbrev evKmDiscard : Nat := 0x0033
abbrev evDebug : Nat := 0x0034
abbrev evDivergent : Nat := 0x0035
abbrev evThermosLow : Nat := 0x0036

abbrev clsPower : Nat := 0x1
abbrev clsUnplug : Nat := 0x2
abbrev clsRestart : Nat := 0x3
abbrev clsOperator : Nat := 0x4
abbrev clsClock : Nat := 0x8
abbrev clsThermal : Nat := 0x9
abbrev clsLeak : Nat := 0xA
abbrev clsImage : Nat := 0xB
abbrev clsMemory : Nat := 0xC
abbrev clsInternal : Nat := 0xD

/-- Whether a freeze class is fatal (Table 13.8). -/
def fatalClass (c : Nat) : Bool := c == clsPower || (decide (clsClock ≤ c) && decide (c ≤ clsInternal))

/-! ### Dorlink message types (Table 4.6) -/

abbrev mtRdUnc : Nat := 0x01
abbrev mtWrUnc : Nat := 0x02
abbrev mtRdS : Nat := 0x03
abbrev mtRdE : Nat := 0x04
abbrev mtUpg : Nat := 0x05
abbrev mtWb : Nat := 0x06
abbrev mtDoorbell : Nat := 0x08
abbrev mtPageRd : Nat := 0x0A
abbrev mtPageWr : Nat := 0x0B
abbrev mtData : Nat := 0x10
abbrev mtAck : Nat := 0x11
abbrev mtNak : Nat := 0x12
abbrev mtSnpResp : Nat := 0x13
abbrev mtCpl : Nat := 0x14
abbrev mtPageData : Nat := 0x15
abbrev mtSnpInv : Nat := 0x16
abbrev mtSnpShr : Nat := 0x17
abbrev mtTileWrite : Nat := 0x20
abbrev mtMgmtRd : Nat := 0x30
abbrev mtMgmtWr : Nat := 0x31
abbrev mtMgmtData : Nat := 0x32
abbrev mtSpdm : Nat := 0x33

/-- The channel of a message type (Table 4.6); none for a type the FV7 does not take. -/
def vcOf (t : Nat) : Option Nat :=
  if t ∈ [0x01, 0x02, 0x03, 0x04, 0x05, 0x06, 0x08, 0x0A, 0x0B] then some 0
  else if t ∈ [0x10, 0x11, 0x12, 0x13, 0x14, 0x15, 0x16, 0x17] then some 1
  else if t == 0x20 then some 2
  else if t ∈ [0x30, 0x31, 0x32, 0x33] then some 3
  else none

/-! ### Op-codes (Table 15.1) -/

abbrev opSeqOpen : Nat := 0x01
abbrev opSeqClose : Nat := 0x02
abbrev opSeqFork : Nat := 0x03
abbrev opKvAppend : Nat := 0x10
abbrev opKvFetch : Nat := 0x11
abbrev opKvPrefetch : Nat := 0x12
abbrev opAttnDecode : Nat := 0x20
abbrev opAttnChunk : Nat := 0x21
abbrev opAttnBwd : Nat := 0x22
abbrev opPfxLookup : Nat := 0x30
abbrev opPfxPublish : Nat := 0x31
abbrev opPfxRetire : Nat := 0x32
abbrev opObjHint : Nat := 0x40
abbrev opObjMigrate : Nat := 0x41
abbrev opDiscard : Nat := 0x48
abbrev opDiscardSecure : Nat := 0x49
abbrev opExtGrant : Nat := 0x50
abbrev opExtRevoke : Nat := 0x51
abbrev opWtLoad : Nat := 0x60
abbrev opWtStream : Nat := 0x61
abbrev opStep : Nat := 0x70
abbrev opNop : Nat := 0x7F

/-- The op-codes the FV7 accepts (R442). -/
def opKnown (c : Nat) : Bool :=
  [0x01, 0x02, 0x03, 0x10, 0x11, 0x12, 0x20, 0x21, 0x22, 0x30, 0x31, 0x32, 0x40, 0x41, 0x48, 0x49, 0x50, 0x51,
    0x60, 0x61, 0x70, 0x7F].contains c

/-- Ops that take the fallback ladder (R355). -/
def takesLadder (c : Nat) : Bool := [0x11, 0x20, 0x21, 0x22, 0x70].contains c

/-- A word assembled from (shift, value) fields. -/
def pack (fs : List (Nat × Nat)) : Nat := sum (fs.map fun f => f.2 * 2 ^ f.1)

/-- The flag bit at a shift. -/
def flagAt (sh : Nat) (b : Bool) : Nat × Nat := (sh, b2n b)

/-- A signed value in `w` bits of two's complement. -/
def signedField (w : Nat) (v : Int) : Nat := (v % (2 ^ w : Int)).toNat

/-- The lower of the low half and the high half of a 64-bit figure. -/
def lo32 (n : Nat) : Nat := n % 2 ^ 32
def hi32 (n : Nat) : Nat := n / 2 ^ 32 % 2 ^ 32

end Sys2Proof.Machine
end

