-- ==== Sys2Proof/Config.lean ====
section
/-! DEFINITION. What an implementation fixes and the manual leaves open: constants without a body, so that
no proof can rest on their value. Each is named in a log entry. -/

namespace Sys2Proof.Config

/-- A fresh free value of any width, numbered by the counter `State.free` (log 5). -/
opaque freeValue : (w : Nat) → Nat → BitVec w

/-- Which two of the terms still to be added the microcode's fixed and unstated order adds next (R224, R229, log 15). -/
opaque sumPair : List (BitVec 32) → Nat × Nat

/-- Which value within 2 ulp the FP32 exp gives (R224, log 15). -/
opaque fp32Exp : BitVec 32 → BitVec 32

/-- Which value within 1 ulp the FP32 reciprocal gives (R224, log 15). -/
opaque fp32Recip : BitVec 32 → BitVec 32

/-- FP32 natural logarithm, for the lse field (R217, log 15). -/
opaque fp32Ln : BitVec 32 → BitVec 32

/-- Sign and payload of a NaN that an operation on these operands gives (log 15). -/
opaque nanBits : List Nat → Nat

/-- The larger of two FP32 values of which one is a NaN (log 15). -/
opaque fp32MaxNan : BitVec 32 → BitVec 32 → BitVec 32

/-- The hash of destination and virtual channel that chooses a FABRIC port (R97, log 12). -/
opaque portHash : (dst vc : Nat) → Nat

/-- The snoop-filter set of a line (R99, log 12). -/
opaque snoopSet : Nat → Nat

/-- The HBM channel of a physical 2 KiB granule (R15, log 12). -/
opaque hbmChannel : Nat → Nat

/-- The flash heat cache's hash of a home (R278, log 12). -/
opaque heatHash : Nat → Nat

/-- The lookaside buffer's hash of (handle, layer, range) (R144, log 12). -/
opaque plbHash : (handle layer range : Nat) → Nat

/-- The bytes of a PARTITIONS section, whose layout the manual does not give (R423, log 11): clusters of each partition,
and whether it is space-only. -/
opaque partitionBytes : List (List Nat × Bool) → List Byte

/-- The 12 parity bytes of the RS(144, 132) codeword of 132 bytes: the manual gives no generator (R89, log 12). -/
opaque rsParity : List Byte → List Byte

/-- Body of an SPDM response that the FV7 signs or draws keys for, by request code, request and counter (R381, log 9). -/
opaque spdmBody : (code : Nat) → List Byte → Nat → List Byte

/-- The export master secret of a session (R377), from the exchange's counter (log 9). -/
opaque sessionSecret : Nat → List Byte

/-- 64 bytes drawn from the on-die CTR_DRBG (R379, log 9). -/
opaque drbg : Nat → List Byte

/-- The fused 64-bit serial number (R458, log 10). -/
opaque serial : Nat

/-- The unique device secret (R370, log 10). -/
opaque uds : List Byte

/-- The identity chain (R372): the first three certificates, and the alias certificate of the two key pairs formed from HKDF
output (R371), for an epoch (log 10). -/
opaque certChain : (identity alias_ : List Byte) → (epoch : Nat) → List Byte

/-- A measurement block in DMTF format (R382, log 9). -/
opaque dmtfBlock : (index : Nat) → List Byte → List Byte

/-- The AES-256 key of a session's secured messages (R370, log 9). -/
opaque sessionKey : Nat → List Byte

/-- Rated program and erase cycles and the qualification list are the microcode image's (R302, log 11). -/
opaque ratedCycles : (oneBit : Bool) → Nat

/-- The bus and device characteristics the I3C target answers GETBCR and GETDCR with (R452, log 18). -/
opaque i3cBcr : Nat
opaque i3cDcr : Nat

end Sys2Proof.Config
end

