-- ==== Sys2Proof/Machine/Fp.lean ====
section
/-! DEFINITION. BF16, FP16, E4M3 and FP32: exact values as m × 2^e, and rounding (07 R223, R224; 08 R255 to R263). -/

namespace Sys2Proof.Machine

open Sys2Proof

/-- A binary format: exponent bits, mantissa bits, and whether it has infinities (E4M3 has none). -/
structure Fmt where
  eb : Nat
  mb : Nat
  ieee : Bool := true
  deriving DecidableEq, Repr

def bf16 : Fmt := { eb := 8, mb := 7 }
def fp16 : Fmt := { eb := 5, mb := 10 }
def fp32 : Fmt := { eb := 8, mb := 23 }
def e4m3 : Fmt := { eb := 4, mb := 3, ieee := false }

/-- A number a format holds: finite (sign, m × 2^e), infinite or NaN. -/
inductive Num where
  | fin (neg : Bool) (m : Nat) (e : Int)
  | inf (neg : Bool)
  | nan
  deriving DecidableEq, Repr

def Fmt.bias (f : Fmt) : Nat := 2 ^ (f.eb - 1) - 1
def Fmt.width (f : Fmt) : Nat := 1 + f.eb + f.mb

/-- Exponent of the smallest unit of the format. -/
def Fmt.qmin (f : Fmt) : Int := 1 - (f.bias : Int) - f.mb

/-- The number a bit pattern spells. -/
def Fmt.dec (f : Fmt) (x : Nat) : Num :=
  let neg := bit x (f.eb + f.mb)
  let ex := bits x f.mb f.eb
  let man := bits x 0 f.mb
  if f.ieee && ex == 2 ^ f.eb - 1 then (if man == 0 then .inf neg else .nan)
  else if !f.ieee && ex == 2 ^ f.eb - 1 && man == 2 ^ f.mb - 1 then .nan
  else if ex == 0 then .fin neg man f.qmin
  else .fin neg (2 ^ f.mb + man) (f.qmin + ex - 1)

/-- Rounding directions. -/
inductive Rnd where
  | near | up | down | zero
  deriving DecidableEq, Repr

/-- Whether to round the magnitude up: quotient k, twice the remainder against the unit, and the sign. -/
def roundsUp (r : Rnd) (neg : Bool) (k rem unit : Nat) : Bool :=
  match r with
  | .near => decide (unit < 2 * rem) || (decide (2 * rem = unit) && decide (k % 2 = 1))
  | .up => !neg && decide (0 < rem)
  | .down => neg && decide (0 < rem)
  | .zero => false

/-- Largest finite magnitude pattern of a format. -/
def Fmt.maxPat (f : Fmt) : Nat := if f.ieee then (2 ^ f.eb - 1) * 2 ^ f.mb - 1 else (2 ^ f.eb - 1) * 2 ^ f.mb + 2 ^ f.mb - 2

/-- The magnitude pattern of num / den × 2^e under a rounding. -/
def Fmt.magOf (f : Fmt) (r : Rnd) (neg : Bool) (num den : Nat) (e : Int) : Nat :=
  if num == 0 then 0
  else
    let l : Int := (Nat.log2 num : Int) - Nat.log2 den + e
    let q0 : Int := max (l - 1 - f.mb) f.qmin
    let quo := fun (q : Int) =>
      let n := if q ≤ e then num * 2 ^ (e - q).toNat else num
      let d := if q ≤ e then den else den * 2 ^ (q - e).toNat
      (n / d, n % d, d)
    let q := if 2 ^ (f.mb + 1) ≤ (quo q0).1 then q0 + 1 else q0
    let x := quo q
    let k := if roundsUp r neg x.1 x.2.1 x.2.2 then x.1 + 1 else x.1
    k + (q - f.qmin).toNat * 2 ^ f.mb

/-- The pattern of (−1)^neg × num / den × 2^e; past the largest finite value it is infinity, or the largest finite
value where the rounding or the format says so. -/
def Fmt.enc (f : Fmt) (r : Rnd) (neg : Bool) (num den : Nat) (e : Int) : Nat :=
  let m := f.magOf r neg num den e
  let sat := r == .zero || (r == .up && neg) || (r == .down && !neg) || !f.ieee
  let m := if f.maxPat < m then (if sat then f.maxPat else f.maxPat + 1) else m
  b2n neg * 2 ^ (f.eb + f.mb) + m

def Fmt.infPat (f : Fmt) (neg : Bool) : Nat := b2n neg * 2 ^ (f.eb + f.mb) + (2 ^ f.eb - 1) * 2 ^ f.mb
def Fmt.nanPat (f : Fmt) : Nat := if f.ieee then (2 ^ f.eb - 1) * 2 ^ f.mb + 2 ^ (f.mb - 1) else 0x7F

/-- A signed exact value m × 2^e. -/
structure Dy where
  m : Int
  e : Int
  deriving DecidableEq, Repr

def Dy.zero : Dy := { m := 0, e := 0 }

/-- The exact value of a finite number. -/
def Num.dy : Num → Dy
  | .fin neg m e => { m := if neg then -(m : Int) else m, e := e }
  | _ => Dy.zero

def Dy.at (d : Dy) (e : Int) : Int := d.m * 2 ^ (d.e - e).toNat
def Dy.sub (a b : Dy) : Dy := let e := min a.e b.e; { m := a.at e - b.at e, e := e }
def Dy.add (a b : Dy) : Dy := let e := min a.e b.e; { m := a.at e + b.at e, e := e }
def Dy.mul (a b : Dy) : Dy := { m := a.m * b.m, e := a.e + b.e }
def Dy.abs (a : Dy) : Dy := { a with m := a.m.natAbs }
def Dy.lt (a b : Dy) : Bool := decide ((a.sub b).m < 0)
def Dy.le (a b : Dy) : Bool := !(b.lt a)

/-- Round an exact value to a format. -/
def Fmt.ofDy (f : Fmt) (r : Rnd) (d : Dy) : Nat := f.enc r (decide (d.m < 0)) d.m.natAbs 1 d.e

/-- FP32 results below the smallest normal value are flushed to zero, keeping the sign (R224). -/
def flush32 (x : Nat) : Nat := if bits x 23 8 == 0 then x / 2 ^ 31 * 2 ^ 31 else x

/-- A NaN of a format that operands give: its sign and payload are open (log 15). -/
def Fmt.someNan (f : Fmt) (ops : List Nat) : Nat :=
  let v := Config.nanBits ops
  if f.ieee then v % 2 * 2 ^ (f.eb + f.mb) + (2 ^ f.eb - 1) * 2 ^ f.mb + 1 + v / 2 % (2 ^ f.mb - 1) else v % 2 * 0x80 + 0x7F

/-- FP32 addition, correctly rounded (R224). -/
def fadd (a b : Nat) : Nat :=
  match fp32.dec a, fp32.dec b with
  | .nan, _ => fp32.someNan [a, b]
  | _, .nan => fp32.someNan [a, b]
  | .inf x, .inf y => if x == y then fp32.infPat x else fp32.someNan [a, b]
  | .inf x, _ => fp32.infPat x
  | _, .inf y => fp32.infPat y
  | .fin x m e, .fin y n g =>
    if m == 0 && n == 0 then (if x && y then 0x80000000 else 0)
    else flush32 (fp32.ofDy .near ((Num.fin x m e).dy.add (Num.fin y n g).dy))

/-- FP32 negation and subtraction. -/
def fneg (a : Nat) : Nat := if 2 ^ 31 ≤ a then a - 2 ^ 31 else a + 2 ^ 31
def fsub (a b : Nat) : Nat := fadd a (fneg b)

/-- FP32 multiplication, correctly rounded (R224). -/
def fmul (a b : Nat) : Nat :=
  match fp32.dec a, fp32.dec b with
  | .nan, _ => fp32.someNan [a, b]
  | _, .nan => fp32.someNan [a, b]
  | .inf x, .inf y => fp32.infPat (x != y)
  | .inf x, .fin y m _ => if m == 0 then fp32.someNan [a, b] else fp32.infPat (x != y)
  | .fin x m _, .inf y => if m == 0 then fp32.someNan [a, b] else fp32.infPat (x != y)
  | .fin x m e, .fin y n g => flush32 (fp32.enc .near (x != y) (m * n) 1 (e + g))

/-- FP32 order; NaN is below everything. -/
def flt (a b : Nat) : Bool :=
  match fp32.dec a, fp32.dec b with
  | .nan, .nan => false
  | .nan, _ => true
  | _, .nan => false
  | .inf x, .inf y => x && !y
  | .inf x, _ => x
  | _, .inf y => !y
  | p, q => p.dy.lt q.dy

/-- The larger of two values; with a NaN among them it is open (log 15). -/
def fmax (a b : Nat) : Nat :=
  if fp32.dec a == .nan || fp32.dec b == .nan then (Config.fp32MaxNan (BitVec.ofNat 32 a) (BitVec.ofNat 32 b)).toNat
  else if flt a b then b else a

/-- Two terms at a time are added, and their sum joins the others, until one is left; which two come next is the microcode's order
(R224, log 15). -/
def sumSteps (add : Nat → Nat → Nat) : Nat → List Nat → Nat
  | 0, l => l.headD 0
  | fuel + 1, l =>
    if l.length ≤ 1 then l.headD 0
    else
      let pair := Config.sumPair (l.map (BitVec.ofNat 32))
      let i := pair.1 % l.length
      let rest := l.eraseIdx i
      let j := pair.2 % rest.length
      sumSteps add fuel (add (nth l i 0) (nth rest j 0) :: rest.eraseIdx j)

/-- FP32 sum, every addition rounded to nearest-even (R224); of no term it is 0. -/
def fsum (l : List Nat) : Nat := sumSteps fadd l.length l

/-- 2^320 × e^x for −128 ≤ x ≤ 128, to within 2^−160 of itself: the series of e^(x / 256), squared eight times. -/
def expFix (x : Dy) : Nat :=
  let one : Int := 2 ^ 320
  let k := x.e + 312
  let y : Int := if 0 ≤ k then x.m * 2 ^ k.toNat else x.m / 2 ^ (-k).toNat
  let sum := ((List.range 60).foldl (fun (acc : Int × Int) i =>
    let t := acc.1 * y / (one * ((i + 1 : Nat) : Int))
    (t, acc.2 + t)) (one, one)).2
  ((List.range 8).foldl (fun (v : Int) _ => v * v / one) sum).toNat

/-- Whether an FP32 pattern is within 2 ulp of v × 2^−320, once what is below the smallest normal value has become zero. -/
def expWithin (v c : Nat) : Bool :=
  let room := 2 ^ (Nat.log2 v - 22) + 2 ^ (Nat.log2 v - 100)
  match fp32.dec c with
  | .nan => false
  | .inf neg => !neg && decide ((2 ^ 24 - 1) * 2 ^ 424 < v + room)
  | .fin neg m e =>
    if m == 0 then !neg && decide (v < 2 ^ 194 + room)
    else
      let x := m * 2 ^ (e + 320).toNat
      !neg && bits c 23 8 != 0 && decide (x ≤ v + room) && decide (v ≤ x + room)

/-- FP32 exp, within 2 ulp (R224): which of those values is open (log 15). -/
def fexp (a : Nat) : Nat :=
  match fp32.dec a with
  | .nan => fp32.someNan [a]
  | .inf true => 0
  | .inf false => fp32.infPat false
  | .fin neg m e =>
    let x := (Num.fin neg m e).dy
    if ({ m := 128, e := 0 } : Dy).lt x then fp32.infPat false
    else if x.lt { m := -128, e := 0 } then 0
    else
      let v := expFix x
      let c := (Config.fp32Exp (BitVec.ofNat 32 a)).toNat
      if expWithin v c then c else flush32 (fp32.enc .near false v 1 (-320))

/-- Whether magnitude pattern `k` is within 1 ulp of a value that rounds toward zero to `f`, and is exactly `f` where `exact`. -/
def recipWithin (f k : Nat) (exact : Bool) : Bool :=
  k == f || k == f + 1 || (exact && (k + 1 == f || (k + 2 == f && f % 2 ^ 23 == 0)))

/-- FP32 reciprocal, within 1 ulp (R224): which of those values is open (log 15). -/
def frecip (a : Nat) : Nat :=
  match fp32.dec a with
  | .nan => fp32.someNan [a]
  | .inf neg => b2n neg * 2 ^ 31
  | .fin neg m e =>
    if m == 0 then fp32.infPat neg
    else
      let f := fp32.magOf .zero false 1 m (-e)
      let c := (Config.fp32Recip (BitVec.ofNat 32 a)).toNat % 2 ^ 31
      let k := if recipWithin f c (f == fp32.magOf .up false 1 m (-e)) then c else f
      flush32 (b2n neg * 2 ^ 31 + min k (fp32.infPat false))

/-- FP32 natural logarithm, of the lse field: its error is not stated (log 15). -/
def fln (a : Nat) : Nat :=
  match fp32.dec a with
  | .fin _ 0 _ => fp32.infPat true
  | _ => (Config.fp32Ln (BitVec.ofNat 32 a)).toNat

/-- FP32 operations of a bound, rounded toward +∞ (R229, R231). -/
def faddUp (a b : Nat) : Nat :=
  match fp32.dec a, fp32.dec b with
  | .fin x m e, .fin y n g => fp32.ofDy .up ((Num.fin x m e).dy.add (Num.fin y n g).dy)
  | _, _ => fadd a b
def fmulUp (a b : Nat) : Nat :=
  match fp32.dec a, fp32.dec b with
  | .fin x m e, .fin y n g => fp32.enc .up (x != y) (m * n) 1 (e + g)
  | _, _ => fmul a b
def fdivUp (a b : Nat) : Nat :=
  match fp32.dec a, fp32.dec b with
  | .fin x m e, .fin y n g =>
    if n == 0 then (if m == 0 then fp32.someNan [a, b] else fp32.infPat (x != y)) else fp32.enc .up (x != y) m n (e - g)
  | .fin x _ _, .inf y => b2n (x != y) * 2 ^ 31
  | .inf x, .fin y _ _ => fp32.infPat (x != y)
  | _, _ => fp32.someNan [a, b]
def fsumUp (l : List Nat) : Nat := sumSteps faddUp l.length l

/-- A number of another format as an FP32 pattern; BF16, FP16 and E4M3 all embed exactly. -/
def toFp32 (f : Fmt) (x : Nat) : Nat :=
  match f.dec x with
  | .nan => fp32.someNan [x]
  | .inf n => fp32.infPat n
  | .fin n m e => fp32.enc .near n m 1 e

/-- An FP32 pattern rounded to another format. -/
def ofFp32 (f : Fmt) (r : Rnd) (x : Nat) : Nat :=
  match fp32.dec x with
  | .nan => f.someNan [x]
  | .inf n => if f.ieee then f.infPat n else b2n n * 2 ^ (f.eb + f.mb) + f.maxPat
  | .fin n m e => f.enc r n m 1 e

/-- Whether a pattern is NaN, or infinite. -/
def Fmt.isNan (f : Fmt) (x : Nat) : Bool := f.dec x == .nan
def Fmt.isInf (f : Fmt) (x : Nat) : Bool := f.dec x == .inf true || f.dec x == .inf false

end Sys2Proof.Machine
end

