-- ==== Sys2Proof/Machine/Hash.lean ====
section
/-! DEFINITION. CRC-24 (R89), CRC-32C (R251, R314), SHA-512 (R69, R130, R170), HMAC and HKDF (R377), from the public
standards the manual names (log 10). -/

namespace Sys2Proof.Machine

open Sys2Proof

/-- CRC over bits, most significant first: width w, polynomial, initial value. -/
def crcBits (w poly : Nat) (init : Nat) (bs : List Bool) : Nat :=
  bs.foldl (fun c b =>
    let top := bit c (w - 1) != b
    let c := c * 2 % 2 ^ w
    if top then c ^^^ poly else c) init

/-- Bits of a byte, most significant first, or least significant first. -/
def bitsMsb (b : Byte) : List Bool := (List.range 8).map fun i => b.getLsbD (7 - i)
def bitsLsb (b : Byte) : List Bool := (List.range 8).map fun i => b.getLsbD i

/-- CRC-24 of a frame: polynomial 0x86_4CFB, initial value 0xB7_04CE (R89). -/
def crc24 (bs : List Byte) : Nat := crcBits 24 0x864CFB 0xB704CE (bs.flatMap bitsMsb)

/-- A value with its `n` low bits reversed. -/
def reverseBits (n v : Nat) : Nat := sum ((List.range n).map fun i => if bit v i then 2 ^ (n - 1 - i) else 0)

/-- CRC-32C (polynomial 0x1EDC_6F41), reflected, inverted at both ends. -/
def crc32c (bs : List Byte) : Nat :=
  reverseBits 32 (crcBits 32 0x1EDC6F41 0xFFFFFFFF (bs.flatMap bitsLsb)) ^^^ 0xFFFFFFFF

/-- SHA-512 round constants, in five parts. -/
def sha512K0 : List Nat := [
  0x428A2F98D728AE22, 0x7137449123EF65CD, 0xB5C0FBCFEC4D3B2F, 0xE9B5DBA58189DBBC,
  0x3956C25BF348B538, 0x59F111F1B605D019, 0x923F82A4AF194F9B, 0xAB1C5ED5DA6D8118,
  0xD807AA98A3030242, 0x12835B0145706FBE, 0x243185BE4EE4B28C, 0x550C7DC3D5FFB4E2,
  0x72BE5D74F27B896F, 0x80DEB1FE3B1696B1, 0x9BDC06A725C71235, 0xC19BF174CF692694]
def sha512K1 : List Nat := [
  0xE49B69C19EF14AD2, 0xEFBE4786384F25E3, 0x0FC19DC68B8CD5B5, 0x240CA1CC77AC9C65,
  0x2DE92C6F592B0275, 0x4A7484AA6EA6E483, 0x5CB0A9DCBD41FBD4, 0x76F988DA831153B5,
  0x983E5152EE66DFAB, 0xA831C66D2DB43210, 0xB00327C898FB213F, 0xBF597FC7BEEF0EE4,
  0xC6E00BF33DA88FC2, 0xD5A79147930AA725, 0x06CA6351E003826F, 0x142929670A0E6E70]
def sha512K2 : List Nat := [
  0x27B70A8546D22FFC, 0x2E1B21385C26C926, 0x4D2C6DFC5AC42AED, 0x53380D139D95B3DF,
  0x650A73548BAF63DE, 0x766A0ABB3C77B2A8, 0x81C2C92E47EDAEE6, 0x92722C851482353B,
  0xA2BFE8A14CF10364, 0xA81A664BBC423001, 0xC24B8B70D0F89791, 0xC76C51A30654BE30,
  0xD192E819D6EF5218, 0xD69906245565A910, 0xF40E35855771202A, 0x106AA07032BBD1B8]
def sha512K3 : List Nat := [
  0x19A4C116B8D2D0C8, 0x1E376C085141AB53, 0x2748774CDF8EEB99, 0x34B0BCB5E19B48A8,
  0x391C0CB3C5C95A63, 0x4ED8AA4AE3418ACB, 0x5B9CCA4F7763E373, 0x682E6FF3D6B2B8A3,
  0x748F82EE5DEFB2FC, 0x78A5636F43172F60, 0x84C87814A1F0AB72, 0x8CC702081A6439EC,
  0x90BEFFFA23631E28, 0xA4506CEBDE82BDE9, 0xBEF9A3F7B2C67915, 0xC67178F2E372532B]
def sha512K4 : List Nat := [
  0xCA273ECEEA26619C, 0xD186B8C721C0C207, 0xEADA7DD6CDE0EB1E, 0xF57D4F7FEE6ED178,
  0x06F067AA72176FBA, 0x0A637DC5A2C898A6, 0x113F9804BEF90DAE, 0x1B710B35131C471B,
  0x28DB77F523047D84, 0x32CAAB7B40C72493, 0x3C9EBE0A15C9BEBC, 0x431D67C49C100D4C,
  0x4CC5D4BECB3E42B6, 0x597F299CFC657E2A, 0x5FCB6FAB3AD6FAEC, 0x6C44198C4A475817]
def sha512K : List Nat := sha512K0 ++ sha512K1 ++ sha512K2 ++ sha512K3 ++ sha512K4

/-- SHA-512 initial value. -/
def sha512H : List Nat := [
  0x6A09E667F3BCC908, 0xBB67AE8584CAA73B, 0x3C6EF372FE94F82B, 0xA54FF53A5F1D36F1,
  0x510E527FADE682D1, 0x9B05688C2B3E6C1F, 0x1F83D9ABFB41BD6B, 0x5BE0CD19137E2179]

/-- Rotate a 64-bit word right. -/
def rotr64 (n x : Nat) : Nat := Nat.add (Nat.shiftRight x n) (Nat.shiftLeft (Nat.mod x (Nat.shiftLeft 1 n)) (Nat.sub 64 n))

/-- The number some bytes spell, most significant byte first. -/
def beNat (bs : List Byte) : Nat := bs.foldl (fun n b => 256 * n + b.toNat) 0

/-- The message schedule: 16 words and 64 more, newest first. -/
def sha512Schedule : Nat → List Nat → List Nat
  | 0, w => w
  | n + 1, w =>
    let a := nth w 1 0
    let b := nth w 14 0
    let s1 := Nat.xor (Nat.xor (rotr64 19 a) (rotr64 61 a)) (Nat.shiftRight a 6)
    let s0 := Nat.xor (Nat.xor (rotr64 1 b) (rotr64 8 b)) (Nat.shiftRight b 7)
    sha512Schedule n ((s1 + nth w 6 0 + s0 + nth w 15 0) % 2 ^ 64 :: w)

/-- One round over the eight working words. -/
def sha512Round : List Nat → Nat → List Nat
  | [a, b, c, d, e, f, g, h], kw =>
    let s1 := Nat.xor (Nat.xor (rotr64 14 e) (rotr64 18 e)) (rotr64 41 e)
    let ch := Nat.xor (Nat.land e f) (Nat.land (2 ^ 64 - 1 - e) g)
    let t1 := h + s1 + ch + kw
    let s0 := Nat.xor (Nat.xor (rotr64 28 a) (rotr64 34 a)) (rotr64 39 a)
    let mj := Nat.xor (Nat.xor (Nat.land a b) (Nat.land a c)) (Nat.land b c)
    [(t1 + s0 + mj) % 2 ^ 64, a, b, c, (d + t1) % 2 ^ 64, e, f, g]
  | h, _ => h

/-- Compress one 128-byte block. -/
def sha512Block (h : List Nat) (blk : List Byte) : List Nat :=
  let w0 := (List.range 16).map fun i => beNat ((blk.drop (8 * i)).take 8)
  let w := (sha512Schedule 64 w0.reverse).reverse
  let out := ((w.zip sha512K).map fun x => x.1 + x.2).foldl sha512Round h
  (h.zip out).map fun x => (x.1 + x.2) % 2 ^ 64

/-- Padding: 0x80, zeros, the 128-bit length in bits, most significant byte first. -/
def sha512Pad (bs : List Byte) : List Byte :=
  let z := (128 - (bs.length + 17) % 128) % 128
  bs ++ [0x80] ++ List.replicate z 0 ++ (leBytes 16 (8 * bs.length)).reverse

/-- The blocks of a padded message, one after the other. -/
def sha512Blocks : Nat → List Byte → List Nat → List Nat
  | 0, _, h => h
  | n + 1, bs, h => sha512Blocks n (bs.drop 128) (sha512Block h (bs.take 128))

/-- SHA-512: 64 bytes. -/
def sha512 (bs : List Byte) : List Byte :=
  let p := sha512Pad bs
  (sha512Blocks (p.length / 128) p sha512H).flatMap fun x => (leBytes 8 x).reverse


/-- HMAC-SHA-512. -/
def hmac (key msg : List Byte) : List Byte :=
  let k := if 128 < key.length then sha512 key else key
  let k := k ++ List.replicate (128 - k.length) 0
  sha512 (k.map (· ^^^ 0x5C) ++ sha512 (k.map (· ^^^ 0x36) ++ msg))

/-- HKDF-Expand with SHA-512, up to `n` bytes in `fuel` blocks. -/
def hkdfBlocks (prk info : List Byte) : Nat → Nat → List Byte → List Byte
  | 0, _, _ => []
  | fuel + 1, i, prev =>
    let t := hmac prk (prev ++ info ++ leBytes 1 i)
    t ++ hkdfBlocks prk info fuel (i + 1) t

def hkdfExpand (prk info : List Byte) (n : Nat) : List Byte := (hkdfBlocks prk info (ceilDiv n 64) 1 []).take n

/-- HKDF-Extract with SHA-512. -/
def hkdfExtract (salt ikm : List Byte) : List Byte := hmac salt ikm

end Sys2Proof.Machine
end

