-- ==== Sys2Proof/Machine/Codec.lean ====
section
/-! DEFINITION. KV codecs (08): encoding and expanding a page, its errors, its sketch, and cutting rows. -/

namespace Sys2Proof.Machine

open Sys2Proof

/-- A model descriptor read (Table 5.2). -/
structure Model where
  layers : Nat
  heads : Nat
  d : Nat
  group : Nat
  blockLog2 : Nat
  tailLog2 : Nat
  bulkLog2 : Nat
  codec : Nat
  fp16 : Bool
  bankSet : Nat
  compareLog2 : Nat
  deriving DecidableEq, Repr

def Model.rowBytes (m : Model) : Nat := 4 * m.heads * m.d
def Model.block (m : Model) : Nat := 2 ^ m.blockLog2
def Model.fmt (m : Model) : Fmt := if m.fp16 then Machine.fp16 else bf16

/-- Read the descriptor's fields. -/
def modelOf (b : List Byte) : Model :=
  { layers := field b 0 1 + 1, heads := field b 1 1, d := 64 * 2 ^ field b 2 1, group := field b 3 1
    blockLog2 := field b 4 1, tailLog2 := field b 5 1, bulkLog2 := field b 6 1, codec := field b 7 1 % 8
    fp16 := bit (field b 7 1) 3, bankSet := field b 8 4, compareLog2 := field b 12 1 }

/-- The checks of R130. -/
def modelOk (b : List Byte) : Bool :=
  let m := modelOf b
  b.length == 64 && decide (1 ≤ m.heads) && decide (m.heads ≤ 64) && decide (field b 2 1 ≤ 2) && decide (1 ≤ m.group) &&
    decide (m.group ≤ 16) && decide (4 ≤ m.blockLog2) && decide (m.blockLog2 ≤ 10) && decide (4 ≤ m.tailLog2) &&
    decide (m.tailLog2 ≤ 12) && decide (m.tailLog2 ≤ m.bulkLog2) && decide (m.bulkLog2 ≤ 16) &&
    decide (m.codec ≤ 3) && m.bankSet != 0 && decide (m.compareLog2 ≤ 16) && (m.codec == 0 || decide (8 ≤ m.tailLog2))

/-- Tokens of a size code (Table 5.4). -/
def tokens (code : Nat) : Nat := 2 ^ (code + 4)

/-! ### Elements of rows -/

/-- The element of head h and channel c in a row's K (v = false) or V (R150). -/
def elemAt (m : Model) (v : Bool) (h c : Nat) (row : List Byte) : Nat :=
  field row (2 * (b2n v * m.heads * m.d + h * m.d + c)) 2

/-- A stored RAW16 element: a NaN is the canonical quiet one (R250). -/
def canonElem (m : Model) (x : Nat) : Nat := if m.fmt.isNan x then (if m.fp16 then 0x7E00 else 0x7FC0) else x

/-- A row as stored (R250). -/
def canonRow (m : Model) (row : List Byte) : List Byte :=
  ((List.range (m.rowBytes / 2)).map fun i => leBytes 2 (canonElem m (field row (2 * i) 2))).flatten

/-- All K or V elements of a page: by head, token, channel (R257). -/
def elemsOf (m : Model) (v : Bool) (rows : List (List Byte)) : List Nat :=
  ((List.range m.heads).map fun h => (rows.map fun r => (List.range m.d).map fun c => elemAt m v h c r).flatten).flatten

/-- No element is NaN, and for Q4T and Q3T none is infinite (R248). -/
def encodable (m : Model) (codec : Nat) (rows : List (List Byte)) : Bool :=
  (elemsOf m false rows ++ elemsOf m true rows).all fun x => !m.fmt.isNan x && (codec == 1 || !m.fmt.isInf x)

/-- The exact value of an element. -/
def elemDy (m : Model) (x : Nat) : Dy := (m.fmt.dec x).dy

/-! ### Tables and exponents (R261, R262) -/

/-- Order of 16-bit patterns by value, −0 before +0. -/
def patKey (x : Nat) : Nat := if 0x8000 ≤ x then 0xFFFF - x else x + 0x8000

/-- The table of a value set (R261). -/
def tableOf (n : Nat) (vals : List Nat) : List Nat :=
  let s := sortBy (fun a b => decide (patKey a < patKey b)) vals
  (List.range n).map fun j => nth s ((vals.length - 1) * j / (n - 1)) 0

/-- Table of element (t, c) of K: 256-token windows by 8 channels; of V: 16 tokens. -/
def tableIndex (m : Model) (v : Bool) (n h t c : Nat) : Nat :=
  if v then h * ceilDiv n 16 + t / 16 else (h * ceilDiv n 256 + t / 256) * (m.d / 8) + c / 8

/-- The value set of each table, in the order of R258. -/
def tableSets (m : Model) (v : Bool) (rows : List (List Byte)) : List (List Nat) :=
  let n := rows.length
  (List.range m.heads).flatMap fun h =>
    if v then (List.range (ceilDiv n 16)).map fun g =>
      ((rows.drop (16 * g)).take 16).flatMap fun r => (List.range m.d).map fun c => elemAt m v h c r
    else (List.range (ceilDiv n 256)).flatMap fun w => (List.range (m.d / 8)).map fun cg =>
      ((rows.drop (256 * w)).take 256).flatMap fun r => (List.range 8).map fun c => elemAt m v h (8 * cg + c) r

/-- The E8 exponent of a group (R262): the smallest e from e_min on that keeps 448 × 2^e above every finite value. -/
def e8Exp (m : Model) (vals : List Nat) : Int :=
  let emin : Int := if m.fp16 then -15 else -124
  let fin := (vals.filter fun x => !m.fmt.isInf x).map fun x => (elemDy m x).abs
  match (List.range 300).find? fun (i : Nat) => fin.all fun x => x.le { m := 448, e := emin + (i : Int) } with
  | some i => emin + (i : Int)
  | none => emin

/-- E8 groups of 16 tokens by 32 channels, ordered by head, token group, channel group (R258). -/
def e8Groups (m : Model) (v : Bool) (rows : List (List Byte)) : List (List Nat) :=
  (List.range m.heads).flatMap fun h => (List.range (ceilDiv rows.length 16)).flatMap fun g =>
    (List.range (m.d / 32)).map fun cg =>
      ((rows.drop (16 * g)).take 16).flatMap fun r => (List.range 32).map fun c => elemAt m v h (32 * cg + c) r

def e8Index (m : Model) (n h t c : Nat) : Nat := (h * ceilDiv n 16 + t / 16) * (m.d / 32) + c / 32

/-- An exponent as 8-bit two's complement, and back. -/
def expByte (e : Int) : Nat := signedField 8 e
def expOf (b : Nat) : Int := if 128 ≤ b then (b : Int) - 256 else b

/-- The reconstruction of an E8 code under exponent e (R259). -/
def e8Recon (m : Model) (e : Int) (code : Nat) : Nat :=
  match e4m3.dec code with
  | .fin neg k x =>
    let r := m.fmt.enc .zero neg k 1 (x + e)
    if m.fmt.isInf r then b2n neg * 0x8000 + m.fmt.maxPat else r
  | _ => 0

/-- The E8 code of an element (R262). -/
def e8Code (m : Model) (e : Int) (x : Nat) : Nat :=
  match m.fmt.dec x with
  | .inf neg => if neg then 0xFE else 0x7E
  | .nan => 0x7F
  | .fin neg k q =>
    let near := e4m3.enc .near neg k 1 (q - e)
    let maxFin := (m.fmt.dec m.fmt.maxPat).dy
    let big := fun (c : Nat) => let d := (e4m3.dec c).dy; maxFin.lt { m := d.m.natAbs, e := d.e + e }
    if big near then e4m3.enc .zero neg k 1 (q - e) else near

/-- The nearest entry, the lower code on a tie (R263). -/
def nearest (m : Model) (tab : List Nat) (x : Nat) : Nat :=
  let err := fun (j : Nat) => ((elemDy m x).sub (elemDy m (nth tab j 0))).abs
  (List.range tab.length).foldl (fun best j => if (err j).lt (err best) then j else best) 0

/-! ### A page's image -/

/-- Codes of all K or V elements, by head, token, channel. -/
def codesOf (m : Model) (codec : Nat) (v : Bool) (rows : List (List Byte)) (tabs : List (List Nat)) (exps : List Nat) :
    List Nat :=
  let n := rows.length
  (List.range m.heads).flatMap fun h => (List.range n).flatMap fun t => (List.range m.d).map fun c =>
    let x := elemAt m v h c (nth rows t [])
    if codec == 1 then e8Code m (expOf (nth exps (e8Index m n h t c) 0)) x
    else nearest m (nth tabs (tableIndex m v n h t c) []) x

/-- The threshold t of a Q3T table, formed in FP32 (R263): a difference of its ends that is infinite leaves it above every error. -/
def q3Threshold (m : Model) (tab : List Nat) : Dy :=
  let hi := toFp32 m.fmt (nth tab 7 0)
  let lo := toFp32 m.fmt (nth tab 0 0)
  match fp32.dec (fsub hi lo) with
  | .fin neg k e => (fp32.dec (fp32.enc .near neg k 14 e)).dy
  | _ => { m := 1, e := 128 }

/-- Indices of the outliers of a 64-element group: at most two, largest error first choice, lower index on a tie; in
ascending order (R263). -/
def outliersOf (errs : List (Nat × Dy)) : List Nat :=
  let s := sortBy (fun a b => b.2.lt a.2) errs
  sortBy (fun a b => decide (a < b)) ((s.take 2).map (·.1))

/-- OC counts and OL records of K or V (R258). -/
def outlierGroups (m : Model) (v : Bool) (rows : List (List Byte)) (tabs : List (List Nat)) (codes : List Nat) :
    List (List (Nat × Nat)) :=
  let n := rows.length
  (List.range m.heads).flatMap fun h => (List.range n).flatMap fun t => (List.range (m.d / 64)).map fun g =>
    let row := nth rows t []
    let errs := (List.range 64).filterMap fun j =>
      let c := 64 * g + j
      let tab := nth tabs (tableIndex m v n h t c) []
      let x := elemAt m v h c row
      let y := nth tab (nth codes ((h * n + t) * m.d + c) 0) 0
      let err := ((elemDy m x).sub (elemDy m y)).abs
      if (q3Threshold m tab).lt err then some (j, err) else none
    (outliersOf errs).map fun j => (elemAt m v h (64 * g + j) row, j)

/-- The image of a page of rows in a codec (R260 to R263). -/
def encodeRows (m : Model) (codec : Nat) (rows : List (List Byte)) : EncImg :=
  if codec == 1 then
    let kt := (e8Groups m false rows).map fun g => expByte (e8Exp m g)
    let vt := (e8Groups m true rows).map fun g => expByte (e8Exp m g)
    { kc := codesOf m 1 false rows [] kt, vc := codesOf m 1 true rows [] vt, kt := kt, vt := vt }
  else
    let n := if codec == 2 then 16 else 8
    let kt := (tableSets m false rows).map (tableOf n)
    let vt := (tableSets m true rows).map (tableOf n)
    let kc := codesOf m codec false rows kt []
    let vc := codesOf m codec true rows vt []
    let og := if codec == 3 then outlierGroups m false rows kt kc ++ outlierGroups m true rows vt vc else []
    { kc := kc, vc := vc, kt := kt.flatten, vt := vt.flatten, oc := og.map (·.length), ol := og.flatten }

/-- The record of element j of 64-element group k, where it is an outlier. -/
def outlierAt (img : EncImg) (k j : Nat) : Option Nat :=
  let start := sum (img.oc.take k)
  (((img.ol.drop start).take (nth img.oc k 0)).find? fun r => r.2 == j).map (·.1)

/-- The reconstruction of an element (R259): head h, token t, channel c of an image of n rows. -/
def reconAt (m : Model) (codec : Nat) (img : EncImg) (n : Nat) (v : Bool) (h t c : Nat) : Nat :=
  let i := (h * n + t) * m.d + c
  let code := nth (if v then img.vc else img.kc) i 0
  if codec == 1 then e8Recon m (expOf (nth (if v then img.vt else img.kt) (e8Index m n h t c) 0)) code
  else
    let sz := if codec == 2 then 16 else 8
    let tab := if v then img.vt else img.kt
    let y := nth tab (sz * tableIndex m v n h t c + code) 0
    if codec == 3 then
      (outlierAt img (b2n v * m.heads * n * (m.d / 64) + i / 64) (i % 64)).getD y
    else y

/-- The rows of an image, expanded (R266). -/
def expandImg (m : Model) (codec n : Nat) (img : EncImg) : List (List Byte) :=
  (List.range n).map fun t =>
    ([false, true].flatMap fun v => (List.range m.heads).flatMap fun h => (List.range m.d).map fun c =>
      leBytes 2 (reconAt m codec img n v h t c)).flatten

/-- The rows a page's content gives. -/
def rowsOf (m : Model) (codec n : Nat) : Content → List (List Byte)
  | .raw rows => rows
  | .enc img => expandImg m codec n img

/-- Section sizes in frames, the metadata section first (R265). -/
def imageFrames (m : Model) (codec n outliers : Nat) : Nat :=
  let f := fun (b : Nat) => ceilDiv b 4096
  let e := n * m.heads * m.d
  let w := max 1 (n / 256)
  f (64 + 32 * m.heads + 4 * m.d * m.heads) +
    (if codec == 1 then 2 * f e + 2 * f (e / 512)
     else if codec == 2 then 2 * f (e / 2) + f (4 * m.heads * w * m.d) + f (2 * n * m.heads)
     else if codec == 3 then 2 * f (3 * e / 8) + f (2 * m.heads * w * m.d) + f (n * m.heads) + f (e / 128) + f (4 * outliers)
     else 0)

/-- Frames of a metadata run (R251). -/
def metaFrames (m : Model) : Nat := ceilDiv (64 + 32 * m.heads + 4 * m.d * m.heads) 4096

/-- The largest image of a page: two Q3T outliers in every group (R260 step 1). -/
def maxFrames (m : Model) (codec n : Nat) : Nat := imageFrames m codec n (2 * (2 * n * m.heads * m.d / 64))

/-- Largest error of a head's K or V, rounded up to FP32; saturated E8 elements are left out (R255). -/
def headErr (m : Model) (codec : Nat) (rows : List (List Byte)) (img : EncImg) (v : Bool) (h : Nat) : Nat :=
  let n := rows.length
  let errs := (List.range n).flatMap fun t => (List.range m.d).filterMap fun c =>
    let x := elemAt m v h c (nth rows t [])
    if m.fmt.isInf x then none
    else some ((elemDy m x).sub (elemDy m (reconAt m codec img n v h t c))).abs
  fp32.ofDy .up (errs.foldl (fun a b => if a.lt b then b else a) Dy.zero)

/-- E8 elements of a head saturated. -/
def headSat (m : Model) (codec : Nat) (rows : List (List Byte)) (v : Bool) (h : Nat) : Nat :=
  if codec == 1 then
    sum (rows.map fun r => count (fun c => m.fmt.isInf (elemAt m v h c r)) (List.range m.d))
  else 0

/-- Outliers of a head. -/
def headOut (m : Model) (img : EncImg) (n : Nat) (v : Bool) (h : Nat) : Nat :=
  let g := n * (m.d / 64)
  sum ((img.oc.drop (b2n v * m.heads * g + h * g)).take g)

/-- The head records of a page encoded from rows (Table 8.3). -/
def headRecs (m : Model) (codec : Nat) (rows : List (List Byte)) (img : EncImg) : List HeadRec :=
  (List.range m.heads).map fun h =>
    { kErr := BitVec.ofNat 32 (headErr m codec rows img false h), vErr := BitVec.ofNat 32 (headErr m codec rows img true h)
      kSat := headSat m codec rows false h, vSat := headSat m codec rows true h
      kOut := headOut m img rows.length false h, vOut := headOut m img rows.length true h }

/-- Head records of a RAW16 page: no error (R255). -/
def rawHeads (m : Model) : List HeadRec := List.replicate m.heads {}

/-- The sketch of stored rows (R228, R254): per head d minima rounded down, then d maxima rounded up, in FP16; none
when a K element is NaN or infinite. -/
def sketchOf (m : Model) (rows : List (List Byte)) : Option (List (BitVec 16)) :=
  let ks := elemsOf m false rows
  if rows.isEmpty || ks.any (fun x => m.fmt.isNan x || m.fmt.isInf x) then none
  else some ((List.range m.heads).flatMap fun h =>
    let col := fun (c : Nat) => rows.map fun r => elemDy m (elemAt m false h c r)
    let ext := fun (lt : Dy → Dy → Bool) (l : List Dy) => match l with
      | [] => Dy.zero
      | x :: r => r.foldl (fun a b => if lt b a then b else a) x
    ((List.range m.d).map fun c => BitVec.ofNat 16 (fp16.ofDy .down (ext Dy.lt (col c)))) ++
      ((List.range m.d).map fun c => BitVec.ofNat 16 (fp16.ofDy .up (ext (fun a b => b.lt a) (col c)))))

/-- A head's minima and maxima in a sketch. -/
def sketchHead (m : Model) (sk : List (BitVec 16)) (h : Nat) : List Nat × List Nat :=
  let l := (sk.drop (2 * m.d * h)).take (2 * m.d)
  ((l.take m.d).map (·.toNat), (l.drop m.d).map (·.toNat))

/-- The E4M3 codes of a K row of an E8 image, and the exponent of each of its groups of 32 channels. -/
def e8Key (m : Model) (img : EncImg) (n h t : Nat) : List Nat × List Int :=
  ((List.range m.d).map fun c => nth img.kc ((h * n + t) * m.d + c) 0,
    (List.range (m.d / 32)).map fun g => expOf (nth img.kt (e8Index m n h t (32 * g)) 0))

/-! ### Cutting (R264) -/

/-- The part of per-head sections that covers units [a, a + k) of n units per head, each `sz` entries. -/
def cutHeads {α : Type} (heads n sz a k : Nat) (l : List α) : List α :=
  (List.range heads).flatMap fun h => (l.drop (sz * (h * n + a))).take (sz * k)

/-- Rows [a, a + k) of an image of n rows (R264). -/
def cutImg (m : Model) (codec n a k : Nat) (img : EncImg) : EncImg :=
  let codes := fun (l : List Nat) => cutHeads m.heads n m.d a k l
  if codec == 1 then
    let ex := fun (l : List Nat) => cutHeads m.heads (ceilDiv n 16) (m.d / 32) (a / 16) (ceilDiv k 16) l
    { kc := codes img.kc, vc := codes img.vc, kt := ex img.kt, vt := ex img.vt }
  else
    let sz := if codec == 2 then 16 else 8
    let w := ceilDiv n 256
    let kt := cutHeads m.heads w (sz * (m.d / 8)) (a / 256) (max 1 (k / 256)) img.kt
    let vt := cutHeads m.heads (ceilDiv n 16) sz (a / 16) (ceilDiv k 16) img.vt
    let g := m.d / 64
    let half := m.heads * n * g
    let recs := (List.range img.oc.length).map fun i =>
      (img.ol.drop (sum (img.oc.take i))).take (nth img.oc i 0)
    let keep := fun (l : List (List (Nat × Nat))) => cutHeads m.heads n g a k l
    let gs := if codec == 3 then keep (recs.take half) ++ keep (recs.drop half) else []
    { kc := codes img.kc, vc := codes img.vc, kt := kt, vt := vt, oc := gs.map (·.length), ol := gs.flatten }

/-- Two images of one codec end to end, head by head: na rows then nb rows. -/
def joinImg (m : Model) (codec na nb : Nat) (a b : EncImg) : EncImg :=
  let zip := fun {α : Type} (sa sb : Nat) (x y : List α) =>
    (List.range m.heads).flatMap fun h => (x.drop (sa * h)).take sa ++ (y.drop (sb * h)).take sb
  let codes := fun (x y : List Nat) => zip (na * m.d) (nb * m.d) x y
  if codec == 1 then
    let ex := fun (x y : List Nat) => zip (ceilDiv na 16 * (m.d / 32)) (ceilDiv nb 16 * (m.d / 32)) x y
    { kc := codes a.kc b.kc, vc := codes a.vc b.vc, kt := ex a.kt b.kt, vt := ex a.vt b.vt }
  else
    let sz := if codec == 2 then 16 else 8
    let kt := zip (ceilDiv na 256 * sz * (m.d / 8)) (ceilDiv nb 256 * sz * (m.d / 8)) a.kt b.kt
    let vt := zip (ceilDiv na 16 * sz) (ceilDiv nb 16 * sz) a.vt b.vt
    let g := m.d / 64
    let recs := fun (i : EncImg) => (List.range i.oc.length).map fun k =>
      (i.ol.drop (sum (i.oc.take k))).take (nth i.oc k 0)
    let ra := recs a
    let rb := recs b
    let ga := m.heads * na * g
    let gb := m.heads * nb * g
    let gs := if codec == 3 then
      zip (na * g) (nb * g) (ra.take ga) (rb.take gb) ++ zip (na * g) (nb * g) (ra.drop ga) (rb.drop gb) else []
    { kc := codes a.kc b.kc, vc := codes a.vc b.vc, kt := kt, vt := vt, oc := gs.map (·.length), ol := gs.flatten }

/-- Head records of a cut page: the largest errors, the sums of saturations, outliers counted (R264). -/
def inheritHeads (m : Model) (n : Nat) (img : EncImg) (srcs : List (List HeadRec)) : List HeadRec :=
  (List.range m.heads).map fun h =>
    let rs := srcs.map fun l => nth l h {}
    let big := fun (l : List (BitVec 32)) => BitVec.ofNat 32 (l.foldl (fun a b => fmax a b.toNat) 0)
    { kErr := big (rs.map (·.kErr)), vErr := big (rs.map (·.vErr)), kSat := sum (rs.map (·.kSat))
      vSat := sum (rs.map (·.vSat)), kOut := headOut m img n false h, vOut := headOut m img n true h }

/-! ### The image as bytes (R251 to R258), which moves, peers and requesters read -/

/-- Zero-padded to whole frames. -/
def padFrame (bs : List Byte) : List Byte := bs ++ List.replicate ((4096 - bs.length % 4096) % 4096) 0

/-- Pack values of `w` bits, least significant first. -/
def packBits (w : Nat) (l : List Nat) : List Byte :=
  let per := if w == 3 then 8 else 8 / w
  (packGroups l.length per l).flatMap fun g =>
    leBytes (per * w / 8) (sum ((List.range g.length).map fun i => nth g i 0 * 2 ^ (w * i)))
where
  /-- Groups of `per` values. -/
  packGroups : Nat → Nat → List Nat → List (List Nat)
    | 0, _, _ => []
    | n + 1, per, l => if l.isEmpty then [] else l.take per :: packGroups n per (l.drop per)

/-- Read `n` values of `w` bits. -/
def unpackBits (w n : Nat) (bs : List Byte) : List Nat :=
  (List.range n).map fun i => bits (field bs (w * i / 8) 2) (w * i % 8) w

/-- An OL record (R258). -/
def olBytes (r : Nat × Nat) : List Byte := leBytes 4 (r.1 + r.2 * 2 ^ 16)

/-- The sections of an encoded image in the order of Table 8.4. -/
def sectionsOf (codec : Nat) (img : EncImg) : List (List Byte) :=
  let ent := fun (l : List Nat) => l.flatMap (leBytes 2)
  if codec == 1 then [img.kc, img.vc, img.kt, img.vt].map fun l => l.flatMap (leBytes 1)
  else
    let w := if codec == 2 then 4 else 3
    [packBits w img.kc, packBits w img.vc, ent img.kt, ent img.vt] ++
      (if codec == 3 then [packBits 2 img.oc] ++ (if img.ol.isEmpty then [] else [img.ol.flatMap olBytes]) else [])

/-- A head record as bytes (Table 8.3). -/
def headBytes (h : HeadRec) : List Byte :=
  leBytes 4 h.kErr.toNat ++ leBytes 4 h.vErr.toNat ++ leBytes 4 h.kSat ++ leBytes 4 h.vSat ++ leBytes 4 h.kOut ++
    leBytes 4 h.vOut ++ leBytes 8 0

/-- The metadata section of a page (Tables 8.2 and 8.3, R254); the crc takes itself as zero. -/
def metaBytes (m : Model) (p : Page) : List Byte :=
  let secs := match p.content with
    | .raw _ => []
    | .enc img => sectionsOf p.codec img
  let mf := metaFrames m
  let lens := secs.map fun x => ceilDiv x.length 4096
  let off := fun (i : Nat) => if i < secs.length then mf + sum (lens.take i) else 0
  let frames := match p.content with
    | .raw rows => mf + ceilDiv (rows.length * m.rowBytes) 4096
    | .enc _ => mf + sum lens
  let outl := match p.content with
    | .raw _ => 0
    | .enc img => img.ol.length
  let flags := b2n m.fp16 + 2 * b2n p.inherited + 4 * b2n (decide (p.rows < tokens p.size)) +
    8 * b2n (p.hasMeta && p.sketch.isSome)
  let dcode := if m.d == 64 then 0 else if m.d == 128 then 1 else 2
  let head := leBytes 1 p.codec ++ leBytes 1 flags ++ leBytes 1 p.size ++ leBytes 1 m.heads ++ leBytes 1 dcode ++
    leBytes 1 p.layer ++ leBytes 2 0 ++ leBytes 4 p.first ++ leBytes 4 p.rows ++ leBytes 4 frames ++
    (List.range 6).flatMap (fun i => leBytes 4 (off i)) ++ leBytes 4 outl ++ leBytes 6 p.sealTime ++
    leBytes 2 p.sealEpoch ++ leBytes 3 p.seq ++ leBytes 1 0
  let recs := (List.range m.heads).flatMap fun h => headBytes (nth p.heads h {})
  let sk := match p.sketch with
    | some l => l.flatMap fun x => leBytes 2 x.toNat
    | none => List.replicate (4 * m.d * m.heads) 0
  let body := recs ++ sk
  padFrame (head ++ leBytes 4 (crc32c (head ++ leBytes 4 0 ++ body)) ++ body)

/-- A page image as it is moved and read (R253): metadata, then the run's contents. -/
def imageBytes (m : Model) (p : Page) : List Byte :=
  metaBytes m p ++ (match p.content with
    | .raw rows => padFrame rows.flatten
    | .enc img => (sectionsOf p.codec img).flatMap padFrame)

/-- Frames of the sections KC, VC, KT, VT and OC of an encoded image of n rows (Table 8.4). -/
def secFrames (m : Model) (codec n : Nat) : List Nat :=
  let f := fun (b : Nat) => ceilDiv b 4096
  let e := n * m.heads * m.d
  let w := max 1 (n / 256)
  if codec == 1 then [f e, f e, f (e / 512), f (e / 512)]
  else if codec == 2 then [f (e / 2), f (e / 2), f (4 * m.heads * w * m.d), f (2 * n * m.heads)]
  else [f (3 * e / 8), f (3 * e / 8), f (2 * m.heads * w * m.d), f (n * m.heads), f (e / 128)]

/-- Byte at which section i of an encoded image begins (R256). -/
def secAt (m : Model) (codec n i : Nat) : Nat := 4096 * (metaFrames m + sum ((secFrames m codec n).take i))

/-- Bytes at which the tables begin that rows [a, a + k) of a KV head need: K tables of their windows, V tables of their token groups. -/
def tableParts (m : Model) (p : Page) (h a k : Nat) : List Nat :=
  let n := p.rows
  if p.codec == 2 || p.codec == 3 then
    let sz := if p.codec == 2 then 32 else 16
    let upTo := fun (u : Nat) => (List.range ((a + k - 1) / u + 1 - a / u)).map (a / u + ·)
    ((upTo 256).flatMap fun w => (List.range (m.d / 8)).map fun c =>
      secAt m p.codec n 2 + sz * tableIndex m false n h (256 * w) (8 * c)) ++
    (upTo 16).map fun g => secAt m p.codec n 3 + sz * tableIndex m true n h (16 * g) 0
  else []

/-- The parts of a page's run that row i of a KV head needs, as offsets and lengths (R150, R257, R258, R267): of an encoded page its
header, the codes, and the tables, exponents and outlier records of the row. -/
def rowParts (m : Model) (p : Page) (h i : Nat) : List (Nat × Nat) :=
  let n := p.rows
  match p.content with
  | .raw _ => [(i * m.rowBytes + 2 * h * m.d, 2 * m.d), (i * m.rowBytes + 2 * (m.heads + h) * m.d, 2 * m.d)]
  | .enc img =>
    let w := if p.codec == 1 then 8 else if p.codec == 2 then 4 else 3
    let codes := fun (sec : Nat) => (secAt m p.codec n sec + w * (h * n + i) * m.d / 8, w * m.d / 8)
    let aux := if p.codec == 1 then
        [2, 3].map fun sec => (secAt m 1 n sec + e8Index m n h i 0, m.d / 32)
      else (tableParts m p h i 1).map fun x => (x, if p.codec == 2 then 32 else 16)
    let per := m.d / 64
    let out := if p.codec == 3 then [0, 1].flatMap fun v =>
        let k := v * m.heads * n * per + (h * n + i) * per
        [(secAt m 3 n 4 + k / 4, ceilDiv per 4),
          (secAt m 3 n 5 + 4 * sum (img.oc.take k), 4 * sum ((img.oc.drop k).take per))]
      else []
    [(0, 64), codes 0, codes 1] ++ aux ++ out.filter fun x => x.2 != 0

/-- Granules of 16 KiB an image takes (R253, R306). -/
def imageGranules (m : Model) (p : Page) : Nat :=
  let run := match p.content with
    | .raw rows => ceilDiv (rows.length * m.rowBytes) 4096
    | .enc img => sum ((sectionsOf p.codec img).map fun x => ceilDiv x.length 4096)
  ceilDiv (4096 * (metaFrames m + run)) 16384

/-- The page an image's bytes describe. -/
def parseImage (m : Model) (bs : List Byte) : Page :=
  let codec := field bs 0 1
  let n := field bs 0x0C 4
  let sec := fun (i : Nat) => bs.drop (4096 * field bs (0x14 + 4 * i) 4)
  let e := n * m.heads * m.d
  let w := max 1 (n / 256)
  let ent := fun (k : Nat) (l : List Byte) => (List.range k).map fun i => field l (2 * i) 2
  let byt := fun (k : Nat) (l : List Byte) => (l.take k).map (·.toNat)
  let content : Content :=
    if codec == 0 then
      let r := bs.drop (4096 * metaFrames m)
      .raw ((List.range n).map fun i => (r.drop (i * m.rowBytes)).take m.rowBytes)
    else if codec == 1 then
      .enc { kc := byt e (sec 0), vc := byt e (sec 1), kt := byt (e / 512) (sec 2), vt := byt (e / 512) (sec 3) }
    else
      let cw := if codec == 2 then 4 else 3
      let sz := if codec == 2 then 16 else 8
      let oc := if codec == 3 then unpackBits 2 (2 * e / 64) (sec 4) else []
      .enc
        { kc := unpackBits cw e (sec 0), vc := unpackBits cw e (sec 1)
          kt := ent (sz * m.heads * w * (m.d / 8)) (sec 2), vt := ent (sz * m.heads * ceilDiv n 16) (sec 3), oc := oc
          ol := (List.range (sum oc)).map fun i => (field (sec 5) (4 * i) 2, bits (field (sec 5) (4 * i + 2) 2) 0 6) }
  let hd := fun (h : Nat) => bs.drop (64 + 32 * h)
  { size := field bs 2 1, codec := codec, rows := n, sealed := true, content := content, layer := field bs 5 1
    first := field bs 8 4, inherited := bit (field bs 1 1) 1, hasMeta := bit (field bs 1 1) 3
    sketch := if bit (field bs 1 1) 3 then
        some ((List.range (2 * m.d * m.heads)).map fun i => BitVec.ofNat 16 (field bs (64 + 32 * m.heads + 2 * i) 2))
      else none
    heads := (List.range m.heads).map fun h =>
      { kErr := BitVec.ofNat 32 (field (hd h) 0 4), vErr := BitVec.ofNat 32 (field (hd h) 4 4), kSat := field (hd h) 8 4
        vSat := field (hd h) 12 4, kOut := field (hd h) 16 4, vOut := field (hd h) 20 4 } }

end Sys2Proof.Machine
end

