-- ==== Sys2Proof/Machine/Crypto.lean ====
section
/-! DEFINITION. AES-256 with GCM (R110) and XTS (R317), and the verification of an ECDSA P-521 signature under SHA-512 (R65, R67, R383),
from the public standards the manual names (log 10). -/

namespace Sys2Proof.Machine

open Sys2Proof

/-! ### AES-256 -/

/-- The substitution table. -/
def aesSub : List Nat :=
  [0x63, 0x7C, 0x77, 0x7B, 0xF2, 0x6B, 0x6F, 0xC5, 0x30, 0x01, 0x67, 0x2B, 0xFE, 0xD7, 0xAB, 0x76] ++
  [0xCA, 0x82, 0xC9, 0x7D, 0xFA, 0x59, 0x47, 0xF0, 0xAD, 0xD4, 0xA2, 0xAF, 0x9C, 0xA4, 0x72, 0xC0] ++
  [0xB7, 0xFD, 0x93, 0x26, 0x36, 0x3F, 0xF7, 0xCC, 0x34, 0xA5, 0xE5, 0xF1, 0x71, 0xD8, 0x31, 0x15] ++
  [0x04, 0xC7, 0x23, 0xC3, 0x18, 0x96, 0x05, 0x9A, 0x07, 0x12, 0x80, 0xE2, 0xEB, 0x27, 0xB2, 0x75] ++
  [0x09, 0x83, 0x2C, 0x1A, 0x1B, 0x6E, 0x5A, 0xA0, 0x52, 0x3B, 0xD6, 0xB3, 0x29, 0xE3, 0x2F, 0x84] ++
  [0x53, 0xD1, 0x00, 0xED, 0x20, 0xFC, 0xB1, 0x5B, 0x6A, 0xCB, 0xBE, 0x39, 0x4A, 0x4C, 0x58, 0xCF] ++
  [0xD0, 0xEF, 0xAA, 0xFB, 0x43, 0x4D, 0x33, 0x85, 0x45, 0xF9, 0x02, 0x7F, 0x50, 0x3C, 0x9F, 0xA8] ++
  [0x51, 0xA3, 0x40, 0x8F, 0x92, 0x9D, 0x38, 0xF5, 0xBC, 0xB6, 0xDA, 0x21, 0x10, 0xFF, 0xF3, 0xD2] ++
  [0xCD, 0x0C, 0x13, 0xEC, 0x5F, 0x97, 0x44, 0x17, 0xC4, 0xA7, 0x7E, 0x3D, 0x64, 0x5D, 0x19, 0x73] ++
  [0x60, 0x81, 0x4F, 0xDC, 0x22, 0x2A, 0x90, 0x88, 0x46, 0xEE, 0xB8, 0x14, 0xDE, 0x5E, 0x0B, 0xDB] ++
  [0xE0, 0x32, 0x3A, 0x0A, 0x49, 0x06, 0x24, 0x5C, 0xC2, 0xD3, 0xAC, 0x62, 0x91, 0x95, 0xE4, 0x79] ++
  [0xE7, 0xC8, 0x37, 0x6D, 0x8D, 0xD5, 0x4E, 0xA9, 0x6C, 0x56, 0xF4, 0xEA, 0x65, 0x7A, 0xAE, 0x08] ++
  [0xBA, 0x78, 0x25, 0x2E, 0x1C, 0xA6, 0xB4, 0xC6, 0xE8, 0xDD, 0x74, 0x1F, 0x4B, 0xBD, 0x8B, 0x8A] ++
  [0x70, 0x3E, 0xB5, 0x66, 0x48, 0x03, 0xF6, 0x0E, 0x61, 0x35, 0x57, 0xB9, 0x86, 0xC1, 0x1D, 0x9E] ++
  [0xE1, 0xF8, 0x98, 0x11, 0x69, 0xD9, 0x8E, 0x94, 0x9B, 0x1E, 0x87, 0xE9, 0xCE, 0x55, 0x28, 0xDF] ++
  [0x8C, 0xA1, 0x89, 0x0D, 0xBF, 0xE6, 0x42, 0x68, 0x41, 0x99, 0x2D, 0x0F, 0xB0, 0x54, 0xBB, 0x16]

/-- Product by x in the field of AES. -/
def aesX (a : Nat) : Nat := if a < 128 then 2 * a else Nat.xor (2 * a - 256) 0x1B

/-- Two strings of numbers, xored place by place. -/
def xorAll (a b : List Nat) : List Nat := (a.zip b).map fun x => Nat.xor x.1 x.2

/-- The next words of the key schedule, newest first: word i is word i − 8 xored with a changed word i − 1. `n` counts the words still
to come. -/
def aesExpand : Nat → List (List Nat) → List (List Nat)
  | 0, w => w
  | n + 1, w =>
    let i := w.length
    let t := nth w 0 []
    let sub := fun (l : List Nat) => l.map fun x => nth aesSub x 0
    let t :=
      if i % 8 == 0 then match sub (t.drop 1 ++ t.take 1) with
        | a :: r => Nat.xor a (2 ^ (i / 8 - 1)) :: r
        | [] => []
      else if i % 8 == 4 then sub t else t
    aesExpand n (xorAll (nth w 7 []) t :: w)

/-- The fifteen round keys of a 32-byte key. -/
def aesKeys (key : List Byte) : List (List Nat) :=
  let w := (aesExpand 52 ((chunk 4 8 (key.map (·.toNat))).reverse)).reverse
  (List.range 15).map fun r => ((w.drop (4 * r)).take 4).flatten
where
  /-- `m` pieces of `n` elements. -/
  chunk (n : Nat) : Nat → List Nat → List (List Nat)
    | 0, _ => []
    | m + 1, l => l.take n :: chunk n m (l.drop n)

/-- Rows shifted: byte r + 4c comes from column c + r. -/
def aesShift (b : List Nat) : List Nat := (List.range 16).map fun i => nth b ((i + 4 * (i % 4)) % 16) 0

/-- One column mixed. -/
def aesMix : List Nat → List Nat
  | a :: b :: c :: d :: r =>
    let m := fun (x y z w : Nat) => Nat.xor (Nat.xor (aesX x) (Nat.xor (aesX y) y)) (Nat.xor z w)
    m a b c d :: m b c d a :: m c d a b :: m d a b c :: aesMix r
  | l => l

/-- The rounds after the first key, with the keys that are left. -/
def aesRounds : List (List Nat) → List Nat → List Nat
  | [], b => b
  | [k], b => xorAll (aesShift (b.map fun x => nth aesSub x 0)) k
  | k :: ks, b => aesRounds ks (xorAll (aesMix (aesShift (b.map fun x => nth aesSub x 0))) k)

/-- One block enciphered under its round keys. -/
def aesBlock (ks : List (List Nat)) (b : List Nat) : List Nat := aesRounds (ks.drop 1) (xorAll b (nth ks 0 []))

/-! ### GCM (R110) -/

/-- Product in GF(2^128), the first bit of a block the coefficient of 1. `n` bits of `x` are left. -/
def ghashMul : Nat → (x v z : Nat) → Nat
  | 0, _, _, z => z
  | n + 1, x, v, z =>
    let z := if bit x n then Nat.xor z v else z
    ghashMul n x (if v % 2 == 1 then Nat.xor (v / 2) (0xE1 * 2 ^ 120) else v / 2) z

/-- Blocks of 16 bytes, the last filled up with zeros. -/
def blocks16 : Nat → List Nat → List (List Nat)
  | 0, _ => []
  | n + 1, l => (l.take 16 ++ List.replicate (16 - l.length) 0) :: blocks16 n (l.drop 16)

/-- The number a block spells, and the block a number spells, most significant byte first. -/
def blockNat (b : List Nat) : Nat := b.foldl (fun n x => 256 * n + x) 0
def natBlock (n v : Nat) : List Nat := (List.range n).map fun i => v / 256 ^ (n - 1 - i) % 256

/-- GHASH over blocks. -/
def ghash (h : Nat) (bs : List (List Nat)) : Nat := bs.foldl (fun y b => ghashMul 128 (Nat.xor y (blockNat b)) h 0) 0

/-- Counter mode: block i is xored with the cipher of nonce and count i + 2. -/
def gcmStream (ks : List (List Nat)) (nonce data : List Nat) : List Nat :=
  let n := ceilDiv data.length 16
  (((blocks16 n data).zip (List.range n)).flatMap fun x => xorAll x.1 (aesBlock ks (nonce ++ natBlock 4 (x.2 + 2)))).take data.length

/-- The tag over associated data and ciphertext. -/
def gcmTag (ks : List (List Nat)) (nonce aad c : List Nat) : List Nat :=
  let h := blockNat (aesBlock ks (List.replicate 16 0))
  let bs := blocks16 (ceilDiv aad.length 16) aad ++ blocks16 (ceilDiv c.length 16) c ++
    [natBlock 8 (8 * aad.length) ++ natBlock 8 (8 * c.length)]
  xorAll (natBlock 16 (ghash h bs)) (aesBlock ks (nonce ++ natBlock 4 1))

def toNats (bs : List Byte) : List Nat := bs.map (·.toNat)
def ofNats (l : List Nat) : List Byte := l.map (BitVec.ofNat 8 ·)

/-- AES-256-GCM sealing: ciphertext, then the 16-byte tag. -/
def gcmSeal (key nonce aad body : List Byte) : List Byte :=
  let ks := aesKeys key
  let c := gcmStream ks (toNats nonce) (toNats body)
  ofNats (c ++ gcmTag ks (toNats nonce) (toNats aad) c)

/-- AES-256-GCM opening of ciphertext and tag; none when the tag fails. -/
def gcmOpen (key nonce aad body : List Byte) : Option (List Byte) :=
  let ks := aesKeys key
  let c := toNats (body.take (body.length - 16))
  if gcmTag ks (toNats nonce) (toNats aad) c == toNats (body.drop (body.length - 16)) then
    some (ofNats (gcmStream ks (toNats nonce) c))
  else none

/-! ### XTS (R317) -/

/-- The tweaks of a data unit's blocks, each the product of the one before by x, least significant byte first. -/
def xtsTweaks : Nat → Nat → List Nat
  | 0, _ => []
  | n + 1, t => t :: xtsTweaks n (if bit t 127 then Nat.xor (2 * t % 2 ^ 128) 0x87 else 2 * t)

/-- AES-256-XTS over whole blocks: a 64-byte key, the unit's tweak number. -/
def xtsSeal (key : List Byte) (tweak : Nat) (data : List Byte) : List Byte :=
  let k1 := aesKeys (key.take 32)
  let t0 := blockNat (aesBlock (aesKeys (key.drop 32)) (toNats (leBytes 16 tweak))).reverse
  let n := data.length / 16
  ofNats (((blocks16 n (toNats data)).zip (xtsTweaks n t0)).flatMap fun x =>
    let t := (natBlock 16 x.2).reverse
    xorAll (aesBlock k1 (xorAll x.1 t)) t)

/-! ### ECDSA over P-521 -/

def p521P : Nat := 2 ^ 521 - 1
def p521B : Nat := 0x0051953EB9618E1C9A1F929A21A0B68540EEA2DA725B99B315F3B8B489918EF109E156193951EC7E937B1652C0BD3BB1BF073573DF883D2C34F1EF451FD46B503F00
def p521N : Nat := 0x01FFFFFFFFFFFFFFFFFFFFFFFFFFFFFFFFFFFFFFFFFFFFFFFFFFFFFFFFFFFFFFFFFA51868783BF2F966B7FCC0148F709A5D03BB5C9B8899C47AEBB6FB71E91386409
def p521Gx : Nat := 0x00C6858E06B70404E9CD9E3ECB662395B4429C648139053FB521F828AF606B4D3DBAA14B5E77EFE75928FE1DC127A2FFA8DE3348B3C1856A429BF97E7E31C2E5BD66
def p521Gy : Nat := 0x011839296A789A3BC0045C8A5FB42C7D1BD998F54449579B446817AFBD17273E662C97EE72995EF42640C550B9013FAD0761353C7086A272C24088BE94769FD16650

/-- b to the power e modulo m, over the `n` low bits of e. -/
def powMod (m b e : Nat) : Nat → Nat
  | 0 => 1
  | n + 1 => let h := powMod m (b * b % m) (e / 2) n; if e % 2 == 1 then b * h % m else h

/-- A point in projective coordinates (X : Y : Z), with z = 0 at infinity. -/
structure P521 where
  x : Nat
  y : Nat
  z : Nat
  deriving DecidableEq, Repr

/-- a − b modulo p. -/
def subP (a b : Nat) : Nat := (a + p521P - b % p521P) % p521P

/-- Twice a point, in Jacobian coordinates (the curve's a is −3). -/
def p521Double (q : P521) : P521 :=
  if q.z == 0 || q.y == 0 then ⟨1, 1, 0⟩
  else
    let d := q.z * q.z % p521P
    let g := q.y * q.y % p521P
    let b := q.x * g % p521P
    let a := 3 * (subP q.x d * (q.x + d)) % p521P
    let x := subP (a * a) (8 * b)
    ⟨x, subP (a * subP (4 * b) x) (8 * (g * g)), subP (subP ((q.y + q.z) * (q.y + q.z)) g) d⟩

/-- The sum of two points. -/
def p521Add (p q : P521) : P521 :=
  if p.z == 0 then q
  else if q.z == 0 then p
  else
    let zp := p.z * p.z % p521P
    let zq := q.z * q.z % p521P
    let u := p.x * zq % p521P
    let v := q.x * zp % p521P
    let s := p.y * (q.z * zq % p521P) % p521P
    let t := q.y * (p.z * zp % p521P) % p521P
    let h := subP v u
    let r := subP t s
    if h == 0 then (if r == 0 then p521Double p else ⟨1, 1, 0⟩)
    else
      let hh := h * h % p521P
      let hhh := h * hh % p521P
      let w := u * hh % p521P
      let x := subP (subP (r * r) hhh) (2 * w)
      ⟨x, subP (r * subP w x) (s * hhh), h * (p.z * q.z % p521P) % p521P⟩

/-- k times a point, over the `n` low bits of k, most significant first. -/
def p521Mul (k : Nat) (q : P521) : Nat → P521
  | 0 => ⟨1, 1, 0⟩
  | n + 1 => let h := p521Double (p521Mul (k / 2) q n); if k % 2 == 1 then p521Add h q else h

/-- Whether a key of 133 bytes is an uncompressed point of the curve. -/
def p521Key (key : List Byte) : Option P521 :=
  let x := beNat ((key.drop 1).take 66)
  let y := beNat ((key.drop 67).take 66)
  if key.length == 133 && key.head? == some 0x04 && decide (x < p521P) && decide (y < p521P) &&
    decide ((y * y) % p521P = (x * x * x + (p521P - 3) * x + p521B) % p521P) then some ⟨x, y, 1⟩ else none

/-- A signature (r, s), 66 bytes each, verifies under a key over a message hashed with SHA-512. -/
def ecdsaVerify (key msg sig : List Byte) : Bool :=
  let r := beNat (sig.take 66)
  let t := beNat ((sig.drop 66).take 66)
  match p521Key key with
  | none => false
  | some q =>
    if sig.length != 132 || r == 0 || decide (p521N ≤ r) || t == 0 || decide (p521N ≤ t) then false
    else
      let w := powMod p521N t (p521N - 2) 521
      let e := beNat (sha512 msg)
      let a := p521Add (p521Mul (e * w % p521N) ⟨p521Gx, p521Gy, 1⟩ 521) (p521Mul (r * w % p521N) q 521)
      a.z != 0 && decide (a.x % p521P * powMod p521P (a.z * a.z % p521P) (p521P - 2) 521 % p521P % p521N = r)

end Sys2Proof.Machine
end

