-- ==== Sys2Proof/Machine/Update.lean ====
section
/-! DEFINITION. The one way each part of State is updated: `s.modX f` applies `f` to that part and leaves the rest. -/

namespace Sys2Proof.Machine

open Sys2Proof

/-- Update `pins` alone. -/
def State.modPins (s : State) (f : Pins → Pins) : State := { s with pins := f s.pins }
/-- Update `pwr` alone. -/
def State.modPwr (s : State) (f : Power → Power) : State := { s with pwr := f s.pwr }
/-- Update `thm` alone. -/
def State.modThm (s : State) (f : Thermal → Thermal) : State := { s with thm := f s.thm }
/-- Update `clk` alone. -/
def State.modClk (s : State) (f : Clock → Clock) : State := { s with clk := f s.clk }
/-- Update `start` alone. -/
def State.modStart (s : State) (f : StartSt → StartSt) : State := { s with start := f s.start }
/-- Update `img` alone. -/
def State.modImg (s : State) (f : ImgSt → ImgSt) : State := { s with img := f s.img }
/-- Update `resp` alone. -/
def State.modResp (s : State) (f : Resp → Resp) : State := { s with resp := f s.resp }
/-- Update `tly` alone. -/
def State.modTly (s : State) (f : Tally → Tally) : State := { s with tly := f s.tly }
/-- Update `spare` alone. -/
def State.modSpare (s : State) (f : Spare → Spare) : State := { s with spare := f s.spare }
/-- Update `bbx` alone. -/
def State.modBbx (s : State) (f : Bbx → Bbx) : State := { s with bbx := f s.bbx }
/-- Update `link` alone. -/
def State.modLink (s : State) (f : Link → Link) : State := { s with link := f s.link }
/-- Update `coh` alone. -/
def State.modCoh (s : State) (f : Coh → Coh) : State := { s with coh := f s.coh }
/-- Update `ext` alone. -/
def State.modExt (s : State) (f : Ext → Ext) : State := { s with ext := f s.ext }
/-- Update `hbm` alone. -/
def State.modHbm (s : State) (f : Hbm → Hbm) : State := { s with hbm := f s.hbm }
/-- Update `rng` alone. -/
def State.modRng (s : State) (f : Rng → Rng) : State := { s with rng := f s.rng }
/-- Update `io` alone. -/
def State.modIo (s : State) (f : Io → Io) : State := { s with io := f s.io }
/-- Update `seqs` alone. -/
def State.modSeqs (s : State) (f : Seqs → Seqs) : State := { s with seqs := f s.seqs }
/-- Update `pfx` alone. -/
def State.modPfx (s : State) (f : Pfx → Pfx) : State := { s with pfx := f s.pfx }
/-- Update `casc` alone. -/
def State.modCasc (s : State) (f : Casc → Casc) : State := { s with casc := f s.casc }
/-- Update `ops` alone. -/
def State.modOps (s : State) (f : Ops → Ops) : State := { s with ops := f s.ops }
/-- Update `attn` alone. -/
def State.modAttn (s : State) (f : Attn → Attn) : State := { s with attn := f s.attn }
/-- Update `core` alone. -/
def State.modCore (s : State) (f : Cores → Cores) : State := { s with core := f s.core }
/-- Update `cdc` alone. -/
def State.modCdc (s : State) (f : Cdc → Cdc) : State := { s with cdc := f s.cdc }
/-- Update `tier` alone. -/
def State.modTier (s : State) (f : Tiers → Tiers) : State := { s with tier := f s.tier }
/-- Update `wt` alone. -/
def State.modWt (s : State) (f : Wt → Wt) : State := { s with wt := f s.wt }
/-- Update `ftl` alone. -/
def State.modFtl (s : State) (f : Ftl → Ftl) : State := { s with ftl := f s.ftl }
/-- Update `sch` alone. -/
def State.modSch (s : State) (f : Sch → Sch) : State := { s with sch := f s.sch }
/-- Update `sec` alone. -/
def State.modSec (s : State) (f : Sec → Sec) : State := { s with sec := f s.sec }
/-- Update `mgmt` alone. -/
def State.modMgmt (s : State) (f : Mgmt → Mgmt) : State := { s with mgmt := f s.mgmt }
/-- Advance the free-value counter (log 5). -/
def State.draw (s : State) : State := { s with free := s.free + 1 }

/-- A list of updates in turn. -/
def seqAll (fs : List (State → State)) (s : State) : State := fs.foldl (fun acc f => f acc) s

/-- An update for each element of a list, in order. -/
def forEach {α : Type} (l : List α) (f : α → State → State) (s : State) : State := l.foldl (fun acc x => f x acc) s

/-- An update made only when `b` holds. -/
def when (b : Bool) (f : State → State) (s : State) : State := if b then f s else s

end Sys2Proof.Machine
end

