-- ==== Sys2Proof/Machine/Ops.lean ====
section
/-! DEFINITION. Operations every family shares: time, Saddlebag events and freezes, Tally words, spare records,
the indicators, free values and messages sent. -/

namespace Sys2Proof.Machine

open Sys2Proof

/-! ### Time -/

/-- The CCLK count (R22). -/
def now (s : State) : Nat := s.clk.count.toNat

/-- The boot epoch (R23). -/
def epochNo (s : State) : Nat := s.clk.epoch.toNat

/-- Epoch and count as one number: it rises by one at every CCLK edge, the wrap among them (R22 to R25), so the difference of two
stamps of one start is the CCLK that have passed between them (R6, R26). -/
def stamp (s : State) : Nat := epochNo s * 2 ^ 48 + now s

/-- A free value of `w` bits (log 5) and the state with the counter advanced. -/
def fresh (w : Nat) (s : State) : BitVec w × State := (Config.freeValue w s.free, s.draw)

/-! ### Saddlebag events (R412 to R414) -/

/-- The interval a count lies in (R412). -/
def interval (count : Nat) : Nat := count / 2 ^ 20

/-- Events of a kind that have arrived in the running interval. -/
def rateOf (b : Bbx) (cls unit code : Nat) : Nat :=
  sum ((b.rate.filter fun r => r.cls == cls && r.unit == unit && r.code == code).map (·.count))

/-- Count one more event of a kind in the running interval. -/
def bumpRate (b : Bbx) (cls unit code : Nat) : List Rate :=
  if b.rate.any (fun r => r.cls == cls && r.unit == unit && r.code == code) then
    b.rate.map fun r => if r.cls == cls && r.unit == unit && r.code == code then { r with count := r.count + 1 } else r
  else b.rate ++ [{ cls := cls, unit := unit, code := code, count := 1 }]

/-- An event enters the queue of 64; it is lost when the queue is full or the ring is frozen (R412). -/
def Bbx.enqueue (b : Bbx) (e : Event) : Bbx :=
  if b.frozen || decide (64 ≤ b.queue.length) then { b with lost := sat32 (b.lost + 1) }
  else { b with queue := b.queue ++ [e] }

/-- An event arrives: the seventeenth and later of its kind in an interval are counted and not written (R412). -/
def Bbx.arrive (b : Bbx) (e : Event) : Bbx :=
  let n := rateOf b e.cls e.unit e.code
  let b := { b with rate := bumpRate b e.cls e.unit e.code }
  if 16 ≤ n then { b with suppressed := sat32 (b.suppressed + 1) } else b.enqueue e

/-- An event at the present time, with up to four arguments (R413). -/
def eventAt (cls unit code : Nat) (args : List Nat) (s : State) : Event :=
  { time := now s, epoch := epochNo s, cls := cls, unit := unit, code := code, a0 := nth args 0 0, a1 := nth args 1 0,
    a2 := nth args 2 0, a3 := nth args 3 0 }

/-- Write an event (R414): unit class, unit, code and arguments. -/
def emit (cls unit code : Nat) (args : List Nat) (s : State) : State :=
  s.modBbx fun b => b.arrive (eventAt cls unit code args s)

/-- The ring takes an event, numbers it and drops the oldest beyond 8,192 (R412). -/
def Bbx.write (b : Bbx) (e : Event) : Bbx :=
  let r := b.ring ++ [{ e with serial := b.serial % 65536 }]
  { b with
    ring := r.drop (r.length - 8192), serial := (b.serial + 1) % 65536, written := sat32 (b.written + 1) }

/-- Every queued event reaches the ring, in order of arrival. -/
def Bbx.drain (b : Bbx) : Bbx := { b.queue.foldl Bbx.write b with queue := [] }

/-! ### The Tally (R408 to R410) -/

/-- What a word holds as shipped: the codes for "none" in the spare words, 0 elsewhere (log 1). -/
def tlyFactory (w : Nat) : BitVec 32 :=
  if w == 0x006 then 0x7
  else if w == 0x007 then 0xFFF
  else if 0x010 ≤ w ∧ w < 0x020 then 0xFF
  else if 0x020 ≤ w ∧ w < 0x030 then 0x3FFF
  else if 0x030 ≤ w ∧ w < 0x040 then 0x40003FFF
  else if 0x044 ≤ w ∧ w < 0x048 then 0x40000000
  else 0

/-- A physical word. -/
def Tally.physAt (t : Tally) (p : Nat) : PhysWord := mgetD t.phys p { value := tlyFactory p }

/-- The physical word that serves logical word `w`. -/
def Tally.place (t : Tally) (w : Nat) : Nat := mgetD t.remap w w

/-- The value of a logical word, served from the SRAM copy (R408). -/
def Tally.word (t : Tally) (w : Nat) : BitVec 32 := mgetD t.copy w (t.physAt (t.place w)).value

/-- The lowest unused spare, 0 to 127 (R409). -/
def Tally.freeSpare (t : Tally) : Option Nat :=
  (List.range 128).find? fun n => !(t.remap.any fun x => x.2 == 1024 + n)

/-- Spares not yet in use. -/
def Tally.sparesLeft (t : Tally) : Nat := 128 - t.remap.length

/-- A word has a physical word below its limit, or a spare is left (R409). -/
def Tally.canWrite (t : Tally) (w : Nat) : Bool :=
  let p := t.physAt (t.place w)
  (!p.bad && decide (p.count < 1000000)) || t.freeSpare.isSome

/-- The larger of a pair of words (R410). -/
def Tally.pair (t : Tally) (a : Nat) : BitVec 32 :=
  if (t.word a).toNat ≤ (t.word (a + 1)).toNat then t.word (a + 1) else t.word a

/-- One write of a logical word (R409), with its events; a remap is not preceded by a new spare-map generation
here (`tlyWrite` does that). -/
def tlyWriteRaw (w : Nat) (v : BitVec 32) (s : State) : State :=
  let t := s.tly
  let p := t.physAt (t.place w)
  if p.bad || decide (1000000 ≤ p.count) then
    match t.freeSpare with
    | none => emit 8 0 evTallyWorn [w] (s.modTly fun t => { t with wornFail := true })
    | some n =>
      emit 8 0 evTallyRemap [w, n] (s.modTly fun t =>
        { t with
          remap := mset t.remap w (1024 + n), copy := mset t.copy w v
          phys := mset t.phys (1024 + n) { value := v, count := 1 } })
  else
    when (p.count + 1 == 950000) (emit 8 0 evTallyWarn [w]) (s.modTly fun t =>
      { t with copy := mset t.copy w v, phys := mset t.phys (t.place w) { p with value := v, count := p.count + 1 } })

/-- Whether the next write of the word needs a spare. -/
def Tally.needsSpare (t : Tally) (w : Nat) : Bool :=
  let p := t.physAt (t.place w)
  p.bad || decide (1000000 ≤ p.count)

/-- A pair write goes to A and then to B (R410). -/
def pairWrite (a : Nat) (v : BitVec 32) (s : State) : State := tlyWriteRaw (a + 1) v (tlyWriteRaw a v s)

/-- A pair write can be made when one of its words can (R410). -/
def Tally.canPair (t : Tally) (a : Nat) : Bool := t.canWrite a || t.canWrite (a + 1)

/-- The spare-map generation (R398) rises by one before a spare record changes. -/
def bumpSpareGen (s : State) : State := pairWrite 0x004 (s.tly.pair 0x004 + 1) s

/-- Write a logical word (R409); a remap is a spare record, so the generation rises first (R398). -/
def tlyWrite (w : Nat) (v : BitVec 32) (s : State) : State :=
  tlyWriteRaw w v (when (s.tly.needsSpare w && s.tly.freeSpare.isSome && !(w == 4 || w == 5)) bumpSpareGen s)

/-- Change a spare record: the generation first, then the word (R398). -/
def spareWrite (w : Nat) (v : Nat) (s : State) : State := tlyWrite w (BitVec.ofNat 32 v) (bumpSpareGen s)

/-- The value of a Tally word as a number. -/
def tlyNat (s : State) (w : Nat) : Nat := (s.tly.word w).toNat

/-- A spare word as it is in service: its record, or what could not be written there (Table 13.3). -/
def spareNat (s : State) (w : Nat) : Nat := mgetD s.spare.unwritten w (tlyNat s w)

/-- A spare record changes only when its value does; the spare is in service though the write cannot be made. -/
def spareSet (w : Nat) (v : Nat) (s : State) : State :=
  if spareNat s w == v then s
  else
    let s := spareWrite w v s
    s.modSpare fun x => { x with unwritten := if tlyNat s w == v then mdel x.unwritten w else mset x.unwritten w v }

/-- A number with field [lo + n − 1 : lo] replaced. -/
def putBits (v lo n x : Nat) : Nat := v - bits v lo n * 2 ^ lo + x % 2 ^ n * 2 ^ lo

/-! ### Freezes (R415 to R417) -/

/-- The slot a copy goes to: not held, lowest serial, incomplete slots counting as 0, ties to the lower (R416). -/
def Bbx.target (b : Bbx) : Nat :=
  let key := fun (n : Nat) => let x := nth b.slots n {}; if x.complete then x.serial else 0
  let free := (List.range 4).filter fun n => !(nth b.slots n {}).held
  match free with
  | [] => 0
  | f :: r => r.foldl (fun best n => if key n < key best then n else best) f

/-- Freeze the ring for a cause (R415): the first freeze writes FREEZE and starts the copy; a cause during a copy
joins its causes, a fatal one restarting an OPERATOR copy under its class; a cause after the copy has ended joins
the causes of that snapshot. -/
def freeze (cls : Nat) (s : State) : State :=
  match s.bbx.copy with
  | some c =>
    if c.cls == clsOperator && fatalClass cls then
      s.modBbx fun b =>
        { b with
          copy := some { c with cls := cls }, cause := cls
          slots := lmod b.slots c.slot fun x =>
            { x with cls := cls, fatal := true, causes := setBit x.causes cls } }
    else
      s.modBbx fun b => { b with slots := lmod b.slots c.slot fun x =>
        { x with causes := setBit x.causes cls, fatal := x.fatal || fatalClass cls } }
  | none =>
    if s.bbx.frozen then
      s.modBbx fun b =>
        { b with
          cause := cls
          slots := lmod b.slots b.lastSlot fun x =>
            { x with causes := setBit x.causes cls, fatal := x.fatal || fatalClass cls } }
    else
      s.modBbx fun b =>
        let b := b.drain.write (eventAt 0 0 evFreeze [cls, 2 ^ cls] s)
        let n := b.target
        let top := maxOf (b.slots.map (·.serial))
        { b with
          frozen := true, cause := cls, copy := some { slot := n, cls := cls }, lastSlot := n
          slots := lput b.slots n
            { serial := top + 1, cls := cls, complete := false, held := false, fatal := fatalClass cls
              causes := 2 ^ cls, epoch := epochNo s, time := now s, lost := b.lost
              spareGen := (s.tly.pair 0x004).toNat, buildId := (s.img.cur.map (·.buildId)).getD 0
              events := b.ring } }

/-- Whether the copy of the present freeze has ended. -/
def copyEnded (s : State) : Bool := s.bbx.frozen && s.bbx.copy.isNone

/-! ### Pins and indicators (R52) -/

/-- FAULT_L and THERM_L at the ball: low only while outputs are enabled (R33). -/
def Pins.faultLow (p : Pins) : Bool := p.outputsEnabled && p.fault
def Pins.thermLow (p : Pins) : Bool := p.outputsEnabled && p.therm

/-- ATTN_LED as it is seen: released until outputs are enabled (R33). -/
def Pins.ledShown (p : Pins) : Led := if p.outputsEnabled then p.led else .off

/-- Set ATTN_LED. -/
def setLed (l : Led) (s : State) : State := s.modPins fun p => { p with led := l }

/-- Cascade position, group size and node IDs of the image (R422). -/
def cascPos (s : State) : Nat := (s.img.cur.map (·.cascPos)).getD 0
def cascSize (s : State) : Nat := (s.img.cur.map (·.cascSize)).getD 1
def cascNode (s : State) (q : Nat) : Nat := (s.img.cur.map fun i => nth i.cascNodes q 0).getD 0

/-- Positions a device counts live, itself among them (R423, R424). -/
def liveSet (s : State) : List Nat :=
  (List.range (cascSize s)).filter fun q => q == cascPos s || (nth s.casc.pos q {}).live

/-- Whether this device is the master: in a group of one always; otherwise the lowest live position while RDY is
asserted (R424). Until an image is accepted, position 0 is (Table 6.12). -/
def isMaster (s : State) : Bool :=
  if s.img.cur.isNone then s.pins.straps == 0
  else if cascSize s ≤ 1 then true else s.pins.rdy && (liveSet s).head? == some (cascPos s)

/-- CASC_MASTER_L follows the master (R424), while outputs are enabled (R33). -/
def driveMaster (s : State) : State := s.modPins fun p => { p with cascMaster := p.outputsEnabled && isMaster s }

/-- Deassert RDY: in a group of more than one, no position counts live without it (R424). -/
def dropRdy (s : State) : State :=
  let s := s.modPins fun p => { p with rdy := false }
  let s := if 1 < cascSize s then s.modCasc fun c => { c with pos := c.pos.map fun p => { p with live := false, hellos := 0 } } else s
  driveMaster s

/-- Drive THERM_L low. -/
def driveTherm (s : State) : State := s.modPins fun p => { p with therm := true }

/-- Assert FAULT_L for a fatal class (R417); TOP_STATUS.fatal_class names it. -/
def assertFault (cls : Nat) (s : State) : State :=
  (s.modPins fun p => { p with fault := true }).modResp fun r => { r with fatalClass := cls }

/-- Set safe_to_pull and drive ATTN_LED steady on (R52). -/
def setSafe (s : State) : State := setLed .steady (s.modPwr fun p => { p with safeToPull := true })

/-! ### Who serves -/

/-- The FV7 takes work: RDY asserted and no response under way (R45, R50). -/
def serving (s : State) : Bool := s.pins.rdy && s.resp.kind == .none

/-- Whether the device issues work: serving, or within the 20 ms of a quiesce (R50). -/
def issuing (s : State) : Bool := serving s || s.resp.stage == .ops

/-- All work has stopped, or everything but management is powered down (R21, R50, R55). -/
def stopped (s : State) : Bool := s.resp.halted || s.pwr.mgmtOnly

/-- No work begins: it has stopped, or the units that do it are powered down (R45 step 3). -/
def atRest (s : State) : Bool := stopped s || s.pwr.flushOnly

/-- An event of work inside the device, which does nothing while no work begins. -/
def working (f : State → State) (s : State) : State := if atRest s then s else f s

/-- An event of a unit that goes on while the durable window is flushed (Table 2.3), which does nothing once all work has stopped. -/
def unlessStopped (f : State → State) (s : State) : State := if stopped s then s else f s

/-- The ports are silent: in holdover (R21), at a trip, which withholds every grant (Table 2.7), and with the optics powered down
(R45, R50). -/
def silent (s : State) : Bool := atRest s || s.clk.holdover

/-- No message is taken: in a power-fail flush, a leak response or after a fatal class, where the optics are powered down or stand
still (R21, R45), and once a quiesce has left management alone powered (R50). -/
def deaf (s : State) : Bool :=
  match s.resp.kind with
  | .powerFail | .leak | .fatal => true
  | .quiesce => s.resp.stage == .ended
  | _ => false

/-- The image's partitions. -/
def parts (s : State) : List PartDecl := (s.img.cur.map (·.parts)).getD []

/-- Clusters of a partition still in service (R399, SCH_PART_CL_p). -/
def clustersOf (s : State) (p : Nat) : List Nat :=
  ((nth (parts s) p { clusters := [], spaceOnly := false }).clusters).filter fun c => !bit (spareNat s (0x020 + c)) 16

/-- Whether a partition exists and is space-only (R338). -/
def partExists (s : State) (p : Nat) : Bool := decide (p < (parts s).length)
def spaceOnly (s : State) (p : Nat) : Bool := (nth (parts s) p { clusters := [], spaceOnly := false }).spaceOnly

/-- A context's entry. -/
def ctxOf (s : State) (c : Nat) : Ctx := mgetD s.sch.ctxs c {}

/-- Clusters a context's units may run on (R343, R344). -/
def clustersFor (s : State) (c : Nat) : List Nat :=
  let x := ctxOf s c
  (clustersOf s x.part).filter fun k => !spaceOnly s x.part || bit x.clusters k

/-- A partition's run-time state. -/
def partOf (s : State) (p : Nat) : Part := mgetD s.sch.parts p {}

/-- Update a context or a partition. -/
def modCtx (c : Nat) (f : Ctx → Ctx) (s : State) : State := s.modSch fun x => { x with ctxs := mupd x.ctxs c {} f }
def modPart (p : Nat) (f : Part → Part) (s : State) : State := s.modSch fun x => { x with parts := mupd x.parts p {} f }

/-- This device's node ID. -/
def selfNode (s : State) : Nat := (s.img.cur.map (·.nodeId)).getD 0

/-! ### Messages out (R94, R97, R110) -/

/-- The 16-byte message header (R94). -/
def msgHeader (addr tag status flags : Nat) : List Byte :=
  leBytes 8 addr ++ leBytes 2 tag ++ leBytes 1 status ++ leBytes 1 flags ++ leBytes 4 0

/-- Cut bytes into pieces of `n`; `fuel` bounds the pieces. -/
def chunks (n : Nat) : Nat → List Byte → List (List Byte)
  | 0, _ => []
  | fuel + 1, bs => if bs.isEmpty then [] else bs.take n :: chunks n fuel (bs.drop n)

/-- Bytes padded with zeros to `n`. -/
def padTo (n : Nat) (bs : List Byte) : List Byte := bs.take n ++ List.replicate (n - bs.length) 0

/-- Bytes 0 to 14 of a flit header (Table 4.4). -/
def flitHead (vc typ dst src key ctr idx : Nat) (eom : Bool) (seq len : Nat) : List Byte :=
  leBytes 15 (pack [(0, vc), (2, typ % 64), (8, dst % 65536), (24, src % 65536), (40, key % 2 ^ 32),
    (72, ctr % 2 ^ 24), (96, idx % 64), flagAt 102 eom, (104, seq % 256), (112, len % 256)])

/-- The nonce: key index then the counter field with its direction bit, most significant byte first (R110). -/
def nonce (key ctr : Nat) (toHost : Bool) : List Byte :=
  (leBytes 4 key).reverse ++ (leBytes 8 (ctr % 2 ^ 63 + b2n toHost * 2 ^ 63)).reverse

/-- The flits of a message: 224 data bytes a flit under a key, 240 in cleartext; `c` is the count of the first, `dir` the
direction bit, `hop` the per-hop byte (Table 4.4). -/
def flitize (src seq c : Nat) (dir : Bool) (hop : Nat) (keyBytes : List Byte) (m : OutMsg) : List (List Byte) :=
  let n := if m.key == 0 then 240 else 224
  let ps := chunks n 64 (msgHeader m.addr m.tag m.status m.flags ++ m.body)
  (List.range ps.length).map fun i =>
    let d := nth ps i []
    let head := flitHead m.vc m.typ m.dst src m.key (c + i) i (i + 1 == ps.length) seq d.length
    let h := head ++ leBytes 1 hop
    if m.key == 0 then h ++ padTo 240 d
    else h ++ padTo 240 (gcmSeal keyBytes (nonce m.key (c + i) dir) head (padTo 224 d))

/-- FABRIC ports that are up. -/
def fabricUp (s : State) : List Nat :=
  (List.range 16).filter fun n => let p := nth s.link.ports n {}; !p.torus && p.state == .up

/-- Coordinates of a node in a torus block (R82). -/
def coordOf (n d : Nat) : Nat := if d == 0 then bits n 0 4 else if d == 1 then bits n 4 4 else bits n 8 4

/-- Torus size in a dimension. -/
def torusSize (s : State) (d : Nat) : Nat :=
  match s.img.cur with
  | none => 1
  | some i => if d == 0 then i.kx else if d == 1 then i.ky else i.kz

/-- Whether a node lies in this device's torus block (R106). -/
def inTorus (s : State) (n : Nat) : Bool :=
  match s.img.cur with
  | none => false
  | some i => (i.ports.any fun p => bit p 0) && n / 4096 == i.torusBase / 4096

/-- The dimension and direction (true for −) a message takes next (R106). -/
def routeDim (s : State) (dst : Nat) : Option (Nat × Bool) :=
  ((List.range 3).find? fun d => coordOf (selfNode s) d != coordOf dst d).map fun d =>
    let k := torusSize s d
    let up := (coordOf dst d + k - coordOf (selfNode s) d) % k
    (d, k != 2 && decide (k - up < up))

/-- The TORUS port of a dimension and direction. -/
def torusPort (s : State) (dd : Nat × Bool) : Option Nat :=
  (List.range 16).find? fun n => let p := nth s.link.ports n {}; p.torus && p.dim == dd.1 && (p.dir == 1) == dd.2

/-- The FABRIC port of (dst, vc) (R97): the one chosen before while it is up, else that of the hash over the ports that are up. -/
def hashPort (s : State) (dst vc : Nat) : Option Nat :=
  match fabricUp s with
  | [] => none
  | l => some (((mget s.link.chosen (4 * dst + vc)).filter l.contains).getD (nth l (Config.portHash dst vc % l.length) 0))

/-- A FABRIC port that carries a message of (dst, vc) stays its choice until it goes down (R97). -/
def keepChoice (dst vc : Nat) (port : Option Nat) (s : State) : State :=
  match port with
  | some n => if (nth s.link.ports n {}).torus then s else s.modLink fun l => { l with chosen := mset l.chosen (4 * dst + vc) n }
  | none => s

/-- A TORUS port by which nothing can go: FAILED, or DOWN (R109, R438). -/
def portDead (s : State) (n : Nat) : Bool :=
  let p := nth s.link.ports n {}
  p.state == .failed || p.state == .down

/-- Whether the hop out of a port crosses the dateline of its dimension (R107). -/
def crosses (s : State) (n : Nat) : Bool :=
  let p := nth s.link.ports n {}
  let c := coordOf (selfNode s) p.dim
  p.torus && (if p.dir == 0 then c + 1 == torusSize s p.dim else c == 0)

/-- The port a message leaves by: the torus route, or the FABRIC port of its hash; tile-stream messages take the
up FABRIC ports in rotation, and a stream whose TORUS port is FAILED goes by FABRIC from then on (R97, R106,
R109). -/
def pickPort (s : State) (dst vc : Nat) : Option Nat :=
  let fabric := if vc == 2 then
      (match fabricUp s with
       | [] => none
       | l => some (nth l (s.link.tileTurn % l.length) 0))
    else hashPort s dst vc
  if inTorus s dst && dst != selfNode s then
    match (routeDim s dst).bind (torusPort s) with
    | some n =>
      if portDead s n || s.link.detour.contains (selfNode s, dst, vc) then fabric else some n
    | none => fabric
  else fabric

/-- Whether the torus route of a message is by a port that is FAILED or DOWN (R109, R438). -/
def detoured (s : State) (dst vc : Nat) : Bool :=
  inTorus s dst && dst != selfNode s &&
    match (routeDim s dst).bind (torusPort s) with
    | some n => portDead s n || s.link.detour.contains (selfNode s, dst, vc)
    | none => false

/-- Queue a flit at an egress input of a port (Table 4.8). -/
def pushFlits (port input : Nat) (fs : List (List Byte)) (s : State) : State :=
  s.modLink fun l => { l with ports := lmod l.ports port fun p =>
    { p with queues := lmod p.queues input fun q => q ++ fs } }

/-- Send a message by a port (R94, R97, R110): it joins the messages sent, its flits are sealed under its key and
counted there (under a pair key in the direction R385 gives), and they queue at the port. Nothing is sent under a key whose count has run out. -/
def sendVia (port : Option Nat) (m : OutMsg) (s : State) : State :=
  let kb := mget s.sec.keys m.key
  let dir := match kb with
    | some k => if k.pair then decide (k.node < selfNode s) else true
    | none => true
  let hop := match port with
    | some n => b2n (crosses s n)
    | none => 0
  let sent := (kb.map (·.sent)).getD 0
  let fs := flitize (selfNode s) (nth s.link.msgSeq m.vc 0) sent dir hop ((kb.map (·.bytes)).getD []) m
  if m.key != 0 && (kb.isNone || decide (2 ^ 63 - 1 < sent + fs.length)) then s
  else
    let det := detoured s m.dst m.vc
    let s := s.modSec fun x => { x with keys := mmod x.keys m.key fun k => { k with sent := k.sent + fs.length } }
    let s := s.modLink fun l =>
      { l with
        outbox := l.outbox ++ [m], msgSeq := lmod l.msgSeq m.vc fun n => (n + 1) % 256
        tileTurn := if m.vc == 2 then l.tileTurn + 1 else l.tileTurn
        detour := if det && !l.detour.contains (selfNode s, m.dst, m.vc) then l.detour ++ [(selfNode s, m.dst, m.vc)]
          else l.detour }
    match port with
    | none => s
    | some n => pushFlits n m.vc fs s

/-- A message was sent between two states. -/
def wasSent (s t : State) : Bool := decide (s.link.outbox.length < t.link.outbox.length)

/-- Send a message by the port its route gives; but for the tile stream, the FABRIC port it went by stays the choice. -/
def send (m : OutMsg) (s : State) : State :=
  let n := pickPort s m.dst m.vc
  let t := sendVia n m s
  if m.vc != 2 && wasSent s t then keepChoice m.dst m.vc n t else t

/-- The port of the `n`-th resend: the next FABRIC port that is up (R119, R238). -/
def resendPort (s : State) (dst vc n : Nat) : Option Nat :=
  match fabricUp s with
  | [] => none
  | l => some (nth l ((l.findIdx (fun x => some x == pickPort s dst vc) + n) % l.length) 0)

/-- The response to a request message: same tag and key, back to its source. -/
def reply (h : Hdr) (typ vc status flags : Nat) (body : List Byte) (s : State) : State :=
  send { typ := typ, vc := vc, dst := h.src, key := h.key, tag := h.tag, status := status, flags := flags, body := body } s

/-- NAK with a status code (Table 4.6). -/
def nakTo (h : Hdr) (status : Nat) (s : State) : State := reply h mtNak 1 status 0 [] s

/-- Update a port. -/
def modPort (n : Nat) (f : Port → Port) (s : State) : State :=
  s.modLink fun l => { l with ports := lmod l.ports n f }

/-- Count a discard with no usable key or a bad type on a port (R98, R112). -/
def countNokey (n : Nat) (s : State) : State := modPort n (fun p => { p with nokey := sat32 (p.nokey + 1) }) s

/-- A key that carries messages: installed and not dying (R112). A session's management key carries SPDM alone. -/
def keyLive (s : State) (k : Nat) : Bool := match mget s.sec.keys k with
  | none => false
  | some e => !e.dying && !e.mgmt

/-- Take a message (R112, R113): under a live key, or counted and discarded. The transport's copy of it leaves the
inbox. A device whose ports are silent takes none. -/
def takeMsg (h : Hdr) (typ : Nat) (f : State → State) (s : State) : State :=
  let s := s.modLink fun l =>
    { l with inbox := l.inbox.eraseP fun m => m.port == h.port && m.src == h.src && m.typ == typ && m.key == h.key }
  if deaf s then s else if keyLive s h.key then f s else countNokey h.port s

/-! ### Ends of ops and completions (R119, R120, R355, R358, R363, R445) -/

/-- What an op answers: status, rung, loss and counts. -/
structure Ans where
  status : Nat
  rung : Nat := 0
  loss : Nat := 0
  a : Nat := 0
  b : Nat := 0
  c : Nat := 0

/-- INTERNAL with a subcode (R445). -/
def internal (sub : Nat) : Ans := { status := stInternal, a := sub }

/-- A ring. -/
def ringOf (s : State) (n : Nat) : Ring := mgetD s.rng.rings n {}

/-- Update a ring that has been written. -/
def modRing (n : Nat) (f : Ring → Ring) (s : State) : State := s.modRng fun r => { r with rings := mmod r.rings n f }

/-- Fields of a submission entry (Table 4.11). -/
def eOpcode (raw : List Byte) : Nat := field raw 0 1
def eFence (raw : List Byte) : Bool := bit (field raw 1 1) 0
def eQuiet (raw : List Byte) : Bool := bit (field raw 1 1) 1
def eContext (raw : List Byte) : Nat := field raw 2 2 % 1024
def eTag (raw : List Byte) : Nat := field raw 4 4
def eNode (raw : List Byte) : Nat := field raw 14 2
def eAddr (raw : List Byte) : Nat := field raw 8 6
def eLen (raw : List Byte) : Nat := field raw 16 4
def eDeadline (raw : List Byte) : Nat := field raw 20 4
def eInline (raw : List Byte) : List Byte := (raw.drop 24).take 40

/-- An op that ends after arrival + deadline (R355). -/
def missed (s : State) (e : Entry) : Bool :=
  eDeadline e.raw != 0 && decide (e.arrival + eDeadline e.raw < stamp s)

/-- The completion of an entry (Table 4.12). -/
def cplOf (s : State) (e : Entry) (a : Ans) : Cpl :=
  { tag := eTag e.raw, status := a.status, rung := a.rung + 128 * b2n (missed s e), loss := a.loss, a := a.a, b := a.b
    c := a.c, time := now s, epoch := epochNo s % 65536 }

/-- Accounts of an op that ends (R363, R364); the slowdown counts the ops that have a solo estimate. -/
def account (s : State) (e : Entry) (a : Ans) (solo : Nat) (c : Ctx) : Ctx :=
  { c with
    late := sat16 (c.late + b2n (missed s e)), abstained := sat16 (c.abstained + b2n (a.rung == 4))
    rungs := if a.rung == 0 then c.rungs else lmod c.rungs (a.rung - 1) fun n => sat32 (n + 1)
    actual := if solo == 0 then c.actual else c.actual + (stamp s - e.arrival), solo := c.solo + solo
    opsDone := if solo == 0 then c.opsDone else c.opsDone + 1 }

/-- An entry ends (R120): it leaves the ring's accepted entries and its completion is ready, but for a quiet one
that ends OK. -/
def endEntry (ring idx : Nat) (a : Ans) (solo : Nat) (s : State) : State :=
  match (ringOf s ring).entries.find? fun e => e.idx == idx with
  | none => s
  | some e =>
    let s' := modRing ring (fun r =>
      { r with
        entries := r.entries.filter fun x => x.idx != idx
        ready := if eQuiet e.raw && a.status == stOk then r.ready else r.ready ++ [cplOf s e a] }) s
    modCtx (ringOf s ring).context (account s e a solo) s'

/-- An entry ends with KEY_GONE: counted and never written (R391). -/
def abortEntry (ring idx : Nat) (s : State) : State :=
  modRing ring (fun r => { r with entries := r.entries.filter fun x => x.idx != idx }) s

/-- The next entry to start: the first accepted one that waits. -/
def headEntry (r : Ring) : Option Entry := r.entries.find? fun e => e.st == .waiting

/-- The ring's next entry may start now: the device serves, the partition is not resetting, the fence holds (R119, R360). A fence
waits for the end of every earlier entry, not for the write of its completion (R118, log 41). -/
def startable (s : State) (ring : Nat) : Option Entry :=
  let r := ringOf s ring
  if !issuing s || !r.enable || (partOf s (ctxOf s r.context).part).reset != .none then none
  else match headEntry r with
    | none => none
    | some e => if eFence e.raw && r.entries.head?.map (·.idx) != some e.idx then none else some e

/-- sq_head (Table 4.9): the index of the next entry to start. -/
def sqHead (r : Ring) : BitVec 16 := match headEntry r with
  | some e => BitVec.ofNat 16 e.idx
  | none => r.sqTail

/-- Mark an entry as started. -/
def markStarted (ring idx : Nat) (s : State) : State :=
  modRing ring (fun r => { r with entries := r.entries.map fun e => if e.idx == idx then { e with st := .started } else e }) s

/-- The bytes an entry's operands buffer must have and the subcode of a mismatch (R443, Table 15.1), from the
entry and, where the length is in the buffer itself, none. -/
def lenRule (raw : List Byte) : Option Nat :=
  let il := eInline raw
  match eOpcode raw with
  | 0x11 | 0x12 | 0x32 => some 64
  | 0x30 => some (64 * field il 5 1)
  | 0x48 | 0x49 => some (if field il 0 1 == 1 then 64 else 0)
  | 0x20 | 0x21 | 0x22 | 0x31 | 0x70 => none
  | _ => some 0

/-- A queue-wait histogram bin (R363). -/
def waitBin (n : Nat) : Nat := if n < 1024 then 0 else min 15 (Nat.log2 n - 9)

/-- Count the queue wait of an op that starts its work (R363). -/
def countWait (ctx arrival : Nat) (s : State) : State :=
  modCtx ctx (fun c => { c with waits := lmod c.waits (waitBin (stamp s - arrival)) fun n => sat32 (n + 1) }) s

/-- A new op in progress. -/
def newOp (o : Op) (s : State) : State :=
  s.modOps fun x => { x with tab := mset x.tab x.next o, next := x.next + 1 }

/-- Update an op, or remove it. -/
def modOp (id : Nat) (f : Op → Op) (s : State) : State := s.modOps fun x => { x with tab := mmod x.tab id f }
def delOp (id : Nat) (s : State) : State := s.modOps fun x => { x with tab := mdel x.tab id }

/-- An op ends with an answer. -/
def endOp (id : Nat) (a : Ans) (s : State) : State :=
  match mget s.ops.tab id with
  | none => s
  | some o => endEntry o.ring o.idx a o.solo (delOp id s)

end Sys2Proof.Machine
end

