-- ==== Sys2Proof/Machine/Hbm.lean ====
section
/-! DEFINITION. HBM frames, quotas and the drain (05 R137, R148; 09 R285 to R288, R465; 12 R380). -/

namespace Sys2Proof.Machine

open Sys2Proof

/-- Unit of each quota in bytes or entries (Table 9.5). -/
def quotaUnit (k : Nat) : Nat := nth [0x10000, 0x200000, 0x4000000, 0x4000000, 1] k 1

/-- Limit of quota `k` of a partition, in bytes or entries. -/
def quotaLimit (s : State) (p k : Nat) : Nat := tlyNat s (0x050 + 5 * p + k) * quotaUnit k

/-- Usage of quota `k` of a partition. -/
def quotaUsed (s : State) (p k : Nat) : Nat := nth (mgetD s.hbm.used p []) k 0

/-- A quota covers `n` more (R287). -/
def covers (s : State) (p k n : Nat) : Bool := decide (quotaUsed s p k + n ≤ quotaLimit s p k)

/-- Charge or return usage (R286). -/
def charge (p k n : Nat) (s : State) : State :=
  s.modHbm fun h => { h with used := mupd h.used p [0, 0, 0, 0, 0] fun l => lmod l k fun u => u + n }
def uncharge (p k n : Nat) (s : State) : State :=
  s.modHbm fun h => { h with used := mupd h.used p [0, 0, 0, 0, 0] fun l => lmod l k fun u => u - n }

/-- Free runs of a partition, by rising address. -/
def freeRuns (s : State) (p : Nat) : List Run := mgetD s.hbm.free p []

/-- The smallest free run that fits `n` frames; of equal runs the lowest (R137, log 1). -/
def bestFit (l : List Run) (n : Nat) : Option Run :=
  (l.filter fun r => n ≤ r.len).foldl (fun best r => match best with
    | none => some r
    | some b => if r.len < b.len then some r else some b) none

/-- The free runs with `n` frames taken from the front of run `r`. -/
def carve (l : List Run) (r : Run) (n : Nat) : List Run :=
  (l.map fun x => if x == r then { start := x.start + n, len := x.len - n } else x).filter fun x => x.len != 0

/-- The free runs with `r` returned, merged with adjacent runs (R137). -/
def insertRun (r : Run) : List Run → List Run
  | [] => [r]
  | x :: rest =>
    if r.start + r.len < x.start then r :: x :: rest
    else if r.start + r.len == x.start then { start := r.start, len := r.len + x.len } :: rest
    else if x.start + x.len == r.start then insertRun { start := x.start, len := x.len + r.len } rest
    else x :: insertRun r rest

/-- Bytes of `n` frames. -/
def frameBytes (n : Nat) : Nat := 4096 * n

/-- Frames that hold `n` bytes (R137). -/
def framesFor (n : Nat) : Nat := ceilDiv n 4096

/-- Whether a poisoned line lies in bytes [a, a + n) of a run (R104). -/
def runPoisoned (s : State) (r : Run) (a n : Nat) : Bool :=
  s.coh.poisonPhys.any fun x => decide (4096 * r.start + a < x + 64) && decide (x < 4096 * r.start + a + n)

/-- Take `n` frames of a partition with no quota charge: the run, and the state without it. What is written into it
clears any poison mark it had. -/
def takeFree (p n : Nat) (s : State) : Option (Run × State) :=
  if n == 0 then some ({ start := 0, len := 0 }, s) else
  (bestFit (freeRuns s p) n).map fun r =>
    let got : Run := { start := r.start, len := n }
    let inside := fun (x : Nat) => decide (4096 * got.start ≤ x) && decide (x < 4096 * (got.start + n))
    (got, (s.modHbm fun h =>
      { h with
        free := mset h.free p (carve (mgetD h.free p []) r n)
        dirty := h.dirty.filter fun d => !(decide (d.2.start < got.start + n) && decide (got.start < d.2.start + d.2.len)) }).modCoh
      fun c => { c with poisonPhys := c.poisonPhys.filter fun x => !inside x })

/-- Ladder step 1 (Table 5.11): a run that fits, covered by the HBM quota, charged as it is taken. -/
def takeRun (p n : Nat) (s : State) : Option (Run × State) :=
  if covers s p 1 (frameBytes n) then (takeFree p n s).map fun x => (x.1, charge p 1 (frameBytes n) x.2) else none

/-- Frames return to free space at once and await background zeroing (R137, R380). -/
def giveFrames (p : Nat) (r : Run) (s : State) : State :=
  if r.len == 0 then s else
  s.modHbm fun h =>
    { h with free := mset h.free p (insertRun r (mgetD h.free p [])), dirty := h.dirty ++ [(p, r)] }

/-- A run is freed and its charge returned. -/
def freeRun (p : Nat) (r : Run) (s : State) : State := giveFrames p r (uncharge p 1 (frameBytes r.len) s)

/-- Free a run that may be absent. -/
def freeRun? (p : Nat) (r : Option Run) (s : State) : State :=
  match r with
  | none => s
  | some r => freeRun p r s

/-- Bytes of a list of runs. -/
def runBytes (l : List Run) : Nat := frameBytes (sum (l.map (·.len)))

/-- An old home waits for the drain (R148): its runs, still charged where `charged`, its spill space and its image. -/
def drainHome (p : Nat) (runs : List Run) (charged : Bool) (spill : List Run) (image : Option Nat) (s : State) : State :=
  if runs.isEmpty && spill.isEmpty && image.isNone then s
  else s.modHbm fun h =>
    { h with
      drains := h.drains ++
        [{ id := h.nextDrain, part := p, runs := runs, bytes := if charged then runBytes runs else 0, spill := spill, image := image }]
      nextDrain := h.nextDrain + 1 }

/-- A claim on `n` frames of a partition (R281 step 2): a run that fits and that the HBM quota covers, charged later (R286). -/
def claimRun (p n : Nat) (s : State) : Option (Run × State) := if covers s p 1 (frameBytes n) then takeFree p n s else none

/-! ### The spill area (R161) -/

/-- Free space of a partition's spill area, in 256-byte units: 4 MiB of them at the start. -/
def spillGaps (s : State) (p : Nat) : List Run := mgetD s.hbm.spillFree p [{ start := 0, len := 16384 }]

/-- Spill bytes in use in a partition. -/
def spillUsed (s : State) (p : Nat) : Nat := 256 * (16384 - sum ((spillGaps s p).map (·.len)))

/-- `n` units from a list of free runs, the lowest first; none where they hold fewer. -/
def takeGaps : List Run → Nat → Option (List Run)
  | _, 0 => some []
  | [], _ + 1 => none
  | r :: rest, n => if n ≤ r.len then some [{ start := r.start, len := n }]
    else (takeGaps rest (n - r.len)).map fun l => r :: l

/-- Free runs without the units of a run. -/
def cutGaps (gaps : List Run) (x : Run) : List Run :=
  gaps.flatMap fun r =>
    if r.start ≤ x.start && decide (x.start < r.start + r.len) then
      ([{ start := r.start, len := x.start - r.start }, { start := x.start + x.len, len := r.start + r.len - (x.start + x.len) }] : List Run).filter
        fun y => y.len != 0
    else [r]

/-- Space for `bytes` of rows in the spill area: in one piece where a gap fits, else in the lowest gaps (log 1). None where there is no
room. -/
def takeSpill (p bytes : Nat) (s : State) : Option (List Run × State) :=
  let gaps := spillGaps s p
  let n := ceilDiv bytes 256
  let got : Option (List Run) := match gaps.find? fun r => n ≤ r.len with
    | some r => some [{ start := r.start, len := n }]
    | none => takeGaps gaps n
  got.map fun l => (l, s.modHbm fun h => { h with spillFree := mset h.spillFree p (l.foldl cutGaps gaps) })

/-- Spill space falls free. -/
def freeSpill (p : Nat) (l : List Run) (s : State) : State :=
  if l.isEmpty then s else s.modHbm fun h => { h with spillFree := mset h.spillFree p (l.foldl (fun g r => insertRun r g) (spillGaps s p)) }

/-- HBM_BACKGROUND_ZERO (R380): frames freed earlier have been zeroed. -/
def execHbmBackgroundZero (part start len : Nat) (s : State) : Out :=
  .next (working (fun s => s.modHbm fun h =>
    { h with dirty := h.dirty.filter fun d => !(d.1 == part && d.2.start == start && d.2.len == len) }) s)

/-- The first number from `n` on that is not skipped. -/
def FreeQ.skipTo (q : FreeQ) : Nat → Nat → Nat
  | 0, n => n
  | fuel + 1, n => if q.skip.contains n then q.skipTo fuel (n + 1) else n

/-- Take the number released longest ago (R124). -/
def FreeQ.take (q : FreeQ) : Option (Nat × FreeQ) :=
  let n := q.skipTo (q.skip.length + 1) q.next
  if n < q.bound then some (n, { q with next := n + 1 })
  else match q.back with
    | [] => none
    | x :: r => some (x, { q with next := q.bound, back := r })

/-- A released number joins the end of the queue. -/
def FreeQ.give (q : FreeQ) (n : Nat) : FreeQ := { q with back := q.back ++ [n] }

/-- Cores in service of a partition. -/
def clusterCount (s : State) (p : Nat) : Nat := (clustersOf s p).length

/-- Free HBM of a partition: quota less use (R280). -/
def freeHbm (s : State) (p : Nat) : Int := (quotaLimit s p 1 : Int) - quotaUsed s p 1

/-- Bytes of HBM reserved at start and charged to no quota (R465): sequence table, shared records, metadata pointers
1 GiB each (R127, R142, R252); shared hints 128 MiB, heat table 256 MiB, heat cache 32 MiB (R274, R278); verification
table 2 GiB, block table 512 MiB, overflow table 4 GiB (R178, R182); staging 2 GiB, save slots 2,320 MiB (R309, R354);
export and import tables 64 and 32 MiB (R432, R433); 8 bytes a unit of map and ledger for the largest dies; the
fine-map budget (R307, log 7). -/
def hbmReserved (fineMiB : Nat) : Nat :=
  (3 * 1024 + 128 + 256 + 32 + 2048 + 512 + 4096 + 2048 + 2320 + 64 + 32 + fineMiB) * 2 ^ 20 + 8 * 89877942

/-- Division of HBM frames among partitions in proportion to their clusters, when the image is accepted (log 7). -/
def splitFrames (ps : List PartDecl) (total first : Nat) : AMap (List Run) :=
  let n := sum (ps.map (·.clusters.length))
  let share := fun (i : Nat) => total * (nth ps i { clusters := [], spaceOnly := false }).clusters.length / n
  (List.range ps.length).map fun i =>
    (i, [{ start := first + sum ((List.range i).map share), len := share i }])

end Sys2Proof.Machine
end

