-- ==== Sys2Proof/Machine/Ftl.lean ====
section
/-! DEFINITION. Flash: geometry, regions, placing images, stripes, staging, records and the durable window (10, 02
R43). -/

namespace Sys2Proof.Machine

open Sys2Proof

/-! ### Geometry and capacity (R302 to R304) -/

/-- A 4 MiB unit is 256 granules of 16 KiB (R306). -/
def granuleBytes : Nat := 16384
def unitBytes : Nat := 4194304

/-- Present dies of a target number, by channel. -/
def diesOfTarget (f : Ftl) (t : Nat) : List Nat :=
  (List.range 48).filterMap fun c => if f.dies.contains (16 * c + t) then some (16 * c + t) else none

/-- Full groups of 16 dies (R303). -/
def groupsOf (f : Ftl) : List (List Nat) :=
  (List.range 16).flatMap fun t => (chunks16 3 (diesOfTarget f t)).filter fun g => g.length == 16
where
  /-- Cut a list of at most 48 dies into pieces of 16. -/
  chunks16 : Nat → List Nat → List (List Nat)
    | 0, _ => []
    | n + 1, l => l.take 16 :: chunks16 n (l.drop 16)

/-- Dies left over, of each target number that has some: they serve one-bit blocks only (R303). -/
def leftGroups (f : Ftl) : List (List Nat) :=
  ((List.range 16).map fun t => let l := diesOfTarget f t; l.drop (l.length / 16 * 16)).filter fun g => !g.isEmpty

/-- The groups of dies that a use takes its stripes from. -/
def groupsFor (f : Ftl) (use : Nat) : List (List Nat) := if use == 0 then groupsOf f else groupsOf f ++ leftGroups f

/-- Bulk capacity of one die in bytes. -/
def dieBytes (f : Ftl) : Nat := f.geo.tbit * 2 ^ 37

/-- C_raw (R304). -/
def rawBytes (f : Ftl) : Nat := 16 * (groupsOf f).length * dieBytes f

/-- Logical units: C_raw / 1.12 / 4 MiB (R304). -/
def logicalUnits (f : Ftl) : Nat := rawBytes f * 100 / (112 * unitBytes)

/-- One-bit block size (Table 10.1). -/
def oneBitBlock (f : Ftl) : Nat := 4 * f.geo.wordlines * granuleBytes

/-- One-bit blocks a die may hold: the image's buffer fraction of its blocks. -/
def oneBitPerDie (s : State) : Nat := s.ftl.geo.blocks * (s.img.cur.map (·.bufPercent)).getD 2 / 100

/-- Blocks of the flush reserve: two on each channel (R313). -/
def reserveBlocks : Nat := 96
def reserveBytes (f : Ftl) : Nat := reserveBlocks * oneBitBlock f

/-- Granules a stripe of `n` blocks holds, in one-bit or bulk mode. -/
def stripeGranules (f : Ftl) (use n : Nat) : Nat := 4 * n * f.geo.wordlines * (if use == 0 then f.geo.bitsPerCell else 1)

/-! ### Regions (R306) -/

/-- Region of a zone number or region key. -/
def regionOf (x : Nat) : Nat := x * 2654435761 % 2 ^ 32 / 2 ^ 24

def keySeq (handle pos : Nat) : Nat := handle * 64 + pos / 2 ^ 16
def keyBlock (bid : Nat) : Nat := 0x40000000 + bid % 2 ^ 29
def keyTile (handle i : Nat) : Nat := 0x80000000 + handle * 64 + i / 2 ^ 14

/-- Whether a region has been rebuilt (R78). -/
def regionReady (s : State) (r : Nat) : Bool := s.start.regions.contains r
def mapReady (s : State) : Bool := (List.range 256).all fun r => s.start.regions.contains r

/-- A touch of a region not yet rebuilt asks for its on-demand scan (R79). -/
def wantRegion (r : Nat) (s : State) : State :=
  if regionReady s r || s.ftl.onDemand.contains r then s
  else s.modFtl fun x => { x with onDemand := x.onDemand ++ [r] }

/-- Ask for every region of a list. -/
def wantRegions (l : List Nat) (s : State) : State := forEach l wantRegion s

/-! ### Placing images in the logical space (R306) -/

/-- First logical granule of an image. -/
def FImage.first (i : FImage) : Nat := 256 * i.unit + i.granule

/-- Granules of a zone in use: live images, withheld granules and padded units, as (first, length) by first. -/
def zoneSpans (f : Ftl) (z : Nat) : List (Nat × Nat) :=
  let a := f.images.filterMap fun x =>
    if x.2.live && x.2.unit / 4096 == z then some (x.2.first, x.2.granules) else none
  let b := (f.withheld.map (·.2)).filter fun x => x.1 / 256 / 4096 == z
  let c := f.units.filterMap fun x => if x.2.padded && x.1 / 4096 == z then some (256 * x.1, 256) else none
  sortBy (fun p q => decide (p.1 < q.1)) (a ++ b ++ c)

/-- The first gap of `n` granules from `at_` on, before `stop`. -/
def firstGap (n stop : Nat) : Nat → List (Nat × Nat) → Option Nat
  | at_, [] => if at_ + n ≤ stop then some at_ else none
  | at_, (a, l) :: r => if at_ + n ≤ a then some at_ else firstGap n stop (max at_ (a + l)) r

/-- A contiguous run of granules in a zone of the region: the lowest (the place is the FTL's own choice, log 7). -/
def findGranules (f : Ftl) (region n : Nat) : Option Nat :=
  let total := logicalUnits f
  ((List.range (ceilDiv total 4096)).filter fun z => regionOf z == region).findSome? fun z =>
    firstGap n (256 * min total (4096 * (z + 1))) (256 * 4096 * z) (zoneSpans f z)

/-- The home of an image: its first logical byte in 256-byte units (R306). -/
def FImage.home (i : FImage) : Nat := 64 * i.first

/-! ### Space left (R304, R321, R322) -/

/-- A block's record; an unlisted block is free, with no erase yet counted. -/
def fblock (f : Ftl) (k : Nat) : FBlock := mgetD f.blocks k {}
def blockKey (die b : Nat) : Nat := 2 ^ 14 * die + b

/-- Blocks of a die that are not free. -/
def busyBlocks (f : Ftl) (die : Nat) : Nat :=
  count (fun x => x.1 / 2 ^ 14 == die && x.2.st != .free) f.blocks
def freeBlocks (f : Ftl) (die : Nat) : Nat := f.geo.blocks - busyBlocks f die
def retiredBlocks (f : Ftl) (die : Nat) : Nat :=
  count (fun x => x.1 / 2 ^ 14 == die && x.2.st == .retired) f.blocks

/-- Bytes of one block in bulk mode. -/
def bulkBlock (f : Ftl) : Nat := oneBitBlock f * f.geo.bitsPerCell

/-- Spare space left, in 0.01 % of C_raw: what is neither logical capacity nor retired (R321, R336). -/
def spareSpace (f : Ftl) : Nat :=
  let raw := rawBytes f
  if raw == 0 then 0
  else (raw - logicalUnits f * unitBytes - sum ((groupsOf f).flatten.map fun d => retiredBlocks f d * bulkBlock f)) * 10000 / raw
def spareLow (s : State) : Bool := !s.ftl.dies.isEmpty && decide (spareSpace s.ftl < 200)
def readOnly (s : State) : Bool := !s.ftl.dies.isEmpty && decide (spareSpace s.ftl < 100)

/-- A die is urgent below 0.5 % free blocks, and collected below 2 % (R322). -/
def dieUrgent (f : Ftl) (d : Nat) : Bool := decide (freeBlocks f d * 1000 < f.geo.blocks * 5)
def dieCollects (f : Ftl) (d : Nat) : Bool := decide (freeBlocks f d * 100 < f.geo.blocks * 2)

/-! ### Stripes and blocks (R303, R315, R318) -/

/-- The free block of a die with the lowest erase count, the lower number on a tie (R318). -/
def pickBlock (f : Ftl) (die : Nat) : Option Nat :=
  let listed := f.blocks.filter fun x => x.1 / 2 ^ 14 == die && x.2.st == .free
  let fresh := lowestFree f.blocks (blockKey die 0) f.geo.blocks
  let fresh := fresh.filter fun k => decide (k < blockKey die f.geo.blocks)
  let all := (match fresh with | none => [] | some k => [(k, ({} : FBlock))]) ++ listed
  (all.foldl (fun best x => match best with
    | none => some x
    | some b => if x.2.erases < b.2.erases || (x.2.erases == b.2.erases && decide (x.1 < b.1)) then some x else some b)
    none).map (·.1)

/-- One-bit blocks that the buffer fraction allows on the dies present, less the flush reserve, and those in use. -/
def bufferBlocks (s : State) : Nat := s.ftl.dies.length * oneBitPerDie s - reserveBlocks
def bufferUsed (s : State) : Nat :=
  count (fun x => x.2.use != 0 && (x.2.st == .opened || x.2.st == .closed)) s.ftl.blocks

/-- One-bit blocks on a die. -/
def oneBitOn (f : Ftl) (die : Nat) : Nat :=
  count (fun x => x.1 / 2 ^ 14 == die && x.2.use != 0 && (x.2.st == .opened || x.2.st == .closed)) f.blocks

/-- A die may take one more block of a use: of one-bit blocks no more than the buffer fraction, the flush reserve with them (R304,
R313). -/
def dieTakes (s : State) (use die : Nat) : Bool :=
  use == 0 || (decide (oneBitOn s.ftl die < oneBitPerDie s) && decide (bufferUsed s < bufferBlocks s))

/-- Blocks about to be erased leave the freed stripes whose data they still hold. -/
def erasedFrom (ks : List Nat) (m : AMap Stripe) : AMap Stripe :=
  (m.map fun x =>
    if x.2.freed && x.2.blocks.any ks.contains then
      (x.1, { x.2 with blocks := x.2.blocks.filter fun b => !ks.contains b, whole := false })
    else x).filter fun x => !(x.2.freed && x.2.blocks.isEmpty)

/-- Open a stripe: groups in rotation, one block a die, each erased as it is opened (R318). None when no group has
a block on every die. -/
def openStripe (use region : Nat) (s : State) : Option (Nat × State) :=
  let f := s.ftl
  let gs := groupsFor f use
  let turn := (List.range gs.length).map fun i => (f.nextGroup + i) % gs.length
  let ok := turn.find? fun g => (nth gs g []).all fun d => dieTakes s use d && (pickBlock f d).isSome
  match ok with
  | none => none
  | some g =>
    let ks := (nth gs g []).filterMap (pickBlock f)
    let id := f.nextStripe
    some (id, s.modFtl fun f =>
      { f with
        blocks := ks.foldl (fun m k => mupd m k {} fun b =>
          { b with erases := b.erases + 1, st := .opened, use := use, stripe := some id }) f.blocks
        stripes := mset (erasedFrom ks f.stripes) id { use := use, region := region, blocks := ks, opened := f.seqNo, parity := true }
        nextStripe := id + 1, nextGroup := (g + 1) % gs.length })

/-- The open stripe of a use and region. -/
def openOf (f : Ftl) (use region : Nat) : Option Nat :=
  (f.stripes.find? fun x => x.2.use == use && x.2.region == region && !x.2.closed && !x.2.freed).map (·.1)

/-- Close a stripe: its summary pages are programmed (R315). -/
def closeStripe (id : Nat) (s : State) : State :=
  s.modFtl fun f =>
    { f with
      stripes := mmod f.stripes id fun x => { x with closed := true }
      blocks := ((mget f.stripes id).map (·.blocks)).getD [] |>.foldl (fun m k => mmod m k fun b =>
        if b.st == .opened then { b with st := .closed } else b) f.blocks }

/-- An open stripe of a use and region with room for `n` granules more: the open one, which otherwise closes, or a new one. -/
def stripeFor (use region n : Nat) (s : State) : Option (Nat × State) :=
  match openOf s.ftl use region with
  | none => openStripe use region s
  | some id =>
    let st := mgetD s.ftl.stripes id { use := use, region := region, blocks := [] }
    if st.fill + n ≤ stripeGranules s.ftl use st.blocks.length then some (id, s) else openStripe use region (closeStripe id s)

/-! ### Open-block parity (R326, R327) -/

/-- A stripe whose parity pages are kept. -/
def keepsParity (f : Ftl) (id : Nat) : Bool := ((mget f.stripes id).map fun st => st.parity && !st.freed).getD false

/-- The open parity block outside a stripe's dies with a row's page free, the lowest. -/
def parityOpen (f : Ftl) (st : Stripe) : Option Nat :=
  let dies := st.blocks.map (· / 2 ^ 14)
  (f.stripes.find? fun x => x.2.use == 4 && !x.2.closed && !x.2.freed && !(x.2.blocks.any fun k => dies.contains (k / 2 ^ 14))).map (·.1)

/-- Open a parity block on a die outside a stripe's dies, the lowest that takes it. -/
def openParity (st : Stripe) (s : State) : Option (Nat × State) :=
  let dies := st.blocks.map (· / 2 ^ 14)
  let die := s.ftl.dies.find? fun d => !dies.contains d && dieTakes s 4 d && (pickBlock s.ftl d).isSome
  (die.bind (pickBlock s.ftl)).map fun k =>
    let id := s.ftl.nextStripe
    (id, s.modFtl fun f =>
      { f with
        blocks := mupd f.blocks k {} fun b => { b with erases := b.erases + 1, st := .opened, use := 4, stripe := some id }
        stripes := mset (erasedFrom [k] f.stripes) id { use := 4, region := 0, blocks := [k], opened := f.seqNo, parity := false }
        nextStripe := id + 1 })

/-- The parity of `n` rows of a stripe: a 64 KiB page each. Where no die outside its group takes a block there is none (log 7). -/
def writeParity (id : Nat) : Nat → State → State
  | 0, s => s
  | n + 1, s =>
    match mget s.ftl.stripes id with
    | none => s
    | some st =>
      match (match parityOpen s.ftl st with
        | some k => some (k, s)
        | none => openParity st s) with
      | none => s
      | some (k, s) =>
        let s := s.modFtl fun f => { f with stripes := mmod f.stripes k fun x => { x with fill := x.fill + 4, holds := x.holds ++ [(id, 4)] } }
        writeParity id n (if stripeGranules s.ftl 4 1 ≤ ((mget s.ftl.stripes k).map (·.fill)).getD 0 then closeStripe k s else s)

/-- Granules of `who` are programmed at the next places of a stripe, with the parity of the rows that are begun; it closes when it is
full. -/
def fillStripe (id at_ n : Nat) (who : List (Nat × Nat)) (s : State) : State :=
  let s := s.modFtl fun f => { f with stripes := mmod f.stripes id fun x => { x with fill := at_ + n, holds := x.holds ++ who } }
  match mget s.ftl.stripes id with
  | none => s
  | some st =>
    let row := 4 * max 1 st.blocks.length
    let s := writeParity id (ceilDiv (at_ + n) row - ceilDiv at_ row) s
    if stripeGranules s.ftl st.use st.blocks.length ≤ st.fill then closeStripe id s else s

/-- A write to open stripes: their use and region, the image or record, its unit, the sequence number of the next granule and the copy
generation. -/
structure Put where
  use : Nat
  region : Nat
  who : Nat
  unit : Nat := 0
  seq : Nat
  gen : Nat := 0

/-- Write `n` granules to open stripes, closing full ones; where they lie. None when no stripe takes them. -/
def writeStripes (w : Put) : Nat → Nat → State → Option (List FPlace × State)
  | 0, n, s => if n == 0 then some ([], s) else none
  | fuel + 1, n, s =>
    if n == 0 then some ([], s)
    else match stripeFor w.use w.region 1 s with
      | none => none
      | some (id, s) =>
        let st := mgetD s.ftl.stripes id { use := w.use, region := w.region, blocks := [] }
        let k := min n (stripeGranules s.ftl w.use st.blocks.length - st.fill)
        (writeStripes { w with seq := w.seq + k } fuel (n - k) (fillStripe id st.fill k [(w.who, k)] s)).map fun r =>
          ({ stripe := id, at_ := st.fill, n := k, unit := w.unit, seq := w.seq, gen := w.gen } :: r.1, r.2)

/-- Write a large unit whole into the next slot of an open bulk stripe of its region (R303, R308): the stripe, the slot. `who` gives the
images it holds, with their granules. -/
def bulkSlot (region : Nat) (who : List (Nat × Nat)) (s : State) : Option (Nat × Nat × State) :=
  let at_ := fun (s : State) (id : Nat) => ceilDiv (((mget s.ftl.stripes id).map (·.fill)).getD 0) 256
  let skip := match openOf s.ftl 0 region with
    | some id => 256 * at_ s id - (((mget s.ftl.stripes id).map (·.fill)).getD 0)
    | none => 0
  (stripeFor 0 region (skip + 256) s).map fun r =>
    let slot := at_ r.2 r.1
    (r.1, slot, fillStripe r.1 (256 * slot) 256 who r.2)

/-! ### Sequence numbers (R324) -/

/-- Take `n` global sequence numbers; the first of them. -/
def takeSeq (n : Nat) (s : State) : Nat × State := (s.ftl.seqNo, s.modFtl fun f => { f with seqNo := f.seqNo + n })

/-- Number and generation of a copy of `n` granules: the source's number, a generation up, or a fresh number where that would pass
0xFFFF. -/
def copyStamp (seq gen n : Nat) (s : State) : Nat × Nat × State :=
  if gen < 0xFFFF then (seq, gen + 1, s) else (s.ftl.seqNo, 0, (takeSeq n s).2)

/-! ### The write path (R309) -/

/-- Share of the write staging a partition may hold. -/
def stagingShare (s : State) (p : Nat) : Nat :=
  let all := sum ((parts s).map (·.clusters.length))
  (2 ^ 31 - s.pwr.window) * (nth (parts s) p { clusters := [], spaceOnly := false }).clusters.length / max all 1

def stagingUsed (s : State) (p : Nat) : Nat := mgetD s.hbm.staging p 0

/-- Moves of a partition in flight (R280). -/
def movesOf (s : State) (p : Nat) : Nat := count (fun x => x.2.part == p) s.tier.moves

/-- A flash tier has room for `n` bytes more, whatever quota remains (R465): k = 2 flash-SLC, 3 flash-bulk, in units of 64 MiB. -/
def tierRoom (s : State) (k n : Nat) : Bool :=
  decide (sum ((List.range (parts s).length).map fun p => quotaUsed s p k) + n ≤ 2 ^ 26 * nth s.tier.cap k 0)
def slcRoom (s : State) (n : Nat) : Bool := tierRoom s 2 n

/-- The write path accepts a write of `n` granules for region `r` now (R309, R321). -/
def accepts (s : State) (p n r : Nat) : Bool :=
  decide (stagingUsed s p + n * granuleBytes ≤ stagingShare s p) && decide (movesOf s p < 64) && s.start.wearReady &&
    regionReady s r && !readOnly s && covers s p 2 (n * granuleBytes) && slcRoom s (n * granuleBytes) && (findGranules s.ftl r n).isSome

/-- Units an image lies in, and its granules in one. -/
def unitsOf (i : FImage) : List Nat := (List.range (ceilDiv (i.granule + i.granules) 256)).map fun k => i.unit + k
def granulesIn (i : FImage) (unit : Nat) : Nat :=
  min (i.first + i.granules) (256 * (unit + 1)) - max i.first (256 * unit)

/-! ### Fine tables (R307, R308) -/

/-- Fine tables: the budget's number, and those in use. -/
def fineBudget (s : State) : Nat := (s.img.cur.map (·.fineMiB)).getD 4096 * 512
def fineUsed (s : State) : Nat := count (fun x => x.2.table.isSome) s.ftl.units
def fineFull (s : State) : Bool := decide (fineBudget s ≤ fineUsed s)

/-- The lowest fine table that is free. -/
def freeTable (s : State) : Option Nat :=
  if fineFull s then none
  else (List.range (fineUsed s + 1)).find? fun i => !(s.ftl.units.any fun u => u.2.table == some i)

/-- A unit that is mapped fine takes a fine table where it has none and one is free. -/
def takeTable (unit : Nat) (s : State) : State :=
  match mget s.ftl.units unit with
  | none => s
  | some u => if u.table.isSome then s else s.modFtl fun f => { f with units := mset f.units unit { u with table := freeTable s } }

/-- Granules of an image below a unit. -/
def granulesBefore (i : FImage) (unit : Nat) : Nat := max i.first (256 * unit) - i.first

/-- Program an image into the one-bit buffer, unit by unit (R310): every granule there is mapped fine, and its unit with it (R308). -/
def programBuffer (id : Nat) (i : FImage) (s : State) : Option (List FPlace × State) :=
  (unitsOf i).foldl (fun (acc : Option (List FPlace × State)) u => acc.bind fun a =>
    let w : Put := { use := 1, region := 0, who := id, unit := u, seq := i.seq + granulesBefore i u }
    (writeStripes w (granulesIn i u + 1) (granulesIn i u) a.2).map fun r =>
      (a.1 ++ r.1, takeTable u (r.2.modFtl fun f => { f with units := mmod f.units u fun x => { x with kind := 2, slot := none } })))
    (some ([], s))

/-- A new image enters staging: logical granules, sequence numbers, SLC charge (R286, R306, R324). -/
def newImage (ident : Ident) (tenant p region granules : Nat) (page : Page) (durable backing : Bool) (move : Option Nat)
    (s : State) : Option (Nat × State) :=
  (findGranules s.ftl region granules).map fun g =>
    let id := s.ftl.nextId
    let r := takeSeq granules s
    let s := r.2
    let im : FImage :=
      { ident := ident, tenant := tenant, part := p, seq := r.1, unit := g / 256, granule := g % 256, granules := granules
        page := page, durable := durable, backing := backing, waiting := true, move := move, charged := move.isNone }
    let s := s.modFtl fun f =>
      { f with
        images := mset f.images id im, nextId := id + 1
        units := (unitsOf im).foldl (fun m u => mupd m u {} fun x => { x with alloc := x.alloc + granulesIn im u, region := region }) f.units }
    let s := s.modHbm fun h => { h with staging := mupd h.staging p 0 fun n => n + granules * granuleBytes }
    (id, when move.isNone (charge p 2 (granules * granuleBytes)) s)

/-- Which quota holds an image: bulk once folded (R286). -/
def imageTier (i : FImage) : Nat := if i.bulk then 3 else 2

/-- A move's image is charged to its tier, or one that a move takes the page from is charged no longer (R286). -/
def chargeImage (id : Nat) (s : State) : State :=
  match mget s.ftl.images id with
  | none => s
  | some i =>
    if i.charged then s
    else charge i.part (imageTier i) (i.granules * granuleBytes)
      (s.modFtl fun f => { f with images := mset f.images id { i with charged := true } })
def unchargeImage (id : Nat) (s : State) : State :=
  match mget s.ftl.images id with
  | none => s
  | some i =>
    if i.charged then uncharge i.part (imageTier i) (i.granules * granuleBytes)
      (s.modFtl fun f => { f with images := mset f.images id { i with charged := false } })
    else s

/-- Granule frees count towards write-heat samples (R308). -/
def countFrees (unit n : Nat) (s : State) : State :=
  s.modFtl fun f =>
    let t := f.freeTick + n
    let k := t / 64 - f.freeTick / 64
    { f with
      freeTick := t, heatSamples := f.heatSamples + k
      units := mmod f.units unit fun u => { u with heat := min 0xFF (u.heat + k) } }

/-- A unit with nothing allocated is unmapped, and its fine table is free, unless it is padded. -/
def emptied (u : FUnit) : FUnit := if u.alloc == 0 && !u.padded then { u with kind := 0, slot := none, table := none } else u

/-- An image is unmapped: its granules are free and its charge returns; staging it still holds is released. What is programmed
stays in its pages until they are erased. -/
def unmapImage (id : Nat) (s : State) : State :=
  match mget s.ftl.images id with
  | none => s
  | some i =>
    let s := when i.charged (uncharge i.part (imageTier i) (i.granules * granuleBytes)) s
    let s := if i.waiting then s.modHbm fun h =>
      { h with staging := mupd h.staging i.part 0 fun n => n - i.granules * granuleBytes } else s
    s.modFtl fun f =>
      { f with
        images := mdel f.images id, ghosts := if i.programmed then mset f.ghosts id i else f.ghosts
        units := (unitsOf i).foldl (fun m u => mmod m u fun x => emptied { x with alloc := x.alloc - granulesIn i u }) f.units }

/-- An image is unmapped, and its granules count as freed. -/
def dropImage (id : Nat) (s : State) : State :=
  match mget s.ftl.images id with
  | none => s
  | some i => forEach (unitsOf i) (fun u s => countFrees u (granulesIn i u) s) (unmapImage id s)

/-- The drain of an old home has ended (R148): its frames, its spill space and its image are free. -/
def drainEnded (id : Nat) (s : State) : State :=
  match s.hbm.drains.find? fun d => d.id == id with
  | none => s
  | some d =>
    let s := uncharge d.part 1 d.bytes (s.modHbm fun h => { h with drains := h.drains.filter fun x => x.id != id })
    let s := freeSpill d.part d.spill (forEach d.runs (giveFrames d.part) s)
    match d.image with
    | none => s
    | some i => dropImage i s

def dropImage? (id : Option Nat) (s : State) : State := match id with
  | none => s
  | some i => dropImage i s

/-! ### Durable records and the window (R43, R311) -/

/-- Bytes rounded up to 16 KiB. -/
def round16k (n : Nat) : Nat := ceilDiv n granuleBytes * granuleBytes

/-- Window occupancy (R311): the durable records accepted and not yet programmed. -/
def occupancy (s : State) : Nat :=
  sum (s.ftl.recs.map fun x => if x.2.durable && !x.2.programmed then round16k x.2.bytes else 0)

/-- Room left in the flush reserve. -/
def reserveRoom (s : State) : Nat := reserveBytes s.ftl - s.ftl.reserveUsed

/-- The window now: the lesser of its size and the room in the reserve (R311), 0 while the bank is not ready (R43). -/
def windowNow (s : State) : Nat := if s.pwr.ready then min s.pwr.window (reserveRoom s) else 0

/-- A durable record enters staging; it is acknowledged at once when the window holds it (R311). -/
def addRec (body : RecBody) (bytes tenant : Nat) (durable : Bool) (op : Option Nat) (s : State) : Nat × State :=
  let id := s.ftl.nextId
  let (sq, s) := takeSeq (max 1 (ceilDiv bytes granuleBytes)) s
  let fits := durable && s.pwr.ready && decide (occupancy s + round16k bytes ≤ windowNow s)
  let r : FRec := { body := body, bytes := bytes, tenant := tenant, seq := sq, durable := durable, acked := fits, turn := s.ftl.nextTurn, op := op }
  (id, s.modFtl fun f => { f with recs := mset f.recs id r, nextId := id + 1, nextTurn := f.nextTurn + b2n fits })

/-- The object a catalog record is of: a later record of it replaces an earlier one (R316). -/
def catKey : CatRec → Nat × Nat
  | .seq _ sid .. => (0, sid)
  | .attach sid .. => (1, sid)
  | .block bid .. => (2, bid)
  | .retire bid => (3, bid)
  | .weight _ oid .. => (4, oid)
  | .end_ oid => (5, oid)

def catBytes : CatRec → Nat
  | .block .. => 128
  | .weight .. => 128
  | _ => 64

/-- Write a catalog record (R316); ATTACH records of one sequence are kept all, every other record replaces the
earlier of its object. -/
def addCat (c : CatRec) (tenant : Nat) (durable : Bool) (s : State) : State :=
  let s := s.modFtl fun f =>
    { f with recs := f.recs.map fun x => match x.2.body with
      | .catalog d => if catKey d == catKey c && (catKey c).1 != 1 then (x.1, { x.2 with live := false }) else x
      | _ => x }
  (addRec (.catalog c) (catBytes c) tenant durable none s).2

end Sys2Proof.Machine
end

