-- ==== Sys2Proof/Machine/Parties.lean ====
section
/-! DEFINITION. Who asks: the authority of a management access (R366 to R369). -/

namespace Sys2Proof.Machine

open Sys2Proof

/-- The authority an access carries: the operator's, a management context's of a partition, the view of a tenant, or
none where its key is not live. -/
inductive Party where
  | operator
  | mgmt (part : Nat)
  | tenant (t : Nat)
  | nobody
  deriving DecidableEq, Repr

/-- The partition whose management context a context is (R339). -/
def mgmtPart (s : State) (ctx : Nat) : Option Nat :=
  (s.sch.parts.find? fun p => p.2.mgmtValid && p.2.mgmtCtx == ctx).map (·.1)

/-- The authority of a key (R368). -/
def partyOfKey (s : State) (key : Nat) : Party :=
  match mget s.sec.keys key with
  | none => .nobody
  | some k =>
    if k.dying || k.mgmt then .nobody
    else if k.tenant == 0 then .operator
    else match s.rng.rings.findSome? fun r => if r.2.key == key && r.2.enable then mgmtPart s r.2.context else none with
      | some p => .mgmt p
      | none => .tenant k.tenant

/-- The authority of a path (R368). -/
def partyOf (s : State) : Path → Party
  | .i3c => .operator
  | .dorlink key => partyOfKey s key

def Party.isOperator : Party → Bool
  | .operator => true
  | _ => false

/-- The operator, or the management context of partition `p`. -/
def Party.mayManage (x : Party) (p : Nat) : Bool :=
  match x with
  | .operator => true
  | .mgmt q => q == p
  | _ => false

/-! ### Reaching the window (R454) -/

/-- Whether the window is reachable by a path. -/
def reachable (s : State) (path : Path) : Bool :=
  match path with
  | .i3c => s.start.done.contains 2
  | .dorlink _ => s.pins.rdy

/-- Whether a block is served: over I3C, before RDY first asserts, only some. -/
def served (s : State) (path : Path) (block : Nat) : Bool :=
  match path with
  | .i3c => s.start.done.contains 13 || [0, 1, 11, 12, 13, 14, 15].contains block
  | .dorlink _ => true

/-- A register access by itself, at a window offset the path reaches. -/
def regAccess (path : Path) (off : Nat) (f : State → State) (s : State) : State :=
  if reachable s path && served s path (off / 0x10000) && off % 4 == 0 && decide (off < 2 ^ 24) then f s else s

/-- What the operator alone may do. -/
def asOperator (path : Path) (f : State → State) (s : State) : State := if (partyOf s path).isOperator then f s else s

end Sys2Proof.Machine
end

