-- ==== Sys2Proof/Machine/Rings.lean ====
section
/-! DEFINITION. Ring pairs (04 R116 to R123): setting them up, reading operands and buffers, starting entries,
writing completions, draining; and the ops NOP and an unknown op-code. -/

namespace Sys2Proof.Machine

open Sys2Proof

/-! ### Reads of requester buffers (R119, R462) -/

/-- Bytes of the next RD_UNC of a read: within one line (Table 4.6). -/
def readLen (r : ReqRead) : Nat :=
  min (64 - (r.addr + r.got.length) % 64) (r.len - r.got.length)

/-- Send the next RD_UNC of an outstanding read. -/
def sendRead (tag : Nat) (s : State) : State :=
  match mget s.io.reads tag with
  | none => s
  | some r =>
    let m : OutMsg := { typ := mtRdUnc, vc := 0, dst := r.node, key := r.key, tag := tag, addr := r.addr + r.got.length
                        status := readLen r }
    if r.resends == 0 then send m s else sendVia (resendPort s r.node 0 r.resends) m s

/-- The first tag from `n` on that no request outstanding uses. -/
def freeTag (s : State) : Nat → Nat → Nat
  | 0, n => n
  | fuel + 1, n =>
    let n := if 65535 < n then 1 else n
    if mhas s.io.reads n || mhas s.io.tiles n || mhas s.casc.reads n then freeTag s fuel (n + 1) else n

/-- Take a tag for a request the FV7 sends. -/
def takeTag (s : State) : Nat × State :=
  let n := freeTag s (s.io.reads.length + s.io.tiles.length + s.casc.reads.length + 1) s.io.nextTag
  (n, s.modIo fun x => { x with nextTag := n + 1 })

/-- The op number of a write that no op waits for. -/
def noOp : Nat := 2 ^ 64

/-- The count under its key of a TILE_WRITE's last flit, by which its leaving is known (R239). -/
def noteLast (tag key : Nat) (s : State) : State :=
  s.modIo fun x => { x with tiles := mmod x.tiles tag fun t =>
    { t with last := (mget s.sec.keys key).map fun k => (k.sent - 1) % 2 ^ 24 } }

/-- Send a TILE_WRITE, and remember it until it is acknowledged (R238). The tag, and the state. -/
def sendTile (t : TileMsg) (s : State) : Nat × State :=
  let (tag, s) := takeTag s
  let s := s.modIo fun x => { x with tiles := mset x.tiles tag t }
  (tag, noteLast tag t.key (send { typ := mtTileWrite, vc := 2, dst := t.dst, key := t.key, tag := tag, addr := t.addr, body := t.bytes } s))

/-- Write bytes to a node's memory in TILE_WRITE messages of at most 8,192 bytes (R238); their tags. -/
def writeTiles (op lay : Nat) (tile : Option Nat) (node addr key : Nat) (bytes : List Byte) (s : State) : List Nat × State :=
  (List.range (ceilDiv bytes.length 8192)).foldl (fun (acc : List Nat × State) i =>
    let r := sendTile { op := op, lay := lay, tile := tile, dst := node, addr := (addr + 8192 * i) % 2 ^ 48, key := key
                        bytes := (bytes.drop (8192 * i)).take 8192 } acc.2
    (acc.1 ++ [r.1], r.2)) ([], s)

/-- Deliver what a read was for. -/
def deliver (f : ReadFor) (bytes : List Byte) (s : State) : State :=
  match f with
  | .operands ring idx => modRing ring (fun r =>
      { r with entries := r.entries.map fun e => if e.idx == idx then { e with operands := some bytes } else e }) s
  | .op id buf => modOp id (fun o => { o with bufs := mset o.bufs buf bytes }) s

/-- Begin a read; one of no bytes is delivered at once. -/
def beginRead (f : ReadFor) (node addr len key : Nat) (s : State) : State :=
  if len == 0 then deliver f [] s
  else
    let (tag, s) := takeTag s
    sendRead tag (s.modIo fun x =>
      { x with reads := mset x.reads tag { for_ := f, node := node, addr := addr, len := len, key := key } })

/-- Reads of one op for the same thing: one append record of a STEP, or everything else. -/
def sameBuf (id b : Nat) : ReadFor → Bool
  | .op i c => i == id && (if b < 2 ^ 40 then c / 256 == b / 256 && decide (c < 2 ^ 40) else decide (2 ^ 40 ≤ c))
  | _ => false

/-- A buffer of an op could not be read: the op fails, or, where it is the source of an append record of a STEP, that record
alone (R462). Its other reads are given up. -/
def failBuf (id b : Nat) (s : State) : State :=
  modOp id (fun o => match o.body with
    | .step recs x y a z =>
      if b < 2 ^ 40 then { o with body := .step (lmod recs (b / 256) fun r => { r with readFailed := true }) x y a z }
      else { o with failed := true }
    | _ => { o with failed := true }) (s.modIo fun x => { x with reads := x.reads.filter fun r => !sameBuf id b r.2.for_ })

/-- A read has failed for good (R462): the entry's operands could not be read, or a buffer of an op. -/
def readFailed (tag : Nat) (s : State) : State :=
  match mget s.io.reads tag with
  | none => s
  | some r =>
    let s := s.modIo fun x => { x with reads := mdel x.reads tag }
    match r.for_ with
    | .operands ring idx => modRing ring (fun q =>
        { q with entries := q.entries.map fun e => if e.idx == idx then { e with readFailed := true } else e }) s
    | .op id b => failBuf id b s

/-- Bytes arrive for a read: the next piece is asked for, or what it was for is delivered. -/
def readArrived (tag : Nat) (bytes : List Byte) (s : State) : State :=
  match mget s.io.reads tag with
  | none => s
  | some r =>
    let r := { r with got := r.got ++ bytes.take (readLen r), resends := 0 }
    if r.len ≤ r.got.length then deliver r.for_ r.got (s.modIo fun x => { x with reads := mdel x.reads tag })
    else sendRead tag (s.modIo fun x => { x with reads := mset x.reads tag r })

/-- No read of an op is outstanding. -/
def readsDone (s : State) (id : Nat) : Bool :=
  !(s.io.reads.any fun r => match r.2.for_ with
    | .op i _ => i == id
    | _ => false)

/-- Reads of an op that ends are forgotten: their answers find no read. -/
def dropReads (id : Nat) (s : State) : State :=
  s.modIo fun x => { x with reads := x.reads.filter fun r => match r.2.for_ with
    | .op i _ => i != id
    | _ => true }

/-! ### Starting an entry (R119, R341, R442, R443) -/

/-- The operands length an entry must have: exact, at least so much with the rest given by the buffer, or not
checked, where the op's own check on its sequence comes first. -/
inductive LenNeed where
  | exact (n : Nat)
  | least (n : Nat)
  | free
  deriving DecidableEq

/-- Operands length by op (Table 15.1). -/
def lenNeed (s : State) (raw : List Byte) : LenNeed :=
  match eOpcode raw with
  | 0x20 | 0x21 | 0x22 => .least 128
  | 0x70 => .least 64
  | 0x31 =>
    match (mget s.seqs.tab (field (eInline raw) 0 3)).bind fun q => mget s.seqs.md q.model with
    | some d => .exact (64 + 4 * 2 ^ field d 4 1)
    | none => .free
  | _ => .exact ((lenRule raw).getD 0)

/-- Subcode of a length mismatch (R443). -/
def lenSub (op : Nat) : Nat :=
  if op == opAttnDecode || op == opAttnChunk || op == opAttnBwd then 0x33
  else if op == opKvFetch || op == opKvPrefetch then 0x34
  else if op == opStep then 0x50
  else 0x04

/-- Whether an entry reads an operands buffer, and the checks before it does. -/
inductive Pre where
  | fail (a : Ans)
  | read
  | go

/-- The checks of an entry that come before its own (R119, R341, R399, R443): context enabled, a cluster left for it, context
of the ring, op-code, operands length (log 13). -/
def preCheck (s : State) (ring : Nat) (e : Entry) : Pre :=
  let r := ringOf s ring
  let n := eLen e.raw
  let op := eOpcode e.raw
  if !(ctxOf s r.context).enable then .fail (internal 0x51)
  else if (clustersFor s r.context).isEmpty then .fail { status := stPartReset }
  else if eContext e.raw != r.context then .fail (internal 0x01)
  else if !opKnown op then .fail (internal 0x02)
  else
    let bad := match lenNeed s e.raw with
      | .exact k => n != k
      | .least k => decide (n < k)
      | .free => false
    if bad then .fail (internal (lenSub op))
    else if n == 0 || lenNeed s e.raw == .free then .go
    else .read

/-- Ask for an entry's operands, once. -/
def requestOperands (ring idx : Nat) (s : State) : State :=
  match (ringOf s ring).entries.find? fun e => e.idx == idx with
  | none => s
  | some e =>
    let asked := s.io.reads.any fun r => match r.2.for_ with
      | .operands q i => q == ring && i == idx
      | _ => false
    match preCheck s ring e with
    | .read =>
      if asked || e.operands.isSome || e.readFailed then s
      else beginRead (.operands ring idx) (eNode e.raw) (eAddr e.raw) (eLen e.raw) (ringOf s ring).key s
    | _ => s

/-- Sequences an entry names (R79): inline, or in its operands. -/
def namedSeqs (raw ops : List Byte) : List Nat :=
  let il := eInline raw
  let ents := fun (b : List Byte) => (List.range (field b 4 2)).map fun i => field b (128 + 16 * i) 3
  match eOpcode raw with
  | 0x02 | 0x03 | 0x10 | 0x31 => [field il 0 3]
  | 0x30 => if bit (field il 3 1) 0 then [field il 0 3] else []
  | 0x11 | 0x12 => [field ops 0 3]
  | 0x20 | 0x21 | 0x22 => ents ops
  | 0x40 | 0x41 | 0x48 | 0x49 => if field il 0 1 == 0 then [field il 4 3] else []
  | 0x70 =>
    let n := field ops 2 2
    ((List.range n).map fun i => field ops (64 + 32 * i) 3) ++ (if bit (field ops 0 1) 0 then ents (ops.drop (64 + 32 * n)) else [])
  | _ => []

/-- Weight objects an entry names. -/
def namedObjs (raw : List Byte) : List Nat :=
  let il := eInline raw
  match eOpcode raw with
  | 0x40 | 0x41 | 0x48 | 0x49 => if field il 0 1 == 2 then [field il 4 4 % 2 ^ 20] else []
  | 0x60 => if bit (field il 4 1) 0 then [] else [field il 0 4 % 2 ^ 20]
  | 0x61 => [field il 0 4 % 2 ^ 20]
  | _ => []

/-- Objects an entry names: sequences, and weight objects (true). -/
def namedBy (e : Entry) : List (Bool × Nat) :=
  (namedSeqs e.raw (e.operands.getD [])).map (fun h => (false, h)) ++ (namedObjs e.raw).map fun o => (true, o)

/-- Whether an object is known, and the regions it waits for. -/
def knownObj (s : State) (x : Bool × Nat) : Bool := if x.1 then mhas s.wt.objs x.2 else mhas s.seqs.tab x.2
def regionsOf (s : State) (x : Bool × Nat) : List Nat :=
  let l := if x.1 then (mget s.wt.objs x.2).map (·.rebuild) else (mget s.seqs.tab x.2).map (·.rebuild)
  (l.getD []).filter fun r => !regionReady s r

/-- What an entry waits for (R79, R335): objects not known before the block pass has ended, when no object of an earlier start is, and
regions not yet rebuilt. -/
def waitsFor (s : State) (e : Entry) : List (Bool × Nat) :=
  (namedBy e).filter fun x => (!s.start.wearReady && !knownObj s x) || !(regionsOf s x).isEmpty

/-- The scans an entry waits for are asked for: from the end of the block pass on by region, before it by object (R79). -/
def askFor (l : List (Bool × Nat)) (s : State) : State :=
  if s.start.wearReady then wantRegions (l.flatMap (regionsOf s)) s
  else s.modFtl fun f => { f with asked := f.asked ++ (nodup l).filter fun x => !f.asked.contains x }

/-- An entry whose operands are there starts, or waits for the objects it names. -/
def startNow (ring : Nat) (e : Entry) (f : Entry → State → State) (s : State) : State :=
  let l := waitsFor s e
  if l.isEmpty then f e (markStarted ring e.idx s) else askFor l s

/-- Start the next entry of a ring when it is an op of this op-code: the checks that come first, then `f` with the
entry marked as started. An entry that cannot start yet is left as it is, its operands asked for. -/
def startOp (op ring : Nat) (f : Entry → State → State) (s : State) : State :=
  match startable s ring with
  | none => s
  | some e =>
    if eOpcode e.raw != op then s
    else match preCheck s ring e with
      | .fail a => endEntry ring e.idx a 0 (markStarted ring e.idx s)
      | .go => startNow ring e f s
      | .read =>
        if e.readFailed then endEntry ring e.idx (internal 0x03) 0 (markStarted ring e.idx s)
        else if e.operands.isSome then startNow ring e f s
        else requestOperands ring e.idx s

/-- An op that ends as it starts: with its queue wait counted (R363). -/
def endNow (ring : Nat) (e : Entry) (a : Ans) (s : State) : State := endEntry ring e.idx a 0 s

/-- An op in progress for an entry. -/
def opOf (s : State) (ring : Nat) (e : Entry) (body : OpBody) : Op :=
  { ring := ring, idx := e.idx, ctx := (ringOf s ring).context, tag := eTag e.raw, opcode := eOpcode e.raw, raw := e.raw
    arrival := e.arrival, deadline := eDeadline e.raw, startTime := stamp s, body := body }

/-- Begin an op in progress: its number, and the state. -/
def beginOp (ring : Nat) (e : Entry) (body : OpBody) (s : State) : Nat × State :=
  (s.ops.next, newOp (opOf s ring e body) s)

/-- Charge a context n CCLK of a core (R342). -/
def chargeCore (c n : Nat) (s : State) : State :=
  modCtx c (fun x => { x with v := x.v + BitVec.ofNat 64 (n * 65536 / x.weight), cyc := x.cyc + n }) s

/-! ### Completions (R120, R121) -/

/-- The 32 bytes of a completion at an index. -/
def cplBytes (r : Ring) (idx : Nat) (c : Cpl) : List Byte :=
  leBytes 4 c.tag ++ leBytes 1 c.status ++ leBytes 1 c.rung ++ leBytes 2 (b2n (idx / 2 ^ r.cqLog2 % 2 == 0)) ++
    leBytes 4 c.loss ++ leBytes 4 c.a ++ leBytes 4 c.b ++ leBytes 4 c.c ++ leBytes 6 c.time ++ leBytes 2 c.epoch

/-- Entries the completion ring can still take. -/
def cqRoom (r : Ring) : Nat := 2 ^ r.cqLog2 - (r.cqTail - r.cqHead).toNat

/-- Completions of the next CPL message: at most 6, within the room, and not past the end of the ring. -/
def cplCount (r : Ring) : Nat :=
  min (min 6 r.ready.length) (min (cqRoom r) (2 ^ r.cqLog2 - r.cqTail.toNat % 2 ^ r.cqLog2))

/-- Completions of the outgoing tenant are held while its partition scrubs (R389). -/
def heldBack (s : State) (c : Ctx) : Bool :=
  let p := partOf s c.part
  p.scrubbing && p.reset == .none && p.outgoing == some c.tenant

/-- A CPL may go to a ring now: nothing is issued under a dying key (R391), and no completion is held back. -/
def mayWrite (s : State) (r : Ring) : Bool := keyLive s r.key && !heldBack s (ctxOf s r.context)

/-- Write the next CPL message of a ring; nothing is issued under a dying key (R391). -/
def writeCpl (ring : Nat) (s : State) : State :=
  let r := ringOf s ring
  let n := cplCount r
  if n == 0 || !mayWrite s r then s
  else
    let t := r.cqTail.toNat
    let body := (List.range n).flatMap fun i =>
      cplBytes r ((t + i) % 65536) (nth r.ready i { tag := 0, status := 0 })
    let s := modRing ring (fun r =>
      { r with ready := r.ready.drop n, cqTail := r.cqTail + BitVec.ofNat 16 n, completed := r.completed + n }) s
    let (tag, s) := takeTag s
    send { typ := mtCpl, vc := 1, dst := r.cplNode, key := r.key, tag := tag, addr := r.cqBase + 32 * (t % 2 ^ r.cqLog2)
           body := body } s

/-- COMPLETION_WRITE (R120). -/
def execCompletionWrite (ring : Nat) (s : State) : Out := .next (writeCpl ring s)

/-- RING_DRAIN_DONE (R122): every accepted entry has ended and its completion is written; enable and drain clear, and
the ring's storage returns to the quota. -/
def execRingDrainDone (ring : Nat) (s : State) : Out :=
  let r := ringOf s ring
  .next (if r.enable && r.drain && r.entries.isEmpty && r.ready.isEmpty then
      uncharge (ctxOf s r.context).part 1 r.charged
        (modRing ring (fun r => { r with enable := false, drain := false, charged := 0 }) s)
    else s)

/-- UNKNOWN_OP (R119, R442): the next entry's op-code is none of Table 15.1. -/
def execUnknownOp (ring : Nat) (s : State) : Out :=
  .next (match startable s ring with
    | none => s
    | some e =>
      if opKnown (eOpcode e.raw) then s
      else match preCheck s ring e with
        | .fail a => endNow ring e a (markStarted ring e.idx s)
        | _ => s)

/-- NOP (R444). -/
def execNop (ring : Nat) (s : State) : Out :=
  .next (startOp opNop ring (fun e s => endNow ring e { status := stOk } s) s)

/-! ### Ring context entries (R116, R122, R123, R369) -/

/-- A ring context entry as bytes (Table 4.9). -/
def ringBytes (r : Ring) : List Byte :=
  leBytes 2 r.context ++ leBytes 1 r.sqLog2 ++ leBytes 1 r.cqLog2 ++ leBytes 4 r.key ++ leBytes 2 r.reqNode ++
    leBytes 2 r.cplNode ++ leBytes 4 (b2n r.enable + 2 * b2n r.drain) ++ leBytes 8 r.cqBase ++ leBytes 2 r.sqTail.toNat ++
    leBytes 2 (sqHead r).toNat ++ leBytes 2 r.cqTail.toNat ++ leBytes 2 r.cqHead.toNat ++ leBytes 8 r.submitted ++
    leBytes 8 r.completed ++ leBytes 16 0

/-- Whether a party may set up a ring pair bound to a context (R116, R369). -/
def mayRing (s : State) (x : Party) (ctx : Nat) : Bool := x.mayManage (ctxOf s ctx).part && mhas s.sch.ctxs ctx

/-- The field checks of a written entry (R116, R369). -/
def ringOk (s : State) (b : List Byte) : Bool :=
  let ctx := field b 0 2 % 1024
  let sq := field b 2 1
  let cq := field b 3 1
  decide (6 ≤ sq) && decide (sq ≤ 12) && decide (sq ≤ cq) && decide (cq ≤ 12) && decide (field b 0x10 8 % 32 = 0) &&
    (match mget s.sec.keys (field b 4 4) with
     | none => false
     | some k => !k.dying && !k.mgmt && k.tenant == (ctxOf s ctx).tenant && k.node == field b 8 2)

/-- Entries not started end with REVOKED when enable is cleared without drain (R122). -/
def revokeWaiting (ring : Nat) (s : State) : State :=
  forEach ((ringOf s ring).entries.filter fun e => e.st == .waiting) (fun e s => endEntry ring e.idx { status := stRevoked } 0 s) s

/-- Whether a staged entry has a ring pair drain: it clears enable with drain set, or while the ring pair drains already (R122). -/
def drains (b : List Byte) (old : Ring) : Bool :=
  let fl := field b 0x0C 4
  old.enable && !bit fl 0 && (bit fl 1 || old.drain)

/-- A ring pair set up from a staged entry that charges `bytes`. Enabling starts its counts afresh (Table 4.9); its indices and what
it has accepted stand. -/
def setUp (b : List Byte) (bytes : Nat) (old : Ring) : Ring :=
  let en := bit (field b 0x0C 4) 0
  let starts := en && !old.enable
  { old with
    context := field b 0 2 % 1024, sqLog2 := field b 2 1, cqLog2 := field b 3 1, key := field b 4 4, reqNode := field b 8 2
    cplNode := field b 10 2, enable := en, drain := bit (field b 0x0C 4) 1 && en, cqBase := field b 0x10 8
    charged := if en then bytes else 0, submitted := if starts then 0 else old.submitted
    completed := if starts then 0 else old.completed }

/-- Write the staged entry into the selected ring pair. One that clears enable while drain lets the accepted entries complete leaves
the ring pair as it is, draining: enable and drain clear together once the completions are written (R122). -/
def ringWrite (x : Party) (s : State) : State :=
  let b := s.rng.entry
  let n := s.rng.sel
  let old := ringOf s n
  let ctx := field b 0 2 % 1024
  let en := bit (field b 0x0C 4) 0
  let refuse := fun (s : State) => s.modRng fun r => { r with err := true }
  if !mayRing s x ctx || (old.enable && !mayRing s x old.context) || !ringOk s b then refuse s
  else
    let part := (ctxOf s ctx).part
    let bytes := 64 * 2 ^ field b 2 1
    let s0 := uncharge (ctxOf s old.context).part 1 old.charged s
    if drains b old then modRing n (fun r => { r with drain := true }) s
    else if en && !covers s0 part 1 bytes then refuse s
    else
      let s := if old.enable && !en then revokeWaiting n s else s
      let s := charge part 1 (if en then bytes else 0) (uncharge (ctxOf s old.context).part 1 old.charged s)
      s.modRng fun x => { x with rings := mupd x.rings n {} (setUp b bytes) }

/-- RNG_CMD 1 (R116). -/
def ringWriteCmd (path : Path) (s : State) : State :=
  if s.rng.busy then s else match partyOf s path with
    | .tenant _ | .nobody => s
    | x => ringWrite x s

/-- RNG_WRITE_ENTRY. -/
def execRngWriteEntry (path : Path) (s : State) : Out := .next (regAccess path 0x30004 (ringWriteCmd path) s)

/-- RNG_CMD 2 (R123): the entry into RNG_ENTRY. -/
def ringReadCmd (path : Path) (s : State) : State :=
  let r := ringOf s s.rng.sel
  if s.rng.busy then s else match partyOf s path with
    | .tenant _ | .nobody => s
    | x => if x.mayManage (ctxOf s r.context).part then s.modRng fun y => { y with entry := ringBytes r } else s

/-- RNG_READ_ENTRY. -/
def execRngReadEntry (path : Path) (s : State) : Out := .next (regAccess path 0x30004 (ringReadCmd path) s)

/-- RNG_CMD 3 (R122): the operator's. -/
def ringDrainCmd (path : Path) (s : State) : State :=
  if s.rng.busy || !(partyOf s path).isOperator then s
  else modRing s.rng.sel (fun r => { r with drain := r.drain || r.enable }) s

/-- RNG_SET_DRAIN. -/
def execRngSetDrain (path : Path) (s : State) : Out := .next (regAccess path 0x30004 (ringDrainCmd path) s)

end Sys2Proof.Machine
end

