-- ==== Sys2Proof/Machine/Pages.lean ====
section
/-! DEFINITION. Pages: naming and switching a leaf, hints and heat, freeing, dropping, the ladder, sealing and encoding
(05 R141 to R167, 08 R251 to R260, 09 R273 to R283, 10 R312). -/

namespace Sys2Proof.Machine

open Sys2Proof

/-! ### Naming a page -/

/-- A sequence, and its update. -/
def seqOf (s : State) (h : Nat) : Option Seq := mget s.seqs.tab h
def modSeq (h : Nat) (f : Seq → Seq) (s : State) : State := s.modSeqs fun x => { x with tab := mmod x.tab h f }

/-- A shared record, and its update. -/
def recOf (s : State) (r : Nat) : Option SharedRec := mget s.seqs.recs r
def modRec (r : Nat) (f : SharedRec → SharedRec) (s : State) : State := s.modSeqs fun x => { x with recs := mmod x.recs r f }

/-- Whether an entry covers a position of a layer (R135). -/
def PEnt.covers (e : PEnt) (layer pos : Nat) : Bool :=
  e.layer == layer && decide (e.first ≤ pos) && decide (pos < e.first + tokens e.size)

/-- The entry a walk finds, none for NONE (R143). -/
def entAt (q : Seq) (layer pos : Nat) : Option PEnt := q.pages.find? fun e => e.covers layer pos

/-- The page an entry of sequence `h` names. -/
def PEnt.at_ (h : Nat) (e : PEnt) : PageAt :=
  match e.ref with
  | .own _ => .seq h e.layer e.first
  | .shared r => .rec_ r

/-- Whether two entries are the same entry of a table. -/
def PEnt.is (e : PEnt) (layer first : Nat) : Bool := e.layer == layer && e.first == first

/-- The page at a place. -/
def getPage (s : State) : PageAt → Option Page
  | .seq h l f => (seqOf s h).bind fun q => (q.pages.find? fun e => e.is l f).bind fun e => match e.ref with
    | .own p => some p
    | .shared _ => none
  | .rec_ r => (recOf s r).map (·.page)
  | .tile o i => (mget s.wt.objs o).bind fun w => w.tiles[i]?

/-- The page an entry of sequence `h` leads to. -/
def pageOf (s : State) (h : Nat) (e : PEnt) : Page := (getPage s (e.at_ h)).getD {}

/-- Update the page at a place, its leaf's generation unchanged. -/
def modPage (a : PageAt) (f : Page → Page) (s : State) : State :=
  match a with
  | .seq h l fr => modSeq h (fun q =>
      { q with pages := q.pages.map fun e => if e.is l fr then
          match e.ref with
          | .own p => { e with ref := .own (f p) }
          | .shared _ => e
        else e }) s
  | .rec_ r => modRec r (fun x => { x with page := f x.page }) s
  | .tile o i => s.modWt fun w => { w with objs := mmod w.objs o fun x => { x with tiles := lmod x.tiles i f } }

/-- An invalidation reaches all page walk units (R146): for a table switch it names the page, for a record switch the shared record. -/
def invalidate (a : PageAt) (s : State) : State :=
  s.modSeqs fun x =>
    { x with plb := x.plb.map fun l => (l.1, l.2.filter fun e => match a with
      | .seq h la f => !(e.handle == h && e.layer == la && e.first == f)
      | .rec_ r => e.rec_ != some r
      | .tile _ _ => true) }

/-- Switch a leaf (R141): the change, the generation up by one modulo 128, the invalidation. -/
def switchPage (a : PageAt) (f : Page → Page) (s : State) : State :=
  invalidate a (modPage a (fun p => { f p with gen := p.gen + 1 }) s)

/-- Every page of every sequence and shared record, with its place. -/
def allPages (s : State) : List (PageAt × Page) :=
  (s.seqs.tab.flatMap fun q => q.2.pages.filterMap fun e => match e.ref with
    | .own p => some (PageAt.seq q.1 e.layer e.first, p)
    | .shared _ => none) ++ s.seqs.recs.map fun r => (PageAt.rec_ r.1, r.2.page)

/-- Every weight tile, with its place. -/
def allTiles (s : State) : List (PageAt × Page) :=
  s.wt.objs.flatMap fun o => (List.range o.2.tiles.length).map fun i => (PageAt.tile o.1 i, nth o.2.tiles i {})

/-- Tokens and bytes of a page. -/
def Page.model (p : Page) : Model := modelOf p.desc
def Page.tokens (p : Page) : Nat := Machine.tokens p.size
def Page.full (p : Page) : Bool := p.rows == p.tokens

/-- The tier field (Table 5.6). -/
def Tier.code : Tier → Nat
  | .hamper => 0
  | .hbm => 1
  | .slc => 2
  | .bulk => 3
  | .peer => 4
  | .dropped => 5

/-- A page's leaf as its 8-byte entry holds it (Table 5.5). -/
def leafWord (p : Page) : BitVec 64 :=
  BitVec.ofNat 64 (pack [(0, 1), (1, p.size % 16), (5, p.tier.code), (8, p.codec % 8), (11, b2n p.durable), (12, b2n p.moving),
    (13, p.home % 2 ^ 44), (57, p.gen.toNat)])

/-- A table entry as its 8 bytes hold it: the leaf of its own page, or tier SHARED over the record index (R140, R142). -/
def entryWord (s : State) (e : PEnt) : BitVec 64 :=
  match e.ref with
  | .own p => leafWord p
  | .shared r => BitVec.ofNat 64 (pack [(0, 1), (1, e.size % 16), (5, 6), (11, b2n (((recOf s r).map (·.page.durable)).getD false)),
      (13, r), (57, e.gen.toNat)])

/-- The generation of an entry. -/
def PEnt.genOf (e : PEnt) : BitVec 7 :=
  match e.ref with
  | .own p => p.gen
  | .shared _ => e.gen

/-- The runs of HBM frames a page holds. -/
def Page.runs (p : Page) : List Run := p.run.toList ++ p.metaRun.toList

/-- The rows a page holds, expanded where it is encoded (R266). -/
def Page.rowData (p : Page) : List (List Byte) := rowsOf p.model p.codec p.rows p.content

/-! ### Hints and heat (R273, R274, R278) -/

/-- Hint class and eviction priority of a page. -/
def hintOf (s : State) : PageAt → Nat × Nat
  | .seq h _ _ => ((seqOf s h).map fun q => (q.hint, q.prio)).getD (0, 0)
  | .rec_ r => ((recOf s r).map fun x => (x.hint, x.prio)).getD (0, 0)
  | .tile o _ => ((mget s.wt.objs o).map fun x => (x.hint, x.prio)).getD (0, 0)

/-- The counter of a place never counted: every page starts at 0x80 and every halving halves it (R278, R279). -/
def heatBase (s : State) : Nat := 128 / 2 ^ min 8 s.tier.halvings

/-- Heat of an HBM frame's byte, and of a home in the flash heat cache. -/
def frameHeat (s : State) (f : Nat) : Nat := mgetD s.tier.heat f (heatBase s)
def heatSlot (home : Nat) : Nat := Config.heatHash home % 2 ^ 22
def flashHeat (s : State) (home : Nat) : Nat :=
  match mget s.tier.flashHeat (heatSlot home) with
  | some (h, n) => if h == home then n else heatBase s
  | none => heatBase s

/-- Heat of a page; peer, spill and dropped pages have none (R278). -/
def heatOf (s : State) (p : Page) : Nat :=
  match p.tier with
  | .hbm => match p.run with
    | some r => frameHeat s r.start
    | none => 0
  | .slc | .bulk => flashHeat s p.home
  | _ => 0

/-- Write the counter at a page's place. -/
def setHeat (p : Page) (n : Nat) (s : State) : State :=
  match p.tier with
  | .hbm => match p.run with
    | some r => s.modTier fun t => { t with heat := mset t.heat r.start n }
    | none => s
  | .slc | .bulk => s.modTier fun t => { t with flashHeat := mset t.flashHeat (heatSlot p.home) (p.home, n) }
  | _ => s

/-! ### Images of a page (R253, R306, R314) -/

/-- The region of the key of an object range. -/
def pageRegion (a : PageAt) (p : Page) : Nat :=
  match a with
  | .tile o i => regionOf (keyTile o i)
  | _ => match p.bid with
    | some b => regionOf (keyBlock b)
    | none => regionOf (keySeq p.seq p.first)

/-- The identity of an image (Table 10.7). -/
def pageIdent (s : State) (a : PageAt) (p : Page) : Ident :=
  match a with
  | .tile o i => .tile o (((mget s.wt.objs o).map (·.oid)).getD 0) i
  | _ => match p.bid with
    | some b => .block p.layer b
    | none => .page p.seq p.layer p.sid p.first p.size p.codec

/-- Granules of a page's image; a weight tile takes four. -/
def granulesOf (a : PageAt) (p : Page) : Nat :=
  match a with
  | .tile _ _ => 4
  | _ => imageGranules p.model p

/-- A copy of the page begins its way to flash. -/
def startImage (a : PageAt) (p : Page) (backing : Bool) (move : Option Nat) (s : State) : Option (Nat × State) :=
  newImage (pageIdent s a p) p.tenant p.part (pageRegion a p) (granulesOf a p) p p.durable backing move s

/-- Whether an image has been programmed. -/
def programmed (s : State) (id : Option Nat) : Bool :=
  match id.bind (mget s.ftl.images) with
  | some i => i.programmed
  | none => false

/-- Every granule of an image is programmed into the one-bit buffer (R310): its staging is free. None when the
buffer has no room. -/
def programImage (id : Nat) (s : State) : Option State :=
  match mget s.ftl.images id with
  | none => some s
  | some i =>
    if i.programmed then some s
    else (programBuffer id i s).map fun (st, s) =>
      (s.modFtl fun f => { f with images := mmod f.images id fun x =>
        { x with programmed := true, waiting := false, places := st } }).modHbm fun h =>
        { h with staging := mupd h.staging i.part 0 fun n => n - i.granules * granuleBytes }

/-! ### Journal records that stay live (R312) -/

/-- A journal record is live while a durable page outside flash holds rows of it and has no programmed backing
image, and while the rebuild has not attached its sequence. -/
def journalNeeded (s : State) (sid layer layers first count : Nat) : Bool :=
  (s.seqs.tab.any fun q => q.2.sid == sid && !q.2.rebuild.isEmpty) || (allPages s).any fun x =>
    let p := x.2
    p.sid == sid && p.durable && (p.tier == .hbm || p.tier == .hamper) && decide (layer ≤ p.layer) &&
      decide (p.layer < layer + layers) && decide (p.first < first + count) && decide (first < p.first + p.rows) &&
      !(programmed s p.backing || programmed s p.oldBacking)

/-- Journal records no page needs become stale. -/
def sweepJournals (s : State) : State :=
  s.modFtl fun f => { f with recs := f.recs.map fun x => match x.2.body with
    | .journal _ sid layer layers first count _ =>
      (x.1, { x.2 with live := x.2.live && journalNeeded s sid layer layers first count })
    | .catalog _ => x }

/-! ### The encode queue (R154, R252, R260, Table 8.8) -/

/-- A sealed page its model's codec will still encode (R248). -/
def wantsEncode (p : Page) : Bool :=
  p.sealed && p.full && decide (256 ≤ p.tokens) && p.model.codec != 0 && p.codec == 0 && !p.rawForLife && p.tier == .hbm

/-- A page leaves the encode queue: an encode of it is abandoned and its run freed. -/
def dequeue (a : PageAt) (s : State) : State :=
  let here := s.cdc.encQ.filter fun e => e.at_ == a
  let s := forEach here (fun e s => freeRun? e.part e.run s) s
  s.modCdc fun c => { c with encQ := c.encQ.filter fun e => e.at_ != a }

/-- A page takes its place, by order of seal. -/
def enqueue (e : EncItem) (s : State) : State :=
  s.modCdc fun c => { c with encQ := insertBy (fun x y => decide (x.order < y.order)) e (c.encQ.filter fun x => x.at_ != e.at_) }

/-- A page joins the queue: for its encode, or for a metadata run alone. -/
def requeue (a : PageAt) (s : State) : State :=
  match getPage s a with
  | none => s
  | some p =>
    if wantsEncode p then enqueue { at_ := a, part := p.part, order := p.sealSeq } s
    else if p.tier == .hbm && p.sealed && !p.hasMeta && p.codec == 0 then
      enqueue { at_ := a, part := p.part, order := p.sealSeq, metaOnly := true } s
    else s

/-- An encode starts: a run for the largest image by ladder step 1 only (R260 step 1), the next cluster's unit. -/
def startEncode (a : PageAt) (p : Page) (s : State) : Option State :=
  (takeRun p.part (maxFrames p.model p.model.codec p.tokens) s).map fun x =>
    (enqueue { at_ := a, part := p.part, order := p.sealSeq, run := some x.1 } x.2).modCdc fun c =>
      { c with rotation := mupd c.rotation p.part 0 fun n => n + 1 }

/-- A metadata run by ladder step 1 only (R251, R252). -/
def takeMeta (a : PageAt) (p : Page) (s : State) : Option State :=
  (takeRun p.part (metaFrames p.model) s).map fun x =>
    modPage a (fun p => { p with metaRun := some x.1, hasMeta := true, sketch := sketchOf p.model p.rowData }) x.2

/-- Whether a page is being encoded. -/
def encoding (s : State) (a : PageAt) : Bool := s.cdc.encQ.any fun e => e.at_ == a && e.run.isSome

/-! ### Backing images (R282, R312) -/

/-- A durable sealed page in HBM that has no backing image of its present content, and is not being encoded. -/
def wantsBacking (s : State) (a : PageAt) (p : Page) : Bool :=
  p.durable && p.sealed && p.tier == .hbm && p.backing.isNone && !encoding s a

/-- Begin the backing image of a page when the write path takes it; otherwise it waits (R312). -/
def startBacking (a : PageAt) (s : State) : State :=
  match getPage s a with
  | none => s
  | some p =>
    if wantsBacking s a p && accepts s p.part (granulesOf a p) (pageRegion a p) then
      match startImage a p true none s with
      | none => s
      | some (id, s) => modPage a (fun p => { p with backing := some id }) s
    else s

/-- Backing images that waited are begun, oldest seal first. -/
def serveBackings (s : State) : State :=
  let w := sortBy (fun x y => decide (x.2.sealSeq < y.2.sealSeq)) ((allPages s).filter fun x => wantsBacking s x.1 x.2)
  forEach w (fun x s => startBacking x.1 s) s

/-! ### Moves in flight (R281, R283) -/

/-- A move is abandoned: its destination freed and moving cleared; the source stays the home. -/
def abandonMove (id : Nat) (s : State) : State :=
  match mget s.tier.moves id with
  | none => s
  | some m =>
    let s := forEach (m.run.toList ++ m.metaRun.toList) (giveFrames m.part) (dropImage? m.image s)
    let s := s.modTier fun t => { t with moves := mdel t.moves id, moveAbort := sat32 (t.moveAbort + 1) }
    requeue m.at_ (modPage m.at_ (fun p => { p with moving := false }) s)

/-- A PIN_HBM hint reaching a page being demoted abandons the move (R283). -/
def pinStops (a : PageAt) (s : State) : State :=
  if (hintOf s a).1 == 1 then
    forEach ((s.tier.moves.filter fun m => m.2.at_ == a && !m.2.toHbm).map (·.1)) abandonMove s
  else s

/-- Moves of a page are abandoned. -/
def abandonMovesOf (a : PageAt) (s : State) : State :=
  forEach ((s.tier.moves.filter fun x => x.2.at_ == a).map (·.1)) abandonMove s

/-! ### Messages to other members about peer pages (R427, R435) -/

/-- The key under which a node's peer messages go. -/
def peerKey (s : State) (node : Node) : Option Nat :=
  (s.sec.keys.find? fun k => k.2.pair && k.2.node == node && !k.2.dying).map (·.1)

/-- Send RELEASE entries (handle, layer) to an exporter (Table 14.4), at most 1,024. -/
def sendRelease (node : Node) (es : List (Nat × Nat)) (s : State) : State :=
  match peerKey s node with
  | none => s
  | some k =>
    let (tag, s) := takeTag s
    let body := leBytes 1 1 ++ leBytes 1 0 ++ leBytes 2 s.casc.view ++ leBytes 2 es.length ++ leBytes 2 0 ++
      es.flatMap fun e => leBytes 8 (pack [(0, e.1 % 2 ^ 28), (36, e.2 % 256)])
    send { typ := mtPageWr, vc := 0, dst := node, key := k, tag := tag, body := body } s

/-- The import record that names a record at a layer not yet released, and that layer. -/
def importOf (s : State) (r : Nat) : Option (Nat × Import × Nat) :=
  s.casc.imports.findSome? fun x =>
    ((List.range x.2.recs.length).find? fun l => nth x.2.recs l 0 == r && !x.2.released.contains l).map fun l => (x.1, x.2, l)

/-- A layer of an import record is released; the record goes with its last layer. -/
def markReleased (r : Nat) (s : State) : State :=
  match importOf s r with
  | none => s
  | some (i, im, layer) => s.modCasc fun c =>
    { c with
      imports := if im.released.length + 1 == im.recs.length then mdel c.imports i
        else mset c.imports i { im with released := im.released ++ [layer] }
      images := c.images.filter fun x => x.rec_ != r, reads := c.reads.filter fun x => x.2.rec_ != r }

/-- A peer page's record is freed or its page moved home: its layer is released, and the import record is freed with
its last layer (R435). -/
def releaseLayer (r : Nat) (s : State) : State :=
  match importOf s r with
  | none => s
  | some (_, im, layer) => markReleased r (sendRelease im.node [(im.handle, layer)] s)

/-! ### Freeing and dropping -/

/-- A page's frames and spill space are freed: at once, or after the drain where the page leaves an old home by a switch (R148). -/
def freeHome (p : Page) (drain : Bool) (s : State) : State :=
  if drain then drainHome p.part p.runs true p.spill none s
  else freeSpill p.part p.spill (forEach p.runs (freeRun p.part) s)

/-- A page's stores are freed, with its place in the encode queue, its images and its moves. -/
def freeStores (a : PageAt) (p : Page) (drain : Bool) (s : State) : State :=
  let s := freeHome p drain (dequeue a (abandonMovesOf a s))
  let s := match a with
    | .rec_ r => if p.tier == .peer then releaseLayer r s else s
    | _ => s
  dropImage? p.oldBacking (dropImage? p.backing s)

/-- Drop one reference of a shared record; at zero its page and the record are freed (R142), the page's frames after the drain where a
switch has let go of it (R148). -/
def dropRef (r : Nat) (drain : Bool) (s : State) : State :=
  match recOf s r with
  | none => s
  | some x =>
    if x.count ≤ 1 then
      let s := freeStores (.rec_ r) x.page drain s
      invalidate (.rec_ r) (s.modSeqs fun q => { q with recs := mdel q.recs r })
    else modRec r (fun x => { x with count := x.count - 1 }) s

/-- A block is retired (R199, R200): its entry's valid bit clears, its references are dropped, its layer list and
index are freed. Pages released, and the state. -/
def retireBlock (b : Nat) (s : State) : Nat × State :=
  match mget s.pfx.blocks b with
  | none => (0, s)
  | some x =>
    let freed := count (fun r => match recOf s r with
      | some y => decide (y.count ≤ 1)
      | none => false) x.recs
    let s := s.modPfx fun p =>
      let p := match x.loc with
        | some (.array bank row) => { p with rows := mdel p.rows (65536 * bank + row) }
        | some (.overflow bucket slot) => { p with ovf := mdel p.ovf (4 * bucket + slot) }
        | none => p
      { p with blocks := mdel p.blocks b, freeQ := p.freeQ.give b }
    let s := uncharge x.part 4 1 (freeRun? x.part x.run (forEach x.recs (fun r s => dropRef r false s) s))
    (freed, when x.durable (addCat (.retire x.bid) 0 true) s)

/-- Blocks that hold a shared record's page are retired when it becomes DROPPED (R200). -/
def retireHolders (a : PageAt) (s : State) : State :=
  match a with
  | .rec_ r => forEach ((s.pfx.blocks.filter fun b => b.2.recs.contains r).map (·.1)) (fun b s => (retireBlock b s).2) s
  | _ => s

/-- Issue a recompute ticket (R164, R165): it queues, or is lost when 4,096 wait. The number, and the state. -/
def issueTicket (part handle reason first count layer layers : Nat) (s : State) : Nat × State :=
  let n := s.seqs.tktNext
  let t : Ticket := { num := n, handle := handle, reason := reason, first := first, count := count, layer := layer
                      layers := layers, time := now s, epoch := epochNo s % 65536 }
  (n, s.modSeqs fun q =>
    let l := mgetD q.tickets part []
    if l.length < 4096 then { q with tktNext := n + 1, tickets := mset q.tickets part (l ++ [t]) }
    else { q with tktNext := n + 1, tktLost := mupd q.tktLost part 0 fun k => sat32 (k + 1) })

/-- The leaf of a page now DROPPED, under ticket `n`. -/
def Page.dropped (n : Nat) (p : Page) : Page :=
  { p with
    tier := .dropped, codec := 0, home := n, moving := false, sealed := true, content := .raw [], run := none, spill := []
    metaRun := none, hasMeta := false, sketch := none, heads := [], inherited := false, backing := none
    oldBacking := none, rawForLife := false }

/-- The sequence whose KV a page holds: its own, or the first that refers to its record (R164). -/
def keeperOf (s : State) (a : PageAt) (p : Page) : Nat :=
  match a with
  | .seq h _ _ => h
  | .rec_ r => ((s.seqs.tab.find? fun q => q.2.pages.any fun e => e.ref == .shared r).map (·.1)).getD p.seq
  | .tile _ _ => p.seq

/-- A page becomes DROPPED under a ticket already issued: its stores are freed, its frames after the drain (R148). -/
def dropUnder (a : PageAt) (n : Nat) (s : State) : State :=
  match getPage s a with
  | none => s
  | some p => if p.tier == .dropped then s else retireHolders a (switchPage a (Page.dropped n) (freeStores a p true s))

/-- A page becomes DROPPED with a ticket of its own (R160, R164): for the rows it holds, which are all below the length. -/
def dropPageAt (a : PageAt) (reason : Nat) (s : State) : State :=
  match getPage s a with
  | none => s
  | some p =>
    if p.tier == .dropped then s
    else
      let (n, s) := issueTicket p.part (keeperOf s a p) reason p.first p.rows p.layer 1 s
      dropUnder a n s

/-! ### Moving a leaf to flash and back (R272, R281, R282) -/

/-- Steps 5 and 6 of a demotion: the leaf goes to its flash image, the charge goes with it (R286), and the frames are freed after the
drain (R148). -/
def leafToFlash (a : PageAt) (id : Nat) (s : State) : State :=
  match getPage s a, mget s.ftl.images id with
  | some p, some im =>
    let n := heatOf s p
    let s := dequeue a s
    let s := drainHome p.part p.runs false [] none (uncharge p.part 1 (runBytes p.runs) (chargeImage id s))
    let s := if p.backing != some id then dropImage? p.backing s else s
    let s := if p.oldBacking != some id then dropImage? p.oldBacking s else s
    let f : Page → Page := fun p =>
      { p with
        tier := if im.bulk then .bulk else .slc, home := im.home, run := none, metaRun := none, moving := false
        backing := some id, oldBacking := none }
    let s := switchPage a f s
    let s := s.modFtl fun x => { x with images := mmod x.images id fun i => { i with backing := false, move := none } }
    sweepJournals ((setHeat (f p) n s).modTier fun t => { t with demoted := sat32 (t.demoted + 1) })
  | _, _ => s

/-- Steps 5 and 6 of a promotion: the leaf comes to a run in HBM, and the charge with it (R286); the image is kept as backing for a
durable page or a tile, else it is freed after the drain. -/
def leafToHbm (a : PageAt) (run : Run) (meta? : Option Run) (least : Nat) (s : State) : State :=
  match getPage s a with
  | none => s
  | some p =>
    let n := max (heatOf s p) least
    let keep := p.durable || (match a with | .tile _ _ => true | _ => false)
    let peer := p.tier == .peer
    let s := if keep && !peer then (match p.backing with
        | some id => s.modFtl fun x => { x with images := mmod x.images id fun i => { i with backing := true } }
        | none => s)
      else match p.backing with
        | some id => drainHome p.part [] false [] (some id) (unchargeImage id s)
        | none => s
    let s := charge p.part 1 (runBytes (run :: meta?.toList)) s
    let s := if peer then (match a with | .rec_ r => releaseLayer r s | _ => s) else s
    let f : Page → Page := fun p =>
      { p with
        tier := .hbm, home := 16 * run.start, run := some run, metaRun := meta?, moving := false
        hasMeta := p.codec != 0 || meta?.isSome, sketch := if p.codec != 0 || meta?.isSome then p.sketch else none
        backing := if keep && !peer then p.backing else none }
    let s := switchPage a f s
    let s := (setHeat (f p) n s).modTier fun t => { t with promoted := sat32 (t.promoted + 1) }
    when (wantsEncode (f p)) (requeue a) s

/-! ### Beginning a move down (R281) -/

/-- How a request for a move goes: begun (its number), done at once (a backing image became the home), not yet, or
never: no run or write path, or the quota of the destination. -/
inductive Began where
  | move (id : Nat) (s : State)
  | done (s : State)
  | later (s : State)
  | never (quota : Bool) (s : State)

/-- Put a move in flight: moving set in the leaf, the generation unchanged. -/
def addMove (m : Move) (s : State) : Nat × State :=
  let id := s.tier.nextMove
  (id, modPage m.at_ (fun p => { p with moving := true })
    (s.modTier fun t => { t with moves := mset t.moves id m, nextMove := id + 1 }))

/-- The write path has taken the image of a page on its way down (R286), or could not. -/
def sentDown (a : PageAt) (part : Nat) (op : Option Nat) (heatTo : Option Nat) (r : Option (Nat × State)) (s : State) : Began :=
  match r with
  | none => .later s
  | some (im, s) =>
    let (id, s) := addMove { at_ := a, toHbm := false, part := part, image := some im, op := op, heatTo := heatTo } (dequeue a s)
    .move id s

/-- Begin a demotion: the programmed backing image becomes the home (R282), or the write path accepts the copy (R309). -/
def beginDown (a : PageAt) (op : Option Nat) (heatTo : Option Nat) (s : State) : Began :=
  match getPage s a with
  | none => .never false s
  | some p =>
    match (if programmed s p.backing then p.backing else none) with
    | some id =>
      let s := leafToFlash a id s
      .done (match heatTo, getPage s a with
        | some n, some p => setHeat p n s
        | _, _ => s)
    | none =>
      let n := granulesOf a p
      if !covers s p.part 2 (n * granuleBytes) || !slcRoom s (n * granuleBytes) then .never true s
      else if readOnly s then .never false s
      else if accepts s p.part n (pageRegion a p) then
        sentDown a p.part op heatTo (startImage a p false (some s.tier.nextMove) s) s
      else .later (wantRegion (pageRegion a p) s)

/-! ### The ladder (R158 to R161) -/

/-- Outcome of a need: served, by a run or spill space, at a step; a wait; or step 5. `n` counts the pages demoted at step 2 and the pages
dropped at step 3 since the need last went on. -/
inductive Need where
  | got (tier : Tier) (run : Option Run) (spill : List Run) (step : Nat) (n : Nat × Nat) (s : State)
  | wait (d : Descent) (n : Nat × Nat) (s : State)
  | fail (n : Nat × Nat) (s : State)

/-- Whether freeing a page's frames would make a run that fits and that the quota covers. -/
def yields (s : State) (part n : Nat) (a : PageAt) (p : Page) : Bool :=
  (takeRun part n (freeRun? p.part p.metaRun (freeRun? p.part p.run (dequeue a s)))).isSome

/-- Pages steps 2 and 3 may take: sealed, in HBM, not moving, charged to the partition (Table 5.12). -/
def sealedHere (s : State) (part : Nat) : List (PageAt × Page) :=
  (allPages s).filter fun x => x.2.part == part && x.2.tier == .hbm && x.2.sealed && !x.2.moving

/-- Order by two numbers, then by home. -/
def byKey (k : PageAt × Page → Nat × Nat) (l : List (PageAt × Page)) : List (PageAt × Page) :=
  (sortBy (fun x y =>
    decide ((k x).1 < (k y).1) || ((k x).1 == (k y).1 && (decide ((k x).2 < (k y).2) ||
      ((k x).2 == (k y).2 && decide (x.2.home < y.2.home))))) l).take 256

/-- Candidates of step 2, in order. -/
def candidates2 (s : State) (part : Nat) : List (PageAt × Page) :=
  byKey (fun x => (heatOf s x.2, (hintOf s x.1).2))
    ((sealedHere s part).filter fun x => (hintOf s x.1).1 == 0 || (hintOf s x.1).1 == 2)

/-- The one sequence that holds a page, none where it is shared (R142) or none holds it: a record that counts 1 and belongs to no block
is not shared. -/
def soleHolder (s : State) (a : PageAt) : Option Nat :=
  match a with
  | .seq h _ _ => some h
  | .rec_ r =>
    if ((recOf s r).map (·.count)) == some 1 && !(s.pfx.blocks.any fun b => b.2.recs.contains r) then
      (s.seqs.tab.find? fun q => q.2.pages.any fun e => e.ref == .shared r).map (·.1)
    else none
  | .tile _ _ => none

/-- Candidates of step 3, in order: volatile, unshared, not PIN_HBM, not of the sequence in need. -/
def candidates3 (s : State) (part exempt : Nat) : List (PageAt × Page) :=
  byKey (fun x => ((hintOf s x.1).2, heatOf s x.2))
    ((sealedHere s part).filter fun x => !x.2.durable && (hintOf s x.1).1 != 1 && (match soleHolder s x.1 with
      | some h => h != exempt
      | none => false))

/-- Steps 4 and 5. -/
def needLast (part : Nat) (spill : Option Nat) (n : Nat × Nat) (s : State) : Need :=
  match spill.bind fun b => takeSpill part b s with
  | some (l, s) => .got .hamper none l 4 n s
  | none => .fail n s

/-- Step 3, or what comes after it: the victim is dropped, and its frames fall free after the drain. -/
def needDrop (exempt part k : Nat) (spill : Option Nat) (n : Nat × Nat) (s : State) : Need :=
  match (candidates3 s part exempt).find? fun x => yields s part k x.1 x.2 with
  | some x => .wait (.freeing 3 none x.2.runs true) (n.1, n.2 + 1) (dropPageAt x.1 1 s)
  | none => needLast part spill n s

/-- Step 2, or what comes after it: the victim moves to flash (R281), and its frames fall free after the drain. -/
def needDemote (exempt part k : Nat) (spill : Option Nat) (s : State) : Need :=
  match (candidates2 s part).find? fun x => yields s part k x.1 x.2 with
  | none => needDrop exempt part k spill (0, 0) s
  | some x => match beginDown x.1 none none s with
    | .move id s => .wait (.freeing 2 (some id) x.2.runs false) (0, 0) s
    | .done s => .wait (.freeing 2 none x.2.runs true) (0, 0) s
    | .later s => .wait .asking (0, 0) s
    | .never _ s => needDrop exempt part k spill (0, 0) s

/-- The frames a victim leaves are still to come: its move is under way, or its drain. -/
def stillLeaving (s : State) (move : Option Nat) (runs : List Run) : Bool :=
  (move.any (mhas s.tier.moves)) || s.hbm.drains.any fun d => d.runs.any runs.contains

/-- A need of `k` frames goes on down the ladder from where it had come (R158). `spill` is the bytes of rows that step 4 would place, none
where it is skipped (tables, REPLACE). A victim's frames that another need has taken are no success of the step, and the next is
tried. -/
def need (exempt part k : Nat) (spill : Option Nat) (d : Descent) (s : State) : Need :=
  match d with
  | .freeing step move runs made =>
    let n := (b2n (step == 2 && made), 0)
    if stillLeaving s move runs then .wait d (0, 0) s
    else match takeRun part k s with
      | some (r, s) => .got .hbm (some r) [] step n s
      | none => if step == 2 then needDrop exempt part k spill n s else needLast part spill n s
  | _ => match takeRun part k s with
    | some (r, s) => .got .hbm (some r) [] 1 (0, 0) s
    | none => if d == .past then needDrop exempt part k spill (0, 0) s else needDemote exempt part k spill s

/-- Pages served at a step, and needs refused (Table 5.15). -/
def countLadder (part step : Nat) (s : State) : State :=
  s.modSeqs fun x => { x with ladder := mupd x.ladder part (List.replicate 5 0) fun l => lmod l (step - 1) fun n => sat32 (n + 1) }

/-- A need for a table: step 4 is skipped, and a refusal counted (R158). -/
def needTable (exempt part bytes : Nat) (d : Descent) (s : State) : Need :=
  match need exempt part (framesFor bytes) none d s with
  | .fail n s => .fail n (countLadder part 5 s)
  | n => n

/-! ### Seal and encode (R153, R154, R251, R252, R260) -/

/-- A sealed page has come to HBM: its encode starts, or it waits for one; a page that keeps RAW16 takes a metadata run (R252, R260). -/
def afterSeal (a : PageAt) (s : State) : State :=
  match getPage s a with
  | none => s
  | some p =>
    if p.tier != .hbm then s
    else if wantsEncode p then
      match startEncode a p s with
      | some s => s
      | none => startBacking a (requeue a ((takeMeta a p s).getD s))
    else
      match takeMeta a p s with
      | some s => startBacking a s
      | none => startBacking a (requeue a s)

/-- Seal a page. -/
def sealPage (a : PageAt) (s : State) : State :=
  match getPage s a with
  | none => s
  | some _ =>
    let s := s.modSeqs fun x => { x with sealSeq := x.sealSeq + 1 }
    afterSeal a (modPage a (fun p =>
      { p with
        sealed := true, sealSeq := s.seqs.sealSeq, sealTime := now s, sealEpoch := epochNo s % 65536
        heads := rawHeads p.model }) s)

/-- The frames of an encoded page's own image. -/
def exactFrames (m : Model) (codec n : Nat) (img : EncImg) : Nat := imageFrames m codec n img.ol.length

/-- An encode completes (R260): a barring element keeps the page RAW16 for its life; otherwise the leaf switches to
the image, the Q3T run is trimmed and the old runs go through the drain. -/
def finishEncode (e : EncItem) (s : State) : State :=
  match getPage s e.at_, e.run with
  | some p, some run =>
    let s := s.modCdc fun c => { c with encQ := c.encQ.filter fun x => x.at_ != e.at_ }
    let m := p.model
    let rows := p.rowData
    if !encodable m m.codec rows then
      let s := modPage e.at_ (fun p => { p with rawForLife := true }) (freeRun p.part run s)
      let s := s.modCdc fun c => { c with kept := sat32 (c.kept + 1) }
      let s := if p.hasMeta then s else (match getPage s e.at_ with
        | some p => (takeMeta e.at_ p s).getD (requeue e.at_ s)
        | none => s)
      startBacking e.at_ s
    else
      let img := encodeRows m m.codec rows
      let k := exactFrames m m.codec p.rows img
      let trim := run.len - k
      let s := freeRun? p.part (if trim == 0 then none else some { start := run.start + k, len := trim }) s
      let heat := heatOf s p
      let new : Run := { start := run.start, len := run.len - trim }
      let heads := headRecs m m.codec rows img
      let f : Page → Page := fun p =>
        { p with
          codec := m.codec, content := .enc img, run := some new, metaRun := none, home := 16 * new.start, hasMeta := true
          heads := heads, sketch := sketchOf m (expandImg m m.codec p.rows img)
          oldBacking := if p.backing.isSome then p.backing else p.oldBacking, backing := none }
      let s := drainHome p.part p.runs true [] none s
      let s := setHeat (f p) heat (switchPage e.at_ f s)
      let s := s.modCdc fun c =>
        { c with
          enc := lmod c.enc (m.codec - 1) fun n => sat32 (n + 1), e8Sat := sat32 (c.e8Sat + sum (heads.map fun h => h.kSat + h.vSat))
          outliers := sat32 (c.outliers + img.ol.length), trim := sat32 (c.trim + trim) }
      startBacking e.at_ s
  | _, _ => s

/-! ### Freed runs serve the waiting needs (R463) -/

/-- A spill page takes a run of the rows it holds (R161). -/
def spillToHbm (a : PageAt) (s : State) : State :=
  match getPage s a with
  | none => s
  | some p =>
    match takeRun p.part (framesFor (p.rows * p.model.rowBytes)) s with
    | none => s
    | some (r, s) =>
      let s := drainHome p.part [] false p.spill none s
      afterSeal a (switchPage a (fun p => { p with tier := .hbm, run := some r, home := 16 * r.start, spill := [] }) s)

/-- Serve one waiting place of the encode queue. -/
def serveItem (e : EncItem) (s : State) : State :=
  match getPage s e.at_ with
  | none => s
  | some p =>
    if p.moving || e.run.isSome then s
    else if e.metaOnly then
      match takeMeta e.at_ p s with
      | some s => s.modCdc fun c => { c with encQ := c.encQ.filter fun x => x.at_ != e.at_ }
      | none => s
    else (startEncode e.at_ p s).getD s

/-- Spill pages oldest first, then the encode queue oldest seal first; what does not fit is passed over (R463). -/
def serveFreed (part : Nat) (s : State) : State :=
  let spills := sortBy (fun x y => decide (x.2.sealSeq < y.2.sealSeq))
    ((allPages s).filter fun x => x.2.part == part && x.2.tier == .hamper && x.2.sealed)
  let s := forEach spills (fun x s => spillToHbm x.1 s) s
  let q := s.cdc.encQ.filter fun e => e.part == part
  serveBackings (forEach q serveItem s)

/-- FREED_RUN_SERVICE (R463). -/
def execFreedRunService (part : Nat) (s : State) : Out := .next (working (serveFreed part) s)

/-- ENCODE_DONE (R260): the partition's encode of the oldest seal completes. -/
def execEncodeDone (part : Nat) (s : State) : Out :=
  .next (working (fun s => match s.cdc.encQ.find? fun e => e.part == part && e.run.isSome with
    | none => s
    | some e => finishEncode e s) s)

end Sys2Proof.Machine
end

