-- ==== Sys2Proof/Machine/Seqs.lean ====
section
/-! DEFINITION. Sequences (05): checks of a handle, tables, shared records, open, close and fork, tickets, and model
descriptors. -/

namespace Sys2Proof.Machine

open Sys2Proof

/-! ### Checks (R126, R367) -/

/-- An open handle of a context's tenant and partition (R126). -/
def seqMine (s : State) (ctx h : Nat) : Bool :=
  match seqOf s h with
  | none => false
  | some q => q.tenant == (ctxOf s ctx).tenant && q.part == (ctxOf s ctx).part

/-- A handle an op of a context that arrives now may name: no SEQ_CLOSE of it has started (R126, R132). -/
def seqOk (s : State) (ctx h : Nat) : Bool := seqMine s ctx h && !((seqOf s h).map (·.closing)).getD false

/-- A model slot loaded, the context's partition's and its tenant's (R129, R367). -/
def slotOk (s : State) (ctx slot : Nat) : Bool :=
  mhas s.seqs.md slot && ((s.img.cur.map fun i => nth i.slotPart slot none).getD none) == some (ctxOf s ctx).part &&
    (match mget s.sec.slots slot with
     | none => false
     | some b => b.bound && b.tenant == (ctxOf s ctx).tenant)

/-- The descriptor of a slot, and the model of a sequence. -/
def mdOf (s : State) (slot : Nat) : List Byte := mgetD s.seqs.md slot []
def seqModel (s : State) (q : Seq) : Model := modelOf (mdOf s q.model)

/-! ### Which sequences an op names (R132) -/

/-- Sequences an op in progress names. -/
def opSeqs (o : Op) : List Nat :=
  match o.body with
  | .append a => [a.seq]
  | .attn a => a.ents.map (·.seq)
  | .fetch f => [field f.desc 0 3]
  | .prefetch f => [field f.desc 0 3]
  | .publish p => [p.seq]
  | .lookup _ => if bit (field (eInline o.raw) 3 1) 0 then [field (eInline o.raw) 0 3] else []
  | .seqFork h _ _ => [h]
  | .migrate _ .. => if field (eInline o.raw) 0 1 == 0 then [field (eInline o.raw) 4 3] else []
  | .step recs _ _ attn _ => recs.map (·.app.seq) ++ ((attn.map fun a => a.ents.map (·.seq)).getD [])
  | _ => []

/-- Ops in progress on a sequence. -/
def seqBusy (s : State) (h : Nat) : Bool := s.ops.tab.any fun o => (opSeqs o.2).contains h

/-- An append, a fork, or a lookup that attaches, in progress on a sequence: it holds the lock (R133, R186). -/
def appending (s : State) (h : Nat) : Bool :=
  s.ops.tab.any fun o => match o.2.body with
    | .append a => a.seq == h
    | .lookup _ => bit (field (eInline o.2.raw) 3 1) 0 && field (eInline o.2.raw) 0 3 == h
    | .seqFork p _ _ => p == h
    | .step recs _ _ _ _ => recs.any fun r => r.started && r.status.isNone && r.app.seq == h
    | _ => false

/-! ### The sequence table (R127) -/

/-- The open tail page of a sequence, by layer 0. -/
def tailPage (s : State) (h : Nat) (q : Seq) : Option Page :=
  match q.length with
  | 0 => none
  | n + 1 => (entAt q 0 n).bind fun e => let p := pageOf s h e; if p.sealed then none else some p

/-- Pages of a sequence of its own: not shared. -/
def ownPages (q : Seq) : List Page := q.pages.filterMap fun e => match e.ref with
  | .own p => some p
  | .shared _ => none

/-- Pages of a sequence now DROPPED. -/
def droppedOf (s : State) (h : Nat) (q : Seq) : Nat := count (fun (e : PEnt) => (pageOf s h e).tier == .dropped) q.pages

/-- HBM bytes of a sequence's unshared pages and tables, and flash bytes of its unshared pages. -/
def hbmOf (q : Seq) : Nat := runBytes (q.dirRun.toList ++ q.l2.map (·.2.2) ++ (ownPages q).flatMap (·.runs))
def flashOf (s : State) (q : Seq) : Nat :=
  sum ((ownPages q).map fun p => sum ((p.backing.toList ++ p.oldBacking.toList).map fun i =>
    ((mget s.ftl.images i).map (·.granules)).getD 0 * 16384))

/-- A sequence's 64-byte entry of the sequence table (Table 5.1). -/
def seqEntry (s : State) (h : Nat) : List Byte :=
  match seqOf s h with
  | none => List.replicate 64 0
  | some q =>
    let tail := ((tailPage s h q).map (·.first)).getD (q.length)
    leBytes 4 (pack [(0, 1), (1, b2n q.durable), (2, q.model % 64), (8, q.ctx % 1024), (18, q.part % 16), (22, q.hint % 4), (24, q.prio % 256)]) ++
      leBytes 4 q.length ++ leBytes 8 (pack [(0, 16 * ((q.dirRun.map (·.start)).getD 0)), (44, q.dirSpan)]) ++
      leBytes 4 (pack [(0, q.parent % 2 ^ 24), (24, b2n q.forked)]) ++ leBytes 4 q.serial ++
      leBytes 4 (pack [(0, tail % 2 ^ 23), (23, b2n (tailPage s h q).isSome)]) ++ leBytes 4 (droppedOf s h q) ++
      leBytes 8 (hbmOf q) ++ leBytes 8 (flashOf s q) ++ List.replicate 16 0

/-! ### Catalog records (R316) -/

/-- The tail page of a sequence is open. -/
def tailOpen (s : State) (h : Nat) (q : Seq) : Bool :=
  match q.length with
  | 0 => false
  | n + 1 => match entAt q 0 n with
    | some e => !(pageOf s h e).sealed
    | none => false

/-- Write the SEQ record of an append that has sealed a page: it holds the length up to the open tail page, and tail_open, since no
record follows until the next seal (10 worked example, log 17). -/
def catSealed (h : Nat) (s : State) : State :=
  match seqOf s h with
  | none => s
  | some q =>
    let n := match q.length with
      | 0 => 0
      | n + 1 => match entAt q 0 n with
        | some e => if (pageOf s h e).sealed then q.length else e.first
        | none => q.length
    addCat (.seq h q.sid true q.model q.tenant q.part q.durable q.hint q.prio n true q.parentSid q.forkLen) q.tenant q.durable s

/-- Write the SEQ record of a sequence. -/
def catSeq (h : Nat) (isOpen : Bool) (s : State) : State :=
  match seqOf s h with
  | none => s
  | some q =>
    addCat (.seq h q.sid isOpen q.model q.tenant q.part q.durable q.hint q.prio q.length (tailOpen s h q) q.parentSid
      q.forkLen) q.tenant q.durable s

/-- A closed SEQ record is kept while an open sequence names it as parent or a live BLOCK as publisher (R316). -/
def pruneCatalog (s : State) : State :=
  s.modFtl fun f =>
    { f with recs := f.recs.map fun x => match x.2.body with
      | .catalog (.seq _ sid false ..) =>
        let used := s.seqs.tab.any (fun q => q.2.forked && q.2.parentSid == sid) ||
          s.pfx.blocks.any (fun b => b.2.durable && b.2.pubSid == sid)
        (x.1, { x.2 with live := x.2.live && used })
      | .catalog (.attach sid ..) =>
        (x.1, { x.2 with live := x.2.live && s.seqs.tab.any fun q => q.2.sid == sid || (q.2.forked && q.2.parentSid == sid) })
      | _ => x }

/-! ### Shared records (R142, R274) -/

/-- Strength of a hint class: PIN_HBM, AUTO, COLD, FLASH_ONLY. -/
def hintRank (c : Nat) : Nat := if c == 1 then 0 else if c == 0 then 1 else c

/-- Shared records still free. -/
def recsFree (s : State) : Nat := 2 ^ 26 - s.seqs.recs.length

/-- The lowest free record. -/
def newRecIdx (s : State) : Nat := (lowestFree s.seqs.recs 0 (s.seqs.recs.length + 1)).getD s.seqs.recs.length

/-- The pages an op still has to move follow a page that becomes shared. -/
def OpBody.retarget (a b : PageAt) (x : OpBody) : OpBody :=
  let f := fun (y : PageAt) => if y == a then b else y
  match x with
  | .prefetch p => .prefetch { p with todo := p.todo.map fun y => (y.1, f y.2) }
  | .migrate l mv al nm dr qu ms => .migrate (l.map f) mv al nm dr qu ms
  | x => x

/-- A place in the queues, in the moves and in the ops follows a page that becomes shared. -/
def retarget (a b : PageAt) (s : State) : State :=
  let s := s.modCdc fun c => { c with encQ := c.encQ.map fun e => if e.at_ == a then { e with at_ := b } else e }
  let s := s.modTier fun t => { t with moves := t.moves.map fun m => (m.1, if m.2.at_ == a then { m.2 with at_ := b } else m.2) }
  s.modOps fun x => { x with tab := x.tab.map fun o => (o.1, { o.2 with body := o.2.body.retarget a b }) }

/-- Make a page of a sequence shared: its record, counting its one holder, and the entry rewritten (R142). The record,
and the state. -/
def makeShared (h layer first : Nat) (s : State) : Nat × State :=
  match (seqOf s h).bind fun q => q.pages.find? fun e => e.is layer first with
  | none => (0, s)
  | some e => match e.ref with
    | .shared r => (r, s)
    | .own p =>
      let r := newRecIdx s
      let w := hintOf s (.seq h layer first)
      let s := invalidate (.seq h layer first) s
      let s := s.modSeqs fun x => { x with recs := mset x.recs r { page := p, count := 1, hint := w.1, prio := w.2 } }
      let s := modSeq h (fun q => { q with pages := q.pages.map fun e => if e.is layer first then { e with ref := .shared r, gen := p.gen + 1 } else e }) s
      (r, retarget (.seq h layer first) (.rec_ r) s)

/-- A further reference: the count, and the hint word raised to the stronger class and the higher priority (R274). A word that comes to
PIN_HBM abandons a demotion under way (R283). -/
def addRef (r hint prio : Nat) (s : State) : State :=
  pinStops (.rec_ r) (modRec r (fun x =>
    { x with
      count := x.count + 1, hint := if hintRank hint < hintRank x.hint then hint else x.hint, prio := max x.prio prio }) s)

/-! ### Tables (R138, R139, R158) -/

/-- Bytes of a directory block, and of a level-2 table. -/
def dirBytes (layers span : Nat) : Nat := layers * 2 ^ span * 8
def l2Bytes : Nat := 8192

/-- The smallest span that covers a range. -/
def spanFor (i : Nat) : Nat := if i == 0 then 0 else Nat.log2 i + 1

/-- Status of a table need that reaches step 5 (R131). -/
def tableFail (s : State) (part bytes : Nat) : Nat :=
  if covers s part 1 (frameBytes (framesFor bytes)) then stNoSpace else stQuota

/-- How getting tables goes: all there, with the need that comes next at its place; a wait; or step 5. `n` is as in Need. -/
inductive Tables where
  | ok (d : Descent) (n : Nat × Nat) (s : State)
  | wait (d : Descent) (n : Nat × Nat) (s : State)
  | fail (n : Nat × Nat) (s : State)

/-- What a need for a table comes to: its run is put in place by `f`. -/
def tableFrom (f : Run → State → State) (x : Need) : Tables :=
  match x with
  | .got _ (some run) _ _ n s => .ok .top n (f run s)
  | .got _ none _ _ n s | .fail n s => .fail n s
  | .wait d n s => .wait d n s

/-- Grow a sequence's directory to cover range `i`; the old block is freed after the drain (R138). -/
def growDir (h i : Nat) (d : Descent) (s : State) : Tables :=
  match seqOf s h with
  | none => .fail (0, 0) s
  | some q =>
    let span := spanFor i
    if span ≤ q.dirSpan then .ok d (0, 0) s
    else tableFrom (fun run s =>
      modSeq h (fun q => { q with dirSpan := span, dirRun := some run }) (drainHome q.part q.dirRun.toList true [] none s))
      (needTable h q.part (dirBytes (seqModel s q).layers span) d s)

/-- A level-2 table for a layer and range, where there is none. -/
def ensureL2 (h layer i : Nat) (d : Descent) (s : State) : Tables :=
  match seqOf s h with
  | none => .fail (0, 0) s
  | some q =>
    if q.l2.any fun t => t.1 == layer && t.2.1 == i then .ok d (0, 0) s
    else tableFrom (fun run s => modSeq h (fun q => { q with l2 := q.l2 ++ [(layer, i, run)] }) s)
      (needTable h q.part l2Bytes d s)

/-- Tables that map a page of a size code at a position of a layer. -/
def ensureTables (h layer first size : Nat) (d : Descent) (s : State) : Tables :=
  match growDir h ((first + tokens size - 1) / 16384) d s with
  | .ok d n s =>
    if 10 ≤ size then .ok d n s
    else match ensureL2 h layer (first / 16384) d s with
      | .ok d m s => .ok d (n.1 + m.1, n.2 + m.2) s
      | .wait d m s => .wait d (n.1 + m.1, n.2 + m.2) s
      | .fail m s => .fail (n.1 + m.1, n.2 + m.2) s
  | r => r

/-- Level-2 tables whose range holds no page smaller than P16384 are freed (R139). -/
def dropBareTables (h : Nat) (s : State) : State :=
  match seqOf s h with
  | none => s
  | some q =>
    let bare := fun (t : Nat × Nat × Run) => !(q.pages.any fun e => e.layer == t.1 && e.first / 16384 == t.2.1 && decide (e.size < 10))
    forEach (q.l2.filter bare) (fun t s => freeRun q.part t.2.2 s) (modSeq h (fun q => { q with l2 := q.l2.filter fun t => !bare t }) s)

/-! ### SEQ_OPEN, SEQ_CLOSE, SEQ_FORK (R131 to R133) -/

/-- No sequence: no handle is exempt from step 3. -/
def noSeq : Nat := 2 ^ 24

/-- The sequence is open, with the directory block it has got; the handle is taken now, and the block given back where none is left. -/
def seqOpened (ctx : Nat) (il : List Byte) (run : Option Run) (s : State) : Ans × State :=
  let c := ctxOf s ctx
  match s.seqs.freeQ.take with
  | none => ({ status := stNoSpace }, freeRun? c.part run s)
  | some (h, fq) =>
    let serial := mgetD s.seqs.serials h 0 + 1
    let (sid, s) := takeSeq 1 s
    let q : Seq :=
      { durable := bit (field il 1 1) 0, model := field il 0 1, ctx := ctx, part := c.part, tenant := c.tenant, hint := field il 2 1
        prio := field il 3 1, dirRun := run, serial := serial, sid := sid }
    let s := s.modSeqs fun x =>
      { x with tab := mset x.tab h q, serials := mset x.serials h serial, freeQ := fq }
    ({ status := stOk, a := h, b := serial }, catSeq h true s)

/-- The need of a SEQ_OPEN for its directory block. -/
def openNeed (ctx : Nat) (il : List Byte) (d : Descent) (s : State) : Need :=
  needTable noSeq (ctxOf s ctx).part (dirBytes (modelOf (mdOf s (field il 0 1))).layers 0) d s

/-- The answer of a SEQ_OPEN whose need is refused (R131). -/
def openRefused (ctx : Nat) (il : List Byte) (s : State) : Ans :=
  { status := tableFail s (ctxOf s ctx).part (dirBytes (modelOf (mdOf s (field il 0 1))).layers 0) }

/-- The effect of SEQ_OPEN, in the order of its checks (R131). -/
def seqOpen (ring : Nat) (e : Entry) (s : State) : State :=
  let il := eInline e.raw
  let ctx := (ringOf s ring).context
  let slot := field il 0 1
  let hint := field il 2 1
  if !slotOk s ctx slot then endNow ring e (internal 0x13) s
  else if 3 < hint then endNow ring e (internal 0x41) s
  else match s.seqs.freeQ.take with
    | none => endNow ring e { status := stNoSpace } s
    | some _ => match openNeed ctx il .top s with
      | .got _ run _ _ _ s =>
        let (a, s) := seqOpened ctx il run s
        endNow ring e a s
      | .wait d _ s => (beginOp ring e (.seqOpen d) s).2
      | .fail _ s => endNow ring e (openRefused ctx il s) s

/-- SEQ_OPEN (R124, R131): it waits until the block pass has ended. -/
def execSeqOpen (ring : Nat) (s : State) : Out :=
  .next (if s.start.wearReady then startOp opSeqOpen ring (seqOpen ring) s else s)

/-- Close a sequence (R132): references dropped, pages and tables freed, handle released. Pages released, pages freed,
the state. -/
def closeSeq (h : Nat) (s : State) : Nat × Nat × State :=
  match seqOf s h with
  | none => (0, 0, s)
  | some q =>
    let freed := count (fun e => match e.ref with
      | .own _ => true
      | .shared r => match recOf s r with
        | some x => decide (x.count ≤ 1)
        | none => false) q.pages
    let s := catSeq h false s
    let s := forEach q.pages (fun e s => match e.ref with
      | .own p => freeStores (.seq h e.layer e.first) p false s
      | .shared r => dropRef r false s) s
    let s := forEach q.l2 (fun t s => freeRun q.part t.2.2 s) (freeRun? q.part q.dirRun s)
    let s := s.modSeqs fun x =>
      { x with
        tab := mdel x.tab h, freeQ := x.freeQ.give h
        plb := x.plb.map fun l => (l.1, l.2.filter fun p => p.handle != h)
        seqCache := x.seqCache.map fun l => (l.1, l.2.filter fun p => p.1 != h) }
    (q.pages.length, freed, pruneCatalog (sweepJournals s))

/-- Closes that waited for the ops on their handle end (R132). -/
def settleClose (s : State) : State :=
  forEach s.ops.tab (fun o s => match o.2.body with
    | .seqClose h =>
      if seqBusy s h then s
      else
        let (r, f, s) := closeSeq h s
        endOp o.1 { status := stOk, a := r, b := f } s
    | _ => s) s

/-- An op in progress ends: its reads are forgotten, its answer given, and a close that waited for it ends. -/
def finishOp (id : Nat) (a : Ans) (s : State) : State := settleClose (endOp id a (dropReads id s))

/-- The effect of SEQ_CLOSE: it waits while ops on the handle are in progress. -/
def seqCloseOp (ring : Nat) (e : Entry) (s : State) : State :=
  let h := field (eInline e.raw) 0 3
  if !seqOk s (ringOf s ring).context h then endNow ring e (internal 0x10) s
  else settleClose (beginOp ring e (.seqClose h) (modSeq h (fun q => { q with closing := true }) s)).2

/-- SEQ_CLOSE (R132). -/
def execSeqClose (ring : Nat) (s : State) : Out := .next (startOp opSeqClose ring (seqCloseOp ring) s)

/-- Give a child the parent's entry as a shared page. -/
def shareTo (h child : Nat) (e : PEnt) (s : State) : State :=
  let (r, s) := makeShared h e.layer e.first s
  let q := (seqOf s child).getD {}
  let s := addRef r q.hint q.prio s
  modSeq child (fun q => { q with pages := q.pages ++ [{ e with ref := .shared r }] }) s

/-- Bytes of the tables a fork copies: the directory block, then each level-2 table. -/
def forkSizes (s : State) (q : Seq) : List Nat := dirBytes (seqModel s q).layers q.dirSpan :: q.l2.map fun _ => l2Bytes

/-- How getting the child's tables goes. -/
inductive Forked where
  | all (runs : List Run) (s : State)
  | wait (runs : List Run) (d : Descent) (s : State)
  | fail (runs : List Run) (s : State)

/-- Runs for the child's tables still to get, after those in `runs`. -/
def forkTables (parent part : Nat) : List Nat → List Run → Descent → State → Forked
  | [], runs, _, s => .all runs s
  | b :: rest, runs, d, s =>
    match needTable parent part b d s with
    | .got _ (some r) _ _ _ s => forkTables parent part rest (runs ++ [r]) .top s
    | .wait d _ s => .wait runs d s
    | .got _ none _ _ _ s | .fail _ s => .fail runs s

/-- The child is made, with the tables it has got: its handle and its shared records are taken now, and the tables given back where
there are none. -/
def seqForked (h : Nat) (runs : List Run) (s : State) : Ans × State :=
  match seqOf s h, s.seqs.freeQ.take with
  | some q, some (child, fq) =>
    if recsFree s < (ownPages q).length then ({ status := stNoSpace }, forEach runs (freeRun q.part) s)
    else
      let (sid, s) := takeSeq 1 s
      let serial := mgetD s.seqs.serials child 0 + 1
      let c : Seq :=
        { q with
          dirRun := runs.head?, l2 := (List.range q.l2.length).map fun i =>
            let t := nth q.l2 i (0, 0, ⟨0, 0⟩)
            (t.1, t.2.1, nth runs (i + 1) ⟨0, 0⟩)
          parent := h, parentSid := q.sid, forked := true, forkLen := q.length, serial := serial, pages := [], sid := sid
          closing := false }
      let s := s.modSeqs fun x =>
        { x with tab := mset x.tab child c, serials := mset x.serials child serial, freeQ := fq }
      let s := forEach q.pages (shareTo h child) s
      ({ status := stOk, a := child, b := q.pages.length, c := ceilDiv (sum (forkSizes s q)) 256 }, catSeq child true s)
  | some q, none => ({ status := stNoSpace }, forEach runs (freeRun q.part) s)
  | none, _ => (internal 0x10, s)

/-- The answer of a SEQ_FORK whose need for a table is refused (R131); the tables it has got are given back. -/
def forkRefused (h : Nat) (runs : List Run) (s : State) : Ans × State :=
  match seqOf s h with
  | none => (internal 0x10, s)
  | some q => ({ status := tableFail s q.part (nth (forkSizes s q) runs.length 0) }, forEach runs (freeRun q.part) s)

/-- The effect of SEQ_FORK (R131, R133). -/
def seqFork (ring : Nat) (e : Entry) (s : State) : State :=
  let h := field (eInline e.raw) 0 3
  if !seqOk s (ringOf s ring).context h then endNow ring e (internal 0x10) s
  else match seqOf s h, s.seqs.freeQ.take with
    | some q, some _ =>
      if recsFree s < (ownPages q).length then endNow ring e { status := stNoSpace } s
      else match forkTables h q.part (forkSizes s q) [] .top s with
        | .all runs s =>
          let (a, s) := seqForked h runs s
          endNow ring e a s
        | .wait runs d s => (beginOp ring e (.seqFork h runs d) s).2
        | .fail runs s =>
          let (a, s) := forkRefused h runs s
          endNow ring e a s
    | _, _ => endNow ring e { status := stNoSpace } s

/-- A SEQ_OPEN or SEQ_FORK that waits for a table goes on. -/
def driveTables (id : Nat) (s : State) : State :=
  match mget s.ops.tab id with
  | none => s
  | some o => match o.body with
    | .seqOpen d => match openNeed o.ctx (eInline o.raw) d s with
      | .got _ run _ _ _ s =>
        let (a, s) := seqOpened o.ctx (eInline o.raw) run s
        finishOp id a s
      | .wait d _ s => modOp id (fun o => { o with body := .seqOpen d }) s
      | .fail _ s => finishOp id (openRefused o.ctx (eInline o.raw) s) s
    | .seqFork h runs d =>
      (match seqOf s h with
       | none => finishOp id (internal 0x10) s
       | some q => match forkTables h q.part ((forkSizes s q).drop runs.length) runs d s with
         | .all runs s =>
           let (a, s) := seqForked h runs s
           finishOp id a s
         | .wait runs d s => modOp id (fun o => { o with body := .seqFork h runs d }) s
         | .fail runs s =>
           let (a, s) := forkRefused h runs s
           finishOp id a s)
    | _ => s

/-- SEQ_FORK (R124, R133): it waits for the block pass, and for an append to the parent in progress. -/
def execSeqFork (ring : Nat) (s : State) : Out :=
  let locked := match startable s ring with
    | some e => eOpcode e.raw == opSeqFork && appending s (field (eInline e.raw) 0 3)
    | none => false
  .next (if s.start.wearReady && !locked then startOp opSeqFork ring (seqFork ring) s else s)

/-! ### Tickets (R164, R165) -/

/-- A ticket as a completion record (Table 5.14). -/
def ticketCpl (t : Ticket) : Cpl :=
  { tag := t.num, status := stDropped, loss := t.handle % 2 ^ 24 + t.reason * 2 ^ 24, a := t.first, b := t.count
    c := t.layer + (t.layers - 1) * 256, time := t.time, epoch := t.epoch, forEntry := false }

/-- TICKET_WRITE (R165): the oldest ticket goes to the partition's ticket ring, when it is enabled, has room and may be written to now;
else it stays in its queue. -/
def execTicketWrite (part : Nat) (s : State) : Out :=
  .next (unlessStopped (fun s => match mget s.seqs.tktRing part, mgetD s.seqs.tickets part [] with
    | some (ring, true), t :: rest =>
      let r := ringOf s ring
      if r.enable && decide (r.ready.length < cqRoom r) && mayWrite s r then
        writeCpl ring (modRing ring (fun r => { r with ready := r.ready ++ [ticketCpl t] })
          (s.modSeqs fun x => { x with tickets := mset x.tickets part rest }))
      else s
    | _, _ => s) s)

/-! ### Model descriptors (R129, R130, R168, R367) -/

/-- Partition a model slot is assigned to. -/
def slotOwner (s : State) (slot : Nat) : Option Nat := (s.img.cur.map fun i => nth i.slotPart slot none).getD none

/-- A sequence bound to the slot is open. -/
def slotInUse (s : State) (slot : Nat) : Bool := s.seqs.tab.any fun q => q.2.model == slot

/-- The tenant of a partition's management context. -/
def mgmtTenant (s : State) (p : Nat) : Nat := (ctxOf s (partOf s p).mgmtCtx).tenant

def setMdErr (s : State) : State := s.modSeqs fun x => { x with mdErr := true }

/-- Whether a party's PWU_MD_CMD is taken: the operator's, or the owning partition's management context's. -/
def mdParty (s : State) (path : Path) : Option Party :=
  if s.seqs.mdBusy then none
  else match partyOf s path with
    | .operator => some .operator
    | .mgmt p => if slotOwner s s.seqs.mdSel == some p then some (.mgmt p) else none
    | _ => none

/-- A descriptor as its slot holds it: the reserved bits of Table 5.2 read 0 and are ignored on a write (R5). -/
def mdHeld (b : List Byte) : List Byte :=
  let b := padTo 64 b
  b.take 7 ++ leBytes 1 (field b 7 1 % 16) ++ (b.drop 8).take 5 ++ List.replicate 3 0 ++ (b.drop 16).take 4 ++ List.replicate 44 0

/-- PWU_MD_CMD 1 (R129, R130, R367). -/
def mdLoadCmd (path : Path) (s : State) : State :=
  let n := s.seqs.mdSel
  match mdParty s path with
    | none => s
    | some x =>
      let bind? := mget s.sec.slots n
      let foreign := match x, bind? with
        | .mgmt p, some b => b.bound && b.tenant != mgmtTenant s p
        | _, _ => false
      if foreign || slotInUse s n || !modelOk s.seqs.mdData then setMdErr s
      else
        let s := s.modSeqs fun q => { q with md := mset q.md n (mdHeld q.mdData) }
        match x with
        | .mgmt p =>
          if (bind?.map (·.bound)).getD false then s
          else s.modSec fun c => { c with slots := mset c.slots n { tenant := mgmtTenant s p, bound := true, scope := false } }
        | _ => s

/-- MD_LOAD. -/
def execMdLoad (path : Path) (s : State) : Out := .next (regAccess path 0x40004 (mdLoadCmd path) s)

/-- PWU_MD_CMD 2 (R168). -/
def mdReadCmd (path : Path) (s : State) : State :=
  match mdParty s path with
  | none => s
  | some _ => s.modSeqs fun q => { q with mdData := padTo 64 (mgetD q.md q.mdSel []) }

/-- MD_READ. -/
def execMdRead (path : Path) (s : State) : Out := .next (regAccess path 0x40004 (mdReadCmd path) s)

/-- PWU_MD_CMD 3 (R129, R367): the binding stays. -/
def mdUnloadCmd (path : Path) (s : State) : State :=
  match mdParty s path with
  | none => s
  | some _ =>
    if slotInUse s s.seqs.mdSel then setMdErr s
    else s.modSeqs fun q => { q with md := mdel q.md q.mdSel }

/-- MD_UNLOAD. -/
def execMdUnload (path : Path) (s : State) : Out := .next (regAccess path 0x40004 (mdUnloadCmd path) s)

end Sys2Proof.Machine
end

