-- ==== Sys2Proof/Machine/Append.lean ====
section
/-! DEFINITION. Appends (05 R149 to R163, R167; 10 R311): checks, pages obtained range by range, rows written, REPLACE,
journal records and the completion. -/

namespace Sys2Proof.Machine

open Sys2Proof

/-! ### Operands and checks (R149, R151) -/

/-- An append's operands from entry offset 0x18, or from an append record (Table 5.9, R345). -/
def parseAppend (b : List Byte) : AppendSt :=
  { seq := field b 0 3, replace := bit (field b 3 1) 0, first := field b 4 4, count := field b 8 4
    firstLayer := field b 12 1, layers := field b 13 1 + 1, src := field b 22 2, addr := field b 16 6
    stride := field b 24 4 }

/-- Positions of a region (R134). -/
def maxTokens : Nat := 4194304

/-- The layers of an append. -/
def AppendSt.layerList (a : AppendSt) : List Nat := (List.range a.layers).map fun i => a.firstLayer + i

/-- The checks of R151, in order; none when all hold. `ok` says that the handle may be named. -/
def checkAppend (s : State) (ok : Bool) (a : AppendSt) : Option Ans :=
  if !ok then some (internal 0x10)
  else if a.count == 0 then some (internal 0x15)
  else if maxTokens < a.first + a.count then some { status := stLengthLimit }
  else
    let q := (seqOf s a.seq).getD {}
    let n := (seqModel s q).layers
    if !a.replace && (a.first != q.length || a.firstLayer != 0 || a.layers != n) then some (internal 0x12)
    else if n < a.firstLayer + a.layers then some (internal 0x14)
    else none

/-- The source block of each layer (R150): buffer number, address, length. -/
def sourceReads (m : Model) (a : AppendSt) : List (Nat × Nat × Nat) :=
  (List.range a.layers).map fun i => (i, (a.addr + 64 * a.stride * i) % 2 ^ 48, a.count * m.rowBytes)

/-- Row `i` of a layer's source block, as stored (R250). -/
def sourceRow (m : Model) (block : List Byte) (i : Nat) : List Byte :=
  canonRow m ((block.drop (i * m.rowBytes)).take m.rowBytes)

/-! ### Page sizes (R136) -/

/-- The largest power of two that divides a number, at most `cap`. -/
def pow2Dividing (n cap : Nat) : Nat → Nat
  | 0 => 1
  | fuel + 1 => let r := pow2Dividing n cap fuel; if 2 ^ (fuel + 1) ≤ cap && n % 2 ^ (fuel + 1) == 0 then 2 ^ (fuel + 1) else r

/-- The size of the next page at position `l` of an append that ends at `stop`: a bulk page within the append, or a
tail page. -/
def pageTokens (m : Model) (l stop : Nat) : Nat :=
  let t := 2 ^ m.tailLog2
  let bulk := ((List.range (m.bulkLog2 + 1)).reverse.map fun k => 2 ^ k).find? fun sz =>
    decide (t < sz) && l % sz == 0 && decide (l + sz ≤ stop)
  match bulk with
  | some sz => sz
  | none => if l == 0 then t else pow2Dividing l t 16

/-- The size code of a number of tokens. -/
def sizeCode (n : Nat) : Nat := Nat.log2 n - 4

/-! ### Obtaining the pages of one range (R152, R155, R156, R158) -/

/-- A new page of a sequence, with its rows: in a run, or in spill space. -/
def newPage (s : State) (q : Seq) (h layer first size : Nat) (tier : Tier) (run : Option Run) (rows : List (List Byte))
    (gen : BitVec 7) (spill : List Run := []) : Page :=
  { size := size, tier := tier, durable := q.durable, gen := gen
    home := match run with
      | some r => 16 * r.start
      | none => ((spill.head?).map (·.start)).getD 0
    spill := spill, rows := rows.length, content := .raw rows, run := run, layer := layer, first := first, seq := h, part := q.part
    tenant := q.tenant, sid := q.sid, desc := mdOf s q.model }

/-- What an append does at one layer of a range: writes in the page there, or writes in a new page that begins with
copied rows. -/
inductive Place where
  | inPlace
  | fresh (copied : List (List Byte)) (gen : BitVec 7)

/-- The place at position `l` of a layer (R155, R156). -/
def placeAt (s : State) (h layer l : Nat) : Place :=
  match (seqOf s h).bind fun q => entAt q layer l with
  | none => .fresh [] 0
  | some e =>
    let p := pageOf s h e
    let alone := match e.ref with
      | .own _ => true
      | .shared r => match recOf s r with
        | some x => decide (x.count ≤ 1)
        | none => true
    if !p.sealed && alone then .inPlace
    else .fresh (p.rowData.take (l - p.first)) (e.genOf + 1)

/-- Count what a need took: pages demoted at step 2, pages dropped at step 3. -/
def AppendSt.tally (a : AppendSt) (n : Nat × Nat) : AppendSt := { a with demotions := a.demotions + n.1, drops := a.drops + n.2 }

/-- How obtaining goes: done, a wait at some step of the ladder, or step 5. -/
inductive Got where
  | ok (a : AppendSt) (s : State)
  | wait (a : AppendSt) (s : State)
  | full (a : AppendSt) (s : State)

/-- The need of one layer of a range: nothing, or its tables and a page. `upto` is where this append's rows in the
page end; the spill page of step 4 holds them and the rows copied (R156, R161). -/
def obtainLayer (h layer l first size upto : Nat) (a : AppendSt) (s : State) : Got :=
  match placeAt s h layer l with
  | .inPlace => .ok { a with next := a.next + 1 } s
  | .fresh copied gen =>
    match seqOf s h with
    | none => .full a s
    | some q => match ensureTables h layer first size a.need s with
      | .wait d n s => .wait { a.tally n with need := d } s
      | .fail n s => .full { a.tally n with need := .top } s
      | .ok d n s =>
        let a := a.tally n
        let m := seqModel s q
        let bytes := (copied.length + (upto - l)) * m.rowBytes
        match need h q.part (framesFor (tokens size * m.rowBytes)) (some bytes) d s with
        | .got tier run spill step n s =>
          let p := newPage s q h layer first size tier run copied gen spill
          .ok { a.tally n with held := a.held ++ [(layer, p)], next := a.next + 1, need := .top } (countLadder q.part step s)
        | .wait d n s => .wait { a.tally n with need := d } s
        | .fail n s => .full { a.tally n with need := .top } (countLadder q.part 5 s)

/-- The needs of the layers still open in a range, in ascending layer. -/
def obtainLayers (h l first size upto : Nat) : List Nat → AppendSt → State → Got
  | [], a, s => .ok a s
  | layer :: rest, a, s =>
    match obtainLayer h layer l first size upto a s with
    | .ok a s => obtainLayers h l first size upto rest a s
    | r => r

/-- Pages held and not mapped go back to free space (R162), and with them the tables that held no page (R139). -/
def returnHeld (a : AppendSt) (s : State) : State :=
  dropBareTables a.seq (forEach a.held (fun x s => freeHome x.2 false s) s)

/-! ### Writing the rows of a range (R152, R155, R156) -/

/-- Map a held page: its entry is made or switched, and the page it replaces is released. -/
def mapHeld (h layer : Nat) (p : Page) (s : State) : State :=
  match (seqOf s h).bind fun q => q.pages.find? fun e => e.is layer p.first with
  | none => modSeq h (fun q => { q with pages := q.pages ++ [{ layer := layer, first := p.first, size := p.size, ref := .own p }] }) s
  | some e =>
    let s := invalidate (.seq h layer p.first) s
    let s := match e.ref with
      | .shared r => dropRef r true s
      | .own o => freeStores (.seq h layer p.first) o true s
    modSeq h (fun q => { q with pages := q.pages.map fun x => if x.is layer p.first then { x with ref := .own p } else x }) s

/-- Write rows at the end of a page. -/
def addRows (rows : List (List Byte)) (p : Page) : Page :=
  match p.content with
  | .raw old => { p with content := .raw (old ++ rows), rows := p.rows + rows.length }
  | .enc _ => p

/-- Write positions [l, w) of one layer, and seal its page when its last slot is written. -/
def writeLayer (h layer first l w : Nat) (a : AppendSt) (src : Nat → List Byte) (s : State) : State :=
  match seqOf s h with
  | none => s
  | some q =>
    let m := seqModel s q
    let block := src (layer - a.firstLayer)
    let rows := (List.range (w - l)).map fun i => sourceRow m block (l - a.first + i)
    let s := match a.held.find? fun x => x.1 == layer with
      | some (_, p) => mapHeld h layer p s
      | none => s
    match (seqOf s h).bind fun q => q.pages.find? fun e => e.is layer first with
    | none => s
    | some e =>
      let at_ := e.at_ h
      let s := modPage at_ (addRows rows) s
      match getPage s at_ with
      | some p => if p.full && p.tier == .hbm && decide (p.tokens ≤ 2 ^ m.tailLog2) then sealPage at_ s else s
      | none => s

/-- Whether a layer's page at `first` is a spill page; whether it is sealed. -/
def inSpill (s : State) (h first : Nat) (layer : Nat) : Bool :=
  match (seqOf s h).bind fun q => q.pages.find? fun e => e.is layer first with
  | some e => (pageOf s h e).tier == .hamper
  | none => false
def pageSealed (s : State) (h first : Nat) (layer : Nat) : Bool :=
  match (seqOf s h).bind fun q => q.pages.find? fun e => e.is layer first with
  | some e => (pageOf s h e).sealed
  | none => false

/-- Write a range held in every layer; the length advances (R152). -/
def writeRange (h first size l w : Nat) (a : AppendSt) (src : Nat → List Byte) (s : State) : AppendSt × State :=
  let ls := a.layerList
  let s := forEach ls (fun layer s => writeLayer h layer first l w a src s) s
  let s := modSeq h (fun q => { q with length := w }) s
  let later := ls.filter fun layer =>
    !pageSealed s h first layer && (inSpill s h first layer ||
      decide (2 ^ ((seqOf s h).map fun q => (seqModel s q).tailLog2).getD 0 < tokens size))
  let spilled := ls.any (inSpill s h first)
  ({ a with
     stored := w - a.first, held := [], next := 0
     later := nodup (a.later ++ later.map fun x => (x, first))
     spilled := if spilled then a.spilled ++ [(l, w)] else a.spilled }, s)

/-- How a run of ranges goes: all written up to the limit, waiting, or ended with a status. -/
inductive Ran where
  | upto (a : AppendSt) (s : State)
  | wait (a : AppendSt) (s : State)
  | ended (a : AppendSt) (s : State)

/-- Ranges of an append up to position `lim`, in position order (R152, R162). -/
def runRanges (src : Nat → List Byte) (lim : Nat) : Nat → AppendSt → State → Ran
  | 0, a, s => .upto a s
  | fuel + 1, a, s =>
    let l := a.first + a.stored
    let stop := a.first + a.count
    if min lim stop ≤ l then .upto a s
    else match seqOf s a.seq with
      | none => .ended { a with result := some stInternal } s
      | some q =>
        let m := seqModel s q
        let here := entAt q a.firstLayer l
        let first := (here.map (·.first)).getD l
        let size := (here.map (·.size)).getD (sizeCode (pageTokens m l stop))
        let upto := min (first + tokens size) stop
        match obtainLayers a.seq l first size upto (a.layerList.drop a.next) a s with
        | .ok a s =>
          let (a, s) := writeRange a.seq first size l (min upto lim) a src s
          runRanges src lim fuel a s
        | .wait a s => .wait a s
        | .full a s => .ended { a with held := [], next := 0, result := some stNoSpace } (returnHeld a s)

/-! ### REPLACE (R167) -/

/-- DROPPED pages of an append's range in one layer, from position `pos` on; none when the range is not covered by
whole DROPPED pages, or by a partly filled one that the range runs over from its first position to the length. -/
def droppedFrom (s : State) (q : Seq) (h layer stop : Nat) : Nat → Nat → Option (List (Nat × Nat))
  | 0, _ => some []
  | fuel + 1, pos =>
    if stop ≤ pos then some []
    else match entAt q layer pos with
      | none => none
      | some e =>
        let p := pageOf s h e
        let last := if p.rows < tokens e.size then q.length else pos + tokens e.size
        if e.first != pos || p.tier != .dropped || stop < last || (p.rows < tokens e.size && stop != last) then none
        else (droppedFrom s q h layer stop fuel (pos + tokens e.size)).map fun l => (pos, layer) :: l

/-- The pages a REPLACE refills, by position and then layer. -/
def replacePages (s : State) (a : AppendSt) : Option (List (Nat × Nat)) :=
  match seqOf s a.seq with
  | none => none
  | some q =>
    let per := a.layerList.map fun layer => droppedFrom s q a.seq layer (a.first + a.count) (a.count + 1) a.first
    if per.all (·.isSome) then
      some (sortBy (fun x y => decide (x.1 < y.1) || (x.1 == y.1 && decide (x.2 < y.2))) (per.flatMap fun l => l.getD []))
    else none

/-- Refill one page: a run by steps 1 to 3, the rows, the switch, and the seal of a full page. One found no longer DROPPED returns the
run and ends the append with INTERNAL 0x0011 (R163). -/
def replaceOne (src : Nat → List Byte) (first layer : Nat) (a : AppendSt) (s : State) : Got :=
  match seqOf s a.seq with
  | none => .full a s
  | some q => match q.pages.find? fun e => e.is layer first with
    | none => .full { a with result := some stInternal } s
    | some e =>
      let m := seqModel s q
      match need a.seq q.part (framesFor (tokens e.size * m.rowBytes)) none a.need s with
      | .wait d n s => .wait { a.tally n with need := d } s
      | .fail n s => .full { a.tally n with need := .top } (countLadder q.part 5 s)
      | .got _ run _ step n s =>
        let a := { a.tally n with need := .top }
        let p := pageOf s a.seq e
        if p.tier != .dropped then .full { a with result := some stInternal } (freeRun? q.part run s)
        else
          let k := min p.tokens (a.first + a.count - first)
          let rows := (List.range k).map fun i => sourceRow m (src (layer - a.firstLayer)) (first - a.first + i)
          let s := switchPage (e.at_ a.seq) (fun p =>
            { p with
              tier := .hbm, codec := 0, home := (run.map fun r => 16 * r.start).getD 0, rows := k, sealed := false
              content := .raw rows, run := run, desc := mdOf s q.model }) (countLadder q.part step s)
          let s := if k == p.tokens then sealPage (e.at_ a.seq) s else s
          .ok { a with replaced := a.replaced + 1 } s

/-- Refill the pages of a list, those still to do kept. -/
def runReplace (src : Nat → List Byte) : List (Nat × Nat) → AppendSt → State → Ran
  | [], a, s => .upto { a with todo := [] } s
  | (first, layer) :: rest, a, s =>
    match replaceOne src first layer { a with todo := (first, layer) :: rest } s with
    | .ok a s => runReplace src rest a s
    | .wait a s => .wait a s
    | .full a s => .ended { a with result := some (a.result.getD stNoSpace) } s

/-! ### Running an append -/

/-- The position an append writes next lies in a page that is DROPPED in some layer (R156). -/
def nextDropped (s : State) (a : AppendSt) : Bool :=
  match seqOf s a.seq with
  | none => false
  | some q => a.layerList.any fun layer => match entAt q layer (a.first + a.stored) with
    | some e => (pageOf s a.seq e).tier == .dropped
    | none => false

/-- Run an append up to a position. A partly filled page that is DROPPED ends it before a row is stored: as it begins, or where the
page was dropped while the append waited (R156). -/
def runAppend (src : Nat → List Byte) (lim : Nat) (a : AppendSt) (s : State) : Ran :=
  if a.result.isSome then .ended a s
  else if a.replace then
    if a.begun then runReplace src a.todo a s
    else match replacePages s a with
      | none => .ended { a with result := some stInternal } s
      | some l => runReplace src l { a with begun := true } s
  else if a.stored == 0 && nextDropped s a then .ended { a with held := [], next := 0, result := some stDropped } (returnHeld a s)
  else runRanges src lim (a.count + 1) { a with begun := true } s

/-! ### Journal records (R311) and the end of an append -/

/-- Largest journal record, in bytes. -/
def journalMax : Nat := 67108864

/-- Write the journal records of rows [first, first + n): each at most 64 MiB; those not acknowledged at once. -/
def writeJournal (q : Seq) (h : Nat) (m : Model) (a : AppendSt) (src : Nat → List Byte) : Nat → Nat → Nat → State → List Nat × State
  | 0, _, _, s => ([], s)
  | fuel + 1, first, n, s =>
    if n == 0 then ([], s)
    else
      let k := min n (max 1 (journalMax / (a.layers * m.rowBytes)))
      let rows := (List.range a.layers).map fun i => (List.range k).map fun j => sourceRow m (src i) (first - a.first + j)
      let (id, s) := addRec (.journal h q.sid a.firstLayer a.layers first k rows) (k * a.layers * m.rowBytes) q.tenant true none s
      let (ids, s) := writeJournal q h m a src fuel (first + k) (n - k) s
      ((if ((mget s.ftl.recs id).map (·.acked)).getD false then ids else id :: ids), s)

/-- Tokens an append has written: whole ranges, or for REPLACE the pages refilled. -/
def AppendSt.written (a : AppendSt) : Nat := if a.replace then (if a.replaced == 0 then 0 else a.count) else a.stored

/-- An append stops writing: bulk and spill pages are sealed, a durable one writes its journal records, and a page
sealed writes the SEQ record (R153, R161, R311, R316). -/
def closeAppend (src : Nat → List Byte) (before : Nat) (a : AppendSt) (s : State) : AppendSt × State :=
  match seqOf s a.seq with
  | none => ({ a with result := some (a.result.getD stOk) }, s)
  | some q =>
    let m := seqModel s q
    let s := forEach a.later (fun x s => match (seqOf s a.seq).bind fun q => q.pages.find? fun e => e.is x.1 x.2 with
      | some e => if (pageOf s a.seq e).sealed then s else sealPage (e.at_ a.seq) s
      | none => s) s
    let (ids, s) := if q.durable then writeJournal q a.seq m a src (a.written + 1) a.first a.written s else ([], s)
    let s := when (before != s.seqs.sealSeq) (catSealed a.seq) s
    ({ a with result := some (a.result.getD stOk), later := [], waitAck := ids }, s)

/-- Every journal record of an append is acknowledged. -/
def allAcked (s : State) (a : AppendSt) : Bool := a.waitAck.all fun i => ((mget s.ftl.recs i).map (·.acked)).getD true

/-- The completion of an append (Table 5.10). -/
def appendAns (a : AppendSt) : Ans :=
  let spilled := sum (a.spilled.map fun x => x.2 - x.1)
  let c := min a.drops 0xFFFF + min a.demotions 0xFFFF * 65536
  let n := if a.replace then a.replaced else a.stored
  match a.result with
  | some 0x3F => { internal 0x11 with b := a.replaced }
  | some 0x11 => { status := stDropped }
  | some 0x10 => { status := stNoSpace, a := n, c := c }
  | _ => if spilled != 0 then { status := stSpilled, a := n, b := spilled, c := c } else { status := stOk, a := n, c := c }

/-- The source bytes of an op. -/
def opSrc (o : Op) (i : Nat) : List Byte := mgetD o.bufs i []

/-- Put an append back into its op. -/
def putAppend (id : Nat) (a : AppendSt) (s : State) : State := modOp id (fun o => { o with body := .append a }) s

/-- Drive a KV_APPEND: once its source has arrived it writes, and ends when its journal records are acknowledged. -/
def driveAppend (id : Nat) (s : State) : State :=
  match mget s.ops.tab id with
  | none => s
  | some o => match o.body with
    | .append a =>
      if o.failed then finishOp id { internal 0x03 with b := a.stored } s
      else if !readsDone s id then s
      else
        let finish := fun (a : AppendSt) (s : State) =>
          if allAcked s a then finishOp id (appendAns a) s else putAppend id a s
        if !a.waitAck.isEmpty then finish a s
        else
          let before := s.seqs.sealSeq
          match runAppend (opSrc o) (a.first + a.count) a s with
          | .wait a s => putAppend id a s
          | .upto a s | .ended a s =>
            let (a, s) := closeAppend (opSrc o) before a s
            finish a s
    | _ => s

/-- The effect of KV_APPEND at its start: the checks, then the reads of its source. -/
def kvAppend (ring : Nat) (e : Entry) (s : State) : State :=
  let a := parseAppend (eInline e.raw)
  let ctx := (ringOf s ring).context
  match checkAppend s (seqOk s ctx a.seq) a with
  | some ans => endNow ring e ans s
  | none =>
    let q := (seqOf s a.seq).getD {}
    let m := seqModel s q
    let (id, s) := beginOp ring e (.append a) (countWait ctx e.arrival s)
    driveAppend id (forEach (sourceReads m a) (fun x s => beginRead (.op id x.1) a.src x.2.1 x.2.2 (ringOf s ring).key s) s)

/-- KV_APPEND (R149 to R157): appends to one sequence take their turn (R133, log 14). -/
def execKvAppend (ring : Nat) (s : State) : Out :=
  let locked := match startable s ring with
    | some e => eOpcode e.raw == opKvAppend && appending s (field (eInline e.raw) 0 3)
    | none => false
  .next (if locked then s else startOp opKvAppend ring (kvAppend ring) s)

end Sys2Proof.Machine
end

