-- ==== Sys2Proof/Machine/Mem.lean ====
section
/-! DEFINITION. Memory of the extents: bytes by Dorlink address in canonical form; an unlisted byte reads 0 (R293, R294:
an extent is zeroed before it is granted). -/

namespace Sys2Proof.Machine

open Sys2Proof

/-- The byte at an address. -/
def memByte : List Host.Cell → Nat → BitVec 8
  | [], _ => 0
  | (k, v) :: r, a => if k == a then v else memByte r a

/-- Write one byte; a byte written 0 leaves the list, so that equal memories are equal lists. -/
def memSet : List Host.Cell → Nat → BitVec 8 → List Host.Cell
  | [], a, b => if b == 0 then [] else [(a, b)]
  | (k, v) :: r, a, b =>
    if k < a then (k, v) :: memSet r a b
    else if k == a then (if b == 0 then r else (a, b) :: r)
    else if b == 0 then (k, v) :: r else (a, b) :: (k, v) :: r

/-- Keys rise strictly from `lo` on and no listed byte is 0. -/
def memRising : Nat → List Host.Cell → Bool
  | _, [] => true
  | lo, (k, v) :: r => decide (lo ≤ k) && v != 0 && memRising (k + 1) r

/-- The canonical form of memory. -/
def memWf (m : List Host.Cell) : Bool := memRising 0 m

/-- Read `n` bytes from an address on. -/
def memRead (m : List Host.Cell) (a n : Nat) : List Byte := (List.range n).map fun i => memByte m (a + i)

/-- Write bytes from an address on. -/
def memWrite : List Host.Cell → Nat → List Byte → List Host.Cell
  | m, _, [] => m
  | m, a, b :: bs => memWrite (memSet m a b) (a + 1) bs

/-- Write the bytes whose mask bit is set, from bit `i` on. -/
def memMasked : List Host.Cell → Nat → Nat → Nat → List Byte → List Host.Cell
  | m, _, _, _, [] => m
  | m, a, mask, i, b :: bs => memMasked (if bit mask i then memSet m a b else m) (a + 1) mask (i + 1) bs

/-- Clear the bytes of [a, a + n) (R299, R380). -/
def memClear (m : List Host.Cell) (a n : Nat) : List Host.Cell := m.filter fun c => !(decide (a ≤ c.1) && decide (c.1 < a + n))

end Sys2Proof.Machine
end

