-- ==== Sys2Proof/Machine/Coherence.lean ====
section
/-! DEFINITION. Coherence and extents: the home (04 R99 to R105), grants and revocation (09 R293 to R300). -/

namespace Sys2Proof.Machine

open Sys2Proof

/-! ### Lines and extents -/

/-- The line of an address. -/
def lineOf (a : Nat) : Nat := a / 64 * 64

/-- The extent an address lies in (R293). -/
def extOf (s : State) (a : Nat) : Option (Nat × Extent) :=
  if 2 ^ 48 ≤ a then none
  else match mget s.ext.table (a / 2 ^ 36) with
    | none => none
    | some x =>
      if (x.state == .active || x.state == .revoking) && decide (a % 2 ^ 36 < 2 ^ x.log2) then some (a / 2 ^ 36, x) else none

/-- Whether a line lies in extent `e`. -/
def inExt (e a : Nat) : Bool := a / 2 ^ 36 == e

/-- Update an extent. -/
def modExtent (e : Nat) (f : Extent → Extent) (s : State) : State := s.modExt fun x => { x with table := mmod x.table e f }

/-- Update the revocation of an extent. -/
def modRev (e : Nat) (f : Revoke → Revoke) (s : State) : State := modExtent e (fun x => { x with rev := x.rev.map f }) s

/-- The grant of a request (R294): whether it may write; none where its source or key is not granted. -/
def grantOf (x : Extent) (src key : Nat) : Option Bool :=
  if x.key != key then none else (x.grantees.find? fun g => g.1 == src).map (·.2)

/-- The physical HBM byte of an address of an extent. -/
def linePhys (x : Extent) (a : Nat) : Nat :=
  4096 * (nth x.runs (a % 2 ^ 36 / 2 ^ 21) ⟨0, 0⟩).start + a % 2 ^ 21

/-- The HBM controller of a physical byte, one a stack of 32 channels (R15). -/
def ctrlOf (phys : Nat) : Nat := Config.hbmChannel (phys / 2048) % 256 / 32

/-- The controller and the snoop-filter set of a line (R99). -/
def setOf (s : State) (a : Nat) : Nat × Nat :=
  match extOf s a with
  | some (_, x) => (ctrlOf (linePhys x a), Config.snoopSet (a / 64) % 32768)
  | none => (0, Config.snoopSet (a / 64) % 32768)

/-- The filter's entry for a line; none is I. -/
def lineEnt (s : State) (a : Nat) : Option LineEnt := mget s.coh.filter a

/-- Set the entry of a line, with the age it has; a new one is the latest allocated. One with no holder is freed, unless the request
in progress takes it over (R101). -/
def setLine (keep : Bool) (a : Nat) (excl : Bool) (holders : List Node) (s : State) : State :=
  s.modCoh fun c =>
    if holders.isEmpty && !keep then { c with filter := mdel c.filter a }
    else match mget c.filter a with
      | some e => { c with filter := mset c.filter a { e with excl := excl, holders := holders } }
      | none => { c with filter := mset c.filter a { excl := excl, holders := holders, alloc := c.allocSeq }, allocSeq := c.allocSeq + 1 }

/-- Set the entry of a line between transactions: one with no holder is freed. -/
def putLine (a : Nat) (excl : Bool) (holders : List Node) (s : State) : State := setLine false a excl holders s

/-- Whether a request leaves its node a holder of the line (Table 4.7). -/
def LineReq.holds (r : LineReq) : Bool :=
  match r.kind with
  | .rdS | .rdE | .upg => true
  | .rdUnc | .wb | .wrUnc | .add => false

/-- Write bytes of a line to HBM. -/
def writeLine (a : Nat) (bytes : List Byte) (s : State) : State := s.modCoh fun c => { c with mem := memWrite c.mem a bytes }

/-- Mark a line poisoned, or clear the mark (R104). -/
def poisonLine (a : Nat) (s : State) : State :=
  s.modCoh fun c => { c with poison := if c.poison.contains a then c.poison else c.poison ++ [a] }
def cleanLine (a : Nat) (s : State) : State := s.modCoh fun c => { c with poison := c.poison.filter (· != a) }

/-- `n` bytes the spec leaves open (log 5). -/
def freshBytes (n : Nat) (s : State) : List Byte × State :=
  let (v, s) := fresh (8 * n) s
  (leBytes n v.toNat, s)

/-! ### Replies -/

/-- Answer a request at the home. -/
def answerReq (r : LineReq) (typ status flags : Nat) (body : List Byte) (s : State) : State :=
  send { typ := typ, vc := 1, dst := r.src, key := r.key, tag := r.tag, addr := r.addr, status := status, flags := flags, body := body } s

/-- DATA from HBM; of a poisoned line, flagged, with status POISON (R104) and bytes the spec leaves open. -/
def answerData (r : LineReq) (s : State) : State :=
  if s.coh.poison.contains (lineOf r.addr) then
    let (b, s) := freshBytes r.len s
    answerReq r mtData stPoison 1 b s
  else answerReq r mtData stOk 0 (memRead s.coh.mem r.addr r.len) s

/-- NAK with status REVOKED. -/
def nakRevoked (r : LineReq) (s : State) : State := answerReq r mtNak stRevoked 0 [] s

/-- DATA with the poison flag and status REVOKED (R297 step 2). -/
def answerGone (r : LineReq) (s : State) : State :=
  let (b, s) := freshBytes r.len s
  answerReq r mtData stRevoked 1 b s

/-! ### Transactions on a line (R100 to R103) -/

/-- The snoops a request needs from the holders of its line (Table 4.7). -/
def snoopsFor (r : LineReq) (e : Option LineEnt) : List Snoop :=
  match e with
  | none => []
  | some e =>
    let inv := fun (n : Node) => ({ node := n, inv := true, hadE := e.excl } : Snoop)
    let others := e.holders.filter (· != r.src)
    match r.kind with
    | .rdUnc => if e.excl then others.map fun n => { node := n, inv := false, hadE := true } else []
    | .rdS =>
      if e.excl then others.map fun n => { node := n, inv := false, hadE := true }
      else if e.holders.contains r.src || decide (e.holders.length < 4) then []
      else (e.holders.take 1).map inv
    | .rdE | .upg => others.map inv
    | .wb => []
    | .wrUnc | .add => e.holders.map inv

/-- Send a snoop (R96): on the response channel. -/
def sendSnoop (a key : Nat) (n : Snoop) (s : State) : State :=
  let (tag, s) := takeTag s
  send { typ := if n.inv then mtSnpInv else mtSnpShr, vc := 1, dst := n.node, key := key, tag := tag, addr := a } s

/-- Begin a transaction: its snoops go out under the extent's key. -/
def beginTrans (a : Nat) (t : Trans) (s : State) : State :=
  let key := ((extOf s a).map fun x => x.2.key).getD 0
  forEach t.snoops (sendSnoop a key) (s.modCoh fun c => { c with txs := mset c.txs a t })

/-- A request from before a revoke point has completed (R298, R299). -/
def countBefore (r : LineReq) (s : State) : State :=
  match r.before with
  | none => s
  | some e => modRev e (fun v => { v with before := v.before - 1, afterDone := v.afterDone + 1 }) s

/-- Add FP32 values into memory, one after another (R234). -/
def addFp32 (m : List Host.Cell) (a : Nat) (bytes : List Byte) : List Host.Cell :=
  (List.range (bytes.length / 4)).foldl (fun m i =>
    memWrite m (a + 4 * i) (leBytes 4 (fadd (leNat (memRead m (a + 4 * i) 4)) (field bytes (4 * i) 4)))) m

/-- The reply and the new state of a line, once its holders have answered (Table 4.7). A read by the owner itself finds
HBM's data: the owner has dropped a clean line in silence (log 24). -/
def finishReq (r : LineReq) (s : State) : State :=
  let a := lineOf r.addr
  let e := lineEnt s a
  let held := (e.map (·.holders)).getD []
  let s := match r.kind with
    | .rdUnc => answerData r s
    | .rdS =>
      answerData r (putLine a false (if held.contains r.src then held else held ++ [r.src]) s)
    | .rdE => answerData r (putLine a true [r.src] s)
    | .upg =>
      let s := putLine a true [r.src] s
      if held.contains r.src then answerReq r mtAck stOk 0 [] s else answerData r s
    | .wb =>
      let owner := match e with
        | some x => x.excl && x.holders == [r.src]
        | none => false
      answerReq r mtAck stOk 0 [] (if owner then putLine a false [] (writeLine a r.data s) else s)
    | .wrUnc =>
      let s := s.modCoh fun c => { c with mem := memMasked c.mem a r.mask 0 r.data }
      answerReq r mtAck stOk 0 [] (if r.mask == 2 ^ 64 - 1 then cleanLine a s else s)
    | .add => s.modCoh fun c => { c with mem := addFp32 c.mem r.addr r.data }
  countBefore r s

/-- Entries of the set of a line. -/
def setEntries (s : State) (a : Nat) : List (Nat × LineEnt) := s.coh.filter.filter fun x => setOf s x.1 == setOf s a

/-- The entry to evict before a line can be allocated: the set's least recently allocated, where the set is full and the
request allocates (R101). -/
def victimFor (s : State) (r : LineReq) : Option (Nat × LineEnt) :=
  let a := lineOf r.addr
  let l := setEntries s a
  if r.holds && (lineEnt s a).isNone && decide (16 ≤ l.length) then
    l.foldl (fun best x => match best with
      | none => some x
      | some b => if x.2.alloc < b.2.alloc then some x else some b) none
  else none

/-- Serve a request to a line with no transaction in progress: done, in progress, or waiting for an eviction. -/
def serveReq (r : LineReq) (s : State) : Bool × State :=
  match victimFor s r with
  | some (v, e) =>
    (false, if mhas s.coh.txs v then s
      else beginTrans v { req := none, snoops := e.holders.map fun n => { node := n, inv := true, hadE := e.excl } } s)
  | none =>
    match snoopsFor r (lineEnt s (lineOf r.addr)) with
    | [] => (true, finishReq r s)
    | l => (true, beginTrans (lineOf r.addr) { req := some r, snoops := l } s)

/-- Serve waiting requests in order of arrival; a line whose earlier request waits holds back the later ones. -/
def serveWaiting : List LineReq → List Nat → State → State
  | [], _, s => s
  | r :: rest, blocked, s =>
    let a := lineOf r.addr
    let keep := fun (s : State) => s.modCoh fun c => { c with waiting := c.waiting ++ [r] }
    if blocked.contains a || mhas s.coh.txs a then serveWaiting rest (a :: blocked) (keep s)
    else
      let (ok, s) := serveReq r s
      if ok then serveWaiting rest blocked s else serveWaiting rest (a :: blocked) (keep s)

/-- Serve what can be served, until nothing more can. -/
def pumpReqs : Nat → State → State
  | 0, s => s
  | fuel + 1, s =>
    let l := s.coh.waiting
    let s := serveWaiting l [] (s.modCoh fun c => { c with waiting := [] })
    if s.coh.waiting.length == l.length then s else pumpReqs fuel s

/-! ### Recalls and the end of a revocation (R297 to R299) -/

/-- Start the recalls that are due: of every line of a revoking extent whose controller has scanned it and that no
earlier request holds. A line being evicted has one snoop for both (Table 9.10). -/
def startRecalls (s : State) : State :=
  forEach s.coh.filter (fun x s =>
    match extOf s x.1 with
    | none => s
    | some (e, ext) => match ext.rev with
      | none => s
      | some v =>
        let due := v.recalling && v.scanned.contains (setOf s x.1).1 && !(s.coh.waiting.any fun r => lineOf r.addr == x.1)
        let n := x.2.holders.length
        let count := fun (k : Nat) (s : State) => modRev e (fun v => { v with snoops := v.snoops + k }) s
        if !due then s
        else match mget s.coh.txs x.1 with
          | none => count n (beginTrans x.1 { req := none, recalled := some e, snoops := x.2.holders.map fun m =>
              { node := m, inv := true, hadE := x.2.excl } } s)
          | some t =>
            if t.req.isNone && t.recalled.isNone then
              count t.snoops.length (s.modCoh fun c => { c with txs := mset c.txs x.1 { t with recalled := some e } })
            else s) s

/-- The outstanding count of a revoking extent (R298). -/
def outstanding (s : State) (e : Nat) (v : Revoke) : Nat :=
  v.before + sum (s.coh.txs.map fun t => if inExt e t.1 && t.2.recalled.isSome then t.2.snoops.length else 0)

/-- Every controller has scanned, every line has been recalled, and nothing is outstanding. -/
def revokeOver (s : State) (e : Nat) (v : Revoke) : Bool :=
  v.recalling && (List.range 8).all (fun c => v.scanned.contains c) && outstanding s e v == 0 &&
    !(s.coh.filter.any fun x => inExt e x.1) && !(s.coh.txs.any fun x => inExt e x.1)

/-- Counts of Table 9.9. -/
def revokeAns (v : Revoke) : Ans :=
  let two := fun (lo hi : Nat) => min lo 0xFFFF + min hi 0xFFFF * 65536
  { status := stOk, a := two v.afterDone v.loads, b := two v.stores v.snoops, c := two v.accepted v.discarded
    loss := two v.unanswered v.linesLost }

/-- An extent becomes FREE (R299): its charge returns, its frames are freed and zeroed, its number joins the queue. -/
def freeExtent (e : Nat) (x : Extent) (s : State) : State :=
  let s := forEach x.runs (freeRun x.part) s
  let s := s.modCoh fun c =>
    { c with
      mem := memClear c.mem (e * 2 ^ 36) (2 ^ 36), poison := c.poison.filter fun a => !inExt e a
      filter := c.filter.filter fun y => !inExt e y.1 }
  s.modExt fun y => { y with table := mdel y.table e, freeQ := y.freeQ.give e }

/-- Revocations with nothing outstanding end, and their ops complete. -/
def settleExtents (s : State) : State :=
  forEach s.ext.table (fun x s =>
    match x.2.rev with
    | none => s
    | some v =>
      if revokeOver s x.1 v then
        let s := freeExtent x.1 x.2 s
        match v.op with
        | some id => finishOp id (revokeAns v) s
        | none => s
      else s) s

/-- Everything that can go on at the home goes on. -/
def pumpHome (s : State) : State := settleExtents (startRecalls (pumpReqs (s.coh.waiting.length + 1) s))

/-! ### Snoop answers -/

/-- A holder has answered, timed out or been given up: the filter follows, and the transaction ends with its last
snoop. -/
def snoopDone (a : Nat) (node : Node) (gone : Bool) (s : State) : State :=
  match mget s.coh.txs a with
  | none => s
  | some t =>
    match t.snoops.find? fun n => n.node == node with
    | none => s
    | some n =>
      let rest := t.snoops.filter fun n => n.node != node
      let keep := (t.req.map LineReq.holds).getD false
      let s := match lineEnt s a with
        | none => s
        | some e => if n.inv || gone then setLine keep a e.excl (e.holders.filter (· != node)) s else putLine a false e.holders s
      if !rest.isEmpty then s.modCoh fun c => { c with txs := mset c.txs a { t with snoops := rest } }
      else
        let s := s.modCoh fun c => { c with txs := mdel c.txs a }
        match t.req with
        | some r => finishReq r s
        | none => s

/-- A late or lost write-back of a revoking extent counts once, with its event (R297 steps 4 and 5). -/
def loseDirty (e a : Nat) (node : Node) (s : State) : State :=
  match (mget s.ext.table e).bind (·.rev) with
  | none => s
  | some v =>
    if v.lost.contains (a, node) then s
    else emit 0 0 evWbDiscard [e, node] (modRev e (fun v =>
      { v with discarded := v.discarded + 1, linesLost := v.linesLost + 1, lost := v.lost ++ [(a, node)] }) s)

/-- Dirty data reaches the home: written, and within a revocation's grace counted; false where it comes too late. -/
def takeDirty (a : Nat) (node : Node) (bytes : List Byte) (s : State) : Bool × State :=
  match extOf s a with
  | none => (false, s)
  | some (e, x) => match x.rev with
    | none => (true, writeLine a bytes s)
    | some v =>
      if v.graceOpen then (true, modRev e (fun v => { v with accepted := v.accepted + 1 }) (writeLine a bytes s))
      else (false, loseDirty e a node s)

/-- A node that held a line in E at the revoke point has handed its data in, and owes none any more. -/
def handedIn (e a : Nat) (node : Node) (s : State) : State :=
  modRev e (fun v => { v with eHolders := v.eHolders.filter (· != (a, node)) }) s

/-- Data in answer to a recall snoop that has timed out (R297 step 4): of a node that held the line in E at the revoke point, it is still
written within the grace period, and answered with NAK after it. -/
def lateData (h : Hdr) (a : Nat) (data : Option (List Byte)) (s : State) : State :=
  match data, extOf s a with
  | some bytes, some (e, x) =>
    if (x.rev.map fun (v : Revoke) => v.eHolders.contains (a, h.src)).getD false then
      let (ok, s) := takeDirty a h.src bytes (handedIn e a h.src s)
      if ok then s else nakTo h stRevoked s
    else s
  | _, _ => s

/-- SNP_RESP at the home (R102, R103, R297). -/
def snpResp (h : Hdr) (a : Nat) (data : Option (List Byte)) (wbPending : Bool) (s : State) : State :=
  match mget s.coh.txs a with
  | none => lateData h a data s
  | some t =>
    if !(t.snoops.any fun n => n.node == h.src && !n.wbPending) then lateData h a data s
    else match data with
      | some bytes =>
        let (ok, s) := takeDirty a h.src bytes (handedIn (a / 2 ^ 36) a h.src s)
        let s := if ok then s else nakTo h stRevoked s
        pumpHome (snoopDone a h.src false s)
      | none =>
        if !wbPending then pumpHome (snoopDone a h.src false s)
        else
          let late := match extOf s a with
            | some (_, x) => (x.rev.map fun (v : Revoke) => !v.graceOpen).getD false
            | none => false
          if late then pumpHome (snoopDone a h.src true (loseDirty (a / 2 ^ 36) a h.src s))
          else
            let l := t.snoops.map fun (n : Snoop) => if n.node == h.src then { n with wbPending := true } else n
            s.modCoh fun c => { c with txs := mset c.txs a { t with snoops := l } }

/-- SNP_RESP. -/
def execSnpResp (h : Hdr) (addr : Nat) (data : Option (List Byte)) (wbPending : Bool) (s : State) : Out :=
  .next (takeMsg h mtSnpResp (snpResp h addr data wbPending) s)

/-- SNOOP_TIMEOUT (R104): the holder is recorded I; a line it held in E is poisoned. -/
def execSnoopTimeout (addr : Nat) (node : Node) (s : State) : Out :=
  .next (working (fun s => match (mget s.coh.txs addr).bind fun t => t.snoops.find? fun n => n.node == node && !n.wbPending with
    | none => s
    | some n =>
      let stack := (setOf s addr).1
      let s := if n.hadE then emit 4 stack evPoison [lo32 addr, hi32 addr, 1] (poisonLine addr s) else s
      let s := match extOf s addr with
        | some (e, _) => modRev e (fun v => { v with unanswered := v.unanswered + 1, linesLost := v.linesLost + b2n n.hadE }) s
        | none => s
      pumpHome (snoopDone addr node true s)) s)

/-! ### Requests (R100, R105, R294, R297) -/

/-- A request waits its turn on its line. -/
def queueReq (r : LineReq) (s : State) : State := pumpHome (s.modCoh fun c => { c with waiting := c.waiting ++ [r] })

/-- Request-channel requests of a source that are outstanding (R98): delivered and not yet taken, at the home, or peer reads that
wait. -/
def outstandingOf (s : State) (src : Node) : Nat :=
  count (fun (m : InMsg) => m.src == src && m.vc == 0) s.link.inbox + count (fun r => LineReq.src r == src) s.coh.waiting +
    count (fun (t : Nat × Trans) => (t.2.req.map LineReq.src) == some src) s.coh.txs + count (fun r => ChainRead.src r == src) s.casc.chained

/-- A source has as many requests outstanding as the FV7 accepts, or some that wait already (R98). -/
def atLimit (s : State) (src : Node) : Bool :=
  decide (4096 ≤ outstandingOf s src) || s.coh.beyond.any fun r => r.src == src

/-- A credit is owed to the peer of a port (R95). -/
def oweCredit (port cls : Nat) (s : State) : State := modPort port (fun p => { p with owed := lmod p.owed cls fun n => n + 1 }) s

/-- A load, a store or a request for E at the ingress checker. -/
def lineRequest (r : LineReq) (s : State) : State :=
  match extOf s r.addr with
  | none => nakRevoked r s
  | some (e, x) => match grantOf x r.src r.key with
    | none => nakRevoked r s
    | some write =>
      if x.state == .revoking then
        match r.kind with
        | .wrUnc => nakRevoked r (modRev e (fun v => { v with stores := v.stores + 1 }) s)
        | _ => answerGone r (modRev e (fun v => { v with loads := v.loads + 1 }) s)
      else if write then queueReq r s
      else match r.kind with
        | .rdE | .upg => queueReq { r with kind := .rdS } s
        | .wrUnc => nakRevoked r s
        | _ => queueReq r s

/-- A request as the home sees it. -/
def mkReq (h : Hdr) (kind : ReqKind) (addr len mask : Nat) (data : List Byte) : LineReq :=
  { kind := kind, src := h.src, key := h.key, tag := h.tag, addr := addr, len := len, mask := mask, data := data }

/-- Whether the home is snooping a node for a line. -/
def snooping (s : State) (a : Nat) (node : Node) : Bool :=
  ((mget s.coh.txs a).map fun t => t.snoops.any fun n => n.node == node).getD false

/-- A write-back (R103, R297 step 4): taken as the data of a snoop in flight, or served in its turn. Its node has given the line up, so
it is no holder after that, of a SNP_SHR either: Table 4.7's S {M, N} is of an owner that keeps the line (log 24). -/
def writeBack (r : LineReq) (s : State) : State :=
  match extOf s r.addr with
  | none => nakRevoked r s
  | some (e, x) =>
    if (grantOf x r.src r.key).isNone then nakRevoked r s
    else match x.rev with
      | none =>
        if snooping s r.addr r.src then
          pumpHome (snoopDone r.addr r.src true (answerReq r mtAck stOk 0 [] (writeLine r.addr r.data s)))
        else queueReq r s
      | some v =>
        let held := v.eHolders.contains (r.addr, r.src)
        let owner := match lineEnt s r.addr with
          | some y => y.excl && y.holders == [r.src]
          | none => false
        let snooped := snooping s r.addr r.src
        if !held then answerReq r mtAck stOk 0 [] s
        else if !v.graceOpen then pumpHome (snoopDone r.addr r.src true (nakRevoked r (loseDirty e r.addr r.src s)))
        else
          let s := answerReq r mtAck stOk 0 [] (takeDirty r.addr r.src r.data (handedIn e r.addr r.src s)).2
          if snooped then pumpHome (snoopDone r.addr r.src true s)
          else if owner && !mhas s.coh.txs r.addr then pumpHome (putLine r.addr false [] s)
          else s

/-- A request that is accepted. -/
def acceptReq (r : LineReq) (s : State) : State := if r.kind == .wb then writeBack r s else lineRequest r s

/-- A request arrives: accepted, or past the 4,096 of its source it waits in the source's credits (R98). -/
def arriveReq (r : LineReq) (s : State) : State :=
  if atLimit s r.src then s.modCoh fun c => { c with beyond := c.beyond ++ [r] } else acceptReq r s

/-- Requests that wait in their sources' credits are accepted in order as the source comes below its limit, and its credits are
returned once none of it waits (R98). -/
def admitReqs (s : State) : State :=
  let s := forEach s.coh.beyond (fun r s => arriveReq r s) (s.modCoh fun c => { c with beyond := [] })
  let back := s.link.heldCredits.filter fun x => !atLimit s x.2.2
  forEach back (fun x s => oweCredit x.1 x.2.1 s) (s.modLink fun l => { l with heldCredits := l.heldCredits.filter fun x => atLimit s x.2.2 })

/-- The message of a request is taken (Table 4.7). -/
def takeReq (typ : Nat) (h : Hdr) (kind : ReqKind) (addr len mask : Nat) (data : List Byte) (s : State) : State :=
  takeMsg h typ (arriveReq (mkReq h kind addr len mask data)) (admitReqs s)

/-- RD_UNC, RD_S, RD_E, UPG, WB and WR_UNC (Table 4.7). -/
def execRdUnc (h : Hdr) (addr len : Nat) (s : State) : Out := .next (takeReq mtRdUnc h .rdUnc addr len 0 [] s)
def execRdS (h : Hdr) (addr : Nat) (s : State) : Out := .next (takeReq mtRdS h .rdS addr 64 0 [] s)
def execRdE (h : Hdr) (addr : Nat) (s : State) : Out := .next (takeReq mtRdE h .rdE addr 64 0 [] s)
def execUpg (h : Hdr) (addr : Nat) (s : State) : Out := .next (takeReq mtUpg h .upg addr 64 0 [] s)
def execWb (h : Hdr) (addr : Nat) (data : List Byte) (s : State) : Out := .next (takeReq mtWb h .wb addr 64 0 data s)
def execWrUnc (h : Hdr) (addr mask : Nat) (data : List Byte) (s : State) : Out := .next (takeReq mtWrUnc h .wrUnc addr 64 mask data s)

/-! ### EXT_GRANT (R293, R294) -/

/-- Frames of a 2 MiB unit. -/
def unitFrames : Nat := 512

/-- Take `n` runs of 2 MiB; none where one is not to be had. -/
def takeUnits (p : Nat) : Nat → State → Option (List Run × State)
  | 0, s => some ([], s)
  | n + 1, s =>
    (takeRun p unitFrames s).bind fun y => (takeUnits p n y.2).map fun x => (y.1 :: x.1, x.2)

/-- The effect of EXT_GRANT at its start. -/
def extGrant (ring : Nat) (e : Entry) (s : State) : State :=
  let il := eInline e.raw
  let n := field il 0 1
  let grace := field il 2 2
  let nodes := (List.range 4).map fun i => (field il (8 + 2 * i) 2, bit (field il 1 1) i)
  let gs := nodes.filter fun g => g.1 != 0
  let c := ctxOf s (ringOf s ring).context
  if n < 21 || 36 < n || 10000 < grace || gs.isEmpty || gs.any (fun g => g.1 == 0xFFFF) then endNow ring e (internal 0x44) s
  else match s.ext.freeQ.take with
    | none => endNow ring e { status := stNoSpace } s
    | some (x, fq) =>
      if !covers s c.part 1 (2 ^ n) then endNow ring e { status := stQuota } s
      else match takeUnits c.part (2 ^ (n - 21)) s with
        | none => endNow ring e { status := stNoSpace } s
        | some (runs, s) =>
          let (id, s) := beginOp ring e (.extGrant x) s
          s.modExt fun y =>
            { y with
              freeQ := fq
              table := mset y.table x { state := .zeroing, log2 := n, grantees := gs, key := field il 4 4, grace := grace
                                        part := c.part, tenant := c.tenant, runs := runs, op := some id } }

/-- EXT_GRANT. -/
def execExtGrant (ring : Nat) (s : State) : Out := .next (startOp opExtGrant ring (extGrant ring) s)

/-- EXT_ZERO_DONE (R294): the extent is zeroed and ACTIVE, and its EXT_GRANT completes. -/
def execExtZeroDone (ext : Nat) (s : State) : Out :=
  .next (working (fun s => match mget s.ext.table ext with
    | none => s
    | some x =>
      if x.state != .zeroing then s
      else
        let s := modExtent ext (fun x => { x with state := .active, op := none }) s
        match x.op with
        | some id => finishOp id { status := stOk, a := ext, b := x.runs.length } s
        | none => s) s)

/-! ### EXT_REVOKE (R295 to R297) -/

/-- Set the revoke point of an extent: requests in progress are before it, and the holders in E are noted. -/
def revokePoint (e : Nat) (op : Option Nat) (zero recalling : Bool) (s : State) : State :=
  let mark := fun (r : LineReq) => if inExt e r.addr then { r with before := some e } else r
  let inTx := count (fun (t : Nat × Trans) => inExt e t.1 && t.2.req.isSome) s.coh.txs
  let waits := count (fun r => inExt e (LineReq.addr r)) s.coh.waiting
  let held := (s.coh.filter.filter fun x => inExt e x.1 && x.2.excl).flatMap fun x => x.2.holders.map fun n => (x.1, n)
  let s := s.modCoh fun c =>
    { c with
      txs := c.txs.map fun t => (t.1, { t.2 with req := t.2.req.map mark }), waiting := c.waiting.map mark }
  modExtent e (fun x =>
    { x with
      state := .revoking
      rev := some { op := op, recalling := recalling, graceOpen := !zero, eHolders := held, before := inTx + waits } }) s

/-- A revocation that a context may make (R295). -/
def mayRevoke (s : State) (ctx : Nat) (x : Extent) : Bool :=
  let c := ctxOf s ctx
  x.state == .active && ((c.part == x.part && c.tenant == x.tenant) || mgmtPart s ctx == some x.part || c.tenant == 0)

/-- The ingress checker at the doorbell of an EXT_REVOKE: the op ends there, or its revoke point is set. -/
def checkRevoke (ring idx : Nat) (s : State) : State :=
  match (ringOf s ring).entries.find? fun e => e.idx == idx && e.st == .waiting with
  | none => s
  | some e =>
    if eOpcode e.raw != opExtRevoke then s
    else match preCheck s ring e with
      | .fail a => endEntry ring idx a 0 (markStarted ring idx s)
      | _ =>
        let il := eInline e.raw
        let x := field il 0 2 % 4096
        let s' := markStarted ring idx s
        match mget s.ext.table x with
        | none => endEntry ring idx (internal 0x42) 0 s'
        | some ext =>
          if !mayRevoke s (ringOf s ring).context ext then endEntry ring idx (internal 0x42) 0 s'
          else
            let (id, s) := beginOp ring e (.extRevoke x) s'
            revokePoint x (some id) (bit (field il 2 1) 0 || ext.grace == 0) false s

/-- The extent an EXT_REVOKE entry is revoking. -/
def revokingOf (s : State) (ring idx : Nat) : Option Nat :=
  s.ops.tab.findSome? fun o => match o.2.body with
    | .extRevoke e => if o.2.ring == ring && o.2.idx == idx then some e else none
    | _ => none

/-- EXT_REVOKE (R296, R297): the revoke point, where the doorbell has not already set it, and the recall begins. -/
def execExtRevoke (ring index : Nat) (s : State) : Out :=
  let s := checkRevoke ring index s
  .next (match revokingOf s ring index with
    | none => s
    | some e => pumpHome (modRev e (fun v => { v with recalling := true }) s))

/-- SNOOP_FILTER_SCAN_DONE (R297 step 3). -/
def execSnoopFilterScanDone (ctrl ext : Nat) (s : State) : Out :=
  .next (working (fun s => match (mget s.ext.table ext).bind (·.rev) with
    | none => s
    | some v =>
      if v.recalling && !v.scanned.contains ctrl then pumpHome (modRev ext (fun v => { v with scanned := v.scanned ++ [ctrl] }) s)
      else s) s)

/-- The grace period of a revoking extent ends (R297 step 5): write-backs still owed are discarded. -/
def graceEnd (ext : Nat) (s : State) : State :=
  match (mget s.ext.table ext).bind (·.rev) with
  | none => s
  | some v =>
    if !v.graceOpen then s
    else
      let owed := s.coh.txs.flatMap fun t => if inExt ext t.1 then
          (t.2.snoops.filter (·.wbPending)).map fun n => (t.1, n.node)
        else []
      let s := modRev ext (fun v => { v with graceOpen := false }) s
      pumpHome (forEach owed (fun x s => snoopDone x.1 x.2 true (loseDirty ext x.1 x.2 s)) s)

/-- GRACE_PERIOD_END. -/
def execGracePeriodEnd (ext : Nat) (s : State) : Out := .next (working (graceEnd ext) s)

end Sys2Proof.Machine
end

