-- ==== Sys2Proof/Machine/Tiers.lean ====
section
/-! DEFINITION. Tiers (09): hints, migration, heat, the background mover, moves, quotas and weight objects. -/

namespace Sys2Proof.Machine

open Sys2Proof

/-! ### Naming objects (R273, R276) -/

/-- A published block named by a handle (Table 6.5), of a context's partition and tenant. -/
def blockNamed (s : State) (ctx handle : Nat) : Option (Nat × Block) :=
  let b := handle % 2 ^ 25
  match mget s.pfx.blocks b with
  | none => none
  | some x =>
    let mine := match mget s.sec.slots (bits x.owner 4 6) with
      | some y => y.bound && y.tenant == (ctxOf s ctx).tenant
      | none => false
    if x.state == .published && x.gen == handle / 2 ^ 25 % 128 && x.part == (ctxOf s ctx).part && mine then some (b, x) else none

/-- A weight object of a context's partition and tenant. -/
def objNamed (s : State) (ctx o : Nat) : Option WtObj :=
  match mget s.wt.objs o with
  | none => none
  | some w => if w.part == (ctxOf s ctx).part && w.tenant == (ctxOf s ctx).tenant then some w else none

/-! ### OBJ_HINT (R275, R276) -/

/-- A new class and priority under the set flags. -/
def newHint (flags cls prio : Nat) (w : Nat × Nat) : Nat × Nat :=
  (if bit flags 0 then cls else w.1, if bit flags 1 then prio else w.2)

/-- The effect of OBJ_HINT. -/
def objHint (ring : Nat) (e : Entry) (s : State) : State :=
  let il := eInline e.raw
  let ctx := (ringOf s ring).context
  let kind := field il 0 1
  let flags := field il 1 1
  let cls := field il 2 1
  let prio := field il 3 1
  let id := field il 4 4
  let bad := bit flags 0 && decide (3 < cls)
  let fail := fun (n : Nat) => endNow ring e (internal n) s
  let done := fun (n : Nat) (s : State) => endNow ring e { status := stOk, a := n } s
  match kind with
  | 0 =>
    let h := id % 2 ^ 24
    if !seqOk s ctx h then fail 0x10
    else if bad then fail 0x41
    else match seqOf s h with
      | none => fail 0x10
      | some q =>
        let w := newHint flags cls prio (q.hint, q.prio)
        let own := q.pages.filter fun e => match e.ref with
          | .own _ => true
          | .shared _ => false
        let n := if w == (q.hint, q.prio) then 0 else own.length
        let s := modSeq h (fun q => { q with hint := w.1, prio := w.2 }) s
        let s := forEach own (fun e s => pinStops (e.at_ h) s) s
        done n (catSeq h true s)
  | 1 =>
    match blockNamed s ctx id with
    | none => fail 0x40
    | some (_, b) =>
      if bad then fail 0x41
      else
        let n := count (fun r => match recOf s r with
          | some x => newHint flags cls prio (x.hint, x.prio) != (x.hint, x.prio)
          | none => false) b.recs
        let s := forEach b.recs (fun r s =>
          pinStops (.rec_ r) (modRec r (fun x =>
            let w := newHint flags cls prio (x.hint, x.prio)
            { x with hint := w.1, prio := w.2 }) s)) s
        done n s
  | 2 =>
    let o := id % 2 ^ 20
    match objNamed s ctx o with
    | none => fail 0x40
    | some x =>
      if bad then fail 0x41
      else
        let w := newHint flags cls prio (x.hint, x.prio)
        let n := if w == (x.hint, x.prio) then 0 else x.tiles.length
        let s := s.modWt fun y => { y with objs := mmod y.objs o fun x => { x with hint := w.1, prio := w.2 } }
        let s := forEach (List.range x.tiles.length) (fun i s => pinStops (.tile o i) s) s
        done n s
  | _ => fail 0x41

/-- OBJ_HINT. -/
def execObjHint (ring : Nat) (s : State) : Out := .next (startOp opObjHint ring (objHint ring) s)

/-! ### Beginning a move (R281) -/

/-- Frames of a page's stores in HBM: its run, and a metadata run where it is RAW16 (R137, R253, R265). -/
def hbmFrames (a : PageAt) (p : Page) : Nat × Nat :=
  match a with
  | .tile _ _ => (16, 0)
  | _ => match p.content with
    | .raw _ => (framesFor (p.tokens * p.model.rowBytes), metaFrames p.model)
    | .enc img => (imageFrames p.model p.codec p.rows img.ol.length, 0)

/-- A metadata run of `k` frames beside `n` frames already claimed; none where it cannot be had (R253). -/
def claimMeta (part n k : Nat) (s : State) : Option Run × State :=
  if k == 0 || !covers s part 1 (frameBytes (n + k)) then (none, s)
  else match takeFree part k s with
    | some (m, s) => (some m, s)
    | none => (none, s)

/-- A tile whose image is lost (R320): its bytes are nowhere. -/
def tileLost (s : State) (a : PageAt) (p : Page) : Bool :=
  match a, p.backing.bind (mget s.ftl.images) with
  | .tile _ _, some i => i.lost
  | _, _ => false

/-- Put a promotion in flight: a run through ladder step 1 only, claimed now and charged at the switch (R286). -/
def raise (a : PageAt) (p : Page) (op : Option Nat) (heatTo : Option Nat) (lay : Nat) (s : State) : Began :=
  let (n, k) := hbmFrames a p
  if 64 ≤ movesOf s p.part then .later s
  else if !covers s p.part 1 (frameBytes n) then .never true s
  else match claimRun p.part n s with
    | none => .never false s
    | some (r, s) =>
      let (mr, s) := claimMeta p.part n k s
      let (id, s) := addMove { at_ := a, toHbm := true, part := p.part, run := some r, metaRun := mr, op := op, heatTo := heatTo, lay := lay } s
      .move id s

/-- Begin a promotion. -/
def beginUp (a : PageAt) (op : Option Nat) (heatTo : Option Nat) (lay : Nat) (s : State) : Began :=
  match getPage s a with
  | none => .never false s
  | some p => if tileLost s a p then .never false s else raise a p op heatTo lay s

/-! ### OBJ_MIGRATE (R284) -/

/-- The pages or tiles an OBJ_MIGRATE names, in order; none when the object is refused. -/
def migrateTargets (s : State) (ctx : Nat) (il : List Byte) : Option (List PageAt) :=
  let id := field il 4 4
  let first := field il 8 4
  let n := field il 12 4
  match field il 0 1 with
  | 0 =>
    let h := id % 2 ^ 24
    if !seqOk s ctx h then none
    else (seqOf s h).map fun q =>
      let l0 := field il 2 1
      let l1 := l0 + field il 3 1
      (q.pages.filter fun e =>
        decide (l0 ≤ e.layer) && decide (e.layer ≤ l1) &&
          (n == 0 || (decide (e.first < first + n) && decide (first < e.first + tokens e.size)))).map fun e => e.at_ h
  | 1 => (blockNamed s ctx id).map fun b => b.2.recs.map .rec_
  | _ => (objNamed s ctx (id % 2 ^ 20)).map fun w =>
      ((List.range w.tiles.length).filter fun i => n == 0 || (decide (first ≤ i) && decide (i < first + n))).map fun i =>
        .tile (id % 2 ^ 20) i

/-- What an OBJ_MIGRATE does with one page now. -/
inductive Fate where
  | already
  | notMoved (dropped quota : Bool) (s : State)
  | moving (id : Nat) (s : State)
  | moved (s : State)
  | wait (s : State)

def migrateOne (id : Nat) (up : Bool) (a : PageAt) (s : State) : Fate :=
  match getPage s a with
  | none => .notMoved false false s
  | some p =>
    if p.moving then .wait s
    else if p.tier == .dropped then .notMoved true false s
    else if up && p.tier == .hbm then .already
    else if !up && (p.tier == .slc || p.tier == .bulk) then .already
    else if p.tier == .hamper || p.tier == .peer || (!p.sealed && (match a with | .tile _ _ => false | _ => true)) then .notMoved false false s
    else if !up && (hintOf s a).1 == 1 then .notMoved false false s
    else match (if up then beginUp a (some id) (some s.tier.promote) 0 s else beginDown a (some id) (some 0) s) with
      | .move m s => .moving m s
      | .done s => .moved s
      | .later s => .wait s
      | .never q s => .notMoved false q s

/-- Take the pages of a migration in order until one must wait. -/
def driveMigrate (id : Nat) : Nat → State → State
  | 0, s => s
  | fuel + 1, s =>
    match mget s.ops.tab id with
    | none => s
    | some o => match o.body with
      | .migrate (a :: rest) mv al nm dr qu ms =>
        let up := field (eInline o.raw) 1 1 == 0
        let put := fun (b : OpBody) (s : State) => driveMigrate id fuel (modOp id (fun o => { o with body := b }) s)
        match migrateOne id up a s with
        | .already => put (.migrate rest mv (al + 1) nm dr qu ms) s
        | .notMoved d q s => put (.migrate rest mv al (nm + 1) (dr || d) (qu || q) ms) s
        | .moving m s => put (.migrate rest mv al nm dr qu (ms ++ [m])) s
        | .moved s => put (.migrate rest (mv + 1) al nm dr qu ms) s
        | .wait s => s
      | .migrate [] mv al nm dr qu [] =>
        finishOp id { status := if dr then stDropped else if qu then stQuota else stOk, a := mv, b := al, c := nm } s
      | _ => s

/-- Fuel for a migration: its pages, and its end. -/
def migrateFuel (s : State) (id : Nat) : Nat :=
  match mget s.ops.tab id with
  | some o => match o.body with
    | .migrate l _ _ _ _ _ _ => l.length + 1
    | _ => 0
  | none => 0
/-- Moves of a migration that are in flight no longer were abandoned: their pages are not moved (R283). -/
def dropLostMoves (id : Nat) (s : State) : State :=
  modOp id (fun o => { o with body := match o.body with
    | .migrate l mv al nm dr qu ms => .migrate l mv al (nm + count (fun m => !mhas s.tier.moves m) ms) dr qu (ms.filter (mhas s.tier.moves))
    | b => b }) s

/-- Drive a migration as far as it goes. -/
def runMigrate (id : Nat) (s : State) : State := driveMigrate id (migrateFuel s id) (dropLostMoves id s)

/-- A migration's move has ended with the page moved. -/
def migrateMoved (id mv : Nat) (s : State) : State :=
  runMigrate id (modOp id (fun o => { o with body := match o.body with
    | .migrate l n al nm dr qu ms => .migrate l (n + 1) al nm dr qu (ms.filter (· != mv))
    | b => b }) s)

/-- The effect of OBJ_MIGRATE, in the order of its checks (R276). -/
def objMigrate (ring : Nat) (e : Entry) (s : State) : State :=
  let il := eInline e.raw
  let ctx := (ringOf s ring).context
  let kind := field il 0 1
  if 2 < kind then endNow ring e (internal 0x41) s
  else match migrateTargets s ctx il with
    | none => endNow ring e (internal (if kind == 0 then 0x10 else 0x40)) s
    | some l =>
      if 1 < field il 1 1 then endNow ring e (internal 0x41) s
      else
        let (id, s) := beginOp ring e (.migrate l 0 0 0 false false []) (countWait ctx e.arrival s)
        runMigrate id s

/-- OBJ_MIGRATE. -/
def execObjMigrate (ring : Nat) (s : State) : Out := .next (startOp opObjMigrate ring (objMigrate ring) s)

/-! ### Heat (R277, R279) -/

/-- One access by a cluster of a page or tile (R277): every 2^sample_log2-th is a sample. -/
def access (cluster : Nat) (a : PageAt) (s : State) : State :=
  let n := mgetD s.tier.access cluster 0 + 1
  let s := s.modTier fun t => { t with access := mset t.access cluster n }
  if n % 2 ^ s.tier.sampleLog2 != 0 then s
  else
    let s := s.modTier fun t =>
      { t with samples := t.samples + 1, due := if (t.samples + 1) % 2 ^ 20 == 0 then t.due + 1 else t.due }
    match getPage s a with
    | none => s
    | some p => setHeat p (min 255 (heatOf s p + 1)) s

/-- A halving that is due starts its sweep, once no sweep runs. -/
def startHalving (s : State) : State :=
  if s.tier.due == 0 || s.tier.sweep then s
  else s.modTier fun t =>
    { t with
      due := t.due - 1, sweep := true, halvings := t.halvings + 1, heat := t.heat.map fun x => (x.1, x.2 / 2)
      flashHeat := t.flashHeat.map fun x => (x.1, x.2.1, x.2.2 / 2) }

/-- HEAT_HALVING (R279). -/
def execHeatHalving (s : State) : Out := .next (working startHalving s)

/-- HALVING_SWEEP_END (R279): heat is warm once the first halving has ended, and a halving that fell due meanwhile starts. -/
def execHalvingSweepEnd (s : State) : Out :=
  .next (working (fun s =>
    if s.tier.sweep then startHalving (s.modTier fun t => { t with sweep := false, warm := true, halvEnded := t.halvEnded + 1 }) else s) s)

/-! ### The background mover (R280) -/

/-- Low-water and high-water marks of a partition. -/
def lowMark (s : State) (p : Nat) : Nat := quotaLimit s p 1 / 2 ^ s.tier.lowLog2
def highMark (s : State) (p : Nat) : Nat := quotaLimit s p 1 / 2 ^ s.tier.highLog2

/-- Pages and tiles of a partition that a background move may take from a tier. -/
def movable (s : State) (part : Nat) (hot : Bool) : List (PageAt × Page) :=
  ((allPages s) ++ allTiles s).filter fun x =>
    let p := x.2
    p.part == part && !p.moving && p.sealed &&
      (if hot then p.tier == .hbm && !(s.cdc.encQ.any fun e => e.at_ == x.1) else p.tier == .slc || p.tier == .bulk)

/-- AUTO pages in HBM at or below the demote threshold, in the order of Table 5.12 step 2. -/
def coolPages (s : State) (part : Nat) : List (PageAt × Page) :=
  byKey (fun x => (heatOf s x.2, (hintOf s x.1).2))
    ((movable s part true).filter fun x => (hintOf s x.1).1 == 0 && decide (heatOf s x.2 ≤ s.tier.demote))

/-- A tile that its object's seal is still to bring to HBM (Table 9.2, log 16). -/
def toHold (s : State) (a : PageAt) : Bool :=
  match a with
  | .tile o i => ((mget s.wt.objs o).map fun w => w.toHold.contains i).getD false
  | _ => false

/-- The next background move of a partition (log 16): demotions of FLASH_ONLY then COLD, oldest seal first; demotions
of cool AUTO pages while free HBM has not come back to the high-water mark; promotions of PIN_HBM, and of AUTO tiles that their seal
brings to HBM; promotions of hot AUTO pages that leave free HBM above the low-water mark. -/
def pickMove (s : State) (part : Nat) (relief : Bool) : List (PageAt × Bool) :=
  let hot := movable s part true
  let cold := movable s part false
  let oldest := fun (l : List (PageAt × Page)) => sortBy (fun x y => decide (x.2.sealSeq < y.2.sealSeq)) l
  let ofClass := fun (c : Nat) (l : List (PageAt × Page)) => l.filter fun x => (hintOf s x.1).1 == c
  let down := (oldest (ofClass 3 hot) ++ oldest (ofClass 2 hot)).map fun x => (x.1, false)
  let auto := if relief then (coolPages s part).map fun x => (x.1, false) else []
  let pins := (ofClass 1 cold ++ (ofClass 0 cold).filter fun x => toHold s x.1).map fun x => (x.1, true)
  let warm := if s.tier.warm then
      ((ofClass 0 cold).filter fun x =>
        let f := hbmFrames x.1 x.2
        decide (s.tier.promote ≤ heatOf s x.2) &&
          decide ((lowMark s part : Int) < freeHbm s part - frameBytes (f.1 + f.2))).map fun x => (x.1, true)
    else []
  down ++ auto ++ pins ++ warm

/-- The first move of a list that can begin. -/
def firstMove : List (PageAt × Bool) → State → State
  | [], s => s
  | (a, up) :: rest, s =>
    match (if up then beginUp a none none 0 s else beginDown a none none s) with
    | .move _ s | .done s => s
    | .later _ | .never _ _ => firstMove rest s

/-- BACKGROUND_MOVE (R280). -/
def execBackgroundMove (part : Nat) (s : State) : Out :=
  .next (working (fun s =>
    let free := freeHbm s part
    let below := decide (free < lowMark s part) || (s.tier.relief.contains part && decide (free < highMark s part))
    let on := s.tier.warm && below && !(coolPages s part).isEmpty
    let s := s.modTier fun t =>
      { t with relief := if on then (if t.relief.contains part then t.relief else t.relief ++ [part]) else t.relief.filter (· != part) }
    if s.start.wearReady && decide (movesOf s part < 64) then firstMove (pickMove s part on) s else s) s)

/-! ### TIER_QUOTA_p_k (R285, R465) -/

/-- Capacity of tier k in the unit of Table 9.5 (R465). -/
def tierCap (s : State) (k : Nat) : Nat := nth s.tier.cap k 0

/-- The Tally word of a quota limit (Table 13.4). -/
def quotaWord (part k : Nat) : Nat := 0x050 + 5 * part + k

/-- A raise beyond the tier's capacity, which is refused. -/
def quotaOver (part k value : Nat) (s : State) : Bool :=
  let others := sum ((List.range (parts s).length).map fun p => if p == part then 0 else tlyNat s (quotaWord p k))
  decide (tlyNat s (quotaWord part k) < value) && decide (tierCap s k < others + value)

/-- Write a quota limit. -/
def quotaWrite (part k value : Nat) (s : State) : State :=
  if quotaOver part k value s then s.modTier fun t => { t with quotaErr := true }
  else serveBackings (tlyWrite (quotaWord part k) (BitVec.ofNat 32 value) s)

/-- TIER_QUOTA_WRITE (R285, R301): the operator's. -/
def execTierQuotaWrite (path : Path) (part k value : Nat) (s : State) : Out :=
  .next (regAccess path 0x80100 (asOperator path fun s =>
    if partExists s part && decide (k < 5) then quotaWrite part k (value % 2 ^ 32) s else s) s)

/-! ### Weight objects (R289 to R291) -/

/-- Write a WEIGHT record. -/
def catWeight (o : Nat) (s : State) : State :=
  match mget s.wt.objs o with
  | none => s
  | some w => addCat (.weight o w.oid w.size w.hint w.prio w.sealed w.digest w.part w.tenant) w.tenant true s

/-- A weight tile about to be written. -/
def tilePage (w : WtObj) (i : Nat) (bytes : List Byte) (order : Nat) : Page :=
  { tier := .slc, durable := true, rows := 1, sealed := true, content := .raw [bytes], first := i, part := w.part, tenant := w.tenant
    sealSeq := order }

/-- Tiles whose images are programmed join the object, in order. -/
def landTiles (o : Nat) : List Nat → State → List Nat × State
  | [], s => ([], s)
  | im :: rest, s =>
    match mget s.ftl.images im with
    | none => landTiles o rest s
    | some i =>
      if i.programmed then
        landTiles o rest (s.modWt fun y => { y with objs := mmod y.objs o fun w =>
          { w with tiles := w.tiles ++ [{ i.page with home := i.home, backing := some im, tier := if i.bulk then .bulk else .slc }] } })
      else (im :: rest, s)

/-- The bytes of an object, for its digest. -/
def objBytes (w : WtObj) : List Byte := w.tiles.flatMap fun p => match p.content with
  | .raw l => l.flatten
  | .enc _ => []

/-- The image of a tile has entered staging: the WT_LOAD awaits it. -/
def tileStarted (id : Nat) (body : Nat → OpBody) (r : Option (Nat × State)) (s : State) : State :=
  match r with
  | none => s
  | some (im, s) => modOp id (fun o => { o with body := body im }) s

/-- Drive a WT_LOAD: tiles enter the write path in order as their bytes arrive, and land as they are programmed. A failed read of the
source ends it at once, with the tiles that are in flash by then (R462); what was on its way there is dropped. -/
def driveLoad (id : Nat) : Nat → State → State
  | 0, s => s
  | fuel + 1, s =>
    match mget s.ops.tab id with
    | none => s
    | some o => match o.body with
      | .wtLoad obj first n seals pend =>
        match mget s.wt.objs obj with
        | none => finishOp id (internal 0x40) s
        | some w =>
          let (pend, s) := landTiles obj pend s
          let w := (mget s.wt.objs obj).getD w
          let s := modOp id (fun o => { o with body := .wtLoad obj first n seals pend }) s
          let next := w.tiles.length + pend.length
          let ended := fun (a : Ans) (s : State) => if pend.isEmpty then finishOp id a s else s
          if o.failed then finishOp id { internal 0x03 with b := w.tiles.length } (forEach pend dropImage s)
          else if first + n ≤ w.tiles.length then
            let s := if seals then
                catWeight obj (s.modWt fun y => { y with objs := mmod y.objs obj fun w =>
                  { w with sealed := true, digest := sha512 (objBytes w), toHold := if w.hint == 0 then List.range w.tiles.length else [] } })
              else s
            finishOp id { status := stOk, a := obj, b := w.tiles.length } s
          else if first + n ≤ next then s
          else match mget o.bufs (next - first) with
            | none => s
            | some bytes =>
              let p := tilePage w next bytes next
              if readOnly s then ended { status := stNoSpace, a := obj, b := w.tiles.length } s
              else if !covers s w.part 2 (4 * granuleBytes) || !slcRoom s (4 * granuleBytes) then ended { status := stQuota, a := obj, b := w.tiles.length } s
              else if accepts s w.part 4 (pageRegion (.tile obj next) p) then
                driveLoad id fuel (tileStarted id (fun im => .wtLoad obj first n seals (pend ++ [im])) (startImage (.tile obj next) p false none s) s)
              else wantRegion (pageRegion (.tile obj next) p) s
      | _ => s

/-- Fuel: every tile of the op, and its end. -/
def runLoad (id : Nat) (s : State) : State :=
  driveLoad id (match mget s.ops.tab id with
    | some o => match o.body with
      | .wtLoad _ _ n _ _ => n + 1
      | _ => 0
    | none => 0) s

/-- The effect of WT_LOAD at its start. -/
def wtLoad (ring : Nat) (e : Entry) (s : State) : State :=
  let il := eInline e.raw
  let ctx := (ringOf s ring).context
  let c := ctxOf s ctx
  let flags := field il 4 1
  let create := bit flags 0
  let seals := bit flags 1
  let first := field il 20 4
  let n := field il 24 4
  let size := field il 16 4
  let begin := fun (o : Nat) (s : State) =>
    let (id, s) := beginOp ring e (.wtLoad o first n seals []) (countWait ctx e.arrival s)
    runLoad id (forEach (List.range n) (fun i s =>
      beginRead (.op id i) (field il 14 2) ((field il 8 6 + 65536 * i) % 2 ^ 48) 65536 (ringOf s ring).key s) s)
  if create then
    match s.wt.freeQ.take with
    | none => endNow ring e { status := stNoSpace } s
    | some (o, fq) =>
      if size == 0 || decide (1048576 < size) || n == 0 || first != 0 || decide (size < n) || (seals && n != size) then
        endNow ring e (internal 0x43) s
      else match takeRun c.part (framesFor (8 * size)) s with
        | none => endNow ring e { status := if covers s c.part 1 (frameBytes (framesFor (8 * size))) then stNoSpace else stQuota } s
        | some (run, s) =>
          let (oid, s) := takeSeq 1 s
          let w : WtObj := { oid := oid, part := c.part, tenant := c.tenant, size := size, hint := field il 5 1 % 4, prio := field il 6 1, table := some run }
          begin o (catWeight o (s.modWt fun y => { y with objs := mset y.objs o w, freeQ := fq }))
  else
    let o := field il 0 4 % 2 ^ 20
    match objNamed s ctx o with
    | none => endNow ring e (internal 0x40) s
    | some w =>
      if w.sealed || first != w.tiles.length || n == 0 || decide (w.size < first + n) || (seals && first + n != w.size) then
        endNow ring e (internal 0x43) s
      else begin o s

/-- WT_LOAD (R289 to R291): with CREATE it waits for the block pass. -/
def execWtLoad (ring : Nat) (s : State) : Out :=
  let held := match startable s ring with
    | some e => eOpcode e.raw == opWtLoad && bit (field (eInline e.raw) 4 1) 0 && !s.start.wearReady
    | none => false
  .next (if held then s else startOp opWtLoad ring (wtLoad ring) s)

end Sys2Proof.Machine
end

