-- ==== Sys2Proof/Machine/Flash.lean ====
section
/-! DEFINITION. Flash (10): programming, lost granules, folds, collection, patrol, erases, the catalog, the reserve,
DISCARD and DISCARD_SECURE, and the hourly temperature bins. -/

namespace Sys2Proof.Machine

open Sys2Proof

/-! ### Error counts and thresholds (R319, R337) -/

def countErr (k : Nat) (s : State) : State := s.modFtl fun f => { f with errs := lmod f.errs k fun n => sat32 (n + 1) }

/-- Corrected bits above the rewrite threshold, a percentage of 120. -/
def overThreshold (s : State) (corrected : Nat) : Bool := decide (s.ftl.rewritePct * 120 < corrected * 100)

/-- A stripe is queued ahead of every other victim. -/
def collectSoon (id : Nat) (s : State) : State :=
  s.modFtl fun f => { f with stripes := mmod f.stripes id fun x => { x with collectFirst := true } }

/-! ### Programming records (R311, R315) -/

/-- A journal or catalog record is programmed; one not yet acknowledged is acknowledged now. None when no block takes
it. -/
def programRec (id : Nat) (s : State) : Option State :=
  match mget s.ftl.recs id with
  | none => some s
  | some r =>
    if r.programmed then some s
    else
      let use := match r.body with
        | .journal .. => 2
        | .catalog _ => 3
      let n := max 1 (ceilDiv r.bytes granuleBytes)
      (writeStripes { use := use, region := 0, who := id, seq := r.seq } (n + 1) n s).map fun x =>
        x.2.modFtl fun f => { f with recs := mmod f.recs id fun r => { r with programmed := true, acked := true, places := x.1 } }

/-- Retire a flash block (R321): it is no longer free, and an open stripe takes the least-worn free block of its die. -/
def retireBlockF (k : Nat) (s : State) : State :=
  let b := fblock s.ftl k
  let s := s.modFtl fun f => { f with blocks := mset f.blocks k { b with st := .retired, stripe := none } }
  match b.stripe with
  | none => s
  | some id =>
    match mget s.ftl.stripes id with
    | none => s
    | some st =>
      if st.freed then s.modFtl fun f => { f with stripes := erasedFrom [k] f.stripes }
      else match pickBlock s.ftl (k / 2 ^ 14) with
        | none => s.modFtl fun f => { f with stripes := mmod f.stripes id fun x => { x with blocks := x.blocks.filter (· != k) } }
        | some n => s.modFtl fun f =>
          { f with
            blocks := mupd f.blocks n {} fun y =>
              { y with erases := y.erases + 1, st := if st.closed then .closed else .opened, use := st.use, stripe := some id }
            stripes := mmod (erasedFrom [n] f.stripes) id fun x => { x with blocks := x.blocks.map fun y => if y == k then n else y } }

/-- The block of a stripe that a place lies on: 4 granules, one multi-plane page, on each block in turn (R303, log 7). -/
def blockAt (st : Stripe) (at_ : Nat) : Nat := nth st.blocks (at_ / 4 % max 1 st.blocks.length) 0

/-- The block a program into a use and region would go to next. -/
def nextBlock (f : Ftl) (use region : Nat) : Option Nat :=
  (openOf f use region).bind fun id => (mget f.stripes id).map fun st => blockAt st st.fill

/-- A program failed: the block is retired and counted, the write goes elsewhere. -/
def programFailed (use : Nat) (s : State) : State :=
  let s := countErr 5 s
  match nextBlock s.ftl use 0 with
  | none => s
  | some k => retireBlockF k s

/-! ### Stripes with nothing live (R322) -/

/-- Images and records still live, by number. -/
def liveId (f : Ftl) (id : Nat) : Bool :=
  (match mget f.images id with
   | some i => i.live
   | none => false) || (match mget f.recs id with
   | some r => r.live
   | none => false)

/-- Granules that some places have in a stripe. -/
def placesIn (id : Nat) (l : List FPlace) : Nat := sum ((l.filter fun p => p.stripe == id).map (·.n))

/-- Granules of live images and records in a stripe. -/
def stripeLive (f : Ftl) (id : Nat) : Nat :=
  sum (f.images.map fun x => if x.2.live then placesIn id x.2.places else 0) +
    sum (f.recs.map fun x => if x.2.live then placesIn id x.2.places else 0)

/-- Free a stripe's blocks; each is erased when next opened (R318). -/
def freeStripe (id : Nat) (s : State) : State :=
  s.modFtl fun f =>
    match mget f.stripes id with
    | none => f
    | some st =>
      { f with
        stripes := mset f.stripes id { st with freed := true, closed := true, parity := false, collectFirst := false, leaving := false }
        blocks := st.blocks.foldl (fun m k => mmod m k fun b => if b.st == .retired then b else { b with st := .free }) f.blocks }

/-- Closed one-bit, journal and catalog stripes with nothing live, and parity blocks with no parity that is kept, are freed (R322, R327). -/
def freeDead (s : State) : State :=
  let dead := fun (x : Nat × Stripe) => x.2.use != 0 && x.2.closed && !x.2.freed &&
    (if x.2.use == 4 then !(x.2.holds.any fun h => keepsParity s.ftl h.1) else stripeLive s.ftl x.1 == 0)
  forEach ((s.ftl.stripes.filter dead).map (·.1)) freeStripe s

/-! ### Which page an image is of -/

/-- The page that names an image as its home or backing. -/
def pageOfImage (s : State) (id : Nat) : Option (PageAt × Page) :=
  (allPages s ++ allTiles s).find? fun x => x.2.backing == some id || x.2.oldBacking == some id

/-- An uncorrectable granule (R320): the image is lost; a sequence page at home there becomes DROPPED with reason 3, a
tile reads as poisoned, a backing image is written again from the page. -/
def loseImage (id : Nat) (s : State) : State :=
  let gone := fun (s : State) => s.modFtl fun f => { f with ghosts := mdel f.ghosts id }
  match pageOfImage s id with
  | none => gone (dropImage id s)
  | some (a, p) =>
    let home := (p.tier == .slc || p.tier == .bulk) && p.backing == some id
    match a with
    | .tile _ _ =>
      if home then s.modFtl fun f => { f with images := mmod f.images id fun i => { i with lost := true } }
      else gone (dropImage id (modPage a (fun p => { p with backing := none }) s))
    | _ =>
      if home then gone (dropPageAt a 3 s)
      else
        let s := modPage a (fun p =>
          { p with
            backing := if p.backing == some id then none else p.backing
            oldBacking := if p.oldBacking == some id then none else p.oldBacking }) s
        startBacking a (sweepJournals (gone (dropImage id s)))

/-- The place that holds the granule at an index of an image or a record, and which of its granules it is. -/
def placeOf : List FPlace → Nat → Option (FPlace × Nat)
  | [], _ => none
  | p :: r, g => if g < p.n then some (p, g) else placeOf r (g - p.n)

/-- The place of a granule of an image, by its index. -/
def granulePlace (i : FImage) (g : Nat) : Option (FPlace × Nat) :=
  let u := (i.first + g) / 256
  placeOf (i.places.filter fun p => p.unit == u) (g - granulesBefore i u)

/-- The stripes a read was of: of one granule of an image, or of a record. -/
def stripesRead (f : Ftl) : FlashTarget → List Nat
  | .image id g => (((mget f.images id).bind fun i => granulePlace i g).map fun x => x.1.stripe).toList
  | .journal id => ((mget f.recs id).map fun (r : FRec) => r.places.map (·.stripe)).getD []

/-- FLASH_READ_DONE (R319, R320): the step of Table 10.10 at which the codeword was corrected, 5 for uncorrectable. -/
def execFlashReadDone (target : FlashTarget) (corrected step : Nat) (s : State) : Out :=
  .next (unlessStopped (fun s =>
    let s := when (decide (2 ≤ step)) (countErr (min step 5 - 1)) s
    if 5 ≤ step then match target with
      | .image id _ => loseImage id s
      | .journal id => s.modFtl fun f => { f with recs := mmod f.recs id fun r => { r with live := false } }
    else if overThreshold s corrected then forEach (stripesRead s.ftl target) collectSoon (countErr 0 s)
    else s) s)

/-! ### Folds (R310) -/

/-- Percentage of the one-bit buffer in use. -/
def bufferPct (s : State) : Nat := if bufferBlocks s == 0 then 0 else min 100 (bufferUsed s * 100 / bufferBlocks s)

/-- Programmed images of a unit, in order of their granules. -/
def written (s : State) (unit : Nat) : List (Nat × FImage) :=
  sortBy (fun x y => decide (x.2.first < y.2.first))
    (s.ftl.images.filter fun x => x.2.programmed && x.2.live && (unitsOf x.2).contains unit)

/-- Those that still lie in the buffer there. -/
def unfolded (s : State) (unit : Nat) : List (Nat × FImage) := (written s unit).filter fun x => !x.2.folded.contains unit

/-- An image whose last granule's map has been updated is in bulk: its charge moves, and its page's leaf (R272, R286). -/
def settleBulk (id : Nat) (s : State) : State :=
  match mget s.ftl.images id with
  | none => s
  | some i =>
    if i.bulk || !((unitsOf i).all fun u => i.folded.contains u) then s
    else
      let n := i.granules * granuleBytes
      let s := charge i.part 3 n (uncharge i.part 2 n s)
      let s := s.modFtl fun f => { f with images := mmod f.images id fun x => { x with bulk := true } }
      match pageOfImage s id with
      | some (a, p) => if p.tier == .slc && p.backing == some id then switchPage a (fun p => { p with tier := .bulk }) s else s
      | none => s

/-- The granules of an image in a unit lie in a slot now: a fold of them out of the buffer takes fresh numbers, a copy goes a generation
up (R324). -/
def slotImage (unit stripe slot id : Nat) (s : State) : State :=
  match mget s.ftl.images id with
  | none => s
  | some i =>
    let n := granulesIn i unit
    let (seq, gen, s) := if i.folded.contains unit then copyStamp i.seq i.gen n s else (s.ftl.seqNo, 0, (takeSeq n s).2)
    let p : FPlace := { stripe := stripe, at_ := 256 * slot + (max i.first (256 * unit) - 256 * unit), n := n, unit := unit, seq := seq, gen := gen }
    let i : FImage :=
      { i with
        seq := seq, gen := gen, folded := if i.folded.contains unit then i.folded else i.folded ++ [unit]
        places := i.places.filter (fun p => p.unit != unit) ++ [p] }
    s.modFtl fun f => { f with images := mset f.images id i }

/-- All that is written of a unit goes whole, in granule order, into a slot of its region (R303, R308); what it holds no granule of is
padded where `pad` says so (R310). -/
def toSlot (pad : Bool) (unit : Nat) (s : State) : Option State :=
  let l := written s unit
  (bulkSlot (mgetD s.ftl.units unit {}).region (l.map fun x => (x.1, granulesIn x.2 unit)) s).map fun r =>
    (forEach (l.map (·.1)) (slotImage unit r.1 r.2.1) r.2.2).modFtl fun f =>
      { f with units := mmod f.units unit fun x => { x with kind := 1, slot := some (r.1, r.2.1), table := none, padded := x.padded || pad } }

/-- The granules of an image in a unit go fine into an open bulk stripe, with fresh numbers. -/
def foldFine (unit : Nat) (x : Nat × FImage) (s : State) : Option State :=
  let n := granulesIn x.2 unit
  let seq := s.ftl.seqNo
  (writeStripes { use := 0, region := (mgetD s.ftl.units unit {}).region, who := x.1, unit := unit, seq := seq } (n + 1) n (takeSeq n s).2).map
    fun r =>
      let g : FImage → FImage := fun i =>
        { i with seq := seq, gen := 0, folded := i.folded ++ [unit], places := i.places.filter (fun p => p.unit != unit) ++ r.1 }
      r.2.modFtl fun f => { f with images := mmod f.images x.1 g }

/-- The bulk quota and tier cover the images of `l` whose last unit in the buffer this is (R287, R465). -/
def foldFits (unit : Nat) (l : List (Nat × FImage)) (s : State) : Bool :=
  let ends := l.filter fun x => (unitsOf x.2).all fun v => v == unit || x.2.folded.contains v
  tierRoom s 3 (sum (ends.map fun x => x.2.granules * granuleBytes)) && (nodup (ends.map fun x => x.2.part)).all fun p =>
    covers s p 3 (sum (ends.map fun x => if x.2.part == p then x.2.granules * granuleBytes else 0))

/-- No unit that takes a fine table has a lower write heat (R308). -/
def coolest (f : Ftl) (u : FUnit) : Bool := f.units.all fun x => x.2.table.isNone || decide (u.heat ≤ x.2.heat)

/-- A unit gives its fine table back, with the budget full, at its next fold or collection: it is written large, when all that is
allocated is written (R308, log 7). -/
def returnsTable (unit : Nat) (s : State) : Bool :=
  let u := mgetD s.ftl.units unit {}
  fineFull s && u.table.isSome && coolest s.ftl u && sum ((written s unit).map fun x => granulesIn x.2 unit) == u.alloc

/-- The fold of a unit's written granules into a bulk stripe of its region: large, large and padded, or fine; none where it waits. -/
def foldUnit (unit : Nat) (s : State) : Option State :=
  let l := unfolded s unit
  let u := mgetD s.ftl.units unit {}
  let n := sum ((written s unit).map fun x => granulesIn x.2 unit)
  let whole := u.alloc == 256 && n == 256 && decide (u.heat < 4)
  let pad := returnsTable unit s || (u.table.isNone && fineFull s && n == u.alloc && decide (75 < bufferPct s))
  if l.isEmpty || !mapReady s || !foldFits unit l s then none
  else if whole then toSlot false unit s
  else if pad then toSlot true unit s
  else
    let s := takeTable unit s
    if (mgetD s.ftl.units unit {}).table.isNone then none
    else (l.foldl (fun (acc : Option State) x => acc.bind (foldFine unit x)) (some s)).map fun s =>
      s.modFtl fun f => { f with units := mmod f.units unit fun x => { x with kind := 2, slot := none } }

/-- FOLD (R310). -/
def execFold (unit : Nat) (s : State) : Out :=
  .next (working (fun s => match foldUnit unit s with
    | none => s
    | some t => freeDead (forEach ((unfolded s unit).map (·.1)) settleBulk t)) s)

/-! ### Collection (R322 to R325) -/

/-- Victims on a die: stripes queued first, then the closed bulk stripe with the fewest live granules, the oldest on a
tie. -/
def victimOn (s : State) (die : Nat) : Option (Nat × Stripe) :=
  let here := s.ftl.stripes.filter fun x => x.2.closed && !x.2.freed && x.2.use == 0 && x.2.blocks.any fun k => k / 2 ^ 14 == die
  let key := fun (x : Nat × Stripe) => (b2n (!x.2.collectFirst), stripeLive s.ftl x.1, x.2.opened)
  here.foldl (fun best x => match best with
    | none => some x
    | some b =>
      let (a1, a2, a3) := key x
      let (b1, b2, b3) := key b
      if a1 < b1 || (a1 == b1 && (decide (a2 < b2) || (a2 == b2 && decide (a3 < b3)))) then some x else some b) none

/-- One place of an image or a record is copied to the open stripe of the same use and region, a generation up (R323, R324). -/
def copyPlace (use region who : Nat) (p : FPlace) (s : State) : Option (List FPlace × State) :=
  let r := copyStamp p.seq p.gen p.n s
  writeStripes { use := use, region := region, who := who, unit := p.unit, seq := r.1, gen := r.2.1 } (p.n + 1) p.n r.2.2

/-- The places of `who` that lie in a stripe are copied, the others stay. -/
def copyPlaces (id use region who : Nat) (l : List FPlace) (s : State) : Option (List FPlace × State) :=
  l.foldl (fun (acc : Option (List FPlace × State)) p => acc.bind fun a =>
    if p.stripe == id then (copyPlace use region who p a.2).map fun r => (a.1 ++ r.1, r.2) else some (a.1 ++ [p], a.2)) (some ([], s))

/-- The last of an image's places, by which its number and generation go. -/
def stampOf (i : FImage) (l : List FPlace) : Nat × Nat :=
  l.foldl (fun b p => if b.1 < p.seq || (b.1 == p.seq && decide (b.2 < p.gen)) then (p.seq, p.gen) else b) (i.seq, i.gen)

/-- The granules of an image that lie in a stripe are copied out of it. -/
def copyImage (id : Nat) (st : Stripe) (im : Nat) (s : State) : Option State :=
  match mget s.ftl.images im with
  | none => some s
  | some i => (copyPlaces id st.use st.region im i.places s).map fun r =>
    let x := stampOf i r.1
    let i : FImage := { i with places := r.1, seq := x.1, gen := x.2 }
    r.2.modFtl fun f => { f with images := mset f.images im i }

/-- The granules of a record that lie in a stripe are copied out of it. -/
def copyRec (id : Nat) (st : Stripe) (who : Nat) (s : State) : Option State :=
  match mget s.ftl.recs who with
  | none => some s
  | some r => (copyPlaces id st.use st.region who r.places s).map fun t =>
    let r : FRec := { r with places := t.1 }
    t.2.modFtl fun f => { f with recs := mset f.recs who r }

/-- Do a list of copies, none when one of them finds no room. -/
def copyAll (l : List Nat) (f : Nat → State → Option State) (s : State) : Option State :=
  l.foldl (fun (acc : Option State) x => acc.bind (f x)) (some s)

/-- Large units with a slot in a stripe. -/
def largeIn (f : Ftl) (id : Nat) : List Nat := (f.units.filter fun x => x.2.kind == 1 && x.2.slot.map (·.1) == some id).map (·.1)

/-- Large units in the stripe with at most 192 live granules are copied fine, each when a fine table is free (R323). -/
def refine (id : Nat) (s : State) : State :=
  forEach (largeIn s.ftl id) (fun u s =>
    if (mgetD s.ftl.units u {}).alloc ≤ 192 && !fineFull s then
      takeTable u (s.modFtl fun f => { f with units := mmod f.units u fun x => { x with kind := 2, slot := none, padded := false } })
    else s) s

/-- The parity of stripes that keep it is programmed again elsewhere, and no longer counts as held where it was (R329 step 4). -/
def moveParity (st : Stripe) (s : State) : State :=
  forEach (st.holds.filter fun h => keepsParity s.ftl h.1) (fun h s => writeParity h.1 (h.2 / 4) s) s

/-- Copy what is live in a stripe out of it (R323): large units whole, units that give their fine table back (R308), and the rest granule
by granule. None when no open stripe takes it. -/
def copyOut (id : Nat) (s : State) : Option State :=
  match mget s.ftl.stripes id with
  | none => some s
  | some st => if st.use == 4 then some (moveParity st s) else
    let s := refine id s
    let here := fun (s : State) => s.ftl.images.filter fun x => x.2.live && placesIn id x.2.places != 0
    let back := (nodup ((here s).flatMap fun x => (x.2.places.filter fun p => p.stripe == id).map (·.unit))).filter fun u =>
      st.use == 0 && returnsTable u s && mapReady s
    ((copyAll (largeIn s.ftl id) (toSlot false) s).bind (copyAll back (toSlot true))).bind fun s =>
      (copyAll ((here s).map (·.1)) (copyImage id st) s).bind fun s =>
        copyAll ((s.ftl.recs.filter fun x => x.2.live && placesIn id x.2.places != 0).map (·.1)) (copyRec id st) s

/-- GC_COLLECT (R322, R323): on a die below 2 % free blocks, or for a stripe queued first. -/
def execGcCollect (die : Nat) (s : State) : Out :=
  .next (working (fun s => if !mapReady s then s
    else match victimOn s die with
      | none => s
      | some (id, st) =>
        if dieCollects s.ftl die || st.collectFirst then
          -- the victim is not itself the target of its copies
          match copyOut id s with
          | some s => freeDead (freeStripe id s)
          | none => s
        else s) s)

/-- STRIPE_CLOSE_VERIFY (R327): the closed stripe reads back, and its parity is released, or it is collected first and
keeps it. -/
def execStripeCloseVerify (stripe corrected : Nat) (s : State) : Out :=
  .next (working (fun s => match mget s.ftl.stripes stripe with
    | some st =>
      if st.closed && !st.freed then
        if overThreshold s corrected then collectSoon stripe s
        else freeDead (s.modFtl fun f => { f with stripes := mset f.stripes stripe { st with parity := false } })
      else s
    | none => s) s)

/-- FLASH_PATROL (R319). -/
def execFlashPatrol (stripe corrected : Nat) (s : State) : Out :=
  .next (working (fun s => match mget s.ftl.stripes stripe with
    | some st =>
      if s.ftl.patrolEn && st.closed && !st.freed && overThreshold s corrected then collectSoon stripe (countErr 0 s) else s
    | none => s) s)

/-- WRITE_HEAT_HALVING (R308): after 2^20 samples every write heat halves. -/
def execWriteHeatHalving (s : State) : Out :=
  .next (working (fun s => if s.ftl.heatSamples < 2 ^ 20 then s
    else s.modFtl fun f =>
      { f with heatSamples := f.heatSamples - 2 ^ 20, units := f.units.map fun x => (x.1, { x.2 with heat := x.2.heat / 2 }) }) s)

/-- Some record of the catalog, live, says so. -/
def catalogHas (f : Ftl) (p : CatRec → Bool) : Bool :=
  f.recs.any fun x => match x.2.body with
    | .catalog c => x.2.live && p c
    | .journal .. => false

/-- A catalog record that is still needed: a closed SEQ record while an open sequence names it as parent or a BLOCK names it as publisher,
any other while no later one has taken its place (R316). -/
def catNeeded (f : Ftl) (r : FRec) : Bool :=
  match r.body with
  | .catalog (.seq _ sid false ..) => r.live && catalogHas f fun c => match c with
      | .seq _ _ open_ _ _ _ _ _ _ _ _ parent _ => open_ && parent == sid
      | .block bid _ _ _ _ _ _ pub _ _ => pub == sid && !catalogHas f fun d => d == .retire bid
      | _ => false
  | .catalog _ => r.live
  | .journal .. => false

/-- Bytes of the catalog, all records and those needed. -/
def catalogBytes (f : Ftl) (needed : Bool) : Nat :=
  sum (f.recs.map fun x => match x.2.body with
    | .catalog _ => if needed && !catNeeded f x.2 then 0 else x.2.bytes
    | .journal .. => 0)

/-- A compaction drops the programmed catalog records that are no longer needed (R316). -/
def keptRec (f : Ftl) (r : FRec) : Bool :=
  match r.body with
  | .catalog _ => catNeeded f r || !r.programmed
  | .journal .. => true

/-- CATALOG_COMPACTION (R316): a catalog above twice its live records keeps only those, once writes have begun (R77). -/
def execCatalogCompaction (s : State) : Out :=
  .next (working (fun s => if !s.start.wearReady || decide (catalogBytes s.ftl false ≤ 2 * catalogBytes s.ftl true) then s
    else freeDead (s.modFtl fun f => { f with recs := f.recs.filter fun x => keptRec f x.2 })) s)

/-- RESERVE_REFILL (R313): every reserve block is erased and open again. -/
def execReserveRefill (s : State) : Out :=
  .next (working (fun s => if s.start.wearReady then s.modFtl fun f => { f with reserveUsed := 0, reserveReady := true } else s) s)

/-- The temperature bin, 5 °C wide from `low` on (R336). -/
def tempBin (low : Int) (t : Int) : Nat := if t < low then 0 else min 15 (((t - low) / 5).toNat + 1)

/-- HOUR_OF_SERVICE (R336, Table 13.4): one junction bin, one flash bin and the hours of service count the hour. -/
def execHourOfService (junction flash : Int) (s : State) : Out :=
  .next (working (fun s =>
    let up := fun (w : Nat) (s : State) => tlyWrite w (s.tly.word w + 1) s
    up (0x0B0 + tempBin 25 flash) (up (0x0A0 + tempBin 40 junction) (up 0x0C0 s))) s)

/-! ### DISCARD and DISCARD_SECURE (R328 to R330) -/

/-- Streams and loads in progress on a weight object. -/
def objBusy (s : State) (o : Nat) : Bool :=
  s.ops.tab.any fun x => match x.2.body with
    | .stream obj .. => obj == o
    | .wtLoad obj .. => obj == o
    | _ => false

/-- Free a weight object with its tiles and its tile table; its END record is written. Tiles freed. -/
def freeObj (o : Nat) (s : State) : Nat × State :=
  match mget s.wt.objs o with
  | none => (0, s)
  | some w =>
    let s := forEach (List.range w.tiles.length) (fun i s => freeStores (.tile o i) (nth w.tiles i {}) false s) s
    let s := freeRun? w.part w.table s
    let s := s.modWt fun x => { x with objs := mdel x.objs o, freeQ := x.freeQ.give o }
    (w.tiles.length, addCat (.end_ w.oid) w.tenant true s)

/-- Retire a block by a handle as PFX_RETIRE does (R199): refused (none), or the pages released and the pages kept. -/
def retireNamed (ctx handle : Nat) (key : List Byte) (force : Bool) (s : State) : Option (Nat × Nat × State) :=
  let b := handle % 2 ^ 25
  match mget s.pfx.blocks b with
  | none => none
  | some x =>
    let c := ctxOf s ctx
    let mine := match mget s.sec.slots (bits x.owner 4 6) with
      | some y => y.bound && y.tenant == c.tenant
      | none => false
    let boss := (partOf s c.part).mgmtValid && (partOf s c.part).mgmtCtx == ctx
    if x.state != .published || x.gen != handle / 2 ^ 25 % 128 || x.key != key || bits x.owner 0 4 != c.part || !mine ||
        (x.locked && !force) || (force && !boss) then none
    else
      let (freed, s) := retireBlock b s
      some (freed, x.recs.length - freed, s)

/-- What a discard unmaps: how many freed and kept, the state; none when it is refused; `later` when it waits. -/
inductive Unmapped where
  | refused (sub : Nat)
  | later
  | done (freed kept : Nat) (s : State)

/-- Unmap the object of a DISCARD. -/
def unmapObject (ctx : Nat) (il key : List Byte) (s : State) : Unmapped :=
  let id := field il 4 4
  match field il 0 1 with
  | 0 =>
    let h := id % 2 ^ 24
    if seqBusy s h then .later
    else
      let (released, freed, s) := closeSeq h s
      .done freed (released - freed) s
  | 1 =>
    let c := ctxOf s ctx
    let boss := (partOf s c.part).mgmtValid && (partOf s c.part).mgmtCtx == ctx
    match retireNamed ctx id key boss s with
    | none => .refused 0x24
    | some (f, k, s) => .done f k s
  | _ =>
    let o := id % 2 ^ 20
    if objBusy s o then .later
    else
      let (n, s) := freeObj o s
      .done n 0 s

/-- Images and records unmapped between two states. -/
def secureSet (s t : State) : List Nat :=
  ((s.ftl.images.filter fun x => !mhas t.ftl.images x.1).map (·.1)) ++
    ((s.ftl.recs.filter fun x => x.2.live && !liveId t.ftl x.1).map (·.1))

/-- Granules that an op withholds until its erase has ended (R329 step 2). -/
def withholdOf (op : Nat) (s : State) (ids : List Nat) : List (Nat × Nat × Nat) :=
  s.ftl.images.filterMap fun x => if ids.contains x.1 then some (op, x.2.first, x.2.granules) else none

/-- Erase a listed stripe: closed if open, its other live data copied out, its blocks to be erased (R329 step 4). What finds no room stays
until it is tried again. -/
def evacuate (id : Nat) (s : State) : State :=
  let s := (closeStripe id s).modFtl fun f => { f with stripes := mmod f.stripes id fun x => { x with leaving := true } }
  match copyOut id s with
  | some s => freeStripe id s
  | none => s

/-- Begin the erase of what a DISCARD_SECURE unmapped: blocks to erase, copies they hold, and the state. -/
def beginErase (ids : List Nat) (hold : List (Nat × Nat × Nat)) (s : State) : List Nat × Nat × State :=
  let data := s.ftl.stripes.filter fun x => x.2.use != 4 && x.2.holds.any fun h => ids.contains h.1
  let listed := data ++ s.ftl.stripes.filter fun x => x.2.use == 4 && x.2.holds.any fun h => mhas data h.1
  let copies := sum (data.map fun x => sum (x.2.holds.map fun h => if ids.contains h.1 then h.2 else 0))
  let blocks := listed.flatMap fun x => x.2.blocks
  let s := s.modFtl fun f =>
    { f with
      recs := f.recs.filter fun x => !(ids.contains x.1 && !x.2.live), ghosts := f.ghosts.filter fun x => !ids.contains x.1 }
  let s := forEach (listed.map (·.1)) evacuate s
  (blocks, copies, s.modFtl fun f => { f with withheld := f.withheld ++ hold, secure := f.secure + 1 })

/-- A DISCARD_SECURE is over: the granules it withheld are free. -/
def eraseEnded (id : Nat) (s : State) : State :=
  s.modFtl fun f => { f with secure := f.secure - 1, withheld := f.withheld.filter fun x => x.1 != id }

/-- Stripes among whose blocks are some that an erase waits for, with live data still in them. -/
def unemptied (f : Ftl) (blocks : List Nat) : List Nat :=
  (f.stripes.filter fun x => x.2.leaving && x.2.blocks.any blocks.contains).map (·.1)

/-- Drive a discard: it unmaps once its object is idle, and a secure one ends when every block is erased. -/
def driveDiscard (id : Nat) (s : State) : State :=
  match mget s.ops.tab id with
  | none => s
  | some o => match o.body with
    | .discard secure kind obj done freed kept copies n blocks =>
      if !done then
        let before := s
        match unmapObject o.ctx (eInline o.raw) ((mgetD o.bufs 0 [])) s with
        | .refused sub => finishOp id (internal sub) s
        | .later => s
        | .done f k s =>
          if !secure then finishOp id { status := stOk, a := f, b := k } s
          else
            let ids := secureSet before s
            let (blocks, copies, s) := beginErase ids (withholdOf id before ids) s
            let s := modOp id (fun o => { o with body := .discard secure kind obj true f k copies blocks.length blocks }) s
            if blocks.isEmpty then finishOp id { status := stOk, a := f, b := k, c := copies } (eraseEnded id s) else s
      else if blocks.isEmpty then
        finishOp id { status := stOk, a := freed, b := kept, c := copies, loss := n } (eraseEnded id s)
      else forEach (unemptied s.ftl blocks) evacuate s
    | _ => s

/-- The effect of DISCARD or DISCARD_SECURE at its start, with the refusals of R126, R199 and R276. -/
def discardOp (secure : Bool) (ring : Nat) (e : Entry) (s : State) : State :=
  let il := eInline e.raw
  let ctx := (ringOf s ring).context
  let kind := field il 0 1
  let id := field il 4 4
  let refused := match kind with
    | 0 => if seqOk s ctx (id % 2 ^ 24) then none else some 0x10
    | 1 => none
    | 2 => if (objNamed s ctx (id % 2 ^ 20)).isSome then none else some 0x40
    | _ => some 0x41
  match refused with
  | some sub => endNow ring e (internal sub) s
  | none =>
    let (op, s) := beginOp ring e (.discard secure kind id false 0 0 0 0 []) s
    let s := modOp op (fun o => { o with bufs := [(0, e.operands.getD [])] }) s
    let s := if kind == 0 then modSeq (id % 2 ^ 24) (fun q => { q with closing := true }) s else s
    driveDiscard op s

/-- Discards of a ring that wait for their object go on. -/
def driveDiscards (s : State) : State :=
  forEach s.ops.tab (fun o s => match o.2.body with
    | .discard .. => driveDiscard o.1 s
    | _ => s) s

/-- DISCARD (R328). -/
def execDiscard (ring : Nat) (s : State) : Out := .next (driveDiscards (startOp opDiscard ring (discardOp false ring) s))

/-- DISCARD_SECURE (R329). -/
def execDiscardSecure (ring : Nat) (s : State) : Out :=
  .next (driveDiscards (startOp opDiscardSecure ring (discardOp true ring) s))

/-- An erased block leaves the discard that waits for it. -/
def offDiscard (k : Nat) (o : Nat × Op) : Nat × Op :=
  match o.2.body with
  | .discard sec kind obj done fr ke co n bl => (o.1, { o.2 with body := .discard sec kind obj done fr ke co n (bl.filter (· != k)) })
  | _ => o

/-- FLASH_ERASE_DONE (R318, R321): a good erase removes the block's old data; a failed one retires the block. A
DISCARD_SECURE that waited for the block goes on, and its granules are released with its last. -/
def execFlashEraseDone (die block : Nat) (ok : Bool) (s : State) : Out :=
  .next (unlessStopped (fun s =>
    let k := blockKey die block
    let b := fblock s.ftl k
    let s := if ok then
        (if b.st == .free then s.modFtl fun f =>
          { f with stripes := erasedFrom [k] f.stripes, blocks := mset f.blocks k { b with erases := b.erases + 1, stripe := none } }
        else s)
      else retireBlockF k (countErr 6 s)
    driveDiscards (when (unemptied s.ftl [k]).isEmpty (fun s => s.modOps fun x => { x with tab := x.tab.map (offDiscard k) }) s)) s)

end Sys2Proof.Machine
end

