-- ==== Sys2Proof/Machine/Prefix.lean ====
section
/-! DEFINITION. The prefix store (06): keys, searches and their verification, policy, attaching and
retiring. -/

namespace Sys2Proof.Machine

open Sys2Proof

/-! ### Keys and owner classes (R170, R172) -/

/-- Owner class of a request (Table 6.1). -/
def ownerOf (part slot adapter : Nat) : Nat := pack [(0, part % 16), (4, slot % 64), (10, adapter % 64)]

/-- The full key of a block (R170). -/
def fullKey (md : List Byte) (adapter : Nat) (parent tokens : List Byte) : List Byte :=
  sha512 ([0x46, 0x56, 0x50, 0x4B] ++ sha512 md ++ leBytes 4 adapter ++ leBytes 1 (field md 7 1 % 16) ++ [0, 0, 0] ++ parent ++ tokens)

/-- The tag of a key. -/
def tagOf (key : List Byte) : Nat := field key 0 8

/-! ### The policy region (R188, R189) -/

/-- Action of the lowest-numbered row that matches: 1 BLOCK, 2 PIN, 0 none. -/
def policyFor (s : State) (owner : Nat) : Nat :=
  ((s.pfx.pol.find? fun r => owner &&& r.mask == r.value &&& r.mask).map (·.action)).getD 0

/-- Banks of a bank set. -/
def banksOf (set : Nat) : List Nat := bitsOf 32 set

/-! ### Searches (R175, R176) and verification (R179, R180) -/

/-- Key of an exact row in the table. -/
def rowKey (bank row : Nat) : Nat := 65536 * bank + row

/-- The best of a list of rows: highest priority, the first on a tie. -/
def bestRow (l : List (Nat × Row)) : Option (Nat × Row) :=
  l.foldl (fun best x => match best with
    | none => some x
    | some b => if b.2.prio < x.2.prio then some x else some b) none

/-- The winner of a tag in the banks of a set (R176): rows in order of bank, then row. A bank being rebuilt is not read
(R400). -/
def searchTag (s : State) (set tag owner : Nat) : Option (Nat × Row) :=
  bestRow (s.pfx.rows.filter fun x =>
    bit set (x.1 / 65536) && !s.pfx.rebuilding.contains (x.1 / 65536) && x.2.tag == tag && x.2.owner == owner)

/-- The winner of a tag in its overflow bucket (R182). -/
def searchOvf (s : State) (tag owner : Nat) : Option (Nat × Row) :=
  bestRow (s.pfx.ovf.filter fun x => x.1 / 4 == tag % 2 ^ 26 && x.2.tag == tag && x.2.owner == owner)

/-- Whether a hit is verified (R179). -/
def verified (s : State) (r : Row) (owner : Nat) (key : List Byte) : Bool :=
  match mget s.pfx.blocks r.block with
  | none => false
  | some b => b.state == .published && b.gen == r.gen && b.owner == owner && b.key == key

/-- Whether a block's location names a place. -/
def Block.at_ (b : Block) (ovf : Bool) (k : Nat) : Bool :=
  match b.loc with
  | some (.array bank row) => !ovf && k == rowKey bank row
  | some (.overflow bucket slot) => ovf && k == 4 * bucket + slot
  | none => false

/-- Scrub a row or slot (R180): rewritten from the block it points to when that block is published there, else cleared. -/
def scrubRow (ovf : Bool) (k : Nat) (s : State) : State :=
  let m := if ovf then s.pfx.ovf else s.pfx.rows
  match mget m k with
  | none => s
  | some r =>
    let put := fun (m : AMap Row) => s.modPfx fun p => if ovf then { p with ovf := m } else { p with rows := m }
    match mget s.pfx.blocks r.block with
    | none => put (mdel m k)
    | some b =>
      if b.state == .published && b.at_ ovf k then put (mset m k { r with tag := tagOf b.key, owner := b.owner, prio := b.prio })
      else put (mdel m k)

/-- A hit that fails verification is counted and its row scrubbed (R180). -/
def verifyFailed (ovf : Bool) (k : Nat) (s : State) : State :=
  scrubRow ovf k (s.modPfx fun p => { p with verifyFail := sat32 (p.verifyFail + 1) })

/-- What a key gives in a lookup: nothing yet, a verified hit, or a hit that failed. -/
inductive KeyHit where
  | miss
  | hit (r : Row)
  | failed
  deriving DecidableEq

def KeyHit.row : KeyHit → Option Row
  | .hit r => some r
  | _ => none

/-- Verify a winner. -/
def checkHit (ovf : Bool) (owner : Nat) (key : List Byte) (w : Option (Nat × Row)) (s : State) : KeyHit × State :=
  match w with
  | none => (.miss, s)
  | some (k, r) => if verified s r owner key then (.hit r, s) else (.failed, verifyFailed ovf k s)

/-- The array's winners of a list of keys, counted. -/
def searchArray (set owner : Nat) (keys : List (List Byte)) (s : State) : List (Option (Nat × Row)) × State :=
  let l := keys.map fun k => searchTag s set (tagOf k) owner
  (l, s.modPfx fun p => { p with searches := sat32 (p.searches + 1), tagHits := sat32 (p.tagHits + count (·.isSome) l) })

/-- Verify every array hit up to the first tag that misses (R179). -/
def verifyArray (owner : Nat) : List (List Byte × Option (Nat × Row)) → State → List KeyHit × State
  | [], s => ([], s)
  | (key, w) :: rest, s =>
    match w with
    | none => (.miss :: rest.map fun _ => .miss, s)
    | some _ =>
      let (h, s) := checkHit false owner key w s
      let (l, s) := verifyArray owner rest s
      (h :: l, s)

/-- One key searched in the overflow table, counted, its 1.2 µs (1,260 CCLK) on the search core charged to the requesting context
(R182, R342). -/
def searchOvfKey (ctx owner : Nat) (key : List Byte) (s : State) : KeyHit × State :=
  let s := chargeCore ctx 1260 (s.modPfx fun p => { p with ovfTags := sat32 (p.ovfTags + 1) })
  checkHit true owner key (searchOvf s (tagOf key) owner) s

/-- The overflow table from the first key that is not a verified hit, one key at a time, until one gives none (R181). -/
def searchOverflow (ctx owner : Nat) : List (List Byte × KeyHit) → State → List KeyHit × State
  | [], s => ([], s)
  | (key, h) :: rest, s =>
    match h with
    | .hit r =>
      let (l, s) := searchOverflow ctx owner rest s
      (.hit r :: l, s)
    | h =>
      match searchOvfKey ctx owner key s with
      | (.hit r, s) =>
        let (l, s) := searchOverflow ctx owner rest s
        (.hit r :: l, s)
      | (.failed, s) => (.failed :: rest.map (·.2), s)
      | (.miss, s) => (h :: rest.map (·.2), s)

/-- Whether the partition holds an overflow slot of an owner class. -/
def hasOvf (s : State) (owner : Nat) : Bool := s.pfx.ovf.any fun x => x.2.owner == owner

/-- The hits of a local lookup. -/
def localHits (ctx set owner : Nat) (keys : List (List Byte)) (s : State) : List KeyHit × State :=
  let (w, s) := searchArray set owner keys s
  let (l, s) := verifyArray owner (keys.zip w) s
  if hasOvf s owner then searchOverflow ctx owner (keys.zip l) s else (l, s)

/-- The run of verified hits from the first. -/
def runOf (l : List KeyHit) : Nat := (l.takeWhile fun h => h.row.isSome).length

/-! ### Tier hints and handles -/

/-- The slowest tier among a block's pages (Table 6.2). -/
def tierHint (s : State) (recs : List Nat) : Nat :=
  maxOf (recs.map fun (r : Nat) => match (recOf s r).map fun (x : SharedRec) => x.page.tier with
    | some Tier.hamper | some Tier.hbm => 0
    | some Tier.slc => 1
    | some Tier.bulk => 2
    | _ => 3)

/-- A block handle. -/
def blockHandle (block gen : Nat) : Nat := block + gen * 2 ^ 25

/-- A result entry (Table 6.5) for a hit on this device. -/
def resultEntry (s : State) (r : Row) : Nat :=
  pack [(0, blockHandle r.block r.gen), (32, selfNode s), (48, r.prio),
    (56, tierHint s (((mget s.pfx.blocks r.block).map (·.recs)).getD []))]

/-! ### Lookup operands and checks (R184, R185) -/

structure LookupArgs where
  seq : Nat
  flags : Nat
  slot : Nat
  count : Nat
  adapter : Nat
  first : Nat
  node : Nat
  addr : Nat

def parseLookup (il : List Byte) : LookupArgs :=
  { seq := field il 0 3, flags := field il 3 1, slot := field il 4 1, count := field il 5 1, adapter := field il 8 4
    first := field il 12 4 % 2 ^ 18, node := field il 22 2, addr := field il 16 6 }

def LookupArgs.attach (a : LookupArgs) : Bool := bit a.flags 0
def LookupArgs.results (a : LookupArgs) : Bool := bit a.flags 1
def LookupArgs.local_ (a : LookupArgs) : Bool := bit a.flags 2

/-- The checks of R185, in order. -/
def checkLookup (s : State) (ctx : Nat) (a : LookupArgs) : Option Nat :=
  let b := (modelOf (mdOf s a.slot)).block
  if !slotOk s ctx a.slot then some 0x13
  else if a.count == 0 || decide (64 < a.count) || decide (maxTokens < (a.first + a.count) * b) then some 0x25
  else if a.attach && !(seqOk s ctx a.seq && ((seqOf s a.seq).map (·.model)) == some a.slot) then some 0x10
  else if a.attach && ((seqOf s a.seq).map (·.length)) != some (a.first * b) then some 0x23
  else none

/-! ### Attaching (R186) -/

/-- A leaf of a Peer page (R433). -/
def peerPage (s : State) (q : Seq) (h layer first size node handle : Nat) : Page :=
  { size := size, tier := .peer, durable := q.durable, home := node * 2 ^ 28 + handle, rows := tokens size, sealed := true
    layer := layer, first := first, seq := h, part := q.part, tenant := q.tenant, sid := q.sid, desc := mdOf s q.model }

/-- A new shared record. -/
def newRec (p : Page) (hint prio : Nat) (s : State) : Nat × State :=
  let r := newRecIdx s
  (r, s.modSeqs fun x => { x with recs := mset x.recs r { page := p, count := 1, hint := hint, prio := prio } })

/-- Tables for a block in every layer. -/
def tablesFor (h first size : Nat) : List Nat → Descent → State → Tables
  | [], d, s => .ok d (0, 0) s
  | l :: rest, d, s => match ensureTables h l first size d s with
    | .ok d _ s => tablesFor h first size rest d s
    | r => r

/-- Map a block's records into a sequence. -/
def mapBlock (h first size : Nat) (recs : List Nat) (s : State) : State :=
  modSeq h (fun q => { q with pages := q.pages ++ (List.range recs.length).map fun l =>
    ({ layer := l, first := first, size := size, ref := .shared (nth recs l 0) } : PEnt) }) s

/-- How attaching one block goes: attached, the end of the run, or a wait for a table. -/
inductive Attached where
  | yes (s : State)
  | ended (s : State)
  | wait (d : Descent) (s : State)

/-- A block's tables are there: it is mapped; or they cannot be had: nothing of it stays, what the ladder did for it stands (R158). -/
def mapTables (h : Nat) (f : State → State) (t : Tables) : Attached :=
  match t with
  | .ok _ _ s => .yes (f s)
  | .wait d _ s => .wait d s
  | .fail _ s => .ended (dropBareTables h s)

/-- Map a block of a peer: a new record for each layer, and its import. -/
def mapPeerBlock (h pos size : Nat) (q : Seq) (m : Model) (node handle : Nat) (s : State) : State :=
  let (recs, s) := (List.range m.layers).foldl (fun (acc : List Nat × State) l =>
    let (r, s) := newRec (peerPage acc.2 q h l pos size node handle) q.hint q.prio acc.2
    (acc.1 ++ [r], s)) ([], s)
  let i := (lowestFree s.casc.imports 0 (s.casc.imports.length + 1)).getD 0
  mapBlock h pos size recs (s.modCasc fun c =>
    { c with imports := mset c.imports i { node := node, handle := handle, seq := h, first := pos, tokens := m.block, recs := recs } })

/-- Attach one block at a position of a sequence. -/
def attachOne (h pos : Nat) (src : Source) (d : Descent) (s : State) : Attached :=
  match seqOf s h with
  | none => .ended s
  | some q =>
    let m := seqModel s q
    let size := sizeCode m.block
    let layers := List.range m.layers
    let backed := q.pages.any fun e => decide (e.first < pos + m.block) && decide (pos < e.first + tokens e.size)
    if backed then .ended s
    else match src with
      | .here b gen =>
        match mget s.pfx.blocks b with
        | none => .ended (dropBareTables h s)
        | some x =>
          if x.state != .published || x.gen != gen then .ended (dropBareTables h s)
          else mapTables h (fun s =>
            mapBlock h pos size x.recs (forEach x.recs (fun r s => addRef r q.hint q.prio s) s))
            (tablesFor h pos size layers d s)
      | .peer node handle =>
        let room := decide (s.casc.imports.length < 2 ^ 20) && decide (m.layers ≤ recsFree s)
        if !room then .ended (dropBareTables h s)
        else mapTables h (mapPeerBlock h pos size q m node handle) (tablesFor h pos size layers d s)

/-- Attach the blocks still to attach, in order; whether one waits. The length follows each block. -/
def attachRun (h pos block : Nat) : List Source → AttachSt → State → AttachSt × Bool × State
  | [], a, s => ({ a with rest := [] }, false, s)
  | src :: rest, a, s =>
    match attachOne h (pos + a.done * block) src a.need s with
    | .ended s => ({ a with rest := [] }, false, s)
    | .wait d s => ({ a with rest := src :: rest, need := d }, true, s)
    | .yes s =>
      let a := { a with done := a.done + 1, need := .top }
      attachRun h pos block rest a (modSeq h (fun q => { q with length := pos + a.done * block }) s)

/-- Block id of a source, for the ATTACH record. -/
def sourceBid (s : State) : Source → Nat
  | .here b _ => ((mget s.pfx.blocks b).map (·.bid)).getD 0
  | .peer _ _ => 0

/-! ### The end of a lookup (R186, R187) -/

/-- Write the result array: 64 entries, zero where the hit vector is clear. -/
def writeResults (a : LookupArgs) (key : Nat) (es : List (Option Nat)) (s : State) : State :=
  if a.results then
    (writeTiles noOp 0 none a.node a.addr key ((List.range 64).flatMap fun i => leBytes 8 ((nth es i none).getD 0)) s).2
  else s

/-- The ATTACH record of a lookup that has attached blocks (R316). -/
def catAttach (a : LookupArgs) (x : AttachSt) (s : State) : State :=
  match seqOf s a.seq with
  | none => s
  | some q =>
    if x.done == 0 then s
    else addCat (.attach q.sid a.first x.done (sourceBid s (nth x.srcs (x.done - 1) (.peer 0 0)))) q.tenant q.durable s

/-- The completion of a lookup: run, hit vector, VERIFY_MISS where the run ended at a hit that failed. -/
def lookupAns (run full : Nat) (hits : List Bool) (failed : List Bool) : Ans :=
  let v := sum ((List.range hits.length).map fun i => if nth hits i false then 2 ^ i else 0)
  { status := if run == full && decide (run < hits.length) && nth failed run false then stVerifyMiss else stOk
    a := run, b := lo32 v, c := hi32 v }

/-- A lookup whose search has ended: with ATTACH its run is still to attach. -/
def searched (a : LookupArgs) (srcs : List Source) (full : Nat) (hits failed : List Bool) (ents : List (Option Nat)) : AttachSt :=
  { rest := if a.attach then srcs else [], srcs := srcs, done := if a.attach then 0 else srcs.length, full := full, hits := hits
    failed := failed, ents := ents }

/-- A local lookup's search. -/
def localLookup (ctx : Nat) (a : LookupArgs) (keys : List (List Byte)) (s : State) : AttachSt × State :=
  let m := modelOf (mdOf s a.slot)
  let owner := ownerOf (ctxOf s ctx).part a.slot a.adapter
  if policyFor s owner == 1 then (searched a [] 0 [] [] [], s)
  else
    let (hs, s) := localHits ctx m.bankSet owner keys s
    let full := runOf hs
    let srcs := (hs.take full).filterMap fun h => h.row.map fun r => Source.here r.block r.gen
    (searched a srcs full (hs.map fun h => h.row.isSome) (hs.map fun h => h == .failed) (hs.map fun h => h.row.map (resultEntry s)), s)

/-! ### Placing an entry (R197) -/

/-- Free exact rows of a bank. -/
def freeRows (s : State) (bank : Nat) : Nat := 65280 - count (fun x => x.1 / 65536 == bank) s.pfx.rows

/-- The bank of a set with the most free exact rows, the lowest on a tie; one being rebuilt takes none (R400). -/
def pickBank (s : State) (set : Nat) : Option Nat :=
  ((banksOf set).filter fun b => !s.pfx.rebuilding.contains b && decide (0 < freeRows s b)).foldl (fun best b => match best with
    | none => some b
    | some c => if freeRows s c < freeRows s b then some b else some c) none

/-- Write the entry of block `b` where R197 puts it. None when no slot qualifies. -/
def placeBlock (b set : Nat) (s : State) : Option State :=
  match mget s.pfx.blocks b with
  | none => none
  | some x =>
    let tag := tagOf x.key
    let row : Row := { tag := tag, prio := x.prio, owner := x.owner, lock := x.locked, block := b, gen := x.gen }
    let loc := fun (l : Loc) (s : State) => s.modPfx fun p => { p with blocks := mmod p.blocks b fun y => { y with loc := some l } }
    match (pickBank s set).bind fun k => (lowestFree s.pfx.rows (rowKey k 256) 65280).map fun r => (k, r - 65536 * k) with
    | some (k, r) => some (loc (.array k r) (s.modPfx fun p => { p with rows := mset p.rows (rowKey k r) row }))
    | none =>
      let bucket := tag % 2 ^ 26
      let put := fun (i : Nat) (s : State) => loc (.overflow bucket i) (s.modPfx fun p => { p with ovf := mset p.ovf (4 * bucket + i) row })
      match (List.range 4).find? fun i => !mhas s.pfx.ovf (4 * bucket + i) with
      | some i => some (put i s)
      | none =>
        let l := (List.range 4).filterMap fun i => (mget s.pfx.ovf (4 * bucket + i)).map fun r => (i, r)
        let l := l.filter fun y => !y.2.lock && y.2.owner == x.owner && decide (y.2.prio < x.prio)
        (l.foldl (fun best y => match best with
          | none => some y
          | some z => if y.2.prio < z.2.prio then some y else some z) none).map fun y => put y.1 (retireBlock y.2.block s).2

/-! ### Retiring (R199) -/

/-- The effect of PFX_RETIRE. -/
def pfxRetire (ring : Nat) (e : Entry) (s : State) : State :=
  let il := eInline e.raw
  match retireNamed (ringOf s ring).context (field il 0 4) (e.operands.getD []) (bit (field il 4 1) 0) s with
  | none => endNow ring e (internal 0x24) s
  | some (n, _, s) => endNow ring e { status := stOk, a := n } s

/-- PFX_RETIRE. -/
def execPfxRetire (ring : Nat) (s : State) : Out := .next (startOp opPfxRetire ring (pfxRetire ring) s)

/-! ### Policy commands (R190, R209) -/

/-- The operator's policy command, while none is in progress. -/
def polCmd (path : Path) (f : Pfx → Pfx) (s : State) : State :=
  if s.pfx.polBusy || !(partyOf s path).isOperator then s else s.modPfx f

/-- PMA_POL_CMD 1 (R190): insert at the row addressed. -/
def polInsert (p : Pfx) : Pfx :=
  if 256 ≤ p.pol.length || p.pol.length < p.polSel || !(p.polAct == 1 || p.polAct == 2) then { p with polErr := true }
  else { p with pol := p.pol.take p.polSel ++ { value := p.polVal, mask := p.polMask, action := p.polAct } :: p.pol.drop p.polSel }

/-- PMA_POL_CMD 2 (R190): delete the row. -/
def polDelete (p : Pfx) : Pfx :=
  if p.pol.length ≤ p.polSel then { p with polErr := true }
  else { p with pol := p.pol.take p.polSel ++ p.pol.drop (p.polSel + 1) }

/-- PMA_POL_CMD 3 (R209): read the row; one not in use reads as zero. -/
def polRead (p : Pfx) : Pfx :=
  let r := nth p.pol p.polSel { value := 0, mask := 0, action := 0 }
  { p with polVal := r.value, polMask := r.mask, polAct := r.action }

/-- POLICY_INSERT, POLICY_DELETE and POLICY_READ. -/
def execPolicyInsert (path : Path) (s : State) : Out := .next (regAccess path 0x50008 (polCmd path polInsert) s)
def execPolicyDelete (path : Path) (s : State) : Out := .next (regAccess path 0x50008 (polCmd path polDelete) s)
def execPolicyRead (path : Path) (s : State) : Out := .next (regAccess path 0x50008 (polCmd path polRead) s)

/-! ### The patrol (R183) -/

/-- Whether a row agrees with its block. -/
def rowAgrees (s : State) (k : Nat) (r : Row) : Bool :=
  match mget s.pfx.blocks r.block with
  | none => false
  | some b => b.state == .published && b.at_ false k && r.tag == tagOf b.key && r.owner == b.owner && r.prio == b.prio

/-- The patrol reads one row of one bank; `bad` when the row shows an uncorrectable error. -/
def patrolRowOf (row : Nat) (bad : Bool) (bank : Nat) (s : State) : State :=
  let k := rowKey bank row
  let s := if bad then s.modPfx fun p => { p with bankErr := mupd p.bankErr bank 0 fun n => n + 1 } else s
  match mget s.pfx.rows k with
  | none => s
  | some r =>
    if rowAgrees s k r && !bad then s
    else scrubRow false k (s.modPfx fun p => { p with patrolFix := sat32 (p.patrolFix + 1) })

/-- One patrol read of every bank; a pass ends with row 65,535, and the error counts with it. -/
def patrolRead (errors : List Nat) (s : State) : State :=
  let row := s.pfx.patrolRow
  let s := forEach (List.range 32) (fun b s => patrolRowOf row (errors.contains b) b s) s
  s.modPfx fun p => { p with patrolRow := if row == 65535 then 256 else row + 1 }

end Sys2Proof.Machine
end

