-- ==== Sys2Proof/Machine/Cascade.lean ====
section
/-! DEFINITION. The cascade (06 R203 to R208, 14 R422 to R437): liveness, the master and the view, lookups across the
group, export slots and peer pages. -/

namespace Sys2Proof.Machine

open Sys2Proof

/-! ### Messages between members (R427) -/

/-- Take a cascade message: under a live key of its pair, from the node of that pair; else counted and discarded. -/
def takePeer (h : Hdr) (typ : Nat) (f : State → State) (s : State) : State :=
  takeMsg h typ (fun s => match mget s.sec.keys h.key with
    | some k => if k.pair && k.node == h.src then f s else countNokey h.port s
    | none => countNokey h.port s) s

/-- Opening bytes of a body: kind, and the sender's view. -/
def cascHead (s : State) (kind : Nat) : List Byte := leBytes 1 kind ++ leBytes 1 0 ++ leBytes 2 s.casc.view

/-- Send a PAGE_RD of a kind to a node; nothing goes where no key of the pair is installed. -/
def sendPageRd (node kind : Nat) (body : List Byte) (s : State) : State :=
  match peerKey s node with
  | none => s
  | some k =>
    let (tag, s) := takeTag s
    send { typ := mtPageRd, vc := 0, dst := node, key := k, tag := tag, body := cascHead s kind ++ body } s

/-- Answer a PAGE_RD with a PAGE_DATA of a kind. -/
def answerPage (h : Hdr) (kind status : Nat) (body : List Byte) (s : State) : State :=
  reply h mtPageData 1 status 0 (cascHead s kind ++ body) s

/-! ### Export slots (R432, R435) -/

/-- An export handle: the epoch's low byte over the slot. -/
def exportHandle (s : State) (slot : Nat) : Nat := epochNo s % 256 * 2 ^ 20 + slot

/-- An export slot for a verified block: one reference on each layer's record, the copy of the layer list charged to
the block's partition. The handle, and the state; none where no slot is free or the quota does not cover the copy. -/
def exportBlock (holder : Node) (r : Row) (s : State) : Option (Nat × State) :=
  match mget s.pfx.blocks r.block, s.casc.exportQ.take with
  | some b, some (slot, q) =>
    (takeRun b.part (framesFor (4 * b.recs.length)) s).map fun (run, s) =>
      let s := forEach b.recs (fun x s => modRec x (fun y => { y with count := y.count + 1 }) s) s
      (exportHandle s slot, s.modCasc fun c =>
        { c with
          exportQ := q
          exports := mset c.exports slot
            { holder := holder, block := r.block, gen := r.gen, layers := b.recs.length, released := [], recs := b.recs
              run := some run, part := b.part } })
  | _, _ => none

/-- A layer of an export slot is released: its reference is dropped, and the slot is freed with its last layer. -/
def releaseExport (slot layer : Nat) (s : State) : State :=
  match mget s.casc.exports slot with
  | none => s
  | some e =>
    if e.layers ≤ layer || e.released.contains layer then s
    else
      let s := dropRef (nth e.recs layer 0) false s
      if e.released.length + 1 == e.layers then
        freeRun? e.part e.run (s.modCasc fun c => { c with exports := mdel c.exports slot, exportQ := c.exportQ.give slot })
      else s.modCasc fun c => { c with exports := mset c.exports slot { e with released := e.released ++ [layer] } }

/-- The live slot a handle names for a holder. -/
def exportOf (s : State) (handle : Nat) (holder : Node) : Option (Nat × Export) :=
  let slot := handle % 2 ^ 20
  if handle / 2 ^ 20 % 256 != epochNo s % 256 then none
  else (mget s.casc.exports slot).bind fun e => if e.holder == holder then some (slot, e) else none

/-! ### The view (R424 to R426, R436) -/

/-- The position this device counts as master. -/
def masterSeen (s : State) : Nat := (liveSet s).headD (cascPos s)

/-- The other positions of the view. -/
def viewMembers (s : State) : List Nat := (bitsOf 8 s.casc.mask).filter fun q => q != cascPos s

/-- Stirrup mode: the master is position 0 and the view holds all positions (R426). -/
def stirrupMode (s : State) : Bool :=
  decide (1 < cascSize s) && s.casc.masterPos == 0 && s.casc.mask == 2 ^ cascSize s - 1

/-- The position of a node. -/
def positionOf (s : State) (node : Node) : Option Nat :=
  (List.range (cascSize s)).find? fun q => cascNode s q == node

/-- As holder: every record named by an import record of a node is DROPPED, one ticket of reason 4 per import record
(R436). -/
def sweepImports (node : Node) (s : State) : State :=
  forEach (s.casc.imports.filter fun x => x.2.node == node) (fun x s =>
    let im := x.2
    let recs := ((List.range im.recs.length).filter fun l => !im.released.contains l).map fun l => nth im.recs l 0
    let part := ((seqOf s im.seq).map (·.part)).getD (((recs.head?.bind (recOf s)).map fun y => y.page.part).getD 0)
    let s := s.modCasc fun c =>
      { c with
        imports := mdel c.imports x.1, peerSwept := sat32 (c.peerSwept + 1)
        reads := c.reads.filter fun y => !recs.contains y.2.rec_
        images := c.images.filter fun y => !recs.contains y.rec_ }
    let (n, s) := issueTicket part im.seq 4 im.first im.tokens 0 im.recs.length s
    forEach recs (fun r s => dropUnder (.rec_ r) n s) s) s

/-- As exporter: every layer of every slot of a node is released (R436). -/
def sweepExports (node : Node) (s : State) : State :=
  forEach (s.casc.exports.filter fun x => x.2.holder == node) (fun x s =>
    forEach (List.range x.2.layers) (releaseExport x.1) s) s

/-- The view changes: positions that leave it are swept, and what this device had latched for the earlier view is
forgotten (R208, R436). -/
def setView (view mask : Nat) (s : State) : State :=
  let gone := (bitsOf 8 s.casc.mask).filter fun q => !bit mask q && q != cascPos s
  let s := s.modCasc fun c =>
    { c with
      view := view, mask := mask, viewChanges := sat32 (c.viewChanges + 1), highest := max c.highest view, searches := []
      stirrup := none }
  forEach gone (fun q s => sweepExports (cascNode s q) (sweepImports (cascNode s q) s)) s

/-- After a change of liveness: who is master, and the master's own view (R424, R425). -/
def refreshView (s : State) : State :=
  let m := masterSeen s
  let was := s.casc.masterPos == cascPos s && s.casc.mask != 0
  let s := driveMaster (s.modCasc fun c => { c with masterPos := m })
  if !(s.pins.rdy && decide (1 < cascSize s) && m == cascPos s) then s
  else
    let mask := maskOf (liveSet s)
    if !was then setView ((s.casc.highest + 1) % 65536) mask s
    else if mask != s.casc.mask then setView ((s.casc.view + 1) % 65536) mask s
    else s

/-! ### Lookups across the group: the master (R204, R206, R207, R428 to R431) -/

/-- Priority of a winner, 0 for a miss. -/
def prioOf (w : Option (Nat × Row)) : Nat := (w.map fun x => x.2.prio).getD 0

/-- Whether a lookup goes to the group (R204, R426). -/
def goesToGroup (s : State) (ctx : Nat) (a : LookupArgs) : Bool :=
  !a.local_ && decide (1 < cascSize s) && isMaster s && !(viewMembers s).isEmpty &&
    policyFor s (ownerOf (ctxOf s ctx).part a.slot a.adapter) != 1

/-- Keys of a lookup in progress. -/
def lookupKeys (o : Op) : List (List Byte) := chunks 64 64 (mgetD o.bufs 0 [])

/-- Release every layer of handles that a RESULT brought (R430). -/
def releaseAll (node : Node) (layers : Nat) (handles : List Nat) (s : State) : State :=
  forEach handles (fun h s => sendRelease node ((List.range layers).map fun l => (h, l)) s) s

/-- A lookup that has searched stops attaching: its ATTACH record, and the handles that no attachment took are released (log 23). -/
def closeLookup (o : Op) (x : AttachSt) (s : State) : State :=
  let a := parseLookup (eInline o.raw)
  let layers := (modelOf (mdOf s a.slot)).layers
  let s := when a.attach (catAttach a x) s
  forEach (x.srcs.drop (if a.attach then x.done else 0)) (fun src s => match src with
    | .peer n h => releaseAll n layers [h] s
    | .here _ _ => s) s

/-- A lookup goes on attaching; it ends with its last block, or where its run ends (R186, R187). -/
def driveLookup (id : Nat) (s : State) : State :=
  match mget s.ops.tab id with
  | none => s
  | some o => match o.body with
    | .lookup (some x) =>
      let a := parseLookup (eInline o.raw)
      let b := (modelOf (mdOf s a.slot)).block
      let (x, waits, s) := attachRun a.seq (a.first * b) b x.rest x s
      if waits then modOp id (fun o => { o with body := .lookup (some x) }) s
      else
        let s := writeResults a (ringOf s o.ring).key x.ents (closeLookup o x s)
        finishOp id (lookupAns x.done x.full x.hits x.failed) s
    | _ => s

/-- Begin a lookup: to the group, or here alone. -/
def beginLookup (id : Nat) (s : State) : State :=
  match mget s.ops.tab id with
  | none => s
  | some o =>
    let a := parseLookup (eInline o.raw)
    let keys := lookupKeys o
    if !goesToGroup s o.ctx a then
      let (x, s) := localLookup o.ctx a keys s
      driveLookup id (modOp id (fun o => { o with body := .lookup (some x) }) s)
    else
      let owner := ownerOf (ctxOf s o.ctx).part a.slot a.adapter
      let set := (modelOf (mdOf s a.slot)).bankSet
      let sid := s.casc.nextSid
      let (wins, s) := searchArray set owner keys s
      let l := viewMembers s
      let s := s.modCasc fun c =>
        { c with
          nextSid := (sid + 1) % 2 ^ 32
          lookup := some
            { op := id, sid := sid, view := c.view, owner := owner, bankSet := set, keys := keys, wins := wins, acks := []
              awaited := l, results := [], stirrup := stirrupMode s } }
      let body := leBytes 2 owner ++ leBytes 1 keys.length ++ leBytes 1 0 ++ leBytes 4 set ++ leBytes 4 sid ++ leBytes 4 0 ++
        keys.flatten
      forEach l (fun q s => sendPageRd (cascNode s q) 2 body s) s

/-- The lookup in progress is given up and begins again (R208). -/
def restartLookup (s : State) : State :=
  match s.casc.lookup with
  | none => s
  | some l =>
    let layers := match mget s.ops.tab l.op with
      | some o => (modelOf (mdOf s (parseLookup (eInline o.raw)).slot)).layers
      | none => 256
    beginLookup l.op (s.modCasc fun c =>
      { c with lookup := none, stirrup := none, abandoned := c.abandoned ++ [(l.sid, layers)] })

/-- What a key has given across the group: a hit of this device, or a member's. -/
inductive GroupHit where
  | own (h : KeyHit)
  | member (node : Node) (e : ResEntry)

def GroupHit.isHit : GroupHit → Bool
  | .own h => h.row.isSome
  | .member _ _ => true

/-- The overflow table of this device from the first key with no verified hit, one key at a time (R181, R204). -/
def groupOverflow (ctx owner : Nat) : List (List Byte × GroupHit) → State → List GroupHit × State
  | [], s => ([], s)
  | (key, h) :: rest, s =>
    if h.isHit then
      let (l, s) := groupOverflow ctx owner rest s
      (h :: l, s)
    else
      match searchOvfKey ctx owner key s with
      | (.hit r, s) =>
        let (l, s) := groupOverflow ctx owner rest s
        (.own (.hit r) :: l, s)
      | (.failed, s) => (.own .failed :: rest.map (·.2), s)
      | (.miss, s) => (h :: rest.map (·.2), s)

/-- The hits of the group: this device verifies the tags it kept, a member's tag is a hit where its RESULT names it. -/
def groupHits (l : MLookup) (s : State) : List GroupHit × State :=
  (List.range l.keys.length).foldl (fun (acc : List GroupHit × State) i =>
    if nth l.kept i false then
      let r := checkHit false l.owner (nth l.keys i []) (nth l.wins i none) acc.2
      (acc.1 ++ [.own r.1], r.2)
    else
      let e := l.results.findSome? fun x => (x.2.find? fun e => e.tagIdx == i).map fun e => GroupHit.member x.1 e
      (acc.1 ++ [e.getD (.own .miss)], acc.2)) ([], s)

/-- Step 5 of R204: the run is formed, and attached. Handles past the run are released (log 23). -/
def finishLookup (l : MLookup) (s : State) : State :=
  match mget s.ops.tab l.op with
  | none => s.modCasc fun c => { c with lookup := none, stirrup := none }
  | some o =>
    let a := parseLookup (eInline o.raw)
    let layers := (modelOf (mdOf s a.slot)).layers
    let s := s.modCasc fun c => { c with lookup := none, stirrup := none, abandoned := c.abandoned ++ [(l.sid, layers)] }
    let (hs, s) := groupHits l s
    let (hs, s) := if hasOvf s l.owner then groupOverflow o.ctx l.owner (l.keys.zip hs) s else (hs, s)
    let full := (hs.takeWhile GroupHit.isHit).length
    let src := fun (h : GroupHit) => match h with
      | .own (.hit r) => some (Source.here r.block r.gen)
      | .member n e => some (Source.peer n e.handle)
      | _ => none
    let s := forEach (hs.drop full) (fun h s => match h with
      | .member n e => releaseAll n layers [e.handle] s
      | _ => s) s
    let entry := fun (h : GroupHit) => match h with
      | .own k => k.row.map (resultEntry s)
      | .member _ e => some e.entry
    let failed := hs.map fun h => match h with
      | .own .failed => true
      | _ => false
    let x := searched a ((hs.take full).filterMap src) full (hs.map GroupHit.isHit) failed (hs.map entry)
    driveLookup l.op (modOp l.op (fun o => { o with body := .lookup (some x) }) s)

/-- Set the lookup in progress. -/
def putLookup (l : MLookup) (s : State) : State := s.modCasc fun c => { c with lookup := some l }

/-- Drive beats on MATCH_OUT. -/
def driveBeats (vs : List Nat) (s : State) : State := s.modCasc fun c => { c with matchOut := c.matchOut ++ vs }

/-- The winner of each tag in Dorlink mode: the position with the highest priority above 0, the lower on a tie. -/
def dorlinkWinner (self : Nat) (own : List Nat) (acks : List (Nat × List Nat)) (i : Nat) : Option Nat :=
  let l := sortBy (fun x y => decide (x.1 < y.1)) ((self, own) :: acks)
  (l.foldl (fun (best : Option (Nat × Nat)) x =>
    let p := nth x.2 i 0
    match best with
    | none => if p == 0 then none else some (x.1, p)
    | some b => if b.2 < p then some (x.1, p) else some b) none).map (·.1)

/-- Every member has acknowledged: phase A is driven, or the CLAIMs are sent. -/
def resolveLookup (l : MLookup) (s : State) : State :=
  let own := l.wins.map prioOf
  let n := l.keys.length
  if l.stirrup then
    driveBeats (List.replicate n 0) (putLookup { l with awaited := l.acks.map (·.1) }
      (s.modCasc fun c => { c with stirrup := some { count := n, prios := own } }))
  else
    let w := (List.range n).map (dorlinkWinner (cascPos s) own l.acks)
    let claimed := (l.acks.map (·.1)).filter fun q => w.contains (some q)
    let l := { l with kept := w.map fun x => x == some (cascPos s), awaited := claimed }
    let s := putLookup l (s.modCasc fun c => { c with dorlinkResolve := sat32 (c.dorlinkResolve + 1) })
    let s := forEach claimed (fun q s =>
      let mask := sum ((List.range n).map fun i => if nth w i none == some q then 2 ^ i else 0)
      sendPageRd (cascNode s q) 3 (leBytes 4 l.sid ++ leBytes 4 0 ++ leBytes 8 mask) s) s
    if claimed.isEmpty then finishLookup l s else s

/-! ### PFX_LOOKUP -/

/-- The effect of PFX_LOOKUP at its start. -/
def pfxLookup (ring : Nat) (e : Entry) (s : State) : State :=
  let ctx := (ringOf s ring).context
  match checkLookup s ctx (parseLookup (eInline e.raw)) with
  | some n => endNow ring e (internal n) s
  | none =>
    let (id, s) := beginOp ring e (.lookup none) (countWait ctx e.arrival s)
    beginLookup id (modOp id (fun o => { o with bufs := [(0, e.operands.getD [])] }) s)

/-- PFX_LOOKUP (R184 to R187, R204): one that attaches waits for an append to its sequence, and one that goes to the
group for the group's lookup in progress. -/
def execPfxLookup (ring : Nat) (s : State) : Out :=
  let held := match startable s ring with
    | some e =>
      let a := parseLookup (eInline e.raw)
      eOpcode e.raw == opPfxLookup &&
        ((a.attach && appending s a.seq) || (s.casc.lookup.isSome && goesToGroup s (ringOf s ring).context a))
    | none => false
  .next (if held then s else startOp opPfxLookup ring (pfxLookup ring) s)

/-! ### The cascade events -/

/-- The configuration digest (R423). -/
def configDigest (s : State) : List Byte :=
  let ps := (s.img.cur.map fun i => i.partsRaw.map fun p => (p.clusters, p.spaceOnly)).getD []
  let models := (s.img.cur.map (·.modelsRaw)).getD []
  sha512 (Config.partitionBytes ps ++ models ++ (List.range 64).flatMap fun i => padTo 64 (mdOf s i))

/-- HELLO_INTERVAL (R423): while RDY is asserted, a HELLO goes to each other position; a lookup that a member turned
away begins again. -/
def execHelloInterval (s : State) : Out :=
  .next (if !s.pins.rdy || decide (cascSize s ≤ 1) then s
    else
      let body := leBytes 1 (cascPos s) ++ leBytes 1 0 ++ leBytes 1 s.casc.mask ++ leBytes 1 0 ++ leBytes 4 (epochNo s) ++
        configDigest s
      let others := (List.range (cascSize s)).filter fun q => q != cascPos s
      let s := forEach others (fun q s => sendPageRd (cascNode s q) 4 body s) s
      if (s.casc.lookup.map (·.stalled)).getD false then restartLookup s else s)

/-- The liveness of a position changes; the lookup in progress begins again when the view has changed with it
(R208). -/
def afterView (old : Nat × Nat) (s : State) : State :=
  if (s.casc.view, s.casc.mask) == old then s else restartLookup s

/-- HELLO (R423 to R425): answered with ACK; it counts toward liveness while RDY is asserted, and a member adopts the view
of the device it counts as master. -/
def execHello (h : Hdr) (pos view mask epoch : Nat) (digest : List Byte) (s : State) : Out :=
  .next (takePeer h mtPageRd (fun s =>
    let s := reply h mtAck 1 0 0 [] s
    if !s.pins.rdy || decide (cascSize s ≤ pos) || pos == cascPos s || cascNode s pos != h.src then s
    else
      let old := (s.casc.view, s.casc.mask)
      let same := digest == configDigest s
      let s := s.modCasc fun c =>
        { c with
          highest := max c.highest (view % 65536)
          pos := lmod c.pos pos fun x =>
            let n := if same then min 2 (x.hellos + 1) else 0
            { hellos := n, live := n == 2, digestBad := !same, epoch := epoch % 2 ^ 32 } }
      let s := refreshView s
      let s := if masterSeen s == pos && (s.casc.view, s.casc.mask) != (view % 65536, mask % 256) then
          setView (view % 65536) (mask % 256) s
        else s
      afterView old s) s)

/-- POSITION_DEAD (R423, R436). -/
def execPositionDead (pos : Nat) (s : State) : Out :=
  .next (if decide (cascSize s ≤ pos) || pos == cascPos s || !((nth s.casc.pos pos {}).live || bit s.casc.mask pos) then s
    else
      let old := (s.casc.view, s.casc.mask)
      let s := s.modCasc fun c => { c with pos := lmod c.pos pos fun x => { x with hellos := 0, live := false } }
      let s := refreshView s
      let s := if bit s.casc.mask pos then setView s.casc.view (s.casc.mask - 2 ^ pos) s else s
      afterView old s)

/-- Whether a member takes a SEARCH or CLAIM: from the device it counts as master, in its own view (R425). -/
def fromMaster (s : State) (src : Node) (view : Nat) : Bool :=
  masterSeen s != cascPos s && cascNode s (masterSeen s) == src && s.casc.view == view

/-- SEARCH (R204 step 2, R428): the winners are latched and acknowledged, with their priorities in Dorlink mode. -/
def execSearch (h : Hdr) (view owner bankSet sid : Nat) (keys : List (List Byte)) (s : State) : Out :=
  .next (takePeer h mtPageRd (fun s =>
    if !fromMaster s h.src view then nakTo h stRevoked s
    else
      let (wins, s) := searchArray bankSet owner keys s
      let prios := wins.map prioOf
      let m : MSearch := { sid := sid, master := h.src, key := h.key, owner := owner, keys := keys, wins := wins }
      let s := s.modCasc fun c =>
        { c with searches := [m], stirrup := if stirrupMode s then some { count := keys.length, prios := prios } else none }
      answerPage h 2 stOk (leBytes 4 sid ++ if stirrupMode s then [] else prios.flatMap (leBytes 1)) s) s)

/-- SEARCH_ACK (R204 step 3, R431). -/
def execSearchAck (h : Hdr) (sid : Nat) (prios : List Nat) (s : State) : Out :=
  .next (takePeer h mtPageData (fun s => match s.casc.lookup, positionOf s h.src with
    | some l, some q =>
      if l.sid != sid || !l.awaited.contains q || (l.acks.any fun x => x.1 == q) then s
      else
        let l := { l with acks := l.acks ++ [(q, prios)], awaited := l.awaited.filter (· != q) }
        if l.awaited.isEmpty then resolveLookup l s else putLookup l s
    | _, _ => s) s)

/-- A member verifies the tags it won and answers RESULT (R428, R432). -/
def answerResult (h : Hdr) (m : MSearch) (won : List Nat) (s : State) : State :=
  let (es, s) := won.foldl (fun (acc : List (List Byte) × State) i =>
    match checkHit false m.owner (nth m.keys i []) (nth m.wins i none) acc.2 with
    | (.hit r, s) => match exportBlock h.src r s with
      | some (e, s) => (acc.1 ++ [leBytes 1 i ++ leBytes 3 0 ++ leBytes 4 e ++ leBytes 8 (resultEntry s r)], s)
      | none => (acc.1, s)
    | (_, s) => (acc.1, s)) ([], s)
  let s := s.modCasc fun c => { c with searches := c.searches.filter fun x => x.sid != m.sid, stirrup := none }
  answerPage h 3 stOk (leBytes 4 m.sid ++ leBytes 1 es.length ++ leBytes 3 0 ++ es.flatten) s

/-- CLAIM (R431); one that names no latched search is answered with an empty RESULT. -/
def execClaim (h : Hdr) (view sid won : Nat) (s : State) : Out :=
  .next (takePeer h mtPageRd (fun s =>
    if !fromMaster s h.src view then nakTo h stRevoked s
    else match s.casc.searches.find? fun m => m.sid == sid && m.master == h.src with
      | some m => answerResult h m (bitsOf m.keys.length won) s
      | none => answerPage h 3 stOk (leBytes 4 sid ++ leBytes 4 0) s) s)

/-- RESULT (R204 step 5, R430). -/
def execResult (h : Hdr) (sid : Nat) (entries : List ResEntry) (s : State) : Out :=
  .next (takePeer h mtPageData (fun s =>
    let late := releaseAll h.src (((s.casc.abandoned.find? fun x => x.1 == sid).map (·.2)).getD 256) (entries.map (·.handle)) s
    match s.casc.lookup, positionOf s h.src with
    | some l, some q =>
      if l.sid != sid || !l.awaited.contains q || l.acks.isEmpty then late
      else
        let l := { l with results := l.results ++ [(h.src, entries)], awaited := l.awaited.filter (· != q) }
        if l.awaited.isEmpty && l.kept.length == l.keys.length then finishLookup l s else putLookup l s
    | _, _ => late) s)

/-- A beat at a member (R206, R207). -/
def memberBeat (st : Stirrup) (v : Nat) (s : State) : State :=
  let i := st.beat
  if i < st.count then
    let l := nth st.prios i 0
    driveBeats [max v l] (s.modCasc fun c =>
      { c with stirrup := some { st with beat := i + 1, won := st.won ++ [decide (v < l)] } })
  else
    let j := i - st.count
    let l := nth st.prios j 0
    let st := { st with beat := i + 1, final := st.final ++ [nth st.won j false && l == v && decide (0 < l)] }
    let s := driveBeats [v] (s.modCasc fun c => { c with stirrup := some st })
    if st.beat < 2 * st.count then s
    else match s.casc.searches.head? with
      | some m =>
        answerResult { port := 0, src := m.master, key := m.key, tag := 0 } m
          ((List.range st.count).filter fun i => nth st.final i false) s
      | none => s

/-- A beat back at the master (R206, R207): after the last of phase A it drives phase B, whose beats come back too. -/
def masterBeat (l : MLookup) (st : Stirrup) (v : Nat) (s : State) : State :=
  let i := st.beat
  if 2 * st.count ≤ i then s
  else if st.count ≤ i then s.modCasc fun c => { c with stirrup := some { st with beat := i + 1 } }
  else
    let own := nth st.prios i 0
    let l := { l with maxes := l.maxes ++ [max v own], kept := l.kept ++ [decide (v ≤ own) && decide (0 < own)] }
    let s := putLookup l (s.modCasc fun c => { c with stirrup := some { st with beat := i + 1 } })
    if i + 1 < st.count then s
    else
      let s := driveBeats ((List.range st.count).map fun k => if nth l.kept k false then 0 else nth l.maxes k 0) s
      if l.awaited.isEmpty then finishLookup l s else s

/-- STIRRUP_BEAT: a beat arrives on MATCH_IN with MVALID high. -/
def execStirrupBeat (value : Nat) (s : State) : Out :=
  .next (unlessStopped (fun s => match s.casc.stirrup with
    | none => s
    | some st => match s.casc.lookup with
      | some l => masterBeat l st (value % 256) s
      | none => memberBeat st (value % 256) s) s)

/-- A member answers a SEARCH or CLAIM with NAK: the lookup waits for the view to settle (R425, R208). -/
def cascNak (h : Hdr) (s : State) : State :=
  match s.casc.lookup, positionOf s h.src with
  | some l, some q =>
    if ((mget s.sec.keys h.key).map (·.pair)).getD false && l.awaited.contains q then putLookup { l with stalled := true } s else s
  | _, _ => s

/-! ### Peer pages (R433 to R435) -/

/-- Bytes of a peer page's image, once the frames field of its metadata has arrived (R253, R434). -/
def peerTotal (got : List Byte) : Nat := if got.length < 20 then 20 else 4096 * field got 16 4

/-- What has arrived of a record's image for a reader. -/
def peerGot (s : State) (who : PeerFor) (r : Nat) : List Byte :=
  ((s.casc.images.find? fun x => x.who == who && x.rec_ == r).map (·.bytes)).getD []

/-- Whether a peer page's image has arrived whole for a reader. -/
def peerWhole (s : State) (who : PeerFor) (r : Nat) : Bool :=
  let b := peerGot s who r
  decide (20 ≤ b.length) && decide (peerTotal b ≤ b.length)

/-- More bytes of an image have arrived. -/
def addPeer (who : PeerFor) (r : Nat) (b : List Byte) (s : State) : State :=
  let got := peerGot s who r
  s.modCasc fun c =>
    { c with images := { who := who, rec_ := r, bytes := got ++ b } :: c.images.filter fun x => !(x.who == who && x.rec_ == r) }

/-- A reader needs what it read from peers no longer: its READs in flight are forgotten too. -/
def dropImages (who : PeerFor) (s : State) : State :=
  s.modCasc fun c => { c with images := c.images.filter fun x => x.who != who, reads := c.reads.filter fun x => x.2.who != who }

/-- Send the READ of a tag. -/
def sendPeerRead (tag : Nat) (s : State) : State :=
  match mget s.casc.reads tag with
  | none => s
  | some r => match peerKey s r.node with
    | none => s
    | some k =>
      let body := cascHead s 1 ++ leBytes 4 r.handle ++ leBytes 1 r.layer ++ leBytes 3 0 ++ leBytes 4 r.offset ++ leBytes 4 r.len
      let m : OutMsg := { typ := mtPageRd, vc := 0, dst := r.node, key := k, tag := tag, body := body }
      if r.resends == 0 then send m s else sendVia (resendPort s r.node 0 r.resends) m s

/-- An op needs one record's image no longer. -/
def dropImage1 (id r : Nat) (s : State) : State :=
  s.modCasc fun c => { c with images := c.images.filter fun x => !(x.who == .op id && x.rec_ == r) }

/-- Ask for the next bytes of a peer page's record for a reader, unless its READ is outstanding or it has the whole image. -/
def wantPeer (who : PeerFor) (r : Nat) (s : State) : State :=
  if (s.casc.reads.any fun x => x.2.who == who && x.2.rec_ == r) || peerWhole s who r then s
  else match importOf s r with
    | none => s
    | some (_, im, layer) =>
      let got := peerGot s who r
      let n := if got.length < 20 then 8192 else min 8192 (peerTotal got - got.length)
      let (tag, s) := takeTag s
      sendPeerRead tag (s.modCasc fun c =>
        { c with reads := mset c.reads tag { who := who, node := im.node, handle := im.handle, layer := layer, offset := got.length, len := n, rec_ := r } })

/-- The page a peer record stands for, read from the image that has arrived. -/
def peerPageOf (s : State) (who : PeerFor) (r : Nat) (p : Page) : Page :=
  { parseImage p.model (peerGot s who r) with
    desc := p.desc, tier := .peer, seq := p.seq, sid := p.sid, part := p.part, tenant := p.tenant, durable := p.durable
    home := p.home }

/-- DATA for a READ: the bytes, or REVOKED, which is counted. -/
def answerRead (h : Hdr) (bytes : Option (List Byte)) (s : State) : State :=
  match bytes with
  | some b => answerPage h 1 stOk (leBytes 4 b.length ++ b) s
  | none => answerPage h 1 stRevoked (leBytes 4 0) (s.modCasc fun c => { c with peerRefused := sat32 (c.peerRefused + 1) })

/-- Serve a READ (R434, R437): it is an access of the page, and each run of READs keeps to one image. A page that is
itself a Peer page is read from its own exporter first. -/
def servePeer (h : Hdr) (handle layer offset len : Nat) (s : State) : State :=
  match exportOf s handle h.src with
  | none => answerRead h none s
  | some (slot, e) =>
    let r := nth e.recs layer 0
    match recOf s r with
    | none => answerRead h none s
    | some x =>
      let p := x.page
      let first := (e.seen.find? fun y => y.1 == layer).map (·.2)
      let other := offset != 0 && first.isSome && first != some p.codec
      if e.layers ≤ layer || e.released.contains layer || p.tier == .dropped || other then answerRead h none s
      else if p.tier == .peer && !peerWhole s (.chain slot layer) r then
        wantPeer (.chain slot layer) r (s.modCasc fun c =>
          { c with chained := c.chained ++ [{ port := h.port, src := h.src, key := h.key, tag := h.tag, handle := handle
                                              layer := layer, offset := offset, len := len }] })
      else
        let s := s.modCasc fun c => { c with exports := mmod c.exports slot fun y =>
          { y with seen := (layer, p.codec) :: y.seen.filter fun z => z.1 != layer } }
        let img := if p.tier == .peer then peerGot s (.chain slot layer) r else imageBytes p.model p
        let s := answerRead h (some ((img.drop offset).take (min len 8192))) (access 32 (.rec_ r) s)
        if img.length ≤ offset + min len 8192 then dropImages (.chain slot layer) s else s

/-- The first READ of a run of a page that is itself a Peer page has the page read anew. -/
def freshRun (h : Hdr) (handle layer offset : Nat) (s : State) : State :=
  match exportOf s handle h.src with
  | some (slot, _) => if offset == 0 then dropImages (.chain slot layer) s else s
  | none => s

/-- READ. -/
def execRead (h : Hdr) (handle layer offset len : Nat) (s : State) : Out :=
  .next (takePeer h mtPageRd (fun s => servePeer h handle layer offset len (freshRun h handle layer offset s)) s)

/-- READs that waited for a Peer page are served again. -/
def serveChained (s : State) : State :=
  let l := s.casc.chained
  forEach l (fun c s => servePeer { port := c.port, src := c.src, key := c.key, tag := c.tag } c.handle c.layer c.offset c.len s)
    (s.modCasc fun c => { c with chained := [] })

/-- A record's peer has refused it: DROPPED, with a ticket of reason 4 (R407, R434). -/
def peerGone (r : Nat) (s : State) : State := dropPageAt (.rec_ r) 4 (markReleased r s)

/-- PAGE_DATA with kind DATA. -/
def execPageData (h : Hdr) (status : Nat) (bytes : List Byte) (s : State) : Out :=
  .next (takePeer h mtPageData (fun s => match mget s.casc.reads h.tag with
    | none => s
    | some r =>
      if r.node != h.src then s
      else
        let s := s.modCasc fun c => { c with reads := mdel c.reads h.tag }
        if status == stOk then
          let s := addPeer r.who r.rec_ (bytes.take r.len) s
          if peerWhole s r.who r.rec_ then serveChained s else wantPeer r.who r.rec_ s
        else
          serveChained (peerGone r.rec_ (s.modCasc fun c => { c with peerRefused := sat32 (c.peerRefused + 1) }))) s)

/-- RELEASE (R435): answered with ACK; an entry that names no live slot, or a layer already released, is ignored. -/
def execRelease (h : Hdr) (entries : List RelEntry) (s : State) : Out :=
  .next (takePeer h mtPageWr (fun s =>
    forEach entries (fun e s => match exportOf s e.handle h.src with
      | some (slot, _) => releaseExport slot e.layer s
      | none => s) (reply h mtAck 1 0 0 [] s)) s)

/-- PEER_READ_TIMEOUT (R434): resent on the next FABRIC port, up to three times; after that it waits. -/
def execPeerReadTimeout (tag : Nat) (s : State) : Out :=
  .next (match mget s.casc.reads tag with
    | none => s
    | some r =>
      if 3 ≤ r.resends then s
      else sendPeerRead tag (s.modCasc fun c => { c with reads := mset c.reads tag { r with resends := r.resends + 1 } }))

end Sys2Proof.Machine
end

