-- ==== Sys2Proof/Machine/Publish.lean ====
section
/-! DEFINITION. Publishing (06 R192 to R198, R202): the pending table, the block's pages, the compare, and the entry. -/

namespace Sys2Proof.Machine

open Sys2Proof

/-! ### The block's pages (R194 step 2, R195) -/

/-- A block's pages in one layer: the entries over [pos, pos + n), in order; none where a position has none. -/
def blockEntries (q : Seq) (layer stop : Nat) : Nat → Nat → Option (List PEnt)
  | 0, _ => some []
  | fuel + 1, pos =>
    if stop ≤ pos then some []
    else match entAt q layer pos with
      | none => none
      | some e => (blockEntries q layer stop fuel (e.first + tokens e.size)).map fun l => e :: l

/-- Source pages of every layer (R194 step 2), or the status that ends the publish. -/
def publishPages (s : State) (q : Seq) (h k : Nat) : Except Ans (List (List PEnt)) :=
  let m := seqModel s q
  let b := m.block
  if q.length < (k + 1) * b then .error (internal 0x20)
  else
    let per := (List.range m.layers).map fun l => blockEntries q l ((k + 1) * b) (b + 1) (k * b)
    let all := per.flatMap fun l => l.getD []
    if all.any fun e => (pageOf s h e).tier == .dropped then .error { status := stDropped }
    else if per.any (·.isNone) || all.any (fun e => !(pageOf s h e).sealed) then .error (internal 0x20)
    else .ok (per.map fun l => l.getD [])

/-- Rows [a, a + n) of a page by position. -/
def pageRows (p : Page) (a n : Nat) : List (List Byte) := (p.rowData.drop (a - p.first)).take n

/-- The image a block takes from pages of one codec (R264): cut from one, or joined. -/
def blockImage (m : Model) (codec pos : Nat) (ps : List Page) : EncImg :=
  let part := fun (p : Page) => match p.content with
    | .enc img => (min p.rows m.block, cutImg m codec p.rows (pos - p.first) (min p.rows m.block) img)
    | .raw _ => (0, {})
  (ps.foldl (fun (acc : Nat × EncImg) p =>
    let x := part p
    if acc.1 == 0 then x else (acc.1 + x.1, joinImg m codec acc.1 x.1 acc.2 x.2)) (0, {})).2

/-- The block's page in one layer when it is copied (R195): the record, and the state; none where no run or no shared record is had (log 48). -/
def copyPage (h layer pos bid : Nat) (ps : List Page) (s : State) : Option (Nat × State) :=
  match (if recsFree s == 0 then none else seqOf s h) with
  | none => none
  | some q =>
    let m := seqModel s q
    let codec := match nodup (ps.map (·.codec)) with
      | [c] => c
      | _ => 0
    let base : Page :=
      { size := sizeCode m.block, tier := .hbm, durable := q.durable, rows := m.block, layer := layer, first := pos, seq := h
        part := q.part, tenant := q.tenant, sid := q.sid, bid := some bid, desc := mdOf s q.model }
    if codec == 0 then
      let rows := ps.flatMap fun p => pageRows p (max pos p.first) (min m.block p.rows)
      (takeRun q.part (framesFor (m.block * m.rowBytes)) s).map fun (run, s) =>
        let (r, s) := newRec { base with content := .raw rows, run := some run, home := 16 * run.start } q.hint q.prio s
        (r, sealPage (.rec_ r) s)
    else
      let img := blockImage m codec pos ps
      (takeRun q.part (exactFrames m codec m.block img) s).map fun (run, s) =>
        let s := s.modSeqs fun x => { x with sealSeq := x.sealSeq + 1 }
        let p : Page :=
          { base with
            codec := codec, content := .enc img, run := some run, home := 16 * run.start, sealed := true, hasMeta := true
            inherited := true, heads := inheritHeads m m.block img (ps.map (·.heads)), sketch := sketchOf m (expandImg m codec m.block img)
            sealSeq := s.seqs.sealSeq, sealTime := now s, sealEpoch := epochNo s % 65536 }
        let (r, s) := newRec p q.hint q.prio s
        (r, startBacking (.rec_ r) (s.modCdc fun c => { c with cut := sat32 (c.cut + 1) }))

/-- The block's pages (R195): records by layer, pages copied, pages shared in place; none where a copy has no
run, or a page no shared record. -/
def blockPages (h pos bid : Nat) : List (List PEnt) → Nat → State → Option (List Nat × Nat × Nat × State)
  | [], _, s => some ([], 0, 0, s)
  | es :: rest, layer, s =>
    let b := ((seqOf s h).map fun q => (seqModel s q).block).getD 0
    let whole := match es with
      | [e] => e.first == pos && tokens e.size == b
      | _ => false
    let fresh := es.any fun e => match e.ref with
      | .own _ => true
      | .shared _ => false
    if whole && fresh && recsFree s == 0 then none
    else if whole then
      let (r, s) := makeShared h layer pos s
      let s := modRec r (fun x => { x with count := x.count + 1 }) s
      (blockPages h pos bid rest (layer + 1) s).map fun x => (r :: x.1, x.2.1, x.2.2.1 + 1, x.2.2.2)
    else match copyPage h layer pos bid (es.map (pageOf s h)) s with
      | none => none
      | some (r, s) => (blockPages h pos bid rest (layer + 1) s).map fun x => (r :: x.1, x.2.1 + 1, x.2.2.1, x.2.2.2)

/-! ### The index (R192, R194) -/

/-- A block of an owner class by its key. -/
def publishedKey (s : State) (owner : Nat) (key : List Byte) : Option (Nat × Block) :=
  s.pfx.blocks.find? fun x => x.2.state == .published && x.2.owner == owner && x.2.key == key
def pendingKey (s : State) (owner : Nat) (key : List Byte) : Bool := s.pfx.pending.any fun k => k.owner == owner && k.key == key

/-- Find a key in the array and the overflow table, with verification (R194 step 8). -/
def findKey (ctx set owner : Nat) (key : List Byte) (s : State) : Option Row × State :=
  let (w, s) := searchArray set owner [key] s
  match checkHit false owner key (nth w 0 none) s with
  | (.hit r, s) => (some r, s)
  | (_, s) =>
    if hasOvf s owner then
      let (h, s) := searchOvfKey ctx owner key s
      (h.row, s)
    else (none, s)

/-! ### The compare and the switch (R196) -/

/-- The error a page states for a head: the larger of its K and V errors (R255, R196). -/
def statedErr (p : Page) (h : Nat) : Dy :=
  let x := nth p.heads h {}
  (fp32.dec (fmax x.kErr.toNat x.vErr.toNat)).dy

/-- Compare two pages of a block element by element (R196): elements beyond tolerance, and the largest difference as
an FP32 pattern rounded up. Two elements of which one is not finite differ without bound unless they are equal. -/
def comparePages (m : Model) (tol : Dy) (a b : Page) (pos : Nat) : Nat × Nat :=
  let ra := pageRows a pos m.block
  let rb := pageRows b pos m.block
  (List.range m.heads).foldl (fun acc h =>
    let lim := ((statedErr a h).add (statedErr b h)).add tol
    (List.range (min ra.length rb.length)).foldl (fun acc t => [false, true].foldl (fun acc v => (List.range m.d).foldl (fun (acc : Nat × Nat) c =>
      let x := elemAt m v h c (nth ra t [])
      let y := elemAt m v h c (nth rb t [])
      if x == y then acc
      else if m.fmt.isNan x || m.fmt.isInf x || m.fmt.isNan y || m.fmt.isInf y then (acc.1 + 1, fp32.infPat false)
      else
        let d := ((elemDy m x).sub (elemDy m y)).abs
        (if lim.lt d then acc.1 + 1 else acc.1, fmax acc.2 (fp32.ofDy .up d))) acc) acc) acc) (0, 0)

/-- A page with its data: of a Peer page, the image that has arrived (R434). -/
def arrived (s : State) (who : PeerFor) (r : Nat) (p : Page) : Page := if p.tier == .peer then peerPageOf s who r p else p

/-- The page an entry leads to, with its data. -/
def arrivedAt (s : State) (who : PeerFor) (h : Nat) (e : PEnt) : Page :=
  match e.ref with
  | .shared r => arrived s who r (pageOf s h e)
  | .own p => p

/-- Compare the publisher's pages with a block's, over every layer. -/
def compareBlock (s : State) (who : PeerFor) (h pos : Nat) (tol : Dy) (srcs : List (List PEnt)) (b : Block) : Nat × Nat :=
  let m := ((seqOf s h).map (seqModel s)).getD (modelOf [])
  (List.range srcs.length).foldl (fun (acc : Nat × Nat) l =>
    match recOf s (nth b.recs l 0) with
    | none => acc
    | some x => (nth srcs l []).foldl (fun (acc : Nat × Nat) e =>
        let p := { arrivedAt s who h e with first := e.first }
        let at_ := max pos p.first
        let n := min m.block p.rows
        let z := comparePages { m with blockLog2 := Nat.log2 n } tol { arrived s who (nth b.recs l 0) x.page with first := pos } p at_
        (acc.1 + z.1, fmax acc.2 z.2)) acc) (0, 0)

/-- Switch the publisher's pages that are exactly the block's to the existing block (R196): how many. -/
def switchTo (h pos : Nat) (b : Block) (srcs : List (List PEnt)) (s : State) : Nat × State :=
  (List.range srcs.length).foldl (fun (acc : Nat × State) l =>
    let s := acc.2
    let r := nth b.recs l 0
    match seqOf s h, nth srcs l [] with
    | some q, [e] =>
      if e.first != pos || tokens e.size != (seqModel s q).block || e.ref == .shared r then acc
      else
        let s := addRef r q.hint q.prio s
        let s := match e.ref with
          | .shared o => dropRef o true s
          | .own p => freeStores (.seq h l pos) p true s
        let s := invalidate (.seq h l pos) s
        (acc.1 + 1, modSeq h (fun q => { q with pages := q.pages.map fun x =>
          if x.layer == l && x.first == pos then { x with ref := .shared r, gen := e.genOf + 1 } else x }) s)
    | _, _ => acc) (0, s)

/-- The shared records whose Peer pages a compare reads. -/
def comparePeers (s : State) (srcs : List (List PEnt)) (b : Block) : List Nat :=
  let peer := fun (r : Nat) => ((recOf s r).map (·.page.tier)) == some Tier.peer
  nodup ((b.recs ++ srcs.flatten.filterMap fun e => match e.ref with
    | .shared r => some r
    | .own _ => none).filter peer)

/-- The publish lets go of the existing block's pages and of what it has read of peers. -/
def letGo (p : PubSt) (s : State) : State :=
  forEach p.refs (fun r s => dropRef r false s) (dropImages (.op p.id) s)

/-- The end of a publish that found its key (R196): the compare, charged to the context for a time the manual does not give (log 5), then
DIVERGENT, or the switch. -/
def already (ctx block gen : Nat) (p : PubSt) (b : Block) (srcs : List (List PEnt)) (s : State) : Ans × State :=
  match seqOf s p.seq with
  | none => (internal 0x10, s)
  | some q =>
    let handle := blockHandle block gen
    let pos := p.block * (seqModel s q).block
    let (bad, big) := if p.compare then compareBlock s (.op p.id) p.seq pos (fp16.dec p.tol.toNat).dy srcs b else (0, 0)
    let (v, s) := if p.compare then fresh 32 s else (0, s)
    let s := when p.compare (chargeCore ctx v.toNat) s
    if bad != 0 then
      ({ status := stDivergent, a := handle, c := min bad 0xFFFFFFFF, loss := big },
        emit 0 0 evDivergent [handle, big] (letGo p (s.modPfx fun x => { x with pubDivergent := sat32 (x.pubDivergent + 1) })))
    else
      let (k, s) := switchTo p.seq pos b srcs s
      ({ status := stAlready, a := handle, b := k, c := k },
        sweepJournals (letGo p (s.modPfx fun x => { x with pubAlready := sat32 (x.pubAlready + 1) })))

/-! ### The steps of a publish (R194) -/

/-- Steps 9 and 10 of R194: the block, its pages and its entry. A failure leaves the index as it was. -/
def newBlock (p : PubSt) (owner action : Nat) (srcs : List (List PEnt)) (s : State) : Ans × State :=
  match seqOf s p.seq with
  | none => (internal 0x10, s)
  | some q =>
    let m := seqModel s q
    let (bid, s1) := takeSeq 1 s
    match blockPages p.seq (p.block * m.block) bid srcs 0 s1 with
    | none => ({ status := stNoSpace }, s)
    | some (recs, copied, shared, s1) =>
      match s1.pfx.freeQ.take with
      | none => ({ status := stNoSpace }, s)
      | some (b, fq) =>
        match takeRun q.part (framesFor (4 * m.layers)) s1 with
        | none => ({ status := if covers s1 q.part 1 (frameBytes (framesFor (4 * m.layers))) then stNoSpace else stQuota }, s)
        | some (run, s1) =>
          let gen := (mgetD s1.pfx.gens b 0 + 1) % 128
          let parent := ((publishedKey s1 owner p.parent).map (·.2.bid)).getD 0
          let blk : Block :=
            { state := .pending, durable := q.durable, locked := action == 2, owner := owner, gen := gen, loc := none, recs := recs
              run := some run, prio := p.prio, key := p.key, num := p.block, bid := bid, parentBid := parent, pubSid := q.sid
              part := q.part, model := q.model }
          let s1 := charge q.part 4 1 (s1.modPfx fun x => { x with blocks := mset x.blocks b blk, gens := mset x.gens b gen, freeQ := fq })
          let s1 := if action == 2 then forEach recs (fun r s => pinStops (.rec_ r) (modRec r (fun x => { x with hint := 1 }) s)) s1 else s1
          match placeBlock b m.bankSet s1 with
          | none => ({ status := stNoSpace }, s)
          | some s1 =>
            let s1 := s1.modPfx fun x =>
              { x with blocks := mmod x.blocks b fun y => { y with state := .published }, pubOk := sat32 (x.pubOk + 1) }
            let s1 := when q.durable (addCat (.block bid parent p.key owner p.prio (action == 2) p.block q.sid q.part q.model) q.tenant true) s1
            ({ status := stOk, a := blockHandle b gen, b := copied, c := shared }, s1)

/-- How a publish goes: ended, or at a step it goes on from later. -/
inductive Pub where
  | ended (a : Ans) (s : State)
  | wait (p : PubSt) (s : State)

/-- Step 7: the key enters the pending table, and the publish owns it; or it waits for another publish of the key, or for room. -/
def enterKey (id owner : Nat) (p : PubSt) (s : State) : Pub :=
  if pendingKey s owner p.key || decide (1024 ≤ s.pfx.pending.length) then .wait { p with stage := 7 } s
  else .wait { p with stage := 8 } (s.modPfx fun x => { x with pending := x.pending ++ [{ owner := owner, key := p.key, op := id }] })

/-- Step 5 for a block above the first, and what follows it: the parent is published or fails, or is pending still. -/
def checkParent (id owner : Nat) (p : PubSt) (s : State) : Pub :=
  if (publishedKey s owner p.parent).isSome then enterKey id owner p s
  else if pendingKey s owner p.parent then .wait { p with stage := 5 } s
  else .ended (internal 0x21) s

/-- Owner class of a publish. -/
def pubOwner (s : State) (ctx : Nat) (p : PubSt) : Nat :=
  ownerOf (ctxOf s ctx).part (((seqOf s p.seq).map (·.model)).getD 0) p.adapter

/-- Steps 1 to 7 of R194. -/
def startPublish (id ctx : Nat) (tokens : List Byte) (p : PubSt) (s : State) : Pub :=
  match seqOf s p.seq with
  | none => .ended (internal 0x10) s
  | some q =>
    if p.prio == 0 then .ended (internal 0x26) s
    else match publishPages s q p.seq p.block with
      | .error a => .ended a s
      | .ok _ =>
        let owner := pubOwner s ctx p
        if policyFor s owner == 1 then .ended (internal 0x22) s
        else if !covers s q.part 4 1 then .ended { status := stQuota } s
        else
          let p := { p with key := fullKey (mdOf s q.model) p.adapter p.parent tokens }
          if p.block == 0 then (if p.parent == List.replicate 64 0 then enterKey id owner p s else .ended (internal 0x21) s)
          else checkParent id owner p s

/-- The existing block a publish found, while it is still published. -/
def foundBlock (s : State) (p : PubSt) : Option (Nat × Nat × Block) :=
  p.found.bind fun x => (mget s.pfx.blocks x.1).bind fun b => if b.state == .published && b.gen == x.2 then some (x.1, x.2, b) else none

/-- Step 8: the search. A key found is counted once against the slot's publish counter, and the block's pages are held (R196); one not
found is published. -/
def searchPublish (ctx : Nat) (p : PubSt) (q : Seq) (srcs : List (List PEnt)) (s : State) : Pub :=
  let m := seqModel s q
  let owner := pubOwner s ctx p
  match findKey ctx m.bankSet owner p.key s with
  | (some row, s) =>
    let n := mgetD s.pfx.pubCount q.model 0 + 1
    let s := when (!p.counted) (fun s => s.modPfx fun x => { x with pubCount := mset x.pubCount q.model n }) s
    let compare := if p.counted then p.compare else m.compareLog2 != 0 && n % 2 ^ m.compareLog2 == 0
    let recs := ((mget s.pfx.blocks row.block).map (·.recs)).getD []
    let s := forEach recs (fun r s => modRec r (fun x => { x with count := x.count + 1 }) s) s
    .wait { p with stage := 9, found := some (row.block, row.gen), counted := true, compare := compare, refs := recs } s
  | (none, s) =>
    let (a, s) := newBlock p owner (policyFor s owner) srcs s
    .ended a s

/-- A publish that holds its key goes on: from step 8, or to the end of R196, once the Peer pages it compares have arrived. A block
retired meanwhile leaves it a publish of a key not yet found. -/
def stepPublish (ctx : Nat) (p : PubSt) (s : State) : Pub :=
  match seqOf s p.seq with
  | none => .ended (internal 0x10) (letGo p s)
  | some q => match publishPages s q p.seq p.block with
    | .error a => .ended a (letGo p s)
    | .ok srcs =>
      if p.stage == 8 then searchPublish ctx p q srcs s
      else match foundBlock s p with
        | none => .wait { p with stage := 8, found := none, refs := [] } (letGo p s)
        | some (block, gen, b) =>
          let peers := if p.compare then comparePeers s srcs b else []
          if peers.all (peerWhole s (.op p.id)) then
            let (a, s) := already ctx block gen p b srcs s
            .ended a s
          else .wait p (forEach peers (wantPeer (.op p.id)) s)

/-- Put the outcome of a publish into its op. -/
def putPublish (id : Nat) (r : Pub) : State :=
  match r with
  | .ended a s => finishOp id a (s.modPfx fun p => { p with pending := p.pending.filter fun k => k.op != id })
  | .wait p s => modOp id (fun o => { o with body := .publish p }) s

/-- A publish that owns its key goes on by itself; one that waits at steps 5 or 7 does not (log 48). -/
def drivePublish (id : Nat) (s : State) : State :=
  match mget s.ops.tab id with
  | none => s
  | some o => match o.body with
    | .publish p => if 8 ≤ p.stage then putPublish id (stepPublish o.ctx p s) else s
    | _ => s

/-- The effect of PFX_PUBLISH at its start: its operands are the parent key and the token ids (R193). -/
def pfxPublish (ring : Nat) (e : Entry) (s : State) : State :=
  let il := eInline e.raw
  let ops := e.operands.getD []
  let ctx := (ringOf s ring).context
  let h := field il 0 3
  let need := ((seqOf s h).map fun q => 64 + 4 * (seqModel s q).block).getD 0
  if !seqOk s ctx h then endNow ring e (internal 0x10) s
  else if eLen e.raw != need then endNow ring e (internal 0x04) s
  else
    let p : PubSt :=
      { seq := h, block := field il 4 4, adapter := field il 8 4, prio := field il 12 1, tol := BitVec.ofNat 16 (field il 14 2)
        parent := ops.take 64, key := [] }
    let (id, s) := beginOp ring e (.publish p) (countWait ctx e.arrival s)
    putPublish id (startPublish id ctx (ops.drop 64) { p with id := id } s)

/-- PFX_PUBLISH (R193 to R198). -/
def execPfxPublish (ring : Nat) (s : State) : Out := .next (startOp opPfxPublish ring (pfxPublish ring) s)

/-- A publish that waits at step 5 or 7 looks again (R194). -/
def resumePublish (id : Nat) (o : Op) (p : PubSt) (s : State) : Pub :=
  if p.stage == 5 then checkParent id (pubOwner s o.ctx p) p s else enterKey id (pubOwner s o.ctx p) p s

/-- PUBLISH_WAIT_END (R194): a publish that waited goes on at the step it waited at. -/
def execPublishWaitEnd (op : Nat) (s : State) : Out :=
  .next (match mget s.ops.tab op with
    | some o => match o.body with
      | .publish p => if p.stage == 5 || p.stage == 7 then putPublish op (resumePublish op o p s) else s
      | _ => s
    | none => s)

end Sys2Proof.Machine
end

