-- ==== Sys2Proof/Machine/Attn.lean ====
section
/-! DEFINITION. Attention (07 R210 to R234, R244, R245): the descriptor and its checks, work units, the arithmetic of a
span, merging, selection by sketches, the backward pass and the results. -/

namespace Sys2Proof.Machine

open Sys2Proof

/-! ### The descriptor (Table 7.2) -/

def dModel (b : List Byte) : Nat := field b 0 1
def dLayer (b : List Byte) : Nat := field b 1 1
def dMode (b : List Byte) : Nat := field b 2 1
def dPartial (b : List Byte) : Bool := bit (field b 3 1) 0
def dOutFp32 (b : List Byte) : Bool := bit (field b 3 1) 1
def dPacked (b : List Byte) : Bool := bit (field b 3 1) 2
def dNewCached (b : List Byte) : Bool := bit (field b 3 1) 3
def dQFp8 (b : List Byte) : Bool := bit (field b 3 1) 4
def dEntries (b : List Byte) : Nat := field b 4 2
def dPartsMax (b : List Byte) : Nat := field b 6 1
def dTotalQ (b : List Byte) : Nat := field b 8 4
def dScale (b : List Byte) : Nat := field b 12 4

/-- The score scale: the descriptor's, or 1/√head_dim rounded to FP32. -/
def scaleOf (m : Model) (b : List Byte) : Nat :=
  if dScale b != 0 then dScale b
  else if m.d == 64 then 0x3E000000
  else if m.d == 128 then 0x3DB504F3
  else 0x3D800000

/-- Node and address of a buffer field. -/
def bufNode (b : List Byte) (off : Nat) : Nat := field b (off + 6) 2
def bufAddr (b : List Byte) (off : Nat) : Nat := field b off 6

/-- An entry of the length table (Table 7.3). -/
def lenEnt (b : List Byte) (i : Nat) : LenEnt :=
  let o := 128 + 16 * i
  { seq := field b o 3, cached := field b (o + 4) 4 % 2 ^ 23, new := field b (o + 8) 2, segment := field b (o + 10) 2
    q := field b (o + 12) 4 % 2 ^ 17 }

def lenEnts (b : List Byte) : List LenEnt := (List.range (dEntries b)).map (lenEnt b)

/-- What the ladder takes its settings from: a context, or a step header (R357). -/
structure LadderSrc where
  bits : Nat
  k : Nat
  sink : Nat
  window : Nat
  tol : Nat

def ctxLadder (c : Ctx) : LadderSrc := { bits := c.ladder, k := c.sketchK, sink := c.sink, window := c.window, tol := c.tol }

/-- A field of the descriptor, or the source's where it is zero. -/
def orElse (x y : Nat) : Nat := if x == 0 then y else x

/-- An attention op as it is asked for. -/
def attnAsked (opcode : Nat) (b : List Byte) (l : LadderSrc) : AttnSt :=
  { opcode := opcode, desc := b.take 128, ents := lenEnts b, ladder := l.bits, k := orElse (field b 16 2) l.k
    sink := orElse (field b 18 2) l.sink, window := orElse (field b 20 4) l.window
    tol := BitVec.ofNat 16 (orElse (field b 24 2) l.tol) }

/-! ### Checks (R218) -/

/-- Step 1: the length of the operands (R212). -/
def attnLenOk (b : List Byte) : Bool :=
  decide (128 ≤ b.length) && b.length == 128 + 16 * dEntries b + (if dPacked b then 2 * dTotalQ b else 0)

/-- A positive finite FP32 value. -/
def positive (x : Nat) : Bool :=
  match fp32.dec x with
  | .fin n m _ => !n && m != 0
  | _ => false

/-- Step 4: every field within its range for the op (Table 7.2). -/
def attnFieldsOk (opcode : Nat) (b : List Byte) (a : AttnSt) : Bool :=
  let bwd := opcode == opAttnBwd
  let common := (dScale b == 0 || positive (dScale b)) && decide (1 ≤ dTotalQ b) && decide (dTotalQ b ≤ 65536) &&
    decide (1 ≤ dEntries b)
  if bwd then
    common && dMode b == 0 && field b 3 1 &&& 0xF1 == 0 && decide (dEntries b ≤ 64) && dPartsMax b == 0 &&
      field b 16 2 == 0 && field b 18 2 == 0 && field b 20 4 == 0 && field b 24 2 == 0 &&
      decide (1 ≤ field b 0x5C 4) && decide (field b 0x5C 4 ≤ 65536)
  else
    common && decide (dMode b ≤ 2) && (dMode b == 0 || opcode == opAttnDecode) && (!dPacked b || opcode == opAttnChunk) &&
      decide (dEntries b ≤ 16384) && (!dPartial b || (decide (1 ≤ dPartsMax b) && decide (dPartsMax b ≤ 64))) &&
      decide (field b 20 4 ≤ 4194304) && decide (field b 24 2 ≤ 0x3C00) &&
      field b 0x40 8 == 0 && field b 0x48 8 == 0 && field b 0x50 8 == 0 && field b 0x58 4 == 0 && field b 0x5C 4 == 0 &&
      (dMode b != 1 || decide (1 ≤ a.k))

/-- Step 5: the entries in order; the subcode of the first failure. -/
def entriesBad (s : State) (ctx opcode : Nat) (b : List Byte) : List LenEnt → List LenEnt → Option Nat
  | _, [] => none
  | seen, e :: rest =>
    let q := (seqOf s e.seq).getD {}
    let new := if opcode == opAttnDecode then e.new == 1 else decide (1 ≤ e.new) && decide (e.new ≤ 2048)
    let top := if dNewCached b then e.cached + e.new else e.cached
    let apart := seen.all fun x => x.seq != e.seq && x.segment != e.segment && (decide (x.q + x.new ≤ e.q) || decide (e.q + e.new ≤ x.q))
    if !(seqOk s ctx e.seq && q.model == dModel b) then some 0x10
    else if !(new && decide (top ≤ q.length) && decide (e.q + e.new ≤ dTotalQ b) && e.segment != 0xFFFF && apart) then some 0x31
    else entriesBad s ctx opcode b (e :: seen) rest

/-- Step 6: the segment table (R215). -/
def segmentsOk (b : List Byte) : Bool :=
  let es := lenEnts b
  let base := 128 + 16 * dEntries b
  (List.range (dTotalQ b)).all fun t =>
    let want := ((es.find? fun e => decide (e.q ≤ t) && decide (t < e.q + e.new)).map (·.segment)).getD 0xFFFF
    field b (base + 2 * t) 2 == want

/-- Step 7: the gradient buffer lies in one extent granted to the requester. -/
def gradOk (s : State) (req : Node) (m : Model) (b : List Byte) : Bool :=
  let a := field b 0x50 8
  let n := dEntries b * field b 0x5C 4 * m.heads * 8 * m.d
  bufNode b 0x50 == selfNode s && (match extOf s (bufAddr b 0x50), extOf s (a % 2 ^ 48 + n - 1) with
    | some (e, x), some (f, _) => e == f && x.state == .active && x.grantees.any fun g => g.1 == req
    | _, _ => false)

/-- The checks of an attention op in order: the subcode of the first that fails. -/
def attnBad (s : State) (ctx : Nat) (req : Node) (opcode : Nat) (b : List Byte) (a : AttnSt) : Option Nat :=
  let m := modelOf (mdOf s (dModel b))
  if !attnLenOk b then some 0x33
  else if !slotOk s ctx (dModel b) then some 0x13
  else if m.layers ≤ dLayer b then some 0x14
  else if !attnFieldsOk opcode b a then some 0x30
  else match entriesBad s ctx opcode b [] (lenEnts b) with
    | some n => some n
    | none =>
      if dPacked b && !segmentsOk b then some 0x32
      else if opcode == opAttnBwd && !gradOk s req m b then some 0x36
      else none

/-! ### Requester buffers (R216, R462) -/

/-- Bytes of a query record, a kv_src record, a final output record. -/
def qRec (m : Model) (b : List Byte) : Nat :=
  let hq := m.heads * m.group
  if dQFp8 b then hq * m.d + 4 * hq else 2 * hq * m.d
def kvRec (m : Model) : Nat := 4 * m.heads * m.d
def oRec (m : Model) (b : List Byte) : Nat := m.heads * m.group * m.d * (if dOutFp32 b then 4 else 2)

/-- Number of an op's buffer: kind 0 query, 1 kv_src, 2 O, 3 dO, 4 statistics, of an entry. -/
def attnBuf (i kind : Nat) : Nat := 2 ^ 40 + 8 * i + kind

/-- The reads an attention op makes: buffer, node, address, bytes. Padding is never read. -/
def attnReads (m : Model) (a : AttnSt) : List (Nat × Nat × Nat × Nat) :=
  let b := a.desc
  (List.range a.ents.length).flatMap fun i =>
    let e := nth a.ents i { seq := 0, cached := 0, new := 0, segment := 0, q := 0 }
    let rd := fun (kind off size : Nat) => (attnBuf i kind, bufNode b off, (bufAddr b off + e.q * size) % 2 ^ 48, e.new * size)
    [rd 0 0x20 (qRec m b)] ++ (if dNewCached b then [] else [rd 1 0x28 (kvRec m)]) ++
      (if a.opcode == opAttnBwd then [rd 2 0x40 (oRec m b), rd 3 0x48 (oRec m b), rd 4 0x38 (32 * m.heads * m.group)] else [])

/-- Begin an attention op's reads. -/
def beginAttnReads (id key : Nat) (m : Model) (a : AttnSt) (s : State) : State :=
  forEach (attnReads m a) (fun r s => beginRead (.op id r.1) r.2.1 r.2.2.1 r.2.2.2 key s) s

/-! ### The attention state of an op -/

def attnOf (o : Op) : Option AttnSt :=
  match o.body with
  | .attn a => some a
  | .step _ _ _ a _ => a
  | _ => none

/-- Update the attention state of an op. -/
def modAttnSt (id : Nat) (f : AttnSt → AttnSt) (s : State) : State :=
  modOp id (fun o => { o with body := match o.body with
    | .attn a => .attn (f a)
    | .step r x y a z => .step r x y (a.map f) z
    | b => b }) s

/-! ### Pages as a unit reads them -/

/-- Keys of an entry that its sequence holds: the cached ones, and with NEW_KV_CACHED the new ones. -/
def storedKeys (b : List Byte) (e : LenEnt) : Nat := e.cached + (if dNewCached b then e.new else 0)

/-- The pages that hold positions [lo, hi) of a layer of a sequence, in order. -/
def pagesOver (s : State) (h layer lo hi : Nat) : List PEnt :=
  match seqOf s h with
  | none => []
  | some q => sortBy (fun x y => decide (x.first < y.first))
      (q.pages.filter fun e => e.layer == layer && decide (e.first < hi) && decide (lo < e.first + tokens e.size))

/-- A page of an entry as a walk finds it. -/
def seePage (s : State) (h : Nat) (e : PEnt) : Seen :=
  let p := pageOf s h e
  { at_ := e.at_ h, page := { p with first := e.first, size := e.size }
    peer := match e.ref, p.tier with
      | .shared r, .peer => some r
      | _, _ => none }

/-- A page that a reader has found, with its data: of a Peer page, the image that has arrived for it, without a sketch (R228). One that
has left its peer meanwhile is read as it stands. -/
def Seen.arrived (s : State) (who : PeerFor) (g : Seen) : Page :=
  match g.peer with
  | none => g.page
  | some r => match recOf s r with
    | none => { g.page with tier := .dropped }
    | some x =>
      let p := if x.page.tier == .peer then { peerPageOf s who r x.page with hasMeta := false, sketch := none } else x.page
      { p with first := g.page.first, size := g.page.size }

/-- Whether a reader has what a page it has found needs: a Peer page's image, unless the page has left its peer. -/
def Seen.here (s : State) (who : PeerFor) (g : Seen) : Bool :=
  match g.peer with
  | none => true
  | some r => peerWhole s who r || ((recOf s r).map (·.page.tier)) != some Tier.peer

/-! ### Cutting an op into work units (R219 to R221) -/

/-- A share of an op before it is split: entries, heads, query block, keys [lo, hi). -/
structure Plan where
  entries : List Nat
  heads : List Nat
  qFirst : Nat
  qCount : Nat
  lo : Nat
  hi : Nat
  grouped : Bool

/-- Entry `i` of an op. -/
def AttnSt.ent (a : AttnSt) (i : Nat) : LenEnt := nth a.ents i { seq := 0, cached := 0, new := 0, segment := 0, q := 0 }

/-- Shared records of an entry's leading pages with the position each ends at, up to the keys its sequence holds. -/
def sharedChain (q : Seq) (layer cached : Nat) : Nat → Nat → List (Nat × Nat)
  | 0, _ => []
  | fuel + 1, pos =>
    match entAt q layer pos with
    | some e => match e.ref with
      | .shared r =>
        let stop := e.first + tokens e.size
        (r, min stop cached) :: (if cached ≤ stop then [] else sharedChain q layer cached fuel stop)
      | .own _ => []
    | none => []

/-- The end of the longest run that chains share: it goes on past a page only where every chain does. -/
def commonRun : Nat → List (List (Nat × Nat)) → Nat
  | 0, _ => 0
  | fuel + 1, ls =>
    match ls.head?.bind (·.head?) with
    | none => 0
    | some x =>
      if ls.all fun l => (l.head?.map (·.1)) == some x.1 then
        if ls.all fun l => l.head? == some x then max x.2 (commonRun fuel (ls.map (·.drop 1)))
        else (minOf (ls.map fun l => ((l.head?).map (·.2)).getD 0)).getD 0
      else 0

/-- Groups of entries whose leading pages are the same shared records, `k` entries at most, and the end of the range
each group shares. -/
def groupsIn (chains : List (List (Nat × Nat))) (k : Nat) (barred : List Nat) : List (List Nat × Nat) :=
  let head := fun (i : Nat) => if barred.contains i then none else (nth chains i []).head?.map (·.1)
  let firsts := nodup ((List.range chains.length).filterMap head)
  firsts.flatMap fun r =>
    let es := (List.range chains.length).filter fun i => head i == some r
    ((List.range (ceilDiv es.length k)).map fun j => (es.drop (k * j)).take k).filterMap fun l =>
      if l.length < 2 then none
      else
        let cs := l.map fun i => nth chains i []
        some (l, commonRun (maxOf (cs.map (·.length)) + 1) cs)

/-- KV heads of one unit: adjacent pairs where head_dim is 64 and the group at most 8. -/
def headSets (m : Model) : List (List Nat) :=
  if m.d == 64 && decide (m.group ≤ 8) then
    (List.range (ceilDiv m.heads 2)).map fun j => (List.range 2).filterMap fun i => if 2 * j + i < m.heads then some (2 * j + i) else none
  else (List.range m.heads).map fun h => [h]

/-- Spans of a share of `n` keys (R220). -/
def spanCount (split : Bool) (n cap most : Nat) : Nat := if !split || decide (n < 4096) then 1 else min (min 64 most) (min (n / 2048) cap)

/-- Shares of an op under a choice of groups. -/
def plansOf (m : Model) (a : AttnSt) (groups : List (List Nat × Nat)) : List Plan :=
  let inGroup := groups.flatMap (·.1)
  let g := groups.flatMap fun x =>
    ((List.range m.heads).map fun h => ({ entries := x.1, heads := [h], qFirst := 0, qCount := 1, lo := 0, hi := x.2, grouped := true } : Plan)) ++
      x.1.flatMap fun i => (headSets m).map fun hs =>
        { entries := [i], heads := hs, qFirst := 0, qCount := 1, lo := x.2, hi := (a.ent i).cached + 1, grouped := false }
  let rest := ((List.range a.ents.length).filter fun i => !inGroup.contains i).flatMap fun i => (headSets m).flatMap fun hs =>
    (List.range (ceilDiv (a.ent i).new 256)).map fun b =>
      let n := min 256 ((a.ent i).new - 256 * b)
      ({ entries := [i], heads := hs, qFirst := 256 * b, qCount := n, lo := 0, hi := (a.ent i).cached + 256 * b + n, grouped := false } : Plan)
  g ++ rest

/-- The shares of an op: with PARTIAL, an entry whose parts would exceed parts_max is not grouped. -/
def choosePlans (m : Model) (a : AttnSt) (split : Bool) (chains : List (List (Nat × Nat))) (k idle most : Nat) :
    Nat → List Nat → List Plan
  | 0, _ => plansOf m a []
  | fuel + 1, barred =>
    let gs := if k < 2 then [] else groupsIn chains k barred
    let ps := plansOf m a gs
    let cap := max 1 (idle / ps.length)
    let bad := gs.flatMap fun x => x.1.filter fun i =>
      most < spanCount split x.2 cap most + spanCount split ((a.ent i).cached + 1 - x.2) cap most
    if bad.isEmpty || most == 64 && !dPartial a.desc then ps
    else choosePlans m a split chains k idle most fuel (barred ++ bad)

/-- Codec and tier that choose the predictor entry of a unit: those of its first page. -/
def unitClass (s : State) (a : AttnSt) (p : Plan) : Nat × Nat :=
  let e := a.ent (nth p.entries 0 0)
  match (seqOf s e.seq).bind fun q => entAt q (dLayer a.desc) p.lo with
  | none => (0, 1)
  | some x =>
    let g := pageOf s e.seq x
    (g.codec, match g.tier with
      | .hamper => 0
      | .slc => 2
      | .bulk => 3
      | _ => 1)

/-- The pages of an entry that ATTN_BWD walks before its first addition (R245). -/
def bwdWalk (s : State) (a : AttnSt) (i : Nat) : Nat × List Seen :=
  let e := a.ent i
  (i, (pagesOver s e.seq (dLayer a.desc) 0 (storedKeys a.desc e)).map (seePage s e.seq))

/-- Cut an op that is dispatched with `idle` cores idle: its units are queued, and counted. -/
def cutUnits (id ctx part idle : Nat) (m : Model) (a : AttnSt) (s : State) : State :=
  let split := s.attn.splitEn
  let most := if dPartial a.desc then dPartsMax a.desc else 64
  let k := if a.opcode == opAttnDecode && s.attn.groupEn && !(dPartial a.desc && decide (most < 2)) then 16 / m.group else 0
  let chains := a.ents.map fun e => match seqOf s e.seq with
    | some q => sharedChain q (dLayer a.desc) (storedKeys a.desc e) (q.pages.length + 1) 0
    | none => []
  let ps := choosePlans m a split chains k idle most (a.ents.length + 1) []
  let cap := max 1 (idle / ps.length)
  let us := ps.flatMap fun p =>
    let n := spanCount split (p.hi - p.lo) cap most
    let cls := unitClass s a p
    let seen := if a.opcode == opAttnBwd then p.entries.map (bwdWalk s a) else []
    (List.range n).map fun j =>
      ({ op := id, seen := seen, ctx := ctx, part := part, entries := p.entries, heads := p.heads, qFirst := p.qFirst, qCount := p.qCount, lo := p.lo
         hi := p.hi, span := j, spans := n, grouped := p.grouped, codec := cls.1, tier := cls.2 } : WUnit)
  let grouped := count (fun (p : Plan) => p.grouped) ps
  let cuts := sum (ps.map fun p => if 1 < spanCount split (p.hi - p.lo) cap most then p.entries.length * p.heads.length else 0)
  let s := us.foldl (fun s u => s.modAttn fun x => { x with units := mset x.units x.nextUnit { u with id := x.nextUnit }, nextUnit := x.nextUnit + 1 }) s
  modAttnSt id (fun a => { a with total := us.length, left := us.length, cut := true })
    (s.modAttn fun x => { x with grouped := sat32 (x.grouped + grouped), split := sat32 (x.split + cuts) })

/-! ### The lookaside buffers (R144) -/

/-- The lookaside set an entry belongs to (64 sets). -/
def PlbEnt.set (e : PlbEnt) : Nat := Config.plbHash e.handle e.layer e.range % 64

/-- Whether two entries stand for one page in one range. -/
def PlbEnt.same (e x : PlbEnt) : Bool := x.handle == e.handle && x.layer == e.layer && x.first == e.first && x.range == e.range

/-- A walk unit's lookup in its sequence cache of 256 (R144): the entry becomes the newest. An entry whose table entry has changed other
than in its length has been invalidated (R146). -/
def seqLook (cluster h : Nat) (s : State) : State :=
  let bare := fun (b : List Byte) => b.take 4 ++ b.drop 8
  let l := (mgetD s.seqs.seqCache cluster []).filter fun x => x.1 != h && bare x.2 == bare (seqEntry s x.1)
  s.modSeqs fun q => { q with seqCache := mset q.seqCache cluster ((h, seqEntry s h) :: l.take 255) }

/-- A lookup in a cluster's lookaside buffer: a hit is counted and becomes the set's newest; a miss is counted and filled, the
oldest of eight ways going. -/
def plbLook (cluster : Nat) (e : PlbEnt) (s : State) : State :=
  let l := mgetD s.seqs.plb cluster []
  let rest := l.filter fun x => !x.same e
  let ways := (rest.filter fun x => x.set == e.set).take 7
  let l' := e :: ways ++ rest.filter fun x => x.set != e.set
  s.modSeqs fun q =>
    { q with
      plb := mset q.plb cluster l'
      plbHit := if l.any e.same then mset q.plbHit cluster (mgetD q.plbHit cluster 0 + 1) else q.plbHit
      plbMiss := if l.any e.same then q.plbMiss else mset q.plbMiss cluster (mgetD q.plbMiss cluster 0 + 1) }

/-- The lookaside entries of a table entry over positions `lo` to `hi`: one for each 16,384-token range looked up. -/
def plbEnts (s : State) (h lo hi : Nat) (e : PEnt) : List PlbEnt :=
  let a := max e.first lo / 16384
  let b := (min (e.first + tokens e.size) hi - 1) / 16384
  (List.range (b + 1 - a)).map fun i =>
    { handle := h, layer := e.layer, first := e.first, size := e.size, range := a + i, leaf := leafWord (pageOf s h e)
      rec_ := match e.ref with
        | .own _ => none
        | .shared r => some r }

/-- One read of pages over positions `lo` to `hi` looks each of `wanted` up once in each range (log 5). -/
def walks (cluster h layer lo hi : Nat) (wanted : PageAt → Bool) (s : State) : State :=
  forEach ((pagesOver s h layer lo hi).filter fun e => wanted (e.at_ h)) (fun e s =>
    forEach (plbEnts s h lo hi e) (plbLook cluster) (seqLook cluster h s)) s

/-- Whether what a KV head's row needs of a page holds a poisoned line (R104, R267). -/
def rowPoisoned (s : State) (p : Page) (h i : Nat) : Bool :=
  match p.tier, p.run with
  | .hbm, some r => (rowParts p.model p h i).any fun x => runPoisoned s r x.1 x.2
  | _, _ => false

/-! ### The expander's table cache (R267) -/

/-- A controller's expander uses a table: whether it was among the 256 used last. -/
def useTable (addr : Nat) (s : State) : State :=
  let c := ctrlOf addr
  let l := mgetD s.cdc.tables c []
  s.modCdc fun x =>
    { x with
      tables := mset x.tables c (addr :: (l.filter (· != addr)).take 255)
      tableMiss := if l.contains addr then x.tableMiss else sat32 (x.tableMiss + 1) }

/-- Rows [a, a + k) of a KV head are read from a page: the tables they need are used, in the order of the image. -/
def expandRows (p : Page) (h a k : Nat) (s : State) : State :=
  match p.tier, p.run with
  | .hbm, some r => forEach ((tableParts p.model p h a k).map fun x => 4096 * r.start + x) useTable s
  | _, _ => s

/-! ### Query rows and keys -/

/-- A query row: its elements as FP32 patterns, its E4M3 codes where Q_FP8 is set, and its head's scale. -/
structure QRow where
  vals : List Nat
  scale : Option Nat

/-- Query row r of head g of token i of an entry. -/
def queryRow (m : Model) (b : List Byte) (buf : List Byte) (i qh : Nat) : QRow :=
  let hq := m.heads * m.group
  let base := i * qRec m b
  if dQFp8 b then
    { vals := (List.range m.d).map fun c => toFp32 e4m3 (field buf (base + qh * m.d + c) 1)
      scale := some (field buf (base + hq * m.d + 4 * qh) 4) }
  else { vals := (List.range m.d).map fun c => toFp32 m.fmt (field buf (base + 2 * (qh * m.d + c)) 2), scale := none }

/-- A key and value: position, elements as FP32 patterns, E8 codes and exponents where the page holds them. -/
structure Key where
  pos : Nat
  k : List Nat
  v : List Nat
  e8 : Option (List Nat × List Int) := none

/-- Row elements of a KV head. -/
def rowElems (m : Model) (v : Bool) (h : Nat) (row : List Byte) : List Nat :=
  (List.range m.d).map fun c => toFp32 m.fmt (elemAt m v h c row)

/-- The key at a position of a page for a KV head. -/
def pageKey (m : Model) (h pos : Nat) (p : Page) : Key :=
  let i := pos - p.first
  let row := nth p.rowData i []
  { pos := pos, k := rowElems m false h row, v := rowElems m true h row
    e8 := match p.content with
      | .enc img => if p.codec == 1 then some (e8Key m img p.rows h i) else none
      | .raw _ => none }

/-- The key at a position from kv_src: index `j` of the entry's new tokens. -/
def newKey (m : Model) (h pos j : Nat) (buf : List Byte) : Key :=
  let row := (buf.drop (j * kvRec m)).take (kvRec m)
  { pos := pos, k := rowElems m false h row, v := rowElems m true h row }

/-! ### The arithmetic of a span (R223, R224) -/

/-- A dot product, accumulated in FP32. -/
def fdot (x y : List Nat) : Nat := fsum (List.zipWith fmul x y)

/-- Products of groups of 32 channels, each sum under a factor. -/
def groupDot (x y : List Nat) (f : Nat → Nat → Nat) : Nat :=
  fsum ((List.range (x.length / 32)).map fun g => f g (fdot ((x.drop (32 * g)).take 32) ((y.drop (32 * g)).take 32)))

/-- The product of a query row and a key. -/
def scoreDot (q : QRow) (k : Key) : Nat :=
  match q.scale with
  | none => fdot q.vals k.k
  | some sc => match k.e8 with
    | some (codes, exps) => groupDot q.vals (codes.map (toFp32 e4m3)) fun g x =>
        fmul (fmul x (fp32.enc .near false 1 1 (nth exps g 0))) sc
    | none => groupDot q.vals k.k fun _ x => fmul x sc

/-- Round to the element type of V, and back to an FP32 pattern. -/
def roundE (m : Model) (x : Nat) : Nat := toFp32 m.fmt (ofFp32 m.fmt .near x)

/-- The running state of a row: m, l and o. -/
structure RowAcc where
  m : Nat
  l : Nat
  o : List Nat

/-- One tile of keys (R223). -/
def tileStep (m : Model) (scale : Nat) (q : QRow) (acc : RowAcc) (tile : List Key) : RowAcc :=
  if tile.isEmpty then acc
  else
    let ss := tile.map fun k => fmul scale (scoreDot q k)
    let mNew := fmax acc.m (ss.foldl fmax (fp32.infPat true))
    let c := fexp (fsub acc.m mNew)
    let ps := ss.map fun x => fexp (fsub x mNew)
    let pe := ps.map (roundE m)
    { m := mNew, l := fadd (fmul acc.l c) (fsum ps)
      o := (List.range m.d).map fun ch =>
        fadd (fmul (nth acc.o ch 0) c) (fsum (List.zipWith fmul pe (tile.map fun k => nth k.v ch 0))) }

/-- A row over its tiles in ascending position. -/
def spanRow (m : Model) (scale : Nat) (q : QRow) (tiles : List (List Key)) : RowAcc :=
  tiles.foldl (tileStep m scale q) { m := fp32.infPat true, l := 0, o := List.replicate m.d 0 }

/-- Positions gathered into 64-token tiles aligned on 64 positions. -/
def tilesOf (ps : List Nat) : List (List Nat) :=
  (nodup (ps.map (· / 64))).map fun t => ps.filter fun p => p / 64 == t

/-- First tile of span `j` of `s` over `n` tiles: each holds floor(n / s), the last n mod s one more (R220). -/
def tileCut (n s j : Nat) : Nat := j * (n / s) + (j - (s - n % s))

/-- Span `j` of `s` of a list of positions, as tiles. -/
def spanTiles (ps : List Nat) (s j : Nat) : List (List Nat) :=
  let ts := tilesOf ps
  if s ≤ j then [] else (ts.drop (tileCut ts.length s j)).take (tileCut ts.length s (j + 1) - tileCut ts.length s j)

/-! ### Sketch bounds and selection (R229, R230) -/

/-- The bound ub of a query row over a page's sketch. -/
def sketchBound (m : Model) (scale : Nat) (q : QRow) (sk : List (BitVec 16)) (h : Nat) : Nat :=
  let (lo, hi) := sketchHead m sk h
  let neg := match q.scale with
    | some x => decide (2 ^ 31 ≤ x)
    | none => false
  let qs := q.vals.map fun x => if neg then fneg x else x
  let los := lo.map (toFp32 fp16)
  let his := hi.map (toFp32 fp16)
  let mag := fun (x : Nat) => x % 2 ^ 31
  let s1 := fsumUp ((List.range m.d).map fun c => fmax (fmulUp (nth qs c 0) (nth los c 0)) (fmulUp (nth qs c 0) (nth his c 0)))
  let s2 := fsumUp ((List.range m.d).map fun c => fmulUp (mag (nth qs c 0)) (fmax (mag (nth los c 0)) (mag (nth his c 0))))
  let by_ := fun (x : Nat) => match q.scale with
    | some f => fmulUp x (mag f)
    | none => x
  faddUp (fmulUp scale (by_ s1)) (fmulUp (fmulUp (fp32.enc .near false 1 1 (-16)) scale) (by_ s2))

/-- Pages always attended: those with a position below sink or at or above K − window, and those without a sketch. -/
def forcedPage (a : AttnSt) (e : LenEnt) (first stop : Nat) (g : Seen) : Bool :=
  let k := e.cached + e.new
  decide (first < a.sink) || decide (k < stop + a.window) || g.peer.isSome || !g.page.hasMeta || g.page.sketch.isNone

/-- The selection of a triple at a rung, over the pages as they stand (R230). -/
def selectPages (s : State) (m : Model) (o : Op) (a : AttnSt) (i h rung : Nat) : Select :=
  let e := a.ent i
  let base : Select := { entry := i, head := h, qFirst := 0, rung := rung, pages := [], skipped := [] }
  if rung != 1 && rung != 3 then base
  else
    let qs := (List.range m.group).map fun r => queryRow m a.desc (mgetD o.bufs (attnBuf i 0) []) 0 (h * m.group + r)
    let ps := (pagesOver s e.seq (dLayer a.desc) 0 e.cached).map fun x => (x, seePage s e.seq x)
    let stop := fun (x : PEnt) => min (x.first + tokens x.size) e.cached
    let forced := fun (x : PEnt × Seen) => forcedPage a e x.1.first (min (x.1.first + tokens x.1.size) (storedKeys a.desc e)) x.2
    let cands := (ps.filter fun x => !forced x).map fun x =>
      let ubs := qs.map fun q => sketchBound m (scaleOf m a.desc) q (x.2.page.sketch.getD []) h
      ({ first := x.1.first, keys := stop x.1 - x.1.first, ubs := ubs.map (BitVec.ofNat 32) } : Skip)
    let best := fun (c : Skip) => (c.ubs.map (·.toNat)).foldl fmax (fp32.infPat true)
    let sorted := sortBy (fun x y => flt (best y) (best x) || (!(flt (best x) (best y)) && decide (x.first < y.first))) cands
    let n := if rung == 1 then a.k else 0
    { base with pages := (ps.filter forced).map (·.1.first) ++ (sorted.take n).map (·.first), skipped := sorted.drop n }

/-- The selection fixed for a triple. -/
def AttnSt.sel (a : AttnSt) (i h qFirst : Nat) : Option Select :=
  a.selects.find? fun x => x.entry == i && x.head == h && x.qFirst == qFirst

/-- Positions of a triple within a unit's range [lo, hi). -/
def attended (s : State) (a : AttnSt) (u : WUnit) (i : Nat) (x : Select) : List Nat :=
  let e := a.ent i
  let all := (List.range (u.hi - u.lo)).map (u.lo + ·)
  if x.rung != 1 && x.rung != 3 then all
  else
    let ps := (pagesOver s e.seq (dLayer a.desc) 0 e.cached).filter fun y => x.pages.contains y.first
    all.filter fun p => decide (e.cached ≤ p) || ps.any fun y => decide (y.first ≤ p) && decide (p < y.first + tokens y.size)

/-- The tiles of a unit for one of its triples: the spans of dispatch, or those of the selected keys (R230). -/
def unitTiles (s : State) (a : AttnSt) (u : WUnit) (i : Nat) (x : Select) : List (List Nat) :=
  let ps := attended s a u i x
  let n := if x.rung != 1 && x.rung != 3 then u.spans
    else if ps.length < 4096 then 1 else min u.spans (min 64 (ps.length / 2048))
  spanTiles ps n u.span

/-! ### Starting and ending a unit -/

/-- Entries of a unit that are still computed. -/
def liveEntries (a : AttnSt) (u : WUnit) : List Nat := u.entries.filter fun i => !a.failed.contains i

/-- An entry is not computed (R245). -/
def failEntry (id i : Nat) (dropped poisoned : Bool) (s : State) : State :=
  modAttnSt id (fun a =>
    { a with
      failed := if a.failed.contains i then a.failed else a.failed ++ [i]
      dropped := a.dropped || dropped, poisoned := a.poisoned || poisoned }) s

/-- Pages of positions [lo, hi) of an entry: whether one is DROPPED or missing. -/
def hasDropped (s : State) (h layer lo hi : Nat) : Bool :=
  let ps := pagesOver s h layer lo hi
  (ps.any fun e => (pageOf s h e).tier == .dropped) ||
    decide (sum (ps.map fun e => min hi (e.first + tokens e.size) - max lo e.first) < hi - lo)

/-- Positions of a unit's keys in one entry, over its heads. -/
def unitKeysOf (s : State) (a : AttnSt) (u : WUnit) (i : Nat) : List Nat :=
  nodup (u.heads.flatMap fun h => match a.sel i h u.qFirst with
    | none => []
    | some x => (unitTiles s a u i x).flatten)

/-- What a unit's walk of one entry finds: the pages of its stored keys; none where one is DROPPED or missing. -/
def unitWalk (s : State) (a : AttnSt) (u : WUnit) (i : Nat) : Option (List Seen) :=
  let e := a.ent i
  let ks := (unitKeysOf s a u i).filter fun p => decide (p < storedKeys a.desc e)
  let ps := (pagesOver s e.seq (dLayer a.desc) u.lo u.hi).map (seePage s e.seq)
  let on := fun (g : Seen) (p : Nat) => decide (g.page.first ≤ p) && decide (p < g.page.first + g.page.tokens)
  let used := ps.filter fun g => ks.any (on g)
  if (used.any fun g => g.page.tier == .dropped) || !(ks.all fun p => used.any fun g => on g p) then none else some used

/-- The selection of each triple of a unit, fixed where it has not been (R230). -/
def fixSelects (m : Model) (u : WUnit) (s : State) : State :=
  forEach u.entries (fun i s => forEach u.heads (fun h s =>
    match mget s.ops.tab u.op with
    | none => s
    | some o => match attnOf o with
      | none => s
      | some a =>
        if (a.sel i h u.qFirst).isSome then s
        else
          let x := { selectPages s m o a i h u.rung with qFirst := u.qFirst }
          (modAttnSt u.op (fun a => { a with selects := a.selects ++ [x] }) s).modAttn fun y =>
            { y with skippedPages := sat32 (y.skippedPages + x.skipped.length) }) s) s

/-- A unit's walk of one entry (R245, R246): the pages found are those its reads are served from; an entry with a DROPPED page is not
computed. -/
def walkEntry (cluster : Nat) (a : AttnSt) (u : WUnit) (i : Nat) (s : State) : State :=
  match unitWalk s a u i with
  | none => failEntry u.op i true false s
  | some l =>
    let s := walks cluster (a.ent i).seq (dLayer a.desc) u.lo u.hi (fun p => l.any fun g => g.at_ == p) s
    s.modAttn fun x => { x with units := mmod x.units u.id fun v => { v with seen := v.seen ++ [(i, l)] } }

/-- The Peer pages a unit reads. -/
def unitPeers (u : WUnit) : List Nat := nodup (u.seen.flatMap fun x => x.2.filterMap (·.peer))

/-- Ask for the Peer pages of a unit that have not arrived (R222). -/
def askPeers (id : Nat) (s : State) : State :=
  match mget s.attn.units id with
  | none => s
  | some u => forEach (u.seen.flatMap fun x => (x.2.filter fun g => !g.here s (.unit id)).filterMap (·.peer)) (wantPeer (.unit id)) s

/-- A unit starts (R230, R245): what is fixed for its triples, its walk, the Peer pages it needs asked for. The pages of an ATTN_BWD were
walked at its dispatch. -/
def startUnit (cluster : Nat) (u : WUnit) (s : State) : State :=
  match (mget s.ops.tab u.op).bind attnOf with
  | none => s
  | some a =>
    let s := fixSelects (modelOf (mdOf s (dModel a.desc))) u s
    let a := ((mget s.ops.tab u.op).bind attnOf).getD a
    askPeers u.id (if u.seen.isEmpty then forEach u.entries (walkEntry cluster a u) s else s)

/-- Whether every Peer page of a unit has arrived. -/
def unitReady (s : State) (u : WUnit) : Bool := u.seen.all fun x => x.2.all fun g => g.here s (.unit u.id)

/-- The rows that a unit's keys give for one entry and head: per position its key, and what its page states. -/
structure KeySrc where
  key : Key
  at_ : Option PageAt
  kErr : Nat
  vErr : Nat
  bad : Bool

/-- The page a unit's walk found at a position of an entry, and its data. -/
def WUnit.pageAt (s : State) (u : WUnit) (i pos : Nat) : Option (PageAt × Page) :=
  ((u.seen.find? fun x => x.1 == i).bind fun x => x.2.find? fun g =>
    decide (g.page.first ≤ pos) && decide (pos < g.page.first + g.page.tokens)).map fun g => (g.at_, g.arrived s (.unit u.id))

/-- The key at a position for an entry and head; none where its page is DROPPED. -/
def keyAt (s : State) (m : Model) (o : Op) (a : AttnSt) (u : WUnit) (i h pos : Nat) : Option KeySrc :=
  let e := a.ent i
  if pos < storedKeys a.desc e then
    match u.pageAt s i pos with
    | some (at_, p) =>
      if p.tier == .dropped then none
      else
        let r := nth p.heads h {}
        let enc := p.codec != 0
        some { key := pageKey m h pos p, at_ := some at_, kErr := if enc then r.kErr.toNat else 0
               vErr := if enc then r.vErr.toNat else 0, bad := rowPoisoned s p h (pos - p.first) }
    | none => none
  else
    some { key := newKey m h pos (pos - e.cached) (mgetD o.bufs (attnBuf i 1) []), at_ := none, kErr := 0, vErr := 0, bad := false }

/-- What one entry of a unit gives: its parts and the pages read, or that it is not computed (dropped, poisoned). -/
inductive Computed where
  | parts (ps : List PartRes) (pages : List PageAt) (keys : Nat)
  | failed (dropped poisoned : Bool)

/-- The forward computation of one entry and head. -/
def forwardHead (s : State) (m : Model) (o : Op) (a : AttnSt) (u : WUnit) (i h : Nat) : Computed :=
  match a.sel i h u.qFirst with
  | none => .parts [] [] 0
  | some x =>
    let e := a.ent i
    let tiles := unitTiles s a u i x
    let srcs := tiles.map fun t => t.map (keyAt s m o a u i h)
    let flat := srcs.flatten
    if flat.any (·.isNone) then .failed true false
    else if flat.any fun k => (k.map (·.bad)).getD false then .failed false true
    else
      let ks := srcs.map fun t => t.filterMap id
      let buf := mgetD o.bufs (attnBuf i 0) []
      let toks := (List.range u.qCount).map (u.qFirst + ·)
      let per := toks.map fun t => (t, (ks.map fun l => l.filter fun k => decide (k.key.pos ≤ e.cached + t)).filter fun l => !l.isEmpty)
      let ps := (per.filter fun y => !y.2.isEmpty).flatMap fun y =>
        let all := y.2.flatten
        (List.range m.group).map fun r =>
          let acc := spanRow m (scaleOf m a.desc) (queryRow m a.desc buf y.1 (h * m.group + r)) (y.2.map fun l => l.map (·.key))
          ({ entry := i, head := h, token := y.1, row := r, first := (all.head?.map (·.key.pos)).getD 0, m := BitVec.ofNat 32 acc.m
             l := BitVec.ofNat 32 acc.l, o := acc.o.map (BitVec.ofNat 32), keys := all.length
             kErr := BitVec.ofNat 32 (all.foldl (fun z k => fmax z k.kErr) 0)
             vErr := BitVec.ofNat 32 (all.foldl (fun z k => fmax z k.vErr) 0) } : PartRes)
      .parts ps (nodup (flat.filterMap fun k => k.bind (·.at_))) (sum (per.map fun y => y.2.flatten.length))

/-! ### The backward pass (R232 to R234) -/

/-- A final-output element of a buffer: FP32 with OUT_FP32 set, else of the element type. -/
def outElem (m : Model) (b buf : List Byte) (i qh c : Nat) : Nat :=
  if dOutFp32 b then field buf (i * oRec m b + 4 * (qh * m.d + c)) 4
  else toFp32 m.fmt (field buf (i * oRec m b + 2 * (qh * m.d + c)) 2)

/-- Inputs of a row of the backward pass. -/
structure BwdRow where
  token : Nat
  row : Nat
  q : QRow
  dO : List Nat
  lse : Nat
  dSum : Nat

def bwdRow (m : Model) (o : Op) (a : AttnSt) (i h t r : Nat) : BwdRow :=
  let qh := h * m.group + r
  let el := fun (k : Nat) => (List.range m.d).map (outElem m a.desc (mgetD o.bufs (attnBuf i k) []) t qh)
  { token := t, row := r, q := queryRow m a.desc (mgetD o.bufs (attnBuf i 0) []) t qh, dO := el 3
    lse := field (mgetD o.bufs (attnBuf i 4) []) (32 * (t * m.heads * m.group + qh) + 8) 4, dSum := fdot (el 3) (el 2) }

/-- p and ds of a row and a key. -/
def bwdPair (scale : Nat) (x : BwdRow) (k : Key) : Nat × Nat :=
  let p := fexp (fsub (fmul scale (scoreDot x.q k)) x.lse)
  (p, fmul p (fsub (fdot x.dO k.v) x.dSum))

/-- The gradient record of a position, relative to its entry's region, and the FP32 values added there. -/
def bwdKey (m : Model) (scale : Nat) (rows : List BwdRow) (k : Key) : List Nat :=
  let l := rows.map fun x => (x, bwdPair scale x k)
  let dk := (List.range m.d).map fun c => fmul scale (fsum (l.map fun y => fmul (roundE m y.2.2) (nth y.1.q.vals c 0)))
  let dv := (List.range m.d).map fun c => fsum (l.map fun y => fmul (roundE m y.2.1) (nth y.1.dO c 0))
  dk ++ dv

/-- Add FP32 values at an address of the home: each line as a WR_UNC, discarded after the revoke point of its extent,
which the op then reports. -/
def gradAdd (id addr : Nat) (bytes : List Byte) (s : State) : State :=
  let first := min bytes.length (64 - addr % 64)
  let pieces := (addr, bytes.take first) :: (List.range (ceilDiv (bytes.length - first) 64)).map fun j =>
    (addr + first + 64 * j, (bytes.drop (first + 64 * j)).take 64)
  forEach pieces (fun p s =>
    match extOf s p.1 with
    | some (_, x) =>
      if x.state == .active then
        queueReq { kind := .add, src := 2 ^ 16, key := 0, tag := 0, addr := p.1, len := p.2.length, data := p.2 } s
      else modAttnSt id (fun a => { a with revoked := true }) s
    | none => modAttnSt id (fun a => { a with revoked := true }) s) s

/-- The backward computation of one entry and head: its dQ parts and the additions. -/
def backwardHead (s : State) (m : Model) (o : Op) (a : AttnSt) (u : WUnit) (i h : Nat) : Computed × List (Nat × List Byte) :=
  match a.sel i h u.qFirst with
  | none => (.parts [] [] 0, [])
  | some x =>
    let e := a.ent i
    let scale := scaleOf m a.desc
    let srcs := (unitTiles s a u i x).map fun t => t.map (keyAt s m o a u i h)
    let flat := srcs.flatten
    if flat.any (·.isNone) then (.failed true false, [])
    else if flat.any fun k => (k.map (·.bad)).getD false then (.failed false true, [])
    else
      let tiles := srcs.map fun t => (t.filterMap id).map (·.key)
      let rows := (List.range u.qCount).flatMap fun j => (List.range m.group).map fun r => bwdRow m o a i h (u.qFirst + j) r
      let sees := fun (x : BwdRow) (k : Key) => decide (k.pos ≤ e.cached + x.token)
      let dq := rows.map fun x =>
        let v := tiles.foldl (fun (acc : List Nat) t =>
          let ks := t.filter (sees x)
          if ks.isEmpty then acc
          else (List.range m.d).map fun c =>
            fadd (nth acc c 0) (fmul scale (fsum (ks.map fun k => fmul (roundE m (bwdPair scale x k).2) (nth k.k c 0))))) (List.replicate m.d 0)
        let n := (tiles.flatten.filter (sees x)).length
        ({ entry := i, head := h, token := x.token, row := x.row, first := u.lo + 64 * u.span, m := 0, l := 0
           o := v.map (BitVec.ofNat 32), keys := n, kErr := 0, vErr := 0 } : PartRes)
      let g0 := field a.desc 0x58 4
      let gn := field a.desc 0x5C 4
      let adds := (tiles.flatten.filter fun k => decide (g0 ≤ k.pos) && decide (k.pos < g0 + gn)).filterMap fun k =>
        let rs := rows.filter fun x => sees x k
        if rs.isEmpty then none
        else some (field a.desc 0x50 6 + i * gn * m.heads * 8 * m.d + ((k.pos - g0) * m.heads + h) * 8 * m.d,
          (bwdKey m scale rs k).flatMap (leBytes 4))
      let keys := sum ((List.range u.qCount).map fun j => (tiles.flatten.filter fun k => decide (k.pos ≤ e.cached + u.qFirst + j)).length)
      (.parts dq (nodup (flat.filterMap fun k => k.bind (·.at_))) keys, adds)

/-- A unit reads its keys of one entry and head: the tables of encoded rows are used (R267). -/
def expandKeys (a : AttnSt) (u : WUnit) (i h : Nat) (s : State) : State :=
  match a.sel i h u.qFirst with
  | none => s
  | some x =>
    let ks := (unitTiles s a u i x).flatten
    forEach ((u.seen.filter fun x => x.1 == i).flatMap (·.2)) (fun g s =>
      let p := g.page
      match ks.filter fun k => decide (p.first ≤ k) && decide (k < p.first + p.rows) with
      | [] => s
      | k :: l => expandRows p h (k - p.first) (maxOf (k :: l) - k + 1) s) s

/-- What one entry and head of a unit give joins the op's parts, with the additions made; the pages read. -/
def computeHead (m : Model) (o : Op) (a : AttnSt) (u : WUnit) (i h : Nat) (acc : List PageAt × State) : List PageAt × State :=
  let s := acc.2
  let (c, adds) := if a.opcode == opAttnBwd then backwardHead s m o a u i h else (forwardHead s m o a u i h, [])
  match c with
  | .failed d p => (acc.1, failEntry u.op i d p s)
  | .parts ps pages keys =>
    let s := expandKeys a u i h (forEach adds (fun x s => gradAdd u.op x.1 x.2 s) s)
    (nodup (acc.1 ++ pages), modAttnSt u.op (fun a => { a with parts := a.parts ++ ps }) (s.modAttn fun x => { x with keys := x.keys + keys }))

/-- The work of a unit, as it ends: its parts join the op's, and each page it has read is one access by its cluster (R277). -/
def computeUnit (cluster : Nat) (u : WUnit) (s : State) : State :=
  match mget s.ops.tab u.op with
  | none => s
  | some o => match attnOf o with
    | none => s
    | some a =>
      let m := modelOf (mdOf s (dModel a.desc))
      let (pages, s) := (liveEntries a u).foldl (fun acc i => u.heads.foldl (fun acc h => computeHead m o a u i h acc) acc) ([], s)
      dropImages (.unit u.id) (forEach pages (access cluster) s)

/-! ### Merging and results (R217, R225, R227, R231, R233, R244, R245) -/

/-- A sum taken in order. -/
def orderedSum : List Nat → Nat
  | [] => 0
  | x :: r => r.foldl fadd x

/-- Parts of an (entry, KV head, token, row) in ascending position. -/
def partsOf (a : AttnSt) (i h t r : Nat) : List PartRes :=
  sortBy (fun x y => decide (x.first < y.first))
    (a.parts.filter fun p => p.entry == i && p.head == h && p.token == t && p.row == r)

/-- A merged row: m, l and the output before rounding. -/
def mergeParts (m : Model) (ps : List PartRes) : RowAcc :=
  let mm := (ps.map (·.m.toNat)).foldl fmax (fp32.infPat true)
  let f := ps.map fun p => fexp (fsub p.m.toNat mm)
  let l := orderedSum (List.zipWith (fun (p : PartRes) x => fmul p.l.toNat x) ps f)
  { m := mm, l := l
    o := (List.range m.d).map fun c =>
      fmul (orderedSum (List.zipWith (fun (p : PartRes) x => fmul (nth p.o c 0).toNat x) ps f)) (frecip l) }

/-- The bound on the skipped mass of a row (R231). -/
def skippedMass (sk : List Skip) (r m l : Nat) : Nat :=
  if sk.isEmpty then 0
  else
    let t := sk.map fun x =>
      fmulUp (fmulUp (fp32.enc .up false x.keys 1 0) (fexp (faddUp (nth x.ubs r 0).toNat (fneg m)))) (fp32.enc .up false 2097153 1 (-21))
    fdivUp (fmulUp (fp32.enc .up false 65537 1 (-16)) (fsumUp t)) l

/-- What a row returns. -/
structure RowOut where
  acc : RowAcc
  eps : Nat
  keys : Nat
  skipped : Nat
  kErr : Nat
  vErr : Nat

/-- The result of a row. -/
def rowOut (m : Model) (a : AttnSt) (i h t r : Nat) : RowOut :=
  let ps := partsOf a i h t r
  let acc := mergeParts m ps
  let sk := ((a.sel i h (t / 256 * 256)).map (·.skipped)).getD []
  { acc := acc, eps := skippedMass sk r acc.m acc.l, keys := sum (ps.map (·.keys)), skipped := sum (sk.map (·.keys))
    kErr := ps.foldl (fun z p => fmax z p.kErr.toNat) 0, vErr := ps.foldl (fun z p => fmax z p.vErr.toNat) 0 }

/-- A statistics record (Table 7.5). -/
def statRec (x : RowOut) : List Byte :=
  [x.acc.m, x.acc.l, fadd x.acc.m (fln x.acc.l), x.eps, x.kErr, x.vErr, x.keys, x.skipped].flatMap (leBytes 4)

/-- An output element (R225). -/
def outBytes (m : Model) (b : List Byte) (x : Nat) : List Byte :=
  if dOutFp32 b then leBytes 4 x else leBytes 2 (ofFp32 m.fmt .near x)

/-- The record of a part (Table 7.4), of a part not produced (R227). -/
def partRec (p : PartRes) : List Byte := leBytes 4 p.m.toNat ++ leBytes 4 p.l.toNat ++ p.o.flatMap fun x => leBytes 4 x.toNat
def noPart (m : Model) : List Byte := leBytes 4 0xFF800000 ++ leBytes 4 0 ++ List.replicate (4 * m.d) 0

/-- The output of an entry: final records, or partial ones. -/
def entryOut (m : Model) (a : AttnSt) (i : Nat) : List Byte :=
  let e := a.ent i
  (List.range e.new).flatMap fun t =>
    if dPartial a.desc then
      (List.range m.heads).flatMap fun h =>
        let rows := (List.range m.group).map fun r => partsOf a i h t r
        (List.range (dPartsMax a.desc)).flatMap fun j => rows.flatMap fun ps => ((ps[j]?).map partRec).getD (noPart m)
    else
      (List.range m.heads).flatMap fun h => (List.range m.group).flatMap fun r =>
        let o := if a.opcode == opAttnBwd then
            (List.range m.d).map fun c => orderedSum ((partsOf a i h t r).map fun p => (nth p.o c 0).toNat)
          else (rowOut m a i h t r).acc.o
        o.flatMap (outBytes m a.desc)

/-- Bytes of output per query token. -/
def outRec (m : Model) (b : List Byte) : Nat :=
  if dPartial b then m.heads * dPartsMax b * m.group * (8 + 4 * m.d) else oRec m b

/-- Statistics of an entry not computed: l = 0, eps = +∞, the rest open. -/
def failedStats (n : Nat) (s : State) : List Byte × State :=
  (List.range n).foldl (fun (acc : List Byte × State) _ =>
    let (x, s) := freshBytes 24 acc.2
    (acc.1 ++ x.take 4 ++ leBytes 4 0 ++ (x.drop 4).take 4 ++ leBytes 4 0x7F800000 ++ x.drop 8, s)) ([], s)

/-- Rows of the entries computed, with their bounds, where a selection was applied. -/
def boundRows (m : Model) (a : AttnSt) : List Nat :=
  ((List.range a.ents.length).filter fun i => !a.failed.contains i).flatMap fun i =>
    (List.range (a.ent i).new).flatMap fun t => (List.range m.heads).flatMap fun h =>
      if ((a.sel i h (t / 256 * 256)).map fun x => x.rung == 1 || x.rung == 3).getD false then
        (List.range m.group).map fun r => (rowOut m a i h t r).eps
      else []

/-- What attention ends with, whatever carries it (R244). -/
structure AttnAns where
  status : Nat
  computed : Nat
  not_ : Nat
  rows : Nat
  loss : Nat

def attnStatus (a : AttnSt) (maxRung : Nat) : Nat :=
  if a.revoked then stRevoked else if a.dropped then stDropped else if a.poisoned then stPoison
  else if dMode a.desc != 0 || maxRung != 0 then stApprox else stOk

/-- FP16 tolerance against an FP32 bound. -/
def overTol (tol : BitVec 16) (eps : Nat) : Bool := flt (toFp32 fp16 tol.toNat) eps

/-- Write an attention's outputs and statistics, count them, and say what it ends with. -/
def attnFinish (id key maxRung : Nat) (a : AttnSt) (s : State) : AttnAns × State :=
  let m := modelOf (mdOf s (dModel a.desc))
  let b := a.desc
  let all := List.range a.ents.length
  let good := all.filter fun i => !a.failed.contains i
  let s := forEach good (fun i s =>
    (writeTiles noOp 0 none (bufNode b 0x30) ((bufAddr b 0x30 + (a.ent i).q * outRec m b) % 2 ^ 48) key (entryOut m a i) s).2) s
  let hq := m.heads * m.group
  let s := if field b 0x38 8 == 0 || a.opcode == opAttnBwd then s
    else forEach all (fun i s =>
      let e := a.ent i
      let (bytes, s) := if a.failed.contains i then failedStats (e.new * hq) s
        else ((List.range e.new).flatMap fun t => (List.range m.heads).flatMap fun h => (List.range m.group).flatMap fun r =>
          statRec (rowOut m a i h t r), s)
      (writeTiles noOp 0 none (bufNode b 0x38) ((bufAddr b 0x38 + e.q * 32 * hq) % 2 ^ 48) key bytes s).2) s
  let eps := boundRows m a
  let beyond := count (overTol a.tol) eps
  let loss := eps.foldl fmax 0
  let k := a.opcode - opAttnDecode
  let s := s.modAttn fun x =>
    { x with
      ops := lmod x.ops k fun n => sat32 (n + 1), tolRows := sat32 (x.tolRows + beyond)
      failed := sat32 (x.failed + a.failed.length) }
  let _ := id
  ({ status := attnStatus a maxRung, computed := good.length, not_ := a.failed.length, rows := beyond, loss := loss }, s)

/-- Units of an op are forgotten. -/
def dropUnits (id : Nat) (s : State) : State :=
  s.modAttn fun x => { x with units := x.units.filter fun u => u.2.op != id }

end Sys2Proof.Machine
end

