-- ==== Sys2Proof/Machine/Sched.lean ====
section
/-! DEFINITION. Cores, ready contexts, virtual time and the deadline monitor (11 R338 to R344, R355 to R358, R364). -/

namespace Sys2Proof.Machine

open Sys2Proof

/-! ### Cores (R338, R344) -/

/-- Number of a core on the device. -/
def coreId (cluster core : Nat) : Nat := 64 * cluster + core

/-- The partition a cluster in service belongs to. -/
def partOfCluster (s : State) (cluster : Nat) : Option Nat :=
  (List.range (parts s).length).find? fun p => (clustersOf s p).contains cluster

/-- The unit a core runs, with its number. -/
def unitOn (s : State) (cluster core : Nat) : Option (Nat × WUnit) :=
  s.attn.units.find? fun u => match u.2.st with
    | .running c k _ _ => c == cluster && k == core
    | _ => false

/-- Update a unit. -/
def modUnit (id : Nat) (f : WUnit → WUnit) (s : State) : State := s.modAttn fun x => { x with units := mmod x.units id f }

/-- Core 63 of the lowest cluster of a space-only partition runs overflow searches alone (R344, R399). -/
def searchCore (s : State) (p cluster core : Nat) : Bool :=
  spaceOnly s p && core == 63 && minOf (clustersOf s p) == some cluster

/-- A core that may take a unit. -/
def coreIdle (s : State) (p cluster core : Nat) : Bool :=
  decide (core < 64) && !searchCore s p cluster core && (unitOn s cluster core).isNone && !mhas s.core.halted (coreId cluster core)

/-- Idle cores a context's op may use, the C of R220. -/
def idleCores (s : State) (ctx : Nat) : Nat :=
  sum ((clustersFor s ctx).map fun k => count (coreIdle s (ctxOf s ctx).part k) (List.range 64))

/-! ### Ready contexts and virtual time (R342, R343) -/

/-- An accepted entry of a context waits to start. -/
def waitingEntry (s : State) (c : Nat) : Bool :=
  s.rng.rings.any fun r => r.2.enable && r.2.context == c && r.2.entries.any fun e => e.st == .waiting

/-- A context is ready: an entry of it waits, or a unit of it is queued, runs or is saved. -/
def ctxReady (s : State) (c : Nat) : Bool :=
  ((ctxOf s c).enable && waitingEntry s c) || s.attn.units.any fun u => u.2.ctx == c

/-- Ready contexts of a partition. -/
def readyCtxs (s : State) (p : Nat) : List Nat :=
  (s.sch.ctxs.filter fun c => c.2.part == p && ctxReady s c.1).map (·.1)

/-- Virtual time of a context. -/
def vOf (s : State) (c : Nat) : Nat := (ctxOf s c).v.toNat

/-- The lowest v of some contexts, 0 for none. -/
def lowestV (s : State) (l : List Nat) : Nat := (minOf (l.map (vOf s))).getD 0

/-- The context with the lowest v; a tie goes to the lower number. -/
def pickCtx (s : State) (l : List Nat) : Option Nat :=
  (sortBy (fun x y => decide (vOf s x < vOf s y) || (vOf s x == vOf s y && decide (x < y))) l).head?

/-- Contexts that have become ready since `before` take the lowest v of those that were ready, where it is larger. -/
def wakeContexts (before : List Nat) (s : State) : State :=
  forEach ((s.sch.ctxs.filter fun c => ctxReady s c.1 && !before.contains c.1).map (·.1)) (fun c s =>
    let peers := before.filter fun x => (ctxOf s x).part == (ctxOf s c).part
    modCtx c (fun x => { x with v := BitVec.ofNat 64 (max x.v.toNat (lowestV s peers)) }) s) s

/-- All ready contexts. -/
def allReady (s : State) : List Nat := (s.sch.ctxs.filter fun c => ctxReady s c.1).map (·.1)

/-- CCLK a unit has held its core: up to the halt of a halted core (R393). -/
def heldTime (s : State) (cluster core since : Nat) : Nat := (mgetD s.core.halted (coreId cluster core) (stamp s)) - since

/-! ### The deadline monitor's predictor (R356) -/

/-- The throttle level in force: the higher of the thermal and the power level (R54). -/
def throttle (s : State) : Nat := max s.thm.level s.pwr.govLevel

/-- Issue slots withheld of 8 (Table 2.7). -/
def withheldSlots (level : Nat) : Nat := nth [0, 2, 4, 7] level 8

/-- The predictor entry for an op-code, codec and tier: its own, or that of the op-code with the largest cost per unit. -/
def costOf (s : State) (op codec tier : Nat) : Cost :=
  match s.sch.pred.find? fun c => c.op == op && c.codec == codec && c.tier == tier with
  | some c => c
  | none =>
    match s.sch.pred.filter fun c => c.op == op with
    | [] => { op := op, codec := codec, tier := tier, fixed := 0, perUnit := 0 }
    | c :: r => r.foldl (fun best x => if best.perUnit < x.perUnit then x else best) c

/-- The entry used moves 1/16 of the way toward the rate achieved. -/
def refineCost (op codec tier rate : Nat) (s : State) : State :=
  let used := costOf s op codec tier
  s.modSch fun x => { x with pred := x.pred.map fun c => if c == used then { c with perUnit := (15 * c.perUnit + rate) / 16 } else c }

/-- Work by class: codec and tier, with the keys of each unit. -/
abbrev Work := List ((Nat × Nat) × Nat)

/-- Σ per_unit · keys, in 1/1,024 CCLK. -/
def workSum (s : State) (op : Nat) (w : Work) : Nat := sum (w.map fun x => (costOf s op x.1.1 x.1.2).perUnit * x.2)

/-- The fixed cost, of the first unit's class. -/
def fixedCost (s : State) (op : Nat) (w : Work) : Nat :=
  match w with
  | [] => 0
  | x :: _ => (costOf s op x.1.1 x.1.2).fixed

/-- c_eff as a fraction: cores, throttle, and the share of the context's weight in a time-sliced partition; 1 for a fetch. -/
def cEff (s : State) (op ctx : Nat) : Nat × Nat :=
  if op == opKvFetch then (1, 1)
  else
    let c := ctxOf s ctx
    let n := 64 * (clustersFor s ctx).length * (8 - withheldSlots (throttle s))
    if spaceOnly s c.part then (n, 8)
    else
      let l := nodup (ctx :: readyCtxs s c.part)
      (n * c.weight, 8 * sum (l.map fun x => (ctxOf s x).weight))

/-- t_pred. -/
def tPred (s : State) (op ctx : Nat) (w : Work) : Nat :=
  let (n, d) := cEff s op ctx
  stamp s + fixedCost s op w + ceilDiv (workSum s op w * d) (1024 * n)

/-- A solo estimate (R364): level 0, all cores of the partition or of the context's clusters. -/
def soloOf (s : State) (op ctx : Nat) (w : Work) : Nat :=
  let n := if op == opKvFetch || op == opKvPrefetch || op == opWtStream then 1 else 64 * (clustersFor s ctx).length
  fixedCost s op w + ceilDiv (workSum s op w) (1024 * n)

/-! ### Rungs (R357, Table 11.4) -/

/-- The rung of a descriptor's mode. -/
def modeRung (mode : Nat) : Nat := nth [0, 1, 3] mode 0

/-- Rungs an attention op may take. -/
def attnRungs (a : AttnSt) : List Nat :=
  let own := modeRung (dMode a.desc)
  [0, 1, 3, 4].filter fun r =>
    r == 0 || r == own || (a.opcode == opAttnDecode && ((r == 1 && bit a.ladder 0) || (r == 3 && bit a.ladder 2))) ||
      (r == 4 && bit a.ladder 3)

/-- Keys of entry `i` that a selection takes from [lo, hi), and its candidate pages, before any query is read: the
candidates with most keys are taken. -/
def selectKeys (s : State) (a : AttnSt) (i lo hi rung : Nat) : Nat × Nat :=
  let e := a.ent i
  let ps := (pagesOver s e.seq (dLayer a.desc) lo (min hi e.cached)).map fun x =>
    let stop := min (x.first + tokens x.size) e.cached
    (forcedPage a e x.first (min (x.first + tokens x.size) (storedKeys a.desc e)) (seePage s e.seq x), min stop hi - max x.first lo)
  let forced := sum ((ps.filter (·.1)).map (·.2))
  let cands := sortBy (fun x y => decide (y < x)) ((ps.filter fun x => !x.1).map (·.2))
  let new := hi - max lo e.cached
  (forced + new + sum (cands.take (if rung == 1 then a.k else 0)), cands.length)

/-- Keys that an unstarted unit attends at a rung, a key more for each candidate page (R356). -/
def unitKeys (s : State) (a : AttnSt) (rung : Nat) (u : WUnit) : Nat :=
  if rung == 4 then 0
  else if rung != 1 && rung != 3 then
    sum ((spanTiles ((List.range (u.hi - u.lo)).map (u.lo + ·)) u.spans u.span).map (·.length))
  else
    maxOf (u.entries.map fun i =>
      let (n, c) := selectKeys s a i u.lo u.hi rung
      let m := if n < 4096 then 1 else min u.spans (min 64 (n / 2048))
      (if u.span < m then n / m else 0) + (if u.span == 0 then c else 0))

/-- Units of an op that have not started. -/
def unstarted (s : State) (id : Nat) : List WUnit := (s.attn.units.filter fun u => u.2.op == id && u.2.st == .queued).map (·.2)

/-- Work of an attention op's unstarted units at a rung. -/
def attnWork (s : State) (id : Nat) (a : AttnSt) (rung : Nat) : Work :=
  (unstarted s id).map fun u => ((u.codec, u.tier), unitKeys s a rung u)

/-- No unit of an op has started. -/
def noneStarted (s : State) (id : Nat) (a : AttnSt) : Bool := (unstarted s id).length == a.total

/-- The rung an evaluation stops at (R357): the first allowed one from `cur` on that meets the deadline, or the last. -/
def pickRung (allowed : List Nat) (cur : Nat) (meets : Nat → Bool) : Nat :=
  let l := allowed.filter fun r => decide (cur ≤ r)
  match l.find? fun r => r == 4 || meets r with
  | some r => r
  | none => l.getLast?.getD cur

/-- Evaluate an attention op with a deadline that has unstarted units: its rung. -/
def evalAttn (id : Nat) (s : State) : State :=
  match mget s.ops.tab id with
  | none => s
  | some o => match attnOf o with
    | none => s
    | some a =>
      if !s.sch.monitorEn || o.deadline == 0 || (unstarted s id).isEmpty then s
      else
        let allowed := (attnRungs a).filter fun r => r != 4 || noneStarted s id a
        let r := pickRung allowed o.rung fun r => decide (tPred s a.opcode o.ctx (attnWork s id a r) ≤ o.arrival + o.deadline)
        modOp id (fun o => { o with rung := r }) s

/-- Solo estimates of an attention op at each rung. -/
def attnSolos (s : State) (id : Nat) (o : Op) (a : AttnSt) : List Nat :=
  [0, 1, 2, 3].map fun r => soloOf s a.opcode o.ctx (attnWork s id a r)

/-- An op starts its work: its queue wait is counted once (R363). -/
def beginWork (id : Nat) (s : State) : State :=
  match mget s.ops.tab id with
  | none => s
  | some o => if o.began then s else countWait o.ctx o.arrival (modOp id (fun o => { o with began := true }) s)

end Sys2Proof.Machine
end

