-- ==== Sys2Proof/Machine/Batch.lean ====
section
/-! DEFINITION. Attention ops from start to end, alone or in a STEP (07 R210, R244, R245; 11 R345 to R350, R356 to R358). -/

namespace Sys2Proof.Machine

open Sys2Proof

/-! ### The end of an op's attention -/

/-- Records of a STEP, and its answer once its attention has ended: status, entries computed and not, rows, loss. -/
def stepOf (o : Op) : Option (List StepRec × Nat × Nat × Option AttnSt × Option (List Nat)) :=
  match o.body with
  | .step r x y a z => some (r, x, y, a, z)
  | _ => none

/-- Update the records of a STEP. -/
def modStepRecs (id : Nat) (f : List StepRec → List StepRec) (s : State) : State :=
  modOp id (fun o => { o with body := match o.body with
    | .step r x y a z => .step (f r) x y a z
    | b => b }) s

/-- What an append record ends with (Table 5.10). -/
def StepRec.okay (r : StepRec) : Bool :=
  match r.status with
  | some (st, _) => st == stOk || st == stSpilled
  | none => false

/-- The result array of a STEP (R350). -/
def stepResults (recs : List StepRec) : List Byte :=
  recs.flatMap fun r =>
    let (st, a, b, c) := r.status.getD (0, 0, 0, 0)
    leBytes 1 st ++ leBytes 3 0 ++ leBytes 4 a ++ leBytes 4 b ++ leBytes 4 c

/-- The status of a STEP that was not reset. -/
def stepStatus (recs : List StepRec) (attn : Nat) : Nat :=
  if attn == stLate then stLate
  else match recs.find? fun r => !r.okay with
    | some r => (r.status.map (·.1)).getD stInternal
    | none =>
      if attn != stOk && attn != stApprox then attn
      else if recs.any fun r => (r.status.map (·.1)) == some stSpilled then stSpilled
      else attn

/-- The completion of a STEP, with `rung` and what its attention ended with. -/
def stepAns (recs : List StepRec) (rung : Nat) (ans : List Nat) : Ans :=
  let bad := count (fun (r : StepRec) => !r.okay) recs
  { status := stepStatus recs (nth ans 0 0), rung := rung, loss := nth ans 4 0, a := count StepRec.okay recs, b := nth ans 1 0
    c := min bad 0xFFFF + min (nth ans 2 0) 0xFFFF * 65536 }

/-- Write the result array where RESULTS is set. -/
def writeStepResults (o : Op) (recs : List StepRec) (results flags : Nat) (s : State) : State :=
  if bit flags 2 then
    (writeTiles noOp 0 none (results / 2 ^ 48) (results % 2 ^ 48) (ringOf s o.ring).key (stepResults recs) s).2
  else s

/-- Records whose journal records are acknowledged take their status; a STEP whose records and attention have all ended
completes, with INTERNAL 0x0003 where a buffer of its attention could not be read (R462). -/
def settleStep (id : Nat) (s : State) : State :=
  let s := modStepRecs id (fun l => l.map fun r =>
    if r.status.isNone && r.app.result.isSome && allAcked s r.app then
      let a := appendAns r.app
      { r with status := some (a.status, a.a, a.b, a.c) }
    else r) s
  match mget s.ops.tab id with
  | none => s
  | some o => match stepOf o with
    | some (recs, results, flags, attn, ans) =>
      if (recs.all fun r => r.status.isSome) && (o.failed || attn.isNone || ans.isSome) then
        finishOp id (if o.failed then internal 0x03 else stepAns recs o.maxRung (ans.getD []))
          (writeStepResults o recs results flags s)
      else s
    | none => s

/-- An op's attention ends: an attention op completes, a STEP keeps the answer. -/
def endAttn (id : Nat) (ans : AttnAns) (s : State) : State :=
  let s := dropUnits id s
  match mget s.ops.tab id with
  | none => s
  | some o =>
    let s := modOp id (fun o => { o with solo := nth o.solos o.maxRung 0 }) s
    match o.body with
    | .attn _ => finishOp id { status := ans.status, rung := o.maxRung, loss := ans.loss, a := ans.computed, b := ans.not_, c := ans.rows } s
    | .step _ _ _ _ _ =>
      settleStep id (modOp id (fun o => { o with body := match o.body with
        | .step r x y a _ => .step r x y a (some [ans.status, ans.computed, ans.not_, ans.rows, ans.loss])
        | b => b }) s)
    | _ => s

/-- Nothing of an op's attention is computed: its entries count as not computed (R244, R245). -/
def failAttn (id status : Nat) (a : AttnSt) (s : State) : State :=
  let n := a.ents.length
  endAttn id { status := status, computed := 0, not_ := n, rows := 0, loss := 0 } (s.modAttn fun x =>
    { x with ops := lmod x.ops (a.opcode - opAttnDecode) fun n => sat32 (n + 1), failed := sat32 (x.failed + n) })

/-- An op that has taken ABSTAIN ends with LATE (Table 11.4). -/
def settleAbstain (id : Nat) (s : State) : State :=
  match mget s.ops.tab id with
  | none => s
  | some o => match attnOf o with
    | some a => if o.rung == 4 then failAttn id stLate a (modOp id (fun o => { o with maxRung := 4 }) s) else s
    | none => s

/-- Evaluate an op's deadline and act on it. -/
def deadlineAttn (id : Nat) (s : State) : State := settleAbstain id (evalAttn id s)

/-- The last unit of an op's attention has ended: outputs, statistics, the predictor's refinement, the answer. -/
def finishAttnOp (id : Nat) (s : State) : State :=
  match mget s.ops.tab id with
  | none => s
  | some o => match attnOf o with
    | none => s
    | some a =>
      let s := if o.maxRung == 0 && !o.preempted then
          forEach a.rates (fun r s => if r.2.2 == 0 then s else refineCost a.opcode r.1.1 r.1.2 (r.2.1 * 1024 / r.2.2) s) s
        else s
      let (ans, s) := attnFinish id (ringOf s o.ring).key o.maxRung a s
      endAttn id ans s

/-! ### Starting an attention op -/

/-- What an op's attention does at dispatch (R220, R357): its units are cut over the idle cores, its deadline is evaluated,
and unless it abstains its buffers are read. -/
def dispatchAttn (id : Nat) (s : State) : State :=
  match mget s.ops.tab id with
  | none => s
  | some o => match attnOf o with
    | none => s
    | some a =>
      let m := modelOf (mdOf s (dModel a.desc))
      let part := (ctxOf s o.ctx).part
      let cut := cutUnits id o.ctx part (idleCores s o.ctx) m a s
      let aCut := ((mget cut.ops.tab id).bind attnOf).getD a
      let s1 := evalAttn id (modOp id (fun o => { o with solos := attnSolos cut id o aCut }) cut)
      if ((mget s1.ops.tab id).map (·.rung)) == some 4 then
        settleAbstain id (modOp id (fun o => { o with rung := 4 }) s)
      else beginAttnReads id (ringOf s o.ring).key m a s1

/-- Whether any page of any entry is DROPPED, walked before the first addition (R245). -/
def anyDropped (s : State) (a : AttnSt) : Bool :=
  a.ents.any fun e => hasDropped s e.seq (dLayer a.desc) 0 (storedKeys a.desc e)

/-- The effect of an attention op at its start. -/
def attnOp (opcode ring : Nat) (e : Entry) (s : State) : State :=
  let b := e.operands.getD []
  let r := ringOf s ring
  let a := attnAsked opcode b (ctxLadder (ctxOf s r.context))
  match attnBad s r.context r.reqNode opcode b a with
  | some n => endNow ring e (internal n) s
  | none =>
    let (id, s) := beginOp ring e (.attn a) s
    if opcode == opAttnBwd && anyDropped s a then failAttn id stDropped a s
    else dispatchAttn id (modOp id (fun o => { o with rung := modeRung (dMode b) }) s)

/-- ATTN_DECODE, ATTN_CHUNK and ATTN_BWD (R210 to R234). -/
def execAttnDecode (ring : Nat) (s : State) : Out := .next (startOp opAttnDecode ring (attnOp opAttnDecode ring) s)
def execAttnChunk (ring : Nat) (s : State) : Out := .next (startOp opAttnChunk ring (attnOp opAttnChunk ring) s)
def execAttnBwd (ring : Nat) (s : State) : Out := .next (startOp opAttnBwd ring (attnOp opAttnBwd ring) s)

/-- An attention op one of whose buffers could not be read ends (R462). -/
def failReads (id : Nat) (s : State) : State :=
  match mget s.ops.tab id with
  | some o => if o.failed && (attnOf o).isSome then finishOp id (internal 0x03) (dropUnits id s) else s
  | none => s

/-! ### STEP: header and checks (R345, R346, R349) -/

def stFlags (b : List Byte) : Nat := field b 0 1
def stHasAttn (b : List Byte) : Bool := bit (stFlags b) 0
def stRecords (b : List Byte) : Nat := field b 2 2

/-- The append records, and the attention block after them. -/
def stAppends (b : List Byte) : List AppendSt := (List.range (stRecords b)).map fun i => parseAppend (b.drop (64 + 32 * i))
def stBlock (b : List Byte) : List Byte := b.drop (64 + 32 * stRecords b)

/-- Attention entries. -/
def stEntries (b : List Byte) : Nat := if stHasAttn b then dEntries (stBlock b) else 0

/-- Where the step's ladder comes from. -/
def stLadder (s : State) (ctx : Nat) (b : List Byte) : LadderSrc :=
  if bit (stFlags b) 1 then
    { bits := field b 4 1 % 16, k := field b 8 2, sink := field b 10 2, window := field b 12 4, tol := field b 16 2 }
  else ctxLadder (ctxOf s ctx)

/-- Check 1 of R346: sizes, header fields, attn_op, and the number of records and entries. -/
def stepHeadOk (b : List Byte) : Bool :=
  let op := field b 1 1
  let n := stRecords b + stEntries b
  decide (64 + 32 * stRecords b ≤ b.length) &&
    (if stHasAttn b then attnLenOk (stBlock b) && (op == opAttnDecode || op == opAttnChunk)
     else b.length == 64 + 32 * stRecords b && op == 0) &&
    (!bit (stFlags b) 1 || decide (field b 12 4 ≤ 4194304)) && decide (1 ≤ n) && decide (n ≤ 16384)

/-- Lengths as the step's own appends will leave them: with NEW_KV_CACHED an entry may name positions they store (R348). -/
def withAppends (l : List AppendSt) (s : State) : State :=
  forEach l (fun a s => if a.replace then s else modSeq a.seq (fun q => { q with length := max q.length (a.first + a.count) }) s) s

/-- Entries of a STEP in flight. -/
def stepSize (o : Op) : Nat :=
  match stepOf o with
  | some (recs, _, _, a, _) => recs.length + (a.map (·.ents.length)).getD 0
  | none => 0

/-- STEPs in flight of a partition, and entries in flight. -/
def stepsIn (s : State) (p : Nat) : Nat :=
  count (fun (o : Nat × Op) => (stepOf o.2).isSome && (ctxOf s o.2.ctx).part == p) s.ops.tab
def stepEntries (s : State) : Nat := sum (s.ops.tab.map fun o => stepSize o.2)

/-- Room for a STEP (R349). -/
def stepRoom (s : State) (ctx : Nat) (b : List Byte) : Bool :=
  decide (stepsIn s (ctxOf s ctx).part < 4) && decide (stepEntries s + stRecords b + stEntries b ≤ 65536)

/-- The effect of STEP at its start. -/
def stepOp (ring : Nat) (e : Entry) (s : State) : State :=
  let b := e.operands.getD []
  let r := ringOf s ring
  let apps := stAppends b
  let blk := stBlock b
  let a := attnAsked (field b 1 1) blk (stLadder s r.context b)
  if !stepHeadOk b then endNow ring e (internal 0x50) s
  else match (if stHasAttn b then
      attnBad (if dNewCached blk then withAppends apps s else s) r.context r.reqNode (field b 1 1) blk a else none) with
    | some n => endNow ring e (internal n) s
    | none =>
      let recs := apps.map fun x => ({ app := x } : StepRec)
      let (id, s) := beginOp ring e (.step recs (field b 0x18 8) (stFlags b) (if stHasAttn b then some a else none) none) s
      if stHasAttn b then dispatchAttn id (modOp id (fun o => { o with rung := modeRung (dMode blk) }) s) else s

/-- STEP (R345 to R349): one that would exceed a limit waits at the head of its ring. -/
def execStep (ring : Nat) (s : State) : Out :=
  let waits := match startable s ring with
    | some e => match e.operands with
      | some b => eOpcode e.raw == opStep && stepHeadOk b && !stepRoom s (ringOf s ring).context b
      | none => false
    | none => false
  .next (if waits then s else startOp opStep ring (stepOp ring) s)

/-! ### STEP: its append records (R347) -/

/-- Buffer of a record's layer. -/
def stepBuf (i layer : Nat) : Nat := 256 * i + layer

/-- No read of a record's source is outstanding. -/
def recRead (s : State) (id i : Nat) : Bool :=
  !(s.io.reads.any fun r => match r.2.for_ with
    | .op j b => j == id && b / 256 == i && decide (b < 2 ^ 40)
    | _ => false)

/-- Sub-chunks that may be in flight: a record in progress has one. -/
def stepLimit (s : State) (id : Nat) (o : Op) : Nat :=
  (clustersFor s o.ctx).length * (if (unstarted s id).isEmpty then 8 else 2)

/-- A record starts: its checks, then the reads of its source. Its STEP was in progress before any SEQ_CLOSE that now waits for it, so
the handle may still be named (R132). -/
def startRec (id i : Nat) (o : Op) (r : StepRec) (s : State) : State :=
  let put := fun (r : StepRec) (s : State) => modStepRecs id (fun l => lput l i r) s
  match checkAppend s (seqMine s o.ctx r.app.seq) r.app with
  | some a => put { r with started := true, status := some (a.status, a.a, a.b, a.c) } s
  | none =>
    let m := seqModel s ((seqOf s r.app.seq).getD {})
    let s := beginWork id (put { r with started := true } s)
    forEach (sourceReads m r.app) (fun x s =>
      beginRead (.op id (stepBuf i x.1)) r.app.src x.2.1 x.2.2 (ringOf s o.ring).key s) s

/-- The next sub-chunk of a record: up to the next multiple of 512; the record closes with its last. Whether it went. -/
def runChunk (id i : Nat) (o : Op) (r : StepRec) (s : State) : Bool × State :=
  let a := r.app
  let src := fun (j : Nat) => mgetD o.bufs (stepBuf i j) []
  let lim := ((a.first + a.stored) / 512 + 1) * 512
  let before := s.seqs.sealSeq
  let put := fun (a : AppendSt) (s : State) => modStepRecs id (fun l => lput l i { r with app := a, issued := r.issued + 1 }) s
  match runAppend src lim a s with
  | .wait a s => (false, put a s)
  | .upto a s =>
    if a.replace || a.count ≤ a.stored then
      let (a, s) := closeAppend src before a s
      (true, put a s)
    else (true, put a (when (before != s.seqs.sealSeq) (catSealed a.seq) s))
  | .ended a s =>
    let (a, s) := closeAppend src before a s
    (true, put a s)

/-- Issue the next sub-chunk of a STEP: the first record, in order, that can go on. -/
def issueFrom (id : Nat) : List Nat → State → State
  | [], s => s
  | i :: rest, s =>
    match mget s.ops.tab id with
    | none => s
    | some o => match (stepOf o).bind fun x => x.1[i]? with
      | none => s
      | some r =>
        let flight := (stepOf o).map fun x => count (fun (r : StepRec) => r.started && r.status.isNone) x.1
        if !r.started then
          if appending s r.app.seq || decide (stepLimit s id o ≤ flight.getD 0) then s else startRec id i o r s
        else if r.app.result.isSome || r.status.isSome || !recRead s id i then issueFrom id rest s
        else
          let (went, s) := runChunk id i o r s
          if went then s else issueFrom id rest s

/-- An append is cut short: the pages held for its next range are returned, and what it has written is closed (R152, R361). -/
def cutAppend (src : Nat → List Byte) (a : AppendSt) (s : State) : AppendSt × State :=
  if a.result.isSome then (a, s)
  else closeAppend src s.seqs.sealSeq { a with held := [], next := 0 } (returnHeld a s)

/-- Tokens or pages an append reports. -/
def AppendSt.reported (a : AppendSt) : Nat := if a.replace then a.replaced else a.stored

/-- Records of a STEP are cut short: those that have not ended take `status`, with the tokens they stored. -/
def cutRecords (status : Nat) (src : Nat → Nat → List Byte) : Nat → List StepRec → State → List StepRec × State
  | _, [], s => ([], s)
  | i, r :: rest, s =>
    let (r, s) := if r.status.isSome then (r, s)
      else if !r.started then ({ r with status := some (status, 0, 0, 0) }, s)
      else
        let (a, s) := cutAppend (src i) r.app s
        ({ r with app := a, status := some (status, a.reported, 0, 0) }, s)
    let (l, s) := cutRecords status src (i + 1) rest s
    (r :: l, s)

/-- Records whose source could not be read end alone, with INTERNAL 0x0003 and the tokens they stored (R462). -/
def cutUnread (src : Nat → Nat → List Byte) : Nat → List StepRec → State → List StepRec × State
  | _, [], s => ([], s)
  | i, r :: rest, s =>
    let (r, s) := if r.status.isSome || !r.readFailed then (r, s)
      else
        let (a, s) := cutAppend (src i) r.app s
        ({ r with app := a, status := some (stInternal, 0x03, a.reported, 0) }, s)
    let (l, s) := cutUnread src (i + 1) rest s
    (r :: l, s)

/-- A STEP goes on after a read has failed or anything it waited for has come. -/
def driveStep (id : Nat) (s : State) : State :=
  match mget s.ops.tab id with
  | some o => match stepOf o with
    | none => s
    | some (recs, _) =>
      let (recs, s) := cutUnread (fun i j => mgetD o.bufs (stepBuf i j) []) 0 recs s
      settleStep id (modStepRecs id (fun _ => recs) (when o.failed (dropUnits id) s))
  | none => s

/-- STEP_SUBCHUNK_ISSUE (R347). -/
def execStepSubchunkIssue (op : Nat) (s : State) : Out :=
  .next (match mget s.ops.tab op with
    | none => s
    | some o => match stepOf o with
      | none => s
      | some x =>
        driveStep op (issueFrom op (List.range x.1.length) s))

end Sys2Proof.Machine
end

