-- ==== Sys2Proof/Machine/Slices.lean ====
section
/-! DEFINITION. Dispatch of work units, slices, pre-emption and the scrub, context entries and the slowdown (11 R340 to R344,
R351 to R354, R363, R364; 12 R386 to R389). -/

namespace Sys2Proof.Machine

open Sys2Proof

/-! ### Units leave their cores (R342, R354) -/

/-- A unit's core time is charged to its context, and counted to the unit. -/
def chargeUnit (id cluster core since : Nat) (u : WUnit) (s : State) : State :=
  let n := heldTime s cluster core since
  modUnit id (fun u => { u with used := u.used + n }) (chargeCore u.ctx n s)

/-- Save slots of a partition that no unit was saved into are free again. -/
def freeSlots (p : Nat) (s : State) : State :=
  let used := fun (i : Nat) => s.attn.units.any fun u => u.2.part == p && u.2.slot == some i
  modPart p (fun x => { x with slots := (List.range 4).map fun i => if used i then nth x.slots i none else none }) s

/-- A unit is forgotten. -/
def dropUnit (id : Nat) (u : WUnit) (s : State) : State :=
  freeSlots u.part ((dropImages (.unit id) s).modAttn fun x => { x with units := mdel x.units id })

/-! ### The slice of a partition (R343, R351) -/

/-- The tenant of a context. -/
def tenantOf (s : State) (c : Nat) : Nat := (ctxOf s c).tenant

/-- Ready contexts of a tenant in a partition, and of the others. -/
def ofTenant (s : State) (p t : Nat) : List Nat := (readyCtxs s p).filter fun c => tenantOf s c == t
def ofOthers (s : State) (p t : Nat) : List Nat := (readyCtxs s p).filter fun c => tenantOf s c != t

/-- Units of a partition on cores. -/
def runningIn (s : State) (p : Nat) : List (Nat × WUnit) :=
  s.attn.units.filter fun u => u.2.part == p && (match u.2.st with
    | .running _ _ _ _ => true
    | _ => false)

/-- A tenant has saved units in a partition. -/
def hasSaved (s : State) (p t : Nat) : Bool :=
  s.attn.units.any fun u => u.2.part == p && tenantOf s u.2.ctx == t && (match u.2.st with
    | .saved _ _ => true
    | _ => false)

/-- The slot a tenant's units are saved into: the one it holds, else the lowest free. -/
def saveSlot (x : Part) (t : Nat) : Option Nat :=
  match (List.range 4).find? fun i => nth x.slots i none == some t with
  | some i => some i
  | none => (List.range 4).find? fun i => nth x.slots i none == none

/-- The tenant of the slice after tenant `t`'s, under the save-slot rule (R354). -/
def nextTenant (s : State) (p t : Nat) : Option Nat :=
  let x := partOf s p
  let full := x.slots.all (·.isSome)
  let l := ofOthers s p t
  let l := if full && !(runningIn s p).isEmpty then l.filter fun c => x.slots.contains (some (tenantOf s c)) else l
  (pickCtx s l).map (tenantOf s)

/-- Whether the slice of tenant `t` ends now. -/
def sliceOver (s : State) (p t : Nat) : Bool :=
  let mine := ofTenant s p t
  mine.isEmpty || ((partOf s p).expired && match pickCtx s (ofOthers s p t) with
    | some c => decide (vOf s c < lowestV s mine)
    | none => false)

/-- Stop one running unit: at a cheap point with its live bytes, or at its current instruction with the full state. -/
def stopUnit (id bytes : Nat) (s : State) : State :=
  match mget s.attn.units id with
  | none => s
  | some u => match u.st with
    | .running c k since false =>
      modUnit id (fun u => { u with st := .running c k since true, live := bytes }) (chargeUnit id c k since u s)
    | _ => s

/-- Bytes of a core's full state (R352). -/
def fullState : Nat := 296960

/-- Once every unit of the partition has stopped, the save begins. -/
def settleStops (p : Nat) (s : State) : State :=
  if (partOf s p).switch == .stopping && (runningIn s p).all (fun u => match u.2.st with
      | .running _ _ _ stopped => stopped
      | _ => true) then
    modPart p (fun x => { x with switch := .saving }) s
  else s

/-- A slice ends: issue stops, a halted core stops at its current instruction, and the next tenant is chosen. -/
def endSlice (p t : Nat) (s : State) : State :=
  let s := modPart p (fun x => { x with switch := .stopping, slice := none, outgoing := some t, incoming := nextTenant s p t }) s
  let halted := (runningIn s p).filter fun u => match u.2.st with
    | .running c k _ _ => mhas s.core.halted (coreId c k)
    | _ => false
  settleStops p (forEach halted (fun u s => stopUnit u.1 fullState s) s)

/-- End the slice of a time-sliced partition that is over. One that has units to save and no slot to save them in goes
on, as does one whose next tenant must wait for a slot. -/
def settleSlice (p : Nat) (s : State) : State :=
  let x := partOf s p
  if spaceOnly s p || x.switch != .none || x.reset != .none || x.scrubbing then s
  else match x.slice with
    | none => s
    | some t =>
      if !sliceOver s p t then s
      else if !(runningIn s p).isEmpty && ((saveSlot x t).isNone || (nextTenant s p t).isNone) then s
      else endSlice p t s

/-- Begin a slice where none runs: the tenant of the ready context with the lowest v; its saved units are restored first. -/
def beginSlice (p : Nat) (s : State) : State :=
  let x := partOf s p
  if spaceOnly s p || x.switch != .none || x.slice.isSome then s
  else match (pickCtx s (readyCtxs s p)).map (tenantOf s) with
    | none => s
    | some t =>
      if hasSaved s p t then modPart p (fun x => { x with switch := .restoring, incoming := some t }) s
      else modPart p (fun x => { x with slice := some t, expired := false }) s

/-- QUANTUM_EXPIRY (R343): at least one quantum has passed since the slice began. -/
def execQuantumExpiry (part : Nat) (s : State) : Out :=
  .next (working (fun s => if partExists s part && (partOf s part).slice.isSome then
      settleSlice part (modPart part (fun x => { x with expired := true }) s)
    else s) s)

/-! ### WORK_UNIT_DISPATCH (R343, R344, R347, R348) -/

/-- The step's appends that cover an entry's new positions have completed (R348). -/
def appendsDone (o : Op) (a : AttnSt) (i : Nat) : Bool :=
  match stepOf o with
  | none => true
  | some (recs, _) =>
    let e := a.ent i
    !dNewCached a.desc || recs.all fun r =>
      r.status.isSome || r.app.seq != e.seq || decide (r.app.first + r.app.count ≤ e.cached) || decide (e.cached + e.new ≤ r.app.first)

/-- Whether a queued unit may start: its op's buffers have arrived, and the appends its entries wait for are done. -/
def unitOpen (s : State) (u : WUnit) : Bool :=
  match mget s.ops.tab u.op with
  | none => false
  | some o => match attnOf o with
    | none => false
    | some a => !o.failed && readsDone s u.op && u.entries.all (appendsDone o a)

/-- Clusters that have run spans of an entry and KV head (R220). -/
def spanClusters (a : AttnSt) (i h : Nat) : List Nat :=
  nodup ((a.clusters.filter fun x => x.1 == i && x.2.1 == h).map (·.2.2))

/-- Whether a cluster may take a unit: at most 4 clusters run the spans of one (entry, KV head). -/
def spanFits (s : State) (cluster : Nat) (u : WUnit) : Bool :=
  match (mget s.ops.tab u.op).bind attnOf with
  | none => true
  | some a => u.entries.all fun i => u.heads.all fun h =>
    let l := spanClusters a i h
    l.contains cluster || decide (l.length < 4)

/-- A cluster runs a span of each entry and KV head of a unit. -/
def noteCluster (cluster : Nat) (u : WUnit) (s : State) : State :=
  modAttnSt u.op (fun a =>
    { a with clusters := nodup (a.clusters ++ u.entries.flatMap fun i => u.heads.map fun h => (i, h, cluster)) }) s

/-- The next unit of a context: of the earliest op with units unstarted, the first that may start. -/
def nextOf (s : State) (cluster c : Nat) : Option (Nat × WUnit) :=
  let q := s.attn.units.filter fun u => u.2.ctx == c && u.2.st == .queued
  match minOf (q.map (·.2.op)) with
  | none => none
  | some id => (q.filter fun u => u.2.op == id).find? fun u => unitOpen s u.2 && spanFits s cluster u.2

/-- The unit a core takes: of the contexts it serves, the one with the lowest v that has one to give. -/
def pickUnit (s : State) (p cluster : Nat) : Option (Nat × WUnit) :=
  let l := if spaceOnly s p then (readyCtxs s p).filter fun c => bit (ctxOf s c).clusters cluster
    else match (partOf s p).slice with
      | some t => ofTenant s p t
      | none => []
  match pickCtx s (l.filter fun c => (nextOf s cluster c).isSome) with
  | some c => nextOf s cluster c
  | none => none

/-- The rung a unit runs at: that of its triple where it is fixed, else its op's (R230, R357). -/
def rungOf (s : State) (u : WUnit) : Nat :=
  match mget s.ops.tab u.op with
  | none => 0
  | some o => match (attnOf o).bind fun a => a.sel (nth u.entries 0 0) (nth u.heads 0 0) u.qFirst with
    | some x => x.rung
    | none => o.rung

/-- The stores of a core that a unit uses hold what the microcode writes there, which is stated nowhere (log 22). -/
def useCore (k : Nat) (s : State) : State :=
  s.modCore fun c =>
    { c with mem := c.mem.filter fun x => x.1 / 2 ^ 20 != k, dirty := if c.dirty.contains k then c.dirty else c.dirty ++ [k] }

/-- A unit starts on a core. -/
def runUnit (cluster core id : Nat) (u : WUnit) (s : State) : State :=
  let r := rungOf s u
  let u' := { u with rung := r, st := .running cluster core (stamp s) false }
  let s := s.modAttn fun x => { x with units := mset x.units id u' }
  let s := modOp u.op (fun o => { o with maxRung := max o.maxRung r }) (beginWork u.op s)
  startUnit cluster u' (noteCluster cluster u (useCore (coreId cluster core) (modPart u.part (fun x => { x with running := u.ctx }) s)))

/-- WORK_UNIT_DISPATCH. -/
def execWorkUnitDispatch (cluster core : Nat) (s : State) : Out :=
  .next (working (fun s => match partOfCluster s cluster with
    | none => s
    | some p =>
      if !issuing s || (partOf s p).reset != .none || (partOf s p).scrubbing then s
      else
        let s := beginSlice p (settleSlice p s)
        if (partOf s p).switch != .none || !coreIdle s p cluster core then s
        else match pickUnit s p cluster with
          | none => s
          | some (id, u) => runUnit cluster core id u s) s)

/-! ### WORK_UNIT_END (R342) -/

/-- Core time and keys of a unit that ends, for the predictor (R356). -/
def addRate (cls : Nat × Nat) (cyc keys : Nat) (l : List ((Nat × Nat) × (Nat × Nat))) : List ((Nat × Nat) × (Nat × Nat)) :=
  if l.any (fun x => x.1 == cls) then l.map fun x => if x.1 == cls then (cls, x.2.1 + cyc, x.2.2 + keys) else x
  else l ++ [(cls, cyc, keys)]

/-- A unit that has ended leaves its core; an op whose last unit it was finishes. -/
def retireUnit (id cluster core since : Nat) (u : WUnit) (s : State) : State :=
  let keys := ((mget s.ops.tab u.op).bind attnOf).map fun a => unitKeys s a u.rung u
  let s := computeUnit cluster u (chargeUnit id cluster core since u s)
  let n := ((mget s.attn.units id).map (·.used)).getD 0
  let s := modAttnSt u.op (fun a =>
    { a with left := a.left - 1, rates := addRate (u.codec, u.tier) n (keys.getD 0) a.rates }) (dropUnit id u s)
  match (mget s.ops.tab u.op).bind attnOf with
  | some a => if a.left == 0 then finishAttnOp u.op s else s
  | none => s

/-- WORK_UNIT_END: a unit that still waits for a Peer page stays; its reads are asked for again. -/
def execWorkUnitEnd (cluster core : Nat) (s : State) : Out :=
  .next (working (fun s => match unitOn s cluster core with
    | none => s
    | some (id, u) => match u.st with
      | .running c k since false =>
        if mhas s.core.halted (coreId c k) then s
        else if !unitReady s u then askPeers id s
        else settleSlice u.part (retireUnit id c k since u s)
      | _ => s) s)

/-! ### Pre-emption (R351 to R354) -/

/-- CHEAP_POINT_STOP: a unit of the outgoing tenant reaches a cheap point. -/
def execCheapPointStop (cluster core bytes : Nat) (s : State) : Out :=
  .next (working (fun s => match unitOn s cluster core with
    | none => s
    | some (id, u) =>
      if (partOf s u.part).switch == .stopping && !mhas s.core.halted (coreId cluster core) then
        settleStops u.part (stopUnit id (min bytes fullState) s)
      else s) s)

/-- CHEAP_WAIT_EXPIRY: the units that have not stopped stop where they are. -/
def execCheapWaitExpiry (part : Nat) (s : State) : Out :=
  .next (working (fun s => if (partOf s part).switch == .stopping then
      settleStops part (forEach (runningIn s part) (fun u s => stopUnit u.1 fullState s) s)
    else s) s)

/-- CCLK of a save or restore of some units (R353). -/
def saveTime (us : List WUnit) : Nat :=
  let at_ := fun (u : WUnit) => match u.st with
    | .running c _ _ _ | .saved c _ => c
    | .queued => 0
  945 + maxOf ((nodup (us.map at_)).map fun c => ceilDiv (sum ((us.filter fun u => at_ u == c).map (·.live))) 128)

/-- Charge a save or restore to each context it serves. -/
def chargeSave (us : List WUnit) (preempt : Bool) (s : State) : State :=
  let t := saveTime us
  forEach (nodup (us.map (·.ctx))) (fun c s =>
    modCtx c (fun x => { x with save := x.save + t, preempt := if preempt then sat32 (x.preempt + 1) else x.preempt }) s) s

/-- A scrub begins in a partition (R386). -/
def beginScrub (p : Nat) (s : State) : State := modPart p (fun x => { x with scrubbing := true }) s

/-- SAVE_DONE: the stopped units are in their save slot, and the scrub starts. -/
def execSaveDone (part : Nat) (s : State) : Out :=
  .next (working (fun s =>
    let x := partOf s part
    if x.switch != .saving then s
    else
      let us := runningIn s part
      let t := x.outgoing.getD 0
      let slot := saveSlot x t
      let s := if us.isEmpty then s else chargeSave (us.map (·.2)) true s
      let s := forEach us (fun u s =>
        modOp u.2.op (fun o => { o with preempted := true }) (modUnit u.1 (fun v =>
          { v with
            slot := slot
            st := match v.st with
              | .running c k _ _ => .saved c k
              | st => st }) s)) s
      let s := match slot with
        | some i => if us.isEmpty then s else modPart part (fun x => { x with slots := lput x.slots i (some t) }) s
        | none => s
      beginScrub part (modPart part (fun x => { x with switch := .scrubbing }) s)) s)

/-- RESTORE_DONE: the incoming tenant's units run on from where they stopped, and issue resumes. -/
def execRestoreDone (part : Nat) (s : State) : Out :=
  .next (working (fun s =>
    let x := partOf s part
    if x.switch != .restoring then s
    else
      let t := x.incoming.getD 0
      let us := s.attn.units.filter fun u => u.2.part == part && tenantOf s u.2.ctx == t && (match u.2.st with
        | .saved _ _ => true
        | _ => false)
      let s := if us.isEmpty then s else chargeSave (us.map (·.2)) false s
      let s := forEach us (fun u s =>
        let s := match u.2.st with
          | .saved c k => useCore (coreId c k) s
          | _ => s
        modUnit u.1 (fun v =>
          { v with st := match v.st with
              | .saved c k => .running c k (stamp s) false
              | st => st }) s) s
      modPart part (fun x => { x with switch := .none, slice := some t, expired := false, outgoing := none, incoming := none }) s) s)

/-! ### The scrub (R386 to R388) -/

/-- Lookaside entries of a partition's clusters and its core stores are cleared. -/
def clearCores (p : Nat) (s : State) : State :=
  let cl := clustersOf s p
  (s.modSeqs fun x => { x with plb := x.plb.filter fun e => !cl.contains e.1 }).modCore fun c =>
    { c with
      mem := c.mem.filter fun x => !cl.contains (x.1 / 2 ^ 20 / 64), dirty := c.dirty.filter fun k => !cl.contains (k / 64) }

/-- Exact rows of model slots are cleared: the blocks of their partition are retired, their pages stay with the sequences
that hold them. -/
def clearSlots (p : Nat) (slots : List Nat) (s : State) : State :=
  let here := fun (b : Block) => slots.contains (bits b.owner 4 6) && b.part == p && b.state == .published &&
    (match b.loc with
     | some (.array _ _) => true
     | _ => false)
  forEach ((s.pfx.blocks.filter fun b => here b.2).map (·.1)) (fun b s => (retireBlock b s).2) s

/-- Model slots of a tenant with scope SLICE (R388), or all of them. -/
def slotsOf (s : State) (t : Nat) (all : Bool) : List Nat :=
  (s.sec.slots.filter fun x => x.2.bound && x.2.tenant == t && (all || x.2.scope)).map (·.1)

/-- What a scrub clears by its end (Table 12.6), and its count. -/
def finishScrub (p : Nat) (slots : List Nat) (s : State) : State :=
  let s := clearSlots p slots (clearCores p s)
  (modPart p (fun x => { x with scrubbing := false }) s).modSec fun x => { x with scrubs := mupd x.scrubs p 0 fun n => sat32 (n + 1) }

/-- A slice switch goes on after its scrub: to the restore, or to no slice where no tenant is ready. -/
def afterScrub (p : Nat) (s : State) : State :=
  modPart p (fun x =>
    match x.incoming with
    | some _ => { x with switch := .restoring }
    | none => { x with switch := .none, outgoing := none }) s

/-! ### Context entries (R340, R341, R344, R366) -/

/-- An entry as bytes (Table 11.1). -/
def ctxBytes (c : Ctx) : List Byte :=
  leBytes 1 (b2n c.enable + 2 * c.part) ++ leBytes 1 0 ++ leBytes 2 c.tenant ++ leBytes 2 c.weight ++ leBytes 1 c.ladder ++
    leBytes 1 0 ++ leBytes 2 c.sketchK ++ leBytes 2 c.sink ++ leBytes 4 c.window ++ leBytes 2 c.tol ++ leBytes 2 0 ++
    leBytes 4 c.clusters ++ leBytes 8 0

/-- The entry that staged bytes spell, its virtual time and accounts as they were. -/
def ctxParse (b : List Byte) (old : Ctx) : Ctx :=
  { old with
    enable := bit (field b 0 1) 0, part := bits (field b 0 1) 1 4, tenant := field b 2 2, weight := field b 4 2
    ladder := field b 6 1 % 16, sketchK := field b 8 2, sink := field b 10 2, window := field b 12 4, tol := field b 16 2
    clusters := field b 20 4 }

/-- The cluster sets of R344. -/
def clustersOk (s : State) (n : Nat) (c : Ctx) : Bool :=
  if spaceOnly s c.part then
    let mine := bitsOf 32 c.clusters
    !c.enable || (!mine.isEmpty && mine.all (fun k => (nth (parts s) c.part { clusters := [], spaceOnly := false }).clusters.contains k) &&
      s.sch.ctxs.all fun x => x.1 == n || !x.2.enable || x.2.part != c.part || (bitsOf 32 x.2.clusters).all fun k => !mine.contains k)
  else c.clusters == 0

/-- A ring pair bound to a context is enabled. -/
def ringBound (s : State) (n : Nat) : Bool := s.rng.rings.any fun r => r.2.enable && r.2.context == n

/-- The refusals of R341 and R366, none of which holds. -/
def ctxOk (s : State) (n : Nat) (old c : Ctx) : Bool :=
  c.weight != 0 && partExists s c.part && !(bit c.ladder 0 && c.sketchK == 0) && clustersOk s n c && decide (c.tenant ≤ 0xFF) &&
    !(old.enable && (c.part != old.part || c.tenant != old.tenant || c.clusters != old.clusters)) &&
    !(old.enable && !c.enable && ringBound s n) &&
    (!c.enable || old.enable || (match mget s.sec.tenants c.tenant with
      | some t => t.created && !t.removing
      | none => false))

/-- Who may write an entry: the operator any, a management context those of its partition's other contexts. -/
def mayCtx (s : State) (x : Party) (n part : Nat) : Bool :=
  match x with
  | .operator => true
  | .mgmt p => part == p && (ctxOf s n).part == p && n != (partOf s p).mgmtCtx
  | _ => false

/-- Enabling an entry: v becomes the lowest of the partition's ready contexts, and the accounts clear (R342). -/
def enableCtx (s : State) (c : Ctx) : Ctx :=
  { c with
    v := BitVec.ofNat 64 (lowestV s (readyCtxs s c.part)), cyc := 0, preempt := 0, save := 0, late := 0, abstained := 0
    rungs := List.replicate 4 0, waits := List.replicate 16 0, slow := 0, slowOps := 0, actual := 0, solo := 0, opsDone := 0 }

/-- A context command of a party that may give it; refused, it sets err. -/
def ctxCmd (path : Path) (f : Party → State → Option State) (s : State) : State :=
  if s.sch.ctxBusy then s
  else match partyOf s path with
    | .tenant _ | .nobody => s
    | x => match f x s with
      | some s => s
      | none => s.modSch fun y => { y with ctxErr := true }

/-- SCH_CTX_CMD 1 (R340, R341). -/
def ctxWriteCmd (path : Path) (s : State) : State :=
  ctxCmd path (fun x s =>
    let n := s.sch.ctxSel
    let old := ctxOf s n
    let c := ctxParse s.sch.ctxData old
    if !mayCtx s x n c.part then some s
    else if !ctxOk s n old c then none
    else some (s.modSch fun y => { y with ctxs := mset y.ctxs n (if c.enable && !old.enable then enableCtx s c else c) })) s

/-- CTX_WRITE. -/
def execCtxWrite (path : Path) (s : State) : Out := .next (regAccess path 0xA0204 (ctxWriteCmd path) s)

/-- SCH_CTX_CMD 2 (R340). -/
def ctxReadCmd (path : Path) (s : State) : State :=
  ctxCmd path (fun x s =>
    let c := ctxOf s s.sch.ctxSel
    if x.mayManage c.part then some (s.modSch fun y => { y with ctxData := ctxBytes c }) else some s) s

/-- CTX_READ. -/
def execCtxRead (path : Path) (s : State) : Out := .next (regAccess path 0xA0204 (ctxReadCmd path) s)

/-- SCH_CTX_CMD 3 (R341). -/
def ctxDisableCmd (path : Path) (s : State) : State :=
  ctxCmd path (fun x s =>
    let n := s.sch.ctxSel
    let c := ctxOf s n
    if !mayCtx s x n c.part then some s
    else if c.enable && ringBound s n then none
    else some (s.modSch fun y => { y with ctxs := mmod y.ctxs n fun c => { c with enable := false } })) s

/-- CTX_DISABLE. -/
def execCtxDisable (path : Path) (s : State) : Out := .next (regAccess path 0xA0204 (ctxDisableCmd path) s)

/-! ### SLOWDOWN_PUBLISH (R364) -/

/-- A context's slowdown over the interval that ends, as 8.8 fixed point. -/
def slowdownOf (c : Ctx) : Nat := if c.opsDone == 0 || c.solo == 0 then 0 else sat16 (c.actual * 256 / c.solo)

/-- SLOWDOWN_PUBLISH. -/
def execSlowdownPublish (s : State) : Out :=
  .next (working (fun s => s.modSch fun x => { x with ctxs := x.ctxs.map fun c =>
    (c.1, { c.2 with slow := slowdownOf c.2, slowOps := sat16 c.2.opsDone, actual := 0, solo := 0, opsDone := 0 }) }) s)

end Sys2Proof.Machine
end

