-- ==== Sys2Proof/Machine/Fetch.lean ====
section
/-! DEFINITION. Tiles, fetches, prefetches and weight streams (07 R235 to R243; 08 R268; 09 R292), and their deadlines
(11 R355 to R357). -/

namespace Sys2Proof.Machine

open Sys2Proof

/-! ### The fetch descriptor (Table 7.9) -/

def fSeq (b : List Byte) : Nat := field b 0 3
def fLayout (b : List Byte) : Nat := field b 3 1
def fFirst (b : List Byte) : Nat := field b 4 4
def fCount (b : List Byte) : Nat := field b 8 4
def fLayer0 (b : List Byte) : Nat := field b 12 1
def fLayers (b : List Byte) : Nat := field b 13 1 + 1
def fRecs (b : List Byte) : Bool := bit (field b 14 1) 0
def fHeads (b : List Byte) : List Nat := bitsOf 64 (field b 0x10 8)
def fStride (b : List Byte) : Nat := field b 0x20 8

/-- Tiles of one KV head of a layer, and of a layer. -/
def fTilesPer (b : List Byte) : Nat := ceilDiv (fCount b) 64
def fTiles (b : List Byte) : Nat := (fHeads b).length * fTilesPer b

/-- Slot size of a layout (Table 7.8). -/
def slotBytes (m : Model) (layout : Nat) : Nat := if layout == 1 then 129 * m.d else 256 * m.d

/-- Deadline of layer j, none for a first deadline of 0 (R237). -/
def layerDeadline (b : List Byte) (arrival j : Nat) : Option Nat :=
  if field b 0x30 4 == 0 then none else some (arrival + field b 0x30 4 + j * field b 0x34 4)

/-- The checks of Table 7.9, of a prefetch without those of the fields it ignores. -/
def fetchOk (m : Model) (q : Seq) (b : List Byte) (prefetch : Bool) : Bool :=
  fFirst b % 64 == 0 && decide (1 ≤ fCount b) && decide (fCount b ≤ 4194304) && decide (fFirst b + fCount b ≤ q.length) &&
    decide (fLayer0 b + fLayers b ≤ m.layers) && !(fHeads b).isEmpty && (fHeads b).all (fun g => decide (g < m.heads)) &&
    (prefetch || (decide (fLayout b ≤ 2) && decide (fTiles b * slotBytes m (fLayout b) ≤ fStride b)))

/-! ### Rows of a tile -/

/-- What is at the positions of a tile: its rows, or why they cannot be had now. -/
inductive TileRows where
  | rows (l : List (List Byte)) (pages : List Seen)
  | wait (peers : List Nat)
  | dropped
  | poisoned

/-- The pages of positions [p0, p0 + n) of a layer for a fetch: those staged, and elsewhere as they stand. -/
def tilePages (s : State) (h layer p0 n : Nat) (staged : List Seen) : List Seen :=
  staged ++ ((pagesOver s h layer p0 (p0 + n)).map (seePage s h)).filter fun g => !staged.any fun x => x.page.first == g.page.first

/-- The page among some that holds a position. -/
def holding (l : List Seen) (pos : Nat) : Option Seen :=
  l.find? fun g => decide (g.page.first ≤ pos) && decide (pos < g.page.first + g.page.tokens)

/-- The rows of positions [p0, p0 + n) of a layer for KV head g, read by an op. -/
def tileRows (s : State) (id h layer p0 n g : Nat) (staged : List Seen) : TileRows :=
  let seen := tilePages s h layer p0 n staged
  let waits := (seen.filter fun x => !x.here s (.op id)).filterMap (·.peer)
  let pages := seen.map fun x => { x with page := x.arrived s (.op id) }
  let ps := (List.range n).map fun i => (p0 + i, holding pages (p0 + i))
  let gone := fun (x : Option Seen) => match x with
    | none => true
    | some y => y.page.tier == .dropped
  if ps.any fun x => gone x.2 then .dropped
  else if !waits.isEmpty then .wait waits
  else if ps.any fun x => (x.2.map fun y => rowPoisoned s y.page g (x.1 - y.page.first)).getD false then .poisoned
  else
    .rows (ps.map fun x => match x.2 with
      | some y => nth y.page.rowData (x.1 - y.page.first) []
      | none => []) pages

/-! ### Layouts (R235, R268) -/

/-- Elements of a KV head's K or V in some rows, token-major. -/
def headElems (m : Model) (v : Bool) (h : Nat) (rows : List (List Byte)) : List (List Nat) :=
  rows.map fun r => (List.range m.d).map fun c => elemAt m v h c r

/-- The exponent of an FP8 group. -/
def fp8Exp (m : Model) (vals : List Nat) : Int :=
  let fin := (vals.filter fun x => !m.fmt.isInf x && !m.fmt.isNan x).map fun x => (elemDy m x).abs
  match (List.range 260).find? fun (i : Nat) => fin.all fun x => x.le { m := 448, e := (i : Int) - 126 } with
  | some i => (i : Int) - 126
  | none => 134

/-- An element as E4M3 under an exponent, and its error. -/
def fp8Code (m : Model) (e : Int) (x : Nat) : Nat × Dy :=
  match m.fmt.dec x with
  | .nan => ((if bit x 15 then 0xFF else 0x7F), Dy.zero)
  | .inf n => ((if n then 0xFE else 0x7E), Dy.zero)
  | .fin n k g =>
    let c := e4m3.enc .near n k 1 (g - e)
    let y := (e4m3.dec c).dy
    (c, ((Num.fin n k g).dy.sub { y with e := y.e + e }).abs)

/-- The codes of a K or V part, its scales, and the largest error. -/
def fp8Part (m : Model) (rows : List (List Nat)) : List Byte × List Byte × Dy :=
  let groups := ceilDiv rows.length 16
  let exps := (List.range groups).map fun g => (List.range (m.d / 32)).map fun cg =>
    fp8Exp m (((rows.drop (16 * g)).take 16).flatMap fun r => (r.drop (32 * cg)).take 32)
  let codes := (List.range rows.length).flatMap fun t => (List.range m.d).map fun c =>
    fp8Code m (nth (nth exps (t / 16) []) (c / 32) 0) (nth (nth rows t []) c 0)
  (codes.flatMap fun x => leBytes 1 x.1, exps.flatten.flatMap fun e => leBytes 4 (fp32.enc .near false 1 1 e),
    codes.foldl (fun a x => if a.lt x.2 then x.2 else a) Dy.zero)

/-- Byte strings at rising offsets, adjacent ones joined. -/
def joinSegs : List (Nat × List Byte) → List (Nat × List Byte)
  | [] => []
  | (o, b) :: r =>
    match joinSegs r with
    | (o', b') :: r' => if o + b.length == o' then (o, b ++ b') :: r' else (o, b) :: (o', b') :: r'
    | [] => [(o, b)]

/-- Layout 0. -/
def rawTile (m : Model) (h : Nat) (rows : List (List Byte)) : List (Nat × List Byte) :=
  let part := fun (v : Bool) => (headElems m v h rows).flatten.flatMap (leBytes 2)
  joinSegs [(0, part false), (128 * m.d, part true)]

/-- Layout 1, and its largest error. -/
def fp8Tile (m : Model) (h : Nat) (rows : List (List Byte)) : List (Nat × List Byte) × Dy :=
  let (kc, ks, ke) := fp8Part m (headElems m false h rows)
  let (vc, vs, ve) := fp8Part m (headElems m true h rows)
  (joinSegs [(0, kc), (64 * m.d, vc), (128 * m.d, ks), (128 * m.d + m.d / 2, vs)], if ke.lt ve then ve else ke)

/-- The parts of an as-stored tile: rows [t0, t0 + k) of head h of an image of n rows. -/
def storedParts (m : Model) (codec n h t0 k : Nat) (img : EncImg) : List (List Byte) :=
  let w := if codec == 1 then 8 else if codec == 2 then 4 else 3
  let codes := fun (l : List Nat) => packBits w ((l.drop ((h * n + t0) * m.d)).take (k * m.d))
  let g := ceilDiv k 16
  if codec == 1 then
    let ex := fun (l : List Nat) => ((l.drop (e8Index m n h t0 0)).take (g * (m.d / 32))).flatMap (leBytes 1)
    [codes img.kc, codes img.vc, ex img.kt, ex img.vt]
  else
    let sz := if codec == 2 then 16 else 8
    let tabs := fun (l : List Nat) (i c : Nat) => ((l.drop (sz * i)).take (sz * c)).flatMap (leBytes 2)
    let first := [codes img.kc, codes img.vc, tabs img.kt (tableIndex m false n h t0 0) (m.d / 8), tabs img.vt (tableIndex m true n h t0 0) g]
    if codec == 3 then
      let per := m.d / 64
      let base := fun (v : Nat) => (v * m.heads * n + h * n + t0) * per
      let counts := fun (v : Nat) => (img.oc.drop (base v)).take (k * per)
      let ols := fun (v : Nat) => (img.ol.drop (sum (img.oc.take (base v)))).take (sum (counts v))
      first ++ [packBits 2 (counts 0 ++ counts 1), (ols 0 ++ ols 1).flatMap olBytes]
    else first

/-- Pad to a multiple of 8 bytes. -/
def pad8 (b : List Byte) : List Byte := b ++ List.replicate ((8 - b.length % 8) % 8) 0

/-- An as-stored tile (Table 8.7). -/
def storedTile (m : Model) (p : Page) (layer h pos k : Nat) (img : EncImg) : List Byte :=
  let ps := storedParts m p.codec p.rows h (pos - p.first) k img
  let off := fun (i : Nat) =>
    if (nth ps i []).isEmpty then 0 else 64 + sum ((ps.take i).map fun b => (pad8 b).length)
  let used := ps.filter fun b => !b.isEmpty
  let body := (used.dropLast.flatMap pad8) ++ (used.getLast?).getD []
  let r := nth p.heads h {}
  leBytes 2 0xFFFF ++ leBytes 1 p.codec ++ leBytes 1 (b2n m.fp16 + 2 * b2n p.inherited) ++ leBytes 4 (64 + body.length) ++
    leBytes 4 pos ++ leBytes 1 k ++ leBytes 1 h ++ leBytes 1 layer ++ leBytes 1 0 ++ leBytes 4 r.kErr.toNat ++
    leBytes 4 r.vErr.toNat ++ (List.range 6).flatMap (fun i => leBytes 2 (off i)) ++
    leBytes 2 (if p.codec == 3 then (nth ps 5 []).length / 4 else 0) ++ leBytes 26 0 ++ body

/-- A tile in its layout: the bytes it writes within its slot, its error, and whether it is sent as stored, or expanded. -/
structure TileOut where
  segs : List (Nat × List Byte)
  err : Nat := 0
  stored : Bool := false

/-- Format a tile of one head. -/
def formatTile (m : Model) (layout layer h pos : Nat) (rows : List (List Byte)) (pages : List Seen) : TileOut :=
  if layout == 1 then
    let (segs, e) := fp8Tile m h rows
    { segs := segs, err := fp32.ofDy .up e }
  else match (if layout == 2 then pages else []) with
    | [g] => match g.page.content with
      | .enc img => { segs := [(0, storedTile m g.page layer h pos rows.length img)], stored := true }
      | .raw _ => { segs := rawTile m h rows }
    | _ => { segs := rawTile m h rows }

/-! ### A fetch in progress -/

/-- Update a fetch. -/
def modFetch (id : Nat) (f : FetchSt → FetchSt) (s : State) : State :=
  modOp id (fun o => { o with body := match o.body with
    | .fetch x => .fetch (f x)
    | b => b }) s

/-- Tiles of a layer or stream that were sent, sent late, and not sent, once lost ones are taken off. -/
def TileSt.sentNet (t : TileSt) : Nat := t.sent - t.lost.length
def TileSt.lateNet (t : TileSt) : Nat := count (fun i => !t.lost.contains i) t.lateIdx
def TileSt.unsentNet (t : TileSt) : Nat := t.unsent + t.lost.length

/-- Messages of an op's layer still to be acknowledged. -/
def tilesOut (s : State) (id lay : Nat) : Bool := s.io.tiles.any fun x => x.2.op == id && x.2.lay == lay

/-- A layer's status (Table 7.10). -/
def layerStatus (t : TileSt) : Nat :=
  if t.dropped then stDropped else if t.poisoned then stPoison else if t.lateNet != 0 then stLate else stOk

/-- A layer record with its time: when the last message was acknowledged. -/
def layerRec (layer time : Nat) (t : TileSt) : List Byte :=
  leBytes 1 layer ++ leBytes 1 (layerStatus t) ++ leBytes 2 0 ++ leBytes 4 t.sentNet ++ leBytes 4 t.lateNet ++
    leBytes 4 t.unsentNet ++ leBytes 4 t.err.toNat ++ leBytes 6 time ++ leBytes 1 0xA5 ++ leBytes 5 0

/-- The time of a layer's record; where no message of it was acknowledged the manual gives none (log 5). -/
def layerTime (t : TileSt) (s : State) : Nat × State :=
  match t.ackAt with
  | some n => (n % 2 ^ 48, s)
  | none => let (v, s) := fresh 48 s; (v.toNat, s)

/-- Write the record of layer j of a fetch (R240). -/
def writeLayerRec (o : Op) (b : List Byte) (j : Nat) (t : TileSt) (s : State) : State :=
  let (time, s) := layerTime t s
  (writeTiles noOp 0 none (field b 0x2E 2) ((field b 0x28 6 + 32 * j) % 2 ^ 48) (ringOf s o.ring).key
    (layerRec (fLayer0 b + j) time t) s).2

/-- The predictor learns from an op without work units that ended at rung 0 (R356). -/
def refineOp (id : Nat) (s : State) : State :=
  match mget s.ops.tab id with
  | none => s
  | some o =>
    let c := costOf s o.opcode o.cls.1 o.cls.2
    if o.units == 0 || o.maxRung != 0 then s
    else refineCost o.opcode o.cls.1 o.cls.2 ((stamp s - o.startTime - c.fixed) * 1024 / o.units) s

/-- The answer of a fetch (Table 7.11). -/
def fetchAns (rung : Nat) (ls : List TileSt) : Ans :=
  { status := if ls.any (·.dropped) then stDropped else if ls.any (·.poisoned) then stPoison
      else if ls.any fun t => t.lateNet != 0 then stLate else stOk
    rung := rung, loss := (ls.map fun t => t.err.toNat).foldl fmax 0, a := sum (ls.map TileSt.sentNet)
    b := sum (ls.map TileSt.lateNet), c := sum (ls.map TileSt.unsentNet) }

/-- Layers whose tiles have gone and been resolved write their records; a fetch whose layers have all ended completes. -/
def settleFetch (id : Nat) (s : State) : State :=
  match mget s.ops.tab id with
  | none => s
  | some o => match o.body with
    | .fetch f =>
      let b := f.desc
      let total := fTiles b
      let beyond := fun (j : Nat) => decide (total ≤ (nth f.lays j {}).next) && !tilesOut s id j
      let due := (List.range f.lays.length).filter fun j => beyond j && !(nth f.lays j {}).recDone
      let s := forEach due (fun j s =>
        let s := when (fRecs b) (writeLayerRec o b j (nth f.lays j {})) s
        modFetch id (fun f => { f with lays := lmod f.lays j fun t => { t with recDone := true } }) s) s
      if (List.range f.lays.length).all beyond then
        let a := fetchAns o.maxRung f.lays
        let s := s.modAttn fun x => { x with ops := lmod x.ops 3 fun n => sat32 (n + 1) }
        finishOp id a (refineOp id (dropImages (.op id) s))
      else s
    | _ => s

/-- Send the segments of a tile. -/
def sendSegs (id lay tile node addr key : Nat) (segs : List (Nat × List Byte)) (s : State) : State :=
  forEach segs (fun g s => (writeTiles id lay (some tile) node ((addr + g.1) % 2 ^ 48) key g.2 s).2) s

/-- Pages first read by a tile of the first head: each is one access of the fetch. -/
def fetchAccess (ctx seq layer first pos : Nat) (firstHead : Bool) (pages : List Seen) (s : State) : State :=
  if !firstHead then s
  else
    let c := (clustersFor s ctx).headD 0
    let fresh := (pages.filter fun g => decide (pos ≤ max g.page.first first)).map (·.at_)
    let s := walks c seq layer pos (pos + 64) (fun a => fresh.contains a || (pos % 16384 == 0 && (pages.map (·.at_)).contains a)) s
    forEach fresh (access c) s

/-! ### Staging in the Hamper (R239, R287, R292) -/

/-- Bytes one fetch or stream may hold in the Hamper. -/
def stageCap : Nat := 4194304

/-- The tiles of a fetch's layers, or of a stream. -/
def tileSts (o : Op) : List TileSt :=
  match o.body with
  | .fetch f => f.lays
  | .stream _ _ _ t => [t]
  | _ => []

/-- Update them. -/
def modTileSts (id : Nat) (f : List TileSt → List TileSt) (s : State) : State :=
  modOp id (fun o => { o with body := match o.body with
    | .fetch x => .fetch { x with lays := f x.lays }
    | .stream a b c t => .stream a b c ((f [t]).headD t)
    | b => b }) s

/-- Bytes staged. -/
def stagedBytes (l : List TileSt) : Nat := sum (l.map fun t => sum (t.staged.map (·.bytes)))

/-- What is staged without the tile furthest ahead, and that tile's bytes. -/
def dropFurthest : List TileSt → Option (Nat × List TileSt)
  | [] => none
  | t :: rest =>
    match dropFurthest rest with
    | some (n, l) => some (n, t :: l)
    | none => t.staged.getLast?.map fun x => (x.bytes, { t with staged := t.staged.dropLast } :: rest)

/-- An op holds `n` bytes more in the Hamper within its 4 MiB and its partition's quota. -/
def stageFits (s : State) (part n : Nat) (l : List TileSt) : Bool :=
  decide (stagedBytes l + n ≤ stageCap) && covers s part 0 n

/-- Room for the tile whose turn it is: the tiles staged furthest ahead give way until its assembly fits, and it goes without more
room than that where nothing is staged (log 33). -/
def makeRoom (id part n : Nat) : Nat → State → State
  | 0, s => s
  | fuel + 1, s =>
    match mget s.ops.tab id with
    | none => s
    | some o =>
      if stageFits s part n (tileSts o) then s
      else match dropFurthest (tileSts o) with
        | none => s
        | some (k, l) => makeRoom id part n fuel (modTileSts id (fun _ => l) (uncharge part 0 k s))

/-- The tile staged at a place of a layer. -/
def stagedAt (o : Op) (lay i : Nat) : Option Staged := (nth (tileSts o) lay {}).staged.find? fun x => x.tile == i

/-- A staged tile's turn has come: it leaves the staging. -/
def unstage (id part lay i : Nat) (s : State) : State :=
  match (mget s.ops.tab id).bind fun o => stagedAt o lay i with
  | none => s
  | some x =>
    modTileSts id (fun l => lmod l lay fun t => { t with staged := t.staged.filter fun y => y.tile != i }) (uncharge part 0 x.bytes s)

/-- A tile is staged. -/
def stage (id part lay : Nat) (x : Staged) (s : State) : State :=
  modTileSts id (fun l => lmod l lay fun t => { t with staged := t.staged ++ [x] }) (charge part 0 x.bytes s)

/-- Everything an op holds in the Hamper is let go. -/
def unstageAll (id : Nat) (o : Op) (s : State) : State :=
  modTileSts id (fun l => l.map fun t => { t with staged := [] }) (uncharge (ctxOf s o.ctx).part 0 (stagedBytes (tileSts o)) s)

/-- Whether rows are staged rather than read as they are sent: rows in flash or on a peer. -/
def remote (g : Seen) : Bool := g.peer.isSome || g.page.tier == .slc || g.page.tier == .bulk

/-- Position, rows and layer of tile i of layer `lay` of a fetch. -/
def fTilePos (b : List Byte) (i : Nat) : Nat := fFirst b + 64 * (i % fTilesPer b)
def fTileRows (b : List Byte) (i : Nat) : Nat := min 64 (fCount b - 64 * (i % fTilesPer b))

/-- Gather one tile of a fetch: its rows in flash or on a peer are staged. False where gathering must wait here. -/
def gatherTile (id : Nat) (o : Op) (f : FetchSt) (lay i : Nat) (s : State) : Bool × State :=
  let b := f.desc
  let part := (ctxOf s o.ctx).part
  let m := ((seqOf s (fSeq b)).map (seqModel s)).getD (modelOf [])
  let p0 := fTilePos b i
  let l := (tilePages s (fSeq b) (fLayer0 b + lay) p0 (fTileRows b i) []).filter remote
  if (stagedAt o lay i).isSome || l.isEmpty then (true, s)
  else match (l.filter fun g => !g.here s (.op id)).filterMap (·.peer) with
    | r :: rest => (false, forEach (r :: rest) (wantPeer (.op id)) s)
    | [] =>
      let rows := count (fun j => (holding l (p0 + j)).isSome) (List.range (fTileRows b i))
      let x : Staged := { tile := i, pages := l.map fun g => { g with page := g.arrived s (.op id), peer := none }, bytes := 4 * m.d * rows }
      if stageFits s part x.bytes (tileSts o) then (true, stage id part lay x s) else (false, s)

/-- Gather tiles in order until one must wait. -/
def gatherFrom (id : Nat) : List (Nat × Nat) → State → State
  | [], s => s
  | (lay, i) :: rest, s =>
    match mget s.ops.tab id with
    | some o => match o.body with
      | .fetch f =>
        let (go, s) := gatherTile id o f lay i s
        if go then gatherFrom id rest s else s
      | _ => s
    | none => s

/-- Gather what a fetch may gather now: the layers begun, from its next tile on (R239). -/
def gather (id : Nat) (s : State) : State :=
  match mget s.ops.tab id with
  | some o => match o.body with
    | .fetch f =>
      gatherFrom id (((List.range f.lays.length).filter fun j => decide (f.lay ≤ j) && decide (j < f.ahead)).flatMap fun j =>
        ((List.range (fTiles f.desc)).filter fun i => decide ((nth f.lays j {}).next ≤ i)).map fun i => (j, i)) s
    | _ => s
  | none => s

/-- A fetch goes on: it gathers, and settles what has ended. -/
def driveFetch (id : Nat) (s : State) : State := settleFetch id (gather id s)

/-! ### Sending a fetch's tiles (R239, R241) -/

/-- The tables that a tile's encoded rows need are used (R267). -/
def expandTile (p0 n h : Nat) (pages : List Seen) (s : State) : State :=
  forEach pages (fun g s =>
    let a := max p0 g.page.first
    let b := min (p0 + n) (g.page.first + g.page.rows)
    if a < b then expandRows g.page h (a - g.page.first) (b - a) s else s) s

/-- Count a tile sent in layout 2, as stored or as layout 0 (R270). -/
def countTile (layout : Nat) (stored : Bool) (s : State) : State :=
  s.modCdc fun c =>
    { c with tilesStored := sat32 (c.tilesStored + b2n stored), tilesExpanded := sat32 (c.tilesExpanded + b2n (layout == 2 && !stored)) }

/-- The turn of the next tile of a fetch is over. The gathering of layer j + 2 begins with the first tile sent of layer j, or as it
ends without one. -/
def stepTile (id : Nat) (f : FetchSt) (i : Nat) (g : TileSt → TileSt) (s : State) : State :=
  modFetch id (fun x =>
    let t := g (nth x.lays f.lay {})
    let last := i + 1 == fTiles f.desc
    { x with
      lay := if last then f.lay + 1 else f.lay, ahead := if t.sent != 0 || last then max x.ahead (f.lay + 3) else x.ahead
      lays := lmod x.lays f.lay fun _ => { t with next := i + 1 } }) s

/-- Send the next tile of a fetch, or count it as not sent; one that needs a Peer page not yet here waits. -/
def fetchTile (id : Nat) (o : Op) (f : FetchSt) (s : State) : State :=
  let b := f.desc
  match (seqOf s (fSeq b)), f.lays[f.lay]? with
  | some q, some t =>
    let m := seqModel s q
    let i := t.next
    let k := i / fTilesPer b
    let h := nth (fHeads b) k 0
    let n := fTileRows b i
    let pos := fTilePos b i
    let layer := fLayer0 b + f.lay
    let part := (ctxOf s o.ctx).part
    let layout := match f.storedFrom with
      | some j => if j ≤ f.lay then 2 else fLayout b
      | none => fLayout b
    match tileRows s id (fSeq b) layer pos n h (((stagedAt o f.lay i).map (·.pages)).getD []) with
    | .wait peers => forEach peers (wantPeer (.op id)) s
    | .dropped => stepTile id f i (fun t => { t with unsent := t.unsent + 1, dropped := true }) (unstage id part f.lay i s)
    | .poisoned => stepTile id f i (fun t => { t with unsent := t.unsent + 1, poisoned := true }) (unstage id part f.lay i s)
    | .rows rows pages =>
      let out := formatTile m layout layer h pos rows pages
      let s := unstage id part f.lay i s
      let s := makeRoom id part (slotBytes m (fLayout b)) (sum ((tileSts o).map fun t => t.staged.length)) s
      let s := fetchAccess o.ctx (fSeq b) layer (fFirst b) pos (k == 0) pages s
      let s := countTile layout out.stored (when (!out.stored) (expandTile pos n h pages) s)
      let addr := field b 0x18 6 + f.lay * fStride b + i * slotBytes m (fLayout b)
      let s := sendSegs id f.lay i (field b 0x1E 2) addr (ringOf s o.ring).key out.segs (beginWork id s)
      stepTile id f i (fun t => { t with sent := t.sent + 1, err := BitVec.ofNat 32 (fmax t.err.toNat out.err) }) s
  | _, _ => s

/-! ### A fetch's deadline (R356, R357) -/

/-- Work of a fetch still to be sent: tokens of each head and layer. -/
def fetchWork (o : Op) (f : FetchSt) : Work :=
  let b := f.desc
  let per := fun (t : TileSt) => sum ((List.range (fHeads b).length).map fun k =>
    fCount b - min (fCount b) (64 * (t.next - k * fTilesPer b)))
  [(o.cls, sum (f.lays.map per))]

/-- No tile of a fetch has been taken yet. -/
def fetchUnsent (f : FetchSt) : Bool := f.lays.all fun t => t.next == 0

/-- A fetch abstains: nothing is sent (Table 11.4). -/
def abstainFetch (id : Nat) (f : FetchSt) (s : State) : State :=
  finishOp id { status := stLate, rung := 4, c := fTiles f.desc * f.lays.length } (s.modAttn fun x => { x with ops := lmod x.ops 3 fun n => sat32 (n + 1) })

/-- Evaluate a fetch with a deadline that has tiles to send. -/
def deadlineFetch (id : Nat) (s : State) : State :=
  match mget s.ops.tab id with
  | none => s
  | some o => match o.body with
    | .fetch f =>
      if !s.sch.monitorEn || o.deadline == 0 || f.lays.length ≤ f.lay then s
      else
        let bits := (ctxOf s o.ctx).ladder
        let allowed := [0, 2, 4].filter fun r =>
          r == 0 || (r == 2 && fLayout f.desc == 0 && bit bits 1) || (r == 4 && bit bits 3 && fetchUnsent f)
        let meets := decide (tPred s opKvFetch o.ctx (fetchWork o f) ≤ o.arrival + o.deadline)
        let r := pickRung allowed o.rung fun _ => meets
        if r == 4 then abstainFetch id f s
        else if r == 2 && o.rung != 2 then
          let j := if (nth f.lays f.lay {}).next == 0 then f.lay else f.lay + 1
          if j < f.lays.length then
            modFetch id (fun f => { f with storedFrom := some j }) (modOp id (fun o => { o with rung := 2, maxRung := 2 }) s)
          else s
        else s
    | _ => s

/-- DEADLINE_EVALUATION (R357): at dispatch, and every 64 µs while work has not started. -/
def execDeadlineEvaluation (op : Nat) (s : State) : Out := .next (deadlineFetch op (deadlineAttn op s))

/-! ### KV_FETCH and KV_PREFETCH (R236 to R243) -/

/-- Codec and tier that choose the predictor entry of a page. -/
def pageClass (p : Page) : Nat × Nat :=
  (p.codec, match p.tier with
    | .hamper => 0
    | .slc => 2
    | .bulk => 3
    | _ => 1)

/-- The class of the first page of a range. -/
def firstClass (s : State) (h layer pos : Nat) : Nat × Nat :=
  match (seqOf s h).bind fun q => entAt q layer pos with
  | some e => pageClass (pageOf s h e)
  | none => (0, 1)

/-- The checks of a fetch or prefetch: the handle, then its fields. -/
def fetchBad (s : State) (ctx : Nat) (b : List Byte) (prefetch : Bool) : Option Nat :=
  if !seqOk s ctx (fSeq b) then some 0x10
  else match seqOf s (fSeq b) with
    | none => some 0x10
    | some q => if fetchOk (seqModel s q) q b prefetch then none else some 0x34

/-- Note the predicted work of an op without work units, and its solo estimate. -/
def noteWork (id opcode ctx : Nat) (cls : Nat × Nat) (units : Nat) (s : State) : State :=
  modOp id (fun o => { o with cls := cls, units := units, solo := soloOf s opcode ctx [(cls, units)] }) s

/-- The effect of KV_FETCH at its start. -/
def kvFetch (ring : Nat) (e : Entry) (s : State) : State :=
  let b := (e.operands.getD []).take 64
  let ctx := (ringOf s ring).context
  match fetchBad s ctx b false with
  | some n => endNow ring e (internal n) s
  | none =>
    let (id, s) := beginOp ring e (.fetch { desc := b, lays := List.replicate (fLayers b) {} }) s
    let units := fCount b * (fHeads b).length * fLayers b
    gather id (deadlineFetch id (noteWork id opKvFetch ctx (firstClass s (fSeq b) (fLayer0 b) (fFirst b)) units s))

/-- KV_FETCH. -/
def execKvFetch (ring : Nat) (s : State) : Out := .next (startOp opKvFetch ring (kvFetch ring) s)

/-- Update a prefetch. -/
def modPrefetch (id : Nat) (f : PrefetchSt → PrefetchSt) (s : State) : State :=
  modOp id (fun o => { o with body := match o.body with
    | .prefetch x => .prefetch (f x)
    | b => b }) s

/-- Begin to bring a Peer page whose image has arrived into HBM: a run for the image through ladder step 1. -/
def beginPeerUp (r : Nat) (op : Option Nat) (lay : Nat) (s : State) : Began :=
  match recOf s r with
  | none => .never false s
  | some x => raise (.rec_ r) (peerPageOf s (.op (op.getD 0)) r x.page) op (some 0xC0) lay s

/-- What a prefetch does with one page now. -/
def prefetchOne (id lay : Nat) (a : PageAt) (s : State) : Fate :=
  match getPage s a with
  | none => .notMoved false false s
  | some p =>
    if p.moving then .wait s
    else match p.tier, a with
      | .hbm, _ => .already
      | .dropped, _ => .notMoved true false s
      | .hamper, _ => .notMoved false false s
      | .peer, .rec_ r =>
        if peerWhole s (.op id) r then
          match beginPeerUp r (some id) lay s with
          | .move m s => .moving m s
          | .done s => .moved s
          | .later s => .wait s
          | .never q s => .notMoved false q s
        else .wait (wantPeer (.op id) r s)
      | .peer, _ => .notMoved false false s
      | _, _ => match beginUp a (some id) (some 0xC0) lay s with
        | .move m s => .moving m s
        | .done s => .moved s
        | .later s => .wait s
        | .never q s => .notMoved false q s

/-- The answer of a prefetch (Table 7.11). -/
def prefetchAns (f : PrefetchSt) : Ans :=
  { status := if f.dropped then stDropped else if f.quota then stQuota else if f.late then stLate else stOk
    a := f.moved, b := f.already, c := f.notMoved }

/-- Take the pages of a prefetch in order until one must wait; it completes with its last move. -/
def drivePrefetch (id : Nat) : Nat → State → State
  | 0, s => s
  | fuel + 1, s =>
    match mget s.ops.tab id with
    | none => s
    | some o => match o.body with
      | .prefetch f => match f.todo with
        | (lay, a) :: rest =>
          let put := fun (g : PrefetchSt → PrefetchSt) (s : State) => drivePrefetch id fuel (modPrefetch id (fun f => { g f with todo := rest }) s)
          (match prefetchOne id lay a s with
           | .already => put (fun f => { f with already := f.already + 1 }) s
           | .notMoved d q s => put (fun f => { f with notMoved := f.notMoved + 1, dropped := f.dropped || d, quota := f.quota || q }) s
           | .moving m s => put (fun f => { f with moves := f.moves ++ [m] }) (beginWork id s)
           | .moved s => put (fun f => { f with moved := f.moved + 1 }) s
           | .wait s => s)
        | [] =>
          if f.moves.isEmpty then
            finishOp id (prefetchAns f) (refineOp id (dropImages (.op id) (s.modAttn fun x => { x with ops := lmod x.ops 4 fun n => sat32 (n + 1) })))
          else s
      | _ => s

/-- Moves of a prefetch that are in flight no longer were abandoned (R283). -/
def dropLostFetches (id : Nat) (s : State) : State :=
  modPrefetch id (fun f =>
    { f with notMoved := f.notMoved + count (fun m => !mhas s.tier.moves m) f.moves, moves := f.moves.filter (mhas s.tier.moves) }) s

/-- Drive a prefetch through all its pages. -/
def runPrefetch (id : Nat) (s : State) : State :=
  let s := dropLostFetches id s
  drivePrefetch id (match mget s.ops.tab id with
    | some o => match o.body with
      | .prefetch f => f.todo.length + 1
      | _ => 0
    | none => 0) s

/-- A prefetch's move has ended, moved or abandoned. -/
def prefetchMoved (id mv lay : Nat) (ok : Bool) (s : State) : State :=
  let s := match mget s.ops.tab id with
    | some o => match o.body with
      | .prefetch f =>
        let late := match layerDeadline f.desc o.arrival lay with
          | some d => decide (d < stamp s)
          | none => false
        let s := when ok (fun s => s.modAttn fun x => { x with prefetched := sat32 (x.prefetched + 1) }) s
        modPrefetch id (fun f =>
          { f with
            moves := f.moves.filter (· != mv), moved := f.moved + b2n ok, notMoved := f.notMoved + b2n (!ok)
            late := f.late || (ok && late) }) s
      | _ => s
    | none => s
  runPrefetch id s

/-- The effect of KV_PREFETCH at its start. -/
def kvPrefetch (ring : Nat) (e : Entry) (s : State) : State :=
  let b := (e.operands.getD []).take 64
  let ctx := (ringOf s ring).context
  match fetchBad s ctx b true with
  | some n => endNow ring e (internal n) s
  | none =>
    let h := fSeq b
    let todo := (List.range (fLayers b)).flatMap fun j =>
      (pagesOver s h (fLayer0 b + j) (fFirst b) (fFirst b + fCount b)).map fun e => (j, e.at_ h)
    let (id, s) := beginOp ring e (.prefetch { desc := b, todo := todo }) s
    let units := fCount b * (fHeads b).length * fLayers b
    runPrefetch id (noteWork id opKvPrefetch ctx (firstClass s h (fLayer0 b) (fFirst b)) units s)

/-- KV_PREFETCH. -/
def execKvPrefetch (ring : Nat) (s : State) : Out := .next (startOp opKvPrefetch ring (kvPrefetch ring) s)

/-! ### WT_STREAM (R292) -/

/-- The answer of a stream. -/
def streamAns (t : TileSt) : Ans :=
  { status := if t.poisoned then stPoison else if t.lateNet != 0 then stLate else stOk, a := t.sentNet, b := t.lateNet, c := t.unsentNet }

/-- A stream whose tiles have all gone and been resolved completes. -/
def settleStream (id : Nat) (s : State) : State :=
  match mget s.ops.tab id with
  | none => s
  | some o => match o.body with
    | .stream _ _ n t => if n ≤ t.next && !tilesOut s id 0 then finishOp id (streamAns t) (refineOp id s) else s
    | _ => s

/-- Deadline of tile i of a stream, none for a first deadline of 0. -/
def streamDeadline (il : List Byte) (arrival i : Nat) : Option Nat :=
  if field il 12 4 == 0 then none else some (arrival + field il 12 4 + i * field il 24 4)

/-- A tile of an object holds a poisoned line, or its flash image is lost (R320). -/
def tilePoisoned (s : State) (p : Page) : Bool :=
  match p.tier, p.run with
  | .hbm, some r => runPoisoned s r 0 65536
  | .hbm, none => false
  | _, _ => ((p.backing.bind (mget s.ftl.images)).map (·.lost)).getD false

/-- Gather a stream's tiles from its next on: those in flash are staged until one does not fit. -/
def gatherStream (id obj first : Nat) : List Nat → State → State
  | [], s => s
  | i :: rest, s =>
    match mget s.ops.tab id, (mget s.wt.objs obj).bind fun w => w.tiles[first + i]? with
    | some o, some p =>
      let part := (ctxOf s o.ctx).part
      let g : Seen := { at_ := .tile obj (first + i), page := p, peer := none }
      if !remote g || tilePoisoned s p || (stagedAt o 0 i).isSome then gatherStream id obj first rest s
      else if stageFits s part 65536 (tileSts o) then
        gatherStream id obj first rest (stage id part 0 { tile := i, pages := [g], bytes := 65536 } s)
      else s
    | _, _ => s

/-- A stream goes on: it gathers, and settles what has ended. -/
def driveStream (id : Nat) (s : State) : State :=
  settleStream id (match mget s.ops.tab id with
    | some o => match o.body with
      | .stream obj first n t => gatherStream id obj first ((List.range n).filter fun i => decide (t.next ≤ i)) s
      | _ => s
    | none => s)

/-- Send the next tile of a stream. -/
def streamTile (id : Nat) (o : Op) (obj first n : Nat) (t : TileSt) (s : State) : State :=
  if n ≤ t.next then s
  else
    let i := t.next
    let staged := stagedAt o 0 i
    match (staged.bind fun x => x.pages.head?.map (·.page)).orElse fun _ => (mget s.wt.objs obj).bind fun w => w.tiles[first + i]? with
    | none => s
    | some p =>
      let il := eInline o.raw
      let part := (ctxOf s o.ctx).part
      let put := fun (g : TileSt → TileSt) (s : State) => modTileSts id (fun l => l.map fun t => { g t with next := i + 1 }) s
      let s := unstage id part 0 i (access ((clustersFor s o.ctx).headD 0) (.tile obj (first + i)) s)
      if staged.isNone && tilePoisoned s p then put (fun t => { t with unsent := t.unsent + 1, poisoned := true }) s
      else
        let s := makeRoom id part 65536 t.staged.length s
        let bytes := match p.content with
          | .raw l => l.flatten
          | .enc _ => []
        let s := sendSegs id 0 i (field il 22 2) ((field il 16 6 + 65536 * i) % 2 ^ 48) (ringOf s o.ring).key [(0, bytes)] (beginWork id s)
        put (fun t => { t with sent := t.sent + 1 }) s

/-- The effect of WT_STREAM at its start. -/
def wtStream (ring : Nat) (e : Entry) (s : State) : State :=
  let il := eInline e.raw
  let ctx := (ringOf s ring).context
  let obj := field il 0 4 % 2 ^ 20
  let first := field il 4 4
  let n := field il 8 4
  match objNamed s ctx obj with
  | none => endNow ring e (internal 0x43) s
  | some w =>
    if !w.sealed || n == 0 || decide (w.size < first + n) then endNow ring e (internal 0x43) s
    else
      let (id, s) := beginOp ring e (.stream obj first n {}) s
      let cls := ((w.tiles[first]?).map pageClass).getD (0, 1)
      driveStream id (noteWork id opWtStream ctx cls (1024 * n) s)

/-- WT_STREAM. -/
def execWtStream (ring : Nat) (s : State) : Out := .next (startOp opWtStream ring (wtStream ring) s)

/-! ### TILE_SEND and what becomes of its messages (R238, R240) -/

/-- An op whose messages have moved on is settled. -/
def settleTiles (id : Nat) (s : State) : State := driveStream id (driveFetch id s)

/-- TILE_SEND: the next tile, in schedule order, of a fetch or a stream. -/
def execTileSend (op : Nat) (s : State) : Out :=
  .next (settleTiles op (match mget s.ops.tab op with
    | none => s
    | some o => match o.body with
      | .fetch f => fetchTile op o f s
      | .stream obj first n t => streamTile op o obj first n t s
      | _ => s))

/-- A tile one of whose messages was never acknowledged counts as not sent. -/
def loseTile (t : TileMsg) (s : State) : State :=
  match t.tile with
  | none => s
  | some i =>
    let f := fun (x : TileSt) => if x.lost.contains i then x else { x with lost := x.lost ++ [i] }
    modOp t.op (fun o => { o with body := match o.body with
      | .fetch x => .fetch { x with lays := lmod x.lays t.lay f }
      | .stream a b c x => .stream a b c (f x)
      | b => b }) s

/-- The deadline of a tile of an op: of its layer, or its own in a stream. -/
def tileDeadline (o : Op) (lay i : Nat) : Option Nat :=
  match o.body with
  | .fetch f => layerDeadline f.desc o.arrival lay
  | .stream _ _ _ _ => streamDeadline (eInline o.raw) o.arrival i
  | _ => none

/-- A message of a tile is acknowledged: the tile is late where the message left its port after the deadline (R239). Of a fetch,
ATN_TILES_LATE counts it then, and ATN_TILES_SENT once all its messages are acknowledged (R247). -/
def ackTile (t : TileMsg) (s : State) : State :=
  match t.tile, mget s.ops.tab t.op with
  | some i, some o =>
    let late := match tileDeadline o t.lay i with
      | some d => decide (d < t.left.getD (stamp s))
      | none => false
    let new := late && !(nth (tileSts o) t.lay {}).lateIdx.contains i
    let s := modTileSts t.op (fun l => lmod l t.lay fun x =>
      { x with ackAt := some (stamp s), lateIdx := if new then x.lateIdx ++ [i] else x.lateIdx }) s
    let whole := !(nth (tileSts o) t.lay {}).lost.contains i &&
      !(s.io.tiles.any fun x => x.2.op == t.op && x.2.lay == t.lay && x.2.tile == some i)
    match o.body with
    | .fetch _ => s.modAttn fun x =>
      { x with tilesSent := sat32 (x.tilesSent + b2n whole), tilesLate := sat32 (x.tilesLate + b2n new) }
    | _ => s
  | _, _ => s

/-- A TILE_WRITE is acknowledged, or given up: what waited for it goes on. -/
def tileResolved (tag : Nat) (ok : Bool) (s : State) : State :=
  match mget s.io.tiles tag with
  | none => s
  | some t =>
    let s := s.modIo fun x => { x with tiles := mdel x.tiles tag }
    settleTiles t.op (if ok then ackTile t s else loseTile t s)

/-- TILE_ACK_TIMEOUT (R238): resent on the next FABRIC port that is up, up to three times. -/
def execTileAckTimeout (tag : Nat) (s : State) : Out :=
  .next (match mget s.io.tiles tag with
    | none => s
    | some t =>
      if 3 ≤ t.resends then tileResolved tag false s
      else
        let n := t.resends + 1
        let s := s.modIo fun x => { x with tiles := mset x.tiles tag { t with resends := n } }
        let s := s.modAttn fun x => { x with tilesResent := sat32 (x.tilesResent + 1) }
        noteLast tag t.key <| sendVia (resendPort s t.dst 2 n)
          { typ := mtTileWrite, vc := 2, dst := t.dst, key := t.key, tag := tag, addr := t.addr, body := t.bytes } s)

end Sys2Proof.Machine
end

