-- ==== Sys2Proof/Machine/Drive.lean ====
section
/-! DEFINITION. Ops in progress: what drives each on when something it waits for has come, and giving one up (11 R360, R361;
12 R391). -/

namespace Sys2Proof.Machine

open Sys2Proof

/-! ### Going on -/

/-- An op goes on as far as it can. -/
def driveOp (id : Nat) (s : State) : State :=
  match mget s.ops.tab id with
  | none => s
  | some o => match o.body with
    | .append _ => driveAppend id s
    | .attn _ => failReads id s
    | .step _ _ _ _ _ => driveStep id s
    | .fetch _ => driveFetch id s
    | .stream _ _ _ _ => driveStream id s
    | .prefetch _ => runPrefetch id s
    | .migrate _ _ _ _ _ _ _ => runMigrate id s
    | .wtLoad _ _ _ _ _ => runLoad id s
    | .discard _ _ _ _ _ _ _ _ _ => driveDiscard id s
    | .publish _ => drivePublish id s
    | .lookup _ => driveLookup id s
    | .seqOpen _ | .seqFork _ _ _ => driveTables id s
    | _ => s

/-- Every op in progress goes on: those that waited for the write path, a move, an image or an acknowledgement. -/
def driveAll (s : State) : State := forEach (s.ops.tab.map (·.1)) driveOp s

/-! ### Giving an op up -/

/-- A ring number that names no ring pair: of an op whose entry has ended and whose erase goes on. -/
def noRing : Nat := 2 ^ 32

/-- Running units of an op are charged up to now, and all its units dropped (R342). -/
def abandonUnits (id : Nat) (s : State) : State :=
  let s := forEach (s.attn.units.filter fun u => u.2.op == id) (fun u s => match u.2.st with
    | .running c k since false => chargeUnit u.1 c k since u.2 s
    | _ => s) s
  let ps := nodup ((s.attn.units.filter fun u => u.2.op == id).map fun u => u.2.part)
  forEach ps freeSlots (dropUnits id s)

/-- The units of an op that are running. -/
def runningUnits (s : State) (id : Nat) : Nat :=
  count (fun (u : Nat × WUnit) => u.2.op == id && (match u.2.st with
    | .running _ _ _ _ => true
    | _ => false)) s.attn.units

/-- Tiles of a fetch or stream that were to be sent and have not been. -/
def unsentOf (total : Nat) (t : TileSt) : Nat := t.unsentNet + (total - t.next)

/-- Tiles of a fetch that have been sent and are not yet acknowledged. -/
def leftTiles (id : Nat) (f : FetchSt) (messages : AMap TileMsg) : Nat :=
  (nodup (messages.filterMap fun x => match x.2.tile with
    | some i => if x.2.op == id && !(nth f.lays x.2.lay {}).lost.contains i then some (x.2.lay, i) else none
    | none => none)).length

/-- An op in progress is given up with a status: what it holds is returned, what it has stored stays, and the answer is
what its counts are by then. -/
def abandonOp (status id : Nat) (s : State) : Ans × State :=
  match mget s.ops.tab id with
  | none => ({ status := status }, s)
  | some o =>
    let messages := s.io.tiles
    let s := (dropReads id (unstageAll id o s)).modIo fun x => { x with tiles := x.tiles.filter fun t => t.2.op != id }
    match o.body with
    | .seqClose h => ({ status := status }, modSeq h (fun q => { q with closing := false }) s)
    | .append a =>
      let (a, s) := cutAppend (opSrc o) a s
      ({ status := status, a := a.reported }, s)
    | .attn a => ({ status := status, rung := o.maxRung, b := a.ents.length }, abandonUnits id s)
    | .step recs results flags attn ans =>
      let (recs, s) := cutRecords status (fun i j => mgetD o.bufs (stepBuf i j) []) 0 recs (abandonUnits id s)
      let open_ := if ans.isSome then 0 else (attn.map fun a => a.ents.length).getD 0
      let x := stepAns recs o.maxRung (ans.getD [0, 0, open_, 0, 0])
      ({ x with status := status }, writeStepResults o recs results flags s)
    | .fetch f =>
      let x := fetchAns o.maxRung f.lays
      ({ x with status := status, c := sum (f.lays.map (unsentOf (fTiles f.desc))) },
        dropImages (.op id) (s.modAttn fun x => { x with tilesSent := sat32 (x.tilesSent + leftTiles id f messages) }))
    | .prefetch f =>
      let n := f.todo.length + f.moves.length
      let moving := fun (x : PeerImg) => s.tier.moves.any fun m => m.2.op == some id && m.2.at_ == .rec_ x.rec_
      ({ status := status, a := f.moved, b := f.already, c := f.notMoved + n },
        s.modCasc fun c => { c with
          images := c.images.filter fun x => x.who != .op id || moving x, reads := c.reads.filter fun x => x.2.who != .op id })
    | .stream _ _ n t => ({ status := status, a := t.sentNet, b := t.lateNet, c := unsentOf n t }, s)
    | .wtLoad obj _ _ _ pend =>
      let n := ((mget s.wt.objs obj).map fun w => w.tiles.length).getD 0
      ({ status := status, a := obj, b := n }, forEach pend dropImage s)
    | .publish p => ({ status := status }, letGo p (s.modPfx fun p => { p with pending := p.pending.filter fun k => k.op != id }))
    | .seqFork h runs _ => ({ status := status }, forEach runs (freeRun (((seqOf s h).map (·.part)).getD 0)) s)
    | .lookup (some x) => ({ status := status }, closeLookup o x (dropBareTables (parseLookup (eInline o.raw)).seq s))
    | .lookup none => match s.casc.lookup with
      | some l =>
        if l.op == id then
          let layers := (modelOf (mdOf s (parseLookup (eInline o.raw)).slot)).layers
          ({ status := status }, s.modCasc fun c =>
            { c with lookup := none, stirrup := none, abandoned := c.abandoned ++ [(l.sid, layers)] })
        else ({ status := status }, s)
      | none => ({ status := status }, s)
    | .migrate todo mv al nm _ _ ms => ({ status := status, a := mv, b := al, c := nm + todo.length + ms.length }, s)
    | .discard _ kind obj false _ _ _ _ _ =>
      ({ status := status }, if kind == 0 then modSeq (obj % 2 ^ 24) (fun q => { q with closing := false }) s else s)
    | .extRevoke e => ({ status := status }, pumpHome (modRev e (fun v => { v with recalling := true, op := none }) s))
    | _ => ({ status := status }, s)

/-- A DISCARD_SECURE whose erase has begun goes on with it although its entry has ended. -/
def erasing (o : Op) : Bool :=
  match o.body with
  | .discard true _ _ true _ _ _ _ _ => true
  | _ => false

/-- An op whose entry has ended leaves the ops in progress. -/
def leaveOp (id : Nat) (o : Op) (s : State) : State :=
  if erasing o then modOp id (fun o => { o with ring := noRing }) s else delOp id s

/-- The op that serves an entry. -/
def opFor (s : State) (ring idx : Nat) : Option (Nat × Op) := s.ops.tab.find? fun o => o.2.ring == ring && o.2.idx == idx

/-- End an accepted entry, started or not, with a status (R360 step 2). -/
def resetEntry (status ring idx : Nat) (s : State) : State :=
  match opFor s ring idx with
  | some (id, o) =>
    let (a, s) := abandonOp status id s
    endEntry ring idx a 0 (leaveOp id o s)
  | none => endEntry ring idx { status := status } 0 s

/-- Reads of the operands of a ring's entries are forgotten. -/
def dropOperandReads (ring : Nat) (s : State) : State :=
  s.modIo fun x => { x with reads := x.reads.filter fun r => match r.2.for_ with
    | .operands q _ => q != ring
    | _ => true }

/-- End every accepted entry of a ring, in order. -/
def resetRing (status ring : Nat) (s : State) : State :=
  forEach ((ringOf s ring).entries.map (·.idx)) (resetEntry status ring) (dropOperandReads ring s)

end Sys2Proof.Machine
end

