-- ==== Sys2Proof/Machine/Reset.lean ====
section
/-! DEFINITION. Partition reset, the end of a scrub, spare cores and Hamper rows (11 R359 to R362; 12 R386; 13 R397, R399, R402,
R405). -/

namespace Sys2Proof.Machine

open Sys2Proof

/-! ### Cluster words (Table 13.12) -/

def clWord (c : Nat) : Nat := 0x020 + c

/-- Logical core served by slot 64 or 65, 0x7F for none, and whether the slot is retired. -/
def subOf (w slot : Nat) : Nat := if slot == 64 then bits w 0 7 else bits w 7 7
def slotRetired (w slot : Nat) : Bool := bit w (if slot == 64 then 14 else 15)
def putSub (w slot n : Nat) : Nat := if slot == 64 then putBits w 0 7 n else putBits w 7 7 n
def putRetired (w slot : Nat) : Nat := setBit w (if slot == 64 then 14 else 15)

/-- The lower spare slot that is neither in use nor retired. -/
def freeSpareSlot (w : Nat) : Option Nat := [64, 65].find? fun n => subOf w n == 0x7F && !slotRetired w n

/-- The logical core a physical slot serves, none where it serves none: a retired core, or a spare not in use. -/
def servedBy (w slot : Nat) : Option Nat :=
  if slot < 64 then (if subOf w 64 == slot || subOf w 65 == slot then none else some slot)
  else if subOf w slot == 0x7F then none else some (subOf w slot)

/-- The partition that declares a cluster. -/
def partOfDecl (s : State) (c : Nat) : Option Nat :=
  (List.range (parts s).length).find? fun p => (nth (parts s) p { clusters := [], spaceOnly := false }).clusters.contains c

/-! ### Retiring cores and Hamper rows (R399, R402) -/

/-- A cluster is withdrawn: it leaves the set of its space-only context, and takes no further work. `w` is its word. -/
def withdraw (c w : Nat) (s : State) : State :=
  let p := partOfDecl s c
  let s := spareSet (clWord c) (setBit w 16) s
  let s := emit 1 c evWithdrawn [p.getD 0] s
  s.modSch fun x => { x with ctxs := x.ctxs.map fun k =>
    if (some k.2.part == p) && bit k.2.clusters c then (k.1, { k.2 with clusters := k.2.clusters - 2 ^ c }) else k }

/-- Retire the core at a physical slot: its logical number passes to slot 64, then 65; with no spare left the cluster is
withdrawn. -/
def retireCore (c slot : Nat) (s : State) : State :=
  let w := spareNat s (clWord c)
  if bit w 16 || decide (65 < slot) then s
  else
    let w1 := if 64 ≤ slot then putRetired (putSub w slot 0x7F) slot else w
    match servedBy w slot with
    | none => if 64 ≤ slot then spareSet (clWord c) w1 s else s
    | some n => match freeSpareSlot w1 with
      | some k => emit 1 c evSpareCore [n, slot, k] (spareSet (clWord c) (putSub w1 k n) s)
      | none => withdraw c w1 s

/-- Spare Hamper rows of a slice already used. -/
def hamperUsed (s : State) (c : Nat) : Nat := count (fun x => x.1 == c) s.spare.hamper

/-- Replace a Hamper row by the lowest free spare row of its slice; false when none is left. -/
def replaceRow (c row : Nat) (s : State) : Bool × State :=
  let n := hamperUsed s c
  if 256 ≤ n then (false, s)
  else
    let s := spareSet (clWord c) (putBits (spareNat s (clWord c)) 17 9 (n + 1)) s
    (true, emit 1 c evHamper [row, n] (s.modSpare fun x => { x with hamper := x.hamper ++ [(c, row)] }))

/-- Replace the rows a reset has to replace; a slice with none left withdraws its cluster. -/
def replaceRows (p : Nat) (s : State) : State :=
  let due := s.spare.hamperDue.filter fun x => partOfDecl s x.1 == some p
  let s := s.modSpare fun x => { x with hamperDue := x.hamperDue.filter fun y => !due.contains y }
  forEach due (fun x s =>
    if bit (spareNat s (clWord x.1)) 16 then s
    else
      let (ok, s) := replaceRow x.1 x.2 s
      if ok then s else withdraw x.1 (spareNat s (clWord x.1)) s) s

/-- A cluster's generation rises (R405). -/
def bumpCluster (c : Nat) (s : State) : State :=
  let g := nth s.spare.genCl c 0 + 1
  emit 1 c evGeneration [g.toNat] (s.modSpare fun x => { x with genCl := lput x.genCl c g })

/-! ### Steps 1 and 2 (Table 11.5) -/

/-- Ring pairs bound to a partition's contexts. -/
def ringsOf (s : State) (p : Nat) : List Nat :=
  (s.rng.rings.filter fun r => (ctxOf s r.2.context).part == p && mhas s.sch.ctxs r.2.context).map (·.1)

/-- Encodes of a partition are abandoned: the runs freed, the pages keep their places (Table 8.8). -/
def abandonEncodes (p : Nat) (s : State) : State :=
  let s := forEach (s.cdc.encQ.filter fun e => e.part == p) (fun e s => freeRun? p e.run s) s
  s.modCdc fun c => { c with encQ := c.encQ.map fun e => if e.part == p then { e with run := none } else e }

/-- Moves of a partition are abandoned (R283). -/
def abandonMoves (p : Nat) (s : State) : State :=
  forEach ((s.tier.moves.filter fun m => m.2.part == p).map (·.1)) abandonMove s

/-- A partition reset begins (R359): none while one is in progress. -/
def resetPartition (p cause cluster : Nat) (s : State) : State :=
  if (partOf s p).reset != .none then s
  else
    let s := emit 9 p evPartReset [cause, cluster] s
    let s := modPart p (fun x =>
      { x with
        reset := .clearing, switch := .none, outgoing := match x.slice with
          | some t => some t
          | none => x.outgoing
        slice := none, incoming := none, expired := false, scrubbing := true }) s
    let s := forEach (ringsOf s p) (resetRing stPartReset) s
    let s := settleClose (abandonMoves p (abandonEncodes p s))
    modPart p (fun x => { x with slots := List.replicate 4 none }) s

/-- A fault in a cluster resets the partition it serves. -/
def clusterFault (cluster cause : Nat) (s : State) : State :=
  match partOfCluster s cluster with
  | none => s
  | some p => resetPartition p cause cluster s

/-- SRAM_UNCORRECTABLE (R359, R399, R402): the second error of a core within one epoch has it retired, and a Hamper row is
replaced, in the reset. -/
def execSramUncorrectable (cluster : Nat) (site : SramSite) (s : State) : Out :=
  .next (working (fun s => if (partOfCluster s cluster).isNone then s
    else
      let s := match site with
        | .core slot => s.modSpare fun x =>
          if x.coreErr.contains (cluster, slot) then
            { x with retireDue := if x.retireDue.contains (cluster, slot) then x.retireDue else x.retireDue ++ [(cluster, slot)] }
          else { x with coreErr := x.coreErr ++ [(cluster, slot)] }
        | .hamper row => s.modSpare fun x =>
          { x with hamperDue := if x.hamperDue.contains (cluster, row) then x.hamperDue else x.hamperDue ++ [(cluster, row)] }
      clusterFault cluster 1 s) s)

/-- MICROCODE_TRAP, CHEAP_POINT_TIMEOUT and FABRIC_PORT_PROTOCOL_ERROR (R359). -/
def execMicrocodeTrap (cluster : Nat) (s : State) : Out := .next (working (clusterFault cluster 2) s)
def execFabricPortProtocolError (cluster : Nat) (s : State) : Out := .next (working (clusterFault cluster 4) s)

/-- CHEAP_POINT_TIMEOUT (R359): a unit has held a core of the cluster for 2^27 CCLK. -/
def execCheapPointTimeout (cluster : Nat) (s : State) : Out := .next (working (clusterFault cluster 3) s)

/-- The operator's reset of a partition. -/
def resetByOperator (part : Nat) (s : State) : State := if partExists s part then resetPartition part 5 0 s else s

/-- PARTITION_RESET_WRITE (R359): the operator's. -/
def execPartitionResetWrite (path : Path) (part : Nat) (s : State) : Out :=
  .next (regAccess path 0xA0100 (asOperator path (resetByOperator part)) s)

/-! ### Steps 3 and 4 -/

/-- Spill pages of a partition become DROPPED, a ticket each (R360 step 4). -/
def dropSpills (p : Nat) (s : State) : State :=
  forEach ((allPages s).filter fun x => x.2.part == p && x.2.tier == .hamper) (fun x s => dropPageAt x.1 4 s) s

/-- The scrub of a reset ends. -/
def resetScrubbed (p : Nat) (s : State) : State :=
  let slots := match (partOf s p).outgoing with
    | some t => slotsOf s t false
    | none => []
  let s := dropSpills p (replaceRows p (finishScrub p slots s))
  modPart p (fun x => { x with reset := .testing, outgoing := none }) s

/-! ### Steps 5 and 6 -/

/-- PARTITION_RESET_DONE (R360, R399, R405): cores that failed the self-test or are due are retired, the generations of the
partition's clusters rise, and issue resumes. -/
def execPartitionResetDone (part : Nat) (bad : List (Nat × Nat)) (s : State) : Out :=
  .next (working (fun s => if (partOf s part).reset != .testing then s
    else
      let cl := clustersOf s part
      let due := s.spare.retireDue.filter fun x => cl.contains x.1
      let all := nodup (due ++ bad.filter fun x => cl.contains x.1)
      let s := s.modSpare fun x =>
        { x with
          retireDue := x.retireDue.filter fun y => !due.contains y
          coreErr := x.coreErr.filter fun y => !all.contains y }
      let s := replaceRows part (forEach all (fun x s => retireCore x.1 x.2 s) s)
      let s := forEach cl bumpCluster s
      modPart part (fun x => { x with reset := .none, resets := sat32 (x.resets + 1) }) s) s)

end Sys2Proof.Machine
end

