-- ==== Sys2Proof/Machine/Spdm.lean ====
section
/-! DEFINITION. The SPDM responder, its sessions and the attestation report (12 R370 to R372, R381, R382). SPDM's own encodings
are DMTF's (log 9). -/

namespace Sys2Proof.Machine

open Sys2Proof

/-! ### Taking a message and answering (R113, R381) -/

/-- The key index of a session's secured messages. -/
def mgmtKey (session : Nat) : Nat := 0x80000000 + session

/-- A cleartext message of a node whose session stands (R113). -/
def spdmLate (s : State) (h : Hdr) : Bool := h.key == 0 && s.sec.sessions.any fun x => x.2.node == h.src && x.2.finished

/-- Take an SPDM message: in cleartext, or under a live key; anything else is counted and discarded. Once its node has a session, a
cleartext request can have no response (R113), and it has no effect (log 9). -/
def takeSpdm (h : Hdr) (f : State → State) (s : State) : State :=
  let s := s.modLink fun l =>
    { l with inbox := l.inbox.eraseP fun m => m.port == h.port && m.src == h.src && m.typ == mtSpdm && m.key == h.key }
  let live := match mget s.sec.keys h.key with
    | some k => !k.dying
    | none => false
  if deaf s || spdmLate s h then s else if h.key == 0 || live then f s else countNokey h.port s

/-- Answer a request: the code, what the manual gives of the response, and the rest of it with its signature, free (log 9).
Both join the transcript, which GET_VERSION starts. -/
def answerSpdm (h : Hdr) (code : Nat) (body : List Byte) (rsp : Nat) (content : List Byte) (s : State) : State :=
  let old := if code == 0x84 then [] else mgetD s.sec.spdm h.src []
  let req := old ++ leBytes 1 0x13 ++ leBytes 1 code ++ body
  let head := leBytes 1 0x13 ++ leBytes 1 rsp ++ content
  let out := head ++ Config.spdmBody rsp (req ++ head) s.free
  let s := (s.draw).modSec fun x => { x with spdm := mset x.spdm h.src (req ++ out) }
  reply h mtSpdm 3 0 0 out s

/-- ERROR with a code of DSP0274: Busy 0x03, UnexpectedRequest 0x04, UnsupportedRequest 0x07. -/
def spdmError (h : Hdr) (code : Nat) (body : List Byte) (err : Nat) (s : State) : State :=
  answerSpdm h code body 0x7F (leBytes 1 err) s

/-! ### The identity chain (R371, R372) -/

/-- ASCII characters as bytes. -/
def ascii (t : List Char) : List Byte := t.map fun c => BitVec.ofNat 8 c.toNat

/-- The image in service. -/
def image (s : State) : Image := s.img.cur.getD {}

/-- HKDF output from which the device identity key pair is formed. -/
def identityOkm : List Byte := hkdfExpand (hkdfExtract (ascii ['F', 'V', '7', '-', 'D', 'I', 'K']) Config.uds) [] 80

/-- Digests of the microcode and Skoma images. -/
def ucodeDigest (s : State) : List Byte := sha512 (image s).ucode
def skomaDigest (s : State) : List Byte := sha512 (image s).skoma

/-- HKDF output from which the alias key pair is formed: of the UDS, with the three digests as info. -/
def aliasOkm (s : State) : List Byte :=
  hkdfExpand (hkdfExtract [] Config.uds) (ucodeDigest s ++ skomaDigest s ++ (image s).digest) 80

/-- The identity chain. -/
def chainOf (s : State) : List Byte := Config.certChain identityOkm (aliasOkm s) (epochNo s)

/-! ### The attestation report (R382, Table 12.4) -/

/-- Bound tenant of a slot, 0xFFFF for none. -/
def boundTenant (s : State) (slot : Nat) : Nat :=
  match mget s.sec.slots slot with
  | some b => if b.bound then b.tenant else 0xFFFF
  | none => 0xFFFF

/-- The weight manifest: sealed objects in ascending handle. -/
def manifest (s : State) : List (Nat × WtObj) := s.wt.objs.filter fun w => w.2.sealed

/-- Content of a measurement block. -/
def measurement (s : State) (i : Nat) : List Byte :=
  match i with
  | 1 => sha512 (chainOf s)
  | 2 => (image s).digest ++ leBytes 4 (image s).rollback ++ leBytes 4 (image s).buildId
  | 3 => ucodeDigest s
  | 4 => skomaDigest s
  | 5 => s.seqs.md.flatMap fun m => leBytes 1 m.1 ++ leBytes 2 (boundTenant s m.1) ++ sha512 m.2
  | 6 => leBytes 4 (manifest s).length ++ sha512 ((manifest s).flatMap fun w => leBytes 4 w.1 ++ w.2.digest)
  | 7 => leBytes 4 (s.tly.pair 0x004).toNat
  | 8 => ascii ['o', 'p', 'e', 'r', 'a', 't', 'o', 'r', '-', 'o', 'p', 'e', 'n']
  | 9 => leBytes 4 (epochNo s) ++ leBytes 1 0x07 ++ leBytes 1 0xC0
  | _ => []

/-- Indices a GET_MEASUREMENTS asks for: none (the count), all, or one. -/
def measured (i : Nat) : List Nat := if i == 0 then [] else if i == 0xFF then (List.range 9).map (· + 1) else [i].filter (· ≤ 9)

/-! ### The requests (Table 12.3) -/

/-- GET_VERSION: 1.3 alone. -/
def execGetVersion (h : Hdr) (body : List Byte) (s : State) : Out :=
  .next (takeSpdm h (answerSpdm h 0x84 body 0x04 (leBytes 2 0x1300)) s)

/-- GET_CAPABILITIES: CERT, CHAL, MEAS with signature, ENCRYPT, MAC and KEY_EX; MUT_AUTH clear. -/
def execGetCapabilities (h : Hdr) (body : List Byte) (s : State) : Out :=
  .next (takeSpdm h (answerSpdm h 0xE1 body 0x61 (leBytes 4 (pack [(1, 1), (2, 1), (4, 1), (6, 1), (7, 1), (9, 1)]))) s)

/-- NEGOTIATE_ALGORITHMS: measurement specification and hash, ECDSA P-521, SHA-512, secp521r1, AES-256-GCM. -/
def execNegotiateAlgorithms (h : Hdr) (body : List Byte) (s : State) : Out :=
  .next (takeSpdm h (answerSpdm h 0xE3 body 0x63
    (leBytes 1 1 ++ leBytes 4 0x08 ++ leBytes 4 0x100 ++ leBytes 4 0x04 ++ leBytes 2 0x20 ++ leBytes 2 0x02)) s)

/-- GET_DIGESTS: slot 0. -/
def execGetDigests (h : Hdr) (body : List Byte) (s : State) : Out :=
  .next (takeSpdm h (fun s => answerSpdm h 0x81 body 0x01 (leBytes 1 1 ++ sha512 (chainOf s)) s) s)

/-- GET_CERTIFICATE: the portion of the chain that the request's offset and length name. -/
def execGetCertificate (h : Hdr) (body : List Byte) (s : State) : Out :=
  .next (takeSpdm h (fun s =>
    let c := chainOf s
    let part := (c.drop (field body 2 2)).take (field body 4 2)
    answerSpdm h 0x82 body 0x02 (leBytes 2 part.length ++ leBytes 2 (c.length - field body 2 2 - part.length) ++ part) s) s)

/-- CHALLENGE: the digest of the chain, signed by the alias key. -/
def execChallenge (h : Hdr) (body : List Byte) (s : State) : Out :=
  .next (takeSpdm h (fun s => answerSpdm h 0x83 body 0x03 (sha512 (chainOf s)) s) s)

/-- GET_MEASUREMENTS: the blocks asked for, signed where asked. -/
def execGetMeasurements (h : Hdr) (body : List Byte) (s : State) : Out :=
  .next (takeSpdm h (fun s =>
    let l := measured (field body 1 1)
    answerSpdm h 0xE0 body 0x60 (leBytes 1 (if l.isEmpty then 9 else l.length) ++ l.flatMap fun i => Config.dmtfBlock i (measurement s i)) s) s)

/-- KEY_EXCHANGE: a session, or Busy beyond 64. -/
def execKeyExchange (h : Hdr) (body : List Byte) (s : State) : Out :=
  .next (takeSpdm h (fun s =>
    if 64 ≤ s.sec.sessions.length then spdmError h 0xE4 body 0x03 s
    else
      let id := (lowestFree s.sec.sessions (s.sec.nextSession % 2 ^ 16) 65).getD 0
      let s := s.draw.modSec fun x =>
        { x with
          nextSession := id + 1
          sessions := mset x.sessions id { node := h.src, ems := Config.sessionSecret s.free } }
      answerSpdm h 0xE4 body 0x64 (leBytes 2 id) s) s)

/-- The session a node has begun and not finished. -/
def openingOf (s : State) (node : Node) : Option (Nat × Session) := s.sec.sessions.find? fun x => x.2.node == node && !x.2.finished

/-- FINISH: the session's management key is installed. -/
def execFinish (h : Hdr) (body : List Byte) (s : State) : Out :=
  .next (takeSpdm h (fun s =>
    match openingOf s h.src with
    | none => spdmError h 0xE5 body 0x04 s
    | some (id, x) =>
      let s := answerSpdm h 0xE5 body 0x65 [] s
      let k : JobKey := { tenant := 0, node := h.src, bytes := Config.sessionKey s.free, mgmt := true }
      s.draw.modSec fun y =>
        { y with
          keys := mset y.keys (mgmtKey id) k
          sessions := mset y.sessions id { x with finished := true, key := mgmtKey id } }) s)

/-- END_SESSION: the session keys go; job keys derived in it stay. -/
def execEndSession (h : Hdr) (body : List Byte) (s : State) : Out :=
  .next (takeSpdm h (fun s =>
    match s.sec.sessions.find? fun x => x.2.finished && x.2.key == h.key with
    | none => spdmError h 0xEC body 0x04 s
    | some (id, x) =>
      (answerSpdm h 0xEC body 0x6C [] s).modSec fun y =>
        { y with sessions := mdel y.sessions id, keys := mdel y.keys x.key, km := y.km.filter fun r => r.session != id }) s)

/-- Any other request. -/
def execSpdmUnsupported (h : Hdr) (code : Nat) (body : List Byte) (s : State) : Out :=
  .next (takeSpdm h (spdmError h code body 0x07) s)

/-- SPDM (R381): a message is dispatched by its request code. -/
def execSpdm (h : Hdr) (code : Nat) (body : List Byte) (s : State) : Out :=
  match code with
  | 0x84 => execGetVersion h body s
  | 0xE1 => execGetCapabilities h body s
  | 0xE3 => execNegotiateAlgorithms h body s
  | 0x81 => execGetDigests h body s
  | 0x82 => execGetCertificate h body s
  | 0x83 => execChallenge h body s
  | 0xE0 => execGetMeasurements h body s
  | 0xE4 => execKeyExchange h body s
  | 0xE5 => execFinish h body s
  | 0xEC => execEndSession h body s
  | _ => execSpdmUnsupported h code body s

end Sys2Proof.Machine
end

