-- ==== Sys2Proof/Machine/Tenants.lean ====
section
/-! DEFINITION. Key-management requests, tenants, job keys, removal and the end of a scrub (12 R366 to R392). -/

namespace Sys2Proof.Machine

open Sys2Proof

/-! ### Requests and responses (R383, R384) -/

/-- Send the response to a key-management request: its code with bit 7 set, the status, km_seq, and the counts, or the subcode
of an INTERNAL (log 9: the layout is the model's). -/
def answerKm (session code seq : Nat) (a : Ans) (counts : List Byte) (s : State) : State :=
  match mget s.sec.sessions session with
  | none => s
  | some x =>
    let tail := if a.status == stInternal then leBytes 4 a.a else counts
    send { typ := mtSpdm, vc := 3, dst := x.node, key := x.key
           body := leBytes 1 (code + 0x80) ++ leBytes 1 a.status ++ leBytes 2 tail.length ++ leBytes 4 seq ++ leBytes 4 session ++
             leBytes 4 0 ++ tail } s

/-- The bytes of a request (R383): its header's fields, and what follows them. -/
def kmMsg (code flags len kmSeq named : Nat) (rest : List Byte) : List Byte :=
  leBytes 1 code ++ leBytes 1 flags ++ leBytes 2 len ++ leBytes 4 kmSeq ++ leBytes 4 named ++ rest

/-- A request whose length is that of its header, body and signature (R383). -/
def kmWhole (msg : List Byte) : Bool := msg.length == 148 + field msg 2 2

/-- What the signature is over: the header and the body. -/
def kmSigned (msg : List Byte) : List Byte := msg.take (16 + field msg 2 2)

/-- One of the KEYS section's keys verifies the signature. -/
def kmSigOk (keys : List (List Byte)) (msg : List Byte) : Bool := keys.any fun k => ecdsaVerify k (kmSigned msg) (msg.drop (16 + field msg 2 2))

/-- A request of a finished session whose km_seq, session ID and signature hold is accepted; any other is discarded with an event
(R383). -/
def takeKm (session : Nat) (msg : List Byte) (s : State) : State :=
  let code := field msg 0 1
  let discard := emit 0 0 evKmDiscard [session, code] s
  let keys := (s.img.cur.map (·.kmKeys)).getD []
  match mget s.sec.sessions session with
    | none => discard
    | some x =>
      if !x.finished || !kmWhole msg || field msg 4 4 != x.kmSeq || field msg 8 4 != session || !(decide (1 ≤ code) && decide (code ≤ 5)) ||
          !kmSigOk keys msg then discard
      else s.modSec fun y =>
        { y with
          km := y.km ++ [{ session := session, code := code, flags := field msg 1 1, seq := x.kmSeq, body := (kmSigned msg).drop 16 }]
          sessions := mset y.sessions session { x with kmSeq := x.kmSeq + 1 } }

/-- KM_REQUEST_RECEIVE (R383): the request's 12 bytes of code, flags, length, number and session, and the bytes that follow. -/
def execKmRequestReceive (session code flags len kmSeq named : Nat) (rest : List Byte) (s : State) : Out :=
  .next (takeKm session (kmMsg code flags len kmSeq named rest) s)

/-- Carry out the oldest accepted request when it is of this session and code. -/
def kmRun (session code : Nat) (f : KmReq → State → State) (s : State) : State :=
  match s.sec.km with
  | [] => s
  | r :: rest =>
    if r.session == session && r.code == code then f r (s.modSec fun x => { x with km := rest }) else s

/-- A request that completes at once with a status. -/
def kmEnd (r : KmReq) (a : Ans) (s : State) : State := answerKm r.session r.code r.seq a [] s

/-! ### Tenants and keys (R366, R377 to R379, R385) -/

def tenantSt (s : State) (t : Nat) : Tenant := mgetD s.sec.tenants t {}

/-- Job keys installed, live or dying. -/
def jobKeys (s : State) : Nat := count (fun (k : Nat × JobKey) => !k.2.mgmt) s.sec.keys

/-- A key index a request may install. -/
def keyFree (s : State) (k : Nat) : Bool := decide (1 ≤ k) && decide (k ≤ 0x7FFFFFFF) && !mhas s.sec.keys k

/-- KM_TENANT_CREATE (R379). -/
def execKmTenantCreate (session : Nat) (s : State) : Out :=
  .next (kmRun session 0x01 (fun r s =>
    let t := field r.body 0 2
    if (tenantSt s t).created || (tenantSt s t).removing || decide (0xFF < t) then kmEnd r (internal 0x60) s
    else
      let s := s.draw.modSec fun x => { x with tenants := mset x.tenants t { created := true, flashKey := some (Config.drbg s.free) } }
      kmEnd r { status := stOk } s) s)

/-- The job key of R377. -/
def jobKey (ems : List Byte) (idx tenant node : Nat) : List Byte :=
  hkdfExpand (hkdfExtract (ascii ['F', 'V', '7', '-', 'J', 'O', 'B'] ++ leBytes 4 idx) ems) (leBytes 2 tenant ++ leBytes 2 node) 32

/-- KM_JOB_OPEN (R377). -/
def execKmJobOpen (session : Nat) (s : State) : Out :=
  .next (kmRun session 0x03 (fun r s =>
    let k := field r.body 0 4
    let t := field r.body 4 2
    let node := field r.body 6 2
    let x := mgetD s.sec.sessions session { node := 0 }
    if !(tenantSt s t).created || (tenantSt s t).removing || !keyFree s k || node != x.node then kmEnd r (internal 0x62) s
    else if 16384 ≤ jobKeys s then kmEnd r { status := stNoSpace } s
    else kmEnd r { status := stOk } (s.modSec fun y =>
      { y with keys := mset y.keys k { tenant := t, node := node, bytes := jobKey x.ems k t node } })) s)

/-- KM_PEER_OPEN (R385). -/
def execKmPeerOpen (session : Nat) (s : State) : Out :=
  .next (kmRun session 0x05 (fun r s =>
    let k := field r.body 0 4
    let node := field r.body 4 2
    let member := decide (1 < cascSize s) &&
      (List.range (cascSize s)).any fun q => q != cascPos s && cascNode s q == node
    if !keyFree s k || !member then kmEnd r (internal 0x64) s
    else if 16384 ≤ jobKeys s then kmEnd r { status := stNoSpace } s
    else kmEnd r { status := stOk } (s.modSec fun y =>
      { y with keys := mset y.keys k { tenant := 0, node := node, bytes := (r.body.drop 8).take 32, pair := true } })) s)

/-! ### Steps 1 and 2 of R391 -/

/-- Keys become dying. -/
def killKeys (ks : List Nat) (s : State) : State :=
  s.modSec fun x => { x with keys := ks.foldl (fun m k => mmod m k fun (y : JobKey) => { y with dying := true }) x.keys }

/-- Enable is cleared on ring pairs; their storage returns to the quota. -/
def stopRing (n : Nat) (s : State) : State :=
  let r := ringOf s n
  uncharge (ctxOf s r.context).part 1 r.charged (modRing n (fun r => { r with enable := false, drain := false, charged := 0 }) s)

/-- Ring pairs of a removal: bound to the tenant's contexts, or under the key that closes. -/
def removalRings (s : State) (r : Removal) : List Nat :=
  (s.rng.rings.filter fun x => match r.tenant with
    | some t => (ctxOf s x.2.context).tenant == t && mhas s.sch.ctxs x.2.context
    | none => r.keys.contains x.2.key).map (·.1)

/-- An entry is aborted with KEY_GONE: counted, and its completion not sent. -/
def abortOne (ring idx : Nat) (s : State) : State :=
  match opFor s ring idx with
  | some (id, o) => abortEntry ring idx (leaveOp id o (abandonOp stKeyGone id s).2)
  | none => abortEntry ring idx s

/-- Partitions a tenant has contexts in. -/
def tenantParts (s : State) (t : Nat) : List Nat :=
  nodup ((s.sch.ctxs.filter fun c => c.2.tenant == t).map fun c => c.2.part)

/-- A slice switch or a scrub runs in a partition of the tenant: steps 2 to 5 wait for its end (Table 12.9). -/
def removalWaits (s : State) (r : Removal) : Bool :=
  match r.tenant with
  | none => false
  | some t => (tenantParts s t).any fun p =>
      let x := partOf s p
      x.reset == .none && (x.scrubbing || x.switch == .stopping || x.switch == .saving || x.switch == .scrubbing)

/-- Partitions in which a tenant holds cores: its slice, a unit of it on a core, or the clusters of its space-only context. -/
def heldParts (s : State) (t : Nat) : List Nat :=
  (tenantParts s t).filter fun p =>
    (partOf s p).slice == some t || (runningIn s p).any (fun u => tenantOf s u.2.ctx == t) ||
      (spaceOnly s p && s.sch.ctxs.any fun c => c.2.tenant == t && c.2.part == p && c.2.enable)

/-- The tenant's slices end, and no switch brings it back. -/
def dropTenantSlice (t p : Nat) (s : State) : State :=
  modPart p (fun x =>
    if x.reset != .none then x
    else if x.slice == some t then { x with slice := none, expired := false }
    else if x.switch == .restoring && x.incoming == some t then { x with switch := .none, incoming := none, outgoing := none }
    else x) s

/-- Update the removal of a session and sequence number. -/
def putRemoval (r : Removal) (s : State) : State :=
  s.modSec fun x =>
    { x with removals := x.removals.map fun y => if y.session == r.session && y.seq == r.seq then r else y }

/-- Step 2: accepted entries and ops in progress end with KEY_GONE, completions not yet sent are dropped and running units are
abandoned. The DMA descriptors still
queued then are counted as a free value: the manual does not say how many there are (log 5). -/
def removalStep2 (r : Removal) (s : State) : State :=
  let held := (r.tenant.map (heldParts s)).getD []
  let rings := removalRings s r
  let units := count (fun (u : Nat × WUnit) => (match mget s.ops.tab u.2.op with
      | some o => rings.contains o.ring
      | none => false) && (match u.2.st with
      | .running _ _ _ _ => true
      | _ => false)) s.attn.units
  let n := sum (rings.map fun k => (ringOf s k).entries.length)
  let s := forEach rings (fun k s =>
    modRing k (fun r => { r with ready := [] })
      (forEach ((ringOf s k).entries.map (·.idx)) (abortOne k) (dropOperandReads k s))) s
  let (d, s) := fresh 16 s
  let s := match r.tenant with
    | some t => forEach (tenantParts s t) (dropTenantSlice t) s
    | none => s
  let s := s.modSec fun x => { x with aborts := sat32 (x.aborts + n + d.toNat) }
  settleClose (putRemoval { r with stage := 1, aborted := n + d.toNat, units := units, scrubs := held } s)

/-- Begin a removal, or the close of a key. -/
def beginRemoval (r : Removal) (s : State) : State :=
  let s := killKeys r.keys (s.modSec fun x => { x with removals := x.removals ++ [r] })
  let s := forEach (removalRings s r) stopRing s
  if removalWaits s r then s else removalStep2 r s

/-- KM_TENANT_REMOVE (R391). -/
def execKmTenantRemove (session : Nat) (s : State) : Out :=
  .next (kmRun session 0x02 (fun r s =>
    let t := field r.body 0 2
    if !(tenantSt s t).created || (tenantSt s t).removing then kmEnd r (internal 0x61) s
    else
      let ks := (s.sec.keys.filter fun k => k.2.tenant == t && !k.2.mgmt && !k.2.dying).map (·.1)
      let s := s.modSec fun x => { x with tenants := mmod x.tenants t fun y => { y with removing := true } }
      beginRemoval { tenant := some t, erase := bit r.flags 0, session := session, seq := r.seq, code := r.code, keys := ks } s) s)

/-- KM_JOB_CLOSE (R384): steps 1 to 4 of R391 for one key. -/
def execKmJobClose (session : Nat) (s : State) : Out :=
  .next (kmRun session 0x04 (fun r s =>
    let k := field r.body 0 4
    if k == 0 || decide (0x7FFFFFFF < k) || !keyLive s k then kmEnd r (internal 0x63) s
    else beginRemoval { tenant := none, erase := false, session := session, seq := r.seq, code := r.code, keys := [k] } s) s)

/-! ### Steps 3 to 7 -/

/-- What ERASE has destroyed: sequences, blocks, weight objects, extents. -/
structure Erased where
  seqs : Nat := 0
  blocks : Nat := 0
  objs : Nat := 0
  exts : Nat := 0

/-- An extent of a tenant is revoked with zero grace; one still being zeroed is freed. -/
def eraseExtent (e : Nat) (x : Extent) (s : State) : State :=
  match x.state with
  | .zeroing => freeExtent e x s
  | .active => pumpHome (revokePoint e none true true s)
  | .revoking => graceEnd e s
  | .free => s

/-- Step 6: the tenant's objects, extents, context entries and bindings go, then its flash key. -/
def eraseTenant (t : Nat) (s : State) : Erased × State :=
  let moves := (s.tier.moves.filter fun m => match getPage s m.2.at_ with
    | some p => p.tenant == t
    | none => false).map (·.1)
  let s := forEach moves abandonMove s
  let slots := slotsOf s t true
  let sq := (s.seqs.tab.filter fun q => q.2.tenant == t).map (·.1)
  let s := forEach sq (fun h s => (closeSeq h s).2.2) s
  let bl := (s.pfx.blocks.filter fun b => slots.contains (bits b.2.owner 4 6)).map (·.1)
  let s := forEach bl (fun b s => (retireBlock b s).2) s
  let ob := (s.wt.objs.filter fun w => w.2.tenant == t).map (·.1)
  let s := forEach ob (fun o s => (freeObj o s).2) s
  let ex := s.ext.table.filter fun x => x.2.tenant == t && x.2.state != .free
  let s := forEach ex (fun x s => eraseExtent x.1 x.2 s) s
  let s := s.modSch fun x => { x with ctxs := x.ctxs.filter fun c => c.2.tenant != t }
  let s := s.modFtl fun f =>
    { f with recs := f.recs.filter fun r => r.2.tenant != t, ghosts := f.ghosts.filter fun i => i.2.tenant != t }
  let s := s.modSec fun x =>
    { x with
      slots := x.slots.filter fun y => !slots.contains y.1
      tenants := mmod x.tenants t fun y => { y with created := false, flashKey := none } }
  ({ seqs := sq.length, blocks := bl.length, objs := ob.length, exts := ex.length }, s)

/-- The removal leaves the list. -/
def dropRemoval (r : Removal) (s : State) : State :=
  s.modSec fun x => { x with removals := x.removals.filter fun y => !(y.session == r.session && y.seq == r.seq) }

/-- Steps 6 and 7 of a tenant's removal. -/
def finishRemoval (t : Nat) (r : Removal) (s : State) : State :=
  let (e, s) := if r.erase then eraseTenant t s else ({}, s)
  let s := s.modSec fun x => { x with tenants := mmod x.tenants t fun y => { y with removing := false } }
  let counts := leBytes 4 r.keys.length ++ leBytes 4 r.aborted ++ leBytes 4 r.flits ++ leBytes 4 r.units ++ leBytes 4 e.seqs ++
    leBytes 4 e.blocks ++ leBytes 4 e.objs ++ leBytes 2 e.exts ++ leBytes 1 (b2n r.erase) ++ leBytes 1 0
  driveAll (answerKm r.session r.code r.seq { status := stOk } counts (dropRemoval r s))

/-- Step 5: the scrubs begin; a partition that resets meanwhile is cleared by the reset. Save slots of the tenant are released. -/
def removalScrub (t : Nat) (r : Removal) (s : State) : State :=
  let ps := r.scrubs.filter fun p => (partOf s p).reset == .none
  let s := forEach (r.scrubs.filter fun p => !ps.contains p) (fun p s => clearSlots p (slotsOf s t true) s) s
  let s := s.modSch fun x => { x with parts := x.parts.map fun p =>
    (p.1, { p.2 with slots := p.2.slots.map fun y => if y == some t then none else y }) }
  if ps.isEmpty then finishRemoval t r s
  else
    let s := forEach ps (fun p s => beginScrub p (modPart p (fun x => { x with outgoing := some t }) s)) s
    putRemoval { r with stage := 2, scrubs := ps } s

/-- REMOVE_DRAIN_DONE (R391 steps 3 and 4): the dying keys of the oldest removal in the drain are destroyed, and it goes on. -/
def execRemoveDrainDone (s : State) : Out :=
  .next (working (fun s => match s.sec.removals.find? fun r => r.stage == 1 with
    | none => s
    | some r =>
      let flits := sum (r.keys.map fun k => ((mget s.sec.keys k).map (·.discarded)).getD 0)
      let s := s.modSec fun x => { x with keys := x.keys.filter fun k => !r.keys.contains k.1 }
      let r := { r with flits := flits }
      match r.tenant with
      | some t => removalScrub t r s
      | none =>
        answerKm r.session r.code r.seq { status := stOk } (leBytes 4 r.aborted ++ leBytes 4 flits) (dropRemoval r s)) s)

/-! ### The end of a scrub (R386) -/

/-- Removals whose switch has ended go on with step 2. -/
def resumeRemovals (s : State) : State :=
  forEach (s.sec.removals.filter fun r => r.stage == 0) (fun r s => if removalWaits s r then s else removalStep2 r s) s

/-- A removal has done with a partition's scrub. -/
def removalScrubbed (p t : Nat) (r : Removal) (s : State) : State :=
  let r := { r with scrubs := r.scrubs.filter (· != p) }
  if r.scrubs.isEmpty then finishRemoval t r s else putRemoval r s

/-- SCRUB_DONE: of a reset, of a slice switch, or of a removal. -/
def execScrubDone (part : Nat) (s : State) : Out :=
  .next (working (fun s =>
    let x := partOf s part
    if !x.scrubbing then s
    else if x.reset == .clearing then
      (let s := resetScrubbed part s
       match s.sec.removals.find? fun r => r.stage == 2 && r.scrubs.contains part with
       | some r => (match r.tenant with
          | some t => removalScrubbed part t r (clearSlots part (slotsOf s t true) s)
          | none => s)
       | none => resumeRemovals s)
    else if x.switch == .scrubbing then
      resumeRemovals (afterScrub part (finishScrub part (slotsOf s (x.outgoing.getD 0) false) s))
    else match s.sec.removals.find? fun r => r.stage == 2 && r.scrubs.contains part with
      | some r => (match r.tenant with
        | some t =>
          let s := modPart part (fun x => { x with outgoing := none }) (finishScrub part (slotsOf s t true) s)
          resumeRemovals (removalScrubbed part t r s)
        | none => s)
      | none => s) s)

end Sys2Proof.Machine
end

