-- ==== Sys2Proof/Machine/Debug.lean ====
section
/-! DEFINITION. Image-root fuses and debug (12 R374, R375, R393). -/

namespace Sys2Proof.Machine

open Sys2Proof

/-! ### Fuses (R375) -/

/-- A fuse command that comes over I3C with the key. -/
def fuseCmd (path : Path) (key : Nat) (f : State → State) (s : State) : State :=
  if path == .i3c && key == 0xF05E && !s.sec.fuseBusy then f s else s

def setFuseErr (s : State) : State := s.modSec fun x => { x with fuseErr := true }

/-- Program a slot from SEC_FUSE_DATA; one already programmed is refused. -/
def fuseProgram (slot : Nat) (s : State) : State :=
  if (nth s.sec.roots slot {}).programmed then setFuseErr s
  else s.modSec fun x => { x with roots := lmod x.roots slot fun r => { r with digest := x.fuseData, programmed := true } }

/-- Revoke a slot; not the only one programmed and not revoked, nor the one that matched the image in service. -/
def fuseRevoke (slot : Nat) (s : State) : State :=
  let good := fun (r : Root) => r.programmed && !r.revoked
  let only := good (nth s.sec.roots slot {}) && count good s.sec.roots == 1
  if only || s.sec.matched == some slot then setFuseErr s
  else s.modSec fun x => { x with roots := lmod x.roots slot fun r => { r with revoked := true } }

/-- FUSE_PROGRAM. -/
def execFuseProgram (path : Path) (key slot : Nat) (s : State) : Out := .next (regAccess path 0xB0020 (fuseCmd path key (fuseProgram slot)) s)

/-- FUSE_REVOKE. -/
def execFuseRevoke (path : Path) (key slot : Nat) (s : State) : Out := .next (regAccess path 0xB0020 (fuseCmd path key (fuseRevoke slot)) s)

/-! ### Debug (R393) -/

/-- The selected core. -/
def dbgCore (s : State) : Nat := coreId s.sec.dbgCluster s.sec.dbgCore

/-- A debug session begins at its first command, with an event. -/
def openDebug (s : State) : State :=
  if s.sec.dbgActive then s
  else emit 1 s.sec.dbgCluster evDebug [s.sec.dbgCore] (s.modSec fun x => { x with dbgActive := true })

/-- Halt the selected core, which keeps its unit, or release it: the time halted is charged to no context. The session ends
when no core is halted any more. -/
def debugHalt (halt : Bool) (s : State) : State :=
  let k := dbgCore s
  if halt then
    if mhas s.core.halted k then s else (openDebug s).modCore fun c => { c with halted := mset c.halted k (stamp s) }
  else match mget s.core.halted k with
    | none => s
    | some t =>
      let s := match unitOn s s.sec.dbgCluster s.sec.dbgCore with
        | some (id, u) => (match u.st with
          | .running c j since false => modUnit id (fun u => { u with st := .running c j (stamp s - (t - since)) false }) s
          | _ => s)
        | none => s
      let s := s.modCore fun c => { c with halted := mdel c.halted k }
      if s.core.halted.isEmpty then s.modSec fun x => { x with dbgActive := false } else s

/-- One instruction of the halted core: what it does is the microcode's, so the core's stores are free after it (log 22). -/
def debugStep (s : State) : State :=
  if mhas s.core.halted (dbgCore s) then useCore (dbgCore s) (openDebug s) else s

/-- Bytes of each space, and where it begins in the model's store of a core. -/
def spaceSize (n : Nat) : Nat := nth [262144, 2048, 32768] n 0
def spaceBase (n : Nat) : Nat := nth [0, 262144, 262144 + 2048] n 0

/-- A byte of a core's store: 0 where nothing was written since the last clear, free where a unit has run. -/
def coreByte (core off : Nat) (s : State) : BitVec 8 × State :=
  match mget s.core.mem (2 ^ 20 * core + off) with
  | some b => (b, s)
  | none =>
    if s.core.dirty.contains core then
      let (b, s) := fresh 8 s
      (b, s.modCore fun c => { c with mem := mset c.mem (2 ^ 20 * core + off) b })
    else (0, s)

/-- A word of a core's store. -/
def coreWord (core off : Nat) (s : State) : Nat × State :=
  let (b0, s) := coreByte core off s
  let (b1, s) := coreByte core (off + 1) s
  let (b2, s) := coreByte core (off + 2) s
  let (b3, s) := coreByte core (off + 3) s
  (leNat [b0, b1, b2, b3], s)

/-- Write bytes to a core's store. -/
def putCore (core off : Nat) (bs : List Byte) (s : State) : State :=
  s.modCore fun c => { c with mem := (List.range bs.length).foldl (fun m i => mset m (2 ^ 20 * core + off + i) (nth bs i 0)) c.mem }

/-- Whether the word addressed lies in the selected space, and where in the core's store. -/
def dbgInside (s : State) : Bool := decide (s.sec.dbgAddr + 4 ≤ spaceSize s.sec.dbgSpace) && decide (s.sec.dbgCore < 64)
def dbgOffset (s : State) : Nat := spaceBase s.sec.dbgSpace + s.sec.dbgAddr

/-- The offset of SEC_DBG_DATA rises by 4 with each access. -/
def dbgAdvance (s : State) : State := s.modSec fun x => { x with dbgAddr := (x.dbgAddr + 4) % 2 ^ 18 }

/-- A read of SEC_DBG_DATA: past the end of the space it gives 0. -/
def debugRead (s : State) : Nat × State :=
  let s := openDebug s
  let (w, t) := if dbgInside s then coreWord (dbgCore s) (dbgOffset s) s else (0, s)
  (w, dbgAdvance t)

/-- A write of SEC_DBG_DATA: past the end of the space it writes nothing. -/
def debugWrite (v : Nat) (s : State) : State :=
  let s := openDebug s
  dbgAdvance (if dbgInside s then putCore (dbgCore s) (dbgOffset s) (leBytes 4 v) s else s)

/-- An access to SEC_DBG_DATA. -/
def debugData (write : Option Nat) (s : State) : State :=
  match write with
  | some v => debugWrite v s
  | none => let r := debugRead s; r.2.modMgmt fun m => { m with reply := [r.1] }

/-- DEBUG_HALT, DEBUG_STEP and DEBUG_DATA_ACCESS. -/
def execDebugHalt (path : Path) (halt : Bool) (s : State) : Out := .next (regAccess path 0xB0024 (asOperator path (debugHalt halt)) s)
def execDebugStep (path : Path) (s : State) : Out := .next (regAccess path 0xB0024 (asOperator path debugStep) s)
def execDebugDataAccess (path : Path) (write : Option Nat) (s : State) : Out := .next (regAccess path 0xB002C (asOperator path (debugData write)) s)

end Sys2Proof.Machine
end

