-- ==== Sys2Proof/Machine/Rebuild.lean ====
section
/-! DEFINITION. The rebuild from flash after a start (03 R77 to R79; 06 R201; 10 R331 to R335). An object is attached when the last
region it needs has been rebuilt (log 17). -/

namespace Sys2Proof.Machine

open Sys2Proof

/-! ### The catalog (R316, R317, R331) -/

/-- A tenant's records can be read: its flash key exists. -/
def readable (s : State) (t : Nat) : Bool := t == 0 || ((mget s.sec.tenants t).bind fun x => x.flashKey).isSome

/-- Catalog records found, the newest of each object. -/
def catalog (s : State) : List CatRec :=
  s.ftl.recs.filterMap fun x => match x.2.body with
    | .catalog c => if x.2.live && readable s x.2.tenant then some c else none
    | .journal .. => none

/-- A SEQ record. -/
structure OldSeq where
  handle : Nat
  sid : Nat
  isOpen : Bool
  model : Nat
  tenant : Nat
  part : Nat
  durable : Bool
  hint : Nat
  prio : Nat
  length : Nat
  tailOpen : Bool
  parentSid : Nat
  forkLen : Nat
  deriving DecidableEq, Repr

def CatRec.oldSeq : CatRec → Option OldSeq
  | .seq h sid o m t p d hi pr n tail ps f => some ⟨h, sid, o, m, t, p, d, hi, pr, n, tail, ps, f⟩
  | _ => none

/-- A BLOCK record. -/
structure OldBlock where
  bid : Nat
  parentBid : Nat
  key : List Byte
  owner : Nat
  prio : Nat
  lock : Bool
  num : Nat
  pubSid : Nat
  part : Nat
  model : Nat
  deriving DecidableEq, Repr

def CatRec.oldBlock : CatRec → Option OldBlock
  | .block b pb k o pr l n ps p m => some ⟨b, pb, k, o, pr, l, n, ps, p, m⟩
  | _ => none

/-- SEQ records, of open sequences and of closed ones still named. -/
def oldSeqs (s : State) : List OldSeq := (catalog s).filterMap CatRec.oldSeq
def oldSeqOf (s : State) (sid : Nat) : Option OldSeq := (oldSeqs s).find? fun o => o.sid == sid

/-- BLOCK records, those of retired blocks among them. -/
def oldBlocks (s : State) : List OldBlock := (catalog s).filterMap CatRec.oldBlock
def retiredBid (s : State) (bid : Nat) : Bool := (catalog s).contains (.retire bid)

/-- Weight objects that the catalog names: handle, and the object as recorded. -/
def oldObjs (s : State) : List (Nat × WtObj) :=
  (catalog s).filterMap fun c => match c with
    | .weight h oid size hint prio sealed_ digest part tenant =>
      if (catalog s).contains (.end_ oid) then none
      else some (h, { oid := oid, part := part, tenant := tenant, size := size, hint := hint, prio := prio, sealed := sealed_
                      digest := digest })
    | _ => none

/-- ATTACH records of a sequence: first block, run, id of the last block. -/
def oldAttaches (s : State) (sid : Nat) : List (Nat × Nat × Nat) :=
  (catalog s).filterMap fun c => match c with
    | .attach x first run last => if x == sid then some (first, run, last) else none
    | _ => none

/-! ### Images found (R332, R333) -/

/-- The later of two images (seq, gen). -/
def newer (a b : Nat × FImage) : Bool := decide (b.2.seq < a.2.seq) || (b.2.seq == a.2.seq && decide (b.2.gen < a.2.gen))

/-- The newest programmed image of a list. -/
def newest (l : List (Nat × FImage)) : Option (Nat × FImage) :=
  l.foldl (fun best x => match best with
    | none => some x
    | some b => if newer x b then some x else some b) none

/-- Images of a sequence. -/
def imagesOfSid (s : State) (sid : Nat) : List (Nat × FImage) :=
  s.ftl.images.filter fun x => x.2.programmed && (match x.2.ident with
    | .page _ _ i _ _ _ => i == sid
    | _ => false)

/-- The serving image of a layer and range of a sequence: its rows go to `stop`, or fill the page. -/
def imageFor (s : State) (sid layer first size stop : Nat) : Option (Nat × FImage) :=
  newest ((imagesOfSid s sid).filter fun x => match x.2.ident with
    | .page _ l _ f z _ => l == layer && f == first && z == size && decide (min (tokens size) (stop - first) ≤ x.2.page.rows)
    | _ => false)

/-- The serving copy of a block in a layer. -/
def copyFor (s : State) (bid layer : Nat) : Option (Nat × FImage) :=
  newest (s.ftl.images.filter fun x => x.2.programmed && x.2.ident == .block layer bid)

/-- The serving image of a weight tile. -/
def tileFor (s : State) (o oid i : Nat) : Option (Nat × FImage) :=
  newest (s.ftl.images.filter fun x => x.2.programmed && x.2.ident == .tile o oid i)

/-- Descriptor of a sequence's model: of its images, else of its slot as it is now. -/
def descOf (s : State) (sid slot : Nat) : List Byte :=
  match (imagesOfSid s sid).head? with
  | some x => x.2.page.desc
  | none => mdOf s slot

/-- Descriptor of a block's model. -/
def blockDesc (s : State) (b : OldBlock) : List Byte :=
  match copyFor s b.bid 0 with
  | some x => x.2.page.desc
  | none => descOf s b.pubSid b.model

/-- Whether an identity names an object that the catalog names as live. -/
def identLive (s : State) : Ident → Bool
  | .page _ _ sid _ _ _ => (oldSeqOf s sid).isSome
  | .block _ bid => ((oldBlocks s).any fun b => b.bid == bid) && !retiredBid s bid
  | .tile o oid _ => (oldObjs s).any fun w => w.1 == o && w.2.oid == oid

/-- A ghost's pages are all still there: none of its stripes' blocks has been erased (log 17). -/
def ghostWhole (f : Ftl) (i : FImage) : Bool :=
  !i.places.isEmpty && i.places.all fun p => match mget f.stripes p.stripe with
    | some st => !st.freed || st.whole
    | none => false

/-- Region of an image's zone. -/
def FImage.region (i : FImage) : Nat := regionOf (i.unit / 4096)

/-- Two images share a granule. -/
def FImage.overlaps (a b : FImage) : Bool := decide (a.first < b.first + b.granules) && decide (b.first < a.first + a.granules)

/-- Images of a region that were unmapped and are found again: whole, best in every granule, of a live object. -/
def findGhosts (r : Nat) (s : State) : State :=
  let all := s.ftl.images ++ s.ftl.ghosts
  let l := s.ftl.ghosts.filter fun x =>
    x.2.region == r && readable s x.2.tenant && identLive s x.2.ident && ghostWhole s.ftl x.2 &&
      !(all.any fun y => y.1 != x.1 && y.2.overlaps x.2 && newer y x)
  s.modFtl fun f =>
    { f with
      images := l.foldl (fun m x => mset m x.1 { x.2 with move := none, waiting := false, charged := false }) f.images
      ghosts := f.ghosts.filter fun x => !(l.any fun y => y.1 == x.1) }

/-- The slot in which a unit's 256 granules lie in order, where one bulk stripe holds them so (R332). -/
def slotFound (f : Ftl) (unit : Nat) (l : List FImage) : Option (Nat × Nat) :=
  let ps := l.flatMap fun i => (i.places.filter fun p => p.unit == unit).map fun p => (p, max i.first (256 * unit) - 256 * unit)
  match ps.head? with
  | none => none
  | some x =>
    let slot := x.1.at_ / 256
    let bulk := ((mget f.stripes x.1.stripe).map fun st => st.use == 0).getD false
    if bulk && sum (ps.map fun y => y.1.n) == 256 && ps.all fun y => y.1.stripe == x.1.stripe && y.1.at_ == 256 * slot + y.2 then
      some (x.1.stripe, slot)
    else none

/-- The entry of a unit in the map and its ledger, as a scan forms them. -/
def formUnit (r unit : Nat) (s : State) : State :=
  let l := (s.ftl.images.filter fun x => (unitsOf x.2).contains unit).map (·.2)
  let slot := slotFound s.ftl unit l
  let u : FUnit := { kind := if slot.isSome then 1 else 2, region := r, alloc := sum (l.map fun i => granulesIn i unit), slot := slot }
  when slot.isNone (takeTable unit) (s.modFtl fun f => { f with units := mset f.units unit u })

/-- The images of a region are adopted and charged (R286), or left unmapped; the unit map is formed (R332). -/
def adoptRegion (r : Nat) (s : State) : State :=
  let s := findGhosts r s
  let s := forEach (s.ftl.images.filter fun x => x.2.region == r) (fun x s =>
    if readable s x.2.tenant && identLive s x.2.ident then chargeImage x.1 s else unmapImage x.1 s) s
  forEach (nodup ((s.ftl.images.filter fun x => x.2.region == r).flatMap fun x => unitsOf x.2)) (formUnit r) s

/-- Images that something names: a page or tile, a move, a drain, a load. -/
def imageNamed (s : State) (id : Nat) : Bool :=
  (pageOfImage s id).isSome || (s.tier.moves.any fun m => m.2.image == some id) || (s.hbm.drains.any fun d => d.image == some id) || s.ops.tab.any fun o => match o.2.body with
    | .wtLoad _ _ _ _ l => l.contains id
    | _ => false

/-- Granules that belong to nothing are unmapped once every object is attached. -/
def dropOrphans (s : State) : State :=
  forEach ((s.ftl.images.filter fun x => x.2.programmed && !imageNamed s x.1).map (·.1)) unmapImage s

/-! ### Journal rows (R311, R312) -/

/-- A journal record of a sequence. -/
structure OldRows where
  seq : Nat
  layer : Nat
  layers : Nat
  first : Nat
  count : Nat
  rows : List (List (List Byte))

def oldRows (s : State) (sid : Nat) : List OldRows :=
  s.ftl.recs.filterMap fun x => match x.2.body with
    | .journal _ i l n f c rows => if i == sid && x.2.live && readable s x.2.tenant then some ⟨x.2.seq, l, n, f, c, rows⟩ else none
    | .catalog _ => none

/-- The newest row of a layer at a position. -/
def rowAt (js : List OldRows) (layer pos : Nat) : Option (List Byte) :=
  let l := js.filter fun j => decide (j.layer ≤ layer) && decide (layer < j.layer + j.layers) && decide (j.first ≤ pos) && decide (pos < j.first + j.count)
  (l.foldl (fun best j => match best with
    | none => some j
    | some b => if b.seq < j.seq then some j else some b) (none : Option OldRows)).map fun j =>
      nth (nth j.rows (layer - j.layer) []) (pos - j.first) []

/-- The journal's rows of a layer over a range; none unless all are there. -/
def rowsFor (js : List OldRows) (layer first n : Nat) : Option (List (List Byte)) :=
  let l := (List.range n).map fun i => rowAt js layer (first + i)
  if l.all (·.isSome) then some (l.map fun r => r.getD []) else none

/-- The end of the journal rows that go on from `pos`, records in order of position. -/
def reach (js : List OldRows) (pos : Nat) : Nat :=
  (sortBy (fun (a b : OldRows) => decide (a.first < b.first)) js).foldl (fun p j => if j.first ≤ p then max p (j.first + j.count) else p) pos

/-- Where the append that wrote position `pos` ended: records as large as R311 allows go on in the next (log 17). -/
def appendEnd (m : Model) (js : List OldRows) (pos : Nat) : Nat :=
  let sorted := sortBy (fun (a b : OldRows) => decide (a.first < b.first)) js
  let most := fun (j : OldRows) => max 1 (journalMax / (j.layers * m.rowBytes))
  (sorted.foldl (fun (acc : Nat × Bool) j =>
    if j.first ≤ pos && decide (pos < j.first + j.count) then (j.first + j.count, j.count == most j)
    else if acc.2 && j.first == acc.1 then (j.first + j.count, j.count == most j)
    else acc) (pos, false)).1

/-! ### What a sequence is rebuilt from (Table 10.13) -/

/-- Ancestors of a sequence, each with the length up to which its images serve. -/
def ancestors (s : State) : Nat → OldSeq → Nat → List (OldSeq × Nat)
  | 0, _, _ => []
  | fuel + 1, o, lim =>
    if o.forkLen == 0 then []
    else match oldSeqOf s o.parentSid with
      | none => []
      | some p => (p, min lim o.forkLen) :: ancestors s fuel p (min lim o.forkLen)

def ancestorsOf (s : State) (o : OldSeq) : List (OldSeq × Nat) := ancestors s (oldSeqs s).length o o.forkLen

/-- Block ids of a run, from the last back along the parents; none where the chain is broken. -/
def blockChain (s : State) : Nat → Nat → List (Option Nat)
  | 0, _ => []
  | n + 1, bid => match (oldBlocks s).find? fun b => b.bid == bid with
    | none => List.replicate (n + 1) none
    | some b => some bid :: blockChain s n b.parentBid

/-- Attached blocks of a sequence by block number, those below its fork length from its ancestors. -/
def attachedTo (s : State) (o : OldSeq) (block : Nat) : List (Nat × Option Nat) :=
  let of := fun (sid lim : Nat) => (oldAttaches s sid).flatMap fun x =>
    ((List.range x.2.1).map fun i => (x.1 + i, nth (blockChain s x.2.1 x.2.2).reverse i none)).filter fun y =>
      decide ((y.1 + 1) * block ≤ lim)
  of o.sid (maxTokens + block) ++ (ancestorsOf s o).flatMap fun a => of a.1.sid a.2

/-- All that a sequence is rebuilt from. -/
structure Relics where
  o : OldSeq
  desc : List Byte
  js : List OldRows
  anc : List (OldSeq × Nat)
  att : List (Nat × Option Nat)
  own : List (Nat × Nat)
  old : List (Nat × Nat)
  stop : Nat

/-- First position and size code of the images of a sequence. -/
def imageRanges (s : State) (sid : Nat) : List (Nat × Nat) :=
  nodup ((imagesOfSid s sid).filterMap fun x => match x.2.ident with
    | .page _ _ _ f z _ => some (f, z)
    | _ => none)

/-- End of the highest image. -/
def imagesEnd (s : State) (sid : Nat) : Nat :=
  maxOf ((imagesOfSid s sid).map fun x => match x.2.ident with
    | .page _ _ _ f _ _ => f + x.2.page.rows
    | _ => 0)

def relics (s : State) (o : OldSeq) : Relics :=
  let desc := match descOf s o.sid o.model with
    | [] => descOf s o.parentSid o.model
    | d => d
  let m := modelOf desc
  let js := if o.durable then oldRows s o.sid else []
  let anc := ancestorsOf s o
  let att := attachedTo s o m.block
  let base := max (max (imagesEnd s o.sid) o.forkLen) (maxOf (att.map fun a => (a.1 + 1) * m.block))
  { o := o, desc := desc, js := js, anc := anc, att := att, own := imageRanges s o.sid
    old := nodup (anc.flatMap fun a => (imageRanges s a.1.sid).filter fun x => decide (x.1 < a.2))
    stop := if o.durable then reach js base else max base o.length }

/-! ### Regions an object waits for (R78, R335) -/

/-- Regions of the positions of a handle below `stop`, position 0 always among them. -/
def handleRegions (h stop : Nat) : List Nat := (List.range (max 1 (ceilDiv stop 65536))).map fun k => regionOf (keySeq h (65536 * k))

/-- Regions of a block's copies and of its publisher's range. -/
def blockRegions (s : State) (b : OldBlock) : List Nat :=
  regionOf (keyBlock b.bid) :: (match oldSeqOf s b.pubSid with
    | some p => [regionOf (keySeq p.handle (b.num * (modelOf (blockDesc s b)).block))]
    | none => [])

def seqRegions (s : State) (o : OldSeq) : List Nat :=
  let x := relics s o
  nodup (handleRegions o.handle x.stop ++ (x.anc.flatMap fun a => handleRegions a.1.handle a.2) ++
    x.att.flatMap fun a => match (oldBlocks s).find? fun b => some b.bid == a.2 with
      | some b => blockRegions s b
      | none => [])

def objRegions (h : Nat) (w : WtObj) : List Nat :=
  nodup ((List.range (max 1 (ceilDiv w.size 16384))).map fun k => regionOf (keyTile h (16384 * k)))

/-! ### The page ranges of a rebuilt sequence -/

/-- The largest power of two from `n` down that keeps a page within `room`. -/
def fitPage (room : Nat) : Nat → Nat → Nat
  | 0, n => n
  | fuel + 1, n => if room < n && 16 < n then fitPage room fuel (n / 2) else n

/-- The page that begins at `pos`: its tokens, and the attached block where it is one. A lost range takes tail pages (log 17). -/
def pageAtPos (x : Relics) (pos : Nat) : Nat × Option (Option Nat) :=
  let m := modelOf x.desc
  let known := (x.att.map fun a => a.1 * m.block) ++ (x.own.map (·.1)) ++ x.old.map (·.1)
  let room := ((minOf (known.filter fun p => decide (pos < p))).getD (2 * maxTokens)) - pos
  match x.att.find? fun a => a.1 * m.block == pos with
  | some a => (m.block, some a.2)
  | none => match x.own.find? fun p => p.1 == pos with
    | some p => (tokens p.2, none)
    | none => match x.old.find? fun p => p.1 == pos with
      | some p => (tokens p.2, none)
      | none =>
        let journal := x.js.any fun j => decide (j.first ≤ pos) && decide (pos < j.first + j.count)
        (fitPage room 32 (pageTokens m pos (if journal then appendEnd m x.js pos else pos)), none)

/-- The pages from `pos` to the end of the sequence, in order. -/
def planPages (x : Relics) : Nat → Nat → List (Nat × Nat × Option (Option Nat))
  | 0, _ => []
  | fuel + 1, pos =>
    if x.stop ≤ pos then []
    else
      let (n, b) := pageAtPos x pos
      (pos, n, b) :: planPages x fuel (pos + max 16 n)

/-- What serves one layer of a page: an image, journal rows, or nothing. -/
inductive Serves where
  | image (id : Nat)
  | rows (l : List (List Byte))
  | nothing

def servesLayer (s : State) (x : Relics) (first n layer : Nat) : Serves :=
  match imageFor s x.o.sid layer first (sizeCode n) x.stop with
  | some i => .image i.1
  | none => match rowsFor x.js layer first (min n (x.stop - first)) with
    | some l => .rows l
    | none =>
      match x.anc.findSome? fun a => if first + n ≤ a.2 then imageFor s a.1.sid layer first (sizeCode n) (first + n) else none with
      | some i => .image i.1
      | none => .nothing

/-! ### Attaching (R333, R334) -/

/-- The page an image holds, at home there. -/
def pageFrom (id : Nat) (i : FImage) : Page :=
  { i.page with
    tier := if i.bulk then .bulk else .slc, home := i.home, run := none, metaRun := none, moving := false, sealed := true
    backing := some id, oldBacking := none }

/-- A shared record of the page an image holds, with one reference more: the record, and the state. -/
def shareImage (id hint prio : Nat) (s : State) : Nat × State :=
  match pageOfImage s id with
  | some (.rec_ r, _) => (r, addRef r hint prio s)
  | some (.seq h l f, _) =>
    let (r, s) := makeShared h l f s
    (r, addRef r hint prio s)
  | _ => match mget s.ftl.images id with
    | some i => newRec (pageFrom id i) hint prio s
    | none => (0, s)

/-- The entry by which a sequence takes an image: a page of its own, or shared with what holds it already. -/
def takeImage (h layer first size id : Nat) (o : OldSeq) (s : State) : PEnt × State :=
  if (pageOfImage s id).isSome then
    let (r, s) := shareImage id o.hint o.prio s
    ({ layer := layer, first := first, size := size, ref := .shared r }, s)
  else
    let p := match mget s.ftl.images id with
      | some i => { pageFrom id i with seq := h, layer := layer, first := first }
      | none => {}
    ({ layer := layer, first := first, size := size, ref := .own p }, s)

/-- A DROPPED page of a rebuilt sequence; its ticket comes with its range. -/
def lostPage (s : State) (q : Seq) (h layer first n stop : Nat) : Page :=
  { newPage s q h layer first (sizeCode n) .dropped none [] 0 with rows := min n (stop - first), sealed := true }

def lostEnts (s : State) (q : Seq) (h first n stop : Nat) (layers : List Nat) : List PEnt :=
  layers.map fun l => { layer := l, first := first, size := sizeCode n, ref := .own (lostPage s q h l first n stop) }

/-- Runs for the journal pages of a range, through ladder step 1 only; none gives back what it took. -/
def takeRuns (part frames : Nat) : Nat → State → Option (List Run × State)
  | 0, s => some ([], s)
  | n + 1, s => (takeRun part frames s).bind fun x => (takeRuns part frames n x.2).map fun y => (x.1 :: y.1, y.2)

/-- One page range: its entries in every layer, whether it is lost, and the state. -/
def rebuildRange (h : Nat) (q : Seq) (x : Relics) (first n : Nat) (block : Option (Option Nat)) (s : State) : List PEnt × Bool × State :=
  let m := modelOf x.desc
  let layers := List.range m.layers
  let lost := (lostEnts s q h first n x.stop layers, true, s)
  match block with
  | some bid =>
    match s.pfx.blocks.find? fun b => some b.2.bid == bid && b.2.durable with
    | none => lost
    | some b =>
      let s := forEach b.2.recs (fun r s => addRef r x.o.hint x.o.prio s) s
      (layers.map fun l => { layer := l, first := first, size := sizeCode n, ref := .shared (nth b.2.recs l 0) }, false, s)
  | none =>
    let src := layers.map fun l => servesLayer s x first n l
    let hasRows := fun (v : Serves) => match v with
      | .rows _ => true
      | _ => false
    let gone := src.any fun v => match v with
      | .nothing => true
      | _ => false
    let shares := count (fun v => match v with
      | .image id => (pageOfImage s id).isSome
      | _ => false) src
    if gone || decide (recsFree s < shares) then lost
    else match takeRuns q.part (framesFor (n * m.rowBytes)) (count hasRows src) s with
      | none => lost
      | some (runs, s) =>
        let r := (layers.zip src).foldl (fun (acc : List PEnt × List Run × State) y =>
          match y.2 with
          | .image id =>
            let (e, s) := takeImage h y.1 first (sizeCode n) id x.o acc.2.2
            (acc.1 ++ [e], acc.2.1, s)
          | .rows l =>
            let p := { newPage acc.2.2 q h y.1 first (sizeCode n) .hbm acc.2.1.head? l 0 with desc := x.desc }
            (acc.1 ++ [{ layer := y.1, first := first, size := sizeCode n, ref := .own p }], acc.2.1.tail, acc.2.2)
          | .nothing => acc) ([], runs, s)
        (r.1, false, r.2.2)

/-- Lost ranges joined into maximal ones: first and count. -/
def joinLost : List (Nat × Nat) → List (Nat × Nat)
  | [] => []
  | (a, n) :: rest => match joinLost rest with
    | (b, k) :: r => if a + n == b then (a, n + k) :: r else (a, n) :: (b, k) :: r
    | [] => [(a, n)]

/-- One ticket for a maximal lost range: its pages carry the number. -/
def lostTicket (h layers : Nat) (x : Relics) (r : Nat × Nat) (s : State) : State :=
  let (n, s) := issueTicket x.o.part h 2 r.1 (min r.2 (x.stop - r.1)) 0 layers s
  let inside := fun (e : PEnt) => decide (r.1 ≤ e.first) && decide (e.first < r.1 + r.2)
  let mark := fun (e : PEnt) => match e.ref with
    | .own p => if p.tier == .dropped && inside e then { e with ref := .own (p.dropped n) } else e
    | .shared _ => e
  modSeq h (fun q => { q with pages := q.pages.map mark }) s

/-- A run for a table, through ladder step 1, or none. -/
def tableRun (part n : Nat) (s : State) : Option Run × State := ((takeRun part n s).map fun x => (some x.1, x.2)).getD (none, s)

/-- Second-level tables of a rebuilt sequence, by layer and span. -/
def l2Runs (part : Nat) : List (Nat × Nat) → State → List (Nat × Nat × Run) × State
  | [], s => ([], s)
  | k :: rest, s =>
    let r := tableRun part (framesFor l2Bytes) s
    let t := l2Runs part rest r.2
    ((k.1, k.2, r.1.getD ⟨0, 0⟩) :: t.1, t.2)

/-- Tables of a rebuilt sequence, through ladder step 1. -/
def rebuildTables (h part layers : Nat) (s : State) : State :=
  match seqOf s h with
  | none => s
  | some q =>
    let span := if q.length == 0 then 0 else spanFor ((q.length - 1) / 16384)
    let d := tableRun part (framesFor (dirBytes layers span)) s
    let keys := nodup ((q.pages.filter fun e => decide (e.size < 10)).map fun e => (e.layer, e.first / 16384))
    let t := l2Runs part keys d.2
    modSeq h (fun q => { q with dirSpan := span, dirRun := d.1, l2 := t.1 }) t.2

/-- A sequence returns: its pages, length, tables, seals and tickets. -/
def attachSeq (h : Nat) (o : OldSeq) (s : State) : State :=
  match seqOf s h with
  | none => s
  | some q =>
    let x := relics s o
    let layers := (modelOf x.desc).layers
    let q := { q with ctx := (partOf s o.part).mgmtCtx }
    let (ents, lost, s) := (planPages x (x.stop / 16 + 1) 0).foldl (fun (acc : List PEnt × List (Nat × Nat) × State) y =>
      let (es, gone, s) := rebuildRange h q x y.1 y.2.1 y.2.2 acc.2.2
      (acc.1 ++ es, if gone then acc.2.1 ++ [(y.1, y.2.1)] else acc.2.1, s)) ([], [], s)
    let s := modSeq h (fun y => { y with pages := ents, length := x.stop, ctx := q.ctx, rebuild := [] }) s
    let s := rebuildTables h o.part layers s
    let open_ := ents.filterMap fun e => match e.ref with
      | .own p => if p.tier == .hbm && p.full && !p.sealed then some (PageAt.seq h e.layer e.first) else none
      | .shared _ => none
    let s := forEach open_ sealPage s
    let s := forEach (joinLost lost) (lostTicket h layers x) s
    let s := if !o.durable && o.tailOpen then (issueTicket o.part h 2 x.stop 0 0 layers s).2 else s
    let dead := (imagesOfSid s o.sid).filter fun i => match i.2.ident with
      | .page _ _ _ f _ _ => (lost.any fun r => decide (r.1 ≤ f) && decide (f < r.1 + r.2)) && !imageNamed s i.1
      | _ => false
    forEach (dead.map (·.1)) dropImage s

/-- The serving image of each layer of a block; none where a layer has none. -/
def blockImages (s : State) (b : OldBlock) (m : Model) : Option (List Nat) :=
  let l := (List.range m.layers).map fun l => match copyFor s b.bid l with
    | some i => some i.1
    | none => (imageFor s b.pubSid l (b.num * m.block) (sizeCode m.block) ((b.num + 1) * m.block)).map fun (i : Nat × FImage) => i.1
  if m.layers != 0 && l.all (·.isSome) then some (l.map fun i => i.getD 0) else none

/-- A durable block is inserted again (R201): under a new handle, with its priority and lock. -/
def attachBlock (b : OldBlock) (s : State) : State :=
  let m := modelOf (blockDesc s b)
  let pub := oldSeqOf s b.pubSid
  let hint := if b.lock then 1 else (pub.map (·.hint)).getD 0
  -- one entry for each key and owner class (R192), and a shared record for each page (log 48)
  let room := !(s.pfx.blocks.any fun x => x.2.owner == b.owner && x.2.key == b.key) && decide (m.layers ≤ recsFree s)
  match (if room then blockImages s b m else none), s.pfx.freeQ.take, takeRun b.part (framesFor (4 * m.layers)) s with
  | some ids, some (k, fq), some (run, t) =>
    let (recs, t) := ids.foldl (fun (acc : List Nat × State) id =>
      let (r, s) := shareImage id hint ((pub.map (·.prio)).getD 0) acc.2
      (acc.1 ++ [r], s)) ([], t)
    let gen := (mgetD t.pfx.gens k 0 + 1) % 128
    let blk : Block :=
      { state := .published, durable := true, locked := b.lock, owner := b.owner, gen := gen, loc := none, recs := recs, run := some run
        prio := b.prio, key := b.key, num := b.num, bid := b.bid, parentBid := b.parentBid, pubSid := b.pubSid, part := b.part
        model := b.model }
    let t := charge b.part 4 1 (t.modPfx fun p =>
      { p with blocks := mset p.blocks k blk, gens := mset p.gens k gen, freeQ := fq })
    (placeBlock k m.bankSet t).getD s
  | _, _, _ => s

/-- A weight object returns with the tiles programmed in order. -/
def attachObj (h : Nat) (s : State) : State :=
  match mget s.wt.objs h with
  | none => s
  | some w =>
    let found := (List.range w.size).map fun i => tileFor s h w.oid i
    let tiles := (found.takeWhile (·.isSome)).filterMap fun x => x.map fun i =>
      { i.2.page with home := i.2.home, backing := some i.1, tier := if i.2.bulk then .bulk else .slc }
    let (run, s) := match takeRun w.part (framesFor (8 * w.size)) s with
      | some (r, s) => (some r, s)
      | none => (none, s)
    s.modWt fun y => { y with objs := mset y.objs h { w with tiles := tiles, table := run, rebuild := [] } }

/-! ### The block pass and the scans (R77 to R79, R331) -/

/-- Flash is read: the start goes on or has come to RDY, and nothing has halted the work (R60, R79). -/
def scanning (s : State) : Bool :=
  !atRest s && (s.resp.kind == .none || issuing s) && (s.start.active || s.start.done.contains 13)

/-- A sequence known from its record, before its regions are rebuilt. -/
def knownSeq (s : State) (o : OldSeq) : Seq :=
  { durable := o.durable, model := o.model, ctx := (partOf s o.part).mgmtCtx, part := o.part, tenant := o.tenant, hint := o.hint
    prio := o.prio, length := o.length, parent := ((oldSeqOf s o.parentSid).map (·.handle)).getD 0, parentSid := o.parentSid
    forked := o.forkLen != 0 || o.parentSid != 0, forkLen := o.forkLen, sid := o.sid, rebuild := seqRegions s o }

/-- BLOCK_PASS_DONE (R331): every open handle and weight object is known, the free queues are formed, writes begin, and so do the scans
asked for before, in order of first request (R79). -/
def execBlockPassDone (s : State) : Out :=
  let ready := [4, 7, 8].all fun n => s.start.done.contains n
  .next (if !(ready && !s.start.wearReady && scanning s) then s
    else
      let seqs := (oldSeqs s).filter (·.isOpen)
      let objs := (oldObjs s).map fun x => (x.1, { x.2 with rebuild := objRegions x.1 x.2 })
      let known := seqs.map fun o => (o.handle, knownSeq s o)
      let s := s.modSeqs fun q =>
        { q with tab := known.foldl (fun m x => mset m x.1 x.2) q.tab, freeQ := { q.freeQ with skip := seqs.map (·.handle) } }
      let s := s.modWt fun w =>
        { w with objs := objs.foldl (fun m x => mset m x.1 x.2) w.objs, freeQ := { w.freeQ with skip := objs.map (·.1) } }
      let asked := s.ftl.asked
      let s := (s.modFtl fun f => { f with reserveReady := f.reserveUsed == 0, asked := [] }).modStart fun x => { x with wearReady := true }
      driveAll (wantRegions (asked.flatMap (regionsOf s)) s))

/-- Region `r` is the last that a list waits for. -/
def completes (s : State) (r : Nat) (l : List Nat) : Bool := l.contains r && l.all (regionReady s)

/-- A region has been scanned: its images are adopted, the objects it completes return, and what waited goes on. -/
def regionDone (r : Nat) (s : State) : State :=
  let s := (s.modStart fun x => { x with regions := x.regions ++ [r] }).modFtl fun x => { x with onDemand := x.onDemand.filter (· != r) }
  let s := adoptRegion r s
  let s := forEach ((oldBlocks s).filter fun b => !retiredBid s b.bid && completes s r (blockRegions s b)) attachBlock s
  let s := forEach ((oldSeqs s).filter (·.isOpen)) (fun o s => match seqOf s o.handle with
    | some q => if q.sid == o.sid && completes s r q.rebuild then attachSeq o.handle o s else s
    | none => s) s
  let s := forEach (s.wt.objs.filter fun w => completes s r w.2.rebuild) (fun w s => attachObj w.1 s) s
  driveAll (if mapReady s then dropOrphans s else s)

/-- The region of the background scan: the lowest not rebuilt that no on-demand scan reads (R78). -/
def nextRegion (s : State) : Option Nat :=
  let l := (List.range 256).filter fun r => !regionReady s r
  (l.find? fun r => some r != s.ftl.onDemand.head?).or l.head?

/-- REGION_SCAN_DONE (R78). -/
def execRegionScanDone (s : State) : Out :=
  .next (if !(s.start.wearReady && scanning s) then s
    else match nextRegion s with
      | some r => regionDone r s
      | none => s)

/-- ONDEMAND_SCAN_DONE (R79): the region first asked for. -/
def execOndemandScanDone (s : State) : Out :=
  .next (if !(s.start.wearReady && scanning s) then s
    else match s.ftl.onDemand.head? with
      | some r => regionDone r s
      | none => s)

end Sys2Proof.Machine
end

