-- ==== Sys2Proof/Machine/Link.lean ====
section
/-! DEFINITION. The links (04 R85 to R115, 14 R438): bringing ports up and down, laser bays and lanes, frames and their
retry, flits and messages, forwarding, and the Bridle at each port's egress. -/

namespace Sys2Proof.Machine

open Sys2Proof

/-- A port. -/
def portAt (s : State) (n : Nat) : Port := nth s.link.ports n {}

/-! ### Spare records of ports and bays (R404, Table 13.12) -/

/-- The port word and the laser word. -/
def portWord (n : Nat) : Nat := 0x010 + n
def laserWord : Nat := 0x006

/-- Write a field of the port word. -/
def setPortWord (n lo w v : Nat) (s : State) : State := spareSet (portWord n) (putBits (spareNat s (portWord n)) lo w v) s

/-! ### Queues at a port's egress (R97, R109, R115) -/

/-- Fields of a flit (Table 4.4). -/
def flitVc (f : List Byte) : Nat := field f 0 1 % 4
def flitType (f : List Byte) : Nat := field f 0 1 / 4
def flitDst (f : List Byte) : Nat := field f 1 2
def flitSrc (f : List Byte) : Nat := field f 3 2
def flitKey (f : List Byte) : Nat := field f 5 4
def flitCtr (f : List Byte) : Nat := field f 9 3
def flitIdx (f : List Byte) : Nat := field f 12 1 % 64
def flitEom (f : List Byte) : Bool := bit (field f 12 1) 6
def flitSeq (f : List Byte) : Nat := field f 13 1
def flitLen (f : List Byte) : Nat := field f 14 1
def flitSub (f : List Byte) : Nat := field f 15 1 % 2
def flitHops (f : List Byte) : Nat := field f 15 1 / 2

/-- The flit with its per-hop byte rewritten. -/
def withHop (sub hops : Nat) (f : List Byte) : List Byte := f.take 15 ++ leBytes 1 (sub + 2 * hops) ++ f.drop 16

/-- Credit class of a flit: VC × 2 + sub-channel. -/
def flitClass (f : List Byte) : Nat := 2 * flitVc f + flitSub f

/-- Put a flit at the head of a port's input. -/
def pushFront (port input : Nat) (f : List Byte) (s : State) : State :=
  modPort port (fun p => { p with queues := lmod p.queues input fun q => f :: q }) s

/-- Flits that a port can no longer send: unacknowledged frames, then those queued from here, then those forwarded. -/
def stranded (p : Port) : List (List Byte) := p.retryBuf.map (·.2) ++ p.queues.flatten

/-- A flit of the stream (src, dst, vc) goes by a FABRIC port, and so does every later one (R109). -/
def takeDetour (f : List Byte) (s : State) : State :=
  let key := (flitSrc f, flitDst f, flitVc f)
  s.modLink fun l => { l with detour := if l.detour.contains key then l.detour else l.detour ++ [key] }

/-- One flit of a dead port goes first on the port it now has, at its own input there: this device's own by its route, one that was
being forwarded by a FABRIC port (R97, R109, Table 4.8). A flit with no port is lost with the dead one. -/
def moveFlit (torus : Bool) (f : List Byte) (s : State) : State :=
  let s := when (torus && inTorus s (flitDst f)) (takeDetour f) s
  let own := flitSrc f == selfNode s
  let next := if own then pickPort s (flitDst f) (flitVc f) else hashPort s (flitDst f) (flitVc f)
  let s := keepChoice (flitDst f) (flitVc f) next s
  match next with
  | none => s
  | some m => pushFront m (if own then flitVc f else 4 + flitVc f) (withHop (b2n (own && crosses s m)) (flitHops f) f) s

/-- What a dead port held goes first on other ports, and the port is no stream's choice any more (R97). -/
def reroute (n : Nat) (s : State) : State :=
  let p := portAt s n
  let s := modPort n (fun p => { p with retryBuf := [], queues := List.replicate 12 [] }) s
  let s := s.modLink fun l => { l with chosen := l.chosen.filter fun x => x.2 != n }
  forEach (stranded p).reverse (moveFlit p.torus) s

/-! ### Ports up and down (R83, R95, R97) -/

/-- Flits a receive buffer holds, by credit class (Table 4.5): a FABRIC port has no second sub-channel. -/
def bufferSizes (torus : Bool) : List Nat :=
  [256, 256, 512, 32].flatMap fun n => [n, if torus then n else 0]

/-- LINK_UP (R95): the port has trained and is up with a fresh link, owes the peer its full buffers and holds no credit yet. The first
flit frame each way is number 0 (log 37). -/
def execLinkUp (port : Nat) (peer : Node) (s : State) : Out :=
  .next (let p := portAt s port
    if p.state == .failed || p.state == .up then s
    else modPort port (fun p =>
      { p with
        state := .up, peer := peer, txSeq := 0, retryBuf := [], rxLast := none, sinceAck := 0, nakOut := false, nakSent := false
        credits := List.replicate 8 0, owed := bufferSizes p.torus }) s)

/-- PORT_DOWN (R97): the port goes down, and its unacknowledged frames go first on the port each now has. -/
def execPortDown (port : Nat) (s : State) : Out :=
  .next (if (portAt s port).state == .up then reroute port (modPort port (fun p => { p with state := .down }) s) else s)

/-- A port becomes FAILED in a direction (R88): 0 transmit, 1 receive. -/
def failPort (n dir : Nat) (s : State) : State :=
  let s := setPortWord n 8 1 1 (modPort n (fun p => { p with state := .failed }) s)
  reroute n (emit 5 n evPortFailed [dir] s)

/-! ### Laser bays (R85, R86) -/

/-- Bay 4 comes in for a group: the ports of bay `b` are fed by it. -/
def bringBay4 (b : Nat) (s : State) : State :=
  let s := s.modLink fun l =>
    { l with spareServes := b, ports := l.ports.map fun p => if p.bay == b then { p with bay := 4 } else p }
  emit 6 b evLaserSpare [b] (spareSet laserWord (putBits (spareNat s laserWord) 0 3 b) s)

/-- LASER_BAY_LOW (R86): a bay 1.5 dB below its recorded power, or removed. -/
def execLaserBayLow (bay : Nat) (removed : Bool) (power : Int) (s : State) : Out :=
  let y := nth s.link.bays bay {}
  let low := decide (power ≤ y.recorded - 150)
  let s := s.modLink fun l => { l with bays := lmod l.bays bay fun y =>
    { y with present := y.present && !removed, power := if removed then 0 else power, ok := y.ok && !removed && !low } }
  let s := if low && !removed then spareSet laserWord (setBit (spareNat s laserWord) (3 + bay)) s else s
  .next (if (low || removed) && decide (bay < 4) && s.link.spareServes == 7 && (nth s.link.bays 4 {}).ok then bringBay4 bay s else s)

/-! ### Lanes (R87, R88) -/

/-- A frame put on the fibre. -/
def putWire (n : Nat) (f : Frame) (s : State) : State := s.modLink fun l => { l with wire := l.wire ++ [(n, f)] }

/-- The link word of the next frame (Table 4.2), its CRC over body and bits [39:0], and the port after it. -/
def linkWord (p : Port) (kind seq : Nat) (body : List Byte) : BitVec 64 × Port :=
  let cls := (List.range 8).find? fun c => decide (0 < nth p.owed c 0)
  let c := cls.getD 0
  let give := min 63 (nth p.owed c 0)
  let low := pack [(0, seq % 1024), (10, p.rxLast.getD 0 % 1024), flagAt 20 p.rxLast.isSome, flagAt 21 p.nakOut, (22, c), (25, give), (31, kind)]
  let crc := crc24 (body ++ leBytes 5 low)
  (BitVec.ofNat 64 (low + crc * 2 ^ 40),
    { p with owed := lmod p.owed c fun k => k - give, nakOut := false, nakSent := p.nakSent || p.nakOut, sinceAck := 0 })

/-- Bytes of even or of odd offset. -/
def everyOther : Bool → List Byte → List Byte
  | _, [] => []
  | true, b :: r => b :: everyOther false r
  | false, _ :: r => everyOther true r

/-- The 24 parity bytes of a frame: those of the codeword of its even bytes and of its odd bytes in turn (R89). -/
def frameParity (body : List Byte) (w : BitVec 64) : List Byte :=
  let b := body ++ leBytes 8 w.toNat
  ((Config.rsParity (everyOther true b)).zip (Config.rsParity (everyOther false b))).flatMap fun x => [x.1, x.2]

/-- The frame of a body and its link word (R89). -/
def frameOf (body : List Byte) (w : BitVec 64) : Frame := { body := body, link := w, parity := frameParity body w }

/-- Bytes the FEC corrects: up to 6 in each codeword, none where there are more in either (R89). -/
def frameFec (f : Frame) : Option Nat := if f.errs.1 ≤ 6 ∧ f.errs.2 ≤ 6 then some (f.errs.1 + f.errs.2) else none

/-- Send a lane-control frame: its 256-byte body is laid out nowhere (log 5). -/
def sendControl (n : Nat) (s : State) : State :=
  let (body, s) := freshBytes 256 s
  let (w, p) := linkWord (portAt s n) 2 (portAt s n).txSeq body
  putWire n (frameOf body w) (modPort n (fun _ => p) s)

/-- LANE_MARGIN_FAIL (R87, R88): λ8 is asked for, or it is in use and the port fails. λ8 failing while no lane has it changes
nothing, and it serves later all the same: the manual does not speak of it (log 37). -/
def execLaneMarginFail (port lane : Nat) (s : State) : Out :=
  let p := portAt s port
  .next (if p.state != .up then s
    else if p.rxSub != 15 || p.rxStage != .idle then
      (match p.rxStage with
       | .requested l => if l == lane then s else failPort port 1 s
       | _ => if p.rxSub == lane then s else failPort port 1 s)
    else if lane == 8 then s
    else sendControl port (modPort port (fun p => { p with rxStage := .requested lane }) s))

/-- SUB_REQ (R87 step 2). -/
def execSubReq (port lane : Nat) (s : State) : Out :=
  let p := portAt s port
  .next (if p.state == .up && p.txSub == 15 && p.txStage == .idle && decide (lane < 8) then
      sendControl port (modPort port (fun p => { p with txStage := .duplicated lane }) s)
    else s)

/-- A substitution is recorded: its Tally word and its event. -/
def recordSub (port dir lane : Nat) (s : State) : State :=
  emit 5 port evLaneSub [dir, lane] (setPortWord port (4 * dir) 4 lane s)

/-- SUB_READY (R87 step 3). -/
def execSubReady (port lane : Nat) (s : State) : Out :=
  .next (if (portAt s port).rxStage == .requested lane then
      recordSub port 1 lane (sendControl port (modPort port (fun p => { p with rxSub := lane, rxStage := .idle }) s))
    else s)

/-- SUB_DONE (R87 step 4). -/
def execSubDone (port lane : Nat) (s : State) : Out :=
  .next (if (portAt s port).txStage == .duplicated lane then
      recordSub port 0 lane (modPort port (fun p => { p with txSub := lane, txStage := .idle }) s)
    else s)

/-! ### Flits under a key (R110 to R113) -/

/-- The full count a flit carries, from the highest accepted one, −1 before the first (R111). -/
def rebuildCount (hi : Int) (ctr : Nat) : Int :=
  let d := ((ctr : Int) - hi % 2 ^ 24) % 2 ^ 24
  if d < 2 ^ 23 then hi + d else hi - (2 ^ 24 - d)

/-- Whether the replay record takes a count (R111). -/
def JobKey.takes (k : JobKey) (c : Int) : Bool :=
  match k.hi with
  | none => decide (0 ≤ c)
  | some h => decide ((h : Int) < c) || (decide (0 ≤ c) && decide ((h : Int) - 1024 < c) && decide (c < h) && !k.seen.contains c.toNat)

/-- The record after an accepted count: the highest, and those accepted within 1,024 below it. -/
def JobKey.accept (k : JobKey) (c : Nat) : JobKey :=
  match k.hi with
  | none => { k with hi := some c }
  | some h =>
    let top := max h c
    let l := if h < c then h :: k.seen else c :: k.seen
    { k with hi := some top, seen := l.filter fun x => decide (top < x + 1024) && decide (x < top) }

/-- What becomes of a flit for this node: its data, or the count of its discard. -/
inductive FlitIn where
  | data (bs : List Byte) (s : State)
  | authFail
  | replay
  | nokey
  | dropped

/-- Open a flit (R110 to R113): cleartext is taken for SPDM alone. Every flit under an unusable key counts, those of a message that is
being discarded among them. A flit whose rebuilt count lies below 0 has no nonce: it counts as outside the replay record, its tag
unseen (log 37). -/
def openFlit (f : List Byte) (s : State) : FlitIn :=
  let body := f.drop 16
  let key := flitKey f
  let dropped := s.link.dropping.contains (flitSrc f, flitVc f, flitSeq f)
  if key == 0 then
    (if !(flitVc f == 3 && flitType f == mtSpdm) then .nokey else if dropped then .dropped else .data (body.take (flitLen f)) s)
  else match mget s.sec.keys key with
    | none => .nokey
    | some k =>
      if k.dying then .nokey
      else if dropped then .dropped
      else
        let c := rebuildCount (match k.hi with | none => -1 | some h => (h : Int)) (flitCtr f)
        let dir := k.pair && decide (selfNode s < k.node)
        if c < 0 then .replay
        else match gcmOpen k.bytes (nonce key c.toNat dir) (f.take 15) body with
          | none => .authFail
          | some d =>
            if !k.takes c then .replay
            else .data (d.take (flitLen f)) (s.modSec fun x => { x with keys := mset x.keys key (k.accept c.toNat) })

/-! ### Messages (R94, R98) -/

/-- A message under reassembly. -/
def Partial.is (p : Partial) (f : List Byte) : Bool := p.src == flitSrc f && p.vc == flitVc f && p.seq == flitSeq f

/-- Add a flit's data to its message. -/
def addFlit (f d : List Byte) (p : Partial) : Partial :=
  { p with parts := mset p.parts (flitIdx f) d, last := if flitEom f then some (flitIdx f) else p.last }

/-- Every flit of a message has arrived. -/
def Partial.whole (p : Partial) : Bool :=
  match p.last with
  | none => false
  | some n => (List.range (n + 1)).all fun i => mhas p.parts i

/-- Reassemble (R94): a whole message is delivered, or discarded and counted when its type or channel is not one of
Table 4.6 (R98). -/
def assemble (port : Nat) (f d : List Byte) (s : State) : State :=
  let p := (s.link.partials.find? fun p => p.is f).getD { src := flitSrc f, vc := flitVc f, seq := flitSeq f, key := flitKey f, typ := flitType f }
  let p := addFlit f d p
  let rest := s.link.partials.filter fun p => !p.is f
  if !p.whole then s.modLink fun l => { l with partials := rest ++ [p] }
  else
    let s := s.modLink fun l => { l with partials := rest }
    if vcOf p.typ == some p.vc then
      let m : InMsg := { port := port, src := p.src, vc := p.vc, typ := p.typ, key := p.key
                         body := (List.range (p.last.getD 0 + 1)).flatMap fun i => mgetD p.parts i [] }
      s.modLink fun l => { l with inbox := l.inbox ++ [m] }
    else countNokey port s

/-- The rest of a discarded message is discarded too (R112). -/
def dropMessage (f : List Byte) (s : State) : State :=
  s.modLink fun l =>
    { l with
      partials := l.partials.filter fun p => !p.is f
      dropping :=
        let rest := l.dropping.filter (· != (flitSrc f, flitVc f, flitSeq f))
        if flitEom f then rest else rest ++ [(flitSrc f, flitVc f, flitSeq f)] }

/-- The message number is free again with its last flit. -/
def endDrop (f : List Byte) (s : State) : State :=
  if flitEom f then s.modLink fun l => { l with dropping := l.dropping.filter (· != (flitSrc f, flitVc f, flitSeq f)) } else s

/-- A flit for this node. -/
def takeFlit (port : Nat) (f : List Byte) (s : State) : State :=
  match openFlit f s with
  | .data d s => assemble port f d s
  | .dropped => endDrop f s
  | .authFail => dropMessage f (modPort port (fun p => { p with authFail := sat32 (p.authFail + 1) }) s)
  | .replay => dropMessage f (modPort port (fun p => { p with replay := sat32 (p.replay + 1) }) s)
  | .nokey =>
    let s := s.modSec fun x => { x with keys := mmod x.keys (flitKey f) fun k => { k with discarded := k.discarded + 1 } }
    dropMessage f (countNokey port s)

/-- A flit for this node leaves the receive buffer: its credit is owed to the peer (R95), or on the request channel held back where its
source had 4,096 requests outstanding before it (R98). One that has taken 127 hops is discarded and counted (R107). -/
def receiveFlit (port : Nat) (f : List Byte) (s : State) : State :=
  let full := flitVc f == 0 && atLimit s (flitSrc f)
  let s := if flitHops f == 127 then countNokey port s else takeFlit port f s
  if full then s.modLink fun l => { l with heldCredits := l.heldCredits ++ [(port, flitClass f, flitSrc f)] }
  else oweCredit port (flitClass f) s

/-! ### Frames (R89, R90) -/

/-- Fields of a link word. -/
def lwSeq (w : BitVec 64) : Nat := bits w.toNat 0 10
def lwAck (w : BitVec 64) : Nat := bits w.toNat 10 10
def lwAckValid (w : BitVec 64) : Bool := bit w.toNat 20
def lwNak (w : BitVec 64) : Bool := bit w.toNat 21
def lwClass (w : BitVec 64) : Nat := bits w.toNat 22 3
def lwCredits (w : BitVec 64) : Nat := bits w.toNat 25 6
def lwKind (w : BitVec 64) : Nat := bits w.toNat 31 2
def lwCrc (w : BitVec 64) : Nat := bits w.toNat 40 24

/-- A discard: the first since a flit frame was last taken sets nak (R90). -/
def frameDiscard (port : Nat) (s : State) : State :=
  modPort port (fun p => if p.nakSent || p.nakOut then p else { p with nakOut := true }) s

/-- Frames that an acknowledgement covers leave the retry buffer. -/
def dropAcked (ack : Nat) : List (Nat × List Byte) → List (Nat × List Byte)
  | [] => []
  | (n, b) :: r => if (n + 1024 - (ack + 1)) % 1024 < 512 then (n, b) :: r else dropAcked ack r

/-- Send a frame again, or for the first time, with its sequence number. -/
def sendFlitFrame (port seq : Nat) (body : List Byte) (s : State) : State :=
  let (w, p) := linkWord (portAt s port) 0 seq body
  putWire port (frameOf body w) (modPort port (fun _ => p) s)

/-- The link word of a good frame acts: acknowledgement, credits, and on a nak the replay of every unacknowledged
frame in order. -/
def applyLink (port : Nat) (w : BitVec 64) (s : State) : State :=
  let s := modPort port (fun p =>
    { p with
      retryBuf := if lwAckValid w then dropAcked (lwAck w) p.retryBuf else p.retryBuf
      credits := lmod p.credits (lwClass w) fun n => n + lwCredits w }) s
  if lwNak w then
    let l := (portAt s port).retryBuf
    forEach l (fun x s => sendFlitFrame port x.1 x.2 s) (modPort port (fun p => { p with retry := sat32 (p.retry + l.length) }) s)
  else s

/-- An idle frame, with acknowledgement, nak and credits. -/
def sendIdle (n : Nat) (s : State) : State :=
  let body := List.replicate 256 0
  let (w, p) := linkWord (portAt s n) 1 (portAt s n).txSeq body
  putWire n (frameOf body w) (modPort n (fun _ => p) s)

/-- FRAME_RECEIVE (R89, R90, R93 to R98, R107, R110 to R113). A flit for another node is left to FLIT_FORWARD.
Ports that are silent take nothing (R21). -/
def execFrameReceive (port : Nat) (f : Frame) (s : State) : Out :=
  .next (if (portAt s port).state != .up || silent s then s
    else match frameFec f with
      | none => frameDiscard port s
      | some n =>
        let s := modPort port (fun p => { p with fec := sat32 (p.fec + n) }) s
        let w := f.link
        if crc24 (f.body ++ leBytes 5 (w.toNat % 2 ^ 40)) != lwCrc w then frameDiscard port s
        else
          let s := applyLink port w s
          if lwKind w != 0 then s
          else
            let p := portAt s port
            let want := match p.rxLast with
              | none => 0
              | some k => (k + 1) % 1024
            if lwSeq w != want then frameDiscard port s
            else
              let s := modPort port (fun p =>
                { p with rxLast := some (lwSeq w), sinceAck := p.sinceAck + 1, nakOut := false, nakSent := false }) s
              let s := when (flitDst f.body == selfNode s) (receiveFlit port f.body) s
              if 32 ≤ (portAt s port).sinceAck then sendIdle port s else s)

/-! ### Forwarding (R106 to R109) -/

/-- FLIT_FORWARD: cut-through along the torus route, or by a FABRIC port past a dead one; discarded and counted on a
FABRIC port or with hops at 127. Its receive buffer is free either way. -/
def execFlitForward (port : Nat) (flit : List Byte) (s : State) : Out :=
  .next (let p := portAt s port
    if flitDst flit == selfNode s || silent s then s
    else
      let s := oweCredit port (flitClass flit) s
      if !p.torus || flitHops flit == 127 then countNokey port s
      else
        let key := (flitSrc flit, flitDst flit, flitVc flit)
        let byFabric := fun (s : State) => match hashPort s (flitDst flit) (flitVc flit) with
          | none => s
          | some m => pushFlits m (4 + flitVc flit) [withHop 0 (flitHops flit + 1) flit] (keepChoice (flitDst flit) (flitVc flit) (some m) s)
        match (if inTorus s (flitDst flit) then (routeDim s (flitDst flit)).bind (torusPort s) else none) with
        | none => byFabric s
        | some m =>
          if portDead s m || s.link.detour.contains key then
            byFabric (takeDetour flit s)
          else
            let same := (portAt s m).dim == p.dim
            let sub := if crosses s m || (same && flitSub flit == 1) then 1 else 0
            pushFlits m (4 + 4 * sub + flitVc flit) [withHop sub (flitHops flit + 1) flit] s)

/-! ### The Bridle at a port's egress (R114, R115) -/

/-- A flit of the outgoing tenant of a partition that scrubs (R389). -/
def flitHeld (s : State) (f : List Byte) : Bool :=
  flitSrc f == selfNode s && (match mget s.sec.keys (flitKey f) with
    | some k => k.tenant != 0 && s.sch.parts.any fun p => p.2.scrubbing && p.2.reset == .none && p.2.outgoing == some k.tenant
    | none => false)

/-- Inputs that are ready: a flit is queued, a credit of its class is held, and no scrub holds it back. -/
def inputReady (s : State) (p : Port) (i : Nat) : Bool :=
  match nth p.queues i [] with
  | [] => false
  | f :: _ => decide (0 < nth p.credits (flitClass f) 0) && !flitHeld s f

/-- The winner of a grant slot: the highest-ranked ready input. -/
def bridleWinner (s : State) (p : Port) : Option Nat := p.rank.find? (inputReady s p)

/-- The last flit of a TILE_WRITE of this device leaves a port: when its message left (R239). -/
def noteLeft (f : List Byte) (s : State) : State :=
  if flitSrc f == selfNode s && flitType f == mtTileWrite && flitEom f then
    let mine := fun (t : TileMsg) => t.key == flitKey f && t.last == some (flitCtr f)
    s.modIo fun x => { x with tiles := x.tiles.map fun t => (t.1, if mine t.2 then { t.2 with left := some (stamp s) } else t.2) }
  else s

/-- One grant slot of a port: the winner's flit goes out in a frame and it drops to the lowest rank; with none to send, an
idle frame carries what the link word has to say. -/
def grantPort (n : Nat) (s : State) : State :=
  let p := portAt s n
  if p.state != .up then s
  else match (if p.retryBuf.length < 512 then bridleWinner s p else none) with
    | some i =>
      match nth p.queues i [] with
      | [] => s
      | f :: rest =>
        let s := modPort n (fun p =>
          { p with
            queues := lput p.queues i rest, credits := lmod p.credits (flitClass f) fun k => k - 1
            rank := p.rank.filter (· != i) ++ [i], retryBuf := p.retryBuf ++ [(p.txSeq, f)], txSeq := (p.txSeq + 1) % 1024 }) s
        sendFlitFrame n p.txSeq f (noteLeft f s)
    | none => if p.nakOut || p.sinceAck != 0 || p.owed.any (fun k => decide (0 < k)) then sendIdle n s else s

/-- A frame slot is 6 FCLK, three CCLK (Table 4.3, R16): every up port grants once, unless the ports are silent. -/
def grantPorts (s : State) : State := if stamp s % 3 == 0 && !silent s then forEach (List.range 16) grantPort s else s

end Sys2Proof.Machine
end

