-- ==== Sys2Proof/Machine/Begin.lean ====
section
/-! DEFINITION. What a start begins from (02 R42, R52; 03 R58 to R61, R80; 13 R408, R417; 15 R457). -/

namespace Sys2Proof.Machine

open Sys2Proof

/-! ### Flash across a start (R61, R324) -/

/-- The later of two catalog records of one object stands (R316). -/
def catLive (recs : AMap FRec) (c : CatRec) (seq : Nat) : Bool :=
  (catKey c).1 == 1 || !recs.any fun x => match x.2.body with
    | .catalog d => catKey d == catKey c && decide (seq < x.2.seq)
    | .journal .. => false

/-- What flash holds, with everything that lived in HBM gone: images and records not yet programmed, the unit map and its ledger, samples
and the dies found at the last start. -/
def keepFlash (f : Ftl) : Ftl :=
  let images := f.images.filter fun x => x.2.programmed
  let recs := f.recs.filter fun x => x.2.programmed
  let recs := recs.map fun x => match x.2.body with
    | .catalog c => (x.1, { x.2 with live := catLive recs c x.2.seq, op := none })
    | .journal .. => (x.1, { x.2 with op := none })
  { images := images.map fun x => (x.1, { x.2 with move := none, waiting := false, charged := false }), ghosts := f.ghosts, recs := recs
    blocks := f.blocks, stripes := f.stripes, nextStripe := f.nextStripe, nextGroup := f.nextGroup, nextId := f.nextId
    seqNo := f.seqNo, reserveUsed := f.reserveUsed }

/-! ### The state a start begins from -/

/-- Everything volatile is cleared (R61); Tally, the snapshots, the repair log, flash, the fuses and the key store persist; the bank
keeps its measurement (R42); THM_ keeps the level of LEAK_L. -/
def clearVolatile (s : State) : State :=
  { pending := s.pending, free := s.free
    pins := { s.pins with rdy := false, fault := false, therm := false, led := .off, cascMaster := s.pins.outputsEnabled && s.pins.straps == 0, xspiDriven := false }
    pwr := { s.pwr with
      ovEvent := false, uvEvent := false, govLevel := 0, peakActive := false, pinPower := 0, low60 := false, mgmtOnly := false
      flushOnly := false, eDeclared := 0, window := 0, safeToPull := false, viewPin := 0 }
    thm := { leakIn := s.thm.leakIn }
    clk := { epoch := s.tly.pair 0 }
    tly := { phys := s.tly.phys, remap := s.tly.remap }
    spare := { hbmRemap := s.spare.hbmRemap, hamper := s.spare.hamper }
    bbx := { slots := s.bbx.slots }
    ftl := keepFlash s.ftl
    sec := { tenants := s.sec.tenants.map fun x => (x.1, { x.2 with removing := false }), roots := s.sec.roots }
    mgmt := { i3cAddr := s.mgmt.i3cAddr } }

/-- A start begins (R58): `cold` is its kind. -/
def beginStart (cold : Bool) (s : State) : State :=
  (clearVolatile s).modStart fun x => { x with active := true, cold := cold }

/-- A trigger of Table 3.1: while RST_L is low it begins no start (R60). -/
def triggerStart (cold : Bool) (s : State) : State :=
  if s.pins.rst then s.modStart fun x => { x with active := false, waiting := some cold } else beginStart cold s

/-- A start is abandoned (R60, R76). -/
def abandonStart (s : State) : State := s.modStart fun x => { x with active := false, waiting := none }

end Sys2Proof.Machine
end

