-- ==== Sys2Proof/Machine/Respond.lean ====
section
/-! DEFINITION. The responses: quiesce, in-service reset, power-fail flush, leak, trip, loss of lock and fatal faults, and what one
that meets another does (01 R21; 02 R44 to R47, R50 to R52, R55, R56, R461; 03 R59, R70, R76; 13 R415, R417, R418). -/

namespace Sys2Proof.Machine

open Sys2Proof

/-- The device is starting, waiting to start, in service or in a response: a cause finds something to act on. -/
def alive (s : State) : Bool := s.start.active || s.start.waiting.isSome || s.pins.rdy || s.resp.kind != .none

/-- CFG_START.phase shows the response begun last (Table 3.9). -/
def showPhase (n : Nat) (s : State) : State := s.modStart fun x => { x with phase := n }

/-! ### The durable window (R43, R45, R418) -/

/-- Acknowledged records not yet in flash, in order of acknowledgement. -/
def windowRecs (s : State) : List Nat :=
  (s.ftl.recs.filter fun x => x.2.durable && x.2.acked && !x.2.programmed).map (·.1)

/-- Records written to the flush reserve (R313). -/
def flushRecs (ids : List Nat) (s : State) : State :=
  s.modFtl fun f =>
    { f with
      recs := f.recs.map fun x => if ids.contains x.1 then (x.1, { x.2 with programmed := true }) else x
      reserveUsed := f.reserveUsed + sum (f.recs.map fun x => if ids.contains x.1 then round16k x.2.bytes else 0) }

/-- The window's records that are left are lost. -/
def loseWindow (s : State) : State :=
  let l := windowRecs s
  s.modFtl fun f => { f with recs := f.recs.filter fun x => !l.contains x.1 }

/-- Records the flush writes. -/
def flushList (s : State) : List Nat := (windowRecs s).filter fun i => !s.resp.skip.contains i

/-- The bank is bled (R47). -/
def startBleed (s : State) : State := s.modPwr fun p => { p with bleeding := true, charging := false, measuring := false }

/-- A bleed that waited for the end of the flush starts (R47). -/
def bleedIfDue (s : State) : State :=
  if s.resp.bleedDue then startBleed (s.modResp fun r => { r with bleedDue := false }) else s

/-- A flush ends where it stands: how many records it has programmed is free (log 5); the rest of the window is lost. -/
def cutFlush (s : State) : State :=
  if s.resp.stage == .flush then
    let l := flushList s
    let (n, s) := fresh 32 s
    bleedIfDue (loseWindow (flushRecs (l.take (n.toNat % (l.length + 1))) s))
  else loseWindow s

/-! ### Work given up -/

/-- Every accepted entry ends with REVOKED (R45 step 1). -/
def revokeAll (s : State) : State := forEach (s.rng.rings.map (·.1)) (resetRing stRevoked) s

/-- All work stops and nothing more completes (R21, R55). -/
def haltWork (s : State) : State :=
  let s := s.modResp fun r => { r with halted := true }
  let s := s.modRng fun r => { r with rings := r.rings.map fun x => (x.1, { x.2 with entries := [], ready := [] }) }
  let s := s.modOps fun x => { x with tab := [] }
  let s := s.modAttn fun a => { a with units := [] }
  s.modIo fun x => { x with reads := [], tiles := [] }

/-- Entries accepted that have not ended. -/
def anyAccepted (s : State) : Bool := s.rng.rings.any fun r => !r.2.entries.isEmpty

/-! ### FAULT_L, indicators and the bank -/

/-- FAULT_L asserts for a class; once asserted it keeps the class that asserted it. -/
def faultFor (cls : Nat) (s : State) : State := if s.pins.fault then s else assertFault cls s

/-- ATTN_LED blinks at 4 Hz unless safe_to_pull is set (R461). -/
def blinkUnsafe (s : State) : State := if s.pwr.safeToPull then s else setLed .blink4 s

/-- A cause that starts nothing further: its class joins the causes of the freeze (R415, R461). -/
def joinCause (cls : Nat) (s : State) : State := if s.bbx.frozen || s.bbx.copy.isSome then freeze cls s else s

/-- Step 3 of R56: FAULT_L and THERM_L, ATTN_LED at 4 Hz and the draw below 60 W. The response counts as taken
(THM_STATUS.leak_shutdown) from this step on, and likewise for a leak that arrives in a wait: Table 2.12 does not say at which step
the bit is set (log 25). -/
def leakStep3 (s : State) : State :=
  let s := driveTherm (faultFor clsLeak s)
  let s := s.modThm fun t => { t with leakShutdown := true }
  blinkUnsafe (s.modPwr fun p => { p with low60 := true })

/-- PRSNT_EARLY_L has gone high: the bleed starts, or waits for the end of a flush, which draws on the bank (R47, R461). R47 names
the power-fail flush; the flush of a leak response or of a fatal class is taken alike (log 25). -/
def bleedOnRemoval (s : State) : State :=
  if (s.resp.kind == .powerFail || s.resp.kind == .leak || s.resp.kind == .fatal) && s.resp.stage == .flush then
    s.modResp fun r => { r with bleedDue := true }
  else startBleed s

/-! ### The steps of a response -/

/-- The steps have ended: the start that Table 3.1 names begins, or RST_L is awaited (R59). -/
def endSteps (s : State) : State :=
  let r := s.resp
  let s := s.modResp fun x => { x with stage := .ended }
  let s := match r.kind with
    | .quiesce =>
      let s := s.modPwr fun p => { p with mgmtOnly := true }
      if r.leakJoin then leakStep3 s else if r.tripJoin then s else setSafe s
    | .powerFail | .fatal => if r.leakJoin then s else setSafe s
    | _ => s
  if r.kind == .reset then
    if r.viaPin && s.pins.rst then s else triggerStart false s
  else if s.start.rstPulse then triggerStart true s else s

/-- The response waits for the Saddlebag copy alone. -/
def settleCopy (s : State) : State := if s.resp.stage == .copy && s.bbx.copy.isNone then endSteps s else s

/-- The response comes to its last wait. -/
def awaitCopy (s : State) : State := settleCopy (s.modResp fun r => { r with stage := .copy })

/-- Step 4 of R50: the freeze, when every extent has been revoked. -/
def settleExtStage (s : State) : State :=
  if s.resp.stage == .extents && s.ext.table.isEmpty then
    awaitCopy (freeze (if s.resp.kind == .reset then clsRestart else clsUnplug) s)
  else s

/-- Step 3 of R50: every extent is revoked with zero grace. -/
def revokeExtents (s : State) : State :=
  forEach s.ext.table (fun x s => match mget s.ext.table x.1 with
    | some e => eraseExtent x.1 e s
    | none => s) s

/-- The window flush has ended. -/
def flushEnded (s : State) : State :=
  let s := bleedIfDue s
  match s.resp.kind with
  | .quiesce | .reset => settleExtStage (revokeExtents (s.modResp fun r => { r with stage := .extents }))
  | .powerFail => awaitCopy (if s.resp.leakJoin then leakStep3 s else faultFor clsPower s)
  | .leak => awaitCopy (leakStep3 s)
  | .fatal => awaitCopy s
  | .none => s

/-- The flush begins; one with nothing to write ends at once. -/
def startFlush (s : State) : State :=
  let s := s.modResp fun r => { r with stage := .flush }
  if (flushList s).isEmpty then flushEnded (loseWindow s) else s

/-- The flush has written the window; records on a failed channel are lost (R418). -/
def windowFlushed (s : State) : State :=
  if s.resp.stage == .flush then flushEnded (loseWindow (flushRecs (flushList s) s)) else s

/-- The 20 ms of step 1 of R50 are over: what has not completed ends with REVOKED. -/
def opsOver (s : State) : State := if s.resp.stage == .ops then startFlush (revokeAll s) else s

/-- A response goes on once the ops it waits for, or the extents, are gone. -/
def pollResp (s : State) : State :=
  if s.resp.stage == .ops && !anyAccepted s then opsOver s else settleExtStage s

/-! ### Beginning a response -/

/-- Steps 1 to 4 of R50 begin (R50, R59). -/
def beginQuiesce (kind : RespKind) (viaPin : Bool) (s : State) : State :=
  let s := showPhase (if kind == .reset then 7 else 8) (setLed .blink1 (dropRdy (abandonStart s)))
  pollResp (s.modResp fun _ => { kind := kind, stage := .ops, viaPin := viaPin })

/-- A response without a quiesce's steps begins: RDY falls and a start is abandoned. What is on record of a response before it
stands; what RST_L did in an in-service reset counts no more. -/
def beginHard (kind : RespKind) (phase : Nat) (s : State) : State :=
  let s := showPhase phase (dropRdy (abandonStart s))
  let s := if s.resp.kind == .reset then s.modStart fun x => { x with rstLow := false, rstPulse := false } else s
  s.modResp fun r => { r with kind := kind }

/-- Every unit outside Table 2.3 is powered down (R45 step 3). -/
def powerDown (s : State) : State := s.modPwr fun p => { p with flushOnly := true }

/-- Steps 1 to 4 of R45. -/
def flushFor (kind : RespKind) (phase cls : Nat) (s : State) : State :=
  startFlush (powerDown (freeze cls (revokeAll (setLed .blink1 (beginHard kind phase s)))))

/-- A quiesce whose steps have not ended. -/
def quiescing (s : State) : Bool := s.resp.kind == .quiesce && s.resp.stage != .ended

/-- A power-fail flush or leak response whose steps have not ended. -/
def flushingHard (s : State) : Bool := (s.resp.kind == .powerFail || s.resp.kind == .leak) && s.resp.stage != .ended

/-- Nothing else, or an in-service reset, is under way. -/
def softState (s : State) : Bool := s.resp.kind == .none || s.resp.kind == .reset

/-! ### The causes -/

/-- A cause of R44. -/
def powerFailCause (s : State) : State :=
  if !alive s then s
  else if softState s || (quiescing s && !s.resp.tripJoin) then flushFor .powerFail 9 clsPower s
  else if flushingHard s then joinCause clsPower s
  else faultFor clsPower (joinCause clsPower s)

/-- UNPLUG_REQ_L has been low for 1 ms (R50, R59, R461). -/
def unplugCause (s : State) : State :=
  if !alive s then s
  else match s.resp.kind with
    | .none => beginQuiesce .quiesce false s
    | .reset =>
      let s := showPhase 8 (joinCause clsUnplug (s.modResp fun r => { r with kind := .quiesce }))
      let s := s.modStart fun x => { x with waiting := none }
      if s.resp.stage == .ended then endSteps s else s
    | .quiesce => s
    | _ => joinCause clsUnplug s

/-- LEAK_L has been low for 1 ms (R56, R461). -/
def leakCause (s : State) : State :=
  let s := s.modThm fun t => { t with leakIn := true }
  if !alive s then s
  else if softState s then flushFor .leak 0xA clsLeak s
  else if (quiescing s || (s.resp.kind == .powerFail && s.resp.stage != .ended)) && !s.resp.tripJoin then
    let s := showPhase 0xA (freeze clsLeak (s.modResp fun r => { r with leakJoin := true }))
    if s.resp.kind == .powerFail && s.resp.stage == .copy then leakStep3 s else s
  else if flushingHard s then joinCause clsLeak s
  else
    let s := if s.resp.stage == .ended then s else s.modResp fun r => { r with leakJoin := true }
    leakStep3 (joinCause clsLeak s)

/-- A fatal class that flushes nothing begins: the window is lost (R21, R55). -/
def lostFor (cls : Nat) (s : State) : State :=
  let s := cutFlush s
  let s := blinkUnsafe (faultFor cls (freeze cls (haltWork (beginHard .fatal 6 s))))
  awaitCopy s

/-- A thermal trip (R55, R461). -/
def tripCause (s : State) : State :=
  let s := driveTherm s
  if !alive s then s
  else if softState s then lostFor clsThermal s
  else if quiescing s || flushingHard s then
    let s := haltWork (cutFlush s)
    let s := showPhase 6 (faultFor clsThermal (freeze clsThermal (s.modResp fun r => { r with tripJoin := true })))
    awaitCopy (if s.resp.kind == .leak || s.resp.leakJoin then leakStep3 s else blinkUnsafe s)
  else blinkUnsafe (faultFor clsThermal (joinCause clsThermal s))

/-- The root PLL has lost lock (R21, R461): holdover, and every clock but SCLK stops. -/
def lockCause (s : State) : State :=
  if !alive s || !s.clk.pllLocked then s
  else
    let leak := s.resp.leakJoin || s.resp.kind == .leak
    let s := lostFor clsClock (s.modResp fun r => { r with leakJoin := leak })
    if s.start.active then s
    else s.modClk fun c => { c with pllLocked := false, holdover := true, running := false }

/-- Class and number of a failed unit in its FATAL event (Table 13.5). -/
def failedUnit : FailUnit → Nat × Nat
  | .ftl => (0, 0)
  | .hbm n => (4, n)
  | .other c u => (c, u)

/-- What a failed unit takes of the durable window (R418): all of it, or the records with a byte on a failed channel. -/
def failedLoss (unit : FailUnit) (hit : List Nat) (s : State) : State :=
  match unit with
  | .ftl => cutFlush s
  | .hbm _ => s.modResp fun r => { r with skip := r.skip ++ hit }
  | .other _ _ => s

/-- A fault of class MEMORY or INTERNAL (R418), with the unit its FATAL event names; `hit` lists the records with a byte on a failed
channel. -/
def memoryFault (cls : Nat) (unit : FailUnit) (detail : Nat) (hit : List Nat) (s : State) : State :=
  if !alive s then s
  else
    let s := emit (failedUnit unit).1 (failedUnit unit).2 evFatal [cls, detail] s
    if softState s || (quiescing s && !s.resp.tripJoin) then
      let s := failedLoss unit hit s
      startFlush (powerDown (blinkUnsafe (faultFor cls (freeze cls (revokeAll (beginHard .fatal 6 s))))))
    else if flushingHard s then
      let s := faultFor cls (freeze cls (failedLoss unit hit s))
      if s.resp.stage == .flush && (flushList s).isEmpty then flushEnded s else s
    else blinkUnsafe (faultFor cls (joinCause cls s))

/-- Both image slots are rejected (R70). -/
def imageFault (s : State) : State :=
  startFlush (blinkUnsafe (faultFor clsImage (freeze clsImage (emit 0 0 evImageReject [s.img.rejectA, s.img.rejectB]
    (beginHard .fatal 6 s)))))

/-- An in-service reset begins (R59). -/
def resetCause (viaPin : Bool) (s : State) : State :=
  if serving s then beginQuiesce .reset viaPin s else s

end Sys2Proof.Machine
end

