-- ==== Sys2Proof/Machine/Power.lean ====
section
/-! DEFINITION. The rail, the hold-up bank, the throttle levels, the causes of a response and the wrap of the CCLK counter (01 R21
to R24; 02 R33 to R56, R461). -/

namespace Sys2Proof.Machine

open Sys2Proof

/-! ### The rail (R33, R36, R37, R49) -/

/-- Levels of the input discretes. -/
def setLines (l : Lines) (s : State) : State :=
  let s := s.modPins fun p =>
    { p with prsntEarly := l.prsntEarly, prsntLate := l.prsntLate, pwrfail := l.pwrfail, leak := l.leak, unplug := l.unplug }
  if l.leak then s else s.modThm fun t => { t with leakIn := false }

def setVin (vin : Nat) (s : State) : State := s.modPins fun p => { p with vin := vin }

/-- VIN60_CONTACT (R33, R34, R36, R49): above 42.5 V with PRSNT_EARLY_L low soft-start begins, the first-stage converters off. At an
insertion nothing is left of what ran before, and the outputs are at high impedance. At or below 42.5 V the lockout holds. -/
def execVin60Contact (vin : Nat) (s : State) : Out :=
  .next (if s.pwr.rail != .off then s
    else if vin ≤ 4250 then setVin vin s
    else
      let s := if s.pins.prsntEarly then s
        else (clearVolatile s).modPins fun p => { p with prsntEarly := true, outputsEnabled := false, cascMaster := false, prsntLate := false }
      (setVin vin s).modPwr fun p => { p with rail := .softStart, converters := false, ovShutdown := false })

/-- Whether the bank stands above 20 V (R42). A charge cut short may have passed 20 V or not: that is free (log 5). -/
def bankAbove20 (s : State) : Bool × State :=
  if s.pwr.charged then (true, s)
  else if s.pwr.partly then ((fresh 1 s).1 == 1, (fresh 1 s).2)
  else (false, s)

/-- The charger begins: a charge from below 20 V measures the bank (R42). -/
def startCharge (above : Bool) (s : State) : State :=
  s.modPwr fun p => { p with charging := true, measuring := !above, bleeding := false, partly := true }

/-- SOFT_START_DONE (R36, R41, R42, R49): VIN60 is valid, and a cold start is triggered with no measurement held; a bank above 20 V
is bled first. After a power-fail flush VIN60's return starts nothing (R46). -/
def execSoftStartDone (vin : Nat) (s : State) : Out :=
  .next (if s.pwr.rail != .softStart then s
    else
      let s := (setVin vin s).modPwr fun p => { p with rail := .valid, converters := true, diodeOpen := false }
      let (above, s) := bankAbove20 s
      if alive s then startCharge above s
      else
        let s := s.modPwr fun p =>
          { p with measured := false, eMeasured := 0, eEff := 0, ready := false, bankLow := false, bankMismatch := false }
        let s := if above then s.modPwr fun p => { p with bleeding := true, charging := false } else startCharge false s
        triggerStart true s)

/-- PRSNT_EARLY_HIGH (R47, R49). -/
def execPrsntEarlyHigh (s : State) : Out :=
  let s := s.modPins fun p => { p with prsntEarly := false }
  let s := s.modPwr fun p => { p with rail := .off }
  .next (bleedOnRemoval s)

/-- Phase 3 of a start ends: the image is read next, over the XSPI outputs (R63). -/
def endPhase3 (s : State) : State :=
  (s.modStart fun x => { x with done := x.done ++ [3] }).modPins fun p => { p with xspiReset := true, xspiDriven := true }

/-- OUTPUTS_ENABLE (R33, R49): phase 3 of a start ends with it once the PLL has locked. -/
def execOutputsEnable (s : State) : Out :=
  let s := driveMaster (s.modPins fun p => { p with prsntLate := true, outputsEnabled := true })
  .next (if s.start.active && s.start.done.contains 2 && !s.start.done.contains 3 then endPhase3 s else s)

/-- PRSNT_LATE_HIGH (R44). -/
def execPrsntLateHigh (s : State) : Out :=
  let s := s.modPins fun p => { p with prsntLate := false }
  .next (if s.pwr.safeToPull then s else powerFailCause s)

/-- PWRFAIL_ASSERT (R44). -/
def execPwrfailAssert (s : State) : Out := .next (powerFailCause (s.modPins fun p => { p with pwrfail := true }))

/-- UNDERVOLTAGE (R34, R44): below 40.0 V the lockout engages. -/
def execUndervoltage (vin : Nat) (s : State) : Out :=
  .next (if 4000 ≤ vin then setVin vin s else powerFailCause ((setVin vin s).modPwr fun p => { p with uvEvent := true, rail := .off, charging := false, measuring := false }))

/-- OVERVOLTAGE_SHUTDOWN (R34, R44): it engages above 64.0 V. -/
def execOvervoltageShutdown (vin : Nat) (s : State) : Out :=
  .next (if vin ≤ 6400 then setVin vin s else powerFailCause ((setVin vin s).modPwr fun p =>
    { p with ovEvent := true, ovShutdown := true, rail := .off, charging := false, measuring := false }))

/-- DIODE_REVERSE_CURRENT (R37). -/
def execDiodeReverseCurrent (s : State) : Out := .next (s.modPwr fun p => { p with diodeOpen := true })

/-! ### The bank (R40 to R43, R47) -/

/-- The durable window for an effective energy in units of 0.125 J (R43): 0.7 e joules less 2, at 240 W and 24 GB/s. -/
def windowFor (eEff : Nat) : Nat := (8750000 * eEff - 200000000) / granuleBytes * granuleBytes

/-- E_eff and the window from the declared and the measured energy (R41 to R43): nothing is formed before both are known. Above
1.1 of the declared energy the charge stops and the bank is bled. -/
def formEnergy (s : State) : State :=
  if s.img.cur.isNone || !s.pwr.measured then s
  else
    let d := s.pwr.eDeclared
    let m := s.pwr.eMeasured
    let beyond := decide (11 * d < 10 * m)
    let low := decide (10 * m < 9 * d)
    let e := if beyond then 0 else min d m
    let s := when (low && !s.pwr.bankLow) (emit 0 0 evThermosLow [m]) s
    let s := s.modPwr fun p => { p with bankLow := low, bankMismatch := beyond, eEff := e, window := windowFor e }
    if beyond then startBleed s else s

/-- BANK_CHARGE_DONE (R41 to R43): the bank is at 57.0 V; a charge that began below 20 V has measured it. A bank with too much energy
never gets there. The charger holds the bank there: BANK_BELOW_READY finds it at work again. -/
def execBankChargeDone (energy : Nat) (s : State) : Out :=
  .next (if !s.pwr.charging then s
    else
      let s := if s.pwr.measuring then
          formEnergy (s.modPwr fun p => { p with measuring := false, measured := true, eMeasured := energy })
        else s
      if s.pwr.bankMismatch then s.modPwr fun p => { p with charged := true, charging := false }
      else s.modPwr fun p => { p with charging := false, charged := true, ready := true })

/-- BANK_BELOW_READY (R42, R43): ready is cleared; the charger brings the bank up again while VIN60 is valid. -/
def execBankBelowReady (s : State) : Out :=
  .next (s.modPwr fun p =>
    { p with ready := false, charging := p.charging || (p.rail == .valid && !p.bleeding && !p.bankMismatch) })

/-- BANK_BLEED_BELOW_20V (R42, R47): at a start that follows soft-start the first charge begins; a bleed on removal goes on. -/
def execBankBleedBelow20v (s : State) : Out :=
  .next (if !s.pwr.bleeding then s
    else
      let s := s.modPwr fun p => { p with charged := false, partly := false, ready := false }
      if s.pins.prsntEarly && s.pwr.rail == .valid && !s.pwr.bankMismatch then startCharge false s else s)

/-- WINDOW_FLUSH_DONE (R45, R50, R56, R418). -/
def execWindowFlushDone (s : State) : Out := .next (windowFlushed s)

/-! ### Throttle levels (R54, R55) -/

/-- The kind of a sensor (Table 2.9). -/
def sensorKind (n : Nat) : Nat :=
  if n < 16 then 0 else if n < 20 then 1 else if n < 36 then 0 else if n < 40 then 1 else if n < 52 then 2 else if n < 60 then 3 else 4

/-- Entry threshold of a level for a kind of sensor, in units of 0.125 °C (Table 2.7); level 4 is the trip. -/
def entryAt (kind level : Nat) : Int :=
  8 * (if kind == 3 then nth [0, 85, 90, 95, 100] level 100 else nth [0, 95, 100, 105, 112] level 112)

/-- Readings of the sensors that have converted since the start. -/
def readings (s : State) : List (Nat × Int) :=
  (List.range 64).filterMap fun n => if nth s.thm.valid n false then some (sensorKind n, nth s.thm.temps n 0) else none

/-- The highest level whose entry threshold a sensor has reached. -/
def entryLevel (s : State) : Nat :=
  maxOf ((readings s).map fun x => ((List.range 5).filter fun l => l != 0 && decide (entryAt x.1 l ≤ x.2)).length)

/-- THERM_L is low from level 2, in a trip, and once a response or a wait has driven it low (R56, R461). -/
def driveThermL (s : State) : State :=
  let held := s.thm.leakShutdown || s.thm.level == 4 || s.resp.tripJoin
  s.modPins fun p => { p with therm := held || decide (2 ≤ throttle s) }

/-- SENSOR_SAMPLE (R54, R55): a trip acts when the level is first entered. -/
def execSensorSample (n : Nat) (temp : Int) (s : State) : Out :=
  let s := s.modThm fun t => { t with temps := lput t.temps n temp, valid := lput t.valid n true }
  let was := s.thm.level
  let l := max was (entryLevel s)
  let s := driveThermL (s.modThm fun t => { t with level := l })
  .next (if l == 4 && was != 4 then tripCause s else s)

/-- THERMAL_LEVEL_EXIT (R54): every sensor is at least 3 °C below the level's entry threshold. A trip is left by a start alone. -/
def execThermalLevelExit (s : State) : Out :=
  let l := s.thm.level
  .next (if l == 0 || l == 4 || !(readings s).all fun x => decide (x.2 ≤ entryAt x.1 l - 24) then s
    else driveThermL (s.modThm fun t => { t with level := l - 1 }))

/-- POWER_LEVEL_STEP_DOWN (R54). -/
def execPowerLevelStepDown (s : State) : Out :=
  .next (driveThermL (s.modPwr fun p => { p with govLevel := p.govLevel - 1 }))

/-- POWER_GOVERNOR_MEASURE (R39, R54): `need` is the lowest level that keeps input power within R39. -/
def execPowerGovernorMeasure (vin power level : Nat) (lines : Lines) (s : State) : Out :=
  let s := setLines lines (setVin vin s)
  .next (driveThermL (s.modPwr fun p =>
    { p with pinPower := power, peakActive := decide (5000 < power), govLevel := max p.govLevel level }))

/-! ### Causes (R21, R50, R56) -/

/-- UNPLUG_REQUEST. -/
def execUnplugRequest (s : State) : Out := .next (unplugCause (s.modPins fun p => { p with unplug := true }))

/-- QUIESCE_OP_DEADLINE (R50). -/
def execQuiesceOpDeadline (s : State) : Out := .next (opsOver s)

/-- LEAK_RESPONSE. -/
def execLeakResponse (s : State) : Out := .next (leakCause (s.modPins fun p => { p with leak := true }))

/-- LOSS_OF_LOCK (R21). Whether REFCLK still toggles then is not said: TOP_CLK_STATUS.ref_present is free (log 5). -/
def execLossOfLock (s : State) : Out :=
  let r := fresh 1 (lockCause s)
  .next (if s.clk.pllLocked && !r.2.clk.pllLocked then r.2.modClk fun c => { c with refPresent := r.1 == 1 } else lockCause s)

/-! ### The wrap (R22 to R24) -/

/-- The next epoch is written ahead of the wrap; one that cannot be written is fatal (Table 13.3). -/
def prewriteEpoch (s : State) : State :=
  if s.clk.prewritten then s
  else
    let e := s.clk.epoch + 1
    if s.tly.canPair 0 then
      (pairWrite 0 e s).modClk fun c => { c with prewritten := true, nextEpoch := e }
    else memoryFault clsMemory (.other 8 0) 0 [] (pairWrite 0 e s)

/-- EPOCH_PREWRITE (R24): the counter has reached 2^48 − 2^20 (log 4). -/
def execEpochPrewrite (s : State) : Out :=
  .next (if !s.clk.running then s
    else
      let at_ := 2 ^ 48 - 2 ^ 20
      prewriteEpoch (if now s < at_ then s.modClk fun c => { c with count := BitVec.ofNat 48 at_ } else s))

/-- The wrap edge: the counter is zero, and the prewritten epoch is the current one. Where the next epoch could not be written no
epoch is used unwritten (Table 13.3), and no edge may repeat a pair (R25): CCLK stops at the last count (log 26). -/
def wrapClock (s : State) : State :=
  s.modClk fun c =>
    if c.prewritten then { c with count := 0, epoch := c.nextEpoch, prewritten := false, lastCause := true }
    else { c with running := false }

/-- CCLK_WRAP (R22 to R24): the counter has come to its last count (log 4), the prewrite behind it. -/
def execCclkWrap (s : State) : Out := .next (if !s.clk.running then s else wrapClock (prewriteEpoch s))

end Sys2Proof.Machine
end

