-- ==== Sys2Proof/Machine/Spares.lean ====
section
/-! DEFINITION. Spares in service, unit generations, faults of devices, Tally words and the Saddlebag (13 R396 to R421; 04 R104; 06
R183). -/

namespace Sys2Proof.Machine

open Sys2Proof

/-! ### Prefix Match Array banks (R400) -/

def bankWord : Nat := 0x007

/-- Logical bank a spare serves, 0x3F for none, and whether the spare is retired. -/
def bankServed (w spare : Nat) : Nat := if spare == 32 then bits w 0 6 else bits w 6 6
def bankRetired (w spare : Nat) : Bool := bit w (if spare == 32 then 12 else 13)
def putServed (w spare n : Nat) : Nat := if spare == 32 then putBits w 0 6 n else putBits w 6 6 n
def retireSpareBank (w spare : Nat) : Nat := setBit w (if spare == 32 then 12 else 13)

/-- The physical bank that serves a logical one. -/
def physBank (w b : Nat) : Nat := if bankServed w 32 == b then 32 else if bankServed w 33 == b then 33 else b

/-- The spare that comes in next. -/
def freeBank (w : Nat) : Option Nat := [32, 33].find? fun n => bankServed w n == 0x3F && !bankRetired w n

/-- Retire the physical bank that serves logical bank `b`; with no spare left the fault is fatal. -/
def retireBank (b : Nat) (s : State) : State :=
  let w := spareNat s bankWord
  let old := physBank w b
  let w1 := if 32 ≤ old then retireSpareBank (putServed w old 0x3F) old else w
  match freeBank w1 with
  | some n => emit 2 old evSpareBank [b, n] (spareSet bankWord (putServed w1 n b) s)
  | none => memoryFault clsMemory (.other 2 old) b [] (spareSet bankWord w1 s)

/-- A physical bank fails its check at a start. -/
def failBank (phys : Nat) (s : State) : State :=
  let w := spareNat s bankWord
  if phys < 32 then (if physBank w phys == phys then retireBank phys s else s)
  else if bankServed w phys == 0x3F then spareSet bankWord (retireSpareBank w phys) s
  else retireBank (bankServed w phys) s

/-- The rows of a spare bank, written from the block table: the published blocks whose location names the bank. -/
def rebuiltRows (s : State) (bank : Nat) : AMap Row :=
  s.pfx.rows.filter fun x => x.1 / 65536 != bank || match mget s.pfx.blocks x.2.block with
    | some b => b.state == .published && b.loc == some (.array bank (x.1 % 65536))
    | none => false

/-- BANK_REBUILD_DONE (R400, R405). -/
def execBankRebuildDone (bank : Nat) (s : State) : Out :=
  .next (working (fun s => if !s.pfx.rebuilding.contains bank then s
    else
      let s := s.modPfx fun p => { p with rows := rebuiltRows s bank, rebuilding := p.rebuilding.filter (· != bank) }
      let g := nth s.spare.genBank bank 0 + 1
      emit 2 bank evGeneration [g.toNat] (s.modSpare fun x => { x with genBank := lput x.genBank bank g })) s)

/-- A logical bank in service is retired: it is not searched until its spare has been rebuilt. -/
def loseBank (b : Nat) (s : State) : State :=
  retireBank b (s.modPfx fun p => { p with rebuilding := if p.rebuilding.contains b then p.rebuilding else p.rebuilding ++ [b] })

/-- PMA_PATROL_READ (R183, R400): 16 rows of a bank with uncorrectable errors in one pass retire it. -/
def execPmaPatrolRead (errors : List Nat) (s : State) : Out :=
  .next (working (fun s =>
    let was := s.pfx.patrolRow
    let s := patrolRead errors s
    let s := forEach ((s.pfx.bankErr.filter fun x => decide (16 ≤ x.2)).map (·.1)) (fun b s =>
      loseBank b (s.modPfx fun p => { p with bankErr := mdel p.bankErr b })) s
    if was == 65535 then s.modPfx fun p => { p with bankErr := [] } else s) s)

/-! ### HBM (R104, R401) -/

def stackWord (n : Nat) : Nat := 0x040 + n

/-- Stack of a physical byte address, by its channel (R15), and its 1 MiB block of stack-local addresses: the 2 KiB granules go
round 256 channels, 32 of a stack. -/
def stackOf (addr : Nat) : Nat := Config.hbmChannel (addr / 2048) / 32 % 8
def blockOf (addr : Nat) : Nat := addr / 2 ^ 23

/-- Reserve blocks a stack has used. -/
def remapUsed (s : State) (stack : Nat) : Nat := bits (spareNat s (stackWord stack)) 0 12

/-- A block is to be remapped, or its stack has no reserve block left. -/
def remapBlock (stack block : Nat) (s : State) : State :=
  if s.spare.remapping.contains (stack, block) then s
  else if remapUsed s stack < 2048 then s.modSpare fun x => { x with remapping := x.remapping ++ [(stack, block)] }
  else spareSet (stackWord stack) (setBit (spareNat s (stackWord stack)) 20) s

/-- The extent line a physical line holds. -/
def lineOfPhys (s : State) (addr : Nat) : Option Nat :=
  s.ext.table.findSome? fun x =>
    (x.2.runs.foldl (fun (acc : Nat × Option Nat) r =>
      let lo := 4096 * r.start
      let n := 4096 * r.len
      (acc.1 + n, if acc.2.isNone && decide (lo ≤ addr) && decide (addr < lo + n) then some (x.1 * 2 ^ 36 + acc.1 + (addr - lo)) else acc.2))
      (0, none)).2

/-- HBM_UNCORRECTABLE (R104, R401): the line is poisoned, and its block is remapped. -/
def execHbmUncorrectable (addr : Nat) (s : State) : Out :=
  let a := addr / 64 * 64
  let s := s.modCoh fun c =>
    { c with
      poisonPhys := if c.poisonPhys.contains a then c.poisonPhys else c.poisonPhys ++ [a]
      poison := match lineOfPhys s a with
        | some l => if c.poison.contains l then c.poison else c.poison ++ [l]
        | none => c.poison }
  .next (remapBlock (stackOf a) (blockOf a) (emit 4 (stackOf a) evPoison [lo32 a, hi32 a, 2] s))

/-- Corrected errors of a block within 2^42 CCLK. -/
def recentErrors (s : State) (stack block : Nat) : List ((Nat × Nat) × (Nat × Nat)) :=
  s.spare.corrected.filter fun x =>
    x.1 == (stack, block) && decide (stamp s < x.2.1 * 2 ^ 48 + x.2.2 + 2 ^ 42)

/-- HBM_CORRECTED_ERROR (R401). -/
def execHbmCorrectedError (stack block : Nat) (s : State) : Out :=
  .next (working (fun s =>
    let l := recentErrors s stack block ++ [((stack, block), (epochNo s, now s))]
    let others := s.spare.corrected.filter fun x => x.1 != (stack, block)
    if 32 ≤ l.length then remapBlock stack block (s.modSpare fun x => { x with corrected := others })
    else s.modSpare fun x => { x with corrected := others ++ l }) s)

/-- HBM_REMAP_DONE (R401): the lowest free reserve block serves the block from here on. -/
def execHbmRemapDone (stack block : Nat) (s : State) : Out :=
  .next (working (fun s => if !s.spare.remapping.contains (stack, block) then s
    else
      let n := remapUsed s stack
      let w := putBits (spareNat s (stackWord stack)) 0 12 (n + 1)
      let s := s.modSpare fun x =>
        { x with remapping := x.remapping.filter (· != (stack, block)), hbmRemap := x.hbmRemap ++ [(stack, block)] }
      emit 4 stack evHbmRepair [1, block, n] (spareSet (stackWord stack) (if n + 1 == 2048 then setBit w 20 else w) s)) s)

/-! ### Die bridges (R405, R406) -/

/-- BRIDGE_CRC_LIMIT (R406): more than 16 errors retrain the bridge. -/
def execBridgeCrcLimit (die errors : Nat) (s : State) : Out :=
  .next (working (fun s => if errors ≤ 16 || s.spare.retraining.contains die then s
    else emit 3 die evBridge [errors] (s.modSpare fun x => { x with retraining := x.retraining ++ [die] })) s)

/-- BRIDGE_RETRAIN_DONE (R405; Table 13.8): the lookaside buffers of the die's clusters are flushed. -/
def execBridgeRetrainDone (die : Nat) (ok : Bool) (s : State) : Out :=
  .next (if !s.spare.retraining.contains die then s
    else
      let s := s.modSpare fun x => { x with retraining := x.retraining.filter (· != die) }
      if !ok then memoryFault clsInternal (.other 3 die) 0 [] s
      else
        let g := nth s.spare.genDie die 0 + 1
        let s := s.modSeqs fun x => { x with plb := x.plb.filter fun e => e.1 / 16 != die }
        emit 3 die evGeneration [g.toNat] (s.modSpare fun x => { x with genDie := lput x.genDie die g }))

/-- FATAL_MEMORY_INTERNAL (R417, R418). -/
def execFatalMemoryInternal (memory : Bool) (unit : FailUnit) (detail : Nat) (hit : List Nat) (s : State) : Out :=
  .next (memoryFault (if memory then clsMemory else clsInternal) unit detail hit s)

/-! ### The Saddlebag (R412, R415, R416) -/

/-- SADDLEBAG_EVENT_WRITE (R412): the oldest queued event. -/
def execSaddlebagEventWrite (s : State) : Out :=
  .next (s.modBbx fun b => match b.queue with
    | e :: rest => if b.frozen then b else { b.write e with queue := rest }
    | [] => b)

/-- First count of the interval that begins now. -/
def nextInterval (s : State) : Nat :=
  if now s != 0 && now s % 2 ^ 20 == 0 then now s else (now s / 2 ^ 20 + 1) * 2 ^ 20 % 2 ^ 48

/-- SUPPRESSION_INTERVAL_END (R412): a SUPPRESSED event for each kind of which some were not written; those are not limited. -/
def execSuppressionIntervalEnd (s : State) : Out :=
  let beyond := s.bbx.rate.filter fun r => decide (16 < r.count)
  let t := nextInterval s
  .next (s.modBbx fun b =>
    beyond.foldl (fun b r => b.enqueue
      { time := t, epoch := epochNo s, cls := r.cls, unit := r.unit, code := evSuppressed, a0 := r.code, a1 := r.count - 16 })
      { b with rate := [] })

/-- SADDLEBAG_COPY_DONE (R415): the descriptor is complete; the ring resumes after an OPERATOR copy, and a response that waited for
the copy goes on. -/
def execSaddlebagCopyDone (s : State) : Out :=
  .next (match s.bbx.copy with
    | none => s
    | some c =>
      settleCopy (s.modBbx fun b =>
        { b with
          copy := none, frozen := b.frozen && c.cls != clsOperator
          slots := lmod b.slots c.slot fun x => { x with complete := true } }))

/-- A BBX_CMD: the operator's, while no copy is in progress (R421). -/
def bbxCmd (path : Path) (f : State → State) (s : State) : State :=
  if (partyOf s path).isOperator && s.bbx.copy.isNone then f s else s

/-- The commands of BBX_CMD: a snapshot, a hold (never of a fourth slot), a release. -/
def operatorSnapshot (s : State) : State := freeze clsOperator s
def holdSlot (n : Nat) (s : State) : State :=
  s.modBbx fun b => if 3 ≤ count (fun x => Snapshot.held x) b.slots then b else { b with slots := lmod b.slots n fun x => { x with held := true } }
def releaseSlot (n : Nat) (s : State) : State :=
  s.modBbx fun b => { b with slots := lmod b.slots n fun x => { x with held := false } }

/-- OPERATOR_SNAPSHOT, HOLD_SLOT and RELEASE_SLOT (R415, R416, R421). -/
def execOperatorSnapshot (path : Path) (s : State) : Out := .next (regAccess path 0xD0004 (bbxCmd path operatorSnapshot) s)
def execHoldSlot (path : Path) (slot : Nat) (s : State) : Out := .next (regAccess path 0xD0004 (bbxCmd path (holdSlot slot)) s)
def execReleaseSlot (path : Path) (slot : Nat) (s : State) : Out := .next (regAccess path 0xD0004 (bbxCmd path (releaseSlot slot)) s)

/-! ### Operator words of the Tally (R409, R411, R421) -/

/-- Write the selected word; only words from 0x100 on are the operator's. -/
def wordWrite (value : Nat) (s : State) : State :=
  if s.tly.sel < 0x100 then s else tlyWrite s.tly.sel (BitVec.ofNat 32 value) s

/-- TLY_WORD_WRITE. -/
def execTlyWordWrite (path : Path) (value : Nat) (s : State) : Out :=
  .next (regAccess path 0xC0008 (asOperator path (wordWrite value)) s)

end Sys2Proof.Machine
end

