-- ==== Sys2Proof/Machine/Start.lean ====
section
/-! DEFINITION. Starts and the Ivzer image (03 R58 to R76, R460; 04 R84; 09 R285, R465; 12 R374, R376; 13 R401 to R404, R408; 14
R422). -/

namespace Sys2Proof.Machine

open Sys2Proof

/-! ### The phases (Table 3.5) -/

/-- Phases that must have ended before a phase begins. -/
def phaseAfter (n : Nat) : List Nat :=
  nth [[], [], [1], [2], [3], [2], [2], [6], [3], [4, 7], [9], [2], [5, 8, 10, 11], [12]] n []

/-- A phase of the start in progress has begun and not ended. -/
def inPhase (s : State) (n : Nat) : Bool :=
  s.start.active && !s.start.done.contains n && (phaseAfter n).all fun m => s.start.done.contains m

def endPhase (n : Nat) (s : State) : State := s.modStart fun x => { x with done := x.done ++ [n] }

/-- The event that ends a phase. -/
def phaseEnds (n : Nat) (f : State → State) (s : State) : State := if inPhase s n then f (endPhase n s) else s

/-! ### RST_L and CFG_RESTART (R59, R60, R81) -/

/-- RST_L_FALL. -/
def execRstLFall (s : State) : Out :=
  let s := s.modPins fun p => { p with rst := true }
  .next (if s.start.active then s.modStart fun x => { x with active := false, waiting := some x.cold }
    else if serving s then resetCause true s
    else if s.resp.kind != .none && s.resp.stage != .ended then s.modStart fun x => { x with rstLow := true }
    else s)

/-- RST_L_RISE: the start that waits begins, or the one Table 3.1 names for the state being left; while a response runs it is
remembered. -/
def execRstLRise (lines : Lines) (s : State) : Out :=
  .next (if !s.pins.rst then s
    else
      let s := setLines lines (s.modPins fun p => { p with rst := false })
      match s.start.waiting with
      | some cold => beginStart cold s
      | none =>
        if s.resp.kind == .none then s
        else if s.resp.stage == .ended then beginStart (s.resp.kind != .reset) s
        else if s.start.rstLow then s.modStart fun x => { x with rstPulse := true } else s)

/-- A write of the restart key by the operator. -/
def restartWrite (key : Nat) (s : State) : State := if key == 0x5A5A then resetCause false s else s

/-- CFG_RESTART. -/
def execCfgRestart (path : Path) (key : Nat) (s : State) : Out :=
  .next (regAccess path 0x1000C (asOperator path (restartWrite key)) s)

/-! ### Phases 1 and 2 (R17, R20, R22 to R24, R73, R408, R412) -/

/-- Tally is loaded: a word that fails its check reads 0 and is at its limit. -/
def loadTally (bad : List Nat) (s : State) : State :=
  s.modTly fun t => { t with phys := bad.foldl (fun m w => mupd m (t.place w) {} fun p => { p with value := 0, bad := true }) t.phys }

/-- REFCLK_PRESENT: phase 1 loads Tally, writes START as the first event, and takes the next epoch number. -/
def execRefclkPresent (badWords : List Nat) (s : State) : Out :=
  .next (phaseEnds 1 (fun s =>
    let s := loadTally badWords (s.modClk fun c => { c with refPresent := true })
    let e := s.tly.pair 0 + 1
    let ok := s.tly.canPair 0
    let s := if ok then s.modClk fun c => { c with epoch := e } else s
    let s := pairWrite 0 e (emit 0 0 evStart [b2n (!s.start.cold), 0] s)
    if ok then s else memoryFault clsMemory (.other 8 0) 0 [] s) s)

/-- PLL_LOCK: the counter starts at zero; phase 3 has ended too where the outputs are enabled already. -/
def execPllLock (straps : Nat) (s : State) : Out :=
  .next (phaseEnds 2 (fun s =>
    let s := driveMaster (s.modPins fun p => { p with straps := straps })
    let s := s.modClk fun c => { c with pllLocked := true, running := true, count := 0 }
    if s.pins.outputsEnabled then endPhase3 s else s) s)

/-! ### Sections of an image (R66, R84, R376, R422, R460) -/

/-- Fields of the image header (Table 3.2). -/
def imgMagic (img : SlotImage) : Nat := field img.bytes 0x000 4
def imgFormat (img : SlotImage) : Nat := field img.bytes 0x004 2
def imgSections (img : SlotImage) : Nat := field img.bytes 0x006 2
def imgLength (img : SlotImage) : Nat := field img.bytes 0x008 4
def imgRollback (img : SlotImage) : Nat := field img.bytes 0x00C 4
def imgPart (img : SlotImage) : Nat := field img.bytes 0x010 1
def imgStepping (img : SlotImage) : Nat := field img.bytes 0x011 1
def imgBuildId (img : SlotImage) : Nat := field img.bytes 0x014 4
def imgSigner (img : SlotImage) : List Byte := (img.bytes.drop 0x20).take 133

/-- The section directory: entries of 16 bytes from 0x100 on (R65). -/
def imgDir (img : SlotImage) : List DirEntry :=
  (List.range (imgSections img)).map fun i =>
    let b := (img.bytes.drop (0x100 + 16 * i)).take 16
    { typ := field b 0 2, required := bit (field b 2 2) 0, offset := field b 4 4, length := field b 8 4 }

/-- The signed bytes and the signature, the last 132 bytes of the image (R65). -/
def imgSigned (img : SlotImage) : List Byte := img.bytes.take (imgLength img - 132)
def imgSignature (img : SlotImage) : List Byte := (img.bytes.drop (imgLength img - 132)).take 132

/-- Whether the signature verifies (check 0x4), and the image digest (R69). -/
def imgSigOk (img : SlotImage) : Bool := ecdsaVerify (imgSigner img) (imgSigned img) (imgSignature img)
def imgDigest (img : SlotImage) : List Byte := sha512 (imgSigned img)

/-- Section types whose byte layout the manual does not give: PARTITIONS, SPARES, THERMOS, QUOTAS, FTL (log 11). -/
def opaqueSections : List Nat := [2, 4, 5, 6, 10]

/-- The section of a type. -/
def secOf (img : SlotImage) (t : Nat) : Option SecBody :=
  ((imgDir img).find? fun d => d.typ == t).map fun d =>
    if opaqueSections.contains t then ((img.decoded.find? fun x => x.1 == t).map (·.2)).getD .malformed
    else .raw ((img.bytes.drop d.offset).take d.length)

/-- Raw bytes of a section. -/
def rawOf (img : SlotImage) (t : Nat) : List Byte :=
  match secOf img t with
  | some (.raw b) => b
  | _ => []

/-- The partitions declared. -/
def partsOfImage (img : SlotImage) : List PartDecl :=
  match secOf img 2 with
  | some (.partitions ps) => ps
  | _ => []

/-- Node IDs of the CASCADE section. -/
def cascNodesOf (b : List Byte) : List Nat := (List.range 8).map fun q => field b (4 + 2 * q) 2

def nodeOk (n : Nat) : Bool := n != 0 && n != 0xFFFF

/-- The checks of R422. -/
def cascOk (b : List Byte) (self : Nat) : Bool :=
  let n := field b 1 1
  let ids := cascNodesOf b
  decide (1 ≤ n) && decide (n ≤ 8) && decide (field b 0 1 < n) && nth ids (field b 0 1) 0 == self &&
    (ids.take n).all nodeOk && (nodup (ids.take n)).length == n && (ids.drop n).all (· == 0)

/-- The key-management keys present (Table 12.2). -/
def kmKeysOf (b : List Byte) : List (List Byte) :=
  [(b.drop 0).take 133, (b.drop 0x88).take 133].filter fun k => k.any (· != 0)

/-- Whether a section is well formed (R66). -/
def secFormed (img : SlotImage) (d : DirEntry) : Bool :=
  let np := (partsOfImage img).length
  match d.typ, (secOf img d.typ).getD .malformed with
  | 1, .raw b => b.length == 24
  | 2, .partitions _ => true
  | 3, .raw b => b.length == 24 && cascOk b (field (rawOf img 1) 0 2)
  | 4, .spares _ => true
  | 5, .thermos _ => true
  | 6, .quotas q => q.length == np && q.all fun r => r.length == 5
  | 7, .raw b => decide (68 ≤ b.length) && b.length == 68 + 68 * field b 0x40 4
  | 8, .raw b => b.length == 272 && !(kmKeysOf b).isEmpty
  | 9, .raw b => b.length % 16 == 0
  | 10, .ftl _ _ => true
  | 11, .raw _ => true
  | 12, .raw _ => true
  | t, _ => t == 0 || decide (12 < t)

/-- The nine checks of R84. -/
def portsOk (b : List Byte) : Bool :=
  let ports := (List.range 16).map fun n => field b (8 + n) 1
  let torus := ports.filter fun p => bit p 0
  let dims := torus.map fun p => (bits p 1 2, bits p 3 1)
  let k := fun (d : Nat) => field b (4 + d) 1
  let sizeOk := fun (d : Nat) =>
    let plus := dims.contains (d, 0)
    let minus := dims.contains (d, 1)
    let x := k d
    decide (1 ≤ x) && decide (x ≤ 16) &&
      (if 3 ≤ x then plus && minus else if x == 2 then plus && !minus else !plus && !minus)
  let node := field b 0 2
  decide (torus.length ≤ 6) && (dims.all fun x => x.1 != 3) && (nodup dims).length == dims.length &&
    (List.range 3).all sizeOk && ports.any (fun p => !bit p 0) && nodeOk node &&
    (torus.isEmpty || (field b 2 2 % 0x1000 == 0 && field b 2 2 / 0x1000 == node / 0x1000 && (List.range 3).all fun d => decide (coordOf node d < k d)))

/-- Partitions: 1 to 16 non-empty sets, every cluster in exactly one. -/
def partsOk (ps : List PartDecl) : Bool :=
  let all := ps.flatMap (·.clusters)
  decide (1 ≤ ps.length) && decide (ps.length ≤ 16) && (ps.all fun p => !p.clusters.isEmpty) && all.length == 32 &&
    (nodup all).length == 32 && all.all fun c => decide (c < 32)

/-- Preload records of the MODELS section: slot and descriptor. -/
def preloadsOf (b : List Byte) : List (Nat × List Byte) :=
  (List.range (field b 0x40 4)).map fun i => (field b (68 + 68 * i) 1, (b.drop (72 + 68 * i)).take 64)

/-- Partition of each model slot; by default an equal share, rounded down. -/
def slotPartsOf (img : SlotImage) : List (Option Nat) :=
  let np := (partsOfImage img).length
  match secOf img 7 with
  | some (.raw b) => (List.range 64).map fun i => let x := field b i 1; if bit x 7 then some (x % 16) else none
  | _ => (List.range 64).map fun i => if i / (64 / np) < np then some (i / (64 / np)) else none

/-- The checks of R460. -/
def modelsOk (img : SlotImage) : Bool :=
  match secOf img 7 with
  | some (.raw b) =>
    let ps := preloadsOf b
    let own := slotPartsOf img
    (own.all fun o => o.all fun p => decide (p < (partsOfImage img).length)) && decide (field b 0x40 4 ≤ 64) &&
      (ps.all fun x => decide (x.1 < 64) && (nth own x.1 none).isSome && modelOk x.2) && (nodup (ps.map (·.1))).length == ps.length
  | _ => true

/-- COSTS entries. -/
def costsOf (b : List Byte) : List Cost :=
  (List.range (b.length / 16)).map fun i =>
    { op := field b (16 * i) 1, codec := field b (16 * i + 1) 1, tier := field b (16 * i + 2) 1, fixed := field b (16 * i + 4) 4
      perUnit := field b (16 * i + 8) 4 }

/-- The check of a COSTS section: at most 1,024 entries, and one for each op with a prior. -/
def costsOk (b : List Byte) : Bool :=
  decide (b.length ≤ 16384) &&
  [opKvFetch, opKvPrefetch, opAttnDecode, opAttnChunk, opAttnBwd, opWtStream].all fun o => (costsOf b).any fun c => c.op == o

/-- Buffer fraction and fine-map budget, by default 2 % and 4 GiB. -/
def ftlOf (img : SlotImage) : Nat × Nat :=
  match secOf img 10 with
  | some (.ftl p m) => (p, m)
  | _ => (2, 4096)

/-! ### Capacities and quotas (R285, R465) -/

/-- Hamper, HBM and entry capacities, fixed when the image is accepted: clusters in service, partitions, fine-map budget. -/
def capHamper (clusters np : Nat) : Nat := (8 * clusters - 4 * np) * 16
def capHbm (fineMiB : Nat) : Nat := (2 ^ 40 - hbmReserved fineMiB) / 0x200000
def capEntries : Nat := 270524416

/-- SLC and bulk capacities as the check at acceptance takes them: 768 dies of 4 Tbit at 3 bits per cell, reserve blocks of 16 MiB
(log 7). -/
def capSlcMost (percent : Nat) : Nat := (768 * (2 ^ 39 * percent / 300) - 96 * 2 ^ 24) / 0x4000000
def capBulkMost : Nat := 89877942 / 16

/-- SLC and bulk capacities of the dies present. -/
def capSlc (s : State) : Nat := (s.ftl.dies.length * oneBitPerDie s * oneBitBlock s.ftl - reserveBytes s.ftl) / 0x4000000
def capBulk (s : State) : Nat := logicalUnits s.ftl / 16

/-- Clusters not withdrawn. -/
def clustersIn (s : State) : Nat := count (fun c => !bit (spareNat s (clWord c)) 16) (List.range 32)

/-- The sums of a QUOTAS section against the capacities at acceptance. -/
def quotasOk (s : State) (img : SlotImage) : Bool :=
  match secOf img 6 with
  | some (.quotas q) =>
    let (pct, fine) := ftlOf img
    let caps := [capHamper (clustersIn s) (partsOfImage img).length, capHbm fine, capSlcMost pct, capBulkMost, capEntries]
    (List.range 5).all fun k => decide (sum (q.map fun r => nth r k 0) ≤ nth caps k 0)
  | _ => true

/-- Write the default quotas of tiers `ks`; a word that holds its default is not written. -/
def writeQuotas (ks : List Nat) (s : State) : State :=
  match s.img.cur with
  | none => s
  | some i =>
    forEach (List.range i.parts.length) (fun p s => forEach ks (fun k s =>
      let v := match i.quotas with
        | some q => nth (nth q p []) k 0
        | none => tierCap s k * (nth i.parts p { clusters := [], spaceOnly := false }).clusters.length / 32
      let w := 0x050 + 5 * p + k
      if tlyNat s w == v then s else tlyWrite w (BitVec.ofNat 32 v) s) s) s

/-- The flash capacities and default quotas, known once the image is accepted and ONFI training has ended. -/
def settleFlashCaps (s : State) : State :=
  if s.start.done.contains 4 && s.start.done.contains 8 then
    writeQuotas [2, 3] (s.modTier fun t => { t with cap := lput (lput t.cap 2 (capSlc s)) 3 (capBulk s) })
  else s

/-! ### The checks of an image in order (R67, Table 3.4) -/

/-- The image root that matches a signer key (R374). -/
def rootFor (s : State) (key : List Byte) : Option Nat :=
  let d := sha512 key
  (List.range 4).find? fun n => let r := nth s.sec.roots n {}; r.programmed && !r.revoked && r.digest == d

/-- Check 0x2. -/
def dirOk (img : SlotImage) : Bool :=
  let n := imgSections img
  let first := 0x100 + 16 * n
  (imgFormat img) == 1 && decide (1 ≤ n) && decide (n ≤ 32) && decide (imgLength img ≤ 0x2000000) && decide (first + 132 ≤ (imgLength img)) &&
    ((imgDir img).all fun d => d.offset % 4096 == 0 && decide (first ≤ d.offset) && decide (d.offset + d.length ≤ (imgLength img) - 132)) &&
    ((List.range n).all fun i => (List.range n).all fun j =>
      i == j || (match (imgDir img)[i]?, (imgDir img)[j]? with
        | some a, some b => a.typ != b.typ && (decide (a.offset + a.length ≤ b.offset) || decide (b.offset + b.length ≤ a.offset))
        | _, _ => false))

/-- Check 0x7: what is required is there, and what is there is well formed. -/
def sectionsOk (img : SlotImage) : Bool :=
  ([1, 2, 3, 5, 8, 9, 11, 12].all fun t => (secOf img t).isSome) &&
    (imgDir img).all fun d => secFormed img d && !(d.required && (d.typ == 0 || decide (12 < d.typ)))

/-- Check 0x8. -/
def valuesOk (s : State) (img : SlotImage) : Bool :=
  let (pct, fine) := ftlOf img
  let spares := match secOf img 4 with
    | some (.spares v) => v
    | _ => true
  portsOk (rawOf img 1) && partsOk (partsOfImage img) && spares && quotasOk s img && modelsOk img && costsOk (rawOf img 9) &&
    decide (1 ≤ pct) && decide (pct ≤ 6) && decide (fine ≤ 4096)

/-- The declared bank energy. -/
def energyOf (img : SlotImage) : Nat :=
  match secOf img 5 with
  | some (.thermos u) => u
  | _ => 0

/-- The code of the first check that fails, 0 when all ten pass. -/
def checkImage (s : State) (img : SlotImage) : Nat :=
  if !(img.readOk && (imgMagic img) == 0x525A5649) then 1
  else if !dirOk img then 2
  else if (rootFor s (imgSigner img)).isNone then 3
  else if !(imgSigOk img) then 4
  else if !(imgPart img == 7 && (imgStepping img) == 0xC0) then 5
  else if (imgRollback img) < (s.tly.pair 2).toNat then 6
  else if !sectionsOk img then 7
  else if !valuesOk s img then 8
  else if field (rawOf img 3) 0 1 != s.pins.straps then 9
  else if 160 < energyOf img then 10
  else 0

/-- The static shape of an accepted image. Of a SPARES section the manual defines no content, only that the default policy is that of
13: the model keeps that one was present and always runs that policy (log 11). -/
def imageOf (img : SlotImage) : Image :=
  let p := rawOf img 1
  let c := rawOf img 3
  { nodeId := field p 0 2, torusBase := field p 2 2, kx := field p 4 1, ky := field p 5 1, kz := field p 6 1
    ports := (List.range 16).map fun n => field p (8 + n) 1
    parts := partsOfImage img, partsRaw := partsOfImage img
    cascPos := field c 0 1, cascSize := field c 1 1, cascNodes := cascNodesOf c
    eDeclared := energyOf img
    quotas := match secOf img 6 with
      | some (.quotas q) => some q
      | _ => none
    slotPart := slotPartsOf img, preloads := preloadsOf (rawOf img 7), modelsRaw := rawOf img 7
    kmKeys := kmKeysOf (rawOf img 8), costs := costsOf (rawOf img 9)
    spares := (secOf img 4).isSome
    bufPercent := (ftlOf img).1, fineMiB := (ftlOf img).2
    ucode := rawOf img 11, skoma := rawOf img 12
    rollback := imgRollback img, buildId := imgBuildId img
    sections := maskOf (((imgDir img).filter fun d => decide (1 ≤ d.typ) && decide (d.typ ≤ 12)).map fun d => d.typ - 1)
    digest := imgDigest img }

/-- Roles of the ports (R83, Table 4.1). A FABRIC port's dimension and direction bits are ignored; STATUS shows them as the image has
them, which the manual leaves open (log 37). -/
def assignPorts (i : Image) (s : State) : State :=
  s.modLink fun l => { l with ports := (List.range l.ports.length).map fun n =>
    let x := nth i.ports n 0
    { nth l.ports n {} with torus := bit x 0, dim := bits x 1 2, dir := bits x 3 1 } }

/-- NOR address of a slot (R62). -/
def slotAddr (slotB : Bool) : Nat := if slotB then 0x2000000 else 0

/-- What is read of a slot, address and length, whose first failing check is `code` (R67): the header, then the directory, then the
rest of the image. -/
def slotReads (slotB : Bool) (img : SlotImage) (code : Nat) : List (Nat × Nat) :=
  let a := slotAddr slotB
  let d := 16 * (imgSections img)
  (a, 0x100) :: (if code == 1 then [] else (a + 0x100, d) ::
    (if code == 2 || code == 3 then [] else [(a + 0x100 + d, (imgLength img) - 0x100 - d)]))

/-- The NOR is released: XSPI_RESET_L is driven high and every other XSPI output is at high impedance (R63). -/
def releaseNor (s : State) : State :=
  (s.modStart fun x => { x with norReleased := true }).modPins fun p => { p with xspiReset := true, xspiDriven := false }

/-- What the acceptance of an image sets (R41 to R43, R66, R129, R285, R356, R374, R412). -/
def acceptImage (slotB : Bool) (img : SlotImage) (s : State) : State :=
  let i := imageOf img
  let root := rootFor s (imgSigner img)
  let s := releaseNor (s.modImg fun x => { x with accepted := true, slotB := slotB, cur := some i })
  let s := emit 0 0 evImageAccept [b2n slotB, i.buildId, i.rollback] s
  let s := assignPorts i (s.modSec fun c => { c with matched := root })
  let first := ceilDiv (hbmReserved i.fineMiB) 4096
  let s := s.modHbm fun h => { h with free := splitFrames i.parts (2 ^ 28 - first) first }
  let s := s.modSeqs fun q => { q with md := i.preloads.foldl (fun m x => mset m x.1 (mdHeld x.2)) q.md }
  let s := s.modSch fun x => { x with pred := i.costs }
  let s := s.modTier fun t =>
    { t with cap := [capHamper (clustersIn s) i.parts.length, capHbm i.fineMiB, nth t.cap 2 0, nth t.cap 3 0, capEntries] }
  let s := formEnergy (s.modPwr fun p => { p with eDeclared := i.eDeclared })
  driveMaster (settleFlashCaps (writeQuotas [0, 1, 4] (endPhase 4 s)))

/-- IMAGE_SLOT_CHECKED (R63, R67, R70): slot B is read when slot A is rejected. -/
def execImageSlotChecked (img : SlotImage) (s : State) : Out :=
  .next (if !inPhase s 4 then s
    else
      let code := checkImage s img
      let s := s.modStart fun x => { x with norReads := x.norReads ++ slotReads x.readB img code }
      if code == 0 then acceptImage s.start.readB img s
      else if s.start.readB then
        imageFault (releaseNor (s.modImg fun x => { x with rejectB := code }))
      else (s.modImg fun x => { x with rejectA := code }).modStart fun x => { x with readB := true })

/-! ### The other phases -/

/-- SENSOR_TRIM_DONE. -/
def execSensorTrimDone (s : State) : Out := .next (phaseEnds 5 id s)

/-- A row repaired by PPR (R401). -/
def pprRepair (stack row : Nat) (s : State) : State :=
  let w := spareNat s (stackWord stack)
  emit 4 stack evHbmRepair [0, row] (spareSet (stackWord stack) (putBits w 12 8 (bits w 12 8 + 1)) s)

/-- HBM_TRAINING_DONE (Table 3.6): a channel that fails after repair is fatal. -/
def execHbmTrainingDone (ppr : List (Nat × Nat)) (failed : Option Nat) (s : State) : Out :=
  .next (if !inPhase s 6 then s
    else
      let s := forEach ppr (fun x s => pprRepair x.1 x.2 s) s
      match failed with
      | some n => memoryFault clsMemory (.hbm n) 0 [] s
      | none => endPhase 6 s)

/-- HBM_ZERO_DONE. -/
def execHbmZeroDone (s : State) : Out := .next (phaseEnds 7 id s)

/-- The part meets Table 10.1, as far as its parameter page's numbers say. -/
def partOk (g : Geometry) : Bool :=
  (g.tbit == 1 || g.tbit == 2 || g.tbit == 4) && (g.bitsPerCell == 3 || g.bitsPerCell == 4) && decide (192 ≤ g.wordlines) && decide (g.wordlines ≤ 512)

/-- ONFI_TRAINING_DONE (R302, Table 3.6): channels offline, with the reason; the dies present, as (channel, target), on the others. With a
part that does not meet Table 10.1 no channel is brought up. -/
def execOnfiTrainingDone (geo : Geometry) (present offline : List (Nat × Nat)) (s : State) : Out :=
  .next (phaseEnds 8 (fun s =>
    let offline := if partOk geo then offline
      else offline ++ ((List.range 48).filter fun c => !(offline.any fun x => x.1 == c)).map fun c => (c, 2)
    let off := nodup (offline.map (·.1))
    let dies := (nodup ((present.filter fun x => !off.contains x.1).map fun x => 16 * x.1 + x.2))
    let s := s.modFtl fun f => { f with geo := geo, dies := sortBy (fun a b => decide (a < b)) dies, offline := off }
    settleFlashCaps (forEach offline (fun x s => emit 7 x.1 evChannel [x.2] s) s)) s)

/-- A Tally word that fails its check moves to a spare; with none left the fault is fatal (Table 3.6). -/
def failTallyWord (w : Nat) (s : State) : State :=
  let v := s.tly.word w
  let s := s.modTly fun t => { t with copy := mset t.copy w v, phys := mupd t.phys (t.place w) {} fun p => { p with bad := true } }
  let none_ := s.tly.freeSpare.isNone
  let s := tlyWrite w v s
  if none_ then memoryFault clsMemory (.other 8 0) w [] s else s

/-- A Hamper row that fails its check (R402). -/
def failRow (c row : Nat) (s : State) : State :=
  let (ok, s) := replaceRow c row s
  if ok then s else memoryFault clsMemory (.other 1 c) row [] s

/-- ARRAY_CHECKS_DONE (Table 3.6, R400, R402, R409). A fatal fault ends the start. -/
def execArrayChecksDone (banks : List Nat) (rows : List (Nat × Nat)) (tally : List Nat) (s : State) : Out :=
  .next (phaseEnds 9 (fun s =>
    let s := forEach tally (fun w s => if s.start.active then failTallyWord w s else s) s
    let s := forEach banks (fun b s => if s.start.active then failBank b s else s) s
    forEach rows (fun x s => if s.start.active then failRow x.1 x.2 s else s) s) s)

/-- CORE_SELF_TEST_DONE (Table 3.6, R399): cores by cluster and physical slot. -/
def execCoreSelfTestDone (bad : List (Nat × Nat)) (s : State) : Out :=
  .next (phaseEnds 10 (forEach bad fun x s => retireCore x.1 x.2 s) s)

/-! ### Optical calibration (R86, R404) -/

/-- The lane λ8 stands in for: none when all of λ0 to λ7 pass; failed when two fail, or one and λ8 itself. -/
inductive LaneFit where
  | clear
  | sub (lane : Nat)
  | failed
  deriving DecidableEq, Repr

def fitLanes (bad : List Nat) : LaneFit :=
  let low := nodup (bad.filter fun l => decide (l < 8))
  match low with
  | [] => .clear
  | [l] => if bad.contains 8 then .failed else .sub l
  | _ => .failed

def LaneFit.lane : LaneFit → Nat
  | .sub l => l
  | _ => 15

/-- Calibrate one port: its lanes, its state and its word, with an event for what the word gains. -/
def calibratePort (n : Nat) (c : LaneCal) (s : State) : State :=
  let tx := fitLanes c.txBad
  let rx := fitLanes c.rxBad
  let dead := tx == .failed || rx == .failed
  let was := spareNat s (portWord n)
  let w := putBits (putBits (putBits was 0 4 tx.lane) 4 4 rx.lane) 8 1 (b2n dead)
  let s := modPort n (fun p =>
    { p with txSub := tx.lane, rxSub := rx.lane, state := if dead then .failed else if p.state == .failed then .down else p.state }) s
  let s := spareSet (portWord n) w s
  let sub := fun (dir : Nat) (f : LaneFit) (s : State) => match f with
    | .sub l => if bits was (4 * dir) 4 == l then s else emit 5 n evLaneSub [dir, l] s
    | _ => s
  let fail := fun (dir : Nat) (f : LaneFit) (s : State) => if f == .failed && !bit was 8 then emit 5 n evPortFailed [dir] s else s
  fail 1 rx (fail 0 tx (sub 1 rx (sub 0 tx s)))

/-- Calibrate the bays: powers recorded anew, which every seated bay is then within 1.5 dB of, and bay 4 for the lowest group whose bay is
absent or cannot light its ports. -/
def calibrateBays (bays : List BayCal) (s : State) : State :=
  let bayAt := fun (b : Nat) => nth bays b { present := false, power := 0, lightsAll := false }
  let good := fun (b : Nat) => (bayAt b).present && (bayAt b).lightsAll
  let lacking := (List.range 4).find? fun b => !good b
  let serves := match lacking with
    | some b => if good 4 then b else 7
    | none => 7
  let was := spareNat s laserWord
  let worn := sum ((List.range 5).map fun b => if bit was (3 + b) && !good b then 2 ^ b else 0)
  let s := s.modLink fun l =>
    { l with
      bays := (List.range 5).map fun b =>
        let c := bayAt b
        { present := c.present, ok := c.present, power := if c.present then c.power else 0, recorded := if c.present then c.power else 0 }
      spareServes := serves
      ports := (List.range l.ports.length).map fun n => { nth l.ports n {} with bay := if n / 4 == serves then 4 else n / 4 } }
  let s := spareSet laserWord (putBits (putBits was 0 3 serves) 3 5 worn) s
  if serves != 7 && bits was 0 3 != serves then emit 6 serves evLaserSpare [serves] s else s

/-- OPTICAL_CALIBRATION_DONE. -/
def execOpticalCalibrationDone (bays : List BayCal) (lanes : List LaneCal) (s : State) : Out :=
  .next (phaseEnds 11 (fun s =>
    calibrateBays bays (forEach (List.range 16) (fun n s => calibratePort n (nth lanes n { txBad := [], rxBad := [] }) s) s)) s)

/-! ### RDY (R68, R74) -/

/-- SERVICE_START_DONE. -/
def execServiceStartDone (s : State) : Out := .next (phaseEnds 12 id s)

/-- RDY_ASSERT: the count is recorded and a rollback counter above the floor is written. -/
def execRdyAssert (s : State) : Out :=
  .next (if !(inPhase s 13 && s.pins.outputsEnabled && s.img.accepted) then s
    else
      let s := (endPhase 13 s).modStart fun x => { x with active := false, rdyTime := now s % 2 ^ 32 }
      let floor := (s.img.cur.map (·.rollback)).getD 0
      let s := if (s.tly.pair 2).toNat < floor then pairWrite 2 (BitVec.ofNat 32 floor) s else s
      refreshView (s.modPins fun p => { p with rdy := true }))

end Sys2Proof.Machine
end

