-- ==== Sys2Proof/Machine/Peek.lean ====
section
/-! DEFINITION. What each register of the management window shows, block by block (Tables 1.7 to 1.11, 2.8 to 2.12, 3.8 to 3.10,
4.13 to 4.16, 5.15, 5.16, 6.11, 6.12, 7.13, 7.14, 8.9, 8.10, 9.12, 9.13, 10.16, 10.17, 11.7, 11.8, 12.11, 12.12, 13.11, 13.12,
14.6, 14.7, 15.9 to 15.11). An offset that no register occupies reads 0 (R450), and so does a WO field (R456). -/

namespace Sys2Proof.Machine

open Sys2Proof

/-- Index of an offset in an array of `n` registers at base + stride × i. -/
def idx (o base stride n : Nat) : Option Nat :=
  if o < base || (o - base) % stride != 0 || n ≤ (o - base) / stride then none else some ((o - base) / stride)

/-- A field of `w` bits at a shift. -/
def fld (sh w v : Nat) : Nat × Nat := (sh, v % 2 ^ w)

/-- Word `k` of a staging or digest area of bytes. -/
def wordOf (bs : List Byte) (k : Nat) : Nat := field bs (4 * k) 4

/-! ### TOP_ and CFG_ -/

/-- ATTN_LED as TOP_STATUS shows it. -/
def ledCode : Led → Nat
  | .off => 0
  | .blink1 => 1
  | .steady => 2
  | .blink4 => 3

/-- The high words a path's latches hold (R455). -/
def latches (path : Path) (s : State) : List Nat :=
  match path with
  | .i3c => s.mgmt.latI3c
  | .dorlink _ => s.mgmt.latDl

/-- TOP_. TOP_EPOCH is the epoch at the access: R27's "same access sequence" is taken as one access (R453), so a read of it in a later
access gives the epoch current then (log 47). -/
def topReg (lat : List Nat) (s : State) (o : Nat) : Nat :=
  match o with
  | 0x000 => 0x0B3DC007
  | 0x008 => lo32 Config.serial
  | 0x00C => hi32 Config.serial
  | 0x010 => pack [flagAt 0 s.pins.rdy, flagAt 1 s.pins.faultLow, fld 2 4 s.resp.fatalClass, flagAt 6 s.pins.thermLow,
      fld 7 2 (ledCode s.pins.ledShown), flagAt 9 s.pwr.safeToPull]
  | 0x014 => 0xFFFF
  | 0x100 => pack [flagAt 0 s.clk.pllLocked, flagAt 1 s.clk.holdover, flagAt 2 s.clk.refPresent]
  | 0x108 => lo32 (now s)
  | 0x10C => nth lat 0 0
  | 0x110 => epochNo s
  | 0x114 => pack [flagAt 0 s.clk.lastCause, flagAt 1 s.clk.prewritten]
  | 0x120 => 0x43084020
  | _ => 0

/-- CFG_START.phase: the response begun last, or how far the start has come. -/
def startPhase (s : State) : Nat :=
  let x := s.start
  let begun := fun (n : Nat) => x.done.contains n || inPhase s n
  if x.phase != 0 then x.phase
  else if x.done.contains 13 then 5
  else if begun 12 then 4
  else if begun 9 then 3
  else if x.done.contains 2 then 2
  else b2n (x.done.contains 1)

/-- CFG_. -/
def cfgReg (s : State) (o : Nat) : Nat :=
  match o with
  | 0x00 => pack [flagAt 0 s.img.accepted, flagAt 1 s.img.slotB, fld 2 4 s.img.rejectA, fld 6 4 s.img.rejectB,
      fld 16 12 ((s.img.cur.map (·.sections)).getD 0)]
  | 0x04 => pack [fld 0 4 (startPhase s), flagAt 4 (!s.start.cold), flagAt 5 s.start.norReleased, flagAt 6 s.start.wearReady,
      fld 7 9 s.start.regions.length, flagAt 16 (s.start.wearReady && !s.ftl.onDemand.isEmpty)]
  | 0x08 => (s.tly.pair 2).toNat
  | 0x10 => s.start.rdyTime % 2 ^ 32
  | 0x14 => (s.img.cur.map (·.buildId)).getD 0 % 2 ^ 32
  | _ => match idx o 0x40 4 16 with
    | some k => wordOf ((s.img.cur.map (·.digest)).getD []) k
    | none => 0

/-! ### LNK_ and RNG_ -/

/-- LNK_PORTn_STATUS. -/
def portStatus (p : Port) : Nat :=
  let st := match p.state with
    | .down => 0
    | .training => 1
    | .up => 2
    | .failed => 3
  pack [(0, st), flagAt 2 p.torus, fld 3 2 p.dim, fld 5 1 p.dir, fld 6 4 p.txSub, fld 10 4 p.rxSub, fld 14 3 p.bay]

/-- One register of a port. -/
def portReg (p : Port) (o : Nat) : Nat :=
  match o with
  | 0x00 => portStatus p
  | 0x04 => sat32 p.fec
  | 0x08 => sat32 p.retry
  | 0x0C => sat32 p.authFail
  | 0x10 => sat32 p.replay
  | 0x14 => sat32 p.nokey
  | 0x18 => p.peer % 2 ^ 16
  | _ => 0

/-- LNK_NODE and LNK_TORUS, 0 until an image is accepted. -/
def nodeReg (s : State) : Nat :=
  match s.img.cur with
  | none => 0
  | some i => pack [fld 0 16 i.nodeId, fld 16 16 i.torusBase]
/-- LNK_TORUS: the coordinates are bits of the node ID (R106), and are shown so too where no port has the TORUS role, which the manual
leaves open (log 47). -/
def torusReg (s : State) : Nat :=
  match s.img.cur with
  | none => 0
  | some i => pack [fld 0 4 (coordOf i.nodeId 0), fld 4 4 (coordOf i.nodeId 1), fld 8 4 (coordOf i.nodeId 2), fld 12 4 (i.kx - 1),
      fld 16 4 (i.ky - 1), fld 20 4 (i.kz - 1)]

/-- LNK_. -/
def lnkReg (s : State) (o : Nat) : Nat :=
  if o < 0x400 then portReg (nth s.link.ports (o / 0x40) {}) (o % 0x40)
  else match o with
    | 0x800 => pack [fld 0 5 (maskOf ((List.range 5).filter fun b => (nth s.link.bays b {}).present)),
        fld 5 5 (maskOf ((List.range 5).filter fun b => (nth s.link.bays b {}).ok)), fld 10 3 s.link.spareServes]
    | 0x900 => nodeReg s
    | 0x904 => torusReg s
    | _ => match idx o 0x810 4 5 with
      | some b => signedField 16 (nth s.link.bays b {}).power
      | none => 0

/-- RNG_. -/
def rngReg (s : State) (o : Nat) : Nat :=
  match o with
  | 0x00 => s.rng.sel % 2 ^ 14
  | 0x08 => pack [flagAt 0 s.rng.busy, flagAt 1 s.rng.err]
  | 0x0C => sat32 s.rng.discards
  | _ => match idx o 0x40 4 16 with
    | some k => wordOf s.rng.entry k
    | none => 0

/-! ### PWU_ and PMA_ -/

/-- PWU_LADDER_p_s. -/
def ladderReg (s : State) (o : Nat) : Nat :=
  if 0x14 ≤ o % 0x20 then 0 else sat32 (nth (mgetD s.seqs.ladder ((o - 0x200) / 0x20) []) (o % 0x20 / 4) 0)

/-- PWU_PLB_HIT_c and PWU_PLB_MISS_c. -/
def plbReg (s : State) (o : Nat) : Nat :=
  let c := (o - 0x500) / 8
  sat32 (if o % 8 == 0 then mgetD s.seqs.plbHit c 0 else mgetD s.seqs.plbMiss c 0)

/-- PWU_. -/
def pwuReg (s : State) (o : Nat) : Nat :=
  if o < 0x40 then match o with
    | 0x00 => s.seqs.mdSel % 64
    | 0x08 => pack [flagAt 0 s.seqs.mdBusy, flagAt 1 s.seqs.mdErr, flagAt 2 (mhas s.seqs.md s.seqs.mdSel),
        fld 8 24 (count (fun (q : Nat × Seq) => q.2.model == s.seqs.mdSel) s.seqs.tab)]
    | _ => 0
  else if o < 0x80 then wordOf s.seqs.mdData ((o - 0x40) / 4)
  else if o < 0x100 then 0
  else if o < 0x140 then
    let r := mgetD s.seqs.tktRing ((o - 0x100) / 4) (0, false)
    pack [fld 0 14 r.1, flagAt 31 r.2]
  else if o < 0x180 then (mgetD s.seqs.tickets ((o - 0x140) / 4) []).length % 2 ^ 13
  else if o < 0x1C0 then sat32 (mgetD s.seqs.tktLost ((o - 0x180) / 4) 0)
  else if o < 0x200 then 0
  else if o < 0x400 then ladderReg s o
  else if o < 0x440 then spillUsed s ((o - 0x400) / 4) % 2 ^ 23
  else if o < 0x500 then 0
  else if o < 0x600 then plbReg s o
  else match o with
    | 0x600 => s.seqs.tab.length % 2 ^ 25
    | 0x604 => s.seqs.tktNext % 2 ^ 32
    | _ => 0

/-- Phases A or B are in progress: at the master from the first beat it drives to the last that comes back, at a member from the first
beat it receives to the last (R206, R207). -/
def phasesOn (s : State) : Bool :=
  match s.casc.stirrup with
  | none => false
  | some st => decide (st.beat < 2 * st.count) && (s.casc.lookup.isSome || st.beat != 0)

/-- PMA_CASC: the straps stand for the position, and position 0 reads as the master, until an image is accepted. -/
def cascReg (s : State) : Nat :=
  match s.img.cur with
  | none => pack [fld 0 3 s.pins.straps, flagAt 6 (isMaster s), flagAt 7 (phasesOn s)]
  | some i => pack [fld 0 3 s.pins.straps, fld 3 3 (i.cascSize - 1), flagAt 6 (isMaster s), flagAt 7 (phasesOn s)]

/-- PMA_CASC_NODE_q. -/
def cascNodeReg (s : State) (q : Nat) : Nat :=
  let p := nth s.casc.pos q {}
  pack [fld 0 16 (cascNode s q), flagAt 16 (p.live || (s.pins.rdy && q == cascPos s)), flagAt 17 p.digestBad]

/-- PMA_BANK_FREE_b. -/
def bankFreeReg (s : State) (b : Nat) : Nat :=
  pack [fld 0 17 (65280 - count (fun (r : Nat × Row) => r.1 / 65536 == b) s.pfx.rows), fld 17 6 (physBank (spareNat s bankWord) b)]

/-- PMA_. -/
def pmaReg (s : State) (o : Nat) : Nat :=
  let x := s.pfx
  match o with
  | 0x000 => pack [fld 0 9 x.pol.length, flagAt 9 x.polBusy, flagAt 10 x.polErr, flagAt 11 (decide (1024 ≤ x.pending.length))]
  | 0x004 => x.polSel % 256
  | 0x00C => pack [fld 0 16 x.polVal, fld 16 16 x.polMask]
  | 0x010 => x.polAct % 4
  | 0x020 => cascReg s
  | 0x024 => pack [fld 0 16 s.casc.view, fld 16 8 s.casc.mask, flagAt 24 (stirrupMode s), fld 25 3 s.casc.masterPos]
  | 0x200 => sat32 x.searches
  | 0x204 => sat32 x.tagHits
  | 0x208 => sat32 x.verifyFail
  | 0x20C => sat32 x.patrolFix
  | 0x210 => sat32 x.ovfTags
  | 0x214 => x.ovf.length % 2 ^ 29
  | 0x218 => count (fun (b : Nat × Block) => b.2.state == .published) x.blocks % 2 ^ 26
  | 0x21C => sat32 x.pubOk
  | 0x220 => sat32 x.pubAlready
  | 0x224 => sat32 x.pubDivergent
  | 0x228 => s.casc.exports.length % 2 ^ 21
  | 0x22C => s.casc.imports.length % 2 ^ 21
  | 0x230 => sat32 s.casc.viewChanges
  | 0x234 => sat32 s.casc.dorlinkResolve
  | 0x238 => sat32 s.casc.peerRefused
  | 0x23C => sat32 s.casc.peerSwept
  | _ => match idx o 0x030 4 8, idx o 0x050 4 8, idx o 0x100 4 32 with
    | some q, _, _ => cascNodeReg s q
    | none, some q, _ => (nth s.casc.pos q {}).epoch % 2 ^ 32
    | none, none, some b => bankFreeReg s b
    | none, none, none => 0

/-! ### ATN_ and CDC_ -/

/-- Work units queued or on cores. -/
def unitsShown (s : State) : Nat :=
  count (fun (u : Nat × WUnit) => match u.2.st with
    | .saved .. => false
    | _ => true) s.attn.units

/-- ATN_. -/
def atnReg (lat : List Nat) (s : State) (o : Nat) : Nat :=
  let x := s.attn
  match o with
  | 0x000 => pack [flagAt 0 x.splitEn, flagAt 1 x.groupEn]
  | 0x004 => min 0xFFFF (unitsShown s)
  | 0x120 => lo32 x.keys
  | 0x124 => nth lat 1 0
  | 0x128 => sat32 x.grouped
  | 0x12C => sat32 x.split
  | 0x130 => sat32 x.skippedPages
  | 0x134 => sat32 x.tolRows
  | 0x138 => sat32 x.failed
  | 0x13C => sat32 x.tilesSent
  | 0x140 => sat32 x.tilesLate
  | 0x144 => sat32 x.tilesResent
  | 0x148 => sat32 x.prefetched
  | _ => match idx o 0x100 4 5 with
    | some k => sat32 (nth x.ops k 0)
    | none => 0

/-- Sealed pages in HBM without metadata. -/
def pagesNoMeta (s : State) : Nat :=
  count (fun (x : PageAt × Page) => x.2.sealed && x.2.tier == .hbm && !x.2.hasMeta) (allPages s)

/-- CDC_. -/
def cdcReg (s : State) (o : Nat) : Nat :=
  let x := s.cdc
  match o with
  | 0x000 => count (fun (e : EncItem) => e.run.isNone && !e.metaOnly) x.encQ % 2 ^ 24
  | 0x004 => pagesNoMeta s % 2 ^ 24
  | 0x110 => sat32 x.kept
  | 0x114 => sat32 x.e8Sat
  | 0x118 => sat32 x.outliers
  | 0x11C => sat32 x.cut
  | 0x120 => sat32 x.trim
  | 0x124 => sat32 x.tilesStored
  | 0x128 => sat32 x.tilesExpanded
  | 0x12C => sat32 x.tableMiss
  | _ => match idx o 0x104 4 3 with
    | some k => sat32 (nth x.enc k 0)
    | none => 0

/-! ### TIER_ and FTL_ -/

/-- TIER_EXT_INFO; an extent being zeroed is not yet granted and reads FREE. -/
def extInfo (s : State) : Nat :=
  let show_ := fun (st : Nat) (x : Extent) => pack [(0, st), fld 2 6 x.log2, fld 8 4 x.part, fld 12 14 x.grace]
  match mget s.ext.table s.ext.sel with
  | none => 0
  | some x => match x.state with
    | .active => show_ 1 x
    | .revoking => show_ 2 x
    | _ => 0

/-- TIER_QUOTA_p_k and TIER_USED_p_k. -/
def quotaReg (s : State) (o : Nat) : Nat := if 0x14 ≤ o % 0x20 then 0 else tlyNat s (quotaWord (o / 0x20) (o % 0x20 / 4))
def usedReg (s : State) (o : Nat) : Nat :=
  if 0x14 ≤ o % 0x20 then 0
  else ceilDiv (quotaUsed s (o / 0x20) (o % 0x20 / 4)) (quotaUnit (o % 0x20 / 4)) % 2 ^ 32

/-- TIER_. -/
def tierReg (s : State) (o : Nat) : Nat :=
  let x := s.tier
  if o < 0x40 then match o with
    | 0x00 => pack [fld 0 4 x.sampleLog2, fld 4 8 x.promote, fld 12 8 x.demote, fld 20 4 x.lowLog2, fld 24 4 x.highLog2]
    | 0x04 => pack [flagAt 0 x.warm, flagAt 1 x.sweep, flagAt 2 x.quotaErr]
    | 0x08 => sat32 x.halvings
    | 0x10 => sat32 x.promoted
    | 0x14 => sat32 x.demoted
    | 0x18 => sat32 x.moveAbort
    | 0x1C => count (fun (e : Nat × Extent) => e.2.state == .active || e.2.state == .revoking) s.ext.table % 2 ^ 13
    | 0x20 => s.ext.sel % 2 ^ 12
    | 0x24 => extInfo s
    | 0x28 => x.wtSel % 2 ^ 20
    | _ => 0
  else if o < 0x80 then match mget s.wt.objs x.wtSel with
    | some w => if w.sealed then wordOf w.digest ((o - 0x40) / 4) else 0
    | none => 0
  else if o < 0x94 then nth x.cap ((o - 0x80) / 4) 0 % 2 ^ 32
  else if o < 0x100 then 0
  else if o < 0x300 then quotaReg s (o - 0x100)
  else if o < 0x400 then 0
  else if o < 0x600 then usedReg s (o - 0x400)
  else 0

/-- Wear of a die in 0.01 % of the rated cycles: its mean erase count over them (R336). -/
def dieWear (s : State) (d : Nat) : Nat :=
  if s.ftl.geo.blocks == 0 then 0
  else sat16 (sum ((s.ftl.blocks.filter fun b => b.1 / 2 ^ 14 == d).map fun b => b.2.erases) * 10000
    / (s.ftl.geo.blocks * Config.ratedCycles false))

/-- Wear of the device. -/
def devWear (s : State) : Nat :=
  if s.ftl.geo.blocks == 0 || s.ftl.dies.isEmpty then 0
  else sat16 (sum ((s.ftl.blocks.filter fun b => s.ftl.dies.contains (b.1 / 2 ^ 14)).map fun b => b.2.erases) * 10000
    / (s.ftl.dies.length * s.ftl.geo.blocks * Config.ratedCycles false))

/-- FTL_DIE_INFO; FTL_DIE_SEL holds the channel in [5:0] and the target in [9:6]. -/
def dieInfo (s : State) : Nat :=
  let ch := s.ftl.dieSel % 64
  let d := 16 * ch + s.ftl.dieSel / 64 % 16
  if !s.start.done.contains 8 then 0
  else
    let st := if s.ftl.dies.contains d then 0 else if s.ftl.offline.contains ch then 1 else 2
    pack [fld 0 16 (if s.start.wearReady then dieWear s d else 0), fld 16 14 (retiredBlocks s.ftl d), (30, st)]

/-- A DISCARD_SECURE op, and one that erases. -/
def secureOp (o : Op) : Bool :=
  match o.body with
  | .discard true .. => true
  | _ => false

/-- FTL_STATUS. -/
def ftlStatus (s : State) : Nat :=
  pack [flagAt 0 (mapReady s), flagAt 1 s.start.wearReady, flagAt 2 s.ftl.reserveReady, flagAt 3 (fineFull s),
    flagAt 4 (s.ftl.dies.any (dieUrgent s.ftl)), flagAt 5 (spareLow s), flagAt 6 (readOnly s),
    flagAt 7 (s.ops.tab.any fun o => secureOp o.2 && erasing o.2), fld 8 6 (nodup s.ftl.offline).length]

/-- FTL_. -/
def ftlReg (lat : List Nat) (s : State) (o : Nat) : Nat :=
  let f := s.ftl
  match o with
  | 0x00 => ftlStatus s
  | 0x04 => pack [fld 0 7 f.rewritePct, flagAt 7 f.patrolEn]
  | 0x08 => logicalUnits f % 2 ^ 32
  | 0x0C => spareSpace f % 2 ^ 14
  | 0x10 => if s.start.wearReady then pack [(0, devWear s), (16, maxOf (f.dies.map (dieWear s)))] else 0
  | 0x14 => pack [fld 0 8 (bufferPct s), fld 8 8 ((s.img.cur.map (·.bufPercent)).getD 0)]
  | 0x18 => fineUsed s % 2 ^ 22
  | 0x1C => reserveRoom s / granuleBytes % 2 ^ 17
  | 0x20 => if s.start.wearReady then lo32 f.seqNo else 0
  | 0x24 => nth lat 2 0
  | 0x28 => f.dieSel % 2 ^ 10
  | 0x2C => dieInfo s
  | 0x30 => min 0xFFFF (count (fun (x : Nat × Op) => secureOp x.2) s.ops.tab)
  | _ => match idx o 0x100 4 8, idx o 0x200 4 32 with
    | some k, _ => sat32 (nth f.errs k 0)
    | none, some n => tlyNat s (0x0A0 + n)
    | none, none => 0

/-! ### SCH_ -/

/-- SCH_PART_p. -/
def partReg (s : State) (p : Nat) : Nat :=
  let x := partOf s p
  pack [flagAt 0 (spaceOnly s p), flagAt 2 (x.reset != .none), flagAt 3 (x.switch != .none), fld 4 3 (stepsIn s p), flagAt 7 x.mgmtValid,
    fld 8 10 x.mgmtCtx, fld 18 10 x.running, fld 28 3 (count (fun (n : Option Nat) => n.isSome) x.slots)]

/-- The SCH_ACCT_ registers of a context; `cyc` and `save` are the high words shown. -/
def acctReg (c : Ctx) (cyc save o : Nat) : Nat :=
  match o with
  | 0x304 => lo32 c.cyc
  | 0x308 => cyc
  | 0x30C => sat32 c.preempt
  | 0x310 => lo32 c.save
  | 0x314 => save
  | 0x318 => pack [fld 0 16 c.slow, fld 16 16 c.slowOps]
  | 0x31C => pack [(0, sat16 c.late), (16, sat16 c.abstained)]
  | _ => match idx o 0x320 4 4, idx o 0x340 4 16 with
    | some r, _ => sat32 (nth c.rungs r 0)
    | none, some i => sat32 (nth c.waits i 0)
    | none, none => 0

/-- SCH_. -/
def schReg (lat : List Nat) (s : State) (o : Nat) : Nat :=
  let x := s.sch
  match o with
  | 0x000 => pack [fld 0 10 x.quantum, fld 10 7 x.cheapWait, flagAt 17 x.monitorEn]
  | 0x004 => pack [fld 0 7 (count (fun (o : Nat × Op) => (stepOf o.2).isSome) s.ops.tab), fld 8 17 (stepEntries s)]
  | 0x200 => x.ctxSel % 2 ^ 10
  | 0x208 => pack [flagAt 0 x.ctxBusy, flagAt 1 x.ctxErr]
  | 0x300 => x.acctSel % 2 ^ 10
  | _ => match idx o 0x100 4 16, idx o 0x140 4 16, idx o 0x180 4 16, idx o 0x240 4 8 with
    | some p, _, _, _ => partReg s p
    | none, some p, _, _ => maskOf (clustersOf s p) % 2 ^ 32
    | none, none, some p, _ => sat32 (partOf s p).resets
    | none, none, none, some k => wordOf x.ctxData k
    | none, none, none, none => acctReg (ctxOf s x.acctSel) (nth lat 3 0) (nth lat 4 0) o

/-! ### SEC_ -/

/-- SEC_KEY_INFO. -/
def keyInfo (s : State) : Nat :=
  match mget s.sec.keys s.sec.keySel with
  | none => 0
  | some k => pack [(0, if k.dying then 2 else 1), fld 2 8 k.tenant, fld 10 16 k.node]

/-- SEC_TENANT_INFO. -/
def tenantInfo (s : State) : Nat :=
  let t := s.sec.tenantSel
  let x := mgetD s.sec.tenants t {}
  pack [flagAt 0 x.created, flagAt 1 x.flashKey.isSome, flagAt 2 x.removing,
    fld 3 11 (count (fun (c : Nat × Ctx) => c.2.enable && c.2.tenant == t) s.sch.ctxs),
    fld 14 15 (count (fun (k : Nat × JobKey) => !k.2.mgmt && !k.2.dying && k.2.tenant == t) s.sec.keys)]

/-- SEC_DBG_CTL. -/
def dbgCtl (s : State) : Nat :=
  let x := s.sec
  pack [fld 0 5 x.dbgCluster, fld 5 6 x.dbgCore, flagAt 11 (mhas s.core.halted (dbgCore s)), flagAt 13 x.dbgActive, fld 14 2 x.dbgSpace]

/-- SEC_, but for SEC_DBG_DATA, which an access changes. -/
def secReg (s : State) (o : Nat) : Nat :=
  let x := s.sec
  match o with
  | 0x00 => pack [fld 0 16 (maskOf ((List.range 16).filter fun p => (partOf s p).scrubbing)),
      flagAt 16 (x.removals.any fun r => r.tenant.isSome), flagAt 17 (!x.km.isEmpty), flagAt 18 x.fuseBusy, flagAt 19 x.fuseErr]
  | 0x04 => pack [fld 0 15 (jobKeys s), fld 16 7 x.sessions.length]
  | 0x08 => sat32 x.aborts
  | 0x10 => x.keySel % 2 ^ 32
  | 0x14 => keyInfo s
  | 0x18 => x.tenantSel % 256
  | 0x1C => tenantInfo s
  | 0x24 => dbgCtl s
  | 0x28 => x.dbgAddr % 2 ^ 18
  | _ => match idx o 0x40 4 16, idx o 0x80 4 4, idx o 0x100 4 64, idx o 0x200 4 16 with
    | some k, _, _, _ => wordOf x.fuseData k
    | none, some n, _, _ =>
      let r := nth x.roots n {}
      pack [flagAt 0 r.programmed, flagAt 1 r.revoked, flagAt 2 (x.matched == some n)]
    | none, none, some n, _ =>
      let b := mgetD x.slots n {}
      pack [fld 0 8 b.tenant, flagAt 8 b.bound, flagAt 9 b.scope]
    | none, none, none, some p => sat32 (mgetD x.scrubs p 0)
    | none, none, none, none => 0

/-! ### TLY_ and BBX_ -/

/-- A physical word that serves a logical word. -/
def physInUse (t : Tally) (p : Nat) : Bool := if p < 1024 then !mhas t.remap p else t.remap.any fun x => x.2 == p

/-- TLY_STATUS. -/
def tlyStatus (s : State) : Nat :=
  let t := s.tly
  pack [flagAt 0 (t.phys.any fun x => physInUse t x.1 && decide (950000 ≤ x.2.count)), flagAt 1 t.wornFail, flagAt 2 (t.sparesLeft == 0),
    fld 8 8 t.sparesLeft]

/-- TLY_WORD_INFO. -/
def wordInfo (s : State) : Nat :=
  let t := s.tly
  let p := t.physAt (t.place t.sel)
  pack [fld 0 20 p.count, fld 20 7 (t.place t.sel - 1024), flagAt 27 (mhas t.remap t.sel), flagAt 28 (decide (950000 ≤ p.count)),
    flagAt 29 (!t.canWrite t.sel)]

/-- TLY_SPARE_SUM. -/
def spareSum (s : State) : Nat :=
  let cl := (List.range 32).map fun c => tlyNat s (clWord c)
  let live := cl.filter fun w => !bit w 16
  let b := tlyNat s bankWord
  let ports := (List.range 16).map fun n => tlyNat s (portWord n)
  pack [fld 0 7 (sum (live.map fun w => count (fun (n : Nat) => subOf w n == 0x7F && !slotRetired w n) [64, 65])),
    fld 8 2 (count (fun (n : Nat) => bankServed b n == 0x3F && !bankRetired b n) [32, 33]),
    flagAt 10 (tlyNat s laserWord % 8 == 7), fld 11 5 (count (fun (w : Nat) => w % 256 == 0xFF) ports),
    (16, min 31 (32 - live.length)), fld 21 4 (count (fun (n : Nat) => bit (tlyNat s (stackWord n)) 20) (List.range 8))]

/-- Four generation bytes from place 4n. -/
def genWord (l : List (BitVec 8)) (n : Nat) : Nat := leNat ((List.range 4).map fun j => nth l (4 * n + j) 0)

/-- TLY_. -/
def tlyReg (s : State) (o : Nat) : Nat :=
  match o with
  | 0x00 => tlyStatus s
  | 0x04 => s.tly.sel % 2 ^ 10
  | 0x08 => tlyNat s s.tly.sel
  | 0x0C => wordInfo s
  | 0x10 => (s.tly.pair 0x004).toNat
  | 0x14 => spareSum s
  | 0x18 => tlyNat s bankWord % 2 ^ 14
  | 0x1C => tlyNat s laserWord % 2 ^ 8
  | 0x240 => genWord s.spare.genDie 0 % 2 ^ 24
  | _ => match idx o 0x100 4 32, idx o 0x180 4 16, idx o 0x1C0 4 8, idx o 0x200 4 8, idx o 0x220 4 8 with
    | some c, _, _, _, _ => pack [fld 0 26 (tlyNat s (clWord c)), (30, c / 16)]
    | none, some n, _, _, _ => tlyNat s (portWord n) % 2 ^ 9
    | none, none, some n, _, _ => pack [fld 0 21 (tlyNat s (stackWord n)), (30, n / 4)]
    | none, none, none, some n, _ => genWord s.spare.genCl n
    | none, none, none, none, some n => genWord s.spare.genBank n
    | none, none, none, none, none => 0

/-- An event as bytes (Table 13.5). -/
def eventBytes (e : Event) : List Byte :=
  leBytes 6 e.time ++ leBytes 2 e.serial ++ leBytes 4 e.epoch ++ leBytes 1 e.cls ++ leBytes 1 e.unit ++ leBytes 2 e.code ++
    leBytes 4 e.a0 ++ leBytes 4 e.a1 ++ leBytes 4 e.a2 ++ leBytes 4 e.a3

/-- A descriptor as bytes (Table 13.7); a slot never written holds zeros (log 1). -/
def descBytes (x : Snapshot) : List Byte :=
  let b := leBytes 4 x.serial ++ leBytes 1 x.cls ++ leBytes 1 (pack [flagAt 0 x.complete, flagAt 1 x.held, flagAt 2 x.fatal]) ++
    leBytes 2 x.causes ++ leBytes 4 x.epoch ++ leBytes 6 x.time ++ leBytes 2 x.events.length ++ leBytes 4 x.lost ++
    leBytes 4 x.spareGen ++ leBytes 4 x.buildId ++ List.replicate 28 0
  if x.serial == 0 then List.replicate 64 0 else b ++ leBytes 4 (crc32c b)

/-- The word of the selected source at BBX_READ_ADDR: events of 32 bytes, oldest first. -/
def bbxWord (s : State) : Nat :=
  let b := s.bbx
  let es := if b.readSel == 4 then b.ring else if b.readSel < 4 then (nth b.slots b.readSel {}).events else []
  match es[b.readAddr / 32]? with
  | some e => field (eventBytes e) (b.readAddr % 32) 4
  | none => 0

/-- The slot of the highest serial. -/
def topSlot (b : Bbx) : Nat :=
  (List.range 4).foldl (fun best n => if (nth b.slots best {}).serial < (nth b.slots n {}).serial then n else best) 0

/-- BBX_, BBX_READ_DATA as it stands before the offset rises. -/
def bbxReg (s : State) (o : Nat) : Nat :=
  let b := s.bbx
  match o with
  | 0x00 => pack [flagAt 0 b.frozen, flagAt 1 b.copy.isSome, fld 2 4 b.cause,
      fld 6 4 (maskOf ((List.range 4).filter fun n => (nth b.slots n {}).held)),
      fld 10 4 (maskOf ((List.range 4).filter fun n => (nth b.slots n {}).complete)), (14, topSlot b)]
  | 0x08 => sat32 b.written
  | 0x0C => sat32 b.lost
  | 0x10 => sat32 b.suppressed
  | 0x20 => b.readSel % 8
  | 0x24 => b.readAddr % 2 ^ 18
  | 0x28 => bbxWord s
  | _ => match idx o 0x40 4 16 with
    | some k => if b.readSel < 4 then wordOf (descBytes (nth b.slots b.readSel {})) k else 0
    | none => 0

/-! ### PWR_ and THM_ -/

/-- PWR_. -/
def pwrReg (s : State) (o : Nat) : Nat :=
  let x := s.pwr
  let flushing := s.resp.kind == .quiesce || s.resp.kind == .powerFail
  match o with
  | 0x0 => pack [flagAt 0 (decide (4400 ≤ s.pins.vin) && decide (s.pins.vin ≤ 6200)), flagAt 1 s.pins.pwrfail, flagAt 2 s.pins.prsntEarly,
      flagAt 3 s.pins.prsntLate, flagAt 4 s.pins.unplug, flagAt 5 (flushing && s.resp.stage != .ended), flagAt 6 x.safeToPull,
      flagAt 7 x.ovEvent, flagAt 8 x.uvEvent, fld 9 2 x.govLevel, flagAt 11 x.peakActive]
  | 0x4 => pack [(0, sat16 s.pins.vin), (16, sat16 x.pinPower)]
  | 0x8 => pack [fld 0 8 x.eDeclared, (8, min 0xFF x.eMeasured), (16, min 0xFF x.eEff), flagAt 24 x.ready, flagAt 25 x.bankLow,
      flagAt 26 x.bankMismatch, flagAt 27 x.bleeding]
  | 0xC => pack [fld 0 17 (x.window / 0x4000), fld 17 15 (ceilDiv (occupancy s) 0x10000)]
  | _ => 0

/-- Die of a sensor (Table 2.9). -/
def sensorDie (n : Nat) : Nat := if n < 20 then 0 else if n < 40 then 1 else if n < 52 then 2 else 3

/-- The hottest die sensor that has converted, the lowest index on a tie, and its reading. -/
def hottest (s : State) : Nat × Int :=
  let l := (List.range 64).filter fun n => sensorKind n != 3 && nth s.thm.valid n false
  match l with
  | [] => (0, 0)
  | n :: r => r.foldl (fun (b : Nat × Int) k => if b.2 < nth s.thm.temps k 0 then (k, nth s.thm.temps k 0) else b) (n, nth s.thm.temps n 0)

/-- THM_. `level` has room for 0 to 3 and reads 3 at the trip; `gov_dominant` is 0 where the thermal and the power level are equal
(Table 2.12 leaves both open, log 47). -/
def thmReg (s : State) (o : Nat) : Nat :=
  match o with
  | 0x0 => pack [(0, min 3 (throttle s)), flagAt 2 s.pins.thermLow, flagAt 3 s.thm.leakIn, flagAt 4 s.thm.leakShutdown,
      flagAt 5 (decide (s.thm.level < s.pwr.govLevel)), (8, signedField 12 (hottest s).2), fld 20 6 (hottest s).1]
  | _ => match idx o 0x100 4 64 with
    | some n => pack [(0, signedField 12 (nth s.thm.temps n 0)), flagAt 12 (nth s.thm.valid n false), (13, sensorKind n), (16, sensorDie n)]
    | none => 0

/-! ### The window (R450) -/

/-- The word a register shows, with the latches of a path. -/
def regWord (lat : List Nat) (s : State) (off : Nat) : Nat :=
  let o := off % 0x10000
  match off / 0x10000 with
  | 0 => topReg lat s o
  | 1 => cfgReg s o
  | 2 => lnkReg s o
  | 3 => rngReg s o
  | 4 => pwuReg s o
  | 5 => pmaReg s o
  | 6 => atnReg lat s o
  | 7 => cdcReg s o
  | 8 => tierReg s o
  | 9 => ftlReg lat s o
  | 10 => schReg lat s o
  | 11 => secReg s o
  | 12 => tlyReg s o
  | 13 => bbxReg s o
  | 14 => pwrReg s o
  | 15 => thmReg s o
  | _ => 0

end Sys2Proof.Machine
end

