-- ==== Sys2Proof/Machine/Registers.lean ====
section
/-! DEFINITION. Reads and writes of registers (15 R450 to R457; 12 R368, R394, R395, Table 12.10; and each chapter's own rules of who
may write). -/

namespace Sys2Proof.Machine

open Sys2Proof

/-! ### Reads (R453, R455) -/

/-- The latching pair whose low word stands at an offset (R455). -/
def latchAt (off : Nat) : Option Nat :=
  match off with
  | 0x00108 => some 0
  | 0x60120 => some 1
  | 0x90020 => some 2
  | 0xA0304 => some 3
  | 0xA0310 => some 4
  | _ => none

/-- The upper bits of a pair at this moment. -/
def highNow (s : State) (i : Nat) : Nat :=
  match i with
  | 0 => hi32 (now s)
  | 1 => hi32 s.attn.keys
  | 2 => if s.start.wearReady then hi32 s.ftl.seqNo else 0
  | 3 => hi32 (ctxOf s s.sch.acctSel).cyc
  | _ => hi32 (ctxOf s s.sch.acctSel).save

/-- A read of a low word latches the upper bits, for the path it uses. -/
def latch (path : Path) (i : Nat) (s : State) : State :=
  s.modMgmt fun m => match path with
    | .i3c => { m with latI3c := lput m.latI3c i (highNow s i) }
    | .dorlink _ => { m with latDl := lput m.latDl i (highNow s i) }

/-- The offset of BBX_READ_DATA rises by 4 with each read. -/
def bbxAdvance (s : State) : State := s.modBbx fun b => { b with readAddr := (b.readAddr + 4) % 2 ^ 18 }

/-- What reading a register does beside showing its value. -/
def readEffect (path : Path) (off : Nat) (s : State) : State :=
  match latchAt off with
  | some i => latch path i s
  | none => if off == 0xD0028 then bbxAdvance s else s

/-- A read of a register with nothing hidden. -/
def rawRead (path : Path) (off : Nat) (s : State) : Nat × State :=
  if off == 0xB002C then debugRead s else (regWord (latches path s) s off, readEffect path off s)

/-! ### The tenant view (R394, Table 12.10) -/

/-- The offsets that Table 12.10 shows coarsely, SCH_ACCT_ apart, in rising order. -/
def coarseOffs : List Nat :=
  let arr := fun (base n : Nat) => (List.range n).map fun k => base + 4 * k
  let quota := fun (base : Nat) => (List.range 16).flatMap fun p => arr (base + 0x20 * p) 5
  [0x50000, 0x50020, 0x50024] ++ arr 0x50030 16 ++ arr 0x50100 32 ++ arr 0x50200 16 ++ [0x60004] ++ arr 0x60100 5 ++ arr 0x60120 11 ++
    [0x70000, 0x70004] ++ arr 0x70104 3 ++ arr 0x70110 8 ++ quota 0x80100 ++ quota 0x80400 ++ [0x90000] ++ arr 0x90008 8 ++
    [0x9002C, 0x90030] ++ arr 0x90100 8 ++ arr 0x90200 32 ++ arr 0xA0100 16 ++ [0xF0000]

/-- The SCH_ACCT_ offsets that belong to the selected context. -/
def acctOffs : List Nat := (List.range 7).map (fun k => 0xA0304 + 4 * k) ++ (List.range 20).map fun k => 0xA0320 + 4 * k

/-- A value with bits [5:0] of the count field at a shift cleared. -/
def clearLow (sh v : Nat) : Nat := v - bits v sh 6 * 2 ^ sh

/-- A value with the whole field of `w` bits at a shift cleared: a count of at most 6 bits. -/
def clearField (sh w v : Nat) : Nat := v - bits v sh w * 2 ^ sh

/-- Bits [5:0] of every count field of a register cleared (R394). Sizes, percentages, node and context numbers, epochs and high
words are no counts. -/
def coarsen (off v : Nat) : Nat :=
  if off == 0xF0000 then v % 4
  else if off == 0x50020 || off == 0x50024 || (idx off 0x50030 4 16).isSome then v
  else if off == 0x60124 || off == 0xA0308 || off == 0xA0314 || off == 0x90024 then v
  else if [0x90008, 0x9000C, 0x90010, 0x90014, 0x9001C].contains off || (0x80100 ≤ off && off < 0x80400) then v
  else if off == 0x90000 then clearField 8 6 v
  else if off == 0x9002C then clearLow 16 v
  else if (idx off 0xA0100 4 16).isSome then clearField 4 3 (clearField 28 3 v)
  else if off == 0xA0318 then clearLow 16 v
  else if off == 0xA031C then clearLow 16 (clearLow 0 v)
  else clearLow 0 v

/-- The snapshot of a register of one context's account. -/
def viewKey (ctx off : Nat) : Nat := 2 ^ 24 * (ctx + 1) + off

/-- The snapshot of every coarse register, a 64-bit pair whole. -/
def viewNow (s : State) : AMap Nat :=
  let lat := (List.range 5).map (highNow s)
  coarseOffs.map (fun o => (o, coarsen o (regWord lat s o))) ++
    s.sch.ctxs.flatMap fun (c : Nat × Ctx) =>
      acctOffs.map fun o => (viewKey c.1 o, coarsen o (acctReg c.2 (hi32 c.2.cyc) (hi32 c.2.save) (o % 0x10000)))

/-- A partition in which the tenant has a context. -/
def tenantOwns (s : State) (t p : Nat) : Bool := (tenantParts s t).contains p

/-- The partition a coarse register belongs to, where it belongs to one. -/
def partOfOff (off : Nat) : Option Nat :=
  if 0x80100 ≤ off && off < 0x80300 then some ((off - 0x80100) / 0x20)
  else if 0x80400 ≤ off && off < 0x80600 then some ((off - 0x80400) / 0x20)
  else idx off 0xA0100 4 16

/-- What a tenant reads that is not exact. -/
def tenantWord (s : State) (t off : Nat) : Nat :=
  let own := (ctxOf s s.sch.acctSel).tenant == t && mhas s.sch.ctxs s.sch.acctSel
  if off == 0xE0004 then pack [(16, sat16 s.pwr.viewPin)]
  else if off == 0xA0300 then (if own then s.sch.acctSel % 2 ^ 10 else 0)
  else if acctOffs.contains off then (if own then mgetD s.mgmt.view (viewKey s.sch.acctSel off) 0 else 0)
  else match partOfOff off with
    | some p => if tenantOwns s t p then mgetD s.mgmt.view off 0 else 0
    | none => mgetD s.mgmt.view off 0

/-- Registers every party reads exactly: TOP_, CFG_IMG_STATUS, CFG_START and CFG_IMG_DIGEST_n. -/
def allExact (off : Nat) : Bool := decide (off < 0x10000) || off == 0x10000 || off == 0x10004 || (idx off 0x10040 4 16).isSome

/-- Registers that a chapter lets the management context of partition `p` use, which it reads exactly. -/
def mgmtExact (p off : Nat) : Bool :=
  [0x30000, 0x30008, 0x40000, 0x40008, 0x40100 + 4 * p, 0xA0200, 0xA0208].contains off || (idx off 0x30040 4 16).isSome ||
    (idx off 0x40040 4 16).isSome || (idx off 0xA0240 4 8).isSome

/-- Tenant of a path's key. -/
def pathTenant (s : State) (path : Path) : Nat :=
  match path with
  | .i3c => 0
  | .dorlink key => ((mget s.sec.keys key).map (·.tenant)).getD 0

/-- Whether a party reads an offset exactly. -/
def readsExact (x : Party) (off : Nat) : Bool :=
  match x with
  | .operator => true
  | .mgmt p => allExact off || mgmtExact p off
  | .tenant _ => allExact off
  | .nobody => false

/-- One register access that reads (R453): its word, and the state after it. -/
def readWord (path : Path) (off : Nat) (s : State) : Nat × State :=
  if readsExact (partyOf s path) off then rawRead path off s
  else (if partyOf s path == .nobody then 0 else tenantWord s (pathTenant s path) off, s)

/-! ### Writes, by block -/

/-- A staging area with word `k` replaced. -/
def putWord (bs : List Byte) (k v : Nat) : List Byte := bs.take (4 * k) ++ leBytes 4 v ++ bs.drop (4 * k + 4)

/-- A flag after a write of its W1C bit. -/
def w1c (old : Bool) (v b : Nat) : Bool := old && !bit v b

/-- RNG_ (R123, R168): the operator's and management contexts'. -/
def writeRng (path : Path) (o v : Nat) (s : State) : State :=
  match o with
  | 0x00 => s.modRng fun r => { r with sel := v % 2 ^ 14 }
  | 0x04 => match v % 4 with
    | 1 => ringWriteCmd path s
    | 2 => ringReadCmd path s
    | 3 => ringDrainCmd path s
    | _ => s
  | 0x08 => s.modRng fun r => { r with err := w1c r.err v 1 }
  | _ => match idx o 0x40 4 16 with
    | some k => s.modRng fun r => { r with entry := putWord r.entry k v }
    | none => s

/-- PWU_ (R168): the operator's, and management contexts'; PWU_TKT_RING_p that of the partition's. -/
def writePwu (path : Path) (x : Party) (o v : Nat) (s : State) : State :=
  match o with
  | 0x00 => s.modSeqs fun q => { q with mdSel := v % 64 }
  | 0x04 => match v % 4 with
    | 1 => mdLoadCmd path s
    | 2 => mdReadCmd path s
    | 3 => mdUnloadCmd path s
    | _ => s
  | 0x08 => s.modSeqs fun q => { q with mdErr := w1c q.mdErr v 1 }
  | _ => match idx o 0x40 4 16, idx o 0x100 4 16 with
    | some k, _ => s.modSeqs fun q => { q with mdData := putWord q.mdData k v }
    | none, some p => if x.mayManage p then s.modSeqs fun q => { q with tktRing := mset q.tktRing p (v % 2 ^ 14, bit v 31) } else s
    | none, none => s

/-- PMA_ (R209): the operator's. -/
def writePma (path : Path) (o v : Nat) (s : State) : State :=
  match o with
  | 0x000 => s.modPfx fun p => { p with polErr := w1c p.polErr v 10 }
  | 0x004 => s.modPfx fun p => { p with polSel := v % 256 }
  | 0x008 => match v % 4 with
    | 1 => polCmd path polInsert s
    | 2 => polCmd path polDelete s
    | 3 => polCmd path polRead s
    | _ => s
  | 0x00C => s.modPfx fun p => { p with polVal := v % 2 ^ 16, polMask := v / 2 ^ 16 % 2 ^ 16 }
  | 0x010 => s.modPfx fun p => { p with polAct := v % 4 }
  | _ => s

/-- TIER_HEAT_CFG (R301): ignored out of range. -/
def writeHeatCfg (v : Nat) (s : State) : State :=
  let n := bits v 0 4
  if n < 4 || 10 < n || bits v 4 8 ≤ bits v 12 8 then s
  else s.modTier fun t =>
    { t with sampleLog2 := n, promote := bits v 4 8, demote := bits v 12 8, lowLog2 := bits v 20 4, highLog2 := bits v 24 4 }

/-- The partition and tier of a TIER_QUOTA_p_k. -/
def quotaAt (o : Nat) : Option (Nat × Nat) :=
  if 0x100 ≤ o && o < 0x300 && o % 0x20 < 0x14 then some ((o - 0x100) / 0x20, o % 0x20 / 4) else none

/-- TIER_ (R301): the operator's. A quota of a partition that does not exist holds nothing. -/
def writeTier (o v : Nat) (s : State) : State :=
  match o with
  | 0x00 => writeHeatCfg v s
  | 0x04 => s.modTier fun t => { t with quotaErr := w1c t.quotaErr v 2 }
  | 0x20 => s.modExt fun x => { x with sel := v % 2 ^ 12 }
  | 0x28 => s.modTier fun t => { t with wtSel := v % 2 ^ 20 }
  | _ => match quotaAt o with
    | some pk => if partExists s pk.1 then quotaWrite pk.1 pk.2 v s else s
    | none => s

/-- FTL_CFG (R337): ignored out of range. -/
def writeFtlCfg (v : Nat) (s : State) : State :=
  let n := v % 128
  if n < 40 || 90 < n then s else s.modFtl fun f => { f with rewritePct := n, patrolEn := bit v 7 }

/-- FTL_: the operator's. -/
def writeFtl (o v : Nat) (s : State) : State :=
  match o with
  | 0x04 => writeFtlCfg v s
  | 0x28 => s.modFtl fun f => { f with dieSel := v % 2 ^ 10 }
  | _ => s

/-- SCH_CFG (R365): ignored out of range. -/
def writeSchCfg (v : Nat) (s : State) : State :=
  let q := v % 1024
  let w := bits v 10 7
  if q == 0 || 1000 < q || 100 < w then s else s.modSch fun x => { x with quantum := q, cheapWait := w, monitorEn := bit v 17 }

/-- SCH_PART_p: the management context, and the reset bit (R339, R359). -/
def writePart (p v : Nat) (s : State) : State :=
  when (bit v 1) (resetByOperator p) (modPart p (fun x => { x with mgmtValid := bit v 7, mgmtCtx := bits v 8 10 }) s)

/-- SCH_ (R340, R365). -/
def writeSch (path : Path) (x : Party) (o v : Nat) (s : State) : State :=
  match o with
  | 0x000 => if x.isOperator then writeSchCfg v s else s
  | 0x200 => s.modSch fun y => { y with ctxSel := v % 2 ^ 10 }
  | 0x204 => match v % 4 with
    | 1 => ctxWriteCmd path s
    | 2 => ctxReadCmd path s
    | 3 => ctxDisableCmd path s
    | _ => s
  | 0x208 => s.modSch fun y => { y with ctxErr := w1c y.ctxErr v 1 }
  | 0x300 => if x.isOperator then s.modSch fun y => { y with acctSel := v % 2 ^ 10 } else s
  | _ => match idx o 0x100 4 16, idx o 0x240 4 8 with
    | some p, _ => if x.isOperator then writePart p v s else s
    | none, some k => s.modSch fun y => { y with ctxData := putWord y.ctxData k v }
    | none, none => s

/-- SEC_FUSE_CMD (R375). -/
def writeFuse (path : Path) (v : Nat) (s : State) : State :=
  match bits v 16 2 with
  | 1 => fuseCmd path (v % 2 ^ 16) (fuseProgram (bits v 18 2)) s
  | 2 => fuseCmd path (v % 2 ^ 16) (fuseRevoke (bits v 18 2)) s
  | _ => s

/-- SEC_DBG_CTL (R393): the core and the space, then halt or release, then one step. -/
def writeDbgCtl (v : Nat) (s : State) : State :=
  when (bit v 12) debugStep (debugHalt (bit v 11) (s.modSec fun x =>
    { x with dbgCluster := v % 32, dbgCore := bits v 5 6, dbgSpace := bits v 14 2 }))

/-- SEC_SLOT_s (R367, R395): not while a sequence bound to the slot is open. -/
def writeSlot (n v : Nat) (s : State) : State :=
  if slotInUse s n then s
  else s.modSec fun x => { x with slots := mset x.slots n { tenant := v % 256, bound := bit v 8, scope := bit v 9 } }

/-- SEC_ (R395): the operator's. -/
def writeSec (path : Path) (o v : Nat) (s : State) : State :=
  match o with
  | 0x00 => s.modSec fun x => { x with fuseErr := w1c x.fuseErr v 19 }
  | 0x10 => s.modSec fun x => { x with keySel := v }
  | 0x18 => s.modSec fun x => { x with tenantSel := v % 256 }
  | 0x20 => writeFuse path v s
  | 0x24 => writeDbgCtl v s
  | 0x28 => s.modSec fun x => { x with dbgAddr := v % 2 ^ 18 / 4 * 4 }
  | 0x2C => debugWrite v s
  | _ => match idx o 0x40 4 16, idx o 0x100 4 64 with
    | some k, _ => s.modSec fun x => { x with fuseData := putWord x.fuseData k v }
    | none, some n => writeSlot n v s
    | none, none => s

/-- TLY_ (R421): the operator's. -/
def writeTly (o v : Nat) (s : State) : State :=
  match o with
  | 0x00 => s.modTly fun t => { t with wornFail := w1c t.wornFail v 1 }
  | 0x04 => s.modTly fun t => { t with sel := v % 2 ^ 10 }
  | 0x08 => wordWrite v s
  | _ => s

/-- BBX_CMD (R415, R416, R421). -/
def writeBbxCmd (v : Nat) (s : State) : State :=
  if s.bbx.copy.isSome then s
  else match v % 4 with
    | 1 => operatorSnapshot s
    | 2 => holdSlot (bits v 2 2) s
    | 3 => releaseSlot (bits v 2 2) s
    | _ => s

/-- BBX_ (R421): the operator's. -/
def writeBbx (o v : Nat) (s : State) : State :=
  match o with
  | 0x04 => writeBbxCmd v s
  | 0x20 => s.modBbx fun b => { b with readSel := v % 8 }
  | 0x24 => s.modBbx fun b => { b with readAddr := v % 2 ^ 18 / 4 * 4 }
  | _ => s

/-- PWR_STATUS: the two W1C bits. -/
def writePwr (o v : Nat) (s : State) : State :=
  if o == 0 then s.modPwr fun p => { p with ovEvent := w1c p.ovEvent v 7, uvEvent := w1c p.uvEvent v 8 } else s

/-- A write of the operator. -/
def operatorWrite (path : Path) (off v : Nat) (s : State) : State :=
  let o := off % 0x10000
  match off / 0x10000 with
  | 1 => if o == 0x0C then restartWrite (v % 2 ^ 16) s else s
  | 3 => writeRng path o v s
  | 4 => writePwu path .operator o v s
  | 5 => writePma path o v s
  | 6 => if o == 0 then s.modAttn fun x => { x with splitEn := bit v 0, groupEn := bit v 1 } else s
  | 8 => writeTier o v s
  | 9 => writeFtl o v s
  | 10 => writeSch path .operator o v s
  | 11 => writeSec path o v s
  | 12 => writeTly o v s
  | 13 => writeBbx o v s
  | 14 => writePwr o v s
  | _ => s

/-- A write of the management context of partition `p` (R129, R168, R340, R369). -/
def mgmtWrite (path : Path) (p off v : Nat) (s : State) : State :=
  let o := off % 0x10000
  match off / 0x10000 with
  | 3 => writeRng path o v s
  | 4 => writePwu path (.mgmt p) o v s
  | 10 => writeSch path (.mgmt p) o v s
  | _ => s

/-- One register access that writes (R394, R453): a tenant's is ignored. -/
def writeWord (path : Path) (off v : Nat) (s : State) : State :=
  match partyOf s path with
  | .operator => operatorWrite path off (v % 2 ^ 32) s
  | .mgmt p => mgmtWrite path p off (v % 2 ^ 32) s
  | _ => s

/-- A write of a register held in the Tally that cannot be made (Table 13.3). -/
def wornWrite (path : Path) (off v : Nat) (s : State) : Bool :=
  (partyOf s path).isOperator &&
    (if off == 0xC0008 then decide (0x100 ≤ s.tly.sel) && !s.tly.canWrite s.tly.sel
     else match off / 0x10000, quotaAt (off % 0x10000) with
       | 8, some pk => partExists s pk.1 && !quotaOver pk.1 pk.2 (v % 2 ^ 32) s && !s.tly.canWrite (quotaWord pk.1 pk.2)
       | _, _ => false)

/-! ### Accesses (R450 to R454) -/

/-- The words of an access that reads, in ascending order; `ok` tells whether a block is served. -/
def readWords (path : Path) (served : Nat → Bool) (off : Nat) : Nat → State → List Nat × State
  | 0, s => ([], s)
  | n + 1, s =>
    let r := if served (off / 0x10000) then readWord path off s else (0, s)
    let rs := readWords path served (off + 4) n r.2
    (r.1 :: rs.1, rs.2)

/-- The words of an access that writes; whether a write could not be made, and the state. -/
def writeWords (path : Path) (served : Nat → Bool) (off : Nat) : List Nat → State → Bool × State
  | [], s => (false, s)
  | v :: vs, s =>
    if served (off / 0x10000) then
      let worn := wornWrite path off v s
      let r := writeWords path served (off + 4) vs (writeWord path off v s)
      (worn || r.1, r.2)
    else writeWords path served (off + 4) vs s

/-- The 32-bit words of a byte string. -/
def wordsOf (bs : List Byte) : List Nat := (List.range (bs.length / 4)).map (wordOf bs)

/-- An access well formed (R451): aligned, 4 to 64 bytes in words, within one block. -/
def accessOk (off len : Nat) : Bool :=
  off % 4 == 0 && len % 4 == 0 && decide (4 ≤ len) && decide (len ≤ 64) && decide (off < 2 ^ 24) &&
    off / 0x10000 == (off + len - 1) / 0x10000

end Sys2Proof.Machine
end

