-- ==== Sys2Proof/Machine/Mgmt.lean ====
section
/-! DEFINITION. The commands of the management unit (15 R450 to R457; 12 R394): messages, I3C transfers and common command codes,
single accesses, and the snapshots of the tenant view. -/

namespace Sys2Proof.Machine

open Sys2Proof

/-! ### Over Dorlink (R451, R454) -/

/-- An access over Dorlink that is answered: REVOKED while RDY is not asserted, INTERNAL when malformed. -/
def mgmtAccess (h : Hdr) (off len : Nat) (f : State → State) (s : State) : State :=
  if !reachable s (.dorlink h.key) then nakTo h stRevoked s
  else if !accessOk off len then nakTo h stInternal s
  else f s

/-- MGMT_DATA with the words read. -/
def answerMgmtRd (h : Hdr) (off len : Nat) (s : State) : State :=
  let r := readWords (.dorlink h.key) (fun _ => true) off (len / 4) s
  reply h mtMgmtData 3 0 0 (r.1.flatMap (leBytes 4)) r.2

/-- ACK, or NAK with TALLY_WORN where a write could not be made (Table 13.3). -/
def answerMgmtWr (h : Hdr) (off : Nat) (bytes : List Byte) (s : State) : State :=
  let r := writeWords (.dorlink h.key) (fun _ => true) off (wordsOf bytes) s
  if r.1 then nakTo h stTallyWorn r.2 else reply h mtAck 1 0 0 [] r.2

/-- MGMT_RD. -/
def execMgmtRd (h : Hdr) (off len : Nat) (s : State) : Out :=
  .next (takeMsg h mtMgmtRd (mgmtAccess h off len (answerMgmtRd h off len)) s)

/-- MGMT_WR. -/
def execMgmtWr (h : Hdr) (off : Nat) (bytes : List Byte) (s : State) : Out :=
  .next (takeMsg h mtMgmtWr (mgmtAccess h off bytes.length (answerMgmtWr h off bytes)) s)

/-! ### Over I3C (R452, R454) -/

/-- The words an I3C transfer or a read returns. -/
def putReply (ws : List Nat) (s : State) : State := s.modMgmt fun m => { m with reply := ws }

/-- A transfer that the target answers; otherwise it NACKs and returns nothing. -/
def i3cTransfer (ok : State → Bool) (f : State → State) (s : State) : State :=
  if reachable s .i3c && ok s then f s else putReply [] s

/-- A private write: four offset bytes, then data for the registers, or none to set the read pointer. -/
def i3cWrite (bytes : List Byte) (s : State) : State :=
  let off := field bytes 0 4
  let rest := bytes.drop 4
  if rest.isEmpty then s.modMgmt fun m => { m with i3cPtr := off }
  else (writeWords .i3c (served s .i3c) off (wordsOf rest) s).2

/-- The offset bytes are whole and the transfer is well formed. -/
def i3cWriteOk (bytes : List Byte) : Bool :=
  let off := field bytes 0 4
  decide (4 ≤ bytes.length) && decide (off < 2 ^ 24) && off % 4 == 0 && (bytes.length == 4 || accessOk off (bytes.length - 4))

/-- I3C_PRIVATE_WRITE. -/
def execI3cPrivateWrite (bytes : List Byte) (s : State) : Out := .next (i3cTransfer (fun _ => i3cWriteOk bytes) (i3cWrite bytes) s)

/-- Words a private read returns: at most 16, and no further than the end of the block. -/
def i3cCount (s : State) (words : Nat) : Nat := min words (min 16 ((0x10000 - s.mgmt.i3cPtr % 0x10000) / 4))

/-- A private read from the read pointer, which rises by 4 with each word. -/
def i3cRead (words : Nat) (s : State) : State :=
  let n := i3cCount s words
  let r := readWords .i3c (served s .i3c) s.mgmt.i3cPtr n s
  putReply r.1 (r.2.modMgmt fun m => { m with i3cPtr := m.i3cPtr + 4 * n })

/-- I3C_PRIVATE_READ. -/
def execI3cPrivateRead (words : Nat) (s : State) : Out :=
  .next (i3cTransfer (fun s => decide (s.mgmt.i3cPtr < 2 ^ 24)) (i3cRead words) s)

/-! ### Common command codes (R452) -/

/-- A dynamic address is given to a target that has none (log 18). -/
def takeAddr (a : Nat) (s : State) : State := s.modMgmt fun m => { m with i3cAddr := m.i3cAddr.or (some a) }

/-- ENTDAA: the controller gives the target that wins arbitration an address. -/
def execEntdaa (addr : Nat) (s : State) : Out := .next (i3cTransfer (fun _ => true) (takeAddr addr) s)

/-- SETDASA: the target of static address 0x5C takes an address. -/
def execSetdasa (addr : Nat) (s : State) : Out := .next (i3cTransfer (fun _ => true) (takeAddr addr) s)

/-- RSTDAA. -/
def execRstdaa (s : State) : Out := .next (i3cTransfer (fun _ => true) (fun s => s.modMgmt fun m => { m with i3cAddr := none }) s)

/-- GETPID: TOP_SERIAL_LO in bits [31:0], 1 in bit 32. -/
def execGetpid (s : State) : Out := .next (i3cTransfer (fun _ => true) (putReply [lo32 Config.serial, 1]) s)

/-- GETBCR, GETDCR and GETSTATUS, whose values the manual does not give (log 18). -/
def execGetbcr (s : State) : Out := .next (i3cTransfer (fun _ => true) (putReply [Config.i3cBcr % 256]) s)
def execGetdcr (s : State) : Out := .next (i3cTransfer (fun _ => true) (putReply [Config.i3cDcr % 256]) s)
def execGetstatus (s : State) : Out :=
  .next (i3cTransfer (fun _ => true) (fun s => let r := fresh 16 s; putReply [r.1.toNat] r.2) s)

/-! ### One register access -/

/-- A read by itself: its word is returned. -/
def readOne (path : Path) (off : Nat) (s : State) : State :=
  regAccess path off (fun s => let r := readWord path off s; putReply [r.1] r.2) s

/-- The reads that latch (R455), and BBX_READ_DATA. -/
def execTopCclkLoRead (path : Path) (s : State) : Out := .next (readOne path 0x00108 s)
def execAtnKeysLoRead (path : Path) (s : State) : Out := .next (readOne path 0x60120 s)
def execFtlSeqLoRead (path : Path) (s : State) : Out := .next (readOne path 0x90020 s)
def execSchAcctCycLoRead (path : Path) (s : State) : Out := .next (readOne path 0xA0304 s)
def execSchAcctSaveLoRead (path : Path) (s : State) : Out := .next (readOne path 0xA0310 s)
def execBbxReadDataRead (path : Path) (s : State) : Out := .next (readOne path 0xD0028 s)

/-- REGISTER_WRITE. -/
def execRegisterWrite (path : Path) (off value : Nat) (s : State) : Out :=
  .next (regAccess path off (writeWord path off value) s)

/-! ### The tenant view's snapshots (R389, R394) -/

/-- TENANT_VIEW_SNAPSHOT: none is taken while a partition scrubs (Table 12.7). -/
def execTenantViewSnapshot (s : State) : Out :=
  .next (if (s.sch.parts.any fun p => p.2.scrubbing) then s else s.modMgmt fun m => { m with view := viewNow s })

/-- POWER_VIEW_SNAPSHOT: the nearest 16 W, in units of 0.25 W. -/
def execPowerViewSnapshot (s : State) : Out :=
  .next (s.modPwr fun p => { p with viewPin := min 0xFFFF ((p.pinPower + 32) / 64 * 64) })

end Sys2Proof.Machine
end

