-- ==== Sys2Proof/Machine/Events.lean ====
section
/-! DEFINITION. Doorbells, answers to what the FV7 asked for, and copies and programs that end (04 R117 to R119, R238; 05 R158;
09 R281, R283; 10 R309 to R311; 15 R462). -/

namespace Sys2Proof.Machine

open Sys2Proof

/-! ### DOORBELL (R117, R118) -/

/-- Entries of a ring not yet completed: accepted, or ended with a completion still to be written. -/
def uncompleted (r : Ring) : Nat := r.entries.length + count (fun (c : Cpl) => c.forEntry) r.ready

/-- The checks of a doorbell. -/
def doorbellOk (h : Hdr) (ring first n : Nat) (entries : List (List Byte)) (s : State) : Bool :=
  let r := ringOf s ring
  r.enable && !r.drain && h.src == r.reqNode && h.key == r.key && decide (n ≤ 3) && entries.length == n &&
    entries.all (fun e => e.length == 64) && first == r.sqTail.toNat && decide (uncompleted r + n ≤ 2 ^ r.sqLog2)

/-- The accepted entries of a doorbell, numbered from `n` on. -/
def entriesOf (at_ : Nat) : Nat → List (List Byte) → List Entry
  | _, [] => []
  | n, b :: r => { idx := n, raw := b, arrival := at_ } :: entriesOf at_ (n + 1) r

/-- Entries are copied into their slots, sq_tail advances and cq_head is updated. -/
def acceptEntries (ring cqHead : Nat) (raws : List (List Byte)) (s : State) : State :=
  modRing ring (fun r =>
    { r with
      entries := r.entries ++ entriesOf (stamp s) r.taken raws, sqTail := r.sqTail + BitVec.ofNat 16 raws.length
      cqHead := BitVec.ofNat 16 cqHead, submitted := r.submitted + raws.length, taken := r.taken + raws.length }) s

/-- New work is refused (R50, R59): an entry ends with REVOKED. -/
def refuseEntry (ring idx : Nat) (s : State) : State := endEntry ring idx { status := stRevoked } 0 (markStarted ring idx s)

/-- What an accepted entry sets going: a revoke point (R296), and the read of its operands (R119). -/
def entryTaken (ring idx : Nat) (s : State) : State := requestOperands ring idx (checkRevoke ring idx s)

/-- An accepted doorbell: contexts that become ready take their place (R342), and a slice that this ends, ends. -/
def takeDoorbell (ring cqHead : Nat) (entries : List (List Byte)) (s : State) : State :=
  let p := (ctxOf s (ringOf s ring).context).part
  let s := settleSlice p s
  let before := allReady s
  let es := entriesOf (stamp s) (ringOf s ring).taken entries
  let s := acceptEntries ring cqHead entries s
  if !serving s then forEach es (fun e s => refuseEntry ring e.idx s) s
  else settleSlice p (forEach es (fun e s => entryTaken ring e.idx s) (wakeContexts before s))

/-- A discarded doorbell is counted, with an event. -/
def discardDoorbell (ring src : Nat) (s : State) : State :=
  emit 0 0 evDoorbell [ring, src] (s.modRng fun r => { r with discards := sat32 (r.discards + 1) })

/-- DOORBELL. -/
def execDoorbell (h : Hdr) (ring first cqHead count : Nat) (entries : List (List Byte)) (s : State) : Out :=
  .next (takeMsg h mtDoorbell (fun s =>
    if doorbellOk h ring first count entries s then takeDoorbell ring cqHead entries s
    else discardDoorbell ring h.src s) s)

/-! ### Answers to reads of requester buffers (R119, R462) -/

/-- The read an answer belongs to: of its tag, node and key. -/
def readFor (h : Hdr) (s : State) : Option ReqRead :=
  (mget s.io.reads h.tag).bind fun r => if r.node == h.src && r.key == h.key then some r else none

/-- What waited for a read goes on. -/
def goOn (f : ReadFor) (s : State) : State :=
  match f with
  | .operands _ _ => s
  | .op id _ => driveOp id s

/-- DATA: bytes for a read, or poison. -/
def execData (h : Hdr) (poison : Bool) (bytes : List Byte) (s : State) : Out :=
  .next (takeMsg h mtData (fun s => match readFor h s with
    | none => s
    | some r => goOn r.for_ (if poison then readFailed h.tag s else readArrived h.tag bytes s)) s)

/-- ACK (R238): of a TILE_WRITE. -/
def execAck (h : Hdr) (s : State) : Out :=
  .next (takeMsg h mtAck (fun s => match mget s.io.tiles h.tag with
    | none => s
    | some t => if t.dst == h.src && t.key == h.key then tileResolved h.tag true s else s) s)

/-- NAK (R462): of a read; or of a SEARCH or CLAIM (R425). -/
def execNak (h : Hdr) (_status : Nat) (s : State) : Out :=
  .next (takeMsg h mtNak (fun s => match readFor h s with
    | none => cascNak h s
    | some r => goOn r.for_ (readFailed h.tag s)) s)

/-- REQUESTER_READ_TIMEOUT (R462): resent on the next FABRIC port that is up, three times, then failed. -/
def execRequesterReadTimeout (tag : Nat) (s : State) : Out :=
  .next (match mget s.io.reads tag with
    | none => s
    | some r =>
      if 3 ≤ r.resends then goOn r.for_ (readFailed tag s)
      else sendRead tag (s.modIo fun x => { x with reads := mset x.reads tag { r with resends := r.resends + 1 } }))

/-! ### The write path refuses (R158, R309) -/

/-- Records of a STEP, the first of those whose request waits for the write path going on without step 2. -/
def stepDemote (id : Nat) (o : Op) (recs : List StepRec) (s : State) : State :=
  match recs.findIdx? fun r => r.app.need == .asking with
  | none => s
  | some i => match recs[i]? with
    | none => s
    | some r => settleStep id (runChunk id i o { r with app := { r.app with need := .past } } s).2

/-- LADDER_DEMOTE_TIMEOUT (R158): step 2 fails for the need that waits for the write path. -/
def execLadderDemoteTimeout (op : Nat) (s : State) : Out :=
  .next (match mget s.ops.tab op with
    | none => s
    | some o => match o.body with
      | .append a => if a.need == .asking then driveAppend op (putAppend op { a with need := .past } s) else s
      | .step recs _ _ _ _ => stepDemote op o recs s
      | .lookup (some x) =>
        if x.need == .asking then driveLookup op (modOp op (fun o => { o with body := .lookup (some { x with need := .past }) }) s) else s
      | .seqOpen .asking => driveTables op (modOp op (fun o => { o with body := .seqOpen .past }) s)
      | .seqFork h runs .asking => driveTables op (modOp op (fun o => { o with body := .seqFork h runs .past }) s)
      | _ => s)

/-- WRITE_PATH_TIMEOUT (R309): the page a migration waits to demote is not moved. A WT_LOAD asks again for its tile. -/
def execWritePathTimeout (op : Nat) (s : State) : Out :=
  .next (unlessStopped (fun s => match mget s.ops.tab op with
    | none => s
    | some o => match o.body with
      | .migrate (a :: rest) mv al nm dr qu ms =>
        let waits := field (eInline o.raw) 1 1 != 0 && ((getPage s a).map fun p => !p.moving).getD false
        if waits then runMigrate op (modOp op (fun o => { o with body := .migrate rest mv al (nm + 1) dr qu ms }) s) else s
      | _ => s) s)

/-! ### Moves (R281, R283) -/

/-- The image of a Peer page, read for the op that moves it, becomes the record's page. -/
def installPeer (a : PageAt) (op : Option Nat) (s : State) : State :=
  match a, op with
  | .rec_ r, some id => dropImage1 id r (modPage a (fun p => if p.tier == .peer then peerPageOf s (.op id) r p else p) s)
  | _, _ => s

/-- A demotion that a need of the ladder began has been made. -/
def Descent.moved (id : Nat) (d : Descent) : Descent :=
  match d with
  | .freeing step move runs made => .freeing step move runs (made || move == some id)
  | d => d

/-- The needs of an op, each for one table or page, updated. -/
def OpBody.mapNeed (f : Descent → Descent) (b : OpBody) : OpBody :=
  match b with
  | .append a => .append { a with need := f a.need }
  | .step recs x y at_ z => .step (recs.map fun r => { r with app := { r.app with need := f r.app.need } }) x y at_ z
  | .lookup (some x) => .lookup (some { x with need := f x.need })
  | .seqOpen d => .seqOpen (f d)
  | .seqFork h runs d => .seqFork h runs (f d)
  | b => b

/-- A tile is in HBM: its seal no longer brings it there. -/
def notToHold (a : PageAt) (s : State) : State :=
  match a with
  | .tile o i => s.modWt fun y => { y with objs := mmod y.objs o fun w => { w with toHold := w.toHold.filter (· != i) } }
  | _ => s

/-- Step 5: the leaf switches to its new home; step 6: the source is freed. -/
def switchMove (id : Nat) (m : Move) (s : State) : State :=
  let s := s.modOps fun x => { x with tab := x.tab.map fun o => (o.1, { o.2 with body := o.2.body.mapNeed (Descent.moved id) }) }
  let s := s.modTier fun t => { t with moves := mdel t.moves id }
  match m.run, m.image with
  | some run, _ => notToHold m.at_ (leafToHbm m.at_ run m.metaRun (m.heatTo.getD 0) (installPeer m.at_ m.op s))
  | none, some im =>
    let s := leafToFlash m.at_ im s
    (match m.heatTo, getPage s m.at_ with
     | some n, some p => setHeat p n s
     | _, _ => s)
  | none, none => s

/-- The op that waited for a move. -/
def moveEnded (id : Nat) (m : Move) (ok : Bool) (s : State) : State :=
  match m.op with
  | none => s
  | some op => match mget s.ops.tab op with
    | none => s
    | some o => match o.body with
      | .prefetch .. => prefetchMoved op id m.lay ok s
      | .migrate .. => if ok then migrateMoved op id s else runMigrate op s
      | _ => s

/-- MOVE_COPY_DONE: a copy to flash is complete once the write path has acknowledged it. -/
def execMoveCopyDone (move : Nat) (ok : Bool) (s : State) : Out :=
  .next (working (fun s => match mget s.tier.moves move with
    | none => s
    | some m =>
      if !ok then driveAll (moveEnded move m false (abandonMove move s))
      else if !m.toHbm && !programmed s m.image then s
      else driveAll (moveEnded move m true (switchMove move m s))) s)

/-- TRANSLATION_DRAIN_DONE (R148): every read under the old translation has finished, so the old home is free, and a need that waited for
it goes on. -/
def execTranslationDrainDone (id : Nat) (s : State) : Out := .next (working (fun s => driveAll (drainEnded id s)) s)

/-! ### Programs (R309 to R312, R321) -/

/-- Durable records are programmed in the order of their acknowledgement (R311): those acknowledged already first, and one that its program
is to acknowledge after them, in order of number. -/
def recTurn (s : State) (id : Nat) : Bool :=
  match mget s.ftl.recs id with
  | none => true
  | some r => !r.durable || !(s.ftl.recs.any fun x => x.1 != id && x.2.durable && !x.2.programmed &&
      (if r.acked then x.2.acked && decide (x.2.turn < r.turn) else x.2.acked || decide (x.1 < id)))

/-- The use of the stripe a program goes to: the one-bit buffer, the journal or the catalog (Table 10.8). -/
def useOf (s : State) (id : Nat) : Nat :=
  match mget s.ftl.recs id with
  | none => 1
  | some r => match r.body with
    | .journal .. => 2
    | .catalog _ => 3

/-- A write in staging that is not yet programmed. -/
def inStaging (s : State) (id : Nat) : Bool :=
  ((mget s.ftl.images id).map fun i => !i.programmed).getD false || ((mget s.ftl.recs id).map fun r => !r.programmed).getD false

/-- A page's backing image is programmed: the one of its content before the encode is freed (R312). -/
def replaceBacking (id : Nat) (s : State) : State :=
  match pageOfImage s id with
  | some (a, p) => if p.backing == some id then dropImage? p.oldBacking (modPage a (fun p => { p with oldBacking := none }) s) else s
  | none => s

/-- A write's program status is good: it is acknowledged, and what waited for it goes on. -/
def programGood (id : Nat) (s : State) : State :=
  let t := if mhas s.ftl.images id then (programImage id s).map (replaceBacking id) else if recTurn s id then programRec id s else none
  match t with
  | none => s
  | some s => driveAll (sweepJournals s)

/-- A write's program status is bad: the block is retired, and the write goes to another (R321), but a move whose image it was is abandoned
(R283). -/
def programBad (id : Nat) (s : State) : State :=
  let s := programFailed (useOf s id) s
  match s.tier.moves.find? fun m => m.2.image == some id with
  | none => s
  | some (mv, m) => driveAll (moveEnded mv m false (abandonMove mv s))

/-- FLASH_PROGRAM_DONE. -/
def execFlashProgramDone (id : Nat) (ok : Bool) (s : State) : Out :=
  .next (unlessStopped (fun s => if !inStaging s id then s else if ok then programGood id s else programBad id s) s)

end Sys2Proof.Machine
end

