-- ==== Sys2Proof/Machine/Dispatch.lean ====
section
/-! DEFINITION. Dispatch: one arm per command, each one direct call of its meaning. -/

namespace Sys2Proof.Machine

open Sys2Proof

/-- The effect of a command on everything but the queue. -/
def exec (i : Instr) (s : State) : Host.Outcome State Fault Refusal :=
  match i with
  | .vin60Contact vin => Sys2Proof.Machine.execVin60Contact vin s
  | .softStartDone vin => Sys2Proof.Machine.execSoftStartDone vin s
  | .prsntEarlyHigh => Sys2Proof.Machine.execPrsntEarlyHigh s
  | .outputsEnable => Sys2Proof.Machine.execOutputsEnable s
  | .prsntLateHigh => Sys2Proof.Machine.execPrsntLateHigh s
  | .pwrfailAssert => Sys2Proof.Machine.execPwrfailAssert s
  | .undervoltage vin => Sys2Proof.Machine.execUndervoltage vin s
  | .overvoltageShutdown vin => Sys2Proof.Machine.execOvervoltageShutdown vin s
  | .diodeReverseCurrent => Sys2Proof.Machine.execDiodeReverseCurrent s
  | .windowFlushDone => Sys2Proof.Machine.execWindowFlushDone s
  | .bankChargeDone energy => Sys2Proof.Machine.execBankChargeDone energy s
  | .bankBelowReady => Sys2Proof.Machine.execBankBelowReady s
  | .unplugRequest => Sys2Proof.Machine.execUnplugRequest s
  | .quiesceOpDeadline => Sys2Proof.Machine.execQuiesceOpDeadline s
  | .sensorSample n temp => Sys2Proof.Machine.execSensorSample n temp s
  | .thermalLevelExit => Sys2Proof.Machine.execThermalLevelExit s
  | .powerLevelStepDown => Sys2Proof.Machine.execPowerLevelStepDown s
  | .leakResponse => Sys2Proof.Machine.execLeakResponse s
  | .lossOfLock => Sys2Proof.Machine.execLossOfLock s
  | .epochPrewrite => Sys2Proof.Machine.execEpochPrewrite s
  | .cclkWrap => Sys2Proof.Machine.execCclkWrap s
  | .rstLFall => Sys2Proof.Machine.execRstLFall s
  | .rstLRise lines => Sys2Proof.Machine.execRstLRise lines s
  | .cfgRestart path key => Sys2Proof.Machine.execCfgRestart path key s
  | .refclkPresent badWords => Sys2Proof.Machine.execRefclkPresent badWords s
  | .pllLock straps => Sys2Proof.Machine.execPllLock straps s
  | .imageSlotChecked img => Sys2Proof.Machine.execImageSlotChecked img s
  | .sensorTrimDone => Sys2Proof.Machine.execSensorTrimDone s
  | .hbmTrainingDone ppr failed => Sys2Proof.Machine.execHbmTrainingDone ppr failed s
  | .hbmZeroDone => Sys2Proof.Machine.execHbmZeroDone s
  | .onfiTrainingDone geo present offline => Sys2Proof.Machine.execOnfiTrainingDone geo present offline s
  | .arrayChecksDone banks rows tally => Sys2Proof.Machine.execArrayChecksDone banks rows tally s
  | .coreSelfTestDone bad => Sys2Proof.Machine.execCoreSelfTestDone bad s
  | .opticalCalibrationDone bays lanes => Sys2Proof.Machine.execOpticalCalibrationDone bays lanes s
  | .serviceStartDone => Sys2Proof.Machine.execServiceStartDone s
  | .rdyAssert => Sys2Proof.Machine.execRdyAssert s
  | .blockPassDone => Sys2Proof.Machine.execBlockPassDone s
  | .regionScanDone => Sys2Proof.Machine.execRegionScanDone s
  | .ondemandScanDone => Sys2Proof.Machine.execOndemandScanDone s
  | .linkUp port peer => Sys2Proof.Machine.execLinkUp port peer s
  | .portDown port => Sys2Proof.Machine.execPortDown port s
  | .laserBayLow bay removed power => Sys2Proof.Machine.execLaserBayLow bay removed power s
  | .laneMarginFail port lane => Sys2Proof.Machine.execLaneMarginFail port lane s
  | .subReq port lane => Sys2Proof.Machine.execSubReq port lane s
  | .subReady port lane => Sys2Proof.Machine.execSubReady port lane s
  | .subDone port lane => Sys2Proof.Machine.execSubDone port lane s
  | .frameReceive port f => Sys2Proof.Machine.execFrameReceive port f s
  | .flitForward port flit => Sys2Proof.Machine.execFlitForward port flit s
  | .rdUnc h addr len => Sys2Proof.Machine.execRdUnc h addr len s
  | .wrUnc h addr mask data => Sys2Proof.Machine.execWrUnc h addr mask data s
  | .rdS h addr => Sys2Proof.Machine.execRdS h addr s
  | .rdE h addr => Sys2Proof.Machine.execRdE h addr s
  | .upg h addr => Sys2Proof.Machine.execUpg h addr s
  | .wb h addr data => Sys2Proof.Machine.execWb h addr data s
  | .snpResp h addr data wbPending => Sys2Proof.Machine.execSnpResp h addr data wbPending s
  | .snoopTimeout addr node => Sys2Proof.Machine.execSnoopTimeout addr node s
  | .doorbell h ring first cqHead count entries => Sys2Proof.Machine.execDoorbell h ring first cqHead count entries s
  | .data h poison bytes => Sys2Proof.Machine.execData h poison bytes s
  | .ack h => Sys2Proof.Machine.execAck h s
  | .nak h status => Sys2Proof.Machine.execNak h status s
  | .requesterReadTimeout tag => Sys2Proof.Machine.execRequesterReadTimeout tag s
  | .tileAckTimeout tag => Sys2Proof.Machine.execTileAckTimeout tag s
  | .tileSend op => Sys2Proof.Machine.execTileSend op s
  | .completionWrite ring => Sys2Proof.Machine.execCompletionWrite ring s
  | .ringDrainDone ring => Sys2Proof.Machine.execRingDrainDone ring s
  | .unknownOp ring => Sys2Proof.Machine.execUnknownOp ring s
  | .seqOpen ring => Sys2Proof.Machine.execSeqOpen ring s
  | .seqClose ring => Sys2Proof.Machine.execSeqClose ring s
  | .seqFork ring => Sys2Proof.Machine.execSeqFork ring s
  | .kvAppend ring => Sys2Proof.Machine.execKvAppend ring s
  | .ladderDemoteTimeout op => Sys2Proof.Machine.execLadderDemoteTimeout op s
  | .freedRunService part => Sys2Proof.Machine.execFreedRunService part s
  | .encodeDone part => Sys2Proof.Machine.execEncodeDone part s
  | .translationDrainDone id => Sys2Proof.Machine.execTranslationDrainDone id s
  | .ticketWrite part => Sys2Proof.Machine.execTicketWrite part s
  | .mdLoad path => Sys2Proof.Machine.execMdLoad path s
  | .mdRead path => Sys2Proof.Machine.execMdRead path s
  | .mdUnload path => Sys2Proof.Machine.execMdUnload path s
  | .pfxLookup ring => Sys2Proof.Machine.execPfxLookup ring s
  | .pfxPublish ring => Sys2Proof.Machine.execPfxPublish ring s
  | .publishWaitEnd op => Sys2Proof.Machine.execPublishWaitEnd op s
  | .pfxRetire ring => Sys2Proof.Machine.execPfxRetire ring s
  | .policyInsert path => Sys2Proof.Machine.execPolicyInsert path s
  | .policyDelete path => Sys2Proof.Machine.execPolicyDelete path s
  | .policyRead path => Sys2Proof.Machine.execPolicyRead path s
  | .pmaPatrolRead errors => Sys2Proof.Machine.execPmaPatrolRead errors s
  | .attnDecode ring => Sys2Proof.Machine.execAttnDecode ring s
  | .attnChunk ring => Sys2Proof.Machine.execAttnChunk ring s
  | .attnBwd ring => Sys2Proof.Machine.execAttnBwd ring s
  | .kvFetch ring => Sys2Proof.Machine.execKvFetch ring s
  | .kvPrefetch ring => Sys2Proof.Machine.execKvPrefetch ring s
  | .workUnitDispatch cluster core => Sys2Proof.Machine.execWorkUnitDispatch cluster core s
  | .workUnitEnd cluster core => Sys2Proof.Machine.execWorkUnitEnd cluster core s
  | .objHint ring => Sys2Proof.Machine.execObjHint ring s
  | .objMigrate ring => Sys2Proof.Machine.execObjMigrate ring s
  | .heatHalving => Sys2Proof.Machine.execHeatHalving s
  | .halvingSweepEnd => Sys2Proof.Machine.execHalvingSweepEnd s
  | .backgroundMove part => Sys2Proof.Machine.execBackgroundMove part s
  | .moveCopyDone move ok => Sys2Proof.Machine.execMoveCopyDone move ok s
  | .tierQuotaWrite path part k value => Sys2Proof.Machine.execTierQuotaWrite path part k value s
  | .wtLoad ring => Sys2Proof.Machine.execWtLoad ring s
  | .wtStream ring => Sys2Proof.Machine.execWtStream ring s
  | .extGrant ring => Sys2Proof.Machine.execExtGrant ring s
  | .extZeroDone ext => Sys2Proof.Machine.execExtZeroDone ext s
  | .extRevoke ring index => Sys2Proof.Machine.execExtRevoke ring index s
  | .snoopFilterScanDone ctrl ext => Sys2Proof.Machine.execSnoopFilterScanDone ctrl ext s
  | .gracePeriodEnd ext => Sys2Proof.Machine.execGracePeriodEnd ext s
  | .flashProgramDone id ok => Sys2Proof.Machine.execFlashProgramDone id ok s
  | .flashReadDone target corrected step => Sys2Proof.Machine.execFlashReadDone target corrected step s
  | .writePathTimeout op => Sys2Proof.Machine.execWritePathTimeout op s
  | .fold unit => Sys2Proof.Machine.execFold unit s
  | .gcCollect die => Sys2Proof.Machine.execGcCollect die s
  | .stripeCloseVerify stripe corrected => Sys2Proof.Machine.execStripeCloseVerify stripe corrected s
  | .flashPatrol stripe corrected => Sys2Proof.Machine.execFlashPatrol stripe corrected s
  | .writeHeatHalving => Sys2Proof.Machine.execWriteHeatHalving s
  | .catalogCompaction => Sys2Proof.Machine.execCatalogCompaction s
  | .reserveRefill => Sys2Proof.Machine.execReserveRefill s
  | .discard ring => Sys2Proof.Machine.execDiscard ring s
  | .discardSecure ring => Sys2Proof.Machine.execDiscardSecure ring s
  | .hourOfService junction flash => Sys2Proof.Machine.execHourOfService junction flash s
  | .step ring => Sys2Proof.Machine.execStep ring s
  | .stepSubchunkIssue op => Sys2Proof.Machine.execStepSubchunkIssue op s
  | .ctxWrite path => Sys2Proof.Machine.execCtxWrite path s
  | .ctxRead path => Sys2Proof.Machine.execCtxRead path s
  | .ctxDisable path => Sys2Proof.Machine.execCtxDisable path s
  | .quantumExpiry part => Sys2Proof.Machine.execQuantumExpiry part s
  | .cheapPointStop cluster core bytes => Sys2Proof.Machine.execCheapPointStop cluster core bytes s
  | .cheapWaitExpiry part => Sys2Proof.Machine.execCheapWaitExpiry part s
  | .saveDone part => Sys2Proof.Machine.execSaveDone part s
  | .scrubDone part => Sys2Proof.Machine.execScrubDone part s
  | .restoreDone part => Sys2Proof.Machine.execRestoreDone part s
  | .deadlineEvaluation op => Sys2Proof.Machine.execDeadlineEvaluation op s
  | .slowdownPublish => Sys2Proof.Machine.execSlowdownPublish s
  | .sramUncorrectable cluster site => Sys2Proof.Machine.execSramUncorrectable cluster site s
  | .microcodeTrap cluster => Sys2Proof.Machine.execMicrocodeTrap cluster s
  | .cheapPointTimeout cluster => Sys2Proof.Machine.execCheapPointTimeout cluster s
  | .fabricPortProtocolError cluster => Sys2Proof.Machine.execFabricPortProtocolError cluster s
  | .partitionResetWrite path part => Sys2Proof.Machine.execPartitionResetWrite path part s
  | .partitionResetDone part bad => Sys2Proof.Machine.execPartitionResetDone part bad s
  | .kmRequestReceive session code flags len kmSeq named rest => Sys2Proof.Machine.execKmRequestReceive session code flags len kmSeq named rest s
  | .kmTenantCreate session => Sys2Proof.Machine.execKmTenantCreate session s
  | .kmTenantRemove session => Sys2Proof.Machine.execKmTenantRemove session s
  | .removeDrainDone => Sys2Proof.Machine.execRemoveDrainDone s
  | .kmJobOpen session => Sys2Proof.Machine.execKmJobOpen session s
  | .kmJobClose session => Sys2Proof.Machine.execKmJobClose session s
  | .kmPeerOpen session => Sys2Proof.Machine.execKmPeerOpen session s
  | .getVersion h body => Sys2Proof.Machine.execGetVersion h body s
  | .getCapabilities h body => Sys2Proof.Machine.execGetCapabilities h body s
  | .negotiateAlgorithms h body => Sys2Proof.Machine.execNegotiateAlgorithms h body s
  | .getDigests h body => Sys2Proof.Machine.execGetDigests h body s
  | .getCertificate h body => Sys2Proof.Machine.execGetCertificate h body s
  | .challenge h body => Sys2Proof.Machine.execChallenge h body s
  | .getMeasurements h body => Sys2Proof.Machine.execGetMeasurements h body s
  | .keyExchange h body => Sys2Proof.Machine.execKeyExchange h body s
  | .finish h body => Sys2Proof.Machine.execFinish h body s
  | .endSession h body => Sys2Proof.Machine.execEndSession h body s
  | .spdmUnsupported h code body => Sys2Proof.Machine.execSpdmUnsupported h code body s
  | .fuseProgram path key slot => Sys2Proof.Machine.execFuseProgram path key slot s
  | .fuseRevoke path key slot => Sys2Proof.Machine.execFuseRevoke path key slot s
  | .debugHalt path halt => Sys2Proof.Machine.execDebugHalt path halt s
  | .debugStep path => Sys2Proof.Machine.execDebugStep path s
  | .debugDataAccess path write => Sys2Proof.Machine.execDebugDataAccess path write s
  | .tenantViewSnapshot => Sys2Proof.Machine.execTenantViewSnapshot s
  | .powerViewSnapshot => Sys2Proof.Machine.execPowerViewSnapshot s
  | .hbmBackgroundZero part start len => Sys2Proof.Machine.execHbmBackgroundZero part start len s
  | .bankRebuildDone bank => Sys2Proof.Machine.execBankRebuildDone bank s
  | .hbmUncorrectable addr => Sys2Proof.Machine.execHbmUncorrectable addr s
  | .hbmCorrectedError stack block => Sys2Proof.Machine.execHbmCorrectedError stack block s
  | .hbmRemapDone stack block => Sys2Proof.Machine.execHbmRemapDone stack block s
  | .bridgeCrcLimit die errors => Sys2Proof.Machine.execBridgeCrcLimit die errors s
  | .bridgeRetrainDone die ok => Sys2Proof.Machine.execBridgeRetrainDone die ok s
  | .fatalMemoryInternal memory unit detail hit => Sys2Proof.Machine.execFatalMemoryInternal memory unit detail hit s
  | .saddlebagEventWrite => Sys2Proof.Machine.execSaddlebagEventWrite s
  | .suppressionIntervalEnd => Sys2Proof.Machine.execSuppressionIntervalEnd s
  | .saddlebagCopyDone => Sys2Proof.Machine.execSaddlebagCopyDone s
  | .operatorSnapshot path => Sys2Proof.Machine.execOperatorSnapshot path s
  | .holdSlot path slot => Sys2Proof.Machine.execHoldSlot path slot s
  | .releaseSlot path slot => Sys2Proof.Machine.execReleaseSlot path slot s
  | .bbxReadDataRead path => Sys2Proof.Machine.execBbxReadDataRead path s
  | .tlyWordWrite path value => Sys2Proof.Machine.execTlyWordWrite path value s
  | .helloInterval => Sys2Proof.Machine.execHelloInterval s
  | .hello h pos view mask epoch digest => Sys2Proof.Machine.execHello h pos view mask epoch digest s
  | .positionDead pos => Sys2Proof.Machine.execPositionDead pos s
  | .search h view owner bankSet sid keys => Sys2Proof.Machine.execSearch h view owner bankSet sid keys s
  | .searchAck h sid prios => Sys2Proof.Machine.execSearchAck h sid prios s
  | .claim h view sid won => Sys2Proof.Machine.execClaim h view sid won s
  | .result h sid entries => Sys2Proof.Machine.execResult h sid entries s
  | .read h handle layer offset len => Sys2Proof.Machine.execRead h handle layer offset len s
  | .pageData h status bytes => Sys2Proof.Machine.execPageData h status bytes s
  | .release h entries => Sys2Proof.Machine.execRelease h entries s
  | .peerReadTimeout tag => Sys2Proof.Machine.execPeerReadTimeout tag s
  | .nop ring => Sys2Proof.Machine.execNop ring s
  | .mgmtRd h off len => Sys2Proof.Machine.execMgmtRd h off len s
  | .mgmtWr h off bytes => Sys2Proof.Machine.execMgmtWr h off bytes s
  | .spdm h code body => Sys2Proof.Machine.execSpdm h code body s
  | .i3cPrivateWrite bytes => Sys2Proof.Machine.execI3cPrivateWrite bytes s
  | .i3cPrivateRead words => Sys2Proof.Machine.execI3cPrivateRead words s
  | .entdaa addr => Sys2Proof.Machine.execEntdaa addr s
  | .setdasa addr => Sys2Proof.Machine.execSetdasa addr s
  | .rstdaa => Sys2Proof.Machine.execRstdaa s
  | .getpid => Sys2Proof.Machine.execGetpid s
  | .getbcr => Sys2Proof.Machine.execGetbcr s
  | .getdcr => Sys2Proof.Machine.execGetdcr s
  | .getstatus => Sys2Proof.Machine.execGetstatus s
  | .rngWriteEntry path => Sys2Proof.Machine.execRngWriteEntry path s
  | .rngReadEntry path => Sys2Proof.Machine.execRngReadEntry path s
  | .rngSetDrain path => Sys2Proof.Machine.execRngSetDrain path s
  | .topCclkLoRead path => Sys2Proof.Machine.execTopCclkLoRead path s
  | .atnKeysLoRead path => Sys2Proof.Machine.execAtnKeysLoRead path s
  | .ftlSeqLoRead path => Sys2Proof.Machine.execFtlSeqLoRead path s
  | .schAcctCycLoRead path => Sys2Proof.Machine.execSchAcctCycLoRead path s
  | .schAcctSaveLoRead path => Sys2Proof.Machine.execSchAcctSaveLoRead path s
  | .registerWrite path off value => Sys2Proof.Machine.execRegisterWrite path off value s
  | .stirrupBeat value => Sys2Proof.Machine.execStirrupBeat value s
  | .powerGovernorMeasure vin power level lines => Sys2Proof.Machine.execPowerGovernorMeasure vin power level lines s
  | .bankBleedBelow20v => Sys2Proof.Machine.execBankBleedBelow20v s
  | .flashEraseDone die block ok => Sys2Proof.Machine.execFlashEraseDone die block ok s

end Sys2Proof.Machine
end

