-- ==== Sys2Proof/Machine/Idle.lean ====
section
/-! DEFINITION. What an empty queue lets pass: one CCLK edge (R22, log 2), and what then goes on without a command. -/

namespace Sys2Proof.Machine

open Sys2Proof

/-- The CCLK counter advances by one on a CCLK edge while the clock runs, with the prewrite of the next epoch and the wrap in
their places (R22 to R24). -/
def tickClock (s : State) : State :=
  if !s.clk.running then s
  else if now s == 2 ^ 48 - 1 then wrapClock (prewriteEpoch s)
  else
    let s := s.modClk fun c => { c with count := c.count + 1 }
    if now s == 2 ^ 48 - 2 ^ 20 then prewriteEpoch s else s

/-- An edge with no command waiting (log 2): the egress ports take their slots (R114), a response whose next stage has come
takes it, requests that waited in their sources' credits are taken (R98), and ops that can go on do. -/
def idle (s : State) : State := driveAll (pollResp (admitReqs (grantPorts (tickClock s))))

end Sys2Proof.Machine
end

