-- ==== Sys2Proof/Safety.lean ====
section
/-! DEFINITION. The words the statements are made of: parts of State and the frame of a command, the invariant, the fuses, and when a
message, a register access, a start phase and an entry of a ring are served. -/

namespace Sys2Proof.Machine

open Sys2Proof

/-! ### Parts of State, and frames -/

/-- The parts of State, in its own order. -/
inductive StPart where
  | free | pins | pwr | thm | clk | start | img | resp | tly | spare | bbx | link | coh | ext | hbm | rng | io | seqs | pfx | casc | ops
  | attn | core | cdc | tier | wt | ftl | sch | sec | mgmt
  deriving DecidableEq, Repr

/-- Two states agree on a part. -/
def StPart.same (p : StPart) (s t : State) : Prop :=
  match p with
  | .free => t.free = s.free
  | .pins => t.pins = s.pins
  | .pwr => t.pwr = s.pwr
  | .thm => t.thm = s.thm
  | .clk => t.clk = s.clk
  | .start => t.start = s.start
  | .img => t.img = s.img
  | .resp => t.resp = s.resp
  | .tly => t.tly = s.tly
  | .spare => t.spare = s.spare
  | .bbx => t.bbx = s.bbx
  | .link => t.link = s.link
  | .coh => t.coh = s.coh
  | .ext => t.ext = s.ext
  | .hbm => t.hbm = s.hbm
  | .rng => t.rng = s.rng
  | .io => t.io = s.io
  | .seqs => t.seqs = s.seqs
  | .pfx => t.pfx = s.pfx
  | .casc => t.casc = s.casc
  | .ops => t.ops = s.ops
  | .attn => t.attn = s.attn
  | .core => t.core = s.core
  | .cdc => t.cdc = s.cdc
  | .tier => t.tier = s.tier
  | .wt => t.wt = s.wt
  | .ftl => t.ftl = s.ftl
  | .sch => t.sch = s.sch
  | .sec => t.sec = s.sec
  | .mgmt => t.mgmt = s.mgmt

/-- `t` differs from `s` in the listed parts at most; the queue of waiting commands is the same. -/
def Only (l : List StPart) (s t : State) : Prop := t.pending = s.pending ∧ ∀ p : StPart, p ∉ l → p.same s t

/-- Every part but the listed ones. -/
def allBut (l : List StPart) : List StPart :=
  [.free, .pins, .pwr, .thm, .clk, .start, .img, .resp, .tly, .spare, .bbx, .link, .coh, .ext, .hbm, .rng, .io, .seqs,
    .pfx, .casc, .ops, .attn, .core, .cdc, .tier, .wt, .ftl, .sch, .sec, .mgmt].filter fun p => !l.contains p

/-- The parts a command may change: a part none of whose registers, buffers or counters the spec lets the command touch is not
listed. -/
def footprint : Instr → List StPart
  | .vin60Contact _ => allBut [.free]
  | .softStartDone _ => allBut []
  | .prsntEarlyHigh => [.pins, .pwr, .resp, .hbm, .ops]
  | .outputsEnable => [.pins, .start]
  | .prsntLateHigh => allBut []
  | .pwrfailAssert => allBut []
  | .undervoltage _ => allBut []
  | .overvoltageShutdown _ => allBut []
  | .diodeReverseCurrent => [.pwr]
  | .windowFlushDone => allBut []
  | .bankChargeDone _ => [.pwr, .bbx]
  | .bankBelowReady => [.pwr]
  | .unplugRequest => allBut []
  | .quiesceOpDeadline => allBut []
  | .sensorSample _ _ => allBut []
  | .thermalLevelExit => [.pins, .thm]
  | .powerLevelStepDown => [.pins, .pwr]
  | .leakResponse => allBut []
  | .lossOfLock => allBut []
  | .epochPrewrite => allBut []
  | .cclkWrap => allBut []
  | .rstLFall => allBut []
  | .rstLRise _ => allBut [.free]
  | .cfgRestart _ _ => allBut []
  | .refclkPresent _ => allBut []
  | .pllLock _ => [.pins, .clk, .start]
  | .imageSlotChecked _ => allBut []
  | .sensorTrimDone => [.start]
  | .hbmTrainingDone _ _ => allBut []
  | .hbmZeroDone => [.start]
  | .onfiTrainingDone _ _ _ => [.start, .tly, .bbx, .tier, .ftl]
  | .arrayChecksDone _ _ _ => allBut []
  | .coreSelfTestDone _ => [.start, .tly, .spare, .bbx, .sch]
  | .opticalCalibrationDone _ _ => [.start, .tly, .spare, .bbx, .link]
  | .serviceStartDone => [.start]
  | .rdyAssert => [.pins, .start, .tly, .bbx, .link, .hbm, .io, .seqs, .pfx, .casc, .cdc, .tier, .wt, .ftl, .sec]
  | .blockPassDone => allBut [.pins, .pwr, .thm, .clk, .img, .resp, .tly, .spare, .ext, .core, .mgmt]
  | .regionScanDone => allBut [.pins, .pwr, .thm, .clk, .img, .resp, .tly, .spare, .ext, .core, .mgmt]
  | .ondemandScanDone => allBut [.pins, .pwr, .thm, .clk, .img, .resp, .tly, .spare, .ext, .core, .mgmt]
  | .linkUp _ _ => [.link]
  | .portDown _ => [.link]
  | .laserBayLow _ _ _ => [.tly, .spare, .bbx, .link]
  | .laneMarginFail _ _ => [.free, .tly, .spare, .bbx, .link]
  | .subReq _ _ => [.free, .link]
  | .subReady _ _ => [.free, .tly, .spare, .bbx, .link]
  | .subDone _ _ => [.tly, .spare, .bbx, .link]
  | .frameReceive _ _ => [.link, .sec]
  | .flitForward _ _ => [.link]
  | .rdUnc _ _ _ => allBut [.pins, .pwr, .thm, .clk, .start, .img, .resp, .tly, .spare, .pfx, .attn, .core, .mgmt]
  | .wrUnc _ _ _ _ => allBut [.pins, .pwr, .thm, .clk, .start, .img, .resp, .tly, .spare, .pfx, .attn, .core, .mgmt]
  | .rdS _ _ => allBut [.pins, .pwr, .thm, .clk, .start, .img, .resp, .tly, .spare, .pfx, .attn, .core, .mgmt]
  | .rdE _ _ => allBut [.pins, .pwr, .thm, .clk, .start, .img, .resp, .tly, .spare, .pfx, .attn, .core, .mgmt]
  | .upg _ _ => allBut [.pins, .pwr, .thm, .clk, .start, .img, .resp, .tly, .spare, .pfx, .attn, .core, .mgmt]
  | .wb _ _ _ => allBut [.pins, .pwr, .thm, .clk, .start, .img, .resp, .tly, .spare, .pfx, .attn, .core, .mgmt]
  | .snpResp _ _ _ _ => allBut [.pins, .pwr, .thm, .clk, .start, .img, .resp, .tly, .spare, .pfx, .attn, .core, .mgmt]
  | .snoopTimeout _ _ => allBut [.pins, .pwr, .thm, .clk, .start, .img, .resp, .tly, .spare, .pfx, .attn, .core, .mgmt]
  | .doorbell _ _ _ _ _ _ => [.bbx, .link, .coh, .ext, .rng, .io, .ops, .attn, .sch, .sec]
  | .data _ _ _ => allBut [.pins, .pwr, .thm, .clk, .start, .img, .resp, .tly, .spare, .ext, .core, .mgmt]
  | .ack _ => [.free, .link, .hbm, .rng, .io, .seqs, .casc, .ops, .attn, .cdc, .tier, .wt, .ftl, .sch, .sec]
  | .nak _ _ => allBut [.pins, .pwr, .thm, .clk, .start, .img, .resp, .tly, .spare, .ext, .core, .mgmt]
  | .requesterReadTimeout _ => allBut [.pins, .pwr, .thm, .clk, .start, .img, .resp, .tly, .spare, .ext, .core, .mgmt]
  | .tileAckTimeout _ => [.free, .link, .hbm, .rng, .io, .seqs, .casc, .ops, .attn, .cdc, .tier, .wt, .ftl, .sch, .sec]
  | .tileSend _ => [.free, .link, .hbm, .rng, .io, .seqs, .casc, .ops, .attn, .cdc, .tier, .wt, .ftl, .sch, .sec]
  | .completionWrite _ => [.link, .rng, .io, .sec]
  | .ringDrainDone _ => [.hbm, .rng]
  | .unknownOp _ => [.rng, .sch]
  | .seqOpen _ => [.link, .coh, .hbm, .rng, .io, .seqs, .pfx, .casc, .ops, .cdc, .tier, .wt, .ftl, .sch, .sec]
  | .seqClose _ => [.link, .hbm, .rng, .io, .seqs, .casc, .ops, .cdc, .tier, .wt, .ftl, .sch, .sec]
  | .seqFork _ => [.link, .coh, .hbm, .rng, .io, .seqs, .pfx, .casc, .ops, .cdc, .tier, .wt, .ftl, .sch, .sec]
  | .kvAppend _ => allBut [.pins, .pwr, .thm, .clk, .start, .img, .resp, .tly, .spare, .bbx, .ext, .attn, .core, .mgmt]
  | .ladderDemoteTimeout _ => allBut [.pins, .pwr, .thm, .clk, .start, .img, .resp, .tly, .spare, .bbx, .ext, .attn, .core, .mgmt]
  | .freedRunService _ => [.coh, .hbm, .seqs, .cdc, .wt, .ftl]
  | .encodeDone _ => [.coh, .hbm, .seqs, .cdc, .tier, .wt, .ftl]
  | .translationDrainDone _ => allBut [.pins, .pwr, .thm, .clk, .start, .img, .resp, .tly, .spare, .ext, .core, .mgmt]
  | .ticketWrite _ => [.link, .rng, .io, .seqs, .sec]
  | .mdLoad _ => [.seqs, .sec]
  | .mdRead _ => [.seqs]
  | .mdUnload _ => [.seqs]
  | .pfxLookup _ => [.link, .coh, .hbm, .rng, .io, .seqs, .pfx, .casc, .ops, .cdc, .tier, .wt, .ftl, .sch, .sec]
  | .pfxPublish _ => [.link, .coh, .hbm, .rng, .io, .seqs, .pfx, .casc, .ops, .cdc, .tier, .wt, .ftl, .sch, .sec]
  | .publishWaitEnd _ => [.link, .hbm, .rng, .io, .seqs, .pfx, .casc, .ops, .cdc, .tier, .wt, .ftl, .sch, .sec]
  | .pfxRetire _ => [.link, .hbm, .rng, .io, .seqs, .pfx, .casc, .ops, .cdc, .tier, .wt, .ftl, .sch, .sec]
  | .policyInsert _ => [.pfx]
  | .policyDelete _ => [.pfx]
  | .policyRead _ => [.pfx]
  | .pmaPatrolRead _ => allBut []
  | .attnDecode _ => [.link, .hbm, .rng, .io, .seqs, .casc, .ops, .attn, .cdc, .tier, .wt, .ftl, .sch, .sec]
  | .attnChunk _ => [.link, .hbm, .rng, .io, .seqs, .casc, .ops, .attn, .cdc, .tier, .wt, .ftl, .sch, .sec]
  | .attnBwd _ => [.link, .hbm, .rng, .io, .seqs, .casc, .ops, .attn, .cdc, .tier, .wt, .ftl, .sch, .sec]
  | .kvFetch _ => [.link, .hbm, .rng, .io, .seqs, .casc, .ops, .attn, .cdc, .tier, .wt, .ftl, .sch, .sec]
  | .kvPrefetch _ => allBut [.pins, .pwr, .thm, .clk, .start, .img, .resp, .tly, .spare, .ext, .core, .mgmt]
  | .workUnitDispatch _ _ => [.link, .io, .seqs, .casc, .ops, .attn, .core, .sch, .sec]
  | .workUnitEnd _ _ => allBut [.pins, .pwr, .thm, .clk, .start, .img, .resp, .tly, .spare, .bbx, .pfx, .core, .mgmt]
  | .objHint _ => [.link, .hbm, .rng, .io, .seqs, .ops, .cdc, .tier, .wt, .ftl, .sch, .sec]
  | .objMigrate _ => [.link, .coh, .hbm, .rng, .io, .seqs, .casc, .ops, .cdc, .tier, .wt, .ftl, .sch, .sec]
  | .heatHalving => [.tier]
  | .halvingSweepEnd => [.tier]
  | .backgroundMove _ => [.coh, .hbm, .seqs, .cdc, .tier, .wt, .ftl]
  | .moveCopyDone _ _ => allBut [.pins, .pwr, .thm, .clk, .start, .img, .resp, .tly, .spare, .ext, .core, .mgmt]
  | .tierQuotaWrite _ _ _ _ => [.tly, .bbx, .hbm, .seqs, .tier, .wt, .ftl]
  | .wtLoad _ => [.link, .coh, .hbm, .rng, .io, .seqs, .casc, .ops, .cdc, .tier, .wt, .ftl, .sch, .sec]
  | .wtStream _ => [.link, .hbm, .rng, .io, .seqs, .casc, .ops, .cdc, .tier, .wt, .ftl, .sch, .sec]
  | .extGrant _ => [.link, .coh, .ext, .hbm, .rng, .io, .ops, .ftl, .sch, .sec]
  | .extZeroDone _ => [.link, .ext, .hbm, .rng, .io, .seqs, .casc, .ops, .cdc, .tier, .wt, .ftl, .sch, .sec]
  | .extRevoke _ _ => allBut [.pins, .pwr, .thm, .clk, .start, .img, .resp, .tly, .spare, .bbx, .pfx, .attn, .core, .mgmt]
  | .snoopFilterScanDone _ _ => allBut [.pins, .pwr, .thm, .clk, .start, .img, .resp, .tly, .spare, .bbx, .pfx, .attn, .core, .mgmt]
  | .gracePeriodEnd _ => allBut [.pins, .pwr, .thm, .clk, .start, .img, .resp, .tly, .spare, .pfx, .attn, .core, .mgmt]
  | .flashProgramDone _ _ => allBut [.pins, .pwr, .thm, .clk, .start, .img, .resp, .tly, .spare, .ext, .core, .mgmt]
  | .flashReadDone _ _ _ => [.link, .hbm, .io, .seqs, .pfx, .casc, .cdc, .tier, .wt, .ftl, .sec]
  | .writePathTimeout _ => [.link, .coh, .hbm, .rng, .io, .seqs, .casc, .ops, .cdc, .tier, .wt, .ftl, .sch, .sec]
  | .fold _ => [.hbm, .seqs, .wt, .ftl]
  | .gcCollect _ => [.ftl]
  | .stripeCloseVerify _ _ => [.ftl]
  | .flashPatrol _ _ => [.ftl]
  | .writeHeatHalving => [.ftl]
  | .catalogCompaction => [.ftl]
  | .reserveRefill => [.ftl]
  | .discard _ => [.link, .hbm, .rng, .io, .seqs, .pfx, .casc, .ops, .cdc, .tier, .wt, .ftl, .sch, .sec]
  | .discardSecure _ => [.link, .hbm, .rng, .io, .seqs, .pfx, .casc, .ops, .cdc, .tier, .wt, .ftl, .sch, .sec]
  | .hourOfService _ _ => [.tly, .bbx]
  | .step _ => [.link, .hbm, .rng, .io, .seqs, .casc, .ops, .attn, .cdc, .tier, .wt, .ftl, .sch, .sec]
  | .stepSubchunkIssue _ => allBut [.pins, .pwr, .thm, .clk, .start, .img, .resp, .tly, .spare, .bbx, .ext, .core, .mgmt]
  | .ctxWrite _ => [.sch]
  | .ctxRead _ => [.sch]
  | .ctxDisable _ => [.sch]
  | .quantumExpiry _ => [.attn, .sch]
  | .cheapPointStop _ _ _ => [.attn, .sch]
  | .cheapWaitExpiry _ => [.attn, .sch]
  | .saveDone _ => [.ops, .attn, .sch]
  | .scrubDone _ => allBut [.pins, .pwr, .thm, .clk, .start, .img, .resp, .mgmt]
  | .restoreDone _ => [.attn, .core, .sch]
  | .deadlineEvaluation _ => [.link, .hbm, .rng, .io, .seqs, .casc, .ops, .attn, .cdc, .tier, .wt, .ftl, .sch, .sec]
  | .slowdownPublish => [.sch]
  | .sramUncorrectable _ _ => allBut [.pins, .pwr, .thm, .clk, .start, .img, .resp, .tly, .core, .mgmt]
  | .microcodeTrap _ => allBut [.pins, .pwr, .thm, .clk, .start, .img, .resp, .tly, .spare, .core, .mgmt]
  | .cheapPointTimeout _ => allBut [.pins, .pwr, .thm, .clk, .start, .img, .resp, .tly, .spare, .core, .mgmt]
  | .fabricPortProtocolError _ => allBut [.pins, .pwr, .thm, .clk, .start, .img, .resp, .tly, .spare, .core, .mgmt]
  | .partitionResetWrite _ _ => allBut [.pins, .pwr, .thm, .clk, .start, .img, .resp, .tly, .spare, .core, .mgmt]
  | .partitionResetDone _ _ => [.tly, .spare, .bbx, .sch]
  | .kmRequestReceive _ _ _ _ _ _ _ => [.bbx, .sec]
  | .kmTenantCreate _ => [.free, .link, .sec]
  | .kmTenantRemove _ => allBut [.pins, .pwr, .thm, .clk, .start, .img, .resp, .tly, .spare, .core, .mgmt]
  | .removeDrainDone => allBut [.pins, .pwr, .thm, .clk, .start, .img, .resp, .tly, .spare, .core, .mgmt]
  | .kmJobOpen _ => [.link, .sec]
  | .kmJobClose _ => allBut [.pins, .pwr, .thm, .clk, .start, .img, .resp, .tly, .spare, .core, .mgmt]
  | .kmPeerOpen _ => [.link, .sec]
  | .getVersion _ _ => [.free, .link, .sec]
  | .getCapabilities _ _ => [.free, .link, .sec]
  | .negotiateAlgorithms _ _ => [.free, .link, .sec]
  | .getDigests _ _ => [.free, .link, .sec]
  | .getCertificate _ _ => [.free, .link, .sec]
  | .challenge _ _ => [.free, .link, .sec]
  | .getMeasurements _ _ => [.free, .link, .sec]
  | .keyExchange _ _ => [.free, .link, .sec]
  | .finish _ _ => [.free, .link, .sec]
  | .endSession _ _ => [.free, .link, .sec]
  | .spdmUnsupported _ _ _ => [.free, .link, .sec]
  | .fuseProgram _ _ _ => [.sec]
  | .fuseRevoke _ _ _ => [.sec]
  | .debugHalt _ _ => [.bbx, .attn, .core, .sec]
  | .debugStep _ => [.bbx, .core, .sec]
  | .debugDataAccess _ _ => [.free, .bbx, .link, .core, .sec, .mgmt]
  | .tenantViewSnapshot => [.mgmt]
  | .powerViewSnapshot => [.pwr]
  | .hbmBackgroundZero _ _ _ => [.hbm]
  | .bankRebuildDone _ => [.spare, .bbx, .pfx]
  | .hbmUncorrectable _ => [.tly, .spare, .bbx, .coh]
  | .hbmCorrectedError _ _ => [.tly, .spare, .bbx]
  | .hbmRemapDone _ _ => [.tly, .spare, .bbx]
  | .bridgeCrcLimit _ _ => [.spare, .bbx]
  | .bridgeRetrainDone _ _ => allBut []
  | .fatalMemoryInternal _ _ _ _ => allBut []
  | .saddlebagEventWrite => [.bbx]
  | .suppressionIntervalEnd => [.bbx, .cdc]
  | .saddlebagCopyDone => allBut [.free]
  | .operatorSnapshot _ => [.bbx]
  | .holdSlot _ _ => [.bbx]
  | .releaseSlot _ _ => [.bbx]
  | .bbxReadDataRead _ => [.free, .bbx, .link, .core, .sec, .mgmt]
  | .tlyWordWrite _ _ => [.tly, .bbx]
  | .helloInterval => [.link, .coh, .hbm, .rng, .io, .seqs, .pfx, .casc, .ops, .cdc, .tier, .wt, .ftl, .sch, .sec]
  | .hello _ _ _ _ _ _ => allBut [.free, .pwr, .thm, .clk, .start, .img, .resp, .tly, .spare, .bbx, .ext, .attn, .core, .mgmt]
  | .positionDead _ => allBut [.free, .pwr, .thm, .clk, .start, .img, .resp, .tly, .spare, .bbx, .ext, .attn, .core, .mgmt]
  | .search _ _ _ _ _ _ => [.link, .pfx, .casc, .sec]
  | .searchAck _ _ _ => [.link, .coh, .hbm, .rng, .io, .seqs, .pfx, .casc, .ops, .cdc, .tier, .wt, .ftl, .sch, .sec]
  | .claim _ _ _ _ => [.link, .coh, .hbm, .seqs, .pfx, .casc, .sec]
  | .result _ _ _ => [.link, .coh, .hbm, .rng, .io, .seqs, .pfx, .casc, .ops, .cdc, .tier, .wt, .ftl, .sch, .sec]
  | .read _ _ _ _ _ => [.link, .io, .casc, .tier, .sec]
  | .pageData _ _ _ => [.link, .hbm, .io, .seqs, .pfx, .casc, .cdc, .tier, .wt, .ftl, .sec]
  | .release _ _ => [.link, .hbm, .io, .seqs, .casc, .cdc, .tier, .wt, .ftl, .sec]
  | .peerReadTimeout _ => [.link, .casc, .sec]
  | .nop _ => [.link, .rng, .io, .ops, .ftl, .sch, .sec]
  | .mgmtRd _ _ _ => [.free, .bbx, .link, .core, .sec, .mgmt]
  | .mgmtWr _ _ _ => allBut []
  | .spdm _ _ _ => [.free, .link, .sec]
  | .i3cPrivateWrite _ => allBut []
  | .i3cPrivateRead _ => [.free, .bbx, .link, .core, .sec, .mgmt]
  | .entdaa _ => [.link, .sec, .mgmt]
  | .setdasa _ => [.link, .sec, .mgmt]
  | .rstdaa => [.link, .sec, .mgmt]
  | .getpid => [.link, .sec, .mgmt]
  | .getbcr => [.link, .sec, .mgmt]
  | .getdcr => [.link, .sec, .mgmt]
  | .getstatus => [.free, .link, .sec, .mgmt]
  | .rngWriteEntry _ => [.hbm, .rng, .sch]
  | .rngReadEntry _ => [.rng]
  | .rngSetDrain _ => [.rng]
  | .topCclkLoRead _ => [.free, .bbx, .link, .core, .sec, .mgmt]
  | .atnKeysLoRead _ => [.free, .bbx, .link, .core, .sec, .mgmt]
  | .ftlSeqLoRead _ => [.free, .bbx, .link, .core, .sec, .mgmt]
  | .schAcctCycLoRead _ => [.free, .bbx, .link, .core, .sec, .mgmt]
  | .schAcctSaveLoRead _ => [.free, .bbx, .link, .core, .sec, .mgmt]
  | .registerWrite _ _ _ => allBut []
  | .stirrupBeat _ => [.link, .coh, .hbm, .rng, .io, .seqs, .pfx, .casc, .ops, .cdc, .tier, .wt, .ftl, .sch, .sec]
  | .powerGovernorMeasure _ _ _ _ => [.pins, .pwr, .thm]
  | .bankBleedBelow20v => [.pwr]
  | .flashEraseDone _ _ _ => [.link, .hbm, .rng, .io, .seqs, .pfx, .casc, .ops, .cdc, .tier, .wt, .ftl, .sch, .sec]

/-! ### The invariant and the fuses -/

/-- RDY is low during a start (R59, R74). -/
def RdyOk (s : State) : Prop := s.pins.rdy = true → s.start.active = false

/-- The accepted entries of a ring are in the order of their numbers, and the ring has given out no higher one (R118, R119). -/
def RingOk (r : Ring) : Prop := (r.entries.map (·.idx)).Pairwise (· < ·) ∧ ∀ e ∈ r.entries, e.idx < r.taken

/-- Every ring pair is so. -/
def RingsOk (r : Rng) : Prop := ∀ x ∈ r.rings, RingOk x.2

/-- The invariant: the memory of the extents is in canonical form, RDY is low during a start, and the accepted entries of every ring
are in order, no two with one number. -/
def Inv (s : State) : Prop := memWf s.coh.mem = true ∧ RdyOk s ∧ RingsOk s.rng

/-- The fuses of `r` stand in `t`: a programmed root slot keeps its digest, a revoked one stays revoked (R376, R395). -/
def FusesKept (r t : List Root) : Prop :=
  ∀ i, ((nth r i {}).programmed = true → (nth t i {}).programmed = true ∧ (nth t i {}).digest = (nth r i {}).digest) ∧
    ((nth r i {}).revoked = true → (nth t i {}).revoked = true)

/-! ### When a command is served -/

/-- The device serves with nothing under way: RDY is asserted, no response is on record, no entry is accepted and the Saddlebag ring
runs. -/
def Resting (s : State) : Prop :=
  s.pins.rdy = true ∧ s.resp = {} ∧ anyAccepted s = false ∧ s.bbx.frozen = false ∧ s.bbx.copy = none

/-- The message of a header is taken: the ports are not silent, and its key carries messages (R112). -/
def takes (h : Hdr) (s : State) : Bool := !deaf s && keyLive s h.key

/-- The state after the transport's copy of a message has left the inbox. -/
def took (h : Hdr) (typ : Nat) (s : State) : State :=
  s.modLink fun l => { l with inbox := l.inbox.eraseP fun m => m.port == h.port && m.src == h.src && m.typ == typ && m.key == h.key }

/-- No request waits at the home and no extent is being revoked. -/
def Quiet (s : State) : Prop := s.coh.waiting = [] ∧ ∀ x ∈ s.ext.table, x.2.rev = none

/-- A request of this type is accepted as it arrives: no request waits in its source's credits, and fewer than 4,096 others of its source
are outstanding (R98). -/
def Admits (h : Hdr) (typ : Nat) (s : State) : Prop :=
  s.coh.beyond = [] ∧ s.link.heldCredits = [] ∧ outstandingOf (took h typ s) h.src < 4096

/-- An address lies in an active extent granted to a sender, to write where `w` (R294). -/
def granted (h : Hdr) (a : Nat) (w : Bool) (s : State) : Prop :=
  ∃ x, extOf s a = some x ∧ x.2.state = .active ∧ grantOf x.2 h.src h.key = some w

/-- A register access at a window offset is served on a path (R454). -/
def servedAt (path : Path) (off : Nat) (s : State) : Bool :=
  reachable s path && served s path (off / 0x10000) && off % 4 == 0 && decide (off < 2 ^ 24)

/-- An operator's register access is served (R368, R454). -/
def operates (path : Path) (off : Nat) (s : State) : Bool := servedAt path off s && (partyOf s path).isOperator

/-- The entry that an op row of this op-code starts now: the ring's next entry may start, no check that comes before its own fails,
its operands have been read, and no region it needs is still to be rebuilt (R79, R119, R341, R442, R443). -/
def starting (op ring : Nat) (s : State) : Option Entry :=
  match startable s ring with
  | none => none
  | some e =>
    if eOpcode e.raw != op || !(waitsFor s e).isEmpty then none
    else match preCheck s ring e with
      | .fail _ => none
      | .go => some e
      | .read => if e.readFailed || e.operands.isNone then none else some e

/-- An accepted entry has ended with an answer (R120): it is accepted no more, and unless it is quiet and ends OK its completion is
ready, behind those that were. -/
def Ended (ring : Nat) (e : Entry) (a : Ans) (s t : State) : Prop :=
  (∀ x ∈ (ringOf t ring).entries, x.idx ≠ e.idx) ∧
    (ringOf t ring).ready =
      (ringOf s ring).ready ++ (if eQuiet e.raw && a.status == stOk then [] else [cplOf s e a])

/-- An accepted entry has become an op in progress of its ring with a body (R120). -/
def InProgress (ring : Nat) (e : Entry) (b : OpBody) (s t : State) : Prop :=
  ∃ o, mget t.ops.tab s.ops.next = some o ∧ o.ring = ring ∧ o.idx = e.idx ∧ o.body = b

/-- No SEQ_CLOSE waits for the ops on its handle (R132). -/
def NoClose (s : State) : Prop := ∀ x ∈ s.ops.tab, ∀ h, x.2.body ≠ .seqClose h

/-- No discard is in progress (R328, R329). -/
def NoDiscard (s : State) : Prop := ∀ x ∈ s.ops.tab, match x.2.body with
  | .discard .. => False
  | _ => True

end Sys2Proof.Machine
end

