-- ==== Sys2Proof/Certificates/Slice0/Obligations.lean ====
section
/-! DEFINITION. The statements for the provers, family by family: one step, the whole machine, then each chapter's commands. -/

section Statements

open Sys2Proof Sys2Proof.Machine

/-- A step takes the command at the front of the queue and runs it on the state with the queue's rest. On an empty queue one CCLK edge passes, which is
the model's choice (log 2). -/
def Obligations.StepTakesTheFront : Prop := ∀ (s : State) (c : Instr), step { s with pending := c :: s.pending } = exec c s ∧ (s.pending = [] → step s = .next (idle s))

/-- Right after reset: nothing waits, no output is asserted, the rail is off and the bank not ready, the counter and the epoch are 0, no phase of a start has ended, no
image is accepted, no response runs, no extent, ring pair, sequence, op or job key exists, no fuse is programmed, no memory cell is listed, and the invariant holds.
Values the spec does not give at a first power-up are the model's choice (log 1). -/
def Obligations.ResetState : Prop := let r := State.reset
  r.pending = [] ∧ Inv r ∧ r.pins.rdy = false ∧ r.pins.fault = false ∧ r.pins.therm = false ∧ r.pins.led = .off ∧ r.pwr.rail = .off ∧ r.pwr.ready = false ∧
  r.clk.count = 0 ∧ r.clk.epoch = 0 ∧ r.start.active = false ∧ r.start.done = [] ∧ r.img.accepted = false ∧ r.img.cur = none ∧ r.resp = {} ∧ r.coh.mem = [] ∧
  r.ext.table = [] ∧ r.rng.rings = [] ∧ r.seqs.tab = [] ∧ r.ops.tab = [] ∧ r.sec.keys = [] ∧ (∀ i, (nth r.sec.roots i {}).programmed = false ∧ (nth r.sec.roots i {}).revoked = false) ∧
  (∀ a, memByte r.coh.mem a = 0) ∧ r.bbx.ring = [] ∧ r.sch.ctxs = []

/-- Every step keeps the invariant, from every state: the memory of the extents stays in canonical form, RDY stays low during a start (parts of R59, R74), and the accepted entries of
every ring stay in the order of their numbers, no two with one number and none beyond the highest given (R118, R119). -/
def Obligations.InvKept : Prop := ∀ s t : State, Inv s → step s = .next t → Inv t

/-- No step, of any command or of an idle edge, clears a programmed root slot's fuses, changes its digest or takes a revocation back (parts of R375). -/
def Obligations.FusesAreForever : Prop := ∀ s t : State, step s = .next t → FusesKept s.sec.roots t.sec.roots

/-- Every command, in every state, ends in a next state, and changes the parts of its footprint alone: a command whose footprint does not list a part of the state leaves
it as it was, and none touches the queue. -/
def Obligations.CommandsKeepTheirFootprint : Prop := ∀ (c : Instr) (s : State), ∃ t, exec c s = .next t ∧ Only (footprint c) s t

/-- The rail and the hold-up bank (parts of R33, R36, R37, R41 to R43, R47, R49). VIN60's contact above 42.5 V takes the rail from off to
soft-start with the converters off, and at its end VIN60 is valid and the converters run: a device that nothing kept alive begins a cold
start, its bank not measured and bled first where it is above 20 V, else charged; of a bank whose charge was cut short it is free which
(the model's choice, log 5). At or below 42.5 V the contact starts nothing. The first pin to leave takes the rail away and the bank is bled, at the end of a flush where one runs. The outputs are
enabled with the last pin. A charge that ends leaves the bank charged, measured where it began below 20 V, and ready unless it holds
too much; a bank that falls below the ready voltage is not ready and is charged again; a bleed below 20 V ends the charge, and the first charge of a start begins. With the declared and the measured energy known, the effective energy is the lower of
the two, a measurement below nine tenths of the declaration is low, and above eleven tenths the effective energy and the durable window are zero. -/
def Obligations.RailAndBank : Prop := ∀ s : State,
  (∀ vin, s.pwr.rail = .off → 4250 < vin → ∃ t, exec (.vin60Contact vin) s = .next t ∧ t.pwr.rail = .softStart ∧ t.pins.vin = vin ∧
    t.pins.prsntEarly = true ∧ t.pwr.converters = false ∧ t.pwr.ovShutdown = false) ∧
  (∀ vin, s.pwr.rail = .off → vin ≤ 4250 → exec (.vin60Contact vin) s = .next { s with pins := { s.pins with vin := vin } }) ∧
  (∀ vin, s.pwr.rail = .softStart → alive s = false → s.pins.rst = false → ∃ t, exec (.softStartDone vin) s = .next t ∧
    t.pwr.rail = .valid ∧ t.pwr.converters = true ∧ t.pwr.diodeOpen = false ∧ t.pins.vin = vin ∧ t.start.active = true ∧ t.start.cold = true ∧
    t.start.done = [] ∧ t.pwr.measured = false ∧ t.pwr.ready = false ∧ t.pwr.window = 0 ∧
    (s.pwr.charged = true → t.pwr.bleeding = true ∧ t.pwr.charging = false) ∧
    (s.pwr.charged = false → s.pwr.partly = false → t.pwr.charging = true ∧ t.pwr.measuring = true ∧ t.pwr.bleeding = false) ∧
    (t.pwr.bleeding = true ∧ t.pwr.charging = false ∨ t.pwr.charging = true ∧ t.pwr.measuring = true)) ∧
  (∃ t, exec .prsntEarlyHigh s = .next t ∧ t.pins.prsntEarly = false ∧ t.pwr.rail = .off ∧
    (if (s.resp.kind = .powerFail ∨ s.resp.kind = .leak ∨ s.resp.kind = .fatal) ∧ s.resp.stage = .flush then t.resp.bleedDue = true
     else t.pwr.bleeding = true ∧ t.pwr.charging = false)) ∧
  (∃ t, exec .outputsEnable s = .next t ∧ t.pins.prsntLate = true ∧ t.pins.outputsEnabled = true ∧
    (s.start.active = true → 2 ∈ s.start.done → 3 ∈ t.start.done)) ∧
  exec .diodeReverseCurrent s = .next { s with pwr := { s.pwr with diodeOpen := true } } ∧
  (∀ energy, s.pwr.charging = true → ∃ t, exec (.bankChargeDone energy) s = .next t ∧ t.pwr.charging = false ∧
    t.pwr.charged = true ∧ (s.pwr.measuring = true → t.pwr.measured = true ∧ t.pwr.eMeasured = energy) ∧
    (t.pwr.bankMismatch = false → t.pwr.ready = true)) ∧
  (∃ t, exec .bankBelowReady s = .next t ∧ t.pwr.ready = false ∧
    (s.pwr.rail = .valid → s.pwr.bleeding = false → s.pwr.bankMismatch = false → t.pwr.charging = true)) ∧
  (s.pwr.bleeding = true → ∃ t, exec .bankBleedBelow20v s = .next t ∧ t.pwr.charged = false ∧ t.pwr.ready = false ∧
    (s.pins.prsntEarly = true → s.pwr.rail = .valid → s.pwr.bankMismatch = false →
      t.pwr.charging = true ∧ t.pwr.measuring = true ∧ t.pwr.bleeding = false)) ∧
  (∀ energy, s.pwr.charging = true → s.pwr.measuring = true → s.img.cur.isSome = true → ∃ t, exec (.bankChargeDone energy) s = .next t ∧
    (10 * energy ≤ 11 * s.pwr.eDeclared → t.pwr.eEff = min s.pwr.eDeclared energy ∧ t.pwr.bankMismatch = false ∧ t.pwr.ready = true) ∧
    (11 * s.pwr.eDeclared < 10 * energy → t.pwr.eEff = 0 ∧ t.pwr.window = 0 ∧ t.pwr.bankMismatch = true ∧ t.pwr.bleeding = true) ∧
    (t.pwr.bankLow = true ↔ 10 * energy < 9 * s.pwr.eDeclared))

/-- The causes of a power-fail flush (parts of R44, R45, R52): PWRFAIL_L low, the last pin leaving while removal is not safe, undervoltage
(below 40.0 V) and overvoltage shutdown (above 64.0 V), each in a device that serves, with no entry accepted and the Saddlebag ring not frozen. RDY falls, ATTN_LED
blinks at 1 Hz, the ring freezes for class POWER and its copy begins, every unit outside Table 2.3 is powered down, CFG_START shows
the response, and the durable window is being written or, with nothing in it, FAULT_L is asserted and the copy is awaited. -/
def Obligations.PowerFailCausesBeginTheFlush : Prop := ∀ s : State,
  Resting s →
    let flushing := fun t : State => t.pins.rdy = false ∧ t.pins.led = .blink1 ∧ t.resp.kind = .powerFail ∧ t.start.active = false ∧
      t.start.phase = 9 ∧ t.pwr.flushOnly = true ∧ t.bbx.frozen = true ∧ t.bbx.cause = clsPower ∧
      (t.bbx.copy.map fun c => c.cls) = some clsPower ∧
      (t.resp.stage = .flush ∧ windowRecs t ≠ [] ∨ t.resp.stage = .copy ∧ windowRecs t = [])
    (∃ t, exec .pwrfailAssert s = .next t ∧ flushing t ∧ t.pins.pwrfail = true) ∧
    (s.pwr.safeToPull = false → ∃ t, exec .prsntLateHigh s = .next t ∧ flushing t ∧ t.pins.prsntLate = false) ∧
    (∀ vin, vin < 4000 → ∃ t, exec (.undervoltage vin) s = .next t ∧ flushing t ∧ t.pins.vin = vin ∧ t.pwr.uvEvent = true ∧ t.pwr.rail = .off) ∧
    (∀ vin, 4000 ≤ vin → exec (.undervoltage vin) s = .next { s with pins := { s.pins with vin := vin } }) ∧
    (∀ vin, vin ≤ 6400 → exec (.overvoltageShutdown vin) s = .next { s with pins := { s.pins with vin := vin } }) ∧
    (∀ vin, 6400 < vin → ∃ t, exec (.overvoltageShutdown vin) s = .next t ∧ flushing t ∧ t.pins.vin = vin ∧ t.pwr.ovEvent = true ∧
      t.pwr.ovShutdown = true ∧ t.pwr.rail = .off)

/-- The causes of a quiesce and of an in-service reset (parts of R50, R52, R59): UNPLUG_REQ_L, RST_L and the operator's write of CFG_RESTART, in a
device that serves with ops accepted. RDY falls, ATTN_LED blinks at 1 Hz, CFG_START shows the response, and the accepted entries stay:
they may run on. -/
def Obligations.QuiesceLeavesAcceptedOpsRunning : Prop := ∀ s : State,
  s.pins.rdy = true → s.resp = {} → anyAccepted s = true → s.start.active = false →
    let begun := fun (kind : RespKind) (t : State) => t.pins.rdy = false ∧ t.pins.led = .blink1 ∧ t.resp.kind = kind ∧ t.resp.stage = .ops ∧
      t.start.phase = (if kind = .reset then 7 else 8) ∧ t.rng = s.rng ∧ t.ops = s.ops ∧ issuing t = true ∧ serving t = false
    (∃ t, exec .unplugRequest s = .next t ∧ begun .quiesce t ∧ t.pins.unplug = true) ∧
    (∃ t, exec .rstLFall s = .next t ∧ begun .reset t ∧ t.pins.rst = true ∧ t.resp.viaPin = true) ∧
    (∀ path, operates path 0x1000C s = true → ∃ t, exec (.cfgRestart path 0x5A5A) s = .next t ∧ begun .reset t ∧ t.resp.viaPin = false)

/-- How a response goes on (parts of R45, R50, R415). At the end of the 20 ms a window that holds records is flushed; where nothing is left to
flush and no extent stands, the freeze of the response's own class begins. The end of a power-fail flush has written every record of
the window and asserts FAULT_L; the end of a quiesce's flush with no extent left freezes the ring. The end of the copy completes the
snapshot, and with it a quiesce or a power-fail flush that waited for it makes removal safe, with ATTN_LED steady; an operator's
snapshot lets the ring run again. Entries accepted when the 20 ms are over, with no op in progress, end with REVOKED in order, their completions behind those ready. -/
def Obligations.ResponsesGoOn : Prop := ∀ s : State,
  (s.resp.stage = .ops → s.ops.tab = [] → RingsOk s.rng → flushList s ≠ [] → ∃ t, exec .quiesceOpDeadline s = .next t ∧
    ∀ n, (ringOf t n).entries = [] ∧ (ringOf t n).ready = (ringOf s n).ready ++ (ringOf s n).entries.map fun e => cplOf s e { status := stRevoked }) ∧
  (s.resp.stage = .ops → anyAccepted s = false → flushList s ≠ [] → ∃ t, exec .quiesceOpDeadline s = .next t ∧
    t.resp.stage = .flush ∧ t.resp.kind = s.resp.kind ∧ t.ftl = s.ftl) ∧
  (s.resp.stage = .ops → s.resp.kind = .quiesce → s.resp.bleedDue = false → anyAccepted s = false → windowRecs s = [] → s.ext.table = [] →
    s.bbx.frozen = false → s.bbx.copy = none → ∃ t, exec .quiesceOpDeadline s = .next t ∧ t.resp.stage = .copy ∧ t.bbx.frozen = true ∧
      t.bbx.cause = clsUnplug ∧ t.bbx.copy.isSome = true) ∧
  (s.resp = { kind := .powerFail, stage := .flush } → s.bbx.copy.isSome = true → ∃ t, exec .windowFlushDone s = .next t ∧
    t.resp.stage = .copy ∧ t.pins.fault = true ∧ windowRecs t = [] ∧
    (∀ x ∈ t.ftl.recs, x.2.durable = true → x.2.acked = true → x.2.programmed = true) ∧ t.ftl.recs.length = s.ftl.recs.length) ∧
  (s.resp = { kind := .quiesce, stage := .flush } → s.ext.table = [] → s.bbx.frozen = false → s.bbx.copy = none →
    ∃ t, exec .windowFlushDone s = .next t ∧ t.resp.stage = .copy ∧ windowRecs t = [] ∧ t.bbx.frozen = true ∧ t.bbx.cause = clsUnplug) ∧
  (∀ c, s.bbx.copy = some c → s.resp.stage ≠ .copy → ∃ t, exec .saddlebagCopyDone s = .next t ∧ t.bbx.copy = none ∧
    (c.slot < s.bbx.slots.length → (nth t.bbx.slots c.slot {}).complete = true) ∧
    (t.bbx.frozen = true ↔ s.bbx.frozen = true ∧ c.cls ≠ clsOperator)) ∧
  (∀ c, s.bbx.copy = some c → s.resp.stage = .copy → s.start.rstPulse = false → s.resp.leakJoin = false → s.resp.tripJoin = false →
    (s.resp.kind = .quiesce ∨ s.resp.kind = .powerFail ∨ s.resp.kind = .fatal) → ∃ t, exec .saddlebagCopyDone s = .next t ∧
      t.resp.stage = .ended ∧ t.pwr.safeToPull = true ∧ t.pins.led = .steady ∧ (s.resp.kind = .quiesce → t.pwr.mgmtOnly = true))

/-- A thermal trip, loss of lock, a leak and a fault of class MEMORY or INTERNAL in a resting device (parts of R21, R55, R56, R417, R418): RDY
falls, FAULT_L is asserted at once but for a leak with records to flush, the ring freezes for the class and its copy begins. A trip and
loss of lock lose the window and stop all work; loss of lock stops the clocks. Once all work has stopped no read, program, erase, move, fold,
unit, switch, repair or timeout inside the device does anything; and while the units outside Table 2.3 are powered down, none but what
the flush itself needs does. -/
def Obligations.FatalCausesStopTheDevice : Prop := ∀ s : State,
  (Resting s → s.pwr.safeToPull = false →
    let ends := fun (cls : Nat) (kind : RespKind) (phase : Nat) (t : State) => t.pins.rdy = false ∧ t.resp.kind = kind ∧
      t.start.phase = phase ∧ t.bbx.frozen = true ∧ t.bbx.cause = cls ∧ (t.bbx.copy.map fun c => c.cls) = some cls ∧ deaf t = true
    (∀ n temp, n < 64 → n < s.thm.temps.length → n < s.thm.valid.length → s.thm.level < 4 → entryAt (sensorKind n) 4 ≤ temp →
      ∃ t, exec (.sensorSample n temp) s = .next t ∧ ends clsThermal .fatal 6 t ∧ t.thm.level = 4 ∧ t.pins.fault = true ∧
        t.pins.therm = true ∧ t.pins.led = .blink4 ∧ t.ops.tab = [] ∧ t.attn.units = [] ∧ windowRecs t = [] ∧ t.resp.halted = true) ∧
    (s.clk.pllLocked = true → ∃ t, exec .lossOfLock s = .next t ∧ ends clsClock .fatal 6 t ∧ t.pins.fault = true ∧
      t.clk.pllLocked = false ∧ t.clk.holdover = true ∧ t.clk.running = false ∧ t.ops.tab = [] ∧ windowRecs t = [] ∧ t.resp.halted = true) ∧
    (∃ t, exec .leakResponse s = .next t ∧ ends clsLeak .leak 0xA t ∧ t.thm.leakIn = true ∧ t.pwr.flushOnly = true ∧
      (t.resp.stage = .flush ∨ t.resp.stage = .copy ∧ t.pins.fault = true ∧ t.pins.therm = true ∧ t.pins.led = .blink4 ∧
        t.pwr.low60 = true)) ∧
    (∀ memory unit detail hit, ∃ t, exec (.fatalMemoryInternal memory unit detail hit) s = .next t ∧
      ends (if memory then clsMemory else clsInternal) .fatal 6 t ∧ t.pins.fault = true ∧ t.pins.led = .blink4 ∧
      (t.resp.stage = .flush ∨ t.resp.stage = .copy)) ∧
    (∀ die, die ∈ s.spare.retraining → ∃ t, exec (.bridgeRetrainDone die false) s = .next t ∧ ends clsInternal .fatal 6 t ∧
      die ∉ t.spare.retraining ∧ t.pins.fault = true)) ∧
  (∀ (n m k : Nat) (node : Node) (ok : Bool) (l : List Nat) (bad : List (Nat × Nat)) (site : SramSite) (j f : Int), atRest s = true →
    ∀ c ∈ ([.snoopTimeout n node, .extZeroDone n, .snoopFilterScanDone n m, .gracePeriodEnd n, .moveCopyDone n ok, .translationDrainDone n, .fold n,
      .gcCollect n, .stripeCloseVerify n m, .flashPatrol n m, .writeHeatHalving, .catalogCompaction, .reserveRefill, .hourOfService j f,
      .hbmBackgroundZero n m k, .freedRunService n, .encodeDone n, .sramUncorrectable n site, .microcodeTrap n, .fabricPortProtocolError n,
      .cheapPointTimeout n, .partitionResetDone n bad, .quantumExpiry n, .workUnitDispatch n m, .workUnitEnd n m, .cheapPointStop n m k,
      .cheapWaitExpiry n, .saveDone n, .restoreDone n, .slowdownPublish, .bankRebuildDone n, .pmaPatrolRead l, .hbmCorrectedError n m,
      .hbmRemapDone n m, .bridgeCrcLimit n m, .removeDrainDone, .scrubDone n, .halvingSweepEnd, .backgroundMove n] : List Instr), exec c s = .next s) ∧
  (∀ (n m k : Nat) (ok : Bool) (g : FlashTarget), stopped s = true →
    ∀ c ∈ ([.stirrupBeat n, .writePathTimeout n, .flashProgramDone n ok, .flashReadDone g m k, .ticketWrite n, .flashEraseDone n m ok] : List Instr),
      exec c s = .next s)

/-- The throttle level and its lines (parts of R54, R56). A reading below the trip is kept and valid; the thermal level rises to the highest level
whose entry threshold a valid sensor has reached, and never falls by a reading. A governor's sample keeps the input power and the
voltage, asserts peak_active above 5,000 W and raises the power level to what it needs. THERM_L is low from throttle level 2. A thermal level is left, by
one, when every valid sensor is 3 °C below its entry threshold (24 units of 0.125 °C); a power level steps down by one. -/
def Obligations.ThrottleLevels : Prop := ∀ s : State,
  let line := fun t : State => (t.pins.therm = true ↔ s.thm.leakShutdown = true ∨ s.resp.tripJoin = true ∨ t.thm.level = 4 ∨ 2 ≤ max t.thm.level t.pwr.govLevel)
  (∀ n temp, n < 64 → s.thm.temps.length = 64 → s.thm.valid.length = 64 → s.thm.level < 4 → temp < entryAt (sensorKind n) 4 →
    (∀ k, k < 64 → nth s.thm.valid k false = true → nth s.thm.temps k 0 < entryAt (sensorKind k) 4) →
    ∃ t, exec (.sensorSample n temp) s = .next t ∧ nth t.thm.temps n 0 = temp ∧ nth t.thm.valid n false = true ∧ line t ∧
      (∀ k, k ≠ n → nth t.thm.temps k 0 = nth s.thm.temps k 0 ∧ nth t.thm.valid k false = nth s.thm.valid k false) ∧
      s.thm.level ≤ t.thm.level ∧ t.thm.level < 4 ∧
      (∀ k l, k < 64 → l ≤ 4 → nth t.thm.valid k false = true → entryAt (sensorKind k) l ≤ nth t.thm.temps k 0 → l ≤ t.thm.level) ∧
      (t.thm.level = s.thm.level ∨ ∃ k, k < 64 ∧ nth t.thm.valid k false = true ∧
        entryAt (sensorKind k) t.thm.level ≤ nth t.thm.temps k 0)) ∧
  (0 < s.thm.level → s.thm.level < 4 →
    (∀ k, k < 64 → nth s.thm.valid k false = true → nth s.thm.temps k 0 ≤ entryAt (sensorKind k) s.thm.level - 24) →
    ∃ t, exec .thermalLevelExit s = .next t ∧ t.thm = { s.thm with level := s.thm.level - 1 } ∧ line t) ∧
  (∃ t, exec .powerLevelStepDown s = .next t ∧ t.pwr = { s.pwr with govLevel := s.pwr.govLevel - 1 } ∧ t.thm = s.thm ∧ line t) ∧
  (∀ vin power need lines, ∃ t, exec (.powerGovernorMeasure vin power need lines) s = .next t ∧ t.pins.vin = vin ∧
    t.pwr.pinPower = power ∧ (t.pwr.peakActive = true ↔ 5000 < power) ∧ t.pwr.govLevel = max s.pwr.govLevel need ∧ line t ∧
    t.pins.prsntEarly = lines.prsntEarly ∧ t.pins.prsntLate = lines.prsntLate ∧ t.pins.pwrfail = lines.pwrfail ∧
    t.pins.leak = lines.leak ∧ t.pins.unplug = lines.unplug)

/-- The CCLK counter and the boot epoch (parts of R22 to R24). While CCLK runs, the prewrite records the next epoch in Tally and leaves the current
one in use; the wrap sets the counter to zero and takes the prewritten epoch into use. A count of 2^48 − 2^20 comes with the prewrite
itself. -/
def Obligations.EpochIsWrittenBeforeItsUse : Prop := ∀ s : State,
  s.clk.running = true →
  (s.clk.prewritten = false → s.tly.canPair 0 = true → ∃ t, exec .epochPrewrite s = .next t ∧ t.clk.prewritten = true ∧
    t.clk.nextEpoch = s.clk.epoch + 1 ∧ t.clk.epoch = s.clk.epoch ∧ 2 ^ 48 - 2 ^ 20 ≤ t.clk.count.toNat ∧
    (2 ^ 48 - 2 ^ 20 ≤ s.clk.count.toNat → t.clk.count = s.clk.count) ∧ Only [.clk, .tly, .bbx] s t) ∧
  (s.clk.prewritten = true → exec .cclkWrap s = .next { s with clk :=
    { s.clk with count := 0, epoch := s.clk.nextEpoch, prewritten := false, lastCause := true } })

/-- How a start goes on (parts of R58, R70, R73, Table 3.5, Table 3.1). RST_L going high begins the start that waited for it, with everything
volatile cleared and Tally, the fuses, flash's records and the snapshots kept. Each phase ends with its own event and with no other: the
reference clock takes the next epoch; the PLL's lock latches the straps and starts the counter at zero; a good image is accepted, a bad
one rejected with the code of its first failing check, slot A before slot B; the phases of training, zeroing, checks, self-test,
calibration and services end. -/
def Obligations.StartPhasesEnd : Prop := ∀ s : State,
  (∀ lines cold, s.pins.rst = true → s.start.waiting = some cold → ∃ t, exec (.rstLRise lines) s = .next t ∧ t.pins.rst = false ∧
    t.start = { active := true, cold := cold } ∧ t.rng = {} ∧ t.seqs = {} ∧ t.ops = {} ∧ t.coh = {} ∧ t.clk.running = false ∧
    t.img.accepted = false ∧ t.tly.phys = s.tly.phys ∧ t.tly.remap = s.tly.remap ∧ t.bbx.slots = s.bbx.slots ∧ t.sec.roots = s.sec.roots) ∧
  (∀ bad, inPhase s 1 = true → (loadTally bad s).tly.canPair 0 = true → ∃ t, exec (.refclkPresent bad) s = .next t ∧
    t.start.done = s.start.done ++ [1] ∧ t.clk.refPresent = true ∧ t.clk.epoch = (loadTally bad s).tly.pair 0 + 1) ∧
  (∀ straps, inPhase s 2 = true → ∃ t, exec (.pllLock straps) s = .next t ∧ t.pins.straps = straps ∧ t.clk.pllLocked = true ∧
    t.clk.running = true ∧ t.clk.count = 0 ∧ t.clk.epoch = s.clk.epoch ∧
    t.start.done = s.start.done ++ (if s.pins.outputsEnabled then [2, 3] else [2])) ∧
  (∀ img, inPhase s 4 = true → s.start.readB = false → checkImage s img ≠ 0 → exec (.imageSlotChecked img) s = .next
    { s with img := { s.img with rejectA := checkImage s img }, start := { s.start with
        readB := true, norReads := s.start.norReads ++ slotReads false img (checkImage s img) } }) ∧
  (∀ img, inPhase s 4 = true → checkImage s img = 0 → ∃ t, exec (.imageSlotChecked img) s = .next t ∧ t.img.accepted = true ∧
    t.img.slotB = s.start.readB ∧ t.img.cur = some (imageOf img) ∧ t.start.done = s.start.done ++ [4] ∧ t.start.norReleased = true ∧
    t.pwr.eDeclared = energyOf img ∧ t.sec.matched = rootFor s (imgSigner img) ∧ t.start.norReads = s.start.norReads ++ slotReads s.start.readB img 0) ∧
  (inPhase s 5 = true → exec .sensorTrimDone s = .next (endPhase 5 s)) ∧
  (∀ ppr, inPhase s 6 = true → ∃ t, exec (.hbmTrainingDone ppr none) s = .next t ∧ t.start = { s.start with done := s.start.done ++ [6] } ∧
    Only [.start, .tly, .spare, .bbx] s t) ∧
  (inPhase s 7 = true → exec .hbmZeroDone s = .next (endPhase 7 s)) ∧
  (∀ geo present offline, inPhase s 8 = true → ∃ t, exec (.onfiTrainingDone geo present offline) s = .next t ∧
    t.start.done = s.start.done ++ [8] ∧ t.ftl.geo = geo ∧
    (partOk geo = true → ∀ ch die, 16 * ch + die ∈ t.ftl.dies ↔ ∃ x ∈ present, 16 * x.1 + x.2 = 16 * ch + die ∧ x.1 ∉ offline.map (·.1)) ∧
    (partOk geo = false → (∀ x ∈ present, x.1 < 48) → t.ftl.dies = [] ∧ ∀ ch, ch < 48 → ch ∈ t.ftl.offline)) ∧
  (inPhase s 9 = true → exec (.arrayChecksDone [] [] []) s = .next (endPhase 9 s)) ∧
  (∀ bad, inPhase s 10 = true → ∃ t, exec (.coreSelfTestDone bad) s = .next t ∧ t.start = { s.start with done := s.start.done ++ [10] }) ∧
  (∀ bays lanes, inPhase s 11 = true → ∃ t, exec (.opticalCalibrationDone bays lanes) s = .next t ∧
    t.start = { s.start with done := s.start.done ++ [11] } ∧
    (∀ b, b < 5 → (nth t.link.bays b {}).present = (nth bays b { present := false, power := 0, lightsAll := false }).present)) ∧
  (inPhase s 12 = true → exec .serviceStartDone s = .next (endPhase 12 s)) ∧
  (inPhase s 13 = true → s.pins.outputsEnabled = true → s.img.accepted = true → ∃ t, exec .rdyAssert s = .next t ∧ t.pins.rdy = true ∧
    t.start = { s.start with done := s.start.done ++ [13], active := false, rdyTime := now s % 2 ^ 32 } ∧ t.clk = s.clk)

/-- The rebuild after RDY (parts of R60, R77, R78). The block pass ends once the image is accepted and HBM and ONFI are ready: from then on the regions
are scanned. Every scan of a region makes it ready: the background scan the lowest region not ready that no on-demand scan reads, the
on-demand scan the first region asked for. An abandoned start reads no flash: none of the three does anything. -/
def Obligations.RebuildScansEveryRegion : Prop := ∀ s : State,
  let going := atRest s = false ∧ (s.resp.kind = .none ∨ issuing s = true) ∧ (s.start.active = true ∨ 13 ∈ s.start.done)
  (4 ∈ s.start.done → 7 ∈ s.start.done → 8 ∈ s.start.done → s.start.wearReady = false → going →
    ∃ t, exec .blockPassDone s = .next t ∧ t.start.wearReady = true ∧ t.start.regions = s.start.regions) ∧
  (s.start.wearReady = true → going → (∃ r, r < 256 ∧ r ∉ s.start.regions ∧ s.ftl.onDemand.head? ≠ some r) →
    ∃ t r, exec .regionScanDone s = .next t ∧ r < 256 ∧ r ∉ s.start.regions ∧ s.ftl.onDemand.head? ≠ some r ∧
      (∀ q, q < r → q ∈ s.start.regions ∨ s.ftl.onDemand.head? = some q) ∧ t.start.regions = s.start.regions ++ [r]) ∧
  (∀ r, s.start.wearReady = true → going → s.ftl.onDemand.head? = some r →
    ∃ t, exec .ondemandScanDone s = .next t ∧ t.start.regions = s.start.regions ++ [r]) ∧
  (s.start.active = false → 13 ∉ s.start.done →
    exec .blockPassDone s = .next s ∧ exec .regionScanDone s = .next s ∧ exec .ondemandScanDone s = .next s)

/-- A Dorlink port's life, its lanes and the laser bays (parts of R80, R86 to R89, R95). A port that is not up comes up with its peer, nothing sent,
nothing received and every receive buffer's flits owed to the peer as credits; an up port that goes down keeps nothing to send. A first bad lane below 8
is asked to be substituted by a control frame; a second one, or the spare's, fails the port. The transmit side duplicates the lane it is asked for, and
each side takes its substitution into use and on record with its READY or DONE. A bay whose power fell by 1.5 dB or that is removed is
not ok, and bay 4, when ok and unused, feeds its group's ports. -/
def Obligations.PortsLanesAndBays : Prop := ∀ (s : State) (n : Nat), n < s.link.ports.length →
  let others := fun t : State => ∀ m, m ≠ n → portAt t m = portAt s m
  (∀ peer, (portAt s n).state ≠ .failed → (portAt s n).state ≠ .up → ∃ t, exec (.linkUp n peer) s = .next t ∧ others t ∧
    portAt t n = { portAt s n with
      state := .up, peer := peer, txSeq := 0, retryBuf := [], rxLast := none, sinceAck := 0, nakOut := false, nakSent := false
      credits := List.replicate 8 0, owed := bufferSizes (portAt s n).torus }) ∧
  ((portAt s n).state = .up → ∃ t, exec (.portDown n) s = .next t ∧ (portAt t n).state = .down ∧ (portAt t n).retryBuf = [] ∧
    (∀ m, (portAt t m).retryBuf = if m = n then [] else (portAt s m).retryBuf) ∧ t.link.wire = s.link.wire) ∧
  (∀ lane, (portAt s n).state = .up → (portAt s n).rxSub = 15 → (portAt s n).rxStage = .idle → lane ≠ 8 →
    ∃ t f, exec (.laneMarginFail n lane) s = .next t ∧ (portAt t n).rxStage = .requested lane ∧ (portAt t n).state = .up ∧ others t ∧
      t.link.wire = s.link.wire ++ [(n, f)] ∧ lwKind f.link = 2) ∧
  (∀ lane, (portAt s n).state = .up → (portAt s n).rxSub ≠ 15 → (portAt s n).rxSub ≠ lane → (portAt s n).rxStage = .idle →
    ∃ t, exec (.laneMarginFail n lane) s = .next t ∧ (portAt t n).state = .failed) ∧
  (∀ lane, (portAt s n).state = .up → (portAt s n).txSub = 15 → (portAt s n).txStage = .idle → lane < 8 →
    ∃ t f, exec (.subReq n lane) s = .next t ∧ (portAt t n).txStage = .duplicated lane ∧ others t ∧
      t.link.wire = s.link.wire ++ [(n, f)] ∧ lwKind f.link = 2) ∧
  (∀ lane, (portAt s n).rxStage = .requested lane → ∃ t f, exec (.subReady n lane) s = .next t ∧ (portAt t n).rxSub = lane ∧
    (portAt t n).rxStage = .idle ∧ others t ∧ t.link.wire = s.link.wire ++ [(n, f)] ∧ lwKind f.link = 2) ∧
  (∀ lane, (portAt s n).txStage = .duplicated lane → ∃ t, exec (.subDone n lane) s = .next t ∧
    portAt t n = { portAt s n with txSub := lane, txStage := .idle } ∧ others t ∧ t.link.wire = s.link.wire) ∧
  (∀ bay removed power, bay < s.link.bays.length → removed = true ∨ power ≤ (nth s.link.bays bay {}).recorded - 150 →
    ∃ t, exec (.laserBayLow bay removed power) s = .next t ∧ (nth t.link.bays bay {}).ok = false ∧
      (nth t.link.bays bay {}).power = (if removed then 0 else power) ∧ (∀ b, b ≠ bay → nth t.link.bays b {} = nth s.link.bays b {}) ∧
      (bay < 4 → s.link.spareServes = 7 → (nth s.link.bays 4 {}).ok = true → t.link.spareServes = bay ∧
        (portAt t n).bay = if (portAt s n).bay = bay then 4 else (portAt s n).bay))

/-- Frames and flits (parts of R21, R85, R89 to R93, R95, R96, R106, R107). A frame with more than 6 bad bytes in a codeword, one with a bad
link CRC and a flit frame out of order change nothing but the counters, what their link word does where it is good, and that the next frame
carries nak, once until a flit frame is taken. The flit frame expected next is taken; its flit, if for this node and at its last hop, is
discarded and counted. A flit for another node leaves its buffer, its credit owed: on a TORUS port it goes, its hop count one higher, to the
port of its route in its sub-channel; a flit at its last hop, or at a FABRIC port, is discarded and counted. Silent ports take nothing. -/
def Obligations.FramesAndFlits : Prop := ∀ (s : State) (n : Nat), n < s.link.ports.length →
  (silent s = true → ∀ (f : Frame) (flit : List Byte), exec (.frameReceive n f) s = .next s ∧ exec (.flitForward n flit) s = .next s) ∧
  (silent s = false → ∀ f : Frame, (portAt s n).state = .up → (6 < f.errs.1 ∨ 6 < f.errs.2) → ∃ t, exec (.frameReceive n f) s = .next t ∧
    (∀ m, m ≠ n → portAt t m = portAt s m) ∧
    portAt t n = { portAt s n with nakOut := (portAt s n).nakOut || !(portAt s n).nakSent } ∧ Only [.link] s t) ∧
  (silent s = false → ∀ f : Frame, (portAt s n).state = .up → f.errs.1 ≤ 6 → f.errs.2 ≤ 6 →
    crc24 (f.body ++ leBytes 5 (f.link.toNat % 2 ^ 40)) ≠ lwCrc f.link →
    ∃ t, exec (.frameReceive n f) s = .next t ∧ (∀ m, m ≠ n → portAt t m = portAt s m) ∧ Only [.link] s t ∧
      portAt t n = { portAt s n with fec := sat32 ((portAt s n).fec + (f.errs.1 + f.errs.2)), nakOut := (portAt s n).nakOut || !(portAt s n).nakSent }) ∧
  (silent s = false → ∀ f : Frame, (portAt s n).state = .up → f.errs.1 ≤ 6 → f.errs.2 ≤ 6 →
    crc24 (f.body ++ leBytes 5 (f.link.toNat % 2 ^ 40)) = lwCrc f.link →
    lwKind f.link = 0 → lwNak f.link = false → lwSeq f.link ≠ (match (portAt s n).rxLast with | none => 0 | some k => (k + 1) % 1024) →
    ∃ t, exec (.frameReceive n f) s = .next t ∧ Only [.link] s t ∧ (portAt t n).rxLast = (portAt s n).rxLast ∧
      t.link.inbox = s.link.inbox ∧ ((portAt t n).nakOut = true ∨ (portAt s n).nakSent = true)) ∧
  (silent s = false → ∀ f : Frame, (portAt s n).state = .up → f.errs.1 ≤ 6 → f.errs.2 ≤ 6 →
    crc24 (f.body ++ leBytes 5 (f.link.toNat % 2 ^ 40)) = lwCrc f.link →
    lwKind f.link = 0 → lwNak f.link = false → lwSeq f.link = (match (portAt s n).rxLast with | none => 0 | some k => (k + 1) % 1024) →
    ∃ t, exec (.frameReceive n f) s = .next t ∧ (portAt t n).rxLast = some (lwSeq f.link) ∧ (portAt t n).nakOut = false ∧
      Only [.link, .sec] s t ∧ (flitDst f.body = selfNode s → flitHops f.body = 127 → (portAt t n).nokey = sat32 ((portAt s n).nokey + 1) ∧
        t.link.inbox = s.link.inbox ∧ t.sec = s.sec)) ∧
  (silent s = false → ∀ flit, flitDst flit ≠ selfNode s → ((portAt s n).torus = false ∨ flitHops flit = 127) → ∃ t, exec (.flitForward n flit) s = .next t ∧
    (∀ m, m ≠ n → portAt t m = portAt s m) ∧ (portAt t n).nokey = sat32 ((portAt s n).nokey + 1) ∧
    (portAt t n).queues = (portAt s n).queues ∧ Only [.link] s t) ∧
  (silent s = false → ∀ flit m, flitDst flit ≠ selfNode s → (portAt s n).torus = true → flitHops flit ≠ 127 → inTorus s (flitDst flit) = true →
    (routeDim s (flitDst flit)).bind (torusPort s) = some m → portDead s m = false → m < s.link.ports.length →
    (flitSrc flit, flitDst flit, flitVc flit) ∉ s.link.detour → ∃ t, exec (.flitForward n flit) s = .next t ∧
      let sub := if crosses s m = true ∨ ((portAt s m).dim = (portAt s n).dim ∧ flitSub flit = 1) then 1 else 0
      (portAt t m).queues = lmod (portAt s m).queues (4 + 4 * sub + flitVc flit) (fun q => q ++ [withHop sub (flitHops flit + 1) flit]) ∧
      (portAt t n).owed = lmod (portAt s n).owed (flitClass flit) (fun k => k + 1) ∧ t.link.detour = s.link.detour ∧ Only [.link] s t)

/-- The home's answers where no snoop is needed (parts of Table 4.7, R98, R99, R100, R104, R105): no request waits, no transaction is open on the line. A read of a
line that is I or S, or whose only holder asks, is answered DATA with HBM's bytes; RD_UNC changes no holder, RD_S adds the reader to at most three others, RD_E and UPG
leave it in E with the requester alone, an UPG of a holder being answered ACK. A WB by the owner is written and leaves I, another is discarded,
both answered ACK; a WR_UNC of a line I writes the masked bytes. All this of a request that arrives with its source below its 4,096 outstanding ones
(R98): at the limit it waits in the source's credits. A full-line write unmarks poison. Outside every grant the answer is NAK with status REVOKED. -/
def Obligations.HomeAnswersWithoutSnoops : Prop := ∀ (s : State) (h : Hdr) (a : Nat),
  takes h s = true → Quiet s → lineOf a = a → mget s.coh.txs a = none → a ∉ s.coh.poison →
  let answer := fun (typ status : Nat) (body : List Byte) (u : State) =>
    send { typ := typ, vc := 1, dst := h.src, key := h.key, tag := h.tag, addr := a, status := status, body := body } u
  let bytes := memRead s.coh.mem a 64
  let e := lineEnt s a
  let room := (e.isSome = true ∨ (setEntries s a).length < 16)
  let alone := ∀ x, e = some x → ∀ n ∈ x.holders, n = h.src
  (∀ w len, granted h a w s → Admits h mtRdUnc s → (∀ x, e = some x → x.excl = true → ∀ n ∈ x.holders, n = h.src) →
    exec (.rdUnc h a len) s = .next (answer mtData stOk (memRead s.coh.mem a len) (took h mtRdUnc s))) ∧
  (∀ w, granted h a w s → Admits h mtRdS s → room → (∀ x, e = some x → x.excl = false ∧ x.holders.length < 4 ∧ h.src ∉ x.holders) →
    exec (.rdS h a) s = .next (answer mtData stOk bytes (putLine a false ((e.map (·.holders)).getD [] ++ [h.src]) (took h mtRdS s)))) ∧
  (granted h a true s → Admits h mtRdE s → room → alone → exec (.rdE h a) s = .next (answer mtData stOk bytes (putLine a true [h.src] (took h mtRdE s)))) ∧
  (granted h a true s → Admits h mtUpg s → alone → (∃ x, e = some x ∧ h.src ∈ x.holders) →
    exec (.upg h a) s = .next (answer mtAck stOk [] (putLine a true [h.src] (took h mtUpg s)))) ∧
  (∀ w data, granted h a w s → Admits h mtWb s → e = some { (e.getD { excl := true, holders := [], alloc := 0 }) with excl := true, holders := [h.src] } →
    exec (.wb h a data) s = .next (answer mtAck stOk [] (putLine a false [] (writeLine a data (took h mtWb s))))) ∧
  (∀ w data, granted h a w s → Admits h mtWb s → (∀ x, e = some x → x.excl = false ∨ h.src ∉ x.holders) →
    exec (.wb h a data) s = .next (answer mtAck stOk [] (took h mtWb s))) ∧
  (∀ mask data, granted h a true s → Admits h mtWrUnc s → e = none → mask ≠ 2 ^ 64 - 1 → exec (.wrUnc h a mask data) s =
    .next (answer mtAck stOk [] ((took h mtWrUnc s).modCoh fun c => { c with mem := memMasked c.mem a mask 0 data }))) ∧
  (extOf s a = none → ∀ data mask len, (Admits h mtRdUnc s → exec (.rdUnc h a len) s = .next (answer mtNak stRevoked [] (took h mtRdUnc s))) ∧
    (Admits h mtWrUnc s → exec (.wrUnc h a mask data) s = .next (answer mtNak stRevoked [] (took h mtWrUnc s))) ∧
    (Admits h mtRdS s → exec (.rdS h a) s = .next (answer mtNak stRevoked [] (took h mtRdS s))) ∧ (Admits h mtRdE s → exec (.rdE h a) s = .next (answer mtNak stRevoked [] (took h mtRdE s))) ∧
    (Admits h mtUpg s → exec (.upg h a) s = .next (answer mtNak stRevoked [] (took h mtUpg s))) ∧ (Admits h mtWb s → exec (.wb h a data) s = .next (answer mtNak stRevoked [] (took h mtWb s)))) ∧
  (∀ data mask len, s.coh.beyond = [] → s.link.heldCredits = [] →
    let waits := fun (typ : Nat) (kind : ReqKind) (n m : Nat) (d : List Byte) (i : Instr) => 4096 ≤ outstandingOf (took h typ s) h.src →
      exec i s = .next ((took h typ s).modCoh fun c => { c with beyond := [mkReq h kind a n m d] })
    waits mtRdUnc .rdUnc len 0 [] (.rdUnc h a len) ∧ waits mtWrUnc .wrUnc 64 mask data (.wrUnc h a mask data) ∧ waits mtRdS .rdS 64 0 [] (.rdS h a) ∧
    waits mtRdE .rdE 64 0 [] (.rdE h a) ∧ waits mtUpg .upg 64 0 [] (.upg h a) ∧ waits mtWb .wb 64 0 data (.wb h a data))

/-- The home's snoops (parts of Table 4.7, R100 to R104). A read of a line another node holds in E snoops it to share; RD_E, UPG and WR_UNC snoop every
other holder to drop the line: a transaction of the request opens with those snoops, and memory and the holders are unchanged till they are
answered. An answer that is not the last is struck off. The last ends the transaction: after a clean or a dirty answer to a shared read the owner and the reader share the line, dirty data is in
HBM, and the reader has HBM's bytes. A holder that answers nothing in time is recorded as I, and a line it held in E is poisoned. -/
def Obligations.HomeSnoopsTheHolders : Prop := ∀ (s : State) (h : Hdr) (a : Nat),
  takes h s = true → Quiet s → lineOf a = a →
  let opened := fun (r : LineReq) (l : List Snoop) (t : State) => mget t.coh.txs a = some { req := some r, snoops := l } ∧
    t.coh.mem = s.coh.mem ∧ t.coh.filter = s.coh.filter ∧ t.coh.waiting = []
  (∀ w x m, mget s.coh.txs a = none → granted h a w s → lineEnt s a = some x → x.excl = true → x.holders = [m] → m ≠ h.src →
    (Admits h mtRdS s → ∃ t, exec (.rdS h a) s = .next t ∧ opened (mkReq h .rdS a 64 0 []) [{ node := m, inv := false, hadE := true }] t) ∧
    (∀ len, Admits h mtRdUnc s → ∃ t, exec (.rdUnc h a len) s = .next t ∧ opened (mkReq h .rdUnc a len 0 []) [{ node := m, inv := false, hadE := true }] t)) ∧
  (∀ x, mget s.coh.txs a = none → granted h a true s → lineEnt s a = some x → (∃ m ∈ x.holders, m ≠ h.src) →
    let inv := fun (l : List Node) => l.map fun n => ({ node := n, inv := true, hadE := x.excl } : Snoop)
    (Admits h mtRdE s → ∃ t, exec (.rdE h a) s = .next t ∧ opened (mkReq h .rdE a 64 0 []) (inv (x.holders.filter (· != h.src))) t) ∧
    (Admits h mtUpg s → ∃ t, exec (.upg h a) s = .next t ∧ opened (mkReq h .upg a 64 0 []) (inv (x.holders.filter (· != h.src))) t) ∧
    (∀ mask data, Admits h mtWrUnc s → ∃ t, exec (.wrUnc h a mask data) s = .next t ∧ opened (mkReq h .wrUnc a 64 mask data) (inv x.holders) t)) ∧
  (∀ r x al (data : Option (List Byte)), mget s.coh.txs a = some { req := some r, snoops := [{ node := h.src, inv := false, hadE := true }] } →
    r.kind = .rdS → r.addr = a → r.len = 64 → r.before = none → r.src ≠ h.src → lineEnt s a = some { excl := true, holders := [h.src], alloc := al } →
    extOf s a = some x → a ∉ s.coh.poison → ∃ t, exec (.snpResp h a data false) s = .next t ∧ t.coh.txs = mdel s.coh.txs a ∧
      t.coh.mem = (match data with | some bytes => memWrite s.coh.mem a bytes | none => s.coh.mem) ∧
      lineEnt t a = some { excl := false, holders := [h.src, r.src], alloc := al } ∧
      ∃ u : State, t = send { typ := mtData, vc := 1, dst := r.src, key := r.key, tag := r.tag, addr := a, status := stOk, body := memRead t.coh.mem a 64 } u) ∧
  (∀ r l node, mget s.coh.txs a = some { req := some r, snoops := { node := node, inv := true, hadE := true } :: l } → l ≠ [] →
    (∀ n ∈ l, n.node ≠ node) → atRest s = false → ∃ t, exec (.snoopTimeout a node) s = .next t ∧ a ∈ t.coh.poison ∧
      mget t.coh.txs a = some { req := some r, snoops := l } ∧ (∀ x, lineEnt s a = some x → (∃ m ∈ x.holders, m ≠ node) →
        lineEnt t a = some { x with holders := x.holders.filter (· != node) }) ∧ t.coh.mem = s.coh.mem)

/-- A doorbell (parts of R117, R118). One that carries the ring's next indices and whole entries, for which there is room, from the ring's node under its key,
is accepted: sq_tail and the submitted count advance by its entries, cq_head becomes the one it carries, and in a device that serves its entries stand
behind those accepted before, in order (an EXT_REVOKE is looked at on arrival, and the statement leaves its entry out). Any other is discarded and counted, with an event, and changes no ring. -/
def Obligations.DoorbellsAreAccepted : Prop := ∀ (s : State) (h : Hdr) (n first cqHead count : Nat) (raws : List (List Byte)),
  takes h s = true →
  (doorbellOk h n first count raws s = true → RingOk (ringOf s n) → ∃ t, exec (.doorbell h n first cqHead count raws) s = .next t ∧
    (ringOf t n).sqTail = (ringOf s n).sqTail + BitVec.ofNat 16 count ∧ (ringOf t n).cqHead = BitVec.ofNat 16 cqHead ∧
    (ringOf t n).submitted = (ringOf s n).submitted + count ∧ (ringOf t n).taken = (ringOf s n).taken + count ∧
    (ringOf t n).cqTail = (ringOf s n).cqTail ∧
    (serving s = true → (∀ b ∈ raws, eOpcode b ≠ opExtRevoke) →
      (ringOf t n).entries.map (·.raw) = (ringOf s n).entries.map (·.raw) ++ raws)) ∧
  (doorbellOk h n first count raws s = false → ∃ t, exec (.doorbell h n first cqHead count raws) s = .next t ∧
    t.rng = { s.rng with discards := sat32 (s.rng.discards + 1) } ∧ Only [.link, .rng, .bbx] s t)

/-- NOP, and completions (R121, R444; parts of R120). A NOP carries no operands and takes nothing but its place in its ring: it ends OK, every count 0, with no completion when
quiet; under a fence it is the ring's earliest entry. The next CPL message takes as many ready completions as fit, at most 6, of the ring under a live key: cq_tail and the
completed count advance by them, and they go to the completion ring's slots in order, each with the phase bit of its index. -/
def Obligations.NopsAndCompletions : Prop := ∀ (s : State) (n : Nat), RingOk (ringOf s n) →
  (∀ e, starting opNop n s = some e → eLen e.raw = 0 ∧ (eFence e.raw = true → ∀ x ∈ (ringOf s n).entries, e.idx ≤ x.idx) ∧
    ∃ t, exec (.nop n) s = .next t ∧ Ended n e { status := stOk } s t ∧ Only [.rng, .sch] s t) ∧
  (∀ i c, field (cplBytes (ringOf s n) i c) 6 2 = if i >>> (ringOf s n).cqLog2 % 2 = 0 then 1 else 0) ∧
  (cplCount (ringOf s n) ≠ 0 → keyLive s (ringOf s n).key = true → heldBack s (ctxOf s (ringOf s n).context) = false → mhas s.rng.rings n = true →
    ∃ t m, exec (.completionWrite n) s = .next t ∧ ringOf t n = { ringOf s n with
        ready := (ringOf s n).ready.drop (cplCount (ringOf s n)), cqTail := (ringOf s n).cqTail + BitVec.ofNat 16 (cplCount (ringOf s n))
        completed := (ringOf s n).completed + cplCount (ringOf s n) } ∧ (∃ u, t = send m u) ∧ m.typ = mtCpl ∧ m.vc = 1 ∧
      m.dst = (ringOf s n).cplNode ∧ m.key = (ringOf s n).key ∧
      m.body = ((List.range (cplCount (ringOf s n))).flatMap fun i =>
        cplBytes (ringOf s n) (((ringOf s n).cqTail.toNat + i) % 65536) (nth (ringOf s n).ready i { tag := 0, status := 0 })) ∧
      m.addr = (ringOf s n).cqBase + 32 * ((ringOf s n).cqTail.toNat % 2 ^ (ringOf s n).cqLog2) ∧ Only [.link, .rng, .io, .sec] s t)

/-- The requester's memory, and an entry of an unknown op-code (parts of R119, R238, R462, R445). DATA that completes a read delivers its bytes, an operands block to its entry; DATA of less asks for the rest; a NAK of a
read fails it, and so does the fourth timeout, while each of the first three sends the read again. An ACK of a TILE_WRITE resolves it, its
fourth timeout gives it up, and each of the first three sends it again and is counted. An entry whose op-code is none of the known ones ends with the failure of the check that
comes first, in the model's order (log 13). A drained ring is disabled with its last completion written. -/
def Obligations.RequesterReadsAndTileWrites : Prop := ∀ (s : State) (h : Hdr) (n : Nat),
  ((ringOf s n).enable = true → (ringOf s n).drain = true → (ringOf s n).entries = [] → (ringOf s n).ready = [] →
    ∃ t, exec (.ringDrainDone n) s = .next t ∧ ringOf t n = { ringOf s n with enable := false, drain := false, charged := 0 } ∧ Only [.hbm, .rng] s t) ∧
  (∀ e a, RingOk (ringOf s n) → startable s n = some e → opKnown (eOpcode e.raw) = false → preCheck s n e = .fail a →
    ∃ t, exec (.unknownOp n) s = .next t ∧ Ended n e a s t) ∧
  (∀ e, startable s n = some e → opKnown (eOpcode e.raw) = false → (ctxOf s (ringOf s n).context).enable = true →
    clustersFor s (ringOf s n).context ≠ [] → eContext e.raw = (ringOf s n).context → preCheck s n e = .fail (internal 0x02)) ∧
  (∀ r n i poison bytes, takes h s = true → readFor h s = some r → r.for_ = .operands n i →
    let got := r.got ++ bytes.take (readLen r)
    let entry := fun (t : State) (f : Entry → Entry) => (ringOf t n).entries = (ringOf s n).entries.map fun e => if e.idx = i then f e else e
    (poison = false → r.len ≤ got.length → ∃ t, exec (.data h poison bytes) s = .next t ∧ t.io.reads = mdel s.io.reads h.tag ∧
      entry t (fun e => { e with operands := some got })) ∧
    (poison = false → got.length < r.len → ∃ t, exec (.data h poison bytes) s = .next t ∧ t.rng = s.rng ∧
      mget t.io.reads h.tag = some { r with got := got, resends := 0 } ∧ ∃ u, t = sendRead h.tag u) ∧
    (poison = true → ∃ t, exec (.data h poison bytes) s = .next t ∧ t.io.reads = mdel s.io.reads h.tag ∧ entry t (fun e => { e with readFailed := true })) ∧
    (∀ status, ∃ t, exec (.nak h status) s = .next t ∧ t.io.reads = mdel s.io.reads h.tag ∧ entry t (fun e => { e with readFailed := true }))) ∧
  (∀ tag r, mget s.io.reads tag = some r →
    (r.resends < 3 → ∃ t, exec (.requesterReadTimeout tag) s = .next t ∧ mget t.io.reads tag = some { r with resends := r.resends + 1 } ∧
      t.rng = s.rng ∧ Only [.link, .io, .sec] s t) ∧
    (∀ n i, 3 ≤ r.resends → r.for_ = .operands n i → ∃ t, exec (.requesterReadTimeout tag) s = .next t ∧ t.io.reads = mdel s.io.reads tag ∧
      (ringOf t n).entries = (ringOf s n).entries.map fun e => if e.idx = i then { e with readFailed := true } else e)) ∧
  (∀ x, takes h s = true → mget s.io.tiles h.tag = some x → x.dst = h.src → x.key = h.key → exec (.ack h) s =
    .next (settleTiles x.op (ackTile x ((took h mtAck s).modIo fun y => { y with tiles := mdel y.tiles h.tag })))) ∧
  (∀ tag x, mget s.io.tiles tag = some x →
    (x.resends < 3 → ∃ t last, exec (.tileAckTimeout tag) s = .next t ∧ mget t.io.tiles tag = some { x with resends := x.resends + 1, last := last } ∧
      t.attn.tilesResent = sat32 (s.attn.tilesResent + 1) ∧ Only [.link, .io, .attn, .sec] s t) ∧
    (3 ≤ x.resends → exec (.tileAckTimeout tag) s =
      .next (settleTiles x.op (loseTile x (s.modIo fun y => { y with tiles := mdel y.tiles tag })))))

/-- The ring registers (parts of R116, R122, R123, R369). A staged entry of good fields, for a ring not yet set up, is written with its charge by a party that may; one that fails a
check sets RNG_CMD.err and changes no ring. A read of a ring pair shows its bytes in RNG_ENTRY; a drain is the operator's. -/
def Obligations.RingRegisters : Prop := ∀ (s : State) (path : Path), operates path 0x30004 s = true → s.rng.busy = false →
  let b := s.rng.entry
  let ctx := field b 0 2 % 1024
  let size := 64 * 2 ^ field b 2 1
  (ringOk s b = true → mhas s.sch.ctxs ctx = true → bit (field b 0x0C 4) 0 = true → (ringOf s s.rng.sel).enable = false → (ringOf s s.rng.sel).charged = 0 →
    covers (uncharge (ctxOf s (ringOf s s.rng.sel).context).part 1 0 s) (ctxOf s ctx).part 1 size = true →
    ∃ t, exec (.rngWriteEntry path) s = .next t ∧ ringOf t s.rng.sel = setUp b size (ringOf s s.rng.sel) ∧ t.rng.err = s.rng.err ∧
      (∀ n, n ≠ s.rng.sel → ringOf t n = ringOf s n) ∧ Only [.hbm, .rng] s t) ∧
  (ringOk s b = false ∨ mhas s.sch.ctxs ctx = false → exec (.rngWriteEntry path) s = .next { s with rng := { s.rng with err := true } }) ∧
  exec (.rngReadEntry path) s = .next { s with rng := { s.rng with entry := ringBytes (ringOf s s.rng.sel) } } ∧
  (mhas s.rng.rings s.rng.sel = true → ∃ t, exec (.rngSetDrain path) s = .next t ∧ Only [.rng] s t ∧
    ringOf t s.rng.sel = { ringOf s s.rng.sel with drain := (ringOf s s.rng.sel).drain || (ringOf s s.rng.sel).enable })

/-- Opening, forking and closing a sequence (parts of R131 to R133). With a good slot and hint, a free handle and a run for its directory block,
SEQ_OPEN answers the handle and its serial, and the new sequence is the context's, empty and open; while the block has to be waited for the op
is in progress, and where it is refused it ends so. SEQ_FORK, with a table run for
every block, answers the child, which has the parent's length and names it; no append may be in progress on the parent. SEQ_CLOSE, on a handle no op names, answers the pages released, and
the handle joins the end of the free ones. An entry that fails its check ends with that check's code. -/
def Obligations.SequencesOpenForkClose : Prop := ∀ (s : State) (n : Nat) (e : Entry), RingOk (ringOf s n) →
  let il := eInline e.raw
  let ctx := (ringOf s n).context
  let c := ctxOf s ctx
  (∀ h fq tier run spill step m u, s.start.wearReady = true → starting opSeqOpen n s = some e → slotOk s ctx (field il 0 1) = true → field il 2 1 ≤ 3 →
    s.seqs.freeQ.take ≠ none → openNeed ctx il .top (markStarted n e.idx s) = .got tier run spill step m u → u.seqs.freeQ.take = some (h, fq) →
    ∃ t q, exec (.seqOpen n) s = .next t ∧ Ended n e { status := stOk, a := h, b := mgetD u.seqs.serials h 0 + 1 } s t ∧ seqOf t h = some q ∧
      q.ctx = ctx ∧ q.part = c.part ∧ q.tenant = c.tenant ∧ q.model = field il 0 1 ∧ q.hint = field il 2 1 ∧ q.prio = field il 3 1 ∧ q.length = 0 ∧
      q.pages = [] ∧ q.dirRun = run ∧ q.closing = false ∧ t.seqs.freeQ = fq) ∧
  (∀ d m u, s.start.wearReady = true → starting opSeqOpen n s = some e → slotOk s ctx (field il 0 1) = true → field il 2 1 ≤ 3 →
    s.seqs.freeQ.take ≠ none → openNeed ctx il .top (markStarted n e.idx s) = .wait d m u →
    ∃ t, exec (.seqOpen n) s = .next t ∧ InProgress n e (.seqOpen d) s t) ∧
  (∀ m u, s.start.wearReady = true → starting opSeqOpen n s = some e → slotOk s ctx (field il 0 1) = true → field il 2 1 ≤ 3 →
    s.seqs.freeQ.take ≠ none → openNeed ctx il .top (markStarted n e.idx s) = .fail m u →
    ∃ t, exec (.seqOpen n) s = .next t ∧ Ended n e (openRefused ctx il u) s t) ∧
  (s.start.wearReady = true → starting opSeqOpen n s = some e → slotOk s ctx (field il 0 1) = false →
    ∃ t, exec (.seqOpen n) s = .next t ∧ Ended n e (internal 0x13) s t ∧ t.seqs = s.seqs) ∧
  (∀ q child fq runs u, s.start.wearReady = true → starting opSeqFork n s = some e → appending s (field il 0 3) = false →
    seqOk s ctx (field il 0 3) = true → seqOf s (field il 0 3) = some q → q.pages = [] → s.seqs.freeQ.take ≠ none →
    forkTables (field il 0 3) q.part (forkSizes s q) [] .top (markStarted n e.idx s) = .all runs u → u.seqs.freeQ.take = some (child, fq) →
    seqOf u (field il 0 3) = some q → seqModel u q = seqModel s q →
    ∃ t x, exec (.seqFork n) s = .next t ∧
      Ended n e { status := stOk, a := child, b := 0, c := ceilDiv (dirBytes (seqModel s q).layers q.dirSpan + l2Bytes * q.l2.length) 256 } s t ∧
      seqOf t child = some x ∧ x.parent = field il 0 3 ∧ x.parentSid = q.sid ∧ x.forked = true ∧ x.forkLen = q.length ∧ x.length = q.length ∧ x.model = q.model) ∧
  (∀ q, starting opSeqClose n s = some e → seqOk s ctx (field il 0 3) = true → seqOf s (field il 0 3) = some q →
    (∀ o ∈ s.ops.tab, ∀ h, o.2.body ≠ .seqClose h) → seqBusy s (field il 0 3) = false → mget s.ops.tab s.ops.next = none →
    ∃ t freed, exec (.seqClose n) s = .next t ∧ Ended n e { status := stOk, a := q.pages.length, b := freed } s t) ∧
  (starting opSeqClose n s = some e → seqOk s ctx (field il 0 3) = false →
    ∃ t, exec (.seqClose n) s = .next t ∧ Ended n e (internal 0x10) s t ∧ t.seqs = s.seqs)

/-- Appending (parts of R150, R151, R156). A KV_APPEND whose operands pass the checks starts: an op in progress, with the reads of its source sent; one that
fails a check ends with that check's code and no page is touched. An append that waits for the write path to take a demotion goes on without that step when its time is over. -/
def Obligations.AppendsReadTheirSource : Prop := ∀ (s : State) (n : Nat) (e : Entry), RingOk (ringOf s n) → starting opKvAppend n s = some e →
  let a := parseAppend (eInline e.raw)
  appending s a.seq = false →
  (checkAppend s (seqOk s (ringOf s n).context a.seq) a = none → 0 < (seqModel s ((seqOf s a.seq).getD {})).rowBytes →
    ∃ t o, exec (.kvAppend n) s = .next t ∧ mget t.ops.tab s.ops.next = some o ∧ o.body = .append a ∧ o.ring = n ∧ o.idx = e.idx ∧
      readsDone t s.ops.next = false ∧ t.seqs = s.seqs) ∧
  (∀ ans, checkAppend s (seqOk s (ringOf s n).context a.seq) a = some ans → ∃ t, exec (.kvAppend n) s = .next t ∧ Ended n e ans s t ∧ t.seqs = s.seqs) ∧
  (∀ op o w, mget s.ops.tab op = some o → o.body = .append w → w.need = .asking → exec (.ladderDemoteTimeout op) s =
    .next (driveAppend op (putAppend op { w with need := .past } s))) ∧
  (∀ op o w, mget s.ops.tab op = some o → o.body = .append w → w.need ≠ .asking → exec (.ladderDemoteTimeout op) s = .next s)

/-- The page unit's own events (parts of R148, R161, R168, R260, R463 and Table 5.14). An encode that ends leaves the queue: with an element out of range the page stays RAW16 for
its life and is counted, else the codec's count of encodes goes up. A drained home's frames return to free space and its charge to
the quota. The oldest ticket of a partition is written to its ticket ring, and stays in its queue while that ring may not be written to. A spilled page that alone waits for the freed run takes it. -/
def Obligations.PagesEncodesDrainsTickets : Prop := ∀ (s : State) (part : Nat),
  (∀ x p run, atRest s = false → s.cdc.encQ.find? (fun e => e.part == part && e.run.isSome) = some x → getPage s x.at_ = some p → x.run = some run →
    (encodable p.model p.model.codec p.rowData = false → p.hasMeta = true → ∃ t, exec (.encodeDone part) s = .next t ∧
      t.cdc.encQ = s.cdc.encQ.filter (fun y => y.at_ != x.at_) ∧ t.cdc.kept = sat32 (s.cdc.kept + 1)) ∧
    (encodable p.model p.model.codec p.rowData = true → ∃ t, exec (.encodeDone part) s = .next t ∧
      t.cdc.encQ = s.cdc.encQ.filter (fun y => y.at_ != x.at_) ∧
      t.cdc.enc = lmod s.cdc.enc (p.model.codec - 1) (fun n => sat32 (n + 1)) ∧ t.cdc.kept = s.cdc.kept)) ∧
  (∀ id d, atRest s = false → s.hbm.drains.find? (fun d => d.id == id) = some d → ∃ v : State,
    exec (.translationDrainDone id) s = .next (driveAll (match d.image with | none => v | some i => dropImage i v)) ∧
    v.hbm.drains = s.hbm.drains.filter (fun x => x.id != id) ∧
    v.hbm.used = mupd s.hbm.used d.part [0, 0, 0, 0, 0] (fun l => lmod l 1 fun u => u - d.bytes) ∧
    mgetD v.hbm.free d.part [] = d.runs.foldl (fun g r => if r.len = 0 then g else insertRun r g) (mgetD s.hbm.free d.part []) ∧
    v.hbm.dirty = s.hbm.dirty ++ (d.runs.filter fun r => r.len != 0).map (fun r => (d.part, r)) ∧ Only [.hbm] s v) ∧
  (∀ ring k rest, stopped s = false → mget s.seqs.tktRing part = some (ring, true) → mgetD s.seqs.tickets part [] = k :: rest → (ringOf s ring).enable = true →
    (ringOf s ring).ready.length < cqRoom (ringOf s ring) → mayWrite s (ringOf s ring) = true → ∃ t, exec (.ticketWrite part) s = .next t ∧
      mgetD t.seqs.tickets part [] = rest ∧ Only [.link, .rng, .io, .seqs, .sec] s t ∧
      t = writeCpl ring (modRing ring (fun r => { r with ready := r.ready ++ [ticketCpl k] })
        { s with seqs := { s.seqs with tickets := mset s.seqs.tickets part rest } })) ∧
  (∀ ring k rest, mget s.seqs.tktRing part = some (ring, true) → mgetD s.seqs.tickets part [] = k :: rest →
    mayWrite s (ringOf s ring) = false → exec (.ticketWrite part) s = .next s) ∧
  (∀ a p, atRest s = false → sortBy (fun x y => decide (x.2.sealSeq < y.2.sealSeq))
      ((allPages s).filter fun x => x.2.part == part && x.2.tier == .hamper && x.2.sealed) = [(a, p)] →
    (spillToHbm a s).cdc.encQ.filter (fun e => e.part == part) = [] →
    exec (.freedRunService part) s = .next (serveBackings (spillToHbm a s)))

/-- The model slots (parts of R129, R130, R168). The operator's load of a good descriptor into a slot no open sequence uses fills it, its reserved bits 0; a bad one or a
slot in use sets PWU_MD_CMD.err and changes no slot. A read shows the slot's bytes, zero where it is empty; an unload empties a slot not in use. -/
def Obligations.ModelSlots : Prop := ∀ (s : State) (path : Path), operates path 0x40004 s = true → s.seqs.mdBusy = false →
  (modelOk s.seqs.mdData = true → slotInUse s s.seqs.mdSel = false → exec (.mdLoad path) s =
    .next { s with seqs := { s.seqs with md := mset s.seqs.md s.seqs.mdSel (mdHeld s.seqs.mdData) } }) ∧
  (modelOk s.seqs.mdData = false ∨ slotInUse s s.seqs.mdSel = true → exec (.mdLoad path) s = .next { s with seqs := { s.seqs with mdErr := true } }) ∧
  exec (.mdRead path) s = .next { s with seqs := { s.seqs with mdData := padTo 64 (mgetD s.seqs.md s.seqs.mdSel []) } } ∧
  (slotInUse s s.seqs.mdSel = false → exec (.mdUnload path) s = .next { s with seqs := { s.seqs with md := mdel s.seqs.md s.seqs.mdSel } }) ∧
  (slotInUse s s.seqs.mdSel = true → exec (.mdUnload path) s = .next { s with seqs := { s.seqs with mdErr := true } })

/-- Prefix lookups, publishes and retirements (parts of R184, R185, R193, R194, R199). A PFX_LOOKUP that fails a check ends with its subcode and
touches no block; one that stays on this device ends with what the local search found and its blocks attached, or waits for a table. A PFX_PUBLISH of a handle that is not its own, or of
a wrong operand length, ends with INTERNAL; otherwise it ends with the outcome of its steps 1 to 7, or waits; one that waited at step 5 or 7 goes on there.
A PFX_RETIRE ends with the pages released, or with INTERNAL 0x24 and every block kept. -/
def Obligations.LookupsPublishesRetirements : Prop := ∀ (s : State) (n : Nat) (e : Entry), RingOk (ringOf s n) → NoClose s →
  let il := eInline e.raw
  let ctx := (ringOf s n).context
  let a := parseLookup il
  let ops := e.operands.getD []
  let h := field il 0 3
  let p : PubSt :=
    { seq := h, block := field il 4 4, adapter := field il 8 4, prio := field il 12 1, tol := BitVec.ofNat 16 (field il 14 2)
      parent := ops.take 64, key := [] }
  (starting opPfxLookup n s = some e → (a.attach && appending s a.seq) = false → (s.casc.lookup.isSome && goesToGroup s ctx a) = false →
    (∀ c, checkLookup s ctx a = some c → ∃ t, exec (.pfxLookup n) s = .next t ∧ Ended n e (internal c) s t ∧ t.pfx = s.pfx) ∧
    (checkLookup s ctx a = none → goesToGroup s ctx a = false → ∃ t u, exec (.pfxLookup n) s = .next t ∧ InProgress n e (.lookup none) s u ∧
      let x := localLookup ctx a (chunks 64 64 ops) u
      let v := modOp s.ops.next (fun o => { o with body := .lookup (some x.1) }) x.2
      let b := (modelOf (mdOf v a.slot)).block
      let r := attachRun a.seq (a.first * b) b x.1.rest x.1 v
      (r.2.1 = false → Ended n e (lookupAns r.1.done r.1.full r.1.hits r.1.failed) s t) ∧
      (r.2.1 = true → InProgress n e (.lookup (some r.1)) s t))) ∧
  (starting opPfxPublish n s = some e →
    (seqOk s ctx h = false → ∃ t, exec (.pfxPublish n) s = .next t ∧ Ended n e (internal 0x10) s t ∧ t.pfx = s.pfx) ∧
    (seqOk s ctx h = true → eLen e.raw ≠ ((seqOf s h).map fun q => 64 + 4 * (seqModel s q).block).getD 0 →
      ∃ t, exec (.pfxPublish n) s = .next t ∧ Ended n e (internal 0x04) s t ∧ t.pfx = s.pfx) ∧
    (seqOk s ctx h = true → eLen e.raw = ((seqOf s h).map fun q => 64 + 4 * (seqModel s q).block).getD 0 →
      ∃ t u, exec (.pfxPublish n) s = .next t ∧ InProgress n e (.publish p) s u ∧
        (∀ ans v, startPublish s.ops.next ctx (ops.drop 64) { p with id := s.ops.next } u = .ended ans v → Ended n e ans s t) ∧
        (∀ w v, startPublish s.ops.next ctx (ops.drop 64) { p with id := s.ops.next } u = .wait w v → InProgress n e (.publish w) s t))) ∧
  (∀ op o w, mget s.ops.tab op = some o → o.body = .publish w →
    (w.stage = 5 ∨ w.stage = 7 → exec (.publishWaitEnd op) s = .next (putPublish op (resumePublish op o w s))) ∧
    (w.stage ≠ 5 → w.stage ≠ 7 → exec (.publishWaitEnd op) s = .next s)) ∧
  (starting opPfxRetire n s = some e →
    (retireNamed ctx (field il 0 4) ops (bit (field il 4 1) 0) (markStarted n e.idx s) = none →
      ∃ t, exec (.pfxRetire n) s = .next t ∧ Ended n e (internal 0x24) s t ∧ t.pfx = s.pfx) ∧
    (∀ freed kept u, retireNamed ctx (field il 0 4) ops (bit (field il 4 1) 0) (markStarted n e.idx s) = some (freed, kept, u) →
      ∃ t, exec (.pfxRetire n) s = .next t ∧ Ended n e { status := stOk, a := freed } s t ∧ t.pfx = u.pfx))

/-- The policy table and the patrol (parts of R190, R183, R400). The operator's insert at the row addressed moves the rows from there up by one; a full
table, a row past its end or a bad action sets the error and changes no row; a delete closes the gap; a read of an unused row reads zero. A patrol
read goes to the next row of every bank, and after row 65,535 to row 256 with the counts of the pass cleared; a bank with sixteen errors in one pass
is retired to a free spare and waits to be rebuilt; the rebuilt bank is searched again with its generation one higher. -/
def Obligations.PolicyTableAndPatrol : Prop := ∀ (s : State) (path : Path) (errors : List Nat) (b : Nat),
  (operates path 0x50008 s = true → s.pfx.polBusy = false →
    (s.pfx.pol.length < 256 → s.pfx.polSel ≤ s.pfx.pol.length → s.pfx.polAct = 1 ∨ s.pfx.polAct = 2 → exec (.policyInsert path) s =
      .next { s with pfx := { s.pfx with pol := s.pfx.pol.take s.pfx.polSel ++
        { value := s.pfx.polVal, mask := s.pfx.polMask, action := s.pfx.polAct } :: s.pfx.pol.drop s.pfx.polSel } }) ∧
    (256 ≤ s.pfx.pol.length ∨ s.pfx.pol.length < s.pfx.polSel ∨ (s.pfx.polAct ≠ 1 ∧ s.pfx.polAct ≠ 2) →
      exec (.policyInsert path) s = .next { s with pfx := { s.pfx with polErr := true } }) ∧
    (s.pfx.polSel < s.pfx.pol.length → exec (.policyDelete path) s =
      .next { s with pfx := { s.pfx with pol := s.pfx.pol.take s.pfx.polSel ++ s.pfx.pol.drop (s.pfx.polSel + 1) } }) ∧
    (s.pfx.pol.length ≤ s.pfx.polSel → exec (.policyDelete path) s = .next { s with pfx := { s.pfx with polErr := true } }) ∧
    (s.pfx.pol.length ≤ s.pfx.polSel → exec (.policyRead path) s = .next { s with pfx := { s.pfx with polVal := 0, polMask := 0, polAct := 0 } }) ∧
    (∀ r, s.pfx.pol[s.pfx.polSel]? = some r → exec (.policyRead path) s =
      .next { s with pfx := { s.pfx with polVal := r.value, polMask := r.mask, polAct := r.action } })) ∧
  (atRest s = false → (∀ x ∈ (patrolRead errors s).pfx.bankErr, x.2 < 16) → ∃ t, exec (.pmaPatrolRead errors) s = .next t ∧ Only [.pfx] s t ∧
    (s.pfx.patrolRow ≠ 65535 → t = patrolRead errors s ∧ t.pfx.patrolRow = s.pfx.patrolRow + 1) ∧
    (s.pfx.patrolRow = 65535 → t.pfx.patrolRow = 256 ∧ t.pfx.bankErr = [])) ∧
  (∀ k m, atRest s = false → s.pfx.patrolRow ≠ 65535 → ((patrolRead errors s).pfx.bankErr.filter fun x => decide (16 ≤ x.2)) = [(b, k)] →
    freeBank (let w := spareNat s bankWord; let old := physBank w b; if 32 ≤ old then retireSpareBank (putServed w old 0x3F) old else w) = some m →
    ∃ t, exec (.pmaPatrolRead errors) s = .next t ∧ b ∈ t.pfx.rebuilding ∧ t.pfx.bankErr = mdel (patrolRead errors s).pfx.bankErr b) ∧
  (atRest s = false → b ∈ s.pfx.rebuilding → b < s.spare.genBank.length → ∃ t, exec (.bankRebuildDone b) s = .next t ∧ b ∉ t.pfx.rebuilding ∧ t.pfx.rows = rebuiltRows s b ∧
    nth t.spare.genBank b 0 = nth s.spare.genBank b 0 + 1)

/-- The attention ops (parts of R213, R220, R233, R244, R245). One that fails a check ends with the subcode of the first check that fails. ATTN_BWD over a
DROPPED page ends DROPPED with no entry computed and every entry counted as not computed. Otherwise the op is in progress with what its descriptor
asks, at the rung of its mode, and is dispatched: its work units are cut and its buffers read. -/
def Obligations.AttentionOpsStart : Prop := ∀ (s : State) (n : Nat) (e : Entry), RingOk (ringOf s n) → NoClose s →
  let b := e.operands.getD []
  let ctx := (ringOf s n).context
  let start := fun (op : Nat) (i : Instr) => starting op n s = some e →
    let a := attnAsked op b (ctxLadder (ctxOf s ctx))
    (∀ c, attnBad s ctx (ringOf s n).reqNode op b a = some c → ∃ t, exec i s = .next t ∧ Ended n e (internal c) s t ∧ t.attn = s.attn) ∧
    (attnBad s ctx (ringOf s n).reqNode op b a = none → (op = opAttnBwd → anyDropped s a = false) →
      ∃ u, InProgress n e (.attn a) s u ∧ ((mget u.ops.tab s.ops.next).map (·.rung)) = some (modeRung (dMode b)) ∧
        Only [.ops] (markStarted n e.idx s) u ∧ exec i s = .next (dispatchAttn s.ops.next u))
  start opAttnDecode (.attnDecode n) ∧ start opAttnChunk (.attnChunk n) ∧ start opAttnBwd (.attnBwd n) ∧
  (starting opAttnBwd n s = some e →
    let a := attnAsked opAttnBwd b (ctxLadder (ctxOf s ctx))
    attnBad s ctx (ringOf s n).reqNode opAttnBwd b a = none → anyDropped s a = true →
    ∃ t, exec (.attnBwd n) s = .next t ∧ Ended n e { status := stDropped, a := 0, b := a.ents.length } s t ∧
      t.attn.failed = sat32 (s.attn.failed + a.ents.length) ∧ t.attn.ops = lmod s.attn.ops 2 fun k => sat32 (k + 1))

/-- STEP (parts of R344, R346, R347, R349). A STEP without room waits as it is. Its sizes and header are checked first, then its attention; the first check that
fails ends it. Otherwise it is in progress with its append records in order, none started; with an attention block it is dispatched too. A sub-chunk
issue takes the first record that can go on: a record not started passes the checks of an append, or ends with their answer alone. -/
def Obligations.StepsRunTheirRecords : Prop := ∀ (s : State) (n : Nat) (e : Entry), RingOk (ringOf s n) →
  let b := e.operands.getD []
  let ctx := (ringOf s n).context
  let blk := stBlock b
  let a := attnAsked (field b 1 1) blk (stLadder s ctx b)
  let bad := if stHasAttn b then
    attnBad (if dNewCached blk then withAppends (stAppends b) s else s) ctx (ringOf s n).reqNode (field b 1 1) blk a else none
  (starting opStep n s = some e →
    (stepHeadOk b = true → stepRoom s ctx b = false → exec (.step n) s = .next s) ∧
    (stepHeadOk b = false → ∃ t, exec (.step n) s = .next t ∧ Ended n e (internal 0x50) s t ∧ t.seqs = s.seqs) ∧
    (stepHeadOk b = true → stepRoom s ctx b = true →
      (∀ c, bad = some c → ∃ t, exec (.step n) s = .next t ∧ Ended n e (internal c) s t ∧ t.seqs = s.seqs) ∧
      (bad = none →
        let body := OpBody.step ((stAppends b).map fun x => { app := x }) (field b 0x18 8) (stFlags b) (if stHasAttn b then some a else none) none
        ∃ u, InProgress n e body s u ∧ Only [.ops] (markStarted n e.idx s) u ∧
          (stHasAttn b = false → exec (.step n) s = .next u) ∧
          (stHasAttn b = true → exec (.step n) s = .next (dispatchAttn s.ops.next u))))) ∧
  (∀ op o recs x y z w, mget s.ops.tab op = some o → o.body = .step recs x y z w →
    exec (.stepSubchunkIssue op) s = .next (driveStep op (issueFrom op (List.range recs.length) s)) ∧
    (∀ r rest, recs = r :: rest → r.started = false → appending s r.app.seq = false → 0 < stepLimit s op o → (∀ q ∈ recs, q.started = false) →
      issueFrom op (List.range recs.length) s = startRec op 0 o r s ∧
      (∀ ans, checkAppend s (seqMine s o.ctx r.app.seq) r.app = some ans → ∃ o', mget (startRec op 0 o r s).ops.tab op = some o' ∧
        o'.body = .step ({ r with started := true, status := some (ans.status, ans.a, ans.b, ans.c) } :: rest) x y z w)))

/-- The fetch ops and the tile stream (parts of R246, R250, R279, R462). KV_FETCH and KV_PREFETCH whose handle is not the context's, or whose fields are bad, end
with INTERNAL and start nothing; a good fetch is in progress with no tile sent and one record per layer, and gathers its tiles from its deadline's evaluation on; a good prefetch runs over the pages it names.
WT_STREAM checks its object, that it is sealed and that its tiles lie in it, and is then in progress. A tile send sends the op's next tile in schedule order, a
poisoned one of a stream counting as not sent, then settles it. -/
def Obligations.FetchesAndStreams : Prop := ∀ (s : State) (n : Nat) (e : Entry), RingOk (ringOf s n) →
  let il := eInline e.raw
  let b := (e.operands.getD []).take 64
  let ctx := (ringOf s n).context
  let obj := field il 0 4 % 2 ^ 20
  let first := field il 4 4
  let k := field il 8 4
  let todo := (List.range (fLayers b)).flatMap fun j =>
    (pagesOver s (fSeq b) (fLayer0 b + j) (fFirst b) (fFirst b + fCount b)).map fun x => (j, x.at_ (fSeq b))
  (starting opKvFetch n s = some e →
    (∀ c, fetchBad s ctx b false = some c → ∃ t, exec (.kvFetch n) s = .next t ∧ Ended n e (internal c) s t ∧ t.attn = s.attn) ∧
    (fetchBad s ctx b false = none → ∃ u, InProgress n e (.fetch { desc := b, lays := List.replicate (fLayers b) {} }) s u ∧
      Only [.ops] (markStarted n e.idx s) u ∧ exec (.kvFetch n) s = .next (gather s.ops.next (deadlineFetch s.ops.next u)) ∧
      (s.sch.monitorEn = false ∨ eDeadline e.raw = 0 → deadlineFetch s.ops.next u = u))) ∧
  (starting opKvPrefetch n s = some e →
    (∀ c, fetchBad s ctx b true = some c → ∃ t, exec (.kvPrefetch n) s = .next t ∧ Ended n e (internal c) s t ∧ t.attn = s.attn) ∧
    (fetchBad s ctx b true = none → ∃ u, InProgress n e (.prefetch { desc := b, todo := todo }) s u ∧
      Only [.ops] (markStarted n e.idx s) u ∧ exec (.kvPrefetch n) s = .next (runPrefetch s.ops.next u))) ∧
  (starting opWtStream n s = some e →
    (objNamed s ctx obj = none → ∃ t, exec (.wtStream n) s = .next t ∧ Ended n e (internal 0x43) s t ∧ t.wt = s.wt) ∧
    (∀ w, objNamed s ctx obj = some w →
      (w.sealed = false ∨ k = 0 ∨ w.size < first + k → ∃ t, exec (.wtStream n) s = .next t ∧ Ended n e (internal 0x43) s t ∧ t.wt = s.wt) ∧
      (w.sealed = true → k ≠ 0 → first + k ≤ w.size → ∃ u, exec (.wtStream n) s = .next (driveStream s.ops.next u) ∧
        InProgress n e (.stream obj first k {}) s u ∧ Only [.ops] (markStarted n e.idx s) u))) ∧
  (∀ op o, mget s.ops.tab op = some o →
    (∀ f, o.body = .fetch f → exec (.tileSend op) s = .next (settleTiles op (fetchTile op o f s))) ∧
    (∀ x i m t, o.body = .stream x i m t → exec (.tileSend op) s = .next (settleTiles op (streamTile op o x i m t s)) ∧
      (∀ w p, t.next < m → mget s.wt.objs x = some w → w.tiles[i + t.next]? = some p →
        let staged := t.staged.find? fun y => y.tile == t.next
        let lost := tilePoisoned (access ((clustersFor s o.ctx).headD 0) (.tile x (i + t.next)) s) p
        (staged = none → lost = true → ∃ o', mget (streamTile op o x i m t s).ops.tab op = some o' ∧
            o'.body = .stream x i m { t with next := t.next + 1, unsent := t.unsent + 1, poisoned := true }) ∧
        (staged ≠ none ∨ lost = false → ∃ o' l, mget (streamTile op o x i m t s).ops.tab op = some o' ∧
            o'.body = .stream x i m { t with next := t.next + 1, sent := t.sent + 1, staged := l }))))

/-- WT_LOAD (parts of R129, R277, R278, R326). With create set it takes a free object number and table frames, or ends NO_SPACE or QUOTA, or with 0x43 where its
sizes do not fit; without it the named object must exist, be open and take the next tiles in order. The load is then in progress with its tiles
asked for in order, and it lands none before its bytes arrive. -/
def Obligations.WeightLoadsReadTheirTiles : Prop := ∀ (s : State) (n : Nat) (e : Entry), RingOk (ringOf s n) → starting opWtLoad n s = some e →
  let il := eInline e.raw
  let ctx := (ringOf s n).context
  let c := ctxOf s ctx
  let create := bit (field il 4 1) 0
  let seals := bit (field il 4 1) 1
  let o := field il 0 4 % 2 ^ 20
  let first := field il 20 4
  let k := field il 24 4
  let size := field il 16 4
  let u := markStarted n e.idx s
  let bad := fun (size : Nat) => k = 0 ∨ size < first + k ∨ (seals = true ∧ first + k ≠ size)
  (create = true → s.start.wearReady = false → exec (.wtLoad n) s = .next s) ∧
  (create = true → s.start.wearReady = true →
    (s.wt.freeQ.take = none → ∃ t, exec (.wtLoad n) s = .next t ∧ Ended n e { status := stNoSpace } s t ∧ t.wt = s.wt) ∧
    (∀ x fq, s.wt.freeQ.take = some (x, fq) →
      (size = 0 ∨ 1048576 < size ∨ first ≠ 0 ∨ bad size → ∃ t, exec (.wtLoad n) s = .next t ∧ Ended n e (internal 0x43) s t ∧ t.wt = s.wt) ∧
      (size ≠ 0 → size ≤ 1048576 → first = 0 → ¬ bad size →
        (takeRun c.part (framesFor (8 * size)) u = none → ∃ t, exec (.wtLoad n) s = .next t ∧
          Ended n e { status := if covers s c.part 1 (frameBytes (framesFor (8 * size))) then stNoSpace else stQuota } s t ∧ t.wt = s.wt) ∧
        (∀ run v, takeRun c.part (framesFor (8 * size)) u = some (run, v) → ∃ t w, exec (.wtLoad n) s = .next t ∧
          InProgress n e (.wtLoad x 0 k seals []) s t ∧ mget t.wt.objs x = some w ∧ w.size = size ∧ w.part = c.part ∧ w.tenant = c.tenant ∧
          w.hint = field il 5 1 % 4 ∧ w.prio = field il 6 1 ∧ w.table = some run ∧ w.tiles = [] ∧ w.sealed = false ∧ t.wt.freeQ = fq)))) ∧
  (create = false →
    (objNamed s ctx o = none → ∃ t, exec (.wtLoad n) s = .next t ∧ Ended n e (internal 0x40) s t ∧ t.wt = s.wt) ∧
    (∀ w, objNamed s ctx o = some w →
      (w.sealed = true ∨ first ≠ w.tiles.length ∨ bad w.size → ∃ t, exec (.wtLoad n) s = .next t ∧ Ended n e (internal 0x43) s t ∧ t.wt = s.wt) ∧
      (w.sealed = false → first = w.tiles.length → ¬ bad w.size → ∃ t, exec (.wtLoad n) s = .next t ∧
        InProgress n e (.wtLoad o first k seals []) s t ∧ readsDone t s.ops.next = false ∧ t.wt = s.wt)))

/-- Units and slices (parts of R220, R342, R343, R351 to R354, R387). A core that may take a unit takes the one the policy picks: the unit runs there from now, its core's
stores are in use, and its context is the one that runs. A unit's end charges its core time and settles the slice; a halted core ends no unit, and one that still waits
for a Peer page asks for it again. All of it holds while the device's work has not stopped. The quantum's end
marks the slice. In a stop, a unit stops at a cheap point with its live bytes, or at the wait's end with the full state; once all have stopped they are
saved, the cores scrubbed, and the next tenant's units restored to the cores they left. -/
def Obligations.UnitsRunInSlices : Prop := ∀ (s : State) (p cluster core : Nat), atRest s = false →
  (partOfCluster s cluster = some p → issuing s = true → (partOf s p).reset = .none → (partOf s p).scrubbing = false →
    ∀ v, v = beginSlice p (settleSlice p s) → (partOf v p).switch = .none → coreIdle v p cluster core = true →
    (pickUnit v p cluster = none → exec (.workUnitDispatch cluster core) s = .next v) ∧
    (∀ id u, pickUnit v p cluster = some (id, u) → ∃ t x, exec (.workUnitDispatch cluster core) s = .next t ∧ mget t.attn.units id = some x ∧
      x.st = .running cluster core (stamp v) false ∧ x.rung = rungOf v u ∧ coreId cluster core ∈ t.core.dirty ∧ (partOf t u.part).running = u.ctx)) ∧
  (∀ id u since, unitOn s cluster core = some (id, u) → u.st = .running cluster core since false →
    (mhas s.core.halted (coreId cluster core) = true → exec (.workUnitEnd cluster core) s = .next s) ∧
    (mhas s.core.halted (coreId cluster core) = false → unitReady s u = true →
      exec (.workUnitEnd cluster core) s = .next (settleSlice u.part (retireUnit id cluster core since u s))) ∧
    (mhas s.core.halted (coreId cluster core) = false → unitReady s u = false → exec (.workUnitEnd cluster core) s = .next (askPeers id s))) ∧
  (partExists s p = true → (partOf s p).slice.isSome = true →
    exec (.quantumExpiry p) s = .next (settleSlice p (modPart p (fun x => { x with expired := true }) s))) ∧
  (∀ id u since bytes, unitOn s cluster core = some (id, u) → mget s.attn.units id = some u → u.st = .running cluster core since false →
    (partOf s u.part).switch = .stopping → mhas s.core.halted (coreId cluster core) = false → ∃ t x, exec (.cheapPointStop cluster core bytes) s = .next t ∧
      mget t.attn.units id = some x ∧ x.st = .running cluster core since true ∧ x.live = min bytes 296960) ∧
  ((partOf s p).switch = .stopping → exec (.cheapWaitExpiry p) s = .next (settleStops p (forEach (runningIn s p) (fun u s => stopUnit u.1 296960 s) s))) ∧
  ((partOf s p).switch = .saving → ∃ t, exec (.saveDone p) s = .next t ∧ (partOf t p).switch = .scrubbing ∧ (partOf t p).scrubbing = true ∧
    (∀ id u c k since st, runningIn s p = [(id, u)] → mget s.attn.units id = some u → u.st = .running c k since st → ∃ x, mget t.attn.units id = some x ∧
      x.st = .saved c k ∧ x.slot = saveSlot (partOf s p) ((partOf s p).outgoing.getD 0))) ∧
  ((partOf s p).scrubbing = true → (partOf s p).reset ≠ .clearing → (partOf s p).switch = .scrubbing →
    (finishScrub p (slotsOf s ((partOf s p).outgoing.getD 0) false) s).sec.removals = [] →
    ∃ t, exec (.scrubDone p) s = .next t ∧ (partOf t p).scrubbing = false ∧
      (partOf t p).switch = if (partOf s p).incoming.isSome then .restoring else .none) ∧
  ((partOf s p).switch = .restoring → ∃ t, exec (.restoreDone p) s = .next t ∧ (partOf t p).switch = .none ∧
    (partOf t p).slice = some ((partOf s p).incoming.getD 0) ∧ (partOf t p).expired = false)

/-- Contexts, deadlines and slowdowns (parts of R340, R341, R342, R357, R365, R366). The operator's write of a context entry that no rule refuses stores the staged
fields, and enabling one starts its accounts afresh at the lowest virtual time of the ready contexts; a refused write sets err and changes no entry. A read
stages the entry's bytes; a disable is refused while an enabled ring is bound. An evaluation changes nothing of an op without a deadline, else
it moves the op to the first allowed rung that meets it. Every 100 ms each context's slowdown is its ratio of actual to solo time. -/
def Obligations.ContextsDeadlinesSlowdowns : Prop := ∀ (s : State) (path : Path),
  let n := s.sch.ctxSel
  let old := ctxOf s n
  let c := ctxParse s.sch.ctxData old
  (operates path 0xA0204 s = true → s.sch.ctxBusy = false →
    (ctxOk s n old c = true → exec (.ctxWrite path) s = .next { s with sch := { s.sch with ctxs := mset s.sch.ctxs n (if c.enable && !old.enable then
      { c with v := BitVec.ofNat 64 (lowestV s (readyCtxs s c.part)), cyc := 0, preempt := 0, save := 0, late := 0, abstained := 0, rungs := List.replicate 4 0
               waits := List.replicate 16 0, slow := 0, slowOps := 0, actual := 0, solo := 0, opsDone := 0 } else c) } }) ∧
    (ctxOk s n old c = false → exec (.ctxWrite path) s = .next { s with sch := { s.sch with ctxErr := true } }) ∧
    exec (.ctxRead path) s = .next { s with sch := { s.sch with ctxData := ctxBytes old } } ∧
    (old.enable = false ∨ ringBound s n = false → exec (.ctxDisable path) s =
      .next { s with sch := { s.sch with ctxs := mmod s.sch.ctxs n fun c => { c with enable := false } } }) ∧
    (old.enable = true → ringBound s n = true → exec (.ctxDisable path) s = .next { s with sch := { s.sch with ctxErr := true } })) ∧
  (∀ op o a, mget s.ops.tab op = some o → o.body = .attn a →
    (s.sch.monitorEn = false ∨ o.deadline = 0 ∨ unstarted s op = [] → o.rung ≠ 4 → exec (.deadlineEvaluation op) s = .next s) ∧
    (s.sch.monitorEn = true → o.deadline ≠ 0 → unstarted s op ≠ [] →
      ∀ r, r = pickRung ((attnRungs a).filter fun r => r != 4 || noneStarted s op a) o.rung
        (fun r => decide (tPred s a.opcode o.ctx (attnWork s op a r) ≤ o.arrival + o.deadline)) → r ≠ 4 →
      exec (.deadlineEvaluation op) s = .next { s with ops := { s.ops with tab := mmod s.ops.tab op fun o => { o with rung := r } } })) ∧
  (atRest s = false → ∃ t, exec .slowdownPublish s = .next t ∧ Only [.sch] s t ∧ ∀ k, mget t.sch.ctxs k = (mget s.sch.ctxs k).map fun c =>
    { c with slow := if c.opsDone = 0 ∨ c.solo = 0 then 0 else min 65535 (c.actual * 256 / c.solo), slowOps := min 65535 c.opsDone
             actual := 0, solo := 0, opsDone := 0 })

/-- Hints and migrations (R276; parts of R275, R284). OBJ_HINT on an object that is not the context's, of an unknown kind or with a bad class, ends with INTERNAL and
changes nothing; else it ends OK with the pages whose hint it changes, and a sequence takes the new class and priority. OBJ_MIGRATE checks kind, object and
direction in that order; then it is in progress over the pages it names, in order. -/
def Obligations.HintsAndMigrations : Prop := ∀ (s : State) (n : Nat) (e : Entry), RingOk (ringOf s n) →
  let il := eInline e.raw
  let ctx := (ringOf s n).context
  let id := field il 4 4
  let flags := field il 1 1
  let h := id % 2 ^ 24
  let bad := bit flags 0 = true ∧ 3 < field il 2 1
  let new := newHint flags (field il 2 1) (field il 3 1)
  (starting opObjHint n s = some e →
    (∀ sub, (field il 0 1 = 0 ∧ seqOk s ctx h = false ∧ sub = 0x10) ∨ (field il 0 1 = 1 ∧ blockNamed s ctx id = none ∧ sub = 0x40) ∨
        (field il 0 1 = 2 ∧ objNamed s ctx (id % 2 ^ 20) = none ∧ sub = 0x40) ∨ (2 < field il 0 1 ∧ sub = 0x41) ∨
        (((field il 0 1 = 0 ∧ seqOk s ctx h = true) ∨ (field il 0 1 = 1 ∧ (blockNamed s ctx id).isSome = true) ∨
          (field il 0 1 = 2 ∧ (objNamed s ctx (id % 2 ^ 20)).isSome = true)) ∧ bad ∧ sub = 0x41) →
      ∃ t, exec (.objHint n) s = .next t ∧ Ended n e (internal sub) s t ∧ t.seqs = s.seqs) ∧
    (∀ q, field il 0 1 = 0 → seqOk s ctx h = true → ¬ bad → seqOf s h = some q → ∃ t, exec (.objHint n) s = .next t ∧
      Ended n e { status := stOk, a := if new (q.hint, q.prio) = (q.hint, q.prio) then 0 else
        (q.pages.filter fun p => match p.ref with | .own _ => true | .shared _ => false).length } s t ∧
      (s.tier.moves = [] → seqOf t h = some { q with hint := (new (q.hint, q.prio)).1, prio := (new (q.hint, q.prio)).2 })) ∧
    (∀ w, field il 0 1 = 2 → objNamed s ctx (id % 2 ^ 20) = some w → ¬ bad → ∃ t, exec (.objHint n) s = .next t ∧
      Ended n e { status := stOk, a := if new (w.hint, w.prio) = (w.hint, w.prio) then 0 else w.tiles.length } s t)) ∧
  (starting opObjMigrate n s = some e →
    (∀ sub, (2 < field il 0 1 ∧ sub = 0x41) ∨ (field il 0 1 = 0 ∧ migrateTargets s ctx il = none ∧ sub = 0x10) ∨
        ((field il 0 1 = 1 ∨ field il 0 1 = 2) ∧ migrateTargets s ctx il = none ∧ sub = 0x40) ∨
        (field il 0 1 ≤ 2 ∧ (migrateTargets s ctx il).isSome = true ∧ 1 < flags ∧ sub = 0x41) →
      ∃ t, exec (.objMigrate n) s = .next t ∧ Ended n e (internal sub) s t ∧ t.tier = s.tier) ∧
    (∀ l, field il 0 1 ≤ 2 → migrateTargets s ctx il = some l → flags ≤ 1 → ∃ u, InProgress n e (.migrate l 0 0 0 false false []) s u ∧
      Only [.ops, .sch] (markStarted n e.idx s) u ∧ exec (.objMigrate n) s = .next (runMigrate s.ops.next u)))

/-- Heat and moves (parts of R279, R280, R281, R285). A due halving starts once no sweep runs and halves every heat counter; a sweep's end sets warm, and
starts a halving that fell due meanwhile. The background mover of a partition turns demotion on below the low-water mark, while heat is warm and a cool page remains, and off at the
high-water mark, then begins the first move that can begin, of at most 64 in flight. All of it holds while the device's work has not stopped. A move whose copy is whole switches the page's leaf; one that fails is abandoned. A quota raise beyond the tier sets quota_err. -/
def Obligations.HeatAndMoves : Prop := ∀ (s : State) (part : Nat), atRest s = false →
  (s.tier.due ≠ 0 → s.tier.sweep = false → exec .heatHalving s = .next { s with tier := { s.tier with
    due := s.tier.due - 1, sweep := true, halvings := s.tier.halvings + 1, heat := s.tier.heat.map fun x => (x.1, x.2 / 2)
    flashHeat := s.tier.flashHeat.map fun x => (x.1, x.2.1, x.2.2 / 2) } }) ∧
  (s.tier.due = 0 ∨ s.tier.sweep = true → exec .heatHalving s = .next s) ∧
  (s.tier.sweep = true → s.tier.due = 0 →
    exec .halvingSweepEnd s = .next { s with tier := { s.tier with sweep := false, warm := true, halvEnded := s.tier.halvEnded + 1 } }) ∧
  (s.tier.sweep = true → s.tier.due ≠ 0 → exec .halvingSweepEnd s = .next { s with tier := { s.tier with
    warm := true, halvEnded := s.tier.halvEnded + 1, due := s.tier.due - 1, sweep := true, halvings := s.tier.halvings + 1
    heat := s.tier.heat.map fun x => (x.1, x.2 / 2), flashHeat := s.tier.flashHeat.map fun x => (x.1, x.2.1, x.2.2 / 2) } }) ∧
  (s.tier.sweep = false → exec .halvingSweepEnd s = .next s) ∧
  (let on := s.tier.warm = true ∧ (freeHbm s part < lowMark s part ∨ (part ∈ s.tier.relief ∧ freeHbm s part < highMark s part)) ∧ coolPages s part ≠ []
   ∃ t u, exec (.backgroundMove part) s = .next t ∧ Only [.tier] s u ∧ (on → part ∈ u.tier.relief) ∧ (¬ on → part ∉ u.tier.relief) ∧
    (∀ p, p ≠ part → (p ∈ u.tier.relief ↔ p ∈ s.tier.relief)) ∧
    (s.start.wearReady = true → movesOf s part < 64 → t = firstMove (pickMove u part (decide on)) u) ∧
    (s.start.wearReady = false ∨ 64 ≤ movesOf s part → t = u)) ∧
  (∀ id m, mget s.tier.moves id = some m →
    exec (.moveCopyDone id false) s = .next (driveAll (moveEnded id m false (abandonMove id s))) ∧
    (m.toHbm = false → programmed s m.image = false → exec (.moveCopyDone id true) s = .next s) ∧
    (m.toHbm = true ∨ programmed s m.image = true → exec (.moveCopyDone id true) s = .next (driveAll (moveEnded id m true (switchMove id m s))))) ∧
  (∀ path k value, operates path 0x80100 s = true → k < 5 →
    (partExists s part = true → quotaOver part k (value % 2 ^ 32) s = true →
      exec (.tierQuotaWrite path part k value) s = .next { s with tier := { s.tier with quotaErr := true } }) ∧
    (partExists s part = true → quotaOver part k (value % 2 ^ 32) s = false → exec (.tierQuotaWrite path part k value) s =
      .next (serveBackings (tlyWrite (quotaWord part k) (BitVec.ofNat 32 (value % 2 ^ 32)) s))) ∧
    (partExists s part = false → exec (.tierQuotaWrite path part k value) s = .next s))

/-- Extents (parts of R294, R297, R299). EXT_GRANT with bad operands ends with 0x44; with no number or no run of 2 MiB units NO_SPACE, outside the quota QUOTA; else the
lowest queued number is ZEROING with the entry's size, grantees, key and grace, and no access is granted until zeroing ends and the op completes OK. -/
def Obligations.ExtentsAreGrantedZeroed : Prop := ∀ (s : State) (n : Nat) (e : Entry), RingOk (ringOf s n) →
  let il := eInline e.raw
  let c := ctxOf s (ringOf s n).context
  let z := field il 0 1
  let gs := ((List.range 4).map fun i => (field il (8 + 2 * i) 2, bit (field il 1 1) i)).filter fun g => g.1 != 0
  let ok := 21 ≤ z ∧ z ≤ 36 ∧ field il 2 2 ≤ 10000 ∧ gs ≠ [] ∧ ∀ g ∈ gs, g.1 ≠ 0xFFFF
  (starting opExtGrant n s = some e →
    (¬ ok → ∃ t, exec (.extGrant n) s = .next t ∧ Ended n e (internal 0x44) s t ∧ t.ext = s.ext) ∧
    (ok → s.ext.freeQ.take = none → ∃ t, exec (.extGrant n) s = .next t ∧ Ended n e { status := stNoSpace } s t ∧ t.ext = s.ext) ∧
    (ok → ∀ x fq, s.ext.freeQ.take = some (x, fq) →
      (covers s c.part 1 (2 ^ z) = false → ∃ t, exec (.extGrant n) s = .next t ∧ Ended n e { status := stQuota } s t ∧ t.ext = s.ext) ∧
      (covers s c.part 1 (2 ^ z) = true → takeUnits c.part (2 ^ (z - 21)) (markStarted n e.idx s) = none →
        ∃ t, exec (.extGrant n) s = .next t ∧ Ended n e { status := stNoSpace } s t ∧ t.ext = s.ext) ∧
      (covers s c.part 1 (2 ^ z) = true → ∀ runs u, takeUnits c.part (2 ^ (z - 21)) (markStarted n e.idx s) = some (runs, u) →
        ∃ t, exec (.extGrant n) s = .next t ∧ InProgress n e (.extGrant x) s t ∧ t.ext.freeQ = fq ∧ t.hbm = u.hbm ∧
          t.ext.table = mset s.ext.table x { state := .zeroing, log2 := z, grantees := gs, key := field il 4 4, grace := field il 2 2
                                             part := c.part, tenant := c.tenant, runs := runs, op := some s.ops.next }))) ∧
  (atRest s = false → ∀ x ext, mget s.ext.table x = some ext → ext.state = .zeroing →
    (ext.op = none → exec (.extZeroDone x) s = .next { s with ext := { s.ext with table := mmod s.ext.table x fun y => { y with state := .active, op := none } } }) ∧
    (∀ id, ext.op = some id → ∃ t, exec (.extZeroDone x) s = .next t ∧ mget t.ext.table x = some { ext with state := .active, op := none } ∧
      t = finishOp id { status := stOk, a := x, b := ext.runs.length }
        { s with ext := { s.ext with table := mmod s.ext.table x fun y => { y with state := .active, op := none } } }))

/-- Revocation (parts of R297 to R299). The entry that waits sets the revoke point at its place: the extent is REVOKING, and what is accepted before the
point is counted; an extent the context may not revoke ends the entry with 0x42. The recall begins with EXT_REVOKE, goes on as each controller's scan
ends, each counted once, and the grace period's end discards the write-backs still owed. An extent with nothing outstanding is freed: its number joins the queue,
its lines and filter entries are gone. -/
def Obligations.RevocationsRecallAndFree : Prop := ∀ (s : State) (n i : Nat),
  (∀ e, (ringOf s n).entries.find? (fun e => e.idx == i && e.st == .waiting) = some e → eOpcode e.raw = opExtRevoke → preCheck s n e = .go →
    let x := field (eInline e.raw) 0 2 % 4096
    (mget s.ext.table x = none → checkRevoke n i s = endEntry n i (internal 0x42) 0 (markStarted n i s)) ∧
    (∀ ext, mget s.ext.table x = some ext →
      (mayRevoke s (ringOf s n).context ext = false → checkRevoke n i s = endEntry n i (internal 0x42) 0 (markStarted n i s)) ∧
      (mayRevoke s (ringOf s n).context ext = true → InProgress n e (.extRevoke x) s (checkRevoke n i s) ∧
        ∃ y v, mget (checkRevoke n i s).ext.table x = some y ∧ y.state = .revoking ∧ y.rev = some v ∧ v.op = some s.ops.next ∧ v.recalling = false ∧
          v.scanned = [] ∧ v.graceOpen = !(bit (field (eInline e.raw) 2 1) 0 || ext.grace == 0)))) ∧
  (∀ x, revokingOf (checkRevoke n i s) n i = some x →
    exec (.extRevoke n i) s = .next (pumpHome (modRev x (fun v => { v with recalling := true }) (checkRevoke n i s)))) ∧
  (revokingOf (checkRevoke n i s) n i = none → exec (.extRevoke n i) s = .next (checkRevoke n i s)) ∧
  (atRest s = false → ∀ x ext v c, mget s.ext.table x = some ext → ext.rev = some v → v.recalling = true →
    (c ∉ v.scanned → exec (.snoopFilterScanDone c x) s = .next (pumpHome (modRev x (fun v => { v with scanned := v.scanned ++ [c] }) s))) ∧
    (c ∈ v.scanned → exec (.snoopFilterScanDone c x) s = .next s)) ∧
  (atRest s = false → ∀ x ext v, mget s.ext.table x = some ext → ext.rev = some v →
    (v.graceOpen = false → exec (.gracePeriodEnd x) s = .next s) ∧
    (v.graceOpen = true → (∀ t ∈ s.coh.txs, inExt x t.1 = true → ∀ y ∈ t.2.snoops, y.wbPending = false) →
      exec (.gracePeriodEnd x) s = .next (pumpHome (modRev x (fun v => { v with graceOpen := false }) s)))) ∧
  (∀ x ext v, mget s.ext.table x = some ext → ext.rev = some v → v.op = none → revokeOver s x v = true → s.ext.table = [(x, ext)] → s.coh.filter = [] →
    s.coh.waiting = [] → ∃ t, pumpHome s = t ∧ t.ext.table = [] ∧ t.ext.freeQ = s.ext.freeQ.give x ∧
      ∀ a, inExt x a = true → memByte t.coh.mem a = 0)

/-- Flash programs, reads and erases (parts of R309, R317, R319 to R321, R327). A program that fails retires the block it went to and counts a failure, and abandons the move
whose image it was; a good one acknowledges its write. A read that took a recovery step counts it; past the last step the granule is lost; above the rewrite threshold the stripes read are
queued for collection. A closed stripe that reads back well gives up its parity. A free block whose erase is good counts one erase; a failed erase retires
the block. All of it holds while the work of the unit has not stopped. A migration that waits for the write path gives up the page that waits. -/
def Obligations.FlashProgramsReadsErases : Prop := ∀ (s : State) (id : Nat),
  (stopped s = false → inStaging s id = true →
    (∀ k, nextBlock s.ftl (useOf s id) 0 = some k → s.tier.moves.find? (fun m => m.2.image == some id) = none → ∃ t, exec (.flashProgramDone id false) s = .next t ∧ Only [.ftl] s t ∧
      t = retireBlockF k (countErr 5 s) ∧ t.ftl.errs = lmod s.ftl.errs 5 (fun n => sat32 (n + 1))) ∧
    (∀ k mv m, nextBlock s.ftl (useOf s id) 0 = some k → s.tier.moves.find? (fun m => m.2.image == some id) = some (mv, m) →
      exec (.flashProgramDone id false) s = .next (driveAll (moveEnded mv m false (abandonMove mv (retireBlockF k (countErr 5 s)))))) ∧
    (∀ u, (if mhas s.ftl.images id then (programImage id s).map (replaceBacking id) else if recTurn s id then programRec id s else none) = some u →
      exec (.flashProgramDone id true) s = .next (driveAll (sweepJournals u)))) ∧
  (stopped s = false → ∀ target corrected step, step < 5 → overThreshold s corrected = false →
    exec (.flashReadDone target corrected step) s = .next (if 2 ≤ step then countErr (step - 1) s else s)) ∧
  (stopped s = false → ∀ target corrected step, step < 2 → overThreshold s corrected = true →
    exec (.flashReadDone target corrected step) s = .next (forEach (stripesRead s.ftl target) collectSoon (countErr 0 s))) ∧
  (stopped s = false → ∀ slot corrected step, 5 ≤ step → exec (.flashReadDone (.image id slot) corrected step) s = .next (loseImage id (countErr 4 s))) ∧
  (atRest s = false → ∀ st corrected, mget s.ftl.stripes id = some st → st.closed = true → st.freed = false →
    (overThreshold s corrected = false → exec (.stripeCloseVerify id corrected) s =
      .next (freeDead { s with ftl := { s.ftl with stripes := mset s.ftl.stripes id { st with parity := false } } })) ∧
    (overThreshold s corrected = true → ∃ t x, exec (.stripeCloseVerify id corrected) s = .next t ∧ mget t.ftl.stripes id = some x ∧ x.collectFirst = true) ∧
    (s.ftl.patrolEn = true → overThreshold s corrected = true → ∃ t x, exec (.flashPatrol id corrected) s = .next t ∧ mget t.ftl.stripes id = some x ∧
      x.collectFirst = true ∧ t.ftl.errs = lmod s.ftl.errs 0 (fun n => sat32 (n + 1))) ∧
    (s.ftl.patrolEn = false ∨ overThreshold s corrected = false → exec (.flashPatrol id corrected) s = .next s)) ∧
  (stopped s = false → ∀ die block, NoDiscard s →
    ((fblock s.ftl (blockKey die block)).st = .free → ∃ t, exec (.flashEraseDone die block true) s = .next t ∧ Only [.ftl] s t ∧
      (fblock t.ftl (blockKey die block)).erases = (fblock s.ftl (blockKey die block)).erases + 1) ∧
    (∃ t, exec (.flashEraseDone die block false) s = .next t ∧ t = retireBlockF (blockKey die block) (countErr 6 s) ∧ Only [.ftl] s t ∧
      ((fblock s.ftl (blockKey die block)).stripe = none → (fblock t.ftl (blockKey die block)).st = .retired))) ∧
  (stopped s = false → ∀ o a rest mv al nm dr qu ms p, mget s.ops.tab id = some o → o.body = .migrate (a :: rest) mv al nm dr qu ms →
    field (eInline o.raw) 1 1 ≠ 0 → getPage s a = some p → p.moving = false →
    exec (.writePathTimeout id) s = .next (runMigrate id (modOp id (fun o => { o with body := .migrate rest mv al (nm + 1) dr qu ms }) s)))

/-- The FTL's own work (parts of R77, R308, R310, R313, R316, R323, R336), while the device's work has not stopped. A fold of a unit changes nothing when it has nothing to fold or the map is not whole; one that folds
settles what it brought to bulk and frees the stripes that hold nothing live. A collection of
a die takes the stripe chosen there, copies what lives, then frees its blocks; a die with room and no queued stripe collects nothing. After 2^20 samples every unit's
write heat halves. Once writes have begun, a catalog over twice what it still needs drops the rest; a refilled reserve is whole and ready. Each hour counts
in one junction bin, one flash bin and the hours of service. -/
def Obligations.FlashHousekeeping : Prop := ∀ (s : State), atRest s = false →
  (∀ unit, mapReady s = false ∨ unfolded s unit = [] → exec (.fold unit) s = .next s) ∧
  (∀ unit, (foldUnit unit s = none → exec (.fold unit) s = .next s) ∧ ∀ u, foldUnit unit s = some u → Only [.ftl] s u ∧
    exec (.fold unit) s = .next (freeDead (forEach ((unfolded s unit).map (·.1)) settleBulk u))) ∧
  (∀ die, (victimOn s die = none ∨ mapReady s = false → exec (.gcCollect die) s = .next s) ∧
    (∀ id st u, mapReady s = true → victimOn s die = some (id, st) → dieCollects s.ftl die = true ∨ st.collectFirst = true → copyOut id s = some u →
      (∃ y, mget u.ftl.stripes id = some y) → ∃ t x, exec (.gcCollect die) s = .next t ∧ mget t.ftl.stripes id = some x ∧ x.freed = true ∧ x.collectFirst = false) ∧
    (∀ id st, victimOn s die = some (id, st) → dieCollects s.ftl die = false → st.collectFirst = false → exec (.gcCollect die) s = .next s)) ∧
  (s.ftl.heatSamples < 2 ^ 20 → exec .writeHeatHalving s = .next s) ∧
  (2 ^ 20 ≤ s.ftl.heatSamples → exec .writeHeatHalving s = .next { s with ftl := { s.ftl with
    heatSamples := s.ftl.heatSamples - 2 ^ 20, units := s.ftl.units.map fun x => (x.1, { x.2 with heat := x.2.heat / 2 }) } }) ∧
  (s.start.wearReady = false ∨ catalogBytes s.ftl false ≤ 2 * catalogBytes s.ftl true → exec .catalogCompaction s = .next s) ∧
  (s.start.wearReady = true → 2 * catalogBytes s.ftl true < catalogBytes s.ftl false → ∃ t, exec .catalogCompaction s = .next t ∧ Only [.ftl] s t ∧
    ∀ x, x ∈ t.ftl.recs ↔ x ∈ s.ftl.recs ∧ ((∃ c, x.2.body = .catalog c) → catNeeded s.ftl x.2 = true ∨ x.2.programmed = false)) ∧
  (s.start.wearReady = true → exec .reserveRefill s = .next { s with ftl := { s.ftl with reserveUsed := 0, reserveReady := true } }) ∧
  (∀ junction flash, (∀ w, (s.tly.physAt (s.tly.place w)).bad = false ∧ (s.tly.physAt (s.tly.place w)).count < 999990) →
    (∀ a b, s.tly.place a = s.tly.place b → a = b) → ∃ t, exec (.hourOfService junction flash) s = .next t ∧ Only [.tly, .bbx] s t ∧ ∀ w,
      t.tly.word w = if w = 0x0C0 ∨ w = 0x0A0 + (if junction < 40 then 0 else min 15 (((junction - 40) / 5).toNat + 1)) ∨
        w = 0x0B0 + (if flash < 25 then 0 else min 15 (((flash - 25) / 5).toNat + 1)) then s.tly.word w + 1 else s.tly.word w)

/-- Discards (parts of R126, R199, R276, R328, R329). One that names what the context does not hold ends with INTERNAL, an unknown kind with 0x41; one whose object is
in use waits as an op in progress. A plain discard ends OK with the pages it freed and kept; a secure one withholds what it unmapped, erases
every block that holds a copy, and ends once none is left to erase. -/
def Obligations.DiscardsUnmap : Prop := ∀ (s : State) (n : Nat) (e : Entry), RingOk (ringOf s n) → NoClose s → NoDiscard s →
  let il := eInline e.raw
  let ctx := (ringOf s n).context
  let ops := e.operands.getD []
  let kind := field il 0 1
  let id := field il 4 4
  let run := fun (op : Nat) (i : Instr) (secure : Bool) => starting op n s = some e →
    (∀ sub, (kind = 0 ∧ seqOk s ctx (id % 2 ^ 24) = false ∧ sub = 0x10) ∨ (kind = 2 ∧ objNamed s ctx (id % 2 ^ 20) = none ∧ sub = 0x40) ∨
        (2 < kind ∧ sub = 0x41) → ∃ t, exec i s = .next t ∧ Ended n e (internal sub) s t ∧ t.ftl = s.ftl) ∧
    ((kind = 0 ∧ seqOk s ctx (id % 2 ^ 24) = true) ∨ kind = 1 ∨ (kind = 2 ∧ (objNamed s ctx (id % 2 ^ 20)).isSome = true) →
      ∃ t u, exec i s = .next t ∧ InProgress n e (.discard secure kind id false 0 0 0 0 []) s u ∧ Only [.ops, .seqs] (markStarted n e.idx s) u ∧
        (∀ sub, unmapObject ctx il ops u = .refused sub → Ended n e (internal sub) s t) ∧
        (unmapObject ctx il ops u = .later → t = u) ∧
        (∀ f k v, unmapObject ctx il ops u = .done f k v →
          (secure = false → Ended n e { status := stOk, a := f, b := k } s t ∧ t.ftl = v.ftl) ∧
          (secure = true → ∀ bl co x, beginErase (secureSet u v) (withholdOf s.ops.next u (secureSet u v)) v = (bl, co, x) →
            (bl = [] → Ended n e { status := stOk, a := f, b := k, c := co } s t) ∧
            (bl ≠ [] → InProgress n e (.discard true kind id true f k co bl.length bl) s t ∧ (unemptied x.ftl bl = [] → t.ftl = x.ftl)))))
  run opDiscard (.discard n) false ∧ run opDiscardSecure (.discardSecure n) true

/-- A partition reset begins (parts of R359, R360, R399, R402). A trap, a cheap point that does not come, a protocol error of a fabric port and an uncorrectable error in a
cluster's SRAM reset the cluster's partition, and the operator's write resets the partition it names; none begins while one is in progress. A
fault begins one while the device's work has not stopped. Its slices stop, its
cores and save slots are cleared, its event is written with the cause, and every entry accepted on its ring pairs ends PARTITION_RESET. The second error of a core
within an epoch makes it due for retirement, and a Hamper row that failed is due for replacement. -/
def Obligations.PartitionResetsBegin : Prop := ∀ (s : State) (cluster p : Nat),
  let begun := fun (p cause k : Nat) (u t : State) => t.bbx = u.bbx.arrive (eventAt 9 p evPartReset [cause, k] u) ∧
    partOf t p = { partOf u p with reset := .clearing, switch := .none, outgoing := (partOf u p).slice.or (partOf u p).outgoing, slice := none, incoming := none
                                   expired := false, scrubbing := true, slots := List.replicate 4 none } ∧
    ∀ n ∈ ringsOf u p, (ringOf t n).entries = [] ∧
      (ringOf t n).ready = (ringOf u n).ready ++ (ringOf u n).entries.map fun e => cplOf u e { status := stPartReset }
  let resets := fun (c : Instr) (p cause k : Nat) (u : State) => ((partOf s p).reset ≠ .none → exec c s = .next u) ∧
    ((partOf s p).reset = .none → s.ops.tab = [] → RingsOk s.rng → ∃ t, exec c s = .next t ∧ begun p cause k u t ∧ t.spare = u.spare)
  (atRest s = false → partOfCluster s cluster = some p → resets (.microcodeTrap cluster) p 2 cluster s ∧ resets (.cheapPointTimeout cluster) p 3 cluster s ∧
    resets (.fabricPortProtocolError cluster) p 4 cluster s ∧
    (∀ slot, resets (.sramUncorrectable cluster (.core slot)) p 1 cluster { s with spare := if (cluster, slot) ∈ s.spare.coreErr
      then { s.spare with retireDue := if (cluster, slot) ∈ s.spare.retireDue then s.spare.retireDue else s.spare.retireDue ++ [(cluster, slot)] }
      else { s.spare with coreErr := s.spare.coreErr ++ [(cluster, slot)] } }) ∧
    (∀ row, resets (.sramUncorrectable cluster (.hamper row)) p 1 cluster { s with spare := { s.spare with
      hamperDue := if (cluster, row) ∈ s.spare.hamperDue then s.spare.hamperDue else s.spare.hamperDue ++ [(cluster, row)] } })) ∧
  (∀ path, operates path 0xA0100 s = true → (partExists s p = true → resets (.partitionResetWrite path p) p 5 0 s) ∧
    (partExists s p = false → exec (.partitionResetWrite path p) s = .next s))

/-- A partition reset ends (parts of R360, R399, R405): issue resumes, the reset is counted, the generation of each of the partition's clusters rises, and a core that
failed the self-test is retired: its logical core passes to the lowest spare slot that is free, and with none left the cluster is withdrawn. -/
def Obligations.PartitionResetsEnd : Prop := ∀ (s : State) (p : Nat) (bad : List (Nat × Nat)), atRest s = false → (partOf s p).reset = .testing →
  ∃ t, exec (.partitionResetDone p bad) s = .next t ∧ (partOf t p).reset = .none ∧ (partOf t p).resets = sat32 ((partOf s p).resets + 1) ∧
    ((clustersOf s p).Nodup → ∀ c ∈ clustersOf s p, c < s.spare.genCl.length → nth t.spare.genCl c 0 = nth s.spare.genCl c 0 + 1) ∧
    (∀ c slot, bad = [(c, slot)] → c ∈ clustersOf s p → slot < 64 → s.spare.retireDue = [] → s.spare.hamperDue = [] → mget s.spare.unwritten (clWord c) = none →
      ∀ n, servedBy (spareNat s (clWord c)) slot = some n →
      (∀ k, freeSpareSlot (spareNat s (clWord c)) = some k → spareNat t (clWord c) = putSub (spareNat s (clWord c)) k n) ∧
      (freeSpareSlot (spareNat s (clWord c)) = none → spareNat t (clWord c) = setBit (spareNat s (clWord c)) 16))

/-- A message leaves (parts of R94, R110, R385): with room in its key's count it joins the messages sent and the count rises by its flits; under a key not installed, or
one whose count has run out, nothing is sent. -/
def Obligations.MessagesAreSealedAndCounted : Prop := ∀ (s : State) (m : OutMsg),
  let flits := (chunks (if m.key = 0 then 240 else 224) 64 (msgHeader m.addr m.tag m.status m.flags ++ m.body)).length
  (m.key ≠ 0 → mget s.sec.keys m.key = none → send m s = s) ∧
  (∀ k, mget s.sec.keys m.key = some k →
    (m.key ≠ 0 → 2 ^ 63 - 1 < k.sent + flits → send m s = s) ∧
    (k.sent + flits ≤ 2 ^ 63 - 1 → (send m s).link.outbox = s.link.outbox ++ [m] ∧ mget (send m s).sec.keys m.key = some { k with sent := k.sent + flits } ∧
      (∀ j, j ≠ m.key → mget (send m s).sec.keys j = mget s.sec.keys j) ∧ Only [.link, .sec] s (send m s)))

/-- Key-management requests (parts of R366, R377, R379, R383 to R385). A request of a finished session whose length, code, sequence number, session and signature under a key of the
KEYS section hold is accepted, and the session's number rises; any other is discarded with an event. The oldest accepted request is carried out: a tenant is created with a flash key of its own; a job
key is derived for a created tenant and the session's node; a pair key is taken from the request for another member of the group. A bad operand, a key index in
use or a full table changes no tenant and no key. -/
def Obligations.KeyRequestsOpenTenantsAndKeys : Prop := ∀ (s : State) (session : Nat),
  (∀ (c flags len kmSeq named : Nat) (rest : List Byte),
    let msg := kmMsg c flags len kmSeq named rest
    let code := field msg 0 1
    let n := field msg 2 2
    let verified := ∃ k ∈ (s.img.cur.map (·.kmKeys)).getD [], ecdsaVerify k (msg.take (16 + n)) (msg.drop (16 + n)) = true
    (∀ x, mget s.sec.sessions session = some x → x.finished = true → msg.length = 148 + n → field msg 4 4 = x.kmSeq → field msg 8 4 = session → verified →
      1 ≤ code → code ≤ 5 → exec (.kmRequestReceive session c flags len kmSeq named rest) s = .next { s with sec := { s.sec with
        km := s.sec.km ++ [{ session := session, code := code, flags := field msg 1 1, seq := x.kmSeq, body := (msg.take (16 + n)).drop 16 }]
        sessions := mset s.sec.sessions session { x with kmSeq := x.kmSeq + 1 } } }) ∧
    ((∀ x, mget s.sec.sessions session = some x → x.finished = false ∨ field msg 4 4 ≠ x.kmSeq) ∨ msg.length ≠ 148 + n ∨ field msg 8 4 ≠ session ∨ ¬ verified ∨
      code = 0 ∨ 5 < code → exec (.kmRequestReceive session c flags len kmSeq named rest) s =
        .next { s with bbx := s.bbx.arrive (eventAt 0 0 evKmDiscard [session, code] s) })) ∧
  (∀ r rest, s.sec.km = r :: rest → r.session = session →
    let u := { s with sec := { s.sec with km := rest } }
    let ends := fun (c : Instr) (status sub : Nat) (v : State) => exec c s = .next (answerKm session r.code r.seq { status := status, a := sub } [] v)
    let x := mgetD s.sec.sessions session { node := 0 }
    let k := field r.body 0 4
    let free := 1 ≤ k ∧ k ≤ 0x7FFFFFFF ∧ mhas s.sec.keys k = false
    (r.code = 1 → let t := field r.body 0 2
      ((tenantSt s t).created = true ∨ (tenantSt s t).removing = true ∨ 0xFF < t → ends (.kmTenantCreate session) stInternal 0x60 u) ∧
      ((tenantSt s t).created = false → (tenantSt s t).removing = false → t ≤ 0xFF → ends (.kmTenantCreate session) stOk 0
        { s with free := s.free + 1, sec := { u.sec with tenants := mset s.sec.tenants t { created := true, flashKey := some (Config.drbg s.free) } } })) ∧
    (r.code = 3 → let t := field r.body 4 2
      let ok := (tenantSt s t).created = true ∧ (tenantSt s t).removing = false ∧ free ∧ field r.body 6 2 = x.node
      (¬ ok → ends (.kmJobOpen session) stInternal 0x62 u) ∧ (ok → 16384 ≤ jobKeys s → ends (.kmJobOpen session) stNoSpace 0 u) ∧
      (ok → jobKeys s < 16384 → ends (.kmJobOpen session) stOk 0
        { u with sec := { u.sec with keys := mset s.sec.keys k { tenant := t, node := x.node, bytes := jobKey x.ems k t x.node } } })) ∧
    (r.code = 5 → let node := field r.body 4 2
      let ok := free ∧ 1 < cascSize s ∧ ∃ q, q < cascSize s ∧ q ≠ cascPos s ∧ cascNode s q = node
      (¬ ok → ends (.kmPeerOpen session) stInternal 0x64 u) ∧ (ok → 16384 ≤ jobKeys s → ends (.kmPeerOpen session) stNoSpace 0 u) ∧
      (ok → jobKeys s < 16384 → ends (.kmPeerOpen session) stOk 0
        { u with sec := { u.sec with keys := mset s.sec.keys k { tenant := 0, node := node, bytes := (r.body.drop 8).take 32, pair := true } } })))

/-- Removals and closes (parts of R384, R386, R391). A removal of a tenant that is not created, or is being removed, and a close of a key that carries no messages are
refused. Otherwise the tenant's keys, or the key, become dying, and with no switch or scrub under way every entry of its rings is aborted with KEY_GONE,
counted, and no completion is left; the rings are disabled. When no flit under the dying keys is out, the keys are destroyed, and a close answers. -/
def Obligations.RemovalsAndCloses : Prop := ∀ (s : State) (session : Nat) (r : KmReq) (rest : List KmReq), s.sec.km = r :: rest → r.session = session →
  let u := { s with sec := { s.sec with km := rest } }
  let ends := fun (c : Instr) (sub : Nat) => exec c s = .next (answerKm session r.code r.seq { status := stInternal, a := sub } [] u)
  let k := field r.body 0 4
  let t := field r.body 0 2
  let ks := (s.sec.keys.filter fun k => k.2.tenant == t && !k.2.mgmt && !k.2.dying).map (·.1)
  let begins := fun (c : Instr) (r : Removal) => ∃ v, exec c s = .next v ∧ (s.ops.tab = [] →
    (∀ j ∈ r.keys, ∃ y, mget v.sec.keys j = some y ∧ y.dying = true) ∧ (∀ n ∈ removalRings s r, (ringOf v n).enable = false) ∧
    (removalWaits s r = false → (∃ x ∈ v.sec.removals, x.session = r.session ∧ x.seq = r.seq ∧ x.keys = r.keys ∧ x.stage = 1) ∧
      ∀ n ∈ removalRings s r, (ringOf v n).entries = [] ∧ (ringOf v n).ready = []))
  (r.code = 2 → ((tenantSt s t).created = false ∨ (tenantSt s t).removing = true → ends (.kmTenantRemove session) 0x61) ∧
    ((tenantSt s t).created = true → (tenantSt s t).removing = false → begins (.kmTenantRemove session)
      { tenant := some t, erase := bit r.flags 0, session := session, seq := r.seq, code := r.code, keys := ks })) ∧
  (r.code = 4 → (k = 0 ∨ 0x7FFFFFFF < k ∨ keyLive s k = false → ends (.kmJobClose session) 0x63) ∧
    (k ≠ 0 → k ≤ 0x7FFFFFFF → keyLive s k = true → begins (.kmJobClose session)
      { tenant := none, erase := false, session := session, seq := r.seq, code := r.code, keys := [k] }))

/-- The drain of a removal ends (parts of R379, R391 steps 3 to 7), while the device's work has not stopped. The dying keys of the oldest removal in the drain are destroyed. The close of a key answers OK and leaves
the list. A tenant's removal scrubs the partitions the tenant held; where it held none it completes, and with ERASE the tenant is no longer created, its flash
key is destroyed, and no context entry and no flash record is the tenant's. -/
def Obligations.DrainedKeysAreDestroyed : Prop := ∀ (s : State) (r : Removal), atRest s = false → (s.sec.removals.find? fun r => r.stage == 1) = some r →
  let flits := sum (r.keys.map fun k => ((mget s.sec.keys k).map (·.discarded)).getD 0)
  ∃ t, exec .removeDrainDone s = .next t ∧
    (r.tenant = none → t = answerKm r.session r.code r.seq { status := stOk } (leBytes 4 r.aborted ++ leBytes 4 flits) { s with sec := { s.sec with
        keys := s.sec.keys.filter fun k => !r.keys.contains k.1
        removals := s.sec.removals.filter fun y => !(y.session == r.session && y.seq == r.seq) } } ∧ ∀ j ∈ r.keys, mget t.sec.keys j = none) ∧
    (∀ n, r.tenant = some n → r.scrubs ≠ [] → (∀ p ∈ r.scrubs, (partOf s p).reset = .none) →
      (∀ j ∈ r.keys, mget t.sec.keys j = none) ∧ ∀ p ∈ r.scrubs, (partOf t p).scrubbing = true ∧ (partOf t p).outgoing = some n) ∧
    (∀ n, r.tenant = some n → r.scrubs = [] → s.ops.tab = [] → s.ext.table = [] →
      (∀ x, mget t.sec.tenants n = some x → x.removing = false ∧ (r.erase = true → x.created = false ∧ x.flashKey = none)) ∧
      (r.erase = true → (∀ c ∈ t.sch.ctxs, c.2.tenant ≠ n) ∧ ∀ x ∈ t.ftl.recs, x.2.tenant ≠ n) ∧
      (r.erase = false → t.sch.ctxs = s.sch.ctxs ∧ t.ftl = s.ftl ∧ t.seqs = s.seqs))

/-- SPDM requests (parts of R381, R382). Taken in cleartext or under a key that is not dying, a request is answered to its source with the response code of Table 12.3 and
joins the node's transcript: VERSION 1.3, the digest or a portion of the identity chain, the measurement blocks asked for. Any request outside the table, and a
FINISH or an END_SESSION of no session, gets ERROR; KEY_EXCHANGE beyond 64 sessions gets Busy. Once the node has a finished session a cleartext request has no effect (log 9). The SPDM row dispatches by the request's code. -/
def Obligations.SpdmRequestsAreAnswered : Prop := ∀ (s : State) (h : Hdr) (body : List Byte),
  let live := deaf s = false ∧ spdmLate s h = false ∧ (h.key = 0 ∨ ∃ k, mget s.sec.keys h.key = some k ∧ k.dying = false)
  let u := took h mtSpdm s
  let ans := fun (code rsp : Nat) (content : List Byte) (u : State) =>
    let req := (if code = 0x84 then [] else mgetD u.sec.spdm h.src []) ++ leBytes 1 0x13 ++ leBytes 1 code ++ body
    let head := leBytes 1 0x13 ++ leBytes 1 rsp ++ content
    let out := head ++ Config.spdmBody rsp (req ++ head) u.free
    reply h mtSpdm 3 0 0 out { u with free := u.free + 1, sec := { u.sec with spdm := mset u.sec.spdm h.src (req ++ out) } }
  let c := chainOf s
  let off := field body 2 2
  let part := (c.drop off).take (field body 4 2)
  let l := measured (field body 1 1)
  let rows : List (Nat × Instr) := [(0x84, .getVersion h body), (0xE1, .getCapabilities h body), (0xE3, .negotiateAlgorithms h body), (0x81, .getDigests h body),
    (0x82, .getCertificate h body), (0x83, .challenge h body), (0xE0, .getMeasurements h body), (0xE4, .keyExchange h body), (0xE5, .finish h body), (0xEC, .endSession h body)]
  (live → exec (.getVersion h body) s = .next (ans 0x84 0x04 (leBytes 2 0x1300) u) ∧
    exec (.getCapabilities h body) s = .next (ans 0xE1 0x61 (leBytes 4 0x2D6) u) ∧
    exec (.negotiateAlgorithms h body) s = .next (ans 0xE3 0x63 (leBytes 1 1 ++ leBytes 4 0x08 ++ leBytes 4 0x100 ++ leBytes 4 0x04 ++ leBytes 2 0x20 ++ leBytes 2 0x02) u) ∧
    exec (.getDigests h body) s = .next (ans 0x81 0x01 (leBytes 1 1 ++ sha512 c) u) ∧
    exec (.getCertificate h body) s = .next (ans 0x82 0x02 (leBytes 2 part.length ++ leBytes 2 (c.length - off - part.length) ++ part) u) ∧
    exec (.challenge h body) s = .next (ans 0x83 0x03 (sha512 c) u) ∧
    exec (.getMeasurements h body) s = .next (ans 0xE0 0x60 (leBytes 1 (if l = [] then 9 else l.length) ++ l.flatMap fun i => Config.dmtfBlock i (measurement s i)) u) ∧
    (64 ≤ s.sec.sessions.length → exec (.keyExchange h body) s = .next (ans 0xE4 0x7F (leBytes 1 0x03) u)) ∧
    (∀ id, s.sec.sessions.length < 64 → lowestFree s.sec.sessions (s.sec.nextSession % 2 ^ 16) 65 = some id → exec (.keyExchange h body) s = .next (ans 0xE4 0x64 (leBytes 2 id)
      { u with free := u.free + 1, sec := { u.sec with nextSession := id + 1, sessions := mset u.sec.sessions id { node := h.src, ems := Config.sessionSecret u.free } } })) ∧
    (openingOf s h.src = none → exec (.finish h body) s = .next (ans 0xE5 0x7F (leBytes 1 0x04) u)) ∧
    (∀ id x, openingOf s h.src = some (id, x) → ∃ t, exec (.finish h body) s = .next t ∧ mget t.sec.sessions id = some { x with finished := true, key := mgmtKey id } ∧
      mget t.sec.keys (mgmtKey id) = some { tenant := 0, node := h.src, bytes := Config.sessionKey (s.free + 1), mgmt := true } ∧
      t.link = (ans 0xE5 0x65 [] u).link) ∧
    (∀ code, exec (.spdmUnsupported h code body) s = .next (ans code 0x7F (leBytes 1 0x07) u))) ∧
  (deaf s = true ∨ spdmLate s h = true → ∀ row ∈ rows, exec row.2 s = .next u) ∧
  (deaf s = false → h.key ≠ 0 → (∀ k, mget s.sec.keys h.key = some k → k.dying = true) → ∀ row ∈ rows, exec row.2 s = .next (countNokey h.port u)) ∧
  (∀ row ∈ rows, exec (.spdm h row.1 body) s = exec row.2 s) ∧
  (∀ code, code ∉ rows.map (·.1) → exec (.spdm h code body) s = exec (.spdmUnsupported h code body) s)

/-- The end of a session (parts of R381): the finished session whose key the message travels under goes with its requests not yet carried out; every job key stays. -/
def Obligations.SessionsEndWithTheirKeys : Prop := ∀ (s : State) (h : Hdr) (body : List Byte), deaf s = false → spdmLate s h = false → (h.key = 0 ∨ ∃ k, mget s.sec.keys h.key = some k ∧ k.dying = false) →
  (∀ id x, (s.sec.sessions.find? fun x => x.2.finished && x.2.key == h.key) = some (id, x) → ∃ t, exec (.endSession h body) s = .next t ∧
    (∀ r ∈ t.sec.km, r.session ≠ id ∧ r ∈ s.sec.km) ∧ (∀ r ∈ s.sec.km, r.session ≠ id → r ∈ t.sec.km) ∧ t.sec.sessions = mdel s.sec.sessions id ∧
    (∀ j, j ≠ x.key → j ≠ h.key → mget t.sec.keys j = mget s.sec.keys j)) ∧
  ((s.sec.sessions.find? fun x => x.2.finished && x.2.key == h.key) = none → exec (.endSession h body) s = .next (spdmError h 0xEC body 0x04 (took h mtSpdm s)))

/-- The image-root fuses (R375). Only over I3C and with the key, a slot is programmed with the digest staged in SEC_FUSE_DATA, and revoked. Programming a programmed slot, revoking the
only good one, and revoking the one that matched the image in service are refused and set fuse_err; nothing else acts. A blank device rejects either image slot with code 3, and
SEC_FUSE_CMD is reached over I3C from the end of phase 2 on. -/
def Obligations.FuseCommands : Prop := ∀ (s : State) (path : Path) (key slot : Nat),
  (servedAt .i3c 0xB0020 s = true → s.sec.fuseBusy = false →
    let r := nth s.sec.roots slot {}
    let good := fun (r : Root) => r.programmed && !r.revoked
    let err : Out := .next { s with sec := { s.sec with fuseErr := true } }
    (r.programmed = true → exec (.fuseProgram .i3c 0xF05E slot) s = err) ∧
    (r.programmed = false → exec (.fuseProgram .i3c 0xF05E slot) s = .next { s with sec := { s.sec with
      roots := lmod s.sec.roots slot fun r => { r with digest := s.sec.fuseData, programmed := true } } }) ∧
    ((good r = true ∧ count good s.sec.roots = 1) ∨ s.sec.matched = some slot → exec (.fuseRevoke .i3c 0xF05E slot) s = err) ∧
    (¬ ((good r = true ∧ count good s.sec.roots = 1) ∨ s.sec.matched = some slot) → exec (.fuseRevoke .i3c 0xF05E slot) s = .next { s with sec := { s.sec with
      roots := lmod s.sec.roots slot fun r => { r with revoked := true } } })) ∧
  (path ≠ .i3c ∨ key ≠ 0xF05E → exec (.fuseProgram path key slot) s = .next s ∧ exec (.fuseRevoke path key slot) s = .next s) ∧
  (∀ k v, k < 16 → v < 2 ^ 32 → operates .i3c (0xB0040 + 4 * k) s = true → exec (.registerWrite .i3c (0xB0040 + 4 * k) v) s = .next { s with sec := { s.sec with
    fuseData := s.sec.fuseData.take (4 * k) ++ leBytes 4 v ++ s.sec.fuseData.drop (4 * k + 4) } }) ∧
  (∀ img : SlotImage, (∀ i, (nth s.sec.roots i {}).programmed = false) → img.readOk = true → imgMagic img = 0x525A5649 → dirOk img = true → inPhase s 4 = true →
    let u := { s with start := { s.start with norReads := s.start.norReads ++ slotReads s.start.readB img 3 } }
    (s.start.readB = false → exec (.imageSlotChecked img) s = .next { u with img := { s.img with rejectA := 3 }, start := { u.start with readB := true } }) ∧
    (s.start.readB = true → exec (.imageSlotChecked img) s = .next (imageFault (releaseNor { u with img := { s.img with rejectB := 3 } })))) ∧
  (2 ∈ s.start.done → servedAt .i3c 0xB0020 s = true)

/-- Debug (parts of R393). A halted core keeps its unit, and what its halt took is charged to no context; a step makes what its stores hold the microcode's, a free value (log 22); a word inside
the selected space is written and read, and each access adds 4 to the offset. A session's first command writes an event. -/
def Obligations.DebugAccesses : Prop := ∀ (s : State) (path : Path),
  (operates path 0xB0024 s = true →
    (mhas s.core.halted (dbgCore s) = false → ∃ t, exec (.debugHalt path true) s = .next t ∧ mget t.core.halted (dbgCore s) = some (stamp s) ∧ t.sec.dbgActive = true ∧
      t.attn = s.attn ∧ (s.sec.dbgActive = false → t.bbx = s.bbx.arrive (eventAt 1 s.sec.dbgCluster evDebug [s.sec.dbgCore] s))) ∧
    (mhas s.core.halted (dbgCore s) = true → exec (.debugHalt path true) s = .next s ∧ ∃ t, exec (.debugStep path) s = .next t ∧ dbgCore s ∈ t.core.dirty ∧ t.attn = s.attn ∧
      ∀ x ∈ t.core.mem, x.1 / 2 ^ 20 ≠ dbgCore s) ∧
    (mhas s.core.halted (dbgCore s) = false → exec (.debugHalt path false) s = .next s ∧ exec (.debugStep path) s = .next s) ∧
    (∀ t0, s.core.halted = [(dbgCore s, t0)] → ∃ t, exec (.debugHalt path false) s = .next t ∧ t.core.halted = [] ∧ t.sec.dbgActive = false ∧
      ∀ id u c j since, unitOn s s.sec.dbgCluster s.sec.dbgCore = some (id, u) → mget s.attn.units id = some u → u.st = .running c j since false →
        ∃ x, mget t.attn.units id = some x ∧ x.st = .running c j (stamp s - (t0 - since)) false)) ∧
  (operates path 0xB002C s = true → dbgInside s = true → ∀ v, v < 2 ^ 32 → ∃ t, exec (.debugDataAccess path (some v)) s = .next t ∧ t.sec.dbgAddr = (s.sec.dbgAddr + 4) % 2 ^ 18 ∧
    ∀ u, u.core = t.core → u.sec = s.sec → operates path 0xB002C u = true → ∃ w, exec (.debugDataAccess path none) u = .next w ∧ w.mgmt.reply = [v] ∧
      w.sec.dbgAddr = (s.sec.dbgAddr + 4) % 2 ^ 18)

/-- The tenant's view and the zeroing of freed frames (parts of R380, R389, R394). Each snapshot replaces the view's words, but none is taken while a partition scrubs; the pin
power seen is the nearest 16 W; a frame freed earlier leaves the frames still to be zeroed once it is zeroed. -/
def Obligations.ViewsAndFreedFrames : Prop := ∀ (s : State) (p : Nat) (r : Run),
  ((∀ x ∈ s.sch.parts, x.2.scrubbing = false) → exec .tenantViewSnapshot s = .next { s with mgmt := { s.mgmt with view := viewNow s } }) ∧
  ((∃ x ∈ s.sch.parts, x.2.scrubbing = true) → exec .tenantViewSnapshot s = .next s) ∧
  (∃ t, exec .powerViewSnapshot s = .next t ∧ Only [.pwr] s t ∧ (s.pwr.pinPower < 65504 → t.pwr.viewPin % 64 = 0 ∧ t.pwr.viewPin ≤ s.pwr.pinPower + 32 ∧ s.pwr.pinPower < t.pwr.viewPin + 32)) ∧
  (atRest s = false → ∃ t, exec (.hbmBackgroundZero p r.start r.len) s = .next t ∧ Only [.hbm] s t ∧ t.hbm.free = s.hbm.free ∧ ∀ x, x ∈ t.hbm.dirty ↔ x ∈ s.hbm.dirty ∧ x ≠ (p, r))

/-- HBM and bridge spares (parts of R104, R401, R405, R406). An uncorrectable error poisons the line and its extent's line, with an event, and puts the block down for a remap; a
corrected error is counted with the block's others of the last 2^42 CCLK, and 32 put the block down; with no reserve block left the stack is marked exhausted. A remap done
serves the block from the lowest free reserve block, recorded in the stack's word. More than 16 errors retrain a bridge; a retrain that ends well raises the die's generation
and flushes the lookaside entries of its clusters. What is said of corrected errors, remaps and bridge errors holds while the device's work has not stopped. -/
def Obligations.HbmAndBridgesAreRepaired : Prop := ∀ (s : State) (addr stack block die errors : Nat),
  let a := addr / 64 * 64
  let due := fun (k b : Nat) (x : Spare) => if (k, b) ∈ x.remapping then x else { x with remapping := x.remapping ++ [(k, b)] }
  let room := fun (k b : Nat) => (k, b) ∈ s.spare.remapping ∨ remapUsed s k < 2048
  let recent := recentErrors s stack block
  (∃ t, exec (.hbmUncorrectable addr) s = .next t ∧ a ∈ t.coh.poisonPhys ∧ (∀ l, lineOfPhys s a = some l → l ∈ t.coh.poison) ∧ (∀ l ∈ s.coh.poison, l ∈ t.coh.poison) ∧
    t.coh.mem = s.coh.mem ∧ (room (stackOf a) (blockOf a) → t.spare = due (stackOf a) (blockOf a) s.spare ∧
      t.bbx = s.bbx.arrive (eventAt 4 (stackOf a) evPoison [lo32 a, hi32 a, 2] s)) ∧
    (¬ room (stackOf a) (blockOf a) → mget s.spare.unwritten (stackWord (stackOf a)) = none →
      spareNat t (stackWord (stackOf a)) = setBit (spareNat s (stackWord (stackOf a))) 20)) ∧
  (atRest s = false → recent.length < 31 → ∃ t, exec (.hbmCorrectedError stack block) s = .next t ∧ Only [.spare] s t ∧ t.spare.remapping = s.spare.remapping ∧
    recentErrors t stack block = recent ++ [((stack, block), (epochNo s, now s))] ∧
    (t.spare.corrected.filter fun x => x.1 != (stack, block)) = s.spare.corrected.filter fun x => x.1 != (stack, block)) ∧
  (atRest s = false → 31 ≤ recent.length → room stack block → ∃ t, exec (.hbmCorrectedError stack block) s = .next t ∧ Only [.spare] s t ∧ (stack, block) ∈ t.spare.remapping ∧
    recentErrors t stack block = []) ∧
  (atRest s = false → (stack, block) ∈ s.spare.remapping → ∃ t, exec (.hbmRemapDone stack block) s = .next t ∧ (stack, block) ∉ t.spare.remapping ∧
    t.spare.hbmRemap = s.spare.hbmRemap ++ [(stack, block)] ∧ (mget s.spare.unwritten (stackWord stack) = none → spareNat t (stackWord stack) =
      let w := putBits (spareNat s (stackWord stack)) 0 12 (remapUsed s stack + 1)
      if remapUsed s stack + 1 = 2048 then setBit w 20 else w)) ∧
  (atRest s = false → (stack, block) ∉ s.spare.remapping → exec (.hbmRemapDone stack block) s = .next s) ∧
  (atRest s = false → errors ≤ 16 ∨ die ∈ s.spare.retraining → exec (.bridgeCrcLimit die errors) s = .next s) ∧
  (atRest s = false → 16 < errors → die ∉ s.spare.retraining → exec (.bridgeCrcLimit die errors) s = .next { s with
    spare := { s.spare with retraining := s.spare.retraining ++ [die] }, bbx := s.bbx.arrive (eventAt 3 die evBridge [errors] s) }) ∧
  (die ∈ s.spare.retraining → ∃ t, exec (.bridgeRetrainDone die true) s = .next t ∧ Only [.bbx, .spare, .seqs] s t ∧ die ∉ t.spare.retraining ∧
    (die < s.spare.genDie.length → nth t.spare.genDie die 0 = nth s.spare.genDie die 0 + 1) ∧ (∀ e, e ∈ t.seqs.plb ↔ e ∈ s.seqs.plb ∧ e.1 / 16 ≠ die) ∧ t.seqs.tab = s.seqs.tab) ∧
  (∀ ok, die ∉ s.spare.retraining → exec (.bridgeRetrainDone die ok) s = .next s)

/-- The Saddlebag and the Tally's operator words (parts of R409, R411, R412, R415, R416, R421). A running ring takes the oldest queued event, numbers it, and drops the oldest beyond 8,192; a frozen one takes none. At an interval's end
each kind of which events were suppressed is told once, with their number, and the counts begin afresh. The operator's snapshot writes FREEZE last, and copies the events to
the slot not held of the lowest serial, under the next serial; at most three slots are held; while a copy runs no command acts. The operator's
write of the word selected changes nothing below word 0x100; else the word reads as written, where its place has not failed and is not worn, and the others as before. -/
def Obligations.SaddlebagAndOperatorWords : Prop := ∀ (s : State) (path : Path) (n : Nat),
  (∀ e rest, s.bbx.queue = e :: rest → s.bbx.frozen = false → ∃ t, exec .saddlebagEventWrite s = .next t ∧ Only [.bbx] s t ∧ t.bbx.queue = rest ∧
    t.bbx.serial = (s.bbx.serial + 1) % 65536 ∧ t.bbx.ring.length ≤ 8192 ∧
    (s.bbx.ring.length < 8192 → t.bbx.ring = s.bbx.ring ++ [{ e with serial := s.bbx.serial % 65536 }]) ∧
    (∀ x l, s.bbx.ring = x :: l → s.bbx.ring.length = 8192 → t.bbx.ring = l ++ [{ e with serial := s.bbx.serial % 65536 }])) ∧
  (s.bbx.queue = [] ∨ s.bbx.frozen = true → exec .saddlebagEventWrite s = .next s) ∧
  (∃ t, exec .suppressionIntervalEnd s = .next t ∧ t.bbx.rate = [] ∧ t.bbx.ring = s.bbx.ring ∧
    (s.bbx.frozen = false → s.bbx.queue.length + s.bbx.rate.length ≤ 64 → ∃ l, t.bbx.queue = s.bbx.queue ++ l ∧
      l.map (fun e => (e.cls, e.unit, e.code, e.a0, e.a1)) = (s.bbx.rate.filter fun r => decide (16 < r.count)).map fun r => (r.cls, r.unit, evSuppressed, r.code, r.count - 16))) ∧
  (operates path 0xD0004 s = true →
    (s.bbx.copy.isSome = true → exec (.operatorSnapshot path) s = .next s ∧ exec (.holdSlot path n) s = .next s ∧ exec (.releaseSlot path n) s = .next s) ∧
    (s.bbx.copy = none →
      exec (.holdSlot path n) s = .next (if 3 ≤ count (fun x => Snapshot.held x) s.bbx.slots then s else { s with bbx := { s.bbx with slots := lmod s.bbx.slots n fun x => { x with held := true } } }) ∧
      exec (.releaseSlot path n) s = .next { s with bbx := { s.bbx with slots := lmod s.bbx.slots n fun x => { x with held := false } } } ∧
      (s.bbx.frozen = false → s.bbx.slots.length = 4 → ∃ t k, exec (.operatorSnapshot path) s = .next t ∧ t.bbx.frozen = true ∧ t.bbx.cause = clsOperator ∧ t.bbx.queue = [] ∧
        t.bbx.copy = some { slot := k, cls := clsOperator } ∧ (nth t.bbx.slots k {}).complete = false ∧ (nth t.bbx.slots k {}).serial = maxOf (s.bbx.slots.map (·.serial)) + 1 ∧
        (nth t.bbx.slots k {}).events = t.bbx.ring ∧ (∃ e ∈ t.bbx.ring.getLast?, e.code = evFreeze ∧ e.a0 = clsOperator) ∧
        (∀ j, j ≠ k → nth t.bbx.slots j {} = nth s.bbx.slots j {}) ∧
        ((∃ j, j < 4 ∧ (nth s.bbx.slots j {}).held = false) → (nth s.bbx.slots k {}).held = false ∧ ∀ j, j < 4 → (nth s.bbx.slots j {}).held = false →
          (if (nth s.bbx.slots k {}).complete then (nth s.bbx.slots k {}).serial else 0) ≤ (if (nth s.bbx.slots j {}).complete then (nth s.bbx.slots j {}).serial else 0))))) ∧
  (operates path 0xC0008 s = true → ∀ v, (s.tly.sel < 0x100 → exec (.tlyWordWrite path v) s = .next s) ∧
    (0x100 ≤ s.tly.sel → (s.tly.physAt (s.tly.place s.tly.sel)).bad = false → (s.tly.physAt (s.tly.place s.tly.sel)).count < 1000000 →
      ∃ t, exec (.tlyWordWrite path v) s = .next t ∧ Only [.tly, .bbx] s t ∧ t.tly.word s.tly.sel = BitVec.ofNat 32 v ∧
        ∀ x, x ≠ s.tly.sel → s.tly.place x ≠ s.tly.place s.tly.sel → t.tly.word x = s.tly.word x))

/-- Liveness, the master and the view (parts of R423 to R425, R436), of a device that holds no import, no export and no group lookup. A HELLO that does not count changes nothing of
the group; one that does counts toward its position, live at the second with the same configuration digest and never with another. The master is then the lowest live
position: a member adopts its view; a device that is master holds the live mask, with a view number raised when the mask changes, and one above the highest seen when it
becomes master. A position without a HELLO for 3 ms is dead and leaves the view. Each interval a HELLO goes to each other position. -/
def Obligations.MembersAndViews : Prop := ∀ (s : State) (h : Hdr) (pos view mask epoch : Nat) (digest : List Byte),
  let ok := takes h s = true ∧ ∃ k, mget s.sec.keys h.key = some k ∧ k.pair = true ∧ k.node = h.src
  let alone := s.casc.imports = [] ∧ s.casc.exports = [] ∧ s.casc.lookup = none
  let other := pos < cascSize s ∧ pos ≠ cascPos s
  let settled := fun (highest : Nat) (t : State) => t.casc.masterPos = masterSeen t ∧ (masterSeen t = cascPos s → s.pins.rdy = true → 1 < cascSize s →
    t.casc.mask = maskOf (liveSet t) ∧ t.casc.view = if s.casc.masterPos = cascPos s ∧ s.casc.mask ≠ 0
      then (if maskOf (liveSet t) = s.casc.mask then s.casc.view else (s.casc.view + 1) % 65536) else (highest + 1) % 65536)
  (ok → ¬ (s.pins.rdy = true ∧ other ∧ cascNode s pos = h.src) → exec (.hello h pos view mask epoch digest) s = .next (reply h mtAck 1 0 0 [] (took h mtPageRd s))) ∧
  (ok → alone → s.pins.rdy = true → other → cascNode s pos = h.src → ∃ t, exec (.hello h pos view mask epoch digest) s = .next t ∧
    t.casc.pos = lmod s.casc.pos pos (fun x => let n := if digest = configDigest s then min 2 (x.hellos + 1) else 0
      { hellos := n, live := decide (n = 2), digestBad := decide (digest ≠ configDigest s), epoch := epoch % 2 ^ 32 }) ∧
    settled (max s.casc.highest (view % 65536)) t ∧ (masterSeen t = pos → t.casc.view = view % 65536 ∧ t.casc.mask = mask % 256) ∧
    (masterSeen t ≠ pos → masterSeen t ≠ cascPos s → t.casc.view = s.casc.view ∧ t.casc.mask = s.casc.mask)) ∧
  (alone → other → (nth s.casc.pos pos {}).live = true ∨ bit s.casc.mask pos = true → ∃ t, exec (.positionDead pos) s = .next t ∧
    t.casc.pos = lmod s.casc.pos pos (fun x => { x with hellos := 0, live := false }) ∧ t.casc.masterPos = masterSeen t ∧
    (masterSeen t ≠ cascPos s → t.casc.view = s.casc.view ∧ t.casc.mask = if bit s.casc.mask pos then s.casc.mask - 2 ^ pos else s.casc.mask)) ∧
  (¬ (other ∧ ((nth s.casc.pos pos {}).live = true ∨ bit s.casc.mask pos = true)) → exec (.positionDead pos) s = .next s) ∧
  (s.pins.rdy = true → 1 < cascSize s → s.casc.lookup = none → exec .helloInterval s = .next (forEach ((List.range (cascSize s)).filter fun q => q != cascPos s)
    (fun q x => sendPageRd (cascNode x q) 4 (leBytes 1 (cascPos s) ++ leBytes 1 0 ++ leBytes 1 s.casc.mask ++ leBytes 1 0 ++ leBytes 4 (epochNo s) ++ configDigest s) x) s)) ∧
  (s.pins.rdy = false ∨ cascSize s ≤ 1 → exec .helloInterval s = .next s)

/-- Searches and claims across the group (parts of R204, R206, R207, R425, R428, R430, R431). A member refuses a SEARCH or a CLAIM that is not its master's in its view, with REVOKED; it latches
the winners of a SEARCH and acknowledges them, with their priorities in Dorlink mode; a CLAIM of a latched search is answered with what was won, any other with none. The
master counts each acknowledgement and each RESULT once; the last one resolves or completes the lookup; a RESULT of no such lookup has its handles released. On the Stirrup
bus a member passes the larger of the beat and its own priority, and marks a tag won where its own was larger. -/
def Obligations.GroupLookups : Prop := ∀ (s : State) (h : Hdr) (view owner set sid won v : Nat) (keys : List (List Byte)) (prios : List Nat) (entries : List ResEntry),
  let ok := takes h s = true ∧ ∃ k, mget s.sec.keys h.key = some k ∧ k.pair = true ∧ k.node = h.src
  let u := took h mtPageRd s
  let d := took h mtPageData s
  let wins := keys.map fun k => searchTag s set (tagOf k) owner
  (ok → fromMaster s h.src view = false → exec (.search h view owner set sid keys) s = .next (nakTo h stRevoked u) ∧ exec (.claim h view sid won) s = .next (nakTo h stRevoked u)) ∧
  (ok → fromMaster s h.src view = true → ∃ t, exec (.search h view owner set sid keys) s = .next t ∧
    t.casc.searches = [{ sid := sid, master := h.src, key := h.key, owner := owner, keys := keys, wins := wins }] ∧
    t.casc.stirrup = (if stirrupMode s then some { count := keys.length, prios := wins.map prioOf } else none) ∧
    t.pfx.tagHits = sat32 (s.pfx.tagHits + count (·.isSome) wins) ∧
    ∀ y, y = { u with pfx := t.pfx, casc := t.casc } → t = answerPage h 2 stOk (leBytes 4 sid ++ if stirrupMode s then [] else (wins.map prioOf).flatMap (leBytes 1)) y) ∧
  (ok → fromMaster s h.src view = true →
    (∀ m, (s.casc.searches.find? fun m => m.sid == sid && m.master == h.src) = some m → exec (.claim h view sid won) s = .next (answerResult h m (bitsOf m.keys.length won) u)) ∧
    ((s.casc.searches.find? fun m => m.sid == sid && m.master == h.src) = none → exec (.claim h view sid won) s = .next (answerPage h 3 stOk (leBytes 4 sid ++ leBytes 4 0) u))) ∧
  (ok → ∀ l q, s.casc.lookup = some l → positionOf s h.src = some q → l.sid = sid → q ∈ l.awaited →
    let acked := { l with acks := l.acks ++ [(q, prios)], awaited := l.awaited.filter (· != q) }
    let heard := { l with results := l.results ++ [(h.src, entries)], awaited := l.awaited.filter (· != q) }
    ((∀ x ∈ l.acks, x.1 ≠ q) → exec (.searchAck h sid prios) s = .next (if acked.awaited = [] then resolveLookup acked d else putLookup acked d)) ∧
    (l.acks ≠ [] → exec (.result h sid entries) s = .next (if heard.awaited = [] ∧ l.kept.length = l.keys.length then finishLookup heard d else putLookup heard d))) ∧
  (ok → s.casc.lookup = none → exec (.searchAck h sid prios) s = .next d ∧ exec (.result h sid entries) s = .next
    (releaseAll h.src (((s.casc.abandoned.find? fun x => x.1 == sid).map (·.2)).getD 256) (entries.map (·.handle)) d)) ∧
  (stopped s = false → s.casc.stirrup = none → exec (.stirrupBeat v) s = .next s) ∧
  (stopped s = false → ∀ st, s.casc.stirrup = some st → s.casc.lookup = none → st.beat < st.count → exec (.stirrupBeat v) s = .next { s with casc := { s.casc with
    stirrup := some { st with beat := st.beat + 1, won := st.won ++ [decide (v % 256 < nth st.prios st.beat 0)] }
    matchOut := s.casc.matchOut ++ [max (v % 256) (nth st.prios st.beat 0)] } }) ∧
  (stopped s = false → ∀ st l, s.casc.stirrup = some st → s.casc.lookup = some l → st.beat + 1 < st.count → exec (.stirrupBeat v) s = .next { s with casc := { s.casc with
    stirrup := some { st with beat := st.beat + 1 }
    lookup := some { l with maxes := l.maxes ++ [max (v % 256) (nth st.prios st.beat 0)]
                            kept := l.kept ++ [decide (v % 256 ≤ nth st.prios st.beat 0) && decide (0 < nth st.prios st.beat 0)] } } })

/-- Peer pages (parts of R432 to R435, R437). A READ under a handle of another epoch, another holder, a free slot or a released layer is answered REVOKED and counted; else with the bytes asked for of
the page's image; a page that is itself a Peer page is read from its own exporter first, anew for each run of READs. A READ turned away drops the record with a ticket; one not answered is sent again up to three times, then waits. A RELEASE is acknowledged; it releases
a layer once, and the slot with the last. -/
def Obligations.PeerPagesAreServed : Prop := ∀ (s : State) (h : Hdr) (handle layer offset len status tag : Nat) (bytes : List Byte) (e : RelEntry),
  let ok := fun (typ : Nat) (u : State) => takes h s = true ∧ (∃ k, mget s.sec.keys h.key = some k ∧ k.pair = true ∧ k.node = h.src) ∧ u = took h typ s
  (∀ u f, ok mtPageRd u → f = freshRun h handle layer offset u →
    (exportOf s handle h.src = none ∨ (∃ slot x, exportOf s handle h.src = some (slot, x) ∧ (x.layers ≤ layer ∨ layer ∈ x.released)) →
      exec (.read h handle layer offset len) s = .next (answerPage h 1 stRevoked (leBytes 4 0) { f with casc := { f.casc with peerRefused := sat32 (s.casc.peerRefused + 1) } })) ∧
    (∀ slot x r, exportOf s handle h.src = some (slot, x) → layer < x.layers → layer ∉ x.released → recOf s (nth x.recs layer 0) = some r → r.page.tier ≠ .dropped →
      offset = 0 ∨ (∀ y ∈ x.seen, y.1 = layer → y.2 = r.page.codec) →
      (r.page.tier ≠ .peer → ∀ img, img = imageBytes r.page.model r.page → ∃ v, v.casc.peerRefused = s.casc.peerRefused ∧
        let part := (img.drop offset).take (min len 8192)
        exec (.read h handle layer offset len) s = .next (when (decide (img.length ≤ offset + min len 8192)) (dropImages (.chain slot layer))
          (answerPage h 1 stOk (leBytes 4 part.length ++ part) v))) ∧
      (r.page.tier = .peer → peerWhole f (.chain slot layer) (nth x.recs layer 0) = false → exec (.read h handle layer offset len) s =
        .next (wantPeer (.chain slot layer) (nth x.recs layer 0) { f with casc := { f.casc with chained := f.casc.chained ++
          [{ port := h.port, src := h.src, key := h.key, tag := h.tag, handle := handle, layer := layer, offset := offset, len := len }] } })))) ∧
  (∀ u, ok mtPageData u → (mget s.casc.reads h.tag = none ∨ (∃ r, mget s.casc.reads h.tag = some r ∧ r.node ≠ h.src) → exec (.pageData h status bytes) s = .next u) ∧
    (∀ r, mget s.casc.reads h.tag = some r → r.node = h.src →
      let v := { u with casc := { s.casc with reads := mdel s.casc.reads h.tag } }
      (status ≠ stOk → exec (.pageData h status bytes) s = .next (serveChained (peerGone r.rec_ { v with casc := { v.casc with peerRefused := sat32 (s.casc.peerRefused + 1) } }))) ∧
      (status = stOk → ∀ w, w = addPeer r.who r.rec_ (bytes.take r.len) v →
        exec (.pageData h status bytes) s = .next (if peerWhole w r.who r.rec_ then serveChained w else wantPeer r.who r.rec_ w)))) ∧
  (∀ r, mget s.casc.reads tag = some r → (3 ≤ r.resends → exec (.peerReadTimeout tag) s = .next s) ∧
    (r.resends < 3 → exec (.peerReadTimeout tag) s = .next (sendPeerRead tag { s with casc := { s.casc with reads := mset s.casc.reads tag { r with resends := r.resends + 1 } } }))) ∧
  (∀ u, ok mtPageWr u → (exportOf s e.handle h.src = none → exec (.release h [e]) s = .next (reply h mtAck 1 0 0 [] u)) ∧
    (∀ slot x, exportOf s e.handle h.src = some (slot, x) → exec (.release h [e]) s = .next (releaseExport slot e.layer (reply h mtAck 1 0 0 [] u)) ∧
      (x.layers ≤ e.layer ∨ e.layer ∈ x.released → exec (.release h [e]) s = .next (reply h mtAck 1 0 0 [] u))))

/-- Transfers of the management unit (parts of R451 to R454). Over Dorlink a read or write is turned away with REVOKED while RDY is not asserted, with INTERNAL when malformed, and no
register is accessed; else each word is one register access, in ascending offset, and the answer is MGMT_DATA, ACK, or NAK with TALLY_WORN where a write could not be made.
Over I3C a transfer is answered from the end of phase 2; until RDY first asserts only seven blocks are served. A private write of four bytes sets the read pointer, one of more writes
from the offset, a malformed one accesses nothing; a private read returns at most 16 words, to the end of the block, and the pointer rises by 4 a word. That ENTDAA and
SETDASA leave an address already given in place is the model's (log 18), as are the values of GETBCR, GETDCR and GETSTATUS. -/
def Obligations.ManagementTransfers : Prop := ∀ (s : State) (h : Hdr) (off len n a : Nat) (bytes : List Byte),
  let good := fun (off len : Nat) => off % 4 = 0 ∧ len % 4 = 0 ∧ 4 ≤ len ∧ len ≤ 64 ∧ off < 2 ^ 24 ∧ off / 0x10000 = (off + len - 1) / 0x10000
  let awake := 2 ∈ s.start.done
  let isServed := fun (off : Nat) => 13 ∈ s.start.done ∨ off / 0x10000 ∈ [0, 1, 11, 12, 13, 14, 15]
  let shows := fun (ws : List Nat) => ({ s with mgmt := { s.mgmt with reply := ws } } : State)
  let i3cBytes := bytes.drop 4
  (∀ u, takes h s = true → u = took h mtMgmtRd s → (s.pins.rdy = false → exec (.mgmtRd h off len) s = .next (nakTo h stRevoked u)) ∧
    (s.pins.rdy = true → ¬ good off len → exec (.mgmtRd h off len) s = .next (nakTo h stInternal u)) ∧
    (s.pins.rdy = true → good off len → ∃ (st : Nat → State) (ws : List Nat), st 0 = u ∧ ws.length = len / 4 ∧
      (∀ i, i < len / 4 → readWord (.dorlink h.key) (off + 4 * i) (st i) = (nth ws i 0, st (i + 1))) ∧
      exec (.mgmtRd h off len) s = .next (reply h mtMgmtData 3 0 0 (ws.flatMap (leBytes 4)) (st (len / 4))))) ∧
  (∀ u, takes h s = true → u = took h mtMgmtWr s → (s.pins.rdy = false → exec (.mgmtWr h off bytes) s = .next (nakTo h stRevoked u)) ∧
    (s.pins.rdy = true → ¬ good off bytes.length → exec (.mgmtWr h off bytes) s = .next (nakTo h stInternal u)) ∧
    (s.pins.rdy = true → good off bytes.length → ∃ st : Nat → State, st 0 = u ∧
      (∀ i, i < bytes.length / 4 → st (i + 1) = writeWord (.dorlink h.key) (off + 4 * i) (field bytes (4 * i) 4) (st i)) ∧
      ((∃ i, i < bytes.length / 4 ∧ wornWrite (.dorlink h.key) (off + 4 * i) (field bytes (4 * i) 4) (st i) = true) →
        exec (.mgmtWr h off bytes) s = .next (nakTo h stTallyWorn (st (bytes.length / 4)))) ∧
      ((∀ i, i < bytes.length / 4 → wornWrite (.dorlink h.key) (off + 4 * i) (field bytes (4 * i) 4) (st i) = false) →
        exec (.mgmtWr h off bytes) s = .next (reply h mtAck 1 0 0 [] (st (bytes.length / 4)))))) ∧
  (awake → bytes.length = 4 → field bytes 0 4 < 2 ^ 24 → field bytes 0 4 % 4 = 0 → exec (.i3cPrivateWrite bytes) s = .next { s with mgmt := { s.mgmt with i3cPtr := field bytes 0 4 } }) ∧
  (awake → 4 < bytes.length → good (field bytes 0 4) i3cBytes.length → (isServed (field bytes 0 4) → ∃ st : Nat → State, st 0 = s ∧
      (∀ i, i < i3cBytes.length / 4 → st (i + 1) = writeWord .i3c (field bytes 0 4 + 4 * i) (field i3cBytes (4 * i) 4) (st i)) ∧
      exec (.i3cPrivateWrite bytes) s = .next (st (i3cBytes.length / 4))) ∧
    (¬ isServed (field bytes 0 4) → exec (.i3cPrivateWrite bytes) s = .next s)) ∧
  (bytes.length < 4 ∨ 2 ^ 24 ≤ field bytes 0 4 ∨ field bytes 0 4 % 4 ≠ 0 ∨ (bytes.length ≠ 4 ∧ ¬ good (field bytes 0 4) i3cBytes.length) → exec (.i3cPrivateWrite bytes) s = .next (shows [])) ∧
  (awake → s.mgmt.i3cPtr < 2 ^ 24 → ∀ m, m = min n (min 16 ((0x10000 - s.mgmt.i3cPtr % 0x10000) / 4)) →
    (isServed s.mgmt.i3cPtr → ∃ (st : Nat → State) (ws : List Nat), st 0 = s ∧ ws.length = m ∧ (∀ i, i < m → readWord .i3c (s.mgmt.i3cPtr + 4 * i) (st i) = (nth ws i 0, st (i + 1))) ∧
      exec (.i3cPrivateRead n) s = .next { st m with mgmt := { (st m).mgmt with i3cPtr := (st m).mgmt.i3cPtr + 4 * m, reply := ws } }) ∧
    (¬ isServed s.mgmt.i3cPtr → exec (.i3cPrivateRead n) s = .next { s with mgmt := { s.mgmt with i3cPtr := s.mgmt.i3cPtr + 4 * m, reply := List.replicate m 0 } })) ∧
  (awake → exec .getpid s = .next (shows [Config.serial % 2 ^ 32, 1]) ∧ exec .getbcr s = .next (shows [Config.i3cBcr % 256]) ∧ exec .getdcr s = .next (shows [Config.i3cDcr % 256]) ∧
    exec .getstatus s = .next { s with free := s.free + 1, mgmt := { s.mgmt with reply := [(Config.freeValue 16 s.free).toNat] } } ∧
    exec .rstdaa s = .next { s with mgmt := { s.mgmt with i3cAddr := none } } ∧
    (∀ c ∈ [Instr.entdaa a, .setdasa a], exec c s = .next { s with mgmt := { s.mgmt with i3cAddr := some (s.mgmt.i3cAddr.getD a) } })) ∧
  (¬ awake → ∀ c ∈ [Instr.i3cPrivateWrite bytes, .i3cPrivateRead n, .entdaa a, .setdasa a, .rstdaa, .getpid, .getbcr, .getdcr, .getstatus], exec c s = .next (shows []))

/-- Register pairs with a latching low word (R455). The operator's read of a low word returns it and latches the upper word for the path it uses, I3C's or the one that every
Dorlink source shares, the other path's latches unchanged. A later read of the high word returns the path's latch. One access of both words, by MGMT_RD or over I3C, returns one value.
FTL_SEQ is said once the block pass has ended. -/
def Obligations.LatchingReads : Prop := ∀ (s : State) (h : Hdr) (path : Path),
  let pairs : List (Nat × Nat × Nat × Instr) := [(0x00108, 0, now s, .topCclkLoRead path), (0x60120, 1, s.attn.keys, .atnKeysLoRead path),
    (0x90020, 2, s.ftl.seqNo, .ftlSeqLoRead path), (0xA0304, 3, (ctxOf s s.sch.acctSel).cyc, .schAcctCycLoRead path),
    (0xA0310, 4, (ctxOf s s.sch.acctSel).save, .schAcctSaveLoRead path)]
  ∀ off k value c, (off, k, value, c) ∈ pairs → (k = 2 → s.start.wearReady = true) → k < s.mgmt.latDl.length → k < s.mgmt.latI3c.length →
    let lo := value % 2 ^ 32
    let hi := value / 2 ^ 32 % 2 ^ 32
    (operates path off s = true → exec c s = .next { s with mgmt := { s.mgmt with
      reply := [lo]
      latI3c := if path = .i3c then lput s.mgmt.latI3c k hi else s.mgmt.latI3c
      latDl := if path = .i3c then s.mgmt.latDl else lput s.mgmt.latDl k hi } }) ∧
    (takes h s = true → operates (.dorlink h.key) off s = true →
      exec (.mgmtRd h off 8) s = .next (reply h mtMgmtData 3 0 0 (leBytes 4 lo ++ leBytes 4 hi)
        { took h mtMgmtRd s with mgmt := { s.mgmt with latDl := lput s.mgmt.latDl k hi } }) ∧
      exec (.mgmtRd h (off + 4) 4) s = .next (reply h mtMgmtData 3 0 0 (leBytes 4 (nth s.mgmt.latDl k 0)) (took h mtMgmtRd s))) ∧
    (operates .i3c off s = true →
      (s.mgmt.i3cPtr = off → exec (.i3cPrivateRead 2) s = .next { s with mgmt := { s.mgmt with
        i3cPtr := off + 8, reply := [lo, hi], latI3c := lput s.mgmt.latI3c k hi } }) ∧
      (s.mgmt.i3cPtr = off + 4 → exec (.i3cPrivateRead 1) s = .next { s with mgmt := { s.mgmt with i3cPtr := off + 8, reply := [nth s.mgmt.latI3c k 0] } }))

/-- Single register accesses (parts of R389, R394, R415, R450, R453, R456). An access that is not served changes nothing. A read of BBX_READ_DATA moves its offset by 4. Any other party's read of
these registers but TOP_CCLK_LO shows the tenant view and changes nothing else. A write of a register a party may not write, of a read-only block or of a reserved offset is ignored; an
RW field takes the value, but one out of its range; a W1C bit is cleared by a 1 alone. -/
def Obligations.RegisterAccesses : Prop := ∀ (s : State) (path : Path) (off v : Nat),
  (∀ x ∈ [(0x00108, Instr.topCclkLoRead path), (0x60120, .atnKeysLoRead path), (0x90020, .ftlSeqLoRead path), (0xA0304, .schAcctCycLoRead path), (0xA0310, .schAcctSaveLoRead path),
    (0xD0028, .bbxReadDataRead path)], servedAt path x.1 s = false → exec x.2 s = .next s) ∧
  (operates path 0xD0028 s = true → exec (.bbxReadDataRead path) s = .next { s with
    mgmt := { s.mgmt with reply := [bbxWord s] }, bbx := { s.bbx with readAddr := (s.bbx.readAddr + 4) % 2 ^ 18 } }) ∧
  (∀ x ∈ [(0x60120, Instr.atnKeysLoRead path), (0x90020, .ftlSeqLoRead path), (0xA0304, .schAcctCycLoRead path), (0xA0310, .schAcctSaveLoRead path), (0xD0028, .bbxReadDataRead path)],
    servedAt path x.1 s = true → (partyOf s path).isOperator = false → (∀ p, partyOf s path = .mgmt p → p < 16) → exec x.2 s = .next { s with mgmt := { s.mgmt with
      reply := [if partyOf s path = .nobody then 0 else tenantWord s (pathTenant s path) x.1] } }) ∧
  (servedAt path off s = false ∨ (∃ t, partyOf s path = .tenant t) ∨ partyOf s path = .nobody ∨ off / 0x10000 ∈ [0, 2, 7, 15] ∨ 16 ≤ off / 0x10000 →
    exec (.registerWrite path off v) s = .next s) ∧
  (v < 2 ^ 32 → (operates path 0x60000 s = true → exec (.registerWrite path 0x60000 v) s = .next { s with attn := { s.attn with splitEn := bit v 0, groupEn := bit v 1 } }) ∧
    (operates path 0xE0000 s = true → exec (.registerWrite path 0xE0000 v) s = .next { s with pwr := { s.pwr with
      ovEvent := s.pwr.ovEvent && !bit v 7, uvEvent := s.pwr.uvEvent && !bit v 8 } }) ∧
    (operates path 0xA0000 s = true → exec (.registerWrite path 0xA0000 v) s = .next (if v % 1024 = 0 ∨ 1000 < v % 1024 ∨ 100 < bits v 10 7 then s
      else { s with sch := { s.sch with quantum := v % 1024, cheapWait := bits v 10 7, monitorEn := bit v 17 } })) ∧
    (operates path 0xD0024 s = true → exec (.registerWrite path 0xD0024 v) s = .next { s with bbx := { s.bbx with readAddr := v % 2 ^ 18 / 4 * 4 } }))

end Statements
end

