-- ==== Sys2Proof/Laws/Mem.lean ====
section
/-! SUPPORT. Memory of the extents: every operation keeps the canonical form; a byte written is read, every other byte stands. -/

namespace Sys2Proof.Machine

open Sys2Proof

theorem memRising_mono {lo hi : Nat} (m : List Host.Cell) (h : memRising hi m = true) (le : lo ≤ hi) : memRising lo m = true := by
  cases m with
  | nil => rfl
  | cons c r =>
    obtain ⟨k, v⟩ := c
    simp only [memRising, Bool.and_eq_true, decide_eq_true_eq] at *
    exact ⟨⟨by omega, h.1.2⟩, h.2⟩

theorem memSet_rising (m : List Host.Cell) : ∀ {lo : Nat} (a : Nat) (b : BitVec 8), lo ≤ a → memRising lo m = true →
    memRising lo (memSet m a b) = true := by
  induction m with
  | nil =>
    intro lo a b le _
    unfold memSet
    split
    · rfl
    · next nz =>
      have nz : (b != 0) = true := by simpa [bne] using nz
      simp only [memRising, nz, Bool.and_eq_true, decide_eq_true_eq]
      exact ⟨⟨le, trivial⟩, trivial⟩
  | cons c r ih =>
    obtain ⟨k, v⟩ := c
    intro lo a b le h
    simp only [memRising, Bool.and_eq_true, decide_eq_true_eq] at h
    unfold memSet
    split
    · next lt =>
      simp only [memRising, Bool.and_eq_true, decide_eq_true_eq]
      exact ⟨h.1, ih a b lt h.2⟩
    · next ge =>
      split
      · next e =>
        have e : k = a := by simpa using e
        subst e
        split
        · exact memRising_mono r h.2 (by omega)
        · next nz =>
          have nz : (b != 0) = true := by simpa [bne] using nz
          simp only [memRising, nz, Bool.and_eq_true, decide_eq_true_eq]
          exact ⟨⟨le, trivial⟩, h.2⟩
      · next ne =>
        have ne : k ≠ a := by simpa using ne
        split
        · simp only [memRising, Bool.and_eq_true, decide_eq_true_eq]
          exact h
        · next nz =>
          have nz : (b != 0) = true := by simpa [bne] using nz
          simp only [memRising, nz, Bool.and_eq_true, decide_eq_true_eq]
          exact ⟨⟨le, trivial⟩, ⟨by omega, h.1.2⟩, h.2⟩

theorem memSet_wf {m : List Host.Cell} (a : Nat) (b : BitVec 8) (h : memWf m = true) : memWf (memSet m a b) = true :=
  memSet_rising m a b (Nat.zero_le _) h

theorem memWrite_wf (bs : List Byte) : ∀ {m : List Host.Cell} (a : Nat), memWf m = true → memWf (memWrite m a bs) = true := by
  induction bs with
  | nil => intro m a h; exact h
  | cons b r ih => intro m a h; exact ih (a + 1) (memSet_wf a b h)

theorem memMasked_wf (mask : Nat) (bs : List Byte) : ∀ {m : List Host.Cell} (a i : Nat), memWf m = true →
    memWf (memMasked m a mask i bs) = true := by
  induction bs with
  | nil => intro m a i h; exact h
  | cons b r ih =>
    intro m a i h
    refine ih (a + 1) (i + 1) ?_
    split
    · exact memSet_wf a b h
    · exact h

theorem memFilter_rising (p : Host.Cell → Bool) (m : List Host.Cell) : ∀ {lo : Nat}, memRising lo m = true →
    memRising lo (m.filter p) = true := by
  induction m with
  | nil => intro lo h; exact h
  | cons c r ih =>
    obtain ⟨k, v⟩ := c
    intro lo h
    simp only [memRising, Bool.and_eq_true, decide_eq_true_eq] at h
    rw [List.filter_cons]
    split
    · simp only [memRising, Bool.and_eq_true, decide_eq_true_eq]
      exact ⟨h.1, ih h.2⟩
    · exact memRising_mono _ (ih h.2) (by omega)

theorem memClear_wf {m : List Host.Cell} (a n : Nat) (h : memWf m = true) : memWf (memClear m a n) = true :=
  memFilter_rising _ m h

/-- A byte below the first listed address reads 0. -/
theorem memByte_below (m : List Host.Cell) {lo : Nat} (a : Nat) (h : memRising lo m = true) (lt : a < lo) : memByte m a = 0 := by
  induction m generalizing lo with
  | nil => rfl
  | cons c r ih =>
    obtain ⟨k, v⟩ := c
    simp only [memRising, Bool.and_eq_true, decide_eq_true_eq] at h
    unfold memByte
    rw [if_neg (by simp; omega)]
    exact ih h.2 (by omega)

theorem memByte_memSet_rising (m : List Host.Cell) : ∀ {lo : Nat} (a x : Nat) (b : BitVec 8), memRising lo m = true →
    memByte (memSet m a b) x = if x = a then b else memByte m x := by
  induction m with
  | nil =>
    intro lo a x b _
    unfold memSet
    split
    · next z =>
      have z : b = 0 := by simpa using z
      by_cases hx : x = a <;> simp [memByte, z]
    · by_cases hx : x = a
      · simp [memByte, hx]
      · simp [memByte, hx, Ne.symm hx]
  | cons c r ih =>
    obtain ⟨k, v⟩ := c
    intro lo a x b h
    simp only [memRising, Bool.and_eq_true, decide_eq_true_eq] at h
    unfold memSet
    split
    · next lt =>
      unfold memByte
      rw [ih a x b h.2]
      by_cases hk : k = x
      · subst hk; simp [show k ≠ a by omega]
      · simp [hk]
    · next ge =>
      split
      · next e =>
        have e : k = a := by simpa using e
        subst e
        split
        · next z =>
          have z : b = 0 := by simpa using z
          by_cases hx : x = k
          · subst hx; simp [memByte_below r x h.2 (by omega), z]
          · simp [memByte, hx, Ne.symm hx]
        · by_cases hx : x = k
          · subst hx; simp [memByte]
          · simp [memByte, hx, Ne.symm hx]
      · next ne =>
        have ne : k ≠ a := by simpa using ne
        split
        · next z =>
          have z : b = 0 := by simpa using z
          by_cases hx : x = a
          · subst hx
            have : memByte r x = 0 := memByte_below r x h.2 (by omega)
            simp [memByte, ne, this, z]
          · simp [hx]
        · by_cases hx : x = a
          · subst hx; simp [memByte]
          · simp [memByte, hx, Ne.symm hx]

/-- A byte written is read; every other byte reads as before. -/
theorem memByte_memSet {m : List Host.Cell} (a x : Nat) (b : BitVec 8) (h : memWf m = true) :
    memByte (memSet m a b) x = if x = a then b else memByte m x := memByte_memSet_rising m a x b h

end Sys2Proof.Machine
end

