-- ==== Sys2Proof/Laws/Touches.lean ====
section
/-! SUPPORT. The frame of an operation, said once: which parts of State it may touch, and what every operation keeps. -/

namespace Sys2Proof.Machine

open Sys2Proof

/-- The bit of a part. -/
def StPart.bit : StPart → Nat
  | .free => 1
  | .pins => 2
  | .pwr => 4
  | .thm => 8
  | .clk => 16
  | .start => 32
  | .img => 64
  | .resp => 128
  | .tly => 256
  | .spare => 512
  | .bbx => 1024
  | .link => 2048
  | .coh => 4096
  | .ext => 8192
  | .hbm => 16384
  | .rng => 32768
  | .io => 65536
  | .seqs => 131072
  | .pfx => 262144
  | .casc => 524288
  | .ops => 1048576
  | .attn => 2097152
  | .core => 4194304
  | .cdc => 8388608
  | .tier => 16777216
  | .wt => 33554432
  | .ftl => 67108864
  | .sch => 134217728
  | .sec => 268435456
  | .mgmt => 536870912

/-- The set of parts with these members. -/
def partSet : List StPart → Nat
  | [] => 0
  | p :: r => p.bit ||| partSet r

/-- Every part of `b` is one of `a`. -/
def hasParts (a b : Nat) : Bool := a &&& b == b

theorem hasParts_trans {a b c : Nat} (h : hasParts a b = true) (k : hasParts b c = true) : hasParts a c = true := by
  simp only [hasParts, beq_iff_eq] at *
  rw [← k, ← Nat.and_assoc, h]

theorem FusesKept.refl (r : List Root) : FusesKept r r := fun _ => ⟨fun h => ⟨h, rfl⟩, fun h => h⟩

theorem FusesKept.trans {a b c : List Root} (h : FusesKept a b) (k : FusesKept b c) : FusesKept a c := fun i =>
  ⟨fun p => ⟨((k i).1 ((h i).1 p).1).1, (((k i).1 ((h i).1 p).1).2).trans ((h i).1 p).2⟩, fun p => (k i).2 ((h i).2 p)⟩

/-- A change of one root slot that keeps its digest once programmed and its revocation keeps the fuses. -/
theorem FusesKept.lmod (l : List Root) (i : Nat) (f : Root → Root)
    (hp : (nth l i {}).programmed = true → (f (nth l i {})).programmed = true ∧ (f (nth l i {})).digest = (nth l i {}).digest)
    (hr : (nth l i {}).revoked = true → (f (nth l i {})).revoked = true) : FusesKept l (Machine.lmod l i f) := by
  induction l generalizing i with
  | nil => exact .refl _
  | cons x r ih =>
    cases i with
    | zero =>
      intro j
      cases j with
      | zero => exact ⟨hp, hr⟩
      | succ j => exact FusesKept.refl (x :: r) (j + 1)
    | succ i =>
      intro j
      cases j with
      | zero => exact FusesKept.refl (x :: r) 0
      | succ j => exact ih i hp hr j

/-! ### Rings -/

theorem RingOk.default : RingOk {} := ⟨List.Pairwise.nil, fun _ h => nomatch h⟩

/-- Entries changed one by one, their numbers kept. -/
theorem RingOk.map {r t : Ring} (f : Entry → Entry) (hf : ∀ e, (f e).idx = e.idx) (he : t.entries = r.entries.map f) (ht : t.taken = r.taken)
    (h : RingOk r) : RingOk t := by
  have k : (r.entries.map f).map (·.idx) = r.entries.map (·.idx) := by simp [hf]
  refine ⟨he ▸ k ▸ h.1, fun e m => ?_⟩
  rw [he] at m
  obtain ⟨x, hx, rfl⟩ := List.mem_map.mp m
  rw [ht, hf]
  exact h.2 x hx

/-- Entries that leave. -/
theorem RingOk.filter {r t : Ring} (p : Entry → Bool) (he : t.entries = r.entries.filter p) (ht : t.taken = r.taken)
    (h : RingOk r) : RingOk t := by
  refine ⟨?_, fun e m => ?_⟩
  · rw [he]
    exact h.1.sublist (List.filter_sublist.map _)
  · rw [he] at m
    rw [ht]
    exact h.2 e (List.mem_filter.mp m).1

/-- Entries numbered on from the highest. -/
theorem RingOk.append {r t : Ring} (es : List Entry) (he : t.entries = r.entries ++ es) (ht : t.taken = r.taken + es.length)
    (hn : es.map (·.idx) = List.range' r.taken es.length) (h : RingOk r) : RingOk t := by
  have lt : ∀ e ∈ es, r.taken ≤ e.idx ∧ e.idx < r.taken + es.length := fun e m => by
    have : e.idx ∈ es.map (·.idx) := List.mem_map_of_mem m
    rw [hn] at this
    simpa [List.mem_range'_1] using this
  refine ⟨?_, fun e m => ?_⟩
  · rw [he, List.map_append, List.pairwise_append]
    refine ⟨h.1, hn ▸ List.pairwise_lt_range', fun a ha b hb => ?_⟩
    obtain ⟨x, hx, rfl⟩ := List.mem_map.mp ha
    obtain ⟨y, hy, rfl⟩ := List.mem_map.mp hb
    exact Nat.lt_of_lt_of_le (h.2 x hx) (lt y hy).1
  · rw [he] at m
    rw [ht]
    exact (List.mem_append.mp m).elim (fun a => Nat.lt_add_right _ (h.2 e a)) fun a => (lt e a).2

theorem RingsOk.get {r : Rng} (h : RingsOk r) (n : Nat) : RingOk (mgetD r.rings n {}) := by
  have : ∀ (m : AMap Ring), (∀ x ∈ m, RingOk x.2) → RingOk (mgetD m n {}) := by
    intro m
    induction m with
    | nil => exact fun _ => RingOk.default
    | cons x m ih =>
      intro k
      by_cases e : x.1 == n
      · simpa [mgetD, mget, e] using k x List.mem_cons_self
      · simpa [mgetD, mget, e] using ih fun y hy => k y (List.mem_cons_of_mem _ hy)
  exact this _ h

theorem RingsOk.mset {m : AMap Ring} (h : ∀ x ∈ m, RingOk x.2) (n : Nat) {v : Ring} (hv : RingOk v) : ∀ x ∈ mset m n v, RingOk x.2 := by
  induction m with
  | nil =>
    intro x hx
    cases List.mem_singleton.mp hx
    exact hv
  | cons y m ih =>
    have hm : ∀ x ∈ m, RingOk x.2 := fun x hx => h x (List.mem_cons_of_mem _ hx)
    intro x hx
    simp only [Machine.mset] at hx
    split at hx
    · rcases List.mem_cons.mp hx with rfl | hx
      · exact hv
      · exact h x hx
    · split at hx
      · rcases List.mem_cons.mp hx with rfl | hx
        · exact hv
        · exact hm x hx
      · rcases List.mem_cons.mp hx with rfl | hx
        · exact h _ List.mem_cons_self
        · exact ih hm x hx

theorem RingsOk.mmod {r t : Rng} (n : Nat) (f : Ring → Ring) (hf : ∀ x, RingOk x → RingOk (f x)) (ht : t.rings = mmod r.rings n f)
    (h : RingsOk r) : RingsOk t := by
  have k := h.get n
  intro x hx
  rw [ht] at hx
  unfold Machine.mmod at hx
  split at hx
  · exact h x hx
  · next v e =>
    rw [mgetD, e] at k
    exact RingsOk.mset h n (hf _ k) x hx

/-- `t` came from `s` by operations that touch the parts `w` only. Whatever they are, the queue stands, the memory of the
extents keeps its canonical form, the fuses are kept, RDY stays low during a start, and the rings keep their order. -/
structure Touches (w : Nat) (s t : State) : Prop where
  pending : t.pending = s.pending
  mem : memWf s.coh.mem = true → memWf t.coh.mem = true
  fuses : FusesKept s.sec.roots t.sec.roots
  rdy : RdyOk s → RdyOk t
  rings : RingsOk s.rng → RingsOk t.rng
  free : hasParts w StPart.free.bit = true ∨ t.free = s.free
  pins : hasParts w StPart.pins.bit = true ∨ t.pins = s.pins
  pwr : hasParts w StPart.pwr.bit = true ∨ t.pwr = s.pwr
  thm : hasParts w StPart.thm.bit = true ∨ t.thm = s.thm
  clk : hasParts w StPart.clk.bit = true ∨ t.clk = s.clk
  start : hasParts w StPart.start.bit = true ∨ t.start = s.start
  img : hasParts w StPart.img.bit = true ∨ t.img = s.img
  resp : hasParts w StPart.resp.bit = true ∨ t.resp = s.resp
  tly : hasParts w StPart.tly.bit = true ∨ t.tly = s.tly
  spare : hasParts w StPart.spare.bit = true ∨ t.spare = s.spare
  bbx : hasParts w StPart.bbx.bit = true ∨ t.bbx = s.bbx
  link : hasParts w StPart.link.bit = true ∨ t.link = s.link
  coh : hasParts w StPart.coh.bit = true ∨ t.coh = s.coh
  ext : hasParts w StPart.ext.bit = true ∨ t.ext = s.ext
  hbm : hasParts w StPart.hbm.bit = true ∨ t.hbm = s.hbm
  rng : hasParts w StPart.rng.bit = true ∨ t.rng = s.rng
  io : hasParts w StPart.io.bit = true ∨ t.io = s.io
  seqs : hasParts w StPart.seqs.bit = true ∨ t.seqs = s.seqs
  pfx : hasParts w StPart.pfx.bit = true ∨ t.pfx = s.pfx
  casc : hasParts w StPart.casc.bit = true ∨ t.casc = s.casc
  ops : hasParts w StPart.ops.bit = true ∨ t.ops = s.ops
  attn : hasParts w StPart.attn.bit = true ∨ t.attn = s.attn
  core : hasParts w StPart.core.bit = true ∨ t.core = s.core
  cdc : hasParts w StPart.cdc.bit = true ∨ t.cdc = s.cdc
  tier : hasParts w StPart.tier.bit = true ∨ t.tier = s.tier
  wt : hasParts w StPart.wt.bit = true ∨ t.wt = s.wt
  ftl : hasParts w StPart.ftl.bit = true ∨ t.ftl = s.ftl
  sch : hasParts w StPart.sch.bit = true ∨ t.sch = s.sch
  sec : hasParts w StPart.sec.bit = true ∨ t.sec = s.sec
  mgmt : hasParts w StPart.mgmt.bit = true ∨ t.mgmt = s.mgmt

variable {w : Nat} {s₀ s : State}

theorem Touches.refl (w : Nat) (s : State) : Touches w s s :=
  ⟨rfl, id, .refl _, id, id, .inr rfl, .inr rfl, .inr rfl, .inr rfl, .inr rfl, .inr rfl, .inr rfl, .inr rfl, .inr rfl, .inr rfl, .inr rfl, .inr rfl, .inr rfl, .inr rfl, .inr rfl, .inr rfl, .inr rfl, .inr rfl, .inr rfl, .inr rfl, .inr rfl, .inr rfl, .inr rfl, .inr rfl, .inr rfl, .inr rfl, .inr rfl, .inr rfl, .inr rfl, .inr rfl⟩

/-- One more step of a chain: from `s` on, a change that touches `n` only. -/
theorem Touches.next {n : Nat} {t : State} (hw : hasParts w n = true) (h : Touches w s₀ s) (k : Touches n s t) : Touches w s₀ t where
  pending := k.pending.trans h.pending
  mem := fun m => k.mem (h.mem m)
  fuses := h.fuses.trans k.fuses
  rdy := fun m => k.rdy (h.rdy m)
  rings := fun m => k.rings (h.rings m)
  free := k.free.elim (fun c => .inl (hasParts_trans hw c)) fun e => h.free.imp_right e.trans
  pins := k.pins.elim (fun c => .inl (hasParts_trans hw c)) fun e => h.pins.imp_right e.trans
  pwr := k.pwr.elim (fun c => .inl (hasParts_trans hw c)) fun e => h.pwr.imp_right e.trans
  thm := k.thm.elim (fun c => .inl (hasParts_trans hw c)) fun e => h.thm.imp_right e.trans
  clk := k.clk.elim (fun c => .inl (hasParts_trans hw c)) fun e => h.clk.imp_right e.trans
  start := k.start.elim (fun c => .inl (hasParts_trans hw c)) fun e => h.start.imp_right e.trans
  img := k.img.elim (fun c => .inl (hasParts_trans hw c)) fun e => h.img.imp_right e.trans
  resp := k.resp.elim (fun c => .inl (hasParts_trans hw c)) fun e => h.resp.imp_right e.trans
  tly := k.tly.elim (fun c => .inl (hasParts_trans hw c)) fun e => h.tly.imp_right e.trans
  spare := k.spare.elim (fun c => .inl (hasParts_trans hw c)) fun e => h.spare.imp_right e.trans
  bbx := k.bbx.elim (fun c => .inl (hasParts_trans hw c)) fun e => h.bbx.imp_right e.trans
  link := k.link.elim (fun c => .inl (hasParts_trans hw c)) fun e => h.link.imp_right e.trans
  coh := k.coh.elim (fun c => .inl (hasParts_trans hw c)) fun e => h.coh.imp_right e.trans
  ext := k.ext.elim (fun c => .inl (hasParts_trans hw c)) fun e => h.ext.imp_right e.trans
  hbm := k.hbm.elim (fun c => .inl (hasParts_trans hw c)) fun e => h.hbm.imp_right e.trans
  rng := k.rng.elim (fun c => .inl (hasParts_trans hw c)) fun e => h.rng.imp_right e.trans
  io := k.io.elim (fun c => .inl (hasParts_trans hw c)) fun e => h.io.imp_right e.trans
  seqs := k.seqs.elim (fun c => .inl (hasParts_trans hw c)) fun e => h.seqs.imp_right e.trans
  pfx := k.pfx.elim (fun c => .inl (hasParts_trans hw c)) fun e => h.pfx.imp_right e.trans
  casc := k.casc.elim (fun c => .inl (hasParts_trans hw c)) fun e => h.casc.imp_right e.trans
  ops := k.ops.elim (fun c => .inl (hasParts_trans hw c)) fun e => h.ops.imp_right e.trans
  attn := k.attn.elim (fun c => .inl (hasParts_trans hw c)) fun e => h.attn.imp_right e.trans
  core := k.core.elim (fun c => .inl (hasParts_trans hw c)) fun e => h.core.imp_right e.trans
  cdc := k.cdc.elim (fun c => .inl (hasParts_trans hw c)) fun e => h.cdc.imp_right e.trans
  tier := k.tier.elim (fun c => .inl (hasParts_trans hw c)) fun e => h.tier.imp_right e.trans
  wt := k.wt.elim (fun c => .inl (hasParts_trans hw c)) fun e => h.wt.imp_right e.trans
  ftl := k.ftl.elim (fun c => .inl (hasParts_trans hw c)) fun e => h.ftl.imp_right e.trans
  sch := k.sch.elim (fun c => .inl (hasParts_trans hw c)) fun e => h.sch.imp_right e.trans
  sec := k.sec.elim (fun c => .inl (hasParts_trans hw c)) fun e => h.sec.imp_right e.trans
  mgmt := k.mgmt.elim (fun c => .inl (hasParts_trans hw c)) fun e => h.mgmt.imp_right e.trans

/-- Touching fewer parts is touching at most those of a larger set. -/
theorem Touches.weaken {n : Nat} {t : State} (hw : hasParts w n = true) (h : Touches n s t) : Touches w s t := Touches.next hw (.refl w s) h

theorem Touches.modPins (f : Pins → Pins) (hf : ∀ x : Pins, (f x).rdy = true → x.rdy = true) (hw : hasParts w StPart.pins.bit = true) (h : Touches w s₀ s) :
    Touches w s₀ (s.modPins f) :=
  h.next hw ⟨rfl, id, .refl _, fun m x => m (hf _ x), id, .inr rfl, .inl rfl, .inr rfl, .inr rfl, .inr rfl, .inr rfl, .inr rfl, .inr rfl, .inr rfl, .inr rfl, .inr rfl, .inr rfl, .inr rfl, .inr rfl, .inr rfl, .inr rfl, .inr rfl, .inr rfl, .inr rfl, .inr rfl, .inr rfl, .inr rfl, .inr rfl, .inr rfl, .inr rfl, .inr rfl, .inr rfl, .inr rfl, .inr rfl, .inr rfl⟩

theorem Touches.modPwr (f : Power → Power) (hw : hasParts w StPart.pwr.bit = true) (h : Touches w s₀ s) :
    Touches w s₀ (s.modPwr f) :=
  h.next hw ⟨rfl, id, .refl _, id, id, .inr rfl, .inr rfl, .inl rfl, .inr rfl, .inr rfl, .inr rfl, .inr rfl, .inr rfl, .inr rfl, .inr rfl, .inr rfl, .inr rfl, .inr rfl, .inr rfl, .inr rfl, .inr rfl, .inr rfl, .inr rfl, .inr rfl, .inr rfl, .inr rfl, .inr rfl, .inr rfl, .inr rfl, .inr rfl, .inr rfl, .inr rfl, .inr rfl, .inr rfl, .inr rfl⟩

theorem Touches.modThm (f : Thermal → Thermal) (hw : hasParts w StPart.thm.bit = true) (h : Touches w s₀ s) :
    Touches w s₀ (s.modThm f) :=
  h.next hw ⟨rfl, id, .refl _, id, id, .inr rfl, .inr rfl, .inr rfl, .inl rfl, .inr rfl, .inr rfl, .inr rfl, .inr rfl, .inr rfl, .inr rfl, .inr rfl, .inr rfl, .inr rfl, .inr rfl, .inr rfl, .inr rfl, .inr rfl, .inr rfl, .inr rfl, .inr rfl, .inr rfl, .inr rfl, .inr rfl, .inr rfl, .inr rfl, .inr rfl, .inr rfl, .inr rfl, .inr rfl, .inr rfl⟩

theorem Touches.modClk (f : Clock → Clock) (hw : hasParts w StPart.clk.bit = true) (h : Touches w s₀ s) :
    Touches w s₀ (s.modClk f) :=
  h.next hw ⟨rfl, id, .refl _, id, id, .inr rfl, .inr rfl, .inr rfl, .inr rfl, .inl rfl, .inr rfl, .inr rfl, .inr rfl, .inr rfl, .inr rfl, .inr rfl, .inr rfl, .inr rfl, .inr rfl, .inr rfl, .inr rfl, .inr rfl, .inr rfl, .inr rfl, .inr rfl, .inr rfl, .inr rfl, .inr rfl, .inr rfl, .inr rfl, .inr rfl, .inr rfl, .inr rfl, .inr rfl, .inr rfl⟩

theorem Touches.modStart (f : StartSt → StartSt) (hf : ∀ x : StartSt, (f x).active = true → x.active = true) (hw : hasParts w StPart.start.bit = true) (h : Touches w s₀ s) :
    Touches w s₀ (s.modStart f) :=
  h.next hw ⟨rfl, id, .refl _, fun m x => Bool.eq_false_iff.mpr fun y => Bool.eq_false_iff.mp (m x) (hf _ y), id, .inr rfl, .inr rfl, .inr rfl, .inr rfl, .inr rfl, .inl rfl, .inr rfl, .inr rfl, .inr rfl, .inr rfl, .inr rfl, .inr rfl, .inr rfl, .inr rfl, .inr rfl, .inr rfl, .inr rfl, .inr rfl, .inr rfl, .inr rfl, .inr rfl, .inr rfl, .inr rfl, .inr rfl, .inr rfl, .inr rfl, .inr rfl, .inr rfl, .inr rfl, .inr rfl⟩

theorem Touches.modImg (f : ImgSt → ImgSt) (hw : hasParts w StPart.img.bit = true) (h : Touches w s₀ s) :
    Touches w s₀ (s.modImg f) :=
  h.next hw ⟨rfl, id, .refl _, id, id, .inr rfl, .inr rfl, .inr rfl, .inr rfl, .inr rfl, .inr rfl, .inl rfl, .inr rfl, .inr rfl, .inr rfl, .inr rfl, .inr rfl, .inr rfl, .inr rfl, .inr rfl, .inr rfl, .inr rfl, .inr rfl, .inr rfl, .inr rfl, .inr rfl, .inr rfl, .inr rfl, .inr rfl, .inr rfl, .inr rfl, .inr rfl, .inr rfl, .inr rfl, .inr rfl⟩

theorem Touches.modResp (f : Resp → Resp) (hw : hasParts w StPart.resp.bit = true) (h : Touches w s₀ s) :
    Touches w s₀ (s.modResp f) :=
  h.next hw ⟨rfl, id, .refl _, id, id, .inr rfl, .inr rfl, .inr rfl, .inr rfl, .inr rfl, .inr rfl, .inr rfl, .inl rfl, .inr rfl, .inr rfl, .inr rfl, .inr rfl, .inr rfl, .inr rfl, .inr rfl, .inr rfl, .inr rfl, .inr rfl, .inr rfl, .inr rfl, .inr rfl, .inr rfl, .inr rfl, .inr rfl, .inr rfl, .inr rfl, .inr rfl, .inr rfl, .inr rfl, .inr rfl⟩

theorem Touches.modTly (f : Tally → Tally) (hw : hasParts w StPart.tly.bit = true) (h : Touches w s₀ s) :
    Touches w s₀ (s.modTly f) :=
  h.next hw ⟨rfl, id, .refl _, id, id, .inr rfl, .inr rfl, .inr rfl, .inr rfl, .inr rfl, .inr rfl, .inr rfl, .inr rfl, .inl rfl, .inr rfl, .inr rfl, .inr rfl, .inr rfl, .inr rfl, .inr rfl, .inr rfl, .inr rfl, .inr rfl, .inr rfl, .inr rfl, .inr rfl, .inr rfl, .inr rfl, .inr rfl, .inr rfl, .inr rfl, .inr rfl, .inr rfl, .inr rfl, .inr rfl⟩

theorem Touches.modSpare (f : Spare → Spare) (hw : hasParts w StPart.spare.bit = true) (h : Touches w s₀ s) :
    Touches w s₀ (s.modSpare f) :=
  h.next hw ⟨rfl, id, .refl _, id, id, .inr rfl, .inr rfl, .inr rfl, .inr rfl, .inr rfl, .inr rfl, .inr rfl, .inr rfl, .inr rfl, .inl rfl, .inr rfl, .inr rfl, .inr rfl, .inr rfl, .inr rfl, .inr rfl, .inr rfl, .inr rfl, .inr rfl, .inr rfl, .inr rfl, .inr rfl, .inr rfl, .inr rfl, .inr rfl, .inr rfl, .inr rfl, .inr rfl, .inr rfl, .inr rfl⟩

theorem Touches.modBbx (f : Bbx → Bbx) (hw : hasParts w StPart.bbx.bit = true) (h : Touches w s₀ s) :
    Touches w s₀ (s.modBbx f) :=
  h.next hw ⟨rfl, id, .refl _, id, id, .inr rfl, .inr rfl, .inr rfl, .inr rfl, .inr rfl, .inr rfl, .inr rfl, .inr rfl, .inr rfl, .inr rfl, .inl rfl, .inr rfl, .inr rfl, .inr rfl, .inr rfl, .inr rfl, .inr rfl, .inr rfl, .inr rfl, .inr rfl, .inr rfl, .inr rfl, .inr rfl, .inr rfl, .inr rfl, .inr rfl, .inr rfl, .inr rfl, .inr rfl, .inr rfl⟩

theorem Touches.modLink (f : Link → Link) (hw : hasParts w StPart.link.bit = true) (h : Touches w s₀ s) :
    Touches w s₀ (s.modLink f) :=
  h.next hw ⟨rfl, id, .refl _, id, id, .inr rfl, .inr rfl, .inr rfl, .inr rfl, .inr rfl, .inr rfl, .inr rfl, .inr rfl, .inr rfl, .inr rfl, .inr rfl, .inl rfl, .inr rfl, .inr rfl, .inr rfl, .inr rfl, .inr rfl, .inr rfl, .inr rfl, .inr rfl, .inr rfl, .inr rfl, .inr rfl, .inr rfl, .inr rfl, .inr rfl, .inr rfl, .inr rfl, .inr rfl, .inr rfl⟩

theorem Touches.modCoh (f : Coh → Coh) (hf : ∀ x : Coh, memWf x.mem = true → memWf (f x).mem = true) (hw : hasParts w StPart.coh.bit = true) (h : Touches w s₀ s) :
    Touches w s₀ (s.modCoh f) :=
  h.next hw ⟨rfl, hf _, .refl _, id, id, .inr rfl, .inr rfl, .inr rfl, .inr rfl, .inr rfl, .inr rfl, .inr rfl, .inr rfl, .inr rfl, .inr rfl, .inr rfl, .inr rfl, .inl rfl, .inr rfl, .inr rfl, .inr rfl, .inr rfl, .inr rfl, .inr rfl, .inr rfl, .inr rfl, .inr rfl, .inr rfl, .inr rfl, .inr rfl, .inr rfl, .inr rfl, .inr rfl, .inr rfl, .inr rfl⟩

theorem Touches.modExt (f : Ext → Ext) (hw : hasParts w StPart.ext.bit = true) (h : Touches w s₀ s) :
    Touches w s₀ (s.modExt f) :=
  h.next hw ⟨rfl, id, .refl _, id, id, .inr rfl, .inr rfl, .inr rfl, .inr rfl, .inr rfl, .inr rfl, .inr rfl, .inr rfl, .inr rfl, .inr rfl, .inr rfl, .inr rfl, .inr rfl, .inl rfl, .inr rfl, .inr rfl, .inr rfl, .inr rfl, .inr rfl, .inr rfl, .inr rfl, .inr rfl, .inr rfl, .inr rfl, .inr rfl, .inr rfl, .inr rfl, .inr rfl, .inr rfl, .inr rfl⟩

theorem Touches.modHbm (f : Hbm → Hbm) (hw : hasParts w StPart.hbm.bit = true) (h : Touches w s₀ s) :
    Touches w s₀ (s.modHbm f) :=
  h.next hw ⟨rfl, id, .refl _, id, id, .inr rfl, .inr rfl, .inr rfl, .inr rfl, .inr rfl, .inr rfl, .inr rfl, .inr rfl, .inr rfl, .inr rfl, .inr rfl, .inr rfl, .inr rfl, .inr rfl, .inl rfl, .inr rfl, .inr rfl, .inr rfl, .inr rfl, .inr rfl, .inr rfl, .inr rfl, .inr rfl, .inr rfl, .inr rfl, .inr rfl, .inr rfl, .inr rfl, .inr rfl, .inr rfl⟩

theorem Touches.modRng (f : Rng → Rng) (hf : ∀ x : Rng, RingsOk x → RingsOk (f x)) (hw : hasParts w StPart.rng.bit = true) (h : Touches w s₀ s) :
    Touches w s₀ (s.modRng f) :=
  h.next hw ⟨rfl, id, .refl _, id, hf _, .inr rfl, .inr rfl, .inr rfl, .inr rfl, .inr rfl, .inr rfl, .inr rfl, .inr rfl, .inr rfl, .inr rfl, .inr rfl, .inr rfl, .inr rfl, .inr rfl, .inr rfl, .inl rfl, .inr rfl, .inr rfl, .inr rfl, .inr rfl, .inr rfl, .inr rfl, .inr rfl, .inr rfl, .inr rfl, .inr rfl, .inr rfl, .inr rfl, .inr rfl, .inr rfl⟩

theorem Touches.modIo (f : Io → Io) (hw : hasParts w StPart.io.bit = true) (h : Touches w s₀ s) :
    Touches w s₀ (s.modIo f) :=
  h.next hw ⟨rfl, id, .refl _, id, id, .inr rfl, .inr rfl, .inr rfl, .inr rfl, .inr rfl, .inr rfl, .inr rfl, .inr rfl, .inr rfl, .inr rfl, .inr rfl, .inr rfl, .inr rfl, .inr rfl, .inr rfl, .inr rfl, .inl rfl, .inr rfl, .inr rfl, .inr rfl, .inr rfl, .inr rfl, .inr rfl, .inr rfl, .inr rfl, .inr rfl, .inr rfl, .inr rfl, .inr rfl, .inr rfl⟩

theorem Touches.modSeqs (f : Seqs → Seqs) (hw : hasParts w StPart.seqs.bit = true) (h : Touches w s₀ s) :
    Touches w s₀ (s.modSeqs f) :=
  h.next hw ⟨rfl, id, .refl _, id, id, .inr rfl, .inr rfl, .inr rfl, .inr rfl, .inr rfl, .inr rfl, .inr rfl, .inr rfl, .inr rfl, .inr rfl, .inr rfl, .inr rfl, .inr rfl, .inr rfl, .inr rfl, .inr rfl, .inr rfl, .inl rfl, .inr rfl, .inr rfl, .inr rfl, .inr rfl, .inr rfl, .inr rfl, .inr rfl, .inr rfl, .inr rfl, .inr rfl, .inr rfl, .inr rfl⟩

theorem Touches.modPfx (f : Pfx → Pfx) (hw : hasParts w StPart.pfx.bit = true) (h : Touches w s₀ s) :
    Touches w s₀ (s.modPfx f) :=
  h.next hw ⟨rfl, id, .refl _, id, id, .inr rfl, .inr rfl, .inr rfl, .inr rfl, .inr rfl, .inr rfl, .inr rfl, .inr rfl, .inr rfl, .inr rfl, .inr rfl, .inr rfl, .inr rfl, .inr rfl, .inr rfl, .inr rfl, .inr rfl, .inr rfl, .inl rfl, .inr rfl, .inr rfl, .inr rfl, .inr rfl, .inr rfl, .inr rfl, .inr rfl, .inr rfl, .inr rfl, .inr rfl, .inr rfl⟩

theorem Touches.modCasc (f : Casc → Casc) (hw : hasParts w StPart.casc.bit = true) (h : Touches w s₀ s) :
    Touches w s₀ (s.modCasc f) :=
  h.next hw ⟨rfl, id, .refl _, id, id, .inr rfl, .inr rfl, .inr rfl, .inr rfl, .inr rfl, .inr rfl, .inr rfl, .inr rfl, .inr rfl, .inr rfl, .inr rfl, .inr rfl, .inr rfl, .inr rfl, .inr rfl, .inr rfl, .inr rfl, .inr rfl, .inr rfl, .inl rfl, .inr rfl, .inr rfl, .inr rfl, .inr rfl, .inr rfl, .inr rfl, .inr rfl, .inr rfl, .inr rfl, .inr rfl⟩

theorem Touches.modOps (f : Ops → Ops) (hw : hasParts w StPart.ops.bit = true) (h : Touches w s₀ s) :
    Touches w s₀ (s.modOps f) :=
  h.next hw ⟨rfl, id, .refl _, id, id, .inr rfl, .inr rfl, .inr rfl, .inr rfl, .inr rfl, .inr rfl, .inr rfl, .inr rfl, .inr rfl, .inr rfl, .inr rfl, .inr rfl, .inr rfl, .inr rfl, .inr rfl, .inr rfl, .inr rfl, .inr rfl, .inr rfl, .inr rfl, .inl rfl, .inr rfl, .inr rfl, .inr rfl, .inr rfl, .inr rfl, .inr rfl, .inr rfl, .inr rfl, .inr rfl⟩

theorem Touches.modAttn (f : Attn → Attn) (hw : hasParts w StPart.attn.bit = true) (h : Touches w s₀ s) :
    Touches w s₀ (s.modAttn f) :=
  h.next hw ⟨rfl, id, .refl _, id, id, .inr rfl, .inr rfl, .inr rfl, .inr rfl, .inr rfl, .inr rfl, .inr rfl, .inr rfl, .inr rfl, .inr rfl, .inr rfl, .inr rfl, .inr rfl, .inr rfl, .inr rfl, .inr rfl, .inr rfl, .inr rfl, .inr rfl, .inr rfl, .inr rfl, .inl rfl, .inr rfl, .inr rfl, .inr rfl, .inr rfl, .inr rfl, .inr rfl, .inr rfl, .inr rfl⟩

theorem Touches.modCore (f : Cores → Cores) (hw : hasParts w StPart.core.bit = true) (h : Touches w s₀ s) :
    Touches w s₀ (s.modCore f) :=
  h.next hw ⟨rfl, id, .refl _, id, id, .inr rfl, .inr rfl, .inr rfl, .inr rfl, .inr rfl, .inr rfl, .inr rfl, .inr rfl, .inr rfl, .inr rfl, .inr rfl, .inr rfl, .inr rfl, .inr rfl, .inr rfl, .inr rfl, .inr rfl, .inr rfl, .inr rfl, .inr rfl, .inr rfl, .inr rfl, .inl rfl, .inr rfl, .inr rfl, .inr rfl, .inr rfl, .inr rfl, .inr rfl, .inr rfl⟩

theorem Touches.modCdc (f : Cdc → Cdc) (hw : hasParts w StPart.cdc.bit = true) (h : Touches w s₀ s) :
    Touches w s₀ (s.modCdc f) :=
  h.next hw ⟨rfl, id, .refl _, id, id, .inr rfl, .inr rfl, .inr rfl, .inr rfl, .inr rfl, .inr rfl, .inr rfl, .inr rfl, .inr rfl, .inr rfl, .inr rfl, .inr rfl, .inr rfl, .inr rfl, .inr rfl, .inr rfl, .inr rfl, .inr rfl, .inr rfl, .inr rfl, .inr rfl, .inr rfl, .inr rfl, .inl rfl, .inr rfl, .inr rfl, .inr rfl, .inr rfl, .inr rfl, .inr rfl⟩

theorem Touches.modTier (f : Tiers → Tiers) (hw : hasParts w StPart.tier.bit = true) (h : Touches w s₀ s) :
    Touches w s₀ (s.modTier f) :=
  h.next hw ⟨rfl, id, .refl _, id, id, .inr rfl, .inr rfl, .inr rfl, .inr rfl, .inr rfl, .inr rfl, .inr rfl, .inr rfl, .inr rfl, .inr rfl, .inr rfl, .inr rfl, .inr rfl, .inr rfl, .inr rfl, .inr rfl, .inr rfl, .inr rfl, .inr rfl, .inr rfl, .inr rfl, .inr rfl, .inr rfl, .inr rfl, .inl rfl, .inr rfl, .inr rfl, .inr rfl, .inr rfl, .inr rfl⟩

theorem Touches.modWt (f : Wt → Wt) (hw : hasParts w StPart.wt.bit = true) (h : Touches w s₀ s) :
    Touches w s₀ (s.modWt f) :=
  h.next hw ⟨rfl, id, .refl _, id, id, .inr rfl, .inr rfl, .inr rfl, .inr rfl, .inr rfl, .inr rfl, .inr rfl, .inr rfl, .inr rfl, .inr rfl, .inr rfl, .inr rfl, .inr rfl, .inr rfl, .inr rfl, .inr rfl, .inr rfl, .inr rfl, .inr rfl, .inr rfl, .inr rfl, .inr rfl, .inr rfl, .inr rfl, .inr rfl, .inl rfl, .inr rfl, .inr rfl, .inr rfl, .inr rfl⟩

theorem Touches.modFtl (f : Ftl → Ftl) (hw : hasParts w StPart.ftl.bit = true) (h : Touches w s₀ s) :
    Touches w s₀ (s.modFtl f) :=
  h.next hw ⟨rfl, id, .refl _, id, id, .inr rfl, .inr rfl, .inr rfl, .inr rfl, .inr rfl, .inr rfl, .inr rfl, .inr rfl, .inr rfl, .inr rfl, .inr rfl, .inr rfl, .inr rfl, .inr rfl, .inr rfl, .inr rfl, .inr rfl, .inr rfl, .inr rfl, .inr rfl, .inr rfl, .inr rfl, .inr rfl, .inr rfl, .inr rfl, .inr rfl, .inl rfl, .inr rfl, .inr rfl, .inr rfl⟩

theorem Touches.modSch (f : Sch → Sch) (hw : hasParts w StPart.sch.bit = true) (h : Touches w s₀ s) :
    Touches w s₀ (s.modSch f) :=
  h.next hw ⟨rfl, id, .refl _, id, id, .inr rfl, .inr rfl, .inr rfl, .inr rfl, .inr rfl, .inr rfl, .inr rfl, .inr rfl, .inr rfl, .inr rfl, .inr rfl, .inr rfl, .inr rfl, .inr rfl, .inr rfl, .inr rfl, .inr rfl, .inr rfl, .inr rfl, .inr rfl, .inr rfl, .inr rfl, .inr rfl, .inr rfl, .inr rfl, .inr rfl, .inr rfl, .inl rfl, .inr rfl, .inr rfl⟩

theorem Touches.modSec (f : Sec → Sec) (hf : ∀ x : Sec, FusesKept x.roots (f x).roots) (hw : hasParts w StPart.sec.bit = true) (h : Touches w s₀ s) :
    Touches w s₀ (s.modSec f) :=
  h.next hw ⟨rfl, id, hf _, id, id, .inr rfl, .inr rfl, .inr rfl, .inr rfl, .inr rfl, .inr rfl, .inr rfl, .inr rfl, .inr rfl, .inr rfl, .inr rfl, .inr rfl, .inr rfl, .inr rfl, .inr rfl, .inr rfl, .inr rfl, .inr rfl, .inr rfl, .inr rfl, .inr rfl, .inr rfl, .inr rfl, .inr rfl, .inr rfl, .inr rfl, .inr rfl, .inr rfl, .inl rfl, .inr rfl⟩

theorem Touches.modMgmt (f : Mgmt → Mgmt) (hw : hasParts w StPart.mgmt.bit = true) (h : Touches w s₀ s) :
    Touches w s₀ (s.modMgmt f) :=
  h.next hw ⟨rfl, id, .refl _, id, id, .inr rfl, .inr rfl, .inr rfl, .inr rfl, .inr rfl, .inr rfl, .inr rfl, .inr rfl, .inr rfl, .inr rfl, .inr rfl, .inr rfl, .inr rfl, .inr rfl, .inr rfl, .inr rfl, .inr rfl, .inr rfl, .inr rfl, .inr rfl, .inr rfl, .inr rfl, .inr rfl, .inr rfl, .inr rfl, .inr rfl, .inr rfl, .inr rfl, .inr rfl, .inl rfl⟩

theorem Touches.draw (hw : hasParts w StPart.free.bit = true) (h : Touches w s₀ s) : Touches w s₀ s.draw :=
  h.next hw ⟨rfl, id, .refl _, id, id, .inl rfl, .inr rfl, .inr rfl, .inr rfl, .inr rfl, .inr rfl, .inr rfl, .inr rfl, .inr rfl, .inr rfl, .inr rfl, .inr rfl, .inr rfl, .inr rfl, .inr rfl, .inr rfl, .inr rfl, .inr rfl, .inr rfl, .inr rfl, .inr rfl, .inr rfl, .inr rfl, .inr rfl, .inr rfl, .inr rfl, .inr rfl, .inr rfl, .inr rfl, .inr rfl⟩

/-! ### Forms of a meaning's text -/

theorem Touches.ite {c : Prop} [Decidable c] {a b : State} (ha : Touches w s₀ a) (hb : Touches w s₀ b) :
    Touches w s₀ (if c then a else b) := by
  split
  · exact ha
  · exact hb

theorem Touches.ite_snd {α : Type} {c : Prop} [Decidable c] {a b : α × State} (ha : Touches w s₀ a.2) (hb : Touches w s₀ b.2) :
    Touches w s₀ (if c then a else b).2 := by
  split
  · exact ha
  · exact hb

theorem Touches.of_snd {α : Type} {p : α × State} {x : α} {t : State} (e : p = (x, t)) (h : Touches w s₀ p.2) :
    Touches w s₀ t := by
  rw [e] at h
  exact h

theorem Touches.of_snd3 {α β : Type} {p : α × β × State} {x : α} {y : β} {t : State} (e : p = (x, y, t))
    (h : Touches w s₀ p.2.2) : Touches w s₀ t := by
  rw [e] at h
  exact h

/-! ### Answers that may carry a state -/

/-- The state an answer carries, if any, was touched in the parts `w` only. -/
def optTouched (w : Nat) (s₀ : State) : Option (State) → Prop
  | none => True
  | some r => Touches w s₀ r

theorem optTouched_none : optTouched w s₀ none := trivial

theorem optTouched_some {r : State} (h : Touches w s₀ r) : optTouched w s₀ (some r) := h

theorem Touches.of_optTouched {o : Option (State)} {t : State} (e : o = some t) (h : optTouched w s₀ o) : Touches w s₀ t := by
  rw [e] at h
  exact h

theorem optTouched_map {ρ : Type} {o : Option ρ} {f : ρ → State} (h : ∀ r, o = some r → Touches w s₀ (f r)) :
    optTouched w s₀ (o.map f) := by
  cases o with
  | none => trivial
  | some r => exact h r rfl

theorem optTouched_bind {ρ : Type} {o : Option ρ} {f : ρ → Option State} (h : ∀ r, o = some r → optTouched w s₀ (f r)) :
    optTouched w s₀ (o.bind f) := by
  cases o with
  | none => trivial
  | some r => exact h r rfl

theorem Touches.getD {o : Option State} (ho : optTouched w s₀ o) (h : Touches w s₀ s) : Touches w s₀ (o.getD s) := by
  cases o with
  | none => exact h
  | some r => exact ho

theorem optTouched_foldl {α : Type} (l : List α) (f : Option State → α → Option State)
    (hf : ∀ o x, optTouched w s₀ o → optTouched w s₀ (f o x)) {o : Option State} (h : optTouched w s₀ o) :
    optTouched w s₀ (l.foldl f o) := by
  induction l generalizing o with
  | nil => exact h
  | cons x r ih => exact ih (hf o x h)

/-- The state an answer carries, if any, was touched in the parts `w` only. -/
def optTouched2 {α : Type} (w : Nat) (s₀ : State) : Option (α × State) → Prop
  | none => True
  | some r => Touches w s₀ r.2

theorem optTouched2_none {α : Type} : optTouched2 w s₀ (none : Option (α × State)) := trivial

theorem optTouched2_some {α : Type} {r : α × State} (h : Touches w s₀ r.2) : optTouched2 w s₀ (some r) := h

theorem Touches.of_optTouched2 {α : Type} {o : Option (α × State)} {x : α} {t : State} (e : o = some (x, t)) (h : optTouched2 w s₀ o) : Touches w s₀ t := by
  rw [e] at h
  exact h

theorem Touches.of_optTouched2_fst {α : Type} {o : Option (α × State)} {r : α × State} (e : o = some r) (h : optTouched2 w s₀ o) : Touches w s₀ r.2 := by
  rw [e] at h
  exact h

theorem optTouched2_map {α : Type} {ρ : Type} {o : Option ρ} {f : ρ → α × State} (h : ∀ r, o = some r → Touches w s₀ (f r).2) :
    optTouched2 w s₀ (o.map f) := by
  cases o with
  | none => trivial
  | some r => exact h r rfl

theorem optTouched2_bind {α : Type} {ρ : Type} {o : Option ρ} {f : ρ → Option (α × State)} (h : ∀ r, o = some r → optTouched2 w s₀ (f r)) :
    optTouched2 w s₀ (o.bind f) := by
  cases o with
  | none => trivial
  | some r => exact h r rfl

theorem optTouched2_foldl {α : Type} {ι : Type} (l : List ι) (f : Option (α × State) → ι → Option (α × State))
    (hf : ∀ o x, optTouched2 w s₀ o → optTouched2 w s₀ (f o x)) {o : Option (α × State)} (h : optTouched2 w s₀ o) :
    optTouched2 w s₀ (l.foldl f o) := by
  induction l generalizing o with
  | nil => exact h
  | cons x r ih => exact ih (hf o x h)

theorem Touches.getD_snd {α : Type} {o : Option (α × State)} {d : α × State} (ho : optTouched2 w s₀ o)
    (h : Touches w s₀ d.2) : Touches w s₀ (o.getD d).2 := by
  cases o with
  | none => exact h
  | some r => exact ho

/-- The state an answer carries, if any, was touched in the parts `w` only. -/
def optTouched3 {α β : Type} (w : Nat) (s₀ : State) : Option (α × β × State) → Prop
  | none => True
  | some r => Touches w s₀ r.2.2

theorem optTouched3_none {α β : Type} : optTouched3 w s₀ (none : Option (α × β × State)) := trivial

theorem optTouched3_some {α β : Type} {r : α × β × State} (h : Touches w s₀ r.2.2) : optTouched3 w s₀ (some r) := h

theorem Touches.of_optTouched3 {α β : Type} {o : Option (α × β × State)} {x : α} {y : β} {t : State} (e : o = some (x, y, t)) (h : optTouched3 w s₀ o) : Touches w s₀ t := by
  rw [e] at h
  exact h

theorem Touches.of_optTouched3_fst {α β : Type} {o : Option (α × β × State)} {r : α × β × State} (e : o = some r) (h : optTouched3 w s₀ o) : Touches w s₀ r.2.2 := by
  rw [e] at h
  exact h

theorem optTouched3_map {α β : Type} {ρ : Type} {o : Option ρ} {f : ρ → α × β × State} (h : ∀ r, o = some r → Touches w s₀ (f r).2.2) :
    optTouched3 w s₀ (o.map f) := by
  cases o with
  | none => trivial
  | some r => exact h r rfl

theorem optTouched3_bind {α β : Type} {ρ : Type} {o : Option ρ} {f : ρ → Option (α × β × State)} (h : ∀ r, o = some r → optTouched3 w s₀ (f r)) :
    optTouched3 w s₀ (o.bind f) := by
  cases o with
  | none => trivial
  | some r => exact h r rfl

theorem optTouched3_foldl {α β : Type} {ι : Type} (l : List ι) (f : Option (α × β × State) → ι → Option (α × β × State))
    (hf : ∀ o x, optTouched3 w s₀ o → optTouched3 w s₀ (f o x)) {o : Option (α × β × State)} (h : optTouched3 w s₀ o) :
    optTouched3 w s₀ (l.foldl f o) := by
  induction l generalizing o with
  | nil => exact h
  | cons x r ih => exact ih (hf o x h)

/-- The state an answer carries, if any, was touched in the parts `w` only. -/
def optTouched4 {α β γ : Type} (w : Nat) (s₀ : State) : Option (α × β × γ × State) → Prop
  | none => True
  | some r => Touches w s₀ r.2.2.2

theorem optTouched4_none {α β γ : Type} : optTouched4 w s₀ (none : Option (α × β × γ × State)) := trivial

theorem optTouched4_some {α β γ : Type} {r : α × β × γ × State} (h : Touches w s₀ r.2.2.2) : optTouched4 w s₀ (some r) := h

theorem Touches.of_optTouched4 {α β γ : Type} {o : Option (α × β × γ × State)} {x : α} {y : β} {z : γ} {t : State} (e : o = some (x, y, z, t)) (h : optTouched4 w s₀ o) : Touches w s₀ t := by
  rw [e] at h
  exact h

theorem Touches.of_optTouched4_fst {α β γ : Type} {o : Option (α × β × γ × State)} {r : α × β × γ × State} (e : o = some r) (h : optTouched4 w s₀ o) : Touches w s₀ r.2.2.2 := by
  rw [e] at h
  exact h

theorem optTouched4_map {α β γ : Type} {ρ : Type} {o : Option ρ} {f : ρ → α × β × γ × State} (h : ∀ r, o = some r → Touches w s₀ (f r).2.2.2) :
    optTouched4 w s₀ (o.map f) := by
  cases o with
  | none => trivial
  | some r => exact h r rfl

theorem optTouched4_bind {α β γ : Type} {ρ : Type} {o : Option ρ} {f : ρ → Option (α × β × γ × State)} (h : ∀ r, o = some r → optTouched4 w s₀ (f r)) :
    optTouched4 w s₀ (o.bind f) := by
  cases o with
  | none => trivial
  | some r => exact h r rfl

theorem optTouched4_foldl {α β γ : Type} {ι : Type} (l : List ι) (f : Option (α × β × γ × State) → ι → Option (α × β × γ × State))
    (hf : ∀ o x, optTouched4 w s₀ o → optTouched4 w s₀ (f o x)) {o : Option (α × β × γ × State)} (h : optTouched4 w s₀ o) :
    optTouched4 w s₀ (l.foldl f o) := by
  induction l generalizing o with
  | nil => exact h
  | cons x r ih => exact ih (hf o x h)

theorem Touches.forEach {α : Type} (l : List α) (f : α → State → State) (hf : ∀ x t, Touches w s₀ t → Touches w s₀ (f x t))
    (h : Touches w s₀ s) : Touches w s₀ (Machine.forEach l f s) := by
  unfold Machine.forEach
  induction l generalizing s with
  | nil => exact h
  | cons x r ih => exact ih (hf x s h)

theorem Touches.foldl {α : Type} (l : List α) (f : State → α → State) (hf : ∀ t x, Touches w s₀ t → Touches w s₀ (f t x))
    (h : Touches w s₀ s) : Touches w s₀ (l.foldl f s) := by
  induction l generalizing s with
  | nil => exact h
  | cons x r ih => exact ih (hf s x h)

theorem Touches.foldl_snd {α β : Type} (l : List α) (f : β × State → α → β × State) (p : β × State)
    (hf : ∀ q x, Touches w s₀ q.2 → Touches w s₀ (f q x).2) (h : Touches w s₀ p.2) : Touches w s₀ (l.foldl f p).2 := by
  induction l generalizing p with
  | nil => exact h
  | cons x r ih => exact ih (f p x) (hf p x h)

theorem Touches.foldl_snd3 {α β γ : Type} (l : List α) (f : β × γ × State → α → β × γ × State) (p : β × γ × State)
    (hf : ∀ q x, Touches w s₀ q.2.2 → Touches w s₀ (f q x).2.2) (h : Touches w s₀ p.2.2) :
    Touches w s₀ (l.foldl f p).2.2 := by
  induction l generalizing p with
  | nil => exact h
  | cons x r ih => exact ih (f p x) (hf p x h)

theorem Touches.when (b : Bool) (f : State → State) (hf : ∀ t, Touches w s₀ t → Touches w s₀ (f t)) (h : Touches w s₀ s) :
    Touches w s₀ (Machine.when b f s) := by
  unfold Machine.when
  exact Touches.ite (hf s h) h

end Sys2Proof.Machine
end

