-- ==== Sys2Proof/Laws/OpsTouches.lean ====
section
/-! SUPPORT. Which parts of State the operations of Machine/Ops.lean may touch: one lemma per operation. -/

namespace Sys2Proof.Machine

open Sys2Proof

variable {μ : Nat} {s₀ s : State}

theorem fresh_touches (w : Nat) (hμ : hasParts μ (partSet [.free]) = true) (hs : Touches μ s₀ s) :
    Touches μ s₀ (fresh w s).2 := by
  unfold fresh
  repeat' (first
    | with_reducible assumption | ((with_reducible refine hasParts_trans hμ ?_); rfl)
    | with_reducible apply Touches.draw)

theorem emit_touches (cls unit code : Nat) (args : List Nat) (hμ : hasParts μ (partSet [.bbx]) = true) (hs : Touches μ
    s₀ s) :
    Touches μ s₀ (emit cls unit code args s) := by
  unfold emit
  repeat' (first
    | with_reducible assumption | with_reducible intro _ | ((with_reducible refine hasParts_trans hμ ?_); rfl)
    | with_reducible apply Touches.modBbx)

theorem tlyWriteRaw_touches (w : Nat) (v : BitVec 32) (hμ : hasParts μ (partSet [.tly, .bbx]) = true) (hs : Touches μ
    s₀ s) :
    Touches μ s₀ (tlyWriteRaw w v s) := by
  unfold tlyWriteRaw
  repeat' (first
    | with_reducible assumption | with_reducible intro _ | ((with_reducible refine hasParts_trans hμ ?_); rfl)
    | with_reducible apply Touches.ite | with_reducible apply Touches.modTly | with_reducible apply Touches.when
    | with_reducible apply emit_touches | split | dsimp only)

theorem pairWrite_touches (a : Nat) (v : BitVec 32) (hμ : hasParts μ (partSet [.tly, .bbx]) = true) (hs : Touches μ s₀
    s) :
    Touches μ s₀ (pairWrite a v s) := by
  unfold pairWrite
  repeat' (first
    | with_reducible assumption | ((with_reducible refine hasParts_trans hμ ?_); rfl)
    | with_reducible apply tlyWriteRaw_touches)

theorem bumpSpareGen_touches (hμ : hasParts μ (partSet [.tly, .bbx]) = true) (hs : Touches μ s₀ s) :
    Touches μ s₀ (bumpSpareGen s) := by
  unfold bumpSpareGen
  repeat' (first
    | with_reducible assumption | ((with_reducible refine hasParts_trans hμ ?_); rfl)
    | with_reducible apply pairWrite_touches)

theorem tlyWrite_touches (w : Nat) (v : BitVec 32) (hμ : hasParts μ (partSet [.tly, .bbx]) = true) (hs : Touches μ s₀
    s) :
    Touches μ s₀ (tlyWrite w v s) := by
  unfold tlyWrite
  repeat' (first
    | with_reducible assumption | with_reducible intro _ | ((with_reducible refine hasParts_trans hμ ?_); rfl)
    | with_reducible apply Touches.when | with_reducible apply tlyWriteRaw_touches
    | with_reducible apply bumpSpareGen_touches)

theorem spareWrite_touches (w : Nat) (v : Nat) (hμ : hasParts μ (partSet [.tly, .bbx]) = true) (hs : Touches μ s₀ s) :
    Touches μ s₀ (spareWrite w v s) := by
  unfold spareWrite
  repeat' (first
    | with_reducible assumption | ((with_reducible refine hasParts_trans hμ ?_); rfl)
    | with_reducible apply tlyWrite_touches | with_reducible apply bumpSpareGen_touches)

theorem spareSet_touches (w : Nat) (v : Nat) (hμ : hasParts μ (partSet [.tly, .spare, .bbx]) = true) (hs : Touches μ
    s₀ s) :
    Touches μ s₀ (spareSet w v s) := by
  unfold spareSet
  repeat' (first
    | with_reducible assumption | with_reducible intro _ | ((with_reducible refine hasParts_trans hμ ?_); rfl)
    | with_reducible apply Touches.ite | with_reducible apply Touches.modSpare
    | with_reducible apply spareWrite_touches | split | dsimp only)

theorem freeze_touches (cls : Nat) (hμ : hasParts μ (partSet [.bbx]) = true) (hs : Touches μ s₀ s) :
    Touches μ s₀ (freeze cls s) := by
  unfold freeze
  repeat' (first
    | with_reducible assumption | with_reducible intro _ | ((with_reducible refine hasParts_trans hμ ?_); rfl)
    | with_reducible apply Touches.ite | with_reducible apply Touches.modBbx | split | dsimp only)

theorem setLed_touches (l : Led) (hμ : hasParts μ (partSet [.pins]) = true) (hs : Touches μ s₀ s) :
    Touches μ s₀ (setLed l s) := by
  unfold setLed
  repeat' (first
    | with_reducible assumption | exact fun _ q => q | exact fun _ q => absurd q Bool.false_ne_true
    | with_reducible intro _ | ((with_reducible refine hasParts_trans hμ ?_); rfl)
    | with_reducible apply Touches.modPins)

theorem driveMaster_touches (hμ : hasParts μ (partSet [.pins]) = true) (hs : Touches μ s₀ s) :
    Touches μ s₀ (driveMaster s) := by
  unfold driveMaster
  repeat' (first
    | with_reducible assumption | exact fun _ q => q | exact fun _ q => absurd q Bool.false_ne_true
    | with_reducible intro _ | ((with_reducible refine hasParts_trans hμ ?_); rfl)
    | with_reducible apply Touches.modPins)

theorem dropRdy_touches (hμ : hasParts μ (partSet [.pins, .casc]) = true) (hs : Touches μ s₀ s) :
    Touches μ s₀ (dropRdy s) := by
  unfold dropRdy
  repeat' (first
    | with_reducible assumption | exact fun _ q => q | exact fun _ q => absurd q Bool.false_ne_true
    | with_reducible intro _ | ((with_reducible refine hasParts_trans hμ ?_); rfl) | with_reducible apply Touches.ite
    | with_reducible apply Touches.modPins | with_reducible apply Touches.modCasc
    | with_reducible apply driveMaster_touches | split | dsimp only)

theorem driveTherm_touches (hμ : hasParts μ (partSet [.pins]) = true) (hs : Touches μ s₀ s) :
    Touches μ s₀ (driveTherm s) := by
  unfold driveTherm
  repeat' (first
    | with_reducible assumption | exact fun _ q => q | exact fun _ q => absurd q Bool.false_ne_true
    | with_reducible intro _ | ((with_reducible refine hasParts_trans hμ ?_); rfl)
    | with_reducible apply Touches.modPins)

theorem assertFault_touches (cls : Nat) (hμ : hasParts μ (partSet [.pins, .resp]) = true) (hs : Touches μ s₀ s) :
    Touches μ s₀ (assertFault cls s) := by
  unfold assertFault
  repeat' (first
    | with_reducible assumption | exact fun _ q => q | exact fun _ q => absurd q Bool.false_ne_true
    | with_reducible intro _ | ((with_reducible refine hasParts_trans hμ ?_); rfl)
    | with_reducible apply Touches.modPins | with_reducible apply Touches.modResp)

theorem setSafe_touches (hμ : hasParts μ (partSet [.pins, .pwr]) = true) (hs : Touches μ s₀ s) :
    Touches μ s₀ (setSafe s) := by
  unfold setSafe
  repeat' (first
    | with_reducible assumption | with_reducible intro _ | ((with_reducible refine hasParts_trans hμ ?_); rfl)
    | with_reducible apply Touches.modPwr | with_reducible apply setLed_touches)

theorem working_touches (f : State → State) (hf : ∀ t, Touches μ s₀ t → Touches μ s₀ (f t)) (hs : Touches μ s₀ s) :
    Touches μ s₀ (working f s) := by
  unfold working
  repeat' (first
    | with_reducible assumption | with_reducible apply Touches.ite | with_reducible apply hf | split)

theorem unlessStopped_touches (f : State → State) (hf : ∀ t, Touches μ s₀ t → Touches μ s₀ (f t)) (hs : Touches μ s₀
    s) :
    Touches μ s₀ (unlessStopped f s) := by
  unfold unlessStopped
  repeat' (first
    | with_reducible assumption | with_reducible apply Touches.ite | with_reducible apply hf | split)

theorem modCtx_touches (c : Nat) (f : Ctx → Ctx) (hμ : hasParts μ (partSet [.sch]) = true) (hs : Touches μ s₀ s) :
    Touches μ s₀ (modCtx c f s) := by
  unfold modCtx
  repeat' (first
    | with_reducible assumption | with_reducible intro _ | ((with_reducible refine hasParts_trans hμ ?_); rfl)
    | with_reducible apply Touches.modSch)

theorem modPart_touches (p : Nat) (f : Part → Part) (hμ : hasParts μ (partSet [.sch]) = true) (hs : Touches μ s₀ s) :
    Touches μ s₀ (modPart p f s) := by
  unfold modPart
  repeat' (first
    | with_reducible assumption | with_reducible intro _ | ((with_reducible refine hasParts_trans hμ ?_); rfl)
    | with_reducible apply Touches.modSch)

theorem keepChoice_touches (dst vc : Nat) (port : Option Nat) (hμ : hasParts μ (partSet [.link]) = true) (hs : Touches
    μ s₀ s) :
    Touches μ s₀ (keepChoice dst vc port s) := by
  unfold keepChoice
  repeat' (first
    | with_reducible assumption | with_reducible intro _ | ((with_reducible refine hasParts_trans hμ ?_); rfl)
    | with_reducible apply Touches.ite | with_reducible apply Touches.modLink | split)

theorem pushFlits_touches (port input : Nat) (fs : List (List Byte)) (hμ : hasParts μ (partSet [.link]) = true) (hs :
    Touches μ s₀ s) :
    Touches μ s₀ (pushFlits port input fs s) := by
  unfold pushFlits
  repeat' (first
    | with_reducible assumption | with_reducible intro _ | ((with_reducible refine hasParts_trans hμ ?_); rfl)
    | with_reducible apply Touches.modLink)

theorem sendVia_touches (port : Option Nat) (m : OutMsg) (hμ : hasParts μ (partSet [.link, .sec]) = true) (hs :
    Touches μ s₀ s) :
    Touches μ s₀ (sendVia port m s) := by
  unfold sendVia
  repeat' (first
    | with_reducible assumption | exact fun _ => FusesKept.refl _ | with_reducible intro _
    | ((with_reducible refine hasParts_trans hμ ?_); rfl) | with_reducible apply Touches.ite
    | with_reducible apply Touches.modLink | with_reducible apply Touches.modSec
    | with_reducible apply pushFlits_touches | split | dsimp only)

theorem send_touches (m : OutMsg) (hμ : hasParts μ (partSet [.link, .sec]) = true) (hs : Touches μ s₀ s) :
    Touches μ s₀ (send m s) := by
  unfold send
  repeat' (first
    | with_reducible assumption | ((with_reducible refine hasParts_trans hμ ?_); rfl)
    | with_reducible apply Touches.ite | with_reducible apply sendVia_touches
    | with_reducible apply keepChoice_touches | split | dsimp only)

theorem reply_touches (h : Hdr) (typ vc status flags : Nat) (body : List Byte) (hμ : hasParts μ (partSet [.link,
    .sec]) = true) (hs : Touches μ s₀ s) :
    Touches μ s₀ (reply h typ vc status flags body s) := by
  unfold reply
  repeat' (first
    | with_reducible assumption | ((with_reducible refine hasParts_trans hμ ?_); rfl)
    | with_reducible apply send_touches)

theorem nakTo_touches (h : Hdr) (status : Nat) (hμ : hasParts μ (partSet [.link, .sec]) = true) (hs : Touches μ s₀ s)
    :
    Touches μ s₀ (nakTo h status s) := by
  unfold nakTo
  repeat' (first
    | with_reducible assumption | ((with_reducible refine hasParts_trans hμ ?_); rfl)
    | with_reducible apply reply_touches)

theorem modPort_touches (n : Nat) (f : Port → Port) (hμ : hasParts μ (partSet [.link]) = true) (hs : Touches μ s₀ s) :
    Touches μ s₀ (modPort n f s) := by
  unfold modPort
  repeat' (first
    | with_reducible assumption | with_reducible intro _ | ((with_reducible refine hasParts_trans hμ ?_); rfl)
    | with_reducible apply Touches.modLink)

theorem countNokey_touches (n : Nat) (hμ : hasParts μ (partSet [.link]) = true) (hs : Touches μ s₀ s) :
    Touches μ s₀ (countNokey n s) := by
  unfold countNokey
  repeat' (first
    | with_reducible assumption | with_reducible intro _ | ((with_reducible refine hasParts_trans hμ ?_); rfl)
    | with_reducible apply modPort_touches)

theorem takeMsg_touches (h : Hdr) (typ : Nat) (f : State → State) (hf : ∀ t, Touches μ s₀ t → Touches μ s₀ (f t)) (hμ
    : hasParts μ (partSet [.link]) = true) (hs : Touches μ s₀ s) :
    Touches μ s₀ (takeMsg h typ f s) := by
  unfold takeMsg
  repeat' (first
    | with_reducible assumption | with_reducible intro _ | ((with_reducible refine hasParts_trans hμ ?_); rfl)
    | with_reducible apply Touches.ite | with_reducible apply Touches.modLink
    | with_reducible apply countNokey_touches | with_reducible apply hf | split | dsimp only)

theorem modRing_touches (n : Nat) (f : Ring → Ring) (hf : ∀ r, RingOk r → RingOk (f r)) (hμ : hasParts μ (partSet
    [.rng]) = true) (hs : Touches μ s₀ s) :
    Touches μ s₀ (modRing n f s) := by
  unfold modRing
  exact Touches.modRng _ (fun _ q => RingsOk.mmod n f hf rfl q) (hasParts_trans hμ rfl) hs

theorem endEntry_touches (ring idx : Nat) (a : Ans) (solo : Nat) (hμ : hasParts μ (partSet [.rng, .sch]) = true) (hs :
    Touches μ s₀ s) :
    Touches μ s₀ (endEntry ring idx a solo s) := by
  unfold endEntry
  repeat' (first
    | with_reducible assumption | exact fun _ q => RingOk.map _ (fun e => by split <;> rfl) rfl rfl q
    | exact fun _ q => RingOk.filter _ rfl rfl q | exact fun _ q => q | with_reducible intro _
    | ((with_reducible refine hasParts_trans hμ ?_); rfl) | with_reducible apply Touches.ite
    | with_reducible apply modRing_touches | with_reducible apply modCtx_touches | split | dsimp only)

theorem abortEntry_touches (ring idx : Nat) (hμ : hasParts μ (partSet [.rng]) = true) (hs : Touches μ s₀ s) :
    Touches μ s₀ (abortEntry ring idx s) := by
  unfold abortEntry
  repeat' (first
    | with_reducible assumption | exact fun _ q => RingOk.map _ (fun e => by split <;> rfl) rfl rfl q
    | exact fun _ q => RingOk.filter _ rfl rfl q | exact fun _ q => q | with_reducible intro _
    | ((with_reducible refine hasParts_trans hμ ?_); rfl) | with_reducible apply modRing_touches)

theorem markStarted_touches (ring idx : Nat) (hμ : hasParts μ (partSet [.rng]) = true) (hs : Touches μ s₀ s) :
    Touches μ s₀ (markStarted ring idx s) := by
  unfold markStarted
  repeat' (first
    | with_reducible assumption | exact fun _ q => RingOk.map _ (fun e => by split <;> rfl) rfl rfl q
    | exact fun _ q => RingOk.filter _ rfl rfl q | exact fun _ q => q | with_reducible intro _
    | ((with_reducible refine hasParts_trans hμ ?_); rfl) | with_reducible apply Touches.ite
    | with_reducible apply modRing_touches | split)

theorem countWait_touches (ctx arrival : Nat) (hμ : hasParts μ (partSet [.sch]) = true) (hs : Touches μ s₀ s) :
    Touches μ s₀ (countWait ctx arrival s) := by
  unfold countWait
  repeat' (first
    | with_reducible assumption | with_reducible intro _ | ((with_reducible refine hasParts_trans hμ ?_); rfl)
    | with_reducible apply modCtx_touches)

theorem newOp_touches (o : Op) (hμ : hasParts μ (partSet [.ops]) = true) (hs : Touches μ s₀ s) :
    Touches μ s₀ (newOp o s) := by
  unfold newOp
  repeat' (first
    | with_reducible assumption | with_reducible intro _ | ((with_reducible refine hasParts_trans hμ ?_); rfl)
    | with_reducible apply Touches.modOps)

theorem modOp_touches (id : Nat) (f : Op → Op) (hμ : hasParts μ (partSet [.ops]) = true) (hs : Touches μ s₀ s) :
    Touches μ s₀ (modOp id f s) := by
  unfold modOp
  repeat' (first
    | with_reducible assumption | with_reducible intro _ | ((with_reducible refine hasParts_trans hμ ?_); rfl)
    | with_reducible apply Touches.modOps)

theorem delOp_touches (id : Nat) (hμ : hasParts μ (partSet [.ops]) = true) (hs : Touches μ s₀ s) :
    Touches μ s₀ (delOp id s) := by
  unfold delOp
  repeat' (first
    | with_reducible assumption | with_reducible intro _ | ((with_reducible refine hasParts_trans hμ ?_); rfl)
    | with_reducible apply Touches.modOps)

theorem endOp_touches (id : Nat) (a : Ans) (hμ : hasParts μ (partSet [.rng, .ops, .sch]) = true) (hs : Touches μ s₀ s)
    :
    Touches μ s₀ (endOp id a s) := by
  unfold endOp
  repeat' (first
    | with_reducible assumption | ((with_reducible refine hasParts_trans hμ ?_); rfl)
    | with_reducible apply endEntry_touches | with_reducible apply delOp_touches | split)

end Sys2Proof.Machine
end

