-- ==== Sys2Proof/Laws/HbmTouches.lean ====
section
/-! SUPPORT. Which parts of State the operations of Machine/Hbm.lean may touch: one lemma per operation. -/

namespace Sys2Proof.Machine

open Sys2Proof

variable {μ : Nat} {s₀ s : State}

theorem charge_touches (p k n : Nat) (hμ : hasParts μ (partSet [.hbm]) = true) (hs : Touches μ s₀ s) :
    Touches μ s₀ (charge p k n s) := by
  unfold charge
  repeat' (first
    | with_reducible assumption | with_reducible intro _ | ((with_reducible refine hasParts_trans hμ ?_); rfl)
    | with_reducible apply Touches.modHbm)

theorem uncharge_touches (p k n : Nat) (hμ : hasParts μ (partSet [.hbm]) = true) (hs : Touches μ s₀ s) :
    Touches μ s₀ (uncharge p k n s) := by
  unfold uncharge
  repeat' (first
    | with_reducible assumption | with_reducible intro _ | ((with_reducible refine hasParts_trans hμ ?_); rfl)
    | with_reducible apply Touches.modHbm)

theorem takeFree_touches (p n : Nat) (hμ : hasParts μ (partSet [.coh, .hbm]) = true) (hs : Touches μ s₀ s) :
    optTouched2 μ s₀ (takeFree p n s) := by
  unfold takeFree
  repeat' (first
    | with_reducible assumption | exact fun _ q => q | with_reducible intro _
    | ((with_reducible refine hasParts_trans hμ ?_); rfl) | with_reducible apply Touches.ite
    | with_reducible apply Touches.modCoh | with_reducible apply Touches.modHbm
    | with_reducible exact optTouched2_none | with_reducible apply optTouched2_some
    | with_reducible apply Touches.getD_snd | with_reducible apply optTouched2_map
    | with_reducible apply Touches.of_optTouched2 (by with_reducible assumption)
    | with_reducible apply Touches.of_optTouched2_fst (by with_reducible assumption) | split | dsimp only)

theorem takeRun_touches (p n : Nat) (hμ : hasParts μ (partSet [.coh, .hbm]) = true) (hs : Touches μ s₀ s) :
    optTouched2 μ s₀ (takeRun p n s) := by
  unfold takeRun
  repeat' (first
    | with_reducible assumption | with_reducible intro _ | ((with_reducible refine hasParts_trans hμ ?_); rfl)
    | with_reducible apply Touches.ite | with_reducible apply takeFree_touches | with_reducible apply charge_touches
    | with_reducible exact optTouched2_none | with_reducible apply optTouched2_some
    | with_reducible apply optTouched2_map
    | with_reducible apply Touches.of_optTouched2 (by with_reducible assumption)
    | with_reducible apply Touches.of_optTouched2_fst (by with_reducible assumption) | split)

theorem giveFrames_touches (p : Nat) (r : Run) (hμ : hasParts μ (partSet [.hbm]) = true) (hs : Touches μ s₀ s) :
    Touches μ s₀ (giveFrames p r s) := by
  unfold giveFrames
  repeat' (first
    | with_reducible assumption | with_reducible intro _ | ((with_reducible refine hasParts_trans hμ ?_); rfl)
    | with_reducible apply Touches.ite | with_reducible apply Touches.modHbm | split)

theorem freeRun_touches (p : Nat) (r : Run) (hμ : hasParts μ (partSet [.hbm]) = true) (hs : Touches μ s₀ s) :
    Touches μ s₀ (freeRun p r s) := by
  unfold freeRun
  repeat' (first
    | with_reducible assumption | ((with_reducible refine hasParts_trans hμ ?_); rfl)
    | with_reducible apply giveFrames_touches | with_reducible apply uncharge_touches)

theorem freeRun?_touches (p : Nat) (r : Option Run) (hμ : hasParts μ (partSet [.hbm]) = true) (hs : Touches μ s₀ s) :
    Touches μ s₀ (freeRun? p r s) := by
  unfold freeRun?
  repeat' (first
    | with_reducible assumption | ((with_reducible refine hasParts_trans hμ ?_); rfl)
    | with_reducible apply freeRun_touches | split)

theorem drainHome_touches (p : Nat) (runs : List Run) (charged : Bool) (spill : List Run) (image : Option Nat) (hμ :
    hasParts μ (partSet [.hbm]) = true) (hs : Touches μ s₀ s) :
    Touches μ s₀ (drainHome p runs charged spill image s) := by
  unfold drainHome
  repeat' (first
    | with_reducible assumption | with_reducible intro _ | ((with_reducible refine hasParts_trans hμ ?_); rfl)
    | with_reducible apply Touches.ite | with_reducible apply Touches.modHbm | split)

theorem claimRun_touches (p n : Nat) (hμ : hasParts μ (partSet [.coh, .hbm]) = true) (hs : Touches μ s₀ s) :
    optTouched2 μ s₀ (claimRun p n s) := by
  unfold claimRun
  repeat' (first
    | with_reducible assumption | ((with_reducible refine hasParts_trans hμ ?_); rfl)
    | with_reducible apply Touches.ite | with_reducible apply takeFree_touches
    | with_reducible exact optTouched2_none | with_reducible apply optTouched2_some
    | with_reducible apply Touches.of_optTouched2 (by with_reducible assumption)
    | with_reducible apply Touches.of_optTouched2_fst (by with_reducible assumption) | split)

theorem takeSpill_touches (p bytes : Nat) (hμ : hasParts μ (partSet [.hbm]) = true) (hs : Touches μ s₀ s) :
    optTouched2 μ s₀ (takeSpill p bytes s) := by
  unfold takeSpill
  repeat' (first
    | with_reducible assumption | with_reducible intro _ | ((with_reducible refine hasParts_trans hμ ?_); rfl)
    | with_reducible apply Touches.modHbm | with_reducible apply Touches.foldl
    | with_reducible apply Touches.foldl_snd | with_reducible apply Touches.foldl_snd3
    | with_reducible exact optTouched2_none | with_reducible apply optTouched2_some
    | with_reducible apply optTouched2_foldl | with_reducible apply optTouched2_map
    | with_reducible apply Touches.of_optTouched2 (by with_reducible assumption)
    | with_reducible apply Touches.of_optTouched2_fst (by with_reducible assumption) | split | dsimp only)

theorem freeSpill_touches (p : Nat) (l : List Run) (hμ : hasParts μ (partSet [.hbm]) = true) (hs : Touches μ s₀ s) :
    Touches μ s₀ (freeSpill p l s) := by
  unfold freeSpill
  repeat' (first
    | with_reducible assumption | with_reducible intro _ | ((with_reducible refine hasParts_trans hμ ?_); rfl)
    | with_reducible apply Touches.ite | with_reducible apply Touches.modHbm | with_reducible apply Touches.foldl
    | with_reducible apply Touches.foldl_snd | with_reducible apply Touches.foldl_snd3 | split)

theorem execHbmBackgroundZero_touches {t : State} (part start len : Nat) (hμ : hasParts μ (partSet [.hbm]) = true) (he
    : execHbmBackgroundZero part start len s = .next t) (hs : Touches μ s₀ s) :
    Touches μ s₀ t := by
  unfold execHbmBackgroundZero at he
  cases he
  repeat' (first
    | with_reducible assumption | with_reducible intro _ | ((with_reducible refine hasParts_trans hμ ?_); rfl)
    | with_reducible apply Touches.modHbm | with_reducible apply working_touches)

end Sys2Proof.Machine
end

