-- ==== Sys2Proof/Laws/FtlTouches.lean ====
section
/-! SUPPORT. Which parts of State the operations of Machine/Ftl.lean may touch: one lemma per operation. -/

namespace Sys2Proof.Machine

open Sys2Proof

variable {μ : Nat} {s₀ s : State}

theorem wantRegion_touches (r : Nat) (hμ : hasParts μ (partSet [.ftl]) = true) (hs : Touches μ s₀ s) :
    Touches μ s₀ (wantRegion r s) := by
  unfold wantRegion
  repeat' (first
    | with_reducible assumption | with_reducible intro _ | ((with_reducible refine hasParts_trans hμ ?_); rfl)
    | with_reducible apply Touches.ite | with_reducible apply Touches.modFtl | split)

theorem wantRegions_touches (l : List Nat) (hμ : hasParts μ (partSet [.ftl]) = true) (hs : Touches μ s₀ s) :
    Touches μ s₀ (wantRegions l s) := by
  unfold wantRegions
  repeat' (first
    | with_reducible assumption | with_reducible intro _ | ((with_reducible refine hasParts_trans hμ ?_); rfl)
    | with_reducible apply Touches.forEach | with_reducible apply wantRegion_touches)

theorem openStripe_touches (use region : Nat) (hμ : hasParts μ (partSet [.ftl]) = true) (hs : Touches μ s₀ s) :
    optTouched2 μ s₀ (openStripe use region s) := by
  unfold openStripe
  repeat' (first
    | with_reducible assumption | with_reducible intro _ | ((with_reducible refine hasParts_trans hμ ?_); rfl)
    | with_reducible apply Touches.modFtl | with_reducible apply Touches.foldl
    | with_reducible apply Touches.foldl_snd | with_reducible apply Touches.foldl_snd3
    | with_reducible exact optTouched2_none | with_reducible apply optTouched2_some
    | with_reducible apply optTouched2_foldl | with_reducible apply optTouched2_map
    | with_reducible apply Touches.of_optTouched2 (by with_reducible assumption)
    | with_reducible apply Touches.of_optTouched2_fst (by with_reducible assumption) | split | dsimp only)

theorem closeStripe_touches (id : Nat) (hμ : hasParts μ (partSet [.ftl]) = true) (hs : Touches μ s₀ s) :
    Touches μ s₀ (closeStripe id s) := by
  unfold closeStripe
  repeat' (first
    | with_reducible assumption | with_reducible intro _ | ((with_reducible refine hasParts_trans hμ ?_); rfl)
    | with_reducible apply Touches.ite | with_reducible apply Touches.modFtl | with_reducible apply Touches.foldl
    | with_reducible apply Touches.foldl_snd | with_reducible apply Touches.foldl_snd3 | split)

theorem stripeFor_touches (use region n : Nat) (hμ : hasParts μ (partSet [.ftl]) = true) (hs : Touches μ s₀ s) :
    optTouched2 μ s₀ (stripeFor use region n s) := by
  unfold stripeFor
  repeat' (first
    | with_reducible assumption | ((with_reducible refine hasParts_trans hμ ?_); rfl)
    | with_reducible apply Touches.ite | with_reducible apply openStripe_touches
    | with_reducible apply closeStripe_touches | with_reducible exact optTouched2_none
    | with_reducible apply optTouched2_some | with_reducible apply Touches.getD_snd
    | with_reducible apply Touches.of_optTouched2 (by with_reducible assumption)
    | with_reducible apply Touches.of_optTouched2_fst (by with_reducible assumption) | split | dsimp only)

theorem openParity_touches (st : Stripe) (hμ : hasParts μ (partSet [.ftl]) = true) (hs : Touches μ s₀ s) :
    optTouched2 μ s₀ (openParity st s) := by
  unfold openParity
  repeat' (first
    | with_reducible assumption | with_reducible intro _ | ((with_reducible refine hasParts_trans hμ ?_); rfl)
    | with_reducible apply Touches.modFtl | with_reducible exact optTouched2_none
    | with_reducible apply optTouched2_some | with_reducible apply optTouched2_map
    | with_reducible apply optTouched2_bind
    | with_reducible apply Touches.of_optTouched2 (by with_reducible assumption)
    | with_reducible apply Touches.of_optTouched2_fst (by with_reducible assumption))

theorem writeParity_touches (id : Nat) (hμ : hasParts μ (partSet [.ftl]) = true) : ∀ (y0 : Nat) {s : State} , Touches
    μ s₀ s → Touches μ s₀ (writeParity id y0 s) := by
  intro y0
  induction y0 with
  | zero =>
    intro s _
    unfold writeParity
    repeat' (first
      | with_reducible assumption | with_reducible intro _ | ((with_reducible refine hasParts_trans hμ ?_); rfl)
      | with_reducible apply Touches.ite | with_reducible apply Touches.modFtl
      | with_reducible apply openParity_touches | with_reducible apply closeStripe_touches
      | with_reducible exact optTouched2_none | with_reducible apply optTouched2_some
      | with_reducible apply Touches.getD_snd | with_reducible apply optTouched2_map
      | with_reducible apply Touches.of_optTouched2 (by with_reducible assumption)
      | with_reducible apply Touches.of_optTouched2_fst (by with_reducible assumption) | split | dsimp only)
  | succ fuel ih =>
    intro s _
    unfold writeParity
    repeat' (first
      | with_reducible assumption | with_reducible intro _ | ((with_reducible refine hasParts_trans hμ ?_); rfl)
      | with_reducible apply Touches.ite | with_reducible apply Touches.modFtl
      | with_reducible apply openParity_touches | with_reducible apply closeStripe_touches | with_reducible apply ih
      | with_reducible exact optTouched2_none | with_reducible apply optTouched2_some
      | with_reducible apply Touches.getD_snd | with_reducible apply optTouched2_map
      | with_reducible apply Touches.of_optTouched2 (by with_reducible assumption)
      | with_reducible apply Touches.of_optTouched2_fst (by with_reducible assumption) | split | dsimp only)

theorem fillStripe_touches (id at_ n : Nat) (who : List (Nat × Nat)) (hμ : hasParts μ (partSet [.ftl]) = true) (hs :
    Touches μ s₀ s) :
    Touches μ s₀ (fillStripe id at_ n who s) := by
  unfold fillStripe
  repeat' (first
    | with_reducible assumption | with_reducible intro _ | ((with_reducible refine hasParts_trans hμ ?_); rfl)
    | with_reducible apply Touches.ite | with_reducible apply Touches.modFtl
    | with_reducible apply writeParity_touches | with_reducible apply closeStripe_touches | split | dsimp only)

theorem writeStripes_touches (w : Put) (hμ : hasParts μ (partSet [.ftl]) = true) : ∀ (y0 : Nat) (y1 : Nat) {s : State}
    , Touches μ s₀ s → optTouched2 μ s₀ (writeStripes w y0 y1 s) := by
  intro y0
  induction y0 generalizing w with
  | zero =>
    intro y1 s _
    unfold writeStripes
    repeat' (first
      | with_reducible assumption | with_reducible intro _ | ((with_reducible refine hasParts_trans hμ ?_); rfl)
      | with_reducible apply Touches.ite | with_reducible apply stripeFor_touches
      | with_reducible apply fillStripe_touches | with_reducible exact optTouched2_none
      | with_reducible apply optTouched2_some | with_reducible apply Touches.getD_snd
      | with_reducible apply optTouched2_map
      | with_reducible apply Touches.of_optTouched2 (by with_reducible assumption)
      | with_reducible apply Touches.of_optTouched2_fst (by with_reducible assumption) | split | dsimp only)
  | succ fuel ih =>
    intro y1 s _
    unfold writeStripes
    repeat' (first
      | with_reducible assumption | with_reducible intro _ | ((with_reducible refine hasParts_trans hμ ?_); rfl)
      | with_reducible apply Touches.ite | with_reducible apply stripeFor_touches
      | with_reducible apply fillStripe_touches | with_reducible apply ih | with_reducible exact optTouched2_none
      | with_reducible apply optTouched2_some | with_reducible apply Touches.getD_snd
      | with_reducible apply optTouched2_map
      | with_reducible apply Touches.of_optTouched2 (by with_reducible assumption)
      | with_reducible apply Touches.of_optTouched2_fst (by with_reducible assumption) | split | dsimp only)

theorem bulkSlot_touches (region : Nat) (who : List (Nat × Nat)) (hμ : hasParts μ (partSet [.ftl]) = true) (hs :
    Touches μ s₀ s) :
    optTouched3 μ s₀ (bulkSlot region who s) := by
  unfold bulkSlot
  repeat' (first
    | with_reducible assumption | with_reducible intro _ | ((with_reducible refine hasParts_trans hμ ?_); rfl)
    | with_reducible apply stripeFor_touches | with_reducible apply fillStripe_touches
    | with_reducible exact optTouched2_none | with_reducible apply optTouched2_some
    | with_reducible apply Touches.getD_snd | with_reducible apply optTouched2_map
    | with_reducible exact optTouched3_none | with_reducible apply optTouched3_some
    | with_reducible apply optTouched3_map
    | with_reducible apply Touches.of_optTouched2 (by with_reducible assumption)
    | with_reducible apply Touches.of_optTouched2_fst (by with_reducible assumption)
    | with_reducible apply Touches.of_optTouched3 (by with_reducible assumption)
    | with_reducible apply Touches.of_optTouched3_fst (by with_reducible assumption) | split | dsimp only)

theorem takeSeq_touches (n : Nat) (hμ : hasParts μ (partSet [.ftl]) = true) (hs : Touches μ s₀ s) :
    Touches μ s₀ (takeSeq n s).2 := by
  unfold takeSeq
  repeat' (first
    | with_reducible assumption | with_reducible intro _ | ((with_reducible refine hasParts_trans hμ ?_); rfl)
    | with_reducible apply Touches.modFtl)

theorem copyStamp_touches (seq gen n : Nat) (hμ : hasParts μ (partSet [.ftl]) = true) (hs : Touches μ s₀ s) :
    Touches μ s₀ (copyStamp seq gen n s).2.2 := by
  unfold copyStamp
  repeat' (first
    | with_reducible assumption | ((with_reducible refine hasParts_trans hμ ?_); rfl)
    | with_reducible apply Touches.ite | with_reducible apply Touches.ite_snd | with_reducible apply takeSeq_touches
    | with_reducible apply Touches.of_snd (by with_reducible assumption) | split)

theorem takeTable_touches (unit : Nat) (hμ : hasParts μ (partSet [.ftl]) = true) (hs : Touches μ s₀ s) :
    Touches μ s₀ (takeTable unit s) := by
  unfold takeTable
  repeat' (first
    | with_reducible assumption | with_reducible intro _ | ((with_reducible refine hasParts_trans hμ ?_); rfl)
    | with_reducible apply Touches.ite | with_reducible apply Touches.modFtl | split)

theorem programBuffer_touches (id : Nat) (i : FImage) (hμ : hasParts μ (partSet [.ftl]) = true) (hs : Touches μ s₀ s)
    :
    optTouched2 μ s₀ (programBuffer id i s) := by
  unfold programBuffer
  repeat' (first
    | with_reducible assumption | with_reducible intro _ | ((with_reducible refine hasParts_trans hμ ?_); rfl)
    | with_reducible apply Touches.modFtl | with_reducible apply Touches.foldl
    | with_reducible apply Touches.foldl_snd | with_reducible apply Touches.foldl_snd3
    | with_reducible apply writeStripes_touches | with_reducible apply takeTable_touches
    | with_reducible exact optTouched2_none | with_reducible apply optTouched2_some
    | with_reducible apply optTouched2_foldl | with_reducible apply optTouched2_map
    | with_reducible apply optTouched2_bind
    | with_reducible apply Touches.of_optTouched2 (by with_reducible assumption)
    | with_reducible apply Touches.of_optTouched2_fst (by with_reducible assumption))

theorem newImage_touches (ident : Ident) (tenant p region granules : Nat) (page : Page) (durable backing : Bool) (move
    : Option Nat) (hμ : hasParts μ (partSet [.hbm, .ftl]) = true) (hs : Touches μ s₀ s) :
    optTouched2 μ s₀ (newImage ident tenant p region granules page durable backing move s) := by
  unfold newImage
  repeat' (first
    | with_reducible assumption | with_reducible intro _ | ((with_reducible refine hasParts_trans hμ ?_); rfl)
    | with_reducible apply Touches.modHbm | with_reducible apply Touches.modFtl | with_reducible apply Touches.foldl
    | with_reducible apply Touches.foldl_snd | with_reducible apply Touches.foldl_snd3
    | with_reducible apply Touches.when | with_reducible apply takeSeq_touches | with_reducible apply charge_touches
    | with_reducible exact optTouched2_none | with_reducible apply optTouched2_some
    | with_reducible apply optTouched2_foldl | with_reducible apply optTouched2_map
    | with_reducible apply Touches.of_snd (by with_reducible assumption)
    | with_reducible apply Touches.of_optTouched2 (by with_reducible assumption)
    | with_reducible apply Touches.of_optTouched2_fst (by with_reducible assumption))

theorem chargeImage_touches (id : Nat) (hμ : hasParts μ (partSet [.hbm, .ftl]) = true) (hs : Touches μ s₀ s) :
    Touches μ s₀ (chargeImage id s) := by
  unfold chargeImage
  repeat' (first
    | with_reducible assumption | with_reducible intro _ | ((with_reducible refine hasParts_trans hμ ?_); rfl)
    | with_reducible apply Touches.ite | with_reducible apply Touches.modFtl | with_reducible apply charge_touches
    | split)

theorem unchargeImage_touches (id : Nat) (hμ : hasParts μ (partSet [.hbm, .ftl]) = true) (hs : Touches μ s₀ s) :
    Touches μ s₀ (unchargeImage id s) := by
  unfold unchargeImage
  repeat' (first
    | with_reducible assumption | with_reducible intro _ | ((with_reducible refine hasParts_trans hμ ?_); rfl)
    | with_reducible apply Touches.ite | with_reducible apply Touches.modFtl | with_reducible apply uncharge_touches
    | split)

theorem countFrees_touches (unit n : Nat) (hμ : hasParts μ (partSet [.ftl]) = true) (hs : Touches μ s₀ s) :
    Touches μ s₀ (countFrees unit n s) := by
  unfold countFrees
  repeat' (first
    | with_reducible assumption | with_reducible intro _ | ((with_reducible refine hasParts_trans hμ ?_); rfl)
    | with_reducible apply Touches.modFtl)

theorem unmapImage_touches (id : Nat) (hμ : hasParts μ (partSet [.hbm, .ftl]) = true) (hs : Touches μ s₀ s) :
    Touches μ s₀ (unmapImage id s) := by
  unfold unmapImage
  repeat' (first
    | with_reducible assumption | with_reducible intro _ | ((with_reducible refine hasParts_trans hμ ?_); rfl)
    | with_reducible apply Touches.ite | with_reducible apply Touches.modHbm | with_reducible apply Touches.modFtl
    | with_reducible apply Touches.foldl | with_reducible apply Touches.foldl_snd
    | with_reducible apply Touches.foldl_snd3 | with_reducible apply Touches.when
    | with_reducible apply uncharge_touches | split | dsimp only)

theorem dropImage_touches (id : Nat) (hμ : hasParts μ (partSet [.hbm, .ftl]) = true) (hs : Touches μ s₀ s) :
    Touches μ s₀ (dropImage id s) := by
  unfold dropImage
  repeat' (first
    | with_reducible assumption | with_reducible intro _ | ((with_reducible refine hasParts_trans hμ ?_); rfl)
    | with_reducible apply Touches.forEach | with_reducible apply countFrees_touches
    | with_reducible apply unmapImage_touches | split)

theorem drainEnded_touches (id : Nat) (hμ : hasParts μ (partSet [.hbm, .ftl]) = true) (hs : Touches μ s₀ s) :
    Touches μ s₀ (drainEnded id s) := by
  unfold drainEnded
  repeat' (first
    | with_reducible assumption | with_reducible intro _ | ((with_reducible refine hasParts_trans hμ ?_); rfl)
    | with_reducible apply Touches.modHbm | with_reducible apply Touches.forEach
    | with_reducible apply uncharge_touches | with_reducible apply freeSpill_touches
    | with_reducible apply giveFrames_touches | with_reducible apply dropImage_touches | split | dsimp only)

theorem dropImage?_touches (id : Option Nat) (hμ : hasParts μ (partSet [.hbm, .ftl]) = true) (hs : Touches μ s₀ s) :
    Touches μ s₀ (dropImage? id s) := by
  unfold dropImage?
  repeat' (first
    | with_reducible assumption | ((with_reducible refine hasParts_trans hμ ?_); rfl)
    | with_reducible apply dropImage_touches | split)

theorem addRec_touches (body : RecBody) (bytes tenant : Nat) (durable : Bool) (op : Option Nat) (hμ : hasParts μ
    (partSet [.ftl]) = true) (hs : Touches μ s₀ s) :
    Touches μ s₀ (addRec body bytes tenant durable op s).2 := by
  unfold addRec
  repeat' (first
    | with_reducible assumption | with_reducible intro _ | ((with_reducible refine hasParts_trans hμ ?_); rfl)
    | with_reducible apply Touches.modFtl | with_reducible apply takeSeq_touches
    | with_reducible apply Touches.of_snd (by with_reducible assumption))

theorem addCat_touches (c : CatRec) (tenant : Nat) (durable : Bool) (hμ : hasParts μ (partSet [.ftl]) = true) (hs :
    Touches μ s₀ s) :
    Touches μ s₀ (addCat c tenant durable s) := by
  unfold addCat
  repeat' (first
    | with_reducible assumption | with_reducible intro _ | ((with_reducible refine hasParts_trans hμ ?_); rfl)
    | with_reducible apply Touches.ite | with_reducible apply Touches.ite_snd | with_reducible apply Touches.modFtl
    | with_reducible apply addRec_touches | with_reducible apply Touches.of_snd (by with_reducible assumption)
    | split | dsimp only)

end Sys2Proof.Machine
end

