-- ==== Sys2Proof/Laws/PartiesTouches.lean ====
section
/-! SUPPORT. Which parts of State the operations of Machine/Parties.lean may touch: one lemma per operation. -/

namespace Sys2Proof.Machine

open Sys2Proof

variable {μ : Nat} {s₀ s : State}

theorem regAccess_touches (path : Path) (off : Nat) (f : State → State) (hf : ∀ t, Touches μ s₀ t → Touches μ s₀ (f
    t)) (hs : Touches μ s₀ s) :
    Touches μ s₀ (regAccess path off f s) := by
  unfold regAccess
  repeat' (first
    | with_reducible assumption | with_reducible apply Touches.ite | with_reducible apply hf | split)

theorem asOperator_touches (path : Path) (f : State → State) (hf : ∀ t, Touches μ s₀ t → Touches μ s₀ (f t)) (hs :
    Touches μ s₀ s) :
    Touches μ s₀ (asOperator path f s) := by
  unfold asOperator
  repeat' (first
    | with_reducible assumption | with_reducible apply Touches.ite | with_reducible apply hf | split)

end Sys2Proof.Machine
end

