-- ==== Sys2Proof/Laws/RingsTouches.lean ====
section
/-! SUPPORT. Which parts of State the operations of Machine/Rings.lean may touch: one lemma per operation. -/

namespace Sys2Proof.Machine

open Sys2Proof

variable {μ : Nat} {s₀ s : State}

theorem setUp_ok {x : Rng} (n : Nat) (b : List Byte) (k : Nat) (h : RingsOk x) :
    RingsOk { x with rings := mupd x.rings n {} (setUp b k) } :=
  RingsOk.mset h n (h.get n)

theorem sendRead_touches (tag : Nat) (hμ : hasParts μ (partSet [.link, .sec]) = true) (hs : Touches μ s₀ s) :
    Touches μ s₀ (sendRead tag s) := by
  unfold sendRead
  repeat' (first
    | with_reducible assumption | ((with_reducible refine hasParts_trans hμ ?_); rfl)
    | with_reducible apply Touches.ite | with_reducible apply send_touches | with_reducible apply sendVia_touches
    | split | dsimp only)

theorem takeTag_touches (hμ : hasParts μ (partSet [.io]) = true) (hs : Touches μ s₀ s) :
    Touches μ s₀ (takeTag s).2 := by
  unfold takeTag
  repeat' (first
    | with_reducible assumption | with_reducible intro _ | ((with_reducible refine hasParts_trans hμ ?_); rfl)
    | with_reducible apply Touches.modIo)

theorem noteLast_touches (tag key : Nat) (hμ : hasParts μ (partSet [.io]) = true) (hs : Touches μ s₀ s) :
    Touches μ s₀ (noteLast tag key s) := by
  unfold noteLast
  repeat' (first
    | with_reducible assumption | with_reducible intro _ | ((with_reducible refine hasParts_trans hμ ?_); rfl)
    | with_reducible apply Touches.modIo)

theorem sendTile_touches (t : TileMsg) (hμ : hasParts μ (partSet [.link, .io, .sec]) = true) (hs : Touches μ s₀ s) :
    Touches μ s₀ (sendTile t s).2 := by
  unfold sendTile
  repeat' (first
    | with_reducible assumption | with_reducible intro _ | ((with_reducible refine hasParts_trans hμ ?_); rfl)
    | with_reducible apply Touches.modIo | with_reducible apply takeTag_touches
    | with_reducible apply noteLast_touches | with_reducible apply send_touches
    | with_reducible apply Touches.of_snd (by with_reducible assumption))

theorem writeTiles_touches (op lay : Nat) (tile : Option Nat) (node addr key : Nat) (bytes : List Byte) (hμ : hasParts
    μ (partSet [.link, .io, .sec]) = true) (hs : Touches μ s₀ s) :
    Touches μ s₀ (writeTiles op lay tile node addr key bytes s).2 := by
  unfold writeTiles
  repeat' (first
    | with_reducible assumption | with_reducible intro _ | ((with_reducible refine hasParts_trans hμ ?_); rfl)
    | with_reducible apply Touches.foldl | with_reducible apply Touches.foldl_snd
    | with_reducible apply Touches.foldl_snd3 | with_reducible apply sendTile_touches
    | with_reducible apply Touches.of_snd (by with_reducible assumption))

theorem deliver_touches (f : ReadFor) (bytes : List Byte) (hμ : hasParts μ (partSet [.rng, .ops]) = true) (hs :
    Touches μ s₀ s) :
    Touches μ s₀ (deliver f bytes s) := by
  unfold deliver
  repeat' (first
    | with_reducible assumption | exact fun _ q => RingOk.map _ (fun e => by split <;> rfl) rfl rfl q
    | exact fun _ q => RingOk.filter _ rfl rfl q | exact fun _ q => q | with_reducible intro _
    | ((with_reducible refine hasParts_trans hμ ?_); rfl) | with_reducible apply Touches.ite
    | with_reducible apply modRing_touches | with_reducible apply modOp_touches | split)

theorem beginRead_touches (f : ReadFor) (node addr len key : Nat) (hμ : hasParts μ (partSet [.link, .rng, .io, .ops,
    .sec]) = true) (hs : Touches μ s₀ s) :
    Touches μ s₀ (beginRead f node addr len key s) := by
  unfold beginRead
  repeat' (first
    | with_reducible assumption | with_reducible intro _ | ((with_reducible refine hasParts_trans hμ ?_); rfl)
    | with_reducible apply Touches.ite | with_reducible apply Touches.ite_snd | with_reducible apply Touches.modIo
    | with_reducible apply deliver_touches | with_reducible apply takeTag_touches
    | with_reducible apply sendRead_touches | with_reducible apply Touches.of_snd (by with_reducible assumption)
    | split | dsimp only)

theorem failBuf_touches (id b : Nat) (hμ : hasParts μ (partSet [.io, .ops]) = true) (hs : Touches μ s₀ s) :
    Touches μ s₀ (failBuf id b s) := by
  unfold failBuf
  repeat' (first
    | with_reducible assumption | with_reducible intro _ | ((with_reducible refine hasParts_trans hμ ?_); rfl)
    | with_reducible apply Touches.ite | with_reducible apply Touches.modIo | with_reducible apply modOp_touches
    | split)

theorem readFailed_touches (tag : Nat) (hμ : hasParts μ (partSet [.rng, .io, .ops]) = true) (hs : Touches μ s₀ s) :
    Touches μ s₀ (readFailed tag s) := by
  unfold readFailed
  repeat' (first
    | with_reducible assumption | exact fun _ q => RingOk.map _ (fun e => by split <;> rfl) rfl rfl q
    | exact fun _ q => RingOk.filter _ rfl rfl q | exact fun _ q => q | with_reducible intro _
    | ((with_reducible refine hasParts_trans hμ ?_); rfl) | with_reducible apply Touches.ite
    | with_reducible apply Touches.modIo | with_reducible apply modRing_touches
    | with_reducible apply failBuf_touches | split | dsimp only)

theorem readArrived_touches (tag : Nat) (bytes : List Byte) (hμ : hasParts μ (partSet [.link, .rng, .io, .ops, .sec])
    = true) (hs : Touches μ s₀ s) :
    Touches μ s₀ (readArrived tag bytes s) := by
  unfold readArrived
  repeat' (first
    | with_reducible assumption | with_reducible intro _ | ((with_reducible refine hasParts_trans hμ ?_); rfl)
    | with_reducible apply Touches.ite | with_reducible apply Touches.modIo | with_reducible apply deliver_touches
    | with_reducible apply sendRead_touches | split | dsimp only)

theorem dropReads_touches (id : Nat) (hμ : hasParts μ (partSet [.io]) = true) (hs : Touches μ s₀ s) :
    Touches μ s₀ (dropReads id s) := by
  unfold dropReads
  repeat' (first
    | with_reducible assumption | with_reducible intro _ | ((with_reducible refine hasParts_trans hμ ?_); rfl)
    | with_reducible apply Touches.modIo | split)

theorem requestOperands_touches (ring idx : Nat) (hμ : hasParts μ (partSet [.link, .rng, .io, .ops, .sec]) = true) (hs
    : Touches μ s₀ s) :
    Touches μ s₀ (requestOperands ring idx s) := by
  unfold requestOperands
  repeat' (first
    | with_reducible assumption | with_reducible intro _ | ((with_reducible refine hasParts_trans hμ ?_); rfl)
    | with_reducible apply Touches.ite | with_reducible apply readFailed_touches
    | with_reducible apply beginRead_touches | split | dsimp only)

theorem askFor_touches (l : List (Bool × Nat)) (hμ : hasParts μ (partSet [.ftl]) = true) (hs : Touches μ s₀ s) :
    Touches μ s₀ (askFor l s) := by
  unfold askFor
  repeat' (first
    | with_reducible assumption | with_reducible intro _ | ((with_reducible refine hasParts_trans hμ ?_); rfl)
    | with_reducible apply Touches.ite | with_reducible apply Touches.modFtl
    | with_reducible apply wantRegions_touches | split)

theorem startNow_touches (ring : Nat) (e : Entry) (f : Entry → State → State) (hf : ∀ a0 t, Touches μ s₀ t → Touches μ
    s₀ (f a0 t)) (hμ : hasParts μ (partSet [.rng, .ftl]) = true) (hs : Touches μ s₀ s) :
    Touches μ s₀ (startNow ring e f s) := by
  unfold startNow
  repeat' (first
    | with_reducible assumption | ((with_reducible refine hasParts_trans hμ ?_); rfl)
    | with_reducible apply Touches.ite | with_reducible apply markStarted_touches
    | with_reducible apply askFor_touches | with_reducible apply hf | split | dsimp only)

theorem startOp_touches (op ring : Nat) (f : Entry → State → State) (hf : ∀ a0 t, Touches μ s₀ t → Touches μ s₀ (f a0
    t)) (hμ : hasParts μ (partSet [.link, .rng, .io, .ops, .ftl, .sch, .sec]) = true) (hs : Touches μ s₀ s) :
    Touches μ s₀ (startOp op ring f s) := by
  unfold startOp
  repeat' (first
    | with_reducible assumption | with_reducible intro _ | ((with_reducible refine hasParts_trans hμ ?_); rfl)
    | with_reducible apply Touches.ite | with_reducible apply endEntry_touches
    | with_reducible apply markStarted_touches | with_reducible apply startNow_touches
    | with_reducible apply readFailed_touches | with_reducible apply requestOperands_touches
    | with_reducible apply hf | split)

theorem endNow_touches (ring : Nat) (e : Entry) (a : Ans) (hμ : hasParts μ (partSet [.rng, .sch]) = true) (hs :
    Touches μ s₀ s) :
    Touches μ s₀ (endNow ring e a s) := by
  unfold endNow
  repeat' (first
    | with_reducible assumption | ((with_reducible refine hasParts_trans hμ ?_); rfl)
    | with_reducible apply endEntry_touches)

theorem beginOp_touches (ring : Nat) (e : Entry) (body : OpBody) (hμ : hasParts μ (partSet [.ops]) = true) (hs :
    Touches μ s₀ s) :
    Touches μ s₀ (beginOp ring e body s).2 := by
  unfold beginOp
  repeat' (first
    | with_reducible assumption | ((with_reducible refine hasParts_trans hμ ?_); rfl)
    | with_reducible apply newOp_touches)

theorem chargeCore_touches (c n : Nat) (hμ : hasParts μ (partSet [.sch]) = true) (hs : Touches μ s₀ s) :
    Touches μ s₀ (chargeCore c n s) := by
  unfold chargeCore
  repeat' (first
    | with_reducible assumption | with_reducible intro _ | ((with_reducible refine hasParts_trans hμ ?_); rfl)
    | with_reducible apply modCtx_touches)

theorem writeCpl_touches (ring : Nat) (hμ : hasParts μ (partSet [.link, .rng, .io, .sec]) = true) (hs : Touches μ s₀
    s) :
    Touches μ s₀ (writeCpl ring s) := by
  unfold writeCpl
  repeat' (first
    | with_reducible assumption | exact fun _ q => RingOk.map _ (fun e => by split <;> rfl) rfl rfl q
    | exact fun _ q => RingOk.filter _ rfl rfl q | exact fun _ q => q | with_reducible intro _
    | ((with_reducible refine hasParts_trans hμ ?_); rfl) | with_reducible apply Touches.ite
    | with_reducible apply Touches.ite_snd | with_reducible apply modRing_touches
    | with_reducible apply takeTag_touches | with_reducible apply send_touches
    | with_reducible apply Touches.of_snd (by with_reducible assumption) | split | dsimp only)

theorem execCompletionWrite_touches {t : State} (ring : Nat) (hμ : hasParts μ (partSet [.link, .rng, .io, .sec]) =
    true) (he : execCompletionWrite ring s = .next t) (hs : Touches μ s₀ s) :
    Touches μ s₀ t := by
  unfold execCompletionWrite at he
  cases he
  repeat' (first
    | with_reducible assumption | ((with_reducible refine hasParts_trans hμ ?_); rfl)
    | with_reducible apply writeCpl_touches)

theorem execRingDrainDone_touches {t : State} (ring : Nat) (hμ : hasParts μ (partSet [.hbm, .rng]) = true) (he :
    execRingDrainDone ring s = .next t) (hs : Touches μ s₀ s) :
    Touches μ s₀ t := by
  unfold execRingDrainDone at he
  cases he
  repeat' (first
    | with_reducible assumption | exact fun _ q => RingOk.map _ (fun e => by split <;> rfl) rfl rfl q
    | exact fun _ q => RingOk.filter _ rfl rfl q | exact fun _ q => q | with_reducible intro _
    | ((with_reducible refine hasParts_trans hμ ?_); rfl) | with_reducible apply Touches.ite
    | with_reducible apply uncharge_touches | with_reducible apply modRing_touches | split | dsimp only)

theorem execUnknownOp_touches {t : State} (ring : Nat) (hμ : hasParts μ (partSet [.rng, .sch]) = true) (he :
    execUnknownOp ring s = .next t) (hs : Touches μ s₀ s) :
    Touches μ s₀ t := by
  unfold execUnknownOp at he
  cases he
  repeat' (first
    | with_reducible assumption | ((with_reducible refine hasParts_trans hμ ?_); rfl)
    | with_reducible apply Touches.ite | with_reducible apply endNow_touches
    | with_reducible apply markStarted_touches | split)

theorem execNop_touches {t : State} (ring : Nat) (hμ : hasParts μ (partSet [.link, .rng, .io, .ops, .ftl, .sch, .sec])
    = true) (he : execNop ring s = .next t) (hs : Touches μ s₀ s) :
    Touches μ s₀ t := by
  unfold execNop at he
  cases he
  repeat' (first
    | with_reducible assumption | with_reducible intro _ | ((with_reducible refine hasParts_trans hμ ?_); rfl)
    | with_reducible apply startOp_touches | with_reducible apply endNow_touches)

theorem revokeWaiting_touches (ring : Nat) (hμ : hasParts μ (partSet [.rng, .sch]) = true) (hs : Touches μ s₀ s) :
    Touches μ s₀ (revokeWaiting ring s) := by
  unfold revokeWaiting
  repeat' (first
    | with_reducible assumption | with_reducible intro _ | ((with_reducible refine hasParts_trans hμ ?_); rfl)
    | with_reducible apply Touches.forEach | with_reducible apply endEntry_touches)

theorem ringWrite_touches (x : Party) (hμ : hasParts μ (partSet [.hbm, .rng, .sch]) = true) (hs : Touches μ s₀ s) :
    Touches μ s₀ (ringWrite x s) := by
  unfold ringWrite
  repeat' (first
    | with_reducible assumption | exact fun _ q => setUp_ok _ _ _ q
    | exact fun _ q => RingOk.map _ (fun e => by split <;> rfl) rfl rfl q
    | exact fun _ q => RingOk.filter _ rfl rfl q | exact fun _ q => q | with_reducible intro _
    | ((with_reducible refine hasParts_trans hμ ?_); rfl) | with_reducible apply Touches.ite
    | with_reducible apply Touches.modRng | with_reducible apply uncharge_touches
    | with_reducible apply modRing_touches | with_reducible apply revokeWaiting_touches
    | with_reducible apply charge_touches | split | dsimp only)

theorem ringWriteCmd_touches (path : Path) (hμ : hasParts μ (partSet [.hbm, .rng, .sch]) = true) (hs : Touches μ s₀ s)
    :
    Touches μ s₀ (ringWriteCmd path s) := by
  unfold ringWriteCmd
  repeat' (first
    | with_reducible assumption | ((with_reducible refine hasParts_trans hμ ?_); rfl)
    | with_reducible apply Touches.ite | with_reducible apply ringWrite_touches | split)

theorem execRngWriteEntry_touches {t : State} (path : Path) (hμ : hasParts μ (partSet [.hbm, .rng, .sch]) = true) (he
    : execRngWriteEntry path s = .next t) (hs : Touches μ s₀ s) :
    Touches μ s₀ t := by
  unfold execRngWriteEntry at he
  cases he
  repeat' (first
    | with_reducible assumption | with_reducible intro _ | ((with_reducible refine hasParts_trans hμ ?_); rfl)
    | with_reducible apply regAccess_touches | with_reducible apply ringWriteCmd_touches)

theorem ringReadCmd_touches (path : Path) (hμ : hasParts μ (partSet [.rng]) = true) (hs : Touches μ s₀ s) :
    Touches μ s₀ (ringReadCmd path s) := by
  unfold ringReadCmd
  repeat' (first
    | with_reducible assumption | exact fun _ q => q | with_reducible intro _
    | ((with_reducible refine hasParts_trans hμ ?_); rfl) | with_reducible apply Touches.ite
    | with_reducible apply Touches.modRng | split | dsimp only)

theorem execRngReadEntry_touches {t : State} (path : Path) (hμ : hasParts μ (partSet [.rng]) = true) (he :
    execRngReadEntry path s = .next t) (hs : Touches μ s₀ s) :
    Touches μ s₀ t := by
  unfold execRngReadEntry at he
  cases he
  repeat' (first
    | with_reducible assumption | with_reducible intro _ | ((with_reducible refine hasParts_trans hμ ?_); rfl)
    | with_reducible apply regAccess_touches | with_reducible apply ringReadCmd_touches)

theorem ringDrainCmd_touches (path : Path) (hμ : hasParts μ (partSet [.rng]) = true) (hs : Touches μ s₀ s) :
    Touches μ s₀ (ringDrainCmd path s) := by
  unfold ringDrainCmd
  repeat' (first
    | with_reducible assumption | exact fun _ q => RingOk.map _ (fun e => by split <;> rfl) rfl rfl q
    | exact fun _ q => RingOk.filter _ rfl rfl q | exact fun _ q => q | with_reducible intro _
    | ((with_reducible refine hasParts_trans hμ ?_); rfl) | with_reducible apply Touches.ite
    | with_reducible apply modRing_touches | split)

theorem execRngSetDrain_touches {t : State} (path : Path) (hμ : hasParts μ (partSet [.rng]) = true) (he :
    execRngSetDrain path s = .next t) (hs : Touches μ s₀ s) :
    Touches μ s₀ t := by
  unfold execRngSetDrain at he
  cases he
  repeat' (first
    | with_reducible assumption | with_reducible intro _ | ((with_reducible refine hasParts_trans hμ ?_); rfl)
    | with_reducible apply regAccess_touches | with_reducible apply ringDrainCmd_touches)

end Sys2Proof.Machine
end

