-- ==== Sys2Proof/Laws/PagesTouches.lean ====
section
/-! SUPPORT. Which parts of State the operations of Machine/Pages.lean may touch: one lemma per operation. -/

namespace Sys2Proof.Machine

open Sys2Proof

variable {μ : Nat} {s₀ s : State}

/-- The state a `Need` carries was touched in the parts `μ` only. -/
def needTouched (μ : Nat) (s₀ : State) : Need → Prop
  | .got _ _ _ _ _ s => Touches μ s₀ s
  | .wait _ _ s => Touches μ s₀ s
  | .fail _ s => Touches μ s₀ s

theorem needTouched_got (x : Tier) (y : Option Run) (l : List Run) (z : Nat) (n : Nat × Nat) (hs : Touches μ s₀ s) : needTouched μ s₀ (.got x y l z n s) := hs

theorem Touches.ofNeed_got {r : Need} {x : Tier} {y : Option Run} {l : List Run} {z : Nat} {n : Nat × Nat} {t : State} (e : r = .got x y l z n t) (h : needTouched μ s₀ r) : Touches μ s₀ t := by
  rw [e] at h
  exact h

theorem needTouched_wait (d : Descent) (n : Nat × Nat) (hs : Touches μ s₀ s) : needTouched μ s₀ (.wait d n s) := hs

theorem Touches.ofNeed_wait {r : Need} {d : Descent} {n : Nat × Nat} {t : State} (e : r = .wait d n t) (h : needTouched μ s₀ r) : Touches μ s₀ t := by
  rw [e] at h
  exact h

theorem needTouched_fail (n : Nat × Nat) (hs : Touches μ s₀ s) : needTouched μ s₀ (.fail n s) := hs

theorem Touches.ofNeed_fail {r : Need} {n : Nat × Nat} {t : State} (e : r = .fail n t) (h : needTouched μ s₀ r) : Touches μ s₀ t := by
  rw [e] at h
  exact h


/-- The state a `Began` carries was touched in the parts `μ` only. -/
def beganTouched (μ : Nat) (s₀ : State) : Began → Prop
  | .move _ s => Touches μ s₀ s
  | .done s => Touches μ s₀ s
  | .later s => Touches μ s₀ s
  | .never _ s => Touches μ s₀ s

theorem beganTouched_move (x : Nat) (hs : Touches μ s₀ s) : beganTouched μ s₀ (.move x s) := hs

theorem Touches.ofBegan_move {r : Began} {x : Nat} {t : State} (e : r = .move x t) (h : beganTouched μ s₀ r) : Touches μ s₀ t := by
  rw [e] at h
  exact h

theorem beganTouched_done (hs : Touches μ s₀ s) : beganTouched μ s₀ (.done s) := hs

theorem Touches.ofBegan_done {r : Began} {t : State} (e : r = .done t) (h : beganTouched μ s₀ r) : Touches μ s₀ t := by
  rw [e] at h
  exact h

theorem beganTouched_later (hs : Touches μ s₀ s) : beganTouched μ s₀ (.later s) := hs

theorem Touches.ofBegan_later {r : Began} {t : State} (e : r = .later t) (h : beganTouched μ s₀ r) : Touches μ s₀ t := by
  rw [e] at h
  exact h

theorem beganTouched_never (x : Bool) (hs : Touches μ s₀ s) : beganTouched μ s₀ (.never x s) := hs

theorem Touches.ofBegan_never {r : Began} {x : Bool} {t : State} (e : r = .never x t) (h : beganTouched μ s₀ r) : Touches μ s₀ t := by
  rw [e] at h
  exact h


theorem modSeq_touches (h : Nat) (f : Seq → Seq) (hμ : hasParts μ (partSet [.seqs]) = true) (hs : Touches μ s₀ s) :
    Touches μ s₀ (modSeq h f s) := by
  unfold modSeq
  repeat' (first
    | with_reducible assumption | with_reducible intro _ | ((with_reducible refine hasParts_trans hμ ?_); rfl)
    | with_reducible apply Touches.modSeqs)

theorem modRec_touches (r : Nat) (f : SharedRec → SharedRec) (hμ : hasParts μ (partSet [.seqs]) = true) (hs : Touches
    μ s₀ s) :
    Touches μ s₀ (modRec r f s) := by
  unfold modRec
  repeat' (first
    | with_reducible assumption | with_reducible intro _ | ((with_reducible refine hasParts_trans hμ ?_); rfl)
    | with_reducible apply Touches.modSeqs)

theorem modPage_touches (a : PageAt) (f : Page → Page) (hμ : hasParts μ (partSet [.seqs, .wt]) = true) (hs : Touches μ
    s₀ s) :
    Touches μ s₀ (modPage a f s) := by
  unfold modPage
  repeat' (first
    | with_reducible assumption | with_reducible intro _ | ((with_reducible refine hasParts_trans hμ ?_); rfl)
    | with_reducible apply Touches.ite | with_reducible apply Touches.modWt | with_reducible apply modSeq_touches
    | with_reducible apply modRec_touches | split)

theorem invalidate_touches (a : PageAt) (hμ : hasParts μ (partSet [.seqs]) = true) (hs : Touches μ s₀ s) :
    Touches μ s₀ (invalidate a s) := by
  unfold invalidate
  repeat' (first
    | with_reducible assumption | with_reducible intro _ | ((with_reducible refine hasParts_trans hμ ?_); rfl)
    | with_reducible apply Touches.modSeqs | split)

theorem switchPage_touches (a : PageAt) (f : Page → Page) (hμ : hasParts μ (partSet [.seqs, .wt]) = true) (hs :
    Touches μ s₀ s) :
    Touches μ s₀ (switchPage a f s) := by
  unfold switchPage
  repeat' (first
    | with_reducible assumption | with_reducible intro _ | ((with_reducible refine hasParts_trans hμ ?_); rfl)
    | with_reducible apply invalidate_touches | with_reducible apply modPage_touches)

theorem setHeat_touches (p : Page) (n : Nat) (hμ : hasParts μ (partSet [.tier]) = true) (hs : Touches μ s₀ s) :
    Touches μ s₀ (setHeat p n s) := by
  unfold setHeat
  repeat' (first
    | with_reducible assumption | with_reducible intro _ | ((with_reducible refine hasParts_trans hμ ?_); rfl)
    | with_reducible apply Touches.modTier | split)

theorem startImage_touches (a : PageAt) (p : Page) (backing : Bool) (move : Option Nat) (hμ : hasParts μ (partSet
    [.hbm, .ftl]) = true) (hs : Touches μ s₀ s) :
    optTouched2 μ s₀ (startImage a p backing move s) := by
  unfold startImage
  repeat' (first
    | with_reducible assumption | ((with_reducible refine hasParts_trans hμ ?_); rfl)
    | with_reducible apply newImage_touches | with_reducible exact optTouched2_none
    | with_reducible apply optTouched2_some
    | with_reducible apply Touches.of_optTouched2 (by with_reducible assumption)
    | with_reducible apply Touches.of_optTouched2_fst (by with_reducible assumption))

theorem programImage_touches (id : Nat) (hμ : hasParts μ (partSet [.hbm, .ftl]) = true) (hs : Touches μ s₀ s) :
    optTouched μ s₀ (programImage id s) := by
  unfold programImage
  repeat' (first
    | with_reducible assumption | with_reducible intro _ | ((with_reducible refine hasParts_trans hμ ?_); rfl)
    | with_reducible apply Touches.ite | with_reducible apply Touches.modHbm | with_reducible apply Touches.modFtl
    | with_reducible apply programBuffer_touches | with_reducible exact optTouched_none
    | with_reducible apply optTouched_some | with_reducible apply optTouched_map
    | with_reducible exact optTouched2_none | with_reducible apply optTouched2_some
    | with_reducible apply optTouched2_map
    | with_reducible apply Touches.of_optTouched (by with_reducible assumption)
    | with_reducible apply Touches.of_optTouched2 (by with_reducible assumption)
    | with_reducible apply Touches.of_optTouched2_fst (by with_reducible assumption) | split)

theorem sweepJournals_touches (hμ : hasParts μ (partSet [.ftl]) = true) (hs : Touches μ s₀ s) :
    Touches μ s₀ (sweepJournals s) := by
  unfold sweepJournals
  repeat' (first
    | with_reducible assumption | with_reducible intro _ | ((with_reducible refine hasParts_trans hμ ?_); rfl)
    | with_reducible apply Touches.modFtl | split)

theorem dequeue_touches (a : PageAt) (hμ : hasParts μ (partSet [.hbm, .cdc]) = true) (hs : Touches μ s₀ s) :
    Touches μ s₀ (dequeue a s) := by
  unfold dequeue
  repeat' (first
    | with_reducible assumption | with_reducible intro _ | ((with_reducible refine hasParts_trans hμ ?_); rfl)
    | with_reducible apply Touches.modCdc | with_reducible apply Touches.forEach
    | with_reducible apply freeRun?_touches)

theorem enqueue_touches (e : EncItem) (hμ : hasParts μ (partSet [.cdc]) = true) (hs : Touches μ s₀ s) :
    Touches μ s₀ (enqueue e s) := by
  unfold enqueue
  repeat' (first
    | with_reducible assumption | with_reducible intro _ | ((with_reducible refine hasParts_trans hμ ?_); rfl)
    | with_reducible apply Touches.modCdc)

theorem requeue_touches (a : PageAt) (hμ : hasParts μ (partSet [.cdc]) = true) (hs : Touches μ s₀ s) :
    Touches μ s₀ (requeue a s) := by
  unfold requeue
  repeat' (first
    | with_reducible assumption | ((with_reducible refine hasParts_trans hμ ?_); rfl)
    | with_reducible apply Touches.ite | with_reducible apply enqueue_touches | split)

theorem startEncode_touches (a : PageAt) (p : Page) (hμ : hasParts μ (partSet [.coh, .hbm, .cdc]) = true) (hs :
    Touches μ s₀ s) :
    optTouched μ s₀ (startEncode a p s) := by
  unfold startEncode
  repeat' (first
    | with_reducible assumption | with_reducible intro _ | ((with_reducible refine hasParts_trans hμ ?_); rfl)
    | with_reducible apply Touches.modCdc | with_reducible apply takeRun_touches
    | with_reducible apply enqueue_touches | with_reducible exact optTouched_none
    | with_reducible apply optTouched_some | with_reducible apply optTouched_map
    | with_reducible exact optTouched2_none | with_reducible apply optTouched2_some
    | with_reducible apply optTouched2_map
    | with_reducible apply Touches.of_optTouched (by with_reducible assumption)
    | with_reducible apply Touches.of_optTouched2 (by with_reducible assumption)
    | with_reducible apply Touches.of_optTouched2_fst (by with_reducible assumption))

theorem takeMeta_touches (a : PageAt) (p : Page) (hμ : hasParts μ (partSet [.coh, .hbm, .seqs, .wt]) = true) (hs :
    Touches μ s₀ s) :
    optTouched μ s₀ (takeMeta a p s) := by
  unfold takeMeta
  repeat' (first
    | with_reducible assumption | with_reducible intro _ | ((with_reducible refine hasParts_trans hμ ?_); rfl)
    | with_reducible apply takeRun_touches | with_reducible apply modPage_touches
    | with_reducible exact optTouched_none | with_reducible apply optTouched_some
    | with_reducible apply optTouched_map | with_reducible exact optTouched2_none
    | with_reducible apply optTouched2_some | with_reducible apply optTouched2_map
    | with_reducible apply Touches.of_optTouched (by with_reducible assumption)
    | with_reducible apply Touches.of_optTouched2 (by with_reducible assumption)
    | with_reducible apply Touches.of_optTouched2_fst (by with_reducible assumption))

theorem startBacking_touches (a : PageAt) (hμ : hasParts μ (partSet [.hbm, .seqs, .wt, .ftl]) = true) (hs : Touches μ
    s₀ s) :
    Touches μ s₀ (startBacking a s) := by
  unfold startBacking
  repeat' (first
    | with_reducible assumption | with_reducible intro _ | ((with_reducible refine hasParts_trans hμ ?_); rfl)
    | with_reducible apply Touches.ite | with_reducible apply startImage_touches
    | with_reducible apply modPage_touches | with_reducible exact optTouched2_none
    | with_reducible apply optTouched2_some
    | with_reducible apply Touches.of_optTouched2 (by with_reducible assumption)
    | with_reducible apply Touches.of_optTouched2_fst (by with_reducible assumption) | split)

theorem serveBackings_touches (hμ : hasParts μ (partSet [.hbm, .seqs, .wt, .ftl]) = true) (hs : Touches μ s₀ s) :
    Touches μ s₀ (serveBackings s) := by
  unfold serveBackings
  repeat' (first
    | with_reducible assumption | with_reducible intro _ | ((with_reducible refine hasParts_trans hμ ?_); rfl)
    | with_reducible apply Touches.forEach | with_reducible apply startBacking_touches)

theorem abandonMove_touches (id : Nat) (hμ : hasParts μ (partSet [.hbm, .seqs, .cdc, .tier, .wt, .ftl]) = true) (hs :
    Touches μ s₀ s) :
    Touches μ s₀ (abandonMove id s) := by
  unfold abandonMove
  repeat' (first
    | with_reducible assumption | with_reducible intro _ | ((with_reducible refine hasParts_trans hμ ?_); rfl)
    | with_reducible apply Touches.modTier | with_reducible apply Touches.forEach
    | with_reducible apply giveFrames_touches | with_reducible apply dropImage?_touches
    | with_reducible apply requeue_touches | with_reducible apply modPage_touches | split | dsimp only)

theorem pinStops_touches (a : PageAt) (hμ : hasParts μ (partSet [.hbm, .seqs, .cdc, .tier, .wt, .ftl]) = true) (hs :
    Touches μ s₀ s) :
    Touches μ s₀ (pinStops a s) := by
  unfold pinStops
  repeat' (first
    | with_reducible assumption | with_reducible intro _ | ((with_reducible refine hasParts_trans hμ ?_); rfl)
    | with_reducible apply Touches.ite | with_reducible apply Touches.forEach
    | with_reducible apply abandonMove_touches | split)

theorem abandonMovesOf_touches (a : PageAt) (hμ : hasParts μ (partSet [.hbm, .seqs, .cdc, .tier, .wt, .ftl]) = true)
    (hs : Touches μ s₀ s) :
    Touches μ s₀ (abandonMovesOf a s) := by
  unfold abandonMovesOf
  repeat' (first
    | with_reducible assumption | with_reducible intro _ | ((with_reducible refine hasParts_trans hμ ?_); rfl)
    | with_reducible apply Touches.forEach | with_reducible apply abandonMove_touches)

theorem sendRelease_touches (node : Node) (es : List (Nat × Nat)) (hμ : hasParts μ (partSet [.link, .io, .sec]) =
    true) (hs : Touches μ s₀ s) :
    Touches μ s₀ (sendRelease node es s) := by
  unfold sendRelease
  repeat' (first
    | with_reducible assumption | with_reducible intro _ | ((with_reducible refine hasParts_trans hμ ?_); rfl)
    | with_reducible apply takeTag_touches | with_reducible apply send_touches
    | with_reducible apply Touches.of_snd (by with_reducible assumption) | split | dsimp only)

theorem markReleased_touches (r : Nat) (hμ : hasParts μ (partSet [.casc]) = true) (hs : Touches μ s₀ s) :
    Touches μ s₀ (markReleased r s) := by
  unfold markReleased
  repeat' (first
    | with_reducible assumption | with_reducible intro _ | ((with_reducible refine hasParts_trans hμ ?_); rfl)
    | with_reducible apply Touches.ite | with_reducible apply Touches.modCasc | split)

theorem releaseLayer_touches (r : Nat) (hμ : hasParts μ (partSet [.link, .io, .casc, .sec]) = true) (hs : Touches μ s₀
    s) :
    Touches μ s₀ (releaseLayer r s) := by
  unfold releaseLayer
  repeat' (first
    | with_reducible assumption | ((with_reducible refine hasParts_trans hμ ?_); rfl)
    | with_reducible apply markReleased_touches | with_reducible apply sendRelease_touches | split)

theorem freeHome_touches (p : Page) (drain : Bool) (hμ : hasParts μ (partSet [.hbm]) = true) (hs : Touches μ s₀ s) :
    Touches μ s₀ (freeHome p drain s) := by
  unfold freeHome
  repeat' (first
    | with_reducible assumption | with_reducible intro _ | ((with_reducible refine hasParts_trans hμ ?_); rfl)
    | with_reducible apply Touches.ite | with_reducible apply Touches.forEach
    | with_reducible apply drainHome_touches | with_reducible apply freeSpill_touches
    | with_reducible apply freeRun_touches | split)

theorem freeStores_touches (a : PageAt) (p : Page) (drain : Bool) (hμ : hasParts μ (partSet [.link, .hbm, .io, .seqs,
    .casc, .cdc, .tier, .wt, .ftl, .sec]) = true) (hs : Touches μ s₀ s) :
    Touches μ s₀ (freeStores a p drain s) := by
  unfold freeStores
  repeat' (first
    | with_reducible assumption | ((with_reducible refine hasParts_trans hμ ?_); rfl)
    | with_reducible apply Touches.ite | with_reducible apply freeHome_touches | with_reducible apply dequeue_touches
    | with_reducible apply abandonMovesOf_touches | with_reducible apply releaseLayer_touches
    | with_reducible apply dropImage?_touches | split | dsimp only)

theorem dropRef_touches (r : Nat) (drain : Bool) (hμ : hasParts μ (partSet [.link, .hbm, .io, .seqs, .casc, .cdc,
    .tier, .wt, .ftl, .sec]) = true) (hs : Touches μ s₀ s) :
    Touches μ s₀ (dropRef r drain s) := by
  unfold dropRef
  repeat' (first
    | with_reducible assumption | with_reducible intro _ | ((with_reducible refine hasParts_trans hμ ?_); rfl)
    | with_reducible apply Touches.ite | with_reducible apply Touches.modSeqs
    | with_reducible apply freeStores_touches | with_reducible apply invalidate_touches
    | with_reducible apply modRec_touches | split | dsimp only)

theorem retireBlock_touches (b : Nat) (hμ : hasParts μ (partSet [.link, .hbm, .io, .seqs, .pfx, .casc, .cdc, .tier,
    .wt, .ftl, .sec]) = true) (hs : Touches μ s₀ s) :
    Touches μ s₀ (retireBlock b s).2 := by
  unfold retireBlock
  repeat' (first
    | with_reducible assumption | with_reducible intro _ | ((with_reducible refine hasParts_trans hμ ?_); rfl)
    | with_reducible apply Touches.modPfx | with_reducible apply Touches.forEach | with_reducible apply Touches.when
    | with_reducible apply uncharge_touches | with_reducible apply freeRun?_touches
    | with_reducible apply dropRef_touches | with_reducible apply addCat_touches | split | dsimp only)

theorem retireHolders_touches (a : PageAt) (hμ : hasParts μ (partSet [.link, .hbm, .io, .seqs, .pfx, .casc, .cdc,
    .tier, .wt, .ftl, .sec]) = true) (hs : Touches μ s₀ s) :
    Touches μ s₀ (retireHolders a s) := by
  unfold retireHolders
  repeat' (first
    | with_reducible assumption | with_reducible intro _ | ((with_reducible refine hasParts_trans hμ ?_); rfl)
    | with_reducible apply Touches.forEach | with_reducible apply retireBlock_touches
    | with_reducible apply Touches.of_snd (by with_reducible assumption) | split)

theorem issueTicket_touches (part handle reason first count layer layers : Nat) (hμ : hasParts μ (partSet [.seqs]) =
    true) (hs : Touches μ s₀ s) :
    Touches μ s₀ (issueTicket part handle reason first count layer layers s).2 := by
  unfold issueTicket
  repeat' (first
    | with_reducible assumption | with_reducible intro _ | ((with_reducible refine hasParts_trans hμ ?_); rfl)
    | with_reducible apply Touches.ite | with_reducible apply Touches.ite_snd | with_reducible apply Touches.modSeqs
    | split | dsimp only)

theorem dropUnder_touches (a : PageAt) (n : Nat) (hμ : hasParts μ (partSet [.link, .hbm, .io, .seqs, .pfx, .casc,
    .cdc, .tier, .wt, .ftl, .sec]) = true) (hs : Touches μ s₀ s) :
    Touches μ s₀ (dropUnder a n s) := by
  unfold dropUnder
  repeat' (first
    | with_reducible assumption | ((with_reducible refine hasParts_trans hμ ?_); rfl)
    | with_reducible apply Touches.ite | with_reducible apply retireHolders_touches
    | with_reducible apply switchPage_touches | with_reducible apply freeStores_touches | split)

theorem dropPageAt_touches (a : PageAt) (reason : Nat) (hμ : hasParts μ (partSet [.link, .hbm, .io, .seqs, .pfx,
    .casc, .cdc, .tier, .wt, .ftl, .sec]) = true) (hs : Touches μ s₀ s) :
    Touches μ s₀ (dropPageAt a reason s) := by
  unfold dropPageAt
  repeat' (first
    | with_reducible assumption | ((with_reducible refine hasParts_trans hμ ?_); rfl)
    | with_reducible apply Touches.ite | with_reducible apply Touches.ite_snd
    | with_reducible apply issueTicket_touches | with_reducible apply dropUnder_touches
    | with_reducible apply Touches.of_snd (by with_reducible assumption) | split | dsimp only)

theorem leafToFlash_touches (a : PageAt) (id : Nat) (hμ : hasParts μ (partSet [.hbm, .seqs, .cdc, .tier, .wt, .ftl]) =
    true) (hs : Touches μ s₀ s) :
    Touches μ s₀ (leafToFlash a id s) := by
  unfold leafToFlash
  repeat' (first
    | with_reducible assumption | with_reducible intro _ | ((with_reducible refine hasParts_trans hμ ?_); rfl)
    | with_reducible apply Touches.ite | with_reducible apply Touches.modTier | with_reducible apply Touches.modFtl
    | with_reducible apply dequeue_touches | with_reducible apply drainHome_touches
    | with_reducible apply uncharge_touches | with_reducible apply chargeImage_touches
    | with_reducible apply dropImage?_touches | with_reducible apply switchPage_touches
    | with_reducible apply sweepJournals_touches | with_reducible apply setHeat_touches | split | dsimp only)

theorem leafToHbm_touches (a : PageAt) (run : Run) (meta? : Option Run) (least : Nat) (hμ : hasParts μ (partSet
    [.link, .hbm, .io, .seqs, .casc, .cdc, .tier, .wt, .ftl, .sec]) = true) (hs : Touches μ s₀ s) :
    Touches μ s₀ (leafToHbm a run meta? least s) := by
  unfold leafToHbm
  repeat' (first
    | with_reducible assumption | with_reducible intro _ | ((with_reducible refine hasParts_trans hμ ?_); rfl)
    | with_reducible apply Touches.ite | with_reducible apply Touches.modTier | with_reducible apply Touches.modFtl
    | with_reducible apply Touches.when | with_reducible apply drainHome_touches
    | with_reducible apply unchargeImage_touches | with_reducible apply charge_touches
    | with_reducible apply releaseLayer_touches | with_reducible apply switchPage_touches
    | with_reducible apply setHeat_touches | with_reducible apply requeue_touches | split | dsimp only)

theorem addMove_touches (m : Move) (hμ : hasParts μ (partSet [.seqs, .tier, .wt]) = true) (hs : Touches μ s₀ s) :
    Touches μ s₀ (addMove m s).2 := by
  unfold addMove
  repeat' (first
    | with_reducible assumption | with_reducible intro _ | ((with_reducible refine hasParts_trans hμ ?_); rfl)
    | with_reducible apply Touches.modTier | with_reducible apply modPage_touches)

theorem sentDown_touches (a : PageAt) (part : Nat) (op : Option Nat) (heatTo : Option Nat) (r : Option (Nat × State))
    (hr : optTouched2 μ s₀ r) (hμ : hasParts μ (partSet [.hbm, .seqs, .cdc, .tier, .wt]) = true) (hs : Touches μ s₀ s)
    :
    beganTouched μ s₀ (sentDown a part op heatTo r s) := by
  unfold sentDown
  repeat' (first
    | with_reducible assumption | ((with_reducible refine hasParts_trans hμ ?_); rfl)
    | with_reducible apply addMove_touches | with_reducible apply dequeue_touches
    | with_reducible apply beganTouched_move | with_reducible apply beganTouched_done
    | with_reducible apply beganTouched_later | with_reducible apply beganTouched_never | exact hr
    | with_reducible apply Touches.of_snd (by with_reducible assumption) | split | dsimp only)

theorem beginDown_touches (a : PageAt) (op : Option Nat) (heatTo : Option Nat) (hμ : hasParts μ (partSet [.hbm, .seqs,
    .cdc, .tier, .wt, .ftl]) = true) (hs : Touches μ s₀ s) :
    beganTouched μ s₀ (beginDown a op heatTo s) := by
  unfold beginDown
  repeat' (first
    | with_reducible assumption | ((with_reducible refine hasParts_trans hμ ?_); rfl)
    | with_reducible apply Touches.ite | with_reducible apply leafToFlash_touches
    | with_reducible apply setHeat_touches | with_reducible apply sentDown_touches
    | with_reducible apply startImage_touches | with_reducible apply wantRegion_touches
    | with_reducible apply beganTouched_move | with_reducible apply beganTouched_done
    | with_reducible apply beganTouched_later | with_reducible apply beganTouched_never
    | with_reducible apply Touches.ofBegan_move (by with_reducible assumption)
    | with_reducible apply Touches.ofBegan_done (by with_reducible assumption)
    | with_reducible apply Touches.ofBegan_later (by with_reducible assumption)
    | with_reducible apply Touches.ofBegan_never (by with_reducible assumption)
    | with_reducible exact optTouched2_none | with_reducible apply optTouched2_some
    | with_reducible apply Touches.of_optTouched2 (by with_reducible assumption)
    | with_reducible apply Touches.of_optTouched2_fst (by with_reducible assumption) | split | dsimp only)

theorem needLast_touches (part : Nat) (spill : Option Nat) (n : Nat × Nat) (hμ : hasParts μ (partSet [.hbm]) = true)
    (hs : Touches μ s₀ s) :
    needTouched μ s₀ (needLast part spill n s) := by
  unfold needLast
  repeat' (first
    | with_reducible assumption | with_reducible intro _ | ((with_reducible refine hasParts_trans hμ ?_); rfl)
    | with_reducible apply takeSpill_touches | with_reducible apply needTouched_got
    | with_reducible apply needTouched_wait | with_reducible apply needTouched_fail
    | with_reducible exact optTouched2_none | with_reducible apply optTouched2_some
    | with_reducible apply optTouched2_bind
    | with_reducible apply Touches.of_optTouched2 (by with_reducible assumption)
    | with_reducible apply Touches.of_optTouched2_fst (by with_reducible assumption) | split)

theorem needDrop_touches (exempt part k : Nat) (spill : Option Nat) (n : Nat × Nat) (hμ : hasParts μ (partSet [.link,
    .hbm, .io, .seqs, .pfx, .casc, .cdc, .tier, .wt, .ftl, .sec]) = true) (hs : Touches μ s₀ s) :
    needTouched μ s₀ (needDrop exempt part k spill n s) := by
  unfold needDrop
  repeat' (first
    | with_reducible assumption | with_reducible intro _ | ((with_reducible refine hasParts_trans hμ ?_); rfl)
    | with_reducible apply dropPageAt_touches | with_reducible apply needLast_touches
    | with_reducible apply needTouched_got | with_reducible apply needTouched_wait
    | with_reducible apply needTouched_fail | with_reducible apply Touches.ofNeed_got (by with_reducible assumption)
    | with_reducible apply Touches.ofNeed_wait (by with_reducible assumption)
    | with_reducible apply Touches.ofNeed_fail (by with_reducible assumption) | split)

theorem needDemote_touches (exempt part k : Nat) (spill : Option Nat) (hμ : hasParts μ (partSet [.link, .hbm, .io,
    .seqs, .pfx, .casc, .cdc, .tier, .wt, .ftl, .sec]) = true) (hs : Touches μ s₀ s) :
    needTouched μ s₀ (needDemote exempt part k spill s) := by
  unfold needDemote
  repeat' (first
    | with_reducible assumption | with_reducible intro _ | ((with_reducible refine hasParts_trans hμ ?_); rfl)
    | with_reducible apply needDrop_touches | with_reducible apply beginDown_touches
    | with_reducible apply needTouched_got | with_reducible apply needTouched_wait
    | with_reducible apply needTouched_fail | with_reducible apply Touches.ofNeed_got (by with_reducible assumption)
    | with_reducible apply Touches.ofNeed_wait (by with_reducible assumption)
    | with_reducible apply Touches.ofNeed_fail (by with_reducible assumption)
    | with_reducible apply Touches.ofBegan_move (by with_reducible assumption)
    | with_reducible apply Touches.ofBegan_done (by with_reducible assumption)
    | with_reducible apply Touches.ofBegan_later (by with_reducible assumption)
    | with_reducible apply Touches.ofBegan_never (by with_reducible assumption) | split)

theorem need_touches (exempt part k : Nat) (spill : Option Nat) (d : Descent) (hμ : hasParts μ (partSet [.link, .coh,
    .hbm, .io, .seqs, .pfx, .casc, .cdc, .tier, .wt, .ftl, .sec]) = true) (hs : Touches μ s₀ s) :
    needTouched μ s₀ (need exempt part k spill d s) := by
  unfold need
  repeat' (first
    | with_reducible assumption | ((with_reducible refine hasParts_trans hμ ?_); rfl)
    | with_reducible apply Touches.ite | with_reducible apply takeRun_touches | with_reducible apply needDrop_touches
    | with_reducible apply needLast_touches | with_reducible apply needDemote_touches
    | with_reducible apply needTouched_got | with_reducible apply needTouched_wait
    | with_reducible apply needTouched_fail | with_reducible apply Touches.ofNeed_got (by with_reducible assumption)
    | with_reducible apply Touches.ofNeed_wait (by with_reducible assumption)
    | with_reducible apply Touches.ofNeed_fail (by with_reducible assumption) | with_reducible exact optTouched2_none
    | with_reducible apply optTouched2_some
    | with_reducible apply Touches.of_optTouched2 (by with_reducible assumption)
    | with_reducible apply Touches.of_optTouched2_fst (by with_reducible assumption) | split | dsimp only)

theorem countLadder_touches (part step : Nat) (hμ : hasParts μ (partSet [.seqs]) = true) (hs : Touches μ s₀ s) :
    Touches μ s₀ (countLadder part step s) := by
  unfold countLadder
  repeat' (first
    | with_reducible assumption | with_reducible intro _ | ((with_reducible refine hasParts_trans hμ ?_); rfl)
    | with_reducible apply Touches.modSeqs)

theorem needTable_touches (exempt part bytes : Nat) (d : Descent) (hμ : hasParts μ (partSet [.link, .coh, .hbm, .io,
    .seqs, .pfx, .casc, .cdc, .tier, .wt, .ftl, .sec]) = true) (hs : Touches μ s₀ s) :
    needTouched μ s₀ (needTable exempt part bytes d s) := by
  unfold needTable
  repeat' (first
    | with_reducible assumption | ((with_reducible refine hasParts_trans hμ ?_); rfl)
    | with_reducible apply need_touches | with_reducible apply countLadder_touches
    | with_reducible apply needTouched_got | with_reducible apply needTouched_wait
    | with_reducible apply needTouched_fail | with_reducible apply Touches.ofNeed_got (by with_reducible assumption)
    | with_reducible apply Touches.ofNeed_wait (by with_reducible assumption)
    | with_reducible apply Touches.ofNeed_fail (by with_reducible assumption) | split)

theorem afterSeal_touches (a : PageAt) (hμ : hasParts μ (partSet [.coh, .hbm, .seqs, .cdc, .wt, .ftl]) = true) (hs :
    Touches μ s₀ s) :
    Touches μ s₀ (afterSeal a s) := by
  unfold afterSeal
  repeat' (first
    | with_reducible assumption | ((with_reducible refine hasParts_trans hμ ?_); rfl)
    | with_reducible apply Touches.ite | with_reducible apply startEncode_touches
    | with_reducible apply startBacking_touches | with_reducible apply requeue_touches
    | with_reducible apply takeMeta_touches | with_reducible exact optTouched_none
    | with_reducible apply optTouched_some | with_reducible apply Touches.getD
    | with_reducible apply Touches.of_optTouched (by with_reducible assumption) | split)

theorem sealPage_touches (a : PageAt) (hμ : hasParts μ (partSet [.coh, .hbm, .seqs, .cdc, .wt, .ftl]) = true) (hs :
    Touches μ s₀ s) :
    Touches μ s₀ (sealPage a s) := by
  unfold sealPage
  repeat' (first
    | with_reducible assumption | with_reducible intro _ | ((with_reducible refine hasParts_trans hμ ?_); rfl)
    | with_reducible apply Touches.modSeqs | with_reducible apply afterSeal_touches
    | with_reducible apply modPage_touches | split | dsimp only)

theorem finishEncode_touches (e : EncItem) (hμ : hasParts μ (partSet [.coh, .hbm, .seqs, .cdc, .tier, .wt, .ftl]) =
    true) (hs : Touches μ s₀ s) :
    Touches μ s₀ (finishEncode e s) := by
  unfold finishEncode
  repeat' (first
    | with_reducible assumption | with_reducible intro _ | ((with_reducible refine hasParts_trans hμ ?_); rfl)
    | with_reducible apply Touches.ite | with_reducible apply Touches.modCdc | with_reducible apply modPage_touches
    | with_reducible apply freeRun_touches | with_reducible apply takeMeta_touches
    | with_reducible apply requeue_touches | with_reducible apply startBacking_touches
    | with_reducible apply freeRun?_touches | with_reducible apply drainHome_touches
    | with_reducible apply setHeat_touches | with_reducible apply switchPage_touches
    | with_reducible exact optTouched_none | with_reducible apply optTouched_some | with_reducible apply Touches.getD
    | with_reducible apply optTouched_map | with_reducible apply Touches.of_optTouched (by with_reducible assumption)
    | split | dsimp only)

theorem spillToHbm_touches (a : PageAt) (hμ : hasParts μ (partSet [.coh, .hbm, .seqs, .cdc, .wt, .ftl]) = true) (hs :
    Touches μ s₀ s) :
    Touches μ s₀ (spillToHbm a s) := by
  unfold spillToHbm
  repeat' (first
    | with_reducible assumption | with_reducible intro _ | ((with_reducible refine hasParts_trans hμ ?_); rfl)
    | with_reducible apply takeRun_touches | with_reducible apply drainHome_touches
    | with_reducible apply afterSeal_touches | with_reducible apply switchPage_touches
    | with_reducible exact optTouched2_none | with_reducible apply optTouched2_some
    | with_reducible apply Touches.of_optTouched2 (by with_reducible assumption)
    | with_reducible apply Touches.of_optTouched2_fst (by with_reducible assumption) | split | dsimp only)

theorem serveItem_touches (e : EncItem) (hμ : hasParts μ (partSet [.coh, .hbm, .seqs, .cdc, .wt]) = true) (hs :
    Touches μ s₀ s) :
    Touches μ s₀ (serveItem e s) := by
  unfold serveItem
  repeat' (first
    | with_reducible assumption | with_reducible intro _ | ((with_reducible refine hasParts_trans hμ ?_); rfl)
    | with_reducible apply Touches.ite | with_reducible apply Touches.modCdc | with_reducible apply takeMeta_touches
    | with_reducible apply startEncode_touches | with_reducible exact optTouched_none
    | with_reducible apply optTouched_some | with_reducible apply Touches.getD
    | with_reducible apply Touches.of_optTouched (by with_reducible assumption) | split)

theorem serveFreed_touches (part : Nat) (hμ : hasParts μ (partSet [.coh, .hbm, .seqs, .cdc, .wt, .ftl]) = true) (hs :
    Touches μ s₀ s) :
    Touches μ s₀ (serveFreed part s) := by
  unfold serveFreed
  repeat' (first
    | with_reducible assumption | with_reducible intro _ | ((with_reducible refine hasParts_trans hμ ?_); rfl)
    | with_reducible apply Touches.forEach | with_reducible apply spillToHbm_touches
    | with_reducible apply serveBackings_touches | with_reducible apply serveItem_touches)

theorem execFreedRunService_touches {t : State} (part : Nat) (hμ : hasParts μ (partSet [.coh, .hbm, .seqs, .cdc, .wt,
    .ftl]) = true) (he : execFreedRunService part s = .next t) (hs : Touches μ s₀ s) :
    Touches μ s₀ t := by
  unfold execFreedRunService at he
  cases he
  repeat' (first
    | with_reducible assumption | with_reducible intro _ | ((with_reducible refine hasParts_trans hμ ?_); rfl)
    | with_reducible apply working_touches | with_reducible apply serveFreed_touches)

theorem execEncodeDone_touches {t : State} (part : Nat) (hμ : hasParts μ (partSet [.coh, .hbm, .seqs, .cdc, .tier,
    .wt, .ftl]) = true) (he : execEncodeDone part s = .next t) (hs : Touches μ s₀ s) :
    Touches μ s₀ t := by
  unfold execEncodeDone at he
  cases he
  repeat' (first
    | with_reducible assumption | with_reducible intro _ | ((with_reducible refine hasParts_trans hμ ?_); rfl)
    | with_reducible apply working_touches | with_reducible apply finishEncode_touches | split)

end Sys2Proof.Machine
end

