-- ==== Sys2Proof/Laws/SeqsTouches.lean ====
section
/-! SUPPORT. Which parts of State the operations of Machine/Seqs.lean may touch: one lemma per operation. -/

namespace Sys2Proof.Machine

open Sys2Proof

variable {μ : Nat} {s₀ s : State}

/-- The state a `Tables` carries was touched in the parts `μ` only. -/
def tablesTouched (μ : Nat) (s₀ : State) : Tables → Prop
  | .ok _ _ s => Touches μ s₀ s
  | .wait _ _ s => Touches μ s₀ s
  | .fail _ s => Touches μ s₀ s

theorem tablesTouched_ok (d : Descent) (n : Nat × Nat) (hs : Touches μ s₀ s) : tablesTouched μ s₀ (.ok d n s) := hs

theorem Touches.ofTables_ok {r : Tables} {d : Descent} {n : Nat × Nat} {t : State} (e : r = .ok d n t) (h : tablesTouched μ s₀ r) : Touches μ s₀ t := by
  rw [e] at h
  exact h

theorem tablesTouched_wait (d : Descent) (n : Nat × Nat) (hs : Touches μ s₀ s) : tablesTouched μ s₀ (.wait d n s) := hs

theorem Touches.ofTables_wait {r : Tables} {d : Descent} {n : Nat × Nat} {t : State} (e : r = .wait d n t) (h : tablesTouched μ s₀ r) : Touches μ s₀ t := by
  rw [e] at h
  exact h

theorem tablesTouched_fail (n : Nat × Nat) (hs : Touches μ s₀ s) : tablesTouched μ s₀ (.fail n s) := hs

theorem Touches.ofTables_fail {r : Tables} {n : Nat × Nat} {t : State} (e : r = .fail n t) (h : tablesTouched μ s₀ r) : Touches μ s₀ t := by
  rw [e] at h
  exact h


/-- The state a `Forked` carries was touched in the parts `μ` only. -/
def forkedTouched (μ : Nat) (s₀ : State) : Forked → Prop
  | .all _ s => Touches μ s₀ s
  | .wait _ _ s => Touches μ s₀ s
  | .fail _ s => Touches μ s₀ s

theorem forkedTouched_all (l : List Run) (hs : Touches μ s₀ s) : forkedTouched μ s₀ (.all l s) := hs

theorem Touches.ofForked_all {r : Forked} {l : List Run} {t : State} (e : r = .all l t) (h : forkedTouched μ s₀ r) : Touches μ s₀ t := by
  rw [e] at h
  exact h

theorem forkedTouched_wait (l : List Run) (d : Descent) (hs : Touches μ s₀ s) : forkedTouched μ s₀ (.wait l d s) := hs

theorem Touches.ofForked_wait {r : Forked} {l : List Run} {d : Descent} {t : State} (e : r = .wait l d t) (h : forkedTouched μ s₀ r) : Touches μ s₀ t := by
  rw [e] at h
  exact h

theorem forkedTouched_fail (l : List Run) (hs : Touches μ s₀ s) : forkedTouched μ s₀ (.fail l s) := hs

theorem Touches.ofForked_fail {r : Forked} {l : List Run} {t : State} (e : r = .fail l t) (h : forkedTouched μ s₀ r) : Touches μ s₀ t := by
  rw [e] at h
  exact h


theorem catSealed_touches (h : Nat) (hμ : hasParts μ (partSet [.ftl]) = true) (hs : Touches μ s₀ s) :
    Touches μ s₀ (catSealed h s) := by
  unfold catSealed
  repeat' (first
    | with_reducible assumption | ((with_reducible refine hasParts_trans hμ ?_); rfl)
    | with_reducible apply Touches.ite | with_reducible apply addCat_touches | split | dsimp only)

theorem catSeq_touches (h : Nat) (isOpen : Bool) (hμ : hasParts μ (partSet [.ftl]) = true) (hs : Touches μ s₀ s) :
    Touches μ s₀ (catSeq h isOpen s) := by
  unfold catSeq
  repeat' (first
    | with_reducible assumption | ((with_reducible refine hasParts_trans hμ ?_); rfl)
    | with_reducible apply addCat_touches | split)

theorem pruneCatalog_touches (hμ : hasParts μ (partSet [.ftl]) = true) (hs : Touches μ s₀ s) :
    Touches μ s₀ (pruneCatalog s) := by
  unfold pruneCatalog
  repeat' (first
    | with_reducible assumption | with_reducible intro _ | ((with_reducible refine hasParts_trans hμ ?_); rfl)
    | with_reducible apply Touches.modFtl | split | dsimp only)

theorem retarget_touches (a b : PageAt) (hμ : hasParts μ (partSet [.ops, .cdc, .tier]) = true) (hs : Touches μ s₀ s) :
    Touches μ s₀ (retarget a b s) := by
  unfold retarget
  repeat' (first
    | with_reducible assumption | with_reducible intro _ | ((with_reducible refine hasParts_trans hμ ?_); rfl)
    | with_reducible apply Touches.ite | with_reducible apply Touches.modOps | with_reducible apply Touches.modCdc
    | with_reducible apply Touches.modTier | split | dsimp only)

theorem makeShared_touches (h layer first : Nat) (hμ : hasParts μ (partSet [.seqs, .ops, .cdc, .tier]) = true) (hs :
    Touches μ s₀ s) :
    Touches μ s₀ (makeShared h layer first s).2 := by
  unfold makeShared
  repeat' (first
    | with_reducible assumption | with_reducible intro _ | ((with_reducible refine hasParts_trans hμ ?_); rfl)
    | with_reducible apply Touches.ite | with_reducible apply Touches.ite_snd | with_reducible apply Touches.modSeqs
    | with_reducible apply invalidate_touches | with_reducible apply modSeq_touches
    | with_reducible apply retarget_touches | split | dsimp only)

theorem addRef_touches (r hint prio : Nat) (hμ : hasParts μ (partSet [.hbm, .seqs, .cdc, .tier, .wt, .ftl]) = true)
    (hs : Touches μ s₀ s) :
    Touches μ s₀ (addRef r hint prio s) := by
  unfold addRef
  repeat' (first
    | with_reducible assumption | with_reducible intro _ | ((with_reducible refine hasParts_trans hμ ?_); rfl)
    | with_reducible apply Touches.ite | with_reducible apply pinStops_touches | with_reducible apply modRec_touches
    | split)

theorem tableFrom_touches (f : Run → State → State) (x : Need) (hf : ∀ a0 t, Touches μ s₀ t → Touches μ s₀ (f a0 t))
    (hx : needTouched μ s₀ x) :
    tablesTouched μ s₀ (tableFrom f x) := by
  unfold tableFrom
  repeat' (first
    | with_reducible assumption | with_reducible apply tablesTouched_ok | with_reducible apply tablesTouched_wait
    | with_reducible apply tablesTouched_fail | exact hx | with_reducible apply hf | split)

theorem growDir_touches (h i : Nat) (d : Descent) (hμ : hasParts μ (partSet [.link, .coh, .hbm, .io, .seqs, .pfx,
    .casc, .cdc, .tier, .wt, .ftl, .sec]) = true) (hs : Touches μ s₀ s) :
    tablesTouched μ s₀ (growDir h i d s) := by
  unfold growDir
  repeat' (first
    | with_reducible assumption | with_reducible intro _ | ((with_reducible refine hasParts_trans hμ ?_); rfl)
    | with_reducible apply Touches.ite | with_reducible apply tableFrom_touches | with_reducible apply modSeq_touches
    | with_reducible apply drainHome_touches | with_reducible apply needTable_touches
    | with_reducible apply Touches.ofNeed_got (by with_reducible assumption)
    | with_reducible apply Touches.ofNeed_wait (by with_reducible assumption)
    | with_reducible apply Touches.ofNeed_fail (by with_reducible assumption) | with_reducible apply tablesTouched_ok
    | with_reducible apply tablesTouched_wait | with_reducible apply tablesTouched_fail
    | with_reducible apply Touches.ofTables_ok (by with_reducible assumption)
    | with_reducible apply Touches.ofTables_wait (by with_reducible assumption)
    | with_reducible apply Touches.ofTables_fail (by with_reducible assumption) | split | dsimp only)

theorem ensureL2_touches (h layer i : Nat) (d : Descent) (hμ : hasParts μ (partSet [.link, .coh, .hbm, .io, .seqs,
    .pfx, .casc, .cdc, .tier, .wt, .ftl, .sec]) = true) (hs : Touches μ s₀ s) :
    tablesTouched μ s₀ (ensureL2 h layer i d s) := by
  unfold ensureL2
  repeat' (first
    | with_reducible assumption | with_reducible intro _ | ((with_reducible refine hasParts_trans hμ ?_); rfl)
    | with_reducible apply Touches.ite | with_reducible apply tableFrom_touches | with_reducible apply modSeq_touches
    | with_reducible apply needTable_touches | with_reducible apply Touches.ofNeed_got (by with_reducible assumption)
    | with_reducible apply Touches.ofNeed_wait (by with_reducible assumption)
    | with_reducible apply Touches.ofNeed_fail (by with_reducible assumption) | with_reducible apply tablesTouched_ok
    | with_reducible apply tablesTouched_wait | with_reducible apply tablesTouched_fail
    | with_reducible apply Touches.ofTables_ok (by with_reducible assumption)
    | with_reducible apply Touches.ofTables_wait (by with_reducible assumption)
    | with_reducible apply Touches.ofTables_fail (by with_reducible assumption) | split)

theorem ensureTables_touches (h layer first size : Nat) (d : Descent) (hμ : hasParts μ (partSet [.link, .coh, .hbm,
    .io, .seqs, .pfx, .casc, .cdc, .tier, .wt, .ftl, .sec]) = true) (hs : Touches μ s₀ s) :
    tablesTouched μ s₀ (ensureTables h layer first size d s) := by
  unfold ensureTables
  repeat' (first
    | with_reducible assumption | ((with_reducible refine hasParts_trans hμ ?_); rfl)
    | with_reducible apply Touches.ite | with_reducible apply growDir_touches | with_reducible apply ensureL2_touches
    | with_reducible apply tablesTouched_ok | with_reducible apply tablesTouched_wait
    | with_reducible apply tablesTouched_fail
    | with_reducible apply Touches.ofTables_ok (by with_reducible assumption)
    | with_reducible apply Touches.ofTables_wait (by with_reducible assumption)
    | with_reducible apply Touches.ofTables_fail (by with_reducible assumption) | split)

theorem dropBareTables_touches (h : Nat) (hμ : hasParts μ (partSet [.hbm, .seqs]) = true) (hs : Touches μ s₀ s) :
    Touches μ s₀ (dropBareTables h s) := by
  unfold dropBareTables
  repeat' (first
    | with_reducible assumption | with_reducible intro _ | ((with_reducible refine hasParts_trans hμ ?_); rfl)
    | with_reducible apply Touches.forEach | with_reducible apply freeRun_touches
    | with_reducible apply modSeq_touches | split | dsimp only)

theorem seqOpened_touches (ctx : Nat) (il : List Byte) (run : Option Run) (hμ : hasParts μ (partSet [.hbm, .seqs,
    .ftl]) = true) (hs : Touches μ s₀ s) :
    Touches μ s₀ (seqOpened ctx il run s).2 := by
  unfold seqOpened
  repeat' (first
    | with_reducible assumption | with_reducible intro _ | ((with_reducible refine hasParts_trans hμ ?_); rfl)
    | with_reducible apply Touches.modSeqs | with_reducible apply freeRun?_touches
    | with_reducible apply takeSeq_touches | with_reducible apply catSeq_touches
    | with_reducible apply Touches.of_snd (by with_reducible assumption) | split | dsimp only)

theorem openNeed_touches (ctx : Nat) (il : List Byte) (d : Descent) (hμ : hasParts μ (partSet [.link, .coh, .hbm, .io,
    .seqs, .pfx, .casc, .cdc, .tier, .wt, .ftl, .sec]) = true) (hs : Touches μ s₀ s) :
    needTouched μ s₀ (openNeed ctx il d s) := by
  unfold openNeed
  repeat' (first
    | with_reducible assumption | ((with_reducible refine hasParts_trans hμ ?_); rfl)
    | with_reducible apply needTable_touches | with_reducible apply needTouched_got
    | with_reducible apply needTouched_wait | with_reducible apply needTouched_fail
    | with_reducible apply Touches.ofNeed_got (by with_reducible assumption)
    | with_reducible apply Touches.ofNeed_wait (by with_reducible assumption)
    | with_reducible apply Touches.ofNeed_fail (by with_reducible assumption))

theorem seqOpen_touches (ring : Nat) (e : Entry) (hμ : hasParts μ (partSet [.link, .coh, .hbm, .rng, .io, .seqs, .pfx,
    .casc, .ops, .cdc, .tier, .wt, .ftl, .sch, .sec]) = true) (hs : Touches μ s₀ s) :
    Touches μ s₀ (seqOpen ring e s) := by
  unfold seqOpen
  repeat' (first
    | with_reducible assumption | ((with_reducible refine hasParts_trans hμ ?_); rfl)
    | with_reducible apply Touches.ite | with_reducible apply Touches.ite_snd | with_reducible apply endNow_touches
    | with_reducible apply openNeed_touches | with_reducible apply seqOpened_touches
    | with_reducible apply beginOp_touches | with_reducible apply Touches.ofNeed_got (by with_reducible assumption)
    | with_reducible apply Touches.ofNeed_wait (by with_reducible assumption)
    | with_reducible apply Touches.ofNeed_fail (by with_reducible assumption)
    | with_reducible apply Touches.of_snd (by with_reducible assumption) | split | dsimp only)

theorem execSeqOpen_touches {t : State} (ring : Nat) (hμ : hasParts μ (partSet [.link, .coh, .hbm, .rng, .io, .seqs,
    .pfx, .casc, .ops, .cdc, .tier, .wt, .ftl, .sch, .sec]) = true) (he : execSeqOpen ring s = .next t) (hs : Touches
    μ s₀ s) :
    Touches μ s₀ t := by
  unfold execSeqOpen at he
  cases he
  repeat' (first
    | with_reducible assumption | with_reducible intro _ | ((with_reducible refine hasParts_trans hμ ?_); rfl)
    | with_reducible apply Touches.ite | with_reducible apply startOp_touches | with_reducible apply seqOpen_touches
    | split)

theorem closeSeq_touches (h : Nat) (hμ : hasParts μ (partSet [.link, .hbm, .io, .seqs, .casc, .cdc, .tier, .wt, .ftl,
    .sec]) = true) (hs : Touches μ s₀ s) :
    Touches μ s₀ (closeSeq h s).2.2 := by
  unfold closeSeq
  repeat' (first
    | with_reducible assumption | with_reducible intro _ | ((with_reducible refine hasParts_trans hμ ?_); rfl)
    | with_reducible apply Touches.modSeqs | with_reducible apply Touches.forEach
    | with_reducible apply catSeq_touches | with_reducible apply freeStores_touches
    | with_reducible apply dropRef_touches | with_reducible apply freeRun_touches
    | with_reducible apply freeRun?_touches | with_reducible apply pruneCatalog_touches
    | with_reducible apply sweepJournals_touches | split | dsimp only)

theorem settleClose_touches (hμ : hasParts μ (partSet [.link, .hbm, .rng, .io, .seqs, .casc, .ops, .cdc, .tier, .wt,
    .ftl, .sch, .sec]) = true) (hs : Touches μ s₀ s) :
    Touches μ s₀ (settleClose s) := by
  unfold settleClose
  repeat' (first
    | with_reducible assumption | with_reducible intro _ | ((with_reducible refine hasParts_trans hμ ?_); rfl)
    | with_reducible apply Touches.ite | with_reducible apply Touches.forEach | with_reducible apply closeSeq_touches
    | with_reducible apply endOp_touches | with_reducible apply Touches.of_snd3 (by with_reducible assumption)
    | split | dsimp only)

theorem finishOp_touches (id : Nat) (a : Ans) (hμ : hasParts μ (partSet [.link, .hbm, .rng, .io, .seqs, .casc, .ops,
    .cdc, .tier, .wt, .ftl, .sch, .sec]) = true) (hs : Touches μ s₀ s) :
    Touches μ s₀ (finishOp id a s) := by
  unfold finishOp
  repeat' (first
    | with_reducible assumption | ((with_reducible refine hasParts_trans hμ ?_); rfl)
    | with_reducible apply settleClose_touches | with_reducible apply endOp_touches
    | with_reducible apply dropReads_touches)

theorem seqCloseOp_touches (ring : Nat) (e : Entry) (hμ : hasParts μ (partSet [.link, .hbm, .rng, .io, .seqs, .casc,
    .ops, .cdc, .tier, .wt, .ftl, .sch, .sec]) = true) (hs : Touches μ s₀ s) :
    Touches μ s₀ (seqCloseOp ring e s) := by
  unfold seqCloseOp
  repeat' (first
    | with_reducible assumption | with_reducible intro _ | ((with_reducible refine hasParts_trans hμ ?_); rfl)
    | with_reducible apply Touches.ite | with_reducible apply Touches.ite_snd | with_reducible apply endNow_touches
    | with_reducible apply settleClose_touches | with_reducible apply beginOp_touches
    | with_reducible apply modSeq_touches | with_reducible apply Touches.of_snd (by with_reducible assumption)
    | split | dsimp only)

theorem execSeqClose_touches {t : State} (ring : Nat) (hμ : hasParts μ (partSet [.link, .hbm, .rng, .io, .seqs, .casc,
    .ops, .cdc, .tier, .wt, .ftl, .sch, .sec]) = true) (he : execSeqClose ring s = .next t) (hs : Touches μ s₀ s) :
    Touches μ s₀ t := by
  unfold execSeqClose at he
  cases he
  repeat' (first
    | with_reducible assumption | with_reducible intro _ | ((with_reducible refine hasParts_trans hμ ?_); rfl)
    | with_reducible apply startOp_touches | with_reducible apply seqCloseOp_touches)

theorem shareTo_touches (h child : Nat) (e : PEnt) (hμ : hasParts μ (partSet [.hbm, .seqs, .ops, .cdc, .tier, .wt,
    .ftl]) = true) (hs : Touches μ s₀ s) :
    Touches μ s₀ (shareTo h child e s) := by
  unfold shareTo
  repeat' (first
    | with_reducible assumption | with_reducible intro _ | ((with_reducible refine hasParts_trans hμ ?_); rfl)
    | with_reducible apply makeShared_touches | with_reducible apply addRef_touches
    | with_reducible apply modSeq_touches | with_reducible apply Touches.of_snd (by with_reducible assumption))

theorem forkTables_touches (parent part : Nat) (hμ : hasParts μ (partSet [.link, .coh, .hbm, .io, .seqs, .pfx, .casc,
    .cdc, .tier, .wt, .ftl, .sec]) = true) : ∀ (y0 : List Nat) (y1 : List Run) (y2 : Descent) {s : State} , Touches μ
    s₀ s → forkedTouched μ s₀ (forkTables parent part y0 y1 y2 s) := by
  intro y0
  induction y0 with
  | nil =>
    intro y1 y2 s _
    unfold forkTables
    repeat' (first
      | with_reducible assumption | ((with_reducible refine hasParts_trans hμ ?_); rfl)
      | with_reducible apply needTable_touches | with_reducible apply Touches.ofNeed_got (by with_reducible assumption)
      | with_reducible apply Touches.ofNeed_wait (by with_reducible assumption)
      | with_reducible apply Touches.ofNeed_fail (by with_reducible assumption)
      | with_reducible apply forkedTouched_all | with_reducible apply forkedTouched_wait
      | with_reducible apply forkedTouched_fail | split)
  | cons c rest ih =>
    intro y1 y2 s _
    unfold forkTables
    repeat' (first
      | with_reducible assumption | ((with_reducible refine hasParts_trans hμ ?_); rfl)
      | with_reducible apply needTable_touches | with_reducible apply Touches.ofNeed_got (by with_reducible assumption)
      | with_reducible apply Touches.ofNeed_wait (by with_reducible assumption)
      | with_reducible apply Touches.ofNeed_fail (by with_reducible assumption)
      | with_reducible apply forkedTouched_all | with_reducible apply forkedTouched_wait
      | with_reducible apply forkedTouched_fail | with_reducible apply ih | split)

theorem seqForked_touches (h : Nat) (runs : List Run) (hμ : hasParts μ (partSet [.hbm, .seqs, .ops, .cdc, .tier, .wt,
    .ftl]) = true) (hs : Touches μ s₀ s) :
    Touches μ s₀ (seqForked h runs s).2 := by
  unfold seqForked
  repeat' (first
    | with_reducible assumption | with_reducible intro _ | ((with_reducible refine hasParts_trans hμ ?_); rfl)
    | with_reducible apply Touches.ite | with_reducible apply Touches.ite_snd | with_reducible apply Touches.modSeqs
    | with_reducible apply Touches.forEach | with_reducible apply freeRun_touches
    | with_reducible apply takeSeq_touches | with_reducible apply shareTo_touches
    | with_reducible apply catSeq_touches | with_reducible apply Touches.of_snd (by with_reducible assumption)
    | split | dsimp only)

theorem forkRefused_touches (h : Nat) (runs : List Run) (hμ : hasParts μ (partSet [.hbm]) = true) (hs : Touches μ s₀
    s) :
    Touches μ s₀ (forkRefused h runs s).2 := by
  unfold forkRefused
  repeat' (first
    | with_reducible assumption | with_reducible intro _ | ((with_reducible refine hasParts_trans hμ ?_); rfl)
    | with_reducible apply Touches.forEach | with_reducible apply freeRun_touches | split)

theorem seqFork_touches (ring : Nat) (e : Entry) (hμ : hasParts μ (partSet [.link, .coh, .hbm, .rng, .io, .seqs, .pfx,
    .casc, .ops, .cdc, .tier, .wt, .ftl, .sch, .sec]) = true) (hs : Touches μ s₀ s) :
    Touches μ s₀ (seqFork ring e s) := by
  unfold seqFork
  repeat' (first
    | with_reducible assumption | ((with_reducible refine hasParts_trans hμ ?_); rfl)
    | with_reducible apply Touches.ite | with_reducible apply Touches.ite_snd | with_reducible apply endNow_touches
    | with_reducible apply forkTables_touches | with_reducible apply seqForked_touches
    | with_reducible apply beginOp_touches | with_reducible apply forkRefused_touches
    | with_reducible apply Touches.ofForked_all (by with_reducible assumption)
    | with_reducible apply Touches.ofForked_wait (by with_reducible assumption)
    | with_reducible apply Touches.ofForked_fail (by with_reducible assumption)
    | with_reducible apply Touches.of_snd (by with_reducible assumption) | split | dsimp only)

theorem driveTables_touches (id : Nat) (hμ : hasParts μ (partSet [.link, .coh, .hbm, .rng, .io, .seqs, .pfx, .casc,
    .ops, .cdc, .tier, .wt, .ftl, .sch, .sec]) = true) (hs : Touches μ s₀ s) :
    Touches μ s₀ (driveTables id s) := by
  unfold driveTables
  repeat' (first
    | with_reducible assumption | with_reducible intro _ | ((with_reducible refine hasParts_trans hμ ?_); rfl)
    | with_reducible apply seqOpen_touches | with_reducible apply openNeed_touches
    | with_reducible apply seqOpened_touches | with_reducible apply finishOp_touches
    | with_reducible apply modOp_touches | with_reducible apply seqFork_touches
    | with_reducible apply forkTables_touches | with_reducible apply seqForked_touches
    | with_reducible apply forkRefused_touches
    | with_reducible apply Touches.ofNeed_got (by with_reducible assumption)
    | with_reducible apply Touches.ofNeed_wait (by with_reducible assumption)
    | with_reducible apply Touches.ofNeed_fail (by with_reducible assumption)
    | with_reducible apply Touches.ofForked_all (by with_reducible assumption)
    | with_reducible apply Touches.ofForked_wait (by with_reducible assumption)
    | with_reducible apply Touches.ofForked_fail (by with_reducible assumption)
    | with_reducible apply Touches.of_snd (by with_reducible assumption) | split | dsimp only)

theorem execSeqFork_touches {t : State} (ring : Nat) (hμ : hasParts μ (partSet [.link, .coh, .hbm, .rng, .io, .seqs,
    .pfx, .casc, .ops, .cdc, .tier, .wt, .ftl, .sch, .sec]) = true) (he : execSeqFork ring s = .next t) (hs : Touches
    μ s₀ s) :
    Touches μ s₀ t := by
  unfold execSeqFork at he
  cases he
  repeat' (first
    | with_reducible assumption | with_reducible intro _ | ((with_reducible refine hasParts_trans hμ ?_); rfl)
    | with_reducible apply Touches.ite | with_reducible apply startOp_touches | with_reducible apply seqFork_touches
    | split | dsimp only)

theorem execTicketWrite_touches {t : State} (part : Nat) (hμ : hasParts μ (partSet [.link, .rng, .io, .seqs, .sec]) =
    true) (he : execTicketWrite part s = .next t) (hs : Touches μ s₀ s) :
    Touches μ s₀ t := by
  unfold execTicketWrite at he
  cases he
  repeat' (first
    | with_reducible assumption | exact fun _ q => RingOk.map _ (fun e => by split <;> rfl) rfl rfl q
    | exact fun _ q => RingOk.filter _ rfl rfl q | exact fun _ q => q | with_reducible intro _
    | ((with_reducible refine hasParts_trans hμ ?_); rfl) | with_reducible apply Touches.ite
    | with_reducible apply Touches.modSeqs | with_reducible apply unlessStopped_touches
    | with_reducible apply writeCpl_touches | with_reducible apply modRing_touches | split | dsimp only)

theorem setMdErr_touches (hμ : hasParts μ (partSet [.seqs]) = true) (hs : Touches μ s₀ s) :
    Touches μ s₀ (setMdErr s) := by
  unfold setMdErr
  repeat' (first
    | with_reducible assumption | with_reducible intro _ | ((with_reducible refine hasParts_trans hμ ?_); rfl)
    | with_reducible apply Touches.modSeqs)

theorem mdLoadCmd_touches (path : Path) (hμ : hasParts μ (partSet [.seqs, .sec]) = true) (hs : Touches μ s₀ s) :
    Touches μ s₀ (mdLoadCmd path s) := by
  unfold mdLoadCmd
  repeat' (first
    | with_reducible assumption | exact fun _ => FusesKept.refl _ | with_reducible intro _
    | ((with_reducible refine hasParts_trans hμ ?_); rfl) | with_reducible apply Touches.ite
    | with_reducible apply Touches.modSeqs | with_reducible apply Touches.modSec
    | with_reducible apply setMdErr_touches | split | dsimp only)

theorem execMdLoad_touches {t : State} (path : Path) (hμ : hasParts μ (partSet [.seqs, .sec]) = true) (he : execMdLoad
    path s = .next t) (hs : Touches μ s₀ s) :
    Touches μ s₀ t := by
  unfold execMdLoad at he
  cases he
  repeat' (first
    | with_reducible assumption | with_reducible intro _ | ((with_reducible refine hasParts_trans hμ ?_); rfl)
    | with_reducible apply regAccess_touches | with_reducible apply mdLoadCmd_touches)

theorem mdReadCmd_touches (path : Path) (hμ : hasParts μ (partSet [.seqs]) = true) (hs : Touches μ s₀ s) :
    Touches μ s₀ (mdReadCmd path s) := by
  unfold mdReadCmd
  repeat' (first
    | with_reducible assumption | with_reducible intro _ | ((with_reducible refine hasParts_trans hμ ?_); rfl)
    | with_reducible apply Touches.modSeqs | split)

theorem execMdRead_touches {t : State} (path : Path) (hμ : hasParts μ (partSet [.seqs]) = true) (he : execMdRead path
    s = .next t) (hs : Touches μ s₀ s) :
    Touches μ s₀ t := by
  unfold execMdRead at he
  cases he
  repeat' (first
    | with_reducible assumption | with_reducible intro _ | ((with_reducible refine hasParts_trans hμ ?_); rfl)
    | with_reducible apply regAccess_touches | with_reducible apply mdReadCmd_touches)

theorem mdUnloadCmd_touches (path : Path) (hμ : hasParts μ (partSet [.seqs]) = true) (hs : Touches μ s₀ s) :
    Touches μ s₀ (mdUnloadCmd path s) := by
  unfold mdUnloadCmd
  repeat' (first
    | with_reducible assumption | with_reducible intro _ | ((with_reducible refine hasParts_trans hμ ?_); rfl)
    | with_reducible apply Touches.ite | with_reducible apply Touches.modSeqs | with_reducible apply setMdErr_touches
    | split)

theorem execMdUnload_touches {t : State} (path : Path) (hμ : hasParts μ (partSet [.seqs]) = true) (he : execMdUnload
    path s = .next t) (hs : Touches μ s₀ s) :
    Touches μ s₀ t := by
  unfold execMdUnload at he
  cases he
  repeat' (first
    | with_reducible assumption | with_reducible intro _ | ((with_reducible refine hasParts_trans hμ ?_); rfl)
    | with_reducible apply regAccess_touches | with_reducible apply mdUnloadCmd_touches)

end Sys2Proof.Machine
end

