-- ==== Sys2Proof/Laws/AppendTouches.lean ====
section
/-! SUPPORT. Which parts of State the operations of Machine/Append.lean may touch: one lemma per operation. -/

namespace Sys2Proof.Machine

open Sys2Proof

variable {μ : Nat} {s₀ s : State}

/-- The state a `Got` carries was touched in the parts `μ` only. -/
def gotTouched (μ : Nat) (s₀ : State) : Got → Prop
  | .ok _ s => Touches μ s₀ s
  | .wait _ s => Touches μ s₀ s
  | .full _ s => Touches μ s₀ s

theorem gotTouched_ok (x : AppendSt) (hs : Touches μ s₀ s) : gotTouched μ s₀ (.ok x s) := hs

theorem Touches.ofGot_ok {r : Got} {x : AppendSt} {t : State} (e : r = .ok x t) (h : gotTouched μ s₀ r) : Touches μ s₀ t := by
  rw [e] at h
  exact h

theorem gotTouched_wait (x : AppendSt) (hs : Touches μ s₀ s) : gotTouched μ s₀ (.wait x s) := hs

theorem Touches.ofGot_wait {r : Got} {x : AppendSt} {t : State} (e : r = .wait x t) (h : gotTouched μ s₀ r) : Touches μ s₀ t := by
  rw [e] at h
  exact h

theorem gotTouched_full (x : AppendSt) (hs : Touches μ s₀ s) : gotTouched μ s₀ (.full x s) := hs

theorem Touches.ofGot_full {r : Got} {x : AppendSt} {t : State} (e : r = .full x t) (h : gotTouched μ s₀ r) : Touches μ s₀ t := by
  rw [e] at h
  exact h


/-- The state a `Ran` carries was touched in the parts `μ` only. -/
def ranTouched (μ : Nat) (s₀ : State) : Ran → Prop
  | .upto _ s => Touches μ s₀ s
  | .wait _ s => Touches μ s₀ s
  | .ended _ s => Touches μ s₀ s

theorem ranTouched_upto (x : AppendSt) (hs : Touches μ s₀ s) : ranTouched μ s₀ (.upto x s) := hs

theorem Touches.ofRan_upto {r : Ran} {x : AppendSt} {t : State} (e : r = .upto x t) (h : ranTouched μ s₀ r) : Touches μ s₀ t := by
  rw [e] at h
  exact h

theorem ranTouched_wait (x : AppendSt) (hs : Touches μ s₀ s) : ranTouched μ s₀ (.wait x s) := hs

theorem Touches.ofRan_wait {r : Ran} {x : AppendSt} {t : State} (e : r = .wait x t) (h : ranTouched μ s₀ r) : Touches μ s₀ t := by
  rw [e] at h
  exact h

theorem ranTouched_ended (x : AppendSt) (hs : Touches μ s₀ s) : ranTouched μ s₀ (.ended x s) := hs

theorem Touches.ofRan_ended {r : Ran} {x : AppendSt} {t : State} (e : r = .ended x t) (h : ranTouched μ s₀ r) : Touches μ s₀ t := by
  rw [e] at h
  exact h


theorem obtainLayer_touches (h layer l first size upto : Nat) (a : AppendSt) (hμ : hasParts μ (partSet [.free, .link,
    .coh, .hbm, .io, .seqs, .pfx, .casc, .cdc, .tier, .wt, .ftl, .sec]) = true) (hs : Touches μ s₀ s) :
    gotTouched μ s₀ (obtainLayer h layer l first size upto a s) := by
  unfold obtainLayer
  repeat' (first
    | with_reducible assumption | ((with_reducible refine hasParts_trans hμ ?_); rfl)
    | with_reducible apply fresh_touches | with_reducible apply ensureTables_touches
    | with_reducible apply need_touches | with_reducible apply countLadder_touches
    | with_reducible apply Touches.ofNeed_got (by with_reducible assumption)
    | with_reducible apply Touches.ofNeed_wait (by with_reducible assumption)
    | with_reducible apply Touches.ofNeed_fail (by with_reducible assumption) | with_reducible apply gotTouched_ok
    | with_reducible apply gotTouched_wait | with_reducible apply gotTouched_full
    | with_reducible apply Touches.ofTables_ok (by with_reducible assumption)
    | with_reducible apply Touches.ofTables_wait (by with_reducible assumption)
    | with_reducible apply Touches.ofTables_fail (by with_reducible assumption)
    | with_reducible apply Touches.of_snd (by with_reducible assumption) | split | dsimp only)

theorem obtainLayers_touches (h l first size upto : Nat) (hμ : hasParts μ (partSet [.free, .link, .coh, .hbm, .io,
    .seqs, .pfx, .casc, .cdc, .tier, .wt, .ftl, .sec]) = true) : ∀ (y0 : List Nat) (y1 : AppendSt) {s : State} ,
    Touches μ s₀ s → gotTouched μ s₀ (obtainLayers h l first size upto y0 y1 s) := by
  intro y0
  induction y0 with
  | nil =>
    intro y1 s _
    unfold obtainLayers
    repeat' (first
      | with_reducible assumption | ((with_reducible refine hasParts_trans hμ ?_); rfl)
      | with_reducible apply obtainLayer_touches | with_reducible apply gotTouched_ok
      | with_reducible apply gotTouched_wait | with_reducible apply gotTouched_full
      | with_reducible apply Touches.ofGot_ok (by with_reducible assumption)
      | with_reducible apply Touches.ofGot_wait (by with_reducible assumption)
      | with_reducible apply Touches.ofGot_full (by with_reducible assumption) | split)
  | cons c rest ih =>
    intro y1 s _
    unfold obtainLayers
    repeat' (first
      | with_reducible assumption | ((with_reducible refine hasParts_trans hμ ?_); rfl)
      | with_reducible apply obtainLayer_touches | with_reducible apply gotTouched_ok
      | with_reducible apply gotTouched_wait | with_reducible apply gotTouched_full
      | with_reducible apply Touches.ofGot_ok (by with_reducible assumption)
      | with_reducible apply Touches.ofGot_wait (by with_reducible assumption)
      | with_reducible apply Touches.ofGot_full (by with_reducible assumption) | with_reducible apply ih | split)

theorem returnHeld_touches (a : AppendSt) (hμ : hasParts μ (partSet [.hbm, .seqs]) = true) (hs : Touches μ s₀ s) :
    Touches μ s₀ (returnHeld a s) := by
  unfold returnHeld
  repeat' (first
    | with_reducible assumption | with_reducible intro _ | ((with_reducible refine hasParts_trans hμ ?_); rfl)
    | with_reducible apply Touches.forEach | with_reducible apply dropBareTables_touches
    | with_reducible apply freeHome_touches)

theorem mapHeld_touches (h layer : Nat) (p : Page) (hμ : hasParts μ (partSet [.link, .hbm, .io, .seqs, .casc, .cdc,
    .tier, .wt, .ftl, .sec]) = true) (hs : Touches μ s₀ s) :
    Touches μ s₀ (mapHeld h layer p s) := by
  unfold mapHeld
  repeat' (first
    | with_reducible assumption | with_reducible intro _ | ((with_reducible refine hasParts_trans hμ ?_); rfl)
    | with_reducible apply Touches.ite | with_reducible apply modSeq_touches
    | with_reducible apply invalidate_touches | with_reducible apply dropRef_touches
    | with_reducible apply freeStores_touches | split | dsimp only)

theorem writeLayer_touches (h layer first l w : Nat) (a : AppendSt) (src : Nat → List Byte) (hμ : hasParts μ (partSet
    [.link, .coh, .hbm, .io, .seqs, .casc, .cdc, .tier, .wt, .ftl, .sec]) = true) (hs : Touches μ s₀ s) :
    Touches μ s₀ (writeLayer h layer first l w a src s) := by
  unfold writeLayer
  repeat' (first
    | with_reducible assumption | with_reducible intro _ | ((with_reducible refine hasParts_trans hμ ?_); rfl)
    | with_reducible apply Touches.ite | with_reducible apply mapHeld_touches | with_reducible apply modPage_touches
    | with_reducible apply sealPage_touches | split | dsimp only)

theorem writeRange_touches (h first size l w : Nat) (a : AppendSt) (src : Nat → List Byte) (hμ : hasParts μ (partSet
    [.link, .coh, .hbm, .io, .seqs, .casc, .cdc, .tier, .wt, .ftl, .sec]) = true) (hs : Touches μ s₀ s) :
    Touches μ s₀ (writeRange h first size l w a src s).2 := by
  unfold writeRange
  repeat' (first
    | with_reducible assumption | with_reducible intro _ | ((with_reducible refine hasParts_trans hμ ?_); rfl)
    | with_reducible apply Touches.ite | with_reducible apply Touches.ite_snd | with_reducible apply Touches.forEach
    | with_reducible apply writeLayer_touches | with_reducible apply modSeq_touches | split | dsimp only)

theorem runRanges_touches (src : Nat → List Byte) (lim : Nat) (hμ : hasParts μ (partSet [.free, .link, .coh, .hbm,
    .io, .seqs, .pfx, .casc, .cdc, .tier, .wt, .ftl, .sec]) = true) : ∀ (y0 : Nat) (y1 : AppendSt) {s : State} ,
    Touches μ s₀ s → ranTouched μ s₀ (runRanges src lim y0 y1 s) := by
  intro y0
  induction y0 with
  | zero =>
    intro y1 s _
    unfold runRanges
    repeat' (first
      | with_reducible assumption | ((with_reducible refine hasParts_trans hμ ?_); rfl)
      | with_reducible apply Touches.ite | with_reducible apply Touches.ite_snd
      | with_reducible apply obtainLayers_touches | with_reducible apply writeRange_touches
      | with_reducible apply returnHeld_touches | with_reducible apply Touches.ofGot_ok (by with_reducible assumption)
      | with_reducible apply Touches.ofGot_wait (by with_reducible assumption)
      | with_reducible apply Touches.ofGot_full (by with_reducible assumption) | with_reducible apply ranTouched_upto
      | with_reducible apply ranTouched_wait | with_reducible apply ranTouched_ended
      | with_reducible apply Touches.of_snd (by with_reducible assumption) | split | dsimp only)
  | succ fuel ih =>
    intro y1 s _
    unfold runRanges
    repeat' (first
      | with_reducible assumption | ((with_reducible refine hasParts_trans hμ ?_); rfl)
      | with_reducible apply Touches.ite | with_reducible apply Touches.ite_snd
      | with_reducible apply obtainLayers_touches | with_reducible apply writeRange_touches
      | with_reducible apply returnHeld_touches | with_reducible apply Touches.ofGot_ok (by with_reducible assumption)
      | with_reducible apply Touches.ofGot_wait (by with_reducible assumption)
      | with_reducible apply Touches.ofGot_full (by with_reducible assumption) | with_reducible apply ranTouched_upto
      | with_reducible apply ranTouched_wait | with_reducible apply ranTouched_ended | with_reducible apply ih
      | with_reducible apply Touches.of_snd (by with_reducible assumption) | split | dsimp only)

theorem replaceOne_touches (src : Nat → List Byte) (first layer : Nat) (a : AppendSt) (hμ : hasParts μ (partSet
    [.link, .coh, .hbm, .io, .seqs, .pfx, .casc, .cdc, .tier, .wt, .ftl, .sec]) = true) (hs : Touches μ s₀ s) :
    gotTouched μ s₀ (replaceOne src first layer a s) := by
  unfold replaceOne
  repeat' (first
    | with_reducible assumption | with_reducible intro _ | ((with_reducible refine hasParts_trans hμ ?_); rfl)
    | with_reducible apply Touches.ite | with_reducible apply need_touches | with_reducible apply countLadder_touches
    | with_reducible apply freeRun?_touches | with_reducible apply switchPage_touches
    | with_reducible apply sealPage_touches | with_reducible apply Touches.ofNeed_got (by with_reducible assumption)
    | with_reducible apply Touches.ofNeed_wait (by with_reducible assumption)
    | with_reducible apply Touches.ofNeed_fail (by with_reducible assumption) | with_reducible apply gotTouched_ok
    | with_reducible apply gotTouched_wait | with_reducible apply gotTouched_full | split | dsimp only)

theorem runReplace_touches (src : Nat → List Byte) (hμ : hasParts μ (partSet [.link, .coh, .hbm, .io, .seqs, .pfx,
    .casc, .cdc, .tier, .wt, .ftl, .sec]) = true) : ∀ (y0 : List (Nat × Nat)) (y1 : AppendSt) {s : State} , Touches μ
    s₀ s → ranTouched μ s₀ (runReplace src y0 y1 s) := by
  intro y0
  induction y0 with
  | nil =>
    intro y1 s _
    unfold runReplace
    repeat' (first
      | with_reducible assumption | ((with_reducible refine hasParts_trans hμ ?_); rfl)
      | with_reducible apply replaceOne_touches | with_reducible apply Touches.ofGot_ok (by with_reducible assumption)
      | with_reducible apply Touches.ofGot_wait (by with_reducible assumption)
      | with_reducible apply Touches.ofGot_full (by with_reducible assumption) | with_reducible apply ranTouched_upto
      | with_reducible apply ranTouched_wait | with_reducible apply ranTouched_ended | split)
  | cons c rest ih =>
    intro y1 s _
    unfold runReplace
    repeat' (first
      | with_reducible assumption | ((with_reducible refine hasParts_trans hμ ?_); rfl)
      | with_reducible apply replaceOne_touches | with_reducible apply Touches.ofGot_ok (by with_reducible assumption)
      | with_reducible apply Touches.ofGot_wait (by with_reducible assumption)
      | with_reducible apply Touches.ofGot_full (by with_reducible assumption) | with_reducible apply ranTouched_upto
      | with_reducible apply ranTouched_wait | with_reducible apply ranTouched_ended | with_reducible apply ih | split)

theorem runAppend_touches (src : Nat → List Byte) (lim : Nat) (a : AppendSt) (hμ : hasParts μ (partSet [.free, .link,
    .coh, .hbm, .io, .seqs, .pfx, .casc, .cdc, .tier, .wt, .ftl, .sec]) = true) (hs : Touches μ s₀ s) :
    ranTouched μ s₀ (runAppend src lim a s) := by
  unfold runAppend
  repeat' (first
    | with_reducible assumption | ((with_reducible refine hasParts_trans hμ ?_); rfl)
    | with_reducible apply Touches.ite | with_reducible apply runReplace_touches
    | with_reducible apply returnHeld_touches | with_reducible apply runRanges_touches
    | with_reducible apply ranTouched_upto | with_reducible apply ranTouched_wait
    | with_reducible apply ranTouched_ended | with_reducible apply Touches.ofRan_upto (by with_reducible assumption)
    | with_reducible apply Touches.ofRan_wait (by with_reducible assumption)
    | with_reducible apply Touches.ofRan_ended (by with_reducible assumption) | split)

theorem writeJournal_touches (q : Seq) (h : Nat) (m : Model) (a : AppendSt) (src : Nat → List Byte) (hμ : hasParts μ
    (partSet [.ftl]) = true) : ∀ (y0 : Nat) (y1 : Nat) (y2 : Nat) {s : State} , Touches μ s₀ s → Touches μ s₀
    (writeJournal q h m a src y0 y1 y2 s).2 := by
  intro y0
  induction y0 with
  | zero =>
    intro y1 y2 s _
    unfold writeJournal
    repeat' (first
      | with_reducible assumption | with_reducible intro _ | ((with_reducible refine hasParts_trans hμ ?_); rfl)
      | with_reducible apply Touches.ite | with_reducible apply Touches.ite_snd | with_reducible apply addRec_touches
      | with_reducible apply Touches.of_snd (by with_reducible assumption) | split
      | dsimp only)
  | succ fuel ih =>
    intro y1 y2 s _
    unfold writeJournal
    repeat' (first
      | with_reducible assumption | with_reducible intro _ | ((with_reducible refine hasParts_trans hμ ?_); rfl)
      | with_reducible apply Touches.ite | with_reducible apply Touches.ite_snd | with_reducible apply addRec_touches
      | with_reducible apply ih | with_reducible apply Touches.of_snd (by with_reducible assumption) | split
      | dsimp only)

theorem closeAppend_touches (src : Nat → List Byte) (before : Nat) (a : AppendSt) (hμ : hasParts μ (partSet [.coh,
    .hbm, .seqs, .cdc, .wt, .ftl]) = true) (hs : Touches μ s₀ s) :
    Touches μ s₀ (closeAppend src before a s).2 := by
  unfold closeAppend
  repeat' (first
    | with_reducible assumption | with_reducible intro _ | ((with_reducible refine hasParts_trans hμ ?_); rfl)
    | with_reducible apply Touches.ite | with_reducible apply Touches.ite_snd | with_reducible apply Touches.forEach
    | with_reducible apply Touches.when | with_reducible apply sealPage_touches
    | with_reducible apply writeJournal_touches | with_reducible apply catSealed_touches
    | with_reducible apply Touches.of_snd (by with_reducible assumption) | split | dsimp only)

theorem putAppend_touches (id : Nat) (a : AppendSt) (hμ : hasParts μ (partSet [.ops]) = true) (hs : Touches μ s₀ s) :
    Touches μ s₀ (putAppend id a s) := by
  unfold putAppend
  repeat' (first
    | with_reducible assumption | with_reducible intro _ | ((with_reducible refine hasParts_trans hμ ?_); rfl)
    | with_reducible apply modOp_touches)

theorem driveAppend_touches (id : Nat) (hμ : hasParts μ (partSet [.free, .link, .coh, .hbm, .rng, .io, .seqs, .pfx,
    .casc, .ops, .cdc, .tier, .wt, .ftl, .sch, .sec]) = true) (hs : Touches μ s₀ s) :
    Touches μ s₀ (driveAppend id s) := by
  unfold driveAppend
  repeat' (first
    | with_reducible assumption | with_reducible intro _ | ((with_reducible refine hasParts_trans hμ ?_); rfl)
    | with_reducible apply Touches.ite | with_reducible apply Touches.ite_snd | with_reducible apply finishOp_touches
    | with_reducible apply putAppend_touches | with_reducible apply runAppend_touches
    | with_reducible apply closeAppend_touches
    | with_reducible apply Touches.ofRan_upto (by with_reducible assumption)
    | with_reducible apply Touches.ofRan_wait (by with_reducible assumption)
    | with_reducible apply Touches.ofRan_ended (by with_reducible assumption)
    | with_reducible apply Touches.of_snd (by with_reducible assumption) | split | dsimp only)

theorem kvAppend_touches (ring : Nat) (e : Entry) (hμ : hasParts μ (partSet [.free, .link, .coh, .hbm, .rng, .io,
    .seqs, .pfx, .casc, .ops, .cdc, .tier, .wt, .ftl, .sch, .sec]) = true) (hs : Touches μ s₀ s) :
    Touches μ s₀ (kvAppend ring e s) := by
  unfold kvAppend
  repeat' (first
    | with_reducible assumption | with_reducible intro _ | ((with_reducible refine hasParts_trans hμ ?_); rfl)
    | with_reducible apply Touches.forEach | with_reducible apply endNow_touches
    | with_reducible apply beginOp_touches | with_reducible apply countWait_touches
    | with_reducible apply driveAppend_touches | with_reducible apply beginRead_touches
    | with_reducible apply Touches.of_snd (by with_reducible assumption) | split | dsimp only)

theorem execKvAppend_touches {t : State} (ring : Nat) (hμ : hasParts μ (partSet [.free, .link, .coh, .hbm, .rng, .io,
    .seqs, .pfx, .casc, .ops, .cdc, .tier, .wt, .ftl, .sch, .sec]) = true) (he : execKvAppend ring s = .next t) (hs :
    Touches μ s₀ s) :
    Touches μ s₀ t := by
  unfold execKvAppend at he
  cases he
  repeat' (first
    | with_reducible assumption | with_reducible intro _ | ((with_reducible refine hasParts_trans hμ ?_); rfl)
    | with_reducible apply Touches.ite | with_reducible apply startOp_touches | with_reducible apply kvAppend_touches
    | split | dsimp only)

end Sys2Proof.Machine
end

