-- ==== Sys2Proof/Laws/CoherenceTouches.lean ====
section
/-! SUPPORT. Which parts of State the operations of Machine/Coherence.lean may touch: one lemma per operation. -/

namespace Sys2Proof.Machine

open Sys2Proof

variable {μ : Nat} {s₀ s : State}

theorem addFp32_wf {m : List Host.Cell} (a : Nat) (bytes : List Byte) (h : memWf m = true) :
    memWf (addFp32 m a bytes) = true := by
  unfold addFp32
  generalize List.range (bytes.length / 4) = l
  induction l generalizing m with
  | nil => exact h
  | cons i r ih => exact ih (memWrite_wf _ _ h)

theorem modExtent_touches (e : Nat) (f : Extent → Extent) (hμ : hasParts μ (partSet [.ext]) = true) (hs : Touches μ s₀
    s) :
    Touches μ s₀ (modExtent e f s) := by
  unfold modExtent
  repeat' (first
    | with_reducible assumption | with_reducible intro _ | ((with_reducible refine hasParts_trans hμ ?_); rfl)
    | with_reducible apply Touches.modExt)

theorem modRev_touches (e : Nat) (f : Revoke → Revoke) (hμ : hasParts μ (partSet [.ext]) = true) (hs : Touches μ s₀ s)
    :
    Touches μ s₀ (modRev e f s) := by
  unfold modRev
  repeat' (first
    | with_reducible assumption | with_reducible intro _ | ((with_reducible refine hasParts_trans hμ ?_); rfl)
    | with_reducible apply modExtent_touches)

theorem setLine_touches (keep : Bool) (a : Nat) (excl : Bool) (holders : List Node) (hμ : hasParts μ (partSet [.coh])
    = true) (hs : Touches μ s₀ s) :
    Touches μ s₀ (setLine keep a excl holders s) := by
  unfold setLine
  repeat' (first
    | with_reducible assumption | exact fun _ q => q | with_reducible intro _
    | ((with_reducible refine hasParts_trans hμ ?_); rfl) | with_reducible apply Touches.ite
    | with_reducible apply Touches.modCoh | split)

theorem putLine_touches (a : Nat) (excl : Bool) (holders : List Node) (hμ : hasParts μ (partSet [.coh]) = true) (hs :
    Touches μ s₀ s) :
    Touches μ s₀ (putLine a excl holders s) := by
  unfold putLine
  repeat' (first
    | with_reducible assumption | ((with_reducible refine hasParts_trans hμ ?_); rfl)
    | with_reducible apply setLine_touches)

theorem writeLine_touches (a : Nat) (bytes : List Byte) (hμ : hasParts μ (partSet [.coh]) = true) (hs : Touches μ s₀
    s) :
    Touches μ s₀ (writeLine a bytes s) := by
  unfold writeLine
  repeat' (first
    | with_reducible assumption | exact fun _ q => q | exact fun _ q => memWrite_wf _ _ q | with_reducible intro _
    | ((with_reducible refine hasParts_trans hμ ?_); rfl) | with_reducible apply Touches.modCoh)

theorem poisonLine_touches (a : Nat) (hμ : hasParts μ (partSet [.coh]) = true) (hs : Touches μ s₀ s) :
    Touches μ s₀ (poisonLine a s) := by
  unfold poisonLine
  repeat' (first
    | with_reducible assumption | exact fun _ q => q | with_reducible intro _
    | ((with_reducible refine hasParts_trans hμ ?_); rfl) | with_reducible apply Touches.ite
    | with_reducible apply Touches.modCoh | split)

theorem cleanLine_touches (a : Nat) (hμ : hasParts μ (partSet [.coh]) = true) (hs : Touches μ s₀ s) :
    Touches μ s₀ (cleanLine a s) := by
  unfold cleanLine
  repeat' (first
    | with_reducible assumption | exact fun _ q => q | with_reducible intro _
    | ((with_reducible refine hasParts_trans hμ ?_); rfl) | with_reducible apply Touches.modCoh)

theorem freshBytes_touches (n : Nat) (hμ : hasParts μ (partSet [.free]) = true) (hs : Touches μ s₀ s) :
    Touches μ s₀ (freshBytes n s).2 := by
  unfold freshBytes
  repeat' (first
    | with_reducible assumption | ((with_reducible refine hasParts_trans hμ ?_); rfl)
    | with_reducible apply fresh_touches | with_reducible apply Touches.of_snd (by with_reducible assumption))

theorem answerReq_touches (r : LineReq) (typ status flags : Nat) (body : List Byte) (hμ : hasParts μ (partSet [.link,
    .sec]) = true) (hs : Touches μ s₀ s) :
    Touches μ s₀ (answerReq r typ status flags body s) := by
  unfold answerReq
  repeat' (first
    | with_reducible assumption | ((with_reducible refine hasParts_trans hμ ?_); rfl)
    | with_reducible apply send_touches)

theorem answerData_touches (r : LineReq) (hμ : hasParts μ (partSet [.free, .link, .sec]) = true) (hs : Touches μ s₀ s)
    :
    Touches μ s₀ (answerData r s) := by
  unfold answerData
  repeat' (first
    | with_reducible assumption | ((with_reducible refine hasParts_trans hμ ?_); rfl)
    | with_reducible apply Touches.ite | with_reducible apply Touches.ite_snd
    | with_reducible apply freshBytes_touches | with_reducible apply answerReq_touches
    | with_reducible apply Touches.of_snd (by with_reducible assumption) | split | dsimp only)

theorem nakRevoked_touches (r : LineReq) (hμ : hasParts μ (partSet [.link, .sec]) = true) (hs : Touches μ s₀ s) :
    Touches μ s₀ (nakRevoked r s) := by
  unfold nakRevoked
  repeat' (first
    | with_reducible assumption | ((with_reducible refine hasParts_trans hμ ?_); rfl)
    | with_reducible apply answerReq_touches)

theorem answerGone_touches (r : LineReq) (hμ : hasParts μ (partSet [.free, .link, .sec]) = true) (hs : Touches μ s₀ s)
    :
    Touches μ s₀ (answerGone r s) := by
  unfold answerGone
  repeat' (first
    | with_reducible assumption | ((with_reducible refine hasParts_trans hμ ?_); rfl)
    | with_reducible apply freshBytes_touches | with_reducible apply answerReq_touches
    | with_reducible apply Touches.of_snd (by with_reducible assumption))

theorem sendSnoop_touches (a key : Nat) (n : Snoop) (hμ : hasParts μ (partSet [.link, .io, .sec]) = true) (hs :
    Touches μ s₀ s) :
    Touches μ s₀ (sendSnoop a key n s) := by
  unfold sendSnoop
  repeat' (first
    | with_reducible assumption | ((with_reducible refine hasParts_trans hμ ?_); rfl)
    | with_reducible apply Touches.ite | with_reducible apply Touches.ite_snd | with_reducible apply takeTag_touches
    | with_reducible apply send_touches | with_reducible apply Touches.of_snd (by with_reducible assumption) | split
    | dsimp only)

theorem beginTrans_touches (a : Nat) (t : Trans) (hμ : hasParts μ (partSet [.link, .coh, .io, .sec]) = true) (hs :
    Touches μ s₀ s) :
    Touches μ s₀ (beginTrans a t s) := by
  unfold beginTrans
  repeat' (first
    | with_reducible assumption | exact fun _ q => q | with_reducible intro _
    | ((with_reducible refine hasParts_trans hμ ?_); rfl) | with_reducible apply Touches.modCoh
    | with_reducible apply Touches.forEach | with_reducible apply sendSnoop_touches)

theorem countBefore_touches (r : LineReq) (hμ : hasParts μ (partSet [.ext]) = true) (hs : Touches μ s₀ s) :
    Touches μ s₀ (countBefore r s) := by
  unfold countBefore
  repeat' (first
    | with_reducible assumption | with_reducible intro _ | ((with_reducible refine hasParts_trans hμ ?_); rfl)
    | with_reducible apply modRev_touches | split)

theorem finishReq_touches (r : LineReq) (hμ : hasParts μ (partSet [.free, .link, .coh, .ext, .sec]) = true) (hs :
    Touches μ s₀ s) :
    Touches μ s₀ (finishReq r s) := by
  unfold finishReq
  repeat' (first
    | with_reducible assumption | exact fun _ q => q | exact fun _ q => memMasked_wf _ _ _ _ q
    | exact fun _ q => addFp32_wf _ _ q | with_reducible intro _
    | ((with_reducible refine hasParts_trans hμ ?_); rfl) | with_reducible apply Touches.ite
    | with_reducible apply Touches.modCoh | with_reducible apply answerData_touches
    | with_reducible apply putLine_touches | with_reducible apply answerReq_touches
    | with_reducible apply writeLine_touches | with_reducible apply cleanLine_touches
    | with_reducible apply countBefore_touches | split | dsimp only)

theorem serveReq_touches (r : LineReq) (hμ : hasParts μ (partSet [.free, .link, .coh, .ext, .io, .sec]) = true) (hs :
    Touches μ s₀ s) :
    Touches μ s₀ (serveReq r s).2 := by
  unfold serveReq
  repeat' (first
    | with_reducible assumption | with_reducible intro _ | ((with_reducible refine hasParts_trans hμ ?_); rfl)
    | with_reducible apply Touches.ite | with_reducible apply Touches.ite_snd
    | with_reducible apply beginTrans_touches | with_reducible apply finishReq_touches | split)

theorem serveWaiting_touches (hμ : hasParts μ (partSet [.free, .link, .coh, .ext, .io, .sec]) = true) : ∀ (y0 : List
    LineReq) (y1 : List Nat) {s : State} , Touches μ s₀ s → Touches μ s₀ (serveWaiting y0 y1 s) := by
  intro y0
  induction y0 with
  | nil =>
    intro y1 s _
    unfold serveWaiting
    repeat' (first
      | with_reducible assumption | exact fun _ q => q | with_reducible intro _
      | ((with_reducible refine hasParts_trans hμ ?_); rfl) | with_reducible apply Touches.ite
      | with_reducible apply Touches.ite_snd | with_reducible apply Touches.modCoh
      | with_reducible apply serveReq_touches
      | with_reducible apply Touches.of_snd (by with_reducible assumption) | split | dsimp only)
  | cons c rest ih =>
    intro y1 s _
    unfold serveWaiting
    repeat' (first
      | with_reducible assumption | exact fun _ q => q | with_reducible intro _
      | ((with_reducible refine hasParts_trans hμ ?_); rfl) | with_reducible apply Touches.ite
      | with_reducible apply Touches.ite_snd | with_reducible apply Touches.modCoh
      | with_reducible apply serveReq_touches | with_reducible apply ih
      | with_reducible apply Touches.of_snd (by with_reducible assumption) | split | dsimp only)

theorem pumpReqs_touches (hμ : hasParts μ (partSet [.free, .link, .coh, .ext, .io, .sec]) = true) : ∀ (y0 : Nat) {s :
    State} , Touches μ s₀ s → Touches μ s₀ (pumpReqs y0 s) := by
  intro y0
  induction y0 with
  | zero =>
    intro s _
    unfold pumpReqs
    repeat' (first
      | with_reducible assumption | exact fun _ q => q | with_reducible intro _
      | ((with_reducible refine hasParts_trans hμ ?_); rfl) | with_reducible apply Touches.ite
      | with_reducible apply Touches.modCoh | with_reducible apply serveWaiting_touches
      | split | dsimp only)
  | succ fuel ih =>
    intro s _
    unfold pumpReqs
    repeat' (first
      | with_reducible assumption | exact fun _ q => q | with_reducible intro _
      | ((with_reducible refine hasParts_trans hμ ?_); rfl) | with_reducible apply Touches.ite
      | with_reducible apply Touches.modCoh | with_reducible apply serveWaiting_touches | with_reducible apply ih
      | split | dsimp only)

theorem startRecalls_touches (hμ : hasParts μ (partSet [.link, .coh, .ext, .io, .sec]) = true) (hs : Touches μ s₀ s) :
    Touches μ s₀ (startRecalls s) := by
  unfold startRecalls
  repeat' (first
    | with_reducible assumption | exact fun _ q => q | with_reducible intro _
    | ((with_reducible refine hasParts_trans hμ ?_); rfl) | with_reducible apply Touches.ite
    | with_reducible apply Touches.modCoh | with_reducible apply Touches.forEach
    | with_reducible apply modRev_touches | with_reducible apply beginTrans_touches | split | dsimp only)

theorem freeExtent_touches (e : Nat) (x : Extent) (hμ : hasParts μ (partSet [.coh, .ext, .hbm]) = true) (hs : Touches
    μ s₀ s) :
    Touches μ s₀ (freeExtent e x s) := by
  unfold freeExtent
  repeat' (first
    | with_reducible assumption | exact fun _ q => q | exact fun _ q => memClear_wf _ _ q | with_reducible intro _
    | ((with_reducible refine hasParts_trans hμ ?_); rfl) | with_reducible apply Touches.modCoh
    | with_reducible apply Touches.modExt | with_reducible apply Touches.forEach
    | with_reducible apply freeRun_touches)

theorem settleExtents_touches (hμ : hasParts μ (partSet [.link, .coh, .ext, .hbm, .rng, .io, .seqs, .casc, .ops, .cdc,
    .tier, .wt, .ftl, .sch, .sec]) = true) (hs : Touches μ s₀ s) :
    Touches μ s₀ (settleExtents s) := by
  unfold settleExtents
  repeat' (first
    | with_reducible assumption | with_reducible intro _ | ((with_reducible refine hasParts_trans hμ ?_); rfl)
    | with_reducible apply Touches.ite | with_reducible apply Touches.forEach
    | with_reducible apply freeExtent_touches | with_reducible apply finishOp_touches | split | dsimp only)

theorem pumpHome_touches (hμ : hasParts μ (partSet [.free, .link, .coh, .ext, .hbm, .rng, .io, .seqs, .casc, .ops,
    .cdc, .tier, .wt, .ftl, .sch, .sec]) = true) (hs : Touches μ s₀ s) :
    Touches μ s₀ (pumpHome s) := by
  unfold pumpHome
  repeat' (first
    | with_reducible assumption | ((with_reducible refine hasParts_trans hμ ?_); rfl)
    | with_reducible apply settleExtents_touches | with_reducible apply startRecalls_touches
    | with_reducible apply pumpReqs_touches)

theorem snoopDone_touches (a : Nat) (node : Node) (gone : Bool) (hμ : hasParts μ (partSet [.free, .link, .coh, .ext,
    .sec]) = true) (hs : Touches μ s₀ s) :
    Touches μ s₀ (snoopDone a node gone s) := by
  unfold snoopDone
  repeat' (first
    | with_reducible assumption | exact fun _ q => q | with_reducible intro _
    | ((with_reducible refine hasParts_trans hμ ?_); rfl) | with_reducible apply Touches.ite
    | with_reducible apply Touches.modCoh | with_reducible apply setLine_touches
    | with_reducible apply putLine_touches | with_reducible apply finishReq_touches | split | dsimp only)

theorem loseDirty_touches (e a : Nat) (node : Node) (hμ : hasParts μ (partSet [.bbx, .ext]) = true) (hs : Touches μ s₀
    s) :
    Touches μ s₀ (loseDirty e a node s) := by
  unfold loseDirty
  repeat' (first
    | with_reducible assumption | with_reducible intro _ | ((with_reducible refine hasParts_trans hμ ?_); rfl)
    | with_reducible apply Touches.ite | with_reducible apply emit_touches | with_reducible apply modRev_touches
    | split)

theorem takeDirty_touches (a : Nat) (node : Node) (bytes : List Byte) (hμ : hasParts μ (partSet [.bbx, .coh, .ext]) =
    true) (hs : Touches μ s₀ s) :
    Touches μ s₀ (takeDirty a node bytes s).2 := by
  unfold takeDirty
  repeat' (first
    | with_reducible assumption | with_reducible intro _ | ((with_reducible refine hasParts_trans hμ ?_); rfl)
    | with_reducible apply Touches.ite | with_reducible apply Touches.ite_snd
    | with_reducible apply writeLine_touches | with_reducible apply modRev_touches
    | with_reducible apply loseDirty_touches | split)

theorem handedIn_touches (e a : Nat) (node : Node) (hμ : hasParts μ (partSet [.ext]) = true) (hs : Touches μ s₀ s) :
    Touches μ s₀ (handedIn e a node s) := by
  unfold handedIn
  repeat' (first
    | with_reducible assumption | with_reducible intro _ | ((with_reducible refine hasParts_trans hμ ?_); rfl)
    | with_reducible apply modRev_touches)

theorem lateData_touches (h : Hdr) (a : Nat) (data : Option (List Byte)) (hμ : hasParts μ (partSet [.bbx, .link, .coh,
    .ext, .sec]) = true) (hs : Touches μ s₀ s) :
    Touches μ s₀ (lateData h a data s) := by
  unfold lateData
  repeat' (first
    | with_reducible assumption | with_reducible intro _ | ((with_reducible refine hasParts_trans hμ ?_); rfl)
    | with_reducible apply Touches.ite | with_reducible apply Touches.ite_snd
    | with_reducible apply takeDirty_touches | with_reducible apply handedIn_touches
    | with_reducible apply nakTo_touches | with_reducible apply Touches.of_snd (by with_reducible assumption) | split
    | dsimp only)

theorem snpResp_touches (h : Hdr) (a : Nat) (data : Option (List Byte)) (wbPending : Bool) (hμ : hasParts μ (partSet
    [.free, .bbx, .link, .coh, .ext, .hbm, .rng, .io, .seqs, .casc, .ops, .cdc, .tier, .wt, .ftl, .sch, .sec]) = true)
    (hs : Touches μ s₀ s) :
    Touches μ s₀ (snpResp h a data wbPending s) := by
  unfold snpResp
  repeat' (first
    | with_reducible assumption | exact fun _ q => q | with_reducible intro _
    | ((with_reducible refine hasParts_trans hμ ?_); rfl) | with_reducible apply Touches.ite
    | with_reducible apply Touches.ite_snd | with_reducible apply Touches.modCoh
    | with_reducible apply lateData_touches | with_reducible apply takeDirty_touches
    | with_reducible apply handedIn_touches | with_reducible apply nakTo_touches
    | with_reducible apply pumpHome_touches | with_reducible apply snoopDone_touches
    | with_reducible apply loseDirty_touches | with_reducible apply Touches.of_snd (by with_reducible assumption)
    | split | dsimp only)

theorem execSnpResp_touches {t : State} (h : Hdr) (addr : Nat) (data : Option (List Byte)) (wbPending : Bool) (hμ :
    hasParts μ (partSet [.free, .bbx, .link, .coh, .ext, .hbm, .rng, .io, .seqs, .casc, .ops, .cdc, .tier, .wt, .ftl,
    .sch, .sec]) = true) (he : execSnpResp h addr data wbPending s = .next t) (hs : Touches μ s₀ s) :
    Touches μ s₀ t := by
  unfold execSnpResp at he
  cases he
  repeat' (first
    | with_reducible assumption | with_reducible intro _ | ((with_reducible refine hasParts_trans hμ ?_); rfl)
    | with_reducible apply takeMsg_touches | with_reducible apply snpResp_touches)

theorem execSnoopTimeout_touches {t : State} (addr : Nat) (node : Node) (hμ : hasParts μ (partSet [.free, .bbx, .link,
    .coh, .ext, .hbm, .rng, .io, .seqs, .casc, .ops, .cdc, .tier, .wt, .ftl, .sch, .sec]) = true) (he :
    execSnoopTimeout addr node s = .next t) (hs : Touches μ s₀ s) :
    Touches μ s₀ t := by
  unfold execSnoopTimeout at he
  cases he
  repeat' (first
    | with_reducible assumption | with_reducible intro _ | ((with_reducible refine hasParts_trans hμ ?_); rfl)
    | with_reducible apply Touches.ite | with_reducible apply working_touches | with_reducible apply emit_touches
    | with_reducible apply poisonLine_touches | with_reducible apply modRev_touches
    | with_reducible apply pumpHome_touches | with_reducible apply snoopDone_touches | split | dsimp only)

theorem queueReq_touches (r : LineReq) (hμ : hasParts μ (partSet [.free, .link, .coh, .ext, .hbm, .rng, .io, .seqs,
    .casc, .ops, .cdc, .tier, .wt, .ftl, .sch, .sec]) = true) (hs : Touches μ s₀ s) :
    Touches μ s₀ (queueReq r s) := by
  unfold queueReq
  repeat' (first
    | with_reducible assumption | exact fun _ q => q | with_reducible intro _
    | ((with_reducible refine hasParts_trans hμ ?_); rfl) | with_reducible apply Touches.modCoh
    | with_reducible apply pumpHome_touches)

theorem oweCredit_touches (port cls : Nat) (hμ : hasParts μ (partSet [.link]) = true) (hs : Touches μ s₀ s) :
    Touches μ s₀ (oweCredit port cls s) := by
  unfold oweCredit
  repeat' (first
    | with_reducible assumption | with_reducible intro _ | ((with_reducible refine hasParts_trans hμ ?_); rfl)
    | with_reducible apply modPort_touches)

theorem lineRequest_touches (r : LineReq) (hμ : hasParts μ (partSet [.free, .link, .coh, .ext, .hbm, .rng, .io, .seqs,
    .casc, .ops, .cdc, .tier, .wt, .ftl, .sch, .sec]) = true) (hs : Touches μ s₀ s) :
    Touches μ s₀ (lineRequest r s) := by
  unfold lineRequest
  repeat' (first
    | with_reducible assumption | with_reducible intro _ | ((with_reducible refine hasParts_trans hμ ?_); rfl)
    | with_reducible apply Touches.ite | with_reducible apply nakRevoked_touches
    | with_reducible apply modRev_touches | with_reducible apply answerGone_touches
    | with_reducible apply queueReq_touches | split)

theorem writeBack_touches (r : LineReq) (hμ : hasParts μ (partSet [.free, .bbx, .link, .coh, .ext, .hbm, .rng, .io,
    .seqs, .casc, .ops, .cdc, .tier, .wt, .ftl, .sch, .sec]) = true) (hs : Touches μ s₀ s) :
    Touches μ s₀ (writeBack r s) := by
  unfold writeBack
  repeat' (first
    | with_reducible assumption | ((with_reducible refine hasParts_trans hμ ?_); rfl)
    | with_reducible apply Touches.ite | with_reducible apply Touches.ite_snd
    | with_reducible apply nakRevoked_touches | with_reducible apply pumpHome_touches
    | with_reducible apply snoopDone_touches | with_reducible apply answerReq_touches
    | with_reducible apply writeLine_touches | with_reducible apply queueReq_touches
    | with_reducible apply loseDirty_touches | with_reducible apply takeDirty_touches
    | with_reducible apply handedIn_touches | with_reducible apply putLine_touches
    | with_reducible apply Touches.of_snd (by with_reducible assumption) | split | dsimp only)

theorem acceptReq_touches (r : LineReq) (hμ : hasParts μ (partSet [.free, .bbx, .link, .coh, .ext, .hbm, .rng, .io,
    .seqs, .casc, .ops, .cdc, .tier, .wt, .ftl, .sch, .sec]) = true) (hs : Touches μ s₀ s) :
    Touches μ s₀ (acceptReq r s) := by
  unfold acceptReq
  repeat' (first
    | with_reducible assumption | ((with_reducible refine hasParts_trans hμ ?_); rfl)
    | with_reducible apply Touches.ite | with_reducible apply writeBack_touches
    | with_reducible apply lineRequest_touches | split)

theorem arriveReq_touches (r : LineReq) (hμ : hasParts μ (partSet [.free, .bbx, .link, .coh, .ext, .hbm, .rng, .io,
    .seqs, .casc, .ops, .cdc, .tier, .wt, .ftl, .sch, .sec]) = true) (hs : Touches μ s₀ s) :
    Touches μ s₀ (arriveReq r s) := by
  unfold arriveReq
  repeat' (first
    | with_reducible assumption | exact fun _ q => q | with_reducible intro _
    | ((with_reducible refine hasParts_trans hμ ?_); rfl) | with_reducible apply Touches.ite
    | with_reducible apply Touches.modCoh | with_reducible apply acceptReq_touches | split)

theorem admitReqs_touches (hμ : hasParts μ (partSet [.free, .bbx, .link, .coh, .ext, .hbm, .rng, .io, .seqs, .casc,
    .ops, .cdc, .tier, .wt, .ftl, .sch, .sec]) = true) (hs : Touches μ s₀ s) :
    Touches μ s₀ (admitReqs s) := by
  unfold admitReqs
  repeat' (first
    | with_reducible assumption | exact fun _ q => q | with_reducible intro _
    | ((with_reducible refine hasParts_trans hμ ?_); rfl) | with_reducible apply Touches.modLink
    | with_reducible apply Touches.modCoh | with_reducible apply Touches.forEach
    | with_reducible apply arriveReq_touches | with_reducible apply oweCredit_touches)

theorem takeReq_touches (typ : Nat) (h : Hdr) (kind : ReqKind) (addr len mask : Nat) (data : List Byte) (hμ : hasParts
    μ (partSet [.free, .bbx, .link, .coh, .ext, .hbm, .rng, .io, .seqs, .casc, .ops, .cdc, .tier, .wt, .ftl, .sch,
    .sec]) = true) (hs : Touches μ s₀ s) :
    Touches μ s₀ (takeReq typ h kind addr len mask data s) := by
  unfold takeReq
  repeat' (first
    | with_reducible assumption | with_reducible intro _ | ((with_reducible refine hasParts_trans hμ ?_); rfl)
    | with_reducible apply takeMsg_touches | with_reducible apply arriveReq_touches
    | with_reducible apply admitReqs_touches)

theorem execRdUnc_touches {t : State} (h : Hdr) (addr len : Nat) (hμ : hasParts μ (partSet [.free, .bbx, .link, .coh,
    .ext, .hbm, .rng, .io, .seqs, .casc, .ops, .cdc, .tier, .wt, .ftl, .sch, .sec]) = true) (he : execRdUnc h addr len
    s = .next t) (hs : Touches μ s₀ s) :
    Touches μ s₀ t := by
  unfold execRdUnc at he
  cases he
  repeat' (first
    | with_reducible assumption | ((with_reducible refine hasParts_trans hμ ?_); rfl)
    | with_reducible apply takeReq_touches)

theorem execRdS_touches {t : State} (h : Hdr) (addr : Nat) (hμ : hasParts μ (partSet [.free, .bbx, .link, .coh, .ext,
    .hbm, .rng, .io, .seqs, .casc, .ops, .cdc, .tier, .wt, .ftl, .sch, .sec]) = true) (he : execRdS h addr s = .next
    t) (hs : Touches μ s₀ s) :
    Touches μ s₀ t := by
  unfold execRdS at he
  cases he
  repeat' (first
    | with_reducible assumption | ((with_reducible refine hasParts_trans hμ ?_); rfl)
    | with_reducible apply takeReq_touches)

theorem execRdE_touches {t : State} (h : Hdr) (addr : Nat) (hμ : hasParts μ (partSet [.free, .bbx, .link, .coh, .ext,
    .hbm, .rng, .io, .seqs, .casc, .ops, .cdc, .tier, .wt, .ftl, .sch, .sec]) = true) (he : execRdE h addr s = .next
    t) (hs : Touches μ s₀ s) :
    Touches μ s₀ t := by
  unfold execRdE at he
  cases he
  repeat' (first
    | with_reducible assumption | ((with_reducible refine hasParts_trans hμ ?_); rfl)
    | with_reducible apply takeReq_touches)

theorem execUpg_touches {t : State} (h : Hdr) (addr : Nat) (hμ : hasParts μ (partSet [.free, .bbx, .link, .coh, .ext,
    .hbm, .rng, .io, .seqs, .casc, .ops, .cdc, .tier, .wt, .ftl, .sch, .sec]) = true) (he : execUpg h addr s = .next
    t) (hs : Touches μ s₀ s) :
    Touches μ s₀ t := by
  unfold execUpg at he
  cases he
  repeat' (first
    | with_reducible assumption | ((with_reducible refine hasParts_trans hμ ?_); rfl)
    | with_reducible apply takeReq_touches)

theorem execWb_touches {t : State} (h : Hdr) (addr : Nat) (data : List Byte) (hμ : hasParts μ (partSet [.free, .bbx,
    .link, .coh, .ext, .hbm, .rng, .io, .seqs, .casc, .ops, .cdc, .tier, .wt, .ftl, .sch, .sec]) = true) (he : execWb
    h addr data s = .next t) (hs : Touches μ s₀ s) :
    Touches μ s₀ t := by
  unfold execWb at he
  cases he
  repeat' (first
    | with_reducible assumption | ((with_reducible refine hasParts_trans hμ ?_); rfl)
    | with_reducible apply takeReq_touches)

theorem execWrUnc_touches {t : State} (h : Hdr) (addr mask : Nat) (data : List Byte) (hμ : hasParts μ (partSet [.free,
    .bbx, .link, .coh, .ext, .hbm, .rng, .io, .seqs, .casc, .ops, .cdc, .tier, .wt, .ftl, .sch, .sec]) = true) (he :
    execWrUnc h addr mask data s = .next t) (hs : Touches μ s₀ s) :
    Touches μ s₀ t := by
  unfold execWrUnc at he
  cases he
  repeat' (first
    | with_reducible assumption | ((with_reducible refine hasParts_trans hμ ?_); rfl)
    | with_reducible apply takeReq_touches)

theorem takeUnits_touches (p : Nat) (hμ : hasParts μ (partSet [.coh, .hbm]) = true) : ∀ (y0 : Nat) {s : State} ,
    Touches μ s₀ s → optTouched2 μ s₀ (takeUnits p y0 s) := by
  intro y0
  induction y0 with
  | zero =>
    intro s _
    unfold takeUnits
    repeat' (first
      | with_reducible assumption | with_reducible intro _ | ((with_reducible refine hasParts_trans hμ ?_); rfl)
      | with_reducible apply takeRun_touches | with_reducible exact optTouched2_none
      | with_reducible apply optTouched2_some | with_reducible apply optTouched2_map
      | with_reducible apply optTouched2_bind
      | with_reducible apply Touches.of_optTouched2 (by with_reducible assumption)
      | with_reducible apply Touches.of_optTouched2_fst (by with_reducible assumption))
  | succ fuel ih =>
    intro s _
    unfold takeUnits
    repeat' (first
      | with_reducible assumption | with_reducible intro _ | ((with_reducible refine hasParts_trans hμ ?_); rfl)
      | with_reducible apply takeRun_touches | with_reducible apply ih | with_reducible exact optTouched2_none
      | with_reducible apply optTouched2_some | with_reducible apply optTouched2_map
      | with_reducible apply optTouched2_bind
      | with_reducible apply Touches.of_optTouched2 (by with_reducible assumption)
      | with_reducible apply Touches.of_optTouched2_fst (by with_reducible assumption))

theorem extGrant_touches (ring : Nat) (e : Entry) (hμ : hasParts μ (partSet [.coh, .ext, .hbm, .rng, .ops, .sch]) =
    true) (hs : Touches μ s₀ s) :
    Touches μ s₀ (extGrant ring e s) := by
  unfold extGrant
  repeat' (first
    | with_reducible assumption | with_reducible intro _ | ((with_reducible refine hasParts_trans hμ ?_); rfl)
    | with_reducible apply Touches.ite | with_reducible apply Touches.ite_snd | with_reducible apply Touches.modExt
    | with_reducible apply endNow_touches | with_reducible apply takeUnits_touches
    | with_reducible apply beginOp_touches | with_reducible exact optTouched2_none
    | with_reducible apply optTouched2_some | with_reducible apply optTouched2_map
    | with_reducible apply Touches.of_snd (by with_reducible assumption)
    | with_reducible apply Touches.of_optTouched2 (by with_reducible assumption)
    | with_reducible apply Touches.of_optTouched2_fst (by with_reducible assumption) | split | dsimp only)

theorem execExtGrant_touches {t : State} (ring : Nat) (hμ : hasParts μ (partSet [.link, .coh, .ext, .hbm, .rng, .io,
    .ops, .ftl, .sch, .sec]) = true) (he : execExtGrant ring s = .next t) (hs : Touches μ s₀ s) :
    Touches μ s₀ t := by
  unfold execExtGrant at he
  cases he
  repeat' (first
    | with_reducible assumption | with_reducible intro _ | ((with_reducible refine hasParts_trans hμ ?_); rfl)
    | with_reducible apply startOp_touches | with_reducible apply extGrant_touches)

theorem execExtZeroDone_touches {t : State} (ext : Nat) (hμ : hasParts μ (partSet [.link, .ext, .hbm, .rng, .io,
    .seqs, .casc, .ops, .cdc, .tier, .wt, .ftl, .sch, .sec]) = true) (he : execExtZeroDone ext s = .next t) (hs :
    Touches μ s₀ s) :
    Touches μ s₀ t := by
  unfold execExtZeroDone at he
  cases he
  repeat' (first
    | with_reducible assumption | with_reducible intro _ | ((with_reducible refine hasParts_trans hμ ?_); rfl)
    | with_reducible apply Touches.ite | with_reducible apply working_touches
    | with_reducible apply modExtent_touches | with_reducible apply finishOp_touches | split | dsimp only)

theorem revokePoint_touches (e : Nat) (op : Option Nat) (zero recalling : Bool) (hμ : hasParts μ (partSet [.coh,
    .ext]) = true) (hs : Touches μ s₀ s) :
    Touches μ s₀ (revokePoint e op zero recalling s) := by
  unfold revokePoint
  repeat' (first
    | with_reducible assumption | exact fun _ q => q | with_reducible intro _
    | ((with_reducible refine hasParts_trans hμ ?_); rfl) | with_reducible apply Touches.ite
    | with_reducible apply Touches.modCoh | with_reducible apply modExtent_touches | split | dsimp only)

theorem checkRevoke_touches (ring idx : Nat) (hμ : hasParts μ (partSet [.coh, .ext, .rng, .ops, .sch]) = true) (hs :
    Touches μ s₀ s) :
    Touches μ s₀ (checkRevoke ring idx s) := by
  unfold checkRevoke
  repeat' (first
    | with_reducible assumption | with_reducible intro _ | ((with_reducible refine hasParts_trans hμ ?_); rfl)
    | with_reducible apply Touches.ite | with_reducible apply Touches.ite_snd | with_reducible apply endEntry_touches
    | with_reducible apply markStarted_touches | with_reducible apply beginOp_touches
    | with_reducible apply revokePoint_touches | with_reducible apply Touches.of_snd (by with_reducible assumption)
    | split | dsimp only)

theorem execExtRevoke_touches {t : State} (ring index : Nat) (hμ : hasParts μ (partSet [.free, .link, .coh, .ext,
    .hbm, .rng, .io, .seqs, .casc, .ops, .cdc, .tier, .wt, .ftl, .sch, .sec]) = true) (he : execExtRevoke ring index s
    = .next t) (hs : Touches μ s₀ s) :
    Touches μ s₀ t := by
  unfold execExtRevoke at he
  cases he
  repeat' (first
    | with_reducible assumption | with_reducible intro _ | ((with_reducible refine hasParts_trans hμ ?_); rfl)
    | with_reducible apply checkRevoke_touches | with_reducible apply pumpHome_touches
    | with_reducible apply modRev_touches | split | dsimp only)

theorem execSnoopFilterScanDone_touches {t : State} (ctrl ext : Nat) (hμ : hasParts μ (partSet [.free, .link, .coh,
    .ext, .hbm, .rng, .io, .seqs, .casc, .ops, .cdc, .tier, .wt, .ftl, .sch, .sec]) = true) (he :
    execSnoopFilterScanDone ctrl ext s = .next t) (hs : Touches μ s₀ s) :
    Touches μ s₀ t := by
  unfold execSnoopFilterScanDone at he
  cases he
  repeat' (first
    | with_reducible assumption | with_reducible intro _ | ((with_reducible refine hasParts_trans hμ ?_); rfl)
    | with_reducible apply Touches.ite | with_reducible apply working_touches | with_reducible apply pumpHome_touches
    | with_reducible apply modRev_touches | split)

theorem graceEnd_touches (ext : Nat) (hμ : hasParts μ (partSet [.free, .bbx, .link, .coh, .ext, .hbm, .rng, .io,
    .seqs, .casc, .ops, .cdc, .tier, .wt, .ftl, .sch, .sec]) = true) (hs : Touches μ s₀ s) :
    Touches μ s₀ (graceEnd ext s) := by
  unfold graceEnd
  repeat' (first
    | with_reducible assumption | with_reducible intro _ | ((with_reducible refine hasParts_trans hμ ?_); rfl)
    | with_reducible apply Touches.ite | with_reducible apply Touches.forEach | with_reducible apply modRev_touches
    | with_reducible apply pumpHome_touches | with_reducible apply snoopDone_touches
    | with_reducible apply loseDirty_touches | split | dsimp only)

theorem execGracePeriodEnd_touches {t : State} (ext : Nat) (hμ : hasParts μ (partSet [.free, .bbx, .link, .coh, .ext,
    .hbm, .rng, .io, .seqs, .casc, .ops, .cdc, .tier, .wt, .ftl, .sch, .sec]) = true) (he : execGracePeriodEnd ext s =
    .next t) (hs : Touches μ s₀ s) :
    Touches μ s₀ t := by
  unfold execGracePeriodEnd at he
  cases he
  repeat' (first
    | with_reducible assumption | with_reducible intro _ | ((with_reducible refine hasParts_trans hμ ?_); rfl)
    | with_reducible apply working_touches | with_reducible apply graceEnd_touches)

end Sys2Proof.Machine
end

