-- ==== Sys2Proof/Laws/TiersTouches.lean ====
section
/-! SUPPORT. Which parts of State the operations of Machine/Tiers.lean may touch: one lemma per operation. -/

namespace Sys2Proof.Machine

open Sys2Proof

variable {μ : Nat} {s₀ s : State}

/-- The state a `Fate` carries was touched in the parts `μ` only. -/
def fateTouched (μ : Nat) (s₀ : State) : Fate → Prop
  | .already => True
  | .notMoved _ _ s => Touches μ s₀ s
  | .moving _ s => Touches μ s₀ s
  | .moved s => Touches μ s₀ s
  | .wait s => Touches μ s₀ s

theorem fateTouched_already : fateTouched μ s₀ (.already) := trivial

theorem fateTouched_notMoved (x y : Bool) (hs : Touches μ s₀ s) : fateTouched μ s₀ (.notMoved x y s) := hs

theorem Touches.ofFate_notMoved {r : Fate} {x y : Bool} {t : State} (e : r = .notMoved x y t) (h : fateTouched μ s₀ r) : Touches μ s₀ t := by
  rw [e] at h
  exact h

theorem fateTouched_moving (x : Nat) (hs : Touches μ s₀ s) : fateTouched μ s₀ (.moving x s) := hs

theorem Touches.ofFate_moving {r : Fate} {x : Nat} {t : State} (e : r = .moving x t) (h : fateTouched μ s₀ r) : Touches μ s₀ t := by
  rw [e] at h
  exact h

theorem fateTouched_moved (hs : Touches μ s₀ s) : fateTouched μ s₀ (.moved s) := hs

theorem Touches.ofFate_moved {r : Fate} {t : State} (e : r = .moved t) (h : fateTouched μ s₀ r) : Touches μ s₀ t := by
  rw [e] at h
  exact h

theorem fateTouched_wait (hs : Touches μ s₀ s) : fateTouched μ s₀ (.wait s) := hs

theorem Touches.ofFate_wait {r : Fate} {t : State} (e : r = .wait t) (h : fateTouched μ s₀ r) : Touches μ s₀ t := by
  rw [e] at h
  exact h


theorem objHint_touches (ring : Nat) (e : Entry) (hμ : hasParts μ (partSet [.hbm, .rng, .seqs, .cdc, .tier, .wt, .ftl,
    .sch]) = true) (hs : Touches μ s₀ s) :
    Touches μ s₀ (objHint ring e s) := by
  unfold objHint
  repeat' (first
    | with_reducible assumption | with_reducible intro _ | ((with_reducible refine hasParts_trans hμ ?_); rfl)
    | with_reducible apply Touches.ite | with_reducible apply Touches.modWt | with_reducible apply Touches.forEach
    | with_reducible apply endNow_touches | with_reducible apply modSeq_touches
    | with_reducible apply pinStops_touches | with_reducible apply catSeq_touches
    | with_reducible apply modRec_touches | split | dsimp only)

theorem execObjHint_touches {t : State} (ring : Nat) (hμ : hasParts μ (partSet [.link, .hbm, .rng, .io, .seqs, .ops,
    .cdc, .tier, .wt, .ftl, .sch, .sec]) = true) (he : execObjHint ring s = .next t) (hs : Touches μ s₀ s) :
    Touches μ s₀ t := by
  unfold execObjHint at he
  cases he
  repeat' (first
    | with_reducible assumption | with_reducible intro _ | ((with_reducible refine hasParts_trans hμ ?_); rfl)
    | with_reducible apply startOp_touches | with_reducible apply objHint_touches)

theorem claimMeta_touches (part n k : Nat) (hμ : hasParts μ (partSet [.coh, .hbm]) = true) (hs : Touches μ s₀ s) :
    Touches μ s₀ (claimMeta part n k s).2 := by
  unfold claimMeta
  repeat' (first
    | with_reducible assumption | ((with_reducible refine hasParts_trans hμ ?_); rfl)
    | with_reducible apply Touches.ite | with_reducible apply Touches.ite_snd | with_reducible apply takeFree_touches
    | with_reducible exact optTouched2_none | with_reducible apply optTouched2_some
    | with_reducible apply Touches.of_optTouched2 (by with_reducible assumption)
    | with_reducible apply Touches.of_optTouched2_fst (by with_reducible assumption) | split)

theorem raise_touches (a : PageAt) (p : Page) (op : Option Nat) (heatTo : Option Nat) (lay : Nat) (hμ : hasParts μ
    (partSet [.coh, .hbm, .seqs, .tier, .wt]) = true) (hs : Touches μ s₀ s) :
    beganTouched μ s₀ (raise a p op heatTo lay s) := by
  unfold raise
  repeat' (first
    | with_reducible assumption | ((with_reducible refine hasParts_trans hμ ?_); rfl)
    | with_reducible apply Touches.ite | with_reducible apply Touches.ite_snd | with_reducible apply claimRun_touches
    | with_reducible apply claimMeta_touches | with_reducible apply addMove_touches
    | with_reducible apply beganTouched_move | with_reducible apply beganTouched_done
    | with_reducible apply beganTouched_later | with_reducible apply beganTouched_never
    | with_reducible exact optTouched2_none | with_reducible apply optTouched2_some
    | with_reducible apply Touches.of_snd (by with_reducible assumption)
    | with_reducible apply Touches.of_optTouched2 (by with_reducible assumption)
    | with_reducible apply Touches.of_optTouched2_fst (by with_reducible assumption) | split | dsimp only)

theorem beginUp_touches (a : PageAt) (op : Option Nat) (heatTo : Option Nat) (lay : Nat) (hμ : hasParts μ (partSet
    [.coh, .hbm, .seqs, .tier, .wt]) = true) (hs : Touches μ s₀ s) :
    beganTouched μ s₀ (beginUp a op heatTo lay s) := by
  unfold beginUp
  repeat' (first
    | with_reducible assumption | ((with_reducible refine hasParts_trans hμ ?_); rfl)
    | with_reducible apply Touches.ite | with_reducible apply raise_touches | with_reducible apply beganTouched_move
    | with_reducible apply beganTouched_done | with_reducible apply beganTouched_later
    | with_reducible apply beganTouched_never
    | with_reducible apply Touches.ofBegan_move (by with_reducible assumption)
    | with_reducible apply Touches.ofBegan_done (by with_reducible assumption)
    | with_reducible apply Touches.ofBegan_later (by with_reducible assumption)
    | with_reducible apply Touches.ofBegan_never (by with_reducible assumption) | split)

theorem migrateOne_touches (id : Nat) (up : Bool) (a : PageAt) (hμ : hasParts μ (partSet [.coh, .hbm, .seqs, .cdc,
    .tier, .wt, .ftl]) = true) (hs : Touches μ s₀ s) :
    fateTouched μ s₀ (migrateOne id up a s) := by
  unfold migrateOne
  repeat' (first
    | with_reducible assumption | ((with_reducible refine hasParts_trans hμ ?_); rfl)
    | with_reducible apply Touches.ite | with_reducible apply beginUp_touches
    | with_reducible apply beginDown_touches
    | with_reducible apply Touches.ofBegan_move (by with_reducible assumption)
    | with_reducible apply Touches.ofBegan_done (by with_reducible assumption)
    | with_reducible apply Touches.ofBegan_later (by with_reducible assumption)
    | with_reducible apply Touches.ofBegan_never (by with_reducible assumption)
    | with_reducible apply fateTouched_already | with_reducible apply fateTouched_notMoved
    | with_reducible apply fateTouched_moving | with_reducible apply fateTouched_moved
    | with_reducible apply fateTouched_wait | split)

theorem driveMigrate_touches (id : Nat) (hμ : hasParts μ (partSet [.link, .coh, .hbm, .rng, .io, .seqs, .casc, .ops,
    .cdc, .tier, .wt, .ftl, .sch, .sec]) = true) : ∀ (y0 : Nat) {s : State} , Touches μ s₀ s → Touches μ s₀
    (driveMigrate id y0 s) := by
  intro y0
  induction y0 with
  | zero =>
    intro s _
    unfold driveMigrate
    repeat' (first
      | with_reducible assumption | with_reducible intro _ | ((with_reducible refine hasParts_trans hμ ?_); rfl)
      | with_reducible apply Touches.ite | with_reducible apply modOp_touches | with_reducible apply migrateOne_touches
      | with_reducible apply finishOp_touches
      | with_reducible apply Touches.ofFate_notMoved (by with_reducible assumption)
      | with_reducible apply Touches.ofFate_moving (by with_reducible assumption)
      | with_reducible apply Touches.ofFate_moved (by with_reducible assumption)
      | with_reducible apply Touches.ofFate_wait (by with_reducible assumption) | split
      | dsimp only)
  | succ fuel ih =>
    intro s _
    unfold driveMigrate
    repeat' (first
      | with_reducible assumption | with_reducible intro _ | ((with_reducible refine hasParts_trans hμ ?_); rfl)
      | with_reducible apply Touches.ite | with_reducible apply modOp_touches | with_reducible apply migrateOne_touches
      | with_reducible apply finishOp_touches
      | with_reducible apply Touches.ofFate_notMoved (by with_reducible assumption)
      | with_reducible apply Touches.ofFate_moving (by with_reducible assumption)
      | with_reducible apply Touches.ofFate_moved (by with_reducible assumption)
      | with_reducible apply Touches.ofFate_wait (by with_reducible assumption) | with_reducible apply ih | split
      | dsimp only)

theorem dropLostMoves_touches (id : Nat) (hμ : hasParts μ (partSet [.ops]) = true) (hs : Touches μ s₀ s) :
    Touches μ s₀ (dropLostMoves id s) := by
  unfold dropLostMoves
  repeat' (first
    | with_reducible assumption | with_reducible intro _ | ((with_reducible refine hasParts_trans hμ ?_); rfl)
    | with_reducible apply modOp_touches | split)

theorem runMigrate_touches (id : Nat) (hμ : hasParts μ (partSet [.link, .coh, .hbm, .rng, .io, .seqs, .casc, .ops,
    .cdc, .tier, .wt, .ftl, .sch, .sec]) = true) (hs : Touches μ s₀ s) :
    Touches μ s₀ (runMigrate id s) := by
  unfold runMigrate
  repeat' (first
    | with_reducible assumption | ((with_reducible refine hasParts_trans hμ ?_); rfl)
    | with_reducible apply driveMigrate_touches | with_reducible apply dropLostMoves_touches)

theorem migrateMoved_touches (id mv : Nat) (hμ : hasParts μ (partSet [.link, .coh, .hbm, .rng, .io, .seqs, .casc,
    .ops, .cdc, .tier, .wt, .ftl, .sch, .sec]) = true) (hs : Touches μ s₀ s) :
    Touches μ s₀ (migrateMoved id mv s) := by
  unfold migrateMoved
  repeat' (first
    | with_reducible assumption | with_reducible intro _ | ((with_reducible refine hasParts_trans hμ ?_); rfl)
    | with_reducible apply runMigrate_touches | with_reducible apply modOp_touches | split)

theorem objMigrate_touches (ring : Nat) (e : Entry) (hμ : hasParts μ (partSet [.link, .coh, .hbm, .rng, .io, .seqs,
    .casc, .ops, .cdc, .tier, .wt, .ftl, .sch, .sec]) = true) (hs : Touches μ s₀ s) :
    Touches μ s₀ (objMigrate ring e s) := by
  unfold objMigrate
  repeat' (first
    | with_reducible assumption | ((with_reducible refine hasParts_trans hμ ?_); rfl)
    | with_reducible apply Touches.ite | with_reducible apply Touches.ite_snd | with_reducible apply endNow_touches
    | with_reducible apply beginOp_touches | with_reducible apply countWait_touches
    | with_reducible apply runMigrate_touches | with_reducible apply Touches.of_snd (by with_reducible assumption)
    | split | dsimp only)

theorem execObjMigrate_touches {t : State} (ring : Nat) (hμ : hasParts μ (partSet [.link, .coh, .hbm, .rng, .io,
    .seqs, .casc, .ops, .cdc, .tier, .wt, .ftl, .sch, .sec]) = true) (he : execObjMigrate ring s = .next t) (hs :
    Touches μ s₀ s) :
    Touches μ s₀ t := by
  unfold execObjMigrate at he
  cases he
  repeat' (first
    | with_reducible assumption | with_reducible intro _ | ((with_reducible refine hasParts_trans hμ ?_); rfl)
    | with_reducible apply startOp_touches | with_reducible apply objMigrate_touches)

theorem access_touches (cluster : Nat) (a : PageAt) (hμ : hasParts μ (partSet [.tier]) = true) (hs : Touches μ s₀ s) :
    Touches μ s₀ (access cluster a s) := by
  unfold access
  repeat' (first
    | with_reducible assumption | with_reducible intro _ | ((with_reducible refine hasParts_trans hμ ?_); rfl)
    | with_reducible apply Touches.ite | with_reducible apply Touches.modTier | with_reducible apply setHeat_touches
    | split | dsimp only)

theorem startHalving_touches (hμ : hasParts μ (partSet [.tier]) = true) (hs : Touches μ s₀ s) :
    Touches μ s₀ (startHalving s) := by
  unfold startHalving
  repeat' (first
    | with_reducible assumption | with_reducible intro _ | ((with_reducible refine hasParts_trans hμ ?_); rfl)
    | with_reducible apply Touches.ite | with_reducible apply Touches.modTier | split)

theorem execHeatHalving_touches {t : State} (hμ : hasParts μ (partSet [.tier]) = true) (he : execHeatHalving s = .next
    t) (hs : Touches μ s₀ s) :
    Touches μ s₀ t := by
  unfold execHeatHalving at he
  cases he
  repeat' (first
    | with_reducible assumption | with_reducible intro _ | ((with_reducible refine hasParts_trans hμ ?_); rfl)
    | with_reducible apply working_touches | with_reducible apply startHalving_touches)

theorem execHalvingSweepEnd_touches {t : State} (hμ : hasParts μ (partSet [.tier]) = true) (he : execHalvingSweepEnd s
    = .next t) (hs : Touches μ s₀ s) :
    Touches μ s₀ t := by
  unfold execHalvingSweepEnd at he
  cases he
  repeat' (first
    | with_reducible assumption | with_reducible intro _ | ((with_reducible refine hasParts_trans hμ ?_); rfl)
    | with_reducible apply Touches.ite | with_reducible apply Touches.modTier | with_reducible apply working_touches
    | with_reducible apply startHalving_touches | split)

theorem firstMove_touches (hμ : hasParts μ (partSet [.coh, .hbm, .seqs, .cdc, .tier, .wt, .ftl]) = true) : ∀ (y0 :
    List (PageAt × Bool)) {s : State} , Touches μ s₀ s → Touches μ s₀ (firstMove y0 s) := by
  intro y0
  induction y0 with
  | nil =>
    intro s _
    unfold firstMove
    repeat' (first
      | with_reducible assumption | ((with_reducible refine hasParts_trans hμ ?_); rfl)
      | with_reducible apply Touches.ite | with_reducible apply beginUp_touches
      | with_reducible apply beginDown_touches
      | with_reducible apply Touches.ofBegan_move (by with_reducible assumption)
      | with_reducible apply Touches.ofBegan_done (by with_reducible assumption)
      | with_reducible apply Touches.ofBegan_later (by with_reducible assumption)
      | with_reducible apply Touches.ofBegan_never (by with_reducible assumption) | split)
  | cons c rest ih =>
    intro s _
    unfold firstMove
    repeat' (first
      | with_reducible assumption | ((with_reducible refine hasParts_trans hμ ?_); rfl)
      | with_reducible apply Touches.ite | with_reducible apply beginUp_touches
      | with_reducible apply beginDown_touches
      | with_reducible apply Touches.ofBegan_move (by with_reducible assumption)
      | with_reducible apply Touches.ofBegan_done (by with_reducible assumption)
      | with_reducible apply Touches.ofBegan_later (by with_reducible assumption)
      | with_reducible apply Touches.ofBegan_never (by with_reducible assumption) | with_reducible apply ih | split)

theorem execBackgroundMove_touches {t : State} (part : Nat) (hμ : hasParts μ (partSet [.coh, .hbm, .seqs, .cdc, .tier,
    .wt, .ftl]) = true) (he : execBackgroundMove part s = .next t) (hs : Touches μ s₀ s) :
    Touches μ s₀ t := by
  unfold execBackgroundMove at he
  cases he
  repeat' (first
    | with_reducible assumption | with_reducible intro _ | ((with_reducible refine hasParts_trans hμ ?_); rfl)
    | with_reducible apply Touches.ite | with_reducible apply Touches.modTier | with_reducible apply working_touches
    | with_reducible apply firstMove_touches | split | dsimp only)

theorem quotaWrite_touches (part k value : Nat) (hμ : hasParts μ (partSet [.tly, .bbx, .hbm, .seqs, .tier, .wt, .ftl])
    = true) (hs : Touches μ s₀ s) :
    Touches μ s₀ (quotaWrite part k value s) := by
  unfold quotaWrite
  repeat' (first
    | with_reducible assumption | with_reducible intro _ | ((with_reducible refine hasParts_trans hμ ?_); rfl)
    | with_reducible apply Touches.ite | with_reducible apply Touches.modTier
    | with_reducible apply serveBackings_touches | with_reducible apply tlyWrite_touches | split)

theorem execTierQuotaWrite_touches {t : State} (path : Path) (part k value : Nat) (hμ : hasParts μ (partSet [.tly,
    .bbx, .hbm, .seqs, .tier, .wt, .ftl]) = true) (he : execTierQuotaWrite path part k value s = .next t) (hs :
    Touches μ s₀ s) :
    Touches μ s₀ t := by
  unfold execTierQuotaWrite at he
  cases he
  repeat' (first
    | with_reducible assumption | with_reducible intro _ | ((with_reducible refine hasParts_trans hμ ?_); rfl)
    | with_reducible apply Touches.ite | with_reducible apply regAccess_touches
    | with_reducible apply asOperator_touches | with_reducible apply quotaWrite_touches | split)

theorem catWeight_touches (o : Nat) (hμ : hasParts μ (partSet [.ftl]) = true) (hs : Touches μ s₀ s) :
    Touches μ s₀ (catWeight o s) := by
  unfold catWeight
  repeat' (first
    | with_reducible assumption | ((with_reducible refine hasParts_trans hμ ?_); rfl)
    | with_reducible apply addCat_touches | split)

theorem landTiles_touches (o : Nat) (hμ : hasParts μ (partSet [.wt]) = true) : ∀ (y0 : List Nat) {s : State} , Touches
    μ s₀ s → Touches μ s₀ (landTiles o y0 s).2 := by
  intro y0
  induction y0 with
  | nil =>
    intro s _
    unfold landTiles
    repeat' (first
      | with_reducible assumption | with_reducible intro _ | ((with_reducible refine hasParts_trans hμ ?_); rfl)
      | with_reducible apply Touches.ite | with_reducible apply Touches.ite_snd | with_reducible apply Touches.modWt
      | with_reducible apply Touches.of_snd (by with_reducible assumption) | split)
  | cons c rest ih =>
    intro s _
    unfold landTiles
    repeat' (first
      | with_reducible assumption | with_reducible intro _ | ((with_reducible refine hasParts_trans hμ ?_); rfl)
      | with_reducible apply Touches.ite | with_reducible apply Touches.ite_snd | with_reducible apply Touches.modWt
      | with_reducible apply ih | with_reducible apply Touches.of_snd (by with_reducible assumption) | split)

theorem tileStarted_touches (id : Nat) (body : Nat → OpBody) (r : Option (Nat × State)) (hr : optTouched2 μ s₀ r) (hμ
    : hasParts μ (partSet [.ops]) = true) (hs : Touches μ s₀ s) :
    Touches μ s₀ (tileStarted id body r s) := by
  unfold tileStarted
  repeat' (first
    | with_reducible assumption | with_reducible intro _ | ((with_reducible refine hasParts_trans hμ ?_); rfl)
    | with_reducible apply modOp_touches | exact hr | split)

theorem driveLoad_touches (id : Nat) (hμ : hasParts μ (partSet [.link, .hbm, .rng, .io, .seqs, .casc, .ops, .cdc,
    .tier, .wt, .ftl, .sch, .sec]) = true) : ∀ (y0 : Nat) {s : State} , Touches μ s₀ s → Touches μ s₀ (driveLoad id y0
    s) := by
  intro y0
  induction y0 with
  | zero =>
    intro s _
    unfold driveLoad
    repeat' (first
      | with_reducible assumption | with_reducible intro _ | ((with_reducible refine hasParts_trans hμ ?_); rfl)
      | with_reducible apply Touches.ite | with_reducible apply Touches.ite_snd | with_reducible apply Touches.modWt
      | with_reducible apply Touches.forEach | with_reducible apply finishOp_touches
      | with_reducible apply landTiles_touches | with_reducible apply modOp_touches
      | with_reducible apply dropImage_touches | with_reducible apply catWeight_touches
      | with_reducible apply tileStarted_touches | with_reducible apply startImage_touches
      | with_reducible apply wantRegion_touches | with_reducible exact optTouched2_none
      | with_reducible apply optTouched2_some | with_reducible apply Touches.getD_snd
      | with_reducible apply Touches.of_snd (by with_reducible assumption)
      | with_reducible apply Touches.of_optTouched2 (by with_reducible assumption)
      | with_reducible apply Touches.of_optTouched2_fst (by with_reducible assumption) | split | dsimp only)
  | succ fuel ih =>
    intro s _
    unfold driveLoad
    repeat' (first
      | with_reducible assumption | with_reducible intro _ | ((with_reducible refine hasParts_trans hμ ?_); rfl)
      | with_reducible apply Touches.ite | with_reducible apply Touches.ite_snd | with_reducible apply Touches.modWt
      | with_reducible apply Touches.forEach | with_reducible apply finishOp_touches
      | with_reducible apply landTiles_touches | with_reducible apply modOp_touches
      | with_reducible apply dropImage_touches | with_reducible apply catWeight_touches
      | with_reducible apply tileStarted_touches | with_reducible apply startImage_touches
      | with_reducible apply wantRegion_touches | with_reducible apply ih | with_reducible exact optTouched2_none
      | with_reducible apply optTouched2_some | with_reducible apply Touches.getD_snd
      | with_reducible apply Touches.of_snd (by with_reducible assumption)
      | with_reducible apply Touches.of_optTouched2 (by with_reducible assumption)
      | with_reducible apply Touches.of_optTouched2_fst (by with_reducible assumption) | split | dsimp only)

theorem runLoad_touches (id : Nat) (hμ : hasParts μ (partSet [.link, .hbm, .rng, .io, .seqs, .casc, .ops, .cdc, .tier,
    .wt, .ftl, .sch, .sec]) = true) (hs : Touches μ s₀ s) :
    Touches μ s₀ (runLoad id s) := by
  unfold runLoad
  repeat' (first
    | with_reducible assumption | ((with_reducible refine hasParts_trans hμ ?_); rfl)
    | with_reducible apply driveLoad_touches | split)

theorem wtLoad_touches (ring : Nat) (e : Entry) (hμ : hasParts μ (partSet [.link, .coh, .hbm, .rng, .io, .seqs, .casc,
    .ops, .cdc, .tier, .wt, .ftl, .sch, .sec]) = true) (hs : Touches μ s₀ s) :
    Touches μ s₀ (wtLoad ring e s) := by
  unfold wtLoad
  repeat' (first
    | with_reducible assumption | with_reducible intro _ | ((with_reducible refine hasParts_trans hμ ?_); rfl)
    | with_reducible apply Touches.ite | with_reducible apply Touches.ite_snd | with_reducible apply Touches.modWt
    | with_reducible apply Touches.forEach | with_reducible apply beginOp_touches
    | with_reducible apply countWait_touches | with_reducible apply runLoad_touches
    | with_reducible apply beginRead_touches | with_reducible apply endNow_touches
    | with_reducible apply takeRun_touches | with_reducible apply takeSeq_touches
    | with_reducible apply catWeight_touches | with_reducible exact optTouched2_none
    | with_reducible apply optTouched2_some | with_reducible apply Touches.of_snd (by with_reducible assumption)
    | with_reducible apply Touches.of_optTouched2 (by with_reducible assumption)
    | with_reducible apply Touches.of_optTouched2_fst (by with_reducible assumption) | split | dsimp only)

theorem execWtLoad_touches {t : State} (ring : Nat) (hμ : hasParts μ (partSet [.link, .coh, .hbm, .rng, .io, .seqs,
    .casc, .ops, .cdc, .tier, .wt, .ftl, .sch, .sec]) = true) (he : execWtLoad ring s = .next t) (hs : Touches μ s₀ s)
    :
    Touches μ s₀ t := by
  unfold execWtLoad at he
  cases he
  repeat' (first
    | with_reducible assumption | with_reducible intro _ | ((with_reducible refine hasParts_trans hμ ?_); rfl)
    | with_reducible apply Touches.ite | with_reducible apply startOp_touches | with_reducible apply wtLoad_touches
    | split | dsimp only)

end Sys2Proof.Machine
end

