-- ==== Sys2Proof/Laws/FlashTouches.lean ====
section
/-! SUPPORT. Which parts of State the operations of Machine/Flash.lean may touch: one lemma per operation. -/

namespace Sys2Proof.Machine

open Sys2Proof

variable {μ : Nat} {s₀ s : State}

/-- The state a `Unmapped` carries was touched in the parts `μ` only. -/
def unmappedTouched (μ : Nat) (s₀ : State) : Unmapped → Prop
  | .refused _ => True
  | .later => True
  | .done _ _ s => Touches μ s₀ s

theorem unmappedTouched_refused (x : Nat) : unmappedTouched μ s₀ (.refused x) := trivial

theorem unmappedTouched_later : unmappedTouched μ s₀ (.later) := trivial

theorem unmappedTouched_done (x y : Nat) (hs : Touches μ s₀ s) : unmappedTouched μ s₀ (.done x y s) := hs

theorem Touches.ofUnmapped_done {r : Unmapped} {x y : Nat} {t : State} (e : r = .done x y t) (h : unmappedTouched μ s₀ r) : Touches μ s₀ t := by
  rw [e] at h
  exact h


theorem countErr_touches (k : Nat) (hμ : hasParts μ (partSet [.ftl]) = true) (hs : Touches μ s₀ s) :
    Touches μ s₀ (countErr k s) := by
  unfold countErr
  repeat' (first
    | with_reducible assumption | with_reducible intro _ | ((with_reducible refine hasParts_trans hμ ?_); rfl)
    | with_reducible apply Touches.modFtl)

theorem collectSoon_touches (id : Nat) (hμ : hasParts μ (partSet [.ftl]) = true) (hs : Touches μ s₀ s) :
    Touches μ s₀ (collectSoon id s) := by
  unfold collectSoon
  repeat' (first
    | with_reducible assumption | with_reducible intro _ | ((with_reducible refine hasParts_trans hμ ?_); rfl)
    | with_reducible apply Touches.modFtl)

theorem programRec_touches (id : Nat) (hμ : hasParts μ (partSet [.ftl]) = true) (hs : Touches μ s₀ s) :
    optTouched μ s₀ (programRec id s) := by
  unfold programRec
  repeat' (first
    | with_reducible assumption | with_reducible intro _ | ((with_reducible refine hasParts_trans hμ ?_); rfl)
    | with_reducible apply Touches.ite | with_reducible apply Touches.modFtl
    | with_reducible apply writeStripes_touches | with_reducible exact optTouched_none
    | with_reducible apply optTouched_some | with_reducible apply optTouched_map
    | with_reducible exact optTouched2_none | with_reducible apply optTouched2_some
    | with_reducible apply optTouched2_map
    | with_reducible apply Touches.of_optTouched (by with_reducible assumption)
    | with_reducible apply Touches.of_optTouched2 (by with_reducible assumption)
    | with_reducible apply Touches.of_optTouched2_fst (by with_reducible assumption) | split | dsimp only)

theorem retireBlockF_touches (k : Nat) (hμ : hasParts μ (partSet [.ftl]) = true) (hs : Touches μ s₀ s) :
    Touches μ s₀ (retireBlockF k s) := by
  unfold retireBlockF
  repeat' (first
    | with_reducible assumption | with_reducible intro _ | ((with_reducible refine hasParts_trans hμ ?_); rfl)
    | with_reducible apply Touches.ite | with_reducible apply Touches.modFtl | split | dsimp only)

theorem programFailed_touches (use : Nat) (hμ : hasParts μ (partSet [.ftl]) = true) (hs : Touches μ s₀ s) :
    Touches μ s₀ (programFailed use s) := by
  unfold programFailed
  repeat' (first
    | with_reducible assumption | ((with_reducible refine hasParts_trans hμ ?_); rfl)
    | with_reducible apply countErr_touches | with_reducible apply retireBlockF_touches | split | dsimp only)

theorem freeStripe_touches (id : Nat) (hμ : hasParts μ (partSet [.ftl]) = true) (hs : Touches μ s₀ s) :
    Touches μ s₀ (freeStripe id s) := by
  unfold freeStripe
  repeat' (first
    | with_reducible assumption | with_reducible intro _ | ((with_reducible refine hasParts_trans hμ ?_); rfl)
    | with_reducible apply Touches.ite | with_reducible apply Touches.modFtl | with_reducible apply Touches.foldl
    | with_reducible apply Touches.foldl_snd | with_reducible apply Touches.foldl_snd3 | split)

theorem freeDead_touches (hμ : hasParts μ (partSet [.ftl]) = true) (hs : Touches μ s₀ s) :
    Touches μ s₀ (freeDead s) := by
  unfold freeDead
  repeat' (first
    | with_reducible assumption | with_reducible intro _ | ((with_reducible refine hasParts_trans hμ ?_); rfl)
    | with_reducible apply Touches.ite | with_reducible apply Touches.forEach
    | with_reducible apply freeStripe_touches | split | dsimp only)

theorem loseImage_touches (id : Nat) (hμ : hasParts μ (partSet [.link, .hbm, .io, .seqs, .pfx, .casc, .cdc, .tier,
    .wt, .ftl, .sec]) = true) (hs : Touches μ s₀ s) :
    Touches μ s₀ (loseImage id s) := by
  unfold loseImage
  repeat' (first
    | with_reducible assumption | with_reducible intro _ | ((with_reducible refine hasParts_trans hμ ?_); rfl)
    | with_reducible apply Touches.ite | with_reducible apply Touches.modFtl | with_reducible apply dropImage_touches
    | with_reducible apply modPage_touches | with_reducible apply dropPageAt_touches
    | with_reducible apply startBacking_touches | with_reducible apply sweepJournals_touches | split | dsimp only)

theorem execFlashReadDone_touches {t : State} (target : FlashTarget) (corrected step : Nat) (hμ : hasParts μ (partSet
    [.link, .hbm, .io, .seqs, .pfx, .casc, .cdc, .tier, .wt, .ftl, .sec]) = true) (he : execFlashReadDone target
    corrected step s = .next t) (hs : Touches μ s₀ s) :
    Touches μ s₀ t := by
  unfold execFlashReadDone at he
  cases he
  repeat' (first
    | with_reducible assumption | with_reducible intro _ | ((with_reducible refine hasParts_trans hμ ?_); rfl)
    | with_reducible apply Touches.ite | with_reducible apply Touches.modFtl | with_reducible apply Touches.forEach
    | with_reducible apply Touches.when | with_reducible apply unlessStopped_touches
    | with_reducible apply countErr_touches | with_reducible apply loseImage_touches
    | with_reducible apply collectSoon_touches | split | dsimp only)

theorem settleBulk_touches (id : Nat) (hμ : hasParts μ (partSet [.hbm, .seqs, .wt, .ftl]) = true) (hs : Touches μ s₀
    s) :
    Touches μ s₀ (settleBulk id s) := by
  unfold settleBulk
  repeat' (first
    | with_reducible assumption | with_reducible intro _ | ((with_reducible refine hasParts_trans hμ ?_); rfl)
    | with_reducible apply Touches.ite | with_reducible apply Touches.modFtl | with_reducible apply charge_touches
    | with_reducible apply uncharge_touches | with_reducible apply switchPage_touches | split | dsimp only)

theorem slotImage_touches (unit stripe slot id : Nat) (hμ : hasParts μ (partSet [.ftl]) = true) (hs : Touches μ s₀ s)
    :
    Touches μ s₀ (slotImage unit stripe slot id s) := by
  unfold slotImage
  repeat' (first
    | with_reducible assumption | with_reducible intro _ | ((with_reducible refine hasParts_trans hμ ?_); rfl)
    | with_reducible apply Touches.ite | with_reducible apply Touches.ite_snd | with_reducible apply Touches.modFtl
    | with_reducible apply copyStamp_touches | with_reducible apply takeSeq_touches
    | with_reducible apply Touches.of_snd (by with_reducible assumption)
    | with_reducible apply Touches.of_snd3 (by with_reducible assumption) | split | dsimp only)

theorem toSlot_touches (pad : Bool) (unit : Nat) (hμ : hasParts μ (partSet [.ftl]) = true) (hs : Touches μ s₀ s) :
    optTouched μ s₀ (toSlot pad unit s) := by
  unfold toSlot
  repeat' (first
    | with_reducible assumption | with_reducible intro _ | ((with_reducible refine hasParts_trans hμ ?_); rfl)
    | with_reducible apply Touches.modFtl | with_reducible apply Touches.forEach
    | with_reducible apply bulkSlot_touches | with_reducible apply slotImage_touches
    | with_reducible exact optTouched_none | with_reducible apply optTouched_some | with_reducible apply Touches.getD
    | with_reducible apply optTouched_map | with_reducible exact optTouched3_none
    | with_reducible apply optTouched3_some | with_reducible apply optTouched3_map
    | with_reducible apply Touches.of_optTouched (by with_reducible assumption)
    | with_reducible apply Touches.of_optTouched3 (by with_reducible assumption)
    | with_reducible apply Touches.of_optTouched3_fst (by with_reducible assumption))

theorem foldFine_touches (unit : Nat) (x : Nat × FImage) (hμ : hasParts μ (partSet [.ftl]) = true) (hs : Touches μ s₀
    s) :
    optTouched μ s₀ (foldFine unit x s) := by
  unfold foldFine
  repeat' (first
    | with_reducible assumption | with_reducible intro _ | ((with_reducible refine hasParts_trans hμ ?_); rfl)
    | with_reducible apply Touches.modFtl | with_reducible apply writeStripes_touches
    | with_reducible apply takeSeq_touches | with_reducible exact optTouched_none
    | with_reducible apply optTouched_some | with_reducible apply Touches.getD | with_reducible apply optTouched_map
    | with_reducible apply Touches.getD_snd | with_reducible apply optTouched2_map
    | with_reducible apply Touches.of_snd (by with_reducible assumption)
    | with_reducible apply Touches.of_optTouched (by with_reducible assumption)
    | with_reducible apply Touches.of_optTouched2 (by with_reducible assumption)
    | with_reducible apply Touches.of_optTouched2_fst (by with_reducible assumption))

theorem foldUnit_touches (unit : Nat) (hμ : hasParts μ (partSet [.ftl]) = true) (hs : Touches μ s₀ s) :
    optTouched μ s₀ (foldUnit unit s) := by
  unfold foldUnit
  repeat' (first
    | with_reducible assumption | with_reducible intro _ | ((with_reducible refine hasParts_trans hμ ?_); rfl)
    | with_reducible apply Touches.ite | with_reducible apply Touches.modFtl | with_reducible apply Touches.foldl
    | with_reducible apply Touches.foldl_snd | with_reducible apply Touches.foldl_snd3
    | with_reducible apply toSlot_touches | with_reducible apply takeTable_touches
    | with_reducible apply foldFine_touches | with_reducible exact optTouched_none
    | with_reducible apply optTouched_some | with_reducible apply optTouched_foldl
    | with_reducible apply Touches.getD | with_reducible apply optTouched_map | with_reducible apply optTouched_bind
    | with_reducible apply Touches.of_optTouched (by with_reducible assumption) | split | dsimp only)

theorem execFold_touches {t : State} (unit : Nat) (hμ : hasParts μ (partSet [.hbm, .seqs, .wt, .ftl]) = true) (he :
    execFold unit s = .next t) (hs : Touches μ s₀ s) :
    Touches μ s₀ t := by
  unfold execFold at he
  cases he
  repeat' (first
    | with_reducible assumption | with_reducible intro _ | ((with_reducible refine hasParts_trans hμ ?_); rfl)
    | with_reducible apply Touches.forEach | with_reducible apply working_touches
    | with_reducible apply foldUnit_touches | with_reducible apply freeDead_touches
    | with_reducible apply settleBulk_touches | with_reducible exact optTouched_none
    | with_reducible apply optTouched_some | with_reducible apply optTouched_map
    | with_reducible apply Touches.of_optTouched (by with_reducible assumption) | split)

theorem copyPlace_touches (use region who : Nat) (p : FPlace) (hμ : hasParts μ (partSet [.ftl]) = true) (hs : Touches
    μ s₀ s) :
    optTouched2 μ s₀ (copyPlace use region who p s) := by
  unfold copyPlace
  repeat' (first
    | with_reducible assumption | ((with_reducible refine hasParts_trans hμ ?_); rfl)
    | with_reducible apply copyStamp_touches | with_reducible apply writeStripes_touches
    | with_reducible exact optTouched2_none | with_reducible apply optTouched2_some
    | with_reducible apply Touches.of_snd3 (by with_reducible assumption)
    | with_reducible apply Touches.of_optTouched2 (by with_reducible assumption)
    | with_reducible apply Touches.of_optTouched2_fst (by with_reducible assumption))

theorem copyPlaces_touches (id use region who : Nat) (l : List FPlace) (hμ : hasParts μ (partSet [.ftl]) = true) (hs :
    Touches μ s₀ s) :
    optTouched2 μ s₀ (copyPlaces id use region who l s) := by
  unfold copyPlaces
  repeat' (first
    | with_reducible assumption | with_reducible intro _ | ((with_reducible refine hasParts_trans hμ ?_); rfl)
    | with_reducible apply Touches.ite | with_reducible apply Touches.foldl | with_reducible apply Touches.foldl_snd
    | with_reducible apply Touches.foldl_snd3 | with_reducible apply copyPlace_touches
    | with_reducible exact optTouched2_none | with_reducible apply optTouched2_some
    | with_reducible apply optTouched2_foldl | with_reducible apply optTouched2_map
    | with_reducible apply optTouched2_bind
    | with_reducible apply Touches.of_optTouched2 (by with_reducible assumption)
    | with_reducible apply Touches.of_optTouched2_fst (by with_reducible assumption) | split)

theorem copyImage_touches (id : Nat) (st : Stripe) (im : Nat) (hμ : hasParts μ (partSet [.ftl]) = true) (hs : Touches
    μ s₀ s) :
    optTouched μ s₀ (copyImage id st im s) := by
  unfold copyImage
  repeat' (first
    | with_reducible assumption | with_reducible intro _ | ((with_reducible refine hasParts_trans hμ ?_); rfl)
    | with_reducible apply Touches.modFtl | with_reducible apply copyPlaces_touches
    | with_reducible exact optTouched_none | with_reducible apply optTouched_some
    | with_reducible apply optTouched_map | with_reducible exact optTouched2_none
    | with_reducible apply optTouched2_some | with_reducible apply optTouched2_map
    | with_reducible apply Touches.of_optTouched (by with_reducible assumption)
    | with_reducible apply Touches.of_optTouched2 (by with_reducible assumption)
    | with_reducible apply Touches.of_optTouched2_fst (by with_reducible assumption) | split | dsimp only)

theorem copyRec_touches (id : Nat) (st : Stripe) (who : Nat) (hμ : hasParts μ (partSet [.ftl]) = true) (hs : Touches μ
    s₀ s) :
    optTouched μ s₀ (copyRec id st who s) := by
  unfold copyRec
  repeat' (first
    | with_reducible assumption | with_reducible intro _ | ((with_reducible refine hasParts_trans hμ ?_); rfl)
    | with_reducible apply Touches.modFtl | with_reducible apply copyPlaces_touches
    | with_reducible exact optTouched_none | with_reducible apply optTouched_some
    | with_reducible apply optTouched_map | with_reducible exact optTouched2_none
    | with_reducible apply optTouched2_some | with_reducible apply optTouched2_map
    | with_reducible apply Touches.of_optTouched (by with_reducible assumption)
    | with_reducible apply Touches.of_optTouched2 (by with_reducible assumption)
    | with_reducible apply Touches.of_optTouched2_fst (by with_reducible assumption) | split | dsimp only)

theorem copyAll_touches (l : List Nat) (f : Nat → State → Option State) (hf : ∀ a0 t, Touches μ s₀ t → optTouched μ s₀
    (f a0 t)) (hs : Touches μ s₀ s) :
    optTouched μ s₀ (copyAll l f s) := by
  unfold copyAll
  repeat' (first
    | with_reducible assumption | with_reducible intro _ | with_reducible apply Touches.foldl
    | with_reducible apply Touches.foldl_snd | with_reducible apply Touches.foldl_snd3
    | with_reducible exact optTouched_none | with_reducible apply optTouched_some
    | with_reducible apply optTouched_foldl | with_reducible apply optTouched_bind | with_reducible apply hf
    | with_reducible apply Touches.of_optTouched (by with_reducible assumption))

theorem refine_touches (id : Nat) (hμ : hasParts μ (partSet [.ftl]) = true) (hs : Touches μ s₀ s) :
    Touches μ s₀ (refine id s) := by
  unfold refine
  repeat' (first
    | with_reducible assumption | with_reducible intro _ | ((with_reducible refine hasParts_trans hμ ?_); rfl)
    | with_reducible apply Touches.ite | with_reducible apply Touches.modFtl | with_reducible apply Touches.forEach
    | with_reducible apply takeTable_touches | split)

theorem moveParity_touches (st : Stripe) (hμ : hasParts μ (partSet [.ftl]) = true) (hs : Touches μ s₀ s) :
    Touches μ s₀ (moveParity st s) := by
  unfold moveParity
  repeat' (first
    | with_reducible assumption | with_reducible intro _ | ((with_reducible refine hasParts_trans hμ ?_); rfl)
    | with_reducible apply Touches.forEach | with_reducible apply writeParity_touches)

theorem copyOut_touches (id : Nat) (hμ : hasParts μ (partSet [.ftl]) = true) (hs : Touches μ s₀ s) :
    optTouched μ s₀ (copyOut id s) := by
  unfold copyOut
  repeat' (first
    | with_reducible assumption | with_reducible intro _ | ((with_reducible refine hasParts_trans hμ ?_); rfl)
    | with_reducible apply Touches.ite | with_reducible apply moveParity_touches
    | with_reducible apply refine_touches | with_reducible apply copyAll_touches
    | with_reducible apply toSlot_touches | with_reducible apply copyImage_touches
    | with_reducible apply copyRec_touches | with_reducible exact optTouched_none
    | with_reducible apply optTouched_some | with_reducible apply optTouched_map
    | with_reducible apply optTouched_bind
    | with_reducible apply Touches.of_optTouched (by with_reducible assumption) | split | dsimp only)

theorem execGcCollect_touches {t : State} (die : Nat) (hμ : hasParts μ (partSet [.ftl]) = true) (he : execGcCollect
    die s = .next t) (hs : Touches μ s₀ s) :
    Touches μ s₀ t := by
  unfold execGcCollect at he
  cases he
  repeat' (first
    | with_reducible assumption | with_reducible intro _ | ((with_reducible refine hasParts_trans hμ ?_); rfl)
    | with_reducible apply Touches.ite | with_reducible apply working_touches | with_reducible apply copyOut_touches
    | with_reducible apply freeDead_touches | with_reducible apply freeStripe_touches
    | with_reducible exact optTouched_none | with_reducible apply optTouched_some
    | with_reducible apply Touches.of_optTouched (by with_reducible assumption) | split)

theorem execStripeCloseVerify_touches {t : State} (stripe corrected : Nat) (hμ : hasParts μ (partSet [.ftl]) = true)
    (he : execStripeCloseVerify stripe corrected s = .next t) (hs : Touches μ s₀ s) :
    Touches μ s₀ t := by
  unfold execStripeCloseVerify at he
  cases he
  repeat' (first
    | with_reducible assumption | with_reducible intro _ | ((with_reducible refine hasParts_trans hμ ?_); rfl)
    | with_reducible apply Touches.ite | with_reducible apply Touches.modFtl | with_reducible apply working_touches
    | with_reducible apply collectSoon_touches | with_reducible apply freeDead_touches | split)

theorem execFlashPatrol_touches {t : State} (stripe corrected : Nat) (hμ : hasParts μ (partSet [.ftl]) = true) (he :
    execFlashPatrol stripe corrected s = .next t) (hs : Touches μ s₀ s) :
    Touches μ s₀ t := by
  unfold execFlashPatrol at he
  cases he
  repeat' (first
    | with_reducible assumption | with_reducible intro _ | ((with_reducible refine hasParts_trans hμ ?_); rfl)
    | with_reducible apply Touches.ite | with_reducible apply working_touches
    | with_reducible apply collectSoon_touches | with_reducible apply countErr_touches | split)

theorem execWriteHeatHalving_touches {t : State} (hμ : hasParts μ (partSet [.ftl]) = true) (he : execWriteHeatHalving
    s = .next t) (hs : Touches μ s₀ s) :
    Touches μ s₀ t := by
  unfold execWriteHeatHalving at he
  cases he
  repeat' (first
    | with_reducible assumption | with_reducible intro _ | ((with_reducible refine hasParts_trans hμ ?_); rfl)
    | with_reducible apply Touches.ite | with_reducible apply Touches.modFtl | with_reducible apply working_touches
    | split)

theorem execCatalogCompaction_touches {t : State} (hμ : hasParts μ (partSet [.ftl]) = true) (he :
    execCatalogCompaction s = .next t) (hs : Touches μ s₀ s) :
    Touches μ s₀ t := by
  unfold execCatalogCompaction at he
  cases he
  repeat' (first
    | with_reducible assumption | with_reducible intro _ | ((with_reducible refine hasParts_trans hμ ?_); rfl)
    | with_reducible apply Touches.ite | with_reducible apply Touches.modFtl | with_reducible apply working_touches
    | with_reducible apply freeDead_touches | split)

theorem execReserveRefill_touches {t : State} (hμ : hasParts μ (partSet [.ftl]) = true) (he : execReserveRefill s =
    .next t) (hs : Touches μ s₀ s) :
    Touches μ s₀ t := by
  unfold execReserveRefill at he
  cases he
  repeat' (first
    | with_reducible assumption | with_reducible intro _ | ((with_reducible refine hasParts_trans hμ ?_); rfl)
    | with_reducible apply Touches.ite | with_reducible apply Touches.modFtl | with_reducible apply working_touches
    | split)

theorem execHourOfService_touches {t : State} (junction flash : Int) (hμ : hasParts μ (partSet [.tly, .bbx]) = true)
    (he : execHourOfService junction flash s = .next t) (hs : Touches μ s₀ s) :
    Touches μ s₀ t := by
  unfold execHourOfService at he
  cases he
  repeat' (first
    | with_reducible assumption | with_reducible intro _ | ((with_reducible refine hasParts_trans hμ ?_); rfl)
    | with_reducible apply working_touches | with_reducible apply tlyWrite_touches)

theorem freeObj_touches (o : Nat) (hμ : hasParts μ (partSet [.link, .hbm, .io, .seqs, .casc, .cdc, .tier, .wt, .ftl,
    .sec]) = true) (hs : Touches μ s₀ s) :
    Touches μ s₀ (freeObj o s).2 := by
  unfold freeObj
  repeat' (first
    | with_reducible assumption | with_reducible intro _ | ((with_reducible refine hasParts_trans hμ ?_); rfl)
    | with_reducible apply Touches.modWt | with_reducible apply Touches.forEach
    | with_reducible apply freeStores_touches | with_reducible apply freeRun?_touches
    | with_reducible apply addCat_touches | split | dsimp only)

theorem retireNamed_touches (ctx handle : Nat) (key : List Byte) (force : Bool) (hμ : hasParts μ (partSet [.link,
    .hbm, .io, .seqs, .pfx, .casc, .cdc, .tier, .wt, .ftl, .sec]) = true) (hs : Touches μ s₀ s) :
    optTouched3 μ s₀ (retireNamed ctx handle key force s) := by
  unfold retireNamed
  repeat' (first
    | with_reducible assumption | ((with_reducible refine hasParts_trans hμ ?_); rfl)
    | with_reducible apply Touches.ite | with_reducible apply Touches.ite_snd
    | with_reducible apply retireBlock_touches | with_reducible exact optTouched3_none
    | with_reducible apply optTouched3_some | with_reducible apply Touches.of_snd (by with_reducible assumption)
    | with_reducible apply Touches.of_optTouched3 (by with_reducible assumption)
    | with_reducible apply Touches.of_optTouched3_fst (by with_reducible assumption) | split | dsimp only)

theorem unmapObject_touches (ctx : Nat) (il key : List Byte) (hμ : hasParts μ (partSet [.link, .hbm, .io, .seqs, .pfx,
    .casc, .cdc, .tier, .wt, .ftl, .sec]) = true) (hs : Touches μ s₀ s) :
    unmappedTouched μ s₀ (unmapObject ctx il key s) := by
  unfold unmapObject
  repeat' (first
    | with_reducible assumption | ((with_reducible refine hasParts_trans hμ ?_); rfl)
    | with_reducible apply Touches.ite | with_reducible apply Touches.ite_snd | with_reducible apply closeSeq_touches
    | with_reducible apply retireNamed_touches | with_reducible apply freeObj_touches
    | with_reducible apply unmappedTouched_refused | with_reducible apply unmappedTouched_later
    | with_reducible apply unmappedTouched_done | with_reducible exact optTouched3_none
    | with_reducible apply optTouched3_some | with_reducible apply Touches.of_snd (by with_reducible assumption)
    | with_reducible apply Touches.of_snd3 (by with_reducible assumption)
    | with_reducible apply Touches.of_optTouched3 (by with_reducible assumption)
    | with_reducible apply Touches.of_optTouched3_fst (by with_reducible assumption) | split | dsimp only)

theorem evacuate_touches (id : Nat) (hμ : hasParts μ (partSet [.ftl]) = true) (hs : Touches μ s₀ s) :
    Touches μ s₀ (evacuate id s) := by
  unfold evacuate
  repeat' (first
    | with_reducible assumption | with_reducible intro _ | ((with_reducible refine hasParts_trans hμ ?_); rfl)
    | with_reducible apply Touches.modFtl | with_reducible apply closeStripe_touches
    | with_reducible apply copyOut_touches | with_reducible apply freeStripe_touches
    | with_reducible exact optTouched_none | with_reducible apply optTouched_some
    | with_reducible apply Touches.of_optTouched (by with_reducible assumption) | split | dsimp only)

theorem beginErase_touches (ids : List Nat) (hold : List (Nat × Nat × Nat)) (hμ : hasParts μ (partSet [.ftl]) = true)
    (hs : Touches μ s₀ s) :
    Touches μ s₀ (beginErase ids hold s).2.2 := by
  unfold beginErase
  repeat' (first
    | with_reducible assumption | with_reducible intro _ | ((with_reducible refine hasParts_trans hμ ?_); rfl)
    | with_reducible apply Touches.ite | with_reducible apply Touches.ite_snd | with_reducible apply Touches.modFtl
    | with_reducible apply Touches.forEach | with_reducible apply evacuate_touches | split | dsimp only)

theorem eraseEnded_touches (id : Nat) (hμ : hasParts μ (partSet [.ftl]) = true) (hs : Touches μ s₀ s) :
    Touches μ s₀ (eraseEnded id s) := by
  unfold eraseEnded
  repeat' (first
    | with_reducible assumption | with_reducible intro _ | ((with_reducible refine hasParts_trans hμ ?_); rfl)
    | with_reducible apply Touches.modFtl)

theorem driveDiscard_touches (id : Nat) (hμ : hasParts μ (partSet [.link, .hbm, .rng, .io, .seqs, .pfx, .casc, .ops,
    .cdc, .tier, .wt, .ftl, .sch, .sec]) = true) (hs : Touches μ s₀ s) :
    Touches μ s₀ (driveDiscard id s) := by
  unfold driveDiscard
  repeat' (first
    | with_reducible assumption | with_reducible intro _ | ((with_reducible refine hasParts_trans hμ ?_); rfl)
    | with_reducible apply Touches.ite | with_reducible apply Touches.forEach
    | with_reducible apply unmapObject_touches | with_reducible apply finishOp_touches
    | with_reducible apply beginErase_touches | with_reducible apply modOp_touches
    | with_reducible apply eraseEnded_touches | with_reducible apply evacuate_touches
    | with_reducible apply Touches.ofUnmapped_done (by with_reducible assumption)
    | with_reducible apply Touches.of_snd3 (by with_reducible assumption) | split | dsimp only)

theorem discardOp_touches (secure : Bool) (ring : Nat) (e : Entry) (hμ : hasParts μ (partSet [.link, .hbm, .rng, .io,
    .seqs, .pfx, .casc, .ops, .cdc, .tier, .wt, .ftl, .sch, .sec]) = true) (hs : Touches μ s₀ s) :
    Touches μ s₀ (discardOp secure ring e s) := by
  unfold discardOp
  repeat' (first
    | with_reducible assumption | with_reducible intro _ | ((with_reducible refine hasParts_trans hμ ?_); rfl)
    | with_reducible apply Touches.ite | with_reducible apply Touches.ite_snd | with_reducible apply endNow_touches
    | with_reducible apply beginOp_touches | with_reducible apply modOp_touches | with_reducible apply modSeq_touches
    | with_reducible apply driveDiscard_touches | with_reducible apply Touches.of_snd (by with_reducible assumption)
    | split | dsimp only)

theorem driveDiscards_touches (hμ : hasParts μ (partSet [.link, .hbm, .rng, .io, .seqs, .pfx, .casc, .ops, .cdc,
    .tier, .wt, .ftl, .sch, .sec]) = true) (hs : Touches μ s₀ s) :
    Touches μ s₀ (driveDiscards s) := by
  unfold driveDiscards
  repeat' (first
    | with_reducible assumption | with_reducible intro _ | ((with_reducible refine hasParts_trans hμ ?_); rfl)
    | with_reducible apply Touches.forEach | with_reducible apply driveDiscard_touches | split)

theorem execDiscard_touches {t : State} (ring : Nat) (hμ : hasParts μ (partSet [.link, .hbm, .rng, .io, .seqs, .pfx,
    .casc, .ops, .cdc, .tier, .wt, .ftl, .sch, .sec]) = true) (he : execDiscard ring s = .next t) (hs : Touches μ s₀
    s) :
    Touches μ s₀ t := by
  unfold execDiscard at he
  cases he
  repeat' (first
    | with_reducible assumption | with_reducible intro _ | ((with_reducible refine hasParts_trans hμ ?_); rfl)
    | with_reducible apply driveDiscards_touches | with_reducible apply startOp_touches
    | with_reducible apply discardOp_touches)

theorem execDiscardSecure_touches {t : State} (ring : Nat) (hμ : hasParts μ (partSet [.link, .hbm, .rng, .io, .seqs,
    .pfx, .casc, .ops, .cdc, .tier, .wt, .ftl, .sch, .sec]) = true) (he : execDiscardSecure ring s = .next t) (hs :
    Touches μ s₀ s) :
    Touches μ s₀ t := by
  unfold execDiscardSecure at he
  cases he
  repeat' (first
    | with_reducible assumption | with_reducible intro _ | ((with_reducible refine hasParts_trans hμ ?_); rfl)
    | with_reducible apply driveDiscards_touches | with_reducible apply startOp_touches
    | with_reducible apply discardOp_touches)

theorem execFlashEraseDone_touches {t : State} (die block : Nat) (ok : Bool) (hμ : hasParts μ (partSet [.link, .hbm,
    .rng, .io, .seqs, .pfx, .casc, .ops, .cdc, .tier, .wt, .ftl, .sch, .sec]) = true) (he : execFlashEraseDone die
    block ok s = .next t) (hs : Touches μ s₀ s) :
    Touches μ s₀ t := by
  unfold execFlashEraseDone at he
  cases he
  repeat' (first
    | with_reducible assumption | with_reducible intro _ | ((with_reducible refine hasParts_trans hμ ?_); rfl)
    | with_reducible apply Touches.ite | with_reducible apply Touches.modOps | with_reducible apply Touches.modFtl
    | with_reducible apply Touches.when | with_reducible apply unlessStopped_touches
    | with_reducible apply retireBlockF_touches | with_reducible apply countErr_touches
    | with_reducible apply driveDiscards_touches | split | dsimp only)

end Sys2Proof.Machine
end

