-- ==== Sys2Proof/Laws/PrefixTouches.lean ====
section
/-! SUPPORT. Which parts of State the operations of Machine/Prefix.lean may touch: one lemma per operation. -/

namespace Sys2Proof.Machine

open Sys2Proof

variable {μ : Nat} {s₀ s : State}

/-- The state a `Attached` carries was touched in the parts `μ` only. -/
def attachedTouched (μ : Nat) (s₀ : State) : Attached → Prop
  | .yes s => Touches μ s₀ s
  | .ended s => Touches μ s₀ s
  | .wait _ s => Touches μ s₀ s

theorem attachedTouched_yes (hs : Touches μ s₀ s) : attachedTouched μ s₀ (.yes s) := hs

theorem Touches.ofAttached_yes {r : Attached} {t : State} (e : r = .yes t) (h : attachedTouched μ s₀ r) : Touches μ s₀ t := by
  rw [e] at h
  exact h

theorem attachedTouched_ended (hs : Touches μ s₀ s) : attachedTouched μ s₀ (.ended s) := hs

theorem Touches.ofAttached_ended {r : Attached} {t : State} (e : r = .ended t) (h : attachedTouched μ s₀ r) : Touches μ s₀ t := by
  rw [e] at h
  exact h

theorem attachedTouched_wait (d : Descent) (hs : Touches μ s₀ s) : attachedTouched μ s₀ (.wait d s) := hs

theorem Touches.ofAttached_wait {r : Attached} {d : Descent} {t : State} (e : r = .wait d t) (h : attachedTouched μ s₀ r) : Touches μ s₀ t := by
  rw [e] at h
  exact h


theorem scrubRow_touches (ovf : Bool) (k : Nat) (hμ : hasParts μ (partSet [.pfx]) = true) (hs : Touches μ s₀ s) :
    Touches μ s₀ (scrubRow ovf k s) := by
  unfold scrubRow
  repeat' (first
    | with_reducible assumption | with_reducible intro _ | ((with_reducible refine hasParts_trans hμ ?_); rfl)
    | with_reducible apply Touches.ite | with_reducible apply Touches.modPfx | split | dsimp only)

theorem verifyFailed_touches (ovf : Bool) (k : Nat) (hμ : hasParts μ (partSet [.pfx]) = true) (hs : Touches μ s₀ s) :
    Touches μ s₀ (verifyFailed ovf k s) := by
  unfold verifyFailed
  repeat' (first
    | with_reducible assumption | with_reducible intro _ | ((with_reducible refine hasParts_trans hμ ?_); rfl)
    | with_reducible apply Touches.modPfx | with_reducible apply scrubRow_touches)

theorem checkHit_touches (ovf : Bool) (owner : Nat) (key : List Byte) (w : Option (Nat × Row)) (hμ : hasParts μ
    (partSet [.pfx]) = true) (hs : Touches μ s₀ s) :
    Touches μ s₀ (checkHit ovf owner key w s).2 := by
  unfold checkHit
  repeat' (first
    | with_reducible assumption | ((with_reducible refine hasParts_trans hμ ?_); rfl)
    | with_reducible apply Touches.ite | with_reducible apply Touches.ite_snd
    | with_reducible apply verifyFailed_touches | split)

theorem searchArray_touches (set owner : Nat) (keys : List (List Byte)) (hμ : hasParts μ (partSet [.pfx]) = true) (hs
    : Touches μ s₀ s) :
    Touches μ s₀ (searchArray set owner keys s).2 := by
  unfold searchArray
  repeat' (first
    | with_reducible assumption | with_reducible intro _ | ((with_reducible refine hasParts_trans hμ ?_); rfl)
    | with_reducible apply Touches.modPfx)

theorem verifyArray_touches (owner : Nat) (hμ : hasParts μ (partSet [.pfx]) = true) : ∀ (y0 : List (List Byte × Option
    (Nat × Row))) {s : State} , Touches μ s₀ s → Touches μ s₀ (verifyArray owner y0 s).2 := by
  intro y0
  induction y0 with
  | nil =>
    intro s _
    unfold verifyArray
    repeat' (first
      | with_reducible assumption | with_reducible intro _ | ((with_reducible refine hasParts_trans hμ ?_); rfl)
      | with_reducible apply checkHit_touches
      | with_reducible apply Touches.of_snd (by with_reducible assumption) | split | dsimp only)
  | cons c rest ih =>
    intro s _
    unfold verifyArray
    repeat' (first
      | with_reducible assumption | with_reducible intro _ | ((with_reducible refine hasParts_trans hμ ?_); rfl)
      | with_reducible apply checkHit_touches | with_reducible apply ih
      | with_reducible apply Touches.of_snd (by with_reducible assumption) | split | dsimp only)

theorem searchOvfKey_touches (ctx owner : Nat) (key : List Byte) (hμ : hasParts μ (partSet [.pfx, .sch]) = true) (hs :
    Touches μ s₀ s) :
    Touches μ s₀ (searchOvfKey ctx owner key s).2 := by
  unfold searchOvfKey
  repeat' (first
    | with_reducible assumption | with_reducible intro _ | ((with_reducible refine hasParts_trans hμ ?_); rfl)
    | with_reducible apply Touches.modPfx | with_reducible apply chargeCore_touches
    | with_reducible apply checkHit_touches | with_reducible apply Touches.of_snd (by with_reducible assumption))

theorem searchOverflow_touches (ctx owner : Nat) (hμ : hasParts μ (partSet [.pfx, .sch]) = true) : ∀ (y0 : List (List
    Byte × KeyHit)) {s : State} , Touches μ s₀ s → Touches μ s₀ (searchOverflow ctx owner y0 s).2 := by
  intro y0
  induction y0 with
  | nil =>
    intro s _
    unfold searchOverflow
    repeat' (first
      | with_reducible assumption | ((with_reducible refine hasParts_trans hμ ?_); rfl)
      | with_reducible apply searchOvfKey_touches
      | with_reducible apply Touches.of_snd (by with_reducible assumption) | split | dsimp only)
  | cons c rest ih =>
    intro s _
    unfold searchOverflow
    repeat' (first
      | with_reducible assumption | ((with_reducible refine hasParts_trans hμ ?_); rfl)
      | with_reducible apply searchOvfKey_touches | with_reducible apply ih
      | with_reducible apply Touches.of_snd (by with_reducible assumption) | split | dsimp only)

theorem localHits_touches (ctx set owner : Nat) (keys : List (List Byte)) (hμ : hasParts μ (partSet [.pfx, .sch]) =
    true) (hs : Touches μ s₀ s) :
    Touches μ s₀ (localHits ctx set owner keys s).2 := by
  unfold localHits
  repeat' (first
    | with_reducible assumption | ((with_reducible refine hasParts_trans hμ ?_); rfl)
    | with_reducible apply Touches.ite | with_reducible apply Touches.ite_snd
    | with_reducible apply searchArray_touches | with_reducible apply verifyArray_touches
    | with_reducible apply searchOverflow_touches
    | with_reducible apply Touches.of_snd (by with_reducible assumption) | split | dsimp only)

theorem newRec_touches (p : Page) (hint prio : Nat) (hμ : hasParts μ (partSet [.seqs]) = true) (hs : Touches μ s₀ s) :
    Touches μ s₀ (newRec p hint prio s).2 := by
  unfold newRec
  repeat' (first
    | with_reducible assumption | with_reducible intro _ | ((with_reducible refine hasParts_trans hμ ?_); rfl)
    | with_reducible apply Touches.modSeqs)

theorem tablesFor_touches (h first size : Nat) (hμ : hasParts μ (partSet [.link, .coh, .hbm, .io, .seqs, .pfx, .casc,
    .cdc, .tier, .wt, .ftl, .sec]) = true) : ∀ (y0 : List Nat) (y1 : Descent) {s : State} , Touches μ s₀ s →
    tablesTouched μ s₀ (tablesFor h first size y0 y1 s) := by
  intro y0
  induction y0 with
  | nil =>
    intro y1 s _
    unfold tablesFor
    repeat' (first
      | with_reducible assumption | ((with_reducible refine hasParts_trans hμ ?_); rfl)
      | with_reducible apply ensureTables_touches | with_reducible apply tablesTouched_ok
      | with_reducible apply tablesTouched_wait | with_reducible apply tablesTouched_fail
      | with_reducible apply Touches.ofTables_ok (by with_reducible assumption)
      | with_reducible apply Touches.ofTables_wait (by with_reducible assumption)
      | with_reducible apply Touches.ofTables_fail (by with_reducible assumption) | split)
  | cons c rest ih =>
    intro y1 s _
    unfold tablesFor
    repeat' (first
      | with_reducible assumption | ((with_reducible refine hasParts_trans hμ ?_); rfl)
      | with_reducible apply ensureTables_touches | with_reducible apply tablesTouched_ok
      | with_reducible apply tablesTouched_wait | with_reducible apply tablesTouched_fail
      | with_reducible apply Touches.ofTables_ok (by with_reducible assumption)
      | with_reducible apply Touches.ofTables_wait (by with_reducible assumption)
      | with_reducible apply Touches.ofTables_fail (by with_reducible assumption) | with_reducible apply ih | split)

theorem mapBlock_touches (h first size : Nat) (recs : List Nat) (hμ : hasParts μ (partSet [.seqs]) = true) (hs :
    Touches μ s₀ s) :
    Touches μ s₀ (mapBlock h first size recs s) := by
  unfold mapBlock
  repeat' (first
    | with_reducible assumption | with_reducible intro _ | ((with_reducible refine hasParts_trans hμ ?_); rfl)
    | with_reducible apply modSeq_touches)

theorem mapTables_touches (h : Nat) (f : State → State) (t : Tables) (hf : ∀ t, Touches μ s₀ t → Touches μ s₀ (f t))
    (ht : tablesTouched μ s₀ t) (hμ : hasParts μ (partSet [.hbm, .seqs]) = true) :
    attachedTouched μ s₀ (mapTables h f t) := by
  unfold mapTables
  repeat' (first
    | with_reducible assumption | ((with_reducible refine hasParts_trans hμ ?_); rfl)
    | with_reducible apply dropBareTables_touches | with_reducible apply attachedTouched_yes
    | with_reducible apply attachedTouched_ended | with_reducible apply attachedTouched_wait | exact ht
    | with_reducible apply hf | split)

theorem mapPeerBlock_touches (h pos size : Nat) (q : Seq) (m : Model) (node handle : Nat) (hμ : hasParts μ (partSet
    [.seqs, .casc]) = true) (hs : Touches μ s₀ s) :
    Touches μ s₀ (mapPeerBlock h pos size q m node handle s) := by
  unfold mapPeerBlock
  repeat' (first
    | with_reducible assumption | with_reducible intro _ | ((with_reducible refine hasParts_trans hμ ?_); rfl)
    | with_reducible apply Touches.modCasc | with_reducible apply Touches.foldl
    | with_reducible apply Touches.foldl_snd | with_reducible apply Touches.foldl_snd3
    | with_reducible apply newRec_touches | with_reducible apply mapBlock_touches
    | with_reducible apply Touches.of_snd (by with_reducible assumption))

theorem attachOne_touches (h pos : Nat) (src : Source) (d : Descent) (hμ : hasParts μ (partSet [.link, .coh, .hbm,
    .io, .seqs, .pfx, .casc, .cdc, .tier, .wt, .ftl, .sec]) = true) (hs : Touches μ s₀ s) :
    attachedTouched μ s₀ (attachOne h pos src d s) := by
  unfold attachOne
  repeat' (first
    | with_reducible assumption | with_reducible intro _ | ((with_reducible refine hasParts_trans hμ ?_); rfl)
    | with_reducible apply Touches.ite | with_reducible apply Touches.forEach
    | with_reducible apply dropBareTables_touches | with_reducible apply mapTables_touches
    | with_reducible apply mapBlock_touches | with_reducible apply addRef_touches
    | with_reducible apply tablesFor_touches | with_reducible apply mapPeerBlock_touches
    | with_reducible apply Touches.ofTables_ok (by with_reducible assumption)
    | with_reducible apply Touches.ofTables_wait (by with_reducible assumption)
    | with_reducible apply Touches.ofTables_fail (by with_reducible assumption)
    | with_reducible apply attachedTouched_yes | with_reducible apply attachedTouched_ended
    | with_reducible apply attachedTouched_wait
    | with_reducible apply Touches.ofAttached_yes (by with_reducible assumption)
    | with_reducible apply Touches.ofAttached_ended (by with_reducible assumption)
    | with_reducible apply Touches.ofAttached_wait (by with_reducible assumption) | split | dsimp only)

theorem attachRun_touches (h pos block : Nat) (hμ : hasParts μ (partSet [.link, .coh, .hbm, .io, .seqs, .pfx, .casc,
    .cdc, .tier, .wt, .ftl, .sec]) = true) : ∀ (y0 : List Source) (y1 : AttachSt) {s : State} , Touches μ s₀ s →
    Touches μ s₀ (attachRun h pos block y0 y1 s).2.2 := by
  intro y0
  induction y0 generalizing pos with
  | nil =>
    intro y1 s _
    unfold attachRun
    repeat' (first
      | with_reducible assumption | with_reducible intro _ | ((with_reducible refine hasParts_trans hμ ?_); rfl)
      | with_reducible apply attachOne_touches | with_reducible apply need_touches
      | with_reducible apply modSeq_touches | with_reducible apply Touches.ofNeed_got (by with_reducible assumption)
      | with_reducible apply Touches.ofNeed_wait (by with_reducible assumption)
      | with_reducible apply Touches.ofNeed_fail (by with_reducible assumption)
      | with_reducible apply Touches.ofAttached_yes (by with_reducible assumption)
      | with_reducible apply Touches.ofAttached_ended (by with_reducible assumption)
      | with_reducible apply Touches.ofAttached_wait (by with_reducible assumption)
      | with_reducible apply Touches.of_snd3 (by with_reducible assumption) | split | dsimp only)
  | cons c rest ih =>
    intro y1 s _
    unfold attachRun
    repeat' (first
      | with_reducible assumption | with_reducible intro _ | ((with_reducible refine hasParts_trans hμ ?_); rfl)
      | with_reducible apply attachOne_touches | with_reducible apply need_touches
      | with_reducible apply modSeq_touches | with_reducible apply Touches.ofNeed_got (by with_reducible assumption)
      | with_reducible apply Touches.ofNeed_wait (by with_reducible assumption)
      | with_reducible apply Touches.ofNeed_fail (by with_reducible assumption)
      | with_reducible apply Touches.ofAttached_yes (by with_reducible assumption)
      | with_reducible apply Touches.ofAttached_ended (by with_reducible assumption)
      | with_reducible apply Touches.ofAttached_wait (by with_reducible assumption) | with_reducible apply ih
      | with_reducible apply Touches.of_snd3 (by with_reducible assumption) | split | dsimp only)

theorem writeResults_touches (a : LookupArgs) (key : Nat) (es : List (Option Nat)) (hμ : hasParts μ (partSet [.link,
    .io, .sec]) = true) (hs : Touches μ s₀ s) :
    Touches μ s₀ (writeResults a key es s) := by
  unfold writeResults
  repeat' (first
    | with_reducible assumption | with_reducible intro _ | ((with_reducible refine hasParts_trans hμ ?_); rfl)
    | with_reducible apply Touches.ite | with_reducible apply Touches.ite_snd
    | with_reducible apply writeTiles_touches | with_reducible apply Touches.of_snd (by with_reducible assumption)
    | split)

theorem catAttach_touches (a : LookupArgs) (x : AttachSt) (hμ : hasParts μ (partSet [.ftl]) = true) (hs : Touches μ s₀
    s) :
    Touches μ s₀ (catAttach a x s) := by
  unfold catAttach
  repeat' (first
    | with_reducible assumption | ((with_reducible refine hasParts_trans hμ ?_); rfl)
    | with_reducible apply Touches.ite | with_reducible apply addCat_touches | split)

theorem localLookup_touches (ctx : Nat) (a : LookupArgs) (keys : List (List Byte)) (hμ : hasParts μ (partSet [.pfx,
    .sch]) = true) (hs : Touches μ s₀ s) :
    Touches μ s₀ (localLookup ctx a keys s).2 := by
  unfold localLookup
  repeat' (first
    | with_reducible assumption | with_reducible intro _ | ((with_reducible refine hasParts_trans hμ ?_); rfl)
    | with_reducible apply Touches.ite | with_reducible apply Touches.ite_snd
    | with_reducible apply localHits_touches | with_reducible apply Touches.of_snd (by with_reducible assumption)
    | split | dsimp only)

theorem placeBlock_touches (b set : Nat) (hμ : hasParts μ (partSet [.link, .hbm, .io, .seqs, .pfx, .casc, .cdc, .tier,
    .wt, .ftl, .sec]) = true) (hs : Touches μ s₀ s) :
    optTouched μ s₀ (placeBlock b set s) := by
  unfold placeBlock
  repeat' (first
    | with_reducible assumption | with_reducible intro _ | ((with_reducible refine hasParts_trans hμ ?_); rfl)
    | with_reducible apply Touches.ite | with_reducible apply Touches.ite_snd | with_reducible apply Touches.modPfx
    | with_reducible apply Touches.foldl | with_reducible apply Touches.foldl_snd
    | with_reducible apply Touches.foldl_snd3 | with_reducible apply retireBlock_touches
    | with_reducible exact optTouched_none | with_reducible apply optTouched_some
    | with_reducible apply optTouched_foldl | with_reducible apply optTouched_map
    | with_reducible apply optTouched_bind | with_reducible apply Touches.of_snd (by with_reducible assumption)
    | with_reducible apply Touches.of_optTouched (by with_reducible assumption) | split | dsimp only)

theorem pfxRetire_touches (ring : Nat) (e : Entry) (hμ : hasParts μ (partSet [.link, .hbm, .rng, .io, .seqs, .pfx,
    .casc, .cdc, .tier, .wt, .ftl, .sch, .sec]) = true) (hs : Touches μ s₀ s) :
    Touches μ s₀ (pfxRetire ring e s) := by
  unfold pfxRetire
  repeat' (first
    | with_reducible assumption | ((with_reducible refine hasParts_trans hμ ?_); rfl)
    | with_reducible apply retireNamed_touches | with_reducible apply endNow_touches
    | with_reducible exact optTouched3_none | with_reducible apply optTouched3_some
    | with_reducible apply Touches.of_optTouched3 (by with_reducible assumption)
    | with_reducible apply Touches.of_optTouched3_fst (by with_reducible assumption) | split | dsimp only)

theorem execPfxRetire_touches {t : State} (ring : Nat) (hμ : hasParts μ (partSet [.link, .hbm, .rng, .io, .seqs, .pfx,
    .casc, .ops, .cdc, .tier, .wt, .ftl, .sch, .sec]) = true) (he : execPfxRetire ring s = .next t) (hs : Touches μ s₀
    s) :
    Touches μ s₀ t := by
  unfold execPfxRetire at he
  cases he
  repeat' (first
    | with_reducible assumption | with_reducible intro _ | ((with_reducible refine hasParts_trans hμ ?_); rfl)
    | with_reducible apply startOp_touches | with_reducible apply pfxRetire_touches)

theorem polCmd_touches (path : Path) (f : Pfx → Pfx) (hμ : hasParts μ (partSet [.pfx]) = true) (hs : Touches μ s₀ s) :
    Touches μ s₀ (polCmd path f s) := by
  unfold polCmd
  repeat' (first
    | with_reducible assumption | ((with_reducible refine hasParts_trans hμ ?_); rfl)
    | with_reducible apply Touches.ite | with_reducible apply Touches.modPfx | split)

theorem execPolicyInsert_touches {t : State} (path : Path) (hμ : hasParts μ (partSet [.pfx]) = true) (he :
    execPolicyInsert path s = .next t) (hs : Touches μ s₀ s) :
    Touches μ s₀ t := by
  unfold execPolicyInsert at he
  cases he
  repeat' (first
    | with_reducible assumption | with_reducible intro _ | ((with_reducible refine hasParts_trans hμ ?_); rfl)
    | with_reducible apply regAccess_touches | with_reducible apply polCmd_touches)

theorem execPolicyDelete_touches {t : State} (path : Path) (hμ : hasParts μ (partSet [.pfx]) = true) (he :
    execPolicyDelete path s = .next t) (hs : Touches μ s₀ s) :
    Touches μ s₀ t := by
  unfold execPolicyDelete at he
  cases he
  repeat' (first
    | with_reducible assumption | with_reducible intro _ | ((with_reducible refine hasParts_trans hμ ?_); rfl)
    | with_reducible apply regAccess_touches | with_reducible apply polCmd_touches)

theorem execPolicyRead_touches {t : State} (path : Path) (hμ : hasParts μ (partSet [.pfx]) = true) (he :
    execPolicyRead path s = .next t) (hs : Touches μ s₀ s) :
    Touches μ s₀ t := by
  unfold execPolicyRead at he
  cases he
  repeat' (first
    | with_reducible assumption | with_reducible intro _ | ((with_reducible refine hasParts_trans hμ ?_); rfl)
    | with_reducible apply regAccess_touches | with_reducible apply polCmd_touches)

theorem patrolRowOf_touches (row : Nat) (bad : Bool) (bank : Nat) (hμ : hasParts μ (partSet [.pfx]) = true) (hs :
    Touches μ s₀ s) :
    Touches μ s₀ (patrolRowOf row bad bank s) := by
  unfold patrolRowOf
  repeat' (first
    | with_reducible assumption | with_reducible intro _ | ((with_reducible refine hasParts_trans hμ ?_); rfl)
    | with_reducible apply Touches.ite | with_reducible apply Touches.modPfx | with_reducible apply scrubRow_touches
    | split | dsimp only)

theorem patrolRead_touches (errors : List Nat) (hμ : hasParts μ (partSet [.pfx]) = true) (hs : Touches μ s₀ s) :
    Touches μ s₀ (patrolRead errors s) := by
  unfold patrolRead
  repeat' (first
    | with_reducible assumption | with_reducible intro _ | ((with_reducible refine hasParts_trans hμ ?_); rfl)
    | with_reducible apply Touches.ite | with_reducible apply Touches.modPfx | with_reducible apply Touches.forEach
    | with_reducible apply patrolRowOf_touches | split | dsimp only)

end Sys2Proof.Machine
end

