-- ==== Sys2Proof/Laws/CascadeTouches.lean ====
section
/-! SUPPORT. Which parts of State the operations of Machine/Cascade.lean may touch: one lemma per operation. -/

namespace Sys2Proof.Machine

open Sys2Proof

variable {μ : Nat} {s₀ s : State}

theorem takePeer_touches (h : Hdr) (typ : Nat) (f : State → State) (hf : ∀ t, Touches μ s₀ t → Touches μ s₀ (f t)) (hμ
    : hasParts μ (partSet [.link]) = true) (hs : Touches μ s₀ s) :
    Touches μ s₀ (takePeer h typ f s) := by
  unfold takePeer
  repeat' (first
    | with_reducible assumption | with_reducible intro _ | ((with_reducible refine hasParts_trans hμ ?_); rfl)
    | with_reducible apply Touches.ite | with_reducible apply takeMsg_touches
    | with_reducible apply countNokey_touches | with_reducible apply hf | split)

theorem sendPageRd_touches (node kind : Nat) (body : List Byte) (hμ : hasParts μ (partSet [.link, .io, .sec]) = true)
    (hs : Touches μ s₀ s) :
    Touches μ s₀ (sendPageRd node kind body s) := by
  unfold sendPageRd
  repeat' (first
    | with_reducible assumption | ((with_reducible refine hasParts_trans hμ ?_); rfl)
    | with_reducible apply takeTag_touches | with_reducible apply send_touches
    | with_reducible apply Touches.of_snd (by with_reducible assumption) | split | dsimp only)

theorem answerPage_touches (h : Hdr) (kind status : Nat) (body : List Byte) (hμ : hasParts μ (partSet [.link, .sec]) =
    true) (hs : Touches μ s₀ s) :
    Touches μ s₀ (answerPage h kind status body s) := by
  unfold answerPage
  repeat' (first
    | with_reducible assumption | ((with_reducible refine hasParts_trans hμ ?_); rfl)
    | with_reducible apply reply_touches)

theorem exportBlock_touches (holder : Node) (r : Row) (hμ : hasParts μ (partSet [.coh, .hbm, .seqs, .casc]) = true)
    (hs : Touches μ s₀ s) :
    optTouched2 μ s₀ (exportBlock holder r s) := by
  unfold exportBlock
  repeat' (first
    | with_reducible assumption | with_reducible intro _ | ((with_reducible refine hasParts_trans hμ ?_); rfl)
    | with_reducible apply Touches.modCasc | with_reducible apply Touches.forEach
    | with_reducible apply takeRun_touches | with_reducible apply modRec_touches
    | with_reducible exact optTouched2_none | with_reducible apply optTouched2_some
    | with_reducible apply optTouched2_map
    | with_reducible apply Touches.of_optTouched2 (by with_reducible assumption)
    | with_reducible apply Touches.of_optTouched2_fst (by with_reducible assumption) | split | dsimp only)

theorem releaseExport_touches (slot layer : Nat) (hμ : hasParts μ (partSet [.link, .hbm, .io, .seqs, .casc, .cdc,
    .tier, .wt, .ftl, .sec]) = true) (hs : Touches μ s₀ s) :
    Touches μ s₀ (releaseExport slot layer s) := by
  unfold releaseExport
  repeat' (first
    | with_reducible assumption | with_reducible intro _ | ((with_reducible refine hasParts_trans hμ ?_); rfl)
    | with_reducible apply Touches.ite | with_reducible apply Touches.modCasc | with_reducible apply dropRef_touches
    | with_reducible apply freeRun?_touches | split | dsimp only)

theorem sweepImports_touches (node : Node) (hμ : hasParts μ (partSet [.link, .hbm, .io, .seqs, .pfx, .casc, .cdc,
    .tier, .wt, .ftl, .sec]) = true) (hs : Touches μ s₀ s) :
    Touches μ s₀ (sweepImports node s) := by
  unfold sweepImports
  repeat' (first
    | with_reducible assumption | with_reducible intro _ | ((with_reducible refine hasParts_trans hμ ?_); rfl)
    | with_reducible apply Touches.modCasc | with_reducible apply Touches.forEach
    | with_reducible apply issueTicket_touches | with_reducible apply dropUnder_touches
    | with_reducible apply Touches.of_snd (by with_reducible assumption))

theorem sweepExports_touches (node : Node) (hμ : hasParts μ (partSet [.link, .hbm, .io, .seqs, .casc, .cdc, .tier,
    .wt, .ftl, .sec]) = true) (hs : Touches μ s₀ s) :
    Touches μ s₀ (sweepExports node s) := by
  unfold sweepExports
  repeat' (first
    | with_reducible assumption | with_reducible intro _ | ((with_reducible refine hasParts_trans hμ ?_); rfl)
    | with_reducible apply Touches.forEach | with_reducible apply releaseExport_touches)

theorem setView_touches (view mask : Nat) (hμ : hasParts μ (partSet [.link, .hbm, .io, .seqs, .pfx, .casc, .cdc,
    .tier, .wt, .ftl, .sec]) = true) (hs : Touches μ s₀ s) :
    Touches μ s₀ (setView view mask s) := by
  unfold setView
  repeat' (first
    | with_reducible assumption | with_reducible intro _ | ((with_reducible refine hasParts_trans hμ ?_); rfl)
    | with_reducible apply Touches.modCasc | with_reducible apply Touches.forEach
    | with_reducible apply sweepExports_touches | with_reducible apply sweepImports_touches)

theorem refreshView_touches (hμ : hasParts μ (partSet [.pins, .link, .hbm, .io, .seqs, .pfx, .casc, .cdc, .tier, .wt,
    .ftl, .sec]) = true) (hs : Touches μ s₀ s) :
    Touches μ s₀ (refreshView s) := by
  unfold refreshView
  repeat' (first
    | with_reducible assumption | with_reducible intro _ | ((with_reducible refine hasParts_trans hμ ?_); rfl)
    | with_reducible apply Touches.ite | with_reducible apply Touches.modCasc
    | with_reducible apply driveMaster_touches | with_reducible apply setView_touches | split | dsimp only)

theorem releaseAll_touches (node : Node) (layers : Nat) (handles : List Nat) (hμ : hasParts μ (partSet [.link, .io,
    .sec]) = true) (hs : Touches μ s₀ s) :
    Touches μ s₀ (releaseAll node layers handles s) := by
  unfold releaseAll
  repeat' (first
    | with_reducible assumption | with_reducible intro _ | ((with_reducible refine hasParts_trans hμ ?_); rfl)
    | with_reducible apply Touches.forEach | with_reducible apply sendRelease_touches)

theorem closeLookup_touches (o : Op) (x : AttachSt) (hμ : hasParts μ (partSet [.link, .io, .ftl, .sec]) = true) (hs :
    Touches μ s₀ s) :
    Touches μ s₀ (closeLookup o x s) := by
  unfold closeLookup
  repeat' (first
    | with_reducible assumption | with_reducible intro _ | ((with_reducible refine hasParts_trans hμ ?_); rfl)
    | with_reducible apply Touches.ite | with_reducible apply Touches.forEach | with_reducible apply Touches.when
    | with_reducible apply catAttach_touches | with_reducible apply releaseAll_touches | split | dsimp only)

theorem driveLookup_touches (id : Nat) (hμ : hasParts μ (partSet [.link, .coh, .hbm, .rng, .io, .seqs, .pfx, .casc,
    .ops, .cdc, .tier, .wt, .ftl, .sch, .sec]) = true) (hs : Touches μ s₀ s) :
    Touches μ s₀ (driveLookup id s) := by
  unfold driveLookup
  repeat' (first
    | with_reducible assumption | with_reducible intro _ | ((with_reducible refine hasParts_trans hμ ?_); rfl)
    | with_reducible apply Touches.ite | with_reducible apply attachRun_touches | with_reducible apply modOp_touches
    | with_reducible apply writeResults_touches | with_reducible apply closeLookup_touches
    | with_reducible apply finishOp_touches | with_reducible apply Touches.of_snd3 (by with_reducible assumption)
    | split | dsimp only)

theorem beginLookup_touches (id : Nat) (hμ : hasParts μ (partSet [.link, .coh, .hbm, .rng, .io, .seqs, .pfx, .casc,
    .ops, .cdc, .tier, .wt, .ftl, .sch, .sec]) = true) (hs : Touches μ s₀ s) :
    Touches μ s₀ (beginLookup id s) := by
  unfold beginLookup
  repeat' (first
    | with_reducible assumption | with_reducible intro _ | ((with_reducible refine hasParts_trans hμ ?_); rfl)
    | with_reducible apply Touches.ite | with_reducible apply Touches.ite_snd | with_reducible apply Touches.modCasc
    | with_reducible apply Touches.forEach | with_reducible apply localLookup_touches
    | with_reducible apply driveLookup_touches | with_reducible apply modOp_touches
    | with_reducible apply searchArray_touches | with_reducible apply sendPageRd_touches
    | with_reducible apply Touches.of_snd (by with_reducible assumption) | split | dsimp only)

theorem restartLookup_touches (hμ : hasParts μ (partSet [.link, .coh, .hbm, .rng, .io, .seqs, .pfx, .casc, .ops, .cdc,
    .tier, .wt, .ftl, .sch, .sec]) = true) (hs : Touches μ s₀ s) :
    Touches μ s₀ (restartLookup s) := by
  unfold restartLookup
  repeat' (first
    | with_reducible assumption | with_reducible intro _ | ((with_reducible refine hasParts_trans hμ ?_); rfl)
    | with_reducible apply Touches.modCasc | with_reducible apply beginLookup_touches | split | dsimp only)

theorem groupOverflow_touches (ctx owner : Nat) (hμ : hasParts μ (partSet [.pfx, .sch]) = true) : ∀ (y0 : List (List
    Byte × GroupHit)) {s : State} , Touches μ s₀ s → Touches μ s₀ (groupOverflow ctx owner y0 s).2 := by
  intro y0
  induction y0 with
  | nil =>
    intro s _
    unfold groupOverflow
    repeat' (first
      | with_reducible assumption | ((with_reducible refine hasParts_trans hμ ?_); rfl)
      | with_reducible apply Touches.ite | with_reducible apply Touches.ite_snd
      | with_reducible apply searchOvfKey_touches
      | with_reducible apply Touches.of_snd (by with_reducible assumption) | split | dsimp only)
  | cons c rest ih =>
    intro s _
    unfold groupOverflow
    repeat' (first
      | with_reducible assumption | ((with_reducible refine hasParts_trans hμ ?_); rfl)
      | with_reducible apply Touches.ite | with_reducible apply Touches.ite_snd
      | with_reducible apply searchOvfKey_touches | with_reducible apply ih
      | with_reducible apply Touches.of_snd (by with_reducible assumption) | split | dsimp only)

theorem groupHits_touches (l : MLookup) (hμ : hasParts μ (partSet [.pfx]) = true) (hs : Touches μ s₀ s) :
    Touches μ s₀ (groupHits l s).2 := by
  unfold groupHits
  repeat' (first
    | with_reducible assumption | with_reducible intro _ | ((with_reducible refine hasParts_trans hμ ?_); rfl)
    | with_reducible apply Touches.ite | with_reducible apply Touches.ite_snd | with_reducible apply Touches.foldl
    | with_reducible apply Touches.foldl_snd | with_reducible apply Touches.foldl_snd3
    | with_reducible apply checkHit_touches | with_reducible apply Touches.of_snd (by with_reducible assumption)
    | split | dsimp only)

theorem finishLookup_touches (l : MLookup) (hμ : hasParts μ (partSet [.link, .coh, .hbm, .rng, .io, .seqs, .pfx,
    .casc, .ops, .cdc, .tier, .wt, .ftl, .sch, .sec]) = true) (hs : Touches μ s₀ s) :
    Touches μ s₀ (finishLookup l s) := by
  unfold finishLookup
  repeat' (first
    | with_reducible assumption | with_reducible intro _ | ((with_reducible refine hasParts_trans hμ ?_); rfl)
    | with_reducible apply Touches.ite | with_reducible apply Touches.ite_snd | with_reducible apply Touches.modCasc
    | with_reducible apply Touches.forEach | with_reducible apply groupHits_touches
    | with_reducible apply groupOverflow_touches | with_reducible apply releaseAll_touches
    | with_reducible apply driveLookup_touches | with_reducible apply modOp_touches
    | with_reducible apply Touches.of_snd (by with_reducible assumption) | split | dsimp only)

theorem putLookup_touches (l : MLookup) (hμ : hasParts μ (partSet [.casc]) = true) (hs : Touches μ s₀ s) :
    Touches μ s₀ (putLookup l s) := by
  unfold putLookup
  repeat' (first
    | with_reducible assumption | with_reducible intro _ | ((with_reducible refine hasParts_trans hμ ?_); rfl)
    | with_reducible apply Touches.modCasc)

theorem driveBeats_touches (vs : List Nat) (hμ : hasParts μ (partSet [.casc]) = true) (hs : Touches μ s₀ s) :
    Touches μ s₀ (driveBeats vs s) := by
  unfold driveBeats
  repeat' (first
    | with_reducible assumption | with_reducible intro _ | ((with_reducible refine hasParts_trans hμ ?_); rfl)
    | with_reducible apply Touches.modCasc)

theorem resolveLookup_touches (l : MLookup) (hμ : hasParts μ (partSet [.link, .coh, .hbm, .rng, .io, .seqs, .pfx,
    .casc, .ops, .cdc, .tier, .wt, .ftl, .sch, .sec]) = true) (hs : Touches μ s₀ s) :
    Touches μ s₀ (resolveLookup l s) := by
  unfold resolveLookup
  repeat' (first
    | with_reducible assumption | with_reducible intro _ | ((with_reducible refine hasParts_trans hμ ?_); rfl)
    | with_reducible apply Touches.ite | with_reducible apply Touches.modCasc | with_reducible apply Touches.forEach
    | with_reducible apply driveBeats_touches | with_reducible apply putLookup_touches
    | with_reducible apply sendPageRd_touches | with_reducible apply finishLookup_touches | split | dsimp only)

theorem pfxLookup_touches (ring : Nat) (e : Entry) (hμ : hasParts μ (partSet [.link, .coh, .hbm, .rng, .io, .seqs,
    .pfx, .casc, .ops, .cdc, .tier, .wt, .ftl, .sch, .sec]) = true) (hs : Touches μ s₀ s) :
    Touches μ s₀ (pfxLookup ring e s) := by
  unfold pfxLookup
  repeat' (first
    | with_reducible assumption | with_reducible intro _ | ((with_reducible refine hasParts_trans hμ ?_); rfl)
    | with_reducible apply endNow_touches | with_reducible apply beginOp_touches
    | with_reducible apply countWait_touches | with_reducible apply beginLookup_touches
    | with_reducible apply modOp_touches | with_reducible apply Touches.of_snd (by with_reducible assumption) | split
    | dsimp only)

theorem execPfxLookup_touches {t : State} (ring : Nat) (hμ : hasParts μ (partSet [.link, .coh, .hbm, .rng, .io, .seqs,
    .pfx, .casc, .ops, .cdc, .tier, .wt, .ftl, .sch, .sec]) = true) (he : execPfxLookup ring s = .next t) (hs :
    Touches μ s₀ s) :
    Touches μ s₀ t := by
  unfold execPfxLookup at he
  cases he
  repeat' (first
    | with_reducible assumption | with_reducible intro _ | ((with_reducible refine hasParts_trans hμ ?_); rfl)
    | with_reducible apply Touches.ite | with_reducible apply startOp_touches
    | with_reducible apply pfxLookup_touches | split | dsimp only)

theorem execHelloInterval_touches {t : State} (hμ : hasParts μ (partSet [.link, .coh, .hbm, .rng, .io, .seqs, .pfx,
    .casc, .ops, .cdc, .tier, .wt, .ftl, .sch, .sec]) = true) (he : execHelloInterval s = .next t) (hs : Touches μ s₀
    s) :
    Touches μ s₀ t := by
  unfold execHelloInterval at he
  cases he
  repeat' (first
    | with_reducible assumption | with_reducible intro _ | ((with_reducible refine hasParts_trans hμ ?_); rfl)
    | with_reducible apply Touches.ite | with_reducible apply Touches.forEach
    | with_reducible apply sendPageRd_touches | with_reducible apply restartLookup_touches | split | dsimp only)

theorem afterView_touches (old : Nat × Nat) (hμ : hasParts μ (partSet [.link, .coh, .hbm, .rng, .io, .seqs, .pfx,
    .casc, .ops, .cdc, .tier, .wt, .ftl, .sch, .sec]) = true) (hs : Touches μ s₀ s) :
    Touches μ s₀ (afterView old s) := by
  unfold afterView
  repeat' (first
    | with_reducible assumption | ((with_reducible refine hasParts_trans hμ ?_); rfl)
    | with_reducible apply Touches.ite | with_reducible apply restartLookup_touches | split)

theorem execHello_touches {t : State} (h : Hdr) (pos view mask epoch : Nat) (digest : List Byte) (hμ : hasParts μ
    (partSet [.pins, .link, .coh, .hbm, .rng, .io, .seqs, .pfx, .casc, .ops, .cdc, .tier, .wt, .ftl, .sch, .sec]) =
    true) (he : execHello h pos view mask epoch digest s = .next t) (hs : Touches μ s₀ s) :
    Touches μ s₀ t := by
  unfold execHello at he
  cases he
  repeat' (first
    | with_reducible assumption | with_reducible intro _ | ((with_reducible refine hasParts_trans hμ ?_); rfl)
    | with_reducible apply Touches.ite | with_reducible apply Touches.modCasc | with_reducible apply takePeer_touches
    | with_reducible apply reply_touches | with_reducible apply refreshView_touches
    | with_reducible apply setView_touches | with_reducible apply afterView_touches | split | dsimp only)

theorem execPositionDead_touches {t : State} (pos : Nat) (hμ : hasParts μ (partSet [.pins, .link, .coh, .hbm, .rng,
    .io, .seqs, .pfx, .casc, .ops, .cdc, .tier, .wt, .ftl, .sch, .sec]) = true) (he : execPositionDead pos s = .next
    t) (hs : Touches μ s₀ s) :
    Touches μ s₀ t := by
  unfold execPositionDead at he
  cases he
  repeat' (first
    | with_reducible assumption | with_reducible intro _ | ((with_reducible refine hasParts_trans hμ ?_); rfl)
    | with_reducible apply Touches.ite | with_reducible apply Touches.modCasc
    | with_reducible apply refreshView_touches | with_reducible apply setView_touches
    | with_reducible apply afterView_touches | split | dsimp only)

theorem execSearch_touches {t : State} (h : Hdr) (view owner bankSet sid : Nat) (keys : List (List Byte)) (hμ :
    hasParts μ (partSet [.link, .pfx, .casc, .sec]) = true) (he : execSearch h view owner bankSet sid keys s = .next
    t) (hs : Touches μ s₀ s) :
    Touches μ s₀ t := by
  unfold execSearch at he
  cases he
  repeat' (first
    | with_reducible assumption | with_reducible intro _ | ((with_reducible refine hasParts_trans hμ ?_); rfl)
    | with_reducible apply Touches.ite | with_reducible apply Touches.ite_snd | with_reducible apply Touches.modCasc
    | with_reducible apply takePeer_touches | with_reducible apply nakTo_touches
    | with_reducible apply searchArray_touches | with_reducible apply answerPage_touches
    | with_reducible apply Touches.of_snd (by with_reducible assumption) | split | dsimp only)

theorem execSearchAck_touches {t : State} (h : Hdr) (sid : Nat) (prios : List Nat) (hμ : hasParts μ (partSet [.link,
    .coh, .hbm, .rng, .io, .seqs, .pfx, .casc, .ops, .cdc, .tier, .wt, .ftl, .sch, .sec]) = true) (he : execSearchAck
    h sid prios s = .next t) (hs : Touches μ s₀ s) :
    Touches μ s₀ t := by
  unfold execSearchAck at he
  cases he
  repeat' (first
    | with_reducible assumption | with_reducible intro _ | ((with_reducible refine hasParts_trans hμ ?_); rfl)
    | with_reducible apply Touches.ite | with_reducible apply takePeer_touches
    | with_reducible apply resolveLookup_touches | with_reducible apply putLookup_touches | split | dsimp only)

theorem answerResult_touches (h : Hdr) (m : MSearch) (won : List Nat) (hμ : hasParts μ (partSet [.link, .coh, .hbm,
    .seqs, .pfx, .casc, .sec]) = true) (hs : Touches μ s₀ s) :
    Touches μ s₀ (answerResult h m won s) := by
  unfold answerResult
  repeat' (first
    | with_reducible assumption | with_reducible intro _ | ((with_reducible refine hasParts_trans hμ ?_); rfl)
    | with_reducible apply Touches.modCasc | with_reducible apply Touches.foldl
    | with_reducible apply Touches.foldl_snd | with_reducible apply Touches.foldl_snd3
    | with_reducible apply checkHit_touches | with_reducible apply exportBlock_touches
    | with_reducible apply answerPage_touches | with_reducible exact optTouched2_none
    | with_reducible apply optTouched2_some | with_reducible apply optTouched2_foldl
    | with_reducible apply Touches.of_snd (by with_reducible assumption)
    | with_reducible apply Touches.of_optTouched2 (by with_reducible assumption)
    | with_reducible apply Touches.of_optTouched2_fst (by with_reducible assumption) | split | dsimp only)

theorem execClaim_touches {t : State} (h : Hdr) (view sid won : Nat) (hμ : hasParts μ (partSet [.link, .coh, .hbm,
    .seqs, .pfx, .casc, .sec]) = true) (he : execClaim h view sid won s = .next t) (hs : Touches μ s₀ s) :
    Touches μ s₀ t := by
  unfold execClaim at he
  cases he
  repeat' (first
    | with_reducible assumption | with_reducible intro _ | ((with_reducible refine hasParts_trans hμ ?_); rfl)
    | with_reducible apply Touches.ite | with_reducible apply takePeer_touches | with_reducible apply nakTo_touches
    | with_reducible apply answerResult_touches | with_reducible apply answerPage_touches | split)

theorem execResult_touches {t : State} (h : Hdr) (sid : Nat) (entries : List ResEntry) (hμ : hasParts μ (partSet
    [.link, .coh, .hbm, .rng, .io, .seqs, .pfx, .casc, .ops, .cdc, .tier, .wt, .ftl, .sch, .sec]) = true) (he :
    execResult h sid entries s = .next t) (hs : Touches μ s₀ s) :
    Touches μ s₀ t := by
  unfold execResult at he
  cases he
  repeat' (first
    | with_reducible assumption | with_reducible intro _ | ((with_reducible refine hasParts_trans hμ ?_); rfl)
    | with_reducible apply Touches.ite | with_reducible apply takePeer_touches
    | with_reducible apply releaseAll_touches | with_reducible apply finishLookup_touches
    | with_reducible apply putLookup_touches | split | dsimp only)

theorem memberBeat_touches (st : Stirrup) (v : Nat) (hμ : hasParts μ (partSet [.link, .coh, .hbm, .seqs, .pfx, .casc,
    .sec]) = true) (hs : Touches μ s₀ s) :
    Touches μ s₀ (memberBeat st v s) := by
  unfold memberBeat
  repeat' (first
    | with_reducible assumption | with_reducible intro _ | ((with_reducible refine hasParts_trans hμ ?_); rfl)
    | with_reducible apply Touches.ite | with_reducible apply Touches.modCasc
    | with_reducible apply driveBeats_touches | with_reducible apply answerResult_touches | split | dsimp only)

theorem masterBeat_touches (l : MLookup) (st : Stirrup) (v : Nat) (hμ : hasParts μ (partSet [.link, .coh, .hbm, .rng,
    .io, .seqs, .pfx, .casc, .ops, .cdc, .tier, .wt, .ftl, .sch, .sec]) = true) (hs : Touches μ s₀ s) :
    Touches μ s₀ (masterBeat l st v s) := by
  unfold masterBeat
  repeat' (first
    | with_reducible assumption | with_reducible intro _ | ((with_reducible refine hasParts_trans hμ ?_); rfl)
    | with_reducible apply Touches.ite | with_reducible apply Touches.modCasc
    | with_reducible apply putLookup_touches | with_reducible apply driveBeats_touches
    | with_reducible apply finishLookup_touches | split | dsimp only)

theorem execStirrupBeat_touches {t : State} (value : Nat) (hμ : hasParts μ (partSet [.link, .coh, .hbm, .rng, .io,
    .seqs, .pfx, .casc, .ops, .cdc, .tier, .wt, .ftl, .sch, .sec]) = true) (he : execStirrupBeat value s = .next t)
    (hs : Touches μ s₀ s) :
    Touches μ s₀ t := by
  unfold execStirrupBeat at he
  cases he
  repeat' (first
    | with_reducible assumption | with_reducible intro _ | ((with_reducible refine hasParts_trans hμ ?_); rfl)
    | with_reducible apply unlessStopped_touches | with_reducible apply masterBeat_touches
    | with_reducible apply memberBeat_touches | split)

theorem cascNak_touches (h : Hdr) (hμ : hasParts μ (partSet [.casc]) = true) (hs : Touches μ s₀ s) :
    Touches μ s₀ (cascNak h s) := by
  unfold cascNak
  repeat' (first
    | with_reducible assumption | ((with_reducible refine hasParts_trans hμ ?_); rfl)
    | with_reducible apply Touches.ite | with_reducible apply putLookup_touches | split)

theorem addPeer_touches (who : PeerFor) (r : Nat) (b : List Byte) (hμ : hasParts μ (partSet [.casc]) = true) (hs :
    Touches μ s₀ s) :
    Touches μ s₀ (addPeer who r b s) := by
  unfold addPeer
  repeat' (first
    | with_reducible assumption | with_reducible intro _ | ((with_reducible refine hasParts_trans hμ ?_); rfl)
    | with_reducible apply Touches.modCasc)

theorem dropImages_touches (who : PeerFor) (hμ : hasParts μ (partSet [.casc]) = true) (hs : Touches μ s₀ s) :
    Touches μ s₀ (dropImages who s) := by
  unfold dropImages
  repeat' (first
    | with_reducible assumption | with_reducible intro _ | ((with_reducible refine hasParts_trans hμ ?_); rfl)
    | with_reducible apply Touches.modCasc)

theorem sendPeerRead_touches (tag : Nat) (hμ : hasParts μ (partSet [.link, .sec]) = true) (hs : Touches μ s₀ s) :
    Touches μ s₀ (sendPeerRead tag s) := by
  unfold sendPeerRead
  repeat' (first
    | with_reducible assumption | ((with_reducible refine hasParts_trans hμ ?_); rfl)
    | with_reducible apply Touches.ite | with_reducible apply send_touches | with_reducible apply sendVia_touches
    | split | dsimp only)

theorem dropImage1_touches (id r : Nat) (hμ : hasParts μ (partSet [.casc]) = true) (hs : Touches μ s₀ s) :
    Touches μ s₀ (dropImage1 id r s) := by
  unfold dropImage1
  repeat' (first
    | with_reducible assumption | with_reducible intro _ | ((with_reducible refine hasParts_trans hμ ?_); rfl)
    | with_reducible apply Touches.modCasc)

theorem wantPeer_touches (who : PeerFor) (r : Nat) (hμ : hasParts μ (partSet [.link, .io, .casc, .sec]) = true) (hs :
    Touches μ s₀ s) :
    Touches μ s₀ (wantPeer who r s) := by
  unfold wantPeer
  repeat' (first
    | with_reducible assumption | with_reducible intro _ | ((with_reducible refine hasParts_trans hμ ?_); rfl)
    | with_reducible apply Touches.ite | with_reducible apply Touches.ite_snd | with_reducible apply Touches.modCasc
    | with_reducible apply takeTag_touches | with_reducible apply sendPeerRead_touches
    | with_reducible apply Touches.of_snd (by with_reducible assumption) | split | dsimp only)

theorem answerRead_touches (h : Hdr) (bytes : Option (List Byte)) (hμ : hasParts μ (partSet [.link, .casc, .sec]) =
    true) (hs : Touches μ s₀ s) :
    Touches μ s₀ (answerRead h bytes s) := by
  unfold answerRead
  repeat' (first
    | with_reducible assumption | with_reducible intro _ | ((with_reducible refine hasParts_trans hμ ?_); rfl)
    | with_reducible apply Touches.modCasc | with_reducible apply answerPage_touches | split)

theorem servePeer_touches (h : Hdr) (handle layer offset len : Nat) (hμ : hasParts μ (partSet [.link, .io, .casc,
    .tier, .sec]) = true) (hs : Touches μ s₀ s) :
    Touches μ s₀ (servePeer h handle layer offset len s) := by
  unfold servePeer
  repeat' (first
    | with_reducible assumption | with_reducible intro _ | ((with_reducible refine hasParts_trans hμ ?_); rfl)
    | with_reducible apply Touches.ite | with_reducible apply Touches.modCasc
    | with_reducible apply answerRead_touches | with_reducible apply wantPeer_touches
    | with_reducible apply access_touches | with_reducible apply dropImages_touches | split | dsimp only)

theorem freshRun_touches (h : Hdr) (handle layer offset : Nat) (hμ : hasParts μ (partSet [.casc]) = true) (hs :
    Touches μ s₀ s) :
    Touches μ s₀ (freshRun h handle layer offset s) := by
  unfold freshRun
  repeat' (first
    | with_reducible assumption | ((with_reducible refine hasParts_trans hμ ?_); rfl)
    | with_reducible apply Touches.ite | with_reducible apply dropImages_touches | split)

theorem execRead_touches {t : State} (h : Hdr) (handle layer offset len : Nat) (hμ : hasParts μ (partSet [.link, .io,
    .casc, .tier, .sec]) = true) (he : execRead h handle layer offset len s = .next t) (hs : Touches μ s₀ s) :
    Touches μ s₀ t := by
  unfold execRead at he
  cases he
  repeat' (first
    | with_reducible assumption | with_reducible intro _ | ((with_reducible refine hasParts_trans hμ ?_); rfl)
    | with_reducible apply takePeer_touches | with_reducible apply servePeer_touches
    | with_reducible apply freshRun_touches)

theorem serveChained_touches (hμ : hasParts μ (partSet [.link, .io, .casc, .tier, .sec]) = true) (hs : Touches μ s₀ s)
    :
    Touches μ s₀ (serveChained s) := by
  unfold serveChained
  repeat' (first
    | with_reducible assumption | with_reducible intro _ | ((with_reducible refine hasParts_trans hμ ?_); rfl)
    | with_reducible apply Touches.modCasc | with_reducible apply Touches.forEach
    | with_reducible apply servePeer_touches)

theorem peerGone_touches (r : Nat) (hμ : hasParts μ (partSet [.link, .hbm, .io, .seqs, .pfx, .casc, .cdc, .tier, .wt,
    .ftl, .sec]) = true) (hs : Touches μ s₀ s) :
    Touches μ s₀ (peerGone r s) := by
  unfold peerGone
  repeat' (first
    | with_reducible assumption | ((with_reducible refine hasParts_trans hμ ?_); rfl)
    | with_reducible apply dropPageAt_touches | with_reducible apply markReleased_touches)

theorem execPageData_touches {t : State} (h : Hdr) (status : Nat) (bytes : List Byte) (hμ : hasParts μ (partSet
    [.link, .hbm, .io, .seqs, .pfx, .casc, .cdc, .tier, .wt, .ftl, .sec]) = true) (he : execPageData h status bytes s
    = .next t) (hs : Touches μ s₀ s) :
    Touches μ s₀ t := by
  unfold execPageData at he
  cases he
  repeat' (first
    | with_reducible assumption | with_reducible intro _ | ((with_reducible refine hasParts_trans hμ ?_); rfl)
    | with_reducible apply Touches.ite | with_reducible apply Touches.modCasc | with_reducible apply takePeer_touches
    | with_reducible apply addPeer_touches | with_reducible apply serveChained_touches
    | with_reducible apply wantPeer_touches | with_reducible apply peerGone_touches | split | dsimp only)

theorem execRelease_touches {t : State} (h : Hdr) (entries : List RelEntry) (hμ : hasParts μ (partSet [.link, .hbm,
    .io, .seqs, .casc, .cdc, .tier, .wt, .ftl, .sec]) = true) (he : execRelease h entries s = .next t) (hs : Touches μ
    s₀ s) :
    Touches μ s₀ t := by
  unfold execRelease at he
  cases he
  repeat' (first
    | with_reducible assumption | with_reducible intro _ | ((with_reducible refine hasParts_trans hμ ?_); rfl)
    | with_reducible apply Touches.forEach | with_reducible apply takePeer_touches
    | with_reducible apply releaseExport_touches | with_reducible apply reply_touches | split)

theorem execPeerReadTimeout_touches {t : State} (tag : Nat) (hμ : hasParts μ (partSet [.link, .casc, .sec]) = true)
    (he : execPeerReadTimeout tag s = .next t) (hs : Touches μ s₀ s) :
    Touches μ s₀ t := by
  unfold execPeerReadTimeout at he
  cases he
  repeat' (first
    | with_reducible assumption | with_reducible intro _ | ((with_reducible refine hasParts_trans hμ ?_); rfl)
    | with_reducible apply Touches.ite | with_reducible apply Touches.modCasc
    | with_reducible apply sendPeerRead_touches | split)

end Sys2Proof.Machine
end

