-- ==== Sys2Proof/Laws/PublishTouches.lean ====
section
/-! SUPPORT. Which parts of State the operations of Machine/Publish.lean may touch: one lemma per operation. -/

namespace Sys2Proof.Machine

open Sys2Proof

variable {μ : Nat} {s₀ s : State}

/-- The state a `Pub` carries was touched in the parts `μ` only. -/
def pubTouched (μ : Nat) (s₀ : State) : Pub → Prop
  | .ended _ s => Touches μ s₀ s
  | .wait _ s => Touches μ s₀ s

theorem pubTouched_ended (x : Ans) (hs : Touches μ s₀ s) : pubTouched μ s₀ (.ended x s) := hs

theorem Touches.ofPub_ended {r : Pub} {x : Ans} {t : State} (e : r = .ended x t) (h : pubTouched μ s₀ r) : Touches μ s₀ t := by
  rw [e] at h
  exact h

theorem pubTouched_wait (x : PubSt) (hs : Touches μ s₀ s) : pubTouched μ s₀ (.wait x s) := hs

theorem Touches.ofPub_wait {r : Pub} {x : PubSt} {t : State} (e : r = .wait x t) (h : pubTouched μ s₀ r) : Touches μ s₀ t := by
  rw [e] at h
  exact h


theorem copyPage_touches (h layer pos bid : Nat) (ps : List Page) (hμ : hasParts μ (partSet [.coh, .hbm, .seqs, .cdc,
    .wt, .ftl]) = true) (hs : Touches μ s₀ s) :
    optTouched2 μ s₀ (copyPage h layer pos bid ps s) := by
  unfold copyPage
  repeat' (first
    | with_reducible assumption | with_reducible intro _ | ((with_reducible refine hasParts_trans hμ ?_); rfl)
    | with_reducible apply Touches.ite | with_reducible apply Touches.ite_snd | with_reducible apply Touches.modSeqs
    | with_reducible apply Touches.modCdc | with_reducible apply takeRun_touches
    | with_reducible apply newRec_touches | with_reducible apply sealPage_touches
    | with_reducible apply startBacking_touches | with_reducible exact optTouched2_none
    | with_reducible apply optTouched2_some | with_reducible apply optTouched2_map
    | with_reducible apply Touches.of_snd (by with_reducible assumption)
    | with_reducible apply Touches.of_optTouched2 (by with_reducible assumption)
    | with_reducible apply Touches.of_optTouched2_fst (by with_reducible assumption) | split | dsimp only)

theorem blockPages_touches (h pos bid : Nat) (hμ : hasParts μ (partSet [.free, .coh, .hbm, .seqs, .ops, .cdc, .tier,
    .wt, .ftl]) = true) : ∀ (y0 : List (List PEnt)) (y1 : Nat) {s : State} , Touches μ s₀ s → optTouched4 μ s₀
    (blockPages h pos bid y0 y1 s) := by
  intro y0
  induction y0 with
  | nil =>
    intro y1 s _
    unfold blockPages
    repeat' (first
      | with_reducible assumption | with_reducible intro _ | ((with_reducible refine hasParts_trans hμ ?_); rfl)
      | with_reducible apply Touches.ite | with_reducible apply Touches.ite_snd | with_reducible apply fresh_touches
      | with_reducible apply makeShared_touches | with_reducible apply modRec_touches
      | with_reducible apply copyPage_touches | with_reducible exact optTouched2_none
      | with_reducible apply optTouched2_some | with_reducible apply Touches.getD_snd
      | with_reducible apply optTouched2_map | with_reducible exact optTouched4_none
      | with_reducible apply optTouched4_some | with_reducible apply optTouched4_map
      | with_reducible apply Touches.of_snd (by with_reducible assumption)
      | with_reducible apply Touches.of_optTouched2 (by with_reducible assumption)
      | with_reducible apply Touches.of_optTouched2_fst (by with_reducible assumption)
      | with_reducible apply Touches.of_optTouched4 (by with_reducible assumption)
      | with_reducible apply Touches.of_optTouched4_fst (by with_reducible assumption) | split | dsimp only)
  | cons c rest ih =>
    intro y1 s _
    unfold blockPages
    repeat' (first
      | with_reducible assumption | with_reducible intro _ | ((with_reducible refine hasParts_trans hμ ?_); rfl)
      | with_reducible apply Touches.ite | with_reducible apply Touches.ite_snd | with_reducible apply fresh_touches
      | with_reducible apply makeShared_touches | with_reducible apply modRec_touches
      | with_reducible apply copyPage_touches | with_reducible apply ih | with_reducible exact optTouched2_none
      | with_reducible apply optTouched2_some | with_reducible apply Touches.getD_snd
      | with_reducible apply optTouched2_map | with_reducible exact optTouched4_none
      | with_reducible apply optTouched4_some | with_reducible apply optTouched4_map
      | with_reducible apply Touches.of_snd (by with_reducible assumption)
      | with_reducible apply Touches.of_optTouched2 (by with_reducible assumption)
      | with_reducible apply Touches.of_optTouched2_fst (by with_reducible assumption)
      | with_reducible apply Touches.of_optTouched4 (by with_reducible assumption)
      | with_reducible apply Touches.of_optTouched4_fst (by with_reducible assumption) | split | dsimp only)

theorem findKey_touches (ctx set owner : Nat) (key : List Byte) (hμ : hasParts μ (partSet [.pfx, .sch]) = true) (hs :
    Touches μ s₀ s) :
    Touches μ s₀ (findKey ctx set owner key s).2 := by
  unfold findKey
  repeat' (first
    | with_reducible assumption | ((with_reducible refine hasParts_trans hμ ?_); rfl)
    | with_reducible apply Touches.ite | with_reducible apply Touches.ite_snd
    | with_reducible apply searchArray_touches | with_reducible apply checkHit_touches
    | with_reducible apply searchOvfKey_touches | with_reducible apply Touches.of_snd (by with_reducible assumption)
    | split | dsimp only)

theorem switchTo_touches (h pos : Nat) (b : Block) (srcs : List (List PEnt)) (hμ : hasParts μ (partSet [.link, .hbm,
    .io, .seqs, .casc, .cdc, .tier, .wt, .ftl, .sec]) = true) (hs : Touches μ s₀ s) :
    Touches μ s₀ (switchTo h pos b srcs s).2 := by
  unfold switchTo
  repeat' (first
    | with_reducible assumption | with_reducible intro _ | ((with_reducible refine hasParts_trans hμ ?_); rfl)
    | with_reducible apply Touches.ite | with_reducible apply Touches.ite_snd | with_reducible apply Touches.foldl
    | with_reducible apply Touches.foldl_snd | with_reducible apply Touches.foldl_snd3
    | with_reducible apply addRef_touches | with_reducible apply dropRef_touches
    | with_reducible apply freeStores_touches | with_reducible apply invalidate_touches
    | with_reducible apply modSeq_touches | split | dsimp only)

theorem letGo_touches (p : PubSt) (hμ : hasParts μ (partSet [.link, .hbm, .io, .seqs, .casc, .cdc, .tier, .wt, .ftl,
    .sec]) = true) (hs : Touches μ s₀ s) :
    Touches μ s₀ (letGo p s) := by
  unfold letGo
  repeat' (first
    | with_reducible assumption | with_reducible intro _ | ((with_reducible refine hasParts_trans hμ ?_); rfl)
    | with_reducible apply Touches.forEach | with_reducible apply dropRef_touches
    | with_reducible apply dropImages_touches)

theorem already_touches (ctx block gen : Nat) (p : PubSt) (b : Block) (srcs : List (List PEnt)) (hμ : hasParts μ
    (partSet [.free, .bbx, .link, .hbm, .io, .seqs, .pfx, .casc, .cdc, .tier, .wt, .ftl, .sch, .sec]) = true) (hs :
    Touches μ s₀ s) :
    Touches μ s₀ (already ctx block gen p b srcs s).2 := by
  unfold already
  repeat' (first
    | with_reducible assumption | with_reducible intro _ | ((with_reducible refine hasParts_trans hμ ?_); rfl)
    | with_reducible apply Touches.ite | with_reducible apply Touches.ite_snd | with_reducible apply Touches.modPfx
    | with_reducible apply Touches.when | with_reducible apply fresh_touches
    | with_reducible apply chargeCore_touches | with_reducible apply emit_touches
    | with_reducible apply letGo_touches | with_reducible apply switchTo_touches
    | with_reducible apply sweepJournals_touches | with_reducible apply Touches.of_snd (by with_reducible assumption)
    | split | dsimp only)

theorem newBlock_touches (p : PubSt) (owner action : Nat) (srcs : List (List PEnt)) (hμ : hasParts μ (partSet [.free,
    .link, .coh, .hbm, .io, .seqs, .pfx, .casc, .ops, .cdc, .tier, .wt, .ftl, .sec]) = true) (hs : Touches μ s₀ s) :
    Touches μ s₀ (newBlock p owner action srcs s).2 := by
  unfold newBlock
  repeat' (first
    | with_reducible assumption | with_reducible intro _ | ((with_reducible refine hasParts_trans hμ ?_); rfl)
    | with_reducible apply Touches.ite | with_reducible apply Touches.ite_snd | with_reducible apply Touches.modPfx
    | with_reducible apply Touches.forEach | with_reducible apply Touches.when | with_reducible apply takeSeq_touches
    | with_reducible apply blockPages_touches | with_reducible apply takeRun_touches
    | with_reducible apply charge_touches | with_reducible apply pinStops_touches
    | with_reducible apply modRec_touches | with_reducible apply placeBlock_touches
    | with_reducible apply addCat_touches | with_reducible exact optTouched_none
    | with_reducible apply optTouched_some | with_reducible apply Touches.getD | with_reducible apply optTouched_map
    | with_reducible exact optTouched2_none | with_reducible apply optTouched2_some
    | with_reducible apply Touches.getD_snd | with_reducible apply optTouched2_map
    | with_reducible exact optTouched4_none | with_reducible apply optTouched4_some
    | with_reducible apply optTouched4_map | with_reducible apply Touches.of_snd (by with_reducible assumption)
    | with_reducible apply Touches.of_optTouched (by with_reducible assumption)
    | with_reducible apply Touches.of_optTouched2 (by with_reducible assumption)
    | with_reducible apply Touches.of_optTouched2_fst (by with_reducible assumption)
    | with_reducible apply Touches.of_optTouched4 (by with_reducible assumption)
    | with_reducible apply Touches.of_optTouched4_fst (by with_reducible assumption) | split | dsimp only)

theorem enterKey_touches (id owner : Nat) (p : PubSt) (hμ : hasParts μ (partSet [.pfx]) = true) (hs : Touches μ s₀ s)
    :
    pubTouched μ s₀ (enterKey id owner p s) := by
  unfold enterKey
  repeat' (first
    | with_reducible assumption | with_reducible intro _ | ((with_reducible refine hasParts_trans hμ ?_); rfl)
    | with_reducible apply Touches.ite | with_reducible apply Touches.modPfx | with_reducible apply pubTouched_ended
    | with_reducible apply pubTouched_wait | split)

theorem checkParent_touches (id owner : Nat) (p : PubSt) (hμ : hasParts μ (partSet [.pfx]) = true) (hs : Touches μ s₀
    s) :
    pubTouched μ s₀ (checkParent id owner p s) := by
  unfold checkParent
  repeat' (first
    | with_reducible assumption | ((with_reducible refine hasParts_trans hμ ?_); rfl)
    | with_reducible apply Touches.ite | with_reducible apply enterKey_touches
    | with_reducible apply pubTouched_ended | with_reducible apply pubTouched_wait
    | with_reducible apply Touches.ofPub_ended (by with_reducible assumption)
    | with_reducible apply Touches.ofPub_wait (by with_reducible assumption) | split)

theorem startPublish_touches (id ctx : Nat) (tokens : List Byte) (p : PubSt) (hμ : hasParts μ (partSet [.pfx]) = true)
    (hs : Touches μ s₀ s) :
    pubTouched μ s₀ (startPublish id ctx tokens p s) := by
  unfold startPublish
  repeat' (first
    | with_reducible assumption | ((with_reducible refine hasParts_trans hμ ?_); rfl)
    | with_reducible apply Touches.ite | with_reducible apply enterKey_touches
    | with_reducible apply checkParent_touches | with_reducible apply pubTouched_ended
    | with_reducible apply pubTouched_wait | with_reducible apply Touches.ofPub_ended (by with_reducible assumption)
    | with_reducible apply Touches.ofPub_wait (by with_reducible assumption) | split | dsimp only)

theorem searchPublish_touches (ctx : Nat) (p : PubSt) (q : Seq) (srcs : List (List PEnt)) (hμ : hasParts μ (partSet
    [.free, .link, .coh, .hbm, .io, .seqs, .pfx, .casc, .ops, .cdc, .tier, .wt, .ftl, .sch, .sec]) = true) (hs :
    Touches μ s₀ s) :
    pubTouched μ s₀ (searchPublish ctx p q srcs s) := by
  unfold searchPublish
  repeat' (first
    | with_reducible assumption | with_reducible intro _ | ((with_reducible refine hasParts_trans hμ ?_); rfl)
    | with_reducible apply Touches.ite | with_reducible apply Touches.ite_snd | with_reducible apply Touches.modPfx
    | with_reducible apply Touches.forEach | with_reducible apply Touches.when | with_reducible apply findKey_touches
    | with_reducible apply modRec_touches | with_reducible apply newBlock_touches
    | with_reducible apply pubTouched_ended | with_reducible apply pubTouched_wait
    | with_reducible apply Touches.of_snd (by with_reducible assumption) | split | dsimp only)

theorem stepPublish_touches (ctx : Nat) (p : PubSt) (hμ : hasParts μ (partSet [.free, .bbx, .link, .coh, .hbm, .io,
    .seqs, .pfx, .casc, .ops, .cdc, .tier, .wt, .ftl, .sch, .sec]) = true) (hs : Touches μ s₀ s) :
    pubTouched μ s₀ (stepPublish ctx p s) := by
  unfold stepPublish
  repeat' (first
    | with_reducible assumption | with_reducible intro _ | ((with_reducible refine hasParts_trans hμ ?_); rfl)
    | with_reducible apply Touches.ite | with_reducible apply Touches.ite_snd | with_reducible apply Touches.forEach
    | with_reducible apply letGo_touches | with_reducible apply searchPublish_touches
    | with_reducible apply already_touches | with_reducible apply wantPeer_touches
    | with_reducible apply pubTouched_ended | with_reducible apply pubTouched_wait
    | with_reducible apply Touches.ofPub_ended (by with_reducible assumption)
    | with_reducible apply Touches.ofPub_wait (by with_reducible assumption)
    | with_reducible apply Touches.of_snd (by with_reducible assumption) | split | dsimp only)

theorem putPublish_touches (id : Nat) (r : Pub) (hr : pubTouched μ s₀ r) (hμ : hasParts μ (partSet [.link, .hbm, .rng,
    .io, .seqs, .pfx, .casc, .ops, .cdc, .tier, .wt, .ftl, .sch, .sec]) = true) :
    Touches μ s₀ (putPublish id r) := by
  unfold putPublish
  repeat' (first
    | with_reducible assumption | with_reducible intro _ | ((with_reducible refine hasParts_trans hμ ?_); rfl)
    | with_reducible apply Touches.modPfx | with_reducible apply finishOp_touches
    | with_reducible apply modOp_touches | exact hr | split)

theorem drivePublish_touches (id : Nat) (hμ : hasParts μ (partSet [.free, .bbx, .link, .coh, .hbm, .rng, .io, .seqs,
    .pfx, .casc, .ops, .cdc, .tier, .wt, .ftl, .sch, .sec]) = true) (hs : Touches μ s₀ s) :
    Touches μ s₀ (drivePublish id s) := by
  unfold drivePublish
  repeat' (first
    | with_reducible assumption | ((with_reducible refine hasParts_trans hμ ?_); rfl)
    | with_reducible apply Touches.ite | with_reducible apply putPublish_touches
    | with_reducible apply stepPublish_touches
    | with_reducible apply Touches.ofPub_ended (by with_reducible assumption)
    | with_reducible apply Touches.ofPub_wait (by with_reducible assumption) | split)

theorem pfxPublish_touches (ring : Nat) (e : Entry) (hμ : hasParts μ (partSet [.link, .coh, .hbm, .rng, .io, .seqs,
    .pfx, .casc, .ops, .cdc, .tier, .wt, .ftl, .sch, .sec]) = true) (hs : Touches μ s₀ s) :
    Touches μ s₀ (pfxPublish ring e s) := by
  unfold pfxPublish
  repeat' (first
    | with_reducible assumption | with_reducible intro _ | ((with_reducible refine hasParts_trans hμ ?_); rfl)
    | with_reducible apply Touches.ite | with_reducible apply Touches.ite_snd | with_reducible apply need_touches
    | with_reducible apply endNow_touches | with_reducible apply beginOp_touches
    | with_reducible apply countWait_touches | with_reducible apply putPublish_touches
    | with_reducible apply startPublish_touches
    | with_reducible apply Touches.ofNeed_got (by with_reducible assumption)
    | with_reducible apply Touches.ofNeed_wait (by with_reducible assumption)
    | with_reducible apply Touches.ofNeed_fail (by with_reducible assumption)
    | with_reducible apply Touches.ofPub_ended (by with_reducible assumption)
    | with_reducible apply Touches.ofPub_wait (by with_reducible assumption)
    | with_reducible apply Touches.of_snd (by with_reducible assumption) | split | dsimp only)

theorem execPfxPublish_touches {t : State} (ring : Nat) (hμ : hasParts μ (partSet [.link, .coh, .hbm, .rng, .io,
    .seqs, .pfx, .casc, .ops, .cdc, .tier, .wt, .ftl, .sch, .sec]) = true) (he : execPfxPublish ring s = .next t) (hs
    : Touches μ s₀ s) :
    Touches μ s₀ t := by
  unfold execPfxPublish at he
  cases he
  repeat' (first
    | with_reducible assumption | with_reducible intro _ | ((with_reducible refine hasParts_trans hμ ?_); rfl)
    | with_reducible apply startOp_touches | with_reducible apply pfxPublish_touches)

theorem resumePublish_touches (id : Nat) (o : Op) (p : PubSt) (hμ : hasParts μ (partSet [.pfx]) = true) (hs : Touches
    μ s₀ s) :
    pubTouched μ s₀ (resumePublish id o p s) := by
  unfold resumePublish
  repeat' (first
    | with_reducible assumption | ((with_reducible refine hasParts_trans hμ ?_); rfl)
    | with_reducible apply Touches.ite | with_reducible apply checkParent_touches
    | with_reducible apply enterKey_touches | with_reducible apply pubTouched_ended
    | with_reducible apply pubTouched_wait | with_reducible apply Touches.ofPub_ended (by with_reducible assumption)
    | with_reducible apply Touches.ofPub_wait (by with_reducible assumption) | split)

theorem execPublishWaitEnd_touches {t : State} (op : Nat) (hμ : hasParts μ (partSet [.link, .hbm, .rng, .io, .seqs,
    .pfx, .casc, .ops, .cdc, .tier, .wt, .ftl, .sch, .sec]) = true) (he : execPublishWaitEnd op s = .next t) (hs :
    Touches μ s₀ s) :
    Touches μ s₀ t := by
  unfold execPublishWaitEnd at he
  cases he
  repeat' (first
    | with_reducible assumption | ((with_reducible refine hasParts_trans hμ ?_); rfl)
    | with_reducible apply Touches.ite | with_reducible apply putPublish_touches
    | with_reducible apply resumePublish_touches
    | with_reducible apply Touches.ofPub_ended (by with_reducible assumption)
    | with_reducible apply Touches.ofPub_wait (by with_reducible assumption) | split)

end Sys2Proof.Machine
end

