-- ==== Sys2Proof/Laws/AttnTouches.lean ====
section
/-! SUPPORT. Which parts of State the operations of Machine/Attn.lean may touch: one lemma per operation. -/

namespace Sys2Proof.Machine

open Sys2Proof

variable {μ : Nat} {s₀ s : State}

theorem beginAttnReads_touches (id key : Nat) (m : Model) (a : AttnSt) (hμ : hasParts μ (partSet [.link, .rng, .io,
    .ops, .sec]) = true) (hs : Touches μ s₀ s) :
    Touches μ s₀ (beginAttnReads id key m a s) := by
  unfold beginAttnReads
  repeat' (first
    | with_reducible assumption | with_reducible intro _ | ((with_reducible refine hasParts_trans hμ ?_); rfl)
    | with_reducible apply Touches.forEach | with_reducible apply beginRead_touches)

theorem modAttnSt_touches (id : Nat) (f : AttnSt → AttnSt) (hμ : hasParts μ (partSet [.ops]) = true) (hs : Touches μ
    s₀ s) :
    Touches μ s₀ (modAttnSt id f s) := by
  unfold modAttnSt
  repeat' (first
    | with_reducible assumption | with_reducible intro _ | ((with_reducible refine hasParts_trans hμ ?_); rfl)
    | with_reducible apply modOp_touches | split)

theorem cutUnits_touches (id ctx part idle : Nat) (m : Model) (a : AttnSt) (hμ : hasParts μ (partSet [.ops, .attn]) =
    true) (hs : Touches μ s₀ s) :
    Touches μ s₀ (cutUnits id ctx part idle m a s) := by
  unfold cutUnits
  repeat' (first
    | with_reducible assumption | with_reducible intro _ | ((with_reducible refine hasParts_trans hμ ?_); rfl)
    | with_reducible apply Touches.ite | with_reducible apply Touches.modAttn | with_reducible apply Touches.foldl
    | with_reducible apply Touches.foldl_snd | with_reducible apply Touches.foldl_snd3
    | with_reducible apply modAttnSt_touches | split | dsimp only)

theorem seqLook_touches (cluster h : Nat) (hμ : hasParts μ (partSet [.seqs]) = true) (hs : Touches μ s₀ s) :
    Touches μ s₀ (seqLook cluster h s) := by
  unfold seqLook
  repeat' (first
    | with_reducible assumption | with_reducible intro _ | ((with_reducible refine hasParts_trans hμ ?_); rfl)
    | with_reducible apply Touches.modSeqs)

theorem plbLook_touches (cluster : Nat) (e : PlbEnt) (hμ : hasParts μ (partSet [.seqs]) = true) (hs : Touches μ s₀ s)
    :
    Touches μ s₀ (plbLook cluster e s) := by
  unfold plbLook
  repeat' (first
    | with_reducible assumption | with_reducible intro _ | ((with_reducible refine hasParts_trans hμ ?_); rfl)
    | with_reducible apply Touches.ite | with_reducible apply Touches.modSeqs | split | dsimp only)

theorem walks_touches (cluster h layer lo hi : Nat) (wanted : PageAt → Bool) (hμ : hasParts μ (partSet [.seqs]) =
    true) (hs : Touches μ s₀ s) :
    Touches μ s₀ (walks cluster h layer lo hi wanted s) := by
  unfold walks
  repeat' (first
    | with_reducible assumption | with_reducible intro _ | ((with_reducible refine hasParts_trans hμ ?_); rfl)
    | with_reducible apply Touches.forEach | with_reducible apply plbLook_touches
    | with_reducible apply seqLook_touches)

theorem useTable_touches (addr : Nat) (hμ : hasParts μ (partSet [.cdc]) = true) (hs : Touches μ s₀ s) :
    Touches μ s₀ (useTable addr s) := by
  unfold useTable
  repeat' (first
    | with_reducible assumption | with_reducible intro _ | ((with_reducible refine hasParts_trans hμ ?_); rfl)
    | with_reducible apply Touches.ite | with_reducible apply Touches.modCdc | split | dsimp only)

theorem expandRows_touches (p : Page) (h a k : Nat) (hμ : hasParts μ (partSet [.cdc]) = true) (hs : Touches μ s₀ s) :
    Touches μ s₀ (expandRows p h a k s) := by
  unfold expandRows
  repeat' (first
    | with_reducible assumption | with_reducible intro _ | ((with_reducible refine hasParts_trans hμ ?_); rfl)
    | with_reducible apply Touches.forEach | with_reducible apply useTable_touches | split)

theorem failEntry_touches (id i : Nat) (dropped poisoned : Bool) (hμ : hasParts μ (partSet [.ops]) = true) (hs :
    Touches μ s₀ s) :
    Touches μ s₀ (failEntry id i dropped poisoned s) := by
  unfold failEntry
  repeat' (first
    | with_reducible assumption | with_reducible intro _ | ((with_reducible refine hasParts_trans hμ ?_); rfl)
    | with_reducible apply Touches.ite | with_reducible apply modAttnSt_touches | split)

theorem fixSelects_touches (m : Model) (u : WUnit) (hμ : hasParts μ (partSet [.ops, .attn]) = true) (hs : Touches μ s₀
    s) :
    Touches μ s₀ (fixSelects m u s) := by
  unfold fixSelects
  repeat' (first
    | with_reducible assumption | with_reducible intro _ | ((with_reducible refine hasParts_trans hμ ?_); rfl)
    | with_reducible apply Touches.ite | with_reducible apply Touches.modAttn | with_reducible apply Touches.forEach
    | with_reducible apply modAttnSt_touches | split | dsimp only)

theorem walkEntry_touches (cluster : Nat) (a : AttnSt) (u : WUnit) (i : Nat) (hμ : hasParts μ (partSet [.seqs, .ops,
    .attn]) = true) (hs : Touches μ s₀ s) :
    Touches μ s₀ (walkEntry cluster a u i s) := by
  unfold walkEntry
  repeat' (first
    | with_reducible assumption | with_reducible intro _ | ((with_reducible refine hasParts_trans hμ ?_); rfl)
    | with_reducible apply Touches.modAttn | with_reducible apply failEntry_touches
    | with_reducible apply walks_touches | split | dsimp only)

theorem askPeers_touches (id : Nat) (hμ : hasParts μ (partSet [.link, .io, .casc, .sec]) = true) (hs : Touches μ s₀ s)
    :
    Touches μ s₀ (askPeers id s) := by
  unfold askPeers
  repeat' (first
    | with_reducible assumption | with_reducible intro _ | ((with_reducible refine hasParts_trans hμ ?_); rfl)
    | with_reducible apply Touches.forEach | with_reducible apply wantPeer_touches | split)

theorem startUnit_touches (cluster : Nat) (u : WUnit) (hμ : hasParts μ (partSet [.link, .io, .seqs, .casc, .ops,
    .attn, .sec]) = true) (hs : Touches μ s₀ s) :
    Touches μ s₀ (startUnit cluster u s) := by
  unfold startUnit
  repeat' (first
    | with_reducible assumption | with_reducible intro _ | ((with_reducible refine hasParts_trans hμ ?_); rfl)
    | with_reducible apply Touches.ite | with_reducible apply Touches.forEach
    | with_reducible apply fixSelects_touches | with_reducible apply askPeers_touches
    | with_reducible apply walkEntry_touches | split | dsimp only)

theorem gradAdd_touches (id addr : Nat) (bytes : List Byte) (hμ : hasParts μ (partSet [.free, .link, .coh, .ext, .hbm,
    .rng, .io, .seqs, .casc, .ops, .cdc, .tier, .wt, .ftl, .sch, .sec]) = true) (hs : Touches μ s₀ s) :
    Touches μ s₀ (gradAdd id addr bytes s) := by
  unfold gradAdd
  repeat' (first
    | with_reducible assumption | with_reducible intro _ | ((with_reducible refine hasParts_trans hμ ?_); rfl)
    | with_reducible apply Touches.ite | with_reducible apply Touches.forEach | with_reducible apply queueReq_touches
    | with_reducible apply modAttnSt_touches | split | dsimp only)

theorem expandKeys_touches (a : AttnSt) (u : WUnit) (i h : Nat) (hμ : hasParts μ (partSet [.cdc]) = true) (hs :
    Touches μ s₀ s) :
    Touches μ s₀ (expandKeys a u i h s) := by
  unfold expandKeys
  repeat' (first
    | with_reducible assumption | with_reducible intro _ | ((with_reducible refine hasParts_trans hμ ?_); rfl)
    | with_reducible apply Touches.forEach | with_reducible apply expandRows_touches | split | dsimp only)

theorem computeHead_touches (m : Model) (o : Op) (a : AttnSt) (u : WUnit) (i h : Nat) (acc : List PageAt × State)
    (hacc : Touches μ s₀ acc.2) (hμ : hasParts μ (partSet [.free, .link, .coh, .ext, .hbm, .rng, .io, .seqs, .casc,
    .ops, .attn, .cdc, .tier, .wt, .ftl, .sch, .sec]) = true) :
    Touches μ s₀ (computeHead m o a u i h acc).2 := by
  unfold computeHead
  repeat' (first
    | with_reducible assumption | with_reducible intro _ | ((with_reducible refine hasParts_trans hμ ?_); rfl)
    | with_reducible apply Touches.ite | with_reducible apply Touches.ite_snd | with_reducible apply Touches.modAttn
    | with_reducible apply Touches.forEach | with_reducible apply failEntry_touches
    | with_reducible apply expandKeys_touches | with_reducible apply gradAdd_touches
    | with_reducible apply modAttnSt_touches | split | dsimp only)

theorem computeUnit_touches (cluster : Nat) (u : WUnit) (hμ : hasParts μ (partSet [.free, .link, .coh, .ext, .hbm,
    .rng, .io, .seqs, .casc, .ops, .attn, .cdc, .tier, .wt, .ftl, .sch, .sec]) = true) (hs : Touches μ s₀ s) :
    Touches μ s₀ (computeUnit cluster u s) := by
  unfold computeUnit
  repeat' (first
    | with_reducible assumption | with_reducible intro _ | ((with_reducible refine hasParts_trans hμ ?_); rfl)
    | with_reducible apply Touches.forEach | with_reducible apply Touches.foldl
    | with_reducible apply Touches.foldl_snd | with_reducible apply Touches.foldl_snd3
    | with_reducible apply computeHead_touches | with_reducible apply dropImages_touches
    | with_reducible apply access_touches | with_reducible apply Touches.of_snd (by with_reducible assumption)
    | split | dsimp only)

theorem failedStats_touches (n : Nat) (hμ : hasParts μ (partSet [.free]) = true) (hs : Touches μ s₀ s) :
    Touches μ s₀ (failedStats n s).2 := by
  unfold failedStats
  repeat' (first
    | with_reducible assumption | with_reducible intro _ | ((with_reducible refine hasParts_trans hμ ?_); rfl)
    | with_reducible apply Touches.foldl | with_reducible apply Touches.foldl_snd
    | with_reducible apply Touches.foldl_snd3 | with_reducible apply freshBytes_touches
    | with_reducible apply Touches.of_snd (by with_reducible assumption))

theorem attnFinish_touches (id key maxRung : Nat) (a : AttnSt) (hμ : hasParts μ (partSet [.free, .link, .io, .attn,
    .sec]) = true) (hs : Touches μ s₀ s) :
    Touches μ s₀ (attnFinish id key maxRung a s).2 := by
  unfold attnFinish
  repeat' (first
    | with_reducible assumption | with_reducible intro _ | ((with_reducible refine hasParts_trans hμ ?_); rfl)
    | with_reducible apply Touches.ite | with_reducible apply Touches.ite_snd | with_reducible apply Touches.modAttn
    | with_reducible apply Touches.forEach | with_reducible apply Touches.foldl
    | with_reducible apply Touches.foldl_snd | with_reducible apply Touches.foldl_snd3
    | with_reducible apply writeTiles_touches | with_reducible apply failedStats_touches
    | with_reducible apply Touches.of_snd (by with_reducible assumption) | split | dsimp only)

theorem dropUnits_touches (id : Nat) (hμ : hasParts μ (partSet [.attn]) = true) (hs : Touches μ s₀ s) :
    Touches μ s₀ (dropUnits id s) := by
  unfold dropUnits
  repeat' (first
    | with_reducible assumption | with_reducible intro _ | ((with_reducible refine hasParts_trans hμ ?_); rfl)
    | with_reducible apply Touches.modAttn)

end Sys2Proof.Machine
end

