-- ==== Sys2Proof/Laws/SchedTouches.lean ====
section
/-! SUPPORT. Which parts of State the operations of Machine/Sched.lean may touch: one lemma per operation. -/

namespace Sys2Proof.Machine

open Sys2Proof

variable {μ : Nat} {s₀ s : State}

theorem modUnit_touches (id : Nat) (f : WUnit → WUnit) (hμ : hasParts μ (partSet [.attn]) = true) (hs : Touches μ s₀
    s) :
    Touches μ s₀ (modUnit id f s) := by
  unfold modUnit
  repeat' (first
    | with_reducible assumption | with_reducible intro _ | ((with_reducible refine hasParts_trans hμ ?_); rfl)
    | with_reducible apply Touches.modAttn)

theorem wakeContexts_touches (before : List Nat) (hμ : hasParts μ (partSet [.sch]) = true) (hs : Touches μ s₀ s) :
    Touches μ s₀ (wakeContexts before s) := by
  unfold wakeContexts
  repeat' (first
    | with_reducible assumption | with_reducible intro _ | ((with_reducible refine hasParts_trans hμ ?_); rfl)
    | with_reducible apply Touches.forEach | with_reducible apply modCtx_touches)

theorem refineCost_touches (op codec tier rate : Nat) (hμ : hasParts μ (partSet [.sch]) = true) (hs : Touches μ s₀ s)
    :
    Touches μ s₀ (refineCost op codec tier rate s) := by
  unfold refineCost
  repeat' (first
    | with_reducible assumption | with_reducible intro _ | ((with_reducible refine hasParts_trans hμ ?_); rfl)
    | with_reducible apply Touches.ite | with_reducible apply Touches.modSch | split | dsimp only)

theorem evalAttn_touches (id : Nat) (hμ : hasParts μ (partSet [.ops]) = true) (hs : Touches μ s₀ s) :
    Touches μ s₀ (evalAttn id s) := by
  unfold evalAttn
  repeat' (first
    | with_reducible assumption | with_reducible intro _ | ((with_reducible refine hasParts_trans hμ ?_); rfl)
    | with_reducible apply Touches.ite | with_reducible apply modOp_touches | split | dsimp only)

theorem beginWork_touches (id : Nat) (hμ : hasParts μ (partSet [.ops, .sch]) = true) (hs : Touches μ s₀ s) :
    Touches μ s₀ (beginWork id s) := by
  unfold beginWork
  repeat' (first
    | with_reducible assumption | with_reducible intro _ | ((with_reducible refine hasParts_trans hμ ?_); rfl)
    | with_reducible apply Touches.ite | with_reducible apply countWait_touches | with_reducible apply modOp_touches
    | split)

end Sys2Proof.Machine
end

