-- ==== Sys2Proof/Laws/BatchTouches.lean ====
section
/-! SUPPORT. Which parts of State the operations of Machine/Batch.lean may touch: one lemma per operation. -/

namespace Sys2Proof.Machine

open Sys2Proof

variable {μ : Nat} {s₀ s : State}

theorem modStepRecs_touches (id : Nat) (f : List StepRec → List StepRec) (hμ : hasParts μ (partSet [.ops]) = true) (hs
    : Touches μ s₀ s) :
    Touches μ s₀ (modStepRecs id f s) := by
  unfold modStepRecs
  repeat' (first
    | with_reducible assumption | with_reducible intro _ | ((with_reducible refine hasParts_trans hμ ?_); rfl)
    | with_reducible apply modOp_touches | split)

theorem writeStepResults_touches (o : Op) (recs : List StepRec) (results flags : Nat) (hμ : hasParts μ (partSet
    [.link, .io, .sec]) = true) (hs : Touches μ s₀ s) :
    Touches μ s₀ (writeStepResults o recs results flags s) := by
  unfold writeStepResults
  repeat' (first
    | with_reducible assumption | ((with_reducible refine hasParts_trans hμ ?_); rfl)
    | with_reducible apply Touches.ite | with_reducible apply Touches.ite_snd
    | with_reducible apply writeTiles_touches | with_reducible apply Touches.of_snd (by with_reducible assumption)
    | split)

theorem settleStep_touches (id : Nat) (hμ : hasParts μ (partSet [.link, .hbm, .rng, .io, .seqs, .casc, .ops, .cdc,
    .tier, .wt, .ftl, .sch, .sec]) = true) (hs : Touches μ s₀ s) :
    Touches μ s₀ (settleStep id s) := by
  unfold settleStep
  repeat' (first
    | with_reducible assumption | with_reducible intro _ | ((with_reducible refine hasParts_trans hμ ?_); rfl)
    | with_reducible apply Touches.ite | with_reducible apply modStepRecs_touches
    | with_reducible apply finishOp_touches | with_reducible apply writeStepResults_touches | split | dsimp only)

theorem endAttn_touches (id : Nat) (ans : AttnAns) (hμ : hasParts μ (partSet [.link, .hbm, .rng, .io, .seqs, .casc,
    .ops, .attn, .cdc, .tier, .wt, .ftl, .sch, .sec]) = true) (hs : Touches μ s₀ s) :
    Touches μ s₀ (endAttn id ans s) := by
  unfold endAttn
  repeat' (first
    | with_reducible assumption | with_reducible intro _ | ((with_reducible refine hasParts_trans hμ ?_); rfl)
    | with_reducible apply dropUnits_touches | with_reducible apply modOp_touches
    | with_reducible apply finishOp_touches | with_reducible apply settleStep_touches | split | dsimp only)

theorem failAttn_touches (id status : Nat) (a : AttnSt) (hμ : hasParts μ (partSet [.link, .hbm, .rng, .io, .seqs,
    .casc, .ops, .attn, .cdc, .tier, .wt, .ftl, .sch, .sec]) = true) (hs : Touches μ s₀ s) :
    Touches μ s₀ (failAttn id status a s) := by
  unfold failAttn
  repeat' (first
    | with_reducible assumption | with_reducible intro _ | ((with_reducible refine hasParts_trans hμ ?_); rfl)
    | with_reducible apply Touches.modAttn | with_reducible apply endAttn_touches)

theorem settleAbstain_touches (id : Nat) (hμ : hasParts μ (partSet [.link, .hbm, .rng, .io, .seqs, .casc, .ops, .attn,
    .cdc, .tier, .wt, .ftl, .sch, .sec]) = true) (hs : Touches μ s₀ s) :
    Touches μ s₀ (settleAbstain id s) := by
  unfold settleAbstain
  repeat' (first
    | with_reducible assumption | with_reducible intro _ | ((with_reducible refine hasParts_trans hμ ?_); rfl)
    | with_reducible apply Touches.ite | with_reducible apply failAttn_touches | with_reducible apply modOp_touches
    | split)

theorem deadlineAttn_touches (id : Nat) (hμ : hasParts μ (partSet [.link, .hbm, .rng, .io, .seqs, .casc, .ops, .attn,
    .cdc, .tier, .wt, .ftl, .sch, .sec]) = true) (hs : Touches μ s₀ s) :
    Touches μ s₀ (deadlineAttn id s) := by
  unfold deadlineAttn
  repeat' (first
    | with_reducible assumption | ((with_reducible refine hasParts_trans hμ ?_); rfl)
    | with_reducible apply settleAbstain_touches | with_reducible apply evalAttn_touches)

theorem finishAttnOp_touches (id : Nat) (hμ : hasParts μ (partSet [.free, .link, .hbm, .rng, .io, .seqs, .casc, .ops,
    .attn, .cdc, .tier, .wt, .ftl, .sch, .sec]) = true) (hs : Touches μ s₀ s) :
    Touches μ s₀ (finishAttnOp id s) := by
  unfold finishAttnOp
  repeat' (first
    | with_reducible assumption | with_reducible intro _ | ((with_reducible refine hasParts_trans hμ ?_); rfl)
    | with_reducible apply Touches.ite | with_reducible apply Touches.ite_snd | with_reducible apply Touches.forEach
    | with_reducible apply refineCost_touches | with_reducible apply attnFinish_touches
    | with_reducible apply endAttn_touches | with_reducible apply Touches.of_snd (by with_reducible assumption)
    | split | dsimp only)

theorem dispatchAttn_touches (id : Nat) (hμ : hasParts μ (partSet [.link, .hbm, .rng, .io, .seqs, .casc, .ops, .attn,
    .cdc, .tier, .wt, .ftl, .sch, .sec]) = true) (hs : Touches μ s₀ s) :
    Touches μ s₀ (dispatchAttn id s) := by
  unfold dispatchAttn
  repeat' (first
    | with_reducible assumption | with_reducible intro _ | ((with_reducible refine hasParts_trans hμ ?_); rfl)
    | with_reducible apply Touches.ite | with_reducible apply cutUnits_touches
    | with_reducible apply evalAttn_touches | with_reducible apply modOp_touches
    | with_reducible apply settleAbstain_touches | with_reducible apply beginAttnReads_touches | split | dsimp only)

theorem attnOp_touches (opcode ring : Nat) (e : Entry) (hμ : hasParts μ (partSet [.link, .hbm, .rng, .io, .seqs,
    .casc, .ops, .attn, .cdc, .tier, .wt, .ftl, .sch, .sec]) = true) (hs : Touches μ s₀ s) :
    Touches μ s₀ (attnOp opcode ring e s) := by
  unfold attnOp
  repeat' (first
    | with_reducible assumption | with_reducible intro _ | ((with_reducible refine hasParts_trans hμ ?_); rfl)
    | with_reducible apply Touches.ite | with_reducible apply Touches.ite_snd | with_reducible apply endNow_touches
    | with_reducible apply beginOp_touches | with_reducible apply failAttn_touches
    | with_reducible apply dispatchAttn_touches | with_reducible apply modOp_touches
    | with_reducible apply Touches.of_snd (by with_reducible assumption) | split | dsimp only)

theorem execAttnDecode_touches {t : State} (ring : Nat) (hμ : hasParts μ (partSet [.link, .hbm, .rng, .io, .seqs,
    .casc, .ops, .attn, .cdc, .tier, .wt, .ftl, .sch, .sec]) = true) (he : execAttnDecode ring s = .next t) (hs :
    Touches μ s₀ s) :
    Touches μ s₀ t := by
  unfold execAttnDecode at he
  cases he
  repeat' (first
    | with_reducible assumption | with_reducible intro _ | ((with_reducible refine hasParts_trans hμ ?_); rfl)
    | with_reducible apply startOp_touches | with_reducible apply attnOp_touches)

theorem execAttnChunk_touches {t : State} (ring : Nat) (hμ : hasParts μ (partSet [.link, .hbm, .rng, .io, .seqs,
    .casc, .ops, .attn, .cdc, .tier, .wt, .ftl, .sch, .sec]) = true) (he : execAttnChunk ring s = .next t) (hs :
    Touches μ s₀ s) :
    Touches μ s₀ t := by
  unfold execAttnChunk at he
  cases he
  repeat' (first
    | with_reducible assumption | with_reducible intro _ | ((with_reducible refine hasParts_trans hμ ?_); rfl)
    | with_reducible apply startOp_touches | with_reducible apply attnOp_touches)

theorem execAttnBwd_touches {t : State} (ring : Nat) (hμ : hasParts μ (partSet [.link, .hbm, .rng, .io, .seqs, .casc,
    .ops, .attn, .cdc, .tier, .wt, .ftl, .sch, .sec]) = true) (he : execAttnBwd ring s = .next t) (hs : Touches μ s₀
    s) :
    Touches μ s₀ t := by
  unfold execAttnBwd at he
  cases he
  repeat' (first
    | with_reducible assumption | with_reducible intro _ | ((with_reducible refine hasParts_trans hμ ?_); rfl)
    | with_reducible apply startOp_touches | with_reducible apply attnOp_touches)

theorem failReads_touches (id : Nat) (hμ : hasParts μ (partSet [.link, .hbm, .rng, .io, .seqs, .casc, .ops, .attn,
    .cdc, .tier, .wt, .ftl, .sch, .sec]) = true) (hs : Touches μ s₀ s) :
    Touches μ s₀ (failReads id s) := by
  unfold failReads
  repeat' (first
    | with_reducible assumption | ((with_reducible refine hasParts_trans hμ ?_); rfl)
    | with_reducible apply Touches.ite | with_reducible apply finishOp_touches
    | with_reducible apply dropUnits_touches | split)

theorem withAppends_touches (l : List AppendSt) (hμ : hasParts μ (partSet [.seqs]) = true) (hs : Touches μ s₀ s) :
    Touches μ s₀ (withAppends l s) := by
  unfold withAppends
  repeat' (first
    | with_reducible assumption | with_reducible intro _ | ((with_reducible refine hasParts_trans hμ ?_); rfl)
    | with_reducible apply Touches.ite | with_reducible apply Touches.forEach | with_reducible apply modSeq_touches
    | split)

theorem stepOp_touches (ring : Nat) (e : Entry) (hμ : hasParts μ (partSet [.link, .hbm, .rng, .io, .seqs, .casc, .ops,
    .attn, .cdc, .tier, .wt, .ftl, .sch, .sec]) = true) (hs : Touches μ s₀ s) :
    Touches μ s₀ (stepOp ring e s) := by
  unfold stepOp
  repeat' (first
    | with_reducible assumption | with_reducible intro _ | ((with_reducible refine hasParts_trans hμ ?_); rfl)
    | with_reducible apply Touches.ite | with_reducible apply Touches.ite_snd | with_reducible apply endNow_touches
    | with_reducible apply withAppends_touches | with_reducible apply beginOp_touches
    | with_reducible apply dispatchAttn_touches | with_reducible apply modOp_touches
    | with_reducible apply Touches.of_snd (by with_reducible assumption) | split | dsimp only)

theorem execStep_touches {t : State} (ring : Nat) (hμ : hasParts μ (partSet [.link, .hbm, .rng, .io, .seqs, .casc,
    .ops, .attn, .cdc, .tier, .wt, .ftl, .sch, .sec]) = true) (he : execStep ring s = .next t) (hs : Touches μ s₀ s) :
    Touches μ s₀ t := by
  unfold execStep at he
  cases he
  repeat' (first
    | with_reducible assumption | with_reducible intro _ | ((with_reducible refine hasParts_trans hμ ?_); rfl)
    | with_reducible apply Touches.ite | with_reducible apply startOp_touches | with_reducible apply stepOp_touches
    | split | dsimp only)

theorem startRec_touches (id i : Nat) (o : Op) (r : StepRec) (hμ : hasParts μ (partSet [.link, .rng, .io, .ops, .sch,
    .sec]) = true) (hs : Touches μ s₀ s) :
    Touches μ s₀ (startRec id i o r s) := by
  unfold startRec
  repeat' (first
    | with_reducible assumption | with_reducible intro _ | ((with_reducible refine hasParts_trans hμ ?_); rfl)
    | with_reducible apply Touches.forEach | with_reducible apply modStepRecs_touches
    | with_reducible apply beginWork_touches | with_reducible apply beginRead_touches | split | dsimp only)

theorem runChunk_touches (id i : Nat) (o : Op) (r : StepRec) (hμ : hasParts μ (partSet [.free, .link, .coh, .hbm, .io,
    .seqs, .pfx, .casc, .ops, .cdc, .tier, .wt, .ftl, .sec]) = true) (hs : Touches μ s₀ s) :
    Touches μ s₀ (runChunk id i o r s).2 := by
  unfold runChunk
  repeat' (first
    | with_reducible assumption | with_reducible intro _ | ((with_reducible refine hasParts_trans hμ ?_); rfl)
    | with_reducible apply Touches.ite | with_reducible apply Touches.ite_snd | with_reducible apply Touches.when
    | with_reducible apply modStepRecs_touches | with_reducible apply runAppend_touches
    | with_reducible apply closeAppend_touches | with_reducible apply catSealed_touches
    | with_reducible apply Touches.ofRan_upto (by with_reducible assumption)
    | with_reducible apply Touches.ofRan_wait (by with_reducible assumption)
    | with_reducible apply Touches.ofRan_ended (by with_reducible assumption)
    | with_reducible apply Touches.of_snd (by with_reducible assumption) | split | dsimp only)

theorem issueFrom_touches (id : Nat) (hμ : hasParts μ (partSet [.free, .link, .coh, .hbm, .rng, .io, .seqs, .pfx,
    .casc, .ops, .cdc, .tier, .wt, .ftl, .sch, .sec]) = true) : ∀ (y0 : List Nat) {s : State} , Touches μ s₀ s →
    Touches μ s₀ (issueFrom id y0 s) := by
  intro y0
  induction y0 with
  | nil =>
    intro s _
    unfold issueFrom
    repeat' (first
      | with_reducible assumption | with_reducible intro _ | ((with_reducible refine hasParts_trans hμ ?_); rfl)
      | with_reducible apply Touches.ite | with_reducible apply Touches.ite_snd | with_reducible apply startRec_touches
      | with_reducible apply runChunk_touches
      | with_reducible apply Touches.of_snd (by with_reducible assumption) | split | dsimp only)
  | cons c rest ih =>
    intro s _
    unfold issueFrom
    repeat' (first
      | with_reducible assumption | with_reducible intro _ | ((with_reducible refine hasParts_trans hμ ?_); rfl)
      | with_reducible apply Touches.ite | with_reducible apply Touches.ite_snd | with_reducible apply startRec_touches
      | with_reducible apply runChunk_touches | with_reducible apply ih
      | with_reducible apply Touches.of_snd (by with_reducible assumption) | split | dsimp only)

theorem cutAppend_touches (src : Nat → List Byte) (a : AppendSt) (hμ : hasParts μ (partSet [.coh, .hbm, .seqs, .cdc,
    .wt, .ftl]) = true) (hs : Touches μ s₀ s) :
    Touches μ s₀ (cutAppend src a s).2 := by
  unfold cutAppend
  repeat' (first
    | with_reducible assumption | ((with_reducible refine hasParts_trans hμ ?_); rfl)
    | with_reducible apply Touches.ite | with_reducible apply Touches.ite_snd
    | with_reducible apply closeAppend_touches | with_reducible apply returnHeld_touches
    | with_reducible apply Touches.of_snd (by with_reducible assumption) | split)

theorem cutRecords_touches (status : Nat) (src : Nat → Nat → List Byte) (hμ : hasParts μ (partSet [.coh, .hbm, .seqs,
    .cdc, .wt, .ftl]) = true) : ∀ (y0 : Nat) (y1 : List StepRec) {s : State} , Touches μ s₀ s → Touches μ s₀
    (cutRecords status src y0 y1 s).2 := by
  intro y0 y1
  induction y1 generalizing y0 with
  | nil =>
    intro s _
    unfold cutRecords
    repeat' (first
      | with_reducible assumption | ((with_reducible refine hasParts_trans hμ ?_); rfl)
      | with_reducible apply Touches.ite | with_reducible apply Touches.ite_snd
      | with_reducible apply cutAppend_touches
      | with_reducible apply Touches.of_snd (by with_reducible assumption) | split | dsimp only)
  | cons c rest ih =>
    intro s _
    unfold cutRecords
    repeat' (first
      | with_reducible assumption | ((with_reducible refine hasParts_trans hμ ?_); rfl)
      | with_reducible apply Touches.ite | with_reducible apply Touches.ite_snd
      | with_reducible apply cutAppend_touches | with_reducible apply ih
      | with_reducible apply Touches.of_snd (by with_reducible assumption) | split | dsimp only)

theorem cutUnread_touches (src : Nat → Nat → List Byte) (hμ : hasParts μ (partSet [.coh, .hbm, .rng, .io, .seqs, .ops,
    .cdc, .wt, .ftl]) = true) : ∀ (y0 : Nat) (y1 : List StepRec) {s : State} , Touches μ s₀ s → Touches μ s₀
    (cutUnread src y0 y1 s).2 := by
  intro y0 y1
  induction y1 generalizing y0 with
  | nil =>
    intro s _
    unfold cutUnread
    repeat' (first
      | with_reducible assumption | ((with_reducible refine hasParts_trans hμ ?_); rfl)
      | with_reducible apply Touches.ite | with_reducible apply Touches.ite_snd
      | with_reducible apply readFailed_touches | with_reducible apply cutAppend_touches
      | with_reducible apply Touches.of_snd (by with_reducible assumption) | split | dsimp only)
  | cons c rest ih =>
    intro s _
    unfold cutUnread
    repeat' (first
      | with_reducible assumption | ((with_reducible refine hasParts_trans hμ ?_); rfl)
      | with_reducible apply Touches.ite | with_reducible apply Touches.ite_snd
      | with_reducible apply readFailed_touches | with_reducible apply cutAppend_touches | with_reducible apply ih
      | with_reducible apply Touches.of_snd (by with_reducible assumption) | split | dsimp only)

theorem driveStep_touches (id : Nat) (hμ : hasParts μ (partSet [.link, .coh, .hbm, .rng, .io, .seqs, .casc, .ops,
    .attn, .cdc, .tier, .wt, .ftl, .sch, .sec]) = true) (hs : Touches μ s₀ s) :
    Touches μ s₀ (driveStep id s) := by
  unfold driveStep
  repeat' (first
    | with_reducible assumption | with_reducible intro _ | ((with_reducible refine hasParts_trans hμ ?_); rfl)
    | with_reducible apply Touches.when | with_reducible apply cutUnread_touches
    | with_reducible apply settleStep_touches | with_reducible apply modStepRecs_touches
    | with_reducible apply dropUnits_touches | with_reducible apply Touches.of_snd (by with_reducible assumption)
    | split | dsimp only)

theorem execStepSubchunkIssue_touches {t : State} (op : Nat) (hμ : hasParts μ (partSet [.free, .link, .coh, .hbm,
    .rng, .io, .seqs, .pfx, .casc, .ops, .attn, .cdc, .tier, .wt, .ftl, .sch, .sec]) = true) (he :
    execStepSubchunkIssue op s = .next t) (hs : Touches μ s₀ s) :
    Touches μ s₀ t := by
  unfold execStepSubchunkIssue at he
  cases he
  repeat' (first
    | with_reducible assumption | ((with_reducible refine hasParts_trans hμ ?_); rfl)
    | with_reducible apply driveStep_touches | with_reducible apply issueFrom_touches | split)

end Sys2Proof.Machine
end

