-- ==== Sys2Proof/Laws/SlicesTouches.lean ====
section
/-! SUPPORT. Which parts of State the operations of Machine/Slices.lean may touch: one lemma per operation. -/

namespace Sys2Proof.Machine

open Sys2Proof

variable {μ : Nat} {s₀ s : State}

theorem chargeUnit_touches (id cluster core since : Nat) (u : WUnit) (hμ : hasParts μ (partSet [.attn, .sch]) = true)
    (hs : Touches μ s₀ s) :
    Touches μ s₀ (chargeUnit id cluster core since u s) := by
  unfold chargeUnit
  repeat' (first
    | with_reducible assumption | with_reducible intro _ | ((with_reducible refine hasParts_trans hμ ?_); rfl)
    | with_reducible apply modUnit_touches | with_reducible apply chargeCore_touches)

theorem freeSlots_touches (p : Nat) (hμ : hasParts μ (partSet [.sch]) = true) (hs : Touches μ s₀ s) :
    Touches μ s₀ (freeSlots p s) := by
  unfold freeSlots
  repeat' (first
    | with_reducible assumption | with_reducible intro _ | ((with_reducible refine hasParts_trans hμ ?_); rfl)
    | with_reducible apply Touches.ite | with_reducible apply modPart_touches | split | dsimp only)

theorem dropUnit_touches (id : Nat) (u : WUnit) (hμ : hasParts μ (partSet [.casc, .attn, .sch]) = true) (hs : Touches
    μ s₀ s) :
    Touches μ s₀ (dropUnit id u s) := by
  unfold dropUnit
  repeat' (first
    | with_reducible assumption | with_reducible intro _ | ((with_reducible refine hasParts_trans hμ ?_); rfl)
    | with_reducible apply Touches.modAttn | with_reducible apply freeSlots_touches
    | with_reducible apply dropImages_touches)

theorem stopUnit_touches (id bytes : Nat) (hμ : hasParts μ (partSet [.attn, .sch]) = true) (hs : Touches μ s₀ s) :
    Touches μ s₀ (stopUnit id bytes s) := by
  unfold stopUnit
  repeat' (first
    | with_reducible assumption | with_reducible intro _ | ((with_reducible refine hasParts_trans hμ ?_); rfl)
    | with_reducible apply modUnit_touches | with_reducible apply chargeUnit_touches | split)

theorem settleStops_touches (p : Nat) (hμ : hasParts μ (partSet [.sch]) = true) (hs : Touches μ s₀ s) :
    Touches μ s₀ (settleStops p s) := by
  unfold settleStops
  repeat' (first
    | with_reducible assumption | with_reducible intro _ | ((with_reducible refine hasParts_trans hμ ?_); rfl)
    | with_reducible apply Touches.ite | with_reducible apply modPart_touches | split)

theorem endSlice_touches (p t : Nat) (hμ : hasParts μ (partSet [.attn, .sch]) = true) (hs : Touches μ s₀ s) :
    Touches μ s₀ (endSlice p t s) := by
  unfold endSlice
  repeat' (first
    | with_reducible assumption | with_reducible intro _ | ((with_reducible refine hasParts_trans hμ ?_); rfl)
    | with_reducible apply Touches.forEach | with_reducible apply modPart_touches
    | with_reducible apply settleStops_touches | with_reducible apply stopUnit_touches | split | dsimp only)

theorem settleSlice_touches (p : Nat) (hμ : hasParts μ (partSet [.attn, .sch]) = true) (hs : Touches μ s₀ s) :
    Touches μ s₀ (settleSlice p s) := by
  unfold settleSlice
  repeat' (first
    | with_reducible assumption | ((with_reducible refine hasParts_trans hμ ?_); rfl)
    | with_reducible apply Touches.ite | with_reducible apply endSlice_touches | split | dsimp only)

theorem beginSlice_touches (p : Nat) (hμ : hasParts μ (partSet [.sch]) = true) (hs : Touches μ s₀ s) :
    Touches μ s₀ (beginSlice p s) := by
  unfold beginSlice
  repeat' (first
    | with_reducible assumption | with_reducible intro _ | ((with_reducible refine hasParts_trans hμ ?_); rfl)
    | with_reducible apply Touches.ite | with_reducible apply modPart_touches | split | dsimp only)

theorem execQuantumExpiry_touches {t : State} (part : Nat) (hμ : hasParts μ (partSet [.attn, .sch]) = true) (he :
    execQuantumExpiry part s = .next t) (hs : Touches μ s₀ s) :
    Touches μ s₀ t := by
  unfold execQuantumExpiry at he
  cases he
  repeat' (first
    | with_reducible assumption | with_reducible intro _ | ((with_reducible refine hasParts_trans hμ ?_); rfl)
    | with_reducible apply Touches.ite | with_reducible apply working_touches
    | with_reducible apply settleSlice_touches | with_reducible apply modPart_touches | split)

theorem noteCluster_touches (cluster : Nat) (u : WUnit) (hμ : hasParts μ (partSet [.ops]) = true) (hs : Touches μ s₀
    s) :
    Touches μ s₀ (noteCluster cluster u s) := by
  unfold noteCluster
  repeat' (first
    | with_reducible assumption | with_reducible intro _ | ((with_reducible refine hasParts_trans hμ ?_); rfl)
    | with_reducible apply modAttnSt_touches)

theorem useCore_touches (k : Nat) (hμ : hasParts μ (partSet [.core]) = true) (hs : Touches μ s₀ s) :
    Touches μ s₀ (useCore k s) := by
  unfold useCore
  repeat' (first
    | with_reducible assumption | with_reducible intro _ | ((with_reducible refine hasParts_trans hμ ?_); rfl)
    | with_reducible apply Touches.ite | with_reducible apply Touches.modCore | split)

theorem runUnit_touches (cluster core id : Nat) (u : WUnit) (hμ : hasParts μ (partSet [.link, .io, .seqs, .casc, .ops,
    .attn, .core, .sch, .sec]) = true) (hs : Touches μ s₀ s) :
    Touches μ s₀ (runUnit cluster core id u s) := by
  unfold runUnit
  repeat' (first
    | with_reducible assumption | with_reducible intro _ | ((with_reducible refine hasParts_trans hμ ?_); rfl)
    | with_reducible apply Touches.modAttn | with_reducible apply modOp_touches
    | with_reducible apply beginWork_touches | with_reducible apply startUnit_touches
    | with_reducible apply noteCluster_touches | with_reducible apply useCore_touches
    | with_reducible apply modPart_touches)

theorem execWorkUnitDispatch_touches {t : State} (cluster core : Nat) (hμ : hasParts μ (partSet [.link, .io, .seqs,
    .casc, .ops, .attn, .core, .sch, .sec]) = true) (he : execWorkUnitDispatch cluster core s = .next t) (hs : Touches
    μ s₀ s) :
    Touches μ s₀ t := by
  unfold execWorkUnitDispatch at he
  cases he
  repeat' (first
    | with_reducible assumption | with_reducible intro _ | ((with_reducible refine hasParts_trans hμ ?_); rfl)
    | with_reducible apply Touches.ite | with_reducible apply working_touches
    | with_reducible apply beginSlice_touches | with_reducible apply settleSlice_touches
    | with_reducible apply runUnit_touches | split | dsimp only)

theorem retireUnit_touches (id cluster core since : Nat) (u : WUnit) (hμ : hasParts μ (partSet [.free, .link, .coh,
    .ext, .hbm, .rng, .io, .seqs, .casc, .ops, .attn, .cdc, .tier, .wt, .ftl, .sch, .sec]) = true) (hs : Touches μ s₀
    s) :
    Touches μ s₀ (retireUnit id cluster core since u s) := by
  unfold retireUnit
  repeat' (first
    | with_reducible assumption | with_reducible intro _ | ((with_reducible refine hasParts_trans hμ ?_); rfl)
    | with_reducible apply Touches.ite | with_reducible apply computeUnit_touches
    | with_reducible apply chargeUnit_touches | with_reducible apply modAttnSt_touches
    | with_reducible apply dropUnit_touches | with_reducible apply finishAttnOp_touches | split | dsimp only)

theorem execWorkUnitEnd_touches {t : State} (cluster core : Nat) (hμ : hasParts μ (partSet [.free, .link, .coh, .ext,
    .hbm, .rng, .io, .seqs, .casc, .ops, .attn, .cdc, .tier, .wt, .ftl, .sch, .sec]) = true) (he : execWorkUnitEnd
    cluster core s = .next t) (hs : Touches μ s₀ s) :
    Touches μ s₀ t := by
  unfold execWorkUnitEnd at he
  cases he
  repeat' (first
    | with_reducible assumption | with_reducible intro _ | ((with_reducible refine hasParts_trans hμ ?_); rfl)
    | with_reducible apply Touches.ite | with_reducible apply working_touches | with_reducible apply askPeers_touches
    | with_reducible apply settleSlice_touches | with_reducible apply retireUnit_touches | split)

theorem execCheapPointStop_touches {t : State} (cluster core bytes : Nat) (hμ : hasParts μ (partSet [.attn, .sch]) =
    true) (he : execCheapPointStop cluster core bytes s = .next t) (hs : Touches μ s₀ s) :
    Touches μ s₀ t := by
  unfold execCheapPointStop at he
  cases he
  repeat' (first
    | with_reducible assumption | with_reducible intro _ | ((with_reducible refine hasParts_trans hμ ?_); rfl)
    | with_reducible apply Touches.ite | with_reducible apply working_touches
    | with_reducible apply settleStops_touches | with_reducible apply stopUnit_touches | split)

theorem execCheapWaitExpiry_touches {t : State} (part : Nat) (hμ : hasParts μ (partSet [.attn, .sch]) = true) (he :
    execCheapWaitExpiry part s = .next t) (hs : Touches μ s₀ s) :
    Touches μ s₀ t := by
  unfold execCheapWaitExpiry at he
  cases he
  repeat' (first
    | with_reducible assumption | with_reducible intro _ | ((with_reducible refine hasParts_trans hμ ?_); rfl)
    | with_reducible apply Touches.ite | with_reducible apply Touches.forEach | with_reducible apply working_touches
    | with_reducible apply settleStops_touches | with_reducible apply stopUnit_touches | split)

theorem chargeSave_touches (us : List WUnit) (preempt : Bool) (hμ : hasParts μ (partSet [.sch]) = true) (hs : Touches
    μ s₀ s) :
    Touches μ s₀ (chargeSave us preempt s) := by
  unfold chargeSave
  repeat' (first
    | with_reducible assumption | with_reducible intro _ | ((with_reducible refine hasParts_trans hμ ?_); rfl)
    | with_reducible apply Touches.ite | with_reducible apply Touches.forEach | with_reducible apply modCtx_touches
    | split | dsimp only)

theorem beginScrub_touches (p : Nat) (hμ : hasParts μ (partSet [.sch]) = true) (hs : Touches μ s₀ s) :
    Touches μ s₀ (beginScrub p s) := by
  unfold beginScrub
  repeat' (first
    | with_reducible assumption | with_reducible intro _ | ((with_reducible refine hasParts_trans hμ ?_); rfl)
    | with_reducible apply modPart_touches)

theorem execSaveDone_touches {t : State} (part : Nat) (hμ : hasParts μ (partSet [.ops, .attn, .sch]) = true) (he :
    execSaveDone part s = .next t) (hs : Touches μ s₀ s) :
    Touches μ s₀ t := by
  unfold execSaveDone at he
  cases he
  repeat' (first
    | with_reducible assumption | with_reducible intro _ | ((with_reducible refine hasParts_trans hμ ?_); rfl)
    | with_reducible apply Touches.ite | with_reducible apply Touches.forEach | with_reducible apply working_touches
    | with_reducible apply chargeSave_touches | with_reducible apply modOp_touches
    | with_reducible apply modUnit_touches | with_reducible apply modPart_touches
    | with_reducible apply beginScrub_touches | split | dsimp only)

theorem execRestoreDone_touches {t : State} (part : Nat) (hμ : hasParts μ (partSet [.attn, .core, .sch]) = true) (he :
    execRestoreDone part s = .next t) (hs : Touches μ s₀ s) :
    Touches μ s₀ t := by
  unfold execRestoreDone at he
  cases he
  repeat' (first
    | with_reducible assumption | with_reducible intro _ | ((with_reducible refine hasParts_trans hμ ?_); rfl)
    | with_reducible apply Touches.ite | with_reducible apply Touches.forEach | with_reducible apply working_touches
    | with_reducible apply chargeSave_touches | with_reducible apply useCore_touches
    | with_reducible apply modUnit_touches | with_reducible apply modPart_touches | split | dsimp only)

theorem clearCores_touches (p : Nat) (hμ : hasParts μ (partSet [.seqs, .core]) = true) (hs : Touches μ s₀ s) :
    Touches μ s₀ (clearCores p s) := by
  unfold clearCores
  repeat' (first
    | with_reducible assumption | with_reducible intro _ | ((with_reducible refine hasParts_trans hμ ?_); rfl)
    | with_reducible apply Touches.modSeqs | with_reducible apply Touches.modCore)

theorem clearSlots_touches (p : Nat) (slots : List Nat) (hμ : hasParts μ (partSet [.link, .hbm, .io, .seqs, .pfx,
    .casc, .cdc, .tier, .wt, .ftl, .sec]) = true) (hs : Touches μ s₀ s) :
    Touches μ s₀ (clearSlots p slots s) := by
  unfold clearSlots
  repeat' (first
    | with_reducible assumption | with_reducible intro _ | ((with_reducible refine hasParts_trans hμ ?_); rfl)
    | with_reducible apply Touches.forEach | with_reducible apply retireBlock_touches
    | with_reducible apply Touches.of_snd (by with_reducible assumption) | split | dsimp only)

theorem finishScrub_touches (p : Nat) (slots : List Nat) (hμ : hasParts μ (partSet [.link, .hbm, .io, .seqs, .pfx,
    .casc, .core, .cdc, .tier, .wt, .ftl, .sch, .sec]) = true) (hs : Touches μ s₀ s) :
    Touches μ s₀ (finishScrub p slots s) := by
  unfold finishScrub
  repeat' (first
    | with_reducible assumption | exact fun _ => FusesKept.refl _ | with_reducible intro _
    | ((with_reducible refine hasParts_trans hμ ?_); rfl) | with_reducible apply Touches.modSec
    | with_reducible apply clearSlots_touches | with_reducible apply clearCores_touches
    | with_reducible apply modPart_touches)

theorem afterScrub_touches (p : Nat) (hμ : hasParts μ (partSet [.sch]) = true) (hs : Touches μ s₀ s) :
    Touches μ s₀ (afterScrub p s) := by
  unfold afterScrub
  repeat' (first
    | with_reducible assumption | with_reducible intro _ | ((with_reducible refine hasParts_trans hμ ?_); rfl)
    | with_reducible apply modPart_touches | split)

theorem ctxCmd_touches (path : Path) (f : Party → State → Option State) (hf : ∀ a0 t, Touches μ s₀ t → optTouched μ s₀
    (f a0 t)) (hμ : hasParts μ (partSet [.sch]) = true) (hs : Touches μ s₀ s) :
    Touches μ s₀ (ctxCmd path f s) := by
  unfold ctxCmd
  repeat' (first
    | with_reducible assumption | with_reducible intro _ | ((with_reducible refine hasParts_trans hμ ?_); rfl)
    | with_reducible apply Touches.ite | with_reducible apply Touches.modSch | with_reducible exact optTouched_none
    | with_reducible apply optTouched_some | with_reducible apply hf
    | with_reducible apply Touches.of_optTouched (by with_reducible assumption) | split)

theorem ctxWriteCmd_touches (path : Path) (hμ : hasParts μ (partSet [.sch]) = true) (hs : Touches μ s₀ s) :
    Touches μ s₀ (ctxWriteCmd path s) := by
  unfold ctxWriteCmd
  repeat' (first
    | with_reducible assumption | with_reducible intro _ | ((with_reducible refine hasParts_trans hμ ?_); rfl)
    | with_reducible apply Touches.ite | with_reducible apply Touches.modSch | with_reducible apply ctxCmd_touches
    | with_reducible exact optTouched_none | with_reducible apply optTouched_some
    | with_reducible apply Touches.of_optTouched (by with_reducible assumption) | split | dsimp only)

theorem execCtxWrite_touches {t : State} (path : Path) (hμ : hasParts μ (partSet [.sch]) = true) (he : execCtxWrite
    path s = .next t) (hs : Touches μ s₀ s) :
    Touches μ s₀ t := by
  unfold execCtxWrite at he
  cases he
  repeat' (first
    | with_reducible assumption | with_reducible intro _ | ((with_reducible refine hasParts_trans hμ ?_); rfl)
    | with_reducible apply regAccess_touches | with_reducible apply ctxWriteCmd_touches)

theorem ctxReadCmd_touches (path : Path) (hμ : hasParts μ (partSet [.sch]) = true) (hs : Touches μ s₀ s) :
    Touches μ s₀ (ctxReadCmd path s) := by
  unfold ctxReadCmd
  repeat' (first
    | with_reducible assumption | with_reducible intro _ | ((with_reducible refine hasParts_trans hμ ?_); rfl)
    | with_reducible apply Touches.ite | with_reducible apply Touches.modSch | with_reducible apply ctxCmd_touches
    | with_reducible exact optTouched_none | with_reducible apply optTouched_some
    | with_reducible apply Touches.of_optTouched (by with_reducible assumption) | split | dsimp only)

theorem execCtxRead_touches {t : State} (path : Path) (hμ : hasParts μ (partSet [.sch]) = true) (he : execCtxRead path
    s = .next t) (hs : Touches μ s₀ s) :
    Touches μ s₀ t := by
  unfold execCtxRead at he
  cases he
  repeat' (first
    | with_reducible assumption | with_reducible intro _ | ((with_reducible refine hasParts_trans hμ ?_); rfl)
    | with_reducible apply regAccess_touches | with_reducible apply ctxReadCmd_touches)

theorem ctxDisableCmd_touches (path : Path) (hμ : hasParts μ (partSet [.sch]) = true) (hs : Touches μ s₀ s) :
    Touches μ s₀ (ctxDisableCmd path s) := by
  unfold ctxDisableCmd
  repeat' (first
    | with_reducible assumption | with_reducible intro _ | ((with_reducible refine hasParts_trans hμ ?_); rfl)
    | with_reducible apply Touches.ite | with_reducible apply Touches.modSch | with_reducible apply ctxCmd_touches
    | with_reducible exact optTouched_none | with_reducible apply optTouched_some
    | with_reducible apply Touches.of_optTouched (by with_reducible assumption) | split | dsimp only)

theorem execCtxDisable_touches {t : State} (path : Path) (hμ : hasParts μ (partSet [.sch]) = true) (he :
    execCtxDisable path s = .next t) (hs : Touches μ s₀ s) :
    Touches μ s₀ t := by
  unfold execCtxDisable at he
  cases he
  repeat' (first
    | with_reducible assumption | with_reducible intro _ | ((with_reducible refine hasParts_trans hμ ?_); rfl)
    | with_reducible apply regAccess_touches | with_reducible apply ctxDisableCmd_touches)

theorem execSlowdownPublish_touches {t : State} (hμ : hasParts μ (partSet [.sch]) = true) (he : execSlowdownPublish s
    = .next t) (hs : Touches μ s₀ s) :
    Touches μ s₀ t := by
  unfold execSlowdownPublish at he
  cases he
  repeat' (first
    | with_reducible assumption | with_reducible intro _ | ((with_reducible refine hasParts_trans hμ ?_); rfl)
    | with_reducible apply Touches.modSch | with_reducible apply working_touches)

end Sys2Proof.Machine
end

