-- ==== Sys2Proof/Laws/FetchTouches.lean ====
section
/-! SUPPORT. Which parts of State the operations of Machine/Fetch.lean may touch: one lemma per operation. -/

namespace Sys2Proof.Machine

open Sys2Proof

variable {μ : Nat} {s₀ s : State}

theorem modFetch_touches (id : Nat) (f : FetchSt → FetchSt) (hμ : hasParts μ (partSet [.ops]) = true) (hs : Touches μ
    s₀ s) :
    Touches μ s₀ (modFetch id f s) := by
  unfold modFetch
  repeat' (first
    | with_reducible assumption | with_reducible intro _ | ((with_reducible refine hasParts_trans hμ ?_); rfl)
    | with_reducible apply modOp_touches | split)

theorem layerTime_touches (t : TileSt) (hμ : hasParts μ (partSet [.free]) = true) (hs : Touches μ s₀ s) :
    Touches μ s₀ (layerTime t s).2 := by
  unfold layerTime
  repeat' (first
    | with_reducible assumption | ((with_reducible refine hasParts_trans hμ ?_); rfl)
    | with_reducible apply fresh_touches | with_reducible apply Touches.of_snd (by with_reducible assumption) | split
    | dsimp only)

theorem writeLayerRec_touches (o : Op) (b : List Byte) (j : Nat) (t : TileSt) (hμ : hasParts μ (partSet [.free, .link,
    .io, .sec]) = true) (hs : Touches μ s₀ s) :
    Touches μ s₀ (writeLayerRec o b j t s) := by
  unfold writeLayerRec
  repeat' (first
    | with_reducible assumption | ((with_reducible refine hasParts_trans hμ ?_); rfl)
    | with_reducible apply layerTime_touches | with_reducible apply writeTiles_touches
    | with_reducible apply Touches.of_snd (by with_reducible assumption))

theorem refineOp_touches (id : Nat) (hμ : hasParts μ (partSet [.sch]) = true) (hs : Touches μ s₀ s) :
    Touches μ s₀ (refineOp id s) := by
  unfold refineOp
  repeat' (first
    | with_reducible assumption | ((with_reducible refine hasParts_trans hμ ?_); rfl)
    | with_reducible apply Touches.ite | with_reducible apply refineCost_touches | split | dsimp only)

theorem settleFetch_touches (id : Nat) (hμ : hasParts μ (partSet [.free, .link, .hbm, .rng, .io, .seqs, .casc, .ops,
    .attn, .cdc, .tier, .wt, .ftl, .sch, .sec]) = true) (hs : Touches μ s₀ s) :
    Touches μ s₀ (settleFetch id s) := by
  unfold settleFetch
  repeat' (first
    | with_reducible assumption | with_reducible intro _ | ((with_reducible refine hasParts_trans hμ ?_); rfl)
    | with_reducible apply Touches.ite | with_reducible apply Touches.modAttn | with_reducible apply Touches.forEach
    | with_reducible apply Touches.when | with_reducible apply writeLayerRec_touches
    | with_reducible apply modFetch_touches | with_reducible apply finishOp_touches
    | with_reducible apply refineOp_touches | with_reducible apply dropImages_touches | split | dsimp only)

theorem sendSegs_touches (id lay tile node addr key : Nat) (segs : List (Nat × List Byte)) (hμ : hasParts μ (partSet
    [.link, .io, .sec]) = true) (hs : Touches μ s₀ s) :
    Touches μ s₀ (sendSegs id lay tile node addr key segs s) := by
  unfold sendSegs
  repeat' (first
    | with_reducible assumption | with_reducible intro _ | ((with_reducible refine hasParts_trans hμ ?_); rfl)
    | with_reducible apply Touches.forEach | with_reducible apply writeTiles_touches
    | with_reducible apply Touches.of_snd (by with_reducible assumption))

theorem fetchAccess_touches (ctx seq layer first pos : Nat) (firstHead : Bool) (pages : List Seen) (hμ : hasParts μ
    (partSet [.free, .seqs, .tier]) = true) (hs : Touches μ s₀ s) :
    Touches μ s₀ (fetchAccess ctx seq layer first pos firstHead pages s) := by
  unfold fetchAccess
  repeat' (first
    | with_reducible assumption | with_reducible intro _ | ((with_reducible refine hasParts_trans hμ ?_); rfl)
    | with_reducible apply Touches.ite | with_reducible apply Touches.ite_snd | with_reducible apply Touches.forEach
    | with_reducible apply fresh_touches | with_reducible apply walks_touches | with_reducible apply access_touches
    | with_reducible apply Touches.of_snd (by with_reducible assumption) | split | dsimp only)

theorem modTileSts_touches (id : Nat) (f : List TileSt → List TileSt) (hμ : hasParts μ (partSet [.ops]) = true) (hs :
    Touches μ s₀ s) :
    Touches μ s₀ (modTileSts id f s) := by
  unfold modTileSts
  repeat' (first
    | with_reducible assumption | with_reducible intro _ | ((with_reducible refine hasParts_trans hμ ?_); rfl)
    | with_reducible apply modOp_touches | split)

theorem makeRoom_touches (id part n : Nat) (hμ : hasParts μ (partSet [.hbm, .ops]) = true) : ∀ (y0 : Nat) {s : State}
    , Touches μ s₀ s → Touches μ s₀ (makeRoom id part n y0 s) := by
  intro y0
  induction y0 with
  | zero =>
    intro s _
    unfold makeRoom
    repeat' (first
      | with_reducible assumption | with_reducible intro _ | ((with_reducible refine hasParts_trans hμ ?_); rfl)
      | with_reducible apply Touches.ite | with_reducible apply modTileSts_touches
      | with_reducible apply uncharge_touches | split)
  | succ fuel ih =>
    intro s _
    unfold makeRoom
    repeat' (first
      | with_reducible assumption | with_reducible intro _ | ((with_reducible refine hasParts_trans hμ ?_); rfl)
      | with_reducible apply Touches.ite | with_reducible apply modTileSts_touches
      | with_reducible apply uncharge_touches | with_reducible apply ih | split)

theorem unstage_touches (id part lay i : Nat) (hμ : hasParts μ (partSet [.hbm, .ops]) = true) (hs : Touches μ s₀ s) :
    Touches μ s₀ (unstage id part lay i s) := by
  unfold unstage
  repeat' (first
    | with_reducible assumption | with_reducible intro _ | ((with_reducible refine hasParts_trans hμ ?_); rfl)
    | with_reducible apply modTileSts_touches | with_reducible apply uncharge_touches | split)

theorem stage_touches (id part lay : Nat) (x : Staged) (hμ : hasParts μ (partSet [.hbm, .ops]) = true) (hs : Touches μ
    s₀ s) :
    Touches μ s₀ (stage id part lay x s) := by
  unfold stage
  repeat' (first
    | with_reducible assumption | with_reducible intro _ | ((with_reducible refine hasParts_trans hμ ?_); rfl)
    | with_reducible apply modTileSts_touches | with_reducible apply charge_touches)

theorem unstageAll_touches (id : Nat) (o : Op) (hμ : hasParts μ (partSet [.hbm, .ops]) = true) (hs : Touches μ s₀ s) :
    Touches μ s₀ (unstageAll id o s) := by
  unfold unstageAll
  repeat' (first
    | with_reducible assumption | with_reducible intro _ | ((with_reducible refine hasParts_trans hμ ?_); rfl)
    | with_reducible apply modTileSts_touches | with_reducible apply uncharge_touches)

theorem gatherTile_touches (id : Nat) (o : Op) (f : FetchSt) (lay i : Nat) (hμ : hasParts μ (partSet [.link, .hbm,
    .io, .casc, .ops, .sec]) = true) (hs : Touches μ s₀ s) :
    Touches μ s₀ (gatherTile id o f lay i s).2 := by
  unfold gatherTile
  repeat' (first
    | with_reducible assumption | with_reducible intro _ | ((with_reducible refine hasParts_trans hμ ?_); rfl)
    | with_reducible apply Touches.ite | with_reducible apply Touches.ite_snd | with_reducible apply Touches.forEach
    | with_reducible apply wantPeer_touches | with_reducible apply stage_touches | split | dsimp only)

theorem gatherFrom_touches (id : Nat) (hμ : hasParts μ (partSet [.link, .hbm, .io, .casc, .ops, .sec]) = true) : ∀ (y0
    : List (Nat × Nat)) {s : State} , Touches μ s₀ s → Touches μ s₀ (gatherFrom id y0 s) := by
  intro y0
  induction y0 with
  | nil =>
    intro s _
    unfold gatherFrom
    repeat' (first
      | with_reducible assumption | ((with_reducible refine hasParts_trans hμ ?_); rfl)
      | with_reducible apply Touches.ite | with_reducible apply Touches.ite_snd
      | with_reducible apply gatherTile_touches
      | with_reducible apply Touches.of_snd (by with_reducible assumption) | split | dsimp only)
  | cons c rest ih =>
    intro s _
    unfold gatherFrom
    repeat' (first
      | with_reducible assumption | ((with_reducible refine hasParts_trans hμ ?_); rfl)
      | with_reducible apply Touches.ite | with_reducible apply Touches.ite_snd
      | with_reducible apply gatherTile_touches | with_reducible apply ih
      | with_reducible apply Touches.of_snd (by with_reducible assumption) | split | dsimp only)

theorem gather_touches (id : Nat) (hμ : hasParts μ (partSet [.link, .hbm, .io, .casc, .ops, .sec]) = true) (hs :
    Touches μ s₀ s) :
    Touches μ s₀ (gather id s) := by
  unfold gather
  repeat' (first
    | with_reducible assumption | with_reducible intro _ | ((with_reducible refine hasParts_trans hμ ?_); rfl)
    | with_reducible apply gatherFrom_touches | split)

theorem driveFetch_touches (id : Nat) (hμ : hasParts μ (partSet [.free, .link, .hbm, .rng, .io, .seqs, .casc, .ops,
    .attn, .cdc, .tier, .wt, .ftl, .sch, .sec]) = true) (hs : Touches μ s₀ s) :
    Touches μ s₀ (driveFetch id s) := by
  unfold driveFetch
  repeat' (first
    | with_reducible assumption | ((with_reducible refine hasParts_trans hμ ?_); rfl)
    | with_reducible apply settleFetch_touches | with_reducible apply gather_touches)

theorem expandTile_touches (p0 n h : Nat) (pages : List Seen) (hμ : hasParts μ (partSet [.cdc]) = true) (hs : Touches
    μ s₀ s) :
    Touches μ s₀ (expandTile p0 n h pages s) := by
  unfold expandTile
  repeat' (first
    | with_reducible assumption | with_reducible intro _ | ((with_reducible refine hasParts_trans hμ ?_); rfl)
    | with_reducible apply Touches.ite | with_reducible apply Touches.forEach
    | with_reducible apply expandRows_touches | split | dsimp only)

theorem countTile_touches (layout : Nat) (stored : Bool) (hμ : hasParts μ (partSet [.cdc]) = true) (hs : Touches μ s₀
    s) :
    Touches μ s₀ (countTile layout stored s) := by
  unfold countTile
  repeat' (first
    | with_reducible assumption | with_reducible intro _ | ((with_reducible refine hasParts_trans hμ ?_); rfl)
    | with_reducible apply Touches.modCdc)

theorem stepTile_touches (id : Nat) (f : FetchSt) (i : Nat) (g : TileSt → TileSt) (hμ : hasParts μ (partSet [.ops]) =
    true) (hs : Touches μ s₀ s) :
    Touches μ s₀ (stepTile id f i g s) := by
  unfold stepTile
  repeat' (first
    | with_reducible assumption | with_reducible intro _ | ((with_reducible refine hasParts_trans hμ ?_); rfl)
    | with_reducible apply Touches.ite | with_reducible apply modFetch_touches | split | dsimp only)

theorem fetchTile_touches (id : Nat) (o : Op) (f : FetchSt) (hμ : hasParts μ (partSet [.free, .link, .hbm, .io, .seqs,
    .casc, .ops, .cdc, .tier, .sch, .sec]) = true) (hs : Touches μ s₀ s) :
    Touches μ s₀ (fetchTile id o f s) := by
  unfold fetchTile
  repeat' (first
    | with_reducible assumption | with_reducible intro _ | ((with_reducible refine hasParts_trans hμ ?_); rfl)
    | with_reducible apply Touches.ite | with_reducible apply Touches.forEach | with_reducible apply Touches.when
    | with_reducible apply wantPeer_touches | with_reducible apply stepTile_touches
    | with_reducible apply unstage_touches | with_reducible apply makeRoom_touches
    | with_reducible apply fetchAccess_touches | with_reducible apply countTile_touches
    | with_reducible apply expandTile_touches | with_reducible apply sendSegs_touches
    | with_reducible apply beginWork_touches | split | dsimp only)

theorem abstainFetch_touches (id : Nat) (f : FetchSt) (hμ : hasParts μ (partSet [.link, .hbm, .rng, .io, .seqs, .casc,
    .ops, .attn, .cdc, .tier, .wt, .ftl, .sch, .sec]) = true) (hs : Touches μ s₀ s) :
    Touches μ s₀ (abstainFetch id f s) := by
  unfold abstainFetch
  repeat' (first
    | with_reducible assumption | with_reducible intro _ | ((with_reducible refine hasParts_trans hμ ?_); rfl)
    | with_reducible apply Touches.modAttn | with_reducible apply finishOp_touches)

theorem deadlineFetch_touches (id : Nat) (hμ : hasParts μ (partSet [.link, .hbm, .rng, .io, .seqs, .casc, .ops, .attn,
    .cdc, .tier, .wt, .ftl, .sch, .sec]) = true) (hs : Touches μ s₀ s) :
    Touches μ s₀ (deadlineFetch id s) := by
  unfold deadlineFetch
  repeat' (first
    | with_reducible assumption | with_reducible intro _ | ((with_reducible refine hasParts_trans hμ ?_); rfl)
    | with_reducible apply Touches.ite | with_reducible apply abstainFetch_touches
    | with_reducible apply modFetch_touches | with_reducible apply modOp_touches | split | dsimp only)

theorem execDeadlineEvaluation_touches {t : State} (op : Nat) (hμ : hasParts μ (partSet [.link, .hbm, .rng, .io,
    .seqs, .casc, .ops, .attn, .cdc, .tier, .wt, .ftl, .sch, .sec]) = true) (he : execDeadlineEvaluation op s = .next
    t) (hs : Touches μ s₀ s) :
    Touches μ s₀ t := by
  unfold execDeadlineEvaluation at he
  cases he
  repeat' (first
    | with_reducible assumption | ((with_reducible refine hasParts_trans hμ ?_); rfl)
    | with_reducible apply deadlineFetch_touches | with_reducible apply deadlineAttn_touches)

theorem noteWork_touches (id opcode ctx : Nat) (cls : Nat × Nat) (units : Nat) (hμ : hasParts μ (partSet [.ops]) =
    true) (hs : Touches μ s₀ s) :
    Touches μ s₀ (noteWork id opcode ctx cls units s) := by
  unfold noteWork
  repeat' (first
    | with_reducible assumption | with_reducible intro _ | ((with_reducible refine hasParts_trans hμ ?_); rfl)
    | with_reducible apply modOp_touches)

theorem kvFetch_touches (ring : Nat) (e : Entry) (hμ : hasParts μ (partSet [.link, .hbm, .rng, .io, .seqs, .casc,
    .ops, .attn, .cdc, .tier, .wt, .ftl, .sch, .sec]) = true) (hs : Touches μ s₀ s) :
    Touches μ s₀ (kvFetch ring e s) := by
  unfold kvFetch
  repeat' (first
    | with_reducible assumption | ((with_reducible refine hasParts_trans hμ ?_); rfl)
    | with_reducible apply endNow_touches | with_reducible apply beginOp_touches
    | with_reducible apply gather_touches | with_reducible apply deadlineFetch_touches
    | with_reducible apply noteWork_touches | with_reducible apply Touches.of_snd (by with_reducible assumption)
    | split | dsimp only)

theorem execKvFetch_touches {t : State} (ring : Nat) (hμ : hasParts μ (partSet [.link, .hbm, .rng, .io, .seqs, .casc,
    .ops, .attn, .cdc, .tier, .wt, .ftl, .sch, .sec]) = true) (he : execKvFetch ring s = .next t) (hs : Touches μ s₀
    s) :
    Touches μ s₀ t := by
  unfold execKvFetch at he
  cases he
  repeat' (first
    | with_reducible assumption | with_reducible intro _ | ((with_reducible refine hasParts_trans hμ ?_); rfl)
    | with_reducible apply startOp_touches | with_reducible apply kvFetch_touches)

theorem modPrefetch_touches (id : Nat) (f : PrefetchSt → PrefetchSt) (hμ : hasParts μ (partSet [.ops]) = true) (hs :
    Touches μ s₀ s) :
    Touches μ s₀ (modPrefetch id f s) := by
  unfold modPrefetch
  repeat' (first
    | with_reducible assumption | with_reducible intro _ | ((with_reducible refine hasParts_trans hμ ?_); rfl)
    | with_reducible apply modOp_touches | split)

theorem beginPeerUp_touches (r : Nat) (op : Option Nat) (lay : Nat) (hμ : hasParts μ (partSet [.coh, .hbm, .seqs,
    .tier, .wt]) = true) (hs : Touches μ s₀ s) :
    beganTouched μ s₀ (beginPeerUp r op lay s) := by
  unfold beginPeerUp
  repeat' (first
    | with_reducible assumption | ((with_reducible refine hasParts_trans hμ ?_); rfl)
    | with_reducible apply raise_touches | with_reducible apply beganTouched_move
    | with_reducible apply beganTouched_done | with_reducible apply beganTouched_later
    | with_reducible apply beganTouched_never
    | with_reducible apply Touches.ofBegan_move (by with_reducible assumption)
    | with_reducible apply Touches.ofBegan_done (by with_reducible assumption)
    | with_reducible apply Touches.ofBegan_later (by with_reducible assumption)
    | with_reducible apply Touches.ofBegan_never (by with_reducible assumption) | split)

theorem prefetchOne_touches (id lay : Nat) (a : PageAt) (hμ : hasParts μ (partSet [.free, .bbx, .link, .coh, .hbm,
    .io, .seqs, .pfx, .casc, .cdc, .tier, .wt, .ftl, .sch, .sec]) = true) (hs : Touches μ s₀ s) :
    fateTouched μ s₀ (prefetchOne id lay a s) := by
  unfold prefetchOne
  repeat' (first
    | with_reducible assumption | ((with_reducible refine hasParts_trans hμ ?_); rfl)
    | with_reducible apply Touches.ite | with_reducible apply Touches.ite_snd | with_reducible apply already_touches
    | with_reducible apply beginPeerUp_touches | with_reducible apply wantPeer_touches
    | with_reducible apply beginUp_touches | with_reducible apply Touches.ofBegan_move (by with_reducible assumption)
    | with_reducible apply Touches.ofBegan_done (by with_reducible assumption)
    | with_reducible apply Touches.ofBegan_later (by with_reducible assumption)
    | with_reducible apply Touches.ofBegan_never (by with_reducible assumption)
    | with_reducible apply fateTouched_already | with_reducible apply fateTouched_notMoved
    | with_reducible apply fateTouched_moving | with_reducible apply fateTouched_moved
    | with_reducible apply fateTouched_wait | with_reducible apply Touches.of_snd (by with_reducible assumption)
    | split)

theorem drivePrefetch_touches (id : Nat) (hμ : hasParts μ (partSet [.free, .bbx, .link, .coh, .hbm, .rng, .io, .seqs,
    .pfx, .casc, .ops, .attn, .cdc, .tier, .wt, .ftl, .sch, .sec]) = true) : ∀ (y0 : Nat) {s : State} , Touches μ s₀ s
    → Touches μ s₀ (drivePrefetch id y0 s) := by
  intro y0
  induction y0 with
  | zero =>
    intro s _
    unfold drivePrefetch
    repeat' (first
      | with_reducible assumption | with_reducible intro _ | ((with_reducible refine hasParts_trans hμ ?_); rfl)
      | with_reducible apply Touches.ite | with_reducible apply Touches.ite_snd | with_reducible apply Touches.modAttn
      | with_reducible apply modPrefetch_touches | with_reducible apply prefetchOne_touches
      | with_reducible apply already_touches | with_reducible apply beginWork_touches
      | with_reducible apply finishOp_touches | with_reducible apply refineOp_touches
      | with_reducible apply dropImages_touches
      | with_reducible apply Touches.ofFate_notMoved (by with_reducible assumption)
      | with_reducible apply Touches.ofFate_moving (by with_reducible assumption)
      | with_reducible apply Touches.ofFate_moved (by with_reducible assumption)
      | with_reducible apply Touches.ofFate_wait (by with_reducible assumption)
      | with_reducible apply Touches.of_snd (by with_reducible assumption) | split | dsimp only)
  | succ fuel ih =>
    intro s _
    unfold drivePrefetch
    repeat' (first
      | with_reducible assumption | with_reducible intro _ | ((with_reducible refine hasParts_trans hμ ?_); rfl)
      | with_reducible apply Touches.ite | with_reducible apply Touches.ite_snd | with_reducible apply Touches.modAttn
      | with_reducible apply modPrefetch_touches | with_reducible apply prefetchOne_touches
      | with_reducible apply already_touches | with_reducible apply beginWork_touches
      | with_reducible apply finishOp_touches | with_reducible apply refineOp_touches
      | with_reducible apply dropImages_touches
      | with_reducible apply Touches.ofFate_notMoved (by with_reducible assumption)
      | with_reducible apply Touches.ofFate_moving (by with_reducible assumption)
      | with_reducible apply Touches.ofFate_moved (by with_reducible assumption)
      | with_reducible apply Touches.ofFate_wait (by with_reducible assumption) | with_reducible apply ih
      | with_reducible apply Touches.of_snd (by with_reducible assumption) | split | dsimp only)

theorem dropLostFetches_touches (id : Nat) (hμ : hasParts μ (partSet [.ops]) = true) (hs : Touches μ s₀ s) :
    Touches μ s₀ (dropLostFetches id s) := by
  unfold dropLostFetches
  repeat' (first
    | with_reducible assumption | with_reducible intro _ | ((with_reducible refine hasParts_trans hμ ?_); rfl)
    | with_reducible apply modPrefetch_touches)

theorem runPrefetch_touches (id : Nat) (hμ : hasParts μ (partSet [.free, .bbx, .link, .coh, .hbm, .rng, .io, .seqs,
    .pfx, .casc, .ops, .attn, .cdc, .tier, .wt, .ftl, .sch, .sec]) = true) (hs : Touches μ s₀ s) :
    Touches μ s₀ (runPrefetch id s) := by
  unfold runPrefetch
  repeat' (first
    | with_reducible assumption | ((with_reducible refine hasParts_trans hμ ?_); rfl)
    | with_reducible apply dropLostFetches_touches | with_reducible apply drivePrefetch_touches | split | dsimp only)

theorem prefetchMoved_touches (id mv lay : Nat) (ok : Bool) (hμ : hasParts μ (partSet [.free, .bbx, .link, .coh, .hbm,
    .rng, .io, .seqs, .pfx, .casc, .ops, .attn, .cdc, .tier, .wt, .ftl, .sch, .sec]) = true) (hs : Touches μ s₀ s) :
    Touches μ s₀ (prefetchMoved id mv lay ok s) := by
  unfold prefetchMoved
  repeat' (first
    | with_reducible assumption | with_reducible intro _ | ((with_reducible refine hasParts_trans hμ ?_); rfl)
    | with_reducible apply Touches.modAttn | with_reducible apply Touches.when
    | with_reducible apply modPrefetch_touches | with_reducible apply runPrefetch_touches | split | dsimp only)

theorem kvPrefetch_touches (ring : Nat) (e : Entry) (hμ : hasParts μ (partSet [.free, .bbx, .link, .coh, .hbm, .rng,
    .io, .seqs, .pfx, .casc, .ops, .attn, .cdc, .tier, .wt, .ftl, .sch, .sec]) = true) (hs : Touches μ s₀ s) :
    Touches μ s₀ (kvPrefetch ring e s) := by
  unfold kvPrefetch
  repeat' (first
    | with_reducible assumption | with_reducible intro _ | ((with_reducible refine hasParts_trans hμ ?_); rfl)
    | with_reducible apply endNow_touches | with_reducible apply beginOp_touches
    | with_reducible apply runPrefetch_touches | with_reducible apply noteWork_touches
    | with_reducible apply Touches.of_snd (by with_reducible assumption) | split | dsimp only)

theorem execKvPrefetch_touches {t : State} (ring : Nat) (hμ : hasParts μ (partSet [.free, .bbx, .link, .coh, .hbm,
    .rng, .io, .seqs, .pfx, .casc, .ops, .attn, .cdc, .tier, .wt, .ftl, .sch, .sec]) = true) (he : execKvPrefetch ring
    s = .next t) (hs : Touches μ s₀ s) :
    Touches μ s₀ t := by
  unfold execKvPrefetch at he
  cases he
  repeat' (first
    | with_reducible assumption | with_reducible intro _ | ((with_reducible refine hasParts_trans hμ ?_); rfl)
    | with_reducible apply startOp_touches | with_reducible apply kvPrefetch_touches)

theorem settleStream_touches (id : Nat) (hμ : hasParts μ (partSet [.link, .hbm, .rng, .io, .seqs, .casc, .ops, .cdc,
    .tier, .wt, .ftl, .sch, .sec]) = true) (hs : Touches μ s₀ s) :
    Touches μ s₀ (settleStream id s) := by
  unfold settleStream
  repeat' (first
    | with_reducible assumption | ((with_reducible refine hasParts_trans hμ ?_); rfl)
    | with_reducible apply Touches.ite | with_reducible apply finishOp_touches
    | with_reducible apply refineOp_touches | split)

theorem gatherStream_touches (id obj first : Nat) (hμ : hasParts μ (partSet [.hbm, .ops]) = true) : ∀ (y0 : List Nat)
    {s : State} , Touches μ s₀ s → Touches μ s₀ (gatherStream id obj first y0 s) := by
  intro y0
  induction y0 with
  | nil =>
    intro s _
    unfold gatherStream
    repeat' (first
      | with_reducible assumption | with_reducible intro _ | ((with_reducible refine hasParts_trans hμ ?_); rfl)
      | with_reducible apply Touches.ite | with_reducible apply stage_touches | split
      | dsimp only)
  | cons c rest ih =>
    intro s _
    unfold gatherStream
    repeat' (first
      | with_reducible assumption | with_reducible intro _ | ((with_reducible refine hasParts_trans hμ ?_); rfl)
      | with_reducible apply Touches.ite | with_reducible apply stage_touches | with_reducible apply ih | split
      | dsimp only)

theorem driveStream_touches (id : Nat) (hμ : hasParts μ (partSet [.link, .hbm, .rng, .io, .seqs, .casc, .ops, .cdc,
    .tier, .wt, .ftl, .sch, .sec]) = true) (hs : Touches μ s₀ s) :
    Touches μ s₀ (driveStream id s) := by
  unfold driveStream
  repeat' (first
    | with_reducible assumption | with_reducible intro _ | ((with_reducible refine hasParts_trans hμ ?_); rfl)
    | with_reducible apply settleStream_touches | with_reducible apply gatherStream_touches | split)

theorem streamTile_touches (id : Nat) (o : Op) (obj first n : Nat) (t : TileSt) (hμ : hasParts μ (partSet [.link,
    .hbm, .io, .ops, .tier, .sch, .sec]) = true) (hs : Touches μ s₀ s) :
    Touches μ s₀ (streamTile id o obj first n t s) := by
  unfold streamTile
  repeat' (first
    | with_reducible assumption | with_reducible intro _ | ((with_reducible refine hasParts_trans hμ ?_); rfl)
    | with_reducible apply Touches.ite | with_reducible apply modTileSts_touches
    | with_reducible apply unstage_touches | with_reducible apply access_touches
    | with_reducible apply makeRoom_touches | with_reducible apply sendSegs_touches
    | with_reducible apply beginWork_touches | split | dsimp only)

theorem wtStream_touches (ring : Nat) (e : Entry) (hμ : hasParts μ (partSet [.link, .hbm, .rng, .io, .seqs, .casc,
    .ops, .cdc, .tier, .wt, .ftl, .sch, .sec]) = true) (hs : Touches μ s₀ s) :
    Touches μ s₀ (wtStream ring e s) := by
  unfold wtStream
  repeat' (first
    | with_reducible assumption | ((with_reducible refine hasParts_trans hμ ?_); rfl)
    | with_reducible apply Touches.ite | with_reducible apply Touches.ite_snd | with_reducible apply endNow_touches
    | with_reducible apply beginOp_touches | with_reducible apply driveStream_touches
    | with_reducible apply noteWork_touches | with_reducible apply Touches.of_snd (by with_reducible assumption)
    | split | dsimp only)

theorem execWtStream_touches {t : State} (ring : Nat) (hμ : hasParts μ (partSet [.link, .hbm, .rng, .io, .seqs, .casc,
    .ops, .cdc, .tier, .wt, .ftl, .sch, .sec]) = true) (he : execWtStream ring s = .next t) (hs : Touches μ s₀ s) :
    Touches μ s₀ t := by
  unfold execWtStream at he
  cases he
  repeat' (first
    | with_reducible assumption | with_reducible intro _ | ((with_reducible refine hasParts_trans hμ ?_); rfl)
    | with_reducible apply startOp_touches | with_reducible apply wtStream_touches)

theorem settleTiles_touches (id : Nat) (hμ : hasParts μ (partSet [.free, .link, .hbm, .rng, .io, .seqs, .casc, .ops,
    .attn, .cdc, .tier, .wt, .ftl, .sch, .sec]) = true) (hs : Touches μ s₀ s) :
    Touches μ s₀ (settleTiles id s) := by
  unfold settleTiles
  repeat' (first
    | with_reducible assumption | ((with_reducible refine hasParts_trans hμ ?_); rfl)
    | with_reducible apply driveStream_touches | with_reducible apply driveFetch_touches)

theorem execTileSend_touches {t : State} (op : Nat) (hμ : hasParts μ (partSet [.free, .link, .hbm, .rng, .io, .seqs,
    .casc, .ops, .attn, .cdc, .tier, .wt, .ftl, .sch, .sec]) = true) (he : execTileSend op s = .next t) (hs : Touches
    μ s₀ s) :
    Touches μ s₀ t := by
  unfold execTileSend at he
  cases he
  repeat' (first
    | with_reducible assumption | ((with_reducible refine hasParts_trans hμ ?_); rfl)
    | with_reducible apply settleTiles_touches | with_reducible apply fetchTile_touches
    | with_reducible apply streamTile_touches | split)

theorem loseTile_touches (t : TileMsg) (hμ : hasParts μ (partSet [.ops]) = true) (hs : Touches μ s₀ s) :
    Touches μ s₀ (loseTile t s) := by
  unfold loseTile
  repeat' (first
    | with_reducible assumption | with_reducible intro _ | ((with_reducible refine hasParts_trans hμ ?_); rfl)
    | with_reducible apply Touches.ite | with_reducible apply modOp_touches | split | dsimp only)

theorem ackTile_touches (t : TileMsg) (hμ : hasParts μ (partSet [.ops, .attn]) = true) (hs : Touches μ s₀ s) :
    Touches μ s₀ (ackTile t s) := by
  unfold ackTile
  repeat' (first
    | with_reducible assumption | with_reducible intro _ | ((with_reducible refine hasParts_trans hμ ?_); rfl)
    | with_reducible apply Touches.ite | with_reducible apply Touches.modAttn
    | with_reducible apply modTileSts_touches | split | dsimp only)

theorem tileResolved_touches (tag : Nat) (ok : Bool) (hμ : hasParts μ (partSet [.free, .link, .hbm, .rng, .io, .seqs,
    .casc, .ops, .attn, .cdc, .tier, .wt, .ftl, .sch, .sec]) = true) (hs : Touches μ s₀ s) :
    Touches μ s₀ (tileResolved tag ok s) := by
  unfold tileResolved
  repeat' (first
    | with_reducible assumption | with_reducible intro _ | ((with_reducible refine hasParts_trans hμ ?_); rfl)
    | with_reducible apply Touches.ite | with_reducible apply Touches.modIo
    | with_reducible apply settleTiles_touches | with_reducible apply ackTile_touches
    | with_reducible apply loseTile_touches | split | dsimp only)

theorem execTileAckTimeout_touches {t : State} (tag : Nat) (hμ : hasParts μ (partSet [.free, .link, .hbm, .rng, .io,
    .seqs, .casc, .ops, .attn, .cdc, .tier, .wt, .ftl, .sch, .sec]) = true) (he : execTileAckTimeout tag s = .next t)
    (hs : Touches μ s₀ s) :
    Touches μ s₀ t := by
  unfold execTileAckTimeout at he
  cases he
  repeat' (first
    | with_reducible assumption | with_reducible intro _ | ((with_reducible refine hasParts_trans hμ ?_); rfl)
    | with_reducible apply Touches.ite | with_reducible apply Touches.modIo | with_reducible apply Touches.modAttn
    | with_reducible apply tileResolved_touches | with_reducible apply noteLast_touches
    | with_reducible apply sendVia_touches | split | dsimp only)

end Sys2Proof.Machine
end

