-- ==== Sys2Proof/Laws/DriveTouches.lean ====
section
/-! SUPPORT. Which parts of State the operations of Machine/Drive.lean may touch: one lemma per operation. -/

namespace Sys2Proof.Machine

open Sys2Proof

variable {μ : Nat} {s₀ s : State}

theorem driveOp_touches (id : Nat) (hμ : hasParts μ (partSet [.free, .bbx, .link, .coh, .hbm, .rng, .io, .seqs, .pfx,
    .casc, .ops, .attn, .cdc, .tier, .wt, .ftl, .sch, .sec]) = true) (hs : Touches μ s₀ s) :
    Touches μ s₀ (driveOp id s) := by
  unfold driveOp
  repeat' (first
    | with_reducible assumption | ((with_reducible refine hasParts_trans hμ ?_); rfl)
    | with_reducible apply driveAppend_touches | with_reducible apply failReads_touches
    | with_reducible apply driveStep_touches | with_reducible apply driveFetch_touches
    | with_reducible apply driveStream_touches | with_reducible apply runPrefetch_touches
    | with_reducible apply runMigrate_touches | with_reducible apply wtLoad_touches
    | with_reducible apply runLoad_touches | with_reducible apply driveDiscard_touches
    | with_reducible apply drivePublish_touches | with_reducible apply driveLookup_touches
    | with_reducible apply seqOpen_touches | with_reducible apply seqFork_touches
    | with_reducible apply driveTables_touches | split)

theorem driveAll_touches (hμ : hasParts μ (partSet [.free, .bbx, .link, .coh, .hbm, .rng, .io, .seqs, .pfx, .casc,
    .ops, .attn, .cdc, .tier, .wt, .ftl, .sch, .sec]) = true) (hs : Touches μ s₀ s) :
    Touches μ s₀ (driveAll s) := by
  unfold driveAll
  repeat' (first
    | with_reducible assumption | with_reducible intro _ | ((with_reducible refine hasParts_trans hμ ?_); rfl)
    | with_reducible apply Touches.forEach | with_reducible apply driveOp_touches)

theorem abandonUnits_touches (id : Nat) (hμ : hasParts μ (partSet [.attn, .sch]) = true) (hs : Touches μ s₀ s) :
    Touches μ s₀ (abandonUnits id s) := by
  unfold abandonUnits
  repeat' (first
    | with_reducible assumption | with_reducible intro _ | ((with_reducible refine hasParts_trans hμ ?_); rfl)
    | with_reducible apply Touches.forEach | with_reducible apply chargeUnit_touches
    | with_reducible apply freeSlots_touches | with_reducible apply dropUnits_touches | split | dsimp only)

theorem abandonOp_touches (status id : Nat) (hμ : hasParts μ (partSet [.free, .bbx, .link, .coh, .ext, .hbm, .rng,
    .io, .seqs, .pfx, .casc, .ops, .attn, .cdc, .tier, .wt, .ftl, .sch, .sec]) = true) (hs : Touches μ s₀ s) :
    Touches μ s₀ (abandonOp status id s).2 := by
  unfold abandonOp
  repeat' (first
    | with_reducible assumption | with_reducible intro _ | ((with_reducible refine hasParts_trans hμ ?_); rfl)
    | with_reducible apply Touches.ite | with_reducible apply Touches.ite_snd | with_reducible apply Touches.modIo
    | with_reducible apply Touches.modPfx | with_reducible apply Touches.modCasc
    | with_reducible apply Touches.modAttn | with_reducible apply Touches.forEach
    | with_reducible apply dropReads_touches | with_reducible apply unstageAll_touches
    | with_reducible apply modSeq_touches | with_reducible apply cutAppend_touches
    | with_reducible apply abandonUnits_touches | with_reducible apply cutRecords_touches
    | with_reducible apply writeStepResults_touches | with_reducible apply dropImages_touches
    | with_reducible apply already_touches | with_reducible apply wtLoad_touches
    | with_reducible apply dropImage_touches | with_reducible apply letGo_touches
    | with_reducible apply seqFork_touches | with_reducible apply freeRun_touches
    | with_reducible apply closeLookup_touches | with_reducible apply dropBareTables_touches
    | with_reducible apply pumpHome_touches | with_reducible apply modRev_touches
    | with_reducible apply Touches.of_snd (by with_reducible assumption) | split | dsimp only)

theorem leaveOp_touches (id : Nat) (o : Op) (hμ : hasParts μ (partSet [.ops]) = true) (hs : Touches μ s₀ s) :
    Touches μ s₀ (leaveOp id o s) := by
  unfold leaveOp
  repeat' (first
    | with_reducible assumption | with_reducible intro _ | ((with_reducible refine hasParts_trans hμ ?_); rfl)
    | with_reducible apply Touches.ite | with_reducible apply modOp_touches | with_reducible apply delOp_touches
    | split)

theorem resetEntry_touches (status ring idx : Nat) (hμ : hasParts μ (partSet [.free, .bbx, .link, .coh, .ext, .hbm,
    .rng, .io, .seqs, .pfx, .casc, .ops, .attn, .cdc, .tier, .wt, .ftl, .sch, .sec]) = true) (hs : Touches μ s₀ s) :
    Touches μ s₀ (resetEntry status ring idx s) := by
  unfold resetEntry
  repeat' (first
    | with_reducible assumption | ((with_reducible refine hasParts_trans hμ ?_); rfl)
    | with_reducible apply abandonOp_touches | with_reducible apply endEntry_touches
    | with_reducible apply leaveOp_touches | with_reducible apply Touches.of_snd (by with_reducible assumption)
    | split | dsimp only)

theorem dropOperandReads_touches (ring : Nat) (hμ : hasParts μ (partSet [.io]) = true) (hs : Touches μ s₀ s) :
    Touches μ s₀ (dropOperandReads ring s) := by
  unfold dropOperandReads
  repeat' (first
    | with_reducible assumption | with_reducible intro _ | ((with_reducible refine hasParts_trans hμ ?_); rfl)
    | with_reducible apply Touches.modIo | split)

theorem resetRing_touches (status ring : Nat) (hμ : hasParts μ (partSet [.free, .bbx, .link, .coh, .ext, .hbm, .rng,
    .io, .seqs, .pfx, .casc, .ops, .attn, .cdc, .tier, .wt, .ftl, .sch, .sec]) = true) (hs : Touches μ s₀ s) :
    Touches μ s₀ (resetRing status ring s) := by
  unfold resetRing
  repeat' (first
    | with_reducible assumption | with_reducible intro _ | ((with_reducible refine hasParts_trans hμ ?_); rfl)
    | with_reducible apply Touches.forEach | with_reducible apply resetEntry_touches
    | with_reducible apply dropOperandReads_touches)

end Sys2Proof.Machine
end

