-- ==== Sys2Proof/Laws/ResetTouches.lean ====
section
/-! SUPPORT. Which parts of State the operations of Machine/Reset.lean may touch: one lemma per operation. -/

namespace Sys2Proof.Machine

open Sys2Proof

variable {μ : Nat} {s₀ s : State}

theorem withdraw_touches (c w : Nat) (hμ : hasParts μ (partSet [.tly, .spare, .bbx, .sch]) = true) (hs : Touches μ s₀
    s) :
    Touches μ s₀ (withdraw c w s) := by
  unfold withdraw
  repeat' (first
    | with_reducible assumption | with_reducible intro _ | ((with_reducible refine hasParts_trans hμ ?_); rfl)
    | with_reducible apply Touches.ite | with_reducible apply Touches.modSch | with_reducible apply spareSet_touches
    | with_reducible apply emit_touches | split | dsimp only)

theorem retireCore_touches (c slot : Nat) (hμ : hasParts μ (partSet [.tly, .spare, .bbx, .sch]) = true) (hs : Touches
    μ s₀ s) :
    Touches μ s₀ (retireCore c slot s) := by
  unfold retireCore
  repeat' (first
    | with_reducible assumption | ((with_reducible refine hasParts_trans hμ ?_); rfl)
    | with_reducible apply Touches.ite | with_reducible apply spareSet_touches | with_reducible apply emit_touches
    | with_reducible apply withdraw_touches | split | dsimp only)

theorem replaceRow_touches (c row : Nat) (hμ : hasParts μ (partSet [.tly, .spare, .bbx]) = true) (hs : Touches μ s₀ s)
    :
    Touches μ s₀ (replaceRow c row s).2 := by
  unfold replaceRow
  repeat' (first
    | with_reducible assumption | with_reducible intro _ | ((with_reducible refine hasParts_trans hμ ?_); rfl)
    | with_reducible apply Touches.ite | with_reducible apply Touches.ite_snd | with_reducible apply Touches.modSpare
    | with_reducible apply spareSet_touches | with_reducible apply emit_touches | split | dsimp only)

theorem replaceRows_touches (p : Nat) (hμ : hasParts μ (partSet [.tly, .spare, .bbx, .sch]) = true) (hs : Touches μ s₀
    s) :
    Touches μ s₀ (replaceRows p s) := by
  unfold replaceRows
  repeat' (first
    | with_reducible assumption | with_reducible intro _ | ((with_reducible refine hasParts_trans hμ ?_); rfl)
    | with_reducible apply Touches.ite | with_reducible apply Touches.ite_snd | with_reducible apply Touches.modSpare
    | with_reducible apply Touches.forEach | with_reducible apply replaceRow_touches
    | with_reducible apply withdraw_touches | with_reducible apply Touches.of_snd (by with_reducible assumption)
    | split | dsimp only)

theorem bumpCluster_touches (c : Nat) (hμ : hasParts μ (partSet [.spare, .bbx]) = true) (hs : Touches μ s₀ s) :
    Touches μ s₀ (bumpCluster c s) := by
  unfold bumpCluster
  repeat' (first
    | with_reducible assumption | with_reducible intro _ | ((with_reducible refine hasParts_trans hμ ?_); rfl)
    | with_reducible apply Touches.modSpare | with_reducible apply emit_touches)

theorem abandonEncodes_touches (p : Nat) (hμ : hasParts μ (partSet [.hbm, .cdc]) = true) (hs : Touches μ s₀ s) :
    Touches μ s₀ (abandonEncodes p s) := by
  unfold abandonEncodes
  repeat' (first
    | with_reducible assumption | with_reducible intro _ | ((with_reducible refine hasParts_trans hμ ?_); rfl)
    | with_reducible apply Touches.ite | with_reducible apply Touches.modCdc | with_reducible apply Touches.forEach
    | with_reducible apply freeRun?_touches | split | dsimp only)

theorem abandonMoves_touches (p : Nat) (hμ : hasParts μ (partSet [.hbm, .seqs, .cdc, .tier, .wt, .ftl]) = true) (hs :
    Touches μ s₀ s) :
    Touches μ s₀ (abandonMoves p s) := by
  unfold abandonMoves
  repeat' (first
    | with_reducible assumption | with_reducible intro _ | ((with_reducible refine hasParts_trans hμ ?_); rfl)
    | with_reducible apply Touches.forEach | with_reducible apply abandonMove_touches)

theorem resetPartition_touches (p cause cluster : Nat) (hμ : hasParts μ (partSet [.free, .bbx, .link, .coh, .ext,
    .hbm, .rng, .io, .seqs, .pfx, .casc, .ops, .attn, .cdc, .tier, .wt, .ftl, .sch, .sec]) = true) (hs : Touches μ s₀
    s) :
    Touches μ s₀ (resetPartition p cause cluster s) := by
  unfold resetPartition
  repeat' (first
    | with_reducible assumption | with_reducible intro _ | ((with_reducible refine hasParts_trans hμ ?_); rfl)
    | with_reducible apply Touches.ite | with_reducible apply Touches.forEach | with_reducible apply emit_touches
    | with_reducible apply modPart_touches | with_reducible apply resetRing_touches
    | with_reducible apply settleClose_touches | with_reducible apply abandonMoves_touches
    | with_reducible apply abandonEncodes_touches | split | dsimp only)

theorem clusterFault_touches (cluster cause : Nat) (hμ : hasParts μ (partSet [.free, .bbx, .link, .coh, .ext, .hbm,
    .rng, .io, .seqs, .pfx, .casc, .ops, .attn, .cdc, .tier, .wt, .ftl, .sch, .sec]) = true) (hs : Touches μ s₀ s) :
    Touches μ s₀ (clusterFault cluster cause s) := by
  unfold clusterFault
  repeat' (first
    | with_reducible assumption | ((with_reducible refine hasParts_trans hμ ?_); rfl)
    | with_reducible apply resetPartition_touches | split)

theorem execSramUncorrectable_touches {t : State} (cluster : Nat) (site : SramSite) (hμ : hasParts μ (partSet [.free,
    .spare, .bbx, .link, .coh, .ext, .hbm, .rng, .io, .seqs, .pfx, .casc, .ops, .attn, .cdc, .tier, .wt, .ftl, .sch,
    .sec]) = true) (he : execSramUncorrectable cluster site s = .next t) (hs : Touches μ s₀ s) :
    Touches μ s₀ t := by
  unfold execSramUncorrectable at he
  cases he
  repeat' (first
    | with_reducible assumption | with_reducible intro _ | ((with_reducible refine hasParts_trans hμ ?_); rfl)
    | with_reducible apply Touches.ite | with_reducible apply Touches.modSpare | with_reducible apply working_touches
    | with_reducible apply clusterFault_touches | split | dsimp only)

theorem execMicrocodeTrap_touches {t : State} (cluster : Nat) (hμ : hasParts μ (partSet [.free, .bbx, .link, .coh,
    .ext, .hbm, .rng, .io, .seqs, .pfx, .casc, .ops, .attn, .cdc, .tier, .wt, .ftl, .sch, .sec]) = true) (he :
    execMicrocodeTrap cluster s = .next t) (hs : Touches μ s₀ s) :
    Touches μ s₀ t := by
  unfold execMicrocodeTrap at he
  cases he
  repeat' (first
    | with_reducible assumption | with_reducible intro _ | ((with_reducible refine hasParts_trans hμ ?_); rfl)
    | with_reducible apply working_touches | with_reducible apply clusterFault_touches)

theorem execFabricPortProtocolError_touches {t : State} (cluster : Nat) (hμ : hasParts μ (partSet [.free, .bbx, .link,
    .coh, .ext, .hbm, .rng, .io, .seqs, .pfx, .casc, .ops, .attn, .cdc, .tier, .wt, .ftl, .sch, .sec]) = true) (he :
    execFabricPortProtocolError cluster s = .next t) (hs : Touches μ s₀ s) :
    Touches μ s₀ t := by
  unfold execFabricPortProtocolError at he
  cases he
  repeat' (first
    | with_reducible assumption | with_reducible intro _ | ((with_reducible refine hasParts_trans hμ ?_); rfl)
    | with_reducible apply working_touches | with_reducible apply clusterFault_touches)

theorem execCheapPointTimeout_touches {t : State} (cluster : Nat) (hμ : hasParts μ (partSet [.free, .bbx, .link, .coh,
    .ext, .hbm, .rng, .io, .seqs, .pfx, .casc, .ops, .attn, .cdc, .tier, .wt, .ftl, .sch, .sec]) = true) (he :
    execCheapPointTimeout cluster s = .next t) (hs : Touches μ s₀ s) :
    Touches μ s₀ t := by
  unfold execCheapPointTimeout at he
  cases he
  repeat' (first
    | with_reducible assumption | with_reducible intro _ | ((with_reducible refine hasParts_trans hμ ?_); rfl)
    | with_reducible apply working_touches | with_reducible apply clusterFault_touches)

theorem resetByOperator_touches (part : Nat) (hμ : hasParts μ (partSet [.free, .bbx, .link, .coh, .ext, .hbm, .rng,
    .io, .seqs, .pfx, .casc, .ops, .attn, .cdc, .tier, .wt, .ftl, .sch, .sec]) = true) (hs : Touches μ s₀ s) :
    Touches μ s₀ (resetByOperator part s) := by
  unfold resetByOperator
  repeat' (first
    | with_reducible assumption | ((with_reducible refine hasParts_trans hμ ?_); rfl)
    | with_reducible apply Touches.ite | with_reducible apply resetPartition_touches | split)

theorem execPartitionResetWrite_touches {t : State} (path : Path) (part : Nat) (hμ : hasParts μ (partSet [.free, .bbx,
    .link, .coh, .ext, .hbm, .rng, .io, .seqs, .pfx, .casc, .ops, .attn, .cdc, .tier, .wt, .ftl, .sch, .sec]) = true)
    (he : execPartitionResetWrite path part s = .next t) (hs : Touches μ s₀ s) :
    Touches μ s₀ t := by
  unfold execPartitionResetWrite at he
  cases he
  repeat' (first
    | with_reducible assumption | with_reducible intro _ | ((with_reducible refine hasParts_trans hμ ?_); rfl)
    | with_reducible apply regAccess_touches | with_reducible apply asOperator_touches
    | with_reducible apply resetByOperator_touches)

theorem dropSpills_touches (p : Nat) (hμ : hasParts μ (partSet [.link, .hbm, .io, .seqs, .pfx, .casc, .cdc, .tier,
    .wt, .ftl, .sec]) = true) (hs : Touches μ s₀ s) :
    Touches μ s₀ (dropSpills p s) := by
  unfold dropSpills
  repeat' (first
    | with_reducible assumption | with_reducible intro _ | ((with_reducible refine hasParts_trans hμ ?_); rfl)
    | with_reducible apply Touches.forEach | with_reducible apply dropPageAt_touches)

theorem resetScrubbed_touches (p : Nat) (hμ : hasParts μ (partSet [.tly, .spare, .bbx, .link, .hbm, .io, .seqs, .pfx,
    .casc, .core, .cdc, .tier, .wt, .ftl, .sch, .sec]) = true) (hs : Touches μ s₀ s) :
    Touches μ s₀ (resetScrubbed p s) := by
  unfold resetScrubbed
  repeat' (first
    | with_reducible assumption | with_reducible intro _ | ((with_reducible refine hasParts_trans hμ ?_); rfl)
    | with_reducible apply dropSpills_touches | with_reducible apply replaceRows_touches
    | with_reducible apply finishScrub_touches | with_reducible apply modPart_touches | split | dsimp only)

theorem execPartitionResetDone_touches {t : State} (part : Nat) (bad : List (Nat × Nat)) (hμ : hasParts μ (partSet
    [.tly, .spare, .bbx, .sch]) = true) (he : execPartitionResetDone part bad s = .next t) (hs : Touches μ s₀ s) :
    Touches μ s₀ t := by
  unfold execPartitionResetDone at he
  cases he
  repeat' (first
    | with_reducible assumption | with_reducible intro _ | ((with_reducible refine hasParts_trans hμ ?_); rfl)
    | with_reducible apply Touches.ite | with_reducible apply Touches.modSpare | with_reducible apply Touches.forEach
    | with_reducible apply working_touches | with_reducible apply replaceRows_touches
    | with_reducible apply retireCore_touches | with_reducible apply bumpCluster_touches
    | with_reducible apply modPart_touches | split | dsimp only)

end Sys2Proof.Machine
end

