-- ==== Sys2Proof/Laws/SpdmTouches.lean ====
section
/-! SUPPORT. Which parts of State the operations of Machine/Spdm.lean may touch: one lemma per operation. -/

namespace Sys2Proof.Machine

open Sys2Proof

variable {μ : Nat} {s₀ s : State}

theorem takeSpdm_touches (h : Hdr) (f : State → State) (hf : ∀ t, Touches μ s₀ t → Touches μ s₀ (f t)) (hμ : hasParts
    μ (partSet [.link]) = true) (hs : Touches μ s₀ s) :
    Touches μ s₀ (takeSpdm h f s) := by
  unfold takeSpdm
  repeat' (first
    | with_reducible assumption | with_reducible intro _ | ((with_reducible refine hasParts_trans hμ ?_); rfl)
    | with_reducible apply Touches.ite | with_reducible apply Touches.modLink
    | with_reducible apply countNokey_touches | with_reducible apply hf | split | dsimp only)

theorem answerSpdm_touches (h : Hdr) (code : Nat) (body : List Byte) (rsp : Nat) (content : List Byte) (hμ : hasParts
    μ (partSet [.free, .link, .sec]) = true) (hs : Touches μ s₀ s) :
    Touches μ s₀ (answerSpdm h code body rsp content s) := by
  unfold answerSpdm
  repeat' (first
    | with_reducible assumption | exact fun _ => FusesKept.refl _ | with_reducible intro _
    | ((with_reducible refine hasParts_trans hμ ?_); rfl) | with_reducible apply Touches.ite
    | with_reducible apply Touches.modSec | with_reducible apply Touches.draw | with_reducible apply reply_touches
    | split | dsimp only)

theorem spdmError_touches (h : Hdr) (code : Nat) (body : List Byte) (err : Nat) (hμ : hasParts μ (partSet [.free,
    .link, .sec]) = true) (hs : Touches μ s₀ s) :
    Touches μ s₀ (spdmError h code body err s) := by
  unfold spdmError
  repeat' (first
    | with_reducible assumption | ((with_reducible refine hasParts_trans hμ ?_); rfl)
    | with_reducible apply answerSpdm_touches)

theorem execGetVersion_touches {t : State} (h : Hdr) (body : List Byte) (hμ : hasParts μ (partSet [.free, .link,
    .sec]) = true) (he : execGetVersion h body s = .next t) (hs : Touches μ s₀ s) :
    Touches μ s₀ t := by
  unfold execGetVersion at he
  cases he
  repeat' (first
    | with_reducible assumption | with_reducible intro _ | ((with_reducible refine hasParts_trans hμ ?_); rfl)
    | with_reducible apply takeSpdm_touches | with_reducible apply answerSpdm_touches)

theorem execGetCapabilities_touches {t : State} (h : Hdr) (body : List Byte) (hμ : hasParts μ (partSet [.free, .link,
    .sec]) = true) (he : execGetCapabilities h body s = .next t) (hs : Touches μ s₀ s) :
    Touches μ s₀ t := by
  unfold execGetCapabilities at he
  cases he
  repeat' (first
    | with_reducible assumption | with_reducible intro _ | ((with_reducible refine hasParts_trans hμ ?_); rfl)
    | with_reducible apply takeSpdm_touches | with_reducible apply answerSpdm_touches)

theorem execNegotiateAlgorithms_touches {t : State} (h : Hdr) (body : List Byte) (hμ : hasParts μ (partSet [.free,
    .link, .sec]) = true) (he : execNegotiateAlgorithms h body s = .next t) (hs : Touches μ s₀ s) :
    Touches μ s₀ t := by
  unfold execNegotiateAlgorithms at he
  cases he
  repeat' (first
    | with_reducible assumption | with_reducible intro _ | ((with_reducible refine hasParts_trans hμ ?_); rfl)
    | with_reducible apply takeSpdm_touches | with_reducible apply answerSpdm_touches)

theorem execGetDigests_touches {t : State} (h : Hdr) (body : List Byte) (hμ : hasParts μ (partSet [.free, .link,
    .sec]) = true) (he : execGetDigests h body s = .next t) (hs : Touches μ s₀ s) :
    Touches μ s₀ t := by
  unfold execGetDigests at he
  cases he
  repeat' (first
    | with_reducible assumption | with_reducible intro _ | ((with_reducible refine hasParts_trans hμ ?_); rfl)
    | with_reducible apply takeSpdm_touches | with_reducible apply answerSpdm_touches)

theorem execGetCertificate_touches {t : State} (h : Hdr) (body : List Byte) (hμ : hasParts μ (partSet [.free, .link,
    .sec]) = true) (he : execGetCertificate h body s = .next t) (hs : Touches μ s₀ s) :
    Touches μ s₀ t := by
  unfold execGetCertificate at he
  cases he
  repeat' (first
    | with_reducible assumption | with_reducible intro _ | ((with_reducible refine hasParts_trans hμ ?_); rfl)
    | with_reducible apply takeSpdm_touches | with_reducible apply answerSpdm_touches)

theorem execChallenge_touches {t : State} (h : Hdr) (body : List Byte) (hμ : hasParts μ (partSet [.free, .link, .sec])
    = true) (he : execChallenge h body s = .next t) (hs : Touches μ s₀ s) :
    Touches μ s₀ t := by
  unfold execChallenge at he
  cases he
  repeat' (first
    | with_reducible assumption | with_reducible intro _ | ((with_reducible refine hasParts_trans hμ ?_); rfl)
    | with_reducible apply takeSpdm_touches | with_reducible apply answerSpdm_touches)

theorem execGetMeasurements_touches {t : State} (h : Hdr) (body : List Byte) (hμ : hasParts μ (partSet [.free, .link,
    .sec]) = true) (he : execGetMeasurements h body s = .next t) (hs : Touches μ s₀ s) :
    Touches μ s₀ t := by
  unfold execGetMeasurements at he
  cases he
  repeat' (first
    | with_reducible assumption | with_reducible intro _ | ((with_reducible refine hasParts_trans hμ ?_); rfl)
    | with_reducible apply Touches.ite | with_reducible apply takeSpdm_touches
    | with_reducible apply answerSpdm_touches | split | dsimp only)

theorem execKeyExchange_touches {t : State} (h : Hdr) (body : List Byte) (hμ : hasParts μ (partSet [.free, .link,
    .sec]) = true) (he : execKeyExchange h body s = .next t) (hs : Touches μ s₀ s) :
    Touches μ s₀ t := by
  unfold execKeyExchange at he
  cases he
  repeat' (first
    | with_reducible assumption | exact fun _ => FusesKept.refl _ | with_reducible intro _
    | ((with_reducible refine hasParts_trans hμ ?_); rfl) | with_reducible apply Touches.ite
    | with_reducible apply Touches.modSec | with_reducible apply Touches.draw | with_reducible apply takeSpdm_touches
    | with_reducible apply spdmError_touches | with_reducible apply answerSpdm_touches | split | dsimp only)

theorem execFinish_touches {t : State} (h : Hdr) (body : List Byte) (hμ : hasParts μ (partSet [.free, .link, .sec]) =
    true) (he : execFinish h body s = .next t) (hs : Touches μ s₀ s) :
    Touches μ s₀ t := by
  unfold execFinish at he
  cases he
  repeat' (first
    | with_reducible assumption | exact fun _ => FusesKept.refl _ | with_reducible intro _
    | ((with_reducible refine hasParts_trans hμ ?_); rfl) | with_reducible apply Touches.modSec
    | with_reducible apply Touches.draw | with_reducible apply takeSpdm_touches
    | with_reducible apply spdmError_touches | with_reducible apply answerSpdm_touches | split | dsimp only)

theorem execEndSession_touches {t : State} (h : Hdr) (body : List Byte) (hμ : hasParts μ (partSet [.free, .link,
    .sec]) = true) (he : execEndSession h body s = .next t) (hs : Touches μ s₀ s) :
    Touches μ s₀ t := by
  unfold execEndSession at he
  cases he
  repeat' (first
    | with_reducible assumption | exact fun _ => FusesKept.refl _ | with_reducible intro _
    | ((with_reducible refine hasParts_trans hμ ?_); rfl) | with_reducible apply Touches.modSec
    | with_reducible apply takeSpdm_touches | with_reducible apply spdmError_touches
    | with_reducible apply answerSpdm_touches | split)

theorem execSpdmUnsupported_touches {t : State} (h : Hdr) (code : Nat) (body : List Byte) (hμ : hasParts μ (partSet
    [.free, .link, .sec]) = true) (he : execSpdmUnsupported h code body s = .next t) (hs : Touches μ s₀ s) :
    Touches μ s₀ t := by
  unfold execSpdmUnsupported at he
  cases he
  repeat' (first
    | with_reducible assumption | with_reducible intro _ | ((with_reducible refine hasParts_trans hμ ?_); rfl)
    | with_reducible apply takeSpdm_touches | with_reducible apply spdmError_touches)

theorem execSpdm_touches {t : State} (h : Hdr) (code : Nat) (body : List Byte) (hμ : hasParts μ (partSet [.free,
    .link, .sec]) = true) (he : execSpdm h code body s = .next t) (hs : Touches μ s₀ s) :
    Touches μ s₀ t := by
  unfold execSpdm at he
  split at he
  · exact execGetVersion_touches _ _ (hasParts_trans hμ rfl) he hs
  · exact execGetCapabilities_touches _ _ (hasParts_trans hμ rfl) he hs
  · exact execNegotiateAlgorithms_touches _ _ (hasParts_trans hμ rfl) he hs
  · exact execGetDigests_touches _ _ (hasParts_trans hμ rfl) he hs
  · exact execGetCertificate_touches _ _ (hasParts_trans hμ rfl) he hs
  · exact execChallenge_touches _ _ (hasParts_trans hμ rfl) he hs
  · exact execGetMeasurements_touches _ _ (hasParts_trans hμ rfl) he hs
  · exact execKeyExchange_touches _ _ (hasParts_trans hμ rfl) he hs
  · exact execFinish_touches _ _ (hasParts_trans hμ rfl) he hs
  · exact execEndSession_touches _ _ (hasParts_trans hμ rfl) he hs
  · exact execSpdmUnsupported_touches _ _ _ (hasParts_trans hμ rfl) he hs

end Sys2Proof.Machine
end

