-- ==== Sys2Proof/Laws/TenantsTouches.lean ====
section
/-! SUPPORT. Which parts of State the operations of Machine/Tenants.lean may touch: one lemma per operation. -/

namespace Sys2Proof.Machine

open Sys2Proof

variable {μ : Nat} {s₀ s : State}

theorem answerKm_touches (session code seq : Nat) (a : Ans) (counts : List Byte) (hμ : hasParts μ (partSet [.link,
    .sec]) = true) (hs : Touches μ s₀ s) :
    Touches μ s₀ (answerKm session code seq a counts s) := by
  unfold answerKm
  repeat' (first
    | with_reducible assumption | ((with_reducible refine hasParts_trans hμ ?_); rfl)
    | with_reducible apply Touches.ite | with_reducible apply send_touches | split | dsimp only)

theorem takeKm_touches (session : Nat) (msg : List Byte) (hμ : hasParts μ (partSet [.bbx, .sec]) = true) (hs : Touches
    μ s₀ s) :
    Touches μ s₀ (takeKm session msg s) := by
  unfold takeKm
  repeat' (first
    | with_reducible assumption | exact fun _ => FusesKept.refl _ | with_reducible intro _
    | ((with_reducible refine hasParts_trans hμ ?_); rfl) | with_reducible apply Touches.ite
    | with_reducible apply Touches.modSec | with_reducible apply emit_touches | split | dsimp only)

theorem execKmRequestReceive_touches {t : State} (session code flags len kmSeq named : Nat) (rest : List Byte) (hμ :
    hasParts μ (partSet [.bbx, .sec]) = true) (he : execKmRequestReceive session code flags len kmSeq named rest s =
    .next t) (hs : Touches μ s₀ s) :
    Touches μ s₀ t := by
  unfold execKmRequestReceive at he
  cases he
  repeat' (first
    | with_reducible assumption | ((with_reducible refine hasParts_trans hμ ?_); rfl)
    | with_reducible apply takeKm_touches)

theorem kmRun_touches (session code : Nat) (f : KmReq → State → State) (hf : ∀ a0 t, Touches μ s₀ t → Touches μ s₀ (f
    a0 t)) (hμ : hasParts μ (partSet [.sec]) = true) (hs : Touches μ s₀ s) :
    Touches μ s₀ (kmRun session code f s) := by
  unfold kmRun
  repeat' (first
    | with_reducible assumption | exact fun _ => FusesKept.refl _ | with_reducible intro _
    | ((with_reducible refine hasParts_trans hμ ?_); rfl) | with_reducible apply Touches.ite
    | with_reducible apply Touches.modSec | with_reducible apply hf | split)

theorem kmEnd_touches (r : KmReq) (a : Ans) (hμ : hasParts μ (partSet [.link, .sec]) = true) (hs : Touches μ s₀ s) :
    Touches μ s₀ (kmEnd r a s) := by
  unfold kmEnd
  repeat' (first
    | with_reducible assumption | ((with_reducible refine hasParts_trans hμ ?_); rfl)
    | with_reducible apply answerKm_touches)

theorem execKmTenantCreate_touches {t : State} (session : Nat) (hμ : hasParts μ (partSet [.free, .link, .sec]) = true)
    (he : execKmTenantCreate session s = .next t) (hs : Touches μ s₀ s) :
    Touches μ s₀ t := by
  unfold execKmTenantCreate at he
  cases he
  repeat' (first
    | with_reducible assumption | exact fun _ => FusesKept.refl _ | with_reducible intro _
    | ((with_reducible refine hasParts_trans hμ ?_); rfl) | with_reducible apply Touches.ite
    | with_reducible apply Touches.modSec | with_reducible apply Touches.draw | with_reducible apply kmRun_touches
    | with_reducible apply kmEnd_touches | split | dsimp only)

theorem execKmJobOpen_touches {t : State} (session : Nat) (hμ : hasParts μ (partSet [.link, .sec]) = true) (he :
    execKmJobOpen session s = .next t) (hs : Touches μ s₀ s) :
    Touches μ s₀ t := by
  unfold execKmJobOpen at he
  cases he
  repeat' (first
    | with_reducible assumption | exact fun _ => FusesKept.refl _ | with_reducible intro _
    | ((with_reducible refine hasParts_trans hμ ?_); rfl) | with_reducible apply Touches.ite
    | with_reducible apply Touches.modSec | with_reducible apply kmRun_touches | with_reducible apply kmEnd_touches
    | split | dsimp only)

theorem execKmPeerOpen_touches {t : State} (session : Nat) (hμ : hasParts μ (partSet [.link, .sec]) = true) (he :
    execKmPeerOpen session s = .next t) (hs : Touches μ s₀ s) :
    Touches μ s₀ t := by
  unfold execKmPeerOpen at he
  cases he
  repeat' (first
    | with_reducible assumption | exact fun _ => FusesKept.refl _ | with_reducible intro _
    | ((with_reducible refine hasParts_trans hμ ?_); rfl) | with_reducible apply Touches.ite
    | with_reducible apply Touches.modSec | with_reducible apply kmRun_touches | with_reducible apply kmEnd_touches
    | split | dsimp only)

theorem killKeys_touches (ks : List Nat) (hμ : hasParts μ (partSet [.sec]) = true) (hs : Touches μ s₀ s) :
    Touches μ s₀ (killKeys ks s) := by
  unfold killKeys
  repeat' (first
    | with_reducible assumption | exact fun _ => FusesKept.refl _ | with_reducible intro _
    | ((with_reducible refine hasParts_trans hμ ?_); rfl) | with_reducible apply Touches.modSec
    | with_reducible apply Touches.foldl | with_reducible apply Touches.foldl_snd
    | with_reducible apply Touches.foldl_snd3)

theorem stopRing_touches (n : Nat) (hμ : hasParts μ (partSet [.hbm, .rng]) = true) (hs : Touches μ s₀ s) :
    Touches μ s₀ (stopRing n s) := by
  unfold stopRing
  repeat' (first
    | with_reducible assumption | exact fun _ q => RingOk.map _ (fun e => by split <;> rfl) rfl rfl q
    | exact fun _ q => RingOk.filter _ rfl rfl q | exact fun _ q => q | with_reducible intro _
    | ((with_reducible refine hasParts_trans hμ ?_); rfl) | with_reducible apply uncharge_touches
    | with_reducible apply modRing_touches)

theorem abortOne_touches (ring idx : Nat) (hμ : hasParts μ (partSet [.free, .bbx, .link, .coh, .ext, .hbm, .rng, .io,
    .seqs, .pfx, .casc, .ops, .attn, .cdc, .tier, .wt, .ftl, .sch, .sec]) = true) (hs : Touches μ s₀ s) :
    Touches μ s₀ (abortOne ring idx s) := by
  unfold abortOne
  repeat' (first
    | with_reducible assumption | ((with_reducible refine hasParts_trans hμ ?_); rfl)
    | with_reducible apply abortEntry_touches | with_reducible apply leaveOp_touches
    | with_reducible apply abandonOp_touches | with_reducible apply Touches.of_snd (by with_reducible assumption)
    | split)

theorem dropTenantSlice_touches (t p : Nat) (hμ : hasParts μ (partSet [.sch]) = true) (hs : Touches μ s₀ s) :
    Touches μ s₀ (dropTenantSlice t p s) := by
  unfold dropTenantSlice
  repeat' (first
    | with_reducible assumption | with_reducible intro _ | ((with_reducible refine hasParts_trans hμ ?_); rfl)
    | with_reducible apply Touches.ite | with_reducible apply modPart_touches | split)

theorem putRemoval_touches (r : Removal) (hμ : hasParts μ (partSet [.sec]) = true) (hs : Touches μ s₀ s) :
    Touches μ s₀ (putRemoval r s) := by
  unfold putRemoval
  repeat' (first
    | with_reducible assumption | exact fun _ => FusesKept.refl _ | with_reducible intro _
    | ((with_reducible refine hasParts_trans hμ ?_); rfl) | with_reducible apply Touches.ite
    | with_reducible apply Touches.modSec | split)

theorem removalStep2_touches (r : Removal) (hμ : hasParts μ (partSet [.free, .bbx, .link, .coh, .ext, .hbm, .rng, .io,
    .seqs, .pfx, .casc, .ops, .attn, .cdc, .tier, .wt, .ftl, .sch, .sec]) = true) (hs : Touches μ s₀ s) :
    Touches μ s₀ (removalStep2 r s) := by
  unfold removalStep2
  repeat' (first
    | with_reducible assumption | exact fun _ => FusesKept.refl _
    | exact fun _ q => RingOk.map _ (fun e => by split <;> rfl) rfl rfl q
    | exact fun _ q => RingOk.filter _ rfl rfl q | exact fun _ q => q | with_reducible intro _
    | ((with_reducible refine hasParts_trans hμ ?_); rfl) | with_reducible apply Touches.modSec
    | with_reducible apply Touches.forEach | with_reducible apply modRing_touches
    | with_reducible apply abortOne_touches | with_reducible apply dropOperandReads_touches
    | with_reducible apply fresh_touches | with_reducible apply dropTenantSlice_touches
    | with_reducible apply settleClose_touches | with_reducible apply putRemoval_touches
    | with_reducible apply stage_touches | with_reducible apply Touches.of_snd (by with_reducible assumption) | split
    | dsimp only)

theorem beginRemoval_touches (r : Removal) (hμ : hasParts μ (partSet [.free, .bbx, .link, .coh, .ext, .hbm, .rng, .io,
    .seqs, .pfx, .casc, .ops, .attn, .cdc, .tier, .wt, .ftl, .sch, .sec]) = true) (hs : Touches μ s₀ s) :
    Touches μ s₀ (beginRemoval r s) := by
  unfold beginRemoval
  repeat' (first
    | with_reducible assumption | exact fun _ => FusesKept.refl _ | with_reducible intro _
    | ((with_reducible refine hasParts_trans hμ ?_); rfl) | with_reducible apply Touches.ite
    | with_reducible apply Touches.modSec | with_reducible apply Touches.forEach
    | with_reducible apply killKeys_touches | with_reducible apply stopRing_touches
    | with_reducible apply removalStep2_touches | split | dsimp only)

theorem execKmTenantRemove_touches {t : State} (session : Nat) (hμ : hasParts μ (partSet [.free, .bbx, .link, .coh,
    .ext, .hbm, .rng, .io, .seqs, .pfx, .casc, .ops, .attn, .cdc, .tier, .wt, .ftl, .sch, .sec]) = true) (he :
    execKmTenantRemove session s = .next t) (hs : Touches μ s₀ s) :
    Touches μ s₀ t := by
  unfold execKmTenantRemove at he
  cases he
  repeat' (first
    | with_reducible assumption | exact fun _ => FusesKept.refl _ | with_reducible intro _
    | ((with_reducible refine hasParts_trans hμ ?_); rfl) | with_reducible apply Touches.ite
    | with_reducible apply Touches.modSec | with_reducible apply kmRun_touches | with_reducible apply kmEnd_touches
    | with_reducible apply beginRemoval_touches | split | dsimp only)

theorem execKmJobClose_touches {t : State} (session : Nat) (hμ : hasParts μ (partSet [.free, .bbx, .link, .coh, .ext,
    .hbm, .rng, .io, .seqs, .pfx, .casc, .ops, .attn, .cdc, .tier, .wt, .ftl, .sch, .sec]) = true) (he :
    execKmJobClose session s = .next t) (hs : Touches μ s₀ s) :
    Touches μ s₀ t := by
  unfold execKmJobClose at he
  cases he
  repeat' (first
    | with_reducible assumption | with_reducible intro _ | ((with_reducible refine hasParts_trans hμ ?_); rfl)
    | with_reducible apply Touches.ite | with_reducible apply kmRun_touches | with_reducible apply kmEnd_touches
    | with_reducible apply beginRemoval_touches | split | dsimp only)

theorem eraseExtent_touches (e : Nat) (x : Extent) (hμ : hasParts μ (partSet [.free, .bbx, .link, .coh, .ext, .hbm,
    .rng, .io, .seqs, .casc, .ops, .cdc, .tier, .wt, .ftl, .sch, .sec]) = true) (hs : Touches μ s₀ s) :
    Touches μ s₀ (eraseExtent e x s) := by
  unfold eraseExtent
  repeat' (first
    | with_reducible assumption | ((with_reducible refine hasParts_trans hμ ?_); rfl)
    | with_reducible apply freeExtent_touches | with_reducible apply pumpHome_touches
    | with_reducible apply revokePoint_touches | with_reducible apply graceEnd_touches | split)

theorem eraseTenant_touches (t : Nat) (hμ : hasParts μ (partSet [.free, .bbx, .link, .coh, .ext, .hbm, .rng, .io,
    .seqs, .pfx, .casc, .ops, .cdc, .tier, .wt, .ftl, .sch, .sec]) = true) (hs : Touches μ s₀ s) :
    Touches μ s₀ (eraseTenant t s).2 := by
  unfold eraseTenant
  repeat' (first
    | with_reducible assumption | exact fun _ => FusesKept.refl _ | with_reducible intro _
    | ((with_reducible refine hasParts_trans hμ ?_); rfl) | with_reducible apply Touches.modFtl
    | with_reducible apply Touches.modSch | with_reducible apply Touches.modSec
    | with_reducible apply Touches.forEach | with_reducible apply abandonMove_touches
    | with_reducible apply closeSeq_touches | with_reducible apply retireBlock_touches
    | with_reducible apply freeObj_touches | with_reducible apply eraseExtent_touches
    | with_reducible apply Touches.of_snd (by with_reducible assumption)
    | with_reducible apply Touches.of_snd3 (by with_reducible assumption) | split | dsimp only)

theorem dropRemoval_touches (r : Removal) (hμ : hasParts μ (partSet [.sec]) = true) (hs : Touches μ s₀ s) :
    Touches μ s₀ (dropRemoval r s) := by
  unfold dropRemoval
  repeat' (first
    | with_reducible assumption | exact fun _ => FusesKept.refl _ | with_reducible intro _
    | ((with_reducible refine hasParts_trans hμ ?_); rfl) | with_reducible apply Touches.modSec)

theorem finishRemoval_touches (t : Nat) (r : Removal) (hμ : hasParts μ (partSet [.free, .bbx, .link, .coh, .ext, .hbm,
    .rng, .io, .seqs, .pfx, .casc, .ops, .attn, .cdc, .tier, .wt, .ftl, .sch, .sec]) = true) (hs : Touches μ s₀ s) :
    Touches μ s₀ (finishRemoval t r s) := by
  unfold finishRemoval
  repeat' (first
    | with_reducible assumption | exact fun _ => FusesKept.refl _ | with_reducible intro _
    | ((with_reducible refine hasParts_trans hμ ?_); rfl) | with_reducible apply Touches.ite
    | with_reducible apply Touches.ite_snd | with_reducible apply Touches.modSec
    | with_reducible apply eraseTenant_touches | with_reducible apply driveAll_touches
    | with_reducible apply answerKm_touches | with_reducible apply dropRemoval_touches
    | with_reducible apply Touches.of_snd (by with_reducible assumption) | split | dsimp only)

theorem removalScrub_touches (t : Nat) (r : Removal) (hμ : hasParts μ (partSet [.free, .bbx, .link, .coh, .ext, .hbm,
    .rng, .io, .seqs, .pfx, .casc, .ops, .attn, .cdc, .tier, .wt, .ftl, .sch, .sec]) = true) (hs : Touches μ s₀ s) :
    Touches μ s₀ (removalScrub t r s) := by
  unfold removalScrub
  repeat' (first
    | with_reducible assumption | with_reducible intro _ | ((with_reducible refine hasParts_trans hμ ?_); rfl)
    | with_reducible apply Touches.ite | with_reducible apply Touches.modSch | with_reducible apply Touches.forEach
    | with_reducible apply clearSlots_touches | with_reducible apply finishRemoval_touches
    | with_reducible apply beginScrub_touches | with_reducible apply modPart_touches
    | with_reducible apply putRemoval_touches | with_reducible apply stage_touches | split | dsimp only)

theorem execRemoveDrainDone_touches {t : State} (hμ : hasParts μ (partSet [.free, .bbx, .link, .coh, .ext, .hbm, .rng,
    .io, .seqs, .pfx, .casc, .ops, .attn, .cdc, .tier, .wt, .ftl, .sch, .sec]) = true) (he : execRemoveDrainDone s =
    .next t) (hs : Touches μ s₀ s) :
    Touches μ s₀ t := by
  unfold execRemoveDrainDone at he
  cases he
  repeat' (first
    | with_reducible assumption | exact fun _ => FusesKept.refl _ | with_reducible intro _
    | ((with_reducible refine hasParts_trans hμ ?_); rfl) | with_reducible apply Touches.modSec
    | with_reducible apply working_touches | with_reducible apply stage_touches
    | with_reducible apply removalScrub_touches | with_reducible apply answerKm_touches
    | with_reducible apply dropRemoval_touches | split | dsimp only)

theorem resumeRemovals_touches (hμ : hasParts μ (partSet [.free, .bbx, .link, .coh, .ext, .hbm, .rng, .io, .seqs,
    .pfx, .casc, .ops, .attn, .cdc, .tier, .wt, .ftl, .sch, .sec]) = true) (hs : Touches μ s₀ s) :
    Touches μ s₀ (resumeRemovals s) := by
  unfold resumeRemovals
  repeat' (first
    | with_reducible assumption | with_reducible intro _ | ((with_reducible refine hasParts_trans hμ ?_); rfl)
    | with_reducible apply Touches.ite | with_reducible apply Touches.forEach | with_reducible apply stage_touches
    | with_reducible apply removalStep2_touches | split)

theorem removalScrubbed_touches (p t : Nat) (r : Removal) (hμ : hasParts μ (partSet [.free, .bbx, .link, .coh, .ext,
    .hbm, .rng, .io, .seqs, .pfx, .casc, .ops, .attn, .cdc, .tier, .wt, .ftl, .sch, .sec]) = true) (hs : Touches μ s₀
    s) :
    Touches μ s₀ (removalScrubbed p t r s) := by
  unfold removalScrubbed
  repeat' (first
    | with_reducible assumption | ((with_reducible refine hasParts_trans hμ ?_); rfl)
    | with_reducible apply Touches.ite | with_reducible apply finishRemoval_touches
    | with_reducible apply putRemoval_touches | split | dsimp only)

theorem execScrubDone_touches {t : State} (part : Nat) (hμ : hasParts μ (partSet [.free, .tly, .spare, .bbx, .link,
    .coh, .ext, .hbm, .rng, .io, .seqs, .pfx, .casc, .ops, .attn, .core, .cdc, .tier, .wt, .ftl, .sch, .sec]) = true)
    (he : execScrubDone part s = .next t) (hs : Touches μ s₀ s) :
    Touches μ s₀ t := by
  unfold execScrubDone at he
  cases he
  repeat' (first
    | with_reducible assumption | with_reducible intro _ | ((with_reducible refine hasParts_trans hμ ?_); rfl)
    | with_reducible apply Touches.ite | with_reducible apply working_touches
    | with_reducible apply resetScrubbed_touches | with_reducible apply stage_touches
    | with_reducible apply removalScrubbed_touches | with_reducible apply clearSlots_touches
    | with_reducible apply resumeRemovals_touches | with_reducible apply afterScrub_touches
    | with_reducible apply finishScrub_touches | with_reducible apply modPart_touches | split | dsimp only)

end Sys2Proof.Machine
end

