-- ==== Sys2Proof/Laws/BeginTouches.lean ====
section
/-! SUPPORT. Which parts of State the operations of Machine/Begin.lean may touch: one lemma per operation. -/

namespace Sys2Proof.Machine

open Sys2Proof

variable {μ : Nat} {s₀ s : State}

theorem clearVolatile_touches (hμ : hasParts μ (partSet [.pins, .pwr, .thm, .clk, .start, .img, .resp, .tly, .spare,
    .bbx, .link, .coh, .ext, .hbm, .rng, .io, .seqs, .pfx, .casc, .ops, .attn, .core, .cdc, .tier, .wt, .ftl, .sch,
    .sec, .mgmt]) = true) (hs : Touches μ s₀ s) :
    Touches μ s₀ (clearVolatile s) := by
  exact hs.next hμ ⟨rfl, fun _ => rfl, .refl _, fun _ q => absurd q Bool.false_ne_true, fun _ x hx => (nomatch hx), .inr rfl, .inl rfl, .inl rfl, .inl rfl, .inl rfl, .inl rfl, .inl rfl, .inl rfl, .inl rfl, .inl rfl, .inl rfl, .inl rfl, .inl rfl, .inl rfl, .inl rfl, .inl rfl, .inl rfl, .inl rfl, .inl rfl, .inl rfl, .inl rfl, .inl rfl, .inl rfl, .inl rfl, .inl rfl, .inl rfl, .inl rfl, .inl rfl, .inl rfl, .inl rfl⟩

theorem beginStart_touches (cold : Bool) (hμ : hasParts μ (partSet [.pins, .pwr, .thm, .clk, .start, .img, .resp,
    .tly, .spare, .bbx, .link, .coh, .ext, .hbm, .rng, .io, .seqs, .pfx, .casc, .ops, .attn, .core, .cdc, .tier, .wt,
    .ftl, .sch, .sec, .mgmt]) = true) (hs : Touches μ s₀ s) :
    Touches μ s₀ (beginStart cold s) := by
  exact hs.next hμ ⟨rfl, fun _ => rfl, .refl _, fun _ q => absurd q Bool.false_ne_true, fun _ x hx => (nomatch hx), .inr rfl, .inl rfl, .inl rfl, .inl rfl, .inl rfl, .inl rfl, .inl rfl, .inl rfl, .inl rfl, .inl rfl, .inl rfl, .inl rfl, .inl rfl, .inl rfl, .inl rfl, .inl rfl, .inl rfl, .inl rfl, .inl rfl, .inl rfl, .inl rfl, .inl rfl, .inl rfl, .inl rfl, .inl rfl, .inl rfl, .inl rfl, .inl rfl, .inl rfl, .inl rfl⟩

theorem triggerStart_touches (cold : Bool) (hμ : hasParts μ (partSet [.pins, .pwr, .thm, .clk, .start, .img, .resp,
    .tly, .spare, .bbx, .link, .coh, .ext, .hbm, .rng, .io, .seqs, .pfx, .casc, .ops, .attn, .core, .cdc, .tier, .wt,
    .ftl, .sch, .sec, .mgmt]) = true) (hs : Touches μ s₀ s) :
    Touches μ s₀ (triggerStart cold s) := by
  unfold triggerStart
  repeat' (first
    | with_reducible assumption | exact fun _ q => q | exact fun _ q => absurd q Bool.false_ne_true
    | with_reducible intro _ | ((with_reducible refine hasParts_trans hμ ?_); rfl) | with_reducible apply Touches.ite
    | with_reducible apply Touches.modStart | with_reducible apply beginStart_touches | split)

theorem abandonStart_touches (hμ : hasParts μ (partSet [.start]) = true) (hs : Touches μ s₀ s) :
    Touches μ s₀ (abandonStart s) := by
  unfold abandonStart
  repeat' (first
    | with_reducible assumption | exact fun _ q => q | exact fun _ q => absurd q Bool.false_ne_true
    | with_reducible intro _ | ((with_reducible refine hasParts_trans hμ ?_); rfl)
    | with_reducible apply Touches.modStart)

end Sys2Proof.Machine
end

