-- ==== Sys2Proof/Laws/DebugTouches.lean ====
section
/-! SUPPORT. Which parts of State the operations of Machine/Debug.lean may touch: one lemma per operation. -/

namespace Sys2Proof.Machine

open Sys2Proof

variable {μ : Nat} {s₀ s : State}

theorem fuseCmd_touches (path : Path) (key : Nat) (f : State → State) (hf : ∀ t, Touches μ s₀ t → Touches μ s₀ (f t))
    (hs : Touches μ s₀ s) :
    Touches μ s₀ (fuseCmd path key f s) := by
  unfold fuseCmd
  repeat' (first
    | with_reducible assumption | with_reducible apply Touches.ite | with_reducible apply hf | split)

theorem setFuseErr_touches (hμ : hasParts μ (partSet [.sec]) = true) (hs : Touches μ s₀ s) :
    Touches μ s₀ (setFuseErr s) := by
  unfold setFuseErr
  repeat' (first
    | with_reducible assumption | exact fun _ => FusesKept.refl _ | with_reducible intro _
    | ((with_reducible refine hasParts_trans hμ ?_); rfl) | with_reducible apply Touches.modSec)

theorem fuseProgram_touches (slot : Nat) (hμ : hasParts μ (partSet [.sec]) = true) (hs : Touches μ s₀ s) :
    Touches μ s₀ (fuseProgram slot s) := by
  unfold fuseProgram
  split
  · exact setFuseErr_touches (hasParts_trans hμ rfl) hs
  · next np =>
    exact hs.next (n := StPart.sec.bit) (hasParts_trans hμ rfl)
      ⟨rfl, id, FusesKept.lmod _ _ _ (fun p => absurd p np) fun q => q, id, id, .inr rfl, .inr rfl, .inr rfl, .inr rfl, .inr rfl, .inr rfl, .inr rfl, .inr rfl, .inr rfl, .inr rfl, .inr rfl, .inr rfl, .inr rfl, .inr rfl, .inr rfl, .inr rfl, .inr rfl, .inr rfl, .inr rfl, .inr rfl, .inr rfl, .inr rfl, .inr rfl, .inr rfl, .inr rfl, .inr rfl, .inr rfl, .inr rfl, .inl rfl, .inr rfl⟩

theorem fuseRevoke_touches (slot : Nat) (hμ : hasParts μ (partSet [.sec]) = true) (hs : Touches μ s₀ s) :
    Touches μ s₀ (fuseRevoke slot s) := by
  unfold fuseRevoke
  dsimp only
  split
  · exact setFuseErr_touches (hasParts_trans hμ rfl) hs
  · exact Touches.modSec _ (fun x => FusesKept.lmod _ _ _ (fun p => ⟨p, rfl⟩) fun _ => rfl) (hasParts_trans hμ rfl) hs

theorem execFuseProgram_touches {t : State} (path : Path) (key slot : Nat) (hμ : hasParts μ (partSet [.sec]) = true)
    (he : execFuseProgram path key slot s = .next t) (hs : Touches μ s₀ s) :
    Touches μ s₀ t := by
  unfold execFuseProgram at he
  cases he
  repeat' (first
    | with_reducible assumption | with_reducible intro _ | ((with_reducible refine hasParts_trans hμ ?_); rfl)
    | with_reducible apply regAccess_touches | with_reducible apply fuseCmd_touches
    | with_reducible apply fuseProgram_touches)

theorem execFuseRevoke_touches {t : State} (path : Path) (key slot : Nat) (hμ : hasParts μ (partSet [.sec]) = true)
    (he : execFuseRevoke path key slot s = .next t) (hs : Touches μ s₀ s) :
    Touches μ s₀ t := by
  unfold execFuseRevoke at he
  cases he
  repeat' (first
    | with_reducible assumption | with_reducible intro _ | ((with_reducible refine hasParts_trans hμ ?_); rfl)
    | with_reducible apply regAccess_touches | with_reducible apply fuseCmd_touches
    | with_reducible apply fuseRevoke_touches)

theorem openDebug_touches (hμ : hasParts μ (partSet [.bbx, .sec]) = true) (hs : Touches μ s₀ s) :
    Touches μ s₀ (openDebug s) := by
  unfold openDebug
  repeat' (first
    | with_reducible assumption | exact fun _ => FusesKept.refl _ | with_reducible intro _
    | ((with_reducible refine hasParts_trans hμ ?_); rfl) | with_reducible apply Touches.ite
    | with_reducible apply Touches.modSec | with_reducible apply emit_touches | split)

theorem debugHalt_touches (halt : Bool) (hμ : hasParts μ (partSet [.bbx, .attn, .core, .sec]) = true) (hs : Touches μ
    s₀ s) :
    Touches μ s₀ (debugHalt halt s) := by
  unfold debugHalt
  repeat' (first
    | with_reducible assumption | exact fun _ => FusesKept.refl _ | with_reducible intro _
    | ((with_reducible refine hasParts_trans hμ ?_); rfl) | with_reducible apply Touches.ite
    | with_reducible apply Touches.modCore | with_reducible apply Touches.modSec
    | with_reducible apply openDebug_touches | with_reducible apply modUnit_touches | split | dsimp only)

theorem debugStep_touches (hμ : hasParts μ (partSet [.bbx, .core, .sec]) = true) (hs : Touches μ s₀ s) :
    Touches μ s₀ (debugStep s) := by
  unfold debugStep
  repeat' (first
    | with_reducible assumption | ((with_reducible refine hasParts_trans hμ ?_); rfl)
    | with_reducible apply Touches.ite | with_reducible apply useCore_touches
    | with_reducible apply openDebug_touches | split)

theorem coreByte_touches (core off : Nat) (hμ : hasParts μ (partSet [.free, .core]) = true) (hs : Touches μ s₀ s) :
    Touches μ s₀ (coreByte core off s).2 := by
  unfold coreByte
  repeat' (first
    | with_reducible assumption | with_reducible intro _ | ((with_reducible refine hasParts_trans hμ ?_); rfl)
    | with_reducible apply Touches.ite | with_reducible apply Touches.ite_snd | with_reducible apply Touches.modCore
    | with_reducible apply fresh_touches | with_reducible apply Touches.of_snd (by with_reducible assumption) | split
    | dsimp only)

theorem coreWord_touches (core off : Nat) (hμ : hasParts μ (partSet [.free, .core]) = true) (hs : Touches μ s₀ s) :
    Touches μ s₀ (coreWord core off s).2 := by
  unfold coreWord
  repeat' (first
    | with_reducible assumption | ((with_reducible refine hasParts_trans hμ ?_); rfl)
    | with_reducible apply coreByte_touches | with_reducible apply Touches.of_snd (by with_reducible assumption))

theorem putCore_touches (core off : Nat) (bs : List Byte) (hμ : hasParts μ (partSet [.core]) = true) (hs : Touches μ
    s₀ s) :
    Touches μ s₀ (putCore core off bs s) := by
  unfold putCore
  repeat' (first
    | with_reducible assumption | with_reducible intro _ | ((with_reducible refine hasParts_trans hμ ?_); rfl)
    | with_reducible apply Touches.modCore | with_reducible apply Touches.foldl
    | with_reducible apply Touches.foldl_snd | with_reducible apply Touches.foldl_snd3)

theorem dbgAdvance_touches (hμ : hasParts μ (partSet [.sec]) = true) (hs : Touches μ s₀ s) :
    Touches μ s₀ (dbgAdvance s) := by
  unfold dbgAdvance
  repeat' (first
    | with_reducible assumption | exact fun _ => FusesKept.refl _ | with_reducible intro _
    | ((with_reducible refine hasParts_trans hμ ?_); rfl) | with_reducible apply Touches.modSec)

theorem debugRead_touches (hμ : hasParts μ (partSet [.free, .bbx, .core, .sec]) = true) (hs : Touches μ s₀ s) :
    Touches μ s₀ (debugRead s).2 := by
  unfold debugRead
  repeat' (first
    | with_reducible assumption | ((with_reducible refine hasParts_trans hμ ?_); rfl)
    | with_reducible apply Touches.ite | with_reducible apply Touches.ite_snd
    | with_reducible apply openDebug_touches | with_reducible apply coreWord_touches
    | with_reducible apply dbgAdvance_touches | with_reducible apply Touches.of_snd (by with_reducible assumption)
    | split | dsimp only)

theorem debugWrite_touches (v : Nat) (hμ : hasParts μ (partSet [.bbx, .core, .sec]) = true) (hs : Touches μ s₀ s) :
    Touches μ s₀ (debugWrite v s) := by
  unfold debugWrite
  repeat' (first
    | with_reducible assumption | ((with_reducible refine hasParts_trans hμ ?_); rfl)
    | with_reducible apply Touches.ite | with_reducible apply openDebug_touches
    | with_reducible apply dbgAdvance_touches | with_reducible apply putCore_touches | split | dsimp only)

theorem debugData_touches (write : Option Nat) (hμ : hasParts μ (partSet [.free, .bbx, .link, .core, .sec, .mgmt]) =
    true) (hs : Touches μ s₀ s) :
    Touches μ s₀ (debugData write s) := by
  unfold debugData
  repeat' (first
    | with_reducible assumption | with_reducible intro _ | ((with_reducible refine hasParts_trans hμ ?_); rfl)
    | with_reducible apply Touches.modMgmt | with_reducible apply debugWrite_touches
    | with_reducible apply debugRead_touches | with_reducible apply reply_touches
    | with_reducible apply Touches.of_snd (by with_reducible assumption) | split | dsimp only)

theorem execDebugHalt_touches {t : State} (path : Path) (halt : Bool) (hμ : hasParts μ (partSet [.bbx, .attn, .core,
    .sec]) = true) (he : execDebugHalt path halt s = .next t) (hs : Touches μ s₀ s) :
    Touches μ s₀ t := by
  unfold execDebugHalt at he
  cases he
  repeat' (first
    | with_reducible assumption | with_reducible intro _ | ((with_reducible refine hasParts_trans hμ ?_); rfl)
    | with_reducible apply regAccess_touches | with_reducible apply asOperator_touches
    | with_reducible apply debugHalt_touches)

theorem execDebugStep_touches {t : State} (path : Path) (hμ : hasParts μ (partSet [.bbx, .core, .sec]) = true) (he :
    execDebugStep path s = .next t) (hs : Touches μ s₀ s) :
    Touches μ s₀ t := by
  unfold execDebugStep at he
  cases he
  repeat' (first
    | with_reducible assumption | with_reducible intro _ | ((with_reducible refine hasParts_trans hμ ?_); rfl)
    | with_reducible apply regAccess_touches | with_reducible apply asOperator_touches
    | with_reducible apply debugStep_touches)

theorem execDebugDataAccess_touches {t : State} (path : Path) (write : Option Nat) (hμ : hasParts μ (partSet [.free,
    .bbx, .link, .core, .sec, .mgmt]) = true) (he : execDebugDataAccess path write s = .next t) (hs : Touches μ s₀ s)
    :
    Touches μ s₀ t := by
  unfold execDebugDataAccess at he
  cases he
  repeat' (first
    | with_reducible assumption | with_reducible intro _ | ((with_reducible refine hasParts_trans hμ ?_); rfl)
    | with_reducible apply regAccess_touches | with_reducible apply asOperator_touches
    | with_reducible apply debugData_touches)

end Sys2Proof.Machine
end

