-- ==== Sys2Proof/Laws/RebuildTouches.lean ====
section
/-! SUPPORT. Which parts of State the operations of Machine/Rebuild.lean may touch: one lemma per operation. -/

namespace Sys2Proof.Machine

open Sys2Proof

variable {μ : Nat} {s₀ s : State}

theorem findGhosts_touches (r : Nat) (hμ : hasParts μ (partSet [.ftl]) = true) (hs : Touches μ s₀ s) :
    Touches μ s₀ (findGhosts r s) := by
  unfold findGhosts
  repeat' (first
    | with_reducible assumption | with_reducible intro _ | ((with_reducible refine hasParts_trans hμ ?_); rfl)
    | with_reducible apply Touches.modFtl | with_reducible apply Touches.foldl
    | with_reducible apply Touches.foldl_snd | with_reducible apply Touches.foldl_snd3)

theorem formUnit_touches (r unit : Nat) (hμ : hasParts μ (partSet [.ftl]) = true) (hs : Touches μ s₀ s) :
    Touches μ s₀ (formUnit r unit s) := by
  unfold formUnit
  repeat' (first
    | with_reducible assumption | with_reducible intro _ | ((with_reducible refine hasParts_trans hμ ?_); rfl)
    | with_reducible apply Touches.ite | with_reducible apply Touches.modFtl | with_reducible apply Touches.when
    | with_reducible apply takeTable_touches | split | dsimp only)

theorem adoptRegion_touches (r : Nat) (hμ : hasParts μ (partSet [.hbm, .ftl]) = true) (hs : Touches μ s₀ s) :
    Touches μ s₀ (adoptRegion r s) := by
  unfold adoptRegion
  repeat' (first
    | with_reducible assumption | with_reducible intro _ | ((with_reducible refine hasParts_trans hμ ?_); rfl)
    | with_reducible apply Touches.ite | with_reducible apply Touches.forEach
    | with_reducible apply findGhosts_touches | with_reducible apply chargeImage_touches
    | with_reducible apply unmapImage_touches | with_reducible apply formUnit_touches | split | dsimp only)

theorem dropOrphans_touches (hμ : hasParts μ (partSet [.hbm, .ftl]) = true) (hs : Touches μ s₀ s) :
    Touches μ s₀ (dropOrphans s) := by
  unfold dropOrphans
  repeat' (first
    | with_reducible assumption | with_reducible intro _ | ((with_reducible refine hasParts_trans hμ ?_); rfl)
    | with_reducible apply Touches.forEach | with_reducible apply unmapImage_touches)

theorem shareImage_touches (id hint prio : Nat) (hμ : hasParts μ (partSet [.hbm, .seqs, .ops, .cdc, .tier, .wt, .ftl])
    = true) (hs : Touches μ s₀ s) :
    Touches μ s₀ (shareImage id hint prio s).2 := by
  unfold shareImage
  repeat' (first
    | with_reducible assumption | ((with_reducible refine hasParts_trans hμ ?_); rfl)
    | with_reducible apply addRef_touches | with_reducible apply makeShared_touches
    | with_reducible apply newRec_touches | with_reducible apply Touches.of_snd (by with_reducible assumption)
    | split | dsimp only)

theorem takeImage_touches (h layer first size id : Nat) (o : OldSeq) (hμ : hasParts μ (partSet [.hbm, .seqs, .ops,
    .cdc, .tier, .wt, .ftl]) = true) (hs : Touches μ s₀ s) :
    Touches μ s₀ (takeImage h layer first size id o s).2 := by
  unfold takeImage
  repeat' (first
    | with_reducible assumption | ((with_reducible refine hasParts_trans hμ ?_); rfl)
    | with_reducible apply Touches.ite | with_reducible apply Touches.ite_snd
    | with_reducible apply shareImage_touches | with_reducible apply Touches.of_snd (by with_reducible assumption)
    | split | dsimp only)

theorem takeRuns_touches (part frames : Nat) (hμ : hasParts μ (partSet [.coh, .hbm]) = true) : ∀ (y0 : Nat) {s :
    State} , Touches μ s₀ s → optTouched2 μ s₀ (takeRuns part frames y0 s) := by
  intro y0
  induction y0 with
  | zero =>
    intro s _
    unfold takeRuns
    repeat' (first
      | with_reducible assumption | with_reducible intro _ | ((with_reducible refine hasParts_trans hμ ?_); rfl)
      | with_reducible apply takeRun_touches | with_reducible exact optTouched2_none
      | with_reducible apply optTouched2_some | with_reducible apply optTouched2_map
      | with_reducible apply optTouched2_bind
      | with_reducible apply Touches.of_optTouched2 (by with_reducible assumption)
      | with_reducible apply Touches.of_optTouched2_fst (by with_reducible assumption))
  | succ fuel ih =>
    intro s _
    unfold takeRuns
    repeat' (first
      | with_reducible assumption | with_reducible intro _ | ((with_reducible refine hasParts_trans hμ ?_); rfl)
      | with_reducible apply takeRun_touches | with_reducible apply ih | with_reducible exact optTouched2_none
      | with_reducible apply optTouched2_some | with_reducible apply optTouched2_map
      | with_reducible apply optTouched2_bind
      | with_reducible apply Touches.of_optTouched2 (by with_reducible assumption)
      | with_reducible apply Touches.of_optTouched2_fst (by with_reducible assumption))

theorem rebuildRange_touches (h : Nat) (q : Seq) (x : Relics) (first n : Nat) (block : Option (Option Nat)) (hμ :
    hasParts μ (partSet [.coh, .hbm, .seqs, .ops, .cdc, .tier, .wt, .ftl]) = true) (hs : Touches μ s₀ s) :
    Touches μ s₀ (rebuildRange h q x first n block s).2.2 := by
  unfold rebuildRange
  repeat' (first
    | with_reducible assumption | with_reducible intro _ | ((with_reducible refine hasParts_trans hμ ?_); rfl)
    | with_reducible apply Touches.ite | with_reducible apply Touches.ite_snd | with_reducible apply Touches.forEach
    | with_reducible apply Touches.foldl | with_reducible apply Touches.foldl_snd
    | with_reducible apply Touches.foldl_snd3 | with_reducible apply addRef_touches
    | with_reducible apply takeRuns_touches | with_reducible apply takeImage_touches
    | with_reducible exact optTouched2_none | with_reducible apply optTouched2_some
    | with_reducible apply optTouched2_foldl | with_reducible apply optTouched2_map
    | with_reducible apply Touches.of_snd (by with_reducible assumption)
    | with_reducible apply Touches.of_optTouched2 (by with_reducible assumption)
    | with_reducible apply Touches.of_optTouched2_fst (by with_reducible assumption) | split | dsimp only)

theorem lostTicket_touches (h layers : Nat) (x : Relics) (r : Nat × Nat) (hμ : hasParts μ (partSet [.seqs]) = true)
    (hs : Touches μ s₀ s) :
    Touches μ s₀ (lostTicket h layers x r s) := by
  unfold lostTicket
  repeat' (first
    | with_reducible assumption | with_reducible intro _ | ((with_reducible refine hasParts_trans hμ ?_); rfl)
    | with_reducible apply Touches.ite | with_reducible apply Touches.ite_snd
    | with_reducible apply issueTicket_touches | with_reducible apply modSeq_touches
    | with_reducible apply Touches.of_snd (by with_reducible assumption) | split | dsimp only)

theorem tableRun_touches (part n : Nat) (hμ : hasParts μ (partSet [.coh, .hbm]) = true) (hs : Touches μ s₀ s) :
    Touches μ s₀ (tableRun part n s).2 := by
  unfold tableRun
  repeat' (first
    | with_reducible assumption | with_reducible intro _ | ((with_reducible refine hasParts_trans hμ ?_); rfl)
    | with_reducible apply takeRun_touches | with_reducible exact optTouched2_none
    | with_reducible apply optTouched2_some | with_reducible apply Touches.getD_snd
    | with_reducible apply optTouched2_map
    | with_reducible apply Touches.of_optTouched2 (by with_reducible assumption)
    | with_reducible apply Touches.of_optTouched2_fst (by with_reducible assumption))

theorem l2Runs_touches (part : Nat) (hμ : hasParts μ (partSet [.coh, .hbm]) = true) : ∀ (y0 : List (Nat × Nat)) {s :
    State} , Touches μ s₀ s → Touches μ s₀ (l2Runs part y0 s).2 := by
  intro y0
  induction y0 with
  | nil =>
    intro s _
    unfold l2Runs
    repeat' (first
      | with_reducible assumption | ((with_reducible refine hasParts_trans hμ ?_); rfl)
      | with_reducible apply tableRun_touches
      | with_reducible apply Touches.of_snd (by with_reducible assumption))
  | cons c rest ih =>
    intro s _
    unfold l2Runs
    repeat' (first
      | with_reducible assumption | ((with_reducible refine hasParts_trans hμ ?_); rfl)
      | with_reducible apply tableRun_touches | with_reducible apply ih
      | with_reducible apply Touches.of_snd (by with_reducible assumption))

theorem rebuildTables_touches (h part layers : Nat) (hμ : hasParts μ (partSet [.coh, .hbm, .seqs]) = true) (hs :
    Touches μ s₀ s) :
    Touches μ s₀ (rebuildTables h part layers s) := by
  unfold rebuildTables
  repeat' (first
    | with_reducible assumption | with_reducible intro _ | ((with_reducible refine hasParts_trans hμ ?_); rfl)
    | with_reducible apply Touches.ite | with_reducible apply Touches.ite_snd | with_reducible apply tableRun_touches
    | with_reducible apply l2Runs_touches | with_reducible apply modSeq_touches
    | with_reducible apply Touches.of_snd (by with_reducible assumption) | split | dsimp only)

theorem attachSeq_touches (h : Nat) (o : OldSeq) (hμ : hasParts μ (partSet [.coh, .hbm, .seqs, .ops, .cdc, .tier, .wt,
    .ftl]) = true) (hs : Touches μ s₀ s) :
    Touches μ s₀ (attachSeq h o s) := by
  unfold attachSeq
  repeat' (first
    | with_reducible assumption | with_reducible intro _ | ((with_reducible refine hasParts_trans hμ ?_); rfl)
    | with_reducible apply Touches.ite | with_reducible apply Touches.ite_snd | with_reducible apply Touches.forEach
    | with_reducible apply Touches.foldl | with_reducible apply Touches.foldl_snd
    | with_reducible apply Touches.foldl_snd3 | with_reducible apply rebuildRange_touches
    | with_reducible apply modSeq_touches | with_reducible apply rebuildTables_touches
    | with_reducible apply sealPage_touches | with_reducible apply lostTicket_touches
    | with_reducible apply issueTicket_touches | with_reducible apply dropImage_touches
    | with_reducible apply Touches.of_snd (by with_reducible assumption)
    | with_reducible apply Touches.of_snd3 (by with_reducible assumption) | split | dsimp only)

theorem attachBlock_touches (b : OldBlock) (hμ : hasParts μ (partSet [.link, .coh, .hbm, .io, .seqs, .pfx, .casc,
    .ops, .cdc, .tier, .wt, .ftl, .sec]) = true) (hs : Touches μ s₀ s) :
    Touches μ s₀ (attachBlock b s) := by
  unfold attachBlock
  repeat' (first
    | with_reducible assumption | with_reducible intro _ | ((with_reducible refine hasParts_trans hμ ?_); rfl)
    | with_reducible apply Touches.ite | with_reducible apply Touches.ite_snd | with_reducible apply Touches.modPfx
    | with_reducible apply Touches.foldl | with_reducible apply Touches.foldl_snd
    | with_reducible apply Touches.foldl_snd3 | with_reducible apply takeRun_touches
    | with_reducible apply shareImage_touches | with_reducible apply charge_touches
    | with_reducible apply placeBlock_touches | with_reducible exact optTouched_none
    | with_reducible apply optTouched_some | with_reducible apply optTouched_foldl
    | with_reducible apply Touches.getD | with_reducible apply optTouched_map | with_reducible exact optTouched2_none
    | with_reducible apply optTouched2_some | with_reducible apply optTouched2_foldl
    | with_reducible apply Touches.getD_snd | with_reducible apply optTouched2_map
    | with_reducible apply Touches.of_snd (by with_reducible assumption)
    | with_reducible apply Touches.of_optTouched (by with_reducible assumption)
    | with_reducible apply Touches.of_optTouched2 (by with_reducible assumption)
    | with_reducible apply Touches.of_optTouched2_fst (by with_reducible assumption) | split | dsimp only)

theorem attachObj_touches (h : Nat) (hμ : hasParts μ (partSet [.coh, .hbm, .wt]) = true) (hs : Touches μ s₀ s) :
    Touches μ s₀ (attachObj h s) := by
  unfold attachObj
  repeat' (first
    | with_reducible assumption | with_reducible intro _ | ((with_reducible refine hasParts_trans hμ ?_); rfl)
    | with_reducible apply Touches.ite | with_reducible apply Touches.modWt | with_reducible apply takeRun_touches
    | with_reducible exact optTouched2_none | with_reducible apply optTouched2_some
    | with_reducible apply optTouched2_map
    | with_reducible apply Touches.of_optTouched2 (by with_reducible assumption)
    | with_reducible apply Touches.of_optTouched2_fst (by with_reducible assumption) | split | dsimp only)

theorem execBlockPassDone_touches {t : State} (hμ : hasParts μ (partSet [.free, .start, .bbx, .link, .coh, .hbm, .rng,
    .io, .seqs, .pfx, .casc, .ops, .attn, .cdc, .tier, .wt, .ftl, .sch, .sec]) = true) (he : execBlockPassDone s =
    .next t) (hs : Touches μ s₀ s) :
    Touches μ s₀ t := by
  unfold execBlockPassDone at he
  cases he
  repeat' (first
    | with_reducible assumption | exact fun _ q => q | exact fun _ q => absurd q Bool.false_ne_true
    | with_reducible intro _ | ((with_reducible refine hasParts_trans hμ ?_); rfl) | with_reducible apply Touches.ite
    | with_reducible apply Touches.modStart | with_reducible apply Touches.modSeqs
    | with_reducible apply Touches.modWt | with_reducible apply Touches.modFtl | with_reducible apply Touches.foldl
    | with_reducible apply Touches.foldl_snd | with_reducible apply Touches.foldl_snd3
    | with_reducible apply driveAll_touches | with_reducible apply wantRegions_touches | split | dsimp only)

theorem regionDone_touches (r : Nat) (hμ : hasParts μ (partSet [.free, .start, .bbx, .link, .coh, .hbm, .rng, .io,
    .seqs, .pfx, .casc, .ops, .attn, .cdc, .tier, .wt, .ftl, .sch, .sec]) = true) (hs : Touches μ s₀ s) :
    Touches μ s₀ (regionDone r s) := by
  unfold regionDone
  repeat' (first
    | with_reducible assumption | exact fun _ q => q | exact fun _ q => absurd q Bool.false_ne_true
    | with_reducible intro _ | ((with_reducible refine hasParts_trans hμ ?_); rfl) | with_reducible apply Touches.ite
    | with_reducible apply Touches.modStart | with_reducible apply Touches.modFtl
    | with_reducible apply Touches.forEach | with_reducible apply adoptRegion_touches
    | with_reducible apply attachBlock_touches | with_reducible apply attachSeq_touches
    | with_reducible apply attachObj_touches | with_reducible apply driveAll_touches
    | with_reducible apply dropOrphans_touches | split | dsimp only)

theorem execRegionScanDone_touches {t : State} (hμ : hasParts μ (partSet [.free, .start, .bbx, .link, .coh, .hbm,
    .rng, .io, .seqs, .pfx, .casc, .ops, .attn, .cdc, .tier, .wt, .ftl, .sch, .sec]) = true) (he : execRegionScanDone
    s = .next t) (hs : Touches μ s₀ s) :
    Touches μ s₀ t := by
  unfold execRegionScanDone at he
  cases he
  repeat' (first
    | with_reducible assumption | ((with_reducible refine hasParts_trans hμ ?_); rfl)
    | with_reducible apply Touches.ite | with_reducible apply regionDone_touches | split)

theorem execOndemandScanDone_touches {t : State} (hμ : hasParts μ (partSet [.free, .start, .bbx, .link, .coh, .hbm,
    .rng, .io, .seqs, .pfx, .casc, .ops, .attn, .cdc, .tier, .wt, .ftl, .sch, .sec]) = true) (he :
    execOndemandScanDone s = .next t) (hs : Touches μ s₀ s) :
    Touches μ s₀ t := by
  unfold execOndemandScanDone at he
  cases he
  repeat' (first
    | with_reducible assumption | ((with_reducible refine hasParts_trans hμ ?_); rfl)
    | with_reducible apply Touches.ite | with_reducible apply regionDone_touches | split)

end Sys2Proof.Machine
end

