-- ==== Sys2Proof/Laws/LinkTouches.lean ====
section
/-! SUPPORT. Which parts of State the operations of Machine/Link.lean may touch: one lemma per operation. -/

namespace Sys2Proof.Machine

open Sys2Proof

variable {μ : Nat} {s₀ s : State}

/-- The state a `FlitIn` carries was touched in the parts `μ` only. -/
def flitInTouched (μ : Nat) (s₀ : State) : FlitIn → Prop
  | .data _ s => Touches μ s₀ s
  | .authFail => True
  | .replay => True
  | .nokey => True
  | .dropped => True

theorem flitInTouched_data (x : List Byte) (hs : Touches μ s₀ s) : flitInTouched μ s₀ (.data x s) := hs

theorem Touches.ofFlitIn_data {r : FlitIn} {x : List Byte} {t : State} (e : r = .data x t) (h : flitInTouched μ s₀ r) : Touches μ s₀ t := by
  rw [e] at h
  exact h

theorem flitInTouched_authFail : flitInTouched μ s₀ (.authFail) := trivial

theorem flitInTouched_replay : flitInTouched μ s₀ (.replay) := trivial

theorem flitInTouched_nokey : flitInTouched μ s₀ (.nokey) := trivial

theorem flitInTouched_dropped : flitInTouched μ s₀ (.dropped) := trivial


theorem setPortWord_touches (n lo w v : Nat) (hμ : hasParts μ (partSet [.tly, .spare, .bbx]) = true) (hs : Touches μ
    s₀ s) :
    Touches μ s₀ (setPortWord n lo w v s) := by
  unfold setPortWord
  repeat' (first
    | with_reducible assumption | ((with_reducible refine hasParts_trans hμ ?_); rfl)
    | with_reducible apply spareSet_touches)

theorem pushFront_touches (port input : Nat) (f : List Byte) (hμ : hasParts μ (partSet [.link]) = true) (hs : Touches
    μ s₀ s) :
    Touches μ s₀ (pushFront port input f s) := by
  unfold pushFront
  repeat' (first
    | with_reducible assumption | with_reducible intro _ | ((with_reducible refine hasParts_trans hμ ?_); rfl)
    | with_reducible apply modPort_touches)

theorem takeDetour_touches (f : List Byte) (hμ : hasParts μ (partSet [.link]) = true) (hs : Touches μ s₀ s) :
    Touches μ s₀ (takeDetour f s) := by
  unfold takeDetour
  repeat' (first
    | with_reducible assumption | with_reducible intro _ | ((with_reducible refine hasParts_trans hμ ?_); rfl)
    | with_reducible apply Touches.ite | with_reducible apply Touches.modLink | split | dsimp only)

theorem moveFlit_touches (torus : Bool) (f : List Byte) (hμ : hasParts μ (partSet [.link]) = true) (hs : Touches μ s₀
    s) :
    Touches μ s₀ (moveFlit torus f s) := by
  unfold moveFlit
  repeat' (first
    | with_reducible assumption | with_reducible intro _ | ((with_reducible refine hasParts_trans hμ ?_); rfl)
    | with_reducible apply Touches.ite | with_reducible apply Touches.when | with_reducible apply takeDetour_touches
    | with_reducible apply keepChoice_touches | with_reducible apply pushFront_touches | split | dsimp only)

theorem reroute_touches (n : Nat) (hμ : hasParts μ (partSet [.link]) = true) (hs : Touches μ s₀ s) :
    Touches μ s₀ (reroute n s) := by
  unfold reroute
  repeat' (first
    | with_reducible assumption | with_reducible intro _ | ((with_reducible refine hasParts_trans hμ ?_); rfl)
    | with_reducible apply Touches.modLink | with_reducible apply Touches.forEach
    | with_reducible apply modPort_touches | with_reducible apply moveFlit_touches)

theorem execLinkUp_touches {t : State} (port : Nat) (peer : Node) (hμ : hasParts μ (partSet [.link]) = true) (he :
    execLinkUp port peer s = .next t) (hs : Touches μ s₀ s) :
    Touches μ s₀ t := by
  unfold execLinkUp at he
  cases he
  repeat' (first
    | with_reducible assumption | with_reducible intro _ | ((with_reducible refine hasParts_trans hμ ?_); rfl)
    | with_reducible apply Touches.ite | with_reducible apply modPort_touches | split | dsimp only)

theorem execPortDown_touches {t : State} (port : Nat) (hμ : hasParts μ (partSet [.link]) = true) (he : execPortDown
    port s = .next t) (hs : Touches μ s₀ s) :
    Touches μ s₀ t := by
  unfold execPortDown at he
  cases he
  repeat' (first
    | with_reducible assumption | with_reducible intro _ | ((with_reducible refine hasParts_trans hμ ?_); rfl)
    | with_reducible apply Touches.ite | with_reducible apply reroute_touches | with_reducible apply modPort_touches
    | split)

theorem failPort_touches (n dir : Nat) (hμ : hasParts μ (partSet [.tly, .spare, .bbx, .link]) = true) (hs : Touches μ
    s₀ s) :
    Touches μ s₀ (failPort n dir s) := by
  unfold failPort
  repeat' (first
    | with_reducible assumption | with_reducible intro _ | ((with_reducible refine hasParts_trans hμ ?_); rfl)
    | with_reducible apply setPortWord_touches | with_reducible apply modPort_touches
    | with_reducible apply reroute_touches | with_reducible apply emit_touches)

theorem bringBay4_touches (b : Nat) (hμ : hasParts μ (partSet [.tly, .spare, .bbx, .link]) = true) (hs : Touches μ s₀
    s) :
    Touches μ s₀ (bringBay4 b s) := by
  unfold bringBay4
  repeat' (first
    | with_reducible assumption | with_reducible intro _ | ((with_reducible refine hasParts_trans hμ ?_); rfl)
    | with_reducible apply Touches.ite | with_reducible apply Touches.modLink | with_reducible apply emit_touches
    | with_reducible apply spareSet_touches | split | dsimp only)

theorem execLaserBayLow_touches {t : State} (bay : Nat) (removed : Bool) (power : Int) (hμ : hasParts μ (partSet
    [.tly, .spare, .bbx, .link]) = true) (he : execLaserBayLow bay removed power s = .next t) (hs : Touches μ s₀ s) :
    Touches μ s₀ t := by
  unfold execLaserBayLow at he
  cases he
  repeat' (first
    | with_reducible assumption | with_reducible intro _ | ((with_reducible refine hasParts_trans hμ ?_); rfl)
    | with_reducible apply Touches.ite | with_reducible apply Touches.modLink | with_reducible apply spareSet_touches
    | with_reducible apply bringBay4_touches | split | dsimp only)

theorem putWire_touches (n : Nat) (f : Frame) (hμ : hasParts μ (partSet [.link]) = true) (hs : Touches μ s₀ s) :
    Touches μ s₀ (putWire n f s) := by
  unfold putWire
  repeat' (first
    | with_reducible assumption | with_reducible intro _ | ((with_reducible refine hasParts_trans hμ ?_); rfl)
    | with_reducible apply Touches.modLink)

theorem sendControl_touches (n : Nat) (hμ : hasParts μ (partSet [.free, .link]) = true) (hs : Touches μ s₀ s) :
    Touches μ s₀ (sendControl n s) := by
  unfold sendControl
  repeat' (first
    | with_reducible assumption | with_reducible intro _ | ((with_reducible refine hasParts_trans hμ ?_); rfl)
    | with_reducible apply freshBytes_touches | with_reducible apply putWire_touches
    | with_reducible apply modPort_touches | with_reducible apply Touches.of_snd (by with_reducible assumption))

theorem execLaneMarginFail_touches {t : State} (port lane : Nat) (hμ : hasParts μ (partSet [.free, .tly, .spare, .bbx,
    .link]) = true) (he : execLaneMarginFail port lane s = .next t) (hs : Touches μ s₀ s) :
    Touches μ s₀ t := by
  unfold execLaneMarginFail at he
  cases he
  repeat' (first
    | with_reducible assumption | with_reducible intro _ | ((with_reducible refine hasParts_trans hμ ?_); rfl)
    | with_reducible apply Touches.ite | with_reducible apply failPort_touches
    | with_reducible apply sendControl_touches | with_reducible apply modPort_touches | split | dsimp only)

theorem execSubReq_touches {t : State} (port lane : Nat) (hμ : hasParts μ (partSet [.free, .link]) = true) (he :
    execSubReq port lane s = .next t) (hs : Touches μ s₀ s) :
    Touches μ s₀ t := by
  unfold execSubReq at he
  cases he
  repeat' (first
    | with_reducible assumption | with_reducible intro _ | ((with_reducible refine hasParts_trans hμ ?_); rfl)
    | with_reducible apply Touches.ite | with_reducible apply sendControl_touches
    | with_reducible apply modPort_touches | split | dsimp only)

theorem recordSub_touches (port dir lane : Nat) (hμ : hasParts μ (partSet [.tly, .spare, .bbx]) = true) (hs : Touches
    μ s₀ s) :
    Touches μ s₀ (recordSub port dir lane s) := by
  unfold recordSub
  repeat' (first
    | with_reducible assumption | ((with_reducible refine hasParts_trans hμ ?_); rfl)
    | with_reducible apply emit_touches | with_reducible apply setPortWord_touches)

theorem execSubReady_touches {t : State} (port lane : Nat) (hμ : hasParts μ (partSet [.free, .tly, .spare, .bbx,
    .link]) = true) (he : execSubReady port lane s = .next t) (hs : Touches μ s₀ s) :
    Touches μ s₀ t := by
  unfold execSubReady at he
  cases he
  repeat' (first
    | with_reducible assumption | with_reducible intro _ | ((with_reducible refine hasParts_trans hμ ?_); rfl)
    | with_reducible apply Touches.ite | with_reducible apply recordSub_touches
    | with_reducible apply sendControl_touches | with_reducible apply modPort_touches | split)

theorem execSubDone_touches {t : State} (port lane : Nat) (hμ : hasParts μ (partSet [.tly, .spare, .bbx, .link]) =
    true) (he : execSubDone port lane s = .next t) (hs : Touches μ s₀ s) :
    Touches μ s₀ t := by
  unfold execSubDone at he
  cases he
  repeat' (first
    | with_reducible assumption | with_reducible intro _ | ((with_reducible refine hasParts_trans hμ ?_); rfl)
    | with_reducible apply Touches.ite | with_reducible apply recordSub_touches
    | with_reducible apply modPort_touches | split)

theorem openFlit_touches (f : List Byte) (hμ : hasParts μ (partSet [.sec]) = true) (hs : Touches μ s₀ s) :
    flitInTouched μ s₀ (openFlit f s) := by
  unfold openFlit
  dsimp only
  generalize flitKey f = k, (s.link.dropping.contains (flitSrc f, flitVc f, flitSeq f)) = dr
  split
  · split
    · exact flitInTouched_nokey
    · split
      · exact flitInTouched_dropped
      · exact flitInTouched_data _ hs
  · split
    · exact flitInTouched_nokey
    · next key _ =>
      generalize rebuildCount _ (flitCtr f) = c
      split
      · exact flitInTouched_nokey
      · split
        · exact flitInTouched_dropped
        · split
          · exact flitInTouched_replay
          · generalize gcmOpen key.bytes _ _ _ = r
            split
            · exact flitInTouched_authFail
            · split
              · exact flitInTouched_replay
              · exact flitInTouched_data _ (Touches.modSec _ (fun _ => FusesKept.refl _) (hasParts_trans hμ rfl) hs)

theorem assemble_touches (port : Nat) (f d : List Byte) (hμ : hasParts μ (partSet [.link]) = true) (hs : Touches μ s₀
    s) :
    Touches μ s₀ (assemble port f d s) := by
  unfold assemble
  repeat' (first
    | with_reducible assumption | with_reducible intro _ | ((with_reducible refine hasParts_trans hμ ?_); rfl)
    | with_reducible apply Touches.ite | with_reducible apply Touches.modLink
    | with_reducible apply countNokey_touches | split | dsimp only)

theorem dropMessage_touches (f : List Byte) (hμ : hasParts μ (partSet [.link]) = true) (hs : Touches μ s₀ s) :
    Touches μ s₀ (dropMessage f s) := by
  unfold dropMessage
  repeat' (first
    | with_reducible assumption | with_reducible intro _ | ((with_reducible refine hasParts_trans hμ ?_); rfl)
    | with_reducible apply Touches.ite | with_reducible apply Touches.modLink | split | dsimp only)

theorem endDrop_touches (f : List Byte) (hμ : hasParts μ (partSet [.link]) = true) (hs : Touches μ s₀ s) :
    Touches μ s₀ (endDrop f s) := by
  unfold endDrop
  repeat' (first
    | with_reducible assumption | with_reducible intro _ | ((with_reducible refine hasParts_trans hμ ?_); rfl)
    | with_reducible apply Touches.ite | with_reducible apply Touches.modLink | split)

theorem takeFlit_touches (port : Nat) (f : List Byte) (hμ : hasParts μ (partSet [.link, .sec]) = true) (hs : Touches μ
    s₀ s) :
    Touches μ s₀ (takeFlit port f s) := by
  unfold takeFlit
  repeat' (first
    | with_reducible assumption | exact fun _ => FusesKept.refl _ | with_reducible intro _
    | ((with_reducible refine hasParts_trans hμ ?_); rfl) | with_reducible apply Touches.modSec
    | with_reducible apply openFlit_touches | with_reducible apply assemble_touches
    | with_reducible apply endDrop_touches | with_reducible apply dropMessage_touches
    | with_reducible apply modPort_touches | with_reducible apply countNokey_touches
    | with_reducible apply Touches.ofFlitIn_data (by with_reducible assumption) | split | dsimp only)

theorem receiveFlit_touches (port : Nat) (f : List Byte) (hμ : hasParts μ (partSet [.link, .sec]) = true) (hs :
    Touches μ s₀ s) :
    Touches μ s₀ (receiveFlit port f s) := by
  unfold receiveFlit
  repeat' (first
    | with_reducible assumption | with_reducible intro _ | ((with_reducible refine hasParts_trans hμ ?_); rfl)
    | with_reducible apply Touches.ite | with_reducible apply Touches.modLink
    | with_reducible apply countNokey_touches | with_reducible apply takeFlit_touches
    | with_reducible apply oweCredit_touches | split | dsimp only)

theorem frameDiscard_touches (port : Nat) (hμ : hasParts μ (partSet [.link]) = true) (hs : Touches μ s₀ s) :
    Touches μ s₀ (frameDiscard port s) := by
  unfold frameDiscard
  repeat' (first
    | with_reducible assumption | with_reducible intro _ | ((with_reducible refine hasParts_trans hμ ?_); rfl)
    | with_reducible apply Touches.ite | with_reducible apply modPort_touches | split)

theorem sendFlitFrame_touches (port seq : Nat) (body : List Byte) (hμ : hasParts μ (partSet [.link]) = true) (hs :
    Touches μ s₀ s) :
    Touches μ s₀ (sendFlitFrame port seq body s) := by
  unfold sendFlitFrame
  repeat' (first
    | with_reducible assumption | with_reducible intro _ | ((with_reducible refine hasParts_trans hμ ?_); rfl)
    | with_reducible apply putWire_touches | with_reducible apply modPort_touches)

theorem applyLink_touches (port : Nat) (w : BitVec 64) (hμ : hasParts μ (partSet [.link]) = true) (hs : Touches μ s₀
    s) :
    Touches μ s₀ (applyLink port w s) := by
  unfold applyLink
  repeat' (first
    | with_reducible assumption | with_reducible intro _ | ((with_reducible refine hasParts_trans hμ ?_); rfl)
    | with_reducible apply Touches.ite | with_reducible apply Touches.forEach | with_reducible apply modPort_touches
    | with_reducible apply sendFlitFrame_touches | split | dsimp only)

theorem sendIdle_touches (n : Nat) (hμ : hasParts μ (partSet [.link]) = true) (hs : Touches μ s₀ s) :
    Touches μ s₀ (sendIdle n s) := by
  unfold sendIdle
  repeat' (first
    | with_reducible assumption | with_reducible intro _ | ((with_reducible refine hasParts_trans hμ ?_); rfl)
    | with_reducible apply putWire_touches | with_reducible apply modPort_touches)

theorem execFrameReceive_touches {t : State} (port : Nat) (f : Frame) (hμ : hasParts μ (partSet [.link, .sec]) = true)
    (he : execFrameReceive port f s = .next t) (hs : Touches μ s₀ s) :
    Touches μ s₀ t := by
  unfold execFrameReceive at he
  cases he
  repeat' (first
    | with_reducible assumption | with_reducible intro _ | ((with_reducible refine hasParts_trans hμ ?_); rfl)
    | with_reducible apply Touches.ite | with_reducible apply Touches.when
    | with_reducible apply frameDiscard_touches | with_reducible apply modPort_touches
    | with_reducible apply applyLink_touches | with_reducible apply receiveFlit_touches
    | with_reducible apply sendIdle_touches | split | dsimp only)

theorem execFlitForward_touches {t : State} (port : Nat) (flit : List Byte) (hμ : hasParts μ (partSet [.link]) = true)
    (he : execFlitForward port flit s = .next t) (hs : Touches μ s₀ s) :
    Touches μ s₀ t := by
  unfold execFlitForward at he
  cases he
  repeat' (first
    | with_reducible assumption | with_reducible intro _ | ((with_reducible refine hasParts_trans hμ ?_); rfl)
    | with_reducible apply Touches.ite | with_reducible apply oweCredit_touches
    | with_reducible apply countNokey_touches | with_reducible apply pushFlits_touches
    | with_reducible apply keepChoice_touches | with_reducible apply takeDetour_touches | split | dsimp only)

theorem noteLeft_touches (f : List Byte) (hμ : hasParts μ (partSet [.io]) = true) (hs : Touches μ s₀ s) :
    Touches μ s₀ (noteLeft f s) := by
  unfold noteLeft
  repeat' (first
    | with_reducible assumption | with_reducible intro _ | ((with_reducible refine hasParts_trans hμ ?_); rfl)
    | with_reducible apply Touches.ite | with_reducible apply Touches.modIo | split | dsimp only)

theorem grantPort_touches (n : Nat) (hμ : hasParts μ (partSet [.link, .io]) = true) (hs : Touches μ s₀ s) :
    Touches μ s₀ (grantPort n s) := by
  unfold grantPort
  repeat' (first
    | with_reducible assumption | with_reducible intro _ | ((with_reducible refine hasParts_trans hμ ?_); rfl)
    | with_reducible apply Touches.ite | with_reducible apply modPort_touches
    | with_reducible apply sendFlitFrame_touches | with_reducible apply noteLeft_touches
    | with_reducible apply sendIdle_touches | split | dsimp only)

theorem grantPorts_touches (hμ : hasParts μ (partSet [.link, .io]) = true) (hs : Touches μ s₀ s) :
    Touches μ s₀ (grantPorts s) := by
  unfold grantPorts
  repeat' (first
    | with_reducible assumption | with_reducible intro _ | ((with_reducible refine hasParts_trans hμ ?_); rfl)
    | with_reducible apply Touches.ite | with_reducible apply Touches.forEach
    | with_reducible apply grantPort_touches | split)

end Sys2Proof.Machine
end

