-- ==== Sys2Proof/Laws/RespondTouches.lean ====
section
/-! SUPPORT. Which parts of State the operations of Machine/Respond.lean may touch: one lemma per operation. -/

namespace Sys2Proof.Machine

open Sys2Proof

variable {μ : Nat} {s₀ s : State}

theorem showPhase_touches (n : Nat) (hμ : hasParts μ (partSet [.start]) = true) (hs : Touches μ s₀ s) :
    Touches μ s₀ (showPhase n s) := by
  unfold showPhase
  repeat' (first
    | with_reducible assumption | exact fun _ q => q | exact fun _ q => absurd q Bool.false_ne_true
    | with_reducible intro _ | ((with_reducible refine hasParts_trans hμ ?_); rfl)
    | with_reducible apply Touches.modStart)

theorem flushRecs_touches (ids : List Nat) (hμ : hasParts μ (partSet [.ftl]) = true) (hs : Touches μ s₀ s) :
    Touches μ s₀ (flushRecs ids s) := by
  unfold flushRecs
  repeat' (first
    | with_reducible assumption | with_reducible intro _ | ((with_reducible refine hasParts_trans hμ ?_); rfl)
    | with_reducible apply Touches.ite | with_reducible apply Touches.modFtl | split)

theorem loseWindow_touches (hμ : hasParts μ (partSet [.ftl]) = true) (hs : Touches μ s₀ s) :
    Touches μ s₀ (loseWindow s) := by
  unfold loseWindow
  repeat' (first
    | with_reducible assumption | with_reducible intro _ | ((with_reducible refine hasParts_trans hμ ?_); rfl)
    | with_reducible apply Touches.modFtl)

theorem startBleed_touches (hμ : hasParts μ (partSet [.pwr]) = true) (hs : Touches μ s₀ s) :
    Touches μ s₀ (startBleed s) := by
  unfold startBleed
  repeat' (first
    | with_reducible assumption | with_reducible intro _ | ((with_reducible refine hasParts_trans hμ ?_); rfl)
    | with_reducible apply Touches.modPwr)

theorem bleedIfDue_touches (hμ : hasParts μ (partSet [.pwr, .resp]) = true) (hs : Touches μ s₀ s) :
    Touches μ s₀ (bleedIfDue s) := by
  unfold bleedIfDue
  repeat' (first
    | with_reducible assumption | with_reducible intro _ | ((with_reducible refine hasParts_trans hμ ?_); rfl)
    | with_reducible apply Touches.ite | with_reducible apply Touches.modResp
    | with_reducible apply startBleed_touches | split)

theorem cutFlush_touches (hμ : hasParts μ (partSet [.free, .pwr, .resp, .hbm, .ops, .ftl]) = true) (hs : Touches μ s₀
    s) :
    Touches μ s₀ (cutFlush s) := by
  unfold cutFlush
  repeat' (first
    | with_reducible assumption | ((with_reducible refine hasParts_trans hμ ?_); rfl)
    | with_reducible apply Touches.ite | with_reducible apply Touches.ite_snd | with_reducible apply stage_touches
    | with_reducible apply fresh_touches | with_reducible apply bleedIfDue_touches
    | with_reducible apply loseWindow_touches | with_reducible apply flushRecs_touches
    | with_reducible apply Touches.of_snd (by with_reducible assumption) | split | dsimp only)

theorem revokeAll_touches (hμ : hasParts μ (partSet [.free, .bbx, .link, .coh, .ext, .hbm, .rng, .io, .seqs, .pfx,
    .casc, .ops, .attn, .cdc, .tier, .wt, .ftl, .sch, .sec]) = true) (hs : Touches μ s₀ s) :
    Touches μ s₀ (revokeAll s) := by
  unfold revokeAll
  repeat' (first
    | with_reducible assumption | with_reducible intro _ | ((with_reducible refine hasParts_trans hμ ?_); rfl)
    | with_reducible apply Touches.forEach | with_reducible apply resetRing_touches)

theorem haltWork_touches (hμ : hasParts μ (partSet [.resp, .rng, .io, .ops, .attn]) = true) (hs : Touches μ s₀ s) :
    Touches μ s₀ (haltWork s) := by
  unfold haltWork
  refine Touches.modIo _ (hasParts_trans hμ rfl) (Touches.modAttn _ (hasParts_trans hμ rfl) (Touches.modOps _ (hasParts_trans hμ rfl)
    (Touches.modRng _ (fun x q y hy => ?_) (hasParts_trans hμ rfl) (Touches.modResp _ (hasParts_trans hμ rfl) hs))))
  obtain ⟨z, _, rfl⟩ := List.mem_map.mp hy
  exact ⟨List.Pairwise.nil, fun _ h => nomatch h⟩

theorem faultFor_touches (cls : Nat) (hμ : hasParts μ (partSet [.pins, .resp]) = true) (hs : Touches μ s₀ s) :
    Touches μ s₀ (faultFor cls s) := by
  unfold faultFor
  repeat' (first
    | with_reducible assumption | ((with_reducible refine hasParts_trans hμ ?_); rfl)
    | with_reducible apply Touches.ite | with_reducible apply assertFault_touches | split)

theorem blinkUnsafe_touches (hμ : hasParts μ (partSet [.pins]) = true) (hs : Touches μ s₀ s) :
    Touches μ s₀ (blinkUnsafe s) := by
  unfold blinkUnsafe
  repeat' (first
    | with_reducible assumption | ((with_reducible refine hasParts_trans hμ ?_); rfl)
    | with_reducible apply Touches.ite | with_reducible apply setLed_touches | split)

theorem joinCause_touches (cls : Nat) (hμ : hasParts μ (partSet [.bbx]) = true) (hs : Touches μ s₀ s) :
    Touches μ s₀ (joinCause cls s) := by
  unfold joinCause
  repeat' (first
    | with_reducible assumption | ((with_reducible refine hasParts_trans hμ ?_); rfl)
    | with_reducible apply Touches.ite | with_reducible apply freeze_touches | split)

theorem leakStep3_touches (hμ : hasParts μ (partSet [.pins, .pwr, .thm, .resp]) = true) (hs : Touches μ s₀ s) :
    Touches μ s₀ (leakStep3 s) := by
  unfold leakStep3
  repeat' (first
    | with_reducible assumption | with_reducible intro _ | ((with_reducible refine hasParts_trans hμ ?_); rfl)
    | with_reducible apply Touches.modPwr | with_reducible apply Touches.modThm
    | with_reducible apply driveTherm_touches | with_reducible apply faultFor_touches
    | with_reducible apply blinkUnsafe_touches)

theorem bleedOnRemoval_touches (hμ : hasParts μ (partSet [.pwr, .resp, .hbm, .ops]) = true) (hs : Touches μ s₀ s) :
    Touches μ s₀ (bleedOnRemoval s) := by
  unfold bleedOnRemoval
  repeat' (first
    | with_reducible assumption | with_reducible intro _ | ((with_reducible refine hasParts_trans hμ ?_); rfl)
    | with_reducible apply Touches.ite | with_reducible apply Touches.modResp | with_reducible apply stage_touches
    | with_reducible apply startBleed_touches | split)

theorem endSteps_touches (hμ : hasParts μ (partSet [.pins, .pwr, .thm, .clk, .start, .img, .resp, .tly, .spare, .bbx,
    .link, .coh, .ext, .hbm, .rng, .io, .seqs, .pfx, .casc, .ops, .attn, .core, .cdc, .tier, .wt, .ftl, .sch, .sec,
    .mgmt]) = true) (hs : Touches μ s₀ s) :
    Touches μ s₀ (endSteps s) := by
  unfold endSteps
  repeat' (first
    | with_reducible assumption | with_reducible intro _ | ((with_reducible refine hasParts_trans hμ ?_); rfl)
    | with_reducible apply Touches.ite | with_reducible apply Touches.modPwr | with_reducible apply Touches.modResp
    | with_reducible apply stage_touches | with_reducible apply leakStep3_touches
    | with_reducible apply setSafe_touches | with_reducible apply triggerStart_touches | split | dsimp only)

theorem settleCopy_touches (hμ : hasParts μ (partSet [.pins, .pwr, .thm, .clk, .start, .img, .resp, .tly, .spare,
    .bbx, .link, .coh, .ext, .hbm, .rng, .io, .seqs, .pfx, .casc, .ops, .attn, .core, .cdc, .tier, .wt, .ftl, .sch,
    .sec, .mgmt]) = true) (hs : Touches μ s₀ s) :
    Touches μ s₀ (settleCopy s) := by
  unfold settleCopy
  repeat' (first
    | with_reducible assumption | ((with_reducible refine hasParts_trans hμ ?_); rfl)
    | with_reducible apply Touches.ite | with_reducible apply stage_touches | with_reducible apply endSteps_touches
    | split)

theorem awaitCopy_touches (hμ : hasParts μ (partSet [.pins, .pwr, .thm, .clk, .start, .img, .resp, .tly, .spare, .bbx,
    .link, .coh, .ext, .hbm, .rng, .io, .seqs, .pfx, .casc, .ops, .attn, .core, .cdc, .tier, .wt, .ftl, .sch, .sec,
    .mgmt]) = true) (hs : Touches μ s₀ s) :
    Touches μ s₀ (awaitCopy s) := by
  unfold awaitCopy
  repeat' (first
    | with_reducible assumption | with_reducible intro _ | ((with_reducible refine hasParts_trans hμ ?_); rfl)
    | with_reducible apply Touches.modResp | with_reducible apply settleCopy_touches
    | with_reducible apply stage_touches)

theorem settleExtStage_touches (hμ : hasParts μ (partSet [.pins, .pwr, .thm, .clk, .start, .img, .resp, .tly, .spare,
    .bbx, .link, .coh, .ext, .hbm, .rng, .io, .seqs, .pfx, .casc, .ops, .attn, .core, .cdc, .tier, .wt, .ftl, .sch,
    .sec, .mgmt]) = true) (hs : Touches μ s₀ s) :
    Touches μ s₀ (settleExtStage s) := by
  unfold settleExtStage
  repeat' (first
    | with_reducible assumption | ((with_reducible refine hasParts_trans hμ ?_); rfl)
    | with_reducible apply Touches.ite | with_reducible apply stage_touches | with_reducible apply awaitCopy_touches
    | with_reducible apply freeze_touches | split)

theorem revokeExtents_touches (hμ : hasParts μ (partSet [.free, .bbx, .link, .coh, .ext, .hbm, .rng, .io, .seqs,
    .casc, .ops, .cdc, .tier, .wt, .ftl, .sch, .sec]) = true) (hs : Touches μ s₀ s) :
    Touches μ s₀ (revokeExtents s) := by
  unfold revokeExtents
  repeat' (first
    | with_reducible assumption | with_reducible intro _ | ((with_reducible refine hasParts_trans hμ ?_); rfl)
    | with_reducible apply Touches.forEach | with_reducible apply eraseExtent_touches | split)

theorem flushEnded_touches (hμ : hasParts μ (partSet [.free, .pins, .pwr, .thm, .clk, .start, .img, .resp, .tly,
    .spare, .bbx, .link, .coh, .ext, .hbm, .rng, .io, .seqs, .pfx, .casc, .ops, .attn, .core, .cdc, .tier, .wt, .ftl,
    .sch, .sec, .mgmt]) = true) (hs : Touches μ s₀ s) :
    Touches μ s₀ (flushEnded s) := by
  unfold flushEnded
  repeat' (first
    | with_reducible assumption | with_reducible intro _ | ((with_reducible refine hasParts_trans hμ ?_); rfl)
    | with_reducible apply Touches.ite | with_reducible apply Touches.modResp
    | with_reducible apply bleedIfDue_touches | with_reducible apply settleExtStage_touches
    | with_reducible apply revokeExtents_touches | with_reducible apply stage_touches
    | with_reducible apply awaitCopy_touches | with_reducible apply leakStep3_touches
    | with_reducible apply faultFor_touches | split | dsimp only)

theorem startFlush_touches (hμ : hasParts μ (partSet [.free, .pins, .pwr, .thm, .clk, .start, .img, .resp, .tly,
    .spare, .bbx, .link, .coh, .ext, .hbm, .rng, .io, .seqs, .pfx, .casc, .ops, .attn, .core, .cdc, .tier, .wt, .ftl,
    .sch, .sec, .mgmt]) = true) (hs : Touches μ s₀ s) :
    Touches μ s₀ (startFlush s) := by
  unfold startFlush
  repeat' (first
    | with_reducible assumption | with_reducible intro _ | ((with_reducible refine hasParts_trans hμ ?_); rfl)
    | with_reducible apply Touches.ite | with_reducible apply Touches.modResp | with_reducible apply stage_touches
    | with_reducible apply flushEnded_touches | with_reducible apply loseWindow_touches | split | dsimp only)

theorem windowFlushed_touches (hμ : hasParts μ (partSet [.free, .pins, .pwr, .thm, .clk, .start, .img, .resp, .tly,
    .spare, .bbx, .link, .coh, .ext, .hbm, .rng, .io, .seqs, .pfx, .casc, .ops, .attn, .core, .cdc, .tier, .wt, .ftl,
    .sch, .sec, .mgmt]) = true) (hs : Touches μ s₀ s) :
    Touches μ s₀ (windowFlushed s) := by
  unfold windowFlushed
  repeat' (first
    | with_reducible assumption | ((with_reducible refine hasParts_trans hμ ?_); rfl)
    | with_reducible apply Touches.ite | with_reducible apply stage_touches | with_reducible apply flushEnded_touches
    | with_reducible apply loseWindow_touches | with_reducible apply flushRecs_touches | split)

theorem opsOver_touches (hμ : hasParts μ (partSet [.free, .pins, .pwr, .thm, .clk, .start, .img, .resp, .tly, .spare,
    .bbx, .link, .coh, .ext, .hbm, .rng, .io, .seqs, .pfx, .casc, .ops, .attn, .core, .cdc, .tier, .wt, .ftl, .sch,
    .sec, .mgmt]) = true) (hs : Touches μ s₀ s) :
    Touches μ s₀ (opsOver s) := by
  unfold opsOver
  repeat' (first
    | with_reducible assumption | ((with_reducible refine hasParts_trans hμ ?_); rfl)
    | with_reducible apply Touches.ite | with_reducible apply stage_touches | with_reducible apply startFlush_touches
    | with_reducible apply revokeAll_touches | split)

theorem pollResp_touches (hμ : hasParts μ (partSet [.free, .pins, .pwr, .thm, .clk, .start, .img, .resp, .tly, .spare,
    .bbx, .link, .coh, .ext, .hbm, .rng, .io, .seqs, .pfx, .casc, .ops, .attn, .core, .cdc, .tier, .wt, .ftl, .sch,
    .sec, .mgmt]) = true) (hs : Touches μ s₀ s) :
    Touches μ s₀ (pollResp s) := by
  unfold pollResp
  repeat' (first
    | with_reducible assumption | ((with_reducible refine hasParts_trans hμ ?_); rfl)
    | with_reducible apply Touches.ite | with_reducible apply stage_touches | with_reducible apply opsOver_touches
    | with_reducible apply settleExtStage_touches | split)

theorem beginQuiesce_touches (kind : RespKind) (viaPin : Bool) (hμ : hasParts μ (partSet [.free, .pins, .pwr, .thm,
    .clk, .start, .img, .resp, .tly, .spare, .bbx, .link, .coh, .ext, .hbm, .rng, .io, .seqs, .pfx, .casc, .ops,
    .attn, .core, .cdc, .tier, .wt, .ftl, .sch, .sec, .mgmt]) = true) (hs : Touches μ s₀ s) :
    Touches μ s₀ (beginQuiesce kind viaPin s) := by
  unfold beginQuiesce
  repeat' (first
    | with_reducible assumption | with_reducible intro _ | ((with_reducible refine hasParts_trans hμ ?_); rfl)
    | with_reducible apply Touches.ite | with_reducible apply Touches.modResp
    | with_reducible apply showPhase_touches | with_reducible apply setLed_touches
    | with_reducible apply dropRdy_touches | with_reducible apply abandonStart_touches
    | with_reducible apply pollResp_touches | with_reducible apply stage_touches | split | dsimp only)

theorem beginHard_touches (kind : RespKind) (phase : Nat) (hμ : hasParts μ (partSet [.pins, .start, .resp, .casc]) =
    true) (hs : Touches μ s₀ s) :
    Touches μ s₀ (beginHard kind phase s) := by
  unfold beginHard
  repeat' (first
    | with_reducible assumption | exact fun _ q => q | exact fun _ q => absurd q Bool.false_ne_true
    | with_reducible intro _ | ((with_reducible refine hasParts_trans hμ ?_); rfl) | with_reducible apply Touches.ite
    | with_reducible apply Touches.modStart | with_reducible apply Touches.modResp
    | with_reducible apply showPhase_touches | with_reducible apply dropRdy_touches
    | with_reducible apply abandonStart_touches | split | dsimp only)

theorem powerDown_touches (hμ : hasParts μ (partSet [.pwr]) = true) (hs : Touches μ s₀ s) :
    Touches μ s₀ (powerDown s) := by
  unfold powerDown
  repeat' (first
    | with_reducible assumption | with_reducible intro _ | ((with_reducible refine hasParts_trans hμ ?_); rfl)
    | with_reducible apply Touches.modPwr)

theorem flushFor_touches (kind : RespKind) (phase cls : Nat) (hμ : hasParts μ (partSet [.free, .pins, .pwr, .thm,
    .clk, .start, .img, .resp, .tly, .spare, .bbx, .link, .coh, .ext, .hbm, .rng, .io, .seqs, .pfx, .casc, .ops,
    .attn, .core, .cdc, .tier, .wt, .ftl, .sch, .sec, .mgmt]) = true) (hs : Touches μ s₀ s) :
    Touches μ s₀ (flushFor kind phase cls s) := by
  unfold flushFor
  repeat' (first
    | with_reducible assumption | ((with_reducible refine hasParts_trans hμ ?_); rfl)
    | with_reducible apply startFlush_touches | with_reducible apply powerDown_touches
    | with_reducible apply freeze_touches | with_reducible apply revokeAll_touches
    | with_reducible apply setLed_touches | with_reducible apply beginHard_touches)

theorem powerFailCause_touches (hμ : hasParts μ (partSet [.free, .pins, .pwr, .thm, .clk, .start, .img, .resp, .tly,
    .spare, .bbx, .link, .coh, .ext, .hbm, .rng, .io, .seqs, .pfx, .casc, .ops, .attn, .core, .cdc, .tier, .wt, .ftl,
    .sch, .sec, .mgmt]) = true) (hs : Touches μ s₀ s) :
    Touches μ s₀ (powerFailCause s) := by
  unfold powerFailCause
  repeat' (first
    | with_reducible assumption | ((with_reducible refine hasParts_trans hμ ?_); rfl)
    | with_reducible apply Touches.ite | with_reducible apply flushFor_touches
    | with_reducible apply joinCause_touches | with_reducible apply faultFor_touches | split)

theorem unplugCause_touches (hμ : hasParts μ (partSet [.free, .pins, .pwr, .thm, .clk, .start, .img, .resp, .tly,
    .spare, .bbx, .link, .coh, .ext, .hbm, .rng, .io, .seqs, .pfx, .casc, .ops, .attn, .core, .cdc, .tier, .wt, .ftl,
    .sch, .sec, .mgmt]) = true) (hs : Touches μ s₀ s) :
    Touches μ s₀ (unplugCause s) := by
  unfold unplugCause
  repeat' (first
    | with_reducible assumption | exact fun _ q => q | exact fun _ q => absurd q Bool.false_ne_true
    | with_reducible intro _ | ((with_reducible refine hasParts_trans hμ ?_); rfl) | with_reducible apply Touches.ite
    | with_reducible apply Touches.modStart | with_reducible apply Touches.modResp
    | with_reducible apply beginQuiesce_touches | with_reducible apply showPhase_touches
    | with_reducible apply joinCause_touches | with_reducible apply stage_touches
    | with_reducible apply endSteps_touches | split | dsimp only)

theorem leakCause_touches (hμ : hasParts μ (partSet [.free, .pins, .pwr, .thm, .clk, .start, .img, .resp, .tly,
    .spare, .bbx, .link, .coh, .ext, .hbm, .rng, .io, .seqs, .pfx, .casc, .ops, .attn, .core, .cdc, .tier, .wt, .ftl,
    .sch, .sec, .mgmt]) = true) (hs : Touches μ s₀ s) :
    Touches μ s₀ (leakCause s) := by
  unfold leakCause
  repeat' (first
    | with_reducible assumption | with_reducible intro _ | ((with_reducible refine hasParts_trans hμ ?_); rfl)
    | with_reducible apply Touches.ite | with_reducible apply Touches.modThm | with_reducible apply Touches.modResp
    | with_reducible apply flushFor_touches | with_reducible apply stage_touches
    | with_reducible apply showPhase_touches | with_reducible apply freeze_touches
    | with_reducible apply leakStep3_touches | with_reducible apply joinCause_touches | split | dsimp only)

theorem lostFor_touches (cls : Nat) (hμ : hasParts μ (partSet [.free, .pins, .pwr, .thm, .clk, .start, .img, .resp,
    .tly, .spare, .bbx, .link, .coh, .ext, .hbm, .rng, .io, .seqs, .pfx, .casc, .ops, .attn, .core, .cdc, .tier, .wt,
    .ftl, .sch, .sec, .mgmt]) = true) (hs : Touches μ s₀ s) :
    Touches μ s₀ (lostFor cls s) := by
  unfold lostFor
  repeat' (first
    | with_reducible assumption | ((with_reducible refine hasParts_trans hμ ?_); rfl)
    | with_reducible apply cutFlush_touches | with_reducible apply blinkUnsafe_touches
    | with_reducible apply faultFor_touches | with_reducible apply freeze_touches
    | with_reducible apply haltWork_touches | with_reducible apply beginHard_touches
    | with_reducible apply awaitCopy_touches)

theorem tripCause_touches (hμ : hasParts μ (partSet [.free, .pins, .pwr, .thm, .clk, .start, .img, .resp, .tly,
    .spare, .bbx, .link, .coh, .ext, .hbm, .rng, .io, .seqs, .pfx, .casc, .ops, .attn, .core, .cdc, .tier, .wt, .ftl,
    .sch, .sec, .mgmt]) = true) (hs : Touches μ s₀ s) :
    Touches μ s₀ (tripCause s) := by
  unfold tripCause
  repeat' (first
    | with_reducible assumption | with_reducible intro _ | ((with_reducible refine hasParts_trans hμ ?_); rfl)
    | with_reducible apply Touches.ite | with_reducible apply Touches.modResp
    | with_reducible apply driveTherm_touches | with_reducible apply lostFor_touches
    | with_reducible apply haltWork_touches | with_reducible apply cutFlush_touches
    | with_reducible apply showPhase_touches | with_reducible apply faultFor_touches
    | with_reducible apply freeze_touches | with_reducible apply awaitCopy_touches
    | with_reducible apply leakStep3_touches | with_reducible apply blinkUnsafe_touches
    | with_reducible apply joinCause_touches | split | dsimp only)

theorem lockCause_touches (hμ : hasParts μ (partSet [.free, .pins, .pwr, .thm, .clk, .start, .img, .resp, .tly,
    .spare, .bbx, .link, .coh, .ext, .hbm, .rng, .io, .seqs, .pfx, .casc, .ops, .attn, .core, .cdc, .tier, .wt, .ftl,
    .sch, .sec, .mgmt]) = true) (hs : Touches μ s₀ s) :
    Touches μ s₀ (lockCause s) := by
  unfold lockCause
  repeat' (first
    | with_reducible assumption | with_reducible intro _ | ((with_reducible refine hasParts_trans hμ ?_); rfl)
    | with_reducible apply Touches.ite | with_reducible apply Touches.modClk | with_reducible apply Touches.modResp
    | with_reducible apply lostFor_touches | split | dsimp only)

theorem failedLoss_touches (unit : FailUnit) (hit : List Nat) (hμ : hasParts μ (partSet [.free, .pwr, .resp, .hbm,
    .ops, .ftl]) = true) (hs : Touches μ s₀ s) :
    Touches μ s₀ (failedLoss unit hit s) := by
  unfold failedLoss
  repeat' (first
    | with_reducible assumption | with_reducible intro _ | ((with_reducible refine hasParts_trans hμ ?_); rfl)
    | with_reducible apply Touches.modResp | with_reducible apply cutFlush_touches | split)

theorem memoryFault_touches (cls : Nat) (unit : FailUnit) (detail : Nat) (hit : List Nat) (hμ : hasParts μ (partSet
    [.free, .pins, .pwr, .thm, .clk, .start, .img, .resp, .tly, .spare, .bbx, .link, .coh, .ext, .hbm, .rng, .io,
    .seqs, .pfx, .casc, .ops, .attn, .core, .cdc, .tier, .wt, .ftl, .sch, .sec, .mgmt]) = true) (hs : Touches μ s₀ s)
    :
    Touches μ s₀ (memoryFault cls unit detail hit s) := by
  unfold memoryFault
  repeat' (first
    | with_reducible assumption | ((with_reducible refine hasParts_trans hμ ?_); rfl)
    | with_reducible apply Touches.ite | with_reducible apply emit_touches | with_reducible apply failedLoss_touches
    | with_reducible apply startFlush_touches | with_reducible apply powerDown_touches
    | with_reducible apply blinkUnsafe_touches | with_reducible apply faultFor_touches
    | with_reducible apply freeze_touches | with_reducible apply revokeAll_touches
    | with_reducible apply beginHard_touches | with_reducible apply stage_touches
    | with_reducible apply flushEnded_touches | with_reducible apply joinCause_touches | split | dsimp only)

theorem imageFault_touches (hμ : hasParts μ (partSet [.free, .pins, .pwr, .thm, .clk, .start, .img, .resp, .tly,
    .spare, .bbx, .link, .coh, .ext, .hbm, .rng, .io, .seqs, .pfx, .casc, .ops, .attn, .core, .cdc, .tier, .wt, .ftl,
    .sch, .sec, .mgmt]) = true) (hs : Touches μ s₀ s) :
    Touches μ s₀ (imageFault s) := by
  unfold imageFault
  repeat' (first
    | with_reducible assumption | ((with_reducible refine hasParts_trans hμ ?_); rfl)
    | with_reducible apply startFlush_touches | with_reducible apply blinkUnsafe_touches
    | with_reducible apply faultFor_touches | with_reducible apply freeze_touches | with_reducible apply emit_touches
    | with_reducible apply beginHard_touches)

theorem resetCause_touches (viaPin : Bool) (hμ : hasParts μ (partSet [.free, .pins, .pwr, .thm, .clk, .start, .img,
    .resp, .tly, .spare, .bbx, .link, .coh, .ext, .hbm, .rng, .io, .seqs, .pfx, .casc, .ops, .attn, .core, .cdc,
    .tier, .wt, .ftl, .sch, .sec, .mgmt]) = true) (hs : Touches μ s₀ s) :
    Touches μ s₀ (resetCause viaPin s) := by
  unfold resetCause
  repeat' (first
    | with_reducible assumption | ((with_reducible refine hasParts_trans hμ ?_); rfl)
    | with_reducible apply Touches.ite | with_reducible apply beginQuiesce_touches | split)

end Sys2Proof.Machine
end

