-- ==== Sys2Proof/Laws/PowerTouches.lean ====
section
/-! SUPPORT. Which parts of State the operations of Machine/Power.lean may touch: one lemma per operation. -/

namespace Sys2Proof.Machine

open Sys2Proof

variable {μ : Nat} {s₀ s : State}

theorem setLines_touches (l : Lines) (hμ : hasParts μ (partSet [.pins, .thm]) = true) (hs : Touches μ s₀ s) :
    Touches μ s₀ (setLines l s) := by
  unfold setLines
  repeat' (first
    | with_reducible assumption | exact fun _ q => q | exact fun _ q => absurd q Bool.false_ne_true
    | with_reducible intro _ | ((with_reducible refine hasParts_trans hμ ?_); rfl) | with_reducible apply Touches.ite
    | with_reducible apply Touches.modPins | with_reducible apply Touches.modThm | split | dsimp only)

theorem setVin_touches (vin : Nat) (hμ : hasParts μ (partSet [.pins]) = true) (hs : Touches μ s₀ s) :
    Touches μ s₀ (setVin vin s) := by
  unfold setVin
  repeat' (first
    | with_reducible assumption | exact fun _ q => q | exact fun _ q => absurd q Bool.false_ne_true
    | with_reducible intro _ | ((with_reducible refine hasParts_trans hμ ?_); rfl)
    | with_reducible apply Touches.modPins)

theorem execVin60Contact_touches {t : State} (vin : Nat) (hμ : hasParts μ (partSet [.pins, .pwr, .thm, .clk, .start,
    .img, .resp, .tly, .spare, .bbx, .link, .coh, .ext, .hbm, .rng, .io, .seqs, .pfx, .casc, .ops, .attn, .core, .cdc,
    .tier, .wt, .ftl, .sch, .sec, .mgmt]) = true) (he : execVin60Contact vin s = .next t) (hs : Touches μ s₀ s) :
    Touches μ s₀ t := by
  unfold execVin60Contact at he
  cases he
  repeat' (first
    | with_reducible assumption | exact fun _ q => q | exact fun _ q => absurd q Bool.false_ne_true
    | with_reducible intro _ | ((with_reducible refine hasParts_trans hμ ?_); rfl) | with_reducible apply Touches.ite
    | with_reducible apply Touches.modPins | with_reducible apply Touches.modPwr
    | with_reducible apply setVin_touches | with_reducible apply clearVolatile_touches | split | dsimp only)

theorem bankAbove20_touches (hμ : hasParts μ (partSet [.free]) = true) (hs : Touches μ s₀ s) :
    Touches μ s₀ (bankAbove20 s).2 := by
  unfold bankAbove20
  repeat' (first
    | with_reducible assumption | ((with_reducible refine hasParts_trans hμ ?_); rfl)
    | with_reducible apply Touches.ite | with_reducible apply Touches.ite_snd | with_reducible apply fresh_touches
    | with_reducible apply Touches.of_snd (by with_reducible assumption) | split)

theorem startCharge_touches (above : Bool) (hμ : hasParts μ (partSet [.pwr]) = true) (hs : Touches μ s₀ s) :
    Touches μ s₀ (startCharge above s) := by
  unfold startCharge
  repeat' (first
    | with_reducible assumption | with_reducible intro _ | ((with_reducible refine hasParts_trans hμ ?_); rfl)
    | with_reducible apply Touches.modPwr)

theorem execSoftStartDone_touches {t : State} (vin : Nat) (hμ : hasParts μ (partSet [.free, .pins, .pwr, .thm, .clk,
    .start, .img, .resp, .tly, .spare, .bbx, .link, .coh, .ext, .hbm, .rng, .io, .seqs, .pfx, .casc, .ops, .attn,
    .core, .cdc, .tier, .wt, .ftl, .sch, .sec, .mgmt]) = true) (he : execSoftStartDone vin s = .next t) (hs : Touches
    μ s₀ s) :
    Touches μ s₀ t := by
  unfold execSoftStartDone at he
  cases he
  repeat' (first
    | with_reducible assumption | with_reducible intro _ | ((with_reducible refine hasParts_trans hμ ?_); rfl)
    | with_reducible apply Touches.ite | with_reducible apply Touches.ite_snd | with_reducible apply Touches.modPwr
    | with_reducible apply setVin_touches | with_reducible apply bankAbove20_touches
    | with_reducible apply startCharge_touches | with_reducible apply triggerStart_touches
    | with_reducible apply Touches.of_snd (by with_reducible assumption) | split | dsimp only)

theorem execPrsntEarlyHigh_touches {t : State} (hμ : hasParts μ (partSet [.pins, .pwr, .resp, .hbm, .ops]) = true) (he
    : execPrsntEarlyHigh s = .next t) (hs : Touches μ s₀ s) :
    Touches μ s₀ t := by
  unfold execPrsntEarlyHigh at he
  cases he
  repeat' (first
    | with_reducible assumption | exact fun _ q => q | exact fun _ q => absurd q Bool.false_ne_true
    | with_reducible intro _ | ((with_reducible refine hasParts_trans hμ ?_); rfl)
    | with_reducible apply Touches.modPins | with_reducible apply Touches.modPwr
    | with_reducible apply bleedOnRemoval_touches)

theorem endPhase3_touches (hμ : hasParts μ (partSet [.pins, .start]) = true) (hs : Touches μ s₀ s) :
    Touches μ s₀ (endPhase3 s) := by
  unfold endPhase3
  repeat' (first
    | with_reducible assumption | exact fun _ q => q | exact fun _ q => absurd q Bool.false_ne_true
    | with_reducible intro _ | ((with_reducible refine hasParts_trans hμ ?_); rfl)
    | with_reducible apply Touches.modPins | with_reducible apply Touches.modStart)

theorem execOutputsEnable_touches {t : State} (hμ : hasParts μ (partSet [.pins, .start]) = true) (he :
    execOutputsEnable s = .next t) (hs : Touches μ s₀ s) :
    Touches μ s₀ t := by
  unfold execOutputsEnable at he
  cases he
  repeat' (first
    | with_reducible assumption | exact fun _ q => q | exact fun _ q => absurd q Bool.false_ne_true
    | with_reducible intro _ | ((with_reducible refine hasParts_trans hμ ?_); rfl) | with_reducible apply Touches.ite
    | with_reducible apply Touches.modPins | with_reducible apply driveMaster_touches
    | with_reducible apply endPhase3_touches | split | dsimp only)

theorem execPrsntLateHigh_touches {t : State} (hμ : hasParts μ (partSet [.free, .pins, .pwr, .thm, .clk, .start, .img,
    .resp, .tly, .spare, .bbx, .link, .coh, .ext, .hbm, .rng, .io, .seqs, .pfx, .casc, .ops, .attn, .core, .cdc,
    .tier, .wt, .ftl, .sch, .sec, .mgmt]) = true) (he : execPrsntLateHigh s = .next t) (hs : Touches μ s₀ s) :
    Touches μ s₀ t := by
  unfold execPrsntLateHigh at he
  cases he
  repeat' (first
    | with_reducible assumption | exact fun _ q => q | exact fun _ q => absurd q Bool.false_ne_true
    | with_reducible intro _ | ((with_reducible refine hasParts_trans hμ ?_); rfl) | with_reducible apply Touches.ite
    | with_reducible apply Touches.modPins | with_reducible apply powerFailCause_touches | split | dsimp only)

theorem execPwrfailAssert_touches {t : State} (hμ : hasParts μ (partSet [.free, .pins, .pwr, .thm, .clk, .start, .img,
    .resp, .tly, .spare, .bbx, .link, .coh, .ext, .hbm, .rng, .io, .seqs, .pfx, .casc, .ops, .attn, .core, .cdc,
    .tier, .wt, .ftl, .sch, .sec, .mgmt]) = true) (he : execPwrfailAssert s = .next t) (hs : Touches μ s₀ s) :
    Touches μ s₀ t := by
  unfold execPwrfailAssert at he
  cases he
  repeat' (first
    | with_reducible assumption | exact fun _ q => q | exact fun _ q => absurd q Bool.false_ne_true
    | with_reducible intro _ | ((with_reducible refine hasParts_trans hμ ?_); rfl)
    | with_reducible apply Touches.modPins | with_reducible apply powerFailCause_touches)

theorem execUndervoltage_touches {t : State} (vin : Nat) (hμ : hasParts μ (partSet [.free, .pins, .pwr, .thm, .clk,
    .start, .img, .resp, .tly, .spare, .bbx, .link, .coh, .ext, .hbm, .rng, .io, .seqs, .pfx, .casc, .ops, .attn,
    .core, .cdc, .tier, .wt, .ftl, .sch, .sec, .mgmt]) = true) (he : execUndervoltage vin s = .next t) (hs : Touches μ
    s₀ s) :
    Touches μ s₀ t := by
  unfold execUndervoltage at he
  cases he
  repeat' (first
    | with_reducible assumption | with_reducible intro _ | ((with_reducible refine hasParts_trans hμ ?_); rfl)
    | with_reducible apply Touches.ite | with_reducible apply Touches.modPwr | with_reducible apply setVin_touches
    | with_reducible apply powerFailCause_touches | split)

theorem execOvervoltageShutdown_touches {t : State} (vin : Nat) (hμ : hasParts μ (partSet [.free, .pins, .pwr, .thm,
    .clk, .start, .img, .resp, .tly, .spare, .bbx, .link, .coh, .ext, .hbm, .rng, .io, .seqs, .pfx, .casc, .ops,
    .attn, .core, .cdc, .tier, .wt, .ftl, .sch, .sec, .mgmt]) = true) (he : execOvervoltageShutdown vin s = .next t)
    (hs : Touches μ s₀ s) :
    Touches μ s₀ t := by
  unfold execOvervoltageShutdown at he
  cases he
  repeat' (first
    | with_reducible assumption | with_reducible intro _ | ((with_reducible refine hasParts_trans hμ ?_); rfl)
    | with_reducible apply Touches.ite | with_reducible apply Touches.modPwr | with_reducible apply setVin_touches
    | with_reducible apply powerFailCause_touches | split)

theorem execDiodeReverseCurrent_touches {t : State} (hμ : hasParts μ (partSet [.pwr]) = true) (he :
    execDiodeReverseCurrent s = .next t) (hs : Touches μ s₀ s) :
    Touches μ s₀ t := by
  unfold execDiodeReverseCurrent at he
  cases he
  repeat' (first
    | with_reducible assumption | with_reducible intro _ | ((with_reducible refine hasParts_trans hμ ?_); rfl)
    | with_reducible apply Touches.modPwr)

theorem formEnergy_touches (hμ : hasParts μ (partSet [.pwr, .bbx]) = true) (hs : Touches μ s₀ s) :
    Touches μ s₀ (formEnergy s) := by
  unfold formEnergy
  repeat' (first
    | with_reducible assumption | with_reducible intro _ | ((with_reducible refine hasParts_trans hμ ?_); rfl)
    | with_reducible apply Touches.ite | with_reducible apply Touches.modPwr | with_reducible apply Touches.when
    | with_reducible apply emit_touches | with_reducible apply startBleed_touches | split | dsimp only)

theorem execBankChargeDone_touches {t : State} (energy : Nat) (hμ : hasParts μ (partSet [.pwr, .bbx]) = true) (he :
    execBankChargeDone energy s = .next t) (hs : Touches μ s₀ s) :
    Touches μ s₀ t := by
  unfold execBankChargeDone at he
  cases he
  repeat' (first
    | with_reducible assumption | with_reducible intro _ | ((with_reducible refine hasParts_trans hμ ?_); rfl)
    | with_reducible apply Touches.ite | with_reducible apply Touches.modPwr
    | with_reducible apply formEnergy_touches | split | dsimp only)

theorem execBankBelowReady_touches {t : State} (hμ : hasParts μ (partSet [.pwr]) = true) (he : execBankBelowReady s =
    .next t) (hs : Touches μ s₀ s) :
    Touches μ s₀ t := by
  unfold execBankBelowReady at he
  cases he
  repeat' (first
    | with_reducible assumption | with_reducible intro _ | ((with_reducible refine hasParts_trans hμ ?_); rfl)
    | with_reducible apply Touches.modPwr)

theorem execBankBleedBelow20v_touches {t : State} (hμ : hasParts μ (partSet [.pwr]) = true) (he :
    execBankBleedBelow20v s = .next t) (hs : Touches μ s₀ s) :
    Touches μ s₀ t := by
  unfold execBankBleedBelow20v at he
  cases he
  repeat' (first
    | with_reducible assumption | with_reducible intro _ | ((with_reducible refine hasParts_trans hμ ?_); rfl)
    | with_reducible apply Touches.ite | with_reducible apply Touches.modPwr
    | with_reducible apply startCharge_touches | split | dsimp only)

theorem execWindowFlushDone_touches {t : State} (hμ : hasParts μ (partSet [.free, .pins, .pwr, .thm, .clk, .start,
    .img, .resp, .tly, .spare, .bbx, .link, .coh, .ext, .hbm, .rng, .io, .seqs, .pfx, .casc, .ops, .attn, .core, .cdc,
    .tier, .wt, .ftl, .sch, .sec, .mgmt]) = true) (he : execWindowFlushDone s = .next t) (hs : Touches μ s₀ s) :
    Touches μ s₀ t := by
  unfold execWindowFlushDone at he
  cases he
  repeat' (first
    | with_reducible assumption | ((with_reducible refine hasParts_trans hμ ?_); rfl)
    | with_reducible apply windowFlushed_touches)

theorem driveThermL_touches (hμ : hasParts μ (partSet [.pins]) = true) (hs : Touches μ s₀ s) :
    Touches μ s₀ (driveThermL s) := by
  unfold driveThermL
  repeat' (first
    | with_reducible assumption | exact fun _ q => q | exact fun _ q => absurd q Bool.false_ne_true
    | with_reducible intro _ | ((with_reducible refine hasParts_trans hμ ?_); rfl)
    | with_reducible apply Touches.modPins)

theorem execSensorSample_touches {t : State} (n : Nat) (temp : Int) (hμ : hasParts μ (partSet [.free, .pins, .pwr,
    .thm, .clk, .start, .img, .resp, .tly, .spare, .bbx, .link, .coh, .ext, .hbm, .rng, .io, .seqs, .pfx, .casc, .ops,
    .attn, .core, .cdc, .tier, .wt, .ftl, .sch, .sec, .mgmt]) = true) (he : execSensorSample n temp s = .next t) (hs :
    Touches μ s₀ s) :
    Touches μ s₀ t := by
  unfold execSensorSample at he
  cases he
  repeat' (first
    | with_reducible assumption | with_reducible intro _ | ((with_reducible refine hasParts_trans hμ ?_); rfl)
    | with_reducible apply Touches.ite | with_reducible apply Touches.modThm
    | with_reducible apply driveThermL_touches | with_reducible apply tripCause_touches | split | dsimp only)

theorem execThermalLevelExit_touches {t : State} (hμ : hasParts μ (partSet [.pins, .thm]) = true) (he :
    execThermalLevelExit s = .next t) (hs : Touches μ s₀ s) :
    Touches μ s₀ t := by
  unfold execThermalLevelExit at he
  cases he
  repeat' (first
    | with_reducible assumption | with_reducible intro _ | ((with_reducible refine hasParts_trans hμ ?_); rfl)
    | with_reducible apply Touches.ite | with_reducible apply Touches.modThm
    | with_reducible apply driveThermL_touches | split | dsimp only)

theorem execPowerLevelStepDown_touches {t : State} (hμ : hasParts μ (partSet [.pins, .pwr]) = true) (he :
    execPowerLevelStepDown s = .next t) (hs : Touches μ s₀ s) :
    Touches μ s₀ t := by
  unfold execPowerLevelStepDown at he
  cases he
  repeat' (first
    | with_reducible assumption | with_reducible intro _ | ((with_reducible refine hasParts_trans hμ ?_); rfl)
    | with_reducible apply Touches.modPwr | with_reducible apply driveThermL_touches)

theorem execPowerGovernorMeasure_touches {t : State} (vin power level : Nat) (lines : Lines) (hμ : hasParts μ (partSet
    [.pins, .pwr, .thm]) = true) (he : execPowerGovernorMeasure vin power level lines s = .next t) (hs : Touches μ s₀
    s) :
    Touches μ s₀ t := by
  unfold execPowerGovernorMeasure at he
  cases he
  repeat' (first
    | with_reducible assumption | with_reducible intro _ | ((with_reducible refine hasParts_trans hμ ?_); rfl)
    | with_reducible apply Touches.modPwr | with_reducible apply setLines_touches
    | with_reducible apply setVin_touches | with_reducible apply driveThermL_touches)

theorem execUnplugRequest_touches {t : State} (hμ : hasParts μ (partSet [.free, .pins, .pwr, .thm, .clk, .start, .img,
    .resp, .tly, .spare, .bbx, .link, .coh, .ext, .hbm, .rng, .io, .seqs, .pfx, .casc, .ops, .attn, .core, .cdc,
    .tier, .wt, .ftl, .sch, .sec, .mgmt]) = true) (he : execUnplugRequest s = .next t) (hs : Touches μ s₀ s) :
    Touches μ s₀ t := by
  unfold execUnplugRequest at he
  cases he
  repeat' (first
    | with_reducible assumption | exact fun _ q => q | exact fun _ q => absurd q Bool.false_ne_true
    | with_reducible intro _ | ((with_reducible refine hasParts_trans hμ ?_); rfl)
    | with_reducible apply Touches.modPins | with_reducible apply unplugCause_touches)

theorem execQuiesceOpDeadline_touches {t : State} (hμ : hasParts μ (partSet [.free, .pins, .pwr, .thm, .clk, .start,
    .img, .resp, .tly, .spare, .bbx, .link, .coh, .ext, .hbm, .rng, .io, .seqs, .pfx, .casc, .ops, .attn, .core, .cdc,
    .tier, .wt, .ftl, .sch, .sec, .mgmt]) = true) (he : execQuiesceOpDeadline s = .next t) (hs : Touches μ s₀ s) :
    Touches μ s₀ t := by
  unfold execQuiesceOpDeadline at he
  cases he
  repeat' (first
    | with_reducible assumption | ((with_reducible refine hasParts_trans hμ ?_); rfl)
    | with_reducible apply opsOver_touches)

theorem execLeakResponse_touches {t : State} (hμ : hasParts μ (partSet [.free, .pins, .pwr, .thm, .clk, .start, .img,
    .resp, .tly, .spare, .bbx, .link, .coh, .ext, .hbm, .rng, .io, .seqs, .pfx, .casc, .ops, .attn, .core, .cdc,
    .tier, .wt, .ftl, .sch, .sec, .mgmt]) = true) (he : execLeakResponse s = .next t) (hs : Touches μ s₀ s) :
    Touches μ s₀ t := by
  unfold execLeakResponse at he
  cases he
  repeat' (first
    | with_reducible assumption | exact fun _ q => q | exact fun _ q => absurd q Bool.false_ne_true
    | with_reducible intro _ | ((with_reducible refine hasParts_trans hμ ?_); rfl)
    | with_reducible apply Touches.modPins | with_reducible apply leakCause_touches)

theorem execLossOfLock_touches {t : State} (hμ : hasParts μ (partSet [.free, .pins, .pwr, .thm, .clk, .start, .img,
    .resp, .tly, .spare, .bbx, .link, .coh, .ext, .hbm, .rng, .io, .seqs, .pfx, .casc, .ops, .attn, .core, .cdc,
    .tier, .wt, .ftl, .sch, .sec, .mgmt]) = true) (he : execLossOfLock s = .next t) (hs : Touches μ s₀ s) :
    Touches μ s₀ t := by
  unfold execLossOfLock at he
  cases he
  repeat' (first
    | with_reducible assumption | with_reducible intro _ | ((with_reducible refine hasParts_trans hμ ?_); rfl)
    | with_reducible apply Touches.ite | with_reducible apply Touches.ite_snd | with_reducible apply Touches.modClk
    | with_reducible apply fresh_touches | with_reducible apply lockCause_touches
    | with_reducible apply Touches.of_snd (by with_reducible assumption) | split | dsimp only)

theorem prewriteEpoch_touches (hμ : hasParts μ (partSet [.free, .pins, .pwr, .thm, .clk, .start, .img, .resp, .tly,
    .spare, .bbx, .link, .coh, .ext, .hbm, .rng, .io, .seqs, .pfx, .casc, .ops, .attn, .core, .cdc, .tier, .wt, .ftl,
    .sch, .sec, .mgmt]) = true) (hs : Touches μ s₀ s) :
    Touches μ s₀ (prewriteEpoch s) := by
  unfold prewriteEpoch
  repeat' (first
    | with_reducible assumption | with_reducible intro _ | ((with_reducible refine hasParts_trans hμ ?_); rfl)
    | with_reducible apply Touches.ite | with_reducible apply Touches.modClk | with_reducible apply pairWrite_touches
    | with_reducible apply memoryFault_touches | split | dsimp only)

theorem execEpochPrewrite_touches {t : State} (hμ : hasParts μ (partSet [.free, .pins, .pwr, .thm, .clk, .start, .img,
    .resp, .tly, .spare, .bbx, .link, .coh, .ext, .hbm, .rng, .io, .seqs, .pfx, .casc, .ops, .attn, .core, .cdc,
    .tier, .wt, .ftl, .sch, .sec, .mgmt]) = true) (he : execEpochPrewrite s = .next t) (hs : Touches μ s₀ s) :
    Touches μ s₀ t := by
  unfold execEpochPrewrite at he
  cases he
  repeat' (first
    | with_reducible assumption | with_reducible intro _ | ((with_reducible refine hasParts_trans hμ ?_); rfl)
    | with_reducible apply Touches.ite | with_reducible apply Touches.modClk
    | with_reducible apply prewriteEpoch_touches | split | dsimp only)

theorem wrapClock_touches (hμ : hasParts μ (partSet [.clk]) = true) (hs : Touches μ s₀ s) :
    Touches μ s₀ (wrapClock s) := by
  unfold wrapClock
  repeat' (first
    | with_reducible assumption | with_reducible intro _ | ((with_reducible refine hasParts_trans hμ ?_); rfl)
    | with_reducible apply Touches.ite | with_reducible apply Touches.modClk | split)

theorem execCclkWrap_touches {t : State} (hμ : hasParts μ (partSet [.free, .pins, .pwr, .thm, .clk, .start, .img,
    .resp, .tly, .spare, .bbx, .link, .coh, .ext, .hbm, .rng, .io, .seqs, .pfx, .casc, .ops, .attn, .core, .cdc,
    .tier, .wt, .ftl, .sch, .sec, .mgmt]) = true) (he : execCclkWrap s = .next t) (hs : Touches μ s₀ s) :
    Touches μ s₀ t := by
  unfold execCclkWrap at he
  cases he
  repeat' (first
    | with_reducible assumption | ((with_reducible refine hasParts_trans hμ ?_); rfl)
    | with_reducible apply Touches.ite | with_reducible apply wrapClock_touches
    | with_reducible apply prewriteEpoch_touches | split)

end Sys2Proof.Machine
end

