-- ==== Sys2Proof/Laws/SparesTouches.lean ====
section
/-! SUPPORT. Which parts of State the operations of Machine/Spares.lean may touch: one lemma per operation. -/

namespace Sys2Proof.Machine

open Sys2Proof

variable {μ : Nat} {s₀ s : State}

theorem retireBank_touches (b : Nat) (hμ : hasParts μ (partSet [.free, .pins, .pwr, .thm, .clk, .start, .img, .resp,
    .tly, .spare, .bbx, .link, .coh, .ext, .hbm, .rng, .io, .seqs, .pfx, .casc, .ops, .attn, .core, .cdc, .tier, .wt,
    .ftl, .sch, .sec, .mgmt]) = true) (hs : Touches μ s₀ s) :
    Touches μ s₀ (retireBank b s) := by
  unfold retireBank
  repeat' (first
    | with_reducible assumption | ((with_reducible refine hasParts_trans hμ ?_); rfl)
    | with_reducible apply Touches.ite | with_reducible apply emit_touches | with_reducible apply spareSet_touches
    | with_reducible apply memoryFault_touches | split | dsimp only)

theorem failBank_touches (phys : Nat) (hμ : hasParts μ (partSet [.free, .pins, .pwr, .thm, .clk, .start, .img, .resp,
    .tly, .spare, .bbx, .link, .coh, .ext, .hbm, .rng, .io, .seqs, .pfx, .casc, .ops, .attn, .core, .cdc, .tier, .wt,
    .ftl, .sch, .sec, .mgmt]) = true) (hs : Touches μ s₀ s) :
    Touches μ s₀ (failBank phys s) := by
  unfold failBank
  repeat' (first
    | with_reducible assumption | ((with_reducible refine hasParts_trans hμ ?_); rfl)
    | with_reducible apply Touches.ite | with_reducible apply retireBank_touches
    | with_reducible apply spareSet_touches | split | dsimp only)

theorem execBankRebuildDone_touches {t : State} (bank : Nat) (hμ : hasParts μ (partSet [.spare, .bbx, .pfx]) = true)
    (he : execBankRebuildDone bank s = .next t) (hs : Touches μ s₀ s) :
    Touches μ s₀ t := by
  unfold execBankRebuildDone at he
  cases he
  repeat' (first
    | with_reducible assumption | with_reducible intro _ | ((with_reducible refine hasParts_trans hμ ?_); rfl)
    | with_reducible apply Touches.ite | with_reducible apply Touches.modSpare | with_reducible apply Touches.modPfx
    | with_reducible apply working_touches | with_reducible apply emit_touches | split | dsimp only)

theorem loseBank_touches (b : Nat) (hμ : hasParts μ (partSet [.free, .pins, .pwr, .thm, .clk, .start, .img, .resp,
    .tly, .spare, .bbx, .link, .coh, .ext, .hbm, .rng, .io, .seqs, .pfx, .casc, .ops, .attn, .core, .cdc, .tier, .wt,
    .ftl, .sch, .sec, .mgmt]) = true) (hs : Touches μ s₀ s) :
    Touches μ s₀ (loseBank b s) := by
  unfold loseBank
  repeat' (first
    | with_reducible assumption | with_reducible intro _ | ((with_reducible refine hasParts_trans hμ ?_); rfl)
    | with_reducible apply Touches.ite | with_reducible apply Touches.modPfx
    | with_reducible apply retireBank_touches | split)

theorem execPmaPatrolRead_touches {t : State} (errors : List Nat) (hμ : hasParts μ (partSet [.free, .pins, .pwr, .thm,
    .clk, .start, .img, .resp, .tly, .spare, .bbx, .link, .coh, .ext, .hbm, .rng, .io, .seqs, .pfx, .casc, .ops,
    .attn, .core, .cdc, .tier, .wt, .ftl, .sch, .sec, .mgmt]) = true) (he : execPmaPatrolRead errors s = .next t) (hs
    : Touches μ s₀ s) :
    Touches μ s₀ t := by
  unfold execPmaPatrolRead at he
  cases he
  repeat' (first
    | with_reducible assumption | with_reducible intro _ | ((with_reducible refine hasParts_trans hμ ?_); rfl)
    | with_reducible apply Touches.ite | with_reducible apply Touches.modPfx | with_reducible apply Touches.forEach
    | with_reducible apply working_touches | with_reducible apply patrolRead_touches
    | with_reducible apply loseBank_touches | split | dsimp only)

theorem remapBlock_touches (stack block : Nat) (hμ : hasParts μ (partSet [.tly, .spare, .bbx]) = true) (hs : Touches μ
    s₀ s) :
    Touches μ s₀ (remapBlock stack block s) := by
  unfold remapBlock
  repeat' (first
    | with_reducible assumption | with_reducible intro _ | ((with_reducible refine hasParts_trans hμ ?_); rfl)
    | with_reducible apply Touches.ite | with_reducible apply Touches.modSpare
    | with_reducible apply spareSet_touches | split)

theorem execHbmUncorrectable_touches {t : State} (addr : Nat) (hμ : hasParts μ (partSet [.tly, .spare, .bbx, .coh]) =
    true) (he : execHbmUncorrectable addr s = .next t) (hs : Touches μ s₀ s) :
    Touches μ s₀ t := by
  unfold execHbmUncorrectable at he
  cases he
  repeat' (first
    | with_reducible assumption | exact fun _ q => q | with_reducible intro _
    | ((with_reducible refine hasParts_trans hμ ?_); rfl) | with_reducible apply Touches.ite
    | with_reducible apply Touches.modCoh | with_reducible apply remapBlock_touches
    | with_reducible apply emit_touches | split | dsimp only)

theorem execHbmCorrectedError_touches {t : State} (stack block : Nat) (hμ : hasParts μ (partSet [.tly, .spare, .bbx])
    = true) (he : execHbmCorrectedError stack block s = .next t) (hs : Touches μ s₀ s) :
    Touches μ s₀ t := by
  unfold execHbmCorrectedError at he
  cases he
  repeat' (first
    | with_reducible assumption | with_reducible intro _ | ((with_reducible refine hasParts_trans hμ ?_); rfl)
    | with_reducible apply Touches.ite | with_reducible apply Touches.modSpare | with_reducible apply working_touches
    | with_reducible apply remapBlock_touches | split | dsimp only)

theorem execHbmRemapDone_touches {t : State} (stack block : Nat) (hμ : hasParts μ (partSet [.tly, .spare, .bbx]) =
    true) (he : execHbmRemapDone stack block s = .next t) (hs : Touches μ s₀ s) :
    Touches μ s₀ t := by
  unfold execHbmRemapDone at he
  cases he
  repeat' (first
    | with_reducible assumption | with_reducible intro _ | ((with_reducible refine hasParts_trans hμ ?_); rfl)
    | with_reducible apply Touches.ite | with_reducible apply Touches.modSpare | with_reducible apply working_touches
    | with_reducible apply emit_touches | with_reducible apply spareSet_touches | split | dsimp only)

theorem execBridgeCrcLimit_touches {t : State} (die errors : Nat) (hμ : hasParts μ (partSet [.spare, .bbx]) = true)
    (he : execBridgeCrcLimit die errors s = .next t) (hs : Touches μ s₀ s) :
    Touches μ s₀ t := by
  unfold execBridgeCrcLimit at he
  cases he
  repeat' (first
    | with_reducible assumption | with_reducible intro _ | ((with_reducible refine hasParts_trans hμ ?_); rfl)
    | with_reducible apply Touches.ite | with_reducible apply Touches.modSpare | with_reducible apply working_touches
    | with_reducible apply emit_touches | split)

theorem execBridgeRetrainDone_touches {t : State} (die : Nat) (ok : Bool) (hμ : hasParts μ (partSet [.free, .pins,
    .pwr, .thm, .clk, .start, .img, .resp, .tly, .spare, .bbx, .link, .coh, .ext, .hbm, .rng, .io, .seqs, .pfx, .casc,
    .ops, .attn, .core, .cdc, .tier, .wt, .ftl, .sch, .sec, .mgmt]) = true) (he : execBridgeRetrainDone die ok s =
    .next t) (hs : Touches μ s₀ s) :
    Touches μ s₀ t := by
  unfold execBridgeRetrainDone at he
  cases he
  repeat' (first
    | with_reducible assumption | with_reducible intro _ | ((with_reducible refine hasParts_trans hμ ?_); rfl)
    | with_reducible apply Touches.ite | with_reducible apply Touches.modSpare | with_reducible apply Touches.modSeqs
    | with_reducible apply memoryFault_touches | with_reducible apply emit_touches | split | dsimp only)

theorem execFatalMemoryInternal_touches {t : State} (memory : Bool) (unit : FailUnit) (detail : Nat) (hit : List Nat)
    (hμ : hasParts μ (partSet [.free, .pins, .pwr, .thm, .clk, .start, .img, .resp, .tly, .spare, .bbx, .link, .coh,
    .ext, .hbm, .rng, .io, .seqs, .pfx, .casc, .ops, .attn, .core, .cdc, .tier, .wt, .ftl, .sch, .sec, .mgmt]) = true)
    (he : execFatalMemoryInternal memory unit detail hit s = .next t) (hs : Touches μ s₀ s) :
    Touches μ s₀ t := by
  unfold execFatalMemoryInternal at he
  cases he
  repeat' (first
    | with_reducible assumption | ((with_reducible refine hasParts_trans hμ ?_); rfl)
    | with_reducible apply Touches.ite | with_reducible apply memoryFault_touches | split)

theorem execSaddlebagEventWrite_touches {t : State} (hμ : hasParts μ (partSet [.bbx]) = true) (he :
    execSaddlebagEventWrite s = .next t) (hs : Touches μ s₀ s) :
    Touches μ s₀ t := by
  unfold execSaddlebagEventWrite at he
  cases he
  repeat' (first
    | with_reducible assumption | with_reducible intro _ | ((with_reducible refine hasParts_trans hμ ?_); rfl)
    | with_reducible apply Touches.ite | with_reducible apply Touches.modBbx | split)

theorem execSuppressionIntervalEnd_touches {t : State} (hμ : hasParts μ (partSet [.bbx, .cdc]) = true) (he :
    execSuppressionIntervalEnd s = .next t) (hs : Touches μ s₀ s) :
    Touches μ s₀ t := by
  unfold execSuppressionIntervalEnd at he
  cases he
  repeat' (first
    | with_reducible assumption | with_reducible intro _ | ((with_reducible refine hasParts_trans hμ ?_); rfl)
    | with_reducible apply Touches.modBbx | with_reducible apply Touches.foldl
    | with_reducible apply Touches.foldl_snd | with_reducible apply Touches.foldl_snd3
    | with_reducible apply enqueue_touches)

theorem execSaddlebagCopyDone_touches {t : State} (hμ : hasParts μ (partSet [.pins, .pwr, .thm, .clk, .start, .img,
    .resp, .tly, .spare, .bbx, .link, .coh, .ext, .hbm, .rng, .io, .seqs, .pfx, .casc, .ops, .attn, .core, .cdc,
    .tier, .wt, .ftl, .sch, .sec, .mgmt]) = true) (he : execSaddlebagCopyDone s = .next t) (hs : Touches μ s₀ s) :
    Touches μ s₀ t := by
  unfold execSaddlebagCopyDone at he
  cases he
  repeat' (first
    | with_reducible assumption | with_reducible intro _ | ((with_reducible refine hasParts_trans hμ ?_); rfl)
    | with_reducible apply Touches.modBbx | with_reducible apply settleCopy_touches | split)

theorem bbxCmd_touches (path : Path) (f : State → State) (hf : ∀ t, Touches μ s₀ t → Touches μ s₀ (f t)) (hs : Touches
    μ s₀ s) :
    Touches μ s₀ (bbxCmd path f s) := by
  unfold bbxCmd
  repeat' (first
    | with_reducible assumption | with_reducible apply Touches.ite | with_reducible apply hf | split)

theorem operatorSnapshot_touches (hμ : hasParts μ (partSet [.bbx]) = true) (hs : Touches μ s₀ s) :
    Touches μ s₀ (operatorSnapshot s) := by
  unfold operatorSnapshot
  repeat' (first
    | with_reducible assumption | ((with_reducible refine hasParts_trans hμ ?_); rfl)
    | with_reducible apply freeze_touches)

theorem holdSlot_touches (n : Nat) (hμ : hasParts μ (partSet [.bbx]) = true) (hs : Touches μ s₀ s) :
    Touches μ s₀ (holdSlot n s) := by
  unfold holdSlot
  repeat' (first
    | with_reducible assumption | with_reducible intro _ | ((with_reducible refine hasParts_trans hμ ?_); rfl)
    | with_reducible apply Touches.ite | with_reducible apply Touches.modBbx | split)

theorem releaseSlot_touches (n : Nat) (hμ : hasParts μ (partSet [.bbx]) = true) (hs : Touches μ s₀ s) :
    Touches μ s₀ (releaseSlot n s) := by
  unfold releaseSlot
  repeat' (first
    | with_reducible assumption | with_reducible intro _ | ((with_reducible refine hasParts_trans hμ ?_); rfl)
    | with_reducible apply Touches.modBbx)

theorem execOperatorSnapshot_touches {t : State} (path : Path) (hμ : hasParts μ (partSet [.bbx]) = true) (he :
    execOperatorSnapshot path s = .next t) (hs : Touches μ s₀ s) :
    Touches μ s₀ t := by
  unfold execOperatorSnapshot at he
  cases he
  repeat' (first
    | with_reducible assumption | with_reducible intro _ | ((with_reducible refine hasParts_trans hμ ?_); rfl)
    | with_reducible apply regAccess_touches | with_reducible apply bbxCmd_touches
    | with_reducible apply operatorSnapshot_touches)

theorem execHoldSlot_touches {t : State} (path : Path) (slot : Nat) (hμ : hasParts μ (partSet [.bbx]) = true) (he :
    execHoldSlot path slot s = .next t) (hs : Touches μ s₀ s) :
    Touches μ s₀ t := by
  unfold execHoldSlot at he
  cases he
  repeat' (first
    | with_reducible assumption | with_reducible intro _ | ((with_reducible refine hasParts_trans hμ ?_); rfl)
    | with_reducible apply regAccess_touches | with_reducible apply bbxCmd_touches
    | with_reducible apply holdSlot_touches)

theorem execReleaseSlot_touches {t : State} (path : Path) (slot : Nat) (hμ : hasParts μ (partSet [.bbx]) = true) (he :
    execReleaseSlot path slot s = .next t) (hs : Touches μ s₀ s) :
    Touches μ s₀ t := by
  unfold execReleaseSlot at he
  cases he
  repeat' (first
    | with_reducible assumption | with_reducible intro _ | ((with_reducible refine hasParts_trans hμ ?_); rfl)
    | with_reducible apply regAccess_touches | with_reducible apply bbxCmd_touches
    | with_reducible apply releaseSlot_touches)

theorem wordWrite_touches (value : Nat) (hμ : hasParts μ (partSet [.tly, .bbx]) = true) (hs : Touches μ s₀ s) :
    Touches μ s₀ (wordWrite value s) := by
  unfold wordWrite
  repeat' (first
    | with_reducible assumption | ((with_reducible refine hasParts_trans hμ ?_); rfl)
    | with_reducible apply Touches.ite | with_reducible apply tlyWrite_touches | split)

theorem execTlyWordWrite_touches {t : State} (path : Path) (value : Nat) (hμ : hasParts μ (partSet [.tly, .bbx]) =
    true) (he : execTlyWordWrite path value s = .next t) (hs : Touches μ s₀ s) :
    Touches μ s₀ t := by
  unfold execTlyWordWrite at he
  cases he
  repeat' (first
    | with_reducible assumption | with_reducible intro _ | ((with_reducible refine hasParts_trans hμ ?_); rfl)
    | with_reducible apply regAccess_touches | with_reducible apply asOperator_touches
    | with_reducible apply wordWrite_touches)

end Sys2Proof.Machine
end

