-- ==== Sys2Proof/Laws/StartTouches.lean ====
section
/-! SUPPORT. Which parts of State the operations of Machine/Start.lean may touch: one lemma per operation. -/

namespace Sys2Proof.Machine

open Sys2Proof

variable {μ : Nat} {s₀ s : State}

theorem endPhase_touches (n : Nat) (hμ : hasParts μ (partSet [.start]) = true) (hs : Touches μ s₀ s) :
    Touches μ s₀ (endPhase n s) := by
  unfold endPhase
  repeat' (first
    | with_reducible assumption | exact fun _ q => q | exact fun _ q => absurd q Bool.false_ne_true
    | with_reducible intro _ | ((with_reducible refine hasParts_trans hμ ?_); rfl)
    | with_reducible apply Touches.modStart)

theorem phaseEnds_touches (n : Nat) (f : State → State) (hf : ∀ t, Touches μ s₀ t → Touches μ s₀ (f t)) (hμ : hasParts
    μ (partSet [.start]) = true) (hs : Touches μ s₀ s) :
    Touches μ s₀ (phaseEnds n f s) := by
  unfold phaseEnds
  repeat' (first
    | with_reducible assumption | ((with_reducible refine hasParts_trans hμ ?_); rfl)
    | with_reducible apply Touches.ite | with_reducible apply endPhase_touches | with_reducible apply hf | split)

theorem execRstLFall_touches {t : State} (hμ : hasParts μ (partSet [.free, .pins, .pwr, .thm, .clk, .start, .img,
    .resp, .tly, .spare, .bbx, .link, .coh, .ext, .hbm, .rng, .io, .seqs, .pfx, .casc, .ops, .attn, .core, .cdc,
    .tier, .wt, .ftl, .sch, .sec, .mgmt]) = true) (he : execRstLFall s = .next t) (hs : Touches μ s₀ s) :
    Touches μ s₀ t := by
  unfold execRstLFall at he
  cases he
  repeat' (first
    | with_reducible assumption | exact fun _ q => q | exact fun _ q => absurd q Bool.false_ne_true
    | with_reducible intro _ | ((with_reducible refine hasParts_trans hμ ?_); rfl) | with_reducible apply Touches.ite
    | with_reducible apply Touches.modPins | with_reducible apply Touches.modStart
    | with_reducible apply resetCause_touches | with_reducible apply stage_touches | split | dsimp only)

theorem execRstLRise_touches {t : State} (lines : Lines) (hμ : hasParts μ (partSet [.pins, .pwr, .thm, .clk, .start,
    .img, .resp, .tly, .spare, .bbx, .link, .coh, .ext, .hbm, .rng, .io, .seqs, .pfx, .casc, .ops, .attn, .core, .cdc,
    .tier, .wt, .ftl, .sch, .sec, .mgmt]) = true) (he : execRstLRise lines s = .next t) (hs : Touches μ s₀ s) :
    Touches μ s₀ t := by
  unfold execRstLRise at he
  cases he
  repeat' (first
    | with_reducible assumption | exact fun _ q => q | exact fun _ q => absurd q Bool.false_ne_true
    | with_reducible intro _ | ((with_reducible refine hasParts_trans hμ ?_); rfl) | with_reducible apply Touches.ite
    | with_reducible apply Touches.modPins | with_reducible apply Touches.modStart
    | with_reducible apply setLines_touches | with_reducible apply beginStart_touches
    | with_reducible apply stage_touches | split | dsimp only)

theorem restartWrite_touches (key : Nat) (hμ : hasParts μ (partSet [.free, .pins, .pwr, .thm, .clk, .start, .img,
    .resp, .tly, .spare, .bbx, .link, .coh, .ext, .hbm, .rng, .io, .seqs, .pfx, .casc, .ops, .attn, .core, .cdc,
    .tier, .wt, .ftl, .sch, .sec, .mgmt]) = true) (hs : Touches μ s₀ s) :
    Touches μ s₀ (restartWrite key s) := by
  unfold restartWrite
  repeat' (first
    | with_reducible assumption | ((with_reducible refine hasParts_trans hμ ?_); rfl)
    | with_reducible apply Touches.ite | with_reducible apply resetCause_touches | split)

theorem execCfgRestart_touches {t : State} (path : Path) (key : Nat) (hμ : hasParts μ (partSet [.free, .pins, .pwr,
    .thm, .clk, .start, .img, .resp, .tly, .spare, .bbx, .link, .coh, .ext, .hbm, .rng, .io, .seqs, .pfx, .casc, .ops,
    .attn, .core, .cdc, .tier, .wt, .ftl, .sch, .sec, .mgmt]) = true) (he : execCfgRestart path key s = .next t) (hs :
    Touches μ s₀ s) :
    Touches μ s₀ t := by
  unfold execCfgRestart at he
  cases he
  repeat' (first
    | with_reducible assumption | with_reducible intro _ | ((with_reducible refine hasParts_trans hμ ?_); rfl)
    | with_reducible apply regAccess_touches | with_reducible apply asOperator_touches
    | with_reducible apply restartWrite_touches)

theorem loadTally_touches (bad : List Nat) (hμ : hasParts μ (partSet [.tly]) = true) (hs : Touches μ s₀ s) :
    Touches μ s₀ (loadTally bad s) := by
  unfold loadTally
  repeat' (first
    | with_reducible assumption | with_reducible intro _ | ((with_reducible refine hasParts_trans hμ ?_); rfl)
    | with_reducible apply Touches.modTly | with_reducible apply Touches.foldl
    | with_reducible apply Touches.foldl_snd | with_reducible apply Touches.foldl_snd3)

theorem execRefclkPresent_touches {t : State} (badWords : List Nat) (hμ : hasParts μ (partSet [.free, .pins, .pwr,
    .thm, .clk, .start, .img, .resp, .tly, .spare, .bbx, .link, .coh, .ext, .hbm, .rng, .io, .seqs, .pfx, .casc, .ops,
    .attn, .core, .cdc, .tier, .wt, .ftl, .sch, .sec, .mgmt]) = true) (he : execRefclkPresent badWords s = .next t)
    (hs : Touches μ s₀ s) :
    Touches μ s₀ t := by
  unfold execRefclkPresent at he
  cases he
  repeat' (first
    | with_reducible assumption | with_reducible intro _ | ((with_reducible refine hasParts_trans hμ ?_); rfl)
    | with_reducible apply Touches.ite | with_reducible apply Touches.modClk | with_reducible apply phaseEnds_touches
    | with_reducible apply loadTally_touches | with_reducible apply pairWrite_touches
    | with_reducible apply emit_touches | with_reducible apply memoryFault_touches | split | dsimp only)

theorem execPllLock_touches {t : State} (straps : Nat) (hμ : hasParts μ (partSet [.pins, .clk, .start]) = true) (he :
    execPllLock straps s = .next t) (hs : Touches μ s₀ s) :
    Touches μ s₀ t := by
  unfold execPllLock at he
  cases he
  repeat' (first
    | with_reducible assumption | exact fun _ q => q | exact fun _ q => absurd q Bool.false_ne_true
    | with_reducible intro _ | ((with_reducible refine hasParts_trans hμ ?_); rfl) | with_reducible apply Touches.ite
    | with_reducible apply Touches.modPins | with_reducible apply Touches.modClk
    | with_reducible apply phaseEnds_touches | with_reducible apply driveMaster_touches
    | with_reducible apply endPhase3_touches | split | dsimp only)

theorem writeQuotas_touches (ks : List Nat) (hμ : hasParts μ (partSet [.tly, .bbx]) = true) (hs : Touches μ s₀ s) :
    Touches μ s₀ (writeQuotas ks s) := by
  unfold writeQuotas
  repeat' (first
    | with_reducible assumption | with_reducible intro _ | ((with_reducible refine hasParts_trans hμ ?_); rfl)
    | with_reducible apply Touches.ite | with_reducible apply Touches.forEach | with_reducible apply tlyWrite_touches
    | split | dsimp only)

theorem settleFlashCaps_touches (hμ : hasParts μ (partSet [.tly, .bbx, .tier]) = true) (hs : Touches μ s₀ s) :
    Touches μ s₀ (settleFlashCaps s) := by
  unfold settleFlashCaps
  repeat' (first
    | with_reducible assumption | with_reducible intro _ | ((with_reducible refine hasParts_trans hμ ?_); rfl)
    | with_reducible apply Touches.ite | with_reducible apply Touches.modTier
    | with_reducible apply writeQuotas_touches | split)

theorem assignPorts_touches (i : Image) (hμ : hasParts μ (partSet [.link]) = true) (hs : Touches μ s₀ s) :
    Touches μ s₀ (assignPorts i s) := by
  unfold assignPorts
  repeat' (first
    | with_reducible assumption | with_reducible intro _ | ((with_reducible refine hasParts_trans hμ ?_); rfl)
    | with_reducible apply Touches.modLink)

theorem releaseNor_touches (hμ : hasParts μ (partSet [.pins, .start]) = true) (hs : Touches μ s₀ s) :
    Touches μ s₀ (releaseNor s) := by
  unfold releaseNor
  repeat' (first
    | with_reducible assumption | exact fun _ q => q | exact fun _ q => absurd q Bool.false_ne_true
    | with_reducible intro _ | ((with_reducible refine hasParts_trans hμ ?_); rfl)
    | with_reducible apply Touches.modPins | with_reducible apply Touches.modStart)

theorem acceptImage_touches (slotB : Bool) (img : SlotImage) (hμ : hasParts μ (partSet [.pins, .pwr, .start, .img,
    .tly, .bbx, .link, .hbm, .seqs, .tier, .sch, .sec]) = true) (hs : Touches μ s₀ s) :
    Touches μ s₀ (acceptImage slotB img s) := by
  unfold acceptImage
  repeat' (first
    | with_reducible assumption | exact fun _ => FusesKept.refl _ | with_reducible intro _
    | ((with_reducible refine hasParts_trans hμ ?_); rfl) | with_reducible apply Touches.modPwr
    | with_reducible apply Touches.modImg | with_reducible apply Touches.modHbm
    | with_reducible apply Touches.modSeqs | with_reducible apply Touches.modTier
    | with_reducible apply Touches.modSch | with_reducible apply Touches.modSec | with_reducible apply Touches.foldl
    | with_reducible apply Touches.foldl_snd | with_reducible apply Touches.foldl_snd3
    | with_reducible apply releaseNor_touches | with_reducible apply emit_touches
    | with_reducible apply assignPorts_touches | with_reducible apply formEnergy_touches
    | with_reducible apply driveMaster_touches | with_reducible apply settleFlashCaps_touches
    | with_reducible apply writeQuotas_touches | with_reducible apply endPhase_touches)

theorem execImageSlotChecked_touches {t : State} (img : SlotImage) (hμ : hasParts μ (partSet [.free, .pins, .pwr,
    .thm, .clk, .start, .img, .resp, .tly, .spare, .bbx, .link, .coh, .ext, .hbm, .rng, .io, .seqs, .pfx, .casc, .ops,
    .attn, .core, .cdc, .tier, .wt, .ftl, .sch, .sec, .mgmt]) = true) (he : execImageSlotChecked img s = .next t) (hs
    : Touches μ s₀ s) :
    Touches μ s₀ t := by
  unfold execImageSlotChecked at he
  cases he
  repeat' (first
    | with_reducible assumption | exact fun _ q => q | exact fun _ q => absurd q Bool.false_ne_true
    | with_reducible intro _ | ((with_reducible refine hasParts_trans hμ ?_); rfl) | with_reducible apply Touches.ite
    | with_reducible apply Touches.modStart | with_reducible apply Touches.modImg
    | with_reducible apply acceptImage_touches | with_reducible apply imageFault_touches
    | with_reducible apply releaseNor_touches | split | dsimp only)

theorem execSensorTrimDone_touches {t : State} (hμ : hasParts μ (partSet [.start]) = true) (he : execSensorTrimDone s
    = .next t) (hs : Touches μ s₀ s) :
    Touches μ s₀ t := by
  unfold execSensorTrimDone at he
  cases he
  repeat' (first
    | with_reducible assumption | with_reducible intro _ | ((with_reducible refine hasParts_trans hμ ?_); rfl)
    | with_reducible apply phaseEnds_touches | assumption)

theorem pprRepair_touches (stack row : Nat) (hμ : hasParts μ (partSet [.tly, .spare, .bbx]) = true) (hs : Touches μ s₀
    s) :
    Touches μ s₀ (pprRepair stack row s) := by
  unfold pprRepair
  repeat' (first
    | with_reducible assumption | ((with_reducible refine hasParts_trans hμ ?_); rfl)
    | with_reducible apply emit_touches | with_reducible apply spareSet_touches)

theorem execHbmTrainingDone_touches {t : State} (ppr : List (Nat × Nat)) (failed : Option Nat) (hμ : hasParts μ
    (partSet [.free, .pins, .pwr, .thm, .clk, .start, .img, .resp, .tly, .spare, .bbx, .link, .coh, .ext, .hbm, .rng,
    .io, .seqs, .pfx, .casc, .ops, .attn, .core, .cdc, .tier, .wt, .ftl, .sch, .sec, .mgmt]) = true) (he :
    execHbmTrainingDone ppr failed s = .next t) (hs : Touches μ s₀ s) :
    Touches μ s₀ t := by
  unfold execHbmTrainingDone at he
  cases he
  repeat' (first
    | with_reducible assumption | with_reducible intro _ | ((with_reducible refine hasParts_trans hμ ?_); rfl)
    | with_reducible apply Touches.ite | with_reducible apply Touches.forEach
    | with_reducible apply pprRepair_touches | with_reducible apply memoryFault_touches
    | with_reducible apply endPhase_touches | split | dsimp only)

theorem execHbmZeroDone_touches {t : State} (hμ : hasParts μ (partSet [.start]) = true) (he : execHbmZeroDone s =
    .next t) (hs : Touches μ s₀ s) :
    Touches μ s₀ t := by
  unfold execHbmZeroDone at he
  cases he
  repeat' (first
    | with_reducible assumption | with_reducible intro _ | ((with_reducible refine hasParts_trans hμ ?_); rfl)
    | with_reducible apply phaseEnds_touches | assumption)

theorem execOnfiTrainingDone_touches {t : State} (geo : Geometry) (present offline : List (Nat × Nat)) (hμ : hasParts
    μ (partSet [.start, .tly, .bbx, .tier, .ftl]) = true) (he : execOnfiTrainingDone geo present offline s = .next t)
    (hs : Touches μ s₀ s) :
    Touches μ s₀ t := by
  unfold execOnfiTrainingDone at he
  cases he
  repeat' (first
    | with_reducible assumption | with_reducible intro _ | ((with_reducible refine hasParts_trans hμ ?_); rfl)
    | with_reducible apply Touches.ite | with_reducible apply Touches.modFtl | with_reducible apply Touches.forEach
    | with_reducible apply phaseEnds_touches | with_reducible apply settleFlashCaps_touches
    | with_reducible apply emit_touches | split | dsimp only)

theorem failTallyWord_touches (w : Nat) (hμ : hasParts μ (partSet [.free, .pins, .pwr, .thm, .clk, .start, .img,
    .resp, .tly, .spare, .bbx, .link, .coh, .ext, .hbm, .rng, .io, .seqs, .pfx, .casc, .ops, .attn, .core, .cdc,
    .tier, .wt, .ftl, .sch, .sec, .mgmt]) = true) (hs : Touches μ s₀ s) :
    Touches μ s₀ (failTallyWord w s) := by
  unfold failTallyWord
  repeat' (first
    | with_reducible assumption | with_reducible intro _ | ((with_reducible refine hasParts_trans hμ ?_); rfl)
    | with_reducible apply Touches.ite | with_reducible apply Touches.modTly | with_reducible apply tlyWrite_touches
    | with_reducible apply memoryFault_touches | split | dsimp only)

theorem failRow_touches (c row : Nat) (hμ : hasParts μ (partSet [.free, .pins, .pwr, .thm, .clk, .start, .img, .resp,
    .tly, .spare, .bbx, .link, .coh, .ext, .hbm, .rng, .io, .seqs, .pfx, .casc, .ops, .attn, .core, .cdc, .tier, .wt,
    .ftl, .sch, .sec, .mgmt]) = true) (hs : Touches μ s₀ s) :
    Touches μ s₀ (failRow c row s) := by
  unfold failRow
  repeat' (first
    | with_reducible assumption | ((with_reducible refine hasParts_trans hμ ?_); rfl)
    | with_reducible apply Touches.ite | with_reducible apply Touches.ite_snd
    | with_reducible apply replaceRow_touches | with_reducible apply memoryFault_touches
    | with_reducible apply Touches.of_snd (by with_reducible assumption) | split | dsimp only)

theorem execArrayChecksDone_touches {t : State} (banks : List Nat) (rows : List (Nat × Nat)) (tally : List Nat) (hμ :
    hasParts μ (partSet [.free, .pins, .pwr, .thm, .clk, .start, .img, .resp, .tly, .spare, .bbx, .link, .coh, .ext,
    .hbm, .rng, .io, .seqs, .pfx, .casc, .ops, .attn, .core, .cdc, .tier, .wt, .ftl, .sch, .sec, .mgmt]) = true) (he :
    execArrayChecksDone banks rows tally s = .next t) (hs : Touches μ s₀ s) :
    Touches μ s₀ t := by
  unfold execArrayChecksDone at he
  cases he
  repeat' (first
    | with_reducible assumption | with_reducible intro _ | ((with_reducible refine hasParts_trans hμ ?_); rfl)
    | with_reducible apply Touches.ite | with_reducible apply Touches.forEach
    | with_reducible apply phaseEnds_touches | with_reducible apply failTallyWord_touches
    | with_reducible apply failBank_touches | with_reducible apply failRow_touches | split | dsimp only)

theorem execCoreSelfTestDone_touches {t : State} (bad : List (Nat × Nat)) (hμ : hasParts μ (partSet [.start, .tly,
    .spare, .bbx, .sch]) = true) (he : execCoreSelfTestDone bad s = .next t) (hs : Touches μ s₀ s) :
    Touches μ s₀ t := by
  unfold execCoreSelfTestDone at he
  cases he
  repeat' (first
    | with_reducible assumption | with_reducible intro _ | ((with_reducible refine hasParts_trans hμ ?_); rfl)
    | with_reducible apply Touches.forEach | with_reducible apply phaseEnds_touches
    | with_reducible apply retireCore_touches)

theorem calibratePort_touches (n : Nat) (c : LaneCal) (hμ : hasParts μ (partSet [.tly, .spare, .bbx, .link]) = true)
    (hs : Touches μ s₀ s) :
    Touches μ s₀ (calibratePort n c s) := by
  unfold calibratePort
  repeat' (first
    | with_reducible assumption | with_reducible intro _ | ((with_reducible refine hasParts_trans hμ ?_); rfl)
    | with_reducible apply Touches.ite | with_reducible apply modPort_touches | with_reducible apply spareSet_touches
    | with_reducible apply emit_touches | split | dsimp only)

theorem calibrateBays_touches (bays : List BayCal) (hμ : hasParts μ (partSet [.tly, .spare, .bbx, .link]) = true) (hs
    : Touches μ s₀ s) :
    Touches μ s₀ (calibrateBays bays s) := by
  unfold calibrateBays
  repeat' (first
    | with_reducible assumption | with_reducible intro _ | ((with_reducible refine hasParts_trans hμ ?_); rfl)
    | with_reducible apply Touches.ite | with_reducible apply Touches.modLink | with_reducible apply spareSet_touches
    | with_reducible apply emit_touches | split | dsimp only)

theorem execOpticalCalibrationDone_touches {t : State} (bays : List BayCal) (lanes : List LaneCal) (hμ : hasParts μ
    (partSet [.start, .tly, .spare, .bbx, .link]) = true) (he : execOpticalCalibrationDone bays lanes s = .next t) (hs
    : Touches μ s₀ s) :
    Touches μ s₀ t := by
  unfold execOpticalCalibrationDone at he
  cases he
  repeat' (first
    | with_reducible assumption | with_reducible intro _ | ((with_reducible refine hasParts_trans hμ ?_); rfl)
    | with_reducible apply Touches.forEach | with_reducible apply phaseEnds_touches
    | with_reducible apply calibrateBays_touches | with_reducible apply calibratePort_touches)

theorem execServiceStartDone_touches {t : State} (hμ : hasParts μ (partSet [.start]) = true) (he :
    execServiceStartDone s = .next t) (hs : Touches μ s₀ s) :
    Touches μ s₀ t := by
  unfold execServiceStartDone at he
  cases he
  repeat' (first
    | with_reducible assumption | with_reducible intro _ | ((with_reducible refine hasParts_trans hμ ?_); rfl)
    | with_reducible apply phaseEnds_touches | assumption)

theorem execRdyAssert_touches {t : State} (hμ : hasParts μ (partSet [.pins, .start, .tly, .bbx, .link, .hbm, .io,
    .seqs, .pfx, .casc, .cdc, .tier, .wt, .ftl, .sec]) = true) (he : execRdyAssert s = .next t) (hs : Touches μ s₀ s)
    :
    Touches μ s₀ t := by
  have key : ∀ (t : State) (n : Nat) (c : Prop) [Decidable c], t.start.active = false → Touches μ s₀ t →
      Touches μ s₀ ((if c then pairWrite 2 (BitVec.ofNat 32 n) t else t).modPins fun p => { p with rdy := true }) := by
    intro t n c _ ht h
    have h2 : Touches μ s₀ (if c then pairWrite 2 (BitVec.ofNat 32 n) t else t) :=
      Touches.ite (pairWrite_touches _ _ (hasParts_trans hμ rfl) h) h
    have h3 : (if c then pairWrite 2 (BitVec.ofNat 32 n) t else t).start = t.start := by
      split
      · exact (pairWrite_touches 2 (BitVec.ofNat 32 n) rfl (Touches.refl (partSet [.tly, .bbx]) t)).start.resolve_left
          (by decide)
      · rfl
    exact h2.next (n := StPart.pins.bit) (hasParts_trans hμ rfl)
      ⟨rfl, id, .refl _, fun _ _ => (congrArg StartSt.active h3).trans ht, id, .inr rfl, .inl rfl, .inr rfl, .inr rfl, .inr rfl, .inr rfl, .inr rfl, .inr rfl, .inr rfl, .inr rfl, .inr rfl, .inr rfl, .inr rfl, .inr rfl, .inr rfl, .inr rfl, .inr rfl, .inr rfl, .inr rfl, .inr rfl, .inr rfl, .inr rfl, .inr rfl, .inr rfl, .inr rfl, .inr rfl, .inr rfl, .inr rfl, .inr rfl, .inr rfl⟩
  unfold execRdyAssert at he
  cases he
  split
  · exact hs
  · refine refreshView_touches (hasParts_trans hμ rfl) ?_
    have h4 : Touches μ s₀ ((endPhase 13 s).modStart fun x => { x with active := false, rdyTime := now s % 2 ^ 32 }) :=
      Touches.modStart _ (fun _ q => absurd q Bool.false_ne_true) (hasParts_trans hμ rfl)
        (endPhase_touches _ (hasParts_trans hμ rfl) hs)
    exact key _ _ _ rfl h4

end Sys2Proof.Machine
end

