-- ==== Sys2Proof/Laws/RegistersTouches.lean ====
section
/-! SUPPORT. Which parts of State the operations of Machine/Registers.lean may touch: one lemma per operation. -/

namespace Sys2Proof.Machine

open Sys2Proof

variable {μ : Nat} {s₀ s : State}

theorem latch_touches (path : Path) (i : Nat) (hμ : hasParts μ (partSet [.mgmt]) = true) (hs : Touches μ s₀ s) :
    Touches μ s₀ (latch path i s) := by
  unfold latch
  repeat' (first
    | with_reducible assumption | with_reducible intro _ | ((with_reducible refine hasParts_trans hμ ?_); rfl)
    | with_reducible apply Touches.modMgmt | split)

theorem bbxAdvance_touches (hμ : hasParts μ (partSet [.bbx]) = true) (hs : Touches μ s₀ s) :
    Touches μ s₀ (bbxAdvance s) := by
  unfold bbxAdvance
  repeat' (first
    | with_reducible assumption | with_reducible intro _ | ((with_reducible refine hasParts_trans hμ ?_); rfl)
    | with_reducible apply Touches.modBbx)

theorem readEffect_touches (path : Path) (off : Nat) (hμ : hasParts μ (partSet [.bbx, .mgmt]) = true) (hs : Touches μ
    s₀ s) :
    Touches μ s₀ (readEffect path off s) := by
  unfold readEffect
  repeat' (first
    | with_reducible assumption | ((with_reducible refine hasParts_trans hμ ?_); rfl)
    | with_reducible apply Touches.ite | with_reducible apply latch_touches | with_reducible apply bbxAdvance_touches
    | split)

theorem rawRead_touches (path : Path) (off : Nat) (hμ : hasParts μ (partSet [.free, .bbx, .core, .sec, .mgmt]) = true)
    (hs : Touches μ s₀ s) :
    Touches μ s₀ (rawRead path off s).2 := by
  unfold rawRead
  repeat' (first
    | with_reducible assumption | ((with_reducible refine hasParts_trans hμ ?_); rfl)
    | with_reducible apply Touches.ite | with_reducible apply Touches.ite_snd
    | with_reducible apply debugRead_touches | with_reducible apply readEffect_touches
    | with_reducible apply Touches.of_snd (by with_reducible assumption) | split)

theorem readWord_touches (path : Path) (off : Nat) (hμ : hasParts μ (partSet [.free, .bbx, .core, .sec, .mgmt]) =
    true) (hs : Touches μ s₀ s) :
    Touches μ s₀ (readWord path off s).2 := by
  unfold readWord
  repeat' (first
    | with_reducible assumption | ((with_reducible refine hasParts_trans hμ ?_); rfl)
    | with_reducible apply Touches.ite | with_reducible apply Touches.ite_snd | with_reducible apply rawRead_touches
    | with_reducible apply Touches.of_snd (by with_reducible assumption) | split)

theorem writeRng_touches (path : Path) (o v : Nat) (hμ : hasParts μ (partSet [.hbm, .rng, .sch]) = true) (hs : Touches
    μ s₀ s) :
    Touches μ s₀ (writeRng path o v s) := by
  unfold writeRng
  repeat' (first
    | with_reducible assumption | exact fun _ q => q | with_reducible intro _
    | ((with_reducible refine hasParts_trans hμ ?_); rfl) | with_reducible apply Touches.modRng
    | with_reducible apply ringWriteCmd_touches | with_reducible apply ringReadCmd_touches
    | with_reducible apply ringDrainCmd_touches | split)

theorem writePwu_touches (path : Path) (x : Party) (o v : Nat) (hμ : hasParts μ (partSet [.seqs, .sec]) = true) (hs :
    Touches μ s₀ s) :
    Touches μ s₀ (writePwu path x o v s) := by
  unfold writePwu
  repeat' (first
    | with_reducible assumption | with_reducible intro _ | ((with_reducible refine hasParts_trans hμ ?_); rfl)
    | with_reducible apply Touches.ite | with_reducible apply Touches.modSeqs
    | with_reducible apply mdLoadCmd_touches | with_reducible apply mdReadCmd_touches
    | with_reducible apply mdUnloadCmd_touches | split)

theorem writePma_touches (path : Path) (o v : Nat) (hμ : hasParts μ (partSet [.pfx]) = true) (hs : Touches μ s₀ s) :
    Touches μ s₀ (writePma path o v s) := by
  unfold writePma
  repeat' (first
    | with_reducible assumption | with_reducible intro _ | ((with_reducible refine hasParts_trans hμ ?_); rfl)
    | with_reducible apply Touches.modPfx | with_reducible apply polCmd_touches | split)

theorem writeHeatCfg_touches (v : Nat) (hμ : hasParts μ (partSet [.tier]) = true) (hs : Touches μ s₀ s) :
    Touches μ s₀ (writeHeatCfg v s) := by
  unfold writeHeatCfg
  repeat' (first
    | with_reducible assumption | with_reducible intro _ | ((with_reducible refine hasParts_trans hμ ?_); rfl)
    | with_reducible apply Touches.ite | with_reducible apply Touches.modTier | split | dsimp only)

theorem writeTier_touches (o v : Nat) (hμ : hasParts μ (partSet [.tly, .bbx, .ext, .hbm, .seqs, .tier, .wt, .ftl]) =
    true) (hs : Touches μ s₀ s) :
    Touches μ s₀ (writeTier o v s) := by
  unfold writeTier
  repeat' (first
    | with_reducible assumption | with_reducible intro _ | ((with_reducible refine hasParts_trans hμ ?_); rfl)
    | with_reducible apply Touches.ite | with_reducible apply Touches.modExt | with_reducible apply Touches.modTier
    | with_reducible apply writeHeatCfg_touches | with_reducible apply quotaWrite_touches | split)

theorem writeFtlCfg_touches (v : Nat) (hμ : hasParts μ (partSet [.ftl]) = true) (hs : Touches μ s₀ s) :
    Touches μ s₀ (writeFtlCfg v s) := by
  unfold writeFtlCfg
  repeat' (first
    | with_reducible assumption | with_reducible intro _ | ((with_reducible refine hasParts_trans hμ ?_); rfl)
    | with_reducible apply Touches.ite | with_reducible apply Touches.modFtl | split | dsimp only)

theorem writeFtl_touches (o v : Nat) (hμ : hasParts μ (partSet [.ftl]) = true) (hs : Touches μ s₀ s) :
    Touches μ s₀ (writeFtl o v s) := by
  unfold writeFtl
  repeat' (first
    | with_reducible assumption | with_reducible intro _ | ((with_reducible refine hasParts_trans hμ ?_); rfl)
    | with_reducible apply Touches.modFtl | with_reducible apply writeFtlCfg_touches | split)

theorem writeSchCfg_touches (v : Nat) (hμ : hasParts μ (partSet [.sch]) = true) (hs : Touches μ s₀ s) :
    Touches μ s₀ (writeSchCfg v s) := by
  unfold writeSchCfg
  repeat' (first
    | with_reducible assumption | with_reducible intro _ | ((with_reducible refine hasParts_trans hμ ?_); rfl)
    | with_reducible apply Touches.ite | with_reducible apply Touches.modSch | split | dsimp only)

theorem writePart_touches (p v : Nat) (hμ : hasParts μ (partSet [.free, .bbx, .link, .coh, .ext, .hbm, .rng, .io,
    .seqs, .pfx, .casc, .ops, .attn, .cdc, .tier, .wt, .ftl, .sch, .sec]) = true) (hs : Touches μ s₀ s) :
    Touches μ s₀ (writePart p v s) := by
  unfold writePart
  repeat' (first
    | with_reducible assumption | with_reducible intro _ | ((with_reducible refine hasParts_trans hμ ?_); rfl)
    | with_reducible apply Touches.when | with_reducible apply resetByOperator_touches
    | with_reducible apply modPart_touches)

theorem writeSch_touches (path : Path) (x : Party) (o v : Nat) (hμ : hasParts μ (partSet [.free, .bbx, .link, .coh,
    .ext, .hbm, .rng, .io, .seqs, .pfx, .casc, .ops, .attn, .cdc, .tier, .wt, .ftl, .sch, .sec]) = true) (hs : Touches
    μ s₀ s) :
    Touches μ s₀ (writeSch path x o v s) := by
  unfold writeSch
  repeat' (first
    | with_reducible assumption | with_reducible intro _ | ((with_reducible refine hasParts_trans hμ ?_); rfl)
    | with_reducible apply Touches.ite | with_reducible apply Touches.modSch
    | with_reducible apply writeSchCfg_touches | with_reducible apply ctxWriteCmd_touches
    | with_reducible apply ctxReadCmd_touches | with_reducible apply ctxDisableCmd_touches
    | with_reducible apply writePart_touches | split)

theorem writeFuse_touches (path : Path) (v : Nat) (hμ : hasParts μ (partSet [.sec]) = true) (hs : Touches μ s₀ s) :
    Touches μ s₀ (writeFuse path v s) := by
  unfold writeFuse
  repeat' (first
    | with_reducible assumption | with_reducible intro _ | ((with_reducible refine hasParts_trans hμ ?_); rfl)
    | with_reducible apply fuseCmd_touches | with_reducible apply fuseProgram_touches
    | with_reducible apply fuseRevoke_touches | split)

theorem writeDbgCtl_touches (v : Nat) (hμ : hasParts μ (partSet [.bbx, .attn, .core, .sec]) = true) (hs : Touches μ s₀
    s) :
    Touches μ s₀ (writeDbgCtl v s) := by
  unfold writeDbgCtl
  repeat' (first
    | with_reducible assumption | exact fun _ => FusesKept.refl _ | with_reducible intro _
    | ((with_reducible refine hasParts_trans hμ ?_); rfl) | with_reducible apply Touches.modSec
    | with_reducible apply Touches.when | with_reducible apply debugStep_touches
    | with_reducible apply debugHalt_touches)

theorem writeSlot_touches (n v : Nat) (hμ : hasParts μ (partSet [.sec]) = true) (hs : Touches μ s₀ s) :
    Touches μ s₀ (writeSlot n v s) := by
  unfold writeSlot
  repeat' (first
    | with_reducible assumption | exact fun _ => FusesKept.refl _ | with_reducible intro _
    | ((with_reducible refine hasParts_trans hμ ?_); rfl) | with_reducible apply Touches.ite
    | with_reducible apply Touches.modSec | split)

theorem writeSec_touches (path : Path) (o v : Nat) (hμ : hasParts μ (partSet [.bbx, .attn, .core, .sec]) = true) (hs :
    Touches μ s₀ s) :
    Touches μ s₀ (writeSec path o v s) := by
  unfold writeSec
  repeat' (first
    | with_reducible assumption | exact fun _ => FusesKept.refl _ | with_reducible intro _
    | ((with_reducible refine hasParts_trans hμ ?_); rfl) | with_reducible apply Touches.modSec
    | with_reducible apply writeFuse_touches | with_reducible apply writeDbgCtl_touches
    | with_reducible apply debugWrite_touches | with_reducible apply writeSlot_touches | split)

theorem writeTly_touches (o v : Nat) (hμ : hasParts μ (partSet [.tly, .bbx]) = true) (hs : Touches μ s₀ s) :
    Touches μ s₀ (writeTly o v s) := by
  unfold writeTly
  repeat' (first
    | with_reducible assumption | with_reducible intro _ | ((with_reducible refine hasParts_trans hμ ?_); rfl)
    | with_reducible apply Touches.modTly | with_reducible apply wordWrite_touches | split)

theorem writeBbxCmd_touches (v : Nat) (hμ : hasParts μ (partSet [.bbx]) = true) (hs : Touches μ s₀ s) :
    Touches μ s₀ (writeBbxCmd v s) := by
  unfold writeBbxCmd
  repeat' (first
    | with_reducible assumption | ((with_reducible refine hasParts_trans hμ ?_); rfl)
    | with_reducible apply Touches.ite | with_reducible apply operatorSnapshot_touches
    | with_reducible apply holdSlot_touches | with_reducible apply releaseSlot_touches | split)

theorem writeBbx_touches (o v : Nat) (hμ : hasParts μ (partSet [.bbx]) = true) (hs : Touches μ s₀ s) :
    Touches μ s₀ (writeBbx o v s) := by
  unfold writeBbx
  repeat' (first
    | with_reducible assumption | with_reducible intro _ | ((with_reducible refine hasParts_trans hμ ?_); rfl)
    | with_reducible apply Touches.modBbx | with_reducible apply writeBbxCmd_touches | split)

theorem writePwr_touches (o v : Nat) (hμ : hasParts μ (partSet [.pwr]) = true) (hs : Touches μ s₀ s) :
    Touches μ s₀ (writePwr o v s) := by
  unfold writePwr
  repeat' (first
    | with_reducible assumption | with_reducible intro _ | ((with_reducible refine hasParts_trans hμ ?_); rfl)
    | with_reducible apply Touches.ite | with_reducible apply Touches.modPwr | split)

theorem operatorWrite_touches (path : Path) (off v : Nat) (hμ : hasParts μ (partSet [.free, .pins, .pwr, .thm, .clk,
    .start, .img, .resp, .tly, .spare, .bbx, .link, .coh, .ext, .hbm, .rng, .io, .seqs, .pfx, .casc, .ops, .attn,
    .core, .cdc, .tier, .wt, .ftl, .sch, .sec, .mgmt]) = true) (hs : Touches μ s₀ s) :
    Touches μ s₀ (operatorWrite path off v s) := by
  unfold operatorWrite
  repeat' (first
    | with_reducible assumption | with_reducible intro _ | ((with_reducible refine hasParts_trans hμ ?_); rfl)
    | with_reducible apply Touches.ite | with_reducible apply Touches.modAttn
    | with_reducible apply restartWrite_touches | with_reducible apply writeRng_touches
    | with_reducible apply writePwu_touches | with_reducible apply writePma_touches
    | with_reducible apply writeTier_touches | with_reducible apply writeFtl_touches
    | with_reducible apply writeSch_touches | with_reducible apply writeSec_touches
    | with_reducible apply writeTly_touches | with_reducible apply writeBbx_touches
    | with_reducible apply writePwr_touches | split | dsimp only)

theorem mgmtWrite_touches (path : Path) (p off v : Nat) (hμ : hasParts μ (partSet [.free, .bbx, .link, .coh, .ext,
    .hbm, .rng, .io, .seqs, .pfx, .casc, .ops, .attn, .cdc, .tier, .wt, .ftl, .sch, .sec]) = true) (hs : Touches μ s₀
    s) :
    Touches μ s₀ (mgmtWrite path p off v s) := by
  unfold mgmtWrite
  repeat' (first
    | with_reducible assumption | ((with_reducible refine hasParts_trans hμ ?_); rfl)
    | with_reducible apply writeRng_touches | with_reducible apply writePwu_touches
    | with_reducible apply writeSch_touches | split | dsimp only)

theorem writeWord_touches (path : Path) (off v : Nat) (hμ : hasParts μ (partSet [.free, .pins, .pwr, .thm, .clk,
    .start, .img, .resp, .tly, .spare, .bbx, .link, .coh, .ext, .hbm, .rng, .io, .seqs, .pfx, .casc, .ops, .attn,
    .core, .cdc, .tier, .wt, .ftl, .sch, .sec, .mgmt]) = true) (hs : Touches μ s₀ s) :
    Touches μ s₀ (writeWord path off v s) := by
  unfold writeWord
  repeat' (first
    | with_reducible assumption | ((with_reducible refine hasParts_trans hμ ?_); rfl)
    | with_reducible apply operatorWrite_touches | with_reducible apply mgmtWrite_touches | split)

theorem readWords_touches (path : Path) (served : Nat → Bool) (off : Nat) (hμ : hasParts μ (partSet [.free, .bbx,
    .core, .sec, .mgmt]) = true) : ∀ (y0 : Nat) {s : State} , Touches μ s₀ s → Touches μ s₀ (readWords path served off
    y0 s).2 := by
  intro y0
  induction y0 generalizing off with
  | zero =>
    intro s _
    unfold readWords
    repeat' (first
      | with_reducible assumption | ((with_reducible refine hasParts_trans hμ ?_); rfl)
      | with_reducible apply Touches.ite | with_reducible apply Touches.ite_snd | with_reducible apply readWord_touches
      | with_reducible apply Touches.of_snd (by with_reducible assumption) | split
      | dsimp only)
  | succ fuel ih =>
    intro s _
    unfold readWords
    repeat' (first
      | with_reducible assumption | ((with_reducible refine hasParts_trans hμ ?_); rfl)
      | with_reducible apply Touches.ite | with_reducible apply Touches.ite_snd | with_reducible apply readWord_touches
      | with_reducible apply ih | with_reducible apply Touches.of_snd (by with_reducible assumption) | split
      | dsimp only)

theorem writeWords_touches (path : Path) (served : Nat → Bool) (off : Nat) (hμ : hasParts μ (partSet [.free, .pins,
    .pwr, .thm, .clk, .start, .img, .resp, .tly, .spare, .bbx, .link, .coh, .ext, .hbm, .rng, .io, .seqs, .pfx, .casc,
    .ops, .attn, .core, .cdc, .tier, .wt, .ftl, .sch, .sec, .mgmt]) = true) : ∀ (y0 : List Nat) {s : State} , Touches
    μ s₀ s → Touches μ s₀ (writeWords path served off y0 s).2 := by
  intro y0
  induction y0 generalizing off with
  | nil =>
    intro s _
    unfold writeWords
    repeat' (first
      | with_reducible assumption | ((with_reducible refine hasParts_trans hμ ?_); rfl)
      | with_reducible apply Touches.ite | with_reducible apply Touches.ite_snd
      | with_reducible apply writeWord_touches
      | with_reducible apply Touches.of_snd (by with_reducible assumption) | split | dsimp only)
  | cons c rest ih =>
    intro s _
    unfold writeWords
    repeat' (first
      | with_reducible assumption | ((with_reducible refine hasParts_trans hμ ?_); rfl)
      | with_reducible apply Touches.ite | with_reducible apply Touches.ite_snd
      | with_reducible apply writeWord_touches | with_reducible apply ih
      | with_reducible apply Touches.of_snd (by with_reducible assumption) | split | dsimp only)

end Sys2Proof.Machine
end

