-- ==== Sys2Proof/Laws/MgmtTouches.lean ====
section
/-! SUPPORT. Which parts of State the operations of Machine/Mgmt.lean may touch: one lemma per operation. -/

namespace Sys2Proof.Machine

open Sys2Proof

variable {μ : Nat} {s₀ s : State}

theorem mgmtAccess_touches (h : Hdr) (off len : Nat) (f : State → State) (hf : ∀ t, Touches μ s₀ t → Touches μ s₀ (f
    t)) (hμ : hasParts μ (partSet [.link, .sec]) = true) (hs : Touches μ s₀ s) :
    Touches μ s₀ (mgmtAccess h off len f s) := by
  unfold mgmtAccess
  repeat' (first
    | with_reducible assumption | ((with_reducible refine hasParts_trans hμ ?_); rfl)
    | with_reducible apply Touches.ite | with_reducible apply nakTo_touches | with_reducible apply hf | split)

theorem answerMgmtRd_touches (h : Hdr) (off len : Nat) (hμ : hasParts μ (partSet [.free, .bbx, .link, .core, .sec,
    .mgmt]) = true) (hs : Touches μ s₀ s) :
    Touches μ s₀ (answerMgmtRd h off len s) := by
  unfold answerMgmtRd
  repeat' (first
    | with_reducible assumption | with_reducible intro _ | ((with_reducible refine hasParts_trans hμ ?_); rfl)
    | with_reducible apply readWords_touches | with_reducible apply reply_touches
    | with_reducible apply Touches.of_snd (by with_reducible assumption))

theorem answerMgmtWr_touches (h : Hdr) (off : Nat) (bytes : List Byte) (hμ : hasParts μ (partSet [.free, .pins, .pwr,
    .thm, .clk, .start, .img, .resp, .tly, .spare, .bbx, .link, .coh, .ext, .hbm, .rng, .io, .seqs, .pfx, .casc, .ops,
    .attn, .core, .cdc, .tier, .wt, .ftl, .sch, .sec, .mgmt]) = true) (hs : Touches μ s₀ s) :
    Touches μ s₀ (answerMgmtWr h off bytes s) := by
  unfold answerMgmtWr
  repeat' (first
    | with_reducible assumption | with_reducible intro _ | ((with_reducible refine hasParts_trans hμ ?_); rfl)
    | with_reducible apply Touches.ite | with_reducible apply Touches.ite_snd
    | with_reducible apply writeWords_touches | with_reducible apply nakTo_touches
    | with_reducible apply reply_touches | with_reducible apply Touches.of_snd (by with_reducible assumption) | split
    | dsimp only)

theorem execMgmtRd_touches {t : State} (h : Hdr) (off len : Nat) (hμ : hasParts μ (partSet [.free, .bbx, .link, .core,
    .sec, .mgmt]) = true) (he : execMgmtRd h off len s = .next t) (hs : Touches μ s₀ s) :
    Touches μ s₀ t := by
  unfold execMgmtRd at he
  cases he
  repeat' (first
    | with_reducible assumption | with_reducible intro _ | ((with_reducible refine hasParts_trans hμ ?_); rfl)
    | with_reducible apply takeMsg_touches | with_reducible apply mgmtAccess_touches
    | with_reducible apply answerMgmtRd_touches)

theorem execMgmtWr_touches {t : State} (h : Hdr) (off : Nat) (bytes : List Byte) (hμ : hasParts μ (partSet [.free,
    .pins, .pwr, .thm, .clk, .start, .img, .resp, .tly, .spare, .bbx, .link, .coh, .ext, .hbm, .rng, .io, .seqs, .pfx,
    .casc, .ops, .attn, .core, .cdc, .tier, .wt, .ftl, .sch, .sec, .mgmt]) = true) (he : execMgmtWr h off bytes s =
    .next t) (hs : Touches μ s₀ s) :
    Touches μ s₀ t := by
  unfold execMgmtWr at he
  cases he
  repeat' (first
    | with_reducible assumption | with_reducible intro _ | ((with_reducible refine hasParts_trans hμ ?_); rfl)
    | with_reducible apply takeMsg_touches | with_reducible apply mgmtAccess_touches
    | with_reducible apply answerMgmtWr_touches)

theorem putReply_touches (ws : List Nat) (hμ : hasParts μ (partSet [.link, .sec, .mgmt]) = true) (hs : Touches μ s₀ s)
    :
    Touches μ s₀ (putReply ws s) := by
  unfold putReply
  repeat' (first
    | with_reducible assumption | with_reducible intro _ | ((with_reducible refine hasParts_trans hμ ?_); rfl)
    | with_reducible apply Touches.modMgmt | with_reducible apply reply_touches)

theorem i3cTransfer_touches (ok : State → Bool) (f : State → State) (hf : ∀ t, Touches μ s₀ t → Touches μ s₀ (f t))
    (hμ : hasParts μ (partSet [.link, .sec, .mgmt]) = true) (hs : Touches μ s₀ s) :
    Touches μ s₀ (i3cTransfer ok f s) := by
  unfold i3cTransfer
  repeat' (first
    | with_reducible assumption | ((with_reducible refine hasParts_trans hμ ?_); rfl)
    | with_reducible apply Touches.ite | with_reducible apply putReply_touches | with_reducible apply hf | split)

theorem i3cWrite_touches (bytes : List Byte) (hμ : hasParts μ (partSet [.free, .pins, .pwr, .thm, .clk, .start, .img,
    .resp, .tly, .spare, .bbx, .link, .coh, .ext, .hbm, .rng, .io, .seqs, .pfx, .casc, .ops, .attn, .core, .cdc,
    .tier, .wt, .ftl, .sch, .sec, .mgmt]) = true) (hs : Touches μ s₀ s) :
    Touches μ s₀ (i3cWrite bytes s) := by
  unfold i3cWrite
  repeat' (first
    | with_reducible assumption | with_reducible intro _ | ((with_reducible refine hasParts_trans hμ ?_); rfl)
    | with_reducible apply Touches.ite | with_reducible apply Touches.ite_snd | with_reducible apply Touches.modMgmt
    | with_reducible apply writeWords_touches | with_reducible apply Touches.of_snd (by with_reducible assumption)
    | split | dsimp only)

theorem execI3cPrivateWrite_touches {t : State} (bytes : List Byte) (hμ : hasParts μ (partSet [.free, .pins, .pwr,
    .thm, .clk, .start, .img, .resp, .tly, .spare, .bbx, .link, .coh, .ext, .hbm, .rng, .io, .seqs, .pfx, .casc, .ops,
    .attn, .core, .cdc, .tier, .wt, .ftl, .sch, .sec, .mgmt]) = true) (he : execI3cPrivateWrite bytes s = .next t) (hs
    : Touches μ s₀ s) :
    Touches μ s₀ t := by
  unfold execI3cPrivateWrite at he
  cases he
  repeat' (first
    | with_reducible assumption | with_reducible intro _ | ((with_reducible refine hasParts_trans hμ ?_); rfl)
    | with_reducible apply i3cTransfer_touches | with_reducible apply i3cWrite_touches)

theorem i3cRead_touches (words : Nat) (hμ : hasParts μ (partSet [.free, .bbx, .link, .core, .sec, .mgmt]) = true) (hs
    : Touches μ s₀ s) :
    Touches μ s₀ (i3cRead words s) := by
  unfold i3cRead
  repeat' (first
    | with_reducible assumption | with_reducible intro _ | ((with_reducible refine hasParts_trans hμ ?_); rfl)
    | with_reducible apply Touches.modMgmt | with_reducible apply readWords_touches
    | with_reducible apply putReply_touches | with_reducible apply Touches.of_snd (by with_reducible assumption))

theorem execI3cPrivateRead_touches {t : State} (words : Nat) (hμ : hasParts μ (partSet [.free, .bbx, .link, .core,
    .sec, .mgmt]) = true) (he : execI3cPrivateRead words s = .next t) (hs : Touches μ s₀ s) :
    Touches μ s₀ t := by
  unfold execI3cPrivateRead at he
  cases he
  repeat' (first
    | with_reducible assumption | with_reducible intro _ | ((with_reducible refine hasParts_trans hμ ?_); rfl)
    | with_reducible apply i3cTransfer_touches | with_reducible apply i3cRead_touches)

theorem takeAddr_touches (a : Nat) (hμ : hasParts μ (partSet [.mgmt]) = true) (hs : Touches μ s₀ s) :
    Touches μ s₀ (takeAddr a s) := by
  unfold takeAddr
  repeat' (first
    | with_reducible assumption | with_reducible intro _ | ((with_reducible refine hasParts_trans hμ ?_); rfl)
    | with_reducible apply Touches.modMgmt)

theorem execEntdaa_touches {t : State} (addr : Nat) (hμ : hasParts μ (partSet [.link, .sec, .mgmt]) = true) (he :
    execEntdaa addr s = .next t) (hs : Touches μ s₀ s) :
    Touches μ s₀ t := by
  unfold execEntdaa at he
  cases he
  repeat' (first
    | with_reducible assumption | with_reducible intro _ | ((with_reducible refine hasParts_trans hμ ?_); rfl)
    | with_reducible apply i3cTransfer_touches | with_reducible apply takeAddr_touches)

theorem execSetdasa_touches {t : State} (addr : Nat) (hμ : hasParts μ (partSet [.link, .sec, .mgmt]) = true) (he :
    execSetdasa addr s = .next t) (hs : Touches μ s₀ s) :
    Touches μ s₀ t := by
  unfold execSetdasa at he
  cases he
  repeat' (first
    | with_reducible assumption | with_reducible intro _ | ((with_reducible refine hasParts_trans hμ ?_); rfl)
    | with_reducible apply i3cTransfer_touches | with_reducible apply takeAddr_touches)

theorem execRstdaa_touches {t : State} (hμ : hasParts μ (partSet [.link, .sec, .mgmt]) = true) (he : execRstdaa s =
    .next t) (hs : Touches μ s₀ s) :
    Touches μ s₀ t := by
  unfold execRstdaa at he
  cases he
  repeat' (first
    | with_reducible assumption | with_reducible intro _ | ((with_reducible refine hasParts_trans hμ ?_); rfl)
    | with_reducible apply Touches.modMgmt | with_reducible apply i3cTransfer_touches)

theorem execGetpid_touches {t : State} (hμ : hasParts μ (partSet [.link, .sec, .mgmt]) = true) (he : execGetpid s =
    .next t) (hs : Touches μ s₀ s) :
    Touches μ s₀ t := by
  unfold execGetpid at he
  cases he
  repeat' (first
    | with_reducible assumption | with_reducible intro _ | ((with_reducible refine hasParts_trans hμ ?_); rfl)
    | with_reducible apply i3cTransfer_touches | with_reducible apply putReply_touches)

theorem execGetbcr_touches {t : State} (hμ : hasParts μ (partSet [.link, .sec, .mgmt]) = true) (he : execGetbcr s =
    .next t) (hs : Touches μ s₀ s) :
    Touches μ s₀ t := by
  unfold execGetbcr at he
  cases he
  repeat' (first
    | with_reducible assumption | with_reducible intro _ | ((with_reducible refine hasParts_trans hμ ?_); rfl)
    | with_reducible apply i3cTransfer_touches | with_reducible apply putReply_touches)

theorem execGetdcr_touches {t : State} (hμ : hasParts μ (partSet [.link, .sec, .mgmt]) = true) (he : execGetdcr s =
    .next t) (hs : Touches μ s₀ s) :
    Touches μ s₀ t := by
  unfold execGetdcr at he
  cases he
  repeat' (first
    | with_reducible assumption | with_reducible intro _ | ((with_reducible refine hasParts_trans hμ ?_); rfl)
    | with_reducible apply i3cTransfer_touches | with_reducible apply putReply_touches)

theorem execGetstatus_touches {t : State} (hμ : hasParts μ (partSet [.free, .link, .sec, .mgmt]) = true) (he :
    execGetstatus s = .next t) (hs : Touches μ s₀ s) :
    Touches μ s₀ t := by
  unfold execGetstatus at he
  cases he
  repeat' (first
    | with_reducible assumption | with_reducible intro _ | ((with_reducible refine hasParts_trans hμ ?_); rfl)
    | with_reducible apply i3cTransfer_touches | with_reducible apply fresh_touches
    | with_reducible apply putReply_touches | with_reducible apply Touches.of_snd (by with_reducible assumption))

theorem readOne_touches (path : Path) (off : Nat) (hμ : hasParts μ (partSet [.free, .bbx, .link, .core, .sec, .mgmt])
    = true) (hs : Touches μ s₀ s) :
    Touches μ s₀ (readOne path off s) := by
  unfold readOne
  repeat' (first
    | with_reducible assumption | with_reducible intro _ | ((with_reducible refine hasParts_trans hμ ?_); rfl)
    | with_reducible apply regAccess_touches | with_reducible apply readWord_touches
    | with_reducible apply putReply_touches | with_reducible apply Touches.of_snd (by with_reducible assumption))

theorem execTopCclkLoRead_touches {t : State} (path : Path) (hμ : hasParts μ (partSet [.free, .bbx, .link, .core,
    .sec, .mgmt]) = true) (he : execTopCclkLoRead path s = .next t) (hs : Touches μ s₀ s) :
    Touches μ s₀ t := by
  unfold execTopCclkLoRead at he
  cases he
  repeat' (first
    | with_reducible assumption | ((with_reducible refine hasParts_trans hμ ?_); rfl)
    | with_reducible apply readOne_touches)

theorem execAtnKeysLoRead_touches {t : State} (path : Path) (hμ : hasParts μ (partSet [.free, .bbx, .link, .core,
    .sec, .mgmt]) = true) (he : execAtnKeysLoRead path s = .next t) (hs : Touches μ s₀ s) :
    Touches μ s₀ t := by
  unfold execAtnKeysLoRead at he
  cases he
  repeat' (first
    | with_reducible assumption | ((with_reducible refine hasParts_trans hμ ?_); rfl)
    | with_reducible apply readOne_touches)

theorem execFtlSeqLoRead_touches {t : State} (path : Path) (hμ : hasParts μ (partSet [.free, .bbx, .link, .core, .sec,
    .mgmt]) = true) (he : execFtlSeqLoRead path s = .next t) (hs : Touches μ s₀ s) :
    Touches μ s₀ t := by
  unfold execFtlSeqLoRead at he
  cases he
  repeat' (first
    | with_reducible assumption | ((with_reducible refine hasParts_trans hμ ?_); rfl)
    | with_reducible apply readOne_touches)

theorem execSchAcctCycLoRead_touches {t : State} (path : Path) (hμ : hasParts μ (partSet [.free, .bbx, .link, .core,
    .sec, .mgmt]) = true) (he : execSchAcctCycLoRead path s = .next t) (hs : Touches μ s₀ s) :
    Touches μ s₀ t := by
  unfold execSchAcctCycLoRead at he
  cases he
  repeat' (first
    | with_reducible assumption | ((with_reducible refine hasParts_trans hμ ?_); rfl)
    | with_reducible apply readOne_touches)

theorem execSchAcctSaveLoRead_touches {t : State} (path : Path) (hμ : hasParts μ (partSet [.free, .bbx, .link, .core,
    .sec, .mgmt]) = true) (he : execSchAcctSaveLoRead path s = .next t) (hs : Touches μ s₀ s) :
    Touches μ s₀ t := by
  unfold execSchAcctSaveLoRead at he
  cases he
  repeat' (first
    | with_reducible assumption | ((with_reducible refine hasParts_trans hμ ?_); rfl)
    | with_reducible apply readOne_touches)

theorem execBbxReadDataRead_touches {t : State} (path : Path) (hμ : hasParts μ (partSet [.free, .bbx, .link, .core,
    .sec, .mgmt]) = true) (he : execBbxReadDataRead path s = .next t) (hs : Touches μ s₀ s) :
    Touches μ s₀ t := by
  unfold execBbxReadDataRead at he
  cases he
  repeat' (first
    | with_reducible assumption | ((with_reducible refine hasParts_trans hμ ?_); rfl)
    | with_reducible apply readOne_touches)

theorem execRegisterWrite_touches {t : State} (path : Path) (off value : Nat) (hμ : hasParts μ (partSet [.free, .pins,
    .pwr, .thm, .clk, .start, .img, .resp, .tly, .spare, .bbx, .link, .coh, .ext, .hbm, .rng, .io, .seqs, .pfx, .casc,
    .ops, .attn, .core, .cdc, .tier, .wt, .ftl, .sch, .sec, .mgmt]) = true) (he : execRegisterWrite path off value s =
    .next t) (hs : Touches μ s₀ s) :
    Touches μ s₀ t := by
  unfold execRegisterWrite at he
  cases he
  repeat' (first
    | with_reducible assumption | with_reducible intro _ | ((with_reducible refine hasParts_trans hμ ?_); rfl)
    | with_reducible apply regAccess_touches | with_reducible apply writeWord_touches)

theorem execTenantViewSnapshot_touches {t : State} (hμ : hasParts μ (partSet [.mgmt]) = true) (he :
    execTenantViewSnapshot s = .next t) (hs : Touches μ s₀ s) :
    Touches μ s₀ t := by
  unfold execTenantViewSnapshot at he
  cases he
  repeat' (first
    | with_reducible assumption | with_reducible intro _ | ((with_reducible refine hasParts_trans hμ ?_); rfl)
    | with_reducible apply Touches.ite | with_reducible apply Touches.modMgmt | split)

theorem execPowerViewSnapshot_touches {t : State} (hμ : hasParts μ (partSet [.pwr]) = true) (he :
    execPowerViewSnapshot s = .next t) (hs : Touches μ s₀ s) :
    Touches μ s₀ t := by
  unfold execPowerViewSnapshot at he
  cases he
  repeat' (first
    | with_reducible assumption | with_reducible intro _ | ((with_reducible refine hasParts_trans hμ ?_); rfl)
    | with_reducible apply Touches.modPwr)

end Sys2Proof.Machine
end

