-- ==== Sys2Proof/Laws/EventsTouches.lean ====
section
/-! SUPPORT. Which parts of State the operations of Machine/Events.lean may touch: one lemma per operation. -/

namespace Sys2Proof.Machine

open Sys2Proof

variable {μ : Nat} {s₀ s : State}

theorem entriesOf_length (c n : Nat) (l : List (List Byte)) : (entriesOf c n l).length = l.length := by
  induction l generalizing n with
  | nil => rfl
  | cons b r ih => simp [entriesOf, ih]

theorem entriesOf_idx (c n : Nat) (l : List (List Byte)) : (entriesOf c n l).map (·.idx) = List.range' n l.length := by
  induction l generalizing n with
  | nil => rfl
  | cons b r ih => simp [entriesOf, ih, List.range'_succ]

theorem acceptEntries_touches (ring cqHead : Nat) (raws : List (List Byte)) (hμ : hasParts μ (partSet [.rng]) = true)
    (hs : Touches μ s₀ s) :
    Touches μ s₀ (acceptEntries ring cqHead raws s) := by
  unfold acceptEntries
  refine modRing_touches _ _ (fun r q => RingOk.append (entriesOf (stamp s) r.taken raws) rfl ?_ ?_ q) (hasParts_trans hμ rfl) hs
  · rw [entriesOf_length]
  · rw [entriesOf_idx, entriesOf_length]

theorem refuseEntry_touches (ring idx : Nat) (hμ : hasParts μ (partSet [.rng, .sch]) = true) (hs : Touches μ s₀ s) :
    Touches μ s₀ (refuseEntry ring idx s) := by
  unfold refuseEntry
  repeat' (first
    | with_reducible assumption | ((with_reducible refine hasParts_trans hμ ?_); rfl)
    | with_reducible apply endEntry_touches | with_reducible apply markStarted_touches)

theorem entryTaken_touches (ring idx : Nat) (hμ : hasParts μ (partSet [.link, .coh, .ext, .rng, .io, .ops, .sch,
    .sec]) = true) (hs : Touches μ s₀ s) :
    Touches μ s₀ (entryTaken ring idx s) := by
  unfold entryTaken
  repeat' (first
    | with_reducible assumption | ((with_reducible refine hasParts_trans hμ ?_); rfl)
    | with_reducible apply requestOperands_touches | with_reducible apply checkRevoke_touches)

theorem takeDoorbell_touches (ring cqHead : Nat) (entries : List (List Byte)) (hμ : hasParts μ (partSet [.link, .coh,
    .ext, .rng, .io, .ops, .attn, .sch, .sec]) = true) (hs : Touches μ s₀ s) :
    Touches μ s₀ (takeDoorbell ring cqHead entries s) := by
  unfold takeDoorbell
  repeat' (first
    | with_reducible assumption | with_reducible intro _ | ((with_reducible refine hasParts_trans hμ ?_); rfl)
    | with_reducible apply Touches.ite | with_reducible apply Touches.forEach
    | with_reducible apply settleSlice_touches | with_reducible apply acceptEntries_touches
    | with_reducible apply refuseEntry_touches | with_reducible apply entryTaken_touches
    | with_reducible apply wakeContexts_touches | split | dsimp only)

theorem discardDoorbell_touches (ring src : Nat) (hμ : hasParts μ (partSet [.bbx, .rng]) = true) (hs : Touches μ s₀ s)
    :
    Touches μ s₀ (discardDoorbell ring src s) := by
  unfold discardDoorbell
  repeat' (first
    | with_reducible assumption | exact fun _ q => q | with_reducible intro _
    | ((with_reducible refine hasParts_trans hμ ?_); rfl) | with_reducible apply Touches.modRng
    | with_reducible apply emit_touches)

theorem execDoorbell_touches {t : State} (h : Hdr) (ring first cqHead count : Nat) (entries : List (List Byte)) (hμ :
    hasParts μ (partSet [.bbx, .link, .coh, .ext, .rng, .io, .ops, .attn, .sch, .sec]) = true) (he : execDoorbell h
    ring first cqHead count entries s = .next t) (hs : Touches μ s₀ s) :
    Touches μ s₀ t := by
  unfold execDoorbell at he
  cases he
  repeat' (first
    | with_reducible assumption | with_reducible intro _ | ((with_reducible refine hasParts_trans hμ ?_); rfl)
    | with_reducible apply Touches.ite | with_reducible apply takeMsg_touches
    | with_reducible apply takeDoorbell_touches | with_reducible apply discardDoorbell_touches | split)

theorem goOn_touches (f : ReadFor) (hμ : hasParts μ (partSet [.free, .bbx, .link, .coh, .hbm, .rng, .io, .seqs, .pfx,
    .casc, .ops, .attn, .cdc, .tier, .wt, .ftl, .sch, .sec]) = true) (hs : Touches μ s₀ s) :
    Touches μ s₀ (goOn f s) := by
  unfold goOn
  repeat' (first
    | with_reducible assumption | ((with_reducible refine hasParts_trans hμ ?_); rfl)
    | with_reducible apply driveOp_touches | split)

theorem execData_touches {t : State} (h : Hdr) (poison : Bool) (bytes : List Byte) (hμ : hasParts μ (partSet [.free,
    .bbx, .link, .coh, .hbm, .rng, .io, .seqs, .pfx, .casc, .ops, .attn, .cdc, .tier, .wt, .ftl, .sch, .sec]) = true)
    (he : execData h poison bytes s = .next t) (hs : Touches μ s₀ s) :
    Touches μ s₀ t := by
  unfold execData at he
  cases he
  repeat' (first
    | with_reducible assumption | with_reducible intro _ | ((with_reducible refine hasParts_trans hμ ?_); rfl)
    | with_reducible apply Touches.ite | with_reducible apply takeMsg_touches | with_reducible apply goOn_touches
    | with_reducible apply readFailed_touches | with_reducible apply readArrived_touches | split)

theorem execAck_touches {t : State} (h : Hdr) (hμ : hasParts μ (partSet [.free, .link, .hbm, .rng, .io, .seqs, .casc,
    .ops, .attn, .cdc, .tier, .wt, .ftl, .sch, .sec]) = true) (he : execAck h s = .next t) (hs : Touches μ s₀ s) :
    Touches μ s₀ t := by
  unfold execAck at he
  cases he
  repeat' (first
    | with_reducible assumption | with_reducible intro _ | ((with_reducible refine hasParts_trans hμ ?_); rfl)
    | with_reducible apply Touches.ite | with_reducible apply takeMsg_touches
    | with_reducible apply tileResolved_touches | split)

theorem execNak_touches {t : State} (h : Hdr) (_status : Nat) (hμ : hasParts μ (partSet [.free, .bbx, .link, .coh,
    .hbm, .rng, .io, .seqs, .pfx, .casc, .ops, .attn, .cdc, .tier, .wt, .ftl, .sch, .sec]) = true) (he : execNak h
    _status s = .next t) (hs : Touches μ s₀ s) :
    Touches μ s₀ t := by
  unfold execNak at he
  cases he
  repeat' (first
    | with_reducible assumption | with_reducible intro _ | ((with_reducible refine hasParts_trans hμ ?_); rfl)
    | with_reducible apply takeMsg_touches | with_reducible apply cascNak_touches | with_reducible apply goOn_touches
    | with_reducible apply readFailed_touches | split)

theorem execRequesterReadTimeout_touches {t : State} (tag : Nat) (hμ : hasParts μ (partSet [.free, .bbx, .link, .coh,
    .hbm, .rng, .io, .seqs, .pfx, .casc, .ops, .attn, .cdc, .tier, .wt, .ftl, .sch, .sec]) = true) (he :
    execRequesterReadTimeout tag s = .next t) (hs : Touches μ s₀ s) :
    Touches μ s₀ t := by
  unfold execRequesterReadTimeout at he
  cases he
  repeat' (first
    | with_reducible assumption | with_reducible intro _ | ((with_reducible refine hasParts_trans hμ ?_); rfl)
    | with_reducible apply Touches.ite | with_reducible apply Touches.modIo | with_reducible apply goOn_touches
    | with_reducible apply readFailed_touches | with_reducible apply sendRead_touches | split)

theorem stepDemote_touches (id : Nat) (o : Op) (recs : List StepRec) (hμ : hasParts μ (partSet [.free, .link, .coh,
    .hbm, .rng, .io, .seqs, .pfx, .casc, .ops, .cdc, .tier, .wt, .ftl, .sch, .sec]) = true) (hs : Touches μ s₀ s) :
    Touches μ s₀ (stepDemote id o recs s) := by
  unfold stepDemote
  repeat' (first
    | with_reducible assumption | with_reducible intro _ | ((with_reducible refine hasParts_trans hμ ?_); rfl)
    | with_reducible apply need_touches | with_reducible apply settleStep_touches
    | with_reducible apply runChunk_touches | with_reducible apply Touches.ofNeed_got (by with_reducible assumption)
    | with_reducible apply Touches.ofNeed_wait (by with_reducible assumption)
    | with_reducible apply Touches.ofNeed_fail (by with_reducible assumption)
    | with_reducible apply Touches.of_snd (by with_reducible assumption) | split)

theorem execLadderDemoteTimeout_touches {t : State} (op : Nat) (hμ : hasParts μ (partSet [.free, .link, .coh, .hbm,
    .rng, .io, .seqs, .pfx, .casc, .ops, .cdc, .tier, .wt, .ftl, .sch, .sec]) = true) (he : execLadderDemoteTimeout op
    s = .next t) (hs : Touches μ s₀ s) :
    Touches μ s₀ t := by
  unfold execLadderDemoteTimeout at he
  cases he
  repeat' (first
    | with_reducible assumption | with_reducible intro _ | ((with_reducible refine hasParts_trans hμ ?_); rfl)
    | with_reducible apply Touches.ite | with_reducible apply need_touches | with_reducible apply driveAppend_touches
    | with_reducible apply putAppend_touches | with_reducible apply stepDemote_touches
    | with_reducible apply driveLookup_touches | with_reducible apply modOp_touches
    | with_reducible apply seqOpen_touches | with_reducible apply driveTables_touches
    | with_reducible apply seqFork_touches | with_reducible apply Touches.ofNeed_got (by with_reducible assumption)
    | with_reducible apply Touches.ofNeed_wait (by with_reducible assumption)
    | with_reducible apply Touches.ofNeed_fail (by with_reducible assumption) | split)

theorem execWritePathTimeout_touches {t : State} (op : Nat) (hμ : hasParts μ (partSet [.link, .coh, .hbm, .rng, .io,
    .seqs, .casc, .ops, .cdc, .tier, .wt, .ftl, .sch, .sec]) = true) (he : execWritePathTimeout op s = .next t) (hs :
    Touches μ s₀ s) :
    Touches μ s₀ t := by
  unfold execWritePathTimeout at he
  cases he
  repeat' (first
    | with_reducible assumption | with_reducible intro _ | ((with_reducible refine hasParts_trans hμ ?_); rfl)
    | with_reducible apply Touches.ite | with_reducible apply unlessStopped_touches
    | with_reducible apply runMigrate_touches | with_reducible apply modOp_touches | split | dsimp only)

theorem installPeer_touches (a : PageAt) (op : Option Nat) (hμ : hasParts μ (partSet [.seqs, .casc, .wt]) = true) (hs
    : Touches μ s₀ s) :
    Touches μ s₀ (installPeer a op s) := by
  unfold installPeer
  repeat' (first
    | with_reducible assumption | with_reducible intro _ | ((with_reducible refine hasParts_trans hμ ?_); rfl)
    | with_reducible apply Touches.ite | with_reducible apply dropImage1_touches
    | with_reducible apply modPage_touches | split)

theorem notToHold_touches (a : PageAt) (hμ : hasParts μ (partSet [.wt]) = true) (hs : Touches μ s₀ s) :
    Touches μ s₀ (notToHold a s) := by
  unfold notToHold
  repeat' (first
    | with_reducible assumption | with_reducible intro _ | ((with_reducible refine hasParts_trans hμ ?_); rfl)
    | with_reducible apply Touches.modWt | split)

theorem switchMove_touches (id : Nat) (m : Move) (hμ : hasParts μ (partSet [.link, .hbm, .io, .seqs, .casc, .ops,
    .cdc, .tier, .wt, .ftl, .sec]) = true) (hs : Touches μ s₀ s) :
    Touches μ s₀ (switchMove id m s) := by
  unfold switchMove
  repeat' (first
    | with_reducible assumption | with_reducible intro _ | ((with_reducible refine hasParts_trans hμ ?_); rfl)
    | with_reducible apply Touches.modOps | with_reducible apply Touches.modTier
    | with_reducible apply notToHold_touches | with_reducible apply leafToHbm_touches
    | with_reducible apply installPeer_touches | with_reducible apply leafToFlash_touches
    | with_reducible apply setHeat_touches | split | dsimp only)

theorem moveEnded_touches (id : Nat) (m : Move) (ok : Bool) (hμ : hasParts μ (partSet [.free, .bbx, .link, .coh, .hbm,
    .rng, .io, .seqs, .pfx, .casc, .ops, .attn, .cdc, .tier, .wt, .ftl, .sch, .sec]) = true) (hs : Touches μ s₀ s) :
    Touches μ s₀ (moveEnded id m ok s) := by
  unfold moveEnded
  repeat' (first
    | with_reducible assumption | ((with_reducible refine hasParts_trans hμ ?_); rfl)
    | with_reducible apply Touches.ite | with_reducible apply prefetchMoved_touches
    | with_reducible apply migrateMoved_touches | with_reducible apply runMigrate_touches | split)

theorem execMoveCopyDone_touches {t : State} (move : Nat) (ok : Bool) (hμ : hasParts μ (partSet [.free, .bbx, .link,
    .coh, .hbm, .rng, .io, .seqs, .pfx, .casc, .ops, .attn, .cdc, .tier, .wt, .ftl, .sch, .sec]) = true) (he :
    execMoveCopyDone move ok s = .next t) (hs : Touches μ s₀ s) :
    Touches μ s₀ t := by
  unfold execMoveCopyDone at he
  cases he
  repeat' (first
    | with_reducible assumption | with_reducible intro _ | ((with_reducible refine hasParts_trans hμ ?_); rfl)
    | with_reducible apply Touches.ite | with_reducible apply working_touches | with_reducible apply driveAll_touches
    | with_reducible apply moveEnded_touches | with_reducible apply abandonMove_touches
    | with_reducible apply switchMove_touches | split)

theorem execTranslationDrainDone_touches {t : State} (id : Nat) (hμ : hasParts μ (partSet [.free, .bbx, .link, .coh,
    .hbm, .rng, .io, .seqs, .pfx, .casc, .ops, .attn, .cdc, .tier, .wt, .ftl, .sch, .sec]) = true) (he :
    execTranslationDrainDone id s = .next t) (hs : Touches μ s₀ s) :
    Touches μ s₀ t := by
  unfold execTranslationDrainDone at he
  cases he
  repeat' (first
    | with_reducible assumption | with_reducible intro _ | ((with_reducible refine hasParts_trans hμ ?_); rfl)
    | with_reducible apply working_touches | with_reducible apply driveAll_touches
    | with_reducible apply drainEnded_touches)

theorem replaceBacking_touches (id : Nat) (hμ : hasParts μ (partSet [.hbm, .seqs, .wt, .ftl]) = true) (hs : Touches μ
    s₀ s) :
    Touches μ s₀ (replaceBacking id s) := by
  unfold replaceBacking
  repeat' (first
    | with_reducible assumption | with_reducible intro _ | ((with_reducible refine hasParts_trans hμ ?_); rfl)
    | with_reducible apply Touches.ite | with_reducible apply dropImage?_touches
    | with_reducible apply modPage_touches | split)

theorem programGood_touches (id : Nat) (hμ : hasParts μ (partSet [.free, .bbx, .link, .coh, .hbm, .rng, .io, .seqs,
    .pfx, .casc, .ops, .attn, .cdc, .tier, .wt, .ftl, .sch, .sec]) = true) (hs : Touches μ s₀ s) :
    Touches μ s₀ (programGood id s) := by
  unfold programGood
  repeat' (first
    | with_reducible assumption | with_reducible intro _ | ((with_reducible refine hasParts_trans hμ ?_); rfl)
    | with_reducible apply Touches.ite | with_reducible apply programImage_touches
    | with_reducible apply replaceBacking_touches | with_reducible apply programRec_touches
    | with_reducible apply driveAll_touches | with_reducible apply sweepJournals_touches
    | with_reducible exact optTouched_none | with_reducible apply optTouched_some
    | with_reducible apply optTouched_map | with_reducible apply Touches.of_optTouched (by with_reducible assumption)
    | split | dsimp only)

theorem programBad_touches (id : Nat) (hμ : hasParts μ (partSet [.free, .bbx, .link, .coh, .hbm, .rng, .io, .seqs,
    .pfx, .casc, .ops, .attn, .cdc, .tier, .wt, .ftl, .sch, .sec]) = true) (hs : Touches μ s₀ s) :
    Touches μ s₀ (programBad id s) := by
  unfold programBad
  repeat' (first
    | with_reducible assumption | with_reducible intro _ | ((with_reducible refine hasParts_trans hμ ?_); rfl)
    | with_reducible apply programFailed_touches | with_reducible apply driveAll_touches
    | with_reducible apply moveEnded_touches | with_reducible apply abandonMove_touches | split | dsimp only)

theorem execFlashProgramDone_touches {t : State} (id : Nat) (ok : Bool) (hμ : hasParts μ (partSet [.free, .bbx, .link,
    .coh, .hbm, .rng, .io, .seqs, .pfx, .casc, .ops, .attn, .cdc, .tier, .wt, .ftl, .sch, .sec]) = true) (he :
    execFlashProgramDone id ok s = .next t) (hs : Touches μ s₀ s) :
    Touches μ s₀ t := by
  unfold execFlashProgramDone at he
  cases he
  repeat' (first
    | with_reducible assumption | with_reducible intro _ | ((with_reducible refine hasParts_trans hμ ?_); rfl)
    | with_reducible apply Touches.ite | with_reducible apply unlessStopped_touches
    | with_reducible apply programGood_touches | with_reducible apply programBad_touches | split)

end Sys2Proof.Machine
end

