-- ==== Sys2Proof/Laws/Frames.lean ====
section
/-! SUPPORT. From the touched parts of an operation to the frame the statements speak of. -/

namespace Sys2Proof.Machine

open Sys2Proof

/-! ### Work and rest (R55) -/

/-- An event of work has its effect in a device that works. -/
theorem working_on {s : State} (f : State → State) (h : atRest s = false) : working f s = f s := by
  unfold working
  rw [h, if_neg Bool.false_ne_true]

/-- An event of work changes nothing in a device at rest. -/
theorem working_off {s : State} (f : State → State) (h : atRest s = true) : working f s = s := by
  unfold working
  rw [h, if_pos rfl]

theorem unlessStopped_on {s : State} (f : State → State) (h : stopped s = false) : unlessStopped f s = f s := by
  unfold unlessStopped
  rw [h, if_neg Bool.false_ne_true]

theorem unlessStopped_off {s : State} (f : State → State) (h : stopped s = true) : unlessStopped f s = s := by
  unfold unlessStopped
  rw [h, if_pos rfl]

/-- A stopped device is at rest. -/
theorem atRest_of_stopped {s : State} (h : stopped s = true) : atRest s = true := by
  unfold atRest
  rw [h, Bool.true_or]

theorem stopped_of_atRest {s : State} (h : atRest s = false) : stopped s = false :=
  (Bool.or_eq_false_iff.mp h).1

/-- Every part has its own bit, so a list holds the parts of its set. -/
theorem mem_of_hasParts {l : List StPart} {p : StPart} (h : hasParts (partSet l) p.bit = true) : p ∈ l := by
  induction l with
  | nil => cases p <;> simp [hasParts, partSet, StPart.bit] at h
  | cons q r ih =>
    by_cases e : p = q
    · exact e ▸ List.mem_cons_self
    · refine List.mem_cons_of_mem _ (ih ?_)
      simp only [hasParts, partSet, beq_iff_eq] at h ⊢
      rw [Nat.and_or_distrib_right] at h
      have z : q.bit &&& p.bit = 0 := by revert e; cases p <;> cases q <;> decide
      rwa [z, Nat.zero_or] at h

/-- What touches the listed parts changes nothing else. -/
theorem Touches.only {l : List StPart} {s t : State} (h : Touches (partSet l) s t) : Only l s t := by
  refine ⟨h.pending, fun p hp => ?_⟩
  have no : ¬ hasParts (partSet l) p.bit = true := fun x => hp (mem_of_hasParts x)
  cases p
  · exact h.free.resolve_left no
  · exact h.pins.resolve_left no
  · exact h.pwr.resolve_left no
  · exact h.thm.resolve_left no
  · exact h.clk.resolve_left no
  · exact h.start.resolve_left no
  · exact h.img.resolve_left no
  · exact h.resp.resolve_left no
  · exact h.tly.resolve_left no
  · exact h.spare.resolve_left no
  · exact h.bbx.resolve_left no
  · exact h.link.resolve_left no
  · exact h.coh.resolve_left no
  · exact h.ext.resolve_left no
  · exact h.hbm.resolve_left no
  · exact h.rng.resolve_left no
  · exact h.io.resolve_left no
  · exact h.seqs.resolve_left no
  · exact h.pfx.resolve_left no
  · exact h.casc.resolve_left no
  · exact h.ops.resolve_left no
  · exact h.attn.resolve_left no
  · exact h.core.resolve_left no
  · exact h.cdc.resolve_left no
  · exact h.tier.resolve_left no
  · exact h.wt.resolve_left no
  · exact h.ftl.resolve_left no
  · exact h.sch.resolve_left no
  · exact h.sec.resolve_left no
  · exact h.mgmt.resolve_left no

end Sys2Proof.Machine
end

