-- ==== Sys2Proof/Laws/IdleTouches.lean ====
section
/-! SUPPORT. Which parts of State the operations of Machine/Idle.lean may touch: one lemma per operation. -/

namespace Sys2Proof.Machine

open Sys2Proof

variable {μ : Nat} {s₀ s : State}

theorem tickClock_touches (hμ : hasParts μ (partSet [.free, .pins, .pwr, .thm, .clk, .start, .img, .resp, .tly,
    .spare, .bbx, .link, .coh, .ext, .hbm, .rng, .io, .seqs, .pfx, .casc, .ops, .attn, .core, .cdc, .tier, .wt, .ftl,
    .sch, .sec, .mgmt]) = true) (hs : Touches μ s₀ s) :
    Touches μ s₀ (tickClock s) := by
  unfold tickClock
  repeat' (first
    | with_reducible assumption | with_reducible intro _ | ((with_reducible refine hasParts_trans hμ ?_); rfl)
    | with_reducible apply Touches.ite | with_reducible apply Touches.modClk | with_reducible apply wrapClock_touches
    | with_reducible apply prewriteEpoch_touches | split | dsimp only)

theorem idle_touches (hμ : hasParts μ (partSet [.free, .pins, .pwr, .thm, .clk, .start, .img, .resp, .tly, .spare,
    .bbx, .link, .coh, .ext, .hbm, .rng, .io, .seqs, .pfx, .casc, .ops, .attn, .core, .cdc, .tier, .wt, .ftl, .sch,
    .sec, .mgmt]) = true) (hs : Touches μ s₀ s) :
    Touches μ s₀ (idle s) := by
  unfold idle
  repeat' (first
    | with_reducible assumption | ((with_reducible refine hasParts_trans hμ ?_); rfl)
    | with_reducible apply driveAll_touches | with_reducible apply pollResp_touches
    | with_reducible apply admitReqs_touches | with_reducible apply grantPorts_touches
    | with_reducible apply tickClock_touches)

end Sys2Proof.Machine
end

