-- ==== Sys2Proof/Laws/Exec.lean ====
section
/-! SUPPORT. The frame of a command, from the frames of the meanings. -/

namespace Sys2Proof.Machine

open Sys2Proof

/-- A command touches the parts of its footprint only. -/
theorem exec_touches (c : Instr) {s t : State} (he : exec c s = .next t) : Touches (partSet (footprint c)) s t := by
  cases c with
  | vin60Contact vin => exact execVin60Contact_touches vin (by simp only [footprint]; rfl) he (.refl _ _)
  | softStartDone vin => exact execSoftStartDone_touches vin (by simp only [footprint]; rfl) he (.refl _ _)
  | prsntEarlyHigh => exact execPrsntEarlyHigh_touches (by simp only [footprint]; rfl) he (.refl _ _)
  | outputsEnable => exact execOutputsEnable_touches (by simp only [footprint]; rfl) he (.refl _ _)
  | prsntLateHigh => exact execPrsntLateHigh_touches (by simp only [footprint]; rfl) he (.refl _ _)
  | pwrfailAssert => exact execPwrfailAssert_touches (by simp only [footprint]; rfl) he (.refl _ _)
  | undervoltage vin => exact execUndervoltage_touches vin (by simp only [footprint]; rfl) he (.refl _ _)
  | overvoltageShutdown vin => exact execOvervoltageShutdown_touches vin (by simp only [footprint]; rfl) he (.refl _ _)
  | diodeReverseCurrent => exact execDiodeReverseCurrent_touches (by simp only [footprint]; rfl) he (.refl _ _)
  | windowFlushDone => exact execWindowFlushDone_touches (by simp only [footprint]; rfl) he (.refl _ _)
  | bankChargeDone energy => exact execBankChargeDone_touches energy (by simp only [footprint]; rfl) he (.refl _ _)
  | bankBelowReady => exact execBankBelowReady_touches (by simp only [footprint]; rfl) he (.refl _ _)
  | unplugRequest => exact execUnplugRequest_touches (by simp only [footprint]; rfl) he (.refl _ _)
  | quiesceOpDeadline => exact execQuiesceOpDeadline_touches (by simp only [footprint]; rfl) he (.refl _ _)
  | sensorSample n temp => exact execSensorSample_touches n temp (by simp only [footprint]; rfl) he (.refl _ _)
  | thermalLevelExit => exact execThermalLevelExit_touches (by simp only [footprint]; rfl) he (.refl _ _)
  | powerLevelStepDown => exact execPowerLevelStepDown_touches (by simp only [footprint]; rfl) he (.refl _ _)
  | leakResponse => exact execLeakResponse_touches (by simp only [footprint]; rfl) he (.refl _ _)
  | lossOfLock => exact execLossOfLock_touches (by simp only [footprint]; rfl) he (.refl _ _)
  | epochPrewrite => exact execEpochPrewrite_touches (by simp only [footprint]; rfl) he (.refl _ _)
  | cclkWrap => exact execCclkWrap_touches (by simp only [footprint]; rfl) he (.refl _ _)
  | rstLFall => exact execRstLFall_touches (by simp only [footprint]; rfl) he (.refl _ _)
  | rstLRise lines => exact execRstLRise_touches lines (by simp only [footprint]; rfl) he (.refl _ _)
  | cfgRestart path key => exact execCfgRestart_touches path key (by simp only [footprint]; rfl) he (.refl _ _)
  | refclkPresent badWords => exact execRefclkPresent_touches badWords (by simp only [footprint]; rfl) he (.refl _ _)
  | pllLock straps => exact execPllLock_touches straps (by simp only [footprint]; rfl) he (.refl _ _)
  | imageSlotChecked img => exact execImageSlotChecked_touches img (by simp only [footprint]; rfl) he (.refl _ _)
  | sensorTrimDone => exact execSensorTrimDone_touches (by simp only [footprint]; rfl) he (.refl _ _)
  | hbmTrainingDone ppr failed => exact execHbmTrainingDone_touches ppr failed (by simp only [footprint]; rfl) he (.refl _ _)
  | hbmZeroDone => exact execHbmZeroDone_touches (by simp only [footprint]; rfl) he (.refl _ _)
  | onfiTrainingDone geo present offline => exact execOnfiTrainingDone_touches geo present offline (by simp only [footprint]; rfl) he (.refl _ _)
  | arrayChecksDone banks rows tally => exact execArrayChecksDone_touches banks rows tally (by simp only [footprint]; rfl) he (.refl _ _)
  | coreSelfTestDone bad => exact execCoreSelfTestDone_touches bad (by simp only [footprint]; rfl) he (.refl _ _)
  | opticalCalibrationDone bays lanes => exact execOpticalCalibrationDone_touches bays lanes (by simp only [footprint]; rfl) he (.refl _ _)
  | serviceStartDone => exact execServiceStartDone_touches (by simp only [footprint]; rfl) he (.refl _ _)
  | rdyAssert => exact execRdyAssert_touches (by simp only [footprint]; rfl) he (.refl _ _)
  | blockPassDone => exact execBlockPassDone_touches (by simp only [footprint]; rfl) he (.refl _ _)
  | regionScanDone => exact execRegionScanDone_touches (by simp only [footprint]; rfl) he (.refl _ _)
  | ondemandScanDone => exact execOndemandScanDone_touches (by simp only [footprint]; rfl) he (.refl _ _)
  | linkUp port peer => exact execLinkUp_touches port peer (by simp only [footprint]; rfl) he (.refl _ _)
  | portDown port => exact execPortDown_touches port (by simp only [footprint]; rfl) he (.refl _ _)
  | laserBayLow bay removed power => exact execLaserBayLow_touches bay removed power (by simp only [footprint]; rfl) he (.refl _ _)
  | laneMarginFail port lane => exact execLaneMarginFail_touches port lane (by simp only [footprint]; rfl) he (.refl _ _)
  | subReq port lane => exact execSubReq_touches port lane (by simp only [footprint]; rfl) he (.refl _ _)
  | subReady port lane => exact execSubReady_touches port lane (by simp only [footprint]; rfl) he (.refl _ _)
  | subDone port lane => exact execSubDone_touches port lane (by simp only [footprint]; rfl) he (.refl _ _)
  | frameReceive port f => exact execFrameReceive_touches port f (by simp only [footprint]; rfl) he (.refl _ _)
  | flitForward port flit => exact execFlitForward_touches port flit (by simp only [footprint]; rfl) he (.refl _ _)
  | rdUnc h addr len => exact execRdUnc_touches h addr len (by simp only [footprint]; rfl) he (.refl _ _)
  | wrUnc h addr mask data => exact execWrUnc_touches h addr mask data (by simp only [footprint]; rfl) he (.refl _ _)
  | rdS h addr => exact execRdS_touches h addr (by simp only [footprint]; rfl) he (.refl _ _)
  | rdE h addr => exact execRdE_touches h addr (by simp only [footprint]; rfl) he (.refl _ _)
  | upg h addr => exact execUpg_touches h addr (by simp only [footprint]; rfl) he (.refl _ _)
  | wb h addr data => exact execWb_touches h addr data (by simp only [footprint]; rfl) he (.refl _ _)
  | snpResp h addr data wbPending => exact execSnpResp_touches h addr data wbPending (by simp only [footprint]; rfl) he (.refl _ _)
  | snoopTimeout addr node => exact execSnoopTimeout_touches addr node (by simp only [footprint]; rfl) he (.refl _ _)
  | doorbell h ring first cqHead count entries => exact execDoorbell_touches h ring first cqHead count entries (by simp only [footprint]; rfl) he (.refl _ _)
  | data h poison bytes => exact execData_touches h poison bytes (by simp only [footprint]; rfl) he (.refl _ _)
  | ack h => exact execAck_touches h (by simp only [footprint]; rfl) he (.refl _ _)
  | nak h status => exact execNak_touches h status (by simp only [footprint]; rfl) he (.refl _ _)
  | requesterReadTimeout tag => exact execRequesterReadTimeout_touches tag (by simp only [footprint]; rfl) he (.refl _ _)
  | tileAckTimeout tag => exact execTileAckTimeout_touches tag (by simp only [footprint]; rfl) he (.refl _ _)
  | tileSend op => exact execTileSend_touches op (by simp only [footprint]; rfl) he (.refl _ _)
  | completionWrite ring => exact execCompletionWrite_touches ring (by simp only [footprint]; rfl) he (.refl _ _)
  | ringDrainDone ring => exact execRingDrainDone_touches ring (by simp only [footprint]; rfl) he (.refl _ _)
  | unknownOp ring => exact execUnknownOp_touches ring (by simp only [footprint]; rfl) he (.refl _ _)
  | seqOpen ring => exact execSeqOpen_touches ring (by simp only [footprint]; rfl) he (.refl _ _)
  | seqClose ring => exact execSeqClose_touches ring (by simp only [footprint]; rfl) he (.refl _ _)
  | seqFork ring => exact execSeqFork_touches ring (by simp only [footprint]; rfl) he (.refl _ _)
  | kvAppend ring => exact execKvAppend_touches ring (by simp only [footprint]; rfl) he (.refl _ _)
  | ladderDemoteTimeout op => exact execLadderDemoteTimeout_touches op (by simp only [footprint]; rfl) he (.refl _ _)
  | freedRunService part => exact execFreedRunService_touches part (by simp only [footprint]; rfl) he (.refl _ _)
  | encodeDone part => exact execEncodeDone_touches part (by simp only [footprint]; rfl) he (.refl _ _)
  | translationDrainDone id => exact execTranslationDrainDone_touches id (by simp only [footprint]; rfl) he (.refl _ _)
  | ticketWrite part => exact execTicketWrite_touches part (by simp only [footprint]; rfl) he (.refl _ _)
  | mdLoad path => exact execMdLoad_touches path (by simp only [footprint]; rfl) he (.refl _ _)
  | mdRead path => exact execMdRead_touches path (by simp only [footprint]; rfl) he (.refl _ _)
  | mdUnload path => exact execMdUnload_touches path (by simp only [footprint]; rfl) he (.refl _ _)
  | pfxLookup ring => exact execPfxLookup_touches ring (by simp only [footprint]; rfl) he (.refl _ _)
  | pfxPublish ring => exact execPfxPublish_touches ring (by simp only [footprint]; rfl) he (.refl _ _)
  | publishWaitEnd op => exact execPublishWaitEnd_touches op (by simp only [footprint]; rfl) he (.refl _ _)
  | pfxRetire ring => exact execPfxRetire_touches ring (by simp only [footprint]; rfl) he (.refl _ _)
  | policyInsert path => exact execPolicyInsert_touches path (by simp only [footprint]; rfl) he (.refl _ _)
  | policyDelete path => exact execPolicyDelete_touches path (by simp only [footprint]; rfl) he (.refl _ _)
  | policyRead path => exact execPolicyRead_touches path (by simp only [footprint]; rfl) he (.refl _ _)
  | pmaPatrolRead errors => exact execPmaPatrolRead_touches errors (by simp only [footprint]; rfl) he (.refl _ _)
  | attnDecode ring => exact execAttnDecode_touches ring (by simp only [footprint]; rfl) he (.refl _ _)
  | attnChunk ring => exact execAttnChunk_touches ring (by simp only [footprint]; rfl) he (.refl _ _)
  | attnBwd ring => exact execAttnBwd_touches ring (by simp only [footprint]; rfl) he (.refl _ _)
  | kvFetch ring => exact execKvFetch_touches ring (by simp only [footprint]; rfl) he (.refl _ _)
  | kvPrefetch ring => exact execKvPrefetch_touches ring (by simp only [footprint]; rfl) he (.refl _ _)
  | workUnitDispatch cluster core => exact execWorkUnitDispatch_touches cluster core (by simp only [footprint]; rfl) he (.refl _ _)
  | workUnitEnd cluster core => exact execWorkUnitEnd_touches cluster core (by simp only [footprint]; rfl) he (.refl _ _)
  | objHint ring => exact execObjHint_touches ring (by simp only [footprint]; rfl) he (.refl _ _)
  | objMigrate ring => exact execObjMigrate_touches ring (by simp only [footprint]; rfl) he (.refl _ _)
  | heatHalving => exact execHeatHalving_touches (by simp only [footprint]; rfl) he (.refl _ _)
  | halvingSweepEnd => exact execHalvingSweepEnd_touches (by simp only [footprint]; rfl) he (.refl _ _)
  | backgroundMove part => exact execBackgroundMove_touches part (by simp only [footprint]; rfl) he (.refl _ _)
  | moveCopyDone move ok => exact execMoveCopyDone_touches move ok (by simp only [footprint]; rfl) he (.refl _ _)
  | tierQuotaWrite path part k value => exact execTierQuotaWrite_touches path part k value (by simp only [footprint]; rfl) he (.refl _ _)
  | wtLoad ring => exact execWtLoad_touches ring (by simp only [footprint]; rfl) he (.refl _ _)
  | wtStream ring => exact execWtStream_touches ring (by simp only [footprint]; rfl) he (.refl _ _)
  | extGrant ring => exact execExtGrant_touches ring (by simp only [footprint]; rfl) he (.refl _ _)
  | extZeroDone ext => exact execExtZeroDone_touches ext (by simp only [footprint]; rfl) he (.refl _ _)
  | extRevoke ring index => exact execExtRevoke_touches ring index (by simp only [footprint]; rfl) he (.refl _ _)
  | snoopFilterScanDone ctrl ext => exact execSnoopFilterScanDone_touches ctrl ext (by simp only [footprint]; rfl) he (.refl _ _)
  | gracePeriodEnd ext => exact execGracePeriodEnd_touches ext (by simp only [footprint]; rfl) he (.refl _ _)
  | flashProgramDone id ok => exact execFlashProgramDone_touches id ok (by simp only [footprint]; rfl) he (.refl _ _)
  | flashReadDone target corrected step => exact execFlashReadDone_touches target corrected step (by simp only [footprint]; rfl) he (.refl _ _)
  | writePathTimeout op => exact execWritePathTimeout_touches op (by simp only [footprint]; rfl) he (.refl _ _)
  | fold unit => exact execFold_touches unit (by simp only [footprint]; rfl) he (.refl _ _)
  | gcCollect die => exact execGcCollect_touches die (by simp only [footprint]; rfl) he (.refl _ _)
  | stripeCloseVerify stripe corrected => exact execStripeCloseVerify_touches stripe corrected (by simp only [footprint]; rfl) he (.refl _ _)
  | flashPatrol stripe corrected => exact execFlashPatrol_touches stripe corrected (by simp only [footprint]; rfl) he (.refl _ _)
  | writeHeatHalving => exact execWriteHeatHalving_touches (by simp only [footprint]; rfl) he (.refl _ _)
  | catalogCompaction => exact execCatalogCompaction_touches (by simp only [footprint]; rfl) he (.refl _ _)
  | reserveRefill => exact execReserveRefill_touches (by simp only [footprint]; rfl) he (.refl _ _)
  | discard ring => exact execDiscard_touches ring (by simp only [footprint]; rfl) he (.refl _ _)
  | discardSecure ring => exact execDiscardSecure_touches ring (by simp only [footprint]; rfl) he (.refl _ _)
  | hourOfService junction flash => exact execHourOfService_touches junction flash (by simp only [footprint]; rfl) he (.refl _ _)
  | step ring => exact execStep_touches ring (by simp only [footprint]; rfl) he (.refl _ _)
  | stepSubchunkIssue op => exact execStepSubchunkIssue_touches op (by simp only [footprint]; rfl) he (.refl _ _)
  | ctxWrite path => exact execCtxWrite_touches path (by simp only [footprint]; rfl) he (.refl _ _)
  | ctxRead path => exact execCtxRead_touches path (by simp only [footprint]; rfl) he (.refl _ _)
  | ctxDisable path => exact execCtxDisable_touches path (by simp only [footprint]; rfl) he (.refl _ _)
  | quantumExpiry part => exact execQuantumExpiry_touches part (by simp only [footprint]; rfl) he (.refl _ _)
  | cheapPointStop cluster core bytes => exact execCheapPointStop_touches cluster core bytes (by simp only [footprint]; rfl) he (.refl _ _)
  | cheapWaitExpiry part => exact execCheapWaitExpiry_touches part (by simp only [footprint]; rfl) he (.refl _ _)
  | saveDone part => exact execSaveDone_touches part (by simp only [footprint]; rfl) he (.refl _ _)
  | scrubDone part => exact execScrubDone_touches part (by simp only [footprint]; rfl) he (.refl _ _)
  | restoreDone part => exact execRestoreDone_touches part (by simp only [footprint]; rfl) he (.refl _ _)
  | deadlineEvaluation op => exact execDeadlineEvaluation_touches op (by simp only [footprint]; rfl) he (.refl _ _)
  | slowdownPublish => exact execSlowdownPublish_touches (by simp only [footprint]; rfl) he (.refl _ _)
  | sramUncorrectable cluster site => exact execSramUncorrectable_touches cluster site (by simp only [footprint]; rfl) he (.refl _ _)
  | microcodeTrap cluster => exact execMicrocodeTrap_touches cluster (by simp only [footprint]; rfl) he (.refl _ _)
  | cheapPointTimeout cluster => exact execCheapPointTimeout_touches cluster (by simp only [footprint]; rfl) he (.refl _ _)
  | fabricPortProtocolError cluster => exact execFabricPortProtocolError_touches cluster (by simp only [footprint]; rfl) he (.refl _ _)
  | partitionResetWrite path part => exact execPartitionResetWrite_touches path part (by simp only [footprint]; rfl) he (.refl _ _)
  | partitionResetDone part bad => exact execPartitionResetDone_touches part bad (by simp only [footprint]; rfl) he (.refl _ _)
  | kmRequestReceive session code flags len kmSeq named rest => exact execKmRequestReceive_touches session code flags len kmSeq named rest (by simp only [footprint]; rfl) he (.refl _ _)
  | kmTenantCreate session => exact execKmTenantCreate_touches session (by simp only [footprint]; rfl) he (.refl _ _)
  | kmTenantRemove session => exact execKmTenantRemove_touches session (by simp only [footprint]; rfl) he (.refl _ _)
  | removeDrainDone => exact execRemoveDrainDone_touches (by simp only [footprint]; rfl) he (.refl _ _)
  | kmJobOpen session => exact execKmJobOpen_touches session (by simp only [footprint]; rfl) he (.refl _ _)
  | kmJobClose session => exact execKmJobClose_touches session (by simp only [footprint]; rfl) he (.refl _ _)
  | kmPeerOpen session => exact execKmPeerOpen_touches session (by simp only [footprint]; rfl) he (.refl _ _)
  | getVersion h body => exact execGetVersion_touches h body (by simp only [footprint]; rfl) he (.refl _ _)
  | getCapabilities h body => exact execGetCapabilities_touches h body (by simp only [footprint]; rfl) he (.refl _ _)
  | negotiateAlgorithms h body => exact execNegotiateAlgorithms_touches h body (by simp only [footprint]; rfl) he (.refl _ _)
  | getDigests h body => exact execGetDigests_touches h body (by simp only [footprint]; rfl) he (.refl _ _)
  | getCertificate h body => exact execGetCertificate_touches h body (by simp only [footprint]; rfl) he (.refl _ _)
  | challenge h body => exact execChallenge_touches h body (by simp only [footprint]; rfl) he (.refl _ _)
  | getMeasurements h body => exact execGetMeasurements_touches h body (by simp only [footprint]; rfl) he (.refl _ _)
  | keyExchange h body => exact execKeyExchange_touches h body (by simp only [footprint]; rfl) he (.refl _ _)
  | finish h body => exact execFinish_touches h body (by simp only [footprint]; rfl) he (.refl _ _)
  | endSession h body => exact execEndSession_touches h body (by simp only [footprint]; rfl) he (.refl _ _)
  | spdmUnsupported h code body => exact execSpdmUnsupported_touches h code body (by simp only [footprint]; rfl) he (.refl _ _)
  | fuseProgram path key slot => exact execFuseProgram_touches path key slot (by simp only [footprint]; rfl) he (.refl _ _)
  | fuseRevoke path key slot => exact execFuseRevoke_touches path key slot (by simp only [footprint]; rfl) he (.refl _ _)
  | debugHalt path halt => exact execDebugHalt_touches path halt (by simp only [footprint]; rfl) he (.refl _ _)
  | debugStep path => exact execDebugStep_touches path (by simp only [footprint]; rfl) he (.refl _ _)
  | debugDataAccess path write => exact execDebugDataAccess_touches path write (by simp only [footprint]; rfl) he (.refl _ _)
  | tenantViewSnapshot => exact execTenantViewSnapshot_touches (by simp only [footprint]; rfl) he (.refl _ _)
  | powerViewSnapshot => exact execPowerViewSnapshot_touches (by simp only [footprint]; rfl) he (.refl _ _)
  | hbmBackgroundZero part start len => exact execHbmBackgroundZero_touches part start len (by simp only [footprint]; rfl) he (.refl _ _)
  | bankRebuildDone bank => exact execBankRebuildDone_touches bank (by simp only [footprint]; rfl) he (.refl _ _)
  | hbmUncorrectable addr => exact execHbmUncorrectable_touches addr (by simp only [footprint]; rfl) he (.refl _ _)
  | hbmCorrectedError stack block => exact execHbmCorrectedError_touches stack block (by simp only [footprint]; rfl) he (.refl _ _)
  | hbmRemapDone stack block => exact execHbmRemapDone_touches stack block (by simp only [footprint]; rfl) he (.refl _ _)
  | bridgeCrcLimit die errors => exact execBridgeCrcLimit_touches die errors (by simp only [footprint]; rfl) he (.refl _ _)
  | bridgeRetrainDone die ok => exact execBridgeRetrainDone_touches die ok (by simp only [footprint]; rfl) he (.refl _ _)
  | fatalMemoryInternal memory unit detail hit => exact execFatalMemoryInternal_touches memory unit detail hit (by simp only [footprint]; rfl) he (.refl _ _)
  | saddlebagEventWrite => exact execSaddlebagEventWrite_touches (by simp only [footprint]; rfl) he (.refl _ _)
  | suppressionIntervalEnd => exact execSuppressionIntervalEnd_touches (by simp only [footprint]; rfl) he (.refl _ _)
  | saddlebagCopyDone => exact execSaddlebagCopyDone_touches (by simp only [footprint]; rfl) he (.refl _ _)
  | operatorSnapshot path => exact execOperatorSnapshot_touches path (by simp only [footprint]; rfl) he (.refl _ _)
  | holdSlot path slot => exact execHoldSlot_touches path slot (by simp only [footprint]; rfl) he (.refl _ _)
  | releaseSlot path slot => exact execReleaseSlot_touches path slot (by simp only [footprint]; rfl) he (.refl _ _)
  | bbxReadDataRead path => exact execBbxReadDataRead_touches path (by simp only [footprint]; rfl) he (.refl _ _)
  | tlyWordWrite path value => exact execTlyWordWrite_touches path value (by simp only [footprint]; rfl) he (.refl _ _)
  | helloInterval => exact execHelloInterval_touches (by simp only [footprint]; rfl) he (.refl _ _)
  | hello h pos view mask epoch digest => exact execHello_touches h pos view mask epoch digest (by simp only [footprint]; rfl) he (.refl _ _)
  | positionDead pos => exact execPositionDead_touches pos (by simp only [footprint]; rfl) he (.refl _ _)
  | search h view owner bankSet sid keys => exact execSearch_touches h view owner bankSet sid keys (by simp only [footprint]; rfl) he (.refl _ _)
  | searchAck h sid prios => exact execSearchAck_touches h sid prios (by simp only [footprint]; rfl) he (.refl _ _)
  | claim h view sid won => exact execClaim_touches h view sid won (by simp only [footprint]; rfl) he (.refl _ _)
  | result h sid entries => exact execResult_touches h sid entries (by simp only [footprint]; rfl) he (.refl _ _)
  | read h handle layer offset len => exact execRead_touches h handle layer offset len (by simp only [footprint]; rfl) he (.refl _ _)
  | pageData h status bytes => exact execPageData_touches h status bytes (by simp only [footprint]; rfl) he (.refl _ _)
  | release h entries => exact execRelease_touches h entries (by simp only [footprint]; rfl) he (.refl _ _)
  | peerReadTimeout tag => exact execPeerReadTimeout_touches tag (by simp only [footprint]; rfl) he (.refl _ _)
  | nop ring => exact execNop_touches ring (by simp only [footprint]; rfl) he (.refl _ _)
  | mgmtRd h off len => exact execMgmtRd_touches h off len (by simp only [footprint]; rfl) he (.refl _ _)
  | mgmtWr h off bytes => exact execMgmtWr_touches h off bytes (by simp only [footprint]; rfl) he (.refl _ _)
  | spdm h code body => exact execSpdm_touches h code body (by simp only [footprint]; rfl) he (.refl _ _)
  | i3cPrivateWrite bytes => exact execI3cPrivateWrite_touches bytes (by simp only [footprint]; rfl) he (.refl _ _)
  | i3cPrivateRead words => exact execI3cPrivateRead_touches words (by simp only [footprint]; rfl) he (.refl _ _)
  | entdaa addr => exact execEntdaa_touches addr (by simp only [footprint]; rfl) he (.refl _ _)
  | setdasa addr => exact execSetdasa_touches addr (by simp only [footprint]; rfl) he (.refl _ _)
  | rstdaa => exact execRstdaa_touches (by simp only [footprint]; rfl) he (.refl _ _)
  | getpid => exact execGetpid_touches (by simp only [footprint]; rfl) he (.refl _ _)
  | getbcr => exact execGetbcr_touches (by simp only [footprint]; rfl) he (.refl _ _)
  | getdcr => exact execGetdcr_touches (by simp only [footprint]; rfl) he (.refl _ _)
  | getstatus => exact execGetstatus_touches (by simp only [footprint]; rfl) he (.refl _ _)
  | rngWriteEntry path => exact execRngWriteEntry_touches path (by simp only [footprint]; rfl) he (.refl _ _)
  | rngReadEntry path => exact execRngReadEntry_touches path (by simp only [footprint]; rfl) he (.refl _ _)
  | rngSetDrain path => exact execRngSetDrain_touches path (by simp only [footprint]; rfl) he (.refl _ _)
  | topCclkLoRead path => exact execTopCclkLoRead_touches path (by simp only [footprint]; rfl) he (.refl _ _)
  | atnKeysLoRead path => exact execAtnKeysLoRead_touches path (by simp only [footprint]; rfl) he (.refl _ _)
  | ftlSeqLoRead path => exact execFtlSeqLoRead_touches path (by simp only [footprint]; rfl) he (.refl _ _)
  | schAcctCycLoRead path => exact execSchAcctCycLoRead_touches path (by simp only [footprint]; rfl) he (.refl _ _)
  | schAcctSaveLoRead path => exact execSchAcctSaveLoRead_touches path (by simp only [footprint]; rfl) he (.refl _ _)
  | registerWrite path off value => exact execRegisterWrite_touches path off value (by simp only [footprint]; rfl) he (.refl _ _)
  | stirrupBeat value => exact execStirrupBeat_touches value (by simp only [footprint]; rfl) he (.refl _ _)
  | powerGovernorMeasure vin power need lines => exact execPowerGovernorMeasure_touches vin power need lines (by simp only [footprint]; rfl) he (.refl _ _)
  | bankBleedBelow20v => exact execBankBleedBelow20v_touches (by simp only [footprint]; rfl) he (.refl _ _)
  | flashEraseDone die block ok => exact execFlashEraseDone_touches die block ok (by simp only [footprint]; rfl) he (.refl _ _)

end Sys2Proof.Machine
end

