-- ==== Sys2Proof/Laws/Maps.lean ====
section
/-! SUPPORT. What a table or a register file reads after a write. -/

namespace Sys2Proof.Machine

open Sys2Proof

variable {α : Type}

@[simp] theorem mget_mset (m : AMap α) (k : Nat) (v : α) : mget (mset m k v) k = some v := by
  induction m with
  | nil => simp [mset, mget]
  | cons x r ih =>
    simp only [mset]
    split
    · simp [mget]
    · split
      · simp [mget]
      · simp_all [mget]

theorem mget_mset_ne (m : AMap α) {k j : Nat} (v : α) (h : j ≠ k) : mget (mset m k v) j = mget m j := by
  induction m with
  | nil => simp [mset, mget, Ne.symm h]
  | cons x r ih =>
    simp only [mset]
    split
    · simp [mget, Ne.symm h]
    · split
      · next e =>
        have e : x.1 = k := by simpa using e
        simp [mget, e, Ne.symm h]
      · simp only [mget, ih]

@[simp] theorem mgetD_mset (m : AMap α) (k : Nat) (v d : α) : mgetD (mset m k v) k d = v := by simp [mgetD]

theorem mgetD_mset_ne (m : AMap α) {k j : Nat} (v d : α) (h : j ≠ k) : mgetD (mset m k v) j d = mgetD m j d := by
  simp [mgetD, mget_mset_ne m v h]

@[simp] theorem mgetD_mupd (m : AMap α) (k : Nat) (d : α) (f : α → α) : mgetD (mupd m k d f) k d = f (mgetD m k d) := by
  simp [mupd]

@[simp] theorem mget_mupd (m : AMap α) (k : Nat) (d : α) (f : α → α) : mget (mupd m k d f) k = some (f (mgetD m k d)) := by
  simp [mupd]

theorem mgetD_mupd_ne (m : AMap α) {k j : Nat} (d : α) (f : α → α) (h : j ≠ k) : mgetD (mupd m k d f) j d = mgetD m j d := by
  simp [mupd, mgetD_mset_ne m _ d h]

theorem mget_mupd_ne (m : AMap α) {k j : Nat} (d : α) (f : α → α) (h : j ≠ k) : mget (mupd m k d f) j = mget m j := by
  simp [mupd, mget_mset_ne m _ h]

theorem mget_mmod (m : AMap α) (k : Nat) (f : α → α) : mget (mmod m k f) k = (mget m k).map f := by
  unfold mmod
  split
  · next h => simp [h]
  · next v h => simp [h]

theorem mget_mmod_ne (m : AMap α) {k j : Nat} (f : α → α) (h : j ≠ k) : mget (mmod m k f) j = mget m j := by
  unfold mmod
  split
  · rfl
  · exact mget_mset_ne m _ h

theorem mgetD_mmod_ne (m : AMap α) {k j : Nat} (d : α) (f : α → α) (h : j ≠ k) : mgetD (mmod m k f) j d = mgetD m j d := by
  simp [mgetD, mget_mmod_ne m f h]

/-- Where a table has the key, what `mmod` leaves there. -/
theorem mgetD_mmod (m : AMap α) (k : Nat) (d : α) (f : α → α) (h : mhas m k = true) : mgetD (mmod m k f) k d = f (mgetD m k d) := by
  obtain ⟨v, e⟩ := Option.isSome_iff_exists.mp h
  simp [mgetD, mget_mmod, e]

theorem nth_lmod (l : List α) (i : Nat) (f : α → α) (d : α) (h : i < l.length) : nth (lmod l i f) i d = f (nth l i d) := by
  induction l generalizing i with
  | nil => simp at h
  | cons x r ih =>
    cases i with
    | zero => rfl
    | succ n => exact ih n (by simpa using h)

theorem nth_lmod_ne (l : List α) {i j : Nat} (f : α → α) (d : α) (h : j ≠ i) : nth (lmod l i f) j d = nth l j d := by
  induction l generalizing i j with
  | nil => rfl
  | cons x r ih =>
    cases i with
    | zero =>
      cases j with
      | zero => exact absurd rfl h
      | succ m => rfl
    | succ n =>
      cases j with
      | zero => rfl
      | succ m => exact ih fun e => h (by rw [e])

theorem length_lmod (l : List α) (i : Nat) (f : α → α) : (lmod l i f).length = l.length := by
  induction l generalizing i with
  | nil => rfl
  | cons x r ih =>
    cases i with
    | zero => rfl
    | succ n => simp [lmod, ih]

theorem nth_lput (l : List α) (i : Nat) (v d : α) (h : i < l.length) : nth (lput l i v) i d = v := nth_lmod l i _ d h

theorem nth_lput_ne (l : List α) {i j : Nat} (v d : α) (h : j ≠ i) : nth (lput l i v) j d = nth l j d := nth_lmod_ne l _ d h

theorem foldl_max_le (l : List Nat) (a n : Nat) (ha : a ≤ n) (h : ∀ x ∈ l, x ≤ n) : l.foldl max a ≤ n := by
  induction l generalizing a with
  | nil => exact ha
  | cons x r ih => exact ih (max a x) (Nat.max_le.mpr ⟨ha, h x List.mem_cons_self⟩) fun y hy => h y (List.mem_cons_of_mem _ hy)

theorem le_foldl_max (l : List Nat) (a : Nat) : a ≤ l.foldl max a ∧ ∀ x ∈ l, x ≤ l.foldl max a := by
  induction l generalizing a with
  | nil => exact ⟨Nat.le_refl _, fun _ h => nomatch h⟩
  | cons x r ih =>
    have k := ih (max a x)
    refine ⟨Nat.le_trans (Nat.le_max_left a x) k.1, fun y hy => ?_⟩
    rcases List.mem_cons.mp hy with e | e
    · rw [e]
      exact Nat.le_trans (Nat.le_max_right a x) k.1
    · exact k.2 y e

theorem foldl_max_mem (l : List Nat) (a : Nat) : l.foldl max a = a ∨ l.foldl max a ∈ l := by
  induction l generalizing a with
  | nil => exact .inl rfl
  | cons x r ih =>
    rcases ih (max a x) with e | e
    · rcases Nat.le_total a x with c | c
      · exact .inr (by rw [List.foldl_cons, e, Nat.max_eq_right c]; exact List.mem_cons_self)
      · exact .inl (by rw [List.foldl_cons, e, Nat.max_eq_left c])
    · exact .inr (List.mem_cons_of_mem _ e)

/-- The largest of a list bounds it, and is 0 or one of it. -/
theorem le_maxOf {l : List Nat} {x : Nat} (h : x ∈ l) : x ≤ maxOf l := (le_foldl_max l 0).2 x h

theorem maxOf_le {l : List Nat} {n : Nat} (h : ∀ x ∈ l, x ≤ n) : maxOf l ≤ n := foldl_max_le l 0 n (Nat.zero_le n) h

theorem maxOf_mem (l : List Nat) : maxOf l = 0 ∨ maxOf l ∈ l := foldl_max_mem l 0

theorem mem_insertBy (lt : α → α → Bool) (x y : α) (l : List α) : y ∈ insertBy lt x l ↔ y = x ∨ y ∈ l := by
  induction l with
  | nil => simp [insertBy]
  | cons a r ih =>
    unfold insertBy
    split <;> simp [ih]
    grind

/-- Sorting keeps the members. -/
theorem mem_sortBy (lt : α → α → Bool) (y : α) (l : List α) : y ∈ sortBy lt l ↔ y ∈ l := by
  unfold sortBy
  have : ∀ acc : List α, y ∈ l.foldl (fun acc x => insertBy lt x acc) acc ↔ y ∈ acc ∨ y ∈ l := by
    induction l with
    | nil => simp
    | cons a r ih => intro acc; rw [List.foldl_cons, ih, mem_insertBy]; simp; grind
  simp [this]

/-- Dropping repeats keeps the members. -/
theorem mem_nodup [BEq α] [LawfulBEq α] (y : α) (l : List α) : y ∈ nodup l ↔ y ∈ l := by
  unfold nodup
  have : ∀ acc : List α, y ∈ l.foldl (fun acc x => if acc.contains x then acc else acc ++ [x]) acc ↔ y ∈ acc ∨ y ∈ l := by
    induction l with
    | nil => simp
    | cons a r ih => intro acc; rw [List.foldl_cons, ih]; split <;> simp_all <;> grind
  rw [this]; simp

theorem nth_map_range (f : Nat → α) {n i : Nat} (d : α) (h : i < n) : nth ((List.range n).map f) i d = f i := by
  have : ∀ (l : List α) (i : Nat), nth l i d = l[i]?.getD d := by
    intro l
    induction l with
    | nil => intro i; rfl
    | cons x r ih =>
      intro i
      cases i with
      | zero => rfl
      | succ i => exact ih i
  rw [this]; simp [h]

end Sys2Proof.Machine
end

