-- ==== Sys2Proof/Laws/State.lean ====
section
/-! SUPPORT. What each update of State leaves alone: one lemma per update, every part of State. -/

namespace Sys2Proof.Machine

open Sys2Proof

@[simp] theorem State.modPins_parts (s : State) (f : Pins → Pins) :
    (s.modPins f).pending = s.pending ∧ (s.modPins f).free = s.free ∧ (s.modPins f).pins = f s.pins ∧
    (s.modPins f).pwr = s.pwr ∧ (s.modPins f).thm = s.thm ∧ (s.modPins f).clk = s.clk ∧
    (s.modPins f).start = s.start ∧ (s.modPins f).img = s.img ∧ (s.modPins f).resp = s.resp ∧
    (s.modPins f).tly = s.tly ∧ (s.modPins f).spare = s.spare ∧ (s.modPins f).bbx = s.bbx ∧
    (s.modPins f).link = s.link ∧ (s.modPins f).coh = s.coh ∧ (s.modPins f).ext = s.ext ∧
    (s.modPins f).hbm = s.hbm ∧ (s.modPins f).rng = s.rng ∧ (s.modPins f).io = s.io ∧ (s.modPins f).seqs = s.seqs ∧
    (s.modPins f).pfx = s.pfx ∧ (s.modPins f).casc = s.casc ∧ (s.modPins f).ops = s.ops ∧
    (s.modPins f).attn = s.attn ∧ (s.modPins f).core = s.core ∧ (s.modPins f).cdc = s.cdc ∧
    (s.modPins f).tier = s.tier ∧ (s.modPins f).wt = s.wt ∧ (s.modPins f).ftl = s.ftl ∧ (s.modPins f).sch = s.sch ∧
    (s.modPins f).sec = s.sec ∧ (s.modPins f).mgmt = s.mgmt := by
  refine ⟨rfl, rfl, rfl, rfl, rfl, rfl, rfl, rfl, rfl, rfl, rfl, rfl, rfl, rfl, rfl, rfl, rfl, rfl, rfl, rfl, rfl, rfl, rfl, rfl, rfl, rfl, rfl, rfl, rfl, rfl, rfl⟩

@[simp] theorem State.modPwr_parts (s : State) (f : Power → Power) :
    (s.modPwr f).pending = s.pending ∧ (s.modPwr f).free = s.free ∧ (s.modPwr f).pins = s.pins ∧
    (s.modPwr f).pwr = f s.pwr ∧ (s.modPwr f).thm = s.thm ∧ (s.modPwr f).clk = s.clk ∧
    (s.modPwr f).start = s.start ∧ (s.modPwr f).img = s.img ∧ (s.modPwr f).resp = s.resp ∧
    (s.modPwr f).tly = s.tly ∧ (s.modPwr f).spare = s.spare ∧ (s.modPwr f).bbx = s.bbx ∧
    (s.modPwr f).link = s.link ∧ (s.modPwr f).coh = s.coh ∧ (s.modPwr f).ext = s.ext ∧ (s.modPwr f).hbm = s.hbm ∧
    (s.modPwr f).rng = s.rng ∧ (s.modPwr f).io = s.io ∧ (s.modPwr f).seqs = s.seqs ∧ (s.modPwr f).pfx = s.pfx ∧
    (s.modPwr f).casc = s.casc ∧ (s.modPwr f).ops = s.ops ∧ (s.modPwr f).attn = s.attn ∧
    (s.modPwr f).core = s.core ∧ (s.modPwr f).cdc = s.cdc ∧ (s.modPwr f).tier = s.tier ∧ (s.modPwr f).wt = s.wt ∧
    (s.modPwr f).ftl = s.ftl ∧ (s.modPwr f).sch = s.sch ∧ (s.modPwr f).sec = s.sec ∧
    (s.modPwr f).mgmt = s.mgmt := by
  refine ⟨rfl, rfl, rfl, rfl, rfl, rfl, rfl, rfl, rfl, rfl, rfl, rfl, rfl, rfl, rfl, rfl, rfl, rfl, rfl, rfl, rfl, rfl, rfl, rfl, rfl, rfl, rfl, rfl, rfl, rfl, rfl⟩

@[simp] theorem State.modThm_parts (s : State) (f : Thermal → Thermal) :
    (s.modThm f).pending = s.pending ∧ (s.modThm f).free = s.free ∧ (s.modThm f).pins = s.pins ∧
    (s.modThm f).pwr = s.pwr ∧ (s.modThm f).thm = f s.thm ∧ (s.modThm f).clk = s.clk ∧
    (s.modThm f).start = s.start ∧ (s.modThm f).img = s.img ∧ (s.modThm f).resp = s.resp ∧
    (s.modThm f).tly = s.tly ∧ (s.modThm f).spare = s.spare ∧ (s.modThm f).bbx = s.bbx ∧
    (s.modThm f).link = s.link ∧ (s.modThm f).coh = s.coh ∧ (s.modThm f).ext = s.ext ∧ (s.modThm f).hbm = s.hbm ∧
    (s.modThm f).rng = s.rng ∧ (s.modThm f).io = s.io ∧ (s.modThm f).seqs = s.seqs ∧ (s.modThm f).pfx = s.pfx ∧
    (s.modThm f).casc = s.casc ∧ (s.modThm f).ops = s.ops ∧ (s.modThm f).attn = s.attn ∧
    (s.modThm f).core = s.core ∧ (s.modThm f).cdc = s.cdc ∧ (s.modThm f).tier = s.tier ∧ (s.modThm f).wt = s.wt ∧
    (s.modThm f).ftl = s.ftl ∧ (s.modThm f).sch = s.sch ∧ (s.modThm f).sec = s.sec ∧
    (s.modThm f).mgmt = s.mgmt := by
  refine ⟨rfl, rfl, rfl, rfl, rfl, rfl, rfl, rfl, rfl, rfl, rfl, rfl, rfl, rfl, rfl, rfl, rfl, rfl, rfl, rfl, rfl, rfl, rfl, rfl, rfl, rfl, rfl, rfl, rfl, rfl, rfl⟩

@[simp] theorem State.modClk_parts (s : State) (f : Clock → Clock) :
    (s.modClk f).pending = s.pending ∧ (s.modClk f).free = s.free ∧ (s.modClk f).pins = s.pins ∧
    (s.modClk f).pwr = s.pwr ∧ (s.modClk f).thm = s.thm ∧ (s.modClk f).clk = f s.clk ∧
    (s.modClk f).start = s.start ∧ (s.modClk f).img = s.img ∧ (s.modClk f).resp = s.resp ∧
    (s.modClk f).tly = s.tly ∧ (s.modClk f).spare = s.spare ∧ (s.modClk f).bbx = s.bbx ∧
    (s.modClk f).link = s.link ∧ (s.modClk f).coh = s.coh ∧ (s.modClk f).ext = s.ext ∧ (s.modClk f).hbm = s.hbm ∧
    (s.modClk f).rng = s.rng ∧ (s.modClk f).io = s.io ∧ (s.modClk f).seqs = s.seqs ∧ (s.modClk f).pfx = s.pfx ∧
    (s.modClk f).casc = s.casc ∧ (s.modClk f).ops = s.ops ∧ (s.modClk f).attn = s.attn ∧
    (s.modClk f).core = s.core ∧ (s.modClk f).cdc = s.cdc ∧ (s.modClk f).tier = s.tier ∧ (s.modClk f).wt = s.wt ∧
    (s.modClk f).ftl = s.ftl ∧ (s.modClk f).sch = s.sch ∧ (s.modClk f).sec = s.sec ∧
    (s.modClk f).mgmt = s.mgmt := by
  refine ⟨rfl, rfl, rfl, rfl, rfl, rfl, rfl, rfl, rfl, rfl, rfl, rfl, rfl, rfl, rfl, rfl, rfl, rfl, rfl, rfl, rfl, rfl, rfl, rfl, rfl, rfl, rfl, rfl, rfl, rfl, rfl⟩

@[simp] theorem State.modStart_parts (s : State) (f : StartSt → StartSt) :
    (s.modStart f).pending = s.pending ∧ (s.modStart f).free = s.free ∧ (s.modStart f).pins = s.pins ∧
    (s.modStart f).pwr = s.pwr ∧ (s.modStart f).thm = s.thm ∧ (s.modStart f).clk = s.clk ∧
    (s.modStart f).start = f s.start ∧ (s.modStart f).img = s.img ∧ (s.modStart f).resp = s.resp ∧
    (s.modStart f).tly = s.tly ∧ (s.modStart f).spare = s.spare ∧ (s.modStart f).bbx = s.bbx ∧
    (s.modStart f).link = s.link ∧ (s.modStart f).coh = s.coh ∧ (s.modStart f).ext = s.ext ∧
    (s.modStart f).hbm = s.hbm ∧ (s.modStart f).rng = s.rng ∧ (s.modStart f).io = s.io ∧
    (s.modStart f).seqs = s.seqs ∧ (s.modStart f).pfx = s.pfx ∧ (s.modStart f).casc = s.casc ∧
    (s.modStart f).ops = s.ops ∧ (s.modStart f).attn = s.attn ∧ (s.modStart f).core = s.core ∧
    (s.modStart f).cdc = s.cdc ∧ (s.modStart f).tier = s.tier ∧ (s.modStart f).wt = s.wt ∧
    (s.modStart f).ftl = s.ftl ∧ (s.modStart f).sch = s.sch ∧ (s.modStart f).sec = s.sec ∧
    (s.modStart f).mgmt = s.mgmt := by
  refine ⟨rfl, rfl, rfl, rfl, rfl, rfl, rfl, rfl, rfl, rfl, rfl, rfl, rfl, rfl, rfl, rfl, rfl, rfl, rfl, rfl, rfl, rfl, rfl, rfl, rfl, rfl, rfl, rfl, rfl, rfl, rfl⟩

@[simp] theorem State.modImg_parts (s : State) (f : ImgSt → ImgSt) :
    (s.modImg f).pending = s.pending ∧ (s.modImg f).free = s.free ∧ (s.modImg f).pins = s.pins ∧
    (s.modImg f).pwr = s.pwr ∧ (s.modImg f).thm = s.thm ∧ (s.modImg f).clk = s.clk ∧ (s.modImg f).start = s.start ∧
    (s.modImg f).img = f s.img ∧ (s.modImg f).resp = s.resp ∧ (s.modImg f).tly = s.tly ∧
    (s.modImg f).spare = s.spare ∧ (s.modImg f).bbx = s.bbx ∧ (s.modImg f).link = s.link ∧
    (s.modImg f).coh = s.coh ∧ (s.modImg f).ext = s.ext ∧ (s.modImg f).hbm = s.hbm ∧ (s.modImg f).rng = s.rng ∧
    (s.modImg f).io = s.io ∧ (s.modImg f).seqs = s.seqs ∧ (s.modImg f).pfx = s.pfx ∧ (s.modImg f).casc = s.casc ∧
    (s.modImg f).ops = s.ops ∧ (s.modImg f).attn = s.attn ∧ (s.modImg f).core = s.core ∧ (s.modImg f).cdc = s.cdc ∧
    (s.modImg f).tier = s.tier ∧ (s.modImg f).wt = s.wt ∧ (s.modImg f).ftl = s.ftl ∧ (s.modImg f).sch = s.sch ∧
    (s.modImg f).sec = s.sec ∧ (s.modImg f).mgmt = s.mgmt := by
  refine ⟨rfl, rfl, rfl, rfl, rfl, rfl, rfl, rfl, rfl, rfl, rfl, rfl, rfl, rfl, rfl, rfl, rfl, rfl, rfl, rfl, rfl, rfl, rfl, rfl, rfl, rfl, rfl, rfl, rfl, rfl, rfl⟩

@[simp] theorem State.modResp_parts (s : State) (f : Resp → Resp) :
    (s.modResp f).pending = s.pending ∧ (s.modResp f).free = s.free ∧ (s.modResp f).pins = s.pins ∧
    (s.modResp f).pwr = s.pwr ∧ (s.modResp f).thm = s.thm ∧ (s.modResp f).clk = s.clk ∧
    (s.modResp f).start = s.start ∧ (s.modResp f).img = s.img ∧ (s.modResp f).resp = f s.resp ∧
    (s.modResp f).tly = s.tly ∧ (s.modResp f).spare = s.spare ∧ (s.modResp f).bbx = s.bbx ∧
    (s.modResp f).link = s.link ∧ (s.modResp f).coh = s.coh ∧ (s.modResp f).ext = s.ext ∧
    (s.modResp f).hbm = s.hbm ∧ (s.modResp f).rng = s.rng ∧ (s.modResp f).io = s.io ∧ (s.modResp f).seqs = s.seqs ∧
    (s.modResp f).pfx = s.pfx ∧ (s.modResp f).casc = s.casc ∧ (s.modResp f).ops = s.ops ∧
    (s.modResp f).attn = s.attn ∧ (s.modResp f).core = s.core ∧ (s.modResp f).cdc = s.cdc ∧
    (s.modResp f).tier = s.tier ∧ (s.modResp f).wt = s.wt ∧ (s.modResp f).ftl = s.ftl ∧ (s.modResp f).sch = s.sch ∧
    (s.modResp f).sec = s.sec ∧ (s.modResp f).mgmt = s.mgmt := by
  refine ⟨rfl, rfl, rfl, rfl, rfl, rfl, rfl, rfl, rfl, rfl, rfl, rfl, rfl, rfl, rfl, rfl, rfl, rfl, rfl, rfl, rfl, rfl, rfl, rfl, rfl, rfl, rfl, rfl, rfl, rfl, rfl⟩

@[simp] theorem State.modTly_parts (s : State) (f : Tally → Tally) :
    (s.modTly f).pending = s.pending ∧ (s.modTly f).free = s.free ∧ (s.modTly f).pins = s.pins ∧
    (s.modTly f).pwr = s.pwr ∧ (s.modTly f).thm = s.thm ∧ (s.modTly f).clk = s.clk ∧ (s.modTly f).start = s.start ∧
    (s.modTly f).img = s.img ∧ (s.modTly f).resp = s.resp ∧ (s.modTly f).tly = f s.tly ∧
    (s.modTly f).spare = s.spare ∧ (s.modTly f).bbx = s.bbx ∧ (s.modTly f).link = s.link ∧
    (s.modTly f).coh = s.coh ∧ (s.modTly f).ext = s.ext ∧ (s.modTly f).hbm = s.hbm ∧ (s.modTly f).rng = s.rng ∧
    (s.modTly f).io = s.io ∧ (s.modTly f).seqs = s.seqs ∧ (s.modTly f).pfx = s.pfx ∧ (s.modTly f).casc = s.casc ∧
    (s.modTly f).ops = s.ops ∧ (s.modTly f).attn = s.attn ∧ (s.modTly f).core = s.core ∧ (s.modTly f).cdc = s.cdc ∧
    (s.modTly f).tier = s.tier ∧ (s.modTly f).wt = s.wt ∧ (s.modTly f).ftl = s.ftl ∧ (s.modTly f).sch = s.sch ∧
    (s.modTly f).sec = s.sec ∧ (s.modTly f).mgmt = s.mgmt := by
  refine ⟨rfl, rfl, rfl, rfl, rfl, rfl, rfl, rfl, rfl, rfl, rfl, rfl, rfl, rfl, rfl, rfl, rfl, rfl, rfl, rfl, rfl, rfl, rfl, rfl, rfl, rfl, rfl, rfl, rfl, rfl, rfl⟩

@[simp] theorem State.modSpare_parts (s : State) (f : Spare → Spare) :
    (s.modSpare f).pending = s.pending ∧ (s.modSpare f).free = s.free ∧ (s.modSpare f).pins = s.pins ∧
    (s.modSpare f).pwr = s.pwr ∧ (s.modSpare f).thm = s.thm ∧ (s.modSpare f).clk = s.clk ∧
    (s.modSpare f).start = s.start ∧ (s.modSpare f).img = s.img ∧ (s.modSpare f).resp = s.resp ∧
    (s.modSpare f).tly = s.tly ∧ (s.modSpare f).spare = f s.spare ∧ (s.modSpare f).bbx = s.bbx ∧
    (s.modSpare f).link = s.link ∧ (s.modSpare f).coh = s.coh ∧ (s.modSpare f).ext = s.ext ∧
    (s.modSpare f).hbm = s.hbm ∧ (s.modSpare f).rng = s.rng ∧ (s.modSpare f).io = s.io ∧
    (s.modSpare f).seqs = s.seqs ∧ (s.modSpare f).pfx = s.pfx ∧ (s.modSpare f).casc = s.casc ∧
    (s.modSpare f).ops = s.ops ∧ (s.modSpare f).attn = s.attn ∧ (s.modSpare f).core = s.core ∧
    (s.modSpare f).cdc = s.cdc ∧ (s.modSpare f).tier = s.tier ∧ (s.modSpare f).wt = s.wt ∧
    (s.modSpare f).ftl = s.ftl ∧ (s.modSpare f).sch = s.sch ∧ (s.modSpare f).sec = s.sec ∧
    (s.modSpare f).mgmt = s.mgmt := by
  refine ⟨rfl, rfl, rfl, rfl, rfl, rfl, rfl, rfl, rfl, rfl, rfl, rfl, rfl, rfl, rfl, rfl, rfl, rfl, rfl, rfl, rfl, rfl, rfl, rfl, rfl, rfl, rfl, rfl, rfl, rfl, rfl⟩

@[simp] theorem State.modBbx_parts (s : State) (f : Bbx → Bbx) :
    (s.modBbx f).pending = s.pending ∧ (s.modBbx f).free = s.free ∧ (s.modBbx f).pins = s.pins ∧
    (s.modBbx f).pwr = s.pwr ∧ (s.modBbx f).thm = s.thm ∧ (s.modBbx f).clk = s.clk ∧ (s.modBbx f).start = s.start ∧
    (s.modBbx f).img = s.img ∧ (s.modBbx f).resp = s.resp ∧ (s.modBbx f).tly = s.tly ∧
    (s.modBbx f).spare = s.spare ∧ (s.modBbx f).bbx = f s.bbx ∧ (s.modBbx f).link = s.link ∧
    (s.modBbx f).coh = s.coh ∧ (s.modBbx f).ext = s.ext ∧ (s.modBbx f).hbm = s.hbm ∧ (s.modBbx f).rng = s.rng ∧
    (s.modBbx f).io = s.io ∧ (s.modBbx f).seqs = s.seqs ∧ (s.modBbx f).pfx = s.pfx ∧ (s.modBbx f).casc = s.casc ∧
    (s.modBbx f).ops = s.ops ∧ (s.modBbx f).attn = s.attn ∧ (s.modBbx f).core = s.core ∧ (s.modBbx f).cdc = s.cdc ∧
    (s.modBbx f).tier = s.tier ∧ (s.modBbx f).wt = s.wt ∧ (s.modBbx f).ftl = s.ftl ∧ (s.modBbx f).sch = s.sch ∧
    (s.modBbx f).sec = s.sec ∧ (s.modBbx f).mgmt = s.mgmt := by
  refine ⟨rfl, rfl, rfl, rfl, rfl, rfl, rfl, rfl, rfl, rfl, rfl, rfl, rfl, rfl, rfl, rfl, rfl, rfl, rfl, rfl, rfl, rfl, rfl, rfl, rfl, rfl, rfl, rfl, rfl, rfl, rfl⟩

@[simp] theorem State.modLink_parts (s : State) (f : Link → Link) :
    (s.modLink f).pending = s.pending ∧ (s.modLink f).free = s.free ∧ (s.modLink f).pins = s.pins ∧
    (s.modLink f).pwr = s.pwr ∧ (s.modLink f).thm = s.thm ∧ (s.modLink f).clk = s.clk ∧
    (s.modLink f).start = s.start ∧ (s.modLink f).img = s.img ∧ (s.modLink f).resp = s.resp ∧
    (s.modLink f).tly = s.tly ∧ (s.modLink f).spare = s.spare ∧ (s.modLink f).bbx = s.bbx ∧
    (s.modLink f).link = f s.link ∧ (s.modLink f).coh = s.coh ∧ (s.modLink f).ext = s.ext ∧
    (s.modLink f).hbm = s.hbm ∧ (s.modLink f).rng = s.rng ∧ (s.modLink f).io = s.io ∧ (s.modLink f).seqs = s.seqs ∧
    (s.modLink f).pfx = s.pfx ∧ (s.modLink f).casc = s.casc ∧ (s.modLink f).ops = s.ops ∧
    (s.modLink f).attn = s.attn ∧ (s.modLink f).core = s.core ∧ (s.modLink f).cdc = s.cdc ∧
    (s.modLink f).tier = s.tier ∧ (s.modLink f).wt = s.wt ∧ (s.modLink f).ftl = s.ftl ∧ (s.modLink f).sch = s.sch ∧
    (s.modLink f).sec = s.sec ∧ (s.modLink f).mgmt = s.mgmt := by
  refine ⟨rfl, rfl, rfl, rfl, rfl, rfl, rfl, rfl, rfl, rfl, rfl, rfl, rfl, rfl, rfl, rfl, rfl, rfl, rfl, rfl, rfl, rfl, rfl, rfl, rfl, rfl, rfl, rfl, rfl, rfl, rfl⟩

@[simp] theorem State.modCoh_parts (s : State) (f : Coh → Coh) :
    (s.modCoh f).pending = s.pending ∧ (s.modCoh f).free = s.free ∧ (s.modCoh f).pins = s.pins ∧
    (s.modCoh f).pwr = s.pwr ∧ (s.modCoh f).thm = s.thm ∧ (s.modCoh f).clk = s.clk ∧ (s.modCoh f).start = s.start ∧
    (s.modCoh f).img = s.img ∧ (s.modCoh f).resp = s.resp ∧ (s.modCoh f).tly = s.tly ∧
    (s.modCoh f).spare = s.spare ∧ (s.modCoh f).bbx = s.bbx ∧ (s.modCoh f).link = s.link ∧
    (s.modCoh f).coh = f s.coh ∧ (s.modCoh f).ext = s.ext ∧ (s.modCoh f).hbm = s.hbm ∧ (s.modCoh f).rng = s.rng ∧
    (s.modCoh f).io = s.io ∧ (s.modCoh f).seqs = s.seqs ∧ (s.modCoh f).pfx = s.pfx ∧ (s.modCoh f).casc = s.casc ∧
    (s.modCoh f).ops = s.ops ∧ (s.modCoh f).attn = s.attn ∧ (s.modCoh f).core = s.core ∧ (s.modCoh f).cdc = s.cdc ∧
    (s.modCoh f).tier = s.tier ∧ (s.modCoh f).wt = s.wt ∧ (s.modCoh f).ftl = s.ftl ∧ (s.modCoh f).sch = s.sch ∧
    (s.modCoh f).sec = s.sec ∧ (s.modCoh f).mgmt = s.mgmt := by
  refine ⟨rfl, rfl, rfl, rfl, rfl, rfl, rfl, rfl, rfl, rfl, rfl, rfl, rfl, rfl, rfl, rfl, rfl, rfl, rfl, rfl, rfl, rfl, rfl, rfl, rfl, rfl, rfl, rfl, rfl, rfl, rfl⟩

@[simp] theorem State.modExt_parts (s : State) (f : Ext → Ext) :
    (s.modExt f).pending = s.pending ∧ (s.modExt f).free = s.free ∧ (s.modExt f).pins = s.pins ∧
    (s.modExt f).pwr = s.pwr ∧ (s.modExt f).thm = s.thm ∧ (s.modExt f).clk = s.clk ∧ (s.modExt f).start = s.start ∧
    (s.modExt f).img = s.img ∧ (s.modExt f).resp = s.resp ∧ (s.modExt f).tly = s.tly ∧
    (s.modExt f).spare = s.spare ∧ (s.modExt f).bbx = s.bbx ∧ (s.modExt f).link = s.link ∧
    (s.modExt f).coh = s.coh ∧ (s.modExt f).ext = f s.ext ∧ (s.modExt f).hbm = s.hbm ∧ (s.modExt f).rng = s.rng ∧
    (s.modExt f).io = s.io ∧ (s.modExt f).seqs = s.seqs ∧ (s.modExt f).pfx = s.pfx ∧ (s.modExt f).casc = s.casc ∧
    (s.modExt f).ops = s.ops ∧ (s.modExt f).attn = s.attn ∧ (s.modExt f).core = s.core ∧ (s.modExt f).cdc = s.cdc ∧
    (s.modExt f).tier = s.tier ∧ (s.modExt f).wt = s.wt ∧ (s.modExt f).ftl = s.ftl ∧ (s.modExt f).sch = s.sch ∧
    (s.modExt f).sec = s.sec ∧ (s.modExt f).mgmt = s.mgmt := by
  refine ⟨rfl, rfl, rfl, rfl, rfl, rfl, rfl, rfl, rfl, rfl, rfl, rfl, rfl, rfl, rfl, rfl, rfl, rfl, rfl, rfl, rfl, rfl, rfl, rfl, rfl, rfl, rfl, rfl, rfl, rfl, rfl⟩

@[simp] theorem State.modHbm_parts (s : State) (f : Hbm → Hbm) :
    (s.modHbm f).pending = s.pending ∧ (s.modHbm f).free = s.free ∧ (s.modHbm f).pins = s.pins ∧
    (s.modHbm f).pwr = s.pwr ∧ (s.modHbm f).thm = s.thm ∧ (s.modHbm f).clk = s.clk ∧ (s.modHbm f).start = s.start ∧
    (s.modHbm f).img = s.img ∧ (s.modHbm f).resp = s.resp ∧ (s.modHbm f).tly = s.tly ∧
    (s.modHbm f).spare = s.spare ∧ (s.modHbm f).bbx = s.bbx ∧ (s.modHbm f).link = s.link ∧
    (s.modHbm f).coh = s.coh ∧ (s.modHbm f).ext = s.ext ∧ (s.modHbm f).hbm = f s.hbm ∧ (s.modHbm f).rng = s.rng ∧
    (s.modHbm f).io = s.io ∧ (s.modHbm f).seqs = s.seqs ∧ (s.modHbm f).pfx = s.pfx ∧ (s.modHbm f).casc = s.casc ∧
    (s.modHbm f).ops = s.ops ∧ (s.modHbm f).attn = s.attn ∧ (s.modHbm f).core = s.core ∧ (s.modHbm f).cdc = s.cdc ∧
    (s.modHbm f).tier = s.tier ∧ (s.modHbm f).wt = s.wt ∧ (s.modHbm f).ftl = s.ftl ∧ (s.modHbm f).sch = s.sch ∧
    (s.modHbm f).sec = s.sec ∧ (s.modHbm f).mgmt = s.mgmt := by
  refine ⟨rfl, rfl, rfl, rfl, rfl, rfl, rfl, rfl, rfl, rfl, rfl, rfl, rfl, rfl, rfl, rfl, rfl, rfl, rfl, rfl, rfl, rfl, rfl, rfl, rfl, rfl, rfl, rfl, rfl, rfl, rfl⟩

@[simp] theorem State.modRng_parts (s : State) (f : Rng → Rng) :
    (s.modRng f).pending = s.pending ∧ (s.modRng f).free = s.free ∧ (s.modRng f).pins = s.pins ∧
    (s.modRng f).pwr = s.pwr ∧ (s.modRng f).thm = s.thm ∧ (s.modRng f).clk = s.clk ∧ (s.modRng f).start = s.start ∧
    (s.modRng f).img = s.img ∧ (s.modRng f).resp = s.resp ∧ (s.modRng f).tly = s.tly ∧
    (s.modRng f).spare = s.spare ∧ (s.modRng f).bbx = s.bbx ∧ (s.modRng f).link = s.link ∧
    (s.modRng f).coh = s.coh ∧ (s.modRng f).ext = s.ext ∧ (s.modRng f).hbm = s.hbm ∧ (s.modRng f).rng = f s.rng ∧
    (s.modRng f).io = s.io ∧ (s.modRng f).seqs = s.seqs ∧ (s.modRng f).pfx = s.pfx ∧ (s.modRng f).casc = s.casc ∧
    (s.modRng f).ops = s.ops ∧ (s.modRng f).attn = s.attn ∧ (s.modRng f).core = s.core ∧ (s.modRng f).cdc = s.cdc ∧
    (s.modRng f).tier = s.tier ∧ (s.modRng f).wt = s.wt ∧ (s.modRng f).ftl = s.ftl ∧ (s.modRng f).sch = s.sch ∧
    (s.modRng f).sec = s.sec ∧ (s.modRng f).mgmt = s.mgmt := by
  refine ⟨rfl, rfl, rfl, rfl, rfl, rfl, rfl, rfl, rfl, rfl, rfl, rfl, rfl, rfl, rfl, rfl, rfl, rfl, rfl, rfl, rfl, rfl, rfl, rfl, rfl, rfl, rfl, rfl, rfl, rfl, rfl⟩

@[simp] theorem State.modIo_parts (s : State) (f : Io → Io) :
    (s.modIo f).pending = s.pending ∧ (s.modIo f).free = s.free ∧ (s.modIo f).pins = s.pins ∧
    (s.modIo f).pwr = s.pwr ∧ (s.modIo f).thm = s.thm ∧ (s.modIo f).clk = s.clk ∧ (s.modIo f).start = s.start ∧
    (s.modIo f).img = s.img ∧ (s.modIo f).resp = s.resp ∧ (s.modIo f).tly = s.tly ∧ (s.modIo f).spare = s.spare ∧
    (s.modIo f).bbx = s.bbx ∧ (s.modIo f).link = s.link ∧ (s.modIo f).coh = s.coh ∧ (s.modIo f).ext = s.ext ∧
    (s.modIo f).hbm = s.hbm ∧ (s.modIo f).rng = s.rng ∧ (s.modIo f).io = f s.io ∧ (s.modIo f).seqs = s.seqs ∧
    (s.modIo f).pfx = s.pfx ∧ (s.modIo f).casc = s.casc ∧ (s.modIo f).ops = s.ops ∧ (s.modIo f).attn = s.attn ∧
    (s.modIo f).core = s.core ∧ (s.modIo f).cdc = s.cdc ∧ (s.modIo f).tier = s.tier ∧ (s.modIo f).wt = s.wt ∧
    (s.modIo f).ftl = s.ftl ∧ (s.modIo f).sch = s.sch ∧ (s.modIo f).sec = s.sec ∧ (s.modIo f).mgmt = s.mgmt := by
  refine ⟨rfl, rfl, rfl, rfl, rfl, rfl, rfl, rfl, rfl, rfl, rfl, rfl, rfl, rfl, rfl, rfl, rfl, rfl, rfl, rfl, rfl, rfl, rfl, rfl, rfl, rfl, rfl, rfl, rfl, rfl, rfl⟩

@[simp] theorem State.modSeqs_parts (s : State) (f : Seqs → Seqs) :
    (s.modSeqs f).pending = s.pending ∧ (s.modSeqs f).free = s.free ∧ (s.modSeqs f).pins = s.pins ∧
    (s.modSeqs f).pwr = s.pwr ∧ (s.modSeqs f).thm = s.thm ∧ (s.modSeqs f).clk = s.clk ∧
    (s.modSeqs f).start = s.start ∧ (s.modSeqs f).img = s.img ∧ (s.modSeqs f).resp = s.resp ∧
    (s.modSeqs f).tly = s.tly ∧ (s.modSeqs f).spare = s.spare ∧ (s.modSeqs f).bbx = s.bbx ∧
    (s.modSeqs f).link = s.link ∧ (s.modSeqs f).coh = s.coh ∧ (s.modSeqs f).ext = s.ext ∧
    (s.modSeqs f).hbm = s.hbm ∧ (s.modSeqs f).rng = s.rng ∧ (s.modSeqs f).io = s.io ∧
    (s.modSeqs f).seqs = f s.seqs ∧ (s.modSeqs f).pfx = s.pfx ∧ (s.modSeqs f).casc = s.casc ∧
    (s.modSeqs f).ops = s.ops ∧ (s.modSeqs f).attn = s.attn ∧ (s.modSeqs f).core = s.core ∧
    (s.modSeqs f).cdc = s.cdc ∧ (s.modSeqs f).tier = s.tier ∧ (s.modSeqs f).wt = s.wt ∧ (s.modSeqs f).ftl = s.ftl ∧
    (s.modSeqs f).sch = s.sch ∧ (s.modSeqs f).sec = s.sec ∧ (s.modSeqs f).mgmt = s.mgmt := by
  refine ⟨rfl, rfl, rfl, rfl, rfl, rfl, rfl, rfl, rfl, rfl, rfl, rfl, rfl, rfl, rfl, rfl, rfl, rfl, rfl, rfl, rfl, rfl, rfl, rfl, rfl, rfl, rfl, rfl, rfl, rfl, rfl⟩

@[simp] theorem State.modPfx_parts (s : State) (f : Pfx → Pfx) :
    (s.modPfx f).pending = s.pending ∧ (s.modPfx f).free = s.free ∧ (s.modPfx f).pins = s.pins ∧
    (s.modPfx f).pwr = s.pwr ∧ (s.modPfx f).thm = s.thm ∧ (s.modPfx f).clk = s.clk ∧ (s.modPfx f).start = s.start ∧
    (s.modPfx f).img = s.img ∧ (s.modPfx f).resp = s.resp ∧ (s.modPfx f).tly = s.tly ∧
    (s.modPfx f).spare = s.spare ∧ (s.modPfx f).bbx = s.bbx ∧ (s.modPfx f).link = s.link ∧
    (s.modPfx f).coh = s.coh ∧ (s.modPfx f).ext = s.ext ∧ (s.modPfx f).hbm = s.hbm ∧ (s.modPfx f).rng = s.rng ∧
    (s.modPfx f).io = s.io ∧ (s.modPfx f).seqs = s.seqs ∧ (s.modPfx f).pfx = f s.pfx ∧ (s.modPfx f).casc = s.casc ∧
    (s.modPfx f).ops = s.ops ∧ (s.modPfx f).attn = s.attn ∧ (s.modPfx f).core = s.core ∧ (s.modPfx f).cdc = s.cdc ∧
    (s.modPfx f).tier = s.tier ∧ (s.modPfx f).wt = s.wt ∧ (s.modPfx f).ftl = s.ftl ∧ (s.modPfx f).sch = s.sch ∧
    (s.modPfx f).sec = s.sec ∧ (s.modPfx f).mgmt = s.mgmt := by
  refine ⟨rfl, rfl, rfl, rfl, rfl, rfl, rfl, rfl, rfl, rfl, rfl, rfl, rfl, rfl, rfl, rfl, rfl, rfl, rfl, rfl, rfl, rfl, rfl, rfl, rfl, rfl, rfl, rfl, rfl, rfl, rfl⟩

@[simp] theorem State.modCasc_parts (s : State) (f : Casc → Casc) :
    (s.modCasc f).pending = s.pending ∧ (s.modCasc f).free = s.free ∧ (s.modCasc f).pins = s.pins ∧
    (s.modCasc f).pwr = s.pwr ∧ (s.modCasc f).thm = s.thm ∧ (s.modCasc f).clk = s.clk ∧
    (s.modCasc f).start = s.start ∧ (s.modCasc f).img = s.img ∧ (s.modCasc f).resp = s.resp ∧
    (s.modCasc f).tly = s.tly ∧ (s.modCasc f).spare = s.spare ∧ (s.modCasc f).bbx = s.bbx ∧
    (s.modCasc f).link = s.link ∧ (s.modCasc f).coh = s.coh ∧ (s.modCasc f).ext = s.ext ∧
    (s.modCasc f).hbm = s.hbm ∧ (s.modCasc f).rng = s.rng ∧ (s.modCasc f).io = s.io ∧ (s.modCasc f).seqs = s.seqs ∧
    (s.modCasc f).pfx = s.pfx ∧ (s.modCasc f).casc = f s.casc ∧ (s.modCasc f).ops = s.ops ∧
    (s.modCasc f).attn = s.attn ∧ (s.modCasc f).core = s.core ∧ (s.modCasc f).cdc = s.cdc ∧
    (s.modCasc f).tier = s.tier ∧ (s.modCasc f).wt = s.wt ∧ (s.modCasc f).ftl = s.ftl ∧ (s.modCasc f).sch = s.sch ∧
    (s.modCasc f).sec = s.sec ∧ (s.modCasc f).mgmt = s.mgmt := by
  refine ⟨rfl, rfl, rfl, rfl, rfl, rfl, rfl, rfl, rfl, rfl, rfl, rfl, rfl, rfl, rfl, rfl, rfl, rfl, rfl, rfl, rfl, rfl, rfl, rfl, rfl, rfl, rfl, rfl, rfl, rfl, rfl⟩

@[simp] theorem State.modOps_parts (s : State) (f : Ops → Ops) :
    (s.modOps f).pending = s.pending ∧ (s.modOps f).free = s.free ∧ (s.modOps f).pins = s.pins ∧
    (s.modOps f).pwr = s.pwr ∧ (s.modOps f).thm = s.thm ∧ (s.modOps f).clk = s.clk ∧ (s.modOps f).start = s.start ∧
    (s.modOps f).img = s.img ∧ (s.modOps f).resp = s.resp ∧ (s.modOps f).tly = s.tly ∧
    (s.modOps f).spare = s.spare ∧ (s.modOps f).bbx = s.bbx ∧ (s.modOps f).link = s.link ∧
    (s.modOps f).coh = s.coh ∧ (s.modOps f).ext = s.ext ∧ (s.modOps f).hbm = s.hbm ∧ (s.modOps f).rng = s.rng ∧
    (s.modOps f).io = s.io ∧ (s.modOps f).seqs = s.seqs ∧ (s.modOps f).pfx = s.pfx ∧ (s.modOps f).casc = s.casc ∧
    (s.modOps f).ops = f s.ops ∧ (s.modOps f).attn = s.attn ∧ (s.modOps f).core = s.core ∧
    (s.modOps f).cdc = s.cdc ∧ (s.modOps f).tier = s.tier ∧ (s.modOps f).wt = s.wt ∧ (s.modOps f).ftl = s.ftl ∧
    (s.modOps f).sch = s.sch ∧ (s.modOps f).sec = s.sec ∧ (s.modOps f).mgmt = s.mgmt := by
  refine ⟨rfl, rfl, rfl, rfl, rfl, rfl, rfl, rfl, rfl, rfl, rfl, rfl, rfl, rfl, rfl, rfl, rfl, rfl, rfl, rfl, rfl, rfl, rfl, rfl, rfl, rfl, rfl, rfl, rfl, rfl, rfl⟩

@[simp] theorem State.modAttn_parts (s : State) (f : Attn → Attn) :
    (s.modAttn f).pending = s.pending ∧ (s.modAttn f).free = s.free ∧ (s.modAttn f).pins = s.pins ∧
    (s.modAttn f).pwr = s.pwr ∧ (s.modAttn f).thm = s.thm ∧ (s.modAttn f).clk = s.clk ∧
    (s.modAttn f).start = s.start ∧ (s.modAttn f).img = s.img ∧ (s.modAttn f).resp = s.resp ∧
    (s.modAttn f).tly = s.tly ∧ (s.modAttn f).spare = s.spare ∧ (s.modAttn f).bbx = s.bbx ∧
    (s.modAttn f).link = s.link ∧ (s.modAttn f).coh = s.coh ∧ (s.modAttn f).ext = s.ext ∧
    (s.modAttn f).hbm = s.hbm ∧ (s.modAttn f).rng = s.rng ∧ (s.modAttn f).io = s.io ∧ (s.modAttn f).seqs = s.seqs ∧
    (s.modAttn f).pfx = s.pfx ∧ (s.modAttn f).casc = s.casc ∧ (s.modAttn f).ops = s.ops ∧
    (s.modAttn f).attn = f s.attn ∧ (s.modAttn f).core = s.core ∧ (s.modAttn f).cdc = s.cdc ∧
    (s.modAttn f).tier = s.tier ∧ (s.modAttn f).wt = s.wt ∧ (s.modAttn f).ftl = s.ftl ∧ (s.modAttn f).sch = s.sch ∧
    (s.modAttn f).sec = s.sec ∧ (s.modAttn f).mgmt = s.mgmt := by
  refine ⟨rfl, rfl, rfl, rfl, rfl, rfl, rfl, rfl, rfl, rfl, rfl, rfl, rfl, rfl, rfl, rfl, rfl, rfl, rfl, rfl, rfl, rfl, rfl, rfl, rfl, rfl, rfl, rfl, rfl, rfl, rfl⟩

@[simp] theorem State.modCore_parts (s : State) (f : Cores → Cores) :
    (s.modCore f).pending = s.pending ∧ (s.modCore f).free = s.free ∧ (s.modCore f).pins = s.pins ∧
    (s.modCore f).pwr = s.pwr ∧ (s.modCore f).thm = s.thm ∧ (s.modCore f).clk = s.clk ∧
    (s.modCore f).start = s.start ∧ (s.modCore f).img = s.img ∧ (s.modCore f).resp = s.resp ∧
    (s.modCore f).tly = s.tly ∧ (s.modCore f).spare = s.spare ∧ (s.modCore f).bbx = s.bbx ∧
    (s.modCore f).link = s.link ∧ (s.modCore f).coh = s.coh ∧ (s.modCore f).ext = s.ext ∧
    (s.modCore f).hbm = s.hbm ∧ (s.modCore f).rng = s.rng ∧ (s.modCore f).io = s.io ∧ (s.modCore f).seqs = s.seqs ∧
    (s.modCore f).pfx = s.pfx ∧ (s.modCore f).casc = s.casc ∧ (s.modCore f).ops = s.ops ∧
    (s.modCore f).attn = s.attn ∧ (s.modCore f).core = f s.core ∧ (s.modCore f).cdc = s.cdc ∧
    (s.modCore f).tier = s.tier ∧ (s.modCore f).wt = s.wt ∧ (s.modCore f).ftl = s.ftl ∧ (s.modCore f).sch = s.sch ∧
    (s.modCore f).sec = s.sec ∧ (s.modCore f).mgmt = s.mgmt := by
  refine ⟨rfl, rfl, rfl, rfl, rfl, rfl, rfl, rfl, rfl, rfl, rfl, rfl, rfl, rfl, rfl, rfl, rfl, rfl, rfl, rfl, rfl, rfl, rfl, rfl, rfl, rfl, rfl, rfl, rfl, rfl, rfl⟩

@[simp] theorem State.modCdc_parts (s : State) (f : Cdc → Cdc) :
    (s.modCdc f).pending = s.pending ∧ (s.modCdc f).free = s.free ∧ (s.modCdc f).pins = s.pins ∧
    (s.modCdc f).pwr = s.pwr ∧ (s.modCdc f).thm = s.thm ∧ (s.modCdc f).clk = s.clk ∧ (s.modCdc f).start = s.start ∧
    (s.modCdc f).img = s.img ∧ (s.modCdc f).resp = s.resp ∧ (s.modCdc f).tly = s.tly ∧
    (s.modCdc f).spare = s.spare ∧ (s.modCdc f).bbx = s.bbx ∧ (s.modCdc f).link = s.link ∧
    (s.modCdc f).coh = s.coh ∧ (s.modCdc f).ext = s.ext ∧ (s.modCdc f).hbm = s.hbm ∧ (s.modCdc f).rng = s.rng ∧
    (s.modCdc f).io = s.io ∧ (s.modCdc f).seqs = s.seqs ∧ (s.modCdc f).pfx = s.pfx ∧ (s.modCdc f).casc = s.casc ∧
    (s.modCdc f).ops = s.ops ∧ (s.modCdc f).attn = s.attn ∧ (s.modCdc f).core = s.core ∧
    (s.modCdc f).cdc = f s.cdc ∧ (s.modCdc f).tier = s.tier ∧ (s.modCdc f).wt = s.wt ∧ (s.modCdc f).ftl = s.ftl ∧
    (s.modCdc f).sch = s.sch ∧ (s.modCdc f).sec = s.sec ∧ (s.modCdc f).mgmt = s.mgmt := by
  refine ⟨rfl, rfl, rfl, rfl, rfl, rfl, rfl, rfl, rfl, rfl, rfl, rfl, rfl, rfl, rfl, rfl, rfl, rfl, rfl, rfl, rfl, rfl, rfl, rfl, rfl, rfl, rfl, rfl, rfl, rfl, rfl⟩

@[simp] theorem State.modTier_parts (s : State) (f : Tiers → Tiers) :
    (s.modTier f).pending = s.pending ∧ (s.modTier f).free = s.free ∧ (s.modTier f).pins = s.pins ∧
    (s.modTier f).pwr = s.pwr ∧ (s.modTier f).thm = s.thm ∧ (s.modTier f).clk = s.clk ∧
    (s.modTier f).start = s.start ∧ (s.modTier f).img = s.img ∧ (s.modTier f).resp = s.resp ∧
    (s.modTier f).tly = s.tly ∧ (s.modTier f).spare = s.spare ∧ (s.modTier f).bbx = s.bbx ∧
    (s.modTier f).link = s.link ∧ (s.modTier f).coh = s.coh ∧ (s.modTier f).ext = s.ext ∧
    (s.modTier f).hbm = s.hbm ∧ (s.modTier f).rng = s.rng ∧ (s.modTier f).io = s.io ∧ (s.modTier f).seqs = s.seqs ∧
    (s.modTier f).pfx = s.pfx ∧ (s.modTier f).casc = s.casc ∧ (s.modTier f).ops = s.ops ∧
    (s.modTier f).attn = s.attn ∧ (s.modTier f).core = s.core ∧ (s.modTier f).cdc = s.cdc ∧
    (s.modTier f).tier = f s.tier ∧ (s.modTier f).wt = s.wt ∧ (s.modTier f).ftl = s.ftl ∧
    (s.modTier f).sch = s.sch ∧ (s.modTier f).sec = s.sec ∧ (s.modTier f).mgmt = s.mgmt := by
  refine ⟨rfl, rfl, rfl, rfl, rfl, rfl, rfl, rfl, rfl, rfl, rfl, rfl, rfl, rfl, rfl, rfl, rfl, rfl, rfl, rfl, rfl, rfl, rfl, rfl, rfl, rfl, rfl, rfl, rfl, rfl, rfl⟩

@[simp] theorem State.modWt_parts (s : State) (f : Wt → Wt) :
    (s.modWt f).pending = s.pending ∧ (s.modWt f).free = s.free ∧ (s.modWt f).pins = s.pins ∧
    (s.modWt f).pwr = s.pwr ∧ (s.modWt f).thm = s.thm ∧ (s.modWt f).clk = s.clk ∧ (s.modWt f).start = s.start ∧
    (s.modWt f).img = s.img ∧ (s.modWt f).resp = s.resp ∧ (s.modWt f).tly = s.tly ∧ (s.modWt f).spare = s.spare ∧
    (s.modWt f).bbx = s.bbx ∧ (s.modWt f).link = s.link ∧ (s.modWt f).coh = s.coh ∧ (s.modWt f).ext = s.ext ∧
    (s.modWt f).hbm = s.hbm ∧ (s.modWt f).rng = s.rng ∧ (s.modWt f).io = s.io ∧ (s.modWt f).seqs = s.seqs ∧
    (s.modWt f).pfx = s.pfx ∧ (s.modWt f).casc = s.casc ∧ (s.modWt f).ops = s.ops ∧ (s.modWt f).attn = s.attn ∧
    (s.modWt f).core = s.core ∧ (s.modWt f).cdc = s.cdc ∧ (s.modWt f).tier = s.tier ∧ (s.modWt f).wt = f s.wt ∧
    (s.modWt f).ftl = s.ftl ∧ (s.modWt f).sch = s.sch ∧ (s.modWt f).sec = s.sec ∧ (s.modWt f).mgmt = s.mgmt := by
  refine ⟨rfl, rfl, rfl, rfl, rfl, rfl, rfl, rfl, rfl, rfl, rfl, rfl, rfl, rfl, rfl, rfl, rfl, rfl, rfl, rfl, rfl, rfl, rfl, rfl, rfl, rfl, rfl, rfl, rfl, rfl, rfl⟩

@[simp] theorem State.modFtl_parts (s : State) (f : Ftl → Ftl) :
    (s.modFtl f).pending = s.pending ∧ (s.modFtl f).free = s.free ∧ (s.modFtl f).pins = s.pins ∧
    (s.modFtl f).pwr = s.pwr ∧ (s.modFtl f).thm = s.thm ∧ (s.modFtl f).clk = s.clk ∧ (s.modFtl f).start = s.start ∧
    (s.modFtl f).img = s.img ∧ (s.modFtl f).resp = s.resp ∧ (s.modFtl f).tly = s.tly ∧
    (s.modFtl f).spare = s.spare ∧ (s.modFtl f).bbx = s.bbx ∧ (s.modFtl f).link = s.link ∧
    (s.modFtl f).coh = s.coh ∧ (s.modFtl f).ext = s.ext ∧ (s.modFtl f).hbm = s.hbm ∧ (s.modFtl f).rng = s.rng ∧
    (s.modFtl f).io = s.io ∧ (s.modFtl f).seqs = s.seqs ∧ (s.modFtl f).pfx = s.pfx ∧ (s.modFtl f).casc = s.casc ∧
    (s.modFtl f).ops = s.ops ∧ (s.modFtl f).attn = s.attn ∧ (s.modFtl f).core = s.core ∧ (s.modFtl f).cdc = s.cdc ∧
    (s.modFtl f).tier = s.tier ∧ (s.modFtl f).wt = s.wt ∧ (s.modFtl f).ftl = f s.ftl ∧ (s.modFtl f).sch = s.sch ∧
    (s.modFtl f).sec = s.sec ∧ (s.modFtl f).mgmt = s.mgmt := by
  refine ⟨rfl, rfl, rfl, rfl, rfl, rfl, rfl, rfl, rfl, rfl, rfl, rfl, rfl, rfl, rfl, rfl, rfl, rfl, rfl, rfl, rfl, rfl, rfl, rfl, rfl, rfl, rfl, rfl, rfl, rfl, rfl⟩

@[simp] theorem State.modSch_parts (s : State) (f : Sch → Sch) :
    (s.modSch f).pending = s.pending ∧ (s.modSch f).free = s.free ∧ (s.modSch f).pins = s.pins ∧
    (s.modSch f).pwr = s.pwr ∧ (s.modSch f).thm = s.thm ∧ (s.modSch f).clk = s.clk ∧ (s.modSch f).start = s.start ∧
    (s.modSch f).img = s.img ∧ (s.modSch f).resp = s.resp ∧ (s.modSch f).tly = s.tly ∧
    (s.modSch f).spare = s.spare ∧ (s.modSch f).bbx = s.bbx ∧ (s.modSch f).link = s.link ∧
    (s.modSch f).coh = s.coh ∧ (s.modSch f).ext = s.ext ∧ (s.modSch f).hbm = s.hbm ∧ (s.modSch f).rng = s.rng ∧
    (s.modSch f).io = s.io ∧ (s.modSch f).seqs = s.seqs ∧ (s.modSch f).pfx = s.pfx ∧ (s.modSch f).casc = s.casc ∧
    (s.modSch f).ops = s.ops ∧ (s.modSch f).attn = s.attn ∧ (s.modSch f).core = s.core ∧ (s.modSch f).cdc = s.cdc ∧
    (s.modSch f).tier = s.tier ∧ (s.modSch f).wt = s.wt ∧ (s.modSch f).ftl = s.ftl ∧ (s.modSch f).sch = f s.sch ∧
    (s.modSch f).sec = s.sec ∧ (s.modSch f).mgmt = s.mgmt := by
  refine ⟨rfl, rfl, rfl, rfl, rfl, rfl, rfl, rfl, rfl, rfl, rfl, rfl, rfl, rfl, rfl, rfl, rfl, rfl, rfl, rfl, rfl, rfl, rfl, rfl, rfl, rfl, rfl, rfl, rfl, rfl, rfl⟩

@[simp] theorem State.modSec_parts (s : State) (f : Sec → Sec) :
    (s.modSec f).pending = s.pending ∧ (s.modSec f).free = s.free ∧ (s.modSec f).pins = s.pins ∧
    (s.modSec f).pwr = s.pwr ∧ (s.modSec f).thm = s.thm ∧ (s.modSec f).clk = s.clk ∧ (s.modSec f).start = s.start ∧
    (s.modSec f).img = s.img ∧ (s.modSec f).resp = s.resp ∧ (s.modSec f).tly = s.tly ∧
    (s.modSec f).spare = s.spare ∧ (s.modSec f).bbx = s.bbx ∧ (s.modSec f).link = s.link ∧
    (s.modSec f).coh = s.coh ∧ (s.modSec f).ext = s.ext ∧ (s.modSec f).hbm = s.hbm ∧ (s.modSec f).rng = s.rng ∧
    (s.modSec f).io = s.io ∧ (s.modSec f).seqs = s.seqs ∧ (s.modSec f).pfx = s.pfx ∧ (s.modSec f).casc = s.casc ∧
    (s.modSec f).ops = s.ops ∧ (s.modSec f).attn = s.attn ∧ (s.modSec f).core = s.core ∧ (s.modSec f).cdc = s.cdc ∧
    (s.modSec f).tier = s.tier ∧ (s.modSec f).wt = s.wt ∧ (s.modSec f).ftl = s.ftl ∧ (s.modSec f).sch = s.sch ∧
    (s.modSec f).sec = f s.sec ∧ (s.modSec f).mgmt = s.mgmt := by
  refine ⟨rfl, rfl, rfl, rfl, rfl, rfl, rfl, rfl, rfl, rfl, rfl, rfl, rfl, rfl, rfl, rfl, rfl, rfl, rfl, rfl, rfl, rfl, rfl, rfl, rfl, rfl, rfl, rfl, rfl, rfl, rfl⟩

@[simp] theorem State.modMgmt_parts (s : State) (f : Mgmt → Mgmt) :
    (s.modMgmt f).pending = s.pending ∧ (s.modMgmt f).free = s.free ∧ (s.modMgmt f).pins = s.pins ∧
    (s.modMgmt f).pwr = s.pwr ∧ (s.modMgmt f).thm = s.thm ∧ (s.modMgmt f).clk = s.clk ∧
    (s.modMgmt f).start = s.start ∧ (s.modMgmt f).img = s.img ∧ (s.modMgmt f).resp = s.resp ∧
    (s.modMgmt f).tly = s.tly ∧ (s.modMgmt f).spare = s.spare ∧ (s.modMgmt f).bbx = s.bbx ∧
    (s.modMgmt f).link = s.link ∧ (s.modMgmt f).coh = s.coh ∧ (s.modMgmt f).ext = s.ext ∧
    (s.modMgmt f).hbm = s.hbm ∧ (s.modMgmt f).rng = s.rng ∧ (s.modMgmt f).io = s.io ∧ (s.modMgmt f).seqs = s.seqs ∧
    (s.modMgmt f).pfx = s.pfx ∧ (s.modMgmt f).casc = s.casc ∧ (s.modMgmt f).ops = s.ops ∧
    (s.modMgmt f).attn = s.attn ∧ (s.modMgmt f).core = s.core ∧ (s.modMgmt f).cdc = s.cdc ∧
    (s.modMgmt f).tier = s.tier ∧ (s.modMgmt f).wt = s.wt ∧ (s.modMgmt f).ftl = s.ftl ∧ (s.modMgmt f).sch = s.sch ∧
    (s.modMgmt f).sec = s.sec ∧ (s.modMgmt f).mgmt = f s.mgmt := by
  refine ⟨rfl, rfl, rfl, rfl, rfl, rfl, rfl, rfl, rfl, rfl, rfl, rfl, rfl, rfl, rfl, rfl, rfl, rfl, rfl, rfl, rfl, rfl, rfl, rfl, rfl, rfl, rfl, rfl, rfl, rfl, rfl⟩

@[simp] theorem State.draw_parts (s : State) :
    s.draw.pending = s.pending ∧ s.draw.free = s.free + 1 ∧ s.draw.pins = s.pins ∧ s.draw.pwr = s.pwr ∧
    s.draw.thm = s.thm ∧ s.draw.clk = s.clk ∧ s.draw.start = s.start ∧ s.draw.img = s.img ∧ s.draw.resp = s.resp ∧
    s.draw.tly = s.tly ∧ s.draw.spare = s.spare ∧ s.draw.bbx = s.bbx ∧ s.draw.link = s.link ∧ s.draw.coh = s.coh ∧
    s.draw.ext = s.ext ∧ s.draw.hbm = s.hbm ∧ s.draw.rng = s.rng ∧ s.draw.io = s.io ∧ s.draw.seqs = s.seqs ∧
    s.draw.pfx = s.pfx ∧ s.draw.casc = s.casc ∧ s.draw.ops = s.ops ∧ s.draw.attn = s.attn ∧ s.draw.core = s.core ∧
    s.draw.cdc = s.cdc ∧ s.draw.tier = s.tier ∧ s.draw.wt = s.wt ∧ s.draw.ftl = s.ftl ∧ s.draw.sch = s.sch ∧
    s.draw.sec = s.sec ∧ s.draw.mgmt = s.mgmt := by
  refine ⟨rfl, rfl, rfl, rfl, rfl, rfl, rfl, rfl, rfl, rfl, rfl, rfl, rfl, rfl, rfl, rfl, rfl, rfl, rfl, rfl, rfl, rfl, rfl, rfl, rfl, rfl, rfl, rfl, rfl, rfl, rfl⟩

end Sys2Proof.Machine
end

