-- ==== Sys2Proof/Laws/Start.lean ====
section
/-! SUPPORT. Frames for the statements about starts. -/

namespace Sys2Proof.Machine

open Sys2Proof

/-- Every part but one. -/

def allParts (p : StPart) : Nat := partSet (allBut [p])

theorem exec_only (c : Instr) {s t : State} (h : exec c s = .next t) : Only (footprint c) s t := (exec_touches c h).only

theorem driveThermL_line (s : State) : (driveThermL s).pins.therm = true ↔ s.thm.leakShutdown = true ∨ s.resp.tripJoin = true ∨ s.thm.level = 4 ∨
    2 ≤ max s.thm.level s.pwr.govLevel := by
  simp only [driveThermL, throttle, State.modPins_parts, Bool.or_eq_true, beq_iff_eq, decide_eq_true_eq]
  grind

end Sys2Proof.Machine
end

