-- ==== Sys2Proof/Laws/Link.lean ====
section
/-! SUPPORT. Ports: what link operations do to one port and to the others. -/

namespace Sys2Proof.Machine

open Sys2Proof

/-- What every turn of a loop keeps, the loop keeps. -/

theorem forEach_inv {α : Type} (P : State → Prop) {f : α → State → State} (hf : ∀ x u, P u → P (f x u)) (l : List α) {s : State} (h : P s) :
    P (forEach l f s) := by
  unfold forEach
  induction l generalizing s with
  | nil => exact h
  | cons x r ih => exact ih (hf x s h)

theorem portAt_modPort (s : State) (n : Nat) (f : Port → Port) (h : n < s.link.ports.length) : portAt (modPort n f s) n = f (portAt s n) :=
  nth_lmod _ _ _ _ h

theorem portAt_modPort_ne (s : State) {n m : Nat} (f : Port → Port) (h : m ≠ n) : portAt (modPort n f s) m = portAt s m := nth_lmod_ne _ _ _ h

theorem modPort_length (s : State) (n : Nat) (f : Port → Port) : (modPort n f s).link.ports.length = s.link.ports.length := length_lmod _ _ _

theorem modPort_wire (s : State) (n : Nat) (f : Port → Port) : (modPort n f s).link.wire = s.link.wire := rfl

theorem portAt_congr {s t : State} (h : t.link = s.link) (m : Nat) : portAt t m = portAt s m := by unfold portAt; rw [h]

/-- A flit put at the head of an input changes that port's queues alone. -/

theorem pushFront_ports (p i : Nat) (f : List Byte) (s : State) (m : Nat) : ∃ q, portAt (pushFront p i f s) m = { portAt s m with queues := q } := by
  unfold pushFront
  by_cases h : m = p
  · subst h
    by_cases l : m < s.link.ports.length
    · exact ⟨_, portAt_modPort _ _ _ l⟩
    · refine ⟨(portAt s m).queues, ?_⟩
      have : ∀ (l : List Port) (i : Nat) (f : Port → Port), l.length ≤ i → nth (lmod l i f) i {} = nth l i {} := by
        intro l
        induction l with
        | nil => intro i f _; rfl
        | cons x r ih =>
          intro i f h
          cases i with
          | zero => simp at h
          | succ i => exact ih i f (by simpa using h)
      exact this _ _ _ (by omega)
  · exact ⟨(portAt s m).queues, portAt_modPort_ne _ _ h⟩

theorem keepChoice_ports (dst vc : Nat) (o : Option Nat) (s : State) (m : Nat) :
    portAt (keepChoice dst vc o s) m = portAt s m ∧ (keepChoice dst vc o s).link.wire = s.link.wire := by
  unfold keepChoice
  split
  · split <;> exact ⟨rfl, rfl⟩
  · exact ⟨rfl, rfl⟩

/-- A flit of a dead port that moves touches the queues of ports alone, and nothing on the wire. -/
theorem moveFlit_ports (torus : Bool) (f : List Byte) (s : State) :
    ∀ m, (∃ q, portAt (moveFlit torus f s) m = { portAt s m with queues := q }) ∧ (moveFlit torus f s).link.wire = s.link.wire := by
  intro m
  unfold moveFlit
  extract_lets s1 own next s2
  have h1 : portAt s1 m = portAt s m ∧ s1.link.wire = s.link.wire := by
    show portAt (when _ _ s) m = _ ∧ (when _ _ s).link.wire = _
    unfold when
    split <;> exact ⟨rfl, rfl⟩
  have h2 : portAt s2 m = portAt s m ∧ s2.link.wire = s.link.wire :=
    ⟨(keepChoice_ports _ _ _ s1 m).1.trans h1.1, (keepChoice_ports _ _ _ s1 m).2.trans h1.2⟩
  cases next with
  | none => exact ⟨⟨_, h2.1⟩, h2.2⟩
  | some k =>
    obtain ⟨q, e⟩ := pushFront_ports k (if own then flitVc f else 4 + flitVc f) (withHop (b2n (own && crosses s2 k)) (flitHops f) f) s2 m
    exact ⟨⟨q, by dsimp only; rw [e, h2.1]⟩, h2.2⟩

/-- A reroute empties the port's retry buffer and moves flits between queues. -/

theorem reroute_ports (n : Nat) (s : State) (hn : n < s.link.ports.length) :
    (∀ m, ∃ q, portAt (reroute n s) m = { portAt s m with queues := q, retryBuf := if m = n then [] else (portAt s m).retryBuf }) ∧
    (reroute n s).link.wire = s.link.wire := by
  unfold reroute
  extract_lets p s1 s2
  have base : ∀ m, ∃ q, portAt s1 m = { portAt s m with queues := q, retryBuf := if m = n then [] else (portAt s m).retryBuf } := fun m => by
    by_cases h : m = n
    · subst h; exact ⟨_, by rw [if_pos rfl]; exact portAt_modPort _ _ _ hn⟩
    · exact ⟨(portAt s m).queues, by rw [if_neg h]; exact portAt_modPort_ne _ _ h⟩
  refine forEach_inv (fun u : State => (∀ m, ∃ q, portAt u m = { portAt s m with queues := q, retryBuf := if m = n then [] else (portAt s m).retryBuf }) ∧
    u.link.wire = s.link.wire) (fun f u h => ?_) _ ⟨base, rfl⟩
  refine ⟨fun m => ?_, (moveFlit_ports p.torus f u 0).2.trans h.2⟩
  obtain ⟨q, e1⟩ := h.1 m
  obtain ⟨q', e2⟩ := (moveFlit_ports p.torus f u m).1
  exact ⟨q', by rw [e2, e1]⟩

theorem kind_bits (a b d e c g k z : Nat) (h1 : d ≤ 1) (h2 : e ≤ 1) (h3 : c < 8) (h4 : g ≤ 63) (h5 : k < 4) :
    bits (BitVec.ofNat 64 (a % 1024 + b % 1024 * 2 ^ 10 + d * 2 ^ 20 + e * 2 ^ 21 + c * 2 ^ 22 + g * 2 ^ 25 + k * 2 ^ 31 + z * 2 ^ 40)).toNat 31 2 = k := by
  rw [BitVec.toNat_ofNat]
  unfold bits
  omega

theorem pack_cons (i a : Nat) (l : List (Nat × Nat)) : pack ((i, a) :: l) = a * 2 ^ i + pack l := by
  have f : ∀ (l : List Nat) (z : Nat), l.foldl (· + ·) z = z + l.foldl (· + ·) 0 := by
    intro l
    induction l with
    | nil => intro z; rfl
    | cons x r ih => intro z; rw [List.foldl_cons, ih, List.foldl_cons, ih (0 + x), Nat.zero_add, Nat.add_assoc]
  unfold pack sum
  rw [List.map_cons, List.foldl_cons, f, Nat.zero_add]

theorem low_eq (a b d e c g k : Nat) : pack [(0, a), (10, b), (20, d), (21, e), (22, c), (25, g), (31, k)] =
    a + b * 2 ^ 10 + d * 2 ^ 20 + e * 2 ^ 21 + c * 2 ^ 22 + g * 2 ^ 25 + k * 2 ^ 31 := by
  rw [pack_cons, pack_cons, pack_cons, pack_cons, pack_cons, pack_cons, pack_cons, show pack [] = 0 from rfl, Nat.pow_zero, Nat.mul_one, Nat.add_zero]
  simp only [Nat.add_assoc]

theorem lwKind_linkWord (p : Port) (k seq : Nat) (body : List Byte) (hk : k < 4) : lwKind (linkWord p k seq body).1 = k := by
  have hc : ((List.range 8).find? fun c => decide (0 < nth p.owed c 0)).getD 0 < 8 := by
    cases h : (List.range 8).find? fun c => decide (0 < nth p.owed c 0) with
    | none => decide
    | some x => exact List.mem_range.mp (List.mem_of_find?_eq_some h)
  have b : ∀ x : Bool, b2n x ≤ 1 := fun x => by cases x <;> decide
  unfold linkWord lwKind flagAt
  dsimp only
  rw [low_eq]
  exact kind_bits seq (p.rxLast.getD 0) _ _ _ _ k _ (b _) (b _) hc (Nat.min_le_left _ _) hk

theorem sendControl_eq (n : Nat) (s : State) : sendControl n s =
    putWire n (frameOf ((freshBytes 256 s).1) ((linkWord (portAt (freshBytes 256 s).2 n) 2 (portAt (freshBytes 256 s).2 n).txSeq (freshBytes 256 s).1).1))
      (modPort n (fun _ => (linkWord (portAt (freshBytes 256 s).2 n) 2 (portAt (freshBytes 256 s).2 n).txSeq (freshBytes 256 s).1).2) (freshBytes 256 s).2) := rfl

/-- What sending a lane-control frame does. -/

theorem sendControl_spec (n : Nat) (s : State) (hn : n < s.link.ports.length) :
    ∃ f, (sendControl n s).link.wire = s.link.wire ++ [(n, f)] ∧ lwKind f.link = 2 ∧ (∀ m, m ≠ n → portAt (sendControl n s) m = portAt s m) ∧
      ∃ o, portAt (sendControl n s) n = { portAt s n with owed := o, nakOut := false, nakSent := (portAt s n).nakSent || (portAt s n).nakOut, sinceAck := 0 } := by
  rw [sendControl_eq]
  have hl : (freshBytes 256 s).2.link = s.link := rfl
  generalize (freshBytes 256 s).2 = u at hl ⊢
  generalize (freshBytes 256 s).1 = body
  have hp : ∀ m, portAt u m = portAt s m := portAt_congr hl
  have k := lwKind_linkWord (portAt u n) 2 (portAt u n).txSeq body (by decide)
  refine ⟨frameOf body (linkWord (portAt u n) 2 (portAt u n).txSeq body).1, ?_, k, fun m hm => ?_, ?_⟩
  · rw [← hl]; rfl
  · exact (portAt_modPort_ne u _ hm).trans (hp m)
  · refine ⟨(linkWord (portAt u n) 2 (portAt u n).txSeq body).2.owed, ?_⟩
    refine (portAt_modPort u n _ (by rw [hl]; exact hn)).trans ?_
    rw [← hp n]; rfl

theorem recordSub_link (p d l : Nat) (s : State) : (recordSub p d l s).link = s.link :=
  (recordSub_touches (μ := partSet [.tly, .spare, .bbx]) p d l (by decide) (.refl _ s)).link.resolve_left (by decide)

theorem nth_map_lt {α β : Type} (f : α → β) (l : List α) (d : α) (e : β) {i : Nat} (h : i < l.length) : nth (l.map f) i e = f (nth l i d) := by
  induction l generalizing i with
  | nil => simp at h
  | cons x r ih =>
    cases i with
    | zero => rfl
    | succ i => exact ih (by simpa using h)

/-- What a good frame without nak does to its own port before its flit is looked at. -/

theorem applyLink_port (n : Nat) (w : BitVec 64) (s : State) (hn : n < s.link.ports.length) (h : lwNak w = false) :
    ∃ r c, portAt (applyLink n w s) n = { portAt s n with retryBuf := r, credits := c } := by
  unfold applyLink
  extract_lets s1
  rw [h]
  exact ⟨_, _, portAt_modPort _ _ _ hn⟩

/-- The receive state of the ports, which a flit inside leaves alone. -/

def rxOf (s : State) (m : Nat) : Option Nat × Bool × Bool := ((portAt s m).rxLast, (portAt s m).nakOut, (portAt s m).nakSent)

theorem rxOf_modPort (s : State) (n m : Nat) (f : Port → Port) (h : ∀ p : Port, (f p).rxLast = p.rxLast ∧ (f p).nakOut = p.nakOut ∧ (f p).nakSent = p.nakSent) :
    rxOf (modPort n f s) m = rxOf s m := by
  have : ∀ (l : List Port) (i m : Nat), ((nth (lmod l i f) m {}).rxLast, (nth (lmod l i f) m {}).nakOut, (nth (lmod l i f) m {}).nakSent) = ((nth l m {}).rxLast, (nth l m {}).nakOut, (nth l m {}).nakSent) := by
    intro l
    induction l with
    | nil => intro i m; rfl
    | cons x r ih =>
      intro i m
      cases i with
      | zero => cases m with
        | zero => show ((f x).rxLast, (f x).nakOut, (f x).nakSent) = _; rw [(h x).1, (h x).2.1, (h x).2.2]; rfl
        | succ m => rfl
      | succ i => cases m with
        | zero => rfl
        | succ m => exact ih i m
  exact this _ _ _

theorem rxOf_takeFlit (n : Nat) (f : List Byte) (s : State) (m : Nat) : rxOf (takeFlit n f s) m = rxOf s m := by
  have dm : ∀ u : State, rxOf (dropMessage f u) m = rxOf u m := fun u => rfl
  unfold takeFlit
  cases h : openFlit f s with
  | data d u =>
    have hu : u.link = s.link := by
      have o := openFlit_touches (μ := partSet [.sec]) f (by decide) (Touches.refl _ s)
      rw [h] at o
      exact Touches.link o |>.resolve_left (by decide)
    have e : rxOf u m = rxOf s m := by unfold rxOf; rw [portAt_congr hu]
    refine Eq.trans ?_ e
    dsimp only
    unfold assemble
    extract_lets p0 p1 rest s1 mm
    repeat' split
    all_goals first | rfl | exact rxOf_modPort _ _ _ _ fun p => ⟨rfl, rfl, rfl⟩
  | dropped => dsimp only; unfold endDrop; split <;> rfl
  | authFail => exact (dm _).trans (rxOf_modPort _ _ _ _ fun p => ⟨rfl, rfl, rfl⟩)
  | replay => exact (dm _).trans (rxOf_modPort _ _ _ _ fun p => ⟨rfl, rfl, rfl⟩)
  | nokey => exact (dm _).trans (rxOf_modPort _ _ _ _ fun p => ⟨rfl, rfl, rfl⟩)

theorem rxOf_receiveFlit (n : Nat) (f : List Byte) (s : State) (m : Nat) : rxOf (receiveFlit n f s) m = rxOf s m := by
  unfold receiveFlit
  extract_lets full u
  have e : rxOf u m = rxOf s m := by
    show rxOf (if _ then _ else _) m = _
    split
    · exact rxOf_modPort _ _ _ _ fun p => ⟨rfl, rfl, rfl⟩
    · exact rxOf_takeFlit _ _ _ _
  split
  · exact e
  · exact (rxOf_modPort u n m (fun p => { p with owed := lmod p.owed (flitClass f) fun k => k + 1 }) fun p => ⟨rfl, rfl, rfl⟩).trans e

/-- A flit at its last hop is counted and delivers nothing (R107). -/
theorem receiveFlit_lastHop (n : Nat) (f : List Byte) (s : State) (hn : n < s.link.ports.length) (h : flitHops f = 127) :
    (portAt (receiveFlit n f s) n).nokey = sat32 ((portAt s n).nokey + 1) ∧ (receiveFlit n f s).link.inbox = s.link.inbox ∧
      (receiveFlit n f s).sec = s.sec := by
  unfold receiveFlit
  rw [h, if_pos (beq_self_eq_true _)]
  dsimp only
  have c : (portAt (countNokey n s) n).nokey = sat32 ((portAt s n).nokey + 1) := congrArg Port.nokey (portAt_modPort s n _ hn)
  split
  · exact ⟨c, rfl, rfl⟩
  · exact ⟨(congrArg Port.nokey (portAt_modPort (countNokey n s) n _ (by rw [show (countNokey n s).link.ports.length = _ from modPort_length _ _ _]; exact hn))).trans c,
      rfl, rfl⟩

theorem sendIdle_eq (n : Nat) (s : State) : sendIdle n s =
    putWire n (frameOf (List.replicate 256 0) ((linkWord (portAt s n) 1 (portAt s n).txSeq (List.replicate 256 0)).1))
      (modPort n (fun _ => (linkWord (portAt s n) 1 (portAt s n).txSeq (List.replicate 256 0)).2) s) := rfl

theorem sendIdle_port (n : Nat) (s : State) (hn : n < s.link.ports.length) :
    (portAt (sendIdle n s) n).rxLast = (portAt s n).rxLast ∧ (portAt (sendIdle n s) n).nakOut = false ∧
      (portAt (sendIdle n s) n).nokey = (portAt s n).nokey ∧ (sendIdle n s).link.inbox = s.link.inbox ∧ (sendIdle n s).sec = s.sec := by
  rw [sendIdle_eq]
  have : ∀ (f : Frame) (u : State), portAt (putWire n f u) n = portAt u n := fun _ _ => rfl
  rw [this, portAt_modPort _ _ _ hn]
  exact ⟨rfl, rfl, rfl, rfl, rfl⟩

end Sys2Proof.Machine
end

