-- ==== Sys2Proof/Laws/Home.lean ====
section
/-! SUPPORT. The home: requests served at once, snoops opened, and the frames of its parts. -/

namespace Sys2Proof.Machine

open Sys2Proof

theorem forEach_id {α : Type} (f : α → State → State) (l : List α) (s : State) (h : ∀ x ∈ l, f x s = s) : forEach l f s = s := by
  unfold forEach
  induction l with
  | nil => rfl
  | cons x r ih =>
    rw [List.foldl_cons, h x (by simp)]
    exact ih fun y hy => h y (by simp [hy])

theorem mget_mem {α : Type} {m : AMap α} {k : Nat} {v : α} (h : mget m k = some v) : (k, v) ∈ m := by
  induction m with
  | nil => cases h
  | cons x r ih =>
    obtain ⟨j, w⟩ := x
    unfold mget at h
    split at h
    · next e => cases h; rw [← beq_iff_eq.mp e]; exact List.mem_cons_self
    · exact List.mem_cons_of_mem _ (ih h)

theorem modCoh_id (s : State) (f : Coh → Coh) (h : f s.coh = s.coh) : s.modCoh f = s := by unfold State.modCoh; rw [h]

theorem modLink_id (s : State) (f : Link → Link) (h : f s.link = s.link) : s.modLink f = s := by unfold State.modLink; rw [h]

theorem modCoh_congr {s : State} {f g : Coh → Coh} (h : f s.coh = g s.coh) : s.modCoh f = s.modCoh g := by
  unfold State.modCoh; rw [h]

theorem extOf_mem {s : State} {a : Nat} {x : Nat × Extent} (h : extOf s a = some x) : x ∈ s.ext.table := by
  unfold extOf at h
  split at h
  · cases h
  · split at h
    · cases h
    · next m =>
      split at h
      · cases h; exact mget_mem m
      · cases h

/-- With no revocation in progress no recall starts and no extent is freed. -/

theorem quiet_ends (s : State) (h : ∀ x ∈ s.ext.table, x.2.rev = none) : settleExtents (startRecalls s) = s := by
  have a : startRecalls s = s := by
    unfold startRecalls
    refine forEach_id _ _ _ fun x _ => ?_
    cases e : extOf s x.1 with
    | none => rfl
    | some y =>
      obtain ⟨e1, ext⟩ := y
      have : ext.rev = none := h _ (extOf_mem e)
      dsimp only
      rw [this]
  rw [a]
  unfold settleExtents
  refine forEach_id _ _ _ fun x hx => ?_
  rw [h x hx]

theorem send_coh (m : OutMsg) (s : State) : (send m s).coh = s.coh :=
  (send_touches (μ := partSet [.link, .sec]) m (by decide) (.refl _ s)).coh.resolve_left (by decide)

theorem send_ext (m : OutMsg) (s : State) : (send m s).ext = s.ext :=
  (send_touches (μ := partSet [.link, .sec]) m (by decide) (.refl _ s)).ext.resolve_left (by decide)

/-- A request that needs no eviction and no snoop is served at once at a quiet home. -/

theorem queueReq_served (r : LineReq) (s u : State) (hq : Quiet s) (htx : mget s.coh.txs (lineOf r.addr) = none) (hv : victimFor s r = none)
    (hs : snoopsFor r (lineEnt s (lineOf r.addr)) = []) (hf : finishReq r s = u) (hw : u.coh.waiting = []) (he : u.ext = s.ext) :
    queueReq r s = u := by
  have z : (s.modCoh fun c => { c with waiting := c.waiting ++ [r] }).modCoh (fun c => { c with waiting := [] }) = s :=
    modCoh_id s (fun c => { c with waiting := [] }) (by have := hq.1; cases h : s.coh; simp_all)
  have z2 : u.modCoh (fun c => { c with waiting := [] }) = u := modCoh_id u _ (by cases h : u.coh; simp_all)
  have w1 : (s.modCoh fun c => { c with waiting := c.waiting ++ [r] }).coh.waiting = [r] := by show s.coh.waiting ++ [r] = _; rw [hq.1]; rfl
  have sv : serveReq r s = (true, u) := by unfold serveReq; rw [hv]; dsimp only; rw [hs]; dsimp only; rw [hf]
  have st : serveWaiting [r] [] s = u := by
    unfold serveWaiting
    dsimp only
    have : mhas s.coh.txs (lineOf r.addr) = false := by unfold mhas; rw [htx]; rfl
    rw [this, sv]
    rfl
  unfold queueReq pumpHome
  rw [w1]
  have p1 : pumpReqs ([r].length + 1) (s.modCoh fun c => { c with waiting := c.waiting ++ [r] }) = u := by
    show pumpReqs 2 _ = u
    unfold pumpReqs
    dsimp only
    rw [w1, z, st]
    have : (u.coh.waiting.length == [r].length) = false := by rw [hw]; rfl
    rw [this]
    simp only [Bool.false_eq_true, if_false]
    unfold pumpReqs
    dsimp only
    rw [hw, z2]
    unfold serveWaiting
    rw [hw]; rfl
  rw [p1]
  exact quiet_ends u (by rw [he]; exact hq.2)

theorem beginTrans_coh (a : Nat) (x : Trans) (s : State) : (beginTrans a x s).coh = { s.coh with txs := mset s.coh.txs a x } := by
  unfold beginTrans
  exact (Touches.forEach (w := partSet [.link, .io, .sec]) x.snoops (sendSnoop a _) (fun y u hu => sendSnoop_touches _ _ _ (by decide) hu) (.refl _ _)).coh.resolve_left (by decide)

/-- A request that needs snoops opens its transaction at once at a quiet home. -/

theorem queueReq_opened (r : LineReq) (s : State) (l : List Snoop) (hq : Quiet s) (htx : mget s.coh.txs (lineOf r.addr) = none) (hv : victimFor s r = none)
    (hs : snoopsFor r (lineEnt s (lineOf r.addr)) = l) (hl : l ≠ []) :
    queueReq r s = beginTrans (lineOf r.addr) { req := some r, snoops := l } s := by
  have z : (s.modCoh fun c => { c with waiting := c.waiting ++ [r] }).modCoh (fun c => { c with waiting := [] }) = s :=
    modCoh_id s (fun c => { c with waiting := [] }) (by have := hq.1; cases h : s.coh; simp_all)
  have w1 : (s.modCoh fun c => { c with waiting := c.waiting ++ [r] }).coh.waiting = [r] := by show s.coh.waiting ++ [r] = _; rw [hq.1]; rfl
  obtain ⟨u, hu⟩ : ∃ u, u = beginTrans (lineOf r.addr) { req := some r, snoops := l } s := ⟨_, rfl⟩
  have sv : serveReq r s = (true, u) := by
    unfold serveReq; rw [hv]; dsimp only; rw [hs]
    cases l with
    | nil => exact absurd rfl hl
    | cons x r => rw [hu]
  have st : serveWaiting [r] [] s = u := by
    unfold serveWaiting
    dsimp only
    have : mhas s.coh.txs (lineOf r.addr) = false := by unfold mhas; rw [htx]; rfl
    rw [this, sv]
    rfl
  have uc := beginTrans_coh (lineOf r.addr) { req := some r, snoops := l } s
  rw [← hu] at uc
  have hw : u.coh.waiting = [] := by rw [uc]; exact hq.1
  have z2 : u.modCoh (fun c => { c with waiting := [] }) = u := modCoh_id u _ (by cases h : u.coh; simp_all)
  unfold queueReq pumpHome
  rw [w1]
  have p1 : pumpReqs ([r].length + 1) (s.modCoh fun c => { c with waiting := c.waiting ++ [r] }) = u := by
    show pumpReqs 2 _ = u
    unfold pumpReqs
    dsimp only
    rw [w1, z, st]
    have : (u.coh.waiting.length == [r].length) = false := by rw [hw]; rfl
    rw [this]
    simp only [Bool.false_eq_true, if_false]
    unfold pumpReqs
    dsimp only
    rw [hw, z2]
    unfold serveWaiting
    rw [hw]; rfl
  rw [p1, ← hu]
  refine quiet_ends u ?_
  rw [hu, show (beginTrans (lineOf r.addr) { req := some r, snoops := l } s).ext = s.ext from
    (beginTrans_touches (μ := partSet [.link, .coh, .io, .sec]) _ _ (by decide) (.refl _ s)).ext.resolve_left (by decide)]
  exact hq.2

/-- A granted request queues: a write grant for every kind, a read grant for loads. -/

theorem lineRequest_granted (r : LineReq) (s : State) (w : Bool) (x : Nat × Extent) (h1 : extOf s r.addr = some x) (h2 : x.2.state = .active)
    (h3 : grantOf x.2 r.src r.key = some w) (hk : w = true ∨ r.kind = .rdUnc ∨ r.kind = .rdS) : lineRequest r s = queueReq r s := by
  obtain ⟨e, x⟩ := x
  unfold lineRequest
  rw [h1]
  dsimp only
  rw [h3]
  dsimp only
  have : (x.state == .revoking) = false := by rw [show x.state = .active from h2]; rfl
  rw [this]
  rcases hk with h | h | h
  · rw [h]; rfl
  · cases w <;> rw [h] <;> rfl
  · cases w <;> rw [h] <;> rfl

/-- Taking a message in a device that takes it. -/

theorem takeMsg_takes (h : Hdr) (typ : Nat) (f : State → State) (s : State) (ht : takes h s = true) : takeMsg h typ f s = f (took h typ s) := by
  unfold takes at ht
  simp only [Bool.and_eq_true, Bool.not_eq_true'] at ht
  unfold takeMsg
  dsimp only
  have a : deaf (s.modLink fun l => { l with inbox := l.inbox.eraseP fun m => m.port == h.port && m.src == h.src && m.typ == typ && m.key == h.key }) = false := ht.1
  have b : keyLive (s.modLink fun l => { l with inbox := l.inbox.eraseP fun m => m.port == h.port && m.src == h.src && m.typ == typ && m.key == h.key }) h.key = true := ht.2
  rw [if_neg (by rw [a]; decide), if_pos b]; rfl

theorem setLine_keeps (k : Bool) (a : Nat) (x : Bool) (l : List Node) (s : State) : (setLine k a x l s).coh.waiting = s.coh.waiting ∧
    (setLine k a x l s).ext = s.ext ∧ (setLine k a x l s).coh.mem = s.coh.mem ∧ (setLine k a x l s).coh.poison = s.coh.poison := by
  unfold setLine
  refine ⟨?_, rfl, ?_, ?_⟩ <;> (simp only [State.modCoh_parts]; repeat' split) <;> rfl

theorem putLine_keeps (a : Nat) (x : Bool) (l : List Node) (s : State) : (putLine a x l s).coh.waiting = s.coh.waiting ∧ (putLine a x l s).ext = s.ext ∧
    (putLine a x l s).coh.mem = s.coh.mem ∧ (putLine a x l s).coh.poison = s.coh.poison := by
  unfold putLine setLine
  refine ⟨?_, rfl, ?_, ?_⟩ <;> (simp only [State.modCoh_parts]; repeat' split) <;> rfl

theorem victimFor_room (r : LineReq) (s : State) (h : (lineEnt s (lineOf r.addr)).isSome = true ∨ (setEntries s (lineOf r.addr)).length < 16) :
    victimFor s r = none := by
  unfold victimFor
  extract_lets a l
  rw [if_neg]
  intro c
  simp only [Bool.and_eq_true, decide_eq_true_eq] at c
  rcases h with h | h
  · exact absurd c.1.2 (by cases z : lineEnt s a <;> simp_all [a])
  · exact absurd c.2 (by show ¬ 16 ≤ (setEntries s (lineOf r.addr)).length; omega)

theorem answerData_clean (r : LineReq) (s : State) (h : lineOf r.addr ∉ s.coh.poison) : answerData r s = answerReq r mtData stOk 0 (memRead s.coh.mem r.addr r.len) s := by
  unfold answerData
  rw [if_neg (by simpa using h)]

/-- A granted write-back of a line nobody snoops queues. -/

theorem writeBack_granted (r : LineReq) (s : State) (w : Bool) (x : Nat × Extent) (h1 : extOf s r.addr = some x) (hq : Quiet s)
    (h3 : grantOf x.2 r.src r.key = some w) (hs : mget s.coh.txs r.addr = none) : writeBack r s = queueReq r s := by
  have rv := hq.2 x (extOf_mem h1)
  obtain ⟨e, x⟩ := x
  unfold writeBack
  rw [h1]
  dsimp only
  rw [h3, rv]
  have : snooping s r.addr r.src = false := by unfold snooping; rw [hs]; rfl
  rw [this]
  rfl

/-- Where nothing waits in a source's credits, nothing is admitted from them (R98). -/

theorem admitReqs_none (s : State) (h1 : s.coh.beyond = []) (h2 : s.link.heldCredits = []) : admitReqs s = s := by
  unfold admitReqs
  have z : s.modCoh (fun c => { c with beyond := [] }) = s := modCoh_id s _ (by cases h : s.coh; simp_all)
  dsimp only
  rw [h1, z]
  show forEach _ _ _ = s
  have e : (forEach ([] : List LineReq) (fun r s => arriveReq r s) s) = s := rfl
  rw [e, h2]
  refine Eq.trans (b := s.modLink fun l => { l with heldCredits := l.heldCredits.filter fun x => atLimit s x.2.2 }) rfl ?_
  refine modLink_id s _ ?_
  rw [h2]
  cases h : s.link
  rw [h] at h2
  simp only [List.filter_nil]
  dsimp only at h2; rw [h2]

/-- A request that is accepted as it arrives. -/

theorem takeReq_admits (typ : Nat) (h : Hdr) (kind : ReqKind) (addr len mask : Nat) (data : List Byte) (s : State) (ht : takes h s = true)
    (ha : Admits h typ s) : takeReq typ h kind addr len mask data s = acceptReq (mkReq h kind addr len mask data) (took h typ s) := by
  obtain ⟨h1, h2, h3⟩ := ha
  unfold takeReq
  rw [admitReqs_none s h1 h2, takeMsg_takes _ _ _ _ ht]
  unfold arriveReq atLimit
  rw [show (took h typ s).coh.beyond = [] from h1]
  have : decide (4096 ≤ outstandingOf (took h typ s) (mkReq h kind addr len mask data).src) = false := by
    simp only [decide_eq_false_iff_not, Nat.not_le]; exact h3
  rw [this]; rfl

/-- A request of a source that is at its limit joins those that wait in its credits. -/

theorem takeReq_limit (typ : Nat) (h : Hdr) (kind : ReqKind) (addr len mask : Nat) (data : List Byte) (s : State) (ht : takes h s = true)
    (h1 : s.coh.beyond = []) (h2 : s.link.heldCredits = []) (h3 : 4096 ≤ outstandingOf (took h typ s) h.src) :
    takeReq typ h kind addr len mask data s = (took h typ s).modCoh fun c => { c with beyond := [mkReq h kind addr len mask data] } := by
  unfold takeReq
  rw [admitReqs_none s h1 h2, takeMsg_takes _ _ _ _ ht]
  unfold arriveReq atLimit
  have : decide (4096 ≤ outstandingOf (took h typ s) (mkReq h kind addr len mask data).src) = true := by
    simp only [decide_eq_true_eq]; exact h3
  rw [this, show (took h typ s).coh.beyond = [] from h1]
  simp only [Bool.true_or, if_true]
  exact modCoh_congr (by rw [show (took h typ s).coh.beyond = [] from h1]; rfl)

/-- A granted request that needs snoops, in a device that takes it. -/

theorem request_opened (h : Hdr) (typ : Nat) (kind : ReqKind) (a len mask : Nat) (data : List Byte) (s : State) (l : List Snoop) (w : Bool)
    (ht : takes h s = true) (hq : Quiet s) (had : Admits h typ s) (hg : granted h a w s) (hk : w = true ∨ kind = .rdUnc ∨ kind = .rdS)
    (hw : kind ≠ .wb) (ha : lineOf a = a) (htx : mget s.coh.txs a = none) (hv : (lineEnt s a).isSome = true)
    (hs : snoopsFor (mkReq h kind a len mask data) (lineEnt s a) = l) (hl : l ≠ []) :
    mget (takeReq typ h kind a len mask data s).coh.txs a = some { req := some (mkReq h kind a len mask data), snoops := l } ∧
      (takeReq typ h kind a len mask data s).coh.mem = s.coh.mem ∧ (takeReq typ h kind a len mask data s).coh.filter = s.coh.filter ∧
      (takeReq typ h kind a len mask data s).coh.waiting = [] := by
  obtain ⟨y, h1, h2, h3⟩ := hg
  have e : takeReq typ h kind a len mask data s = beginTrans a { req := some (mkReq h kind a len mask data), snoops := l } (took h typ s) := by
    rw [takeReq_admits _ _ _ _ _ _ _ _ ht had]
    unfold acceptReq
    rw [show ((mkReq h kind a len mask data).kind == .wb) = false from beq_false_of_ne hw]
    simp only [Bool.false_eq_true, if_false]
    rw [lineRequest_granted (mkReq h kind a len mask data) (took h typ s) w y h1 h2 h3 hk]
    rw [queueReq_opened (mkReq h kind a len mask data) (took h typ s) l hq (by show mget s.coh.txs (lineOf a) = none; rw [ha]; exact htx)
      (victimFor_room (mkReq h kind a len mask data) (took h typ s) (.inl (by show (lineEnt s (lineOf a)).isSome = true; rw [ha]; exact hv)))
      (by show snoopsFor _ (lineEnt s (lineOf a)) = l; rw [ha]; exact hs) hl]
    show beginTrans (lineOf a) _ _ = _
    rw [ha]
  rw [e, beginTrans_coh]
  exact ⟨mget_mset _ _ _, rfl, rfl, hq.1⟩

theorem others_snooped {x : LineEnt} {me : Node} (hh : ∃ m ∈ x.holders, m ≠ me) :
    (x.holders.filter (· != me)).map (fun n => ({ node := n, inv := true, hadE := x.excl } : Snoop)) ≠ [] := by
  obtain ⟨m, hm, hm'⟩ := hh
  intro z
  rw [List.map_eq_nil_iff, List.filter_eq_nil_iff] at z
  exact z m hm (by simp [hm'])

theorem pumpHome_quiet (s : State) (hq : Quiet s) : pumpHome s = s := by
  have z : s.modCoh (fun c => { c with waiting := [] }) = s := modCoh_id s _ (by have := hq.1; cases h : s.coh; simp_all)
  unfold pumpHome
  have p : pumpReqs (s.coh.waiting.length + 1) s = s := by
    unfold pumpReqs
    dsimp only
    rw [hq.1, z]
    unfold serveWaiting
    rw [hq.1]; rfl
  rw [p]
  exact quiet_ends s hq.2

theorem mset_all {α : Type} {m : AMap α} {P : α → Prop} {k : Nat} {v : α} (h : ∀ x ∈ m, P x.2) (hv : P v) : ∀ {x}, x ∈ mset m k v → P x.2 := by
  induction m with
  | nil => intro x hx; simp [mset] at hx; rw [hx]; exact hv
  | cons y r ih =>
    obtain ⟨j, w⟩ := y
    intro x hx
    unfold mset at hx
    have hr : ∀ x ∈ r, P x.2 := fun x hx => h x (List.mem_cons_of_mem _ hx)
    split at hx
    · rcases List.mem_cons.mp hx with e | e
      · rw [e]; exact hv
      · exact h x e
    · split at hx
      · rcases List.mem_cons.mp hx with e | e
        · rw [e]; exact hv
        · exact hr x e
      · rcases List.mem_cons.mp hx with e | e
        · rw [e]; exact h (j, w) List.mem_cons_self
        · exact ih hr e

theorem mmod_all {α : Type} {m : AMap α} {P : α → Prop} {k : Nat} {f : α → α} (h : ∀ x ∈ m, P x.2) (hf : ∀ v, P v → P (f v)) {x : Nat × α} (hx : x ∈ mmod m k f) : P x.2 := by
  unfold mmod at hx
  split at hx
  · exact h x hx
  · next e => exact mset_all h (hf _ (h _ (mget_mem e))) hx

/-- A count of a revocation changes nothing where no extent is being revoked, but the order of the table. -/

theorem modRev_quiet (e a : Nat) (f : Revoke → Revoke) (s : State) (hq : ∀ x ∈ s.ext.table, x.2.rev = none) :
    (∀ x ∈ (modRev e f s).ext.table, x.2.rev = none) ∧ (modRev e f s).coh = s.coh ∧ extOf (modRev e f s) a = extOf s a := by
  refine ⟨fun x hx => mmod_all (P := fun x : Extent => x.rev = none) hq (fun y hy => by simp [hy]) hx, rfl, ?_⟩
  have : mget (mmod s.ext.table e fun x => { x with rev := x.rev.map f }) (a / 2 ^ 36) = mget s.ext.table (a / 2 ^ 36) := by
    by_cases c : a / 2 ^ 36 = e
    · rw [c, mget_mmod]
      cases m : mget s.ext.table e with
      | none => rfl
      | some x =>
        have : x.rev = none := hq _ (mget_mem m)
        obtain ⟨_⟩ := x
        simp only at this
        subst this
        rfl
    · exact mget_mmod_ne _ _ c
  unfold extOf
  rw [show mget (modRev e f s).ext.table (a / 2 ^ 36) = mget s.ext.table (a / 2 ^ 36) from this]

end Sys2Proof.Machine
end

