-- ==== Sys2Proof/Laws/Rings.lean ====
section
/-! SUPPORT. Starting an entry and ending it: what each does to the ring. -/

namespace Sys2Proof.Machine

open Sys2Proof

/-- An entry that starts waits in its ring, whose checks it passes. -/
theorem starting_some {op ring : Nat} {s : State} {e : Entry} (h : starting op ring s = some e) :
    startable s ring = some e ∧ eOpcode e.raw = op ∧ (waitsFor s e).isEmpty = true := by
  unfold starting at h
  split at h
  · cases h
  · next e' hs =>
    split at h
    · cases h
    · next c =>
      have c : ¬ eOpcode e'.raw ≠ op ∧ (waitsFor s e').isEmpty = true := by simpa using c
      have : e' = e := by
        split at h
        · cases h
        · exact Option.some.inj h
        · split at h
          · cases h
          · exact Option.some.inj h
      subst this
      exact ⟨hs, Decidable.not_not.mp c.1, c.2⟩

/-- The op row of an entry that starts runs its op on the state with the entry marked. -/
theorem startOp_starting {op ring : Nat} {s : State} {e : Entry} (f : Entry → State → State) (h : starting op ring s = some e) :
    startOp op ring f s = f e (markStarted ring e.idx s) := by
  obtain ⟨h1, h2, h3⟩ := starting_some h
  unfold startOp starting at *
  rw [h1] at h ⊢
  simp only [h2, h3, bne_self_eq_false, Bool.not_true, Bool.or_self, Bool.false_eq_true, ite_false, startNow, ite_true] at h ⊢
  cases hp : preCheck s ring e with
  | fail a => rw [hp] at h; cases h
  | go => rfl
  | read =>
    rw [hp] at h
    dsimp only at h ⊢
    split at h
    · cases h
    · next c =>
      have c : e.readFailed = false ∧ e.operands.isSome = true := by
        cases hr : e.readFailed <;> cases ho : e.operands <;> simp_all
      simp [c.1, c.2]

/-- A completion depends on the clock alone. -/
theorem cplOf_congr {s t : State} (h : t.clk = s.clk) (e : Entry) (a : Ans) : cplOf t e a = cplOf s e a := by
  unfold cplOf missed stamp now epochNo
  rw [h]

/-- The entry that may start stands in its ring, which is enabled. -/
theorem startable_mem {ring : Nat} {s : State} {e : Entry} (h : startable s ring = some e) :
    e ∈ (ringOf s ring).entries ∧ e.st = .waiting ∧ (ringOf s ring).enable = true := by
  unfold startable at h
  dsimp only at h
  split at h
  · cases h
  · next c =>
    split at h
    · cases h
    · next e' he =>
      split at h
      · cases h
      · cases h
        have m := List.mem_of_find?_eq_some he
        have w := List.find?_some he
        simp only [Bool.or_eq_true, Bool.not_eq_true', not_or, Bool.not_eq_false] at c
        exact ⟨m, by simpa using w, c.1.2⟩

/-- A ring that holds an entry has been set up. -/
theorem mget_of_mem {s : State} {ring : Nat} {e : Entry} (h : e ∈ (ringOf s ring).entries) : mget s.rng.rings ring = some (ringOf s ring) := by
  unfold ringOf mgetD at *
  cases x : mget s.rng.rings ring with
  | none => rw [x] at h; cases h
  | some r => rfl

theorem ringOf_modRing {s : State} {ring : Nat} (f : Ring → Ring) {r : Ring} (h : mget s.rng.rings ring = some r) :
    ringOf (modRing ring f s) ring = f r := by
  simp [ringOf, modRing, mgetD, mget_mmod, h]

theorem ringOf_modRing_ne {s : State} {ring n : Nat} (f : Ring → Ring) (h : n ≠ ring) : ringOf (modRing ring f s) n = ringOf s n := by
  simp [ringOf, modRing, mgetD_mmod_ne _ _ _ h]

@[simp] theorem ringOf_modCtx (c : Nat) (f : Ctx → Ctx) (s : State) (n : Nat) : ringOf (modCtx c f s) n = ringOf s n := rfl

/-- The ring once an entry has been marked. -/
theorem markStarted_ring {s : State} {ring : Nat} {e : Entry} (h : e ∈ (ringOf s ring).entries) :
    ringOf (markStarted ring e.idx s) ring =
      { ringOf s ring with
        entries := (ringOf s ring).entries.map fun x => if x.idx == e.idx then { x with st := .started } else x } := by
  simpa [markStarted] using ringOf_modRing _ (mget_of_mem h)

/-- Entries in order are told apart by their numbers. -/
theorem RingOk.unique {r : Ring} (h : RingOk r) {x y : Entry} (hx : x ∈ r.entries) (hy : y ∈ r.entries) (e : x.idx = y.idx) : x = y := by
  have p := h.1
  have key : ∀ l : List Entry, (l.map (·.idx)).Pairwise (· < ·) → x ∈ l → y ∈ l → x = y := by
    intro l
    induction l with
    | nil => exact fun _ h => nomatch h
    | cons z l ih =>
      intro p hx hy
      simp only [List.map_cons, List.pairwise_cons, List.mem_map, forall_exists_index, and_imp, forall_apply_eq_imp_iff₂] at p
      rcases List.mem_cons.mp hx with a | a <;> rcases List.mem_cons.mp hy with b | b
      · rw [a, b]
      · exact absurd e (Nat.ne_of_lt (a ▸ p.1 _ b))
      · exact absurd e.symm (Nat.ne_of_lt (b ▸ p.1 _ a))
      · exact ih p.2 a b
  exact key _ p hx hy

/-- An entry that starts and ends at once: it leaves its ring, and its completion is ready behind the others. -/
theorem endNow_ended {s : State} {ring : Nat} {e : Entry} (a : Ans) (h : e ∈ (ringOf s ring).entries) (ok : RingOk (ringOf s ring)) :
    Ended ring e a s (endNow ring e a (markStarted ring e.idx s)) := by
  have hr := markStarted_ring h
  have hf : (ringOf (markStarted ring e.idx s) ring).entries.find? (fun x => x.idx == e.idx) = some { e with st := .started } := by
    rw [hr]
    dsimp only
    have key : ∀ l : List Entry, e ∈ l → (∀ x ∈ l, x.idx = e.idx → x = e) →
        (l.map fun x => if x.idx == e.idx then { x with st := .started } else x).find? (fun x => x.idx == e.idx) =
          some { e with st := .started } := by
      intro l
      induction l with
      | nil => exact fun h => nomatch h
      | cons z l ih =>
        intro m u
        by_cases c : z.idx = e.idx
        · cases u z List.mem_cons_self c
          simp
        · have m : e ∈ l := (List.mem_cons.mp m).resolve_left fun x => c (by rw [x])
          simp only [List.map_cons, beq_iff_eq, c, ite_false]
          rw [List.find?_cons_of_neg (by simpa using c)]
          have k := ih m fun x hx => u x (List.mem_cons_of_mem _ hx)
          simpa using k
    exact key _ h fun x hx hi => ok.unique hx h hi
  have hm : mget (markStarted ring e.idx s).rng.rings ring = some (ringOf (markStarted ring e.idx s) ring) := by
    apply mget_of_mem (e := { e with st := .started })
    exact List.mem_of_find?_eq_some hf
  have ht : ringOf (endNow ring e a (markStarted ring e.idx s)) ring =
      { ringOf (markStarted ring e.idx s) ring with
        entries := (ringOf (markStarted ring e.idx s) ring).entries.filter fun x => x.idx != e.idx
        ready := if eQuiet e.raw && a.status == stOk then (ringOf (markStarted ring e.idx s) ring).ready
          else (ringOf (markStarted ring e.idx s) ring).ready ++ [cplOf (markStarted ring e.idx s) { e with st := .started } a] } := by
    unfold endNow endEntry
    rw [hf]
    exact ringOf_modRing _ hm
  refine ⟨fun x hx => ?_, ?_⟩
  · rw [ht] at hx
    simpa using (List.mem_filter.mp hx).2
  · rw [ht, hr]
    dsimp only
    split
    · simp
    · rfl

end Sys2Proof.Machine
end

