-- ==== Sys2Proof/Laws/Thermal.lean ====
section
/-! SUPPORT. The thermal level that the readings reach. -/

namespace Sys2Proof.Machine

open Sys2Proof

/-- The levels a reading reaches are the first so many, since a kind's entry thresholds rise. -/
theorem levels_reached (k : Nat) (x : Int) {l : Nat} (hl : l ≤ 4) :
    l ≤ ((List.range 5).filter fun m => m != 0 && decide (entryAt k m ≤ x)).length ↔ l = 0 ∨ entryAt k l ≤ x := by
  have e : List.range 5 = [0, 1, 2, 3, 4] := rfl
  have h0 : l = 0 ∨ l = 1 ∨ l = 2 ∨ l = 3 ∨ l = 4 := by omega
  rw [e]
  unfold entryAt
  by_cases c : k = 3
  · subst c
    simp only [List.filter_cons, List.filter_nil, nth]
    rcases h0 with rfl | rfl | rfl | rfl | rfl <;>
      by_cases a : (680 : Int) ≤ x <;> by_cases b : (720 : Int) ≤ x <;> by_cases d : (760 : Int) ≤ x <;> by_cases f : (800 : Int) ≤ x <;>
      simp [a, b, d, f] <;> omega
  · simp only [List.filter_cons, List.filter_nil, nth]
    rcases h0 with rfl | rfl | rfl | rfl | rfl <;>
      by_cases a : (760 : Int) ≤ x <;> by_cases b : (800 : Int) ≤ x <;> by_cases d : (840 : Int) ≤ x <;> by_cases f : (896 : Int) ≤ x <;>
      simp [c, a, b, d, f] <;> omega

theorem entryLevel_le (s : State) : entryLevel s ≤ 4 := by
  refine maxOf_le fun n hn => ?_
  obtain ⟨x, _, rfl⟩ := List.mem_map.mp hn
  have e : List.range 5 = [0, 1, 2, 3, 4] := rfl
  rw [e]
  simp only [List.filter_cons, List.filter_nil]
  repeat' split
  all_goals simp_all

/-- A converted sensor at or above the entry threshold of a level brings the level at least there. -/
theorem le_entryLevel {s : State} {k l : Nat} (hk : k < 64) (hv : nth s.thm.valid k false = true) (hl : l ≤ 4)
    (h : entryAt (sensorKind k) l ≤ nth s.thm.temps k 0) : l ≤ entryLevel s := by
  have m : (sensorKind k, nth s.thm.temps k 0) ∈ readings s := by
    simp only [readings, List.mem_filterMap, List.mem_range]
    exact ⟨k, hk, by rw [hv]; rfl⟩
  have q := (levels_reached (sensorKind k) (nth s.thm.temps k 0) hl).mpr (.inr h)
  exact Nat.le_trans q (le_maxOf (List.mem_map.mpr ⟨_, m, rfl⟩))

/-- The level the readings reach is 0, or a converted sensor is at or above its entry threshold. -/
theorem entryLevel_reached (s : State) : entryLevel s = 0 ∨
    ∃ k, k < 64 ∧ nth s.thm.valid k false = true ∧ entryAt (sensorKind k) (entryLevel s) ≤ nth s.thm.temps k 0 := by
  rcases maxOf_mem ((readings s).map fun x => ((List.range 5).filter fun l => l != 0 && decide (entryAt x.1 l ≤ x.2)).length) with e | e
  · exact .inl e
  · by_cases c : entryLevel s = 0
    · exact .inl c
    · right
      obtain ⟨x, hx, hl⟩ := List.mem_map.mp e
      simp only [readings, List.mem_filterMap, List.mem_range] at hx
      obtain ⟨k, hk, hx⟩ := hx
      split at hx
      · next hv =>
        cases hx
        refine ⟨k, hk, hv, ?_⟩
        have q := (levels_reached (sensorKind k) (nth s.thm.temps k 0) (entryLevel_le s)).mp (by unfold entryLevel; exact Nat.le_of_eq hl.symm)
        exact q.resolve_left c
      · cases hx

end Sys2Proof.Machine
end

