-- ==== Sys2Proof/Laws/Respond.lean ====
section
/-! SUPPORT. What the steps of a response do in a device with no entry accepted. -/

namespace Sys2Proof.Machine

open Sys2Proof

/-- With no entry accepted, ending every entry forgets reads of operands at most. -/
theorem revokeAll_idle {s : State} (h : anyAccepted s = false) : ∃ f, revokeAll s = s.modIo f := by
  have key : ∀ (l : List Nat) (t : State), (∀ r ∈ s.rng.rings, r.2.entries = []) → t.rng = s.rng →
      ∃ f, forEach l (resetRing stRevoked) t = t.modIo f := by
    intro l
    induction l with
    | nil => exact fun t _ _ => ⟨id, rfl⟩
    | cons n l ih =>
      intro t he ht
      have e : (ringOf t n).entries = [] := by
        unfold ringOf
        rw [ht]
        have : ∀ m : AMap Ring, (∀ r ∈ m, r.2.entries = []) → (mgetD m n {}).entries = [] := by
          intro m
          induction m with
          | nil => exact fun _ => rfl
          | cons x m ih =>
            intro k
            by_cases e : x.1 == n
            · simpa [mgetD, mget, e] using k x List.mem_cons_self
            · simpa [mgetD, mget, e] using ih fun y hy => k y (List.mem_cons_of_mem _ hy)
        exact this _ he
      have e2 : resetRing stRevoked n t = dropOperandReads n t := by simp [resetRing, e, forEach]
      obtain ⟨f, hf⟩ := ih (dropOperandReads n t) he (by simpa [dropOperandReads] using ht)
      have e3 : forEach (n :: l) (resetRing stRevoked) t = forEach l (resetRing stRevoked) (resetRing stRevoked n t) := rfl
      rw [e3, e2, hf]
      exact ⟨fun x => f { x with reads := _ }, rfl⟩
  refine key _ s ?_ rfl
  simpa [anyAccepted] using h

/-- Nothing of the window is left once it is lost. -/
theorem windowRecs_lose (s : State) : windowRecs (loseWindow s) = [] := by
  simp only [windowRecs, loseWindow, State.modFtl_parts, List.map_eq_nil_iff, List.filter_filter, List.filter_eq_nil_iff]
  intro x hx
  simp
  intro a b c
  exact ⟨x.2, hx, a, b, c⟩

/-- The end of a hard response's flush. -/
def hardEnd (s : State) : State :=
  match s.resp.kind with
  | .powerFail => faultFor clsPower s
  | .leak => leakStep3 s
  | _ => s

/-- A flush of a hard response with its copy in progress: it goes on while there is something to write, and the copy is awaited
otherwise. -/
theorem startFlush_hard {s : State} (hc : s.bbx.copy.isSome = true) (hk : s.resp.kind = .powerFail ∨ s.resp.kind = .leak ∨ s.resp.kind = .fatal)
    (hl : s.resp.leakJoin = false) (hb : s.resp.bleedDue = false) :
    (flushList s ≠ [] ∧ startFlush s = s.modResp fun r => { r with stage := .flush }) ∨
    (flushList s = [] ∧ startFlush s =
      (hardEnd (loseWindow (s.modResp fun r => { r with stage := .flush }))).modResp fun r => { r with stage := .copy }) := by
  have e : flushList (s.modResp fun r => { r with stage := .flush }) = flushList s := rfl
  unfold startFlush
  dsimp only
  rw [e]
  by_cases h : flushList s = []
  · right
    refine ⟨h, ?_⟩
    have hn : s.bbx.copy ≠ none := by intro x; simp [x] at hc
    unfold flushEnded bleedIfDue faultFor assertFault awaitCopy settleCopy loseWindow leakStep3 blinkUnsafe
    rcases hk with hk | hk | hk
    · cases hfa : s.pins.fault <;> simp [h, hk, hb, hl, hn, hfa, hardEnd, faultFor, assertFault]
    · cases hfa : s.pins.fault <;> cases hsp : s.pwr.safeToPull <;>
        simp [h, hk, hb, hl, hn, hfa, hsp, hardEnd, leakStep3, faultFor, assertFault, driveTherm, blinkUnsafe, setLed]
    · simp [h, hk, hb, hl, hn, hardEnd]
  · left
    refine ⟨h, ?_⟩
    cases x : flushList s with
    | nil => exact absurd x h
    | cons a l => rfl

/-- An event leaves the freeze as it is. -/
theorem emit_freeze (cls unit code : Nat) (args : List Nat) (s : State) :
    (emit cls unit code args s).bbx.frozen = s.bbx.frozen ∧ (emit cls unit code args s).bbx.copy = s.bbx.copy := by
  unfold emit Bbx.arrive Bbx.enqueue
  simp only [State.modBbx_parts]
  split
  · exact ⟨rfl, rfl⟩
  · split <;> exact ⟨rfl, rfl⟩

/-- A hard response begins in a device where none is on record. -/
theorem beginHard_fresh {s : State} (kind : RespKind) (phase : Nat) (h : s.resp.kind = .none) :
    (beginHard kind phase s).resp = { s.resp with kind := kind } ∧
    (beginHard kind phase s).start = { s.start with active := false, waiting := none, phase := phase } ∧
    ∃ b, (beginHard kind phase s).pins = { s.pins with rdy := false, cascMaster := b } := by
  unfold beginHard showPhase dropRdy abandonStart driveMaster
  by_cases c : 1 < cascSize ((s.modStart fun x => { x with active := false, waiting := none }).modPins fun p => { p with rdy := false }) <;>
    simp [c, h]

/-- A freeze of a ring that runs. -/
theorem freeze_running {s : State} (cls : Nat) (hf : s.bbx.frozen = false) (hc : s.bbx.copy = none) :
    (freeze cls s).bbx.frozen = true ∧ (freeze cls s).bbx.cause = cls ∧ ((freeze cls s).bbx.copy.map fun c => c.cls) = some cls := by
  unfold freeze
  rw [hc]
  simp [hf]

theorem hard_begin {s : State} (h : Resting s) (kind : RespKind) (phase cls : Nat) :
    ∃ T, freeze cls (revokeAll (setLed .blink1 (beginHard kind phase s))) = T ∧ T.resp = { kind := kind } ∧
      T.start = { s.start with active := false, waiting := none, phase := phase } ∧
      (∃ b, T.pins = { s.pins with rdy := false, led := .blink1, cascMaster := b }) ∧
      T.bbx.frozen = true ∧ T.bbx.cause = cls ∧ (T.bbx.copy.map fun c => c.cls) = some cls ∧
      T.pwr = s.pwr ∧ T.thm = s.thm ∧ T.clk = s.clk ∧ T.ftl = s.ftl ∧ T.spare = s.spare ∧ T.ops = s.ops ∧ T.rng = s.rng := by
  obtain ⟨h1, h2, ha, hf, hc⟩ := h
  obtain ⟨b1, b2, b, b3⟩ := beginHard_fresh (s := s) kind phase (by rw [h2])
  have tb := beginHard_touches (μ := partSet [.pins, .start, .resp, .casc]) kind phase rfl (.refl _ s)
  generalize hY : setLed .blink1 (beginHard kind phase s) = Y
  have y : Y.resp = { kind := kind } ∧ Y.start = { s.start with active := false, waiting := none, phase := phase } ∧
      Y.pins = { s.pins with rdy := false, led := .blink1, cascMaster := b } ∧ Y.bbx = s.bbx ∧ Y.pwr = s.pwr ∧ Y.thm = s.thm ∧
      Y.clk = s.clk ∧ Y.ftl = s.ftl ∧ Y.spare = s.spare ∧ Y.ops = s.ops ∧ Y.rng = s.rng := by
    rw [← hY]
    refine ⟨b1.trans (by rw [h2]), b2, ?_, tb.bbx.resolve_left (by decide), tb.pwr.resolve_left (by decide), tb.thm.resolve_left (by decide),
      tb.clk.resolve_left (by decide), tb.ftl.resolve_left (by decide), tb.spare.resolve_left (by decide),
      tb.ops.resolve_left (by decide), tb.rng.resolve_left (by decide)⟩
    simp [setLed, b3]
  obtain ⟨f, e⟩ := revokeAll_idle (s := Y) (by simpa [anyAccepted, y] using ha)
  rw [e]
  generalize hZ : Y.modIo f = Z
  have z : Z.resp = { kind := kind } ∧ Z.start = { s.start with active := false, waiting := none, phase := phase } ∧
      Z.pins = { s.pins with rdy := false, led := .blink1, cascMaster := b } ∧ Z.bbx = s.bbx ∧ Z.pwr = s.pwr ∧ Z.thm = s.thm ∧
      Z.clk = s.clk ∧ Z.ftl = s.ftl ∧ Z.spare = s.spare ∧ Z.ops = s.ops ∧ Z.rng = s.rng := by
    rw [← hZ]; exact y
  have k := freeze_running (s := Z) cls (by simpa [z] using hf) (by simpa [z] using hc)
  have tf := freeze_touches (μ := partSet [.bbx]) cls rfl (.refl _ Z)
  refine ⟨_, rfl, (tf.resp.resolve_left (by decide)).trans z.1, (tf.start.resolve_left (by decide)).trans z.2.1,
    ⟨b, (tf.pins.resolve_left (by decide)).trans z.2.2.1⟩, k.1, k.2.1, k.2.2, (tf.pwr.resolve_left (by decide)).trans z.2.2.2.2.1,
    (tf.thm.resolve_left (by decide)).trans z.2.2.2.2.2.1, (tf.clk.resolve_left (by decide)).trans z.2.2.2.2.2.2.1,
    (tf.ftl.resolve_left (by decide)).trans z.2.2.2.2.2.2.2.1, (tf.spare.resolve_left (by decide)).trans z.2.2.2.2.2.2.2.2.1,
    (tf.ops.resolve_left (by decide)).trans z.2.2.2.2.2.2.2.2.2.1, (tf.rng.resolve_left (by decide)).trans z.2.2.2.2.2.2.2.2.2.2⟩

theorem anyAcc {s : State} (h : s.rng.rings.all (fun x => x.2.entries.isEmpty) = true) : anyAccepted s = false := by
  simpa [anyAccepted] using h

theorem opsOver_flush {s : State} (h : s.resp.stage = .ops) (ha : anyAccepted s = false) (hw : flushList s ≠ []) :
    ∃ f, opsOver s = (s.modIo f).modResp fun r => { r with stage := .flush } := by
  obtain ⟨f, e⟩ := revokeAll_idle ha
  refine ⟨f, ?_⟩
  have k : (flushList ((s.modIo f).modResp fun r => { r with stage := .flush })).isEmpty = false := by
    have : flushList ((s.modIo f).modResp fun r => { r with stage := .flush }) = flushList s := rfl
    rw [this]
    cases x : flushList s with
    | nil => exact absurd x hw
    | cons a l => rfl
  simp [opsOver, h, startFlush, e, k]

theorem flushed_all {s : State} (h : s.resp.skip = []) : ∀ x ∈ (flushRecs (flushList s) s).ftl.recs,
    x.2.durable = true → x.2.acked = true → x.2.programmed = true := by
  intro x hx hd ha
  simp only [flushRecs, State.modFtl_parts, List.mem_map] at hx
  obtain ⟨y, hy, rfl⟩ := hx
  by_cases c : (flushList s).contains y.1 = true
  · rw [if_pos c]
  · simp only [c, Bool.false_eq_true, ite_false] at hd ha ⊢
    cases hp : y.2.programmed
    · exfalso
      apply c
      simp only [flushList, windowRecs, h, List.contains_eq_mem, decide_eq_true_eq, List.mem_filter, List.mem_map]
      exact ⟨⟨y, ⟨hy, by simp [hd, ha, hp]⟩, rfl⟩, by simp⟩
    · rfl

theorem lose_none {s : State} (h : ∀ x ∈ s.ftl.recs, x.2.durable = true → x.2.acked = true → x.2.programmed = true) :
    windowRecs s = [] ∧ (loseWindow s).ftl = s.ftl := by
  have e : windowRecs s = [] := by
    simp only [windowRecs, List.map_eq_nil_iff, List.filter_eq_nil_iff]
    intro x hx
    have := h x hx
    cases a : x.2.durable <;> cases b : x.2.acked <;> simp_all
  refine ⟨e, ?_⟩
  have k : s.ftl.recs.filter (fun x => !([] : List Nat).contains x.1) = s.ftl.recs := List.filter_eq_self.mpr (by simp)
  simp only [loseWindow, e, State.modFtl_parts, k]

theorem endEntry_noOp {s : State} {ring : Nat} {e : Entry} (a : Ans) (h : e ∈ (ringOf s ring).entries) (ok : RingOk (ringOf s ring)) :
    ringOf (endEntry ring e.idx a 0 s) ring =
      { ringOf s ring with
        entries := (ringOf s ring).entries.filter fun x => x.idx != e.idx
        ready := if eQuiet e.raw && a.status == stOk then (ringOf s ring).ready else (ringOf s ring).ready ++ [cplOf s e a] } ∧
    (∀ n, n ≠ ring → ringOf (endEntry ring e.idx a 0 s) n = ringOf s n) ∧
    Touches (partSet [.rng, .sch]) s (endEntry ring e.idx a 0 s) := by
  have hf : (ringOf s ring).entries.find? (fun x => x.idx == e.idx) = some e := by
    have key : ∀ l : List Entry, e ∈ l → (∀ x ∈ l, x.idx = e.idx → x = e) → l.find? (fun x => x.idx == e.idx) = some e := by
      intro l
      induction l with
      | nil => exact fun h => nomatch h
      | cons z l ih =>
        intro m u
        by_cases c : z.idx = e.idx
        · cases u z List.mem_cons_self c
          simp
        · have m : e ∈ l := (List.mem_cons.mp m).resolve_left fun x => c (by rw [x])
          rw [List.find?_cons_of_neg (by simpa using c)]
          exact ih m fun x hx => u x (List.mem_cons_of_mem _ hx)
    exact key _ h fun x hx hi => ok.unique hx h hi
  refine ⟨?_, fun n hn => ?_, endEntry_touches _ _ _ _ rfl (.refl _ _)⟩
  · unfold endEntry
    rw [hf]
    exact ringOf_modRing _ (mget_of_mem h)
  · unfold endEntry
    rw [hf]
    exact ringOf_modRing_ne _ hn

theorem resetEntry_noOp {s : State} (st ring idx : Nat) (h : s.ops.tab = []) :
    resetEntry st ring idx s = endEntry ring idx { status := st } 0 s := by
  simp [resetEntry, opFor, h]

theorem forEach_reset {st ring : Nat} (hst : st ≠ stOk) (l : List Entry) : ∀ s : State, s.ops.tab = [] → RingOk (ringOf s ring) →
    (ringOf s ring).entries = l →
    (ringOf (forEach (l.map (·.idx)) (resetEntry st ring) s) ring).entries = [] ∧
    (ringOf (forEach (l.map (·.idx)) (resetEntry st ring) s) ring).ready = (ringOf s ring).ready ++ l.map (fun e => cplOf s e { status := st }) ∧
    (∀ n, n ≠ ring → ringOf (forEach (l.map (·.idx)) (resetEntry st ring) s) n = ringOf s n) ∧
    Touches (partSet [.rng, .sch]) s (forEach (l.map (·.idx)) (resetEntry st ring) s) := by
  induction l with
  | nil =>
    intro s _ _ e
    exact ⟨e, by simp [forEach], fun _ _ => rfl, .refl _ _⟩
  | cons e l ih =>
    intro s ht ok he
    have hm : e ∈ (ringOf s ring).entries := by rw [he]; exact List.mem_cons_self
    have hs : (st == stOk) = false := by simpa using hst
    obtain ⟨k1, k2, k3⟩ := endEntry_noOp (s := s) { status := st } hm ok
    have e0 : forEach ((e :: l).map (·.idx)) (resetEntry st ring) s = forEach (l.map (·.idx)) (resetEntry st ring) (endEntry ring e.idx { status := st } 0 s) := by
      rw [← resetEntry_noOp st ring e.idx ht]; rfl
    generalize hU : endEntry ring e.idx { status := st } 0 s = U at *
    have hl : (ringOf U ring).entries = l := by
      rw [k1, he]
      have p := ok.1
      rw [he] at p
      simp only [List.map_cons, List.pairwise_cons, List.mem_map, forall_exists_index, and_imp, forall_apply_eq_imp_iff₂] at p
      simp only [List.filter_cons, bne_self_eq_false, Bool.false_eq_true, ite_false, List.filter_eq_self]
      intro x hx
      have := p.1 x hx
      simp only [bne_iff_ne, ne_eq]
      omega
    have ok' : RingOk (ringOf U ring) := by
      refine RingOk.filter (r := ringOf s ring) (fun x => x.idx != e.idx) ?_ ?_ ok
      · rw [k1]
      · rw [k1]
    have ht' : U.ops.tab = [] := by rw [k3.ops.resolve_left (by decide)]; exact ht
    obtain ⟨j1, j2, j3, j4⟩ := ih U ht' ok' hl
    rw [e0]
    have hclk : U.clk = s.clk := k3.clk.resolve_left (by decide)
    refine ⟨j1, ?_, fun n hn => (j3 n hn).trans (k2 n hn), Touches.next (by decide) k3 j4⟩
    rw [j2, k1]
    simp only [hs, Bool.and_false, Bool.false_eq_true, ite_false, List.append_assoc, List.map_cons, List.singleton_append]
    have cplEq : ∀ x, cplOf U x { status := st } = cplOf s x { status := st } := by
      intro x; exact cplOf_congr hclk _ _
    simp only [cplEq]

theorem revokeAll_noOp {s : State} (ht : s.ops.tab = []) (ok : RingsOk s.rng) : ∀ n,
    Touches (partSet [.rng, .io, .sch]) s (revokeAll s) ∧ (ringOf (revokeAll s) n).entries = [] ∧
    (ringOf (revokeAll s) n).ready = (ringOf s n).ready ++ (ringOf s n).entries.map fun e => cplOf s e { status := stRevoked } := by
  have step : ∀ (r : Nat) (u : State), u.ops.tab = [] → RingsOk u.rng →
      (ringOf (resetRing stRevoked r u) r).entries = [] ∧
      (ringOf (resetRing stRevoked r u) r).ready = (ringOf u r).ready ++ (ringOf u r).entries.map (fun e => cplOf u e { status := stRevoked }) ∧
      (∀ n, n ≠ r → ringOf (resetRing stRevoked r u) n = ringOf u n) ∧
      (resetRing stRevoked r u).ops.tab = [] ∧ RingsOk (resetRing stRevoked r u).rng ∧ (resetRing stRevoked r u).clk = u.clk ∧
      Touches (partSet [.rng, .io, .sch]) u (resetRing stRevoked r u) := by
    intro r u hu hok
    have q := forEach_reset (st := stRevoked) (ring := r) (by decide) (ringOf u r).entries (dropOperandReads r u) hu (hok.get r) rfl
    obtain ⟨a, b, c, d⟩ := q
    refine ⟨a, b, c, ?_, ?_, ?_, Touches.next (by decide) (dropOperandReads_touches r (by decide) (.refl _ u)) d⟩
    · exact (congrArg Ops.tab (d.ops.resolve_left (by decide))).trans hu
    · exact d.rings hok
    · exact d.clk.resolve_left (by decide)
  have all : ∀ (l : List Nat) (u : State), u.ops.tab = [] → RingsOk u.rng → ∀ n,
      (n ∈ l → (ringOf (forEach l (resetRing stRevoked) u) n).entries = []) ∧
      (n ∉ l → ringOf (forEach l (resetRing stRevoked) u) n = ringOf u n) ∧
      ((ringOf u n).entries = [] → (ringOf (forEach l (resetRing stRevoked) u) n).entries = []) ∧
      (n ∈ l → (ringOf (forEach l (resetRing stRevoked) u) n).ready = (ringOf u n).ready ++ (ringOf u n).entries.map (fun e => cplOf u e { status := stRevoked })) ∧
      Touches (partSet [.rng, .io, .sch]) u (forEach l (resetRing stRevoked) u) := by
    intro l
    induction l with
    | nil => exact fun u _ _ n => ⟨(fun h => (nomatch h)), fun _ => rfl, id, (fun h => (nomatch h)), .refl _ _⟩
    | cons r l ih =>
      intro u hu hok n
      obtain ⟨a, b, c, d, e, f, g⟩ := step r u hu hok
      have e0 : forEach (r :: l) (resetRing stRevoked) u = forEach l (resetRing stRevoked) (resetRing stRevoked r u) := rfl
      rw [e0]
      have cplEq : ∀ x, cplOf (resetRing stRevoked r u) x { status := stRevoked } = cplOf u x { status := stRevoked } := by
        intro x; exact cplOf_congr f _ _
      generalize hV : resetRing stRevoked r u = V at *
      obtain ⟨i1, i2, i3, i4, i5⟩ := ih V d e n
      have i6 := Touches.next (by decide) g i5
      by_cases hn : n = r
      · subst hn
        refine ⟨fun _ => i3 a, fun h => absurd List.mem_cons_self h, fun _ => i3 a, fun _ => ?_, i6⟩
        by_cases hl : n ∈ l
        · rw [i4 hl, a, b]; simp
        · rw [i2 hl, b]
      · have hV' := c n hn
        refine ⟨fun h => i1 ((List.mem_cons.mp h).resolve_left hn), fun h => (i2 fun x => h (List.mem_cons_of_mem _ x)).trans hV', fun h => i3 (by rw [hV']; exact h), fun h => ?_, i6⟩
        rw [i4 ((List.mem_cons.mp h).resolve_left hn), hV']
        simp only [cplEq]
  intro n
  obtain ⟨a1, a2, a3, a4, a5⟩ := all (s.rng.rings.map (·.1)) s ht ok n
  by_cases hn : n ∈ s.rng.rings.map (·.1)
  · exact ⟨a5, a1 hn, a4 hn⟩
  · have e : (ringOf s n).entries = [] := by
      cases x : (ringOf s n).entries with
      | nil => rfl
      | cons y l =>
        exfalso
        have m := mget_of_mem (s := s) (ring := n) (e := y) (by rw [x]; exact List.mem_cons_self)
        apply hn
        have : ∀ (k : AMap Ring) (v : Ring), mget k n = some v → n ∈ k.map (·.1) := by
          intro k
          induction k with
          | nil => intro v h; cases h
          | cons z k ih =>
            intro v h
            simp only [mget] at h
            split at h
            · next c => simp at c; simp [c]
            · exact List.mem_cons_of_mem _ (ih v h)
        exact this _ _ m
    have e2 : ringOf (revokeAll s) n = ringOf s n := a2 hn
    rw [e2, e]
    exact ⟨a5, rfl, by simp⟩

theorem memFault {s : State} (h : Resting s) (hsp : s.pwr.safeToPull = false) (cls : Nat) (unit : FailUnit) (detail : Nat) (hit : List Nat) :
    ∃ t, memoryFault cls unit detail hit s = t ∧ (t.pins.rdy = false ∧ t.resp.kind = .fatal ∧
      t.start.phase = 6 ∧ t.bbx.frozen = true ∧ t.bbx.cause = cls ∧ (t.bbx.copy.map fun c => c.cls) = some cls ∧ deaf t = true) ∧
      t.pins.fault = true ∧ t.pins.led = .blink4 ∧ (t.resp.stage = .flush ∨ t.resp.stage = .copy) ∧ t.spare = s.spare := by
  obtain ⟨h1, h2, ha, hf, hc⟩ := h
  have hal : alive s = true := by simp [alive, h1]
  refine ⟨_, rfl, ?_⟩
  unfold memoryFault
  simp only [hal, Bool.not_true, Bool.false_eq_true, ite_false]
  generalize hE : emit (failedUnit unit).1 (failedUnit unit).2 evFatal [cls, detail] s = E
  have e : E.pins = s.pins ∧ E.resp = s.resp ∧ E.pwr = s.pwr ∧ E.rng = s.rng ∧ E.spare = s.spare ∧ E.bbx.frozen = false ∧ E.bbx.copy = none := by
    have f := emit_freeze (failedUnit unit).1 (failedUnit unit).2 evFatal [cls, detail] s
    rw [hE] at f
    refine ⟨?_, ?_, ?_, ?_, ?_, f.1.trans hf, f.2.trans hc⟩ <;> (rw [← hE]; rfl)
  have so : softState E = true := by simp [softState, e, h2]
  simp only [so, Bool.true_or, ite_true]
  generalize hL : failedLoss unit hit E = L
  have l : L.pins = s.pins ∧ L.resp.kind = .none ∧ L.resp.leakJoin = false ∧ L.resp.bleedDue = false ∧ L.pwr = s.pwr ∧ L.rng = s.rng ∧ L.spare = s.spare ∧ L.bbx.frozen = false ∧ L.bbx.copy = none := by
    rw [← hL]
    cases unit <;> simp [failedLoss, e, h2, cutFlush, loseWindow]
  obtain ⟨b1, b2, b, b3⟩ := beginHard_fresh (s := L) .fatal 6 l.2.1
  have tb := beginHard_touches (μ := partSet [.pins, .start, .resp, .casc]) .fatal 6 rfl (.refl _ L)
  generalize hY : beginHard .fatal 6 L = Y at *
  have y : Y.bbx = L.bbx ∧ Y.pwr = L.pwr ∧ Y.rng = L.rng ∧ Y.spare = L.spare := ⟨tb.bbx.resolve_left (by decide), tb.pwr.resolve_left (by decide), tb.rng.resolve_left (by decide), tb.spare.resolve_left (by decide)⟩
  obtain ⟨f, er⟩ := revokeAll_idle (s := Y) (by simpa [anyAccepted, y, l] using ha)
  rw [er]
  have k := freeze_running (s := Y.modIo f) cls (by simpa [y, l] using l.2.2.2.2.2.2.2.1) (by simpa [y, l] using l.2.2.2.2.2.2.2.2)
  have tf := freeze_touches (μ := partSet [.bbx]) cls rfl (.refl _ (Y.modIo f))
  generalize hZ : freeze cls (Y.modIo f) = Z at *
  have z : Z.pins = Y.pins ∧ Z.resp = Y.resp ∧ Z.start = Y.start ∧ Z.pwr = Y.pwr ∧ Z.spare = Y.spare :=
    ⟨tf.pins.resolve_left (by decide), tf.resp.resolve_left (by decide), tf.start.resolve_left (by decide), tf.pwr.resolve_left (by decide), tf.spare.resolve_left (by decide)⟩
  generalize hW : powerDown (blinkUnsafe (faultFor cls Z)) = W
  have w : W.pins.rdy = false ∧ W.pins.fault = true ∧ W.pins.led = .blink4 ∧ W.resp.kind = .fatal ∧ W.resp.leakJoin = false ∧ W.resp.bleedDue = false ∧
      W.start.phase = 6 ∧ W.bbx = Z.bbx ∧ W.spare = s.spare := by
    rw [← hW]
    unfold powerDown blinkUnsafe faultFor assertFault setLed
    have hp : Z.pwr.safeToPull = false := by rw [z.2.2.2.1, y.2.1, l.2.2.2.2.1]; exact hsp
    cases hfa : Z.pins.fault <;> simp [hp, hfa, z, y, l, b1, b2, b3]
    all_goals simp_all
  rcases startFlush_hard (s := W) (by rw [w.2.2.2.2.2.2.2.1]; cases hx : Z.bbx.copy <;> simp_all) (.inr (.inr w.2.2.2.1)) w.2.2.2.2.1 w.2.2.2.2.2.1 with ⟨_, q⟩ | ⟨_, q⟩
  · rw [q]
    refine ⟨⟨?_, ?_, ?_, ?_, ?_, ?_, ?_⟩, ?_, ?_, .inl rfl, ?_⟩ <;> simp [w, k, deaf]
  · rw [q]
    have hk : (loseWindow (W.modResp fun r => { r with stage := .flush })).resp.kind = .fatal := by simp [loseWindow, w]
    refine ⟨⟨?_, ?_, ?_, ?_, ?_, ?_, ?_⟩, ?_, ?_, .inr rfl, ?_⟩ <;> (unfold hardEnd; simp [hk, loseWindow, w, k, deaf])

theorem lostFor_resting {s : State} (h : Resting s) (hsp : s.pwr.safeToPull = false) (cls : Nat) :
    ∃ t, lostFor cls s = t ∧ (t.pins.rdy = false ∧ t.resp.kind = .fatal ∧
      t.start.phase = 6 ∧ t.bbx.frozen = true ∧ t.bbx.cause = cls ∧ (t.bbx.copy.map fun c => c.cls) = some cls ∧ deaf t = true) ∧
      t.pins.fault = true ∧ t.pins.led = .blink4 ∧ t.resp.stage = .copy ∧ t.ops.tab = [] ∧ t.attn.units = [] ∧ windowRecs t = [] ∧
      t.thm = s.thm ∧ t.clk = s.clk ∧ t.start.active = false ∧ t.pins.therm = s.pins.therm ∧ t.resp.halted = true := by
  obtain ⟨h1, h2, ha, hf, hc⟩ := h
  refine ⟨_, rfl, ?_⟩
  unfold lostFor
  have hcut : cutFlush s = loseWindow s := by simp [cutFlush, h2]
  rw [hcut]
  dsimp only
  generalize hL : loseWindow s = L
  have l : L.pins = s.pins ∧ L.resp = {} ∧ L.pwr = s.pwr ∧ L.bbx = s.bbx ∧ L.thm = s.thm ∧ L.clk = s.clk := by rw [← hL]; simp [loseWindow, h2]
  have lw : windowRecs L = [] := by rw [← hL]; exact windowRecs_lose s
  obtain ⟨b1, b2, b, b3⟩ := beginHard_fresh (s := L) .fatal 6 (by rw [l.2.1])
  have tb := beginHard_touches (μ := partSet [.pins, .start, .resp, .casc]) .fatal 6 rfl (.refl _ L)
  have th := haltWork_touches (μ := partSet [.pins, .start, .resp, .casc, .rng, .io, .ops, .attn]) (by decide) (.next (by decide) (.refl _ L) tb)
  generalize hY : haltWork (beginHard .fatal 6 L) = Y at *
  have hh : ∀ X : State, (haltWork X).pins = X.pins ∧ (haltWork X).resp = { X.resp with halted := true } ∧ (haltWork X).start = X.start ∧
      (haltWork X).ops.tab = [] ∧ (haltWork X).attn.units = [] := fun X => ⟨rfl, rfl, rfl, rfl, rfl⟩
  have y : Y.pins = { L.pins with rdy := false, cascMaster := b } ∧ Y.resp = { kind := .fatal, halted := true } ∧ Y.start.phase = 6 ∧ Y.start.active = false ∧ Y.ops.tab = [] ∧ Y.attn.units = [] := by
    rw [← hY, (hh _).1, (hh _).2.1, (hh _).2.2.1, b1, b2, b3, l.2.1]
    exact ⟨rfl, rfl, rfl, rfl, (hh _).2.2.2⟩
  have yf : Y.bbx = L.bbx ∧ Y.ftl = L.ftl ∧ Y.pwr = L.pwr ∧ Y.thm = L.thm ∧ Y.clk = L.clk :=
    ⟨th.bbx.resolve_left (by decide), th.ftl.resolve_left (by decide), th.pwr.resolve_left (by decide), th.thm.resolve_left (by decide), th.clk.resolve_left (by decide)⟩
  have k := freeze_running (s := Y) cls (by simpa [yf, l] using hf) (by simpa [yf, l] using hc)
  have tf := freeze_touches (μ := partSet [.bbx]) cls rfl (.refl _ Y)
  generalize hZ : freeze cls Y = Z at *
  have z : Z.pins = Y.pins ∧ Z.resp = Y.resp ∧ Z.start = Y.start ∧ Z.pwr = Y.pwr ∧ Z.ftl = Y.ftl ∧ Z.ops = Y.ops ∧ Z.attn = Y.attn ∧ Z.thm = Y.thm ∧ Z.clk = Y.clk :=
    ⟨tf.pins.resolve_left (by decide), tf.resp.resolve_left (by decide), tf.start.resolve_left (by decide), tf.pwr.resolve_left (by decide), tf.ftl.resolve_left (by decide),
      tf.ops.resolve_left (by decide), tf.attn.resolve_left (by decide), tf.thm.resolve_left (by decide), tf.clk.resolve_left (by decide)⟩
  generalize hW : blinkUnsafe (faultFor cls Z) = W
  have w : W.pins.rdy = false ∧ W.pins.fault = true ∧ W.pins.led = .blink4 ∧ W.resp.kind = .fatal ∧
      W.start.phase = 6 ∧ W.start.active = false ∧ W.bbx = Z.bbx ∧ W.ftl = L.ftl ∧ W.ops.tab = [] ∧ W.attn.units = [] ∧ W.thm = s.thm ∧ W.clk = s.clk ∧ W.pins.therm = s.pins.therm ∧ W.resp.halted = true := by
    rw [← hW]
    unfold blinkUnsafe faultFor assertFault setLed
    have hp : Z.pwr.safeToPull = false := by rw [z.2.2.2.1, yf.2.2.1, l.2.2.1]; exact hsp
    cases hfa : Z.pins.fault <;> simp [hp, hfa, z, y, yf, l]
    all_goals simp_all
  have hcs : W.bbx.copy ≠ none := by rw [w.2.2.2.2.2.2.1]; intro x; simp [x] at k
  have e : awaitCopy W = W.modResp fun r => { r with stage := .copy } := by
    simp [awaitCopy, settleCopy, hcs]
  rw [e]
  have wr : windowRecs (W.modResp fun r => { r with stage := .copy }) = windowRecs L := by simp [windowRecs, w]
  refine ⟨⟨?_, ?_, ?_, ?_, ?_, ?_, ?_⟩, ?_, ?_, rfl, ?_, ?_, wr.trans lw, ?_, ?_, ?_, ?_, ?_⟩ <;> simp [w, k, deaf]

end Sys2Proof.Machine
end

