-- ==== Sys2Proof/Laws/RingOps.lean ====
section
/-! SUPPORT. Rings: doorbells, reads and the registers, what they keep of a ring. -/

namespace Sys2Proof.Machine

open Sys2Proof

/-- An access of the operator that is served reaches its register. -/

theorem operates_access {path : Path} {off : Nat} {s : State} (h : operates path off s = true) (f : State → State) :
    regAccess path off f s = f s ∧ (partyOf s path).isOperator = true := by
  unfold operates servedAt at h
  rw [Bool.and_eq_true] at h
  exact ⟨by unfold regAccess; rw [if_pos h.1], h.2⟩

theorem isOperator_eq {x : Party} (h : x.isOperator = true) : x = .operator := by cases x <;> first | rfl | cases h

/-- What a change of every entry of a ring gives, the ring being there or not. -/

theorem entries_modRing (s : State) (n : Nat) (f : Entry → Entry) :
    (ringOf (modRing n (fun r => { r with entries := r.entries.map f }) s) n).entries = (ringOf s n).entries.map f := by
  unfold ringOf modRing
  simp only [State.modRng_parts, mgetD]
  rw [mget_mmod]
  cases mget s.rng.rings n <;> rfl

theorem map_entry_eq (l : List Entry) (i : Nat) (g : Entry → Entry) : (l.map fun e => if (e.idx == i) = true then g e else e) = l.map fun e => if e.idx = i then g e else e := by
  simp

/-- What the indices and counts of a ring are made of. -/

def sqOf (s : State) (n : Nat) : BitVec 16 × BitVec 16 × BitVec 16 × Nat × Nat :=
  ((ringOf s n).sqTail, (ringOf s n).cqHead, (ringOf s n).cqTail, (ringOf s n).submitted, (ringOf s n).taken)

theorem sqOf_modRing (s : State) (m n : Nat) (f : Ring → Ring) (h : ∀ r : Ring, (f r).sqTail = r.sqTail ∧ (f r).cqHead = r.cqHead ∧ (f r).cqTail = r.cqTail ∧
    (f r).submitted = r.submitted ∧ (f r).taken = r.taken) : sqOf (modRing m f s) n = sqOf s n := by
  by_cases e : n = m
  · subst e
    unfold sqOf ringOf modRing
    simp only [State.modRng_parts, mgetD]
    rw [mget_mmod]
    cases mget s.rng.rings n with
    | none => rfl
    | some r => obtain ⟨a, b, c, d, g⟩ := h r; simp [a, b, c, d, g]
  · unfold sqOf; rw [ringOf_modRing_ne f e]

theorem sqOf_congr {s t : State} (h : t.rng = s.rng) (n : Nat) : sqOf t n = sqOf s n := by unfold sqOf ringOf; rw [h]

theorem sqOf_endEntry (s : State) (m i : Nat) (a : Ans) (x n : Nat) : sqOf (endEntry m i a x s) n = sqOf s n := by
  unfold endEntry
  split
  · rfl
  · exact sqOf_modRing _ _ _ _ fun r => ⟨rfl, rfl, rfl, rfl, rfl⟩

theorem sqOf_markStarted (s : State) (m i n : Nat) : sqOf (markStarted m i s) n = sqOf s n := sqOf_modRing _ _ _ _ fun r => ⟨rfl, rfl, rfl, rfl, rfl⟩

theorem sqOf_requestOperands (s : State) (m i n : Nat) : sqOf (requestOperands m i s) n = sqOf s n := by
  unfold requestOperands
  split
  · rfl
  · extract_lets asked
    split
    · split
      · rfl
      · unfold beginRead
        split
        · exact sqOf_modRing _ _ _ _ fun r => ⟨rfl, rfl, rfl, rfl, rfl⟩
        · exact sqOf_congr ((sendRead_touches (μ := partSet [.link, .sec]) _ (by decide) (.refl _ _)).rng.resolve_left (by decide)) n
    · rfl

theorem sqOf_checkRevoke (s : State) (m i n : Nat) : sqOf (checkRevoke m i s) n = sqOf s n := by
  unfold checkRevoke
  split
  · rfl
  · split
    · rfl
    · split
      · rw [sqOf_endEntry, sqOf_markStarted]
      · extract_lets il x s'
        have e : sqOf s' n = sqOf s n := sqOf_markStarted _ _ _ _
        split
        · rw [sqOf_endEntry]; exact e
        · split
          · rw [sqOf_endEntry]; exact e
          · exact e

/-- The accepted entries of a ring by number and raw bytes. -/

def idRaw (s : State) (n : Nat) : List (Nat × List Byte) := (ringOf s n).entries.map fun e => (e.idx, e.raw)

theorem idRaw_congr {s t : State} (h : t.rng = s.rng) (n : Nat) : idRaw t n = idRaw s n := by unfold idRaw ringOf; rw [h]

theorem idRaw_map (s : State) (m n : Nat) (f : Entry → Entry) (h : ∀ e, ((f e).idx, (f e).raw) = (e.idx, e.raw)) :
    idRaw (modRing m (fun r => { r with entries := r.entries.map f }) s) n = idRaw s n := by
  by_cases e : n = m
  · subst e
    unfold idRaw
    rw [entries_modRing, List.map_map]
    exact List.map_congr_left fun x _ => h x
  · unfold idRaw; rw [ringOf_modRing_ne _ e]

theorem idRaw_requestOperands (s : State) (m i n : Nat) : idRaw (requestOperands m i s) n = idRaw s n := by
  unfold requestOperands
  split
  · rfl
  · extract_lets asked
    split
    · split
      · rfl
      · unfold beginRead
        split
        · exact idRaw_map s m n (fun e => if e.idx == i then { e with operands := some [] } else e) fun e => by split <;> rfl
        · exact idRaw_congr ((sendRead_touches (μ := partSet [.link, .sec]) _ (by decide) (.refl _ _)).rng.resolve_left (by decide)) n
    · rfl

theorem checkRevoke_other (s : State) (m i : Nat) (h : ∀ y, y ∈ (ringOf s m).entries ∧ y.idx = i → eOpcode y.raw ≠ opExtRevoke) : checkRevoke m i s = s := by
  unfold checkRevoke
  split
  · rfl
  · next e he =>
    have m1 := List.mem_of_find?_eq_some he
    have m2 := List.find?_some he
    simp only [Bool.and_eq_true, beq_iff_eq] at m2
    rw [if_pos (bne_iff_ne.mpr (h e ⟨m1, m2.1⟩))]

theorem entriesOf_raws (a k : Nat) (l : List (List Byte)) : (entriesOf a k l).map (·.raw) = l := by
  induction l generalizing k with
  | nil => rfl
  | cons b r ih => unfold entriesOf; rw [List.map_cons, ih]

theorem entriesOf_raw {a k : Nat} {l : List (List Byte)} {e : Entry} (h : e ∈ entriesOf a k l) : e.raw ∈ l := by
  rw [← entriesOf_raws a k l]; exact List.mem_map.mpr ⟨e, h, rfl⟩

theorem forEach_mem_inv {α : Type} (P : State → Prop) {f : α → State → State} {l : List α} (hf : ∀ x ∈ l, ∀ u, P u → P (f x u)) : ∀ (s : State), P s → P (forEach l f s) := by
  unfold forEach
  induction l with
  | nil => intro s h; exact h
  | cons x r ih => intro s h; exact ih (fun y hy => hf y (List.mem_cons_of_mem _ hy)) _ (hf x List.mem_cons_self s h)

theorem readFor_get {h : Hdr} {s : State} {r : ReqRead} (hr : readFor h s = some r) : mget s.io.reads h.tag = some r := by
  unfold readFor at hr
  cases e : mget s.io.reads h.tag with
  | none => rw [e] at hr; cases hr
  | some q =>
    rw [e] at hr
    simp only [Option.bind_some] at hr
    split at hr
    · exact hr
    · cases hr

theorem readFailed_operands (s : State) (tag : Nat) {r : ReqRead} {n i : Nat} (h : mget s.io.reads tag = some r) (hf : r.for_ = .operands n i) :
    readFailed tag s = modRing n (fun q => { q with entries := q.entries.map fun e => if e.idx == i then { e with readFailed := true } else e })
      (s.modIo fun x => { x with reads := mdel x.reads tag }) := by
  unfold readFailed
  rw [h]
  dsimp only
  rw [hf]

end Sys2Proof.Machine
end

