-- ==== Sys2Proof/Laws/Ops.lean ====
section
/-! SUPPORT. Ops as they start and end, what they keep. -/

namespace Sys2Proof.Machine

open Sys2Proof

theorem markStarted_keeps (n i : Nat) (s : State) : (markStarted n i s).seqs = s.seqs := rfl

/-- How an entry ends depends on the rings and the clock alone. -/

theorem endEntry_rng {x y : State} (h : x.rng = y.rng) (hc : x.clk = y.clk) (n i : Nat) (a : Ans) (k : Nat) :
    (endEntry n i a k x).rng = (endEntry n i a k y).rng := by
  have r : ringOf x n = ringOf y n := by unfold ringOf; rw [h]
  unfold endEntry
  rw [r]
  cases (ringOf y n).entries.find? fun e => e.idx == i with
  | none => exact h
  | some e =>
    show (modRing n _ x).rng = (modRing n _ y).rng
    unfold modRing
    simp only [State.modRng_parts, h]
    rw [cplOf_congr hc]

/-- An op that ends as it starts, after other work that touched no ring. -/

theorem endNow_ended_after {s x : State} {n : Nat} {e : Entry} (a : Ans) (he : e ∈ (ringOf s n).entries) (ok : RingOk (ringOf s n))
    (hr : x.rng = (markStarted n e.idx s).rng) (hc : x.clk = s.clk) : Ended n e a s (endNow n e a x) := by
  have h := endNow_ended a he ok
  have r : ringOf (endNow n e a x) n = ringOf (endNow n e a (markStarted n e.idx s)) n := by
    unfold ringOf endNow
    rw [endEntry_rng (y := markStarted n e.idx s) hr (hc.trans rfl)]
  unfold Ended at h ⊢
  rw [r]; exact h

theorem endNow_keeps (n : Nat) (e : Entry) (a : Ans) (x : State) : (endNow n e a x).seqs = x.seqs ∧ (endNow n e a x).ops = x.ops := by
  have T := endEntry_touches (μ := partSet [.rng, .sch]) n e.idx a 0 (by decide) (.refl _ x)
  exact ⟨T.seqs.resolve_left (by decide), T.ops.resolve_left (by decide)⟩

theorem context_markStarted {s : State} {n : Nat} {e : Entry} (h : e ∈ (ringOf s n).entries) :
    (ringOf (markStarted n e.idx s) n).context = (ringOf s n).context := by rw [markStarted_ring h]

/-- A loop over a table to which one key was added, where every other key does nothing. -/

theorem forEach_mset_one {α : Type} (f : Nat × α → State → State) (m : AMap α) (k : Nat) (v : α) (s : State) (hk : mget m k = none)
    (h : ∀ x ∈ m, ∀ u, f x u = u) : forEach (mset m k v) f s = f (k, v) s := by
  induction m generalizing s with
  | nil => rfl
  | cons y r ih =>
    obtain ⟨j, w⟩ := y
    unfold mget at hk
    have hj : (j == k) = false := by
      cases q : j == k with
      | false => rfl
      | true => rw [q] at hk; cases hk
    rw [hj] at hk
    have hr : ∀ x ∈ r, ∀ u, f x u = u := fun x hx => h x (List.mem_cons_of_mem _ hx)
    have id1 : ∀ u, forEach r f u = u := fun u => forEach_id f r u fun x hx => hr x hx u
    unfold mset
    split
    · show forEach r f (f (j, w) (f (k, v) s)) = _
      rw [h (j, w) List.mem_cons_self, id1]
    · rw [hj]
      show forEach (mset r k v) f (f (j, w) s) = _
      rw [h (j, w) List.mem_cons_self]
      exact ih s hk hr

theorem forEach_last {α : Type} (P : State → Prop) (f : α → State → State) (l : List α) (hl : l ≠ []) (h : ∀ x ∈ l, ∀ u, P (f x u)) : ∀ s, P (forEach l f s) := by
  induction l with
  | nil => exact absurd rfl hl
  | cons x r ih =>
    intro s
    cases r with
    | nil => exact h x List.mem_cons_self s
    | cons y r => exact ih (by simp) (fun z hz => h z (List.mem_cons_of_mem _ hz)) (f x s)

/-- A read of an op that has bytes to read is outstanding once it has begun, and touches nothing but the reads and what is sent. -/

theorem beginRead_sent (id b node addr len key : Nat) (s : State) (h : len ≠ 0) :
    readsDone (beginRead (.op id b) node addr len key s) id = false ∧ Touches (partSet [.link, .io, .sec]) s (beginRead (.op id b) node addr len key s) := by
  have hl : (len == 0) = false := by simpa using h
  obtain ⟨v, hv⟩ : ∃ v : State, v = (takeTag s).2.modIo fun x => { x with reads := mset x.reads (takeTag s).1 { for_ := .op id b, node := node, addr := addr, len := len, key := key } } := ⟨_, rfl⟩
  have e : beginRead (.op id b) node addr len key s = sendRead (takeTag s).1 v := by
    unfold beginRead
    rw [hl, hv]
    rfl
  rw [e]
  have T : Touches (partSet [.link, .sec]) v (sendRead (takeTag s).1 v) := sendRead_touches _ (by decide) (.refl _ v)
  refine ⟨?_, ?_⟩
  · unfold readsDone
    rw [T.io.resolve_left (by decide), hv]
    show (!((mset _ _ _).any _)) = false
    rw [Bool.not_eq_false', List.any_eq_true]
    exact ⟨_, mget_mem (mget_mset _ (takeTag s).1 _), by simp⟩
  · refine sendRead_touches _ (by decide) ?_
    rw [hv]
    exact Touches.modIo _ (by decide) (takeTag_touches (by decide) (.refl _ s))

theorem hasMeta_modPage_state (a : PageAt) (f : Page → Page) (s : State) : (modPage a f s).cdc = s.cdc :=
  (modPage_touches (μ := partSet [.seqs, .wt]) a f (by decide) (.refl _ s)).cdc.resolve_left (by decide)

theorem startBacking_cdc (a : PageAt) (s : State) : (startBacking a s).cdc = s.cdc :=
  (startBacking_touches (μ := partSet [.hbm, .seqs, .wt, .ftl]) a (by decide) (.refl _ s)).cdc.resolve_left (by decide)

theorem mdel_mem {α : Type} {m : AMap α} {k : Nat} {x : Nat × α} (h : x ∈ mdel m k) : x ∈ m := by
  induction m with
  | nil => exact h
  | cons y r ih =>
    obtain ⟨j, w⟩ := y
    unfold mdel at h
    split at h
    · exact List.mem_cons_of_mem _ h
    · rcases List.mem_cons.mp h with e | e
      · rw [e]; exact List.mem_cons_self
      · exact List.mem_cons_of_mem _ (ih e)

theorem settleClose_id {s : State} (h : NoClose s) : settleClose s = s := by
  unfold settleClose
  refine forEach_id _ _ _ fun x hx => ?_
  have := h x hx
  dsimp only
  split
  · next k hk => exact absurd hk (this k)
  · rfl

theorem endEntry_solo (n i : Nat) (a : Ans) (k : Nat) (x : State) : (endEntry n i a k x).rng = (endEntry n i a 0 x).rng := by
  unfold endEntry
  split <;> rfl

theorem endEntry_ops (n i : Nat) (a : Ans) (k : Nat) (x : State) : (endEntry n i a k x).ops = x.ops :=
  (endEntry_touches (μ := partSet [.rng, .sch]) n i a k (by decide) (.refl _ x)).ops.resolve_left (by decide)

/-- An op in progress that ends ends its entry, where no close waits. -/

theorem finishOp_ended {s u : State} {n id : Nat} {e : Entry} {o : Op} (a : Ans) (he : e ∈ (ringOf s n).entries) (ok : RingOk (ringOf s n))
    (hr : u.rng = (markStarted n e.idx s).rng) (hc : u.clk = s.clk) (hm : mget u.ops.tab id = some o) (h1 : o.ring = n) (h2 : o.idx = e.idx)
    (nc : NoClose u) : Ended n e a s (finishOp id a u) ∧ finishOp id a u = endEntry n e.idx a o.solo (delOp id (dropReads id u)) := by
  have e1 : endOp id a (dropReads id u) = endEntry n e.idx a o.solo (delOp id (dropReads id u)) := by
    unfold endOp
    rw [show mget (dropReads id u).ops.tab id = some o from hm]
    dsimp only
    rw [h1, h2]
  have nc2 : NoClose (endOp id a (dropReads id u)) := by
    intro x hx
    rw [e1, endEntry_ops] at hx
    exact nc x (mdel_mem hx)
  have ef : finishOp id a u = endEntry n e.idx a o.solo (delOp id (dropReads id u)) := by
    unfold finishOp
    rw [settleClose_id nc2, e1]
  refine ⟨?_, ef⟩
  have k := endNow_ended_after (x := delOp id (dropReads id u)) a he ok hr hc
  unfold Ended at k ⊢
  have r : ringOf (finishOp id a u) n = ringOf (endNow n e a (delOp id (dropReads id u))) n := by
    unfold ringOf endNow
    rw [ef, endEntry_solo]
  rw [r]; exact k

theorem NoClose.newOp {s : State} (h : NoClose s) {o : Op} (ho : ∀ k, o.body ≠ .seqClose k) : NoClose (newOp o s) := by
  intro x hx
  exact mset_all (P := fun o : Op => ∀ k, o.body ≠ .seqClose k) (fun y hy => h y hy) ho hx

theorem NoClose.modOp {s : State} (h : NoClose s) (i : Nat) {f : Op → Op} (hf : ∀ o, (f o).body = o.body ∨ ∀ k, (f o).body ≠ .seqClose k) : NoClose (modOp i f s) := by
  intro x hx
  refine mmod_all (P := fun o : Op => ∀ k, o.body ≠ .seqClose k) (fun y hy => h y hy) (fun o ho k => ?_) hx
  rcases hf o with z | z
  · rw [z]; exact ho k
  · exact z k

theorem NoClose.congr {s t : State} (h : NoClose s) (e : t.ops = s.ops) : NoClose t := by unfold NoClose; rw [e]; exact h

theorem ctx_modCtx_part (c : Nat) (f : Ctx → Ctx) (s : State) (h : ∀ x, (f x).part = x.part) : (ctxOf (modCtx c f s) c).part = (ctxOf s c).part := by
  unfold ctxOf modCtx
  simp only [State.modSch_parts]
  rw [mgetD_mupd]
  exact h _

theorem newOp_get (o : Op) (s : State) : mget (newOp o s).ops.tab s.ops.next = some o := mget_mset _ _ _

theorem modOp_get {s : State} {i : Nat} {o : Op} (f : Op → Op) (h : mget s.ops.tab i = some o) : mget (modOp i f s).ops.tab i = some (f o) := by
  show mget (mmod s.ops.tab i f) i = _
  rw [mget_mmod, h]; rfl

theorem entriesBad_marked (s : State) (n i ctx op : Nat) (b : List Byte) (l : List LenEnt) : ∀ seen,
    entriesBad (markStarted n i s) ctx op b seen l = entriesBad s ctx op b seen l := by
  induction l with
  | nil => intro seen; rfl
  | cons x r ih =>
    intro seen
    unfold entriesBad
    dsimp only
    rw [ih]
    rfl

/-- The checks of an attention op look at no ring. -/

theorem attnBad_marked (s : State) (n i ctx : Nat) (req : Node) (op : Nat) (b : List Byte) (a : AttnSt) :
    attnBad (markStarted n i s) ctx req op b a = attnBad s ctx req op b a := by
  unfold attnBad
  dsimp only
  rw [entriesBad_marked]
  rfl

theorem forEach_comm {α : Type} (f : α → State → State) (g : State → State) (l : List α) (h : ∀ x u, f x (g u) = g (f x u)) :
    ∀ s, forEach l f (g s) = g (forEach l f s) := by
  unfold forEach
  induction l with
  | nil => intro s; rfl
  | cons x r ih => intro s; rw [List.foldl_cons, List.foldl_cons, h, ih]

theorem withAppends_marked (l : List AppendSt) (n i : Nat) (s : State) : withAppends l (markStarted n i s) = markStarted n i (withAppends l s) := by
  unfold withAppends
  refine forEach_comm _ (markStarted n i) l (fun a u => ?_) s
  cases h : a.replace with
  | true => rfl
  | false => rfl

theorem anyDropped_marked (s : State) (n i : Nat) (a : AttnSt) : anyDropped (markStarted n i s) a = anyDropped s a := rfl

theorem attnOp_cases {s : State} {n : Nat} {e : Entry} (op : Nat) (hm : e ∈ (ringOf s n).entries) (ok : RingOk (ringOf s n)) :
    let b := e.operands.getD []
    let ctx := (ringOf s n).context
    let a := attnAsked op b (ctxLadder (ctxOf s ctx))
    (∀ c, attnBad s ctx (ringOf s n).reqNode op b a = some c → Ended n e (internal c) s (attnOp op n e (markStarted n e.idx s)) ∧ (attnOp op n e (markStarted n e.idx s)).attn = s.attn) ∧
    (attnBad s ctx (ringOf s n).reqNode op b a = none → (op = opAttnBwd → anyDropped s a = false) →
      ∃ u, InProgress n e (.attn a) s u ∧ ((mget u.ops.tab s.ops.next).map (·.rung)) = some (modeRung (dMode b)) ∧
        Only [.ops] (markStarted n e.idx s) u ∧ attnOp op n e (markStarted n e.idx s) = dispatchAttn s.ops.next u) := by
  intro b ctx a
  have cx := context_markStarted hm
  have rx : (ringOf (markStarted n e.idx s) n).reqNode = (ringOf s n).reqNode := by rw [markStarted_ring hm]
  refine ⟨fun c h1 => ?_, fun h1 h2 => ?_⟩
  · unfold attnOp
    dsimp only
    rw [cx, rx, attnBad_marked, show attnBad s (ringOf s n).context (ringOf s n).reqNode op (e.operands.getD [])
      (attnAsked op (e.operands.getD []) (ctxLadder (ctxOf (markStarted n e.idx s) (ringOf s n).context))) = some c from h1]
    exact ⟨endNow_ended _ hm ok, (endEntry_touches (μ := partSet [.rng, .sch]) n e.idx _ 0 (by decide) (.refl _ _)).attn.resolve_left (by decide)⟩
  · obtain ⟨o, ho⟩ : ∃ o, o = opOf (markStarted n e.idx s) n e (.attn a) := ⟨_, rfl⟩
    obtain ⟨u, hu⟩ : ∃ u, u = modOp s.ops.next (fun o => { o with rung := modeRung (dMode b) }) (newOp o (markStarted n e.idx s)) := ⟨_, rfl⟩
    have ug : mget u.ops.tab s.ops.next = some { o with rung := modeRung (dMode b) } := by
      rw [hu]
      exact modOp_get _ (newOp_get o (markStarted n e.idx s))
    refine ⟨u, ⟨_, ug, by rw [ho]; rfl, by rw [ho]; rfl, by rw [ho]; rfl⟩, by rw [ug]; rfl, ?_, ?_⟩
    · rw [hu]
      exact ⟨rfl, fun p hp => by cases p <;> first | rfl | exact absurd (by decide) hp⟩
    · unfold attnOp
      dsimp only
      rw [cx, rx, attnBad_marked, show attnBad s (ringOf s n).context (ringOf s n).reqNode op (e.operands.getD [])
        (attnAsked op (e.operands.getD []) (ctxLadder (ctxOf (markStarted n e.idx s) (ringOf s n).context))) = none from h1]
      dsimp only
      rw [if_neg]
      · rw [hu, ho]; rfl
      · intro z
        rw [Bool.and_eq_true, beq_iff_eq] at z
        have : anyDropped s a = true := z.2
        rw [h2 z.1] at this
        cases this

theorem NoClose.dropUnits {s : State} (h : NoClose s) (i : Nat) : NoClose (dropUnits i s) := h.congr
  ((dropUnits_touches (μ := partSet [.attn]) i (by decide) (.refl _ s)).ops.resolve_left (by decide))

theorem endNow_attn (n : Nat) (e : Entry) (a : Ans) (x : State) : (endNow n e a x).attn = x.attn :=
  (endEntry_touches (μ := partSet [.rng, .sch]) n e.idx _ 0 (by decide) (.refl _ _)).attn.resolve_left (by decide)

theorem endNow_wt (n : Nat) (e : Entry) (a : Ans) (x : State) : (endNow n e a x).wt = x.wt :=
  (endEntry_touches (μ := partSet [.rng, .sch]) n e.idx _ 0 (by decide) (.refl _ _)).wt.resolve_left (by decide)

theorem modOp_only {s t : State} (i : Nat) (f : Op → Op) (h : Only [.ops] s t) : Only [.ops] s (modOp i f t) :=
  ⟨h.1, fun p hp => by
    have := h.2 p hp
    cases p <;> first | exact this | exact absurd (by decide) hp⟩

theorem newOp_only {s t : State} (o : Op) (h : Only [.ops] s t) : Only [.ops] s (newOp o t) :=
  ⟨h.1, fun p hp => by
    have := h.2 p hp
    cases p <;> first | exact this | exact absurd (by decide) hp⟩

theorem only_refl (l : List StPart) (s : State) : Only l s s := ⟨rfl, fun p _ => by cases p <;> rfl⟩

/-- An op whose work is noted is the op it was but for the note. -/

theorem noteWork_get {s : State} {i : Nat} {o : Op} (opc ctx : Nat) (cls : Nat × Nat) (k : Nat) (h : mget s.ops.tab i = some o) :
    ∃ x, mget (noteWork i opc ctx cls k s).ops.tab i = some x ∧ x.ring = o.ring ∧ x.idx = o.idx ∧ x.body = o.body ∧ x.ctx = o.ctx ∧ x.deadline = o.deadline :=
  ⟨_, modOp_get _ h, rfl, rfl, rfl, rfl, rfl⟩

/-- A load with no byte of its next tile waits. -/

theorem runLoad_waits {s : State} {id obj first n : Nat} {seals : Bool} {o : Op} {w : WtObj} (h1 : mget s.ops.tab id = some o)
    (h2 : o.body = .wtLoad obj first n seals []) (h3 : mget s.wt.objs obj = some w) (h4 : first = w.tiles.length) (h5 : n ≠ 0) (h6 : o.bufs = [])
    (h7 : o.failed = false) : runLoad id s = modOp id (fun o => { o with body := .wtLoad obj first n seals [] }) s := by
  unfold runLoad
  rw [h1]
  dsimp only
  rw [h2]
  dsimp only
  unfold driveLoad
  rw [h1]
  dsimp only
  rw [h2]
  dsimp only
  rw [h3]
  dsimp only
  unfold landTiles
  dsimp only
  rw [h3, Option.getD_some, h7, if_neg (by decide), if_neg (by omega), if_neg (by simp; omega), h6]
  rfl

/-- A load begins on a state in which its object stands: the op is in progress with its tiles asked for. -/

theorem load_begins {s : State} {n : Nat} {e : Entry} (ctx k x f node base : Nat) (seals : Bool) (w : WtObj) (v : State) (hv : v.ops = s.ops)
    (h2 : mget v.wt.objs x = some w) (h3 : f = w.tiles.length) (h4 : k ≠ 0) :
      ∃ t, runLoad s.ops.next (forEach (List.range k) (fun i u => beginRead (.op s.ops.next i) node ((base + 65536 * i) % 2 ^ 48) 65536 (ringOf u n).key u)
          (newOp (opOf (countWait ctx e.arrival v) n e (.wtLoad x f k seals [])) (countWait ctx e.arrival v))) = t ∧
        InProgress n e (.wtLoad x f k seals []) s t ∧ readsDone t s.ops.next = false ∧ t.wt = v.wt := by
  obtain ⟨y, hy⟩ : ∃ y, y = countWait ctx e.arrival v := ⟨_, rfl⟩
  rw [← hy]
  have yn : y.ops.next = s.ops.next := by rw [hy]; show v.ops.next = _; rw [hv]
  obtain ⟨p, hp⟩ : ∃ p, p = opOf y n e (.wtLoad x f k seals []) := ⟨_, rfl⟩
  rw [← hp]
  obtain ⟨z, hz⟩ : ∃ z, z = newOp p y := ⟨_, rfl⟩
  rw [← hz]
  have zg : mget z.ops.tab s.ops.next = some p := by rw [hz, ← yn]; exact newOp_get p y
  obtain ⟨g, hg⟩ : ∃ g, g = forEach (List.range k) (fun i u => beginRead (.op s.ops.next i) node ((base + 65536 * i) % 2 ^ 48) 65536 (ringOf u n).key u) z := ⟨_, rfl⟩
  rw [← hg]
  have T : Touches (partSet [.link, .io, .sec]) z g := by
    rw [hg]
    exact forEach_mem_inv (Touches (partSet [.link, .io, .sec]) z) (fun i _ u hu =>
      Touches.next (by decide) hu (beginRead_sent s.ops.next i node ((base + 65536 * i) % 2 ^ 48) 65536 (ringOf u n).key u (by decide)).2) z (.refl _ z)
  have rd : readsDone g s.ops.next = false := by
    rw [hg]
    refine forEach_last (fun u => readsDone u s.ops.next = false) _ _ ?_ (fun i _ u => (beginRead_sent _ _ _ _ _ _ _ (by decide)).1) z
    intro q
    have : (List.range k).length = 0 := by rw [q]; rfl
    rw [List.length_range] at this
    exact h4 this
  have gg : mget g.ops.tab s.ops.next = some p := by rw [T.ops.resolve_left (by decide)]; exact zg
  have gw : g.wt = v.wt := by rw [T.wt.resolve_left (by decide), hz, hy]; rfl
  have rl := runLoad_waits (id := s.ops.next) (obj := x) (first := f) (n := k) (seals := seals) gg (by rw [hp]; rfl) (by rw [gw]; exact h2) h3 h4 (by rw [hp]; rfl) (by rw [hp]; rfl)
  rw [rl]
  refine ⟨_, rfl, ⟨_, modOp_get _ gg, by rw [hp]; rfl, by rw [hp]; rfl, rfl⟩, rd, gw⟩

/-- The sizes of a new object are refused. -/

theorem newSizes_bad {size k first : Nat} {seals : Bool} : (size == 0 || decide (1048576 < size) || k == 0 || first != 0 || decide (size < k) || (seals && k != size)) = true ↔
    (size = 0 ∨ 1048576 < size ∨ first ≠ 0 ∨ (k = 0 ∨ size < first + k ∨ (seals = true ∧ first + k ≠ size))) := by
  simp only [Bool.or_eq_true, Bool.and_eq_true, decide_eq_true_eq, beq_iff_eq, bne_iff_ne]
  by_cases f : first = 0
  · subst f
    simp only [Nat.zero_add, ne_eq, not_true_eq_false, false_or, or_false, or_assoc]
  · simp [f]

theorem moreSizes_bad {size k first len : Nat} {seals s : Bool} : (s || first != len || k == 0 || decide (size < first + k) || (seals && first + k != size)) = true ↔
    (s = true ∨ first ≠ len ∨ (k = 0 ∨ size < first + k ∨ (seals = true ∧ first + k ≠ size))) := by
  simp only [Bool.or_eq_true, Bool.and_eq_true, decide_eq_true_eq, beq_iff_eq, bne_iff_ne, or_assoc]

theorem partOf_modPart (p : Nat) (f : Part → Part) (s : State) : partOf (modPart p f s) p = f (partOf s p) := mgetD_mupd _ _ _ _

theorem partOf_sch {s t : State} (h : t.sch = s.sch) (p : Nat) : partOf t p = partOf s p := by unfold partOf; rw [h]

/-- The units of `t` are those of `s`, but for the walk a unit remembers. -/
def SameUnits (s t : State) : Prop :=
  ∀ id x, mget s.attn.units id = some x → ∃ l, mget t.attn.units id = some { x with seen := l }

theorem SameUnits.of_eq {s t : State} (h : t.attn.units = s.attn.units) : SameUnits s t := fun _ x e => ⟨x.seen, by rw [h]; exact e⟩

theorem SameUnits.trans {s t u : State} (h : SameUnits s t) (k : SameUnits t u) : SameUnits s u := fun id x e => by
  obtain ⟨l, e⟩ := h id x e
  obtain ⟨l', e⟩ := k id _ e
  exact ⟨l', e⟩

theorem fixSelects_units (m : Model) (u : WUnit) (s : State) : (fixSelects m u s).attn.units = s.attn.units := by
  unfold fixSelects
  refine forEach_inv (fun x : State => x.attn.units = s.attn.units) (fun i x hx => ?_) _ rfl
  refine forEach_inv (fun x : State => x.attn.units = s.attn.units) (fun h x hx => ?_) _ hx
  split
  · exact hx
  · split
    · exact hx
    · split <;> exact hx

theorem walkEntry_units (cluster : Nat) (a : AttnSt) (u : WUnit) (i : Nat) (s : State) : SameUnits s (walkEntry cluster a u i s) := by
  unfold walkEntry
  split
  · exact .of_eq rfl
  · next l _ =>
    generalize hw : walks _ _ _ _ _ _ _ = w
    have e : w.attn = s.attn := hw ▸ (walks_touches (μ := partSet [.seqs]) _ _ _ _ _ _ (by decide) (.refl _ s)).attn.resolve_left (by decide)
    intro id x h
    rw [← e] at h
    simp only [State.modAttn_parts]
    by_cases c : id = u.id
    · subst c
      exact ⟨x.seen ++ [(i, l)], by rw [mget_mmod, h]; rfl⟩
    · exact ⟨x.seen, by rw [mget_mmod_ne _ _ c]; exact h⟩

/-- A unit's start changes no unit but for the walk it remembers. -/
theorem startUnit_units (cluster : Nat) (u : WUnit) (s : State) : SameUnits s (startUnit cluster u s) := by
  unfold startUnit
  split
  · exact .of_eq rfl
  · next a _ =>
    dsimp only
    generalize hf : fixSelects _ u s = f
    have e : SameUnits s f := .of_eq (hf ▸ fixSelects_units _ u s)
    generalize hg : (if u.seen.isEmpty then _ else f) = g
    have k : SameUnits s g := by
      subst hg
      split
      · exact forEach_inv (fun x : State => SameUnits s x) (fun i x hx => hx.trans (walkEntry_units _ _ _ _ _)) _ e
      · exact e
    refine k.trans (.of_eq ?_)
    have := (askPeers_touches (μ := partSet [.link, .io, .casc, .sec]) u.id (by decide) (.refl _ g)).attn.resolve_left (by decide)
    rw [this]

theorem endNow_tier (n : Nat) (e : Entry) (a : Ans) (x : State) : (endNow n e a x).tier = x.tier :=
  (endEntry_touches (μ := partSet [.rng, .sch]) n e.idx _ 0 (by decide) (.refl _ _)).tier.resolve_left (by decide)

theorem only_weaken {l k : List StPart} {s t : State} (h : Only l s t) (hs : ∀ p, p ∈ l → p ∈ k) : Only k s t :=
  ⟨h.1, fun p hp => h.2 p fun z => hp (hs p z)⟩

/-- With no move in flight a hint stops none. -/

theorem pinStops_id (a : PageAt) {s : State} (h : s.tier.moves = []) : pinStops a s = s := by
  unfold pinStops
  split
  · rw [h]; rfl
  · rfl

theorem endNow_ext (n : Nat) (e : Entry) (a : Ans) (x : State) : (endNow n e a x).ext = x.ext :=
  (endEntry_touches (μ := partSet [.rng, .sch]) n e.idx _ 0 (by decide) (.refl _ _)).ext.resolve_left (by decide)

theorem grantees_bad (z g : Nat) (gs : List (Nat × Bool)) :
    (decide (z < 21) || decide (36 < z) || decide (10000 < g) || gs.isEmpty || gs.any fun g => g.1 == 0xFFFF) = true ↔ ¬ (21 ≤ z ∧ z ≤ 36 ∧ g ≤ 10000 ∧ gs ≠ [] ∧ ∀ g ∈ gs, g.1 ≠ 0xFFFF) := by
  simp only [Bool.or_eq_true, decide_eq_true_eq, or_assoc]
  rw [List.isEmpty_iff, List.any_eq_true]
  refine ⟨fun h k => ?_, fun h => Decidable.byContradiction fun k => h ?_⟩
  · rcases h with h | h | h | h | ⟨x, hx, h⟩
    · omega
    · omega
    · omega
    · exact k.2.2.2.1 h
    · exact k.2.2.2.2 x hx (beq_iff_eq.mp h)
  · refine ⟨Nat.not_lt.mp fun z => k (.inl z), Nat.not_lt.mp fun z => k (.inr (.inl z)), Nat.not_lt.mp fun z => k (.inr (.inr (.inl z))), fun z => k (.inr (.inr (.inr (.inl z)))), fun x hx z => ?_⟩
    exact k (.inr (.inr (.inr (.inr ⟨x, hx, beq_iff_eq.mpr z⟩))))

theorem memByte_clear (m : List Host.Cell) (a n x : Nat) (h1 : a ≤ x) (h2 : x < a + n) : memByte (memClear m a n) x = 0 := by
  induction m with
  | nil => rfl
  | cons c r ih =>
    unfold memClear at ih ⊢
    rw [List.filter_cons]
    split
    · next h =>
      obtain ⟨k, v⟩ := c
      unfold memByte
      rw [if_neg, ih]
      intro z
      have : k = x := beq_iff_eq.mp z
      subst this
      simp [h1, h2] at h
    · exact ih

theorem retireBlockF_errs (k : Nat) (s : State) : (retireBlockF k s).ftl.errs = s.ftl.errs := by
  unfold retireBlockF
  dsimp only
  split
  · rfl
  · split
    · rfl
    · split
      · rfl
      · split <;> rfl

theorem driveDiscards_id {s : State} (h : NoDiscard s) : driveDiscards s = s := by
  unfold driveDiscards
  refine forEach_id _ _ _ fun x hx => ?_
  have := h x hx
  split
  · next a b c d e f g i j hb => rw [hb] at this; exact this.elim
  · rfl

theorem mem_mset {α : Type} {m : AMap α} {k : Nat} {v : α} {x : Nat × α} (h : x ∈ mset m k v) : x = (k, v) ∨ x ∈ m := by
  induction m with
  | nil => exact .inl (by simpa [mset] using h)
  | cons y r ih =>
    obtain ⟨j, w⟩ := y
    unfold mset at h
    split at h
    · rcases List.mem_cons.mp h with e | e
      · exact .inl e
      · exact .inr e
    · split at h
      · rcases List.mem_cons.mp h with e | e
        · exact .inl e
        · exact .inr (List.mem_cons_of_mem _ e)
      · rcases List.mem_cons.mp h with e | e
        · exact .inr (by rw [e]; exact List.mem_cons_self)
        · rcases ih e with z | z
          · exact .inl z
          · exact .inr (List.mem_cons_of_mem _ z)

theorem mem_mdel_mset {α : Type} {m : AMap α} {k : Nat} {v : α} {x : Nat × α} (h : x ∈ mdel (mset m k v) k) : x ∈ m := by
  induction m with
  | nil => simp [mset, mdel] at h
  | cons y r ih =>
    obtain ⟨j, w⟩ := y
    unfold mset at h
    split at h
    · next c =>
      unfold mdel at h
      rw [if_pos (by simp)] at h
      exact h
    · split at h
      · unfold mdel at h
        rw [if_pos (by simp)] at h
        exact List.mem_cons_of_mem _ h
      · next c1 c2 =>
        unfold mdel at h
        rw [if_neg c2] at h
        rcases List.mem_cons.mp h with e | e
        · rw [e]; exact List.mem_cons_self
        · exact List.mem_cons_of_mem _ (ih e)

theorem mset_mset {α : Type} (m : AMap α) (k : Nat) (a b : α) : mset (mset m k a) k b = mset m k b := by
  induction m with
  | nil => simp [mset]
  | cons y r ih =>
    obtain ⟨j, w⟩ := y
    by_cases c1 : k < j
    · simp [mset, c1]
    · by_cases c2 : (j == k) = true
      · have : j = k := by simpa using c2
        subst this
        simp [mset]
      · have c2 : (j == k) = false := by simpa using c2
        simp only [mset, c1, c2, if_false, Bool.false_eq_true]
        rw [ih]

/-- Nothing of the table is a discard once the one there was has left it. -/

theorem NoDiscard.after {s t : State} (h : NoDiscard s) (k : Nat) (o : Op) (e : t.ops.tab = mdel (mset s.ops.tab k o) k) : NoDiscard t := by
  intro x hx
  rw [e] at hx
  exact h x (mem_mdel_mset hx)

/-- Where one discard alone is in progress and it waits, nothing is driven. -/

theorem driveDiscards_one {s t : State} (h : NoDiscard s) (k : Nat) (o : Op) (e : t.ops.tab = mset s.ops.tab k o) (hw : driveDiscard k t = t) : driveDiscards t = t := by
  unfold driveDiscards
  refine forEach_id _ _ _ fun x hx => ?_
  rw [e] at hx
  rcases mem_mset hx with z | z
  · rw [z]
    dsimp only
    split
    · exact hw
    · rfl
  · have := h x z
    split
    · next a b c d e f g i j hb => rw [hb] at this; exact this.elim
    · rfl

theorem NoDiscard.congr {s t : State} (h : NoDiscard s) (e : t.ops = s.ops) : NoDiscard t := by unfold NoDiscard; rw [e]; exact h

/-- A change that leaves every op of the table as it was leaves the state as it was. -/

theorem eraseTail_id {u : State} (h : NoDiscard u) (g : Nat × Op → Nat × Op) (hg : ∀ x ∈ u.ops.tab, g x = x) :
    driveDiscards (u.modOps fun x => { x with tab := x.tab.map g }) = u := by
  have m : u.ops.tab.map g = u.ops.tab := (List.map_congr_left (g := fun z => z) hg).trans (List.map_id' _)
  have e : (u.modOps fun x => { x with tab := x.tab.map g }) = u := by
    show { u with ops := { u.ops with tab := u.ops.tab.map g } } = u
    rw [m]
  rw [e]
  exact driveDiscards_id h

theorem offDiscard_id {u : State} (h : NoDiscard u) (k : Nat) : ∀ x ∈ u.ops.tab, offDiscard k x = x := by
  intro x hx
  have := h x hx
  unfold offDiscard
  split
  · next hb => rw [hb] at this; exact this.elim
  · rfl

/-- The Tally words can be written `n` more times, and no two share a physical word. -/

def Fresh (n : Nat) (s : State) : Prop :=
  (∀ w, (s.tly.physAt (s.tly.place w)).bad = false ∧ (s.tly.physAt (s.tly.place w)).count + n < 1000000) ∧ ∀ a b, s.tly.place a = s.tly.place b → a = b

theorem tlyWrite_fresh {n : Nat} {s : State} (h : Fresh (n + 1) s) (w : Nat) (v : BitVec 32) :
    Fresh n (tlyWrite w v s) ∧ ∀ x, (tlyWrite w v s).tly.word x = if x = w then v else s.tly.word x := by
  have hw := h.1 w
  have ns : s.tly.needsSpare w = false := by
    unfold Tally.needsSpare
    dsimp only
    rw [hw.1, Bool.false_or, decide_eq_false_iff_not]
    omega
  have e : (tlyWrite w v s).tly = { s.tly with copy := mset s.tly.copy w v, phys := mset s.tly.phys (s.tly.place w) { s.tly.physAt (s.tly.place w) with value := v, count := (s.tly.physAt (s.tly.place w)).count + 1 } } := by
    unfold tlyWrite when
    rw [ns]
    simp only [Bool.false_and, Bool.false_eq_true, if_false]
    unfold tlyWriteRaw
    dsimp only
    rw [hw.1, if_neg (by simp; omega)]
    unfold when
    split
    · rw [(emit_touches (μ := partSet [.bbx]) _ _ _ _ (by decide) (.refl _ _)).tly.resolve_left (by decide)]
      rfl
    · rfl
  have pl : ∀ x, (tlyWrite w v s).tly.place x = s.tly.place x := by intro x; rw [e]; rfl
  have pa : ∀ p, (tlyWrite w v s).tly.physAt p = if p = s.tly.place w then { s.tly.physAt (s.tly.place w) with value := v, count := (s.tly.physAt (s.tly.place w)).count + 1 } else s.tly.physAt p := by
    intro p
    rw [e]
    unfold Tally.physAt
    dsimp only
    by_cases c : p = s.tly.place w
    · rw [c, mgetD_mset, if_pos rfl]
    · rw [mgetD_mset_ne _ _ _ c, if_neg c]
  refine ⟨⟨fun x => ?_, fun a b hab => ?_⟩, fun x => ?_⟩
  · rw [pl, pa]
    split
    · dsimp only; exact ⟨hw.1, by omega⟩
    · have := h.1 x; exact ⟨this.1, by omega⟩
  · rw [pl, pl] at hab; exact h.2 a b hab
  · have g : (tlyWrite w v s).tly.word x = mgetD (mset s.tly.copy w v) x ((tlyWrite w v s).tly.physAt ((tlyWrite w v s).tly.place x)).value := by
      unfold Tally.word
      rw [e]
    rw [g]
    by_cases c : x = w
    · rw [c, mgetD_mset, if_pos rfl]
    · rw [mgetD_mset_ne _ _ _ c, if_neg c, pl, pa, if_neg fun z => c (h.2 _ _ z)]
      rfl

theorem endEntry_parts (n i : Nat) (a : Ans) (k : Nat) (s : State) : (endEntry n i a k s).sch.parts = s.sch.parts := by
  unfold endEntry
  split <;> rfl

theorem forEach_parts {st ring : Nat} : ∀ (l : List Nat) (s : State), s.ops.tab = [] →
    (forEach l (resetEntry st ring) s).sch.parts = s.sch.parts := by
  intro l
  induction l with
  | nil => exact fun _ _ => rfl
  | cons i l ih =>
    intro s h
    have e0 : forEach (i :: l) (resetEntry st ring) s = forEach l (resetEntry st ring) (endEntry ring i { status := st } 0 s) := by
      rw [← resetEntry_noOp st ring i h]; rfl
    rw [e0, ih _ (by rw [endEntry_ops]; exact h), endEntry_parts]

/-- Resetting rings that hold no op in progress: every entry accepted on one ends with the status. -/

theorem resetRings_noOp {st : Nat} (hst : st ≠ stOk) : ∀ (l : List Nat) (u : State), u.ops.tab = [] → RingsOk u.rng → ∀ n,
    (n ∈ l → (ringOf (forEach l (resetRing st) u) n).entries = []) ∧
    (n ∉ l → ringOf (forEach l (resetRing st) u) n = ringOf u n) ∧
    ((ringOf u n).entries = [] → (ringOf (forEach l (resetRing st) u) n).entries = []) ∧
    (n ∈ l → (ringOf (forEach l (resetRing st) u) n).ready = (ringOf u n).ready ++ (ringOf u n).entries.map (fun e => cplOf u e { status := st })) ∧
    (forEach l (resetRing st) u).sch.parts = u.sch.parts ∧ Touches (partSet [.rng, .io, .sch]) u (forEach l (resetRing st) u) := by
  have step : ∀ (r : Nat) (u : State), u.ops.tab = [] → RingsOk u.rng →
      (ringOf (resetRing st r u) r).entries = [] ∧
      (ringOf (resetRing st r u) r).ready = (ringOf u r).ready ++ (ringOf u r).entries.map (fun e => cplOf u e { status := st }) ∧
      (∀ n, n ≠ r → ringOf (resetRing st r u) n = ringOf u n) ∧ (resetRing st r u).ops.tab = [] ∧ RingsOk (resetRing st r u).rng ∧
      (resetRing st r u).clk = u.clk ∧ (resetRing st r u).sch.parts = u.sch.parts ∧ Touches (partSet [.rng, .io, .sch]) u (resetRing st r u) := by
    intro r u hu hok
    obtain ⟨a, b, c, d⟩ := forEach_reset (st := st) (ring := r) hst (ringOf u r).entries (dropOperandReads r u) hu (hok.get r) rfl
    exact ⟨a, b, c, (congrArg Ops.tab (d.ops.resolve_left (by decide))).trans hu, d.rings hok, d.clk.resolve_left (by decide),
      forEach_parts _ _ hu, Touches.next (by decide) (dropOperandReads_touches r (by decide) (.refl _ u)) d⟩
  intro l
  induction l with
  | nil => exact fun u _ _ n => ⟨(fun h => (nomatch h)), fun _ => rfl, id, (fun h => (nomatch h)), rfl, .refl _ _⟩
  | cons r l ih =>
    intro u hu hok n
    obtain ⟨a, b, c, d, e, f, p, g⟩ := step r u hu hok
    have e0 : forEach (r :: l) (resetRing st) u = forEach l (resetRing st) (resetRing st r u) := rfl
    rw [e0]
    have cplEq : ∀ x, cplOf (resetRing st r u) x { status := st } = cplOf u x { status := st } := by
      intro x; exact cplOf_congr f _ _
    generalize hV : resetRing st r u = V at *
    obtain ⟨i1, i2, i3, i4, ip, i5⟩ := ih V d e n
    have i6 := Touches.next (by decide) g i5
    by_cases hn : n = r
    · subst hn
      refine ⟨fun _ => i3 a, fun h => absurd List.mem_cons_self h, fun _ => i3 a, fun _ => ?_, ip.trans p, i6⟩
      by_cases hl : n ∈ l
      · rw [i4 hl, a, b]; simp
      · rw [i2 hl, b]
    · have hV' := c n hn
      refine ⟨fun h => i1 ((List.mem_cons.mp h).resolve_left hn), fun h => (i2 fun x => h (List.mem_cons_of_mem _ x)).trans hV', fun h => i3 (by rw [hV']; exact h), fun h => ?_, ip.trans p, i6⟩
      rw [i4 ((List.mem_cons.mp h).resolve_left hn), hV']
      simp only [cplEq]

theorem resetPartition_busy {p : Nat} {s : State} (h : (partOf s p).reset ≠ .none) (c k : Nat) : resetPartition p c k s = s := by
  unfold resetPartition
  rw [if_pos (by simpa using h)]

theorem resetPartition_begins {p : Nat} {s : State} (h : (partOf s p).reset = .none) (ht : s.ops.tab = []) (ok : RingsOk s.rng) (c k : Nat) :
    (resetPartition p c k s).bbx = s.bbx.arrive (eventAt 9 p evPartReset [c, k] s) ∧
    partOf (resetPartition p c k s) p = { partOf s p with reset := .clearing, switch := .none, outgoing := (partOf s p).slice.or (partOf s p).outgoing, slice := none, incoming := none, expired := false, scrubbing := true, slots := List.replicate 4 none } ∧
    (∀ n ∈ ringsOf s p, (ringOf (resetPartition p c k s) n).entries = [] ∧
      (ringOf (resetPartition p c k s) n).ready = (ringOf s n).ready ++ (ringOf s n).entries.map fun e => cplOf s e { status := stPartReset }) ∧
    (resetPartition p c k s).spare = s.spare := by
  unfold resetPartition
  rw [if_neg (by simpa using h)]
  dsimp only
  generalize hu' : modPart p _ (emit 9 p evPartReset [c, k] s) = u
  have hu := hu'.symm
  have eu : ringsOf u p = ringsOf s p := by
    rw [hu]; rfl
  obtain ⟨v, hv⟩ : ∃ v, v = forEach (ringsOf u p) (resetRing stPartReset) u := ⟨_, rfl⟩
  have R := resetRings_noOp (st := stPartReset) (by decide) (ringsOf u p) u (by rw [hu]; exact ht) (by rw [hu]; exact ok)
  rw [← hv] at R
  have T := (R 0).2.2.2.2.2
  have vt : v.ops.tab = [] := by rw [T.ops.resolve_left (by decide), hu]; exact ht
  have A := abandonMoves_touches (μ := partSet [.hbm, .seqs, .cdc, .tier, .wt, .ftl]) p (by decide)
    (abandonEncodes_touches (μ := partSet [.hbm, .seqs, .cdc, .tier, .wt, .ftl]) p (by decide) (.refl _ v))
  have cl : settleClose (abandonMoves p (abandonEncodes p v)) = abandonMoves p (abandonEncodes p v) :=
    settleClose_id (by intro x hx; rw [A.ops.resolve_left (by decide), vt] at hx; cases hx)
  rw [← hv, cl]
  have ws := A.sch.resolve_left (by decide)
  refine ⟨?_, ?_, fun n hn => ?_, ?_⟩
  · show (abandonMoves p (abandonEncodes p v)).bbx = _
    rw [A.bbx.resolve_left (by decide), T.bbx.resolve_left (by decide), hu]
    rfl
  · rw [partOf_modPart, partOf_sch ws]
    have : partOf v p = partOf u p := by unfold partOf; rw [(R 0).2.2.2.2.1]
    rw [this, hu, partOf_modPart]
    show _ = { partOf s p with reset := .clearing, switch := .none, outgoing := (partOf s p).slice.or (partOf s p).outgoing, slice := none, incoming := none, expired := false, scrubbing := true, slots := List.replicate 4 none }
    have : partOf (emit 9 p evPartReset [c, k] s) p = partOf s p := rfl
    rw [this]
    cases (partOf s p).slice <;> rfl
  · have rg : ∀ n, ringOf (modPart p (fun x => { x with slots := List.replicate 4 none }) (abandonMoves p (abandonEncodes p v))) n = ringOf v n := by
      intro n
      show ringOf (abandonMoves p (abandonEncodes p v)) n = _
      unfold ringOf
      rw [A.rng.resolve_left (by decide)]
    rw [rg]
    obtain ⟨r1, _, _, r4, _⟩ := R n
    refine ⟨r1 (by rw [eu]; exact hn), ?_⟩
    rw [r4 (by rw [eu]; exact hn), hu]
    rfl
  · show (abandonMoves p (abandonEncodes p v)).spare = _
    rw [A.spare.resolve_left (by decide), T.spare.resolve_left (by decide), hu]
    rfl

theorem clusterFault_at {c p : Nat} {u : State} (h : partOfCluster u c = some p) (k : Nat) : clusterFault c k u = resetPartition p k c u := by
  unfold clusterFault
  rw [h]

theorem mdel_none {α : Type} {m : AMap α} {k : Nat} (h : mget m k = none) : mdel m k = m := by
  induction m with
  | nil => rfl
  | cons x m ih =>
    unfold mget at h
    unfold mdel
    split at h
    · cases h
    · next c => rw [if_neg c, ih h]

theorem spareNat_set {w : Nat} (v : Nat) {s : State} (h : mget s.spare.unwritten w = none) : spareNat (spareSet w v s) w = v := by
  unfold spareSet
  split
  · next c => simpa using c
  · dsimp only
    have e : (spareWrite w v s).spare = s.spare := (spareWrite_touches (μ := partSet [.tly, .bbx]) w v (by decide) (.refl _ s)).spare.resolve_left (by decide)
    show mgetD (if (tlyNat (spareWrite w v s) w == v) = true then mdel (spareWrite w v s).spare.unwritten w else mset (spareWrite w v s).spare.unwritten w v) w (tlyNat (spareWrite w v s) w) = v
    rw [e]
    split
    · next c => rw [mdel_none h]; unfold mgetD; rw [h]; simpa using c
    · exact (congrArg (Option.getD · _) (mget_mset _ _ _))

theorem replaceRows_none {p : Nat} {s : State} (h : s.spare.hamperDue = []) : ∃ u, replaceRows p s = u ∧ u.spare = s.spare ∧ u.tly = s.tly ∧ u.sch = s.sch := by
  refine ⟨_, rfl, ?_⟩
  unfold replaceRows
  rw [h]
  refine ⟨?_, rfl, rfl⟩
  show (s.modSpare fun x => { x with hamperDue := x.hamperDue.filter fun y => !([] : List (Nat × Nat)).contains y }).spare = _
  unfold State.modSpare
  dsimp only
  rw [h]
  cases hs : s.spare
  rw [hs] at h
  cases h
  rfl

theorem bumps_gen : ∀ (l : List Nat), l.Nodup → ∀ s : State, (∀ c ∈ l, c < s.spare.genCl.length → nth (forEach l bumpCluster s).spare.genCl c 0 = nth s.spare.genCl c 0 + 1) ∧
    (∀ c, c ∉ l → nth (forEach l bumpCluster s).spare.genCl c 0 = nth s.spare.genCl c 0) := by
  intro l
  induction l with
  | nil => exact fun _ s => ⟨(fun _ h => nomatch h), fun _ _ => rfl⟩
  | cons x l ih =>
    intro h s
    obtain ⟨hx, hl⟩ := List.nodup_cons.mp h
    obtain ⟨a, b⟩ := ih hl (bumpCluster x s)
    have e0 : forEach (x :: l) bumpCluster s = forEach l bumpCluster (bumpCluster x s) := rfl
    rw [e0]
    have g : (bumpCluster x s).spare.genCl = lput s.spare.genCl x (nth s.spare.genCl x 0 + 1) := rfl
    refine ⟨fun c hc hn => ?_, fun c hc => ?_⟩
    · by_cases e : c = x
      · subst e
        rw [b c hx, g, nth_lput _ _ _ _ hn]
      · have hc' := (List.mem_cons.mp hc).resolve_left e
        rw [a c hc' (by rw [g]; unfold lput; rw [length_lmod]; exact hn), g, nth_lput_ne _ _ _ e]
    · have e : c ≠ x := fun z => hc (by rw [z]; exact List.mem_cons_self)
      rw [b c fun z => hc (List.mem_cons_of_mem _ z), g, nth_lput_ne _ _ _ e]

theorem bumps_keep (l : List Nat) (s : State) : (forEach l bumpCluster s).spare.unwritten = s.spare.unwritten ∧ (forEach l bumpCluster s).tly = s.tly ∧
    (forEach l bumpCluster s).sch = s.sch := by
  refine forEach_mem_inv (fun u => u.spare.unwritten = s.spare.unwritten ∧ u.tly = s.tly ∧ u.sch = s.sch) (fun x _ u h => ?_) s ⟨rfl, rfl, rfl⟩
  exact h

theorem spareSet_gen (a b : Nat) (u : State) : (spareSet a b u).spare.genCl = u.spare.genCl := by
  unfold spareSet
  split
  · rfl
  · show (spareWrite a b u).spare.genCl = _
    rw [(spareWrite_touches (μ := partSet [.tly, .bbx]) a b (by decide) (.refl _ u)).spare.resolve_left (by decide)]

theorem spareSet_sch (a b : Nat) (u : State) : (spareSet a b u).sch = u.sch :=
  (spareSet_touches (μ := partSet [.tly, .bbx, .spare]) a b (by decide) (.refl _ u)).sch.resolve_left (by decide)

theorem withdraw_keeps (c w : Nat) (s : State) : (withdraw c w s).spare.genCl = s.spare.genCl ∧ (withdraw c w s).sch.parts = s.sch.parts :=
  ⟨spareSet_gen _ _ _, (congrArg Sch.parts (spareSet_sch (clWord c) (setBit w 16) s) : _)⟩

/-- Retiring a core changes no generation and no partition's run-time state. -/

theorem retireCore_keeps (c w : Nat) (s : State) : (retireCore c w s).spare.genCl = s.spare.genCl ∧ (retireCore c w s).sch.parts = s.sch.parts := by
  unfold retireCore
  dsimp only
  repeat' split
  all_goals first | exact ⟨rfl, rfl⟩ | exact withdraw_keeps _ _ _ | exact ⟨spareSet_gen _ _ _, congrArg Sch.parts (spareSet_sch _ _ _)⟩

theorem replaceRow_keeps (c r : Nat) (s : State) : (replaceRow c r s).2.spare.genCl = s.spare.genCl ∧ (replaceRow c r s).2.sch.parts = s.sch.parts := by
  unfold replaceRow
  dsimp only
  split
  · exact ⟨rfl, rfl⟩
  · exact ⟨spareSet_gen _ _ _, congrArg Sch.parts (spareSet_sch _ _ _)⟩

theorem replaceRows_keeps (p : Nat) (s : State) : (replaceRows p s).spare.genCl = s.spare.genCl ∧ (replaceRows p s).sch.parts = s.sch.parts := by
  unfold replaceRows
  dsimp only
  refine forEach_mem_inv (fun u => u.spare.genCl = s.spare.genCl ∧ u.sch.parts = s.sch.parts) (fun x _ u h => ?_) _ ⟨rfl, rfl⟩
  split
  · exact h
  · have k := replaceRow_keeps x.1 x.2 u
    cases hr : replaceRow x.1 x.2 u with
    | mk ok v =>
      rw [hr] at k
      dsimp only at k ⊢
      split
      · exact ⟨k.1.trans h.1, k.2.trans h.2⟩
      · have w := withdraw_keeps x.1 (spareNat v (clWord x.1)) v
        exact ⟨(w.1.trans k.1).trans h.1, (w.2.trans k.2).trans h.2⟩

theorem flitize_length (a b c : Nat) (d : Bool) (h : Nat) (k : List Byte) (m : OutMsg) :
    (flitize a b c d h k m).length = (chunks (if m.key = 0 then 240 else 224) 64 (msgHeader m.addr m.tag m.status m.flags ++ m.body)).length := by
  unfold flitize
  simp only [List.length_map, List.length_range]
  by_cases e : m.key = 0
  · rw [if_pos (by simpa using e), if_pos e]
  · rw [if_neg (by simpa using e), if_neg e]

theorem kmRun_at {s : State} {session code : Nat} {r : KmReq} {rest : List KmReq} (h : s.sec.km = r :: rest) (hs : r.session = session) (hc : r.code = code)
    (f : KmReq → State → State) : kmRun session code f s = f r (s.modSec fun x => { x with km := rest }) := by
  unfold kmRun
  rw [h]
  dsimp only
  rw [if_pos (by simp [hs, hc])]

theorem keyFree_iff {s : State} {k : Nat} : keyFree s k = true ↔ 1 ≤ k ∧ k ≤ 0x7FFFFFFF ∧ mhas s.sec.keys k = false := by
  unfold keyFree
  simp [and_assoc]

theorem foldl_mmod_keeps {α : Type} {P : α → Prop} {f : α → α} (hf : ∀ x, P (f x)) (j : Nat) : ∀ (l : List Nat) (m : AMap α),
    (∃ y, mget m j = some y) → (j ∈ l ∨ ∃ y, mget m j = some y ∧ P y) → ∃ y, mget (l.foldl (fun m k => mmod m k f) m) j = some y ∧ P y := by
  intro l
  induction l with
  | nil => exact fun m _ h => h.resolve_left (fun h => nomatch h)
  | cons k l ih =>
    intro m he h
    obtain ⟨y, hy⟩ := he
    by_cases e : j = k
    · subst e
      exact ih _ ⟨f y, by rw [mget_mmod, hy]; rfl⟩ (.inr ⟨f y, by rw [mget_mmod, hy]; rfl, hf y⟩)
    · refine ih _ ⟨y, by rw [mget_mmod_ne _ _ e]; exact hy⟩ ?_
      rcases h with h | ⟨z, hz, pz⟩
      · exact .inl ((List.mem_cons.mp h).resolve_left e)
      · exact .inr ⟨z, by rw [mget_mmod_ne _ _ e]; exact hz, pz⟩

theorem mget_some_mem {α : Type} {m : AMap α} {k : Nat} {v : α} (h : (k, v) ∈ m) : ∃ y, mget m k = some y := by
  induction m with
  | nil => cases h
  | cons x m ih =>
    unfold mget
    split
    · exact ⟨_, rfl⟩
    · next c =>
      rcases List.mem_cons.mp h with e | e
      · subst e; simp at c
      · exact ih e

theorem mem_mset_stays {α : Type} {m : AMap α} {k j : Nat} {x v : α} (h : (k, x) ∈ m) : ((k, x) ∈ mset m j v) ∨ (k = j ∧ mget m j = some x ∧ (k, v) ∈ mset m j v) := by
  induction m with
  | nil => cases h
  | cons y m ih =>
    obtain ⟨a, w⟩ := y
    unfold mset mget
    split
    · exact .inl (List.mem_cons_of_mem _ h)
    · split
      · next c =>
        rcases List.mem_cons.mp h with e | e
        · cases e
          simp only [beq_iff_eq] at c
          exact .inr ⟨c, rfl, by rw [c]; exact List.mem_cons_self⟩
        · exact .inl (List.mem_cons_of_mem _ e)
      · rcases List.mem_cons.mp h with e | e
        · rw [e]; exact .inl List.mem_cons_self
        · rcases ih e with g | ⟨g1, g2, g3⟩
          · exact .inl (List.mem_cons_of_mem _ g)
          · exact .inr ⟨g1, g2, List.mem_cons_of_mem _ g3⟩

/-- A key stays listed when a table is updated, with its value or with the update of it. -/

theorem mem_mmod_stays {α : Type} {m : AMap α} {k j : Nat} {x : α} {f : α → α} (h : (k, x) ∈ m) : ((k, x) ∈ mmod m j f) ∨ ((k, f x) ∈ mmod m j f) := by
  unfold mmod
  cases e : mget m j with
  | none => exact .inl h
  | some v =>
    rcases mem_mset_stays (j := j) (v := f v) h with g | ⟨_, g2, g3⟩
    · exact .inl g
    · rw [e] at g2; cases g2; exact .inr g3

theorem removalRings_modRing {s : State} {r : Removal} {n : Nat} (j : Nat) (f : Ring → Ring) (hf : ∀ x, (f x).context = x.context ∧ (f x).key = x.key)
    (h : n ∈ removalRings s r) : n ∈ removalRings (modRing j f s) r := by
  unfold removalRings at h ⊢
  obtain ⟨⟨k, x⟩, hx, rfl⟩ := List.mem_map.mp h
  obtain ⟨h1, h2⟩ := List.mem_filter.mp hx
  refine List.mem_map.mpr ?_
  rcases mem_mmod_stays (j := j) (f := f) h1 with g | g
  · exact ⟨(k, x), List.mem_filter.mpr ⟨g, h2⟩, rfl⟩
  · refine ⟨(k, f x), List.mem_filter.mpr ⟨g, ?_⟩, rfl⟩
    dsimp only
    rw [(hf x).1, (hf x).2]
    exact h2

theorem removalRings_stop {s : State} {r : Removal} {n : Nat} (l : List Nat) (h : n ∈ removalRings s r) : n ∈ removalRings (forEach l stopRing s) r := by
  refine forEach_mem_inv (fun u => n ∈ removalRings u r) (fun j _ u hu => ?_) s h
  unfold stopRing
  exact removalRings_modRing (s := u) j (fun r => { r with enable := false, drain := false, charged := 0 }) (fun _ => ⟨rfl, rfl⟩) hu

theorem ringOf_modRing_at {s : State} {n : Nat} {r : Removal} (h : n ∈ removalRings s r) (f : Ring → Ring) : ringOf (modRing n f s) n = f (ringOf s n) := by
  unfold removalRings at h
  obtain ⟨⟨k, x⟩, hx, rfl⟩ := List.mem_map.mp h
  obtain ⟨y, hy⟩ := mget_some_mem (List.mem_filter.mp hx).1
  exact (ringOf_modRing f hy).trans (by unfold ringOf mgetD; rw [hy]; rfl)

theorem forEach_hits {α : Type} (Q P : State → Prop) (f : α → State → State) {n : α} (hq : ∀ x u, Q u → Q (f x u)) (hp : ∀ x u, Q u → P u → P (f x u))
    (hit : ∀ u, Q u → P (f n u)) : ∀ (l : List α), n ∈ l → ∀ s, Q s → P (forEach l f s) := by
  have keep : ∀ (l : List α) (s : State), Q s → P s → P (forEach l f s) := by
    intro l
    induction l with
    | nil => exact fun _ _ h => h
    | cons x l ih => exact fun s q p => ih (f x s) (hq _ _ q) (hp _ _ q p)
  intro l
  induction l with
  | nil => exact fun h => nomatch h
  | cons x l ih =>
    intro h s q
    rcases List.mem_cons.mp h with e | e
    · rw [← e]
      exact keep l (f n s) (hq _ _ q) (hit _ q)
    · exact ih e (f x s) (hq _ _ q)

theorem abortAll (k : Nat) : ∀ (l : List Nat) (u : State), u.ops.tab = [] → forEach l (abortOne k) u = forEach l (abortEntry k) u := by
  intro l
  induction l with
  | nil => exact fun _ _ => rfl
  | cons i l ih =>
    intro u h
    have e : abortOne k i u = abortEntry k i u := by simp [abortOne, opFor, h]
    show forEach l (abortOne k) (abortOne k i u) = forEach l (abortEntry k) (abortEntry k i u)
    rw [e]
    exact ih _ h

theorem aborted_ring {n : Nat} {r : Removal} : ∀ (l : List Nat) (u : State), n ∈ removalRings u r →
    ringOf (forEach l (abortEntry n) u) n = { ringOf u n with entries := (ringOf u n).entries.filter fun x => !l.contains x.idx } := by
  intro l
  induction l with
  | nil =>
    intro u _
    exact congrArg (fun l => { ringOf u n with entries := l }) (List.filter_eq_self.mpr (fun _ _ => rfl)).symm
  | cons i l ih =>
    intro u h
    have m : n ∈ removalRings (abortEntry n i u) r := removalRings_modRing n _ (fun _ => ⟨rfl, rfl⟩) h
    show ringOf (forEach l (abortEntry n) (abortEntry n i u)) n = _
    rw [ih _ m]
    unfold abortEntry
    rw [ringOf_modRing_at h]
    dsimp only
    rw [List.filter_filter]
    congr 1
    refine List.filter_congr fun x _ => ?_
    simp only [List.contains_cons, Bool.not_or, bne]
    rw [Bool.and_comm]

theorem abortEntries_touches (k : Nat) (l : List Nat) (u : State) : Touches (partSet [.rng]) u (forEach l (abortEntry k) u) :=
  forEach_mem_inv (fun v => Touches (partSet [.rng]) u v) (fun _ _ v h => abortEntry_touches _ _ (by decide) h) u (.refl _ u)

/-- A ring of a removal loses its entries and its completions. -/

def cutRing (k : Nat) (s : State) : State :=
  modRing k (fun r => { r with ready := [] }) (forEach ((ringOf s k).entries.map (·.idx)) (abortOne k) (dropOperandReads k s))

theorem cutRing_touches {k : Nat} {u : State} (h : u.ops.tab = []) : Touches (partSet [.rng, .io]) u (cutRing k u) := by
  unfold cutRing
  rw [abortAll _ _ _ (show (dropOperandReads k u).ops.tab = [] from h)]
  exact modRing_touches k (fun r => { r with ready := [] }) (fun _ h => h) (by decide)
    (Touches.next (by decide) (dropOperandReads_touches k (by decide) (.refl _ u)) (abortEntries_touches _ _ _))

theorem cutRing_spec {n k : Nat} {r : Removal} {u : State} (ht : u.ops.tab = []) (h : n ∈ removalRings u r) :
    (cutRing k u).ops.tab = [] ∧ n ∈ removalRings (cutRing k u) r ∧ (ringOf (cutRing k u) n).enable = (ringOf u n).enable ∧
    Touches (partSet [.rng, .io]) u (cutRing k u) ∧
    (k ≠ n → ringOf (cutRing k u) n = ringOf u n) ∧ (k = n → (ringOf (cutRing k u) n).entries = [] ∧ (ringOf (cutRing k u) n).ready = []) := by
  have e0 : cutRing k u = modRing k (fun r => { r with ready := [] }) (forEach ((ringOf u k).entries.map (·.idx)) (abortEntry k) (dropOperandReads k u)) := by
    unfold cutRing
    rw [abortAll _ _ _ (show (dropOperandReads k u).ops.tab = [] from ht)]
  have T : Touches (partSet [.rng, .io]) u (cutRing k u) := cutRing_touches ht
  have m1 : n ∈ removalRings (forEach ((ringOf u k).entries.map (·.idx)) (abortEntry k) (dropOperandReads k u)) r :=
    forEach_mem_inv (fun v => n ∈ removalRings v r) (fun i _ v hv => removalRings_modRing (s := v) k (fun r => { r with entries := r.entries.filter fun x => x.idx != i }) (fun _ => ⟨rfl, rfl⟩) hv) _ h
  have m2 : n ∈ removalRings (cutRing k u) r := by
    rw [e0]
    exact removalRings_modRing _ _ (fun _ => ⟨rfl, rfl⟩) m1
  have ne : k ≠ n → ringOf (cutRing k u) n = ringOf u n := by
    intro c
    rw [e0, ringOf_modRing_ne _ (Ne.symm c)]
    exact forEach_mem_inv (fun v => ringOf v n = ringOf u n) (fun i _ v hv => (ringOf_modRing_ne _ (Ne.symm c)).trans hv) _ rfl
  have eq : k = n → ringOf (cutRing k u) n = { ringOf u n with entries := [], ready := [] } := by
    rintro rfl
    rw [e0, ringOf_modRing_at m1, aborted_ring (r := r) _ _ (show k ∈ removalRings (dropOperandReads k u) r from h)]
    have : (ringOf (dropOperandReads k u) k) = ringOf u k := rfl
    rw [this]
    have f : ((ringOf u k).entries.filter fun x => !((ringOf u k).entries.map (·.idx)).contains x.idx) = [] := by
      refine List.filter_eq_nil_iff.mpr fun x hx => ?_
      simp only [Bool.not_eq_true', Bool.not_eq_false, List.contains_iff_mem]
      exact List.mem_map.mpr ⟨x, hx, rfl⟩
    rw [f]
  refine ⟨by rw [T.ops.resolve_left (by decide)]; exact ht, m2, ?_, T, ne, fun c => by rw [eq c]; exact ⟨rfl, rfl⟩⟩
  by_cases c : k = n
  · rw [eq c]
  · rw [ne c]

theorem removalWaits_sch {s t : State} (h : t.sch = s.sch) (r : Removal) : removalWaits t r = removalWaits s r := by
  unfold removalWaits tenantParts partOf
  rw [h]

/-- A removal begins with no op in progress. -/

theorem beginRemoval_spec {s : State} (r : Removal) (ht : s.ops.tab = []) :
    (∀ j ∈ r.keys, (∃ y, mget s.sec.keys j = some y) → ∃ y, mget (beginRemoval r s).sec.keys j = some y ∧ y.dying = true) ∧
    (∀ n ∈ removalRings s r, (ringOf (beginRemoval r s) n).enable = false) ∧
    (removalWaits s r = false → (∃ x ∈ (beginRemoval r s).sec.removals, x.session = r.session ∧ x.seq = r.seq ∧ x.keys = r.keys ∧ x.stage = 1) ∧
      ∀ n ∈ removalRings s r, (ringOf (beginRemoval r s) n).entries = [] ∧ (ringOf (beginRemoval r s) n).ready = []) := by
  obtain ⟨a, ha⟩ : ∃ a, a = killKeys r.keys (s.modSec fun x => { x with removals := x.removals ++ [r] }) := ⟨_, rfl⟩
  obtain ⟨b, hb⟩ : ∃ b, b = forEach (removalRings a r) stopRing a := ⟨_, rfl⟩
  have e0 : beginRemoval r s = if removalWaits b r then b else removalStep2 r b := by unfold beginRemoval; rw [hb, ha]
  have ra : removalRings a r = removalRings s r := by rw [ha]; rfl
  have Tb : Touches (partSet [.hbm, .rng]) a b := by
    rw [hb]
    exact forEach_mem_inv (fun v => Touches (partSet [.hbm, .rng]) a v) (fun _ _ v h => stopRing_touches _ (by decide) h) a (.refl _ a)
  have wb : removalWaits b r = removalWaits s r := removalWaits_sch ((Tb.sch.resolve_left (by decide)).trans (by rw [ha]; rfl)) r
  have mb : ∀ n ∈ removalRings s r, n ∈ removalRings b r := fun n hn => by rw [hb]; exact removalRings_stop _ (by rw [ra]; exact hn)
  have eb : ∀ n ∈ removalRings s r, (ringOf b n).enable = false := by
    intro n hn
    rw [hb]
    refine forEach_hits (fun u => n ∈ removalRings u r) (fun u => (ringOf u n).enable = false) stopRing (n := n) (fun x u h => removalRings_stop [x] h) (fun x u q p => ?_) (fun u q => ?_) _
      (by rw [ra]; exact hn) a (by rw [ra]; exact hn)
    · by_cases c : n = x
      · subst c
        show (ringOf (modRing n _ u) n).enable = false
        rw [ringOf_modRing_at q]
      · show (ringOf (modRing x _ u) n).enable = false
        rw [ringOf_modRing_ne _ c]; exact p
    · show (ringOf (modRing n _ u) n).enable = false
      rw [ringOf_modRing_at q]
  have tb : b.ops.tab = [] := by rw [Tb.ops.resolve_left (by decide), ha]; exact ht
  have kb : b.sec = a.sec := Tb.sec.resolve_left (by decide)
  have ka : ∀ j ∈ r.keys, (∃ y, mget s.sec.keys j = some y) → ∃ y, mget a.sec.keys j = some y ∧ y.dying = true := by
    intro j hj he
    rw [ha]
    exact foldl_mmod_keeps (P := fun y => y.dying = true) (f := fun y : JobKey => { y with dying := true }) (fun _ => rfl) j _ _ he (.inl hj)
  by_cases w : removalWaits s r = true
  · rw [e0, if_pos (wb.trans w)]
    exact ⟨by rw [kb]; exact ka, eb, fun g => absurd w (by rw [g]; decide)⟩
  · rw [e0, if_neg (by rw [wb]; exact w)]
    obtain ⟨c, hc⟩ : ∃ c, c = forEach (removalRings b r) cutRing b := ⟨_, rfl⟩
    have Tc : Touches (partSet [.rng, .io]) b c ∧ c.ops.tab = [] := by
      rw [hc]
      have step : ∀ (l : List Nat) (u : State), u.ops.tab = [] → Touches (partSet [.rng, .io]) u (forEach l cutRing u) ∧ (forEach l cutRing u).ops.tab = [] := by
        intro l
        induction l with
        | nil => exact fun u h => ⟨.refl _ u, h⟩
        | cons k l ih =>
          intro u h
          have T : Touches (partSet [.rng, .io]) u (cutRing k u) := cutRing_touches h
          obtain ⟨i, j⟩ := ih (cutRing k u) (by rw [T.ops.resolve_left (by decide)]; exact h)
          exact ⟨Touches.next (by decide) T i, j⟩
      exact step _ _ tb
    have rc : ∀ n ∈ removalRings s r, ((ringOf c n).entries = [] ∧ (ringOf c n).ready = []) ∧ (ringOf c n).enable = false := by
      intro n hn
      rw [hc]
      refine ⟨forEach_hits (fun u => u.ops.tab = [] ∧ n ∈ removalRings u r) (fun u => (ringOf u n).entries = [] ∧ (ringOf u n).ready = []) cutRing (n := n)
        (fun x u h => ?_) (fun x u q p => ?_) (fun u q => ?_) _ (mb n hn) b ⟨tb, mb n hn⟩, ?_⟩
      · have g := cutRing_spec (k := x) h.1 h.2
        exact ⟨g.1, g.2.1⟩
      · have g := cutRing_spec (k := x) q.1 q.2
        by_cases e : x = n
        · exact g.2.2.2.2.2 e
        · rw [g.2.2.2.2.1 e]; exact p
      · exact (cutRing_spec (k := n) q.1 q.2).2.2.2.2.2 rfl
      · refine (forEach_mem_inv (fun u => u.ops.tab = [] ∧ n ∈ removalRings u r ∧ (ringOf u n).enable = false) (fun x _ u h => ?_) b ⟨tb, mb n hn, eb n hn⟩).2.2
        have g := cutRing_spec (k := x) h.1 h.2.1
        exact ⟨g.1, g.2.1, g.2.2.1.trans h.2.2⟩
    obtain ⟨d, hd⟩ : ∃ d, d = match r.tenant with
      | some t => forEach (tenantParts c.draw t) (dropTenantSlice t) c.draw
      | none => c.draw := ⟨_, rfl⟩
    have Td : Touches (partSet [.free, .sch]) c d := by
      rw [hd]
      have h0 : Touches (partSet [.free, .sch]) c c.draw := Touches.draw (by decide) (.refl _ c)
      split
      · exact forEach_mem_inv (fun v => Touches (partSet [.free, .sch]) c v) (fun _ _ v h => dropTenantSlice_touches _ _ (by decide) h) _ h0
      · exact h0
    have e1 : ∃ (f : Sec → Sec), (∀ x, (f x).keys = x.keys) ∧ (∀ x, r ∈ x.removals → ∃ y ∈ (f x).removals, y.session = r.session ∧ y.seq = r.seq ∧ y.keys = r.keys ∧ y.stage = 1) ∧
        removalStep2 r b = settleClose (d.modSec f) := by
      unfold removalStep2
      dsimp only
      have ec : (forEach (removalRings b r) (fun k s => modRing k (fun r => { r with ready := [] }) (forEach ((ringOf s k).entries.map (·.idx)) (abortOne k) (dropOperandReads k s))) b) = c := hc.symm
      rw [ec]
      show ∃ f : Sec → Sec, _ ∧ _ ∧ settleClose (putRemoval _ (State.modSec _ _)) = _
      obtain ⟨z, hz⟩ : ∃ z : Removal, z = { r with
        stage := 1, aborted := sum ((removalRings b r).map fun k => (ringOf b k).entries.length) + (fresh 16 c).1.toNat
        units := count (fun (u : Nat × WUnit) => (match mget b.ops.tab u.2.op with
            | some o => (removalRings b r).contains o.ring
            | none => false) && (match u.2.st with
            | .running _ _ _ _ => true
            | _ => false)) b.attn.units
        scrubs := (r.tenant.map (heldParts b)).getD [] } := ⟨_, rfl⟩
      refine ⟨fun x => { x with
          aborts := sat32 (x.aborts + sum ((removalRings b r).map fun k => (ringOf b k).entries.length) + (fresh 16 c).1.toNat)
          removals := x.removals.map fun y => if y.session == r.session && y.seq == r.seq then z else y }, fun _ => rfl, fun x hx => ⟨z, List.mem_map.mpr ⟨r, hx, if_pos (by simp)⟩, by rw [hz], by rw [hz], by rw [hz], by rw [hz]⟩, ?_⟩
      rw [hd, hz]
      rfl
    obtain ⟨f, f1, f2, e1⟩ := e1
    have cl : settleClose (d.modSec f) = d.modSec f := settleClose_id (by intro x hx; rw [show (d.modSec f).ops = d.ops from rfl, Td.ops.resolve_left (by decide), Tc.2] at hx; cases hx)
    rw [e1, cl]
    have ds : d.sec = a.sec := (Td.sec.resolve_left (by decide)).trans ((Tc.1.sec.resolve_left (by decide)).trans kb)
    have rg : ∀ n, ringOf (d.modSec f) n = ringOf c n := by
      intro n
      show ringOf d n = _
      unfold ringOf
      rw [Td.rng.resolve_left (by decide)]
    refine ⟨fun j hj he => ?_, fun n hn => by rw [rg]; exact (rc n hn).2, fun _ => ⟨?_, fun n hn => by rw [rg]; exact (rc n hn).1⟩⟩
    · show ∃ y, mget (f d.sec).keys j = some y ∧ _
      rw [f1, ds]
      exact ka j hj he
    · refine f2 d.sec ?_
      rw [ds, ha]
      exact List.mem_append_right _ List.mem_cons_self

theorem mget_filter_none {α : Type} (m : AMap α) {l : List Nat} {j : Nat} (h : j ∈ l) : mget (m.filter fun k => !l.contains k.1) j = none := by
  induction m with
  | nil => rfl
  | cons x m ih =>
    rw [List.filter_cons]
    split
    · next c =>
      unfold mget
      split
      · next e =>
        simp only [beq_iff_eq] at e
        rw [e] at c
        simp [h] at c
      · exact ih
    · exact ih

theorem keepChoice_sec (dst vc : Nat) (port : Option Nat) (s : State) : (keepChoice dst vc port s).sec = s.sec :=
  (keepChoice_touches (μ := partSet [.link]) dst vc port (by decide) (.refl _ s)).sec.resolve_left (by decide)

/-- A message goes by the port its route gives; the choice kept then is of the links alone. -/
theorem send_via (m : OutMsg) (s : State) :
    (send m s).sec = (sendVia (pickPort s m.dst m.vc) m s).sec ∧ (send m s).free = (sendVia (pickPort s m.dst m.vc) m s).free := by
  unfold send
  dsimp only
  split
  · exact ⟨keepChoice_sec _ _ _ _, (keepChoice_touches (μ := partSet [.link]) _ _ _ (by decide) (.refl _ _)).free.resolve_left (by decide)⟩
  · exact ⟨rfl, rfl⟩

/-- What an answer to a key-management request leaves as it was. -/

theorem answerKm_keeps (session code seq : Nat) (a : Ans) (l : List Byte) (s : State) :
    (∀ j, mget s.sec.keys j = none → mget (answerKm session code seq a l s).sec.keys j = none) ∧
    (answerKm session code seq a l s).sec.tenants = s.sec.tenants ∧ Only [.link, .sec] s (answerKm session code seq a l s) := by
  have key : ∀ m : OutMsg, (∀ j, mget s.sec.keys j = none → mget (send m s).sec.keys j = none) ∧ (send m s).sec.tenants = s.sec.tenants ∧ Only [.link, .sec] s (send m s) := by
    intro m
    refine ⟨fun j h => ?_, ?_, (send_touches (μ := partSet [.link, .sec]) m (by decide) (.refl _ s)).only⟩
    all_goals
      rw [(send_via m s).1]
      unfold sendVia
      dsimp only
      repeat' split
      all_goals
        first
        | exact h
        | rfl
        | (show mget (mmod s.sec.keys m.key _) j = none
           by_cases e : j = m.key
           · subst e; rw [mget_mmod, h]; rfl
           · rw [mget_mmod_ne _ _ e]; exact h)
  unfold answerKm
  cases mget s.sec.sessions session with
  | none => exact ⟨fun _ h => h, rfl, only_refl _ _⟩
  | some x => exact key _

theorem driveAll_id {s : State} (h : s.ops.tab = []) : driveAll s = s := by
  unfold driveAll
  rw [h]
  rfl

theorem partOf_modPart_ne {p q : Nat} (h : q ≠ p) (f : Part → Part) (s : State) : partOf (modPart p f s) q = partOf s q :=
  mgetD_mupd_ne _ _ _ h

theorem forEach_parts_scrub (t : Nat) (l : List Nat) (s : State) : ∀ p ∈ l,
    (partOf (forEach l (fun p s => beginScrub p (modPart p (fun x => { x with outgoing := some t }) s)) s) p).scrubbing = true ∧
    (partOf (forEach l (fun p s => beginScrub p (modPart p (fun x => { x with outgoing := some t }) s)) s) p).outgoing = some t := by
  intro p hp
  have at_ : ∀ u : State, partOf (beginScrub p (modPart p (fun x => { x with outgoing := some t }) u)) p = { partOf u p with outgoing := some t, scrubbing := true } := by
    intro u
    unfold beginScrub
    rw [partOf_modPart, partOf_modPart]
  refine forEach_hits (fun _ => True) (fun u => (partOf u p).scrubbing = true ∧ (partOf u p).outgoing = some t) _ (n := p) (fun _ _ _ => trivial) (fun x u _ h => ?_) (fun u _ => ?_) l hp s trivial
  · by_cases e : x = p
    · subst e; rw [at_]; exact ⟨rfl, rfl⟩
    · have : partOf (beginScrub x (modPart x (fun x => { x with outgoing := some t }) u)) p = partOf u p := by
        unfold beginScrub
        rw [partOf_modPart_ne (Ne.symm e), partOf_modPart_ne (Ne.symm e)]
      rw [this]; exact h
  · rw [at_]; exact ⟨rfl, rfl⟩

theorem finishRemoval_spec {n : Nat} {q : Removal} {w z : State} {E : Erased} (h : (if q.erase then eraseTenant n w else ({}, w)) = (E, z)) (hz : z.ops.tab = []) :
    (finishRemoval n q w).sec.tenants = mmod z.sec.tenants n (fun y => { y with removing := false }) ∧ (finishRemoval n q w).sch = z.sch ∧
    (finishRemoval n q w).ftl = z.ftl ∧ (finishRemoval n q w).seqs = z.seqs := by
  obtain ⟨l, e⟩ : ∃ l, finishRemoval n q w = driveAll (answerKm q.session q.code q.seq { status := stOk } l (dropRemoval q
      (z.modSec fun x => { x with tenants := mmod x.tenants n fun y => { y with removing := false } }))) := by
    unfold finishRemoval
    rw [h]
    exact ⟨_, rfl⟩
  obtain ⟨v, hv⟩ : ∃ v, v = dropRemoval q (z.modSec fun x => { x with tenants := mmod x.tenants n fun y => { y with removing := false } }) := ⟨_, rfl⟩
  rw [← hv] at e
  have K := answerKm_keeps q.session q.code q.seq { status := stOk } l v
  have ko : (answerKm q.session q.code q.seq { status := stOk } l v).ops = v.ops := K.2.2.2 .ops (by decide)
  rw [e, driveAll_id (by rw [ko, hv]; exact hz)]
  exact ⟨K.2.1.trans (by rw [hv]; rfl), (K.2.2.2 .sch (by decide)).trans (by rw [hv]; rfl), (K.2.2.2 .ftl (by decide)).trans (by rw [hv]; rfl), (K.2.2.2 .seqs (by decide)).trans (by rw [hv]; rfl)⟩

theorem takeSpdm_eq (s : State) (h : Hdr) (f : State → State) : takeSpdm h f s =
    if deaf s || spdmLate s h then took h mtSpdm s
    else if h.key == 0 || (match mget s.sec.keys h.key with | some k => !k.dying | none => false) then f (took h mtSpdm s)
    else countNokey h.port (took h mtSpdm s) := rfl

theorem takeSpdm_live {s : State} {h : Hdr} (f : State → State) (hd : deaf s = false) (hl : spdmLate s h = false)
    (hk : h.key = 0 ∨ ∃ k, mget s.sec.keys h.key = some k ∧ k.dying = false) : takeSpdm h f s = f (took h mtSpdm s) := by
  rw [takeSpdm_eq, hd, hl, if_neg (by decide), if_pos]
  rcases hk with e | ⟨k, e, d⟩
  · simp [e]
  · rw [e]; simp [d]

theorem takeSpdm_deaf {s : State} {h : Hdr} (f : State → State) (hd : deaf s = true) : takeSpdm h f s = took h mtSpdm s := by
  rw [takeSpdm_eq, hd, Bool.true_or, if_pos rfl]

theorem takeSpdm_late {s : State} {h : Hdr} (f : State → State) (hl : spdmLate s h = true) : takeSpdm h f s = took h mtSpdm s := by
  rw [takeSpdm_eq, hl, Bool.or_true, if_pos rfl]

theorem takeSpdm_nokey {s : State} {h : Hdr} (f : State → State) (hd : deaf s = false) (h0 : h.key ≠ 0)
    (hk : ∀ k, mget s.sec.keys h.key = some k → k.dying = true) : takeSpdm h f s = countNokey h.port (took h mtSpdm s) := by
  have hl : spdmLate s h = false := by simp [spdmLate, h0]
  rw [takeSpdm_eq, hd, hl, if_neg (by decide), if_neg]
  cases e : mget s.sec.keys h.key with
  | none => simp [h0]
  | some k => simp [h0, hk k e]

/-- Sending changes of the security unit only the key's entry. -/

theorem send_sec (m : OutMsg) (s : State) : ∃ f, (send m s).sec = { s.sec with keys := f } ∧ (∀ j, j ≠ m.key → mget f j = mget s.sec.keys j) ∧ (send m s).free = s.free := by
  have key : ∀ s p, ∃ f, (sendVia p m s).sec = { s.sec with keys := f } ∧ (∀ j, j ≠ m.key → mget f j = mget s.sec.keys j) ∧ (sendVia p m s).free = s.free := by
    intro s p
    unfold sendVia
    extract_lets kb dir hop sent fs det v w
    by_cases c : (m.key != 0 && (kb.isNone || decide (2 ^ 63 - 1 < sent + fs.length))) = true
    · rw [if_pos c]
      exact ⟨s.sec.keys, rfl, fun _ _ => rfl, rfl⟩
    · rw [if_neg c]
      cases p with
      | none => exact ⟨_, rfl, fun j hj => mget_mmod_ne _ _ hj, rfl⟩
      | some n => exact ⟨_, rfl, fun j hj => mget_mmod_ne _ _ hj, rfl⟩
  rw [(send_via m s).1, (send_via m s).2]
  exact key s _

theorem answerSpdm_sec (h : Hdr) (code : Nat) (body : List Byte) (rsp : Nat) (content : List Byte) (s : State) :
    ∃ f g, (answerSpdm h code body rsp content s).sec = { s.sec with keys := f, spdm := g } ∧ (∀ j, j ≠ h.key → mget f j = mget s.sec.keys j) ∧
      (answerSpdm h code body rsp content s).free = s.free + 1 := by
  unfold answerSpdm reply
  dsimp only
  obtain ⟨f, e, k, fr⟩ := send_sec { typ := mtSpdm, vc := 3, dst := h.src, key := h.key, tag := h.tag, status := 0, flags := 0, body := _ } _
  exact ⟨f, _, e, k, fr⟩

theorem leNat_leBytes (n : Nat) : ∀ v, v < 256 ^ n → leNat (leBytes n v) = v := by
  induction n with
  | zero => intro v h; simp at h; subst h; rfl
  | succ n ih =>
    intro v h
    have := ih (v / 256) (by rw [Nat.pow_succ] at h; exact Nat.div_lt_of_lt_mul (by rw [Nat.mul_comm]; exact h))
    show (BitVec.ofNat 8 v).toNat + 256 * leNat (leBytes n (v / 256)) = v
    rw [this, BitVec.toNat_ofNat]
    exact Nat.mod_add_div v 256

theorem servedAt_access {path : Path} {off : Nat} {s : State} (h : servedAt path off s = true) (f : State → State) : regAccess path off f s = f s := by
  unfold regAccess
  rw [if_pos (by exact h)]

theorem operates_op {path : Path} {off : Nat} {s : State} (h : operates path off s = true) (f : State → State) : regAccess path off (asOperator path f) s = f s := by
  rw [(operates_access h _).1]
  unfold asOperator
  rw [if_pos (operates_access h id).2]

theorem openDebug_keeps (s : State) : (openDebug s).core = s.core ∧ (openDebug s).attn = s.attn ∧ (openDebug s).sec = { s.sec with dbgActive := true } ∧ (openDebug s).clk = s.clk := by
  unfold openDebug
  split
  · next h => exact ⟨rfl, rfl, by cases hs : s.sec; rw [hs] at h; cases h; rfl, rfl⟩
  · exact ⟨rfl, rfl, rfl, rfl⟩

theorem coreByte_at {s : State} {core off : Nat} {b : BitVec 8} (h : mget s.core.mem (2 ^ 20 * core + off) = some b) : coreByte core off s = (b, s) := by
  unfold coreByte
  rw [h]

theorem putCore_get (core off v : Nat) (s : State) (i : Nat) (hi : i < 4) :
    mget (putCore core off (leBytes 4 v) s).core.mem (2 ^ 20 * core + (off + i)) = some (nth (leBytes 4 v) i 0) := by
  show mget ((List.range 4).foldl (fun m i => mset m (2 ^ 20 * core + off + i) (nth (leBytes 4 v) i 0)) s.core.mem) _ = _
  rw [show List.range 4 = [0, 1, 2, 3] from rfl]
  simp only [List.foldl_cons, List.foldl_nil]
  generalize leBytes 4 v = l
  generalize 2 ^ 20 * core = k
  rcases (show i = 0 ∨ i = 1 ∨ i = 2 ∨ i = 3 by omega) with rfl | rfl | rfl | rfl
  · rw [mget_mset_ne _ _ (by omega), mget_mset_ne _ _ (by omega), mget_mset_ne _ _ (by omega), show k + (off + 0) = k + off + 0 by omega, mget_mset]
  · rw [mget_mset_ne _ _ (by omega), mget_mset_ne _ _ (by omega), show k + (off + 1) = k + off + 1 by omega, mget_mset]
  · rw [mget_mset_ne _ _ (by omega), show k + (off + 2) = k + off + 2 by omega, mget_mset]
  · rw [show k + (off + 3) = k + off + 3 by omega, mget_mset]

theorem coreWord_put (core off v : Nat) (s u : State) (hv : v < 2 ^ 32) (hu : u.core = (putCore core off (leBytes 4 v) s).core) : coreWord core off u = (v, u) := by
  have g : ∀ i, i < 4 → mget u.core.mem (2 ^ 20 * core + (off + i)) = some (nth (leBytes 4 v) i 0) := fun i hi => by rw [hu]; exact putCore_get _ _ _ _ _ hi
  unfold coreWord
  rw [coreByte_at (off := off) (g 0 (by omega))]
  dsimp only
  rw [coreByte_at (g 1 (by omega))]
  dsimp only
  rw [coreByte_at (g 2 (by omega))]
  dsimp only
  rw [coreByte_at (g 3 (by omega))]
  dsimp only
  have : [nth (leBytes 4 v) 0 0, nth (leBytes 4 v) 1 0, nth (leBytes 4 v) 2 0, nth (leBytes 4 v) 3 0] = leBytes 4 v := rfl
  rw [this, leNat_leBytes 4 v (by simpa using hv)]

theorem remapBlock_room {k b : Nat} {s : State} (h : (k, b) ∈ s.spare.remapping ∨ remapUsed s k < 2048) :
    remapBlock k b s = { s with spare := if (k, b) ∈ s.spare.remapping then s.spare else { s.spare with remapping := s.spare.remapping ++ [(k, b)] } } := by
  unfold remapBlock
  by_cases c : (k, b) ∈ s.spare.remapping
  · rw [if_pos (List.contains_iff_mem.mpr c), if_pos c]
  · rw [if_neg (fun g => c (List.contains_iff_mem.mp g)), if_pos (h.resolve_left c), if_neg c]
    rfl

theorem spareSet_remap (w x : Nat) (u : State) : (spareSet w x u).spare.remapping = u.spare.remapping ∧ (spareSet w x u).spare.hbmRemap = u.spare.hbmRemap := by
  unfold spareSet
  split
  · exact ⟨rfl, rfl⟩
  · have e : (spareWrite w x u).spare = u.spare := (spareWrite_touches (μ := partSet [.tly, .bbx]) w x (by decide) (.refl _ u)).spare.resolve_left (by decide)
    refine ⟨?_, ?_⟩
    · show (spareWrite w x u).spare.remapping = _
      rw [e]
    · show (spareWrite w x u).spare.hbmRemap = _
      rw [e]

theorem remap_done {s : State} {stack block : Nat} (hr : atRest s = false) (h : (stack, block) ∈ s.spare.remapping) :
    ∃ t, exec (.hbmRemapDone stack block) s = .next t ∧ (stack, block) ∉ t.spare.remapping ∧
    t.spare.hbmRemap = s.spare.hbmRemap ++ [(stack, block)] ∧ (mget s.spare.unwritten (stackWord stack) = none → spareNat t (stackWord stack) =
      let w := putBits (spareNat s (stackWord stack)) 0 12 (remapUsed s stack + 1)
      if remapUsed s stack + 1 = 2048 then setBit w 20 else w) := by
  obtain ⟨u, hu⟩ : ∃ u : State, u = { s with spare := { s.spare with remapping := s.spare.remapping.filter (· != (stack, block)), hbmRemap := s.spare.hbmRemap ++ [(stack, block)] } } := ⟨_, rfl⟩
  obtain ⟨v, hv⟩ : ∃ v, v = (if remapUsed s stack + 1 == 2048 then setBit (putBits (spareNat s (stackWord stack)) 0 12 (remapUsed s stack + 1)) 20 else putBits (spareNat s (stackWord stack)) 0 12 (remapUsed s stack + 1)) := ⟨_, rfl⟩
  have e0 : exec (.hbmRemapDone stack block) s = .next (emit 4 stack evHbmRepair [1, block, remapUsed s stack] (spareSet (stackWord stack) v u)) := by
    show execHbmRemapDone stack block s = _
    unfold execHbmRemapDone
    rw [working_on _ hr, if_neg (by rw [List.contains_iff_mem.mpr h]; decide), hv, hu]
    rfl
  refine ⟨_, e0, ?_, ?_, fun hm => ?_⟩
  · show (stack, block) ∉ (spareSet (stackWord stack) v u).spare.remapping
    rw [(spareSet_remap _ _ _).1, hu]
    intro g
    have := (List.mem_filter.mp g).2
    simp at this
  · show (spareSet (stackWord stack) v u).spare.hbmRemap = _
    rw [(spareSet_remap _ _ _).2, hu]
  · show spareNat (spareSet (stackWord stack) v u) (stackWord stack) = _
    rw [spareNat_set _ (by rw [hu]; exact hm), hv]
    simp only [beq_iff_eq]

theorem foldl_best (key : Nat → Nat) : ∀ (l : List Nat) (f : Nat), l.foldl (fun best n => if key n < key best then n else best) f ∈ f :: l ∧
    ∀ x ∈ f :: l, key (l.foldl (fun best n => if key n < key best then n else best) f) ≤ key x := by
  intro l
  induction l with
  | nil => exact fun f => ⟨List.mem_cons_self, fun x hx => by cases List.mem_singleton.mp hx; exact Nat.le_refl _⟩
  | cons y l ih =>
    intro f
    obtain ⟨a, b⟩ := ih (if key y < key f then y else f)
    refine ⟨?_, fun x hx => ?_⟩
    · show List.foldl _ (if key y < key f then y else f) l ∈ _
      rcases List.mem_cons.mp a with g | g
      · rw [g]; split
        · exact List.mem_cons_of_mem _ List.mem_cons_self
        · exact List.mem_cons_self
      · exact List.mem_cons_of_mem _ (List.mem_cons_of_mem _ g)
    · show key (List.foldl _ (if key y < key f then y else f) l) ≤ _
      have h0 := b _ List.mem_cons_self
      rcases List.mem_cons.mp hx with g | g
      · subst g
        refine Nat.le_trans h0 ?_
        split <;> omega
      · rcases List.mem_cons.mp g with g | g
        · subst g
          refine Nat.le_trans h0 ?_
          split <;> omega
        · exact b _ (List.mem_cons_of_mem _ g)

theorem target_spec (b : Bbx) : b.target < 4 ∧ ((∃ j, j < 4 ∧ (nth b.slots j {}).held = false) → (nth b.slots b.target {}).held = false ∧
    ∀ j, j < 4 → (nth b.slots j {}).held = false →
      (if (nth b.slots b.target {}).complete then (nth b.slots b.target {}).serial else 0) ≤ (if (nth b.slots j {}).complete then (nth b.slots j {}).serial else 0)) := by
  unfold Bbx.target
  dsimp only
  have mem : ∀ j, j ∈ (List.range 4).filter (fun n => !(nth b.slots n {}).held) ↔ j < 4 ∧ (nth b.slots j {}).held = false := by
    intro j; rw [List.mem_filter, List.mem_range]; simp
  cases h : (List.range 4).filter (fun n => !(nth b.slots n {}).held) with
  | nil =>
    refine ⟨Nat.zero_lt_succ 3, fun ⟨j, h1, h2⟩ => ?_⟩
    have := (mem j).mpr ⟨h1, h2⟩
    rw [h] at this; cases this
  | cons f r =>
    rw [h] at mem
    dsimp only
    obtain ⟨x, y⟩ := foldl_best (fun n => if (nth b.slots n {}).complete then (nth b.slots n {}).serial else 0) r f
    exact ⟨((mem _).mp x).1, fun _ => ⟨((mem _).mp x).2, fun j h1 h2 => y j ((mem j).mpr ⟨h1, h2⟩)⟩⟩

theorem write_keeps (b : Bbx) (e : Event) : (b.write e).slots = b.slots ∧ (b.write e).queue = b.queue := by
  unfold Bbx.write
  exact ⟨rfl, rfl⟩

theorem write_serial (b : Bbx) (e : Event) : (b.write e).serial = (b.serial + 1) % 65536 := by
  unfold Bbx.write
  rfl

theorem write_ring (b : Bbx) (e : Event) : (b.write e).ring =
    (b.ring ++ [{ e with serial := b.serial % 65536 }]).drop ((b.ring ++ [{ e with serial := b.serial % 65536 }]).length - 8192) := by
  simp only [Bbx.write]

theorem drain_slots (b : Bbx) : b.drain.slots = b.slots := by
  have : ∀ (l : List Event) (c : Bbx), (l.foldl Bbx.write c).slots = c.slots := by
    intro l
    induction l with
    | nil => exact fun _ => rfl
    | cons e l ih =>
      intro c
      rw [List.foldl_cons, ih, (write_keeps c e).1]
  unfold Bbx.drain
  exact this _ _

theorem enqueue_spec (l : List Event) : ∀ b : Bbx, (l.foldl Bbx.enqueue b).rate = b.rate ∧ (l.foldl Bbx.enqueue b).ring = b.ring ∧
    (b.frozen = false → b.queue.length + l.length ≤ 64 → (l.foldl Bbx.enqueue b).queue = b.queue ++ l) := by
  induction l with
  | nil => exact fun b => ⟨rfl, rfl, fun _ _ => (List.append_nil _).symm⟩
  | cons e l ih =>
    intro b
    have k : (b.enqueue e).rate = b.rate ∧ (b.enqueue e).ring = b.ring ∧ (b.enqueue e).frozen = b.frozen := by
      unfold Bbx.enqueue; split <;> exact ⟨rfl, rfl, rfl⟩
    obtain ⟨x, y, z⟩ := ih (b.enqueue e)
    refine ⟨x.trans k.1, y.trans k.2.1, fun hf hl => ?_⟩
    have q : (b.enqueue e).queue = b.queue ++ [e] := by
      unfold Bbx.enqueue
      rw [if_neg (by simp [hf]; simp at hl; omega)]
    have := z (k.2.2.trans hf) (by rw [q]; simp at hl ⊢; omega)
    show (l.foldl Bbx.enqueue (b.enqueue e)).queue = _
    rw [this, q]
    simp

theorem snapshot_spec {s : State} (hc : s.bbx.copy = none) (hf : s.bbx.frozen = false) (hl : s.bbx.slots.length = 4) :
    ∃ k, (operatorSnapshot s).bbx.frozen = true ∧ (operatorSnapshot s).bbx.cause = clsOperator ∧ (operatorSnapshot s).bbx.queue = [] ∧
      (operatorSnapshot s).bbx.copy = some { slot := k, cls := clsOperator } ∧ (nth (operatorSnapshot s).bbx.slots k {}).complete = false ∧
      (nth (operatorSnapshot s).bbx.slots k {}).serial = maxOf (s.bbx.slots.map (·.serial)) + 1 ∧
      (nth (operatorSnapshot s).bbx.slots k {}).events = (operatorSnapshot s).bbx.ring ∧ (∃ e ∈ (operatorSnapshot s).bbx.ring.getLast?, e.code = evFreeze ∧ e.a0 = clsOperator) ∧
      (∀ j, j ≠ k → nth (operatorSnapshot s).bbx.slots j {} = nth s.bbx.slots j {}) ∧
      ((∃ j, j < 4 ∧ (nth s.bbx.slots j {}).held = false) → (nth s.bbx.slots k {}).held = false ∧ ∀ j, j < 4 → (nth s.bbx.slots j {}).held = false →
          (if (nth s.bbx.slots k {}).complete then (nth s.bbx.slots k {}).serial else 0) ≤ (if (nth s.bbx.slots j {}).complete then (nth s.bbx.slots j {}).serial else 0)) := by
  obtain ⟨b, hb⟩ : ∃ b, b = s.bbx.drain.write (eventAt 0 0 evFreeze [clsOperator, 2 ^ clsOperator] s) := ⟨_, rfl⟩
  have bs : b.slots = s.bbx.slots := by rw [hb, (write_keeps _ _).1]; exact drain_slots _
  have e0 : (operatorSnapshot s).bbx = { b with
      frozen := true, cause := clsOperator, copy := some { slot := b.target, cls := clsOperator }, lastSlot := b.target
      slots := lput b.slots b.target { serial := maxOf (b.slots.map (·.serial)) + 1, cls := clsOperator, complete := false, held := false, fatal := fatalClass clsOperator
                                       causes := 2 ^ clsOperator, epoch := epochNo s, time := now s, lost := b.lost
                                       spareGen := (s.tly.pair 0x004).toNat, buildId := (s.img.cur.map (·.buildId)).getD 0, events := b.ring } } := by
    unfold operatorSnapshot freeze
    rw [hc, hb]
    dsimp only
    rw [if_neg (by rw [hf]; decide)]
    rfl
  have T := target_spec b
  rw [bs] at T
  have n0 := nth_lput b.slots b.target { serial := maxOf (b.slots.map (·.serial)) + 1, cls := clsOperator, complete := false, held := false, fatal := fatalClass clsOperator
                                         causes := 2 ^ clsOperator, epoch := epochNo s, time := now s, lost := b.lost
                                         spareGen := (s.tly.pair 0x004).toNat, buildId := (s.img.cur.map (·.buildId)).getD 0, events := b.ring } {} (by rw [bs, hl]; exact T.1)
  rw [e0]
  refine ⟨b.target, rfl, rfl, by dsimp only; rw [hb, (write_keeps _ _).2]; unfold Bbx.drain; rfl, rfl, by dsimp only; rw [n0], by dsimp only; rw [n0, bs], by dsimp only; rw [n0], ?_, fun j hj => ?_, T.2⟩
  · refine ⟨{ eventAt 0 0 evFreeze [clsOperator, 2 ^ clsOperator] s with serial := s.bbx.drain.serial % 65536 }, ?_, rfl, rfl⟩
    rw [hb]
    dsimp only
    rw [write_ring]
    rw [List.drop_append_of_le_length (by simp)]
    simp
  · dsimp only
    rw [nth_lput_ne _ _ _ hj, bs]

theorem drop_room {α : Type} (l : List α) (x : α) (h : l.length < 8192) : (l ++ [x]).drop ((l ++ [x]).length - 8192) = l ++ [x] := by
  rw [show (l ++ [x]).length - 8192 = 0 by simp; omega]
  rfl

theorem drop_full {α : Type} {k l : List α} {y : α} (e : k = y :: l) (x : α) (h : k.length = 8192) : (k ++ [x]).drop ((k ++ [x]).length - 8192) = l ++ [x] := by
  rw [show (k ++ [x]).length - 8192 = 1 by simp; omega, e]
  rfl

theorem takePeer_takes {h : Hdr} {s : State} (typ : Nat) (f : State → State) (ht : takes h s = true) (hk : ∃ k, mget s.sec.keys h.key = some k ∧ k.pair = true ∧ k.node = h.src) :
    takePeer h typ f s = f (took h typ s) := by
  obtain ⟨k, h1, h2, h3⟩ := hk
  unfold takePeer
  rw [takeMsg_takes h typ _ s ht, show mget (took h typ s).sec.keys h.key = some k from h1]
  dsimp only
  rw [if_pos (by simp [h2, h3])]

/-- A reply changes the ports and the key's count alone. -/

theorem reply_only (h : Hdr) (typ vc status flags : Nat) (body : List Byte) (s : State) : Only [.link, .sec] s (reply h typ vc status flags body s) :=
  (send_touches (μ := partSet [.link, .sec]) _ (by decide) (.refl _ s)).only

theorem setView_alone {s : State} (hi : s.casc.imports = []) (he : s.casc.exports = []) (view mask : Nat) :
    setView view mask s = s.modCasc fun c => { c with view := view, mask := mask, viewChanges := sat32 (c.viewChanges + 1), highest := max c.highest view, searches := [], stirrup := none } := by
  unfold setView
  dsimp only
  refine forEach_id _ _ _ fun q _ => ?_
  have h1 : ∀ (node : Node) (t : State), t.casc.imports = [] → sweepImports node t = t := by
    intro node t ht
    unfold sweepImports
    rw [ht]; rfl
  have h2 : ∀ (node : Node) (t : State), t.casc.exports = [] → sweepExports node t = t := by
    intro node t ht
    unfold sweepExports
    rw [ht]; rfl
  rw [h1 _ _ (by exact hi), h2 _ _ (by exact he)]

/-- What a change of liveness leaves of the group, on a device with no import and no export. -/

theorem refreshView_alone {s : State} (hi : s.casc.imports = []) (he : s.casc.exports = []) :
    (refreshView s).casc.pos = s.casc.pos ∧ (refreshView s).casc.masterPos = masterSeen s ∧ (refreshView s).casc.imports = [] ∧ (refreshView s).casc.exports = [] ∧
    (refreshView s).casc.lookup = s.casc.lookup ∧ (refreshView s).img = s.img ∧
    (masterSeen s = cascPos s → s.pins.rdy = true → 1 < cascSize s → (refreshView s).casc.mask = maskOf (liveSet s) ∧
      (refreshView s).casc.view = if s.casc.masterPos = cascPos s ∧ s.casc.mask ≠ 0
        then (if maskOf (liveSet s) = s.casc.mask then s.casc.view else (s.casc.view + 1) % 65536) else (s.casc.highest + 1) % 65536) ∧
    (masterSeen s ≠ cascPos s → (refreshView s).casc.view = s.casc.view ∧ (refreshView s).casc.mask = s.casc.mask) := by
  obtain ⟨v, hv⟩ : ∃ v, v = driveMaster (s.modCasc fun c => { c with masterPos := masterSeen s }) := ⟨_, rfl⟩
  have vc : v.casc = { s.casc with masterPos := masterSeen s } := by rw [hv]; rfl
  have vi : v.img = s.img := by rw [hv]; rfl
  have vr : v.pins.rdy = s.pins.rdy := by rw [hv]; rfl
  have vs : cascSize v = cascSize s := by unfold cascSize; rw [vi]
  have vp : cascPos v = cascPos s := by unfold cascPos; rw [vi]
  have vl : liveSet v = liveSet s := by unfold liveSet; rw [vs, vp, vc]
  have e0 : refreshView s = if !(s.pins.rdy && decide (1 < cascSize s) && masterSeen s == cascPos s) then v
      else if !(s.casc.masterPos == cascPos s && s.casc.mask != 0) then setView ((s.casc.highest + 1) % 65536) (maskOf (liveSet s)) v
      else if maskOf (liveSet s) != s.casc.mask then setView ((s.casc.view + 1) % 65536) (maskOf (liveSet s)) v else v := by
    unfold refreshView
    dsimp only
    rw [← hv, vr, vs, vp, vl, vc]
  have sv := fun a b => setView_alone (s := v) (by rw [vc]; exact hi) (by rw [vc]; exact he) a b
  by_cases c1 : (s.pins.rdy && decide (1 < cascSize s) && masterSeen s == cascPos s) = true
  · rw [c1] at e0
    simp only [Bool.not_true, Bool.false_eq_true, if_false] at e0
    have cm : masterSeen s = cascPos s := by
      simp only [Bool.and_eq_true, beq_iff_eq] at c1; exact c1.2
    by_cases c2 : s.casc.masterPos = cascPos s ∧ s.casc.mask ≠ 0
    · rw [if_neg (by simp [c2.1, c2.2])] at e0
      by_cases c3 : maskOf (liveSet s) = s.casc.mask
      · rw [if_neg (by simp [c3])] at e0
        rw [e0, vc]
        exact ⟨rfl, rfl, hi, he, rfl, vi, fun _ _ _ => ⟨c3.symm, by rw [if_pos c2, if_pos c3]⟩, fun g => absurd cm g⟩
      · rw [if_pos (by simp [c3]), sv] at e0
        rw [e0]
        refine ⟨by show v.casc.pos = _; rw [vc], by show v.casc.masterPos = _; rw [vc], by show v.casc.imports = _; rw [vc]; exact hi,
          by show v.casc.exports = _; rw [vc]; exact he, by show v.casc.lookup = _; rw [vc], vi, fun _ _ _ => ⟨rfl, by rw [if_pos c2, if_neg c3]; rfl⟩, fun g => absurd cm g⟩
    · rw [if_pos (by
        simp only [Bool.not_eq_true', Bool.and_eq_false_iff, beq_eq_false_iff_ne, bne_eq_false_iff_eq]
        by_cases g : s.casc.masterPos = cascPos s
        · right; exact Decidable.byContradiction fun z => c2 ⟨g, z⟩
        · exact .inl g), sv] at e0
      rw [e0]
      refine ⟨by show v.casc.pos = _; rw [vc], by show v.casc.masterPos = _; rw [vc], by show v.casc.imports = _; rw [vc]; exact hi,
          by show v.casc.exports = _; rw [vc]; exact he, by show v.casc.lookup = _; rw [vc], vi, fun _ _ _ => ⟨rfl, by rw [if_neg c2]; rfl⟩, fun g => absurd cm g⟩
  · rw [if_pos (by rw [Bool.eq_false_iff.mpr c1]; rfl)] at e0
    rw [e0, vc]
    refine ⟨rfl, rfl, hi, he, rfl, vi, fun g1 g2 g3 => absurd ?_ c1, fun _ => ⟨rfl, rfl⟩⟩
    simp [g1, g2, g3]

theorem afterView_alone {s : State} (h : s.casc.lookup = none) (old : Nat × Nat) : afterView old s = s := by
  unfold afterView
  split
  · rfl
  · unfold restartLookup
    rw [h]

theorem liveSet_congr {s t : State} (hp : t.casc.pos = s.casc.pos) (hi : t.img = s.img) : liveSet t = liveSet s ∧ masterSeen t = masterSeen s ∧ cascPos t = cascPos s ∧ cascSize t = cascSize s := by
  have a : cascPos t = cascPos s := by unfold cascPos; rw [hi]
  have b : cascSize t = cascSize s := by unfold cascSize; rw [hi]
  have c : liveSet t = liveSet s := by unfold liveSet; rw [a, b, hp]
  exact ⟨c, by unfold masterSeen; rw [c, a], a, b⟩

theorem exportOf_same {h : Hdr} {typ : Nat} {s t : State} (O : Only [.link, .sec] (took h typ s) t) (handle : Nat) (holder : Node) :
    exportOf t handle holder = exportOf s handle holder := by
  have a : t.casc = s.casc := O.2 .casc (by decide)
  have b : epochNo t = epochNo s := congrArg (fun c : Clock => c.epoch.toNat) (O.2 .clk (by decide))
  unfold exportOf
  rw [a, b]

theorem answerPage_only (h : Hdr) (kind status : Nat) (body : List Byte) (s : State) : Only [.link, .sec] s (answerPage h kind status body s) :=
  reply_only h mtPageData 1 status 0 _ s

theorem pageData_mine {s u : State} (h : Hdr) (status : Nat) (bytes : List Byte) (hok : takes h s = true ∧ ∃ k, mget s.sec.keys h.key = some k ∧ k.pair = true ∧ k.node = h.src)
    (hu : u = took h mtPageData s) {r : PeerRead} (hr : mget s.casc.reads h.tag = some r) (hs : r.node = h.src) :
    let v := { u with casc := { s.casc with reads := mdel s.casc.reads h.tag } }
    (status ≠ stOk → exec (.pageData h status bytes) s = .next (serveChained (peerGone r.rec_ { v with casc := { v.casc with peerRefused := sat32 (s.casc.peerRefused + 1) } }))) ∧
    (status = stOk → ∀ w, w = addPeer r.who r.rec_ (bytes.take r.len) v →
      exec (.pageData h status bytes) s = .next (if peerWhole w r.who r.rec_ then serveChained w else wantPeer r.who r.rec_ w)) := by
  intro v
  have uc : u.casc = s.casc := by rw [hu]; rfl
  have vv : v = u.modCasc fun c => { c with reads := mdel c.reads h.tag } := by show { u with casc := _ } = { u with casc := { u.casc with reads := _ } }; rw [uc]
  have e0 : exec (.pageData h status bytes) s = .next (if status == stOk then
      (if peerWhole (addPeer r.who r.rec_ (bytes.take r.len) v) r.who r.rec_ then serveChained (addPeer r.who r.rec_ (bytes.take r.len) v)
        else wantPeer r.who r.rec_ (addPeer r.who r.rec_ (bytes.take r.len) v))
      else serveChained (peerGone r.rec_ (v.modCasc fun c => { c with peerRefused := sat32 (c.peerRefused + 1) }))) := by
    show execPageData h status bytes s = _
    unfold execPageData
    rw [takePeer_takes _ _ hok.1 hok.2, ← hu, show mget u.casc.reads h.tag = some r by rw [uc]; exact hr]
    dsimp only
    rw [if_neg (by simp [hs]), vv]
  refine ⟨fun hst => ?_, fun hst w hw => ?_⟩
  · rw [e0, if_neg (by simpa using hst)]
    rfl
  · rw [e0, if_pos (by simpa using hst), ← hw]

/-- What a reader has of an image after more bytes arrive. -/
theorem peerGot_addPeer (who : PeerFor) (r : Nat) (b : List Byte) (s : State) : peerGot (addPeer who r b s) who r = peerGot s who r ++ b := by
  unfold addPeer peerGot
  simp

/-- The words of a reading access, one register access each, in ascending offset. -/

theorem readWords_chain (path : Path) (sv : Nat → Bool) (n : Nat) : ∀ (off : Nat) (s : State), (∀ i, i < n → sv ((off + 4 * i) / 0x10000) = true) →
    ∃ (st : Nat → State) (ws : List Nat), st 0 = s ∧ ws.length = n ∧ (∀ i, i < n → readWord path (off + 4 * i) (st i) = (nth ws i 0, st (i + 1))) ∧
      readWords path sv off n s = (ws, st n) := by
  induction n with
  | zero => exact fun off s _ => ⟨fun _ => s, [], rfl, rfl, fun i hi => absurd hi (by omega), rfl⟩
  | succ n ih =>
    intro off s h
    have h0 : sv (off / 0x10000) = true := by simpa using h 0 (by omega)
    obtain ⟨st, ws, h1, h2, h3, h4⟩ := ih (off + 4) (readWord path off s).2 (fun i hi => by
      have := h (i + 1) (by omega)
      rwa [show off + 4 * (i + 1) = off + 4 + 4 * i by omega] at this)
    refine ⟨fun i => match i with | 0 => s | i + 1 => st i, (readWord path off s).1 :: ws, rfl, by simp [h2], fun i hi => ?_, ?_⟩
    · cases i with
      | zero => simp [h1, nth]
      | succ i =>
        have := h3 i (by omega)
        rw [show off + 4 * (i + 1) = off + 4 + 4 * i by omega]
        simpa [nth] using this
    · simp only [readWords]
      rw [if_pos h0, h4]

/-- The words of a writing access, one register access each, in ascending offset. -/

theorem writeWords_chain (path : Path) (sv : Nat → Bool) (ws : List Nat) : ∀ (off : Nat) (s : State), (∀ i, i < ws.length → sv ((off + 4 * i) / 0x10000) = true) →
    ∃ st : Nat → State, st 0 = s ∧ (∀ i, i < ws.length → st (i + 1) = writeWord path (off + 4 * i) (nth ws i 0) (st i)) ∧
      (writeWords path sv off ws s).2 = st ws.length ∧
      ((writeWords path sv off ws s).1 = true ↔ ∃ i, i < ws.length ∧ wornWrite path (off + 4 * i) (nth ws i 0) (st i) = true) := by
  induction ws with
  | nil => exact fun off s _ => ⟨fun _ => s, rfl, fun i hi => absurd hi (by simp), rfl, by simp [writeWords]⟩
  | cons w ws ih =>
    intro off s h
    have h0 : sv (off / 0x10000) = true := by simpa using h 0 (by simp)
    obtain ⟨st, h1, h2, h3, h4⟩ := ih (off + 4) (writeWord path off w s) (fun i hi => by
      have := h (i + 1) (by simpa using hi)
      rwa [show off + 4 * (i + 1) = off + 4 + 4 * i by omega] at this)
    have e : writeWords path sv off (w :: ws) s = (wornWrite path off w s || (writeWords path sv (off + 4) ws (writeWord path off w s)).1,
        (writeWords path sv (off + 4) ws (writeWord path off w s)).2) := by
      show (if sv (off / 0x10000) = true then _ else _) = _
      rw [if_pos h0]
    refine ⟨fun i => match i with | 0 => s | i + 1 => st i, rfl, fun i hi => ?_, by rw [e]; exact h3, ?_⟩
    · cases i with
      | zero => simp [h1, nth]
      | succ i =>
        have := h2 i (by simpa using hi)
        rw [show off + 4 * (i + 1) = off + 4 + 4 * i by omega]
        simpa [nth] using this
    · rw [e]
      dsimp only
      rw [Bool.or_eq_true, h4]
      constructor
      · rintro (g | ⟨i, hi, g⟩)
        · exact ⟨0, by simp, by simpa [nth] using g⟩
        · refine ⟨i + 1, by simpa using hi, ?_⟩
          rw [show off + 4 * (i + 1) = off + 4 + 4 * i by omega]
          simpa [nth] using g
      · rintro ⟨i, hi, g⟩
        cases i with
        | zero => exact .inl (by simpa [nth] using g)
        | succ i =>
          rw [show off + 4 * (i + 1) = off + 4 + 4 * i by omega] at g
          exact .inr ⟨i, by simpa using hi, by simpa [nth] using g⟩

theorem readWords_unserved (path : Path) (sv : Nat → Bool) (n : Nat) : ∀ (off : Nat) (s : State), (∀ i, i < n → sv ((off + 4 * i) / 0x10000) = false) →
    readWords path sv off n s = (List.replicate n 0, s) := by
  induction n with
  | zero => exact fun _ _ _ => rfl
  | succ n ih =>
    intro off s h
    have h0 : sv (off / 0x10000) = false := by simpa using h 0 (by omega)
    simp only [readWords]
    rw [if_neg (by rw [h0]; exact Bool.false_ne_true), ih (off + 4) s (fun i hi => by
      have := h (i + 1) (by omega)
      rwa [show off + 4 * (i + 1) = off + 4 + 4 * i by omega] at this)]
    rfl

theorem writeWords_unserved (path : Path) (sv : Nat → Bool) (ws : List Nat) : ∀ (off : Nat) (s : State), (∀ i, i < ws.length → sv ((off + 4 * i) / 0x10000) = false) →
    writeWords path sv off ws s = (false, s) := by
  induction ws with
  | nil => exact fun _ _ _ => rfl
  | cons w ws ih =>
    intro off s h
    have h0 : sv (off / 0x10000) = false := by simpa using h 0 (by simp)
    show (if sv (off / 0x10000) = true then _ else _) = _
    rw [if_neg (by simp [h0]), ih (off + 4) s (fun i hi => by
      have := h (i + 1) (by simpa using hi)
      rwa [show off + 4 * (i + 1) = off + 4 + 4 * i by omega] at this)]

theorem accessOk_iff (off len : Nat) : accessOk off len = true ↔
    (off % 4 = 0 ∧ len % 4 = 0 ∧ 4 ≤ len ∧ len ≤ 64 ∧ off < 2 ^ 24 ∧ off / 0x10000 = (off + len - 1) / 0x10000) := by
  unfold accessOk
  simp only [Bool.and_eq_true, beq_iff_eq, decide_eq_true_eq, and_assoc]

theorem served_i3c (s : State) (b : Nat) : served s .i3c b = true ↔ (13 ∈ s.start.done ∨ b ∈ [0, 1, 11, 12, 13, 14, 15]) := by
  show (s.start.done.contains 13 || [0, 1, 11, 12, 13, 14, 15].contains b) = true ↔ _
  rw [Bool.or_eq_true, List.contains_iff_mem, List.contains_iff_mem]

theorem wordsOf_length (bs : List Byte) : (wordsOf bs).length = bs.length / 4 := by simp [wordsOf]

theorem wordsOf_nth (bs : List Byte) {i : Nat} (h : i < bs.length / 4) : nth (wordsOf bs) i 0 = field bs (4 * i) 4 := by
  simp [nth, wordsOf, h, wordOf]

theorem mgmtRd_clause (s u : State) (h : Hdr) (off len : Nat) (ht : takes h s = true) (hu : u = took h mtMgmtRd s) :
    (s.pins.rdy = false → exec (.mgmtRd h off len) s = .next (nakTo h stRevoked u)) ∧
    (s.pins.rdy = true → accessOk off len = false → exec (.mgmtRd h off len) s = .next (nakTo h stInternal u)) ∧
    (s.pins.rdy = true → accessOk off len = true → exec (.mgmtRd h off len) s = .next (answerMgmtRd h off len u)) := by
  have e0 : exec (.mgmtRd h off len) s = .next (mgmtAccess h off len (answerMgmtRd h off len) u) := by
    show Host.Outcome.next (takeMsg h mtMgmtRd _ s) = _
    rw [takeMsg_takes h _ _ s ht, hu]
  have r : reachable u (.dorlink h.key) = s.pins.rdy := by rw [hu]; rfl
  rw [e0]
  unfold mgmtAccess
  rw [r]
  exact ⟨fun g => by rw [g]; rfl, fun g g2 => by rw [g, g2]; rfl, fun g g2 => by rw [g, g2]; rfl⟩

theorem mgmtWr_clause (s u : State) (h : Hdr) (off : Nat) (bytes : List Byte) (ht : takes h s = true) (hu : u = took h mtMgmtWr s) :
    (s.pins.rdy = false → exec (.mgmtWr h off bytes) s = .next (nakTo h stRevoked u)) ∧
    (s.pins.rdy = true → accessOk off bytes.length = false → exec (.mgmtWr h off bytes) s = .next (nakTo h stInternal u)) ∧
    (s.pins.rdy = true → accessOk off bytes.length = true → exec (.mgmtWr h off bytes) s = .next (answerMgmtWr h off bytes u)) := by
  have e0 : exec (.mgmtWr h off bytes) s = .next (mgmtAccess h off bytes.length (answerMgmtWr h off bytes) u) := by
    show Host.Outcome.next (takeMsg h mtMgmtWr _ s) = _
    rw [takeMsg_takes h _ _ s ht, hu]
  have r : reachable u (.dorlink h.key) = s.pins.rdy := by rw [hu]; rfl
  rw [e0]
  unfold mgmtAccess
  rw [r]
  exact ⟨fun g => by rw [g]; rfl, fun g g2 => by rw [g, g2]; rfl, fun g g2 => by rw [g, g2]; rfl⟩

/-- The blocks of a well-formed access are one. -/

theorem same_block {off len i : Nat} (h : off / 0x10000 = (off + len - 1) / 0x10000) (hi : i < len / 4) : (off + 4 * i) / 0x10000 = off / 0x10000 := by
  omega

theorem i3cTransfer_at {s : State} {ok : State → Bool} (f : State → State) (ha : 2 ∈ s.start.done) (hok : ok s = true) : i3cTransfer ok f s = f s := by
  unfold i3cTransfer
  rw [if_pos]
  show (s.start.done.contains 2 && ok s) = true
  rw [Bool.and_eq_true, List.contains_iff_mem]
  exact ⟨ha, hok⟩

theorem i3cTransfer_nack {s : State} {ok : State → Bool} (f : State → State) (h : 2 ∉ s.start.done ∨ ok s = false) :
    i3cTransfer ok f s = { s with mgmt := { s.mgmt with reply := [] } } := by
  unfold i3cTransfer
  rw [if_neg]
  · rfl
  · show ¬ (s.start.done.contains 2 && ok s) = true
    rw [Bool.and_eq_true, List.contains_iff_mem]
    rintro ⟨a, b⟩
    rcases h with h | h
    · exact h a
    · rw [h] at b; cases b

theorem i3cWriteOk_iff (bytes : List Byte) : i3cWriteOk bytes = true ↔
    (4 ≤ bytes.length ∧ field bytes 0 4 < 2 ^ 24 ∧ field bytes 0 4 % 4 = 0 ∧ (bytes.length = 4 ∨ accessOk (field bytes 0 4) (bytes.length - 4) = true)) := by
  unfold i3cWriteOk
  simp only [Bool.and_eq_true, Bool.or_eq_true, beq_iff_eq, decide_eq_true_eq, and_assoc]

/-- The word a low register shows. -/

theorem regWord_low (lat : List Nat) (s : State) :
    regWord lat s 0x00108 = now s % 2 ^ 32 ∧ regWord lat s 0x60120 = s.attn.keys % 2 ^ 32 ∧
    regWord lat s 0x90020 = (if s.start.wearReady then s.ftl.seqNo else 0) % 2 ^ 32 ∧
    regWord lat s 0xA0304 = (ctxOf s s.sch.acctSel).cyc % 2 ^ 32 ∧ regWord lat s 0xA0310 = (ctxOf s s.sch.acctSel).save % 2 ^ 32 ∧
    regWord lat s 0xD0028 = bbxWord s := by
  refine ⟨?_, ?_, ?_, ?_, ?_, ?_⟩
  · rfl
  · rfl
  · show (if s.start.wearReady = true then lo32 s.ftl.seqNo else 0) = _
    cases s.start.wearReady <;> rfl
  · rfl
  · rfl
  · rfl

theorem regWord_high (lat : List Nat) (s : State) :
    regWord lat s 0x0010C = nth lat 0 0 ∧ regWord lat s 0x60124 = nth lat 1 0 ∧ regWord lat s 0x90024 = nth lat 2 0 ∧
    regWord lat s 0xA0308 = nth lat 3 0 ∧ regWord lat s 0xA0314 = nth lat 4 0 := by
  refine ⟨?_, ?_, ?_, ?_, ?_⟩
  · rfl
  · rfl
  · rfl
  · rfl
  · rfl

theorem readOne_at {path : Path} {off : Nat} {s : State} (h : servedAt path off s = true) :
    readOne path off s = putReply [(readWord path off s).1] (readWord path off s).2 := servedAt_access h _

theorem operator_reads {path : Path} {off : Nat} {s : State} (ho : (partyOf s path).isOperator = true) : readWord path off s = rawRead path off s := by
  have h : partyOf s path = .operator := by
    generalize partyOf s path = x at ho ⊢
    cases x <;> first | rfl | cases ho
  unfold readWord
  rw [h]
  rfl

/-- The operator's read of a low word, which latches the upper one for the path it uses. -/

theorem pair_read {path : Path} {off i V : Nat} {s : State} (h : operates path off s = true) (hw : ∀ lat, regWord lat s off = V % 2 ^ 32)
    (hn : highNow s i = V / 2 ^ 32 % 2 ^ 32) (hl : latchAt off = some i) (hd : (off == 0xB002C) = false) :
    readOne path off s = { s with mgmt := { s.mgmt with
      reply := [V % 2 ^ 32]
      latI3c := if path = .i3c then lput s.mgmt.latI3c i (V / 2 ^ 32 % 2 ^ 32) else s.mgmt.latI3c
      latDl := if path = .i3c then s.mgmt.latDl else lput s.mgmt.latDl i (V / 2 ^ 32 % 2 ^ 32) } } := by
  obtain ⟨hs, ho⟩ : servedAt path off s = true ∧ (partyOf s path).isOperator = true := by
    unfold operates at h; rw [Bool.and_eq_true] at h; exact h
  rw [readOne_at hs, operator_reads ho]
  have e : rawRead path off s = (V % 2 ^ 32, latch path i s) := by
    unfold rawRead readEffect
    rw [if_neg (by rw [hd]; exact Bool.false_ne_true), hw, hl]
  rw [e]
  unfold latch
  rw [hn]
  cases path <;> rfl

/-- One access of the operator that reads both words of a pair gives one value. -/

theorem pair_whole {h : Hdr} {off i V : Nat} {s : State} (ho : operates (.dorlink h.key) off s = true) (ht : takes h s = true) (hlen : i < s.mgmt.latDl.length)
    (hw : ∀ lat, regWord lat (took h mtMgmtRd s) off = V % 2 ^ 32) (hh : ∀ lat (t : State), regWord lat t (off + 4) = nth lat i 0)
    (hn : highNow (took h mtMgmtRd s) i = V / 2 ^ 32 % 2 ^ 32) (hl : latchAt off = some i) (hl4 : latchAt (off + 4) = none)
    (hd : (off == 0xB002C) = false ∧ (off + 4 == 0xB002C) = false ∧ (off + 4 == 0xD0028) = false) (hok : accessOk off 8 = true) :
    exec (.mgmtRd h off 8) s = .next (reply h mtMgmtData 3 0 0 (leBytes 4 (V % 2 ^ 32) ++ leBytes 4 (V / 2 ^ 32 % 2 ^ 32))
      { took h mtMgmtRd s with mgmt := { s.mgmt with latDl := lput s.mgmt.latDl i (V / 2 ^ 32 % 2 ^ 32) } }) := by
  obtain ⟨hs, hp⟩ : servedAt (.dorlink h.key) off s = true ∧ (partyOf s (.dorlink h.key)).isOperator = true := by
    unfold operates at ho; rw [Bool.and_eq_true] at ho; exact ho
  have hr : s.pins.rdy = true := by
    unfold servedAt at hs; simp only [Bool.and_eq_true] at hs; exact hs.1.1.1
  rw [(mgmtRd_clause s _ h off 8 ht rfl).2.2 hr hok]
  obtain ⟨u, hu⟩ : ∃ u, u = took h mtMgmtRd s := ⟨_, rfl⟩
  have um : u.mgmt = s.mgmt := by rw [hu]; rfl
  have up : (partyOf u (.dorlink h.key)).isOperator = true := by rw [hu]; exact hp
  rw [← hu] at hw hn ⊢
  obtain ⟨w, hw'⟩ : ∃ w : State, w = { u with mgmt := { s.mgmt with latDl := lput s.mgmt.latDl i (V / 2 ^ 32 % 2 ^ 32) } } := ⟨_, rfl⟩
  have e1 : readWord (.dorlink h.key) off u = (V % 2 ^ 32, w) := by
    rw [operator_reads up]
    unfold rawRead readEffect
    rw [if_neg (by rw [hd.1]; exact Bool.false_ne_true), hw, hl]
    dsimp only
    have : latch (.dorlink h.key) i u = w := by
      show { u with mgmt := { u.mgmt with latDl := lput u.mgmt.latDl i (highNow u i) } } = w
      rw [hn, hw', um]
    rw [this]
  have wp : (partyOf w (.dorlink h.key)).isOperator = true := by rw [hw']; exact up
  have e2 : readWord (.dorlink h.key) (off + 4) w = (V / 2 ^ 32 % 2 ^ 32, w) := by
    rw [operator_reads wp]
    unfold rawRead readEffect
    rw [if_neg (by rw [hd.2.1]; exact Bool.false_ne_true), hh, hl4]
    dsimp only
    rw [if_neg (by rw [hd.2.2]; exact Bool.false_ne_true), hw']
    show (nth (lput s.mgmt.latDl i _) i 0, _) = _
    rw [nth_lput _ _ _ _ hlen]
  unfold answerMgmtRd
  rw [show 8 / 4 = 2 from rfl]
  simp only [readWords, if_true, e1, e2]
  rw [← hw']
  rfl

/-- What a party that is not the operator reads of a register that it does not read exactly. -/

theorem tenant_reads {path : Path} {off : Nat} {s : State} (h : servedAt path off s = true) (hn : (partyOf s path).isOperator = false)
    (ha : allExact off = false) (hm : ∀ p, partyOf s path = .mgmt p → mgmtExact p off = false) :
    readOne path off s = { s with mgmt := { s.mgmt with reply := [if partyOf s path = .nobody then 0 else tenantWord s (pathTenant s path) off] } } := by
  rw [readOne_at h]
  have e : readWord path off s = (if partyOf s path = .nobody then 0 else tenantWord s (pathTenant s path) off, s) := by
    unfold readWord
    have : readsExact (partyOf s path) off = false := by
      generalize hx : partyOf s path = x at hn hm
      cases x with
      | operator => cases hn
      | mgmt p => show (allExact off || mgmtExact p off) = false; rw [ha, hm p rfl]; rfl
      | tenant t => exact ha
      | nobody => rfl
    rw [if_neg (by rw [this]; exact Bool.false_ne_true)]
    by_cases g : partyOf s path = .nobody
    · rw [if_pos g, if_pos (by rw [g]; rfl)]
    · rw [if_neg g, if_neg (by simpa using g)]
  rw [e]
  rfl

theorem registerWrite_ignored {path : Path} {off v : Nat} {s : State} (h : servedAt path off s = false ∨ (∃ t, partyOf s path = .tenant t) ∨ partyOf s path = .nobody ∨
    off / 0x10000 ∈ [0, 2, 7, 15] ∨ 16 ≤ off / 0x10000) : exec (.registerWrite path off v) s = .next s := by
  show Host.Outcome.next (regAccess path off (writeWord path off v) s) = _
  refine congrArg Host.Outcome.next ?_
  by_cases hs : servedAt path off s = true
  · rw [servedAt_access hs]
    unfold writeWord
    rcases h with g | ⟨t, g⟩ | g | g
    · rw [g] at hs; cases hs
    · rw [g]
    · rw [g]
    · cases partyOf s path with
      | tenant t => rfl
      | nobody => rfl
      | operator =>
        show operatorWrite path off (v % 2 ^ 32) s = s
        unfold operatorWrite
        dsimp only
        generalize off / 0x10000 = b at g
        rcases g with g | g
        · simp only [List.mem_cons, List.not_mem_nil, or_false] at g
          rcases g with rfl | rfl | rfl | rfl <;> rfl
        · split <;> first | rfl | omega
      | mgmt p =>
        show mgmtWrite path p off (v % 2 ^ 32) s = s
        unfold mgmtWrite
        dsimp only
        generalize off / 0x10000 = b at g
        rcases g with g | g
        · simp only [List.mem_cons, List.not_mem_nil, or_false] at g
          rcases g with rfl | rfl | rfl | rfl <;> rfl
        · split <;> first | rfl | omega
  · unfold regAccess
    exact if_neg hs

theorem operator_writes {path : Path} {off v : Nat} {s : State} (h : operates path off s = true) (hv : v < 2 ^ 32) :
    exec (.registerWrite path off v) s = .next (operatorWrite path off v s) := by
  obtain ⟨hs, ho⟩ : servedAt path off s = true ∧ (partyOf s path).isOperator = true := by
    unfold operates at h; rw [Bool.and_eq_true] at h; exact h
  show Host.Outcome.next (regAccess path off (writeWord path off v) s) = _
  rw [servedAt_access hs]
  have hx : partyOf s path = .operator := by
    generalize partyOf s path = x at ho ⊢
    cases x <;> first | rfl | cases ho
  unfold writeWord
  rw [hx]
  dsimp only
  rw [Nat.mod_eq_of_lt hv]

end Sys2Proof.Machine
end

