-- ==== Sys2Proof/Laws/Step.lean ====
section
/-! SUPPORT. What every command does, said once: it ends in a next state, within its footprint. -/

namespace Sys2Proof.Machine

open Sys2Proof

/-- Every command ends in a next state. -/
theorem exec_ends (c : Instr) (s : State) : ∃ t, exec c s = .next t := by
  cases c with
  | spdm h code body =>
    show ∃ t, execSpdm h code body s = .next t
    unfold execSpdm
    split <;> exact ⟨_, rfl⟩
  | _ => exact ⟨_, rfl⟩

/-- A step of a waiting command is that command on the state with the queue's rest. -/
theorem step_front {s : State} {c : Instr} {rest : List Instr} (h : s.pending = c :: rest) : step s = exec c { s with pending := rest } := by
  unfold step
  rw [h]

end Sys2Proof.Machine
end

