-- ==== Sys2Proof/Machine/OnFlash.lean ====
section
/-! DEFINITION. What the flash map and the flash pages hold, byte for byte: the entries of the map (R307), page headers (R314), block
headers (R315) and the encrypted data (R317). Nothing a command does rests on these bytes: they say where each field of State
stands in HBM and on flash. -/

namespace Sys2Proof.Machine

open Sys2Proof

/-! ### Where a granule lies (Table 10.5) -/

/-- A member die as a page address and a block header name it: channel in [5:0], target in [9:6]. -/
def dieField (die : Nat) : Nat := pack [fld 0 6 (die / 16), fld 6 4 die]

/-- The page of a place of a stripe: consecutive granules fill the four planes of a block, then the same page of the next block
(R303, log 7). -/
def flashPageAt (st : Stripe) (at_ : Nat) : Nat :=
  let k := blockAt st at_
  pack [(0, dieField (k / 2 ^ 14)), fld 10 14 k, fld 24 2 at_, fld 26 11 (at_ / (4 * max 1 st.blocks.length))]

/-- The page of a granule of an image or record that lies `x.2` granules into a place. -/
def flashPageOf (f : Ftl) (x : FPlace × Nat) : Option Nat := (mget f.stripes x.1.stripe).map fun st => flashPageAt st (x.1.at_ + x.2)

/-! ### The map (R307) -/

/-- Large-unit map entry (Table 10.4). -/
def mapWord (u : FUnit) : Nat :=
  let loc := match u.slot with
    | some (stripe, slot) => pack [fld 0 9 slot, fld 9 19 stripe]
    | none => u.table.getD 0
  pack [fld 0 28 loc, fld 28 2 u.kind]

/-- Ledger of a unit. -/
def ledgerWord (u : FUnit) : Nat := pack [fld 0 9 u.alloc, fld 16 8 u.heat]

/-- Fine entry of a logical granule (Table 10.5): of the image that has it, where it is programmed. -/
def fineWord (f : Ftl) (lga : Nat) : Nat :=
  match f.images.find? fun x => x.2.programmed && decide (x.2.first ≤ lga) && decide (lga < x.2.first + x.2.granules) with
  | none => 0
  | some (_, i) => match granulePlace i (lga - i.first) with
    | none => 0
    | some x => match mget f.stripes x.1.stripe, flashPageOf f x with
      | some st, some p => pack [fld 0 37 p, flagAt 37 (st.use != 0), flagAt 38 true]
      | _, _ => 0

/-- The fine table of a unit. -/
def fineTable (f : Ftl) (unit : Nat) : List Byte := (List.range 256).flatMap fun g => leBytes 8 (fineWord f (256 * unit + g))

/-! ### Page headers (Table 10.6) -/

/-- A page header before its CRC: the fields of Table 10.6. -/
structure PageHead where
  kind : Nat
  oneBit : Bool
  durable : Bool
  flush : Bool := false
  last : Bool
  tenant : Nat
  region : Nat
  lga : Nat := 0
  seq : Nat
  gen : Nat
  index : Nat
  id : Nat × Nat × Nat

/-- A header's 64 bytes: its CRC-32C is over the 60 before it. -/
def PageHead.bytes (h : PageHead) : List Byte :=
  let b := leBytes 1 h.kind ++ leBytes 1 (pack [flagAt 0 h.oneBit, flagAt 1 h.durable, flagAt 2 h.flush, flagAt 3 h.last]) ++
    leBytes 2 h.tenant ++ leBytes 4 (h.region % 256) ++ leBytes 8 (h.lga % 2 ^ 36) ++ leBytes 8 h.seq ++ leBytes 2 h.gen ++
    leBytes 2 h.index ++ leBytes 4 h.id.1 ++ leBytes 8 h.id.2.1 ++ leBytes 8 h.id.2.2 ++ leBytes 12 0
  b ++ leBytes 4 (crc32c b)

/-- The identity fields of an image (Table 10.7). -/
def identFields : Ident → Nat × Nat × Nat
  | .page handle layer sid first size codec => (pack [fld 0 24 handle, fld 24 8 layer], sid, pack [fld 0 23 first, fld 23 4 size, fld 27 3 codec])
  | .block layer bid => (layer % 256, bid, 0)
  | .tile handle oid i => (handle % 2 ^ 20, oid, i)

/-- The identity fields of a record (Table 10.7): a catalog granule holds one record here (log 7). -/
def recFields : RecBody → Nat × Nat × Nat
  | .journal handle sid layer layers first count _ =>
    (pack [fld 0 24 handle, fld 24 8 layer], sid, pack [fld 0 23 first, fld 23 23 count, fld 46 8 (layers - 1)])
  | .catalog _ => (1, 0, 0)

/-- The tenant a header names: the one whose key encrypts the data, 0xFFFF for none (Table 10.6). Tenant 0 has no flash key (log 10). -/
def tenantField (s : State) (t : Nat) : Nat := if ((mget s.sec.tenants t).bind fun x => x.flashKey).isSome then t else 0xFFFF

/-- Whether a place is in a one-bit block. -/
def oneBitAt (f : Ftl) (p : FPlace) : Bool := ((mget f.stripes p.stripe).map fun st => st.use != 0).getD false

/-- Header of a programmed granule of an image. -/
def imageHead (s : State) (i : FImage) (g : Nat) : Option PageHead :=
  (granulePlace i g).map fun x =>
    { kind := 1, oneBit := oneBitAt s.ftl x.1, durable := i.durable, last := g + 1 == i.granules, tenant := tenantField s i.tenant
      region := regionOf (i.unit / 4096), lga := i.first + g, seq := x.1.seq + x.2, gen := x.1.gen, index := g, id := identFields i.ident }

/-- Region of a record's key; a catalog record has none. -/
def recRegion : RecBody → Nat
  | .journal handle _ _ _ first .. => regionOf (keySeq handle first)
  | .catalog _ => 0

/-- Header of a programmed granule of a record. -/
def recHead (s : State) (r : FRec) (g : Nat) : Option PageHead :=
  (placeOf r.places g).map fun x =>
    { kind := match r.body with
        | .journal .. => 2
        | .catalog _ => 3
      oneBit := oneBitAt s.ftl x.1, durable := r.durable, last := g + 1 == max 1 (ceilDiv r.bytes granuleBytes)
      tenant := tenantField s r.tenant, region := recRegion r.body, seq := x.1.seq + x.2, gen := x.1.gen, index := g, id := recFields r.body }

/-! ### Block headers (Table 10.8) -/

/-- Header of the block at a position of a stripe, 64 bytes. -/
def blockHead (f : Ftl) (id pos : Nat) : List Byte :=
  match mget f.stripes id with
  | none => []
  | some st =>
    let k := nth st.blocks pos 0
    let b := leBytes 1 5 ++ leBytes 1 st.use ++ leBytes 1 (if st.use == 0 then st.region else 0) ++ leBytes 1 0 ++
      leBytes 4 (fblock f k).erases ++ leBytes 4 (pack [fld 0 19 id, fld 19 4 pos]) ++
      ((List.range 16).flatMap fun j => leBytes 2 (if j < st.blocks.length then dieField (nth st.blocks j 0 / 2 ^ 14) else 0)) ++
      leBytes 8 st.opened ++ leBytes 8 0
    b ++ leBytes 4 (crc32c b)

/-! ### The data area (R317) -/

/-- The 16 KiB of an image's granule, or of a journal record's, in clear; the last is filled up with zeros. -/
def granuleOf (bs : List Byte) (g : Nat) : List Byte :=
  let l := (bs.drop (granuleBytes * g)).take granuleBytes
  l ++ List.replicate (granuleBytes - l.length) 0

/-- The bytes of an image: a weight tile, or a page image (R253). -/
def FImage.bytes (i : FImage) : List Byte :=
  match i.ident, i.page.content with
  | .tile .., .raw rows => rows.flatten
  | _, _ => imageBytes i.page.model i.page

/-- A 16 KiB data area under a flash key: four data units of 4,096 bytes, each with the tweak (page << 2) + its index. -/
def sealArea (key : List Byte) (page : Nat) (bs : List Byte) : List Byte :=
  (List.range 4).flatMap fun u => xtsSeal key (4 * page + u) ((bs.drop (4096 * u)).take 4096)

/-- What the data area of a page holds for a tenant: in clear where the tenant has no key. -/
def areaFor (s : State) (tenant page : Nat) (bs : List Byte) : List Byte :=
  match (mget s.sec.tenants tenant).bind fun x => x.flashKey with
  | some key => sealArea key page bs
  | none => bs

/-- The data area of a programmed granule of an image. -/
def imageArea (s : State) (i : FImage) (g : Nat) : Option (List Byte) :=
  (granulePlace i g).bind fun x => (flashPageOf s.ftl x).map fun page => areaFor s i.tenant page (granuleOf i.bytes g)

/-- The rows of a journal record, in layer order and then position order (R311). -/
def journalBytes : RecBody → Option (List Byte)
  | .journal _ _ _ _ _ _ rows => some rows.flatten.flatten
  | .catalog _ => none

/-- The data area of a programmed granule of a journal record. -/
def journalArea (s : State) (r : FRec) (g : Nat) : Option (List Byte) :=
  (placeOf r.places g).bind fun x => (flashPageOf s.ftl x).bind fun page => (journalBytes r.body).map fun bs =>
    areaFor s r.tenant page (granuleOf bs g)

end Sys2Proof.Machine
end

