-- ==== Sys2Proof/WellFormed.lean ====
section
/-! DEFINITION. Which commands can arrive at all: each operand inside the field or the unit count the spec gives it. -/

namespace Sys2Proof

/-- A message header: one of 16 ports (R82), a 16-bit origin node and a 32-bit job key index (Table 4.4), a
16-bit tag. -/
def Hdr.wf (h : Hdr) : Bool :=
  decide (h.port < 16) && decide (h.src < 65536) && decide (h.key < 2 ^ 32) && decide (h.tag < 65536)

/-- A management path: a key index is 32 bits wide (Table 4.4). -/
def Path.wf : Path → Bool
  | .i3c => true
  | .dorlink key => decide (key < 2 ^ 32)

/-- Ring index (R116), cluster and core numbers (R3), partition (R338), port (R82). -/
def okRing (n : Nat) : Bool := decide (n < 16384)
def okCore (cluster core : Nat) : Bool := decide (cluster < 32) && decide (core < 64)
def okPart (n : Nat) : Bool := decide (n < 16)
def okPort (n : Nat) : Bool := decide (n < 16)

/-- A frame carries a 256-byte body (R89). -/
def Frame.wf (f : Frame) : Bool := f.body.length == 256

/-- Nine wavelengths per direction (R85). -/
def okLane (n : Nat) : Bool := decide (n < 9)

/-- A coherent line address is a multiple of 64 inside 48 bits (R99, R293). -/
def okLine (a : Nat) : Bool := a % 64 == 0 && decide (a < 2 ^ 48)

/-- A fault unit of Table 13.5. -/
def FailUnit.wf : FailUnit → Bool
  | .ftl => true
  | .hbm s => decide (s < 8)
  | .other c u => decide (c < 256) && decide (u < 65536)

/-- Whether a command's operands lie inside their fields. -/
def Instr.wf : Instr → Bool
  | .vin60Contact vin | .softStartDone vin | .undervoltage vin | .overvoltageShutdown vin => decide (vin < 65536)
  | .prsntEarlyHigh | .outputsEnable | .prsntLateHigh | .pwrfailAssert | .diodeReverseCurrent | .windowFlushDone
  | .bankBelowReady | .unplugRequest | .quiesceOpDeadline | .thermalLevelExit | .powerLevelStepDown
  | .leakResponse | .lossOfLock | .epochPrewrite | .cclkWrap | .rstLFall | .sensorTrimDone | .hbmZeroDone
  | .serviceStartDone | .rdyAssert | .blockPassDone | .regionScanDone | .ondemandScanDone | .heatHalving
  | .halvingSweepEnd | .writeHeatHalving | .catalogCompaction | .reserveRefill | .slowdownPublish
  | .removeDrainDone | .tenantViewSnapshot | .powerViewSnapshot | .saddlebagEventWrite
  | .suppressionIntervalEnd | .saddlebagCopyDone | .helloInterval | .rstdaa | .getpid | .getbcr | .getdcr
  | .getstatus | .bankBleedBelow20v => true
  | .bankChargeDone energy => decide (energy < 65536)
  | .sensorSample n temp => decide (n < 64) && decide (-2048 ≤ temp) && decide (temp < 2048)
  | .rstLRise _ => true
  | .cfgRestart p key => p.wf && decide (key < 65536)
  | .refclkPresent badWords => badWords.all fun w => decide (w < 1024)
  | .pllLock straps => decide (straps < 8)
  | .imageSlotChecked img => decide (img.bytes.length ≤ 0x2000000)
  | .hbmTrainingDone ppr failed =>
    (ppr.all fun x => decide (x.1 < 8)) && (failed.all fun s => decide (s < 8))
  | .onfiTrainingDone _ present offline =>
    (present ++ offline).all fun x => decide (x.1 < 48) && decide (x.2 < 16)
  | .arrayChecksDone banks rows tally =>
    (banks.all fun b => decide (b < 34)) && (rows.all fun x => decide (x.1 < 32)) &&
      (tally.all fun w => decide (w < 1024))
  | .coreSelfTestDone bad => bad.all fun x => decide (x.1 < 32) && decide (x.2 < 66)
  | .opticalCalibrationDone bays lanes => bays.length == 5 && lanes.length == 16
  | .linkUp port peer => okPort port && decide (peer < 65536)
  | .portDown port => okPort port
  | .laserBayLow bay _ _ => decide (bay < 5)
  | .laneMarginFail port lane | .subReq port lane | .subReady port lane | .subDone port lane =>
    okPort port && okLane lane
  | .frameReceive port f => okPort port && f.wf
  | .flitForward port flit => okPort port && flit.length == 256
  | .rdUnc h addr len => h.wf && decide (0 < len) && decide (addr % 64 + len ≤ 64)
  | .wrUnc h addr mask d => h.wf && okLine addr && decide (mask < 2 ^ 64) && d.length == 64
  | .rdS h addr | .rdE h addr | .upg h addr => h.wf && okLine addr
  | .wb h addr d => h.wf && okLine addr && d.length == 64
  | .snpResp h addr dt _ => h.wf && okLine addr && (dt.all fun d => d.length == 64)
  | .snoopTimeout addr node => okLine addr && decide (node < 65536)
  | .doorbell h ring first cqHead count entries =>
    h.wf && okRing ring && decide (first < 65536) && decide (cqHead < 65536) && entries.length == count &&
      entries.all fun e => e.length == 64
  | .data h _ bytes => h.wf && decide (bytes.length ≤ 4096)
  | .ack h => h.wf
  | .nak h status => h.wf && decide (status < 65536)
  | .requesterReadTimeout tag | .tileAckTimeout tag | .peerReadTimeout tag => decide (tag < 65536)
  | .tileSend _ | .ladderDemoteTimeout _ | .publishWaitEnd _ | .stepSubchunkIssue _ | .deadlineEvaluation _
  | .writePathTimeout _ | .translationDrainDone _ | .fold _ | .moveCopyDone _ _ | .flashProgramDone _ _ => true
  | .completionWrite ring | .ringDrainDone ring | .unknownOp ring | .seqOpen ring | .seqClose ring
  | .seqFork ring | .kvAppend ring | .pfxLookup ring | .pfxPublish ring | .pfxRetire ring | .attnDecode ring
  | .attnChunk ring | .attnBwd ring | .kvFetch ring | .kvPrefetch ring | .objHint ring | .objMigrate ring
  | .wtLoad ring | .wtStream ring | .extGrant ring | .discard ring | .discardSecure ring | .step ring
  | .nop ring => okRing ring
  | .extRevoke ring index => okRing ring && decide (index < 65536)
  | .freedRunService part | .encodeDone part | .ticketWrite part | .backgroundMove part | .quantumExpiry part
  | .cheapWaitExpiry part | .saveDone part | .scrubDone part | .restoreDone part => okPart part
  | .mdLoad p | .mdRead p | .mdUnload p | .policyInsert p | .policyDelete p | .policyRead p | .ctxWrite p
  | .ctxRead p | .ctxDisable p | .debugHalt p _ | .debugStep p | .operatorSnapshot p | .bbxReadDataRead p
  | .rngWriteEntry p | .rngReadEntry p | .rngSetDrain p | .topCclkLoRead p | .atnKeysLoRead p
  | .ftlSeqLoRead p | .schAcctCycLoRead p | .schAcctSaveLoRead p => p.wf
  | .pmaPatrolRead errors => errors.all fun b => decide (b < 32)
  | .workUnitDispatch cluster core | .workUnitEnd cluster core | .cheapPointStop cluster core _ =>
    okCore cluster core
  | .tierQuotaWrite p part k value => p.wf && okPart part && decide (k < 5) && decide (value < 2 ^ 32)
  | .extZeroDone ext | .gracePeriodEnd ext => decide (ext < 4096)
  | .snoopFilterScanDone ctrl ext => decide (ctrl < 8) && decide (ext < 4096)
  | .flashReadDone _ _ st => decide (st ≤ 5)
  | .gcCollect die => decide (die < 768)
  | .stripeCloseVerify _ _ | .flashPatrol _ _ => true
  | .hourOfService junction flash => decide (-2048 ≤ junction) && decide (-2048 ≤ flash)
  | .sramUncorrectable cluster _ => decide (cluster < 32)
  | .microcodeTrap cluster | .cheapPointTimeout cluster | .fabricPortProtocolError cluster =>
    decide (cluster < 32)
  | .partitionResetWrite p part => p.wf && okPart part
  | .partitionResetDone part bad => okPart part && bad.all fun x => decide (x.1 < 32) && decide (x.2 < 66)
  | .kmRequestReceive session code flags len kmSeq named _ =>
    decide (session < 64) && decide (code < 2 ^ 8) && decide (flags < 2 ^ 8) && decide (len < 2 ^ 16) && decide (kmSeq < 2 ^ 32) && decide (named < 2 ^ 32)
  | .kmTenantCreate session | .kmTenantRemove session | .kmJobOpen session | .kmJobClose session
  | .kmPeerOpen session => decide (session < 64)
  | .getVersion h _ | .getCapabilities h _ | .negotiateAlgorithms h _ | .getDigests h _ | .getCertificate h _
  | .challenge h _ | .getMeasurements h _ | .keyExchange h _ | .finish h _ | .endSession h _ => h.wf
  | .spdmUnsupported h code _ | .spdm h code _ => h.wf && decide (code < 256)
  | .fuseProgram p key slot | .fuseRevoke p key slot =>
    p.wf && decide (key < 65536) && decide (slot < 65536)
  | .debugDataAccess p write => p.wf && write.all fun v => decide (v < 2 ^ 32)
  | .hbmBackgroundZero part _ _ => okPart part
  | .bankRebuildDone bank => decide (bank < 32)
  | .hbmUncorrectable _ => true
  | .hbmCorrectedError stack _ | .hbmRemapDone stack _ => decide (stack < 8)
  | .bridgeCrcLimit die _ | .bridgeRetrainDone die _ => decide (die < 3)
  | .fatalMemoryInternal _ unit _ _ => unit.wf
  | .holdSlot p slot | .releaseSlot p slot => p.wf && decide (slot < 4)
  | .tlyWordWrite p value => p.wf && decide (value < 2 ^ 32)
  | .hello h pos view mask epoch digest =>
    h.wf && decide (pos < 8) && decide (view < 65536) && decide (mask < 256) && decide (epoch < 2 ^ 32) &&
      digest.length == 64
  | .positionDead pos => decide (pos < 8)
  | .search h view _ _ _ keys => h.wf && decide (view < 65536) && keys.all fun k => k.length == 64
  | .searchAck h _ _ => h.wf
  | .claim h view _ _ => h.wf && decide (view < 65536)
  | .result h _ _ | .release h _ => h.wf
  | .read h _ _ _ _ => h.wf
  | .pageData h status _ => h.wf && decide (status < 65536)
  | .mgmtRd h _ _ => h.wf
  | .mgmtWr h _ _ => h.wf
  | .i3cPrivateWrite _ => true
  | .i3cPrivateRead _ => true
  | .entdaa addr | .setdasa addr => decide (addr < 128)
  | .registerWrite p off value => p.wf && decide (off < 2 ^ 24) && decide (value < 2 ^ 32)
  | .stirrupBeat value => decide (value < 256)
  | .powerGovernorMeasure vin power need _ => decide (vin < 65536) && decide (power < 65536) && decide (need < 4)
  | .flashEraseDone die block _ => decide (die < 768) && decide (block < 16384)

end Sys2Proof
end

