-- ==== Sys2Proof/Tests/Slice0.lean ====
section
/-! SUPPORT. Small states that meet the hypotheses of each statement, clause by clause, ill-formed commands for each check, and single steps
against values the manual gives. -/

namespace Sys2Proof.Tests

open Sys2Proof Sys2Proof.Machine

set_option Elab.async false

/-! ### Small states -/

/-- An image with two partitions of two clusters, model slot 0 the first's. -/
def wImg : Image := { parts := [{ clusters := [0, 1], spaceOnly := false }, { clusters := [2, 3], spaceOnly := false }], slotPart := [some 0] }

/-- A device in service: context 1 of tenant 1 on partition 0, ring 0 under job key 5 of node 7, a management key 4 of the operator, a pair key 6 of node 8. -/
def wDev : State := { State.reset with
  pins := { State.reset.pins with prsntEarly := true, prsntLate := true, outputsEnabled := true, rdy := true }
  pwr := { State.reset.pwr with rail := .valid, converters := true }
  clk := { State.reset.clk with refPresent := true, pllLocked := true, running := true }
  start := { State.reset.start with done := List.range 14, wearReady := true, regions := List.range 256 }
  img := { State.reset.img with accepted := true, cur := some wImg }
  rng := { State.reset.rng with rings := [(0, { context := 1, sqLog2 := 4, cqLog2 := 4, key := 5, reqNode := 7, cplNode := 7, enable := true })] }
  sch := { State.reset.sch with ctxs := [(1, { enable := true, part := 0, tenant := 1 })] }
  sec := { State.reset.sec with
    keys := [(4, { tenant := 0, node := 9, bytes := [] }), (5, { tenant := 1, node := 7, bytes := [] }), (6, { tenant := 0, node := 8, bytes := [], pair := true })]
    slots := [(0, { tenant := 1, bound := true })]
    tenants := [(0, { created := true }), (1, { created := true })] } }

/-- A submission entry of context 1. -/
def wRaw (op : Nat) (inl : List Byte) (len : Nat) : List Byte :=
  padTo 64 (leBytes 2 op ++ leBytes 2 1 ++ List.replicate 12 0 ++ leBytes 4 len ++ List.replicate 4 0 ++ inl)

/-- The device with one accepted entry, its operands read. -/
def wOp (s : State) (op : Nat) (inl ops : List Byte) : State :=
  { s with rng := { s.rng with rings := mmod s.rng.rings 0 fun r =>
    { r with taken := 1, submitted := 1, sqTail := 1, entries := [{ idx := 0, raw := wRaw op inl ops.length, arrival := 0, operands := some ops }] } } }

/-- A header from node 7 under key 5, and from the pair's node under key 6. -/
def wHdr : Hdr := { port := 0, src := 7, key := 5, tag := 3 }
def wPair : Hdr := { port := 0, src := 8, key := 6, tag := 3 }

/-- The entry that a ring of one entry holds. -/
def wEnt (s : State) : Entry := (ringOf s 0).entries.headD { idx := 0, raw := [], arrival := 0 }

/-! ### States that meet the hypotheses of each statement, clause by clause -/

def wSoft (charged : Bool) : State := { State.reset with pwr := { State.reset.pwr with rail := .softStart, charged := charged } }
def wBank (declared : Nat) : State := { wDev with
  pwr := { wDev.pwr with charging := true, bleeding := true, measuring := true, eDeclared := declared } }

theorem meets_railAndBank :
    State.reset.pwr.rail = .off ∧
    4250 < 4251 ∧ (∀ b, (wSoft b).pwr.charged = b ∧ (wSoft b).pwr.partly = false ∧ (wSoft b).pwr.rail = .softStart ∧ alive (wSoft b) = false ∧ (wSoft b).pins.rst = false) ∧
    (wBank 100).pwr.charging = true ∧ (wBank 100).pwr.bleeding = true ∧ (wBank 100).pins.prsntEarly = true ∧ (wBank 100).pwr.rail = .valid ∧
    (wBank 100).pwr.bankMismatch = false ∧ wDev.pwr.rail = .valid ∧ wDev.pwr.bleeding = false ∧ wDev.pwr.bankMismatch = false := by decide

/-- The energies where the clauses meet: 110 and 111 of 100 declared, 90 and 89. -/
theorem meets_bankEnergy : (wBank 100).pwr.charging = true ∧ (wBank 100).pwr.measuring = true ∧ (wBank 100).img.cur.isSome = true ∧
    10 * 110 ≤ 11 * (wBank 100).pwr.eDeclared ∧ 11 * (wBank 100).pwr.eDeclared < 10 * 111 ∧ 10 * 89 < 9 * (wBank 100).pwr.eDeclared ∧
    ¬ 10 * 90 < 9 * (wBank 100).pwr.eDeclared := by decide

def wRec : FRec := { body := .journal 1 1 0 0 0 0 [], bytes := 512, tenant := 1, seq := 0, durable := true, acked := true }
/-- A response at a stage, with an acknowledged record in the window or none. -/
def wResp (kind : RespKind) (stage : RespStage) (held : Bool) (copy : Option CopySt) : State := { wDev with
  resp := { kind := kind, stage := stage }
  ftl := { wDev.ftl with recs := if held then [(0, wRec)] else [] }
  bbx := { wDev.bbx with copy := copy } }

theorem meets_powerFail : Resting wDev ∧ wDev.pwr.safeToPull = false ∧ 3999 < 4000 ∧ 6400 < 6401 := by unfold Resting; decide

theorem meets_quiesce : let s := wOp wDev opNop [] []
    s.pins.rdy = true ∧ s.resp = {} ∧ anyAccepted s = true ∧ s.start.active = false ∧ operates .i3c 0x1000C s = true := by decide

theorem meets_responses :
    ((wResp .quiesce .ops true none).resp.stage = .ops ∧ anyAccepted (wResp .quiesce .ops true none) = false ∧ flushList (wResp .quiesce .ops true none) ≠ []) ∧
    (let s := wResp .quiesce .ops false none
     s.resp.stage = .ops ∧ s.resp.kind = .quiesce ∧ s.resp.bleedDue = false ∧ anyAccepted s = false ∧ windowRecs s = [] ∧ s.ext.table = [] ∧ s.bbx.frozen = false ∧ s.bbx.copy = none) ∧
    (let s := wResp .powerFail .flush true (some { slot := 0, cls := clsPower })
     s.resp = { kind := .powerFail, stage := .flush } ∧ s.bbx.copy.isSome = true) ∧
    (let s := wResp .quiesce .flush true none
     s.resp = { kind := .quiesce, stage := .flush } ∧ s.ext.table = [] ∧ s.bbx.frozen = false ∧ s.bbx.copy = none) ∧
    (let s := wResp .none .idle false (some { slot := 3, cls := clsOperator })
     s.bbx.copy = some { slot := 3, cls := clsOperator } ∧ s.resp.stage ≠ .copy ∧ 3 < s.bbx.slots.length) ∧
    (let s := wResp .quiesce .copy false (some { slot := 3, cls := clsUnplug })
     s.bbx.copy = some { slot := 3, cls := clsUnplug } ∧ s.resp.stage = .copy ∧ s.start.rstPulse = false ∧ s.resp.leakJoin = false ∧ s.resp.tripJoin = false ∧ s.resp.kind = .quiesce) := by
  decide

theorem meets_deadline : let s := wOp (wResp .quiesce .ops true none) opNop [] []
    s.resp.stage = .ops ∧ s.ops.tab = [] ∧ RingsOk s.rng ∧ flushList s ≠ [] := by
  unfold RingsOk RingOk; decide

def wBridge : State := { wDev with spare := { wDev.spare with retraining := [2] } }
theorem meets_fatal : Resting wDev ∧ wDev.pwr.safeToPull = false ∧ (63 : Nat) < 64 ∧ 63 < wDev.thm.temps.length ∧ 63 < wDev.thm.valid.length ∧
    wDev.thm.level < 4 ∧ entryAt (sensorKind 63) 4 ≤ 896 ∧ wDev.clk.pllLocked = true ∧ Resting wBridge ∧ wBridge.pwr.safeToPull = false ∧ 2 ∈ wBridge.spare.retraining := by
  unfold Resting; decide

/-- All work has stopped; or only the flush goes on. -/
def wHalted : State := { wDev with resp := { kind := .fatal, stage := .flush, halted := true } }
def wFlushOnly : State := { wDev with pwr := { wDev.pwr with flushOnly := true } }
theorem meets_stopped : atRest wHalted = true ∧ stopped wHalted = true ∧ silent wHalted = true ∧ atRest wFlushOnly = true ∧ stopped wFlushOnly = false ∧ atRest wDev = false ∧
    stopped wDev = false ∧ silent wDev = false := by decide

def wHot : State := { wDev with thm := { wDev.thm with level := 3, temps := lput wDev.thm.temps 0 816, valid := lput wDev.thm.valid 0 true } }
theorem meets_throttle :
    ((63 : Nat) < 64 ∧ wHot.thm.temps.length = 64 ∧ wHot.thm.valid.length = 64 ∧ wHot.thm.level < 4 ∧ 895 < entryAt (sensorKind 63) 4 ∧
      ∀ k, k < 64 → nth wHot.thm.valid k false = true → nth wHot.thm.temps k 0 < entryAt (sensorKind k) 4) ∧
    (0 < wHot.thm.level ∧ ∀ k, k < 64 → nth wHot.thm.valid k false = true → nth wHot.thm.temps k 0 ≤ entryAt (sensorKind k) wHot.thm.level - 24) := by decide

theorem meets_epoch : wDev.clk.running = true ∧ wDev.clk.prewritten = false ∧ wDev.tly.canPair 0 = true ∧
    { wDev with clk := { wDev.clk with prewritten := true } }.clk.prewritten = true := by decide

/-- A public key and the digest of it that a root slot keeps. -/
def wKey : List Byte := 4 :: ofNats (natBlock 66 p521Gx ++ natBlock 66 p521Gy)
def wKeyDigest : List Byte := ofNats (natBlock 64 0x27b9676ac0e98cf4baba737f74f65b37d42f22661cc2aaefee5afc12005e8680ac3698e53dd1f8fcbd238e72dbdbf8ceaab33e5f7e3977e86bdd151e8525f2ad)

/-- A start whose named phases have ended. -/
def wStart (done : List Nat) : State := { State.reset with
  pins := { State.reset.pins with outputsEnabled := true, rst := true }
  start := { State.reset.start with active := true, done := done, waiting := some false }
  img := { State.reset.img with accepted := true }
  sec := { State.reset.sec with roots := lput State.reset.sec.roots 0 { programmed := true, digest := wKeyDigest } } }
/-- The signed bytes of an image: its header, its directory, PORTS, CASCADE, KEYS, COSTS and four sections of no bytes. -/
def wSigned : List Byte :=
  let at_ := fun (typ n len : Nat) => padTo 16 (leBytes 2 typ ++ leBytes 2 1 ++ leBytes 4 (4096 * n) ++ leBytes 4 len)
  let head := padTo 32 (leBytes 4 0x525A5649 ++ leBytes 2 1 ++ leBytes 2 8 ++ leBytes 4 16612 ++ leBytes 4 0 ++ [7, 0xC0, 0, 0] ++ leBytes 4 1)
  let dir := at_ 1 1 24 ++ at_ 2 1 0 ++ at_ 3 2 24 ++ at_ 5 2 0 ++ at_ 8 3 272 ++ at_ 9 4 96 ++ at_ 11 4 0 ++ at_ 12 4 0
  let casc := leBytes 1 0 ++ leBytes 1 1 ++ List.replicate 2 0 ++ leBytes 2 1
  let costs := [opKvFetch, opKvPrefetch, opAttnDecode, opAttnChunk, opAttnBwd, opWtStream].flatMap fun o => padTo 16 (leBytes 1 o)
  padTo 4096 (padTo 256 (head ++ wKey) ++ dir) ++ padTo 4096 (leBytes 4 1 ++ leBytes 4 0x010101) ++ padTo 4096 casc ++ padTo 4096 [4] ++ costs
/-- Their signature under the key above (computed outside Lean). -/
def wSignature : List Byte := ofNats (
  natBlock 66 0x1a73d352443de29195dd91d6a64b5959479b52a6e5b123d9ab9e5ad7a112d7a8dd1ad3f164a3a4832051da6bd16b59fe21baeb490862c32ea05a5919d2ede37ad7d ++
  natBlock 66 0x8d5d63067d67ba14e54132db3cf0e574f9a2daac33bc04cd2620506dc7f33bdd1f4ac9e88bba6bd454eee72438daf6c488bc948723889e8a11af860c8eb3884530)
/-- An image that passes the ten checks. -/
def wGood : SlotImage :=
  { readOk := true, bytes := wSigned ++ wSignature
    decoded := [(2, .partitions [{ clusters := List.range 32, spaceOnly := false }]), (5, .thermos 160)] }

theorem meets_startPhases :
    partOk { tbit := 2, bitsPerCell := 4, wordlines := 192, blocks := 1 } = true ∧ partOk { tbit := 2, bitsPerCell := 4, wordlines := 191, blocks := 1 } = false ∧
    (wStart []).pins.rst = true ∧ (wStart []).start.waiting = some false ∧ inPhase (wStart []) 1 = true ∧ (loadTally [2] (wStart [])).tly.canPair 0 = true ∧
    inPhase (wStart [1]) 2 = true ∧ inPhase (wStart [1, 2, 3]) 4 = true ∧ (wStart [1, 2, 3]).start.readB = false ∧ checkImage (wStart [1, 2, 3]) { wGood with readOk := false } = 1 ∧
    inPhase (wStart [1, 2]) 5 = true ∧ inPhase (wStart [1, 2]) 6 = true ∧ inPhase (wStart [1, 2, 6]) 7 = true ∧ inPhase (wStart [1, 2, 3]) 8 = true ∧
    inPhase (wStart [1, 2, 3, 4, 6, 7]) 9 = true ∧ inPhase (wStart [1, 2, 3, 4, 6, 7, 9]) 10 = true ∧ inPhase (wStart [1, 2]) 11 = true ∧
    inPhase (wStart (List.range 12)) 12 = true ∧ inPhase (wStart (List.range 13)) 13 = true ∧ (wStart []).pins.outputsEnabled = true ∧ (wStart []).img.accepted = true := by decide

/-- The signature is over the signed bytes and under the key in them. -/
theorem wSigned_length : wSigned.length = 16480 := by
  have h : ∀ (n : Nat) (l : List Byte), (padTo n l).length = n := by intro n l; simp [padTo]; omega
  simp [wSigned, h]
theorem wGood_signed : imgSigned wGood = wSigned ∧ imgSignature wGood = wSignature ∧ imgSigner wGood = wKey := by
  have e : imgLength wGood - 132 = wSigned.length := by rw [wSigned_length]; decide +kernel
  refine ⟨?_, ?_, by decide +kernel⟩
  · unfold imgSigned; rw [e]; exact List.take_left
  · unfold imgSignature; rw [e]
    show ((wSigned ++ wSignature).drop wSigned.length).take 132 = wSignature
    rw [List.drop_left]; decide +kernel
/-- The ten checks pass on the good image, in the phase that reads it. Its signature holds (computed outside Lean): hashing 16,480 bytes takes
the kernel over a minute, so check 0x4 stands here as a premise; meets_kmVerified evaluates a signature whole. -/
theorem meets_goodImage : inPhase (wStart [1, 2, 3]) 4 = true ∧ (ecdsaVerify wKey wSigned wSignature = true → checkImage (wStart [1, 2, 3]) wGood = 0) := by
  refine ⟨by decide, fun h => ?_⟩
  unfold checkImage imgSigOk
  rw [wGood_signed.1, wGood_signed.2.1, wGood_signed.2.2, h]
  set_option maxRecDepth 100000 in decide +kernel

theorem meets_rebuild :
    (let s := { wDev with start := { wDev.start with wearReady := false } }
     atRest s = false ∧ 13 ∈ s.start.done ∧ 4 ∈ s.start.done ∧ 7 ∈ s.start.done ∧ 8 ∈ s.start.done ∧ s.start.wearReady = false ∧ s.resp.kind = .none) ∧
    (let s := { wDev with start := { wDev.start with regions := [0] } }
     State.reset.start.active = false ∧ 13 ∉ State.reset.start.done ∧ s.start.wearReady = true ∧ ((1 : Nat) < 256 ∧ 1 ∉ s.start.regions ∧ s.ftl.onDemand.head? ≠ some 1)) ∧
    (let s := { wDev with start := { wDev.start with regions := [] }, ftl := { wDev.ftl with onDemand := [255] } }
     s.start.wearReady = true ∧ s.resp.kind = .none ∧ s.ftl.onDemand.head? = some 255) := by decide

/-- The device with port 15 set. -/
def wPort (p : Port) : State := { wDev with link := { wDev.link with ports := lput wDev.link.ports 15 p } }
theorem meets_ports : 15 < wDev.link.ports.length ∧ (portAt wDev 15).state ≠ .failed ∧ (portAt wDev 15).state ≠ .up ∧
    (let s := wPort { state := .up }
     15 < s.link.ports.length ∧ (portAt s 15).state = .up ∧ (portAt s 15).rxSub = 15 ∧ (portAt s 15).rxStage = .idle ∧ (7 : Nat) ≠ 8 ∧ (portAt s 15).txSub = 15 ∧ (portAt s 15).txStage = .idle ∧ (7 : Nat) < 8) ∧
    (let s := wPort { state := .up, rxSub := 3 }
     (portAt s 15).state = .up ∧ (portAt s 15).rxSub ≠ 15 ∧ (portAt s 15).rxSub ≠ 8 ∧ (portAt s 15).rxStage = .idle) ∧
    (portAt (wPort { state := .up, rxStage := .requested 7, txStage := .duplicated 7 }) 15).rxStage = .requested 7 ∧
    (portAt (wPort { state := .up, rxStage := .requested 7, txStage := .duplicated 7 }) 15).txStage = .duplicated 7 ∧
    (let s := { wDev with link := { wDev.link with bays := lput (lput wDev.link.bays 3 { recorded := 100, ok := true }) 4 { ok := true } } }
     3 < s.link.bays.length ∧ (-50 : Int) ≤ (nth s.link.bays 3 {}).recorded - 150 ∧ 3 < 4 ∧ s.link.spareServes = 7 ∧ (nth s.link.bays 4 {}).ok = true) := by decide

/-- A frame whose link word has the low bits `l`, with its CRC or another. -/
def wFrame (l : Nat) (bad : Nat) : Frame := { errs := (6, 6), body := [], link := BitVec.ofNat 64 ((crc24 (leBytes 5 l) + bad) * 2 ^ 40 + l) }
/-- A flit to node 2 from node 3 on VC 1. -/
def wFlit : List Byte := padTo 80 (leBytes 1 1 ++ leBytes 2 2 ++ leBytes 2 3)
/-- A flit at its last hop. -/
def wLast : List Byte := padTo 80 (List.replicate 15 0 ++ [0xFE])
/-- A torus of three along X: this device is node 1, its neighbour node 2 by port 15. -/
def wTorus : State := { wPort { state := .up, torus := true } with img := { wDev.img with cur := some { wImg with nodeId := 1, kx := 3, ports := List.replicate 15 0 ++ [1] } } }

theorem meets_frames :
    (let s := wPort { state := .up }
     15 < s.link.ports.length ∧ (portAt s 15).state = .up ∧ 6 < { wFrame 0 0 with errs := (0, 7) }.errs.2 ∧ silent s = false ∧ (wFrame 0 1).errs.1 ≤ 6 ∧ (wFrame 0 1).errs.2 ≤ 6 ∧
      crc24 ((wFrame 0 1).body ++ leBytes 5 ((wFrame 0 1).link.toNat % 2 ^ 40)) ≠ lwCrc (wFrame 0 1).link ∧
      crc24 ((wFrame 1 0).body ++ leBytes 5 ((wFrame 1 0).link.toNat % 2 ^ 40)) = lwCrc (wFrame 1 0).link ∧ lwKind (wFrame 1 0).link = 0 ∧ lwNak (wFrame 1 0).link = false ∧
      lwSeq (wFrame 1 0).link ≠ (match (portAt s 15).rxLast with | none => 0 | some k => (k + 1) % 1024)) ∧
    (let s := wPort { state := .up, rxLast := some 1023 }
     crc24 ((wFrame 0 0).body ++ leBytes 5 ((wFrame 0 0).link.toNat % 2 ^ 40)) = lwCrc (wFrame 0 0).link ∧ lwKind (wFrame 0 0).link = 0 ∧ lwNak (wFrame 0 0).link = false ∧
      lwSeq (wFrame 0 0).link = (match (portAt s 15).rxLast with | none => 0 | some k => (k + 1) % 1024)) ∧
    (let s := wPort { state := .up, rxLast := some 1023 }
     let f : Frame := { wFrame 0 0 with body := wLast, link := BitVec.ofNat 64 (crc24 (wLast ++ leBytes 5 0) * 2 ^ 40) }
     crc24 (f.body ++ leBytes 5 (f.link.toNat % 2 ^ 40)) = lwCrc f.link ∧ lwKind f.link = 0 ∧ lwNak f.link = false ∧ lwSeq f.link = 0 ∧
       flitDst f.body = selfNode s ∧ flitHops f.body = 127) ∧
    (flitDst wFlit ≠ selfNode wTorus ∧ (portAt wDev 15).torus = false) ∧
    ((portAt wTorus 15).torus = true ∧ flitHops wFlit ≠ 127 ∧ inTorus wTorus (flitDst wFlit) = true ∧ (routeDim wTorus (flitDst wFlit)).bind (torusPort wTorus) = some 15 ∧
      portDead wTorus 15 = false ∧ 15 < wTorus.link.ports.length ∧ (flitSrc wFlit, flitDst wFlit, flitVc wFlit) ∉ wTorus.link.detour) := by
  set_option maxRecDepth 20000 in decide +kernel

/-- The device with extent 1, of 2 MiB, granted to node 7 to write; its last line held as given, and a transaction on it. -/
def wExt : Extent := { state := .active, log2 := 21, grantees := [(7, true)], key := 5, grace := 0, part := 0, tenant := 1, runs := [{ start := 0, len := 512 }] }
def wAddr : Nat := 2 ^ 36 + 2 ^ 21 - 64
def wHome (l : List LineEnt) (tx : List Trans) : State := { wDev with
  ext := { wDev.ext with table := [(1, wExt)] }
  coh := { wDev.coh with filter := l.map fun x => (wAddr, x), txs := tx.map fun x => (wAddr, x) } }
def wHeld (excl : Bool) (l : List Node) : State := wHome [{ excl := excl, holders := l, alloc := 0 }] []

theorem quiet_of {s : State} (h : s.coh.waiting = []) (e : ∀ x ∈ s.ext.table, x.2.rev.isNone = true) : Quiet s :=
  ⟨h, fun x hx => Option.isNone_iff_eq_none.mp (e x hx)⟩
theorem wHome_quiet (l : List LineEnt) (tx : List Trans) : Quiet (wHome l tx) := quiet_of rfl (by show ∀ x ∈ [(1, wExt)], x.2.rev.isNone = true; decide)
theorem wHome_granted (l : List LineEnt) (tx : List Trans) : granted wHdr wAddr true (wHome l tx) := ⟨(1, wExt), rfl, rfl, rfl⟩

theorem meets_homeAnswers :
    (∀ l, takes wHdr (wHome l []) = true) ∧ lineOf wAddr = wAddr ∧ (∀ l, mget (wHome l []).coh.txs wAddr = none ∧ wAddr ∉ (wHome l []).coh.poison ∧ lineEnt (wHome [] []) wAddr = none) ∧
    setEntries (wHome [] []) wAddr = [] ∧ lineEnt (wHeld true [7]) wAddr = some { excl := true, holders := [7], alloc := 0 } ∧
    lineEnt (wHeld false [8, 9, 10]) wAddr = some { excl := false, holders := [8, 9, 10], alloc := 0 } ∧ lineEnt (wHeld false [7]) wAddr = some { excl := false, holders := [7], alloc := 0 } ∧
    (0 : Nat) ≠ 2 ^ 64 - 1 ∧ extOf (wHome [] []) (2 ^ 36 + 2 ^ 21) = none ∧
    (∀ l, ∀ typ ∈ [mtRdUnc, mtWrUnc, mtRdS, mtRdE, mtUpg, mtWb], Admits wHdr typ (wHome l [])) := by
  refine ⟨fun _ => rfl, rfl, fun _ => ⟨rfl, by simp [wHome, wDev, State.reset], rfl⟩, rfl, rfl, rfl, rfl, by decide, by decide, fun l typ _ => ⟨rfl, rfl, ?_⟩⟩
  show 0 + 0 + 0 + 0 < 4096; decide

/-- One request fewer of node 7 than the most that may be outstanding, and the most. -/
def wMany (n : Nat) : State := { wHome [] [] with coh := { (wHome [] []).coh with
  waiting := List.replicate n { kind := .rdS, src := 7, key := 5, tag := 1, addr := wAddr, mask := 0, data := [] } } }
theorem meets_homeLimit : (wMany 4096).coh.beyond = [] ∧ (wMany 4096).link.heldCredits = [] ∧ 4096 ≤ outstandingOf (took wHdr mtRdS (wMany 4096)) wHdr.src ∧
    outstandingOf (took wHdr mtRdS (wMany 4095)) wHdr.src < 4096 := by decide +kernel

theorem meets_homeSnoops :
    (∀ l tx, takes wHdr (wHome l tx) = true) ∧ (lineEnt (wHeld true [8]) wAddr = some { excl := true, holders := [8], alloc := 0 } ∧ 8 ≠ wHdr.src) ∧
    (lineEnt (wHeld false [7, 8]) wAddr = some { excl := false, holders := [7, 8], alloc := 0 } ∧ ∃ m ∈ [7, 8], m ≠ wHdr.src) ∧
    (let r : LineReq := { kind := .rdS, src := 8, key := 5, tag := 1, addr := wAddr, mask := 0, data := [] }
     let s := wHome [{ excl := true, holders := [7], alloc := 0 }] [{ req := some r, snoops := [{ node := 7, inv := false, hadE := true }] }]
     mget s.coh.txs wAddr = some { req := some r, snoops := [{ node := wHdr.src, inv := false, hadE := true }] } ∧ r.kind = .rdS ∧ r.len = 64 ∧ r.before = none ∧ r.src ≠ wHdr.src ∧
      extOf s wAddr = some (1, wExt) ∧ wAddr ∉ s.coh.poison) ∧
    (let r : LineReq := { kind := .rdE, src := 8, key := 5, tag := 1, addr := wAddr, mask := 0, data := [] }
     let s := wHome [{ excl := true, holders := [7, 9], alloc := 0 }] [{ req := some r, snoops := [{ node := 7, inv := true, hadE := true }, { node := 9, inv := true, hadE := true }] }]
     mget s.coh.txs wAddr = some { req := some r, snoops := { node := 7, inv := true, hadE := true } :: [{ node := 9, inv := true, hadE := true }] } ∧
      (∃ m ∈ [7, 9], m ≠ 7)) := by
  refine ⟨fun _ _ => rfl, ⟨rfl, by decide⟩, ⟨rfl, by decide⟩, by decide, by decide⟩

/-- A ring of 16 with room for one entry. -/
def wFull : State := { wDev with rng := { wDev.rng with rings := mmod wDev.rng.rings 0 fun r => { r with ready := List.replicate 15 { tag := 1, status := 0 } } } }
theorem meets_doorbell : takes wHdr wFull = true ∧ doorbellOk wHdr 0 0 1 [wRaw opNop [] 0] wFull = true ∧ RingOk (ringOf wFull 0) ∧ serving wFull = true ∧
    eOpcode (wRaw opNop [] 0) ≠ opExtRevoke ∧ doorbellOk wHdr 0 0 2 [wRaw opNop [] 0, wRaw opNop [] 0] wFull = false := by
  unfold RingOk; decide

def wReady (n : Nat) (drain : Bool) : State := { wDev with rng := { wDev.rng with rings := mmod wDev.rng.rings 0 fun r =>
  { r with drain := drain, ready := List.replicate n { tag := 1, status := 0 } } } }
theorem meets_entriesEnd : RingOk (ringOf (wOp wDev opNop [] []) 0) ∧ starting opNop 0 (wOp wDev opNop [] []) = some (wEnt (wOp wDev opNop [] [])) ∧
    (let s := wOp wDev 0x04 [] []
     startable s 0 = some (wEnt s) ∧ opKnown (eOpcode (wEnt s).raw) = false ∧ (ctxOf s (ringOf s 0).context).enable = true ∧ clustersFor s (ringOf s 0).context ≠ [] ∧
      eContext (wEnt s).raw = (ringOf s 0).context) ∧
    (let s := wReady 7 false
     cplCount (ringOf s 0) ≠ 0 ∧ keyLive s (ringOf s 0).key = true ∧ heldBack s (ctxOf s (ringOf s 0).context) = false ∧ mhas s.rng.rings 0 = true) ∧
    (let s := wReady 0 true
     (ringOf s 0).enable = true ∧ (ringOf s 0).drain = true ∧ (ringOf s 0).entries = [] ∧ (ringOf s 0).ready = []) := by
  unfold RingOk; decide

def wRead (for_ : ReadFor) (resends : Nat) : ReqRead := { for_ := for_, node := 7, addr := 0, len := 64, key := 5, resends := resends }
def wTile (resends : Nat) : TileMsg := { op := 0, lay := 0, tile := none, dst := 7, addr := 0, key := 5, bytes := [], resends := resends }
def wIo (r : ReqRead) (x : TileMsg) : State := { wDev with io := { wDev.io with reads := [(3, r)], tiles := [(3, x)] } }
theorem meets_requester :
    (let s := wIo (wRead (.operands 0 0) 0) (wTile 0)
     takes wHdr s = true ∧ readFor wHdr s = some (wRead (.operands 0 0) 0) ∧
      (wRead (.operands 0 0) 0).len ≤ ((wRead (.operands 0 0) 0).got ++ (List.replicate 64 0).take (readLen (wRead (.operands 0 0) 0))).length ∧
      ((wRead (.operands 0 0) 0).got ++ (List.replicate 63 0).take (readLen (wRead (.operands 0 0) 0))).length < (wRead (.operands 0 0) 0).len ∧
      mget s.io.tiles wHdr.tag = some (wTile 0) ∧ (wTile 0).dst = wHdr.src ∧ (wTile 0).key = wHdr.key) ∧
    (let s := wIo (wRead (.operands 0 0) 2) (wTile 2)
     mget s.io.reads 3 = some (wRead (.operands 0 0) 2) ∧ (wRead (.operands 0 0) 2).resends < 3 ∧ mget s.io.tiles 3 = some (wTile 2) ∧ (wTile 2).resends < 3) ∧
    (let s := wIo (wRead (.operands 0 0) 3) (wTile 3)
     mget s.io.reads 3 = some (wRead (.operands 0 0) 3) ∧ 3 ≤ (wRead (.operands 0 0) 3).resends ∧ mget s.io.tiles 3 = some (wTile 3) ∧ 3 ≤ (wTile 3).resends) := by decide

def wStage (b : List Byte) : State := { wDev with
  rng := { wDev.rng with entry := b, rings := [], sel := 0 }
  tly := { wDev.tly with copy := (List.range 16).map fun k => (0x050 + k, BitVec.ofNat 32 16777216) } }
theorem meets_ringRegisters :
    (let s := wStage (padTo 64 (leBytes 2 1 ++ leBytes 1 6 ++ leBytes 1 6 ++ leBytes 4 5 ++ leBytes 2 7 ++ leBytes 2 7 ++ leBytes 4 1))
     let b := s.rng.entry
     operates (.dorlink 4) 0x30004 s = true ∧ s.rng.busy = false ∧ ringOk s b = true ∧ mhas s.sch.ctxs (field b 0 2 % 1024) = true ∧ bit (field b 0x0C 4) 0 = true ∧
      (ringOf s s.rng.sel).enable = false ∧ (ringOf s s.rng.sel).charged = 0 ∧
      covers (uncharge (ctxOf s (ringOf s s.rng.sel).context).part 1 0 s) (ctxOf s (field b 0 2 % 1024)).part 1 (64 * 2 ^ field b 2 1) = true) ∧
    mhas wDev.sch.ctxs 1023 = false ∧ mhas wDev.rng.rings wDev.rng.sel = true := by decide

/-- A model descriptor: one layer, one head of 64 BF16 elements, RAW16, pages and blocks of 16. -/
def wMd : List Byte := padTo 64 [0, 1, 0, 1, 4, 4, 4, 0, 1]
def wModel : Model := modelOf wMd
/-- The device with model slot 0 loaded, 4,096 free HBM frames and quotas to spare. -/
def wMem : State := { wDev with
  seqs := { wDev.seqs with md := [(0, wMd)] }
  hbm := { wDev.hbm with free := [(0, [{ start := 16, len := 4096 }])] }
  tly := { wDev.tly with copy := (List.range 10).map fun k => (0x050 + k, 16777216) } }
/-- Sequence 3 of the context. -/
def wSeq (q : Seq) : State := { wMem with seqs := { wMem.seqs with tab := [(3, { q with ctx := 1, tenant := 1 })], freeQ := { wMem.seqs.freeQ with next := 4 } } }
def wLone : Seq := { ctx := 1, tenant := 1 }

def isGot (n : Need) : Bool := match n with | .got .. => true | _ => false
def isWait (n : Need) : Bool := match n with | .wait .. => true | _ => false
def isFail (n : Need) : Bool := match n with | .fail .. => true | _ => false
def isAll (n : Forked) : Bool := match n with | .all .. => true | _ => false
/-- A page of a sequence, sealed in HBM, whose frames an open may take, and no free frame. -/
def wTight (q : Seq) : State := { wSeq q with hbm := { (wSeq q).hbm with free := [] } }

def wPage (rows : List (List Byte)) : Page := { rows := rows.length, content := .raw rows, run := some { start := 16, len := 1 }, desc := wMd, sealed := true, seq := 3, hasMeta := true }
def wTightSeq (held : Bool) : Seq := if held then { wLone with length := 1, pages := [{ layer := 0, first := 0, size := 0, ref := .own (wPage [List.replicate 256 0]) }] } else wLone

theorem meets_sequences :
    (let s := wOp wMem opSeqOpen [0, 0, 3, 0] []
     RingOk (ringOf s 0) ∧ s.start.wearReady = true ∧ starting opSeqOpen 0 s = some (wEnt s) ∧ slotOk s 1 (field (eInline (wEnt s).raw) 0 1) = true ∧ field (eInline (wEnt s).raw) 2 1 = 3 ∧
      s.seqs.freeQ.take ≠ none ∧ isGot (openNeed 1 (eInline (wEnt s).raw) .top (markStarted 0 0 s)) = true) ∧
    (∀ held ∈ [true, false], let s := wOp (wTight (wTightSeq held)) opSeqOpen [0, 0, 3, 0] []
     s.start.wearReady = true ∧ starting opSeqOpen 0 s = some (wEnt s) ∧ slotOk s 1 (field (eInline (wEnt s).raw) 0 1) = true ∧ s.seqs.freeQ.take ≠ none ∧
      isWait (openNeed 1 (eInline (wEnt s).raw) .top (markStarted 0 0 s)) = held ∧ isFail (openNeed 1 (eInline (wEnt s).raw) .top (markStarted 0 0 s)) = !held) ∧
    (let s := wOp wMem opSeqOpen [1, 0, 0, 0] []
     starting opSeqOpen 0 s = some (wEnt s) ∧ slotOk s 1 (field (eInline (wEnt s).raw) 0 1) = false) ∧
    (let s := wOp (wSeq wLone) opSeqFork [3] []
     starting opSeqFork 0 s = some (wEnt s) ∧ appending s 3 = false ∧ seqOk s 1 (field (eInline (wEnt s).raw) 0 3) = true ∧ seqOf s (field (eInline (wEnt s).raw) 0 3) = some wLone ∧ wLone.pages = [] ∧
      s.seqs.freeQ.take ≠ none ∧ isAll (forkTables 3 0 (forkSizes s wLone) [] .top (markStarted 0 0 s)) = true) ∧
    (let s := wOp (wSeq wLone) opSeqClose [3] []
     starting opSeqClose 0 s = some (wEnt s) ∧ seqOk s 1 (field (eInline (wEnt s).raw) 0 3) = true ∧ seqOf s (field (eInline (wEnt s).raw) 0 3) = some wLone ∧ s.ops.tab = [] ∧ seqBusy s 3 = false ∧
      mget s.ops.tab s.ops.next = none) ∧
    (let s := wOp (wSeq wLone) opSeqClose [4] []
     starting opSeqClose 0 s = some (wEnt s) ∧ seqOk s 1 (field (eInline (wEnt s).raw) 0 3) = false) := by
  unfold RingOk; decide +kernel

/-- KV_APPEND of one token at position `first` of sequence 3. -/
def wAppend (first count : Nat) : List Byte := leBytes 4 3 ++ leBytes 4 first ++ leBytes 4 count ++ [0, 0] ++ List.replicate 8 0 ++ leBytes 2 7 ++ leBytes 4 0
def wOpen (b : OpBody) : Op := { ring := 0, idx := 0, ctx := 1, tag := 0, opcode := 0, raw := wRaw 0 [] 0, arrival := 0, deadline := 0, body := b }
/-- The device with op 0 in progress. -/
def wRun (s : State) (b : OpBody) : State := { s with ops := { s.ops with tab := [(0, wOpen b)], next := 1 } }
theorem meets_appends :
    (let s := wOp (wSeq wLone) opKvAppend (wAppend 0 1) []
     RingOk (ringOf s 0) ∧ starting opKvAppend 0 s = some (wEnt s) ∧ appending s (parseAppend (eInline (wEnt s).raw)).seq = false ∧
      (checkAppend s (seqOk s 1 3) (parseAppend (eInline (wEnt s).raw))).isNone = true ∧ 0 < (seqModel s ((seqOf s 3).getD {})).rowBytes) ∧
    (let s := wOp (wSeq wLone) opKvAppend (wAppend 1 1) []
     starting opKvAppend 0 s = some (wEnt s) ∧ (checkAppend s (seqOk s 1 3) (parseAppend (eInline (wEnt s).raw))).isSome = true) ∧
    (∀ d ∈ [Descent.asking, .top], (mget (wRun wDev (.append { parseAppend (wAppend 0 1) with need := d })).ops.tab 0).map (·.body) = some (.append { parseAppend (wAppend 0 1) with need := d })) := by
  unfold RingOk; decide +kernel

/-- Sequence 3 with one page of one row of 256 bytes of a value. -/
def wPaged (hi : Byte) (desc : List Byte) : State :=
  let q : Seq := { length := 1, pages := [{ layer := 0, first := 0, size := 0, ref := .own { wPage [List.replicate 256 hi] with desc := desc } }] }
  { wSeq q with
    cdc := { wMem.cdc with encQ := [{ at_ := .seq 3 0 0, part := 0, order := 0, run := some { start := 40, len := 1 } }] }
    seqs := { (wSeq q).seqs with tktRing := [(0, (0, true))], tickets := [(0, [{ num := 1, handle := 3, reason := 1, first := 0, count := 1, layer := 0, layers := 1, time := 0, epoch := 0 }])] } }
/-- The codec set to E8. -/
def wMdE8 : List Byte := padTo 64 [0, 1, 0, 1, 4, 8, 8, 1, 1]
theorem meets_pages :
    (∀ hi ∈ [(0xFF : Byte), 0], let s := wPaged hi wMdE8
      s.cdc.encQ.find? (fun e => e.part == 0 && e.run.isSome) = some { at_ := .seq 3 0 0, part := 0, order := 0, run := some { start := 40, len := 1 } } ∧
      getPage s (.seq 3 0 0) = some { wPage [List.replicate 256 hi] with desc := wMdE8 } ∧
      encodable (modelOf wMdE8) (modelOf wMdE8).codec ({ wPage [List.replicate 256 hi] with desc := wMdE8 } : Page).rowData = (hi == 0)) ∧
    { wDev with hbm := { wDev.hbm with drains := [{ id := 1, part := 0, runs := [{ start := 16, len := 1 }] }] } }.hbm.drains.find? (fun d : Drain => d.id == 1) =
      some { id := 1, part := 0, runs := [{ start := 16, len := 1 }] } ∧ atRest wDev = false ∧
    (let s := wPaged 0 wMd
     mget s.seqs.tktRing 0 = some (0, true) ∧ (mgetD s.seqs.tickets 0 []).length = 1 ∧ (ringOf s 0).enable = true ∧ (ringOf s 0).ready.length < cqRoom (ringOf s 0) ∧ mayWrite s (ringOf s 0) = true ∧ stopped s = false ∧ atRest s = false ∧
      mayWrite { s with sec := { s.sec with keys := [] } } (ringOf s 0) = false) := by
  decide +kernel

/-- One spilled page of partition 0, in Hamper. -/
def wSpilled : State := wSeq { length := 1, pages := [{ layer := 0, first := 0, size := 0, ref := .own { wPage [List.replicate 256 0] with tier := .hamper, run := none, spill := [{ start := 0, len := 1 }] } }] }
theorem meets_freedRun :
    atRest wSpilled = false ∧
    (sortBy (fun x y => decide (x.2.sealSeq < y.2.sealSeq)) ((allPages wSpilled).filter fun x => x.2.part == 0 && x.2.tier == .hamper && x.2.sealed)).length = 1 ∧
    (spillToHbm (.seq 3 0 0) wSpilled).cdc.encQ.filter (fun e => e.part == 0) = [] := by decide +kernel

def wSlot (busy ok : Bool) : State := { wSeq { wLone with model := if busy then 0 else 1 } with seqs := { (wSeq { wLone with model := if busy then 0 else 1 }).seqs with mdData := if ok then wMd else List.replicate 64 0 } }
theorem meets_modelSlots : ∀ busy ∈ [true, false], ∀ ok ∈ [true, false],
    operates (.dorlink 4) 0x40004 (wSlot busy ok) = true ∧ (wSlot busy ok).seqs.mdBusy = false ∧ modelOk (wSlot busy ok).seqs.mdData = ok ∧ slotInUse (wSlot busy ok) (wSlot busy ok).seqs.mdSel = busy := by
  decide +kernel

/-- PFX_LOOKUP of one block with model slot `slot`; PFX_PUBLISH of sequence 3; PFX_RETIRE. -/
def wLookup (slot : Byte) : List Byte := [0, 0, 0, 2, slot, 1]
def wBlock : Block := { state := .published, durable := false, locked := false, owner := 0, gen := 1, loc := none, recs := [], run := none, prio := 0, key := List.replicate 64 1, num := 0, bid := 1, parentBid := 0, pubSid := 0, part := 0, model := 0 }
def wPfx : State := { wSeq wLone with pfx := { wMem.pfx with blocks := [(1, wBlock)] } }
theorem noClose_of {s : State} (h : s.ops.tab = []) : NoClose s := by unfold NoClose; rw [h]; intro x hx; cases hx

theorem meets_prefixOps :
    (let s := wOp wPfx opPfxLookup (wLookup 0) (List.replicate 64 1)
     RingOk (ringOf s 0) ∧ s.ops.tab = [] ∧ starting opPfxLookup 0 s = some (wEnt s) ∧ ((parseLookup (eInline (wEnt s).raw)).attach && appending s 0) = false ∧
      (s.casc.lookup.isSome && goesToGroup s 1 (parseLookup (eInline (wEnt s).raw))) = false ∧ checkLookup s 1 (parseLookup (eInline (wEnt s).raw)) = none ∧
      goesToGroup s 1 (parseLookup (eInline (wEnt s).raw)) = false) ∧
    (let s := wOp wPfx opPfxLookup (wLookup 1) (List.replicate 64 1)
     starting opPfxLookup 0 s = some (wEnt s) ∧ checkLookup s 1 (parseLookup (eInline (wEnt s).raw)) = some 0x13) ∧
    (let s := wOp wPfx opPfxPublish [4] (List.replicate 128 1)
     starting opPfxPublish 0 s = some (wEnt s) ∧ seqOk s 1 (field (eInline (wEnt s).raw) 0 3) = false) ∧
    (let s := wOp wPfx opPfxPublish [3] (List.replicate 128 1)
     starting opPfxPublish 0 s = some (wEnt s) ∧ seqOk s 1 (field (eInline (wEnt s).raw) 0 3) = true ∧ eLen (wEnt s).raw = ((seqOf s 3).map fun q => 64 + 4 * (seqModel s q).block).getD 0) ∧
    (let s := wOp { wPfx with seqs := { wPfx.seqs with md := [] } } opPfxPublish [3] (List.replicate 128 1)
     starting opPfxPublish 0 s = some (wEnt s) ∧ seqOk s 1 (field (eInline (wEnt s).raw) 0 3) = true ∧ eLen (wEnt s).raw ≠ ((seqOf s 3).map fun q => 64 + 4 * (seqModel s q).block).getD 0) ∧
    (∀ k ∈ [0, 5, 7], let w : PubSt := { seq := 3, block := 0, adapter := 0, prio := 0, tol := 0, parent := [], key := [], stage := k }
     (mget (wRun wPfx (.publish w)).ops.tab 0).map (·.body) = some (.publish w) ∧ (w.stage = k)) ∧
    (∀ k ∈ [(1 : Byte), 2], let s := wOp wPfx opPfxRetire (leBytes 4 (2 ^ 25 + 1)) (List.replicate 64 k)
     starting opPfxRetire 0 s = some (wEnt s) ∧
      (retireNamed 1 (field (eInline (wEnt s).raw) 0 4) (List.replicate 64 k) (bit (field (eInline (wEnt s).raw) 4 1) 0) (markStarted 0 0 s)).isSome = (k == 1)) := by
  unfold RingOk; decide +kernel


/-- One published block, sequence 3 without tables, and HBM whose only frames are a page of sequence 4: the attach waits for them. -/
def wAttachTight (held : Bool) : State :=
  let s := wTight wLone
  { s with
    seqs := { s.seqs with tab := s.seqs.tab ++ if held then [(4, { wLone with length := 1, pages := [{ layer := 0, first := 0, size := 0, ref := .own { wPage [List.replicate 256 0] with run := some { start := 16, len := 16 } } }] })] else [] }
    pfx := { s.pfx with blocks := [(1, wBlock)] } }
theorem meets_attachWaits : ∀ held ∈ [true, false],
    (attachRun 3 0 16 [.here 1 1] { srcs := [.here 1 1], rest := [.here 1 1], full := 1, hits := [true], failed := [false], ents := [none] } (wAttachTight held)).2.1 = held := by decide +kernel
def wPol (n sel act : Nat) : State := { wDev with pfx := { wDev.pfx with pol := List.replicate n { value := 1, mask := 2, action := 1 }, polSel := sel, polAct := act } }
theorem meets_policy :
    (operates (.dorlink 4) 0x50008 (wPol 255 255 2) = true ∧ (wPol 255 255 2).pfx.polBusy = false ∧ (wPol 255 255 2).pfx.pol.length < 256 ∧ (wPol 255 255 2).pfx.polSel ≤ (wPol 255 255 2).pfx.pol.length ∧
      (wPol 255 255 2).pfx.polAct = 2 ∧ (wPol 255 255 2).pfx.pol.length ≤ (wPol 255 255 2).pfx.polSel) ∧
    256 ≤ (wPol 256 255 2).pfx.pol.length ∧ (wPol 1 2 2).pfx.pol.length < (wPol 1 2 2).pfx.polSel ∧ ((wPol 1 1 3).pfx.polAct ≠ 1 ∧ (wPol 1 1 3).pfx.polAct ≠ 2) ∧
    ((wPol 2 1 1).pfx.polSel < (wPol 2 1 1).pfx.pol.length ∧ (wPol 2 1 1).pfx.pol[(wPol 2 1 1).pfx.polSel]? = some { value := 1, mask := 2, action := 1 }) := by decide +kernel

def wPatrol (row : Nat) (errs : AMap Nat) : State := { wDev with pfx := { wDev.pfx with patrolRow := row, bankErr := errs, rebuilding := [31] } }
theorem meets_patrol :
    (∀ r e, atRest (wPatrol r e) = false) ∧
    (∀ r ∈ [65534, 65535], ∀ x ∈ (patrolRead [] (wPatrol r [])).pfx.bankErr, x.2 < 16) ∧
    ((wPatrol 256 [(3, 15)]).pfx.patrolRow ≠ 65535 ∧ ((patrolRead [3] (wPatrol 256 [(3, 15)])).pfx.bankErr.filter fun x => decide (16 ≤ x.2)) = [(3, 16)] ∧
      freeBank (let w := spareNat (wPatrol 256 [(3, 15)]) bankWord; let old := physBank w 3; if 32 ≤ old then retireSpareBank (putServed w old 0x3F) old else w) = some 32) ∧
    (31 ∈ (wPatrol 256 []).pfx.rebuilding ∧ 31 < (wPatrol 256 []).spare.genBank.length) := by
  refine ⟨fun _ _ => rfl, ?_⟩; decide +kernel

/-- The operands of an attention op over one cached key of sequence 3; of a backward pass, with its gradient buffer in extent 1. -/
def wDesc (model : Byte) (bwd : Bool) : List Byte :=
  let head := [model, 0, 0, 0, 1, 0, 0, 0] ++ leBytes 4 1
  let grad := if bwd then padTo 80 head ++ leBytes 8 (2 ^ 36) ++ leBytes 4 0 ++ leBytes 4 1 else head
  padTo 128 grad ++ leBytes 4 3 ++ leBytes 4 1 ++ leBytes 2 1 ++ leBytes 2 0 ++ leBytes 4 0
def wKeys (tier : Tier) : State :=
  let q : Seq := { length := 1, pages := [{ layer := 0, first := 0, size := 0, ref := .own { wPage [List.replicate 256 0] with tier := tier } }] }
  { wSeq q with ext := { wMem.ext with table := [(1, wExt)] } }
def wAttn (op : Nat) (model : Byte) (tier : Tier) : State := wOp (wKeys tier) op [] (wDesc model (op == opAttnBwd))

theorem meets_attention :
    (∀ op ∈ [opAttnDecode, opAttnChunk, opAttnBwd], let s := wAttn op 0 .hbm
      RingOk (ringOf s 0) ∧ s.ops.tab = [] ∧ starting op 0 s = some (wEnt s) ∧
        attnBad s 1 (ringOf s 0).reqNode op ((wEnt s).operands.getD []) (attnAsked op ((wEnt s).operands.getD []) (ctxLadder (ctxOf s 1))) = none ∧
        anyDropped s (attnAsked op ((wEnt s).operands.getD []) (ctxLadder (ctxOf s 1))) = false) ∧
    (∀ op ∈ [opAttnDecode, opAttnChunk, opAttnBwd], let s := wAttn op 1 .hbm
      starting op 0 s = some (wEnt s) ∧
        attnBad s 1 (ringOf s 0).reqNode op ((wEnt s).operands.getD []) (attnAsked op ((wEnt s).operands.getD []) (ctxLadder (ctxOf s 1))) = some 0x13) ∧
    (let s := wAttn opAttnBwd 0 .dropped
     starting opAttnBwd 0 s = some (wEnt s) ∧
       attnBad s 1 (ringOf s 0).reqNode opAttnBwd ((wEnt s).operands.getD []) (attnAsked opAttnBwd ((wEnt s).operands.getD []) (ctxLadder (ctxOf s 1))) = none ∧
       anyDropped s (attnAsked opAttnBwd ((wEnt s).operands.getD []) (ctxLadder (ctxOf s 1))) = true) := by
  unfold RingOk; decide +kernel

/-- A STEP of one append record, of a token at the given position, and with an attention block or none. -/
def wStepBytes (attn : Bool) (model : Byte) : List Byte :=
  let head := padTo 64 ([if attn then 1 else 0, if attn then 0x20 else 0] ++ leBytes 2 1)
  head ++ padTo 32 (wAppend 1 1) ++ if attn then wDesc model false else []
def wStep (attn : Bool) (model : Byte) : State := wOp (wKeys .hbm) opStep [] (wStepBytes attn model)
theorem meets_steps :
    (∀ attn ∈ [true, false], let s := wStep attn 0
      RingOk (ringOf s 0) ∧ starting opStep 0 s = some (wEnt s) ∧ stepHeadOk ((wEnt s).operands.getD []) = true ∧ stepRoom s 1 ((wEnt s).operands.getD []) = true ∧
        stHasAttn ((wEnt s).operands.getD []) = attn ∧ (attn = true → attnBad s 1 (ringOf s 0).reqNode opAttnDecode (stBlock ((wEnt s).operands.getD []))
          (attnAsked opAttnDecode (stBlock ((wEnt s).operands.getD [])) (stLadder s 1 ((wEnt s).operands.getD []))) = none)) ∧
    (let s := wStep true 1
     starting opStep 0 s = some (wEnt s) ∧ attnBad s 1 (ringOf s 0).reqNode opAttnDecode (stBlock ((wEnt s).operands.getD []))
        (attnAsked opAttnDecode (stBlock ((wEnt s).operands.getD [])) (stLadder s 1 ((wEnt s).operands.getD []))) = some 0x13) ∧
    (let s := wOp (wKeys .hbm) opStep [] (List.replicate 64 0)
     starting opStep 0 s = some (wEnt s) ∧ stepHeadOk ((wEnt s).operands.getD []) = false) ∧
    (let r : StepRec := { app := parseAppend (wAppend 2 1) }
     let s := wRun (wKeys .hbm) (.step [r] 0 0 none none)
     mget s.ops.tab 0 = some (wOpen (.step [r] 0 0 none none)) ∧ r.started = false ∧ appending s r.app.seq = false ∧ 0 < stepLimit s 0 (wOpen (.step [r] 0 0 none none)) ∧ (∀ q ∈ [r], q.started = false) ∧
       (checkAppend s (seqMine s 1 r.app.seq) r.app).isSome = true) := by
  unfold RingOk; decide +kernel

/-- A STEP that finds four in progress has no room. -/
theorem meets_stepRoom : let s := { wOp (wKeys .hbm) opStep [] (wStepBytes false 0) with ops := { wDev.ops with tab := (List.range 4).map fun i => (i, wOpen (.step [] 0 0 none none)), next := 4 } }
    starting opStep 0 s = some (wEnt s) ∧ stepHeadOk ((wEnt s).operands.getD []) = true ∧ stepRoom s 1 ((wEnt s).operands.getD []) = false := by decide +kernel

/-- A fetch descriptor: one key of sequence `h`, head 0, room for its tile. -/
def wFetch (h : Byte) : List Byte := padTo 64 (leBytes 4 h.toNat ++ leBytes 4 0 ++ leBytes 4 1 ++ [0, 0, 0, 0] ++ leBytes 8 1 ++ leBytes 8 0 ++ leBytes 8 (2 ^ 20))
def wObj (sealed : Bool) : WtObj := { oid := 1, part := 0, tenant := 1, size := 2, hint := 0, prio := 0, sealed := sealed, tiles := [wPage [], wPage []] }
def wObjs (sealed : Bool) : State := { wKeys .hbm with wt := { wMem.wt with objs := [(5, wObj sealed)], freeQ := { wMem.wt.freeQ with next := 6 } } }
theorem meets_fetches :
    (∀ op ∈ [opKvFetch, opKvPrefetch], let s := wOp (wKeys .hbm) op [] (wFetch 3)
      RingOk (ringOf s 0) ∧ starting op 0 s = some (wEnt s) ∧ fetchBad s 1 (((wEnt s).operands.getD []).take 64) (op == opKvPrefetch) = none ∧ eDeadline (wEnt s).raw = 0) ∧
    (∀ op ∈ [opKvFetch, opKvPrefetch], let s := wOp (wKeys .hbm) op [] (wFetch 4)
      starting op 0 s = some (wEnt s) ∧ fetchBad s 1 (((wEnt s).operands.getD []).take 64) (op == opKvPrefetch) = some 0x10) ∧
    (let s := wOp (wObjs true) opWtStream (leBytes 4 5 ++ leBytes 4 1 ++ leBytes 4 1) []
     starting opWtStream 0 s = some (wEnt s) ∧ objNamed s 1 (field (eInline (wEnt s).raw) 0 4 % 2 ^ 20) = some (wObj true) ∧ (wObj true).sealed = true ∧ field (eInline (wEnt s).raw) 8 4 ≠ 0 ∧
       field (eInline (wEnt s).raw) 4 4 + field (eInline (wEnt s).raw) 8 4 ≤ (wObj true).size) ∧
    (let s := wOp (wObjs true) opWtStream (leBytes 4 5 ++ leBytes 4 1 ++ leBytes 4 2) []
     starting opWtStream 0 s = some (wEnt s) ∧ (wObj true).size < field (eInline (wEnt s).raw) 4 4 + field (eInline (wEnt s).raw) 8 4) ∧
    (let s := wOp (wObjs true) opWtStream (leBytes 4 6 ++ leBytes 4 0 ++ leBytes 4 1) []
     starting opWtStream 0 s = some (wEnt s) ∧ objNamed s 1 (field (eInline (wEnt s).raw) 0 4 % 2 ^ 20) = none) ∧
    (∀ bad ∈ [true, false], let t : TileSt := { next := 1 }
     let s0 := wRun (wObjs true) (.stream 5 0 2 t)
     let s := { s0 with coh := { s0.coh with poisonPhys := if bad then [65536] else [] } }
     mget s.ops.tab 0 = some (wOpen (.stream 5 0 2 t)) ∧ t.next < 2 ∧ (wObj true).tiles[0 + t.next]? = some (wPage []) ∧
       tilePoisoned (access ((clustersFor s 1).headD 0) (.tile 5 (0 + t.next)) s) (wPage []) = bad ∧ streamDeadline (eInline (wRaw 0 [] 0)) 0 t.next = none) := by
  unfold RingOk; decide +kernel

/-- WT_LOAD: object, flags, size, first tile, tiles. -/
def wLoad (o flags size first k : Nat) : List Byte := leBytes 4 o ++ leBytes 4 flags ++ leBytes 8 0 ++ leBytes 4 size ++ leBytes 4 first ++ leBytes 4 k
theorem meets_weightLoads :
    (let s := wOp (wObjs false) opWtLoad (wLoad 0 3 1 0 1) []
     RingOk (ringOf s 0) ∧ starting opWtLoad 0 s = some (wEnt s) ∧ bit (field (eInline (wEnt s).raw) 4 1) 0 = true ∧ s.start.wearReady = true ∧ s.wt.freeQ.take.isSome = true ∧
      (takeRun 0 (framesFor (8 * 1)) (markStarted 0 0 s)).isSome = true) ∧
    (let s := wOp { wObjs false with start := { wDev.start with wearReady := false } } opWtLoad (wLoad 0 1 1 0 1) []
     starting opWtLoad 0 s = some (wEnt s) ∧ s.start.wearReady = false) ∧
    (let s := wOp { wObjs false with hbm := { wMem.hbm with free := [] } } opWtLoad (wLoad 0 1 1048576 0 1048576) []
     starting opWtLoad 0 s = some (wEnt s) ∧ (takeRun 0 (framesFor (8 * 1048576)) (markStarted 0 0 s)).isNone = true) ∧
    (let s := wOp { wObjs false with wt := { wDev.wt with freeQ := { next := 1048576, bound := 1048576 } } } opWtLoad (wLoad 0 1 1 0 1) []
     starting opWtLoad 0 s = some (wEnt s) ∧ s.wt.freeQ.take = none) ∧
    (∀ size ∈ [0, 1048577], starting opWtLoad 0 (wOp (wObjs false) opWtLoad (wLoad 0 1 size 0 1) []) = some (wEnt (wOp (wObjs false) opWtLoad (wLoad 0 1 size 0 1) []))) ∧
    (let s := wOp { wObjs false with wt := { wDev.wt with objs := [(5, { wObj false with size := 3 })] } } opWtLoad (wLoad 5 2 0 2 1) []
     starting opWtLoad 0 s = some (wEnt s) ∧ bit (field (eInline (wEnt s).raw) 4 1) 0 = false ∧ objNamed s 1 5 = some { wObj false with size := 3 } ∧ (2 : Nat) = (wObj false).tiles.length ∧ 2 + 1 = 3) ∧
    (let s := wOp (wObjs true) opWtLoad (wLoad 6 0 0 0 1) []
     starting opWtLoad 0 s = some (wEnt s) ∧ objNamed s 1 6 = none ∧ objNamed s 1 5 = some (wObj true)) := by
  unfold RingOk; decide +kernel

/-- One unit of op 0, and the state of partition 0. -/
def wUnit (st : UState) : WUnit := { op := 0, ctx := 1, part := 0, entries := [0], heads := [0], qFirst := 0, qCount := 1, lo := 0, hi := 1, span := 0, spans := 1, grouped := false, codec := 0, tier := 1, st := st }
def wSlice (u : WUnit) (p : Part) : State :=
  let a := attnAsked opAttnDecode (wDesc 0 false) (ctxLadder (ctxOf wDev 1))
  let s := wRun (wKeys .hbm) (.attn { a with total := 1, left := 1, cut := true })
  { s with attn := { wDev.attn with units := [(0, u)], nextUnit := 1 }, sch := { wDev.sch with parts := [(0, p)] } }
/-- The unit has walked a page of a peer, of record 9, that has not arrived. -/
def wWaits (u : WUnit) : WUnit := { u with seen := [(0, [{ at_ := .rec_ 9, page := { wPage [] with tier := .peer }, peer := some 9 }])] }
theorem meets_slices :
    (∀ u p, atRest (wSlice u p) = false) ∧
    (let s := wSlice (wUnit .queued) {}
     partOfCluster s 0 = some 0 ∧ issuing s = true ∧ (partOf s 0).reset = .none ∧ (partOf s 0).scrubbing = false ∧
      (let v := beginSlice 0 (settleSlice 0 s)
       (partOf v 0).switch = .none ∧ coreIdle v 0 0 63 = true ∧ (pickUnit v 0 0).isSome = true)) ∧
    (let v := beginSlice 0 (settleSlice 0 wDev)
     (partOf v 0).switch = .none ∧ coreIdle v 0 0 63 = true ∧ pickUnit v 0 0 = none) ∧
    (let u := wUnit (.running 0 63 0 false)
     let s := wSlice u { running := 1, slice := some 1 }
     unitOn s 0 63 = some (0, u) ∧ u.st = .running 0 63 0 false ∧ mhas s.core.halted (coreId 0 63) = false ∧ unitReady s u = true ∧ (let v := wSlice (wWaits u) { running := 1, slice := some 1 }
       let v := { v with seqs := { v.seqs with recs := [(9, { page := { wPage [] with tier := .peer }, count := 1 })] } }
       unitOn v 0 63 = some (0, wWaits u) ∧ unitReady v (wWaits u) = false) ∧
      partExists s 0 = true ∧ (partOf s 0).slice.isSome = true ∧ mhas { s with core := { s.core with halted := [(coreId 0 63, 0)] } }.core.halted (coreId 0 63) = true) ∧
    (let u := wUnit (.running 0 63 0 false)
     let s := wSlice u { running := 1, slice := some 1, outgoing := some 1, switch := .stopping }
     unitOn s 0 63 = some (0, u) ∧ mget s.attn.units 0 = some u ∧ (partOf s u.part).switch = .stopping ∧ mhas s.core.halted (coreId 0 63) = false) ∧
    (let u := wUnit (.running 0 63 0 true)
     let s := wSlice u { running := 1, outgoing := some 1, switch := .saving, slots := [some 1, none, none, none] }
     (partOf s 0).switch = .saving ∧ runningIn s 0 = [(0, u)] ∧ mget s.attn.units 0 = some u ∧ u.st = .running 0 63 0 true) ∧
    (∀ inc ∈ [none, some 2], let s := wSlice (wUnit (.saved 0 63)) { outgoing := some 1, incoming := inc, switch := .scrubbing, scrubbing := true }
     (partOf s 0).scrubbing = true ∧ (partOf s 0).reset ≠ .clearing ∧ (partOf s 0).switch = .scrubbing ∧ (finishScrub 0 (slotsOf s ((partOf s 0).outgoing.getD 0) false) s).sec.removals = []) ∧
    (partOf (wSlice (wUnit (.saved 0 63)) { switch := .restoring, incoming := some 1 }) 0).switch = .restoring := by
  refine ⟨fun _ _ => rfl, ?_⟩; decide +kernel

/-- The device with a staged context entry: context 2 of partition 0 and tenant 1, enabled. -/
def wCtxRaw : List Byte := ctxBytes { enable := true, part := 0, tenant := 1, weight := 1 }
def wCtx (sel : Nat) (raw : List Byte) : State := { wDev with sch := { wDev.sch with ctxSel := sel, ctxData := raw } }
theorem meets_contexts :
    (let s := wCtx 2 wCtxRaw
     operates (.dorlink 4) 0xA0204 s = true ∧ s.sch.ctxBusy = false ∧ ctxOk s 2 (ctxOf s 2) (ctxParse s.sch.ctxData (ctxOf s 2)) = true ∧ (ctxOf s 2).enable = false) ∧
    (let s := wCtx 2 (ctxBytes { enable := true, part := 15, tenant := 1, weight := 1 })
     ctxOk s 2 (ctxOf s 2) (ctxParse s.sch.ctxData (ctxOf s 2)) = false) ∧
    ((ctxOf (wCtx 1 []) 1).enable = true ∧ ringBound (wCtx 1 []) 1 = true) := by decide +kernel

def wLate (deadline : Nat) : State :=
  let s := wSlice (wUnit .queued) {}
  { s with ops := { s.ops with tab := s.ops.tab.map fun o => (o.1, { o.2 with deadline := deadline }) } }
theorem meets_deadlines :
    (∃ o a, mget (wLate 0).ops.tab 0 = some o ∧ o.body = .attn a ∧ o.deadline = 0 ∧ o.rung ≠ 4) ∧
    (∃ o a, mget (wLate 1000000).ops.tab 0 = some o ∧ o.body = .attn a ∧ (wLate 1000000).sch.monitorEn = true ∧ o.deadline ≠ 0 ∧ unstarted (wLate 1000000) 0 ≠ [] ∧
      pickRung ((attnRungs a).filter fun r => r != 4 || noneStarted (wLate 1000000) 0 a) o.rung
        (fun r => decide (tPred (wLate 1000000) a.opcode o.ctx (attnWork (wLate 1000000) 0 a r) ≤ o.arrival + o.deadline)) ≠ 4) :=
  ⟨⟨_, _, rfl, rfl, by decide, by decide⟩, ⟨_, _, rfl, rfl, by decide, by decide, by decide +kernel, by decide +kernel⟩⟩


/-- OBJ_HINT of a kind, flags, class and handle; OBJ_MIGRATE of a kind, flags and handle. -/
def wHint (kind flags cls : Byte) (id : Nat) : List Byte := [kind, flags, cls, 1] ++ leBytes 4 id
/-- One sequence of one page of its own, and object 5. -/
def wHinted : State := { wSeq { length := 1, pages := [{ layer := 0, first := 0, size := 0, ref := .own (wPage [List.replicate 256 0]) }] } with
  wt := { wMem.wt with objs := [(5, wObj true)] } }
theorem meets_hints :
    (∀ x ∈ [((0 : Byte), (3 : Byte), (3 : Byte), 4), (1, 0, 0, 1), (2, 0, 0, 6), (3, 0, 0, 3), (0, 1, 4, 3), (0, 3, 3, 3), (2, 3, 3, 5)],
      let s := wOp wHinted opObjHint (wHint x.1 x.2.1 x.2.2.1 x.2.2.2) []
      starting opObjHint 0 s = some (wEnt s)) ∧
    (let s := wOp wHinted opObjHint (wHint 0 3 3 3) []
     RingOk (ringOf s 0) ∧ seqOk s 1 3 = true ∧ (seqOf s 3).isSome = true ∧ s.tier.moves = [] ∧ seqOk s 1 4 = false ∧ blockNamed s 1 1 = none ∧ (blockNamed wPfx 1 (2 ^ 25 + 1)).isSome = true ∧ (bit (3 : Nat) 0 = true ∧ 3 < 4) ∧ objNamed s 1 6 = none ∧
      objNamed s 1 5 = some (wObj true) ∧ ¬ (bit (3 : Nat) 0 = true ∧ 3 < 3)) ∧
    (∀ x ∈ [((3 : Byte), (0 : Byte), 3), (0, 0, 4), (1, 0, 1), (2, 0, 6), (0, 2, 3), (0, 1, 3)],
      let s := wOp wHinted opObjMigrate (wHint x.1 x.2.1 0 x.2.2) []
      starting opObjMigrate 0 s = some (wEnt s)) ∧
    migrateTargets wHinted 1 (wHint 0 0 0 4) = none ∧ migrateTargets wHinted 1 (wHint 1 0 0 1) = none ∧ migrateTargets wHinted 1 (wHint 2 0 0 6) = none ∧
    (migrateTargets wHinted 1 (wHint 0 1 0 3)).isSome = true := by
  unfold RingOk; decide +kernel

def wImage (programmed : Bool) : FImage := { ident := .page 3 0 3 0 0 0, part := 0, tenant := 1, seq := 1, unit := 0, granule := 0, granules := 1, page := wPage [], programmed := programmed }
/-- The device with halvings due or a sweep running, and one move of each direction whose image is flash image 0. -/
def wHeat (due : Nat) (sweep : Bool) (done : Bool) : State := { wMem with
  tier := { wMem.tier with due := due, sweep := sweep, moves := [(0, { at_ := .seq 3 0 0, toHbm := true, part := 0 }), (1, { at_ := .seq 3 0 0, toHbm := false, part := 0, image := some 0 })] }
  ftl := { wMem.ftl with images := [(0, wImage done)] } }
/-- Heat is warm, the partition has used its HBM quota and a cool page stands in HBM. -/
def wCool : State := { wHinted with tier := { wHinted.tier with warm := true, demote := 128 }, hbm := { wHinted.hbm with used := [(0, [0, 2 ^ 45, 0, 0, 0])] } }
theorem meets_heat :
    (wHeat 1 false true).tier.due ≠ 0 ∧ (wHeat 1 false true).tier.sweep = false ∧ (wHeat 1 true true).tier.sweep = true ∧ (wHeat 0 false true).tier.due = 0 ∧ (wHeat 0 true true).tier.sweep = true ∧ (wHeat 0 true true).tier.due = 0 ∧
    (∀ d w o, atRest (wHeat d w o) = false) ∧ atRest wCool = false ∧ wCool.tier.warm = true ∧ freeHbm wCool 0 < lowMark wCool 0 ∧ coolPages wCool 0 ≠ [] ∧ wHinted.tier.warm = false ∧
    freeHbm wMem 0 < lowMark { wMem with tly := { wMem.tly with copy := [] } } 0 + 2 ^ 62 ∧ 0 ∈ ({ wMem.tier with relief := [0] } : Tiers).relief ∧
    wMem.start.wearReady = true ∧ movesOf wMem 0 < 64 ∧ movesOf { wMem with tier := { wMem.tier with moves := (List.range 64).map fun k => (k, { at_ := .seq 3 0 0, toHbm := true, part := 0 }) } } 0 = 64 ∧
    programmed (wHeat 0 false false) (some 0) = false ∧ programmed (wHeat 0 false true) (some 0) = true := by
  refine ⟨by decide, by decide, by decide, by decide, by decide, by decide, fun _ _ _ => rfl, ?_⟩; decide +kernel

theorem meets_quotaWrites : operates (.dorlink 4) 0x80100 wMem = true ∧ (4 : Nat) < 5 ∧ partExists wMem 1 = true ∧ partExists wMem 2 = false ∧
    quotaOver 1 4 (2 ^ 32 - 1) wMem = true ∧ quotaOver 1 4 0 wMem = false := by decide +kernel

/-- EXT_GRANT of 2^z bytes to node 7, grace and key. -/
def wGrant (z : Byte) (grace : Nat) (node : Nat) : List Byte := [z, 0] ++ leBytes 2 grace ++ leBytes 4 5 ++ leBytes 2 node
def wUnits : State := { wMem with hbm := { wMem.hbm with free := [(0, [{ start := 512, len := 1024 }])] }, tly := { wMem.tly with copy := (List.range 10).map fun k => (0x050 + k, 2 ^ 26) } }
theorem meets_grants :
    (∀ x ∈ [((20 : Byte), 0, 7), (37, 0, 7), (21, 10001, 7), (21, 0, 0), (21, 0, 0xFFFF), (21, 10000, 7), (36, 0, 7), (24, 0, 7)],
      let s := wOp wUnits opExtGrant (wGrant x.1 x.2.1 x.2.2) []
      RingOk (ringOf s 0) ∧ starting opExtGrant 0 s = some (wEnt s)) ∧
    (let s := wOp wUnits opExtGrant (wGrant 21 10000 7) []
     s.ext.freeQ.take.isSome = true ∧ covers s 0 1 (2 ^ 21) = true ∧ (takeUnits 0 (2 ^ 0) (markStarted 0 0 s)).isSome = true) ∧
    (let s := wOp wUnits opExtGrant (wGrant 24 0 7) []
     covers s 0 1 (2 ^ 24) = true ∧ takeUnits 0 (2 ^ 3) (markStarted 0 0 s) = none) ∧
    covers { wUnits with tly := { wUnits.tly with copy := [] } } 0 1 (2 ^ 21) = false ∧
    ({ wUnits.ext.freeQ with next := 4096 }).take = none ∧ (wExt).state ≠ .zeroing ∧
    (∀ op ∈ [none, some 0], ({ wExt with state := .zeroing, op := op } : Extent).state = .zeroing) ∧ atRest wUnits = false := by
  unfold RingOk; decide +kernel

def isGo (p : Pre) : Bool := match p with | .go => true | _ => false
/-- Extent 1 of partition 0, of tenant 1 or another, and its revocation's state. -/
def wRevoke (tenant : Nat) (v : Option Revoke) : State := { wDev with
  ext := { wDev.ext with table := [(1, { wExt with tenant := tenant, state := if v.isSome then .revoking else .active, rev := v })] } }
theorem meets_revocations :
    atRest (wRevoke 1 none) = false ∧ (∀ v, atRest (wRevoke 1 (some v)) = false) ∧
    (∀ x ∈ [(1, 1), (2, 1), (1, 2)], let s := wOp (wRevoke x.1 none) opExtRevoke (leBytes 2 x.2 ++ [0]) []
      (ringOf s 0).entries.find? (fun e => e.idx == 0 && e.st == .waiting) = some (wEnt s) ∧ eOpcode (wEnt s).raw = opExtRevoke ∧ isGo (preCheck s 0 (wEnt s)) = true) ∧
    mget (wRevoke 1 none).ext.table 2 = none ∧ mayRevoke (wRevoke 1 none) 1 { wExt with tenant := 1 } = true ∧ mayRevoke (wRevoke 2 none) 1 { wExt with tenant := 2 } = false ∧
    revokingOf (checkRevoke 0 0 (wOp (wRevoke 1 none) opExtRevoke (leBytes 2 1 ++ [0]) [])) 0 0 = some 1 ∧ revokingOf (checkRevoke 0 0 (wOp (wRevoke 1 none) opExtRevoke (leBytes 2 2 ++ [0]) [])) 0 0 = none ∧
    (let v : Revoke := { recalling := true, scanned := List.range 8 }
     let s := wRevoke 1 (some v)
     (mget s.ext.table 1).bind (·.rev) = some v ∧ v.recalling = true ∧ (7 ∈ v.scanned) ∧ (7 : Nat) ∉ ({ v with scanned := [0] } : Revoke).scanned ∧ v.graceOpen = true ∧
      ({ v with graceOpen := false } : Revoke).graceOpen = false ∧ s.coh.txs = [] ∧ v.op = none ∧ revokeOver s 1 v = true ∧ s.coh.filter = [] ∧ s.coh.waiting = []) := by
  refine ⟨by decide, fun _ => rfl, ?_⟩; decide +kernel

/-- The place of the image's granule in stripe 0. -/
def wPlace : FPlace := { stripe := 0, at_ := 0, n := 1, unit := 0, seq := 1, gen := 0 }
/-- Flash of one die of 100 blocks with one stripe of block 0, one image, and one record. -/
def wFlash (st : Stripe) (programmed : Bool) : State := { wMem with ftl := { wMem.ftl with
  geo := { tbit := 1, bitsPerCell := 4, wordlines := 512, blocks := 100 }, dies := [0], stripes := [(0, st)], nextStripe := 1, blocks := [(0, { st := .opened, stripe := some 0 })]
  images := [(0, { wImage programmed with places := [wPlace] })], nextId := 2, secure := 1, recs := [(1, wRec)] } }
def wStripe (use : Nat) : Stripe := { use := use, region := 0, blocks := [0] }
def wShut : Stripe := { wStripe 0 with closed := true }
def wMigrating : Op := { wOpen (.migrate [.seq 3 0 0] 0 0 0 false false []) with raw := wRaw opObjMigrate [0, 1] 0 }
theorem meets_flash :
    (let s := wFlash (wStripe 1) false
     inStaging s 0 = true ∧ nextBlock s.ftl (useOf s 0) 0 = some 0 ∧ mhas s.ftl.images 0 = true ∧ (programImage 0 s).isSome = true ∧ overThreshold s 72 = false ∧ overThreshold s 73 = true ∧
      (mget s.ftl.images 0).isSome = true) ∧
    (let s := wFlash (wStripe 2) false
     inStaging s 1 = true ∧ mhas s.ftl.images 1 = false ∧ recTurn s 1 = true ∧ (programRec 1 s).isSome = true) ∧
    (let s := wFlash wShut true
     mget s.ftl.stripes 0 = some wShut ∧ wShut.closed = true ∧ wShut.freed = false ∧ s.ftl.patrolEn = true ∧ s.ftl.secure ≠ 0 ∧ (fblock s.ftl (blockKey 0 1)).st = .free ∧
      (fblock s.ftl (blockKey 0 1)).stripe = none ∧ { s with ftl := { s.ftl with patrolEn := false } }.ftl.patrolEn = false) ∧
    (let s := { wFlash wShut true with seqs := wHinted.seqs, ops := { wDev.ops with tab := [(0, wMigrating)] } }
     mget s.ops.tab 0 = some wMigrating ∧ field (eInline wMigrating.raw) 1 1 ≠ 0 ∧ ((getPage s (.seq 3 0 0)).map (·.moving)) = some false) := by decide +kernel
/-- The move of image 0. -/
def wMove : Move := { at_ := .seq 3 0 0, toHbm := false, part := 0, image := some 0 }
theorem meets_flashMoves : (∀ st b, atRest (wFlash st b) = false ∧ stopped (wFlash st b) = false) ∧
    (wFlash (wStripe 1) false).tier.moves.find? (fun m => m.2.image == some 0) = none ∧
    (let s := { wFlash (wStripe 1) false with tier := { wMem.tier with moves := [(4, wMove)] } }
     inStaging s 0 = true ∧ nextBlock s.ftl (useOf s 0) 0 = some 0 ∧ s.tier.moves.find? (fun m => m.2.image == some 0) = some (4, wMove)) :=
  ⟨fun _ _ => ⟨rfl, rfl⟩, by decide +kernel, by decide +kernel⟩
theorem meets_erase : NoDiscard (wFlash wShut true) := by intro x hx; cases hx

/-- An image in the buffer and an open bulk stripe. -/
def wFold : State :=
  let s := wFlash (wStripe 0) true
  { s with
    ftl := { s.ftl with units := [(0, { kind := 2, alloc := 1 })], images := [(0, { wImage true with places := [{ wPlace with stripe := 5 }] })] }
    tier := { s.tier with cap := [0, 0, 1, 1, 0] } }
theorem meets_housekeeping :
    mapReady wMem = true ∧ mapReady { wMem with start := { wMem.start with regions := [] } } = false ∧ unfolded wMem 0 = [] ∧ unfolded (wFlash wShut true) 0 ≠ [] ∧ (foldUnit 0 wFold).isSome = true ∧ atRest wFold = false ∧ foldUnit 0 wMem = none ∧ atRest wMem = false ∧
    (let s := wFlash { wShut with collectFirst := true } true
     victimOn s 0 = some (0, { wShut with collectFirst := true }) ∧ victimOn s 1 = none ∧ dieCollects s.ftl 0 = false) ∧
    (let s := wFlash wShut true
     ((copyOut 0 { s with ftl := { s.ftl with stripes := [(0, wShut), (1, { wStripe 0 with blocks := [1] })] } }).bind fun u => mget u.ftl.stripes 0).isSome = true) ∧
    (let s := wFlash wShut true
     victimOn s 0 = some (0, wShut) ∧ dieCollects s.ftl 0 = false ∧ wShut.collectFirst = false ∧
      dieCollects { s.ftl with blocks := (List.range 99).map fun k => (k, { st := .closed }) } 0 = true) ∧
    (2 ^ 20 - 1 < 2 ^ 20 ∧ { wMem.ftl with heatSamples := 2 ^ 20 }.heatSamples = 2 ^ 20) ∧
    (let c := fun (live : Bool) => ({ wRec with body := .catalog (.retire 0), bytes := 64, live := live } : FRec)
     catalogBytes { wMem.ftl with recs := [(0, c true), (1, c false)] } false = 2 * catalogBytes { wMem.ftl with recs := [(0, c true), (1, c false)] } true ∧
      2 * catalogBytes { wMem.ftl with recs := [(0, c true), (1, c false), (2, c false)] } true < catalogBytes { wMem.ftl with recs := [(0, c true), (1, c false), (2, c false)] } false) ∧
    wMem.start.wearReady = true := by decide +kernel
theorem meets_hours : (∀ w, (State.reset.tly.physAt (State.reset.tly.place w)).bad = false ∧ (State.reset.tly.physAt (State.reset.tly.place w)).count < 999990) ∧
    (∀ a b, State.reset.tly.place a = State.reset.tly.place b → a = b) :=
  ⟨fun _ => ⟨rfl, by show 0 < 999990; decide⟩, fun _ _ h => h⟩

theorem meets_discards :
    (∀ x ∈ [((0 : Byte), 4), (2, 6), (3, 0), (0, 3), (1, 1), (2, 5)], ∀ op ∈ [opDiscard, opDiscardSecure],
      let s := wOp wHinted op ([x.1, 0, 0, 0] ++ leBytes 4 x.2) (if x.1 = 1 then List.replicate 64 1 else [])
      RingOk (ringOf s 0) ∧ starting op 0 s = some (wEnt s)) ∧
    seqOk wHinted 1 4 = false ∧ objNamed wHinted 1 6 = none ∧ seqOk wHinted 1 3 = true ∧ (objNamed wHinted 1 5).isSome = true ∧
    (match unmapObject 1 ([2, 0, 0, 0] ++ leBytes 4 5) [] wHinted with | .done 2 0 v => (beginErase (secureSet wHinted v) (withholdOf 0 wHinted (secureSet wHinted v)) v).1 == [] | _ => false) = true ∧
    (let s := { wFlash wShut true with wt := wHinted.wt }
     let x := beginErase [0] [] { s with ftl := { s.ftl with images := [], stripes := [(0, { wShut with holds := [(0, 1)] })] } }
     x.1 = [0] ∧ unemptied x.2.2.ftl x.1 = []) := by
  unfold RingOk; decide +kernel
theorem meets_discardsAlone : NoClose wHinted ∧ NoDiscard wHinted := ⟨noClose_of rfl, by intro x hx; cases hx⟩

/-- A node that has spoken a message of a key, sent flits so far. -/
def wSent (sent : Nat) : State := { wDev with sec := { wDev.sec with keys := mmod wDev.sec.keys 5 fun k => { k with sent := sent } } }
def wOut : OutMsg := { dst := 7, typ := 3, vc := 1, addr := 0, key := 5, tag := 0, status := 0, flags := 0, body := [] }
theorem meets_messages : mget wDev.sec.keys 9 = none ∧ (∃ k, mget wDev.sec.keys wOut.key = some k ∧ k.sent + 1 ≤ 2 ^ 63 - 1) ∧
    (∃ k, mget (wSent (2 ^ 63 - 1)).sec.keys wOut.key = some k ∧ 2 ^ 63 - 1 < k.sent + 1) ∧
    (chunks 224 64 (msgHeader wOut.addr wOut.tag wOut.status wOut.flags ++ wOut.body)).length = 1 ∧ wOut.key ≠ 0 :=
  ⟨by decide +kernel, ⟨_, rfl, by decide⟩, ⟨_, rfl, by decide +kernel⟩, by decide +kernel, by decide⟩

/-- The device with session 2 of node 9 and one accepted request of it, two group members. -/
def wKm (code flags : Nat) (body : List Byte) : State := { wDev with
  img := { wDev.img with cur := some { wImg with cascSize := 2, cascNodes := [1, 8] } }
  sec := { wDev.sec with
    sessions := [(2, { node := 9, finished := true, kmSeq := 3 })]
    km := [{ session := 2, code := code, flags := flags, seq := 3, body := body }] } }
/-- A request of session 2 to close key 5, and a signature of it: both halves are the request's digest, and the public key is the point
whose x is that digest, less the base point, so that the signature verifies. -/
def wKmMsg : List Byte := [4, 3] ++ leBytes 2 4 ++ leBytes 4 3 ++ leBytes 4 2 ++ List.replicate 4 0 ++ leBytes 4 5
def wKmSig : List Byte := ofNats (natBlock 66 0x67d44579e86831a1da4c4cca5a45373f2288d95b084caf06ac1bbeb90ae88a02396dc84fc08d21204438344a6362c9a782b7de02ac86f85eb17b70b92ad471d0)
def wKmSigned : List Byte := wKmMsg ++ wKmSig ++ wKmSig
def wKmKey : List Byte := 4 :: ofNats (
  natBlock 66 0x9785c7cd4b3aad88ac516c261919aeb5bf0ed4d156896cba44d99e141744e15eb7a10b11e0c45024684bb7bf901cafd15b669f4a2a4575cc849aa23da9d90b0af3 ++
  natBlock 66 0x1e35830295e59b8b5aee360b779fb48cc7daa13d3c8ee847642131c0c19299657de9d0d1d827eef467b5329e279105db590dfa025024215ac338ae762d76ab9e66c)
def wKmDev (keys : List (List Byte)) : State := { wKm 1 0 [] with img := { wDev.img with cur := some { wImg with kmKeys := keys } } }
theorem meets_kmReceive :
    (mget (wKmDev [wKmKey]).sec.sessions 2).map (·.kmSeq) = some 3 ∧ wKmSigned.length = 148 + field wKmSigned 2 2 ∧ field wKmSigned 4 4 = 3 ∧
    field wKmSigned 8 4 = 2 ∧ field wKmSigned 0 1 = 4 ∧ kmMsg 4 3 4 3 2 (List.replicate 4 0 ++ leBytes 4 5 ++ wKmSig ++ wKmSig) = wKmSigned ∧ ¬ (∃ k ∈ ((wKmDev []).img.cur.map (·.kmKeys)).getD [], k = k) := by decide +kernel
theorem meets_kmVerified : ∃ k ∈ ((wKmDev [wKmKey]).img.cur.map (·.kmKeys)).getD [],
    ecdsaVerify k (wKmSigned.take (16 + field wKmSigned 2 2)) (wKmSigned.drop (16 + field wKmSigned 2 2)) = true :=
  ⟨wKmKey, by decide, by
    rw [show wKmSigned.take (16 + field wKmSigned 2 2) = wKmMsg by decide +kernel, show wKmSigned.drop (16 + field wKmSigned 2 2) = wKmSig ++ wKmSig by decide +kernel]
    set_option maxRecDepth 100000 in decide +kernel⟩

theorem meets_keyRequests :
    ((∃ x, mget (wKm 1 0 []).sec.sessions 2 = some x ∧ x.finished = true ∧ x.kmSeq = 3) ∧ ∀ x, mget (wKm 1 0 []).sec.sessions 1 = some x → x.finished = false ∨ 3 ≠ x.kmSeq) ∧
    ((∀ t ∈ [(1 : Nat), 256], (tenantSt (wKm 1 0 []) t).created = true ∨ 0xFF < t) ∧ (tenantSt (wKm 1 0 []) 255).created = false ∧ (tenantSt (wKm 1 0 []) 255).removing = false) ∧
    ((tenantSt (wKm 3 0 []) 1).created = true ∧ mhas (wKm 3 0 []).sec.keys 0x7FFFFFFF = false ∧ mhas (wKm 3 0 []).sec.keys 5 = true ∧ jobKeys (wKm 3 0 []) < 16384) ∧
    (1 < cascSize (wKm 5 0 []) ∧ cascPos (wKm 5 0 []) = 0 ∧ cascNode (wKm 5 0 []) 1 = 8) := by
  refine ⟨⟨⟨_, rfl, rfl, rfl⟩, fun x h => ?_⟩, by decide, by decide, by decide⟩
  cases h

theorem meets_removals :
    (let s := wKm 2 0 (leBytes 2 1)
     s.sec.km = [{ session := 2, code := 2, flags := 0, seq := 3, body := leBytes 2 1 }] ∧ (tenantSt s 1).created = true ∧ (tenantSt s 1).removing = false ∧ (tenantSt s 2).created = false ∧
      s.ops.tab = [] ∧ removalWaits s { tenant := some 1, erase := false, session := 2, seq := 3, code := 2, keys := [5] } = false ∧
      removalRings s { tenant := some 1, erase := false, session := 2, seq := 3, code := 2, keys := [5] } = [0]) ∧
    (let s := wKm 4 0 (leBytes 4 5)
     keyLive s 5 = true ∧ keyLive s 9 = false ∧ removalRings s { tenant := none, erase := false, session := 2, seq := 3, code := 4, keys := [5] } = [0] ∧
      removalWaits s { tenant := none, erase := false, session := 2, seq := 3, code := 4, keys := [5] } = false) := by decide +kernel

def wRemoving (tenant : Option Nat) (erase : Bool) (scrubs : List Nat) : State := { wDev with
  sec := { wDev.sec with removals := [{ tenant := tenant, erase := erase, session := 2, seq := 3, code := 2, keys := [5], stage := 1, scrubs := scrubs }] } }
theorem meets_drains : (∀ t e l, atRest (wRemoving t e l) = false) ∧ ∀ t ∈ [none, some 1], ∀ e ∈ [false, true], ∀ l ∈ [[], [0]],
    ((wRemoving t e l).sec.removals.find? fun r => r.stage == 1) = some { tenant := t, erase := e, session := 2, seq := 3, code := 2, keys := [5], stage := 1, scrubs := l } ∧
    (∀ p ∈ l, (partOf (wRemoving t e l) p).reset = .none) ∧ (wRemoving t e l).ops.tab = [] ∧ (wRemoving t e l).ext.table = [] ∧ (mget (wRemoving t e l).sec.tenants 1).isSome = true :=
  ⟨fun _ _ _ => rfl, by decide⟩

/-- Sessions: none, one opening of node 7, the most there are. -/
def wSess (l : AMap Session) : State := { wDev with sec := { wDev.sec with sessions := l } }
theorem meets_spdm :
    (deaf wDev = false ∧ spdmLate wDev wHdr = false ∧ spdmLate (wSess [(2, { node := 7, finished := true })]) { wHdr with key := 0 } = true ∧ spdmLate (wSess [(2, { node := 8, finished := true })]) { wHdr with key := 0 } = false ∧ ∃ k, mget wDev.sec.keys wHdr.key = some k ∧ k.dying = false) ∧
    lowestFree wDev.sec.sessions (wDev.sec.nextSession % 2 ^ 16) 65 = some 0 ∧ openingOf wDev 7 = none ∧ openingOf (wSess [(3, { node := 7 })]) 7 = some (3, { node := 7 }) ∧
    64 ≤ (wSess ((List.range 64).map fun k => (k, { node := 7 }))).sec.sessions.length ∧ (wSess ((List.range 63).map fun k => (k, { node := 7 }))).sec.sessions.length < 64 ∧
    deaf { wDev with resp := { kind := .fatal, stage := .ended } } = true ∧
    (∀ k, mget { wDev.sec with keys := [(5, { tenant := 1, node := 7, bytes := [], dying := true })] }.keys 5 = some k → k.dying = true) ∧
    (wSess [(2, { node := 9, finished := true, key := 4 })]).sec.sessions.find? (fun x => x.2.finished && x.2.key == 4) = some (2, { node := 9, finished := true, key := 4 }) ∧
    (wDev.sec.sessions.find? fun x => x.2.finished && x.2.key == 5) = none := by
  refine ⟨⟨by decide, by decide, by decide, by decide, _, rfl, rfl⟩, by decide, by decide, by decide, by decide, by decide, by decide, fun k h => ?_, by decide, by decide⟩
  cases h; rfl

def wRoot (programmed revoked : Bool) : Root := { programmed := programmed, revoked := revoked, digest := [] }
def wRoots (l : List Root) (matched : Option Nat) : State := { wDev with sec := { wDev.sec with roots := l, matched := matched } }
def wDebug (halted : AMap Nat) : State := { wDev with
  core := { wDev.core with halted := halted }
  sec := { wDev.sec with dbgCluster := 0, dbgCore := 63, dbgSpace := 0, dbgAddr := 0 } }
theorem meets_blank : let s := { wStart [1, 2, 3] with sec := State.reset.sec }
    (∀ i, (nth s.sec.roots i {}).programmed = false) ∧ inPhase s 4 = true ∧ s.start.readB = false ∧ wGood.readOk = true ∧ imgMagic wGood = 0x525A5649 ∧ dirOk wGood = true ∧ 2 ∈ s.start.done ∧
    operates .i3c (0xB0040 + 4 * 15) wDev = true := by
  refine ⟨fun i => ?_, by decide, by decide, by decide, by decide, by decide +kernel, by decide, by decide⟩
  match i with
  | 0 | 1 | 2 | 3 => rfl
  | n + 4 => rfl

theorem meets_fuses :
    servedAt .i3c 0xB0020 wDev = true ∧ wDev.sec.fuseBusy = false ∧
    (let good := fun (r : Root) => r.programmed && !r.revoked
     let s := wRoots [wRoot true false, wRoot true true, wRoot false false] none
     (nth s.sec.roots 0 {}).programmed = true ∧ good (nth s.sec.roots 0 {}) = true ∧ count good s.sec.roots = 1 ∧ good (nth s.sec.roots 1 {}) = false ∧ (nth s.sec.roots 2 {}).programmed = false ∧
      (wRoots [wRoot true false, wRoot true false] (some 1)).sec.matched = some 1) ∧
    (∀ l ∈ [[], [(coreId 0 63, 0)]], operates (.dorlink 4) 0xB0024 (wDebug l) = true ∧ operates (.dorlink 4) 0xB002C (wDebug l) = true ∧ dbgInside (wDebug l) = true ∧
      mhas (wDebug l).core.halted (dbgCore (wDebug l)) = !l.isEmpty) ∧
    (let u := wUnit (.running 0 63 5 false)
     let s := { wDebug [(coreId 0 63, 7)] with attn := { wDev.attn with units := [(0, u)], nextUnit := 1 } }
     dbgCore s = coreId 0 63 ∧ unitOn s s.sec.dbgCluster s.sec.dbgCore = some (0, u) ∧ mget s.attn.units 0 = some u) ∧
    (∀ x ∈ wDev.sch.parts, x.2.scrubbing = false) ∧ (∃ x ∈ { wDev.sch with parts := [(1, { scrubbing := true })] }.parts, x.2.scrubbing = true) ∧ wDev.pwr.pinPower < 65504 := by
  decide +kernel

/-- The device with the block and stack down for a remap, as many remaps done in the stack as its word says, corrected errors of the block. -/
def wHbm (due : Bool) (used errs : Nat) : State := { wDev with
  tly := { wDev.tly with copy := [(stackWord 1, BitVec.ofNat 32 used)] }
  spare := { wDev.spare with remapping := if due then [(1, 2)] else [], corrected := List.replicate errs ((1, 2), (epochNo wDev, now wDev)) } }
theorem meets_repairs :
    (∀ d u e, atRest (wHbm d u e) = false) ∧ atRest wBridge = false ∧
    (∀ d ∈ [false, true], (1, 2) ∈ (wHbm d 0 0).spare.remapping ↔ d = true) ∧ remapUsed (wHbm false 2047 0) 1 < 2048 ∧ ¬ remapUsed (wHbm false 2048 0) 1 < 2048 ∧
    mget wDev.spare.unwritten (stackWord 1) = none ∧ (recentErrors (wHbm false 0 30) 1 2).length < 31 ∧ 31 ≤ (recentErrors (wHbm false 0 31) 1 2).length ∧
    remapUsed (wHbm true 2047 0) 1 + 1 = 2048 ∧ ((16 : Nat) ≤ 16 ∧ 16 < 17) ∧ 2 ∉ wDev.spare.retraining ∧ 2 ∈ wBridge.spare.retraining ∧ 2 < wBridge.spare.genDie.length := by
  refine ⟨fun _ _ _ => rfl, ?_⟩; decide +kernel

def wEvent : Event := { cls := 1, code := evDebug }
def wBbx (b : Bbx) : State := { wDev with bbx := b }
def wSnap (held : Bool) (serial : Nat) : Snapshot := { held := held, complete := true, serial := serial }
theorem meets_saddlebag :
    (let b := { wDev.bbx with queue := [wEvent] }
     b.frozen = false ∧ b.ring.length < 8192 ∧ (List.replicate 8192 wEvent).length = 8192) ∧
    (wDev.bbx.queue = [] ∧ { wDev.bbx with frozen := true }.frozen = true) ∧ wDev.bbx.queue.length + wDev.bbx.rate.length ≤ 64 ∧
    operates (.dorlink 4) 0xD0004 wDev = true ∧
    (wBbx { wDev.bbx with copy := some { slot := 0, cls := clsOperator } }).bbx.copy.isSome = true ∧
    (let s := wBbx { wDev.bbx with slots := [wSnap true 4, wSnap false 9, wSnap true 1, wSnap true 2] }
     s.bbx.copy = none ∧ s.bbx.slots.length = 4 ∧ 3 ≤ count (fun x => Snapshot.held x) s.bbx.slots ∧ (nth s.bbx.slots 1 {}).held = false) ∧
    (∀ sel ∈ [0xFF, 0x100], let s := { wDev with tly := { wDev.tly with sel := sel } }
      operates (.dorlink 4) 0xC0008 s = true ∧ (s.tly.physAt (s.tly.place s.tly.sel)).bad = false ∧ (s.tly.physAt (s.tly.place s.tly.sel)).count < 1000000) := by
  decide +kernel

/-- This device at position 1 of a group of nodes 8, 1 and 9; its master may be itself. -/
def wGroup (c : Casc) : State := { wDev with
  img := { wDev.img with cur := some { wImg with nodeId := 1, cascPos := 1, cascSize := 3, cascNodes := [8, 1, 9] } }
  casc := c }
theorem wGroup_takes (c : Casc) : takes wPair (wGroup c) = true ∧ ∃ k, mget (wGroup c).sec.keys wPair.key = some k ∧ k.pair = true ∧ k.node = wPair.src :=
  ⟨rfl, _, rfl, rfl, rfl⟩
theorem meets_members : let s := wGroup wDev.casc
    s.casc.imports = [] ∧ s.casc.exports = [] ∧ s.casc.lookup = none ∧ s.pins.rdy = true ∧ ((0 : Nat) < cascSize s ∧ 0 ≠ cascPos s) ∧ cascNode s 0 = wPair.src ∧ cascNode s 2 ≠ wPair.src ∧
    bit (wGroup { wDev.casc with mask := 3 }).casc.mask 0 = true ∧ ¬ (¬ (1 : Nat) = cascPos s) ∧ 1 < cascSize s ∧ cascSize wDev ≤ 1 := by decide

def wLook (acks : List (Nat × List Nat)) (awaited : List Nat) : MLookup := { op := 0, sid := 4, view := 0, owner := 0, bankSet := 0, keys := [], wins := [], awaited := awaited, acks := acks, results := [], stirrup := false }
theorem meets_groupLookups :
    fromMaster (wGroup { wDev.casc with view := 2, masterPos := 0, mask := 3, pos := lput wDev.casc.pos 0 { hellos := 2, live := true } }) 8 2 = true ∧ fromMaster (wGroup { wDev.casc with view := 2, masterPos := 0, mask := 3, pos := lput wDev.casc.pos 0 { hellos := 2, live := true } }) 8 3 = false ∧
    (let s := wGroup { wDev.casc with searches := [{ sid := 4, master := 8, key := 6, owner := 0, keys := [], wins := [] }] }
     (s.casc.searches.find? fun m => m.sid == 4 && m.master == 8).isSome = true ∧ (s.casc.searches.find? fun m => m.sid == 5 && m.master == 8) = none) ∧
    (let s := wGroup { wDev.casc with lookup := some (wLook [] [0]) }
     positionOf s 8 = some 0 ∧ (wLook [] [0]).sid = 4 ∧ 0 ∈ (wLook [] [0]).awaited ∧ (∀ x ∈ (wLook [] [0]).acks, x.1 ≠ 0) ∧ (wLook [(0, [])] [0]).acks ≠ []) ∧
    ((wDev.casc.stirrup = none ∧ wDev.casc.lookup = none) ∧ ({ count := 2, prios := [3, 4] } : Stirrup).beat + 1 < 2) := by decide

def wExports (released : List Nat) (seen : List (Nat × Nat)) : State := { wGroup { wDev.casc with exports := [(0, { holder := 8, block := 1, run := none, part := 0, gen := 0, layers := 2, recs := [0, 0], released := released, seen := seen })] } with
  seqs := { wDev.seqs with recs := [(0, { page := wPage [List.replicate 256 0], count := 1 })] } }
/-- The export's page is a Peer page itself, none of its image here; or 24 bytes of one, which says it has 24. -/
def wChain (got : List Byte) : State := let s := wExports [] []
  { s with
    seqs := { s.seqs with recs := [(0, { page := { wPage [] with tier := .peer }, count := 1 })] }
    casc := { s.casc with images := [{ who := .chain 0 0, rec_ := 0, bytes := got }] } }
theorem meets_peers :
    (((recOf (wChain []) 0).map (·.page.tier)) = some .peer ∧ peerWhole (wChain []) (.chain 0 0) 0 = false ∧ (exportOf (wChain []) 0 8).isSome = true) ∧
    stopped (wExports [] []) = false ∧
    exportOf (wExports [] []) 5 8 = none ∧ (exportOf (wExports [1] []) 0 8).isSome = true ∧ (2 : Nat) ≤ 2 ∧ 1 ∈ [1] ∧ (1 : Nat) < 2 ∧ (recOf (wExports [] []) 0).isSome = true ∧
    (wPage []).tier ≠ .dropped ∧ (wPage []).tier ≠ .peer ∧
    (let s := wGroup { wDev.casc with reads := [(3, { who := .op 0, rec_ := 0, node := 8, handle := 0, layer := 0, offset := 0, len := 8, resends := 3 })] }
     (mget s.casc.reads wPair.tag).isSome = true ∧ mget s.casc.reads 9 = none ∧ (3 : Nat) ≤ 3 ∧ (2 : Nat) < 3) := by decide +kernel

/-- The device with a partition in reset, its self-test next, and every core slot served by itself. -/
def wReset (st : ResetSt) : State := { wDev with sch := { wDev.sch with parts := [(0, { reset := st })] } }
theorem meets_resets :
    (atRest (wReset .none) = false ∧ partOfCluster (wReset .none) 0 = some 0 ∧ (partOf (wReset .none) 0).reset = .none ∧ (wReset .none).ops.tab = [] ∧
      operates (.dorlink 4) 0xA0100 (wReset .none) = true ∧ partExists (wReset .none) 0 = true ∧ partExists (wReset .none) 2 = false) ∧
    (partOf (wReset .clearing) 0).reset ≠ .none ∧
    (let s := wReset .testing
     atRest s = false ∧ (partOf s 0).reset = .testing ∧ (clustersOf s 0).Nodup ∧ 1 ∈ clustersOf s 0 ∧ 1 < s.spare.genCl.length ∧ s.spare.retireDue = [] ∧ s.spare.hamperDue = [] ∧
      mget s.spare.unwritten (clWord 1) = none ∧ servedBy (spareNat s (clWord 1)) 63 = some 63 ∧ freeSpareSlot (spareNat s (clWord 1)) = some 64) ∧
    RingsOk (wReset .none).rng := by
  unfold RingsOk RingOk; decide +kernel

/-- The device with the I3C pointer at an offset, before or after phase 2 and RDY. -/
def wMgmt (done : List Nat) (rdy : Bool) (ptr : Nat) : State := { wDev with
  start := { wDev.start with done := done }, pins := { wDev.pins with rdy := rdy }, mgmt := { wDev.mgmt with i3cPtr := ptr } }
theorem meets_transfers :
    takes wHdr wDev = true ∧ takes wHdr (wMgmt [] false 0) = true ∧ wDev.pins.rdy = true ∧
    (∀ x ∈ [((0 : Nat), 4), (0x1FFC0, 64), (0xFFFFFC, 4)], x.1 % 4 = 0 ∧ x.2 % 4 = 0 ∧ 4 ≤ x.2 ∧ x.2 ≤ 64 ∧ x.1 < 2 ^ 24 ∧ x.1 / 0x10000 = (x.1 + x.2 - 1) / 0x10000) ∧
    (∀ x ∈ [((2 : Nat), 4), (0, 0), (0, 6), (0, 68), (0x1FFFC, 8), (0x1000000, 4)],
      ¬ (x.1 % 4 = 0 ∧ x.2 % 4 = 0 ∧ 4 ≤ x.2 ∧ x.2 ≤ 64 ∧ x.1 < 2 ^ 24 ∧ x.1 / 0x10000 = (x.1 + x.2 - 1) / 0x10000)) ∧
    (2 ∈ (wMgmt [2] false 0).start.done ∧ 13 ∉ (wMgmt [2] false 0).start.done ∧ 13 ∈ wDev.start.done ∧ 2 ∉ (wMgmt [] false 0).start.done) ∧
    (∀ i, i < 1 → wornWrite (.dorlink 5) (0xC0008 + 4 * i) (field [0, 0, 0, 0] (4 * i) 4) wDev = false) ∧
    field (leBytes 4 0xFFFFFC) 0 4 < 2 ^ 24 ∧ field (leBytes 4 0xFFFFFC) 0 4 % 4 = 0 ∧ 2 ^ 24 ≤ field (leBytes 4 0x1000000) 0 4 := by decide +kernel

theorem meets_accesses :
    (∀ off ∈ [0x00108, 0x60120, 0x90020, 0xA0304, 0xA0310, 0xD0028], operates (.dorlink 4) off wDev = true ∧ operates .i3c off wDev = true ∧ servedAt (.dorlink 4) off wDev = true ∧
      servedAt (.dorlink 5) off wDev = true ∧ servedAt (.dorlink 4) off (wMgmt [2] false 0) = false) ∧
    (∀ i, i < 5 → i < wDev.mgmt.latDl.length ∧ i < wDev.mgmt.latI3c.length) ∧ wDev.start.wearReady = true ∧ (wMgmt (List.range 14) true 0x0010C).mgmt.i3cPtr = 0x00108 + 4 ∧ takes { wHdr with key := 4 } wDev = true ∧
    (partyOf wDev (.dorlink 5)).isOperator = false ∧ (∀ p, partyOf wDev (.dorlink 5) = .mgmt p → p < 16) ∧ partyOf wDev (.dorlink 9) = .nobody ∧ partyOf wDev (.dorlink 5) = .tenant 1 ∧
    (∀ off ∈ [0x60000, 0xE0000, 0xA0000, 0xD0024], operates (.dorlink 4) off wDev = true) ∧
    ((1 + 2 ^ 10) % 1024 ≠ 0 ∧ (1000 : Nat) % 1024 = 1000 ∧ 1000 < 1001 % 1024 ∧ bits (100 * 2 ^ 10) 10 7 = 100 ∧ 100 < bits (101 * 2 ^ 10) 10 7) := by
  refine ⟨by decide +kernel, by decide, by decide, by decide, by decide, by decide, fun p h => ?_, by decide, by decide, by decide +kernel, by decide⟩
  have e : partyOf wDev (.dorlink 5) = .tenant 1 := by decide
  rw [e] at h; cases h

/-- The invariant at reset and in service, and a step from each. -/
theorem meets_inv : Machine.Inv State.reset ∧ step State.reset = .next (idle State.reset) ∧ Machine.Inv wDev ∧ ∃ t, step wDev = .next t :=
  ⟨by unfold Machine.Inv RdyOk RingsOk RingOk; decide, rfl, by unfold Machine.Inv RdyOk RingsOk RingOk; decide, _, rfl⟩

/-! ### Ill-formed commands, one for each check, and the boundary values inside it -/

def wBody (n : Nat) : List Byte := List.replicate n 0
def wHello (pos view mask epoch len : Nat) : Instr := .hello wHdr pos view mask epoch (wBody len)
def wLines : Lines := { prsntEarly := true, prsntLate := true, pwrfail := false, leak := false, unplug := false }
def wGeo : Geometry := { tbit := 0, bitsPerCell := 0, wordlines := 0, blocks := 0 }

theorem test_illFormed_headers : ∀ c ∈ ([.ack { wHdr with port := 16 }, .ack { wHdr with src := 65536 }, .ack { wHdr with key := 2 ^ 32 }, .ack { wHdr with tag := 65536 }, .mdLoad (.dorlink (2 ^ 32)),
    .nak wHdr 65536, .rdUnc wHdr 60 5, .rdUnc wHdr 0 0, .wrUnc wHdr 0 (2 ^ 64) (wBody 64), .wrUnc wHdr 0 1 (wBody 63), .rdS wHdr 32, .upg wHdr (2 ^ 48), .wb wHdr 0 [], .snpResp wHdr 0 (some []) false,
    .snoopTimeout 0 65536, .data wHdr false (wBody 4097), .doorbell wHdr 16384 0 0 0 [], .doorbell wHdr 0 65536 0 0 [], .doorbell wHdr 0 0 65536 0 [], .doorbell wHdr 0 0 0 1 [], .doorbell wHdr 0 0 0 1 [wBody 63]] : List Instr),
    c.wf = false := by decide +kernel

theorem test_illFormed_power : ∀ c ∈ ([.vin60Contact 65536, .bankChargeDone 65536, .sensorSample 64 0, .sensorSample 0 2048, .sensorSample 0 (-2049), .cfgRestart .i3c 65536, .refclkPresent [1024], .pllLock 8,
    .hbmTrainingDone [(8, 0)] none, .hbmTrainingDone [] (some 8),
    .onfiTrainingDone wGeo [(48, 0)] [], .onfiTrainingDone wGeo [] [(0, 16)], .arrayChecksDone [34] [] [], .arrayChecksDone [] [(32, 0)] [], .arrayChecksDone [] [] [1024],
    .coreSelfTestDone [(32, 0)], .coreSelfTestDone [(0, 66)], .opticalCalibrationDone [] [], .powerGovernorMeasure 65536 0 0 wLines, .powerGovernorMeasure 0 65536 0 wLines, .powerGovernorMeasure 0 0 4 wLines] : List Instr),
    c.wf = false := by decide +kernel

theorem test_illFormed_image : ∀ img : SlotImage, 0x2000000 < img.bytes.length → (Instr.imageSlotChecked img).wf = false := by
  intro img h; simpa [Instr.wf] using h

theorem test_illFormed_links : ∀ c ∈ ([.linkUp 16 0, .linkUp 0 65536, .portDown 16, .laserBayLow 5 false 0, .subReq 16 0, .subDone 0 9, .frameReceive 0 (wFrame 0 0), .frameReceive 16 (wFrame 0 0), .flitForward 0 [],
    .requesterReadTimeout 65536, .completionWrite 16384, .extRevoke 16384 0, .extRevoke 0 65536, .encodeDone 16, .pmaPatrolRead [32], .workUnitDispatch 32 0, .workUnitEnd 0 64,
    .tierQuotaWrite .i3c 16 0 0, .tierQuotaWrite .i3c 0 5 0, .tierQuotaWrite .i3c 0 0 (2 ^ 32), .extZeroDone 4096, .snoopFilterScanDone 8 0, .snoopFilterScanDone 0 4096, .flashReadDone (.image 0 0) 0 6, .gcCollect 768,
    .hourOfService (-2049) 0, .hourOfService 0 (-2049)] : List Instr), c.wf = false := by decide +kernel

theorem test_illFormed_management : ∀ c ∈ ([.sramUncorrectable 32 (.core 0), .microcodeTrap 32, .partitionResetWrite .i3c 16, .partitionResetDone 16 [], .partitionResetDone 0 [(32, 0)], .partitionResetDone 0 [(0, 66)],
    .kmRequestReceive 64 1 0 0 0 0 [], .kmRequestReceive 0 256 0 0 0 0 [], .kmRequestReceive 0 0 256 0 0 0 [], .kmRequestReceive 0 0 0 65536 0 0 [], .kmRequestReceive 0 0 0 0 (2 ^ 32) 0 [],
    .kmRequestReceive 0 0 0 0 0 (2 ^ 32) [],
    .kmJobOpen 64, .spdm wHdr 256 [], .fuseProgram .i3c 65536 0, .fuseRevoke .i3c 0 65536, .debugDataAccess .i3c (some (2 ^ 32)), .hbmBackgroundZero 16 0 0, .bankRebuildDone 32, .hbmCorrectedError 8 0, .bridgeCrcLimit 3 0,
    .fatalMemoryInternal true (.hbm 8) 0 [], .fatalMemoryInternal true (.other 256 0) 0 [], .fatalMemoryInternal true (.other 0 65536) 0 [], .holdSlot .i3c 4, .tlyWordWrite .i3c (2 ^ 32), wHello 8 0 0 0 64, wHello 0 65536 0 0 64,
    wHello 0 0 256 0 64, wHello 0 0 0 (2 ^ 32) 64, wHello 0 0 0 0 63, .positionDead 8, .search wHdr 65536 0 0 0 [], .search wHdr 0 0 0 0 [[]], .claim wHdr 65536 0 0, .pageData wHdr 65536 [], .entdaa 128,
    .registerWrite .i3c (2 ^ 24) 0, .registerWrite .i3c 0 (2 ^ 32), .stirrupBeat 256] : List Instr), c.wf = false := by decide +kernel

theorem test_wellFormed : ∀ c ∈ ([.ack wHdr, .rdUnc wHdr 60 4, .wb wHdr (2 ^ 48 - 64) (wBody 64), .sensorSample 63 (-2048), .linkUp 15 65535, .subReq 0 8, .workUnitEnd 31 63, .gcCollect 767, .flashReadDone (.image 0 0) 120 5,
    wHello 7 65535 255 (2 ^ 32 - 1) 64, .registerWrite (.dorlink (2 ^ 32 - 1)) (2 ^ 24 - 1) (2 ^ 32 - 1), .doorbell wHdr 16383 65535 65535 1 [wBody 64]] : List Instr), c.wf = true := by decide +kernel

/-! ### One step each -/

/-- The state a step answers. -/
def wAfter (c : Instr) (s : State) : State := match exec c s with
  | .next t => t
  | _ => s

/-- R36: the rail is valid at the end of the soft start, not at contact. -/
theorem test_railContact : (wAfter (.vin60Contact 6000) State.reset).pwr.rail = .softStart := by decide +kernel
/-- R74. -/
theorem test_rdy : (wAfter .rdyAssert (wStart (List.range 13))).pins.rdy = true ∧ (wAfter .rdyAssert (wStart (List.range 12))).pins.rdy = false := by decide +kernel
/-- Table 2.7: a die sensor (kind 0) enters level 1 at 95 degrees, an HBM stack sensor (52) at 85, in units of 0.125 degrees. -/
theorem test_levels : (wAfter (.sensorSample 0 759) wDev).thm.level = 0 ∧ (wAfter (.sensorSample 0 760) wDev).thm.level = 1 ∧ (wAfter (.sensorSample 52 679) wDev).thm.level = 0 ∧
    (wAfter (.sensorSample 52 680) wDev).thm.level = 1 ∧ (wAfter (.sensorSample 52 760) wDev).thm.level = 3 := by decide +kernel
/-- R393: a word written through the debug window reads back; each access moves the offset by 4. -/
theorem test_debugWord : let t := wAfter (.debugDataAccess .i3c (some 0x12345678)) (wDebug [(coreId 0 63, 0)])
    t.sec.dbgAddr = 4 ∧ (wAfter (.debugDataAccess .i3c none) { t with sec := { t.sec with dbgAddr := 0 } }).mgmt.reply = [0x12345678] := by decide +kernel
/-- R444: a NOP completes OK at once. -/
theorem test_nop : ((ringOf (wAfter (.nop 0) (wOp wDev opNop [] [])) 0).ready.map (·.status)) = [stOk] := by decide +kernel
/-- R124: the first SEQ_OPEN answers with the lowest handle. -/
theorem test_seqOpen : (wAfter (.seqOpen 0) (wOp wMem opSeqOpen [0, 0, 3, 0] [])).seqs.tab.map (·.1) = [0] := by decide +kernel
/-- R279: a halving halves each counter, rounded down. -/
theorem test_halving : (wAfter .heatHalving { wHeat 1 false true with tier := { (wHeat 1 false true).tier with heat := [(5, 7)] } }).tier.heat = [(5, 3)] := by decide +kernel
/-- R412: a frozen ring takes no event. -/
theorem test_frozen : (wAfter .saddlebagEventWrite (wBbx { wDev.bbx with frozen := true, queue := [wEvent] })).bbx.ring = [] := by decide +kernel
/-- R452: a private write of four bytes sets the pointer. -/
theorem test_pointer : (wAfter (.i3cPrivateWrite [4, 1, 0, 0]) wDev).mgmt.i3cPtr = 0x104 := by decide +kernel
/-- R375: the fuse key is 0xF05E, and only over I3C. -/
theorem test_fuse : ((nth (wAfter (.fuseProgram .i3c 0xF05E 2) wDev).sec.roots 2 {}).programmed = true) ∧ ((nth (wAfter (.fuseProgram (.dorlink 4) 0xF05E 2) wDev).sec.roots 2 {}).programmed = false) := by decide +kernel
/-- The durable windows that 02's worked examples give, for 20 J and 16 J. -/
theorem test_windows : windowFor 160 = 1199996928 ∧ windowFor 128 = 919994368 := by decide +kernel
/-- Table 8.6: one P256 of the model of Table 0.3 under each codec. -/
def wFleet : Model := modelOf (padTo 64 [71, 12, 1, 6, 8, 8, 8, 2, 1])
theorem test_tableOfSizes : 256 * wFleet.rowBytes = 1572864 ∧ metaFrames wFleet = 2 ∧ imageFrames wFleet 1 256 0 = 196 ∧ imageFrames wFleet 2 256 0 = 102 ∧
    imageFrames wFleet 3 256 1024 = 78 ∧ maxFrames wFleet 3 256 = 101 := by decide +kernel
/-- 15's worked example: the bytes of a late SKETCH completion, index 0x403 of a ring with cq_log2 = 9. -/
theorem test_completionBytes : cplBytes { context := 0, sqLog2 := 4, cqLog2 := 9, key := 5, reqNode := 7, cplNode := 7 } 0x403
    { tag := 0x91A0, status := 1, rung := 0x81, loss := 0x3C800000, a := 600, b := 0, c := 0, time := 0x129A3C0E48, epoch := 0x4B8 } =
    [0xa0, 0x91, 0, 0, 0x01, 0x81, 0x01, 0, 0, 0, 0x80, 0x3c, 0x58, 0x02, 0, 0, 0, 0, 0, 0, 0, 0, 0, 0, 0x48, 0x0e, 0x3c, 0x9a, 0x12, 0, 0xb8, 0x04] := by decide +kernel

end Sys2Proof.Tests
end

section
/-! SUPPORT. NOP and the CPL messages: an entry without operands, a fence at the head of its ring, the phase bit of a completion, and what
the next CPL message carries. -/

namespace Sys2Proof.Machine

open Sys2Proof

/-! ### NOP (R444) -/

/-- No check that comes before its own fails for an entry that starts. -/
theorem preCheck_ne_fail_of_starting {op ring : Nat} {s : State} {e : Entry} (h : starting op ring s = some e) (a : Ans) :
    preCheck s ring e ≠ .fail a := by
  obtain ⟨hs, -, -⟩ := starting_some h
  intro hp
  simp [starting, hs, hp] at h

/-- Table 15.1 gives NOP an operands length of 0. -/
theorem lenNeed_nop (s : State) {raw : List Byte} (h : eOpcode raw = opNop) : lenNeed s raw = .exact 0 := by
  simp [lenNeed, lenRule, h]

/-- A NOP that names operands fails the check of its length (R443). -/
theorem preCheck_nop_of_eLen_ne_zero {s : State} {ring : Nat} {e : Entry} (hop : eOpcode e.raw = opNop) (hlen : eLen e.raw ≠ 0) :
    ∃ a, preCheck s ring e = .fail a := by
  have hbad : (eLen e.raw != 0) = true := bne_iff_ne.mpr hlen
  unfold preCheck
  dsimp only
  rw [lenNeed_nop s hop]
  dsimp only
  rw [if_pos hbad]
  repeat' split
  all_goals exact ⟨_, rfl⟩

theorem eLen_of_starting_nop {ring : Nat} {s : State} {e : Entry} (h : starting opNop ring s = some e) : eLen e.raw = 0 := by
  obtain ⟨-, hop, -⟩ := starting_some h
  refine Decidable.byContradiction fun hlen => ?_
  obtain ⟨a, hp⟩ := preCheck_nop_of_eLen_ne_zero (s := s) (ring := ring) hop hlen
  exact preCheck_ne_fail_of_starting h a hp

/-- A fence may start at the head of its ring only (R118). -/
theorem head?_of_startable_fence {ring : Nat} {s : State} {e : Entry} (h : startable s ring = some e) (hf : eFence e.raw = true) :
    (ringOf s ring).entries.head?.map (·.idx) = some e.idx := by
  unfold startable at h
  dsimp only at h
  split at h
  · cases h
  · split at h
    · cases h
    · next e' _ =>
      split at h
      · cases h
      · next hc =>
        cases h
        simpa [hf] using hc

/-- The head of a ring in order is its earliest entry. -/
theorem RingOk.le_of_head? {r : Ring} {i : Nat} (ok : RingOk r) (h : r.entries.head?.map (·.idx) = some i) :
    ∀ x ∈ r.entries, i ≤ x.idx := by
  obtain ⟨horder, -⟩ := ok
  cases hl : r.entries with
  | nil => rw [hl] at h; cases h
  | cons y l =>
    rw [hl] at h horder
    have hi : y.idx = i := Option.some.inj h
    have hlt : ∀ x ∈ l, y.idx < x.idx := by simpa using (List.pairwise_cons.mp horder).1
    intro x hx
    rcases List.mem_cons.mp hx with rfl | hx
    · exact Nat.le_of_eq hi.symm
    · exact hi ▸ Nat.le_of_lt (hlt x hx)

/-- The NOP that starts ends at once. -/
theorem exec_nop_of_starting {ring : Nat} {s : State} {e : Entry} (h : starting opNop ring s = some e) :
    exec (.nop ring) s = .next (endNow ring e { status := stOk } (markStarted ring e.idx s)) :=
  congrArg Host.Outcome.next (startOp_starting _ h)

theorem endNow_markStarted_only (ring : Nat) (e : Entry) (a : Ans) (s : State) :
    Only [.rng, .sch] s (endNow ring e a (markStarted ring e.idx s)) :=
  (endNow_touches ring e a rfl (markStarted_touches ring e.idx rfl (.refl _ s))).only

/-! ### Completions (R120, R121) -/

@[simp] theorem length_leBytes (n v : Nat) : (leBytes n v).length = n := by
  induction n generalizing v with
  | zero => rfl
  | succ n ih => simp [leBytes, ih]

/-- A field that stands whole behind `pre`. -/
theorem field_append_leBytes (pre post : List Byte) {n v : Nat} (hv : v < 256 ^ n) :
    field (pre ++ (leBytes n v ++ post)) pre.length n = v := by
  rw [field, List.drop_left, List.take_left' (length_leBytes n v), leNat_leBytes n v hv]

/-- R121: the phase bit at an index is 1 when index >> cq_log2 is even. -/
theorem field_cplBytes_phase (r : Ring) (i : Nat) (c : Cpl) :
    field (cplBytes r i c) 6 2 = if i >>> r.cqLog2 % 2 = 0 then 1 else 0 := by
  have hphase : b2n (i / 2 ^ r.cqLog2 % 2 == 0) = if i >>> r.cqLog2 % 2 = 0 then 1 else 0 := by
    rw [Nat.shiftRight_eq_div_pow]
    split
    · next h => rw [h]; rfl
    · next h => rw [beq_false_of_ne h]; rfl
  have hlt : b2n (i / 2 ^ r.cqLog2 % 2 == 0) < 256 ^ 2 := by
    rw [hphase]
    split <;> decide
  have hfield := field_append_leBytes (leBytes 4 c.tag ++ leBytes 1 c.status ++ leBytes 1 c.rung)
    (leBytes 4 c.loss ++ leBytes 4 c.a ++ leBytes 4 c.b ++ leBytes 4 c.c ++ leBytes 6 c.time ++ leBytes 2 c.epoch) hlt
  rw [← hphase, ← hfield]
  simp [cplBytes]

/-- A ring whose first `k` ready completions have gone into a CPL message. -/
def cplTaken (k : Nat) (r : Ring) : Ring :=
  { r with ready := r.ready.drop k, cqTail := r.cqTail + BitVec.ofNat 16 k, completed := r.completed + k }

/-- The next CPL message of a ring under a tag (R120). -/
def nextCpl (r : Ring) (tag : Nat) : OutMsg :=
  { typ := mtCpl, vc := 1, dst := r.cplNode, key := r.key, tag := tag, addr := r.cqBase + 32 * (r.cqTail.toNat % 2 ^ r.cqLog2)
    body := (List.range (cplCount r)).flatMap fun i =>
      cplBytes r ((r.cqTail.toNat + i) % 65536) (nth r.ready i { tag := 0, status := 0 }) }

/-- The tag of a ring's next CPL message, and the state in which its completions have left the ring and it is still to be sent. -/
def tagCpl (ring : Nat) (s : State) : Nat × State := takeTag (modRing ring (cplTaken (cplCount (ringOf s ring))) s)

/-- A ring that has completions to write and may write them sends its next CPL message. -/
theorem writeCpl_sends {ring : Nat} {s : State} (hn : cplCount (ringOf s ring) ≠ 0) (hm : mayWrite s (ringOf s ring) = true) :
    writeCpl ring s = send (nextCpl (ringOf s ring) (tagCpl ring s).1) (tagCpl ring s).2 := by
  have hgo : ¬ (cplCount (ringOf s ring) == 0 || !mayWrite s (ringOf s ring)) = true := by simp [hn, hm]
  unfold writeCpl
  dsimp only
  rw [if_neg hgo]
  rfl

theorem ringOf_send (m : OutMsg) (s : State) (n : Nat) : ringOf (send m s) n = ringOf s n := by
  have hrng : (send m s).rng = s.rng := (send_touches (μ := partSet [.link, .sec]) m rfl (.refl _ s)).rng.resolve_left (by decide)
  rw [ringOf, hrng, ringOf]

/-- What a written ring has left when its next CPL message has its tag. -/
theorem ringOf_tagCpl {ring : Nat} {s : State} (h : mhas s.rng.rings ring = true) :
    ringOf (tagCpl ring s).2 ring = cplTaken (cplCount (ringOf s ring)) (ringOf s ring) :=
  mgetD_mmod s.rng.rings ring {} _ h

/-- Settles O20: a NOP that starts passed the check of its operands length and ends at once, and a ring's next CPL message is sent after its
completions have left the ring. -/
theorem nopsAndCompletions : Obligations.NopsAndCompletions := by
  unfold Obligations.NopsAndCompletions
  intro s n ok
  refine ⟨fun e he => ?nop, fun i c => field_cplBytes_phase _ i c, fun hcount hlive hheld hring => ?completions⟩
  case nop =>
    obtain ⟨hstart, -, -⟩ := starting_some he
    obtain ⟨hmem, -, -⟩ := startable_mem hstart
    exact ⟨eLen_of_starting_nop he, fun hfence => ok.le_of_head? (head?_of_startable_fence hstart hfence),
      _, exec_nop_of_starting he, endNow_ended _ hmem ok, endNow_markStarted_only n e _ s⟩
  case completions =>
    have hwrite : mayWrite s (ringOf s n) = true := by simp [mayWrite, hlive, hheld]
    have hexec : exec (.completionWrite n) s = .next (send (nextCpl (ringOf s n) (tagCpl n s).1) (tagCpl n s).2) :=
      congrArg Host.Outcome.next (writeCpl_sends hcount hwrite)
    exact ⟨_, nextCpl (ringOf s n) (tagCpl n s).1, hexec, (ringOf_send _ _ n).trans (ringOf_tagCpl hring), ⟨_, rfl⟩,
      rfl, rfl, rfl, rfl, rfl, rfl, exec_only _ hexec⟩

end Sys2Proof.Machine
end

section
/-! SUPPORT. OBJ_HINT and OBJ_MIGRATE: what each refuses, and what each does to the object it takes. -/

namespace Sys2Proof.Machine

open Sys2Proof

/-! ### What OBJ_HINT refuses (R276) -/

/-- An entry sets the class flag and names a class above 3. -/
def BadClass (il : List Byte) : Prop := bit (field il 1 1) 0 = true ∧ 3 < field il 2 1

theorem badClass_iff (il : List Byte) : (bit (field il 1 1) 0 && decide (3 < field il 2 1)) = true ↔ BadClass il := by
  simp [BadClass]

/-- OBJ_HINT of a context refuses what its entry names, with this subcode: a handle, a block, an object, a kind, a class. -/
def HintRefused (s : State) (ctx : Nat) (il : List Byte) (sub : Nat) : Prop :=
  (field il 0 1 = 0 ∧ seqOk s ctx (field il 4 4 % 2 ^ 24) = false ∧ sub = 0x10) ∨
  (field il 0 1 = 1 ∧ blockNamed s ctx (field il 4 4) = none ∧ sub = 0x40) ∨
  (field il 0 1 = 2 ∧ objNamed s ctx (field il 4 4 % 2 ^ 20) = none ∧ sub = 0x40) ∨
  (2 < field il 0 1 ∧ sub = 0x41) ∨
  (((field il 0 1 = 0 ∧ seqOk s ctx (field il 4 4 % 2 ^ 24) = true) ∨
    (field il 0 1 = 1 ∧ (blockNamed s ctx (field il 4 4)).isSome = true) ∨
    (field il 0 1 = 2 ∧ (objNamed s ctx (field il 4 4 % 2 ^ 20)).isSome = true)) ∧ BadClass il ∧ sub = 0x41)

/-- A refused OBJ_HINT ends at once. -/
theorem objHint_refused {s : State} {n : Nat} {e : Entry} {sub : Nat}
    (h : HintRefused s (ringOf s n).context (eInline e.raw) sub) : objHint n e s = endNow n e (internal sub) s := by
  rcases h with ⟨hk, ho, rfl⟩ | ⟨hk, ho, rfl⟩ | ⟨hk, ho, rfl⟩ | ⟨hk, rfl⟩ | ⟨hknown, hbad, rfl⟩
  · simp [objHint, hk, ho, -Nat.reducePow]
  · simp [objHint, hk, ho]
  · simp [objHint, hk, ho, -Nat.reducePow]
  · unfold objHint
    dsimp only
    split
    · omega
    · omega
    · omega
    · rfl
  · have hclass := (badClass_iff (eInline e.raw)).mpr hbad
    rcases hknown with ⟨hk, ho⟩ | ⟨hk, ho⟩ | ⟨hk, ho⟩
    · simp [objHint, hk, ho, hclass, -Nat.reducePow, -Bool.and_eq_true]
    · obtain ⟨b, hb⟩ := Option.isSome_iff_exists.mp ho
      simp [objHint, hk, hb, hclass, -Bool.and_eq_true]
    · obtain ⟨w, hw⟩ := Option.isSome_iff_exists.mp ho
      simp [objHint, hk, hw, hclass, -Nat.reducePow, -Bool.and_eq_true]

/-! ### What OBJ_HINT does (R274, R275, R283) -/

/-- The pages whose hint is their sequence's: the ones it shares with no other (R274). -/
def hintedPages (q : Seq) : List PEnt := q.pages.filter fun p => match p.ref with
  | .own _ => true
  | .shared _ => false

/-- The class and priority that an entry gives an object that has these. -/
def hintAsked (il : List Byte) (w : Nat × Nat) : Nat × Nat := newHint (field il 1 1) (field il 2 1) (field il 3 1) w

/-- OK, with the pages whose hint the entry changes: all `k` of an object that has these class and priority, or none. -/
def hintAns (il : List Byte) (w : Nat × Nat) (k : Nat) : Ans :=
  { status := stOk, a := if hintAsked il w == w then 0 else k }

/-- A sequence's class and priority are written. -/
def setHint (h : Nat) (w : Nat × Nat) (s : State) : State := modSeq h (fun q => { q with hint := w.1, prio := w.2 }) s

/-- A sequence takes the class and priority an entry asks for: the class may stop moves of its pages, and its SEQ record is written. -/
def hintSeq (h : Nat) (il : List Byte) (q : Seq) (s : State) : State :=
  catSeq h true (forEach (hintedPages q) (fun p s => pinStops (p.at_ h) s) (setHint h (hintAsked il (q.hint, q.prio)) s))

/-- A weight object takes the class and priority an entry asks for: the class may stop moves of its tiles. -/
def hintObj (o : Nat) (il : List Byte) (x : WtObj) (s : State) : State :=
  let w := hintAsked il (x.hint, x.prio)
  forEach (List.range x.tiles.length) (fun i s => pinStops (.tile o i) s)
    (s.modWt fun y => { y with objs := mmod y.objs o fun x => { x with hint := w.1, prio := w.2 } })

theorem objHint_seq {s : State} {n : Nat} {e : Entry} {q : Seq} (hk : field (eInline e.raw) 0 1 = 0)
    (ho : seqOk s (ringOf s n).context (field (eInline e.raw) 4 4 % 2 ^ 24) = true) (hgood : ¬ BadClass (eInline e.raw))
    (hq : seqOf s (field (eInline e.raw) 4 4 % 2 ^ 24) = some q) :
    objHint n e s = endNow n e (hintAns (eInline e.raw) (q.hint, q.prio) (hintedPages q).length)
      (hintSeq (field (eInline e.raw) 4 4 % 2 ^ 24) (eInline e.raw) q s) := by
  have hclass := mt (badClass_iff (eInline e.raw)).mp hgood
  unfold objHint
  dsimp only
  rw [hk, ho, if_neg (by decide), if_neg hclass, hq]
  rfl

theorem objHint_obj {s : State} {n : Nat} {e : Entry} {w : WtObj} (hk : field (eInline e.raw) 0 1 = 2)
    (ho : objNamed s (ringOf s n).context (field (eInline e.raw) 4 4 % 2 ^ 20) = some w) (hgood : ¬ BadClass (eInline e.raw)) :
    objHint n e s = endNow n e (hintAns (eInline e.raw) (w.hint, w.prio) w.tiles.length)
      (hintObj (field (eInline e.raw) 4 4 % 2 ^ 20) (eInline e.raw) w s) := by
  have hclass := mt (badClass_iff (eInline e.raw)).mp hgood
  simp [objHint, hk, ho, hclass, hintAns, hintObj, hintAsked, -Nat.reducePow, -Bool.and_eq_true]

theorem hintSeq_touches (h : Nat) (il : List Byte) (q : Seq) (s : State) :
    Touches (partSet [.hbm, .seqs, .cdc, .tier, .wt, .ftl]) s (hintSeq h il q s) :=
  catSeq_touches h true (by decide) <| Touches.forEach _ _ (fun p _ ht => pinStops_touches (p.at_ h) (by decide) ht) <|
    modSeq_touches h _ (by decide) (.refl _ s)

theorem hintObj_touches (o : Nat) (il : List Byte) (x : WtObj) (s : State) :
    Touches (partSet [.hbm, .seqs, .cdc, .tier, .wt, .ftl]) s (hintObj o il x s) :=
  Touches.forEach _ _ (fun i _ ht => pinStops_touches (.tile o i) (by decide) ht) <| Touches.modWt _ (by decide) (.refl _ s)

theorem seqOf_setHint {h : Nat} {q : Seq} {s : State} (w : Nat × Nat) (hq : seqOf s h = some q) :
    seqOf (setHint h w s) h = some { q with hint := w.1, prio := w.2 } := by
  have hq : mget s.seqs.tab h = some q := hq
  simp [seqOf, setHint, modSeq, mget_mmod, hq]

/-- With no move in flight a hint of a sequence changes its two fields alone. -/
theorem seqOf_hintSeq {h : Nat} (il : List Byte) {q : Seq} {s : State} (hq : seqOf s h = some q) (hmoves : s.tier.moves = []) :
    seqOf (hintSeq h il q s) h =
      some { q with hint := (hintAsked il (q.hint, q.prio)).1, prio := (hintAsked il (q.hint, q.prio)).2 } := by
  have hstops (w : Nat × Nat) : forEach (hintedPages q) (fun p s => pinStops (p.at_ h) s) (setHint h w s) = setHint h w s :=
    forEach_id _ _ _ fun p _ => pinStops_id (p.at_ h) (s := setHint h w s) hmoves
  have hcat (u : State) : (catSeq h true u).seqs = u.seqs :=
    (catSeq_touches (μ := partSet [.ftl]) h true (by decide) (.refl _ u)).seqs.resolve_left (by decide)
  rw [hintSeq, hstops, seqOf, hcat]
  exact seqOf_setHint _ hq

/-- The hint's own work touches no ring, so the entry ends as one that did nothing else. -/
theorem endNow_hintAns_ended {s t : State} {n : Nat} {e : Entry} (il : List Byte) (w : Nat × Nat) (k : Nat) (hmem : e ∈ (ringOf s n).entries)
    (ok : RingOk (ringOf s n)) (ht : Touches (partSet [.hbm, .seqs, .cdc, .tier, .wt, .ftl]) (markStarted n e.idx s) t) :
    Ended n e { status := stOk, a := if hintAsked il w = w then 0 else k } s (endNow n e (hintAns il w k) t) := by
  have hended := endNow_ended_after (hintAns il w k) hmem ok (ht.rng.resolve_left (by decide)) (ht.clk.resolve_left (by decide))
  simpa only [hintAns, beq_iff_eq] using hended

theorem exec_objHint_of_starting {s : State} {n : Nat} {e : Entry} (h : starting opObjHint n s = some e) :
    exec (.objHint n) s = .next (objHint n e (markStarted n e.idx s)) :=
  congrArg Host.Outcome.next (startOp_starting _ h)

/-! ### OBJ_MIGRATE (R276, R284) -/

/-- OBJ_MIGRATE of a context refuses what its entry names, with this subcode: a kind, a handle, an object, a direction. -/
def MigrateRefused (s : State) (ctx : Nat) (il : List Byte) (sub : Nat) : Prop :=
  (2 < field il 0 1 ∧ sub = 0x41) ∨ (field il 0 1 = 0 ∧ migrateTargets s ctx il = none ∧ sub = 0x10) ∨
  ((field il 0 1 = 1 ∨ field il 0 1 = 2) ∧ migrateTargets s ctx il = none ∧ sub = 0x40) ∨
  (field il 0 1 ≤ 2 ∧ (migrateTargets s ctx il).isSome = true ∧ 1 < field il 1 1 ∧ sub = 0x41)

/-- A refused OBJ_MIGRATE ends at once. -/
theorem objMigrate_refused {s : State} {n : Nat} {e : Entry} {sub : Nat}
    (h : MigrateRefused s (ringOf s n).context (eInline e.raw) sub) : objMigrate n e s = endNow n e (internal sub) s := by
  rcases h with ⟨hk, rfl⟩ | ⟨hk, ho, rfl⟩ | ⟨hk, ho, rfl⟩ | ⟨hk, ho, hdir, rfl⟩
  · simp [objMigrate, hk]
  · simp [objMigrate, hk, ho]
  · rcases hk with hk | hk <;> simp [objMigrate, hk, ho]
  · obtain ⟨l, hl⟩ := Option.isSome_iff_exists.mp ho
    simp [objMigrate, Nat.not_lt.mpr hk, hl, hdir]

/-- The op of a migration that starts, over its pages. -/
def begunMigrate (n : Nat) (e : Entry) (l : List PageAt) (s : State) : State :=
  (beginOp n e (.migrate l 0 0 0 false false []) (countWait (ringOf s n).context e.arrival s)).2

/-- An OBJ_MIGRATE that no check refuses counts its wait, begins its op and takes its pages in order. -/
theorem objMigrate_begins {s : State} {n : Nat} {e : Entry} {l : List PageAt} (hk : field (eInline e.raw) 0 1 ≤ 2)
    (hl : migrateTargets s (ringOf s n).context (eInline e.raw) = some l) (hdir : field (eInline e.raw) 1 1 ≤ 1) :
    objMigrate n e s = runMigrate s.ops.next (begunMigrate n e l s) := by
  unfold objMigrate
  dsimp only
  rw [if_neg (Nat.not_lt.mpr hk), hl]
  dsimp only
  rw [if_neg (Nat.not_lt.mpr hdir)]
  rfl

theorem begunMigrate_inProgress (n : Nat) (e : Entry) (l : List PageAt) (s : State) :
    InProgress n e (.migrate l 0 0 0 false false []) s (begunMigrate n e l (markStarted n e.idx s)) :=
  ⟨_, newOp_get _ (countWait _ e.arrival (markStarted n e.idx s)), rfl, rfl, rfl⟩

theorem begunMigrate_only (n : Nat) (e : Entry) (l : List PageAt) (s : State) : Only [.ops, .sch] s (begunMigrate n e l s) :=
  (beginOp_touches n e _ (by decide) (countWait_touches _ e.arrival (by decide) (.refl _ s))).only

theorem exec_objMigrate_of_starting {s : State} {n : Nat} {e : Entry} (h : starting opObjMigrate n s = some e) :
    exec (.objMigrate n) s = .next (objMigrate n e (markStarted n e.idx s)) :=
  congrArg Host.Outcome.next (startOp_starting _ h)

/-- Settles O35: each refusal ends the entry at once and each effect is said by its own equation, on the state in which the entry is
marked as started, which differs from the first in the ring alone. -/
theorem hintsAndMigrations : Obligations.HintsAndMigrations := by
  unfold Obligations.HintsAndMigrations
  intro s n e ok il ctx id flags h bad new
  refine ⟨fun hs => ?hint, fun hs => ?migrate⟩
  case hint =>
    obtain ⟨hmem, -, -⟩ := startable_mem (starting_some hs).1
    have hctx : (ringOf (markStarted n e.idx s) n).context = ctx := context_markStarted hmem
    have hexec := exec_objHint_of_starting hs
    refine ⟨fun sub href => ?refused, fun q hk ho hgood hq => ?seq, fun w hk ho hgood => ?obj⟩
    case refused =>
      have href : HintRefused (markStarted n e.idx s) ctx il sub := href
      rw [objHint_refused (hctx ▸ href)] at hexec
      exact ⟨_, hexec, endNow_ended _ hmem ok, (endNow_keeps n e _ _).1⟩
    case seq =>
      rw [objHint_seq (s := markStarted n e.idx s) (q := q) hk (hctx ▸ ho) hgood hq] at hexec
      refine ⟨_, hexec, endNow_hintAns_ended il _ _ hmem ok (hintSeq_touches _ _ _ _), fun hmoves => ?_⟩
      rw [seqOf, (endNow_keeps n e _ _).1]
      exact seqOf_hintSeq il (s := markStarted n e.idx s) hq hmoves
    case obj =>
      rw [objHint_obj (s := markStarted n e.idx s) (w := w) hk (hctx ▸ ho) hgood] at hexec
      exact ⟨_, hexec, endNow_hintAns_ended il _ _ hmem ok (hintObj_touches _ _ _ _)⟩
  case migrate =>
    obtain ⟨hmem, -, -⟩ := startable_mem (starting_some hs).1
    have hctx : (ringOf (markStarted n e.idx s) n).context = ctx := context_markStarted hmem
    have hexec := exec_objMigrate_of_starting hs
    refine ⟨fun sub href => ?refused, fun l hk hl hdir => ?begins⟩
    case refused =>
      have href : MigrateRefused (markStarted n e.idx s) ctx il sub := href
      rw [objMigrate_refused (hctx ▸ href)] at hexec
      exact ⟨_, hexec, endNow_ended _ hmem ok, endNow_tier n e _ _⟩
    case begins =>
      rw [objMigrate_begins (s := markStarted n e.idx s) (l := l) hk (hctx ▸ hl) hdir] at hexec
      exact ⟨_, begunMigrate_inProgress n e l s, begunMigrate_only n e l _, hexec⟩

end Sys2Proof.Machine
end

section
/-! SUPPORT. The image-root fuses: which fuse commands act, what each refuses, the words of SEC_FUSE_DATA, and what a blank device answers
to an image slot. -/

namespace Sys2Proof.Machine

open Sys2Proof

/-! ### Which fuse commands act (R375, R454) -/

/-- Over I3C the SEC_ block is served once the window is reachable, from the end of phase 2 on. -/
theorem servedAt_fuseCmd_of_phase2 {s : State} (h : 2 ∈ s.start.done) : servedAt .i3c 0xB0020 s = true := by
  simp [servedAt, reachable, served, h]

theorem fuseCmd_acts {s : State} (f : State → State) (h : s.sec.fuseBusy = false) : fuseCmd .i3c 0xF05E f s = f s := by
  simp [fuseCmd, h]

theorem fuseCmd_ignored {path : Path} {key : Nat} (f : State → State) (s : State) (h : path ≠ .i3c ∨ key ≠ 0xF05E) :
    fuseCmd path key f s = s := by
  have hgo : ¬ (path == .i3c && key == 0xF05E && !s.sec.fuseBusy) = true := by
    rcases h with h | h <;> simp [h]
  rw [fuseCmd, if_neg hgo]

theorem regAccess_eq_self {path : Path} {off : Nat} {f : State → State} {s : State} (h : f s = s) : regAccess path off f s = s := by
  rw [regAccess, h, ite_self]

/-- A served fuse command over I3C with the key does its work. -/
theorem regAccess_fuseCmd {s : State} (f : State → State) (hserved : servedAt .i3c 0xB0020 s = true) (hbusy : s.sec.fuseBusy = false) :
    regAccess .i3c 0xB0020 (fuseCmd .i3c 0xF05E f) s = f s := by
  rw [servedAt_access hserved, fuseCmd_acts f hbusy]

/-! ### What the two commands refuse and do (R375) -/

theorem fuseProgram_refused {s : State} {slot : Nat} (h : (nth s.sec.roots slot {}).programmed = true) :
    fuseProgram slot s = setFuseErr s := if_pos h

theorem fuseProgram_blank {s : State} {slot : Nat} (h : (nth s.sec.roots slot {}).programmed = false) :
    fuseProgram slot s = s.modSec fun x =>
      { x with roots := lmod x.roots slot fun r => { r with digest := x.fuseData, programmed := true } } :=
  if_neg (Bool.eq_false_iff.mp h)

/-- A slot whose digest still admits an image. -/
def goodRoot (r : Root) : Bool := r.programmed && !r.revoked

/-- A slot may not be revoked: it is the only good one, or it matched the image in service. -/
def RevokeBarred (s : State) (slot : Nat) : Prop :=
  (goodRoot (nth s.sec.roots slot {}) = true ∧ count goodRoot s.sec.roots = 1) ∨ s.sec.matched = some slot

theorem revokeBarred_iff (s : State) (slot : Nat) :
    (goodRoot (nth s.sec.roots slot {}) && count goodRoot s.sec.roots == 1 || s.sec.matched == some slot) = true ↔ RevokeBarred s slot := by
  simp [RevokeBarred]

theorem fuseRevoke_refused {s : State} {slot : Nat} (h : RevokeBarred s slot) : fuseRevoke slot s = setFuseErr s :=
  if_pos ((revokeBarred_iff s slot).mpr h)

theorem fuseRevoke_revokes {s : State} {slot : Nat} (h : ¬ RevokeBarred s slot) :
    fuseRevoke slot s = s.modSec fun x => { x with roots := lmod x.roots slot fun r => { r with revoked := true } } :=
  if_neg (mt (revokeBarred_iff s slot).mp h)

/-! ### SEC_FUSE_DATA (R375) -/

/-- The place of a register in a run of registers. -/
theorem idx_base_add (base n : Nat) {k stride : Nat} (hk : k < n) (hstride : 0 < stride) : idx (base + stride * k) base stride n = some k := by
  simp [idx, hk, Nat.mul_div_cancel_left k hstride]

theorem writeSec_fuseData (path : Path) (v : Nat) (s : State) {k : Nat} (hk : k < 16) :
    writeSec path (0x40 + 4 * k) v s = s.modSec fun x => { x with fuseData := putWord x.fuseData k v } := by
  unfold writeSec
  split
  case h_8 => rw [idx_base_add 0x40 16 hk (by decide)]
  all_goals omega

theorem operatorWrite_sec (path : Path) (v : Nat) (s : State) {o : Nat} (ho : o < 0x10000) :
    operatorWrite path (0xB0000 + o) v s = writeSec path o v s := by
  have hblock : (0xB0000 + o) / 0x10000 = 11 := by omega
  have hoff : (0xB0000 + o) % 0x10000 = o := by omega
  simp only [operatorWrite, hblock, hoff]

/-- A write of word `k` of SEC_FUSE_DATA by the operator puts its four bytes there. -/
theorem exec_registerWrite_fuseData {path : Path} {s : State} {k v : Nat} (hk : k < 16) (hv : v < 2 ^ 32)
    (h : operates path (0xB0040 + 4 * k) s = true) :
    exec (.registerWrite path (0xB0040 + 4 * k) v) s = .next (s.modSec fun x => { x with fuseData := putWord x.fuseData k v }) := by
  have hoff : 0xB0040 + 4 * k = 0xB0000 + (0x40 + 4 * k) := by omega
  rw [operator_writes h hv, hoff, operatorWrite_sec path v s (by omega), writeSec_fuseData path v s hk]

/-! ### A blank device (R374, Table 3.4) -/

theorem rootFor_blank {s : State} (key : List Byte) (h : ∀ i, (nth s.sec.roots i {}).programmed = false) : rootFor s key = none := by
  refine List.find?_eq_none.mpr fun n _ => ?_
  dsimp only
  rw [h n]
  exact Bool.false_ne_true

/-- With no root programmed, an image of good form fails the third check. -/
theorem checkImage_blank {s : State} {img : SlotImage} (h : ∀ i, (nth s.sec.roots i {}).programmed = false) (hread : img.readOk = true)
    (hmagic : imgMagic img = 0x525A5649) (hdir : dirOk img = true) : checkImage s img = 3 := by
  simp [checkImage, hread, hmagic, hdir, rootFor_blank _ h]

/-- The state in which a slot's reads have been made, up to its first failing check. -/
def slotRead (img : SlotImage) (code : Nat) (s : State) : State :=
  s.modStart fun x => { x with norReads := x.norReads ++ slotReads x.readB img code }

/-- Slot A is rejected with the first check it fails, and slot B is read next (R67). -/
theorem exec_imageSlotChecked_rejectA {s : State} {img : SlotImage} {code : Nat} (hphase : inPhase s 4 = true) (hcode : checkImage s img = code)
    (hbad : code ≠ 0) (hslot : s.start.readB = false) :
    exec (.imageSlotChecked img) s = .next (((slotRead img code s).modImg fun x => { x with rejectA := code }).modStart fun x =>
      { x with readB := true }) := by
  show execImageSlotChecked img s = _
  simp [execImageSlotChecked, slotRead, hphase, hcode, hbad, hslot]

/-- Slot B is rejected with the first check it fails, and no image is left (R67, R70). -/
theorem exec_imageSlotChecked_rejectB {s : State} {img : SlotImage} {code : Nat} (hphase : inPhase s 4 = true) (hcode : checkImage s img = code)
    (hbad : code ≠ 0) (hslot : s.start.readB = true) :
    exec (.imageSlotChecked img) s = .next (imageFault (releaseNor ((slotRead img code s).modImg fun x => { x with rejectB := code }))) := by
  show execImageSlotChecked img s = _
  simp [execImageSlotChecked, slotRead, hphase, hcode, hbad, hslot]

/-- Settles O50: a served command over I3C with the key comes down to `fuseProgram` or `fuseRevoke`, any other to nothing, and a device with
no root programmed fails the third check of either slot. -/
theorem fuseCommands : Obligations.FuseCommands := by
  unfold Obligations.FuseCommands
  intro s path key slot
  refine ⟨fun hserved hbusy => ?acts, fun h => ?ignored, fun k v hk hv ho => exec_registerWrite_fuseData hk hv ho,
    fun img hblank hread hmagic hdir hphase => ?blank, servedAt_fuseCmd_of_phase2⟩
  case acts =>
    have hprogram : exec (.fuseProgram .i3c 0xF05E slot) s = .next (fuseProgram slot s) :=
      congrArg Host.Outcome.next (regAccess_fuseCmd _ hserved hbusy)
    have hrevoke : exec (.fuseRevoke .i3c 0xF05E slot) s = .next (fuseRevoke slot s) :=
      congrArg Host.Outcome.next (regAccess_fuseCmd _ hserved hbusy)
    refine ⟨fun hp => ?_, fun hp => ?_, fun hr => ?_, fun hr => ?_⟩
    · rw [hprogram, fuseProgram_refused hp]; rfl
    · rw [hprogram, fuseProgram_blank hp]; rfl
    · rw [hrevoke, fuseRevoke_refused hr]; rfl
    · rw [hrevoke, fuseRevoke_revokes hr]; rfl
  case ignored =>
    exact ⟨congrArg Host.Outcome.next (regAccess_eq_self (fuseCmd_ignored _ s h)),
      congrArg Host.Outcome.next (regAccess_eq_self (fuseCmd_ignored _ s h))⟩
  case blank =>
    have hcode := checkImage_blank hblank hread hmagic hdir
    exact ⟨exec_imageSlotChecked_rejectA hphase hcode (by decide), exec_imageSlotChecked_rejectB hphase hcode (by decide)⟩

end Sys2Proof.Machine
end

section
/-! SUPPORT. Register pairs with a latching low word: which pairs there are, what the operator reads of each word, and an access of both
words over I3C. -/

namespace Sys2Proof.Machine

open Sys2Proof

/-! ### The five pairs (R455) -/

/-- The value a pair shows while FTL_SEQ is known. -/
def pairValue (s : State) (k : Nat) : Nat :=
  match k with
  | 0 => now s
  | 1 => s.attn.keys
  | 2 => s.ftl.seqNo
  | 3 => (ctxOf s s.sch.acctSel).cyc
  | _ => (ctxOf s s.sch.acctSel).save

theorem latchAt_eq_some {off k : Nat} (h : latchAt off = some k) :
    (off = 0x00108 ∧ k = 0) ∨ (off = 0x60120 ∧ k = 1) ∨ (off = 0x90020 ∧ k = 2) ∨ (off = 0xA0304 ∧ k = 3) ∨ (off = 0xA0310 ∧ k = 4) := by
  unfold latchAt at h
  split at h <;> simp_all

theorem regWord_of_latchAt {off k : Nat} {s : State} (h : latchAt off = some k) (hw : k = 2 → s.start.wearReady = true) (lat : List Nat) :
    regWord lat s off = pairValue s k % 2 ^ 32 := by
  obtain ⟨hcclk, hkeys, hseq, hcyc, hsave, -⟩ := regWord_low lat s
  rcases latchAt_eq_some h with ⟨rfl, rfl⟩ | ⟨rfl, rfl⟩ | ⟨rfl, rfl⟩ | ⟨rfl, rfl⟩ | ⟨rfl, rfl⟩
  · exact hcclk
  · exact hkeys
  · rw [hseq, if_pos (hw rfl)]; rfl
  · exact hcyc
  · exact hsave

theorem regWord_high_of_latchAt {off k : Nat} (h : latchAt off = some k) (lat : List Nat) (s : State) : regWord lat s (off + 4) = nth lat k 0 := by
  obtain ⟨hcclk, hkeys, hseq, hcyc, hsave⟩ := regWord_high lat s
  rcases latchAt_eq_some h with ⟨rfl, rfl⟩ | ⟨rfl, rfl⟩ | ⟨rfl, rfl⟩ | ⟨rfl, rfl⟩ | ⟨rfl, rfl⟩
  · exact hcclk
  · exact hkeys
  · exact hseq
  · exact hcyc
  · exact hsave

theorem highNow_of_latchAt {off k : Nat} {s : State} (h : latchAt off = some k) (hw : k = 2 → s.start.wearReady = true) :
    highNow s k = pairValue s k / 2 ^ 32 % 2 ^ 32 := by
  rcases latchAt_eq_some h with ⟨-, rfl⟩ | ⟨-, rfl⟩ | ⟨-, rfl⟩ | ⟨-, rfl⟩ | ⟨-, rfl⟩
  case inr.inr.inl => exact if_pos (hw rfl)
  all_goals rfl

/-- No word of a pair has an effect of its own but the low word's latch, and no pair lies over the end of a block. -/
theorem latchAt_plain {off k : Nat} (h : latchAt off = some k) : latchAt (off + 4) = none ∧
    ((off == 0xB002C) = false ∧ (off + 4 == 0xB002C) = false ∧ (off + 4 == 0xD0028) = false) ∧ accessOk off 8 = true := by
  rcases latchAt_eq_some h with ⟨rfl, -⟩ | ⟨rfl, -⟩ | ⟨rfl, -⟩ | ⟨rfl, -⟩ | ⟨rfl, -⟩ <;> decide

/-- The high word alone is a well-formed access, and both words lie before the end of the low word's block. -/
theorem accessOk_high {off : Nat} (h : accessOk off 8 = true) : accessOk (off + 4) 4 = true ∧ (off + 4) / 0x10000 = off / 0x10000 ∧
    off + 4 < 2 ^ 24 ∧ 2 ≤ (0x10000 - off % 0x10000) / 4 ∧ 1 ≤ (0x10000 - (off + 4) % 0x10000) / 4 := by
  rw [accessOk_iff] at h
  rw [accessOk_iff]
  omega

/-! ### What the operator reads of either word -/

theorem readWord_low {path : Path} {off k : Nat} {s : State} (h : latchAt off = some k) (hw : k = 2 → s.start.wearReady = true)
    (ho : (partyOf s path).isOperator = true) : readWord path off s = (pairValue s k % 2 ^ 32, latch path k s) := by
  obtain ⟨-, ⟨hdbg, -, -⟩, -⟩ := latchAt_plain h
  simp [operator_reads ho, rawRead, readEffect, hdbg, h, regWord_of_latchAt h hw]

theorem readWord_high {path : Path} {off k : Nat} {s : State} (h : latchAt off = some k) (ho : (partyOf s path).isOperator = true) :
    readWord path (off + 4) s = (nth (latches path s) k 0, s) := by
  obtain ⟨hnone, ⟨-, hdbg, hbbx⟩, -⟩ := latchAt_plain h
  simp [operator_reads ho, rawRead, readEffect, hdbg, hbbx, hnone, regWord_high_of_latchAt h]

theorem latch_i3c {off k : Nat} {s : State} (h : latchAt off = some k) (hw : k = 2 → s.start.wearReady = true) :
    latch .i3c k s = { s with mgmt := { s.mgmt with latI3c := lput s.mgmt.latI3c k (pairValue s k / 2 ^ 32 % 2 ^ 32) } } := by
  rw [← highNow_of_latchAt h hw]
  rfl

theorem operates_iff {path : Path} {off : Nat} {s : State} : operates path off s = true ↔
    servedAt path off s = true ∧ (partyOf s path).isOperator = true := by
  simp [operates]

/-! ### The high word over Dorlink -/

theorem exec_mgmtRd_high {h : Hdr} {off k : Nat} {s : State} (hl : latchAt off = some k) (ht : takes h s = true)
    (hop : operates (.dorlink h.key) off s = true) :
    exec (.mgmtRd h (off + 4) 4) s = .next (reply h mtMgmtData 3 0 0 (leBytes 4 (nth s.mgmt.latDl k 0)) (took h mtMgmtRd s)) := by
  obtain ⟨hserved, hoper⟩ := operates_iff.1 hop
  have hrdy : s.pins.rdy = true := by
    simp only [servedAt, Bool.and_eq_true] at hserved
    exact hserved.1.1.1
  have hword : readWord (.dorlink h.key) (off + 4) (took h mtMgmtRd s) = (nth s.mgmt.latDl k 0, took h mtMgmtRd s) :=
    readWord_high (s := took h mtMgmtRd s) hl hoper
  obtain ⟨-, -, hok⟩ := latchAt_plain hl
  obtain ⟨-, -, hanswer⟩ := mgmtRd_clause s _ h (off + 4) 4 ht rfl
  rw [hanswer hrdy (accessOk_high hok).1]
  simp [answerMgmtRd, readWords, hword]

/-! ### A private read over I3C -/

theorem served_of_servedAt {path : Path} {off : Nat} {s : State} (h : servedAt path off s = true) : served s path (off / 0x10000) = true := by
  simp only [servedAt, Bool.and_eq_true] at h
  exact h.1.1.2

/-- A private read that the target answers returns its words, and the read pointer rises by 4 with each. -/
theorem exec_i3cPrivateRead {s t : State} {off n m : Nat} {ws : List Nat} (hserved : servedAt .i3c off s = true)
    (hptr : s.mgmt.i3cPtr < 2 ^ 24) (hcount : i3cCount s n = m)
    (hwords : readWords .i3c (served s .i3c) s.mgmt.i3cPtr m s = (ws, t)) :
    exec (.i3cPrivateRead n) s = .next { t with mgmt := { t.mgmt with i3cPtr := t.mgmt.i3cPtr + 4 * m, reply := ws } } := by
  have hexec : exec (.i3cPrivateRead n) s = .next (i3cRead n s) := by
    simp only [servedAt, reachable, Bool.and_eq_true, List.contains_iff_mem] at hserved
    exact congrArg Host.Outcome.next (i3cTransfer_at _ hserved.1.1.1 (decide_eq_true hptr))
  rw [hexec]
  unfold i3cRead
  dsimp only
  rw [hcount, hwords]
  rfl

theorem exec_i3cPrivateRead_pair {off k : Nat} {s : State} (hl : latchAt off = some k) (hw : k = 2 → s.start.wearReady = true)
    (hlen : k < s.mgmt.latI3c.length) (hserved : servedAt .i3c off s = true) (hptr : s.mgmt.i3cPtr = off) :
    exec (.i3cPrivateRead 2) s = .next { s with mgmt := { s.mgmt with
      i3cPtr := off + 8, reply := [pairValue s k % 2 ^ 32, pairValue s k / 2 ^ 32 % 2 ^ 32]
      latI3c := lput s.mgmt.latI3c k (pairValue s k / 2 ^ 32 % 2 ^ 32) } } := by
  obtain ⟨-, -, hok⟩ := latchAt_plain hl
  obtain ⟨-, hblock, hlt, hroom, -⟩ := accessOk_high hok
  have hcount : i3cCount s 2 = 2 := by unfold i3cCount; rw [hptr]; omega
  have hlow : readWord .i3c off s = (pairValue s k % 2 ^ 32, latch .i3c k s) := readWord_low hl hw rfl
  have hhigh : readWord .i3c (off + 4) (latch .i3c k s) = (pairValue s k / 2 ^ 32 % 2 ^ 32, latch .i3c k s) := by
    rw [readWord_high hl rfl, latch_i3c hl hw]
    exact congrArg (·, _) (nth_lput _ _ _ _ hlen)
  have hwords : readWords .i3c (served s .i3c) s.mgmt.i3cPtr 2 s =
      ([pairValue s k % 2 ^ 32, pairValue s k / 2 ^ 32 % 2 ^ 32], latch .i3c k s) := by
    simp only [readWords, hptr, hblock, served_of_servedAt hserved, if_true, hlow, hhigh]
  rw [exec_i3cPrivateRead hserved (by omega) hcount hwords, latch_i3c hl hw, ← hptr]

theorem exec_i3cPrivateRead_high {off k : Nat} {s : State} (hl : latchAt off = some k) (hserved : servedAt .i3c off s = true)
    (hptr : s.mgmt.i3cPtr = off + 4) :
    exec (.i3cPrivateRead 1) s = .next { s with mgmt := { s.mgmt with i3cPtr := off + 8, reply := [nth s.mgmt.latI3c k 0] } } := by
  obtain ⟨-, -, hok⟩ := latchAt_plain hl
  obtain ⟨-, hblock, hlt, -, hroom⟩ := accessOk_high hok
  have hcount : i3cCount s 1 = 1 := by unfold i3cCount; rw [hptr]; omega
  have hhigh : readWord .i3c (off + 4) s = (nth s.mgmt.latI3c k 0, s) := readWord_high hl rfl
  have hwords : readWords .i3c (served s .i3c) s.mgmt.i3cPtr 1 s = ([nth s.mgmt.latI3c k 0], s) := by
    simp only [readWords, hptr, hblock, served_of_servedAt hserved, if_true, hhigh]
  rw [exec_i3cPrivateRead hserved (by omega) hcount hwords, hptr]

/-! ### The statement -/

/-- The rows of the statement: the low word's offset, the latch, the value, and the command that reads the low word. -/
def latchingPairs (s : State) (path : Path) : List (Nat × Nat × Nat × Instr) :=
  [(0x00108, 0, now s, .topCclkLoRead path), (0x60120, 1, s.attn.keys, .atnKeysLoRead path), (0x90020, 2, s.ftl.seqNo, .ftlSeqLoRead path),
    (0xA0304, 3, (ctxOf s s.sch.acctSel).cyc, .schAcctCycLoRead path), (0xA0310, 4, (ctxOf s s.sch.acctSel).save, .schAcctSaveLoRead path)]

theorem latchingPairs_row {s : State} {path : Path} {off k value : Nat} {c : Instr} (h : (off, k, value, c) ∈ latchingPairs s path) :
    latchAt off = some k ∧ value = pairValue s k ∧ exec c s = .next (readOne path off s) := by
  simp only [latchingPairs, List.mem_cons, Prod.mk.injEq, List.not_mem_nil, or_false] at h
  rcases h with ⟨rfl, rfl, rfl, rfl⟩ | ⟨rfl, rfl, rfl, rfl⟩ | ⟨rfl, rfl, rfl, rfl⟩ | ⟨rfl, rfl, rfl, rfl⟩ | ⟨rfl, rfl, rfl, rfl⟩ <;>
    exact ⟨rfl, rfl, rfl⟩

/-- Settles O59: each of the five commands is one read of its low word, which latches the pair's upper word; a later read of the high word
shows that latch and changes nothing, so that an access of both words returns the value of the moment of the first. -/
theorem latchingReads : Obligations.LatchingReads := by
  unfold Obligations.LatchingReads
  intro s h path pairs off k value c hrow hw hlenDl hlenI3c lo hi
  obtain ⟨hl, rfl, hread⟩ : latchAt off = some k ∧ value = pairValue s k ∧ exec c s = .next (readOne path off s) := latchingPairs_row hrow
  obtain ⟨hnone, hplain, hok⟩ := latchAt_plain hl
  refine ⟨fun hop => ?low, fun ht hop => ⟨?both, exec_mgmtRd_high hl ht hop⟩, fun hop => ?i3c⟩
  case low =>
    rw [hread, pair_read hop (regWord_of_latchAt hl hw) (highNow_of_latchAt hl hw) hl hplain.1]
  case both =>
    exact pair_whole hop ht hlenDl (regWord_of_latchAt (s := took h mtMgmtRd s) hl hw) (regWord_high_of_latchAt hl)
      (highNow_of_latchAt (s := took h mtMgmtRd s) hl hw) hl hnone hplain hok
  case i3c =>
    obtain ⟨hserved, -⟩ := operates_iff.1 hop
    exact ⟨exec_i3cPrivateRead_pair hl hw hlenI3c hserved, exec_i3cPrivateRead_high hl hserved⟩

end Sys2Proof.Machine
end

section
/-! SUPPORT. One step of the machine, from the frames of the commands and of an idle edge. -/

namespace Sys2Proof.Machine

open Sys2Proof

/-- Every part of State. -/
def everyPart : Nat := partSet [.free, .pins, .pwr, .thm, .clk, .start, .img, .resp, .tly, .spare, .bbx, .link, .coh, .ext, .hbm, .rng, .io,
  .seqs, .pfx, .casc, .ops, .attn, .core, .cdc, .tier, .wt, .ftl, .sch, .sec, .mgmt]

/-- Any list of parts lies in the whole state. -/
theorem hasParts_everyPart (l : List StPart) : hasParts everyPart (partSet l) = true := by
  have hbit (p : StPart) : everyPart &&& p.bit = p.bit := by cases p <;> decide
  induction l with
  | nil => decide
  | cons p l ih =>
    have ih : everyPart &&& partSet l = partSet l := by simpa [hasParts] using ih
    simp [hasParts, partSet, Nat.and_or_distrib_left, hbit, ih]

/-- The state whose front command has left the queue, or which waits for none. -/
def popped (s : State) : State := { s with pending := s.pending.tail }

/-- A step runs the front command, or lets a CCLK edge pass: either touches no more than the state's parts. -/
theorem step_touches {s t : State} (h : step s = .next t) : Touches everyPart (popped s) t := by
  unfold step at h
  split at h
  · next hempty =>
    have hpop : popped s = s := by rw [popped, hempty, List.tail_nil, ← hempty]
    cases h
    rw [hpop]
    exact idle_touches rfl (.refl _ s)
  · next c rest hfront =>
    have hpop : popped s = { s with pending := rest } := by rw [popped, hfront, List.tail_cons]
    rw [hpop]
    exact (exec_touches c h).weaken (hasParts_everyPart _)

/-- Settles O3: whatever a step touches, it keeps each of the three parts of the invariant. -/
theorem invKept : Obligations.InvKept := by
  unfold Obligations.InvKept
  intro s t ⟨hmem, hrdy, hrings⟩ h
  have touched := step_touches h
  exact ⟨touched.mem hmem, touched.rdy hrdy, touched.rings hrings⟩

/-- Settles O4: whatever a step touches, it keeps the fuses of every root slot. -/
theorem fusesAreForever : Obligations.FusesAreForever := by
  unfold Obligations.FusesAreForever
  intro s t h
  exact (step_touches h).fuses

/-- Settles O5: each command has a next state, and its frame is its footprint's. -/
theorem commandsKeepTheirFootprint : Obligations.CommandsKeepTheirFootprint := by
  unfold Obligations.CommandsKeepTheirFootprint
  intro c s
  obtain ⟨t, ht⟩ := exec_ends c s
  exact ⟨t, ht, exec_only c ht⟩

/-- Settles O1: a step is defined by the queue's front. -/
theorem stepTakesTheFront : Obligations.StepTakesTheFront := by
  unfold Obligations.StepTakesTheFront
  intro s c
  refine ⟨step_front (s := { s with pending := c :: s.pending }) rfl, fun hempty => ?_⟩
  unfold step
  rw [hempty]

theorem nth_replicate_self {α : Type} (n i : Nat) (d : α) : nth (List.replicate n d) i d = d := by
  simp only [nth, List.getD_eq_getElem?_getD, List.getElem?_replicate]
  split <;> rfl

theorem inv_reset : Inv State.reset :=
  ⟨rfl, fun _ => rfl, fun _ hx => (List.not_mem_nil hx).elim⟩

/-- Settles O2: the reset state is written out field by field. -/
theorem resetState : Obligations.ResetState := by
  unfold Obligations.ResetState
  have hroots (i : Nat) : (nth State.reset.sec.roots i {}).programmed = false ∧ (nth State.reset.sec.roots i {}).revoked = false := by
    have hblank : nth State.reset.sec.roots i {} = {} := nth_replicate_self 4 i ({} : Root)
    rw [hblank]
    exact ⟨rfl, rfl⟩
  exact ⟨rfl, inv_reset, rfl, rfl, rfl, rfl, rfl, rfl, rfl, rfl, rfl, rfl, rfl, rfl, rfl, rfl, rfl, rfl, rfl, rfl, rfl, hroots,
    fun _ => rfl, rfl, rfl⟩

end Sys2Proof.Machine
end

section
/-! SUPPORT. The rail and the hold-up bank: what each of their events leaves (02 R33 to R49). -/

namespace Sys2Proof.Machine

open Sys2Proof

/-! ### The rail -/

theorem vin60Contact_starts {s : State} {vin : Nat} (hrail : s.pwr.rail = .off) (hvin : 4250 < vin) :
    ∃ t, exec (.vin60Contact vin) s = .next t ∧ t.pwr.rail = .softStart ∧ t.pins.vin = vin ∧ t.pins.prsntEarly = true ∧
      t.pwr.converters = false ∧ t.pwr.ovShutdown = false := by
  refine ⟨_, rfl, ?_⟩
  rw [hrail, if_neg (by decide), if_neg (Nat.not_le.mpr hvin)]
  refine ⟨rfl, rfl, ?_, rfl, rfl⟩
  cases hseated : s.pins.prsntEarly with
  | true => exact hseated
  | false => rfl

theorem vin60Contact_low {s : State} {vin : Nat} (hrail : s.pwr.rail = .off) (hvin : vin ≤ 4250) :
    exec (.vin60Contact vin) s = .next { s with pins := { s.pins with vin := vin } } := by
  show execVin60Contact vin s = _
  rw [execVin60Contact, hrail, if_neg (by decide), if_pos hvin]
  rfl

/-- The state in which VIN60 has become valid, the converters run and nothing is measured yet. -/
def railUp (vin : Nat) (s : State) : State :=
  ((setVin vin s).modPwr fun p => { p with rail := .valid, converters := true, diodeOpen := false })

/-- Whether the bank stands above 20 V touches the count of free values at most. -/
theorem bankAbove20_state (s : State) : (bankAbove20 s).2 = s ∨ (bankAbove20 s).2 = s.draw := by
  unfold bankAbove20
  split
  · exact .inl rfl
  · split
    · exact .inr rfl
    · exact .inl rfl

/-- The bank of a cold start: nothing measured, bled first where it stands above 20 V, else charged. -/
def coldBank (above : Bool) (s : State) : State :=
  let s := s.modPwr fun p =>
    { p with measured := false, eMeasured := 0, eEff := 0, ready := false, bankLow := false, bankMismatch := false }
  if above then s.modPwr fun p => { p with bleeding := true, charging := false } else startCharge false s

theorem softStartDone_cold {s : State} {vin : Nat} (hrail : s.pwr.rail = .softStart) (halive : alive s = false) :
    exec (.softStartDone vin) s =
      .next (triggerStart true (coldBank (bankAbove20 (railUp vin s)).1 (bankAbove20 (railUp vin s)).2)) := by
  have hdead : alive (bankAbove20 (railUp vin s)).2 = false := by
    rcases bankAbove20_state (railUp vin s) with h | h <;> rw [h] <;> exact halive
  show execSoftStartDone vin s = _
  rw [execSoftStartDone, hrail, if_neg (by decide)]
  show Host.Outcome.next (if alive (bankAbove20 (railUp vin s)).2 then _ else _) = _
  rw [hdead, if_neg Bool.false_ne_true]
  rfl

theorem softStartDone_begins {s : State} {vin : Nat} (hrail : s.pwr.rail = .softStart) (halive : alive s = false) (hrst : s.pins.rst = false) :
    ∃ t, exec (.softStartDone vin) s = .next t ∧
      t.pwr.rail = .valid ∧ t.pwr.converters = true ∧ t.pwr.diodeOpen = false ∧ t.pins.vin = vin ∧ t.start.active = true ∧ t.start.cold = true ∧
      t.start.done = [] ∧ t.pwr.measured = false ∧ t.pwr.ready = false ∧ t.pwr.window = 0 ∧
      (s.pwr.charged = true → t.pwr.bleeding = true ∧ t.pwr.charging = false) ∧
      (s.pwr.charged = false → s.pwr.partly = false → t.pwr.charging = true ∧ t.pwr.measuring = true ∧ t.pwr.bleeding = false) ∧
      (t.pwr.bleeding = true ∧ t.pwr.charging = false ∨ t.pwr.charging = true ∧ t.pwr.measuring = true) := by
  refine ⟨_, softStartDone_cold hrail halive, ?_⟩
  have hcharged : s.pwr.charged = true → (bankAbove20 (railUp vin s)).1 = true := fun h =>
    congrArg Prod.fst (if_pos (c := (railUp vin s).pwr.charged = true) h)
  have hempty : s.pwr.charged = false → s.pwr.partly = false → (bankAbove20 (railUp vin s)).1 = false := fun hc hp => by
    simp [bankAbove20, railUp, setVin, hc, hp]
  have hkeeps : (bankAbove20 (railUp vin s)).2.pwr = (railUp vin s).pwr ∧ (bankAbove20 (railUp vin s)).2.pins = (railUp vin s).pins := by
    rcases bankAbove20_state (railUp vin s) with h | h <;> rw [h] <;> exact ⟨rfl, rfl⟩
  obtain ⟨hpwr, hpins⟩ := hkeeps
  generalize (bankAbove20 (railUp vin s)).2 = u at hpwr hpins ⊢
  have hrelease : u.pins.rst = s.pins.rst := by rw [hpins]; rfl
  have hstart (x : State) (hx : x.pins.rst = s.pins.rst) : triggerStart true x = beginStart true x :=
    if_neg (by rw [hx, hrst]; exact Bool.false_ne_true)
  cases habove : (bankAbove20 (railUp vin s)).1 with
  | true =>
    rw [hstart (coldBank true u) hrelease]
    simp only [habove, Bool.true_eq_false, imp_false] at hempty
    refine ⟨congrArg Power.rail hpwr, congrArg Power.converters hpwr, congrArg Power.diodeOpen hpwr, congrArg Pins.vin hpins, rfl, rfl, rfl,
      rfl, rfl, rfl, fun _ => ⟨rfl, rfl⟩, fun hc hp => (hempty hc hp).elim, .inl ⟨rfl, rfl⟩⟩
  | false =>
    rw [hstart (coldBank false u) hrelease]
    exact ⟨congrArg Power.rail hpwr, congrArg Power.converters hpwr, congrArg Power.diodeOpen hpwr, congrArg Pins.vin hpins, rfl, rfl, rfl,
      rfl, rfl, rfl, fun h => absurd (hcharged h) (by rw [habove]; exact Bool.false_ne_true), fun _ _ => ⟨rfl, rfl, rfl⟩, .inr ⟨rfl, rfl⟩⟩

theorem hardFlush_iff (s : State) :
    ((s.resp.kind == .powerFail || s.resp.kind == .leak || s.resp.kind == .fatal) && s.resp.stage == .flush) = true ↔
      (s.resp.kind = .powerFail ∨ s.resp.kind = .leak ∨ s.resp.kind = .fatal) ∧ s.resp.stage = .flush := by
  simp [or_assoc]

theorem prsntEarlyHigh_leaves (s : State) :
    ∃ t, exec .prsntEarlyHigh s = .next t ∧ t.pins.prsntEarly = false ∧ t.pwr.rail = .off ∧
      (if (s.resp.kind = .powerFail ∨ s.resp.kind = .leak ∨ s.resp.kind = .fatal) ∧ s.resp.stage = .flush then t.resp.bleedDue = true
       else t.pwr.bleeding = true ∧ t.pwr.charging = false) := by
  refine ⟨_, rfl, ?_⟩
  generalize hu : ((s.modPins fun p => { p with prsntEarly := false }).modPwr fun p => { p with rail := .off }) = u
  have hresp : u.resp = s.resp := by rw [← hu]; rfl
  have hpins : u.pins.prsntEarly = false := by rw [← hu]; rfl
  have hrail : u.pwr.rail = .off := by rw [← hu]; rfl
  have hflush := hardFlush_iff u
  rw [hresp] at hflush
  unfold bleedOnRemoval
  rw [hresp]
  split
  · next h => exact ⟨hpins, hrail, by rw [if_pos (hflush.mp h)]; rfl⟩
  · next h => exact ⟨hpins, hrail, by rw [if_neg (mt hflush.mpr h)]; exact ⟨rfl, rfl⟩⟩

theorem outputsEnable_enables (s : State) :
    ∃ t, exec .outputsEnable s = .next t ∧ t.pins.prsntLate = true ∧ t.pins.outputsEnabled = true ∧
      (s.start.active = true → 2 ∈ s.start.done → 3 ∈ t.start.done) := by
  refine ⟨_, rfl, ?_⟩
  split
  · exact ⟨rfl, rfl, fun _ _ => List.mem_append_right _ (List.mem_singleton_self 3)⟩
  · next h =>
    refine ⟨rfl, rfl, fun hactive hlocked => ?_⟩
    have h : ¬ (s.start.active && s.start.done.contains 2 && !s.start.done.contains 3) = true := h
    have hended : 3 ∈ s.start.done := by simpa [hactive, hlocked] using h
    exact hended

/-! ### The bank -/

/-- With the declared and the measured energy known, the effective energy, the window and the bank's flags are formed. -/
theorem formEnergy_pwr {s : State} (hcur : s.img.cur.isSome = true) (hmeasured : s.pwr.measured = true) :
    (formEnergy s).pwr =
      let d := s.pwr.eDeclared
      let m := s.pwr.eMeasured
      let p := { s.pwr with bankLow := decide (10 * m < 9 * d) }
      if 11 * d < 10 * m then
        { p with bankMismatch := true, eEff := 0, window := 0, bleeding := true, charging := false, measuring := false }
      else { p with bankMismatch := false, eEff := min d m, window := windowFor (min d m) } := by
  have hgo : ¬ (s.img.cur.isNone || !s.pwr.measured) = true := by
    rw [hmeasured, ← Option.not_isSome, hcur]
    decide
  unfold formEnergy
  rw [if_neg hgo]
  dsimp only
  by_cases hbeyond : 11 * s.pwr.eDeclared < 10 * s.pwr.eMeasured
  · simp only [hbeyond, decide_true, if_true]
    unfold when
    split <;> rfl
  · simp only [hbeyond, decide_false, Bool.false_eq_true, if_false]
    unfold when
    split <;> rfl

/-- What the bank is declared to hold and what it was measured to hold stay as they are. -/
theorem formEnergy_keeps (s : State) : (formEnergy s).pwr.measured = s.pwr.measured ∧ (formEnergy s).pwr.eMeasured = s.pwr.eMeasured := by
  by_cases h : s.img.cur.isSome = true ∧ s.pwr.measured = true
  · rw [formEnergy_pwr h.1 h.2]
    dsimp only
    split <;> exact ⟨rfl, rfl⟩
  · have hstop : (s.img.cur.isNone || !s.pwr.measured) = true := by
      rw [← Option.not_isSome, ← Bool.not_and, Bool.not_eq_true', Bool.eq_false_iff, Ne, Bool.and_eq_true]
      exact h
    rw [formEnergy, if_pos hstop]
    exact ⟨rfl, rfl⟩

/-- The state in which a charge from below 20 V has measured the bank. -/
def bankMeasured (energy : Nat) (s : State) : State :=
  formEnergy (s.modPwr fun p => { p with measuring := false, measured := true, eMeasured := energy })

/-- A charge has ended: the bank stands at 57 V, ready unless it holds too much. -/
def bankCharged (s : State) : State :=
  if s.pwr.bankMismatch then s.modPwr fun p => { p with charged := true, charging := false }
  else s.modPwr fun p => { p with charging := false, charged := true, ready := true }

theorem exec_bankChargeDone {s : State} (energy : Nat) (h : s.pwr.charging = true) :
    exec (.bankChargeDone energy) s = .next (bankCharged (if s.pwr.measuring then bankMeasured energy s else s)) := by
  show execBankChargeDone energy s = _
  rw [execBankChargeDone, h, if_neg (by decide)]
  rfl

theorem bankCharged_pwr (s : State) : (bankCharged s).pwr =
    { s.pwr with charged := true, charging := false, ready := s.pwr.ready || !s.pwr.bankMismatch } := by
  unfold bankCharged
  split
  · next h => simp [h]
  · next h => simp [h]

theorem bankChargeDone_charges {s : State} (energy : Nat) (h : s.pwr.charging = true) :
    ∃ t, exec (.bankChargeDone energy) s = .next t ∧ t.pwr.charging = false ∧ t.pwr.charged = true ∧
      (s.pwr.measuring = true → t.pwr.measured = true ∧ t.pwr.eMeasured = energy) ∧ (t.pwr.bankMismatch = false → t.pwr.ready = true) := by
  refine ⟨_, exec_bankChargeDone energy h, ?_⟩
  rw [bankCharged_pwr]
  refine ⟨rfl, rfl, fun hm => ?_, fun hfit => ?_⟩
  · rw [if_pos hm]
    exact formEnergy_keeps _
  · exact Bool.or_eq_true_iff.mpr (.inr (congrArg Bool.not hfit))

theorem bankChargeDone_forms {s : State} (energy : Nat) (h : s.pwr.charging = true) (hm : s.pwr.measuring = true)
    (hcur : s.img.cur.isSome = true) :
    ∃ t, exec (.bankChargeDone energy) s = .next t ∧
      (10 * energy ≤ 11 * s.pwr.eDeclared → t.pwr.eEff = min s.pwr.eDeclared energy ∧ t.pwr.bankMismatch = false ∧ t.pwr.ready = true) ∧
      (11 * s.pwr.eDeclared < 10 * energy → t.pwr.eEff = 0 ∧ t.pwr.window = 0 ∧ t.pwr.bankMismatch = true ∧ t.pwr.bleeding = true) ∧
      (t.pwr.bankLow = true ↔ 10 * energy < 9 * s.pwr.eDeclared) := by
  refine ⟨_, exec_bankChargeDone energy h, ?_⟩
  have hformed : (bankMeasured energy s).pwr = _ := formEnergy_pwr (s := s.modPwr _) hcur rfl
  rw [bankCharged_pwr, if_pos hm, hformed]
  dsimp only [State.modPwr]
  refine ⟨fun hfit => ?_, fun hbeyond => ?_, ?_⟩
  · rw [if_neg (Nat.not_lt.mpr hfit)]
    exact ⟨rfl, rfl, Bool.or_true _⟩
  · rw [if_pos hbeyond]
    exact ⟨rfl, rfl, rfl, rfl⟩
  · split <;> exact decide_eq_true_iff

theorem bankBelowReady_recharges (s : State) : ∃ t, exec .bankBelowReady s = .next t ∧ t.pwr.ready = false ∧
    (s.pwr.rail = .valid → s.pwr.bleeding = false → s.pwr.bankMismatch = false → t.pwr.charging = true) := by
  refine ⟨_, rfl, rfl, fun hrail hbleed hfit => ?_⟩
  show (s.pwr.charging || (s.pwr.rail == .valid && !s.pwr.bleeding && !s.pwr.bankMismatch)) = true
  rw [hrail, hbleed, hfit]
  exact Bool.or_true _

theorem bankBleedBelow20v_ends {s : State} (h : s.pwr.bleeding = true) :
    ∃ t, exec .bankBleedBelow20v s = .next t ∧ t.pwr.charged = false ∧ t.pwr.ready = false ∧
      (s.pins.prsntEarly = true → s.pwr.rail = .valid → s.pwr.bankMismatch = false →
        t.pwr.charging = true ∧ t.pwr.measuring = true ∧ t.pwr.bleeding = false) := by
  refine ⟨_, rfl, ?_⟩
  rw [h, if_neg (by decide)]
  dsimp only
  split
  · exact ⟨rfl, rfl, fun _ _ _ => ⟨rfl, rfl, rfl⟩⟩
  · next hgo =>
    have hgo : ¬ (s.pins.prsntEarly && s.pwr.rail == .valid && !s.pwr.bankMismatch) = true := hgo
    exact ⟨rfl, rfl, fun hseated hrail hfit => absurd (by rw [hseated, hrail, hfit]; rfl) hgo⟩

/-- Settles O6, event by event: each clause is what one event leaves of the rail or of the bank. -/
theorem railAndBank : Obligations.RailAndBank := by
  unfold Obligations.RailAndBank
  intro s
  exact ⟨fun _ hrail hvin => vin60Contact_starts hrail hvin, fun _ hrail hvin => vin60Contact_low hrail hvin,
    fun _ hrail halive hrst => softStartDone_begins hrail halive hrst, prsntEarlyHigh_leaves s, outputsEnable_enables s, rfl,
    fun energy h => bankChargeDone_charges energy h, bankBelowReady_recharges s, fun h => bankBleedBelow20v_ends h,
    fun energy h hm hcur => bankChargeDone_forms energy h hm hcur⟩

end Sys2Proof.Machine
end

section
/-! SUPPORT. How a quiesce or an in-service reset begins, and how a response goes on and ends (02 R45, R50; 03 R59; 13 R415). -/

namespace Sys2Proof.Machine

open Sys2Proof

/-! ### A quiesce or an in-service reset begins -/

theorem dropRdy_pins (s : State) : ∃ b, (dropRdy s).pins = { s.pins with rdy := false, cascMaster := b } := by
  unfold dropRdy
  dsimp only
  split <;> exact ⟨_, rfl⟩

/-- RDY has fallen, a start is abandoned, and the response of a kind is shown and on record. -/
def quiesceBegun (kind : RespKind) (viaPin : Bool) (s : State) : State :=
  (showPhase (if kind == .reset then 7 else 8) (setLed .blink1 (dropRdy (abandonStart s)))).modResp fun _ =>
    { kind := kind, stage := .ops, viaPin := viaPin }

theorem quiesceBegun_touches (kind : RespKind) (viaPin : Bool) (s : State) :
    Touches (partSet [.pins, .start, .resp, .casc]) s (quiesceBegun kind viaPin s) :=
  Touches.modResp _ (by decide) <| showPhase_touches _ (by decide) <| setLed_touches _ (by decide) <|
    dropRdy_touches (by decide) <| abandonStart_touches (by decide) (.refl _ s)

/-- While an accepted entry stands, a response waits for the ops (R50). -/
theorem pollResp_waits {s : State} (hstage : s.resp.stage = .ops) (h : anyAccepted s = true) : pollResp s = s := by
  unfold pollResp settleExtStage
  rw [hstage, h]
  rfl

theorem anyAccepted_congr {s t : State} (h : t.rng = s.rng) : anyAccepted t = anyAccepted s := by
  rw [anyAccepted, h, anyAccepted]

theorem beginQuiesce_waits {s : State} (kind : RespKind) (viaPin : Bool) (h : anyAccepted s = true) :
    beginQuiesce kind viaPin s = quiesceBegun kind viaPin s := by
  have hrng : (quiesceBegun kind viaPin s).rng = s.rng := (quiesceBegun_touches kind viaPin s).rng.resolve_left (by decide)
  exact pollResp_waits (s := quiesceBegun kind viaPin s) rfl ((anyAccepted_congr hrng).trans h)

/-- What a quiesce or an in-service reset of a device with ops accepted shows at its beginning. -/
theorem quiesceBegun_shows {s : State} (kind : RespKind) (viaPin : Bool) :
    let t := quiesceBegun kind viaPin s
    t.pins.rdy = false ∧ t.pins.led = .blink1 ∧ t.resp.kind = kind ∧ t.resp.stage = .ops ∧
      t.start.phase = (if kind = .reset then 7 else 8) ∧ t.rng = s.rng ∧ t.ops = s.ops ∧ issuing t = true ∧ serving t = false := by
  intro t
  obtain ⟨b, hpins⟩ := dropRdy_pins (abandonStart s)
  have touched := quiesceBegun_touches kind viaPin s
  have hrdy : t.pins.rdy = false := congrArg Pins.rdy hpins
  refine ⟨hrdy, rfl, rfl, rfl, ?_, touched.rng.resolve_left (by decide), touched.ops.resolve_left (by decide), Bool.or_true _, ?_⟩
  · show (if kind == .reset then 7 else 8) = _
    simp only [beq_iff_eq]
  · rw [serving, hrdy, Bool.false_and]

theorem quiesceBegun_lines (kind : RespKind) (viaPin : Bool) (s : State) :
    (quiesceBegun kind viaPin s).pins.unplug = s.pins.unplug ∧ (quiesceBegun kind viaPin s).pins.rst = s.pins.rst := by
  obtain ⟨b, hpins⟩ := dropRdy_pins (abandonStart s)
  exact ⟨(congrArg Pins.unplug hpins :), (congrArg Pins.rst hpins :)⟩

/-- An in-service reset of a device that serves with ops accepted. -/
theorem resetCause_waits {s : State} (viaPin : Bool) (hserves : serving s = true) (h : anyAccepted s = true) :
    resetCause viaPin s = quiesceBegun .reset viaPin s := by
  rw [resetCause, if_pos hserves, beginQuiesce_waits _ _ h]

theorem serving_of_rdy {s : State} (hrdy : s.pins.rdy = true) (hresp : s.resp = {}) : serving s = true := by
  rw [serving, hrdy, hresp]
  rfl

theorem exec_unplugRequest_waits {s : State} (hrdy : s.pins.rdy = true) (hresp : s.resp = {}) (h : anyAccepted s = true) :
    exec .unplugRequest s = .next (quiesceBegun .quiesce false (s.modPins fun p => { p with unplug := true })) := by
  have halive : alive (s.modPins fun p => { p with unplug := true }) = true := by simp [alive, hrdy]
  have hkind : (s.modPins fun p => { p with unplug := true }).resp.kind = .none := congrArg Resp.kind hresp
  show Host.Outcome.next (unplugCause _) = _
  rw [unplugCause, halive, hkind]
  exact congrArg Host.Outcome.next (beginQuiesce_waits (s := s.modPins _) .quiesce false h)

theorem exec_rstLFall_waits {s : State} (hrdy : s.pins.rdy = true) (hresp : s.resp = {}) (h : anyAccepted s = true)
    (hactive : s.start.active = false) :
    exec .rstLFall s = .next (quiesceBegun .reset true (s.modPins fun p => { p with rst := true })) := by
  have hserves : serving (s.modPins fun p => { p with rst := true }) = true := serving_of_rdy hrdy hresp
  show execRstLFall s = _
  have hidle : ¬ (s.modPins fun p => { p with rst := true }).start.active = true := by rw [State.modPins, hactive]; exact Bool.false_ne_true
  exact congrArg Host.Outcome.next ((if_neg hidle).trans ((if_pos hserves).trans (resetCause_waits true hserves h)))

theorem exec_cfgRestart_waits {s : State} {path : Path} (hrdy : s.pins.rdy = true) (hresp : s.resp = {}) (h : anyAccepted s = true)
    (hop : operates path 0x1000C s = true) :
    exec (.cfgRestart path 0x5A5A) s = .next (quiesceBegun .reset false s) := by
  show execCfgRestart path 0x5A5A s = _
  rw [execCfgRestart, operates_op hop, ← resetCause_waits false (serving_of_rdy hrdy hresp) h]
  rfl

/-- Settles O8: each cause begins the same way, with the response that it names. -/
theorem quiesceLeavesAcceptedOpsRunning : Obligations.QuiesceLeavesAcceptedOpsRunning := by
  unfold Obligations.QuiesceLeavesAcceptedOpsRunning
  intro s hrdy hresp haccepted hactive begun
  refine ⟨⟨_, exec_unplugRequest_waits hrdy hresp haccepted, quiesceBegun_shows _ _, (quiesceBegun_lines _ _ _).1⟩,
    ⟨_, exec_rstLFall_waits hrdy hresp haccepted hactive, quiesceBegun_shows _ _, (quiesceBegun_lines _ _ _).2, rfl⟩, fun path hop =>
    ⟨_, exec_cfgRestart_waits hrdy hresp haccepted hop, quiesceBegun_shows _ _, rfl⟩⟩

/-! ### The 20 ms are over, and the flush -/

theorem exec_quiesceOpDeadline {s : State} (h : s.resp.stage = .ops) : exec .quiesceOpDeadline s = .next (startFlush (revokeAll s)) := by
  show Host.Outcome.next (opsOver s) = _
  rw [opsOver, h]
  rfl

theorem flushList_congr {s t : State} (hftl : t.ftl = s.ftl) (hresp : t.resp = s.resp) : flushList t = flushList s := by
  rw [flushList, windowRecs, hftl, hresp, flushList, windowRecs]

/-- A flush with records to write goes on. -/
theorem startFlush_writes {s : State} (h : flushList s ≠ []) : startFlush s = s.modResp fun r => { r with stage := .flush } := by
  have hlist : flushList (s.modResp fun r => { r with stage := .flush }) = flushList s := rfl
  unfold startFlush
  dsimp only
  rw [hlist, if_neg (by simpa using h)]

/-- A flush with nothing to write ends at once. -/
theorem startFlush_empty {s : State} (h : flushList s = []) :
    startFlush s = flushEnded (loseWindow (s.modResp fun r => { r with stage := .flush })) := by
  have hlist : flushList (s.modResp fun r => { r with stage := .flush }) = flushList s := rfl
  unfold startFlush
  dsimp only
  rw [hlist, h]
  rfl

theorem flushList_of_windowRecs {s : State} (h : windowRecs s = []) : flushList s = [] := by
  rw [flushList, h, List.filter_nil]

theorem bleedIfDue_no {s : State} (h : s.resp.bleedDue = false) : bleedIfDue s = s := by
  rw [bleedIfDue, h]
  rfl

/-- A response whose copy is in progress waits for it. -/
theorem awaitCopy_waits {s : State} (h : s.bbx.copy.isSome = true) : awaitCopy s = s.modResp fun r => { r with stage := .copy } := by
  obtain ⟨c, hc⟩ := Option.isSome_iff_exists.mp h
  unfold awaitCopy settleCopy
  rw [if_neg]
  simp [hc]

/-- Entries accepted when the 20 ms are over end with REVOKED, with no op in progress. -/
theorem quiesceOpDeadline_revokes {s : State} (hstage : s.resp.stage = .ops) (htab : s.ops.tab = []) (hrings : RingsOk s.rng)
    (hflush : flushList s ≠ []) : ∃ t, exec .quiesceOpDeadline s = .next t ∧ ∀ n, (ringOf t n).entries = [] ∧
      (ringOf t n).ready = (ringOf s n).ready ++ (ringOf s n).entries.map fun e => cplOf s e { status := stRevoked } := by
  have hlist : flushList (revokeAll s) = flushList s := by
    obtain ⟨touched, -⟩ := revokeAll_noOp htab hrings 0
    exact flushList_congr (touched.ftl.resolve_left (by decide)) (touched.resp.resolve_left (by decide))
  refine ⟨_, exec_quiesceOpDeadline hstage, fun n => ?_⟩
  rw [startFlush_writes (hlist ▸ hflush)]
  exact (revokeAll_noOp htab hrings n).2

theorem quiesceOpDeadline_flushes {s : State} (hstage : s.resp.stage = .ops) (hidle : anyAccepted s = false) (hflush : flushList s ≠ []) :
    ∃ t, exec .quiesceOpDeadline s = .next t ∧ t.resp.stage = .flush ∧ t.resp.kind = s.resp.kind ∧ t.ftl = s.ftl := by
  obtain ⟨f, hover⟩ := opsOver_flush hstage hidle hflush
  refine ⟨_, rfl, ?_⟩
  rw [hover]
  exact ⟨rfl, rfl, rfl⟩

/-- A response comes to a stage. -/
def toStage (stage : RespStage) (s : State) : State := s.modResp fun r => { r with stage := stage }

theorem revokeExtents_none {s : State} (h : s.ext.table = []) : revokeExtents s = s := by
  rw [revokeExtents, h]
  rfl

theorem copy_isSome_freeze {s : State} (cls : Nat) (hfrozen : s.bbx.frozen = false) (hcopy : s.bbx.copy = none) :
    (freeze cls s).bbx.copy.isSome = true := by
  obtain ⟨-, -, hcls⟩ := freeze_running cls hfrozen hcopy
  obtain ⟨c, hc, -⟩ := Option.map_eq_some_iff.mp hcls
  rw [hc]
  rfl

/-- The flush of a quiesce with no extent left ends in the freeze of class UNPLUG. -/
theorem flushEnded_quiesce {s : State} (hkind : s.resp.kind = .quiesce) (hbleed : s.resp.bleedDue = false) (hext : s.ext.table = [])
    (hfrozen : s.bbx.frozen = false) (hcopy : s.bbx.copy = none) :
    flushEnded s = toStage .copy (freeze clsUnplug (toStage .extents s)) := by
  have hend : flushEnded s = settleExtStage (revokeExtents (toStage .extents s)) := by
    unfold flushEnded
    rw [bleedIfDue_no hbleed]
    dsimp only
    rw [hkind]
    rfl
  have hsettle : settleExtStage (toStage .extents s) = awaitCopy (freeze clsUnplug (toStage .extents s)) := by
    have hgone : ((toStage .extents s).resp.stage == .extents && (toStage .extents s).ext.table.isEmpty) = true := by
      simp [toStage, hext]
    have hunplug : ((toStage .extents s).resp.kind == .reset) = false := by simp [toStage, hkind]
    rw [settleExtStage, if_pos hgone, hunplug]
    rfl
  rw [hend, revokeExtents_none (s := toStage .extents s) hext, hsettle, awaitCopy_waits (copy_isSome_freeze (s := toStage .extents s) _ hfrozen hcopy)]
  rfl

theorem flushEnded_quiesce_freezes {s : State} (hkind : s.resp.kind = .quiesce) (hbleed : s.resp.bleedDue = false) (hext : s.ext.table = [])
    (hfrozen : s.bbx.frozen = false) (hcopy : s.bbx.copy = none) :
    (flushEnded s).resp.stage = .copy ∧ (flushEnded s).bbx.frozen = true ∧ (flushEnded s).bbx.cause = clsUnplug ∧
      (flushEnded s).bbx.copy.isSome = true ∧ (flushEnded s).ftl = s.ftl := by
  rw [flushEnded_quiesce hkind hbleed hext hfrozen hcopy]
  obtain ⟨hrun, hcause, -⟩ := freeze_running (s := toStage .extents s) clsUnplug hfrozen hcopy
  have touched := freeze_touches (μ := partSet [.bbx]) clsUnplug rfl (.refl _ (toStage .extents s))
  exact ⟨rfl, hrun, hcause, copy_isSome_freeze (s := toStage .extents s) clsUnplug hfrozen hcopy, touched.ftl.resolve_left (by decide)⟩

theorem quiesceOpDeadline_freezes {s : State} (hstage : s.resp.stage = .ops) (hkind : s.resp.kind = .quiesce)
    (hbleed : s.resp.bleedDue = false) (hidle : anyAccepted s = false) (hwindow : windowRecs s = []) (hext : s.ext.table = [])
    (hfrozen : s.bbx.frozen = false) (hcopy : s.bbx.copy = none) :
    ∃ t, exec .quiesceOpDeadline s = .next t ∧ t.resp.stage = .copy ∧ t.bbx.frozen = true ∧ t.bbx.cause = clsUnplug ∧
      t.bbx.copy.isSome = true := by
  obtain ⟨f, hrevoke⟩ := revokeAll_idle hidle
  have hlist : flushList (s.modIo f) = [] := flushList_of_windowRecs (s := s.modIo f) hwindow
  refine ⟨_, exec_quiesceOpDeadline hstage, ?_⟩
  rw [hrevoke, startFlush_empty hlist]
  obtain ⟨hcopyStage, hrun, hcause, hsome, -⟩ :=
    flushEnded_quiesce_freezes (s := loseWindow (toStage .flush (s.modIo f))) hkind hbleed hext hfrozen hcopy
  exact ⟨hcopyStage, hrun, hcause, hsome⟩

/-! ### The window has been written -/

theorem exec_windowFlushDone {s : State} (h : s.resp.stage = .flush) :
    exec .windowFlushDone s = .next (flushEnded (loseWindow (flushRecs (flushList s) s))) := by
  show Host.Outcome.next (windowFlushed s) = _
  rw [windowFlushed, h]
  rfl

/-- The window is written whole: nothing is lost of it. -/
theorem loseWindow_flushed {s : State} (h : s.resp.skip = []) :
    windowRecs (loseWindow (flushRecs (flushList s) s)) = [] ∧
      (loseWindow (flushRecs (flushList s) s)).ftl = (flushRecs (flushList s) s).ftl :=
  ⟨windowRecs_lose _, (lose_none (flushed_all h)).2⟩

theorem windowRecs_congr {s t : State} (h : t.ftl = s.ftl) : windowRecs t = windowRecs s := by
  rw [windowRecs, h, windowRecs]

theorem faultFor_fault (cls : Nat) (s : State) : (faultFor cls s).pins.fault = true := by
  unfold faultFor
  split
  · next h => exact h
  · rfl

theorem windowFlushDone_powerFail {s : State} (hresp : s.resp = { kind := .powerFail, stage := .flush }) (hcopy : s.bbx.copy.isSome = true) :
    ∃ t, exec .windowFlushDone s = .next t ∧ t.resp.stage = .copy ∧ t.pins.fault = true ∧ windowRecs t = [] ∧
      (∀ x ∈ t.ftl.recs, x.2.durable = true → x.2.acked = true → x.2.programmed = true) ∧ t.ftl.recs.length = s.ftl.recs.length := by
  have hskip : s.resp.skip = [] := by rw [hresp]
  obtain ⟨hwindow, hftl⟩ := loseWindow_flushed hskip
  have hwritten := flushed_all hskip
  refine ⟨_, exec_windowFlushDone (by rw [hresp]), ?_⟩
  generalize hu : loseWindow (flushRecs (flushList s) s) = u at hwindow hftl
  have hur : u.resp = { kind := .powerFail, stage := .flush } := by rw [← hu]; exact hresp
  have hub : u.bbx = s.bbx := by rw [← hu]; rfl
  have hend : flushEnded u = awaitCopy (faultFor clsPower u) := by
    unfold flushEnded
    rw [bleedIfDue_no (by rw [hur])]
    dsimp only
    rw [hur]
    rfl
  have touched := faultFor_touches (μ := partSet [.pins, .resp]) clsPower (by decide) (.refl _ u)
  have hsome : (faultFor clsPower u).bbx.copy.isSome = true := by rw [touched.bbx.resolve_left (by decide), hub]; exact hcopy
  have hkeep : (faultFor clsPower u).ftl = u.ftl := touched.ftl.resolve_left (by decide)
  rw [hend, awaitCopy_waits hsome]
  refine ⟨rfl, faultFor_fault clsPower u, (windowRecs_congr hkeep).trans hwindow, ?_, ?_⟩
  · show ∀ x ∈ (faultFor clsPower u).ftl.recs, _
    rw [hkeep, hftl]
    exact hwritten
  · show (faultFor clsPower u).ftl.recs.length = _
    rw [hkeep, hftl]
    exact List.length_map _

theorem windowFlushDone_quiesce {s : State} (hresp : s.resp = { kind := .quiesce, stage := .flush }) (hext : s.ext.table = [])
    (hfrozen : s.bbx.frozen = false) (hcopy : s.bbx.copy = none) :
    ∃ t, exec .windowFlushDone s = .next t ∧ t.resp.stage = .copy ∧ windowRecs t = [] ∧ t.bbx.frozen = true ∧ t.bbx.cause = clsUnplug := by
  obtain ⟨hcopyStage, hrun, hcause, -, hftl⟩ := flushEnded_quiesce_freezes (s := loseWindow (flushRecs (flushList s) s))
    (by show s.resp.kind = _; rw [hresp]) (by show s.resp.bleedDue = _; rw [hresp]) hext hfrozen hcopy
  exact ⟨_, exec_windowFlushDone (by rw [hresp]), hcopyStage, (windowRecs_congr hftl).trans (windowRecs_lose _), hrun, hcause⟩

/-! ### The copy has ended -/

/-- The snapshot of a copy is complete, and after the operator's own the ring runs again. -/
def copyDone (c : CopySt) (s : State) : State := s.modBbx fun b =>
  { b with copy := none, frozen := b.frozen && c.cls != clsOperator, slots := lmod b.slots c.slot fun x => { x with complete := true } }

theorem exec_saddlebagCopyDone {s : State} {c : CopySt} (h : s.bbx.copy = some c) :
    exec .saddlebagCopyDone s = .next (settleCopy (copyDone c s)) := by
  show execSaddlebagCopyDone s = _
  rw [execSaddlebagCopyDone, h]
  rfl

theorem saddlebagCopyDone_completes {s : State} {c : CopySt} (h : s.bbx.copy = some c) (hstage : s.resp.stage ≠ .copy) :
    ∃ t, exec .saddlebagCopyDone s = .next t ∧ t.bbx.copy = none ∧
      (c.slot < s.bbx.slots.length → (nth t.bbx.slots c.slot {}).complete = true) ∧
      (t.bbx.frozen = true ↔ s.bbx.frozen = true ∧ c.cls ≠ clsOperator) := by
  have hsettle : settleCopy (copyDone c s) = copyDone c s := by
    have hother : ¬ ((copyDone c s).resp.stage == .copy && (copyDone c s).bbx.copy.isNone) = true := by
      simpa [copyDone] using hstage
    rw [settleCopy, if_neg hother]
  refine ⟨_, exec_saddlebagCopyDone h, ?_⟩
  rw [hsettle]
  refine ⟨rfl, fun hslot => ?_, by simp [copyDone]⟩
  show (nth (lmod s.bbx.slots c.slot _) c.slot {}).complete = true
  rw [nth_lmod _ _ _ _ hslot]

/-- A quiesce, a power-fail flush or a fatal response that nothing joined makes removal safe at its end. -/
theorem endSteps_safe {s : State} (hpulse : s.start.rstPulse = false) (hleak : s.resp.leakJoin = false) (htrip : s.resp.tripJoin = false)
    (hkind : s.resp.kind = .quiesce ∨ s.resp.kind = .powerFail ∨ s.resp.kind = .fatal) :
    (endSteps s).resp.stage = .ended ∧ (endSteps s).pwr.safeToPull = true ∧ (endSteps s).pins.led = .steady ∧
      (s.resp.kind = .quiesce → (endSteps s).pwr.mgmtOnly = true) := by
  unfold endSteps
  rcases hkind with hkind | hkind | hkind <;> simp [hkind, hleak, htrip, hpulse, setSafe, setLed]

theorem saddlebagCopyDone_ends {s : State} {c : CopySt} (h : s.bbx.copy = some c) (hstage : s.resp.stage = .copy)
    (hpulse : s.start.rstPulse = false) (hleak : s.resp.leakJoin = false) (htrip : s.resp.tripJoin = false)
    (hkind : s.resp.kind = .quiesce ∨ s.resp.kind = .powerFail ∨ s.resp.kind = .fatal) :
    ∃ t, exec .saddlebagCopyDone s = .next t ∧ t.resp.stage = .ended ∧ t.pwr.safeToPull = true ∧ t.pins.led = .steady ∧
      (s.resp.kind = .quiesce → t.pwr.mgmtOnly = true) := by
  have hsettle : settleCopy (copyDone c s) = endSteps (copyDone c s) := by
    have hwaits : ((copyDone c s).resp.stage == .copy && (copyDone c s).bbx.copy.isNone) = true := by simp [copyDone, hstage]
    rw [settleCopy, if_pos hwaits]
  refine ⟨_, exec_saddlebagCopyDone h, ?_⟩
  rw [hsettle]
  exact endSteps_safe (s := copyDone c s) hpulse hleak htrip hkind

/-- Settles O9, stage by stage: each clause is the end of one wait of a response. -/
theorem responsesGoOn : Obligations.ResponsesGoOn := by
  unfold Obligations.ResponsesGoOn
  intro s
  exact ⟨quiesceOpDeadline_revokes, quiesceOpDeadline_flushes, quiesceOpDeadline_freezes, windowFlushDone_powerFail,
    windowFlushDone_quiesce, fun _ => saddlebagCopyDone_completes, fun _ => saddlebagCopyDone_ends⟩

end Sys2Proof.Machine
end

section
/-! SUPPORT. The causes that stop the device, and what a stopped device no longer does (01 R21; 02 R55, R56; 13 R417, R418). -/

namespace Sys2Proof.Machine

open Sys2Proof

/-! ### A response that ends the service -/

/-- The device has stopped serving for a class: RDY is low, the ring is frozen for the class, its copy has begun, no message is taken. -/
def Stopping (cls : Nat) (kind : RespKind) (phase : Nat) (t : State) : Prop :=
  t.pins.rdy = false ∧ t.resp.kind = kind ∧ t.start.phase = phase ∧ t.bbx.frozen = true ∧ t.bbx.cause = cls ∧
    (t.bbx.copy.map fun c => c.cls) = some cls ∧ deaf t = true

/-- What makes a device rest is in five of its parts. -/
theorem Resting.congr {s t : State} (h : Resting s) (hrdy : t.pins.rdy = s.pins.rdy) (hresp : t.resp = s.resp) (hrng : t.rng = s.rng)
    (hbbx : t.bbx = s.bbx) : Resting t := by
  obtain ⟨hready, hnone, hidle, hruns, hcopy⟩ := h
  refine ⟨hrdy.trans hready, hresp.trans hnone, ?_, hbbx ▸ hruns, hbbx ▸ hcopy⟩
  rw [anyAccepted, hrng]
  exact hidle

theorem Resting.alive {s : State} (h : Resting s) : alive s = true := by
  obtain ⟨hready, -⟩ := h
  simp [Machine.alive, hready]

theorem Resting.softState {s : State} (h : Resting s) : softState s = true := by
  obtain ⟨-, hnone, -⟩ := h
  simp [Machine.softState, hnone]

/-! ### A thermal trip (R55) -/

/-- A reading is kept and the level follows the readings. -/
def sampled (n : Nat) (temp : Int) (s : State) : State :=
  s.modThm fun t => { t with temps := lput t.temps n temp, valid := lput t.valid n true }

/-- The level rises to what the readings have reached, and THERM_L follows it. -/
def levelled (s : State) : State := driveThermL (s.modThm fun t => { t with level := max s.thm.level (entryLevel s) })

theorem exec_sensorSample (n : Nat) (temp : Int) (s : State) : exec (.sensorSample n temp) s =
    .next (if (levelled (sampled n temp s)).thm.level == 4 && s.thm.level != 4 then tripCause (levelled (sampled n temp s))
      else levelled (sampled n temp s)) := rfl

theorem nth_sampled_temps {s : State} {n : Nat} (temp : Int) (h : n < s.thm.temps.length) : nth (sampled n temp s).thm.temps n 0 = temp :=
  nth_lput _ _ _ _ h

theorem nth_sampled_valid {s : State} {n : Nat} (temp : Int) (h : n < s.thm.valid.length) : nth (sampled n temp s).thm.valid n false = true :=
  nth_lput _ _ _ _ h

/-- A reading at the trip threshold takes the level to 4. -/
theorem levelled_trip {s : State} {n : Nat} {temp : Int} (hn : n < 64) (ht : n < s.thm.temps.length) (hv : n < s.thm.valid.length)
    (hlevel : s.thm.level < 4) (hhot : entryAt (sensorKind n) 4 ≤ temp) : (levelled (sampled n temp s)).thm.level = 4 := by
  have hreached : 4 ≤ entryLevel (sampled n temp s) := by
    refine le_entryLevel hn (nth_sampled_valid temp hv) (Nat.le_refl 4) ?_
    rwa [nth_sampled_temps temp ht]
  have hmost := entryLevel_le (sampled n temp s)
  show max s.thm.level (entryLevel (sampled n temp s)) = 4
  omega

theorem tripCause_resting {s : State} (h : Resting s) : tripCause s = lostFor clsThermal (driveTherm s) := by
  have hdriven : Resting (driveTherm s) := h.congr rfl rfl rfl rfl
  unfold tripCause
  dsimp only
  rw [hdriven.alive, hdriven.softState]
  rfl

theorem sensorSample_trips {s : State} (h : Resting s) (hsafe : s.pwr.safeToPull = false) {n : Nat} {temp : Int} (hn : n < 64)
    (ht : n < s.thm.temps.length) (hv : n < s.thm.valid.length) (hlevel : s.thm.level < 4) (hhot : entryAt (sensorKind n) 4 ≤ temp) :
    ∃ t, exec (.sensorSample n temp) s = .next t ∧ Stopping clsThermal .fatal 6 t ∧ t.thm.level = 4 ∧ t.pins.fault = true ∧
      t.pins.therm = true ∧ t.pins.led = .blink4 ∧ t.ops.tab = [] ∧ t.attn.units = [] ∧ windowRecs t = [] ∧ t.resp.halted = true := by
  have hfour := levelled_trip hn ht hv hlevel hhot
  have hrest : Resting (levelled (sampled n temp s)) := h.congr rfl rfl rfl rfl
  have htrips : ((levelled (sampled n temp s)).thm.level == 4 && s.thm.level != 4) = true := by
    rw [hfour, bne_iff_ne.mpr (Nat.ne_of_lt hlevel)]
    rfl
  obtain ⟨t, hlost, hstopping, hfault, hled, -, hops, hunits, hwindow, hthm, -, -, htherm, hhalted⟩ :=
    lostFor_resting (s := driveTherm (levelled (sampled n temp s))) (hrest.congr rfl rfl rfl rfl) hsafe clsThermal
  refine ⟨t, ?_, hstopping, (congrArg Thermal.level hthm).trans hfour, hfault, htherm, hled, hops, hunits, hwindow, hhalted⟩
  rw [exec_sensorSample, if_pos htrips, tripCause_resting hrest, hlost]

/-! ### Loss of lock (R21) -/

/-- Holdover: every clock but SCLK stops. -/
def lockLost (s : State) : State := s.modClk fun c => { c with pllLocked := false, holdover := true, running := false }

theorem lockCause_resting {s : State} (h : Resting s) (hsafe : s.pwr.safeToPull = false) (hlocked : s.clk.pllLocked = true) :
    lockCause s = lockLost (lostFor clsClock s) := by
  have hresp : s.resp = {} := h.2.1
  have hjoin : s.modResp (fun r => { r with leakJoin := s.resp.leakJoin || s.resp.kind == .leak }) = s := by
    show { s with resp := { s.resp with leakJoin := s.resp.leakJoin || s.resp.kind == .leak } } = s
    rw [hresp]
    show { s with resp := {} } = s
    rw [← hresp]
  obtain ⟨t, hlost, -, -, -, -, -, -, -, -, -, hactive, -⟩ := lostFor_resting h hsafe clsClock
  unfold lockCause
  rw [h.alive, hlocked]
  dsimp only
  rw [hjoin, hlost, hactive]
  rfl

theorem lossOfLock_stops {s : State} (h : Resting s) (hsafe : s.pwr.safeToPull = false) (hlocked : s.clk.pllLocked = true) :
    ∃ t, exec .lossOfLock s = .next t ∧ Stopping clsClock .fatal 6 t ∧ t.pins.fault = true ∧ t.clk.pllLocked = false ∧
      t.clk.holdover = true ∧ t.clk.running = false ∧ t.ops.tab = [] ∧ windowRecs t = [] ∧ t.resp.halted = true := by
  obtain ⟨u, hlost, hstopping, hfault, -, -, hops, -, hwindow, -, -, -, -, hhalted⟩ := lostFor_resting h hsafe clsClock
  have hlock : lockCause s = lockLost u := by rw [lockCause_resting h hsafe hlocked, hlost]
  refine ⟨_, rfl, ?_⟩
  rw [hlock, hlocked]
  exact ⟨hstopping, hfault, rfl, rfl, rfl, hops, hwindow, hhalted⟩

/-! ### A leak (R56) -/

theorem leakCause_resting {s : State} (h : Resting s) :
    leakCause s = flushFor .leak 0xA clsLeak (s.modThm fun t => { t with leakIn := true }) := by
  have hrest : Resting (s.modThm fun t => { t with leakIn := true }) := h.congr rfl rfl rfl rfl
  exact (if_neg (by rw [hrest.alive]; decide)).trans (if_pos hrest.softState)

/-- Step 3 of R56 asserts FAULT_L and THERM_L, blinks while removal is not safe, and asks for less than 60 W. -/
theorem leakStep3_lines {s : State} (hsafe : s.pwr.safeToPull = false) : (leakStep3 s).pins.fault = true ∧ (leakStep3 s).pins.therm = true ∧
    (leakStep3 s).pins.led = .blink4 ∧ (leakStep3 s).pwr.low60 = true ∧ (leakStep3 s).pins.rdy = s.pins.rdy ∧
    (leakStep3 s).pwr.flushOnly = s.pwr.flushOnly := by
  unfold leakStep3 blinkUnsafe faultFor
  split <;> simp_all [driveTherm, setLed, assertFault]

theorem leakStep3_keeps (s : State) : (leakStep3 s).resp.kind = s.resp.kind ∧ (leakStep3 s).start = s.start ∧ (leakStep3 s).bbx = s.bbx ∧
    (leakStep3 s).thm.leakIn = s.thm.leakIn := by
  unfold leakStep3 blinkUnsafe faultFor
  dsimp only
  split <;> split <;> exact ⟨rfl, rfl, rfl, rfl⟩

theorem deaf_of_leak {s : State} (h : s.resp.kind = .leak) : deaf s = true := by
  rw [deaf, h]

theorem leakResponse_stops {s : State} (h : Resting s) (hsafe : s.pwr.safeToPull = false) :
    ∃ t, exec .leakResponse s = .next t ∧ Stopping clsLeak .leak 0xA t ∧ t.thm.leakIn = true ∧ t.pwr.flushOnly = true ∧
      (t.resp.stage = .flush ∨ t.resp.stage = .copy ∧ t.pins.fault = true ∧ t.pins.therm = true ∧ t.pins.led = .blink4 ∧
        t.pwr.low60 = true) := by
  have hlow : Resting (s.modPins fun p => { p with leak := true }) := h.congr rfl rfl rfl rfl
  have hseen : Resting ((s.modPins fun p => { p with leak := true }).modThm fun t => { t with leakIn := true }) := h.congr rfl rfl rfl rfl
  refine ⟨_, congrArg Host.Outcome.next (leakCause_resting hlow), ?_⟩
  obtain ⟨T, hbegun, hresp, hstart, ⟨b, hpins⟩, hfrozen, hcause, hcls, hpwr, hthm, -⟩ := hard_begin hseen .leak 0xA clsLeak
  rw [flushFor, hbegun]
  have hcopy : (powerDown T).bbx.copy.isSome = true := by
    obtain ⟨c, hc, -⟩ := Option.map_eq_some_iff.mp hcls
    exact congrArg Option.isSome hc
  have hkind : (powerDown T).resp.kind = .leak := congrArg Resp.kind hresp
  have hleakIn : T.thm.leakIn = true := congrArg Thermal.leakIn hthm
  have hrdy : T.pins.rdy = false := congrArg Pins.rdy hpins
  have hphase : T.start.phase = 0xA := congrArg StartSt.phase hstart
  rcases startFlush_hard hcopy (.inr (.inl hkind)) (congrArg Resp.leakJoin hresp) (congrArg Resp.bleedDue hresp) with
    ⟨-, hflush⟩ | ⟨-, hflush⟩
  · rw [hflush]
    exact ⟨⟨hrdy, hkind, hphase, hfrozen, hcause, hcls, deaf_of_leak hkind⟩, hleakIn, rfl, .inl rfl⟩
  · rw [hflush]
    generalize hu : loseWindow ((powerDown T).modResp fun r => { r with stage := .flush }) = u
    have huSafe : u.pwr.safeToPull = false := by
      rw [← hu]
      exact (congrArg Power.safeToPull hpwr).trans hsafe
    have huKind : u.resp.kind = .leak := by rw [← hu]; exact hkind
    have hend : hardEnd u = leakStep3 u := by rw [hardEnd, huKind]
    obtain ⟨hfault, htherm, hled, hlow60, hkeepRdy, hkeepOnly⟩ := leakStep3_lines huSafe
    obtain ⟨hkeepKind, hkeepStart, hkeepBbx, hkeepIn⟩ := leakStep3_keeps u
    rw [hend]
    have huBbx : (leakStep3 u).bbx = T.bbx := by rw [hkeepBbx, ← hu]; rfl
    refine ⟨⟨?_, hkeepKind.trans huKind, ?_, ?_, ?_, ?_, deaf_of_leak (hkeepKind.trans huKind)⟩, ?_, ?_, .inr ⟨rfl, hfault, htherm, hled, hlow60⟩⟩
    · exact hkeepRdy.trans (by rw [← hu]; exact hrdy)
    · exact (congrArg StartSt.phase hkeepStart).trans (by rw [← hu]; exact hphase)
    · exact (congrArg Bbx.frozen huBbx).trans hfrozen
    · exact (congrArg Bbx.cause huBbx).trans hcause
    · exact (congrArg (fun b : Bbx => b.copy.map fun c => c.cls) huBbx).trans hcls
    · exact hkeepIn.trans (by rw [← hu]; exact hleakIn)
    · exact hkeepOnly.trans (by rw [← hu]; rfl)

/-! ### Faults of class MEMORY or INTERNAL (R418) -/

theorem fatalMemoryInternal_stops {s : State} (h : Resting s) (hsafe : s.pwr.safeToPull = false) (memory : Bool) (unit : FailUnit)
    (detail : Nat) (hit : List Nat) : ∃ t, exec (.fatalMemoryInternal memory unit detail hit) s = .next t ∧
      Stopping (if memory then clsMemory else clsInternal) .fatal 6 t ∧ t.pins.fault = true ∧ t.pins.led = .blink4 ∧
      (t.resp.stage = .flush ∨ t.resp.stage = .copy) := by
  obtain ⟨t, hfault, hstopping, hline, hled, hstage, -⟩ := memFault h hsafe (if memory then clsMemory else clsInternal) unit detail hit
  exact ⟨t, congrArg Host.Outcome.next hfault, hstopping, hline, hled, hstage⟩

theorem bridgeRetrainDone_fails {s : State} (h : Resting s) (hsafe : s.pwr.safeToPull = false) {die : Nat} (hdie : die ∈ s.spare.retraining) :
    ∃ t, exec (.bridgeRetrainDone die false) s = .next t ∧ Stopping clsInternal .fatal 6 t ∧ die ∉ t.spare.retraining ∧
      t.pins.fault = true := by
  have hrest : Resting (s.modSpare fun x => { x with retraining := x.retraining.filter (· != die) }) := h.congr rfl rfl rfl rfl
  obtain ⟨_, hfault, hstopping, hline, -, -, hspare⟩ := memFault hrest hsafe clsInternal (.other 3 die) 0 []
  have hgo : ¬ (!s.spare.retraining.contains die) = true := by simpa using hdie
  refine ⟨_, congrArg Host.Outcome.next ((if_neg hgo).trans hfault), hstopping, ?_, hline⟩
  rw [hspare]
  simp

/-- Settles O10: each cause in a resting device begins its response, and each event of work asks first whether the device works. -/
theorem fatalCausesStopTheDevice : Obligations.FatalCausesStopTheDevice := by
  unfold Obligations.FatalCausesStopTheDevice
  intro s
  refine ⟨fun hrest hsafe => ⟨fun n temp hn ht hv hlevel hhot => sensorSample_trips hrest hsafe hn ht hv hlevel hhot,
    lossOfLock_stops hrest hsafe, leakResponse_stops hrest hsafe, fatalMemoryInternal_stops hrest hsafe,
    fun die hdie => bridgeRetrainDone_fails hrest hsafe hdie⟩, fun n m k node ok l bad site j f h c hc => ?work, fun n m k ok g h c hc => ?flush⟩
  case work =>
    simp only [List.mem_cons, List.not_mem_nil, or_false] at hc
    rcases hc with rfl | rfl | rfl | rfl | rfl | rfl | rfl | rfl | rfl | rfl | rfl | rfl | rfl | rfl | rfl | rfl | rfl | rfl | rfl | rfl |
      rfl | rfl | rfl | rfl | rfl | rfl | rfl | rfl | rfl | rfl | rfl | rfl | rfl | rfl | rfl | rfl | rfl | rfl | rfl <;>
      exact congrArg Host.Outcome.next (working_off _ h)
  case flush =>
    simp only [List.mem_cons, List.not_mem_nil, or_false] at hc
    rcases hc with rfl | rfl | rfl | rfl | rfl | rfl <;> exact congrArg Host.Outcome.next (unlessStopped_off _ h)

end Sys2Proof.Machine
end

section
/-! SUPPORT. The throttle levels and their lines, and the wrap of the CCLK counter (01 R22 to R24; 02 R54, R56). -/

namespace Sys2Proof.Machine

open Sys2Proof

/-! ### Throttle levels -/

/-- THERM_L follows the throttle level, and what holds it low. -/
def ThermLine (s t : State) : Prop :=
  t.pins.therm = true ↔ s.thm.leakShutdown = true ∨ s.resp.tripJoin = true ∨ t.thm.level = 4 ∨ 2 ≤ max t.thm.level t.pwr.govLevel

theorem ThermLine.driven {s u : State} (hleak : u.thm.leakShutdown = s.thm.leakShutdown) (hresp : u.resp = s.resp) :
    ThermLine s (driveThermL u) := by
  have hline := driveThermL_line u
  rw [hleak, hresp] at hline
  exact hline

theorem nth_sampled_ne {s : State} {n k : Nat} (temp : Int) (h : k ≠ n) : nth (sampled n temp s).thm.temps k 0 = nth s.thm.temps k 0 ∧
    nth (sampled n temp s).thm.valid k false = nth s.thm.valid k false :=
  ⟨nth_lput_ne _ _ _ h, nth_lput_ne _ _ _ h⟩

/-- Readings below the trip keep the level below it. -/
theorem entryLevel_lt_trip {s : State}
    (h : ∀ k, k < 64 → nth s.thm.valid k false = true → nth s.thm.temps k 0 < entryAt (sensorKind k) 4) : entryLevel s < 4 := by
  rcases entryLevel_reached s with hzero | ⟨k, hk, hvalid, hreached⟩
  · omega
  · refine Nat.lt_of_le_of_ne (entryLevel_le s) fun hfour => ?_
    rw [hfour] at hreached
    exact absurd (h k hk hvalid) (Int.not_lt.mpr hreached)

theorem sampled_cool {s : State} {n : Nat} {temp : Int} (htemps : s.thm.temps.length = 64) (hn : n < 64)
    (hcool : temp < entryAt (sensorKind n) 4)
    (hothers : ∀ k, k < 64 → nth s.thm.valid k false = true → nth s.thm.temps k 0 < entryAt (sensorKind k) 4) :
    ∀ k, k < 64 → nth (sampled n temp s).thm.valid k false = true → nth (sampled n temp s).thm.temps k 0 < entryAt (sensorKind k) 4 := by
  intro k hk hvalid
  by_cases hkn : k = n
  · subst hkn
    rwa [nth_sampled_temps temp (htemps ▸ hn)]
  · obtain ⟨htemp, hkept⟩ := nth_sampled_ne (s := s) temp hkn
    rw [htemp]
    exact hothers k hk (hkept ▸ hvalid)

theorem sensorSample_keeps {s : State} {n : Nat} {temp : Int} (hn : n < 64) (htemps : s.thm.temps.length = 64)
    (hvalids : s.thm.valid.length = 64) (hlevel : s.thm.level < 4) (hcool : temp < entryAt (sensorKind n) 4)
    (hothers : ∀ k, k < 64 → nth s.thm.valid k false = true → nth s.thm.temps k 0 < entryAt (sensorKind k) 4) :
    ∃ t, exec (.sensorSample n temp) s = .next t ∧ nth t.thm.temps n 0 = temp ∧ nth t.thm.valid n false = true ∧ ThermLine s t ∧
      (∀ k, k ≠ n → nth t.thm.temps k 0 = nth s.thm.temps k 0 ∧ nth t.thm.valid k false = nth s.thm.valid k false) ∧
      s.thm.level ≤ t.thm.level ∧ t.thm.level < 4 ∧
      (∀ k l, k < 64 → l ≤ 4 → nth t.thm.valid k false = true → entryAt (sensorKind k) l ≤ nth t.thm.temps k 0 → l ≤ t.thm.level) ∧
      (t.thm.level = s.thm.level ∨ ∃ k, k < 64 ∧ nth t.thm.valid k false = true ∧
        entryAt (sensorKind k) t.thm.level ≤ nth t.thm.temps k 0) := by
  have hentry : entryLevel (sampled n temp s) < 4 := entryLevel_lt_trip (sampled_cool htemps hn hcool hothers)
  have hmax : (levelled (sampled n temp s)).thm.level = max s.thm.level (entryLevel (sampled n temp s)) := rfl
  have hbelow : (levelled (sampled n temp s)).thm.level < 4 := hmax ▸ Nat.max_lt.mpr ⟨hlevel, hentry⟩
  have hno : ¬ ((levelled (sampled n temp s)).thm.level == 4 && s.thm.level != 4) = true := by
    rw [beq_false_of_ne (Nat.ne_of_lt hbelow)]
    exact Bool.false_ne_true
  refine ⟨levelled (sampled n temp s), ?_, nth_sampled_temps temp (htemps ▸ hn), nth_sampled_valid temp (hvalids ▸ hn),
    .driven rfl rfl, fun k hk => nth_sampled_ne temp hk, Nat.le_max_left _ _, hbelow, fun k l hk hl hvalid hreached => ?_, ?_⟩
  · rw [exec_sensorSample, if_neg hno]
  · exact Nat.le_trans (le_entryLevel hk hvalid hl hreached) (Nat.le_max_right _ _)
  · rcases Nat.le_total (entryLevel (sampled n temp s)) s.thm.level with hle | hle
    · exact .inl (Nat.max_eq_left hle)
    · have hnew : (levelled (sampled n temp s)).thm.level = entryLevel (sampled n temp s) := Nat.max_eq_right hle
      rcases entryLevel_reached (sampled n temp s) with hzero | hreached
      · exact .inl (by rw [hnew]; omega)
      · exact .inr (hnew ▸ hreached)

theorem mem_readings {s : State} {x : Nat × Int} (h : x ∈ readings s) :
    ∃ k, k < 64 ∧ nth s.thm.valid k false = true ∧ x = (sensorKind k, nth s.thm.temps k 0) := by
  unfold readings at h
  obtain ⟨k, hk, hx⟩ := List.mem_filterMap.mp h
  split at hx
  · next hvalid => exact ⟨k, List.mem_range.mp hk, hvalid, (Option.some.inj hx).symm⟩
  · cases hx

theorem thermalLevelExit_leaves {s : State} (hpos : 0 < s.thm.level) (hlevel : s.thm.level < 4)
    (hcool : ∀ k, k < 64 → nth s.thm.valid k false = true → nth s.thm.temps k 0 ≤ entryAt (sensorKind k) s.thm.level - 24) :
    ∃ t, exec .thermalLevelExit s = .next t ∧ t.thm = { s.thm with level := s.thm.level - 1 } ∧ ThermLine s t := by
  have hall : (readings s).all (fun x => decide (x.2 ≤ entryAt x.1 s.thm.level - 24)) = true := by
    refine List.all_eq_true.mpr fun x hx => ?_
    obtain ⟨k, hk, hvalid, rfl⟩ := mem_readings hx
    exact decide_eq_true (hcool k hk hvalid)
  have hgo : ¬ (s.thm.level == 0 || s.thm.level == 4 || !(readings s).all fun x => decide (x.2 ≤ entryAt x.1 s.thm.level - 24)) = true := by
    rw [hall, beq_false_of_ne (Nat.ne_of_gt hpos), beq_false_of_ne (Nat.ne_of_lt hlevel)]
    decide
  exact ⟨_, congrArg Host.Outcome.next (if_neg hgo), rfl, .driven rfl rfl⟩

theorem setLines_pins (l : Lines) (s : State) : (setLines l s).pins =
    { s.pins with prsntEarly := l.prsntEarly, prsntLate := l.prsntLate, pwrfail := l.pwrfail, leak := l.leak, unplug := l.unplug } := by
  unfold setLines
  dsimp only
  split <;> rfl

theorem setLines_keeps (l : Lines) (s : State) : (setLines l s).thm.leakShutdown = s.thm.leakShutdown ∧ (setLines l s).resp = s.resp ∧
    (setLines l s).pwr = s.pwr := by
  unfold setLines
  dsimp only
  split <;> exact ⟨rfl, rfl, rfl⟩

theorem powerGovernorMeasure_keeps (s : State) (vin power need : Nat) (lines : Lines) :
    ∃ t, exec (.powerGovernorMeasure vin power need lines) s = .next t ∧ t.pins.vin = vin ∧
    t.pwr.pinPower = power ∧ (t.pwr.peakActive = true ↔ 5000 < power) ∧ t.pwr.govLevel = max s.pwr.govLevel need ∧ ThermLine s t ∧
    t.pins.prsntEarly = lines.prsntEarly ∧ t.pins.prsntLate = lines.prsntLate ∧ t.pins.pwrfail = lines.pwrfail ∧
    t.pins.leak = lines.leak ∧ t.pins.unplug = lines.unplug := by
  have hpins := setLines_pins lines (setVin vin s)
  obtain ⟨hleak, hresp, hpwr⟩ := setLines_keeps lines (setVin vin s)
  refine ⟨_, rfl, (congrArg Pins.vin hpins :), rfl, decide_eq_true_iff, ?_, ?_, (congrArg Pins.prsntEarly hpins :),
    (congrArg Pins.prsntLate hpins :), (congrArg Pins.pwrfail hpins :), (congrArg Pins.leak hpins :), (congrArg Pins.unplug hpins :)⟩
  · exact (congrArg (fun p : Power => max p.govLevel need) hpwr :)
  · exact .driven hleak hresp

/-- Settles O11: the level and THERM_L's line after each of the four events. -/
theorem throttleLevels : Obligations.ThrottleLevels := by
  unfold Obligations.ThrottleLevels
  intro s line
  exact ⟨fun n temp hn htemps hvalids hlevel hcool hothers => sensorSample_keeps hn htemps hvalids hlevel hcool hothers,
    thermalLevelExit_leaves, ⟨_, rfl, rfl, rfl, ThermLine.driven (s := s) rfl rfl⟩, powerGovernorMeasure_keeps s⟩

/-! ### The epoch -/

/-- The counter has reached the count of the prewrite. -/
def atPrewrite (s : State) : State :=
  if now s < 2 ^ 48 - 2 ^ 20 then s.modClk fun c => { c with count := BitVec.ofNat 48 (2 ^ 48 - 2 ^ 20) } else s

theorem exec_epochPrewrite {s : State} (h : s.clk.running = true) : exec .epochPrewrite s = .next (prewriteEpoch (atPrewrite s)) :=
  congrArg Host.Outcome.next (if_neg (by rw [h]; decide))

theorem prewriteEpoch_writes {s : State} (hnot : s.clk.prewritten = false) (hcan : s.tly.canPair 0 = true) :
    prewriteEpoch s = (pairWrite 0 (s.clk.epoch + 1) s).modClk fun c => { c with prewritten := true, nextEpoch := s.clk.epoch + 1 } :=
  (if_neg (by rw [hnot]; decide)).trans (if_pos hcan)

theorem prewriteEpoch_done {s : State} (h : s.clk.prewritten = true) : prewriteEpoch s = s := if_pos h

theorem atPrewrite_clk (s : State) : (atPrewrite s).clk.prewritten = s.clk.prewritten ∧ (atPrewrite s).clk.epoch = s.clk.epoch ∧
    2 ^ 48 - 2 ^ 20 ≤ (atPrewrite s).clk.count.toNat ∧ (2 ^ 48 - 2 ^ 20 ≤ s.clk.count.toNat → (atPrewrite s).clk.count = s.clk.count) ∧
    (atPrewrite s).tly = s.tly := by
  unfold atPrewrite
  split
  · next h => exact ⟨rfl, rfl, Nat.le_refl _, fun hle => absurd hle (Nat.not_le.mpr h), rfl⟩
  · next h => exact ⟨rfl, rfl, Nat.not_lt.mp h, fun _ => rfl, rfl⟩

theorem atPrewrite_touches (s : State) : Touches (partSet [.clk]) s (atPrewrite s) := by
  unfold atPrewrite
  split
  · exact Touches.modClk _ rfl (.refl _ s)
  · exact .refl _ s

theorem epochPrewrite_records {s : State} (hrun : s.clk.running = true) (hnot : s.clk.prewritten = false) (hcan : s.tly.canPair 0 = true) :
    ∃ t, exec .epochPrewrite s = .next t ∧ t.clk.prewritten = true ∧ t.clk.nextEpoch = s.clk.epoch + 1 ∧ t.clk.epoch = s.clk.epoch ∧
      2 ^ 48 - 2 ^ 20 ≤ t.clk.count.toNat ∧ (2 ^ 48 - 2 ^ 20 ≤ s.clk.count.toNat → t.clk.count = s.clk.count) ∧ Only [.clk, .tly, .bbx] s t := by
  obtain ⟨hpre, hepoch, hcount, hkeep, htly⟩ := atPrewrite_clk s
  have hwrites := prewriteEpoch_writes (s := atPrewrite s) (hpre.trans hnot) (by rw [htly]; exact hcan)
  have hpair : (pairWrite 0 ((atPrewrite s).clk.epoch + 1) (atPrewrite s)).clk = (atPrewrite s).clk :=
    (pairWrite_touches (μ := partSet [.tly, .bbx]) 0 _ rfl (.refl _ _)).clk.resolve_left (by decide)
  refine ⟨_, exec_epochPrewrite hrun, ?_⟩
  rw [hwrites]
  refine ⟨rfl, congrArg (· + 1) hepoch, (congrArg Clock.epoch hpair).trans hepoch, ?_, fun hle => ?_, ?_⟩
  · exact (congrArg (fun c : Clock => c.count.toNat) hpair) ▸ hcount
  · exact (congrArg Clock.count hpair).trans (hkeep hle)
  · exact (Touches.modClk _ rfl <| pairWrite_touches _ _ rfl <| (atPrewrite_touches s).weaken rfl).only

theorem cclkWrap_takes {s : State} (hrun : s.clk.running = true) (hpre : s.clk.prewritten = true) : exec .cclkWrap s = .next { s with clk :=
    { s.clk with count := 0, epoch := s.clk.nextEpoch, prewritten := false, lastCause := true } } := by
  have hwrap : wrapClock s = { s with clk := { s.clk with count := 0, epoch := s.clk.nextEpoch, prewritten := false, lastCause := true } } :=
    congrArg (fun c : Clock => { s with clk := c }) (if_pos hpre)
  show execCclkWrap s = _
  rw [execCclkWrap, prewriteEpoch_done hpre, hwrap, hrun]
  rfl

/-- Settles O12: the prewrite records the next epoch, and the wrap takes it. -/
theorem epochIsWrittenBeforeItsUse : Obligations.EpochIsWrittenBeforeItsUse := by
  unfold Obligations.EpochIsWrittenBeforeItsUse
  intro s hrun
  exact ⟨epochPrewrite_records hrun, cclkWrap_takes hrun⟩

end Sys2Proof.Machine
end

section
/-! SUPPORT. The block pass and the region scans after RDY (03 R77, R78). -/

namespace Sys2Proof.Machine

open Sys2Proof

/-- What a scan changes outside the start registers. -/
def scanParts : Nat := allParts .start

/-- An update made on a condition. -/
theorem Touches.ite_apply {w : Nat} {s₀ t : State} {c : Prop} [Decidable c] {f : State → State} (hf : ∀ u, Touches w s₀ u → Touches w s₀ (f u))
    (h : Touches w s₀ t) : Touches w s₀ (if c then f t else t) := Touches.ite (hf t h) h

theorem scanning_iff (s : State) : scanning s = true ↔
    atRest s = false ∧ (s.resp.kind = .none ∨ issuing s = true) ∧ (s.start.active = true ∨ 13 ∈ s.start.done) := by
  simp [scanning, and_assoc]

/-- A region that has been scanned is ready, whatever its scan brings back. -/
theorem regionDone_start (r : Nat) (s : State) : (regionDone r s).start = { s.start with regions := s.start.regions ++ [r] } := by
  generalize hu : ((s.modStart fun x => { x with regions := x.regions ++ [r] }).modFtl fun x => { x with onDemand := x.onDemand.filter (· != r) }) = u
  have hstart : u.start = { s.start with regions := s.start.regions ++ [r] } := by rw [← hu]; rfl
  have touched : Touches scanParts u (regionDone r s) := by
    unfold regionDone
    dsimp only
    rw [hu]
    refine driveAll_touches rfl <| Touches.ite_apply (fun _ ht => dropOrphans_touches rfl ht) <|
      Touches.forEach _ _ (fun w _ ht => attachObj_touches w.1 rfl ht) <| Touches.forEach _ _ (fun o t ht => ?_) <|
      Touches.forEach _ _ (fun b _ ht => attachBlock_touches b rfl ht) <| adoptRegion_touches r rfl (.refl _ u)
    split
    · exact Touches.ite (attachSeq_touches _ _ rfl ht) ht
    · exact ht
  rw [touched.start.resolve_left (by decide), hstart]

/-- The lowest region not ready that no on-demand scan reads. -/
theorem nextRegion_lowest {s : State} (h : ∃ r, r < 256 ∧ r ∉ s.start.regions ∧ s.ftl.onDemand.head? ≠ some r) :
    ∃ r, nextRegion s = some r ∧ r < 256 ∧ r ∉ s.start.regions ∧ s.ftl.onDemand.head? ≠ some r ∧
      ∀ q, q < r → q ∈ s.start.regions ∨ s.ftl.onDemand.head? = some q := by
  have hwanted (q : Nat) : (!regionReady s q && some q != s.ftl.onDemand.head?) = true ↔
      q ∉ s.start.regions ∧ s.ftl.onDemand.head? ≠ some q := by
    simp [regionReady, @eq_comm _ (some q)]
  have hfind : ((List.range 256).find? fun q => !regionReady s q && some q != s.ftl.onDemand.head?).isSome = true := by
    obtain ⟨r, hr, hopen, hfree⟩ := h
    exact List.find?_isSome.mpr ⟨r, List.mem_range.mpr hr, (hwanted r).mpr ⟨hopen, hfree⟩⟩
  obtain ⟨r, hr⟩ := Option.isSome_iff_exists.mp hfind
  have hnext : nextRegion s = some r := by
    unfold nextRegion
    dsimp only
    simp only [List.find?_filter, Bool.decide_and, Bool.decide_eq_true]
    rw [hr, Option.some_or]
  obtain ⟨hr, hrange, hbelow⟩ := List.find?_range_eq_some.mp hr
  obtain ⟨hopen, hfree⟩ := (hwanted r).mp hr
  refine ⟨r, hnext, List.mem_range.mp hrange, hopen, hfree, fun q hq => ?_⟩
  have hnot : ¬ (q ∉ s.start.regions ∧ s.ftl.onDemand.head? ≠ some q) := fun hx => by
    have := hbelow q hq
    rw [(hwanted q).mpr hx] at this
    exact absurd this (by decide)
  by_cases hq : q ∈ s.start.regions
  · exact .inl hq
  · exact .inr (Classical.not_not.mp fun hne => hnot ⟨hq, hne⟩)

/-- A scan of an abandoned start does nothing. -/
theorem not_scanning_of_abandoned {s : State} (hactive : s.start.active = false) (hrdy : 13 ∉ s.start.done) : scanning s = false := by
  simp [scanning, hactive, hrdy]

theorem regionScanDone_scans {s : State} (hwear : s.start.wearReady = true) (hscan : scanning s = true)
    (h : ∃ r, r < 256 ∧ r ∉ s.start.regions ∧ s.ftl.onDemand.head? ≠ some r) :
    ∃ t r, exec .regionScanDone s = .next t ∧ r < 256 ∧ r ∉ s.start.regions ∧ s.ftl.onDemand.head? ≠ some r ∧
      (∀ q, q < r → q ∈ s.start.regions ∨ s.ftl.onDemand.head? = some q) ∧ t.start.regions = s.start.regions ++ [r] := by
  obtain ⟨r, hnext, hr, hopen, hfree, hbelow⟩ := nextRegion_lowest h
  refine ⟨_, r, ?_, hr, hopen, hfree, hbelow, congrArg StartSt.regions (regionDone_start r s)⟩
  show execRegionScanDone s = _
  rw [execRegionScanDone, hwear, hscan, hnext]
  rfl

theorem ondemandScanDone_scans {s : State} {r : Nat} (hwear : s.start.wearReady = true) (hscan : scanning s = true)
    (hhead : s.ftl.onDemand.head? = some r) :
    ∃ t, exec .ondemandScanDone s = .next t ∧ t.start.regions = s.start.regions ++ [r] := by
  refine ⟨_, ?_, congrArg StartSt.regions (regionDone_start r s)⟩
  show execOndemandScanDone s = _
  rw [execOndemandScanDone, hwear, hscan, hhead]
  rfl

theorem blockPassDone_ends {s : State} (himage : 4 ∈ s.start.done) (hhbm : 7 ∈ s.start.done) (honfi : 8 ∈ s.start.done)
    (hwear : s.start.wearReady = false) (hscan : scanning s = true) :
    ∃ t, exec .blockPassDone s = .next t ∧ t.start.wearReady = true ∧ t.start.regions = s.start.regions := by
  have hgo : ¬ (!(([4, 7, 8].all fun n => s.start.done.contains n) && !s.start.wearReady && scanning s)) = true := by
    simp [himage, hhbm, honfi, hwear, hscan]
  refine ⟨_, congrArg Host.Outcome.next (if_neg hgo), ?_⟩
  dsimp only
  generalize hu : State.modStart _ _ = u
  have hstart : u.start = { s.start with wearReady := true } := by rw [← hu]; rfl
  have touched (l : List Nat) : Touches scanParts u (driveAll (wantRegions l u)) := driveAll_touches rfl (wantRegions_touches l rfl (.refl _ u))
  rw [(touched _).start.resolve_left (by decide), hstart]
  exact ⟨rfl, rfl⟩

/-- Settles O14: the block pass opens the scans, and each scan makes its region ready. -/
theorem rebuildScansEveryRegion : Obligations.RebuildScansEveryRegion := by
  unfold Obligations.RebuildScansEveryRegion
  intro s going
  have hgoing : going → scanning s = true := (scanning_iff s).mpr
  refine ⟨fun himage hhbm honfi hwear h => blockPassDone_ends himage hhbm honfi hwear (hgoing h),
    fun hwear h hopen => regionScanDone_scans hwear (hgoing h) hopen, fun r hwear h hhead => ondemandScanDone_scans hwear (hgoing h) hhead,
    fun hactive hrdy => ?_⟩
  have hno := not_scanning_of_abandoned hactive hrdy
  have hstops : (!(s.start.wearReady && scanning s)) = true := by rw [hno, Bool.and_false]; rfl
  have hpass : (!(([4, 7, 8].all fun n => s.start.done.contains n) && !s.start.wearReady && scanning s)) = true := by
    rw [hno, Bool.and_false]; rfl
  exact ⟨congrArg Host.Outcome.next (if_pos hpass), congrArg Host.Outcome.next (if_pos hstops), congrArg Host.Outcome.next (if_pos hstops)⟩

end Sys2Proof.Machine
end

section
/-! SUPPORT. A port's life, its lanes and the laser bays (04 R85 to R88, R95, R97). -/

namespace Sys2Proof.Machine

open Sys2Proof

theorem linkUp_opens {s : State} {n : Nat} (hn : n < s.link.ports.length) (peer : Node) (hfailed : (portAt s n).state ≠ .failed)
    (hup : (portAt s n).state ≠ .up) : ∃ t, exec (.linkUp n peer) s = .next t ∧ (∀ m, m ≠ n → portAt t m = portAt s m) ∧
    portAt t n = { portAt s n with
      state := .up, peer := peer, txSeq := 0, retryBuf := [], rxLast := none, sinceAck := 0, nakOut := false, nakSent := false
      credits := List.replicate 8 0, owed := bufferSizes (portAt s n).torus } := by
  have hgo : ¬ ((portAt s n).state == .failed || (portAt s n).state == .up) = true := by simp [hfailed, hup]
  exact ⟨_, congrArg Host.Outcome.next (if_neg hgo), fun m hm => portAt_modPort_ne s _ hm, portAt_modPort s n _ hn⟩

theorem portDown_strands {s : State} {n : Nat} (hn : n < s.link.ports.length) (hup : (portAt s n).state = .up) :
    ∃ t, exec (.portDown n) s = .next t ∧ (portAt t n).state = .down ∧ (portAt t n).retryBuf = [] ∧
    (∀ m, (portAt t m).retryBuf = if m = n then [] else (portAt s m).retryBuf) ∧ t.link.wire = s.link.wire := by
  have hgo : ((portAt s n).state == .up) = true := by simp [hup]
  obtain ⟨hports, hwire⟩ := reroute_ports n (modPort n (fun p => { p with state := .down }) s) ((modPort_length s n _).symm ▸ hn)
  have hretry (m : Nat) : (portAt (reroute n (modPort n (fun p => { p with state := .down }) s)) m).retryBuf =
      if m = n then [] else (portAt s m).retryBuf := by
    obtain ⟨q, hq⟩ := hports m
    rw [hq]
    by_cases hm : m = n
    · simp [hm]
    · simp only [if_neg hm]; rw [portAt_modPort_ne s _ hm]
  refine ⟨_, congrArg Host.Outcome.next (if_pos hgo), ?_, (hretry n).trans (if_pos rfl), hretry, hwire⟩
  obtain ⟨q, hq⟩ := hports n
  rw [hq, portAt_modPort s n _ hn]

/-- A port fails whatever its direction (R88). -/
theorem failPort_failed {s : State} {n : Nat} (dir : Nat) (hn : n < s.link.ports.length) : (portAt (failPort n dir s) n).state = .failed := by
  unfold failPort
  dsimp only
  generalize hu : emit 5 n evPortFailed [dir] (setPortWord n 8 1 1 (modPort n (fun p => { p with state := .failed }) s)) = u
  have hlink : u.link = (modPort n (fun p => { p with state := .failed }) s).link := by
    rw [← hu]
    exact (emit_touches (μ := partSet [.tly, .spare, .bbx]) 5 n _ _ (by decide)
      (setPortWord_touches n 8 1 1 (by decide) (.refl _ _))).link.resolve_left (by decide)
  have hport : portAt u n = { portAt s n with state := .failed } := (portAt_congr hlink n).trans (portAt_modPort s n _ hn)
  obtain ⟨q, hq⟩ := (reroute_ports n u (by rw [hlink]; exact (modPort_length s n _).symm ▸ hn)).1 n
  rw [hq, hport]

/-- A lane-control frame sent after an update of the port. -/
theorem sendControl_modPort {s : State} {n : Nat} (f : Port → Port) (hn : n < s.link.ports.length) :
    ∃ x o, (sendControl n (modPort n f s)).link.wire = s.link.wire ++ [(n, x)] ∧ lwKind x.link = 2 ∧
      (∀ m, m ≠ n → portAt (sendControl n (modPort n f s)) m = portAt s m) ∧ portAt (sendControl n (modPort n f s)) n =
        { f (portAt s n) with
          owed := o, nakOut := false, nakSent := (f (portAt s n)).nakSent || (f (portAt s n)).nakOut, sinceAck := 0 } := by
  obtain ⟨x, hwire, hkind, hothers, o, hport⟩ := sendControl_spec n (modPort n f s) ((modPort_length s n f).symm ▸ hn)
  rw [portAt_modPort s n f hn] at hport
  exact ⟨x, o, hwire, hkind, fun m hm => (hothers m hm).trans (portAt_modPort_ne s f hm), hport⟩

theorem laneMarginFail_asks {s : State} {n lane : Nat} (hn : n < s.link.ports.length) (hup : (portAt s n).state = .up)
    (hfree : (portAt s n).rxSub = 15) (hidle : (portAt s n).rxStage = .idle) (hlane : lane ≠ 8) :
    ∃ t f, exec (.laneMarginFail n lane) s = .next t ∧ (portAt t n).rxStage = .requested lane ∧ (portAt t n).state = .up ∧
      (∀ m, m ≠ n → portAt t m = portAt s m) ∧ t.link.wire = s.link.wire ++ [(n, f)] ∧ lwKind f.link = 2 := by
  obtain ⟨f, o, hwire, hkind, hothers, hport⟩ := sendControl_modPort (fun p => { p with rxStage := .requested lane }) hn
  refine ⟨_, f, ?_, ?_, ?_, hothers, hwire, hkind⟩
  · show execLaneMarginFail n lane s = _
    simp [execLaneMarginFail, hup, hfree, hidle, hlane]
  · rw [hport]
  · rw [hport]; exact hup

theorem laneMarginFail_fails {s : State} {n lane : Nat} (hn : n < s.link.ports.length) (hup : (portAt s n).state = .up)
    (hused : (portAt s n).rxSub ≠ 15) (hother : (portAt s n).rxSub ≠ lane) (hidle : (portAt s n).rxStage = .idle) :
    ∃ t, exec (.laneMarginFail n lane) s = .next t ∧ (portAt t n).state = .failed := by
  refine ⟨failPort n 1 s, ?_, failPort_failed 1 hn⟩
  show execLaneMarginFail n lane s = _
  simp [execLaneMarginFail, hup, hused, hidle, hother]

theorem subReq_duplicates {s : State} {n lane : Nat} (hn : n < s.link.ports.length) (hup : (portAt s n).state = .up)
    (hfree : (portAt s n).txSub = 15) (hidle : (portAt s n).txStage = .idle) (hlane : lane < 8) :
    ∃ t f, exec (.subReq n lane) s = .next t ∧ (portAt t n).txStage = .duplicated lane ∧ (∀ m, m ≠ n → portAt t m = portAt s m) ∧
      t.link.wire = s.link.wire ++ [(n, f)] ∧ lwKind f.link = 2 := by
  obtain ⟨f, o, hwire, hkind, hothers, hport⟩ := sendControl_modPort (fun p => { p with txStage := .duplicated lane }) hn
  refine ⟨_, f, ?_, ?_, hothers, hwire, hkind⟩
  · show execSubReq n lane s = _
    simp [execSubReq, hup, hfree, hidle, hlane]
  · rw [hport]

theorem subReady_takes {s : State} {n lane : Nat} (hn : n < s.link.ports.length) (hstage : (portAt s n).rxStage = .requested lane) :
    ∃ t f, exec (.subReady n lane) s = .next t ∧ (portAt t n).rxSub = lane ∧ (portAt t n).rxStage = .idle ∧
      (∀ m, m ≠ n → portAt t m = portAt s m) ∧ t.link.wire = s.link.wire ++ [(n, f)] ∧ lwKind f.link = 2 := by
  obtain ⟨f, o, hwire, hkind, hothers, hport⟩ := sendControl_modPort (fun p => { p with rxSub := lane, rxStage := .idle }) hn
  have hlink := recordSub_link n 1 lane (sendControl n (modPort n (fun p => { p with rxSub := lane, rxStage := .idle }) s))
  refine ⟨_, f, congrArg Host.Outcome.next (if_pos (by simp [hstage])), ?_, ?_,
    fun m hm => (portAt_congr hlink m).trans (hothers m hm), (congrArg Link.wire hlink).trans hwire, hkind⟩
  · rw [portAt_congr hlink, hport]
  · rw [portAt_congr hlink, hport]

theorem subDone_takes {s : State} {n lane : Nat} (hn : n < s.link.ports.length) (hstage : (portAt s n).txStage = .duplicated lane) :
    ∃ t, exec (.subDone n lane) s = .next t ∧ portAt t n = { portAt s n with txSub := lane, txStage := .idle } ∧
      (∀ m, m ≠ n → portAt t m = portAt s m) ∧ t.link.wire = s.link.wire := by
  have hlink := recordSub_link n 0 lane (modPort n (fun p => { p with txSub := lane, txStage := .idle }) s)
  exact ⟨_, congrArg Host.Outcome.next (if_pos (by simp [hstage])), (portAt_congr hlink n).trans (portAt_modPort s n _ hn),
    fun m hm => (portAt_congr hlink m).trans (portAt_modPort_ne s _ hm), (congrArg Link.wire hlink :)⟩

theorem refed_bay (b : Nat) (p : Port) : (if p.bay == b then { p with bay := 4 } else p).bay = if p.bay = b then 4 else p.bay := by
  by_cases h : p.bay = b <;> simp [h]

/-- Bay 4 coming in re-feeds the ports of its group. -/
theorem bringBay4_link (b : Nat) (s : State) : (bringBay4 b s).link =
    { s.link with spareServes := b, ports := s.link.ports.map fun p => if p.bay == b then { p with bay := 4 } else p } := by
  unfold bringBay4
  dsimp only
  generalize hu : (s.modLink fun l => { l with spareServes := b, ports := _ }) = u
  have htouch (f : State → Nat) : Touches (partSet [.tly, .spare, .bbx]) u (emit 6 b evLaserSpare [b] (spareSet laserWord (f u) u)) :=
    emit_touches 6 b _ _ (by decide) (spareSet_touches _ _ (by decide) (.refl _ u))
  rw [(htouch fun u => putBits (spareNat u laserWord) 0 3 b).link.resolve_left (by decide), ← hu]
  rfl

/-- The record of a bay whose power fell is written to the Tally alone. -/
theorem recordBay_link (c : Bool) (bay : Nat) (u : State) :
    (if c then spareSet laserWord (setBit (spareNat u laserWord) (3 + bay)) u else u).link = u.link := by
  split
  · exact (spareSet_touches (μ := partSet [.tly, .spare, .bbx]) _ _ (by decide) (.refl _ u)).link.resolve_left (by decide)
  · rfl

theorem laserBayLow_stops {s : State} {n bay : Nat} {removed : Bool} {power : Int} (hn : n < s.link.ports.length)
    (hbay : bay < s.link.bays.length) (hlow : removed = true ∨ power ≤ (nth s.link.bays bay {}).recorded - 150) :
    ∃ t, exec (.laserBayLow bay removed power) s = .next t ∧ (nth t.link.bays bay {}).ok = false ∧
      (nth t.link.bays bay {}).power = (if removed then 0 else power) ∧ (∀ b, b ≠ bay → nth t.link.bays b {} = nth s.link.bays b {}) ∧
      (bay < 4 → s.link.spareServes = 7 → (nth s.link.bays 4 {}).ok = true → t.link.spareServes = bay ∧
        (portAt t n).bay = if (portAt s n).bay = bay then 4 else (portAt s n).bay) := by
  generalize hlowBit : decide (power ≤ (nth s.link.bays bay {}).recorded - 150) = low
  have hout : (low || removed) = true := by
    rw [← hlowBit]
    rcases hlow with h | h <;> simp [h]
  have hnotOk (x : Bool) : (x && !removed && !low) = false := by
    revert hout
    cases x <;> cases removed <;> cases low <;> decide
  generalize hu : (s.modLink fun l => { l with bays := lmod l.bays bay fun y =>
    { y with present := y.present && !removed, power := if removed then 0 else power, ok := y.ok && !removed && !low } }) = u
  have hbays : u.link.bays = lmod s.link.bays bay fun y =>
      { y with present := y.present && !removed, power := if removed then 0 else power, ok := y.ok && !removed && !low } := by rw [← hu]; rfl
  have hports : u.link.ports = s.link.ports := by rw [← hu]; rfl
  have hserves : u.link.spareServes = s.link.spareServes := by rw [← hu]; rfl
  generalize hv : (if low && !removed then spareSet laserWord (setBit (spareNat u laserWord) (3 + bay)) u else u) = v
  have hlink : v.link = u.link := by rw [← hv]; exact recordBay_link _ bay u
  have hexec : exec (.laserBayLow bay removed power) s = .next
      (if (low || removed) && decide (bay < 4) && v.link.spareServes == 7 && (nth v.link.bays 4 {}).ok then bringBay4 bay v else v) := by
    rw [← hv, ← hu, ← hlowBit]; rfl
  refine ⟨_, hexec, ?_⟩
  have htBays : (if (low || removed) && decide (bay < 4) && v.link.spareServes == 7 && (nth v.link.bays 4 {}).ok then bringBay4 bay v else v).link.bays =
      u.link.bays := by
    split
    · rw [bringBay4_link]; exact (congrArg Link.bays hlink :)
    · rw [hlink]
  rw [htBays, hbays]
  refine ⟨?_, ?_, fun b hb => nth_lmod_ne _ _ _ hb, fun hgroup hspare hok => ?_⟩
  · rw [nth_lmod _ _ _ _ hbay]; exact hnotOk _
  · rw [nth_lmod _ _ _ _ hbay]
  · have hgo : ((low || removed) && decide (bay < 4) && v.link.spareServes == 7 && (nth v.link.bays 4 {}).ok) = true := by
      rw [hlink, hbays, hserves, nth_lmod_ne _ _ _ (by omega), hout, hspare, hok, decide_eq_true hgroup]; rfl
    rw [if_pos hgo]
    unfold portAt
    rw [bringBay4_link]
    refine ⟨rfl, ?_⟩
    dsimp only
    rw [hlink, hports, nth_map_lt _ _ ({} : Port) ({} : Port) hn]
    exact refed_bay bay _

/-- Settles O15: each event of a port, a lane and a bay changes its own part alone. -/
theorem portsLanesAndBays : Obligations.PortsLanesAndBays := by
  unfold Obligations.PortsLanesAndBays
  intro s n hn others
  exact ⟨fun peer => linkUp_opens hn peer, portDown_strands hn, fun _ => laneMarginFail_asks hn, fun _ => laneMarginFail_fails hn,
    fun _ => subReq_duplicates hn, fun _ => subReady_takes hn, fun _ => subDone_takes hn, fun _ _ _ => laserBayLow_stops hn⟩

end Sys2Proof.Machine
end

section
/-! SUPPORT. Frames, their retry, and flits on their way through (04 R89, R90, R93 to R98, R106 to R109). -/

namespace Sys2Proof.Machine

open Sys2Proof

/-- A discard asks for nak once: not while it is asked for, and not when it was sent since the last flit frame. -/
theorem nakNoted (p : Port) : (if p.nakSent || p.nakOut then p else { p with nakOut := true }) =
    { p with nakOut := p.nakOut || !p.nakSent } := by
  split
  · next h =>
    have hkept : (p.nakOut || !p.nakSent) = p.nakOut := by
      revert h
      cases p.nakOut <;> cases p.nakSent <;> decide
    rw [hkept]
  · next h =>
    have hset : (p.nakOut || !p.nakSent) = true := by
      revert h
      cases p.nakOut <;> cases p.nakSent <;> decide
    rw [hset]

theorem frameDiscard_port {s : State} {n : Nat} (hn : n < s.link.ports.length) :
    portAt (frameDiscard n s) n = { portAt s n with nakOut := (portAt s n).nakOut || !(portAt s n).nakSent } := by
  refine (portAt_modPort s n _ hn).trans ?_
  exact nakNoted (portAt s n)

theorem frameDiscard_others {s : State} {n : Nat} (m : Nat) (hm : m ≠ n) : portAt (frameDiscard n s) m = portAt s m :=
  portAt_modPort_ne s _ hm

/-- The state after the FEC's count. -/
def fecCounted (n : Nat) (f : Frame) (s : State) : State := modPort n (fun p => { p with fec := sat32 (p.fec + (f.errs.1 + f.errs.2)) }) s

theorem fecCounted_port {s : State} {n : Nat} (f : Frame) (hn : n < s.link.ports.length) :
    portAt (fecCounted n f s) n = { portAt s n with fec := sat32 ((portAt s n).fec + (f.errs.1 + f.errs.2)) } := portAt_modPort s n _ hn

theorem fecCounted_length (n : Nat) (f : Frame) (s : State) : (fecCounted n f s).link.ports.length = s.link.ports.length := modPort_length _ _ _

/-- The frame number a port takes next (R90). -/
def wantedSeq (p : Port) : Nat :=
  match p.rxLast with
  | none => 0
  | some k => (k + 1) % 1024

section
variable {s : State} {n : Nat} {f : Frame}

theorem frameReceive_uncorrectable (hsilent : silent s = false) (hup : (portAt s n).state = .up) (herr : 6 < f.errs.1 ∨ 6 < f.errs.2) :
    exec (.frameReceive n f) s = .next (frameDiscard n s) := by
  have hfec : frameFec f = none := if_neg (by omega)
  show execFrameReceive n f s = _
  rw [execFrameReceive, hup, hsilent, hfec]
  rfl

theorem frameReceive_badCrc (hsilent : silent s = false) (hup : (portAt s n).state = .up) (heven : f.errs.1 ≤ 6) (hodd : f.errs.2 ≤ 6)
    (hcrc : crc24 (f.body ++ leBytes 5 (f.link.toNat % 2 ^ 40)) ≠ lwCrc f.link) :
    exec (.frameReceive n f) s = .next (frameDiscard n (fecCounted n f s)) := by
  have hfec : frameFec f = some (f.errs.1 + f.errs.2) := if_pos ⟨heven, hodd⟩
  show execFrameReceive n f s = _
  rw [execFrameReceive, hup, hsilent, hfec]
  exact congrArg Host.Outcome.next (if_pos (bne_iff_ne.mpr hcrc))

/-- A good flit frame: its link word acts, then its number decides. -/
theorem frameReceive_flitFrame (hsilent : silent s = false) (hup : (portAt s n).state = .up) (heven : f.errs.1 ≤ 6) (hodd : f.errs.2 ≤ 6)
    (hcrc : crc24 (f.body ++ leBytes 5 (f.link.toNat % 2 ^ 40)) = lwCrc f.link) (hkind : lwKind f.link = 0) :
    exec (.frameReceive n f) s = .next (
      let u := applyLink n f.link (fecCounted n f s)
      if lwSeq f.link != wantedSeq (portAt u n) then frameDiscard n u
      else
        let t := modPort n (fun p => { p with rxLast := some (lwSeq f.link), sinceAck := p.sinceAck + 1, nakOut := false, nakSent := false }) u
        let t := when (flitDst f.body == selfNode t) (receiveFlit n f.body) t
        if 32 ≤ (portAt t n).sinceAck then sendIdle n t else t) := by
  have hfec : frameFec f = some (f.errs.1 + f.errs.2) := if_pos ⟨heven, hodd⟩
  have hnot : ¬ (crc24 (f.body ++ leBytes 5 (f.link.toNat % 2 ^ 40)) != lwCrc f.link) = true := by rw [hcrc]; simp
  have hflit : ¬ (lwKind f.link != 0) = true := by simp [hkind]
  show execFrameReceive n f s = _
  rw [execFrameReceive, hup, hsilent, hfec]
  exact congrArg Host.Outcome.next ((if_neg hnot).trans (if_neg hflit))

/-- What the link word of a good frame without nak leaves of the port. -/
theorem applied_port (hn : n < s.link.ports.length) (hnak : lwNak f.link = false) :
    ∃ k r c, portAt (applyLink n f.link (fecCounted n f s)) n = { portAt s n with fec := k, retryBuf := r, credits := c } := by
  obtain ⟨r, c, hport⟩ := applyLink_port n f.link (fecCounted n f s) (by rw [fecCounted_length]; exact hn) hnak
  exact ⟨_, r, c, by rw [hport, fecCounted_port f hn]⟩

theorem applied_state (hnak : lwNak f.link = false) : (applyLink n f.link (fecCounted n f s)).link.inbox = s.link.inbox ∧
    (applyLink n f.link (fecCounted n f s)).link.ports.length = s.link.ports.length ∧
    (applyLink n f.link (fecCounted n f s)).sec = s.sec ∧ (applyLink n f.link (fecCounted n f s)).img = s.img := by
  unfold applyLink
  rw [hnak]
  exact ⟨rfl, (modPort_length _ _ _).trans (fecCounted_length n f s), rfl, rfl⟩

theorem applied_touches : Touches (partSet [.link]) s (applyLink n f.link (fecCounted n f s)) :=
  applyLink_touches n _ rfl (modPort_touches n _ rfl (.refl _ s))

theorem frameReceive_outOfOrder (hn : n < s.link.ports.length) (hsilent : silent s = false) (hup : (portAt s n).state = .up)
    (heven : f.errs.1 ≤ 6) (hodd : f.errs.2 ≤ 6) (hcrc : crc24 (f.body ++ leBytes 5 (f.link.toNat % 2 ^ 40)) = lwCrc f.link)
    (hkind : lwKind f.link = 0) (hnak : lwNak f.link = false) (hseq : lwSeq f.link ≠ wantedSeq (portAt s n)) :
    ∃ t, exec (.frameReceive n f) s = .next t ∧ Only [.link] s t ∧ (portAt t n).rxLast = (portAt s n).rxLast ∧
      t.link.inbox = s.link.inbox ∧ ((portAt t n).nakOut = true ∨ (portAt s n).nakSent = true) := by
  obtain ⟨k, r, c, hport⟩ := applied_port (f := f) hn hnak
  obtain ⟨hinbox, hlength, -, -⟩ := applied_state (s := s) (n := n) hnak
  have hbad : (lwSeq f.link != wantedSeq (portAt (applyLink n f.link (fecCounted n f s)) n)) = true := by rw [hport]; exact bne_iff_ne.mpr hseq
  have hdiscard := frameDiscard_port (s := applyLink n f.link (fecCounted n f s)) (n := n) (by rw [hlength]; exact hn)
  rw [hport] at hdiscard
  refine ⟨_, (frameReceive_flitFrame hsilent hup heven hodd hcrc hkind).trans (congrArg Host.Outcome.next (if_pos hbad)),
    (frameDiscard_touches n rfl applied_touches).only, ?_, hinbox, ?_⟩
  · rw [hdiscard]
  · rw [hdiscard]
    cases hsent : (portAt s n).nakSent
    · exact .inl (Bool.or_true _)
    · exact .inr rfl

end

theorem selfNode_congr {s t : State} (h : t.img = s.img) : selfNode t = selfNode s := by unfold selfNode; rw [h]

theorem nth_past {α : Type} {l : List α} {i : Nat} {d : α} (h : l.length ≤ i) : nth l i d = d := by
  rw [nth, List.getD_eq_getElem?_getD, List.getElem?_eq_none h, Option.getD_none]

/-- A port that has taken a frame is one of the ports. -/
theorem port_exists {u : State} {n k : Nat} (h : (portAt u n).rxLast = some k) : n < u.link.ports.length := by
  rcases Nat.lt_or_ge n u.link.ports.length with hn | hn
  · exact hn
  · rw [portAt, nth_past hn] at h
    cases h

/-- An acknowledgement sent when due leaves what the port received. -/
theorem idleDue_port {u : State} {n : Nat} (hn : n < u.link.ports.length) :
    let t := if 32 ≤ (portAt u n).sinceAck then sendIdle n u else u
    (portAt t n).rxLast = (portAt u n).rxLast ∧ ((portAt u n).nakOut = false → (portAt t n).nakOut = false) ∧
      (portAt t n).nokey = (portAt u n).nokey ∧ t.link.inbox = u.link.inbox ∧ t.sec = u.sec := by
  obtain ⟨hlast, hnak, hnokey, hinbox, hsec⟩ := sendIdle_port n u hn
  dsimp only
  split
  · exact ⟨hlast, fun _ => hnak, hnokey, hinbox, hsec⟩
  · exact ⟨rfl, id, rfl, rfl, rfl⟩

/-- The port after it took a flit frame. -/
def frameTaken (n : Nat) (f : Frame) (u : State) : State :=
  modPort n (fun p => { p with rxLast := some (lwSeq f.link), sinceAck := p.sinceAck + 1, nakOut := false, nakSent := false }) u

section
variable {s : State} {n : Nat} {f : Frame}

/-- A flit that arrived, for this node or for another, leaves the receive state and the ports' number. -/
theorem arrived_rx (u : State) (m : Nat) : rxOf (when (flitDst f.body == selfNode u) (receiveFlit n f.body) u) m = rxOf u m := by
  unfold when
  split
  · exact rxOf_receiveFlit n f.body u m
  · rfl

theorem frameReceive_inOrder (hn : n < s.link.ports.length) (hsilent : silent s = false) (hup : (portAt s n).state = .up)
    (heven : f.errs.1 ≤ 6) (hodd : f.errs.2 ≤ 6) (hcrc : crc24 (f.body ++ leBytes 5 (f.link.toNat % 2 ^ 40)) = lwCrc f.link)
    (hkind : lwKind f.link = 0) (hnak : lwNak f.link = false) (hseq : lwSeq f.link = wantedSeq (portAt s n)) :
    ∃ t, exec (.frameReceive n f) s = .next t ∧ (portAt t n).rxLast = some (lwSeq f.link) ∧ (portAt t n).nakOut = false ∧
      Only [.link, .sec] s t ∧ (flitDst f.body = selfNode s → flitHops f.body = 127 → (portAt t n).nokey = sat32 ((portAt s n).nokey + 1) ∧
        t.link.inbox = s.link.inbox ∧ t.sec = s.sec) := by
  obtain ⟨k, r, c, hport⟩ := applied_port (f := f) hn hnak
  obtain ⟨hinbox, hlength, hsec, himg⟩ := applied_state (s := s) (n := n) hnak
  have hgood : ¬ (lwSeq f.link != wantedSeq (portAt (applyLink n f.link (fecCounted n f s)) n)) = true := by
    rw [hport]; simp [hseq, wantedSeq]
  refine ⟨_, (frameReceive_flitFrame hsilent hup heven hodd hcrc hkind).trans (congrArg Host.Outcome.next (if_neg hgood)), ?_⟩
  have touchedApplied := applied_touches (s := s) (n := n) (f := f)
  generalize applyLink n f.link (fecCounted n f s) = a at hport hinbox hlength hsec himg touchedApplied ⊢
  have hb : n < (frameTaken n f a).link.ports.length := by
    rw [show (frameTaken n f a).link.ports.length = a.link.ports.length from modPort_length _ _ _, hlength]; exact hn
  have hbPort : portAt (frameTaken n f a) n = { portAt a n with
      rxLast := some (lwSeq f.link), sinceAck := (portAt a n).sinceAck + 1, nakOut := false, nakSent := false } :=
    portAt_modPort a n _ (hlength ▸ hn)
  have hbRx : rxOf (frameTaken n f a) n = (some (lwSeq f.link), false, false) := by unfold rxOf; rw [hbPort]
  have hrx := (arrived_rx (n := n) (f := f) (frameTaken n f a) n).trans hbRx
  generalize hd : when (flitDst f.body == selfNode (frameTaken n f a)) (receiveFlit n f.body) (frameTaken n f a) = d at hrx
  have touched : Touches (partSet [.link, .sec]) s d := by
    rw [← hd]
    exact Touches.when _ _ (fun _ ht => receiveFlit_touches n _ rfl ht) (modPort_touches n _ rfl (touchedApplied.weaken rfl))
  have hlast : (portAt d n).rxLast = some (lwSeq f.link) := congrArg Prod.fst hrx
  have hnakOut : (portAt d n).nakOut = false := congrArg (fun x => x.2.1) hrx
  obtain ⟨hlast', hnak', hnokey', hinbox', hsec'⟩ := idleDue_port (port_exists hlast)
  have hres : (let t := frameTaken n f a
      let t := when (flitDst f.body == selfNode t) (receiveFlit n f.body) t
      if 32 ≤ (portAt t n).sinceAck then sendIdle n t else t) = if 32 ≤ (portAt d n).sinceAck then sendIdle n d else d := by
    rw [← hd]
  refine hres ▸ ⟨hlast'.trans hlast, hnak' hnakOut, (Touches.ite (sendIdle_touches n rfl touched) touched).only, fun hdst hhops => ?_⟩
  have hmine : (flitDst f.body == selfNode (frameTaken n f a)) = true := by
    rw [show selfNode (frameTaken n f a) = selfNode s from selfNode_congr himg, hdst]
    exact beq_self_eq_true _
  obtain ⟨hcount, hsame, hkeys⟩ := receiveFlit_lastHop n f.body (frameTaken n f a) hb hhops
  have hd' : d = receiveFlit n f.body (frameTaken n f a) := by rw [← hd, hmine]; rfl
  refine ⟨?_, ?_, ?_⟩
  · rw [hnokey', hd', hcount, hbPort, hport]
  · rw [hinbox', hd', hsame]; exact hinbox
  · rw [hsec', hd', hkeys]; exact hsec

end


/-- A credit owed changes what a port owes and nothing a route reads. -/
theorem oweCredit_port (s : State) (n c m : Nat) : ∃ o, portAt (oweCredit n c s) m = { portAt s m with owed := o } := by
  by_cases hm : m = n
  · subst hm
    by_cases hin : m < s.link.ports.length
    · exact ⟨_, portAt_modPort s m _ hin⟩
    · have hlen : (oweCredit m c s).link.ports.length ≤ m := by
        rw [show (oweCredit m c s).link.ports.length = s.link.ports.length from modPort_length _ _ _]; exact Nat.not_lt.mp hin
      refine ⟨(portAt s m).owed, ?_⟩
      rw [portAt, portAt, nth_past hlen, nth_past (Nat.not_lt.mp hin)]
  · exact ⟨(portAt s m).owed, portAt_modPort_ne s _ hm⟩

theorem oweCredit_owed {s : State} {n : Nat} (c : Nat) (hn : n < s.link.ports.length) :
    (portAt (oweCredit n c s) n).owed = lmod (portAt s n).owed c (fun k => k + 1) := congrArg Port.owed (portAt_modPort s n _ hn)

theorem oweCredit_torusPort (s : State) (n c : Nat) (dd : Nat × Bool) : torusPort (oweCredit n c s) dd = torusPort s dd := by
  unfold torusPort
  congr 1
  funext m
  obtain ⟨o, hport⟩ := oweCredit_port s n c m
  unfold portAt at hport
  rw [hport]

theorem oweCredit_portDead (s : State) (n c m : Nat) : portDead (oweCredit n c s) m = portDead s m := by
  obtain ⟨o, hport⟩ := oweCredit_port s n c m
  unfold portAt at hport
  unfold portDead
  rw [hport]

theorem oweCredit_crosses (s : State) (n c m : Nat) : crosses (oweCredit n c s) m = crosses s m := by
  obtain ⟨o, hport⟩ := oweCredit_port s n c m
  unfold portAt at hport
  unfold crosses
  rw [hport]
  rfl

section
variable {s : State} {n : Nat} {flit : List Byte}

theorem flitForward_discards (hn : n < s.link.ports.length) (hsilent : silent s = false) (hdst : flitDst flit ≠ selfNode s)
    (hlast : (portAt s n).torus = false ∨ flitHops flit = 127) : ∃ t, exec (.flitForward n flit) s = .next t ∧
    (∀ m, m ≠ n → portAt t m = portAt s m) ∧ (portAt t n).nokey = sat32 ((portAt s n).nokey + 1) ∧
    (portAt t n).queues = (portAt s n).queues ∧ Only [.link] s t := by
  have hgo : ¬ (flitDst flit == selfNode s || silent s) = true := by simp [hdst, hsilent]
  have hdrop : (!(portAt s n).torus || flitHops flit == 127) = true := by rcases hlast with h | h <;> simp [h]
  have hport : portAt (countNokey n (oweCredit n (flitClass flit) s)) n = { portAt (oweCredit n (flitClass flit) s) n with
      nokey := sat32 ((portAt (oweCredit n (flitClass flit) s) n).nokey + 1) } :=
    portAt_modPort _ n _ ((modPort_length s n _).symm ▸ hn)
  obtain ⟨o, howed⟩ := oweCredit_port s n (flitClass flit) n
  rw [howed] at hport
  refine ⟨_, congrArg Host.Outcome.next ((if_neg hgo).trans (if_pos hdrop)), fun m hm => ?_, ?_, ?_,
    (countNokey_touches n rfl (oweCredit_touches n _ rfl (.refl _ s))).only⟩
  · exact (portAt_modPort_ne _ _ hm).trans (portAt_modPort_ne s _ hm)
  · rw [hport]
  · rw [hport]

/-- The sub-channel a forwarded flit goes in by port `m` (R107). -/
def subChannel (s : State) (n m : Nat) (flit : List Byte) : Nat :=
  if crosses s m || ((portAt s m).dim == (portAt s n).dim && flitSub flit == 1) then 1 else 0

theorem flitForward_forwards {m : Nat} (hn : n < s.link.ports.length) (hsilent : silent s = false) (hdst : flitDst flit ≠ selfNode s)
    (htorus : (portAt s n).torus = true) (hhops : flitHops flit ≠ 127) (hin : inTorus s (flitDst flit) = true)
    (hroute : (routeDim s (flitDst flit)).bind (torusPort s) = some m) (hlive : portDead s m = false) (hm : m < s.link.ports.length)
    (hdetour : (flitSrc flit, flitDst flit, flitVc flit) ∉ s.link.detour) : ∃ t, exec (.flitForward n flit) s = .next t ∧
      (portAt t m).queues = lmod (portAt s m).queues (4 + 4 * subChannel s n m flit + flitVc flit)
        (fun q => q ++ [withHop (subChannel s n m flit) (flitHops flit + 1) flit]) ∧
      (portAt t n).owed = lmod (portAt s n).owed (flitClass flit) (fun k => k + 1) ∧ t.link.detour = s.link.detour ∧ Only [.link] s t := by
  have hgo : ¬ (flitDst flit == selfNode s || silent s) = true := by simp [hdst, hsilent]
  have hkeep : ¬ (!(portAt s n).torus || flitHops flit == 127) = true := by simp [htorus, hhops]
  have howed := oweCredit_owed (flitClass flit) hn
  obtain ⟨o, hother⟩ := oweCredit_port s n (flitClass flit) m
  have htouched : Touches (partSet [.link]) s (oweCredit n (flitClass flit) s) := oweCredit_touches n _ rfl (.refl _ s)
  have hdead := oweCredit_portDead s n (flitClass flit) m
  have hcross := oweCredit_crosses s n (flitClass flit) m
  have htarget : (if inTorus (oweCredit n (flitClass flit) s) (flitDst flit) then
      (routeDim (oweCredit n (flitClass flit) s) (flitDst flit)).bind (torusPort (oweCredit n (flitClass flit) s)) else none) = some m := by
    rw [show torusPort (oweCredit n (flitClass flit) s) = torusPort s from funext (oweCredit_torusPort s n _)]
    exact (if_pos hin).trans hroute
  have hlength : (oweCredit n (flitClass flit) s).link.ports.length = s.link.ports.length := modPort_length _ _ _
  have hexec : exec (.flitForward n flit) s = .next (pushFlits m (4 + 4 * subChannel s n m flit + flitVc flit)
      [withHop (subChannel s n m flit) (flitHops flit + 1) flit] (oweCredit n (flitClass flit) s)) := by
    refine congrArg Host.Outcome.next ((if_neg hgo).trans ((if_neg hkeep).trans ?_))
    dsimp only
    rw [htarget]
    dsimp only
    rw [if_neg (by rw [hdead, hlive, show (oweCredit n (flitClass flit) s).link.detour = s.link.detour from rfl]; simpa using hdetour),
      hcross, hother]
    rfl
  refine ⟨_, hexec, ?_, ?_, rfl, (pushFlits_touches m _ _ rfl htouched).only⟩
  · refine (congrArg Port.queues (portAt_modPort (oweCredit n (flitClass flit) s) m _ (hlength.symm ▸ hm))).trans ?_
    rw [hother]
  · by_cases h : n = m
    · subst h
      exact (congrArg Port.owed (portAt_modPort (oweCredit n (flitClass flit) s) n _ (hlength.symm ▸ hn))).trans howed
    · exact (congrArg Port.owed (portAt_modPort_ne (oweCredit n (flitClass flit) s) _ h)).trans howed

end

/-- Silent ports take nothing (R21). -/
theorem silent_ports {s : State} {n : Nat} (hsilent : silent s = true) (f : Frame) (flit : List Byte) :
    exec (.frameReceive n f) s = .next s ∧ exec (.flitForward n flit) s = .next s :=
  ⟨congrArg Host.Outcome.next (if_pos (by rw [hsilent, Bool.or_true])), congrArg Host.Outcome.next (if_pos (by rw [hsilent, Bool.or_true]))⟩

/-- Settles O16: a frame is checked, then numbered, then its flit is taken; a flit for another node is forwarded or discarded. -/
theorem framesAndFlits : Obligations.FramesAndFlits := by
  unfold Obligations.FramesAndFlits
  intro s n hn
  refine ⟨silent_ports, fun hsilent f hup herr => ?_, fun hsilent f hup heven hodd hcrc => ?_, fun hsilent f => frameReceive_outOfOrder hn hsilent,
    fun hsilent f => frameReceive_inOrder hn hsilent, fun hsilent flit => flitForward_discards hn hsilent,
    fun hsilent flit m hdst htorus hhops hin hroute hlive hm hdetour => ?_⟩
  · exact ⟨_, frameReceive_uncorrectable hsilent hup herr, frameDiscard_others, frameDiscard_port hn,
      (frameDiscard_touches n rfl (.refl _ s)).only⟩
  · have hdiscard := frameDiscard_port (s := fecCounted n f s) (n := n) (by rw [fecCounted_length]; exact hn)
    rw [fecCounted_port f hn] at hdiscard
    exact ⟨_, frameReceive_badCrc hsilent hup heven hodd hcrc,
      fun m hm => (frameDiscard_others m hm).trans (portAt_modPort_ne s _ hm),
      (frameDiscard_touches n rfl (modPort_touches n _ rfl (.refl _ s))).only, hdiscard⟩
  · have hsub : subChannel s n m flit =
        if crosses s m = true ∨ ((portAt s m).dim = (portAt s n).dim ∧ flitSub flit = 1) then 1 else 0 := by simp [subChannel]
    rw [← hsub]
    exact flitForward_forwards hn hsilent hdst htorus hhops hin hroute hlive hm hdetour

end Sys2Proof.Machine
end

section
/-! SUPPORT. Doorbells (04 R117, R118). -/

namespace Sys2Proof.Machine

open Sys2Proof

/-- A ring that is enabled has been set up. -/
theorem mget_of_enable {s : State} {n : Nat} (h : (ringOf s n).enable = true) : mget s.rng.rings n = some (ringOf s n) := by
  unfold ringOf mgetD at *
  cases hget : mget s.rng.rings n with
  | none => rw [hget] at h; cases h
  | some r => rfl

theorem ringOf_congr {s t : State} (h : t.rng = s.rng) (n : Nat) : ringOf t n = ringOf s n := by unfold ringOf; rw [h]

/-- The ring once a doorbell's entries are in their slots. -/
theorem acceptEntries_ring {s : State} {n : Nat} (cqHead : Nat) (raws : List (List Byte)) (h : mget s.rng.rings n = some (ringOf s n)) :
    ringOf (acceptEntries n cqHead raws s) n = { ringOf s n with
      entries := (ringOf s n).entries ++ entriesOf (stamp s) (ringOf s n).taken raws
      sqTail := (ringOf s n).sqTail + BitVec.ofNat 16 raws.length, cqHead := BitVec.ofNat 16 cqHead
      submitted := (ringOf s n).submitted + raws.length, taken := (ringOf s n).taken + raws.length } := ringOf_modRing _ h

theorem sqOf_refuseEntry (s : State) (m i n : Nat) : sqOf (refuseEntry m i s) n = sqOf s n :=
  (sqOf_endEntry _ m i _ 0 n).trans (sqOf_markStarted s m i n)

theorem sqOf_entryTaken (s : State) (m i n : Nat) : sqOf (entryTaken m i s) n = sqOf s n :=
  (sqOf_requestOperands _ m i n).trans (sqOf_checkRevoke s m i n)

/-- A slice settled or contexts woken leave the rings. -/
theorem settleSlice_rng (p : Nat) (s : State) : (settleSlice p s).rng = s.rng :=
  (settleSlice_touches (μ := partSet [.attn, .sch]) p rfl (.refl _ s)).rng.resolve_left (by decide)

theorem wakeContexts_rng (before : List Nat) (s : State) : (wakeContexts before s).rng = s.rng :=
  (wakeContexts_touches (μ := partSet [.sch]) before rfl (.refl _ s)).rng.resolve_left (by decide)

/-- The state in which a doorbell's entries are accepted. -/
def accepted (n cqHead : Nat) (raws : List (List Byte)) (s : State) : State :=
  acceptEntries n cqHead raws (settleSlice (ctxOf s (ringOf s n).context).part s)

theorem accepted_ring {s : State} {n : Nat} (cqHead : Nat) (raws : List (List Byte)) (h : mget s.rng.rings n = some (ringOf s n)) :
    ∃ at_, ringOf (accepted n cqHead raws s) n = { ringOf s n with
      entries := (ringOf s n).entries ++ entriesOf at_ (ringOf s n).taken raws
      sqTail := (ringOf s n).sqTail + BitVec.ofNat 16 raws.length, cqHead := BitVec.ofNat 16 cqHead
      submitted := (ringOf s n).submitted + raws.length, taken := (ringOf s n).taken + raws.length } := by
  have hrng := settleSlice_rng (ctxOf s (ringOf s n).context).part s
  have hring := acceptEntries_ring (s := settleSlice (ctxOf s (ringOf s n).context).part s) cqHead raws
    (by rw [hrng, ringOf_congr hrng n]; exact h)
  rw [ringOf_congr hrng n] at hring
  exact ⟨_, hring⟩

theorem takeDoorbell_sqOf (n cqHead : Nat) (raws : List (List Byte)) (s : State) :
    sqOf (takeDoorbell n cqHead raws s) n = sqOf (accepted n cqHead raws s) n := by
  unfold takeDoorbell
  dsimp only
  split
  · exact forEach_inv (fun u => sqOf u n = sqOf (accepted n cqHead raws s) n) (fun e u h => (sqOf_refuseEntry u n e.idx n).trans h) _ rfl
  · exact (sqOf_congr (settleSlice_rng _ _) n).trans (forEach_inv (fun u => sqOf u n = sqOf (accepted n cqHead raws s) n)
      (fun e u h => (sqOf_entryTaken u n e.idx n).trans h) _ (sqOf_congr (wakeContexts_rng _ _) n))

/-- No entry of the ring with a new entry's number is an EXT_REVOKE. -/
theorem noRevoke_of_new {r : Ring} (hring : RingOk r) {raws : List (List Byte)} (hraws : ∀ b ∈ raws, eOpcode b ≠ opExtRevoke) {at_ : Nat}
    {e : Entry} (he : e ∈ entriesOf at_ r.taken raws) {x : Nat × List Byte}
    (hx : x ∈ (r.entries ++ entriesOf at_ r.taken raws).map fun e => (e.idx, e.raw)) (hidx : x.1 = e.idx) : eOpcode x.2 ≠ opExtRevoke := by
  obtain ⟨y, hy, rfl⟩ := List.mem_map.mp hx
  have hnew : r.taken ≤ e.idx := by
    have hmem : e.idx ∈ (entriesOf at_ r.taken raws).map (·.idx) := List.mem_map.mpr ⟨e, he, rfl⟩
    rw [entriesOf_idx] at hmem
    exact (List.mem_range'_1.mp hmem).1
  rcases List.mem_append.mp hy with h | h
  · exact absurd (hring.2 y h) (by dsimp only at hidx; omega)
  · exact hraws _ (entriesOf_raw h)

/-- A device that serves keeps the numbers and bytes of every entry as its entries are taken. -/
theorem takeDoorbell_idRaw {n cqHead : Nat} {raws : List (List Byte)} {s : State} (hserving : serving s = true)
    (hget : mget s.rng.rings n = some (ringOf s n)) (hring : RingOk (ringOf s n)) (hraws : ∀ b ∈ raws, eOpcode b ≠ opExtRevoke) :
    idRaw (takeDoorbell n cqHead raws s) n = idRaw (accepted n cqHead raws s) n := by
  have hrng := settleSlice_rng (ctxOf s (ringOf s n).context).part s
  have touched : Touches (partSet [.attn, .sch, .rng]) s (accepted n cqHead raws s) :=
    acceptEntries_touches n cqHead raws rfl (settleSlice_touches _ rfl (.refl _ s))
  have hserves : ¬ (!serving (accepted n cqHead raws s)) = true := by
    unfold serving at hserving ⊢
    rw [touched.pins.resolve_left (by decide), touched.resp.resolve_left (by decide), hserving]
    decide
  have hentries : idRaw (accepted n cqHead raws s) n = ((ringOf s n).entries ++
      entriesOf (stamp (settleSlice (ctxOf s (ringOf s n).context).part s)) (ringOf s n).taken raws).map fun e => (e.idx, e.raw) := by
    have hring := acceptEntries_ring (s := settleSlice (ctxOf s (ringOf s n).context).part s) cqHead raws
      (by rw [hrng, ringOf_congr hrng n]; exact hget)
    rw [ringOf_congr hrng n] at hring
    exact congrArg (fun r : Ring => r.entries.map fun e => (e.idx, e.raw)) hring
  unfold takeDoorbell
  refine Eq.trans (congrArg (idRaw · n) (if_neg hserves)) ?_
  refine (idRaw_congr (settleSlice_rng _ _) n).trans ?_
  refine forEach_mem_inv (fun u => idRaw u n = idRaw (accepted n cqHead raws s) n) (fun e he u h => ?_) _ (idRaw_congr (wakeContexts_rng _ _) n)
  rw [ringOf_congr hrng n] at he
  have hother : checkRevoke n e.idx u = u := checkRevoke_other u n e.idx fun y hy =>
    noRevoke_of_new hring hraws he (x := (y.idx, y.raw)) (hentries ▸ h ▸ List.mem_map.mpr ⟨y, hy.1, rfl⟩) hy.2
  unfold entryTaken
  rw [idRaw_requestOperands, hother]
  exact h

theorem doorbell_accepted {s : State} {h : Hdr} {n first cqHead count : Nat} {raws : List (List Byte)} (htakes : takes h s = true)
    (hok : doorbellOk h n first count raws s = true) (hring : RingOk (ringOf s n)) :
    ∃ t, exec (.doorbell h n first cqHead count raws) s = .next t ∧
    (ringOf t n).sqTail = (ringOf s n).sqTail + BitVec.ofNat 16 count ∧ (ringOf t n).cqHead = BitVec.ofNat 16 cqHead ∧
    (ringOf t n).submitted = (ringOf s n).submitted + count ∧ (ringOf t n).taken = (ringOf s n).taken + count ∧
    (ringOf t n).cqTail = (ringOf s n).cqTail ∧
    (serving s = true → (∀ b ∈ raws, eOpcode b ≠ opExtRevoke) →
      (ringOf t n).entries.map (·.raw) = (ringOf s n).entries.map (·.raw) ++ raws) := by
  have hok' : doorbellOk h n first count raws (took h mtDoorbell s) = true := hok
  have hcount : raws.length = count := by
    simp only [doorbellOk, Bool.and_eq_true, beq_iff_eq] at hok
    exact hok.1.1.1.2
  have henable : (ringOf s n).enable = true := by
    simp only [doorbellOk, Bool.and_eq_true] at hok
    exact hok.1.1.1.1.1.1.1.1
  have hget : mget (took h mtDoorbell s).rng.rings n = some (ringOf (took h mtDoorbell s) n) := mget_of_enable henable
  obtain ⟨at_, haccepted⟩ := accepted_ring cqHead raws hget
  have hsq := takeDoorbell_sqOf n cqHead raws (took h mtDoorbell s)
  unfold sqOf at hsq
  rw [haccepted, hcount] at hsq
  obtain ⟨htail, hhead, hcqTail, hsubmitted, htaken⟩ : _ ∧ _ ∧ _ ∧ _ ∧ _ := by simpa only [Prod.mk.injEq] using hsq
  refine ⟨takeDoorbell n cqHead raws (took h mtDoorbell s), ?_, htail, hhead, hsubmitted, htaken, hcqTail, fun hserving hraws => ?_⟩
  · show execDoorbell h n first cqHead count raws s = _
    rw [execDoorbell, takeMsg_takes _ _ _ _ htakes, hok']
    rfl
  · have hid := congrArg (List.map Prod.snd) (takeDoorbell_idRaw (cqHead := cqHead) (s := took h mtDoorbell s) hserving hget hring hraws)
    unfold idRaw at hid
    rw [haccepted, List.map_map, List.map_map, List.map_append] at hid
    refine hid.trans (congrArg _ (entriesOf_raws at_ _ raws))

theorem doorbell_discarded {s : State} {h : Hdr} {n first cqHead count : Nat} {raws : List (List Byte)} (htakes : takes h s = true)
    (hbad : doorbellOk h n first count raws s = false) : ∃ t, exec (.doorbell h n first cqHead count raws) s = .next t ∧
    t.rng = { s.rng with discards := sat32 (s.rng.discards + 1) } ∧ Only [.link, .rng, .bbx] s t := by
  have hbad' : doorbellOk h n first count raws (took h mtDoorbell s) = false := hbad
  generalize hu : (took h mtDoorbell s).modRng (fun r => { r with discards := sat32 (r.discards + 1) }) = u
  have hrng : u.rng = { s.rng with discards := sat32 (s.rng.discards + 1) } := by rw [← hu]; rfl
  have touched : Touches (partSet [.link, .rng, .bbx]) s u := by
    rw [← hu]
    exact Touches.modRng _ (fun _ h => h) rfl (Touches.modLink _ rfl (.refl _ s))
  refine ⟨emit 0 0 evDoorbell [n, h.src] u, ?_, ?_, (emit_touches 0 0 _ _ rfl touched).only⟩
  · show execDoorbell h n first cqHead count raws s = _
    rw [execDoorbell, takeMsg_takes _ _ _ _ htakes, hbad', ← hu]
    rfl
  · rw [(emit_touches (μ := partSet [.bbx]) 0 0 evDoorbell [n, h.src] rfl (.refl _ u)).rng.resolve_left (by decide)]
    exact hrng

/-- Settles O19: the entries of an accepted doorbell stand behind those before; a discarded one is counted. -/
theorem doorbellsAreAccepted : Obligations.DoorbellsAreAccepted := by
  unfold Obligations.DoorbellsAreAccepted
  intro s h n first cqHead count raws htakes
  exact ⟨doorbell_accepted htakes, doorbell_discarded htakes⟩

end Sys2Proof.Machine
end

section
/-! SUPPORT. Reads of the requester's memory, TILE_WRITEs and unknown op-codes (04 R119, R122; 07 R238; 15 R445, R462). -/

namespace Sys2Proof.Machine

open Sys2Proof

theorem ringDrainDone_disables {s : State} {n : Nat} (henable : (ringOf s n).enable = true) (hdrain : (ringOf s n).drain = true)
    (hentries : (ringOf s n).entries = []) (hready : (ringOf s n).ready = []) : ∃ t, exec (.ringDrainDone n) s = .next t ∧
    ringOf t n = { ringOf s n with enable := false, drain := false, charged := 0 } ∧ Only [.hbm, .rng] s t := by
  have hgo : ((ringOf s n).enable && (ringOf s n).drain && (ringOf s n).entries.isEmpty && (ringOf s n).ready.isEmpty) = true := by
    rw [henable, hdrain, hentries, hready]; rfl
  refine ⟨_, congrArg Host.Outcome.next (if_pos hgo), ?_, exec_only (.ringDrainDone n) (congrArg Host.Outcome.next (if_pos hgo))⟩
  rw [ringOf_congr ((uncharge_touches (μ := partSet [.hbm]) _ 1 _ rfl (.refl _ _)).rng.resolve_left (by decide)) n]
  exact ringOf_modRing _ (mget_of_enable henable)

theorem unknownOp_ends {s : State} {n : Nat} {e : Entry} {a : Ans} (hring : RingOk (ringOf s n)) (hstart : startable s n = some e)
    (hunknown : opKnown (eOpcode e.raw) = false) (hcheck : preCheck s n e = .fail a) :
    ∃ t, exec (.unknownOp n) s = .next t ∧ Ended n e a s t := by
  refine ⟨endNow n e a (markStarted n e.idx s), ?_, endNow_ended a (startable_mem hstart).1 hring⟩
  show execUnknownOp n s = _
  rw [execUnknownOp, hstart]
  dsimp only
  rw [if_neg (by simp [hunknown]), hcheck]

/-- The check of the op-code is the first that an unknown one fails, in an enabled context with a cluster (log 13). -/
theorem preCheck_unknown {s : State} {n : Nat} {e : Entry} (hunknown : opKnown (eOpcode e.raw) = false)
    (henable : (ctxOf s (ringOf s n).context).enable = true) (hclusters : clustersFor s (ringOf s n).context ≠ [])
    (hcontext : eContext e.raw = (ringOf s n).context) : preCheck s n e = .fail (internal 0x02) := by
  have hempty : (clustersFor s (ringOf s n).context).isEmpty = false := List.isEmpty_eq_false_iff.mpr hclusters
  simp [preCheck, henable, hempty, hcontext, hunknown]

section
variable {s : State} {h : Hdr} {r : ReqRead} {n i : Nat} {bytes : List Byte}

/-- Bytes that complete a read of operands are delivered to their entry. -/
theorem readArrived_last {u : State} {tag : Nat} (hget : mget u.io.reads tag = some r) (hfor : r.for_ = .operands n i)
    (hall : r.len ≤ (r.got ++ bytes.take (readLen r)).length) : readArrived tag bytes u =
      modRing n (fun q => { q with entries := q.entries.map fun e =>
        if e.idx == i then { e with operands := some (r.got ++ bytes.take (readLen r)) } else e })
        (u.modIo fun x => { x with reads := mdel x.reads tag }) := by
  unfold readArrived
  rw [hget]
  refine (if_pos hall).trans ?_
  dsimp only
  rw [hfor]
  rfl

/-- Bytes that do not complete a read ask for the rest of it. -/
theorem readArrived_more {u : State} {tag : Nat} (hget : mget u.io.reads tag = some r)
    (hmore : (r.got ++ bytes.take (readLen r)).length < r.len) : readArrived tag bytes u =
      sendRead tag (u.modIo fun x => { x with reads := mset x.reads tag { r with got := r.got ++ bytes.take (readLen r), resends := 0 } }) := by
  unfold readArrived
  rw [hget]
  exact if_neg (Nat.not_le.mpr hmore)

theorem sendRead_io (tag : Nat) (s : State) : (sendRead tag s).io = s.io :=
  (sendRead_touches (μ := partSet [.link, .sec]) tag rfl (.refl _ s)).io.resolve_left (by decide)

theorem sendRead_rng (tag : Nat) (s : State) : (sendRead tag s).rng = s.rng :=
  (sendRead_touches (μ := partSet [.link, .sec]) tag rfl (.refl _ s)).rng.resolve_left (by decide)

/-- A change of the entry of number `i` in a ring. -/
theorem entries_changed (u : State) (n i : Nat) (f : Entry → Entry) :
    (ringOf (modRing n (fun q => { q with entries := q.entries.map fun e => if e.idx == i then f e else e }) u) n).entries =
      (ringOf u n).entries.map fun e => if e.idx = i then f e else e :=
  (entries_modRing u n _).trans (map_entry_eq _ i f)

theorem data_reads (htakes : takes h s = true) (hread : readFor h s = some r) (poison : Bool) : exec (.data h poison bytes) s = .next
    (goOn r.for_ (if poison then readFailed h.tag (took h mtData s) else readArrived h.tag bytes (took h mtData s))) := by
  show execData h poison bytes s = _
  rw [execData, takeMsg_takes _ _ _ _ htakes, show readFor h (took h mtData s) = some r from hread]

theorem nak_reads (htakes : takes h s = true) (hread : readFor h s = some r) (status : Nat) :
    exec (.nak h status) s = .next (goOn r.for_ (readFailed h.tag (took h mtNak s))) := by
  show execNak h status s = _
  rw [execNak, takeMsg_takes _ _ _ _ htakes, show readFor h (took h mtNak s) = some r from hread]

theorem operandsRead_answers (htakes : takes h s = true) (hread : readFor h s = some r) (hfor : r.for_ = .operands n i) (poison : Bool) :
    let got := r.got ++ bytes.take (readLen r)
    let entry := fun (t : State) (f : Entry → Entry) => (ringOf t n).entries = (ringOf s n).entries.map fun e => if e.idx = i then f e else e
    (poison = false → r.len ≤ got.length → ∃ t, exec (.data h poison bytes) s = .next t ∧ t.io.reads = mdel s.io.reads h.tag ∧
      entry t (fun e => { e with operands := some got })) ∧
    (poison = false → got.length < r.len → ∃ t, exec (.data h poison bytes) s = .next t ∧ t.rng = s.rng ∧
      mget t.io.reads h.tag = some { r with got := got, resends := 0 } ∧ ∃ u, t = sendRead h.tag u) ∧
    (poison = true → ∃ t, exec (.data h poison bytes) s = .next t ∧ t.io.reads = mdel s.io.reads h.tag ∧ entry t (fun e => { e with readFailed := true })) ∧
    (∀ status, ∃ t, exec (.nak h status) s = .next t ∧ t.io.reads = mdel s.io.reads h.tag ∧ entry t (fun e => { e with readFailed := true })) := by
  have hget := readFor_get hread
  have hdata := data_reads (bytes := bytes) htakes hread poison
  rw [hfor] at hdata
  refine ⟨fun hclean hall => ?_, fun hclean hmore => ?_, fun hpoison => ?_, fun status => ?_⟩
  · rw [hclean] at hdata ⊢
    refine ⟨_, hdata.trans (congrArg Host.Outcome.next (readArrived_last (u := took h mtData s) hget hfor hall)), rfl, ?_⟩
    exact entries_changed _ n i fun e => { e with operands := some (r.got ++ bytes.take (readLen r)) }
  · rw [hclean] at hdata ⊢
    refine ⟨_, hdata.trans (congrArg Host.Outcome.next (readArrived_more (u := took h mtData s) hget hmore)), ?_, ?_, _, rfl⟩
    · rw [sendRead_rng]; rfl
    · rw [sendRead_io]; exact mget_mset _ _ _
  · rw [hpoison] at hdata ⊢
    refine ⟨_, hdata.trans (congrArg Host.Outcome.next (readFailed_operands (took h mtData s) h.tag hget hfor)), rfl, ?_⟩
    exact entries_changed _ n i fun e => { e with readFailed := true }
  · have hnak := nak_reads htakes hread status
    rw [hfor] at hnak
    refine ⟨_, hnak.trans (congrArg Host.Outcome.next (readFailed_operands (took h mtNak s) h.tag hget hfor)), rfl, ?_⟩
    exact entries_changed _ n i fun e => { e with readFailed := true }

end

section
variable {s : State} {tag : Nat}

theorem requesterReadTimeout_resends {r : ReqRead} (hget : mget s.io.reads tag = some r) (hfew : r.resends < 3) :
    ∃ t, exec (.requesterReadTimeout tag) s = .next t ∧ mget t.io.reads tag = some { r with resends := r.resends + 1 } ∧
      t.rng = s.rng ∧ Only [.link, .io, .sec] s t := by
  refine ⟨sendRead tag (s.modIo fun x => { x with reads := mset x.reads tag { r with resends := r.resends + 1 } }), ?_, ?_, ?_,
    (sendRead_touches tag rfl (Touches.modIo _ rfl (.refl _ s))).only⟩
  · show execRequesterReadTimeout tag s = _
    rw [execRequesterReadTimeout, hget]
    exact congrArg Host.Outcome.next (if_neg (Nat.not_le.mpr hfew))
  · rw [sendRead_io]; exact mget_mset _ _ _
  · rw [sendRead_rng]; rfl

theorem requesterReadTimeout_fails {r : ReqRead} {n i : Nat} (hget : mget s.io.reads tag = some r) (hmany : 3 ≤ r.resends)
    (hfor : r.for_ = .operands n i) : ∃ t, exec (.requesterReadTimeout tag) s = .next t ∧ t.io.reads = mdel s.io.reads tag ∧
      (ringOf t n).entries = (ringOf s n).entries.map fun e => if e.idx = i then { e with readFailed := true } else e := by
  refine ⟨readFailed tag s, ?_, ?_, ?_⟩
  · show execRequesterReadTimeout tag s = _
    rw [execRequesterReadTimeout, hget]
    refine (congrArg Host.Outcome.next (if_pos hmany)).trans ?_
    rw [hfor]
    rfl
  · rw [readFailed_operands s tag hget hfor]; rfl
  · rw [readFailed_operands s tag hget hfor]; exact entries_changed _ n i fun e => { e with readFailed := true }

theorem ack_resolves {h : Hdr} {x : TileMsg} (htakes : takes h s = true) (hget : mget s.io.tiles h.tag = some x) (hdst : x.dst = h.src)
    (hkey : x.key = h.key) : exec (.ack h) s =
      .next (settleTiles x.op (ackTile x ((took h mtAck s).modIo fun y => { y with tiles := mdel y.tiles h.tag }))) := by
  have hget' : mget (took h mtAck s).io.tiles h.tag = some x := hget
  have hmine : (x.dst == h.src && x.key == h.key) = true := by rw [hdst, hkey]; simp
  show execAck h s = _
  rw [execAck, takeMsg_takes _ _ _ _ htakes, hget']
  dsimp only
  rw [if_pos hmine, tileResolved, hget']
  rfl

/-- A TILE_WRITE sent once more, with the count of its last flit noted. -/
theorem tileAckTimeout_resends {x : TileMsg} (hget : mget s.io.tiles tag = some x) (hfew : x.resends < 3) :
    ∃ t last, exec (.tileAckTimeout tag) s = .next t ∧ mget t.io.tiles tag = some { x with resends := x.resends + 1, last := last } ∧
      t.attn.tilesResent = sat32 (s.attn.tilesResent + 1) ∧ Only [.link, .io, .attn, .sec] s t := by
  generalize hu : (s.modIo fun y => { y with tiles := mset y.tiles tag { x with resends := x.resends + 1 } }).modAttn
    (fun y => { y with tilesResent := sat32 (y.tilesResent + 1) }) = u
  have hioU : mget u.io.tiles tag = some { x with resends := x.resends + 1 } := by rw [← hu]; exact mget_mset _ _ _
  have hattnU : u.attn.tilesResent = sat32 (s.attn.tilesResent + 1) := by rw [← hu]; rfl
  have touchedU : Touches (partSet [.link, .io, .attn, .sec]) s u := by
    rw [← hu]
    exact Touches.modAttn _ rfl (Touches.modIo _ rfl (.refl _ s))
  generalize hv : sendVia (resendPort u x.dst 2 (x.resends + 1))
    { typ := mtTileWrite, vc := 2, dst := x.dst, key := x.key, tag := tag, addr := x.addr, body := x.bytes } u = v
  have touchedV : Touches (partSet [.link, .sec]) u v := by rw [← hv]; exact sendVia_touches _ _ rfl (.refl _ u)
  have hexec : exec (.tileAckTimeout tag) s = .next (noteLast tag x.key v) := by
    show execTileAckTimeout tag s = _
    rw [execTileAckTimeout, hget, ← hv, ← hu]
    exact congrArg Host.Outcome.next (if_neg (Nat.not_le.mpr hfew))
  have hioV : mget v.io.tiles tag = some { x with resends := x.resends + 1 } := by
    rw [touchedV.io.resolve_left (by decide)]; exact hioU
  refine ⟨noteLast tag x.key v, (mget v.sec.keys x.key).map fun k => (k.sent - 1) % 2 ^ 24, hexec, ?_, ?_, ?_⟩
  · unfold noteLast
    simp only [State.modIo_parts]
    rw [mget_mmod, hioV]
    rfl
  · exact (congrArg Attn.tilesResent (touchedV.attn.resolve_left (by decide)) :).trans hattnU
  · refine (noteLast_touches tag x.key rfl ?_).only
    rw [← hv]
    exact sendVia_touches _ _ rfl touchedU

theorem tileAckTimeout_givesUp {x : TileMsg} (hget : mget s.io.tiles tag = some x) (hmany : 3 ≤ x.resends) :
    exec (.tileAckTimeout tag) s = .next (settleTiles x.op (loseTile x (s.modIo fun y => { y with tiles := mdel y.tiles tag }))) := by
  show execTileAckTimeout tag s = _
  rw [execTileAckTimeout, hget]
  refine (congrArg Host.Outcome.next (if_pos hmany)).trans ?_
  rw [tileResolved, hget]
  rfl

end

/-- Settles O21: each answer and each timeout of a read or a TILE_WRITE is taken in turn. -/
theorem requesterReadsAndTileWrites : Obligations.RequesterReadsAndTileWrites := by
  unfold Obligations.RequesterReadsAndTileWrites
  intro s h n
  exact ⟨ringDrainDone_disables, fun e a => unknownOp_ends, fun e _ => preCheck_unknown,
    fun r n i poison bytes htakes hread hfor => operandsRead_answers htakes hread hfor poison,
    fun tag r hget => ⟨requesterReadTimeout_resends hget, fun n i => requesterReadTimeout_fails hget⟩, fun x => ack_resolves,
    fun tag x hget => ⟨tileAckTimeout_resends hget, tileAckTimeout_givesUp hget⟩⟩

end Sys2Proof.Machine
end

section
/-! SUPPORT. The ring registers (04 R116, R122, R123). -/

namespace Sys2Proof.Machine

open Sys2Proof

/-- The operator may set up a ring pair of every context there is. -/
theorem mayRing_operator (s : State) (ctx : Nat) : mayRing s .operator ctx = mhas s.sch.ctxs ctx := rfl

section
variable {s : State} {path : Path}

/-- An operator's command of a ring register reaches it. -/
theorem rngWriteEntry_operator (hop : operates path 0x30004 s = true) (hfree : s.rng.busy = false) :
    exec (.rngWriteEntry path) s = .next (ringWrite .operator s) := by
  obtain ⟨hserved, hparty⟩ := operates_access hop (ringWriteCmd path)
  show execRngWriteEntry path s = _
  rw [execRngWriteEntry, hserved, ringWriteCmd, hfree, isOperator_eq hparty]
  rfl

theorem rngReadEntry_operator (hop : operates path 0x30004 s = true) (hfree : s.rng.busy = false) :
    exec (.rngReadEntry path) s = .next { s with rng := { s.rng with entry := ringBytes (ringOf s s.rng.sel) } } := by
  obtain ⟨hserved, hparty⟩ := operates_access hop (ringReadCmd path)
  show execRngReadEntry path s = _
  rw [execRngReadEntry, hserved, ringReadCmd, hfree, isOperator_eq hparty]
  rfl

theorem rngSetDrain_operator (hop : operates path 0x30004 s = true) (hfree : s.rng.busy = false) :
    exec (.rngSetDrain path) s = .next (modRing s.rng.sel (fun r => { r with drain := r.drain || r.enable }) s) := by
  obtain ⟨hserved, hparty⟩ := operates_access hop (ringDrainCmd path)
  show execRngSetDrain path s = _
  rw [execRngSetDrain, hserved, ringDrainCmd, hfree, hparty]
  rfl

/-- A staged entry that fails a check sets err and changes no ring. -/
theorem rngWriteEntry_refused (hop : operates path 0x30004 s = true) (hfree : s.rng.busy = false)
    (hbad : ringOk s s.rng.entry = false ∨ mhas s.sch.ctxs (field s.rng.entry 0 2 % 1024) = false) :
    exec (.rngWriteEntry path) s = .next { s with rng := { s.rng with err := true } } := by
  refine (rngWriteEntry_operator hop hfree).trans (congrArg Host.Outcome.next (if_pos ?_))
  rw [mayRing_operator]
  rcases hbad with h | h <;> simp [h]

theorem rngWriteEntry_setsUp (hop : operates path 0x30004 s = true) (hfree : s.rng.busy = false) (hok : ringOk s s.rng.entry = true)
    (hctx : mhas s.sch.ctxs (field s.rng.entry 0 2 % 1024) = true) (hset : bit (field s.rng.entry 0x0C 4) 0 = true)
    (hnew : (ringOf s s.rng.sel).enable = false) (hcharged : (ringOf s s.rng.sel).charged = 0)
    (hroom : covers (uncharge (ctxOf s (ringOf s s.rng.sel).context).part 1 0 s) (ctxOf s (field s.rng.entry 0 2 % 1024)).part 1
      (64 * 2 ^ field s.rng.entry 2 1) = true) :
    ∃ t, exec (.rngWriteEntry path) s = .next t ∧
      ringOf t s.rng.sel = setUp s.rng.entry (64 * 2 ^ field s.rng.entry 2 1) (ringOf s s.rng.sel) ∧ t.rng.err = s.rng.err ∧
      (∀ n, n ≠ s.rng.sel → ringOf t n = ringOf s n) ∧ Only [.hbm, .rng] s t := by
  generalize hu : charge (ctxOf s (field s.rng.entry 0 2 % 1024)).part 1 (64 * 2 ^ field s.rng.entry 2 1)
    (uncharge (ctxOf s (ringOf s s.rng.sel).context).part 1 0 s) = u
  have hrng : u.rng = s.rng := by rw [← hu]; rfl
  have touched : Touches (partSet [.hbm, .rng]) s u := by
    rw [← hu]
    exact charge_touches _ 1 _ rfl (uncharge_touches _ 1 _ rfl (.refl _ s))
  have hallowed : ¬ (!mayRing s .operator (field s.rng.entry 0 2 % 1024) ||
      ((ringOf s s.rng.sel).enable && !mayRing s .operator (ringOf s s.rng.sel).context) || !ringOk s s.rng.entry) = true := by
    rw [mayRing_operator, hctx, hnew, hok, Bool.false_and]; decide
  have hstays : ¬ drains s.rng.entry (ringOf s s.rng.sel) = true := by simp [drains, hnew]
  have hexec : exec (.rngWriteEntry path) s = .next (u.modRng fun x =>
      { x with rings := mupd x.rings s.rng.sel {} (setUp s.rng.entry (64 * 2 ^ field s.rng.entry 2 1)) }) := by
    rw [rngWriteEntry_operator hop hfree, ← hu]
    refine congrArg Host.Outcome.next ((if_neg hallowed).trans ((if_neg hstays).trans ?_))
    dsimp only
    rw [hset, hcharged, hroom, hnew]
    rfl
  refine ⟨_, hexec, ?_, (congrArg Rng.err hrng :), fun n hn => ?_,
    (Touches.modRng _ (fun _ q => setUp_ok _ _ _ q) rfl touched).only⟩
  · unfold ringOf
    rw [show ∀ f, (u.modRng f).rng = f u.rng from fun f => rfl, hrng]
    exact mgetD_mupd _ _ _ _
  · unfold ringOf
    rw [show ∀ f, (u.modRng f).rng = f u.rng from fun f => rfl, hrng]
    exact mgetD_mupd_ne _ _ _ hn

end

/-- Settles O22: the operator's commands write, read and drain the ring pair selected. -/
theorem ringRegisters : Obligations.RingRegisters := by
  unfold Obligations.RingRegisters
  intro s path hop hfree b ctx size
  refine ⟨rngWriteEntry_setsUp hop hfree, rngWriteEntry_refused hop hfree, rngReadEntry_operator hop hfree, fun hset => ?_⟩
  exact ⟨_, rngSetDrain_operator hop hfree, exec_only (.rngSetDrain path) (rngSetDrain_operator hop hfree), mgetD_mmod _ _ _ _ hset⟩

end Sys2Proof.Machine
end

section
/-! SUPPORT. Appending (05 R150, R151, R158). -/

namespace Sys2Proof.Machine

open Sys2Proof

/-- An append whose sequence no append holds is not locked out. -/
theorem kvAppend_starts {s : State} {n : Nat} {e : Entry} (h : starting opKvAppend n s = some e)
    (hfree : appending s (parseAppend (eInline e.raw)).seq = false) :
    exec (.kvAppend n) s = .next (kvAppend n e (markStarted n e.idx s)) := by
  obtain ⟨hstart, -, -⟩ := starting_some h
  have hopen : appending s (field (eInline e.raw) 0 3) = false := hfree
  show execKvAppend n s = _
  rw [execKvAppend, startOp_starting (kvAppend n) h, hstart]
  exact congrArg Host.Outcome.next (if_neg (by dsimp only; rw [hopen, Bool.and_false]; decide))

/-- An append that passes its checks has rows to read. -/
theorem count_of_checkAppend {s : State} {ok : Bool} {a : AppendSt} (h : checkAppend s ok a = none) : a.count ≠ 0 := by
  intro hzero
  unfold checkAppend at h
  cases ok <;> simp [hzero] at h

/-- An append none of whose source has arrived waits as it is. -/
theorem driveAppend_waits {s : State} {id : Nat} {o : Op} {a : AppendSt} (hget : mget s.ops.tab id = some o) (hbody : o.body = .append a)
    (hwell : o.failed = false) (hreads : readsDone s id = false) : driveAppend id s = s := by
  unfold driveAppend
  rw [hget]
  dsimp only
  rw [hbody]
  dsimp only
  rw [hwell, hreads]
  rfl

/-- The reads of a source that is not empty are outstanding once they have begun. -/
theorem sourceReads_outstanding {m : Model} {a : AppendSt} (id : Nat) (hlayers : a.layers ≠ 0) (hlen : a.count * m.rowBytes ≠ 0) (ring : Nat)
    (s : State) (u : State) (hu : u = forEach (sourceReads m a) (fun x v => beginRead (.op id x.1) a.src x.2.1 x.2.2 (ringOf v ring).key v) s) :
    readsDone u id = false ∧ u.ops = s.ops ∧ u.seqs = s.seqs := by
  have hlens : ∀ x ∈ sourceReads m a, x.2.2 ≠ 0 := fun x hx => by
    obtain ⟨i, -, rfl⟩ := List.mem_map.mp hx
    exact hlen
  have hsome : sourceReads m a ≠ [] := fun hnil => hlayers (by simpa [sourceReads] using hnil)
  rw [hu]
  refine ⟨forEach_last (fun v => readsDone v id = false) _ _ hsome (fun x hx v => (beginRead_sent id _ _ _ _ _ v (hlens x hx)).1) s, ?_⟩
  refine forEach_mem_inv (fun v => v.ops = s.ops ∧ v.seqs = s.seqs) (fun x hx v hv => ?_) s ⟨rfl, rfl⟩
  have touched := (beginRead_sent id x.1 a.src x.2.1 x.2.2 (ringOf v ring).key v (hlens x hx)).2
  exact ⟨(touched.ops.resolve_left (by decide)).trans hv.1, (touched.seqs.resolve_left (by decide)).trans hv.2⟩

theorem kvAppend_begins {s : State} {n : Nat} {e : Entry} (h : starting opKvAppend n s = some e)
    (hfree : appending s (parseAppend (eInline e.raw)).seq = false)
    (hcheck : checkAppend s (seqOk s (ringOf s n).context (parseAppend (eInline e.raw)).seq) (parseAppend (eInline e.raw)) = none)
    (hrow : 0 < (seqModel s ((seqOf s (parseAppend (eInline e.raw)).seq).getD {})).rowBytes) :
    ∃ t o, exec (.kvAppend n) s = .next t ∧ mget t.ops.tab s.ops.next = some o ∧ o.body = .append (parseAppend (eInline e.raw)) ∧
      o.ring = n ∧ o.idx = e.idx ∧ readsDone t s.ops.next = false ∧ t.seqs = s.seqs := by
  have hexec := kvAppend_starts h hfree
  have hcontext := context_markStarted (startable_mem (starting_some h).1).1
  have hcheck' : checkAppend (markStarted n e.idx s) (seqOk (markStarted n e.idx s) (ringOf (markStarted n e.idx s) n).context
      (parseAppend (eInline e.raw)).seq) (parseAppend (eInline e.raw)) = none := by rw [hcontext]; exact hcheck
  unfold kvAppend at hexec
  dsimp only at hexec
  rw [hcheck'] at hexec
  generalize hv : newOp (opOf (countWait (ringOf (markStarted n e.idx s) n).context e.arrival (markStarted n e.idx s)) n e
    (.append (parseAppend (eInline e.raw)))) (countWait (ringOf (markStarted n e.idx s) n).context e.arrival (markStarted n e.idx s)) = v
  have hget : mget v.ops.tab s.ops.next = some (opOf (countWait (ringOf (markStarted n e.idx s) n).context e.arrival (markStarted n e.idx s)) n e
      (.append (parseAppend (eInline e.raw)))) := by rw [← hv]; exact newOp_get _ _
  have hseqs : v.seqs = s.seqs := by rw [← hv]; rfl
  obtain ⟨u, hu⟩ : ∃ u, u = forEach (sourceReads (seqModel s ((seqOf s (parseAppend (eInline e.raw)).seq).getD {})) (parseAppend (eInline e.raw)))
    (fun x w => beginRead (.op s.ops.next x.1) (parseAppend (eInline e.raw)).src x.2.1 x.2.2 (ringOf w n).key w) v := ⟨_, rfl⟩
  obtain ⟨hreads, hops, hseqs'⟩ := sourceReads_outstanding s.ops.next (Nat.succ_ne_zero _)
    (Nat.mul_ne_zero (count_of_checkAppend hcheck) (Nat.pos_iff_ne_zero.mp hrow)) n v u hu
  rw [← hops] at hget
  have hdrive := driveAppend_waits hget rfl rfl hreads
  refine ⟨u, _, hexec.trans (congrArg Host.Outcome.next (Eq.trans ?_ hdrive)), hget, rfl, rfl, rfl, hreads, hseqs'.trans hseqs⟩
  rw [hu, ← hv]
  rfl

theorem kvAppend_refused {s : State} {n : Nat} {e : Entry} {ans : Ans} (hring : RingOk (ringOf s n)) (h : starting opKvAppend n s = some e)
    (hfree : appending s (parseAppend (eInline e.raw)).seq = false)
    (hcheck : checkAppend s (seqOk s (ringOf s n).context (parseAppend (eInline e.raw)).seq) (parseAppend (eInline e.raw)) = some ans) :
    ∃ t, exec (.kvAppend n) s = .next t ∧ Ended n e ans s t ∧ t.seqs = s.seqs := by
  have hmem := (startable_mem (starting_some h).1).1
  have hcheck' : checkAppend (markStarted n e.idx s) (seqOk (markStarted n e.idx s) (ringOf (markStarted n e.idx s) n).context
      (parseAppend (eInline e.raw)).seq) (parseAppend (eInline e.raw)) = some ans := by rw [context_markStarted hmem]; exact hcheck
  refine ⟨endNow n e ans (markStarted n e.idx s), ?_, endNow_ended ans hmem hring, (endNow_keeps n e ans _).1⟩
  rw [kvAppend_starts h hfree, kvAppend, hcheck']

theorem ladderDemoteTimeout_append {s : State} {op : Nat} {o : Op} {w : AppendSt} (hget : mget s.ops.tab op = some o) (hbody : o.body = .append w) :
    exec (.ladderDemoteTimeout op) s = .next (if w.need == .asking then driveAppend op (putAppend op { w with need := .past } s) else s) := by
  show execLadderDemoteTimeout op s = _
  rw [execLadderDemoteTimeout, hget]
  dsimp only
  rw [hbody]

/-- Settles O24: a good append asks for its source and waits, a bad one ends, and one whose time is over goes on without step 2. -/
theorem appendsReadTheirSource : Obligations.AppendsReadTheirSource := by
  unfold Obligations.AppendsReadTheirSource
  intro s n e hring hstart a hfree
  refine ⟨kvAppend_begins hstart hfree, fun ans => kvAppend_refused hring hstart hfree, fun op o w hget hbody hneed => ?_,
    fun op o w hget hbody hneed => ?_⟩
  · exact (ladderDemoteTimeout_append hget hbody).trans (congrArg Host.Outcome.next (if_pos (by rw [hneed]; rfl)))
  · exact (ladderDemoteTimeout_append hget hbody).trans (congrArg Host.Outcome.next (if_neg (by simp [hneed])))

end Sys2Proof.Machine
end

section
/-! SUPPORT. The model slots, the policy table and the patrol (05 R129, R168; 06 R183, R190; 13 R400). -/

namespace Sys2Proof.Machine

open Sys2Proof

section
variable {s : State} {path : Path}

/-- An operator's command of the model registers reaches them. -/
theorem mdCmd_operator (hop : operates path 0x40004 s = true) (hfree : s.seqs.mdBusy = false) :
    mdParty s path = some .operator ∧ ∀ f, regAccess path 0x40004 f s = f s := by
  obtain ⟨-, hparty⟩ := operates_access hop id
  exact ⟨by simp [mdParty, hfree, isOperator_eq hparty], fun f => (operates_access hop f).1⟩

theorem mdLoad_operator (hop : operates path 0x40004 s = true) (hfree : s.seqs.mdBusy = false) : exec (.mdLoad path) s = .next
    (if slotInUse s s.seqs.mdSel || !modelOk s.seqs.mdData then { s with seqs := { s.seqs with mdErr := true } }
      else { s with seqs := { s.seqs with md := mset s.seqs.md s.seqs.mdSel (mdHeld s.seqs.mdData) } }) := by
  obtain ⟨hparty, hreg⟩ := mdCmd_operator hop hfree
  show execMdLoad path s = _
  rw [execMdLoad, hreg, mdLoadCmd, hparty]
  rfl

theorem mdRead_operator (hop : operates path 0x40004 s = true) (hfree : s.seqs.mdBusy = false) : exec (.mdRead path) s =
    .next { s with seqs := { s.seqs with mdData := padTo 64 (mgetD s.seqs.md s.seqs.mdSel []) } } := by
  obtain ⟨hparty, hreg⟩ := mdCmd_operator hop hfree
  show execMdRead path s = _
  rw [execMdRead, hreg, mdReadCmd, hparty]
  rfl

theorem mdUnload_operator (hop : operates path 0x40004 s = true) (hfree : s.seqs.mdBusy = false) : exec (.mdUnload path) s = .next
    (if slotInUse s s.seqs.mdSel then { s with seqs := { s.seqs with mdErr := true } }
      else { s with seqs := { s.seqs with md := mdel s.seqs.md s.seqs.mdSel } }) := by
  obtain ⟨hparty, hreg⟩ := mdCmd_operator hop hfree
  show execMdUnload path s = _
  rw [execMdUnload, hreg, mdUnloadCmd, hparty]
  rfl

/-- Settles O26: each command of the model registers, by the operator. -/
theorem modelSlots : Obligations.ModelSlots := by
  unfold Obligations.ModelSlots
  intro s path hop hfree
  refine ⟨fun hok hunused => ?_, fun hbad => ?_, mdRead_operator hop hfree, fun hunused => ?_, fun hused => ?_⟩
  · exact (mdLoad_operator hop hfree).trans (congrArg Host.Outcome.next (if_neg (by simp [hok, hunused])))
  · exact (mdLoad_operator hop hfree).trans (congrArg Host.Outcome.next (if_pos (by rcases hbad with h | h <;> simp [h])))
  · exact (mdUnload_operator hop hfree).trans (congrArg Host.Outcome.next (if_neg (by simp [hunused])))
  · exact (mdUnload_operator hop hfree).trans (congrArg Host.Outcome.next (if_pos hused))

/-- An operator's policy command reaches the table. -/
theorem polCmd_operator (hop : operates path 0x50008 s = true) (hfree : s.pfx.polBusy = false) (f : Pfx → Pfx) :
    regAccess path 0x50008 (polCmd path f) s = { s with pfx := f s.pfx } := by
  obtain ⟨hreg, hparty⟩ := operates_access hop (polCmd path f)
  rw [hreg, polCmd, hfree, hparty]
  rfl

theorem polRead_past {p : Pfx} (h : p.pol.length ≤ p.polSel) : polRead p = { p with polVal := 0, polMask := 0, polAct := 0 } := by
  rw [polRead, nth_past h]

theorem polRead_row {p : Pfx} {r : PolRow} (h : p.pol[p.polSel]? = some r) :
    polRead p = { p with polVal := r.value, polMask := r.mask, polAct := r.action } := by
  unfold polRead nth
  rw [List.getD_eq_getElem?_getD, h]
  rfl

theorem policyTable (hop : operates path 0x50008 s = true) (hfree : s.pfx.polBusy = false) :
    (s.pfx.pol.length < 256 → s.pfx.polSel ≤ s.pfx.pol.length → s.pfx.polAct = 1 ∨ s.pfx.polAct = 2 → exec (.policyInsert path) s =
      .next { s with pfx := { s.pfx with pol := s.pfx.pol.take s.pfx.polSel ++
        { value := s.pfx.polVal, mask := s.pfx.polMask, action := s.pfx.polAct } :: s.pfx.pol.drop s.pfx.polSel } }) ∧
    (256 ≤ s.pfx.pol.length ∨ s.pfx.pol.length < s.pfx.polSel ∨ (s.pfx.polAct ≠ 1 ∧ s.pfx.polAct ≠ 2) →
      exec (.policyInsert path) s = .next { s with pfx := { s.pfx with polErr := true } }) ∧
    (s.pfx.polSel < s.pfx.pol.length → exec (.policyDelete path) s =
      .next { s with pfx := { s.pfx with pol := s.pfx.pol.take s.pfx.polSel ++ s.pfx.pol.drop (s.pfx.polSel + 1) } }) ∧
    (s.pfx.pol.length ≤ s.pfx.polSel → exec (.policyDelete path) s = .next { s with pfx := { s.pfx with polErr := true } }) ∧
    (s.pfx.pol.length ≤ s.pfx.polSel → exec (.policyRead path) s = .next { s with pfx := { s.pfx with polVal := 0, polMask := 0, polAct := 0 } }) ∧
    (∀ r, s.pfx.pol[s.pfx.polSel]? = some r → exec (.policyRead path) s =
      .next { s with pfx := { s.pfx with polVal := r.value, polMask := r.mask, polAct := r.action } }) := by
  have hcmd (f : Pfx → Pfx) {x : Pfx} (hx : f s.pfx = x) :
      (.next (regAccess path 0x50008 (polCmd path f) s) : Out) = .next { s with pfx := x } := by rw [polCmd_operator hop hfree, hx]
  refine ⟨fun hroom hrow hact => hcmd polInsert (if_neg ?_), fun hbad => hcmd polInsert (if_pos ?_), fun hrow => hcmd polDelete (if_neg (by omega)),
    fun hpast => hcmd polDelete (if_pos hpast), fun hpast => hcmd polRead (polRead_past hpast), fun r hr => hcmd polRead (polRead_row hr)⟩
  · simp only [Bool.or_eq_true, Bool.not_eq_true', Bool.or_eq_false_iff, decide_eq_true_eq, beq_eq_false_iff_ne]
    omega
  · simp only [Bool.or_eq_true, Bool.not_eq_true', Bool.or_eq_false_iff, decide_eq_true_eq, beq_eq_false_iff_ne]
    omega

end

section
variable {s : State} {errors : List Nat}

theorem patrolRead_keeps (errors : List Nat) (s : State) : Touches (partSet [.pfx]) s (patrolRead errors s) :=
  patrolRead_touches errors rfl (.refl _ s)

theorem pmaPatrolRead_goesOn (hwork : atRest s = false) (hfew : ∀ x ∈ (patrolRead errors s).pfx.bankErr, x.2 < 16) :
    ∃ t, exec (.pmaPatrolRead errors) s = .next t ∧ Only [.pfx] s t ∧
    (s.pfx.patrolRow ≠ 65535 → t = patrolRead errors s ∧ t.pfx.patrolRow = s.pfx.patrolRow + 1) ∧
    (s.pfx.patrolRow = 65535 → t.pfx.patrolRow = 256 ∧ t.pfx.bankErr = []) := by
  have hnone : ((patrolRead errors s).pfx.bankErr.filter fun x => decide (16 ≤ x.2)) = [] :=
    List.filter_eq_nil_iff.mpr fun x hx => by simpa using hfew x hx
  have hexec : exec (.pmaPatrolRead errors) s = .next
      (if s.pfx.patrolRow == 65535 then (patrolRead errors s).modPfx fun p => { p with bankErr := [] } else patrolRead errors s) := by
    refine congrArg Host.Outcome.next ((working_on _ hwork).trans ?_)
    dsimp only
    rw [hnone]
    rfl
  have htouched := patrolRead_keeps errors s
  refine ⟨_, hexec, (Touches.ite (Touches.modPfx _ rfl htouched) htouched).only, fun hrow => ?_, fun hlast => ?_⟩
  · have hgo : ¬ (s.pfx.patrolRow == 65535) = true := by simpa using hrow
    rw [if_neg hgo]
    exact ⟨rfl, if_neg hgo⟩
  · have hgo : (s.pfx.patrolRow == 65535) = true := by simpa using hlast
    rw [if_pos hgo]
    exact ⟨if_pos hgo, rfl⟩

theorem spareNat_congr {s t : State} (hspare : t.spare = s.spare) (htly : t.tly = s.tly) (w : Nat) : spareNat t w = spareNat s w := by
  unfold spareNat tlyNat
  rw [hspare, htly]

/-- A bank retired to a free spare waits to be rebuilt, the pass's counts of the others kept. -/
theorem loseBank_pfx {b m : Nat} {u : State} (hfree : freeBank (let w := spareNat u bankWord; let old := physBank w b
      if 32 ≤ old then retireSpareBank (putServed w old 0x3F) old else w) = some m) :
    b ∈ (loseBank b u).pfx.rebuilding ∧ (loseBank b u).pfx.bankErr = u.pfx.bankErr := by
  generalize hv : (u.modPfx fun p => { p with rebuilding := if p.rebuilding.contains b then p.rebuilding else p.rebuilding ++ [b] }) = v
  have hpfx : b ∈ v.pfx.rebuilding ∧ v.pfx.bankErr = u.pfx.bankErr := by
    rw [← hv]
    refine ⟨?_, rfl⟩
    show b ∈ if u.pfx.rebuilding.contains b then u.pfx.rebuilding else u.pfx.rebuilding ++ [b]
    split
    · next h => simpa using h
    · simp
  have hword : spareNat v bankWord = spareNat u bankWord := by rw [← hv]; exact spareNat_congr rfl rfl _
  have touched : Touches (partSet [.tly, .spare, .bbx]) v (loseBank b u) := by
    rw [loseBank, hv, retireBank]
    dsimp only at hfree ⊢
    rw [hword, hfree]
    exact emit_touches 2 _ _ _ rfl (spareSet_touches _ _ rfl (.refl _ v))
  rw [touched.pfx.resolve_left (by decide)]
  exact hpfx

theorem pmaPatrolRead_retires {b k m : Nat} (hwork : atRest s = false) (hrow : s.pfx.patrolRow ≠ 65535)
    (hbad : ((patrolRead errors s).pfx.bankErr.filter fun x => decide (16 ≤ x.2)) = [(b, k)])
    (hfree : freeBank (let w := spareNat s bankWord; let old := physBank w b
      if 32 ≤ old then retireSpareBank (putServed w old 0x3F) old else w) = some m) :
    ∃ t, exec (.pmaPatrolRead errors) s = .next t ∧ b ∈ t.pfx.rebuilding ∧ t.pfx.bankErr = mdel (patrolRead errors s).pfx.bankErr b := by
  have hexec : exec (.pmaPatrolRead errors) s = .next
      (loseBank b ((patrolRead errors s).modPfx fun p => { p with bankErr := mdel p.bankErr b })) := by
    refine congrArg Host.Outcome.next ((working_on _ hwork).trans ?_)
    dsimp only
    rw [hbad, if_neg (by simpa using hrow)]
    rfl
  have htouched := patrolRead_keeps errors s
  have hword : spareNat ((patrolRead errors s).modPfx fun p => { p with bankErr := mdel p.bankErr b }) bankWord = spareNat s bankWord :=
    spareNat_congr (htouched.spare.resolve_left (by decide)) (htouched.tly.resolve_left (by decide)) _
  obtain ⟨hwaits, hcounts⟩ := loseBank_pfx (b := b) (m := m)
    (u := (patrolRead errors s).modPfx fun p => { p with bankErr := mdel p.bankErr b }) (by rw [hword]; exact hfree)
  exact ⟨_, hexec, hwaits, hcounts⟩

theorem bankRebuildDone_serves {b : Nat} (hwork : atRest s = false) (hwaits : b ∈ s.pfx.rebuilding) (hbank : b < s.spare.genBank.length) :
    ∃ t, exec (.bankRebuildDone b) s = .next t ∧ b ∉ t.pfx.rebuilding ∧ t.pfx.rows = rebuiltRows s b ∧
    nth t.spare.genBank b 0 = nth s.spare.genBank b 0 + 1 := by
  have hgo : ¬ (!s.pfx.rebuilding.contains b) = true := by simpa using hwaits
  generalize hu : (((s.modPfx fun p => { p with rows := rebuiltRows s b, rebuilding := p.rebuilding.filter (· != b) }).modSpare
    fun x => { x with genBank := lput x.genBank b (nth s.spare.genBank b 0 + 1) })) = u
  have hexec : exec (.bankRebuildDone b) s = .next (emit 2 b evGeneration [(nth s.spare.genBank b 0 + 1).toNat] u) := by
    rw [← hu]
    exact congrArg Host.Outcome.next ((working_on _ hwork).trans (if_neg hgo))
  have touched : Touches (partSet [.bbx]) u (emit 2 b evGeneration [(nth s.spare.genBank b 0 + 1).toNat] u) := emit_touches 2 b _ _ rfl (.refl _ u)
  refine ⟨_, hexec, ?_⟩
  rw [touched.pfx.resolve_left (by decide), touched.spare.resolve_left (by decide), ← hu]
  refine ⟨?_, rfl, nth_lput _ _ _ _ hbank⟩
  show b ∉ s.pfx.rebuilding.filter (· != b)
  simp

end

/-- Settles O28: the operator's policy commands, a patrol read with and without a bank lost, and the end of a rebuild. -/
theorem policyTableAndPatrol : Obligations.PolicyTableAndPatrol := by
  unfold Obligations.PolicyTableAndPatrol
  intro s path errors b
  exact ⟨policyTable, pmaPatrolRead_goesOn, fun k m => pmaPatrolRead_retires, bankRebuildDone_serves⟩

end Sys2Proof.Machine
end

section
/-! SUPPORT. An op in progress as it begins with its wait counted (11 R363). -/

namespace Sys2Proof.Machine

open Sys2Proof

/-- The state with the entry started, its wait counted and an op of this body begun for it. -/
def begunOp (n : Nat) (e : Entry) (b : OpBody) (s : State) : State :=
  (beginOp n e b (countWait (ringOf (markStarted n e.idx s) n).context e.arrival (markStarted n e.idx s))).2

section
variable {n : Nat} {e : Entry} {b : OpBody} {s : State}

theorem begunOp_rng : (begunOp n e b s).rng = (markStarted n e.idx s).rng := rfl

theorem begunOp_clk : (begunOp n e b s).clk = s.clk := rfl

theorem begunOp_get (hmem : e ∈ (ringOf s n).entries) : ∃ o, mget (begunOp n e b s).ops.tab s.ops.next = some o ∧ o.ring = n ∧ o.idx = e.idx ∧
    o.body = b ∧ o.raw = e.raw ∧ o.ctx = (ringOf s n).context :=
  ⟨_, newOp_get _ _, rfl, rfl, rfl, rfl, context_markStarted hmem⟩

theorem begunOp_noClose (h : NoClose s) (hbody : ∀ k, b ≠ .seqClose k) : NoClose (begunOp n e b s) :=
  NoClose.newOp (NoClose.congr h rfl) hbody

/-- The partition of a context is what it was. -/
theorem begunOp_part (hmem : e ∈ (ringOf s n).entries) :
    (ctxOf (begunOp n e b s) (ringOf s n).context).part = (ctxOf s (ringOf s n).context).part := by
  have hpart := ctx_modCtx_part (ringOf (markStarted n e.idx s) n).context (fun c => { c with
    waits := lmod c.waits (waitBin (stamp (markStarted n e.idx s) - e.arrival)) fun n => sat32 (n + 1) }) (markStarted n e.idx s) fun _ => rfl
  rw [context_markStarted hmem] at hpart
  refine Eq.trans ?_ hpart
  unfold begunOp
  rw [context_markStarted hmem]
  rfl

end

end Sys2Proof.Machine
end
section
/-! SUPPORT. PFX_LOOKUP, PFX_PUBLISH and PFX_RETIRE (06 R184, R185, R193, R194, R199). -/

namespace Sys2Proof.Machine

open Sys2Proof

section
variable {s : State} {n : Nat} {e : Entry}

theorem pfxLookup_starts (h : starting opPfxLookup n s = some e)
    (hfree : ((parseLookup (eInline e.raw)).attach && appending s (parseLookup (eInline e.raw)).seq) = false)
    (halone : (s.casc.lookup.isSome && goesToGroup s (ringOf s n).context (parseLookup (eInline e.raw))) = false) :
    exec (.pfxLookup n) s = .next (pfxLookup n e (markStarted n e.idx s)) := by
  obtain ⟨hstart, -, -⟩ := starting_some h
  show execPfxLookup n s = _
  rw [execPfxLookup, startOp_starting (pfxLookup n) h, hstart]
  exact congrArg Host.Outcome.next (if_neg (by dsimp only; rw [hfree, halone, Bool.or_false, Bool.and_false]; decide))

theorem checkLookup_marked (hmem : e ∈ (ringOf s n).entries) (a : LookupArgs) :
    checkLookup (markStarted n e.idx s) (ringOf (markStarted n e.idx s) n).context a = checkLookup s (ringOf s n).context a := by
  rw [context_markStarted hmem]; rfl

theorem pfxLookup_refused {c : Nat} (hring : RingOk (ringOf s n)) (h : starting opPfxLookup n s = some e)
    (hfree : ((parseLookup (eInline e.raw)).attach && appending s (parseLookup (eInline e.raw)).seq) = false)
    (halone : (s.casc.lookup.isSome && goesToGroup s (ringOf s n).context (parseLookup (eInline e.raw))) = false)
    (hcheck : checkLookup s (ringOf s n).context (parseLookup (eInline e.raw)) = some c) :
    ∃ t, exec (.pfxLookup n) s = .next t ∧ Ended n e (internal c) s t ∧ t.pfx = s.pfx := by
  have hmem := (startable_mem (starting_some h).1).1
  refine ⟨endNow n e (internal c) (markStarted n e.idx s), ?_, endNow_ended _ hmem hring,
    (endEntry_touches (μ := partSet [.rng, .sch]) n e.idx _ 0 rfl (.refl _ (markStarted n e.idx s))).pfx.resolve_left (by decide)⟩
  rw [pfxLookup_starts h hfree halone, pfxLookup]
  dsimp only
  rw [checkLookup_marked hmem, hcheck]

/-- The op of a lookup once it knows what its search found. -/
theorem lookupBegun_get (hmem : e ∈ (ringOf s n).entries) : ∃ o,
    mget (modOp s.ops.next (fun o => { o with bufs := [(0, e.operands.getD [])] }) (begunOp n e (.lookup none) s)).ops.tab s.ops.next = some o ∧
      o.ring = n ∧ o.idx = e.idx ∧ o.body = .lookup none ∧ o.raw = e.raw ∧ o.ctx = (ringOf s n).context ∧ o.bufs = [(0, e.operands.getD [])] := by
  obtain ⟨o, hget, hring, hidx, hbody, hraw, hctx⟩ := begunOp_get (b := .lookup none) hmem
  exact ⟨_, modOp_get _ hget, hring, hidx, hbody, hraw, hctx, rfl⟩

/-- A lookup that has searched attaches its blocks; it ends with its last, or waits for a table. -/
theorem driveLookup_found {u : State} {o : Op} (hring : RingOk (ringOf s n)) (hmem : e ∈ (ringOf s n).entries)
    (hget : mget u.ops.tab s.ops.next = some o) (horing : o.ring = n) (hidx : o.idx = e.idx) (hraw : o.raw = e.raw)
    (hrng : u.rng = (markStarted n e.idx s).rng) (hclk : u.clk = s.clk) (hclose : NoClose u) (x : AttachSt) (w : State)
    (hw : Touches (partSet [.pfx, .sch]) u w) :
    let a := parseLookup (eInline e.raw)
    let v := modOp s.ops.next (fun o => { o with body := .lookup (some x) }) w
    let b := (modelOf (mdOf v a.slot)).block
    let r := attachRun a.seq (a.first * b) b x.rest x v
    (r.2.1 = false → Ended n e (lookupAns r.1.done r.1.full r.1.hits r.1.failed) s (driveLookup s.ops.next v)) ∧
    (r.2.1 = true → InProgress n e (.lookup (some r.1)) s (driveLookup s.ops.next v)) := by
  intro a v b r
  have hgetV : mget v.ops.tab s.ops.next = some { o with body := .lookup (some x) } := by
    refine modOp_get _ ?_
    rw [hw.ops.resolve_left (by decide)]
    exact hget
  have hcloseV : NoClose v := (hclose.congr (hw.ops.resolve_left (by decide))).modOp _ fun _ => .inr fun _ => nofun
  have hattach : Touches (partSet [.link, .coh, .hbm, .io, .seqs, .pfx, .casc, .cdc, .tier, .wt, .ftl, .sec]) v r.2.2 :=
    attachRun_touches _ _ _ rfl _ _ (.refl _ v)
  have hops : r.2.2.ops = v.ops := hattach.ops.resolve_left (by decide)
  have hdrive : driveLookup s.ops.next v = if r.2.1 then modOp s.ops.next (fun o => { o with body := .lookup (some r.1) }) r.2.2
      else finishOp s.ops.next (lookupAns r.1.done r.1.full r.1.hits r.1.failed)
        (writeResults a (ringOf r.2.2 n).key r.1.ents (closeLookup { o with body := .lookup (some x) } r.1 r.2.2)) := by
    unfold driveLookup
    rw [hgetV]
    dsimp only
    rw [hraw, horing]
  refine ⟨fun hdone => ?_, fun hwaits => ?_⟩
  · rw [hdrive, hdone]
    have hcloses : Touches (partSet [.link, .coh, .hbm, .io, .seqs, .pfx, .casc, .cdc, .tier, .wt, .ftl, .sec]) v
        (writeResults a (ringOf r.2.2 n).key r.1.ents (closeLookup { o with body := .lookup (some x) } r.1 r.2.2)) :=
      writeResults_touches _ _ _ rfl (closeLookup_touches _ _ rfl hattach)
    have hopsC := hcloses.ops.resolve_left (by decide)
    exact (finishOp_ended (o := { o with body := .lookup (some x) }) _ hmem hring
      ((hcloses.rng.resolve_left (by decide)).trans ((hw.rng.resolve_left (by decide) :).trans hrng))
      ((hcloses.clk.resolve_left (by decide)).trans ((hw.clk.resolve_left (by decide) :).trans hclk))
      (hopsC ▸ hgetV) horing hidx (hcloseV.congr hopsC)).1
  · rw [hdrive, hwaits]
    exact ⟨_, modOp_get (o := { o with body := .lookup (some x) }) _ (hops ▸ hgetV), horing, hidx, rfl⟩

theorem pfxLookup_local (hring : RingOk (ringOf s n)) (hclose : NoClose s) (h : starting opPfxLookup n s = some e)
    (hfree : ((parseLookup (eInline e.raw)).attach && appending s (parseLookup (eInline e.raw)).seq) = false)
    (halone : (s.casc.lookup.isSome && goesToGroup s (ringOf s n).context (parseLookup (eInline e.raw))) = false)
    (hcheck : checkLookup s (ringOf s n).context (parseLookup (eInline e.raw)) = none)
    (hhere : goesToGroup s (ringOf s n).context (parseLookup (eInline e.raw)) = false) :
    ∃ t u, exec (.pfxLookup n) s = .next t ∧ InProgress n e (.lookup none) s u ∧
      let a := parseLookup (eInline e.raw)
      let x := localLookup (ringOf s n).context a (chunks 64 64 (e.operands.getD [])) u
      let v := modOp s.ops.next (fun o => { o with body := .lookup (some x.1) }) x.2
      let b := (modelOf (mdOf v a.slot)).block
      let r := attachRun a.seq (a.first * b) b x.1.rest x.1 v
      (r.2.1 = false → Ended n e (lookupAns r.1.done r.1.full r.1.hits r.1.failed) s t) ∧
      (r.2.1 = true → InProgress n e (.lookup (some r.1)) s t) := by
  have hmem := (startable_mem (starting_some h).1).1
  obtain ⟨o, hget, horing, hidx, hbody, hraw, hctx, hbufs⟩ := lookupBegun_get hmem
  have hexec : exec (.pfxLookup n) s = .next (beginLookup s.ops.next
      (modOp s.ops.next (fun o => { o with bufs := [(0, e.operands.getD [])] }) (begunOp n e (.lookup none) s))) := by
    rw [pfxLookup_starts h hfree halone, pfxLookup]
    dsimp only
    rw [checkLookup_marked hmem, hcheck]
    rfl
  have hgroup : goesToGroup (modOp s.ops.next (fun o => { o with bufs := [(0, e.operands.getD [])] }) (begunOp n e (.lookup none) s))
      (ringOf s n).context (parseLookup (eInline e.raw)) = false := by
    unfold goesToGroup at hhere ⊢
    rw [show ∀ f, ctxOf (modOp s.ops.next f (begunOp n e (.lookup none) s)) = ctxOf (begunOp n e (.lookup none) s) from fun _ => rfl,
      begunOp_part hmem]
    exact hhere
  have hrngU : (modOp s.ops.next (fun o => { o with bufs := [(0, e.operands.getD [])] }) (begunOp n e (.lookup none) s)).rng =
      (markStarted n e.idx s).rng := rfl
  have hclkU : (modOp s.ops.next (fun o => { o with bufs := [(0, e.operands.getD [])] }) (begunOp n e (.lookup none) s)).clk = s.clk := rfl
  have hcloseU : NoClose (modOp s.ops.next (fun o => { o with bufs := [(0, e.operands.getD [])] }) (begunOp n e (.lookup none) s)) :=
    (begunOp_noClose (b := .lookup none) hclose fun _ => nofun).modOp _ fun _ => .inl rfl
  generalize modOp s.ops.next (fun o => { o with bufs := [(0, e.operands.getD [])] }) (begunOp n e (.lookup none) s) = u at *
  have hbegin : beginLookup s.ops.next u = driveLookup s.ops.next (modOp s.ops.next (fun o => { o with
      body := .lookup (some (localLookup (ringOf s n).context (parseLookup (eInline e.raw)) (chunks 64 64 (e.operands.getD [])) u).1) })
      (localLookup (ringOf s n).context (parseLookup (eInline e.raw)) (chunks 64 64 (e.operands.getD [])) u).2) := by
    unfold beginLookup
    rw [hget]
    dsimp only
    rw [hctx, hraw, hgroup, lookupKeys, hbufs]
    rfl
  refine ⟨_, u, hexec.trans (congrArg Host.Outcome.next hbegin), ⟨o, hget, horing, hidx, hbody⟩, ?_⟩
  exact driveLookup_found hring hmem hget horing hidx hraw hrngU hclkU hcloseU _ _
    (localLookup_touches (μ := partSet [.pfx, .sch]) _ _ _ rfl (.refl _ u))

theorem pfxPublish_ends {c : Nat} (hring : RingOk (ringOf s n)) (h : starting opPfxPublish n s = some e)
    (hans : pfxPublish n e (markStarted n e.idx s) = endNow n e (internal c) (markStarted n e.idx s)) :
    ∃ t, exec (.pfxPublish n) s = .next t ∧ Ended n e (internal c) s t ∧ t.pfx = s.pfx := by
  have hmem := (startable_mem (starting_some h).1).1
  refine ⟨endNow n e (internal c) (markStarted n e.idx s), ?_, endNow_ended _ hmem hring,
    (endEntry_touches (μ := partSet [.rng, .sch]) n e.idx _ 0 rfl (.refl _ (markStarted n e.idx s))).pfx.resolve_left (by decide)⟩
  show execPfxPublish n s = _
  rw [execPfxPublish, startOp_starting (pfxPublish n) h, hans]

theorem pfxPublish_foreign (hring : RingOk (ringOf s n)) (h : starting opPfxPublish n s = some e)
    (hforeign : seqOk s (ringOf s n).context (field (eInline e.raw) 0 3) = false) :
    ∃ t, exec (.pfxPublish n) s = .next t ∧ Ended n e (internal 0x10) s t ∧ t.pfx = s.pfx := by
  refine pfxPublish_ends hring h ?_
  unfold pfxPublish
  dsimp only
  rw [context_markStarted (startable_mem (starting_some h).1).1]
  exact if_pos (by rw [show seqOk (markStarted n e.idx s) _ _ = _ from hforeign]; rfl)

section
variable (hring : RingOk (ringOf s n)) (h : starting opPfxPublish n s = some e)
  (hmine : seqOk s (ringOf s n).context (field (eInline e.raw) 0 3) = true)

include hring h hmine

theorem pfxPublish_badLength
    (hlen : eLen e.raw ≠ ((seqOf s (field (eInline e.raw) 0 3)).map fun q => 64 + 4 * (seqModel s q).block).getD 0) :
    ∃ t, exec (.pfxPublish n) s = .next t ∧ Ended n e (internal 0x04) s t ∧ t.pfx = s.pfx := by
  refine pfxPublish_ends hring h ?_
  unfold pfxPublish
  dsimp only
  rw [context_markStarted (startable_mem (starting_some h).1).1]
  exact (if_neg (by rw [show seqOk (markStarted n e.idx s) _ _ = _ from hmine]; decide)).trans (if_pos (bne_iff_ne.mpr hlen))

theorem pfxPublish_starts (hclose : NoClose s)
    (hlen : eLen e.raw = ((seqOf s (field (eInline e.raw) 0 3)).map fun q => 64 + 4 * (seqModel s q).block).getD 0) :
    let p : PubSt :=
      { seq := field (eInline e.raw) 0 3, block := field (eInline e.raw) 4 4, adapter := field (eInline e.raw) 8 4, prio := field (eInline e.raw) 12 1
        tol := BitVec.ofNat 16 (field (eInline e.raw) 14 2), parent := (e.operands.getD []).take 64, key := [] }
    ∃ t u, exec (.pfxPublish n) s = .next t ∧ InProgress n e (.publish p) s u ∧
      (∀ ans v, startPublish s.ops.next (ringOf s n).context ((e.operands.getD []).drop 64) { p with id := s.ops.next } u = .ended ans v →
        Ended n e ans s t) ∧
      (∀ w v, startPublish s.ops.next (ringOf s n).context ((e.operands.getD []).drop 64) { p with id := s.ops.next } u = .wait w v →
        InProgress n e (.publish w) s t) := by
  intro p
  have hmem := (startable_mem (starting_some h).1).1
  obtain ⟨o, hget, horing, hidx, hbody, -, -⟩ := begunOp_get (b := .publish p) hmem
  have hcloseU : NoClose (begunOp n e (.publish p) s) := begunOp_noClose hclose fun _ => nofun
  have hexec : exec (.pfxPublish n) s = .next (putPublish s.ops.next (startPublish s.ops.next (ringOf s n).context
      ((e.operands.getD []).drop 64) { p with id := s.ops.next } (begunOp n e (.publish p) s))) := by
    show execPfxPublish n s = _
    rw [execPfxPublish, startOp_starting (pfxPublish n) h]
    unfold pfxPublish begunOp
    dsimp only
    rw [context_markStarted hmem]
    refine congrArg Host.Outcome.next ((if_neg ?_).trans ((if_neg ?_).trans rfl))
    · rw [show seqOk (markStarted n e.idx s) _ _ = _ from hmine]; decide
    · rw [Bool.not_eq_true]; exact bne_eq_false_iff_eq.mpr hlen
  have touched := startPublish_touches (μ := partSet [.pfx]) s.ops.next (ringOf s n).context ((e.operands.getD []).drop 64)
    { p with id := s.ops.next } rfl (.refl _ (begunOp n e (.publish p) s))
  refine ⟨_, begunOp n e (.publish p) s, hexec, ⟨o, hget, horing, hidx, hbody⟩, fun ans v hend => ?_, fun w v hwait => ?_⟩
  · rw [hend] at touched ⊢
    have hops : v.ops = (begunOp n e (.publish p) s).ops := touched.ops.resolve_left (by decide)
    exact (finishOp_ended (u := v.modPfx fun p => { p with pending := p.pending.filter fun k => k.op != s.ops.next }) (o := o) ans hmem hring
      ((touched.rng.resolve_left (by decide) :).trans begunOp_rng)
      ((touched.clk.resolve_left (by decide) :).trans begunOp_clk) (hops ▸ hget) horing hidx (hcloseU.congr hops)).1
  · rw [hwait] at touched ⊢
    have hops : v.ops = (begunOp n e (.publish p) s).ops := touched.ops.resolve_left (by decide)
    exact ⟨_, modOp_get (o := o) _ (hops ▸ hget), horing, hidx, rfl⟩

end

theorem publishWaitEnd_publish {op : Nat} {o : Op} {w : PubSt} (hget : mget s.ops.tab op = some o) (hbody : o.body = .publish w) :
    exec (.publishWaitEnd op) s = .next (if w.stage == 5 || w.stage == 7 then putPublish op (resumePublish op o w s) else s) := by
  show execPublishWaitEnd op s = _
  rw [execPublishWaitEnd, hget]
  dsimp only
  rw [hbody]

theorem pfxRetire_starts (h : starting opPfxRetire n s = some e) : exec (.pfxRetire n) s = .next
    (match retireNamed (ringOf s n).context (field (eInline e.raw) 0 4) (e.operands.getD []) (bit (field (eInline e.raw) 4 1) 0) (markStarted n e.idx s) with
    | none => endNow n e (internal 0x24) (markStarted n e.idx s)
    | some (freed, _, u) => endNow n e { status := stOk, a := freed } u) := by
  show execPfxRetire n s = _
  rw [execPfxRetire, startOp_starting (pfxRetire n) h, ← context_markStarted (startable_mem (starting_some h).1).1]
  rfl

theorem endNow_pfx (a : Ans) (u : State) : (endNow n e a u).pfx = u.pfx :=
  (endEntry_touches (μ := partSet [.rng, .sch]) n e.idx a 0 rfl (.refl _ u)).pfx.resolve_left (by decide)

theorem pfxRetire_refused (hring : RingOk (ringOf s n)) (h : starting opPfxRetire n s = some e)
    (hnone : retireNamed (ringOf s n).context (field (eInline e.raw) 0 4) (e.operands.getD []) (bit (field (eInline e.raw) 4 1) 0)
      (markStarted n e.idx s) = none) :
    ∃ t, exec (.pfxRetire n) s = .next t ∧ Ended n e (internal 0x24) s t ∧ t.pfx = s.pfx := by
  refine ⟨endNow n e (internal 0x24) (markStarted n e.idx s), ?_, endNow_ended _ (startable_mem (starting_some h).1).1 hring, endNow_pfx _ _⟩
  rw [pfxRetire_starts h, hnone]

theorem pfxRetire_retires {freed kept : Nat} {u : State} (hring : RingOk (ringOf s n)) (h : starting opPfxRetire n s = some e)
    (hsome : retireNamed (ringOf s n).context (field (eInline e.raw) 0 4) (e.operands.getD []) (bit (field (eInline e.raw) 4 1) 0)
      (markStarted n e.idx s) = some (freed, kept, u)) :
    ∃ t, exec (.pfxRetire n) s = .next t ∧ Ended n e { status := stOk, a := freed } s t ∧ t.pfx = u.pfx := by
  have touched := retireNamed_touches (μ := partSet [.link, .hbm, .io, .seqs, .pfx, .casc, .cdc, .tier, .wt, .ftl, .sec]) (ringOf s n).context
    (field (eInline e.raw) 0 4) (e.operands.getD []) (bit (field (eInline e.raw) 4 1) 0) rfl (.refl _ (markStarted n e.idx s))
  rw [hsome] at touched
  refine ⟨endNow n e { status := stOk, a := freed } u, ?_, endNow_ended_after _ (startable_mem (starting_some h).1).1 hring
    (touched.rng.resolve_left (by decide)) (touched.clk.resolve_left (by decide)), endNow_pfx _ _⟩
  rw [pfxRetire_starts h, hsome]

/-- Settles O27: a lookup, a publish and a retirement each end at their first failing check, or go on as their steps say. -/
theorem lookupsPublishesRetirements : Obligations.LookupsPublishesRetirements := by
  unfold Obligations.LookupsPublishesRetirements
  intro s n e hring hclose il ctx a ops h p
  refine ⟨fun hstart hfree halone => ⟨fun c => pfxLookup_refused hring hstart hfree halone, pfxLookup_local hring hclose hstart hfree halone⟩,
    fun hstart => ⟨pfxPublish_foreign hring hstart, pfxPublish_badLength hring hstart, fun hmine => pfxPublish_starts hring hstart hmine hclose⟩,
    fun op o w hget hbody => ⟨fun hstage => ?_, fun h5 h7 => ?_⟩,
    fun hstart => ⟨pfxRetire_refused hring hstart, fun freed kept u => pfxRetire_retires hring hstart⟩⟩
  · exact (publishWaitEnd_publish hget hbody).trans (congrArg Host.Outcome.next (if_pos (by simpa using hstage)))
  · exact (publishWaitEnd_publish hget hbody).trans (congrArg Host.Outcome.next (if_neg (by simp [h5, h7])))

end

end Sys2Proof.Machine
end

section
/-! SUPPORT. The attention ops and STEP (07 R213, R220, R244; 11 R344 to R349). -/

namespace Sys2Proof.Machine

open Sys2Proof

section
variable {s : State} {n : Nat} {e : Entry}

/-- Attention that is not computed ends its op with every entry counted as not computed. -/
theorem failAttn_ends {u : State} {o : Op} {a : AttnSt} (status : Nat) (hmem : e ∈ (ringOf s n).entries) (hring : RingOk (ringOf s n))
    (hrng : u.rng = (markStarted n e.idx s).rng) (hclk : u.clk = s.clk) (hattn : u.attn = s.attn)
    (hget : mget u.ops.tab s.ops.next = some o) (horing : o.ring = n) (hidx : o.idx = e.idx) (hbody : o.body = .attn a) (hrung : o.maxRung = 0)
    (hclose : NoClose u) : Ended n e { status := status, a := 0, b := a.ents.length } s (failAttn s.ops.next status a u) ∧
      (failAttn s.ops.next status a u).attn.failed = sat32 (s.attn.failed + a.ents.length) ∧
      (failAttn s.ops.next status a u).attn.ops = lmod s.attn.ops (a.opcode - opAttnDecode) (fun k => sat32 (k + 1)) := by
  generalize hv : modOp s.ops.next (fun o => { o with solo := nth o.solos o.maxRung 0 }) (dropUnits s.ops.next (u.modAttn fun x =>
    { x with ops := lmod x.ops (a.opcode - opAttnDecode) fun n => sat32 (n + 1), failed := sat32 (x.failed + a.ents.length) })) = v
  have hgetV : mget v.ops.tab s.ops.next = some { o with solo := nth o.solos o.maxRung 0 } := by
    rw [← hv]; exact modOp_get _ hget
  have hcloseV : NoClose v := by
    rw [← hv]
    exact (hclose.congr (t := dropUnits s.ops.next (u.modAttn fun x =>
      { x with ops := lmod x.ops (a.opcode - opAttnDecode) fun n => sat32 (n + 1), failed := sat32 (x.failed + a.ents.length) })) rfl).modOp _
      fun _ => .inl rfl
  have hfail : failAttn s.ops.next status a u = finishOp s.ops.next { status := status, a := 0, b := a.ents.length } v := by
    unfold failAttn endAttn
    dsimp only
    rw [hv, show mget (dropUnits s.ops.next (u.modAttn fun x => { x with
        ops := lmod x.ops (a.opcode - opAttnDecode) fun n => sat32 (n + 1), failed := sat32 (x.failed + a.ents.length) })).ops.tab s.ops.next =
      some o from hget]
    dsimp only
    rw [hbody, hrung]
  obtain ⟨hended, hfinish⟩ := finishOp_ended (u := v) { status := status, a := 0, b := a.ents.length } hmem hring (by rw [← hv]; exact hrng)
    (by rw [← hv]; exact hclk) hgetV horing hidx hcloseV
  rw [hfail]
  refine ⟨hended, ?_⟩
  rw [hfinish, (endEntry_touches (μ := partSet [.rng, .sch]) n e.idx _ _ rfl (.refl _ _)).attn.resolve_left (by decide), ← hv, ← hattn]
  exact ⟨rfl, rfl⟩

theorem attnBwd_dropped (hring : RingOk (ringOf s n)) (hclose : NoClose s) (h : starting opAttnBwd n s = some e) :
    let b := e.operands.getD []
    let a := attnAsked opAttnBwd b (ctxLadder (ctxOf s (ringOf s n).context))
    attnBad s (ringOf s n).context (ringOf s n).reqNode opAttnBwd b a = none → anyDropped s a = true →
    ∃ t, exec (.attnBwd n) s = .next t ∧ Ended n e { status := stDropped, a := 0, b := a.ents.length } s t ∧
      t.attn.failed = sat32 (s.attn.failed + a.ents.length) ∧ t.attn.ops = lmod s.attn.ops 2 fun k => sat32 (k + 1) := by
  intro b a hgood hdropped
  have hmem := (startable_mem (starting_some h).1).1
  have hnode : (ringOf (markStarted n e.idx s) n).reqNode = (ringOf s n).reqNode := by rw [markStarted_ring hmem]
  refine ⟨failAttn s.ops.next stDropped a (newOp (opOf (markStarted n e.idx s) n e (.attn a)) (markStarted n e.idx s)), ?_,
    failAttn_ends stDropped hmem hring rfl rfl rfl (newOp_get _ _) rfl rfl rfl rfl
      (NoClose.newOp (hclose.congr rfl) fun _ => nofun)⟩
  show execAttnBwd n s = _
  rw [execAttnBwd, startOp_starting (attnOp opAttnBwd n) h, attnOp]
  dsimp only
  rw [context_markStarted hmem, hnode, attnBad_marked, show attnBad s (ringOf s n).context (ringOf s n).reqNode opAttnBwd (e.operands.getD [])
    (attnAsked opAttnBwd (e.operands.getD []) (ctxLadder (ctxOf (markStarted n e.idx s) (ringOf s n).context))) = none from hgood]
  exact congrArg Host.Outcome.next (if_pos ((Bool.true_and _).trans hdropped))

/-- Settles O29: an attention op ends at its first failing check, or is dispatched; over a dropped page ATTN_BWD ends at once. -/
theorem attentionOpsStart : Obligations.AttentionOpsStart := by
  unfold Obligations.AttentionOpsStart
  intro s n e hring hclose b ctx start
  have hstart (op : Nat) (i : Instr) (hexec : ∀ e, starting op n s = some e → exec i s = .next (attnOp op n e (markStarted n e.idx s))) :
      start op i := by
    intro h
    obtain ⟨hbad, hgood⟩ := attnOp_cases op (startable_mem (starting_some h).1).1 hring
    refine ⟨fun c hc => ⟨_, hexec e h, hbad c hc⟩, fun hnone hdropped => ?_⟩
    obtain ⟨u, hprogress, hrung, honly, hdispatch⟩ := hgood hnone hdropped
    exact ⟨u, hprogress, hrung, honly, (hexec e h).trans (congrArg Host.Outcome.next hdispatch)⟩
  exact ⟨hstart opAttnDecode _ fun e h => congrArg Host.Outcome.next (startOp_starting _ h),
    hstart opAttnChunk _ fun e h => congrArg Host.Outcome.next (startOp_starting _ h),
    hstart opAttnBwd _ fun e h => congrArg Host.Outcome.next (startOp_starting _ h), attnBwd_dropped hring hclose⟩

/-- A STEP with a good header has its operands: without them it does not wait for room. -/
theorem stepWaits_eq (hop : eOpcode e.raw = opStep) : (match e.operands with
      | some b => eOpcode e.raw == opStep && stepHeadOk b && !stepRoom s (ringOf s n).context b
      | none => false) = (stepHeadOk (e.operands.getD []) && !stepRoom s (ringOf s n).context (e.operands.getD [])) := by
  cases e.operands with
  | none => rw [show stepHeadOk (Option.getD none []) = false by decide, Bool.false_and]
  | some b => rw [hop]; rfl

/-- A STEP waits at the head of its ring exactly when its header is good and there is no room. -/
theorem step_starts (h : starting opStep n s = some e) : exec (.step n) s = .next
    (if stepHeadOk (e.operands.getD []) && !stepRoom s (ringOf s n).context (e.operands.getD []) then s
      else stepOp n e (markStarted n e.idx s)) := by
  obtain ⟨hstart, hop, -⟩ := starting_some h
  show execStep n s = _
  rw [execStep, startOp_starting (stepOp n) h, hstart]
  exact congrArg Host.Outcome.next (ite_congr (propext (Bool.coe_iff_coe.mpr (stepWaits_eq hop))) (fun _ => rfl) fun _ => rfl)

theorem step_waits (h : starting opStep n s = some e) (hhead : stepHeadOk (e.operands.getD []) = true)
    (hroom : stepRoom s (ringOf s n).context (e.operands.getD []) = false) : exec (.step n) s = .next s := by
  rw [step_starts h, hhead, hroom]; rfl

theorem step_badHead (hring : RingOk (ringOf s n)) (h : starting opStep n s = some e) (hhead : stepHeadOk (e.operands.getD []) = false) :
    ∃ t, exec (.step n) s = .next t ∧ Ended n e (internal 0x50) s t ∧ t.seqs = s.seqs := by
  refine ⟨endNow n e (internal 0x50) (markStarted n e.idx s), ?_, endNow_ended _ (startable_mem (starting_some h).1).1 hring, (endNow_keeps n e _ _).1⟩
  rw [step_starts h, hhead]
  exact congrArg Host.Outcome.next (if_pos (congrArg not hhead))

/-- What the attention of a STEP fails, if anything. -/
def stepBad (s : State) (n : Nat) (b : List Byte) : Option Nat :=
  if stHasAttn b then
    attnBad (if dNewCached (stBlock b) then withAppends (stAppends b) s else s) (ringOf s n).context (ringOf s n).reqNode (field b 1 1) (stBlock b)
      (attnAsked (field b 1 1) (stBlock b) (stLadder s (ringOf s n).context b))
  else none

theorem stepBad_marked (hmem : e ∈ (ringOf s n).entries) (b : List Byte) : stepBad (markStarted n e.idx s) n b = stepBad s n b := by
  have hnode : (ringOf (markStarted n e.idx s) n).reqNode = (ringOf s n).reqNode := by rw [markStarted_ring hmem]
  have hview : (if dNewCached (stBlock b) then withAppends (stAppends b) (markStarted n e.idx s) else markStarted n e.idx s) =
      markStarted n e.idx (if dNewCached (stBlock b) then withAppends (stAppends b) s else s) := by
    split
    · exact withAppends_marked _ _ _ _
    · rfl
  unfold stepBad
  rw [hview, attnBad_marked, context_markStarted hmem, hnode]
  rfl

/-- The records of a STEP that begins, none started. -/
def stepBody (s : State) (n : Nat) (b : List Byte) : OpBody :=
  .step ((stAppends b).map fun x => { app := x }) (field b 0x18 8) (stFlags b)
    (if stHasAttn b then some (attnAsked (field b 1 1) (stBlock b) (stLadder s (ringOf s n).context b)) else none) none

section
variable (h : starting opStep n s = some e) (hhead : stepHeadOk (e.operands.getD []) = true)
  (hroom : stepRoom s (ringOf s n).context (e.operands.getD []) = true)

include h hhead hroom

/-- A STEP with room starts: its attention is checked. -/
theorem step_checks : exec (.step n) s = .next (match stepBad s n (e.operands.getD []) with
    | some c => endNow n e (internal c) (markStarted n e.idx s)
    | none =>
      let u := newOp (opOf (markStarted n e.idx s) n e (stepBody s n (e.operands.getD []))) (markStarted n e.idx s)
      if stHasAttn (e.operands.getD []) then
        dispatchAttn s.ops.next (modOp s.ops.next (fun o => { o with rung := modeRung (dMode (stBlock (e.operands.getD []))) }) u)
      else u) := by
  have hmem := (startable_mem (starting_some h).1).1
  rw [step_starts h, hhead, hroom, ← stepBad_marked hmem]
  unfold stepOp stepBody
  dsimp only
  rw [if_neg (by decide), if_neg (by rw [hhead]; decide), ← context_markStarted hmem]
  rfl

theorem step_badAttn {c : Nat} (hring : RingOk (ringOf s n)) (hbad : stepBad s n (e.operands.getD []) = some c) :
    ∃ t, exec (.step n) s = .next t ∧ Ended n e (internal c) s t ∧ t.seqs = s.seqs := by
  refine ⟨endNow n e (internal c) (markStarted n e.idx s), ?_, endNow_ended _ (startable_mem (starting_some h).1).1 hring, (endNow_keeps n e _ _).1⟩
  rw [step_checks h hhead hroom, hbad]

theorem step_begins (hgood : stepBad s n (e.operands.getD []) = none) :
    ∃ u, InProgress n e (stepBody s n (e.operands.getD [])) s u ∧ Only [.ops] (markStarted n e.idx s) u ∧
      (stHasAttn (e.operands.getD []) = false → exec (.step n) s = .next u) ∧
      (stHasAttn (e.operands.getD []) = true → exec (.step n) s = .next (dispatchAttn s.ops.next u)) := by
  have hexec := step_checks h hhead hroom
  rw [hgood] at hexec
  have honly := newOp_only (opOf (markStarted n e.idx s) n e (stepBody s n (e.operands.getD []))) (only_refl [.ops] (markStarted n e.idx s))
  have hget := newOp_get (opOf (markStarted n e.idx s) n e (stepBody s n (e.operands.getD []))) (markStarted n e.idx s)
  cases hattn : stHasAttn (e.operands.getD []) with
  | false =>
    rw [hattn] at hexec
    exact ⟨_, ⟨_, hget, rfl, rfl, rfl⟩, honly, fun _ => hexec, nofun⟩
  | true =>
    rw [hattn] at hexec
    exact ⟨_, ⟨_, modOp_get (fun o => { o with rung := modeRung (dMode (stBlock (e.operands.getD []))) }) hget, rfl, rfl, rfl⟩,
      modOp_only _ _ honly, nofun, fun _ => hexec⟩

end

end

section
variable {s : State} {op : Nat} {o : Op} {recs : List StepRec} {x y : Nat} {z : Option AttnSt} {w : Option (List Nat)}

theorem stepSubchunkIssue_drives (hget : mget s.ops.tab op = some o) (hbody : o.body = .step recs x y z w) :
    exec (.stepSubchunkIssue op) s = .next (driveStep op (issueFrom op (List.range recs.length) s)) := by
  have hstep : stepOf o = some (recs, x, y, z, w) := by rw [stepOf, hbody]
  show execStepSubchunkIssue op s = _
  rw [execStepSubchunkIssue, hget]
  dsimp only
  rw [hstep]

/-- With no record started the first that is free starts. -/
theorem issueFrom_first {r : StepRec} {rest : List StepRec} (hget : mget s.ops.tab op = some o) (hbody : o.body = .step recs x y z w)
    (hrecs : recs = r :: rest) (hfree : appending s r.app.seq = false) (hlimit : 0 < stepLimit s op o) (hnew : ∀ q ∈ recs, q.started = false) :
    issueFrom op (List.range recs.length) s = startRec op 0 o r s := by
  have hstep : stepOf o = some (recs, x, y, z, w) := by rw [stepOf, hbody]
  have hflight : count (fun (q : StepRec) => q.started && q.status.isNone) recs = 0 := by
    unfold count
    rw [List.length_eq_zero_iff]
    exact List.filter_eq_nil_iff.mpr fun q hq => by simp [hnew q hq]
  have hr : r.started = false := hnew r (hrecs ▸ List.mem_cons_self)
  have hrange : List.range recs.length = 0 :: (List.range rest.length).map Nat.succ := by
    rw [hrecs, List.length_cons, List.range_succ_eq_map]
  rw [hrange, issueFrom, hget]
  dsimp only
  rw [hstep]
  have hhead : ((some (recs, x, y, z, w)).bind fun x => x.1[0]?) = some r := by rw [hrecs]; rfl
  rw [hhead]
  refine (if_pos (by rw [hr]; rfl)).trans (if_neg ?_)
  show ¬ (appending s r.app.seq || decide (stepLimit s op o ≤ count (fun (q : StepRec) => q.started && q.status.isNone) recs)) = true
  rw [hflight, hfree]
  simpa using Nat.pos_iff_ne_zero.mp hlimit

/-- A record that fails a check of an append ends alone. -/
theorem startRec_refused {r : StepRec} {rest : List StepRec} {ans : Ans} (hget : mget s.ops.tab op = some o)
    (hbody : o.body = .step recs x y z w) (hrecs : recs = r :: rest) (hcheck : checkAppend s (seqMine s o.ctx r.app.seq) r.app = some ans) :
    ∃ o', mget (startRec op 0 o r s).ops.tab op = some o' ∧
      o'.body = .step ({ r with started := true, status := some (ans.status, ans.a, ans.b, ans.c) } :: rest) x y z w := by
  refine ⟨{ o with body := .step ({ r with started := true, status := some (ans.status, ans.a, ans.b, ans.c) } :: rest) x y z w }, ?_, rfl⟩
  unfold startRec
  rw [hcheck]
  refine (modOp_get _ hget).trans ?_
  rw [hbody, hrecs]
  rfl

end

/-- Settles O30: a STEP waits, ends at its first failing check or begins; its records start one by one. -/
theorem stepsRunTheirRecords : Obligations.StepsRunTheirRecords := by
  unfold Obligations.StepsRunTheirRecords
  intro s n e hring b ctx blk a bad
  refine ⟨fun h => ⟨step_waits h, step_badHead hring h, fun hhead hroom => ⟨fun c hc => step_badAttn h hhead hroom hring hc,
    step_begins h hhead hroom⟩⟩, fun op o recs x y z w hget hbody => ⟨stepSubchunkIssue_drives hget hbody, ?_⟩⟩
  intro r rest hrecs _ hfree hlimit hnew
  exact ⟨issueFrom_first hget hbody hrecs hfree hlimit hnew, fun ans => startRec_refused hget hbody hrecs⟩

end Sys2Proof.Machine
end

section
/-! SUPPORT. KV_FETCH, KV_PREFETCH, WT_STREAM and the tiles of a stream (07 R238, R239; 09 R292). -/

namespace Sys2Proof.Machine

open Sys2Proof

section
variable {s : State} {n : Nat} {e : Entry}

/-- The state with the entry started, an op of this body begun for it and its work noted. -/
def notedOp (n : Nat) (e : Entry) (b : OpBody) (opcode : Nat) (cls : Nat × Nat) (units : Nat) (s : State) : State :=
  noteWork s.ops.next opcode (ringOf s n).context cls units (newOp (opOf (markStarted n e.idx s) n e b) (markStarted n e.idx s))

theorem notedOp_only (b : OpBody) (opcode : Nat) (cls : Nat × Nat) (units : Nat) :
    Only [.ops] (markStarted n e.idx s) (notedOp n e b opcode cls units s) :=
  modOp_only _ _ (newOp_only _ (only_refl _ _))

theorem notedOp_get (b : OpBody) (opcode : Nat) (cls : Nat × Nat) (units : Nat) :
    ∃ o, mget (notedOp n e b opcode cls units s).ops.tab s.ops.next = some o ∧ o.ring = n ∧ o.idx = e.idx ∧ o.body = b ∧
      o.deadline = eDeadline e.raw := by
  obtain ⟨o, hget, hring, hidx, hbody, -, hdeadline⟩ := noteWork_get opcode (ringOf s n).context cls units
    (newOp_get (opOf (markStarted n e.idx s) n e b) (markStarted n e.idx s))
  exact ⟨o, hget, hring, hidx, hbody, hdeadline⟩

theorem notedOp_inProgress (b : OpBody) (opcode : Nat) (cls : Nat × Nat) (units : Nat) :
    InProgress n e b s (notedOp n e b opcode cls units s) := by
  obtain ⟨o, hget, hring, hidx, hbody, -⟩ := notedOp_get b opcode cls units
  exact ⟨o, hget, hring, hidx, hbody⟩

theorem kvFetch_starts (h : starting opKvFetch n s = some e) : exec (.kvFetch n) s = .next
    (match fetchBad s (ringOf s n).context ((e.operands.getD []).take 64) false with
    | some c => endNow n e (internal c) (markStarted n e.idx s)
    | none =>
      let b := (e.operands.getD []).take 64
      gather s.ops.next (deadlineFetch s.ops.next (notedOp n e (.fetch { desc := b, lays := List.replicate (fLayers b) {} }) opKvFetch
        (firstClass s (fSeq b) (fLayer0 b) (fFirst b)) (fCount b * (fHeads b).length * fLayers b) s))) := by
  show execKvFetch n s = _
  rw [execKvFetch, startOp_starting (kvFetch n) h, kvFetch]
  unfold notedOp
  dsimp only
  rw [context_markStarted (startable_mem (starting_some h).1).1]
  rfl

theorem kvPrefetch_starts (h : starting opKvPrefetch n s = some e) : exec (.kvPrefetch n) s = .next
    (match fetchBad s (ringOf s n).context ((e.operands.getD []).take 64) true with
    | some c => endNow n e (internal c) (markStarted n e.idx s)
    | none =>
      let b := (e.operands.getD []).take 64
      runPrefetch s.ops.next (notedOp n e (.prefetch { desc := b, todo := (List.range (fLayers b)).flatMap fun j =>
        (pagesOver s (fSeq b) (fLayer0 b + j) (fFirst b) (fFirst b + fCount b)).map fun x => (j, x.at_ (fSeq b)) }) opKvPrefetch
        (firstClass s (fSeq b) (fLayer0 b) (fFirst b)) (fCount b * (fHeads b).length * fLayers b) s)) := by
  show execKvPrefetch n s = _
  rw [execKvPrefetch, startOp_starting (kvPrefetch n) h, kvPrefetch]
  unfold notedOp
  dsimp only
  rw [context_markStarted (startable_mem (starting_some h).1).1]
  rfl

/-- Fetches without a deadline, or unmonitored, are not evaluated. -/
theorem deadlineFetch_idle {u : State} {id : Nat} {o : Op} {f : FetchSt} (hget : mget u.ops.tab id = some o) (hbody : o.body = .fetch f)
    (hidle : u.sch.monitorEn = false ∨ o.deadline = 0) : deadlineFetch id u = u := by
  unfold deadlineFetch
  rw [hget]
  dsimp only
  rw [hbody]
  exact if_pos (by rcases hidle with h | h <;> simp [h])

theorem kvFetch_refused {c : Nat} (hring : RingOk (ringOf s n)) (h : starting opKvFetch n s = some e)
    (hbad : fetchBad s (ringOf s n).context ((e.operands.getD []).take 64) false = some c) :
    ∃ t, exec (.kvFetch n) s = .next t ∧ Ended n e (internal c) s t ∧ t.attn = s.attn := by
  refine ⟨endNow n e (internal c) (markStarted n e.idx s), ?_, endNow_ended _ (startable_mem (starting_some h).1).1 hring, endNow_attn n e _ _⟩
  rw [kvFetch_starts h, hbad]

theorem kvFetch_begins (h : starting opKvFetch n s = some e)
    (hgood : fetchBad s (ringOf s n).context ((e.operands.getD []).take 64) false = none) :
    let b := (e.operands.getD []).take 64
    ∃ u, InProgress n e (.fetch { desc := b, lays := List.replicate (fLayers b) {} }) s u ∧
      Only [.ops] (markStarted n e.idx s) u ∧ exec (.kvFetch n) s = .next (gather s.ops.next (deadlineFetch s.ops.next u)) ∧
      (s.sch.monitorEn = false ∨ eDeadline e.raw = 0 → deadlineFetch s.ops.next u = u) := by
  intro b
  have hexec := kvFetch_starts h
  rw [hgood] at hexec
  refine ⟨_, notedOp_inProgress _ _ _ _, notedOp_only _ _ _ _, hexec, fun hidle => ?_⟩
  obtain ⟨o, hget, -, -, hbody, hdeadline⟩ := notedOp_get (s := s) (n := n) (e := e) (.fetch { desc := b, lays := List.replicate (fLayers b) {} }) opKvFetch
    (firstClass s (fSeq b) (fLayer0 b) (fFirst b)) (fCount b * (fHeads b).length * fLayers b)
  exact deadlineFetch_idle hget hbody (by rw [hdeadline]; exact hidle)

theorem kvPrefetch_refused {c : Nat} (hring : RingOk (ringOf s n)) (h : starting opKvPrefetch n s = some e)
    (hbad : fetchBad s (ringOf s n).context ((e.operands.getD []).take 64) true = some c) :
    ∃ t, exec (.kvPrefetch n) s = .next t ∧ Ended n e (internal c) s t ∧ t.attn = s.attn := by
  refine ⟨endNow n e (internal c) (markStarted n e.idx s), ?_, endNow_ended _ (startable_mem (starting_some h).1).1 hring, endNow_attn n e _ _⟩
  rw [kvPrefetch_starts h, hbad]

theorem kvPrefetch_begins (h : starting opKvPrefetch n s = some e)
    (hgood : fetchBad s (ringOf s n).context ((e.operands.getD []).take 64) true = none) :
    let b := (e.operands.getD []).take 64
    ∃ u, InProgress n e (.prefetch { desc := b, todo := (List.range (fLayers b)).flatMap fun j =>
        (pagesOver s (fSeq b) (fLayer0 b + j) (fFirst b) (fFirst b + fCount b)).map fun x => (j, x.at_ (fSeq b)) }) s u ∧
      Only [.ops] (markStarted n e.idx s) u ∧ exec (.kvPrefetch n) s = .next (runPrefetch s.ops.next u) := by
  intro b
  have hexec := kvPrefetch_starts h
  rw [hgood] at hexec
  exact ⟨_, notedOp_inProgress _ _ _ _, notedOp_only _ _ _ _, hexec⟩

/-- What WT_STREAM asks of an object. -/
theorem wtStream_starts (h : starting opWtStream n s = some e) : exec (.wtStream n) s = .next
    (match objNamed s (ringOf s n).context (field (eInline e.raw) 0 4 % 2 ^ 20) with
    | none => endNow n e (internal 0x43) (markStarted n e.idx s)
    | some w =>
      if !w.sealed || field (eInline e.raw) 8 4 == 0 || decide (w.size < field (eInline e.raw) 4 4 + field (eInline e.raw) 8 4) then
        endNow n e (internal 0x43) (markStarted n e.idx s)
      else driveStream s.ops.next (notedOp n e
        (.stream (field (eInline e.raw) 0 4 % 2 ^ 20) (field (eInline e.raw) 4 4) (field (eInline e.raw) 8 4) {}) opWtStream
        (((w.tiles[field (eInline e.raw) 4 4]?).map pageClass).getD (0, 1)) (1024 * field (eInline e.raw) 8 4) s)) := by
  show execWtStream n s = _
  rw [execWtStream, startOp_starting (wtStream n) h, wtStream]
  unfold notedOp
  dsimp only
  rw [context_markStarted (startable_mem (starting_some h).1).1]
  rfl

theorem streamBad_iff {w : WtObj} {first k : Nat} : (!w.sealed || k == 0 || decide (w.size < first + k)) = true ↔
    w.sealed = false ∨ k = 0 ∨ w.size < first + k := by simp [or_assoc]

theorem wtStream_refused (hring : RingOk (ringOf s n)) (h : starting opWtStream n s = some e)
    (hans : exec (.wtStream n) s = .next (endNow n e (internal 0x43) (markStarted n e.idx s))) :
    ∃ t, exec (.wtStream n) s = .next t ∧ Ended n e (internal 0x43) s t ∧ t.wt = s.wt :=
  ⟨_, hans, endNow_ended _ (startable_mem (starting_some h).1).1 hring, endNow_wt n e _ _⟩

end

section
variable {s : State} {op x i m : Nat} {o : Op} {t : TileSt}

/-- The op is the stream it was but for what is staged. -/
def StreamAs (op x i m : Nat) (t : TileSt) (u : State) : Prop :=
  ∃ o l, mget u.ops.tab op = some o ∧ o.body = .stream x i m { t with staged := l }

theorem StreamAs.congr {u v : State} (h : StreamAs op x i m t u) (hops : v.ops = u.ops) : StreamAs op x i m t v := by
  obtain ⟨o, l, hget, hbody⟩ := h
  exact ⟨o, l, hops ▸ hget, hbody⟩

/-- An update of the tiles that changes what is staged alone. -/
theorem StreamAs.modTileSts {u : State} (h : StreamAs op x i m t u) (f : List TileSt → List TileSt)
    (hf : ∀ l, ∃ k, (f [{ t with staged := l }]).headD { t with staged := l } = { t with staged := k }) :
    StreamAs op x i m t (modTileSts op f u) := by
  obtain ⟨o, l, hget, hbody⟩ := h
  obtain ⟨k, hk⟩ := hf l
  refine ⟨_, k, modOp_get _ hget, ?_⟩
  dsimp only
  rw [hbody]
  exact congrArg (OpBody.stream x i m) hk

theorem StreamAs.unstage {u : State} (h : StreamAs op x i m t u) (part lay j : Nat) : StreamAs op x i m t (unstage op part lay j u) := by
  unfold Machine.unstage
  split
  · exact h
  · refine (h.congr (v := uncharge part 0 _ u) rfl).modTileSts _ fun l => ?_
    cases lay with
    | zero => exact ⟨_, rfl⟩
    | succ k => exact ⟨_, rfl⟩

/-- What gives way for one tile is staged. -/
theorem dropFurthest_one {y : TileSt} {k : Nat} {l : List TileSt} (h : dropFurthest [y] = some (k, l)) :
    l = [{ y with staged := y.staged.dropLast }] := by
  unfold dropFurthest at h
  rw [show dropFurthest [] = none from rfl] at h
  dsimp only at h
  cases hlast : y.staged.getLast? with
  | none => rw [hlast] at h; cases h
  | some z => rw [hlast] at h; cases h; rfl

theorem StreamAs.makeRoom {u : State} (h : StreamAs op x i m t u) (part n fuel : Nat) : StreamAs op x i m t (makeRoom op part n fuel u) := by
  induction fuel generalizing u with
  | zero => exact h
  | succ fuel ih =>
    obtain ⟨o, l, hget, hbody⟩ := h
    have hsts : tileSts o = [{ t with staged := l }] := by unfold tileSts; rw [hbody]
    unfold Machine.makeRoom
    rw [hget]
    dsimp only
    split
    · exact ⟨o, l, hget, hbody⟩
    · split
      · exact ⟨o, l, hget, hbody⟩
      · next k rest hdrop =>
        rw [hsts] at hdrop
        rw [dropFurthest_one hdrop]
        exact ih ((StreamAs.congr (v := uncharge part 0 k u) ⟨o, l, hget, hbody⟩ rfl).modTileSts _ fun j => ⟨l.dropLast, rfl⟩)

theorem StreamAs.beginWork {u : State} (h : StreamAs op x i m t u) : StreamAs op x i m t (beginWork op u) := by
  obtain ⟨o, l, hget, hbody⟩ := h
  unfold Machine.beginWork
  rw [hget]
  dsimp only
  split
  · exact ⟨o, l, hget, hbody⟩
  · exact ⟨_, l, modOp_get (fun o => { o with began := true }) hget, hbody⟩

theorem StreamAs.sendSegs {u : State} (h : StreamAs op x i m t u) (lay j node addr key : Nat) (segs : List (Nat × List Byte)) :
    StreamAs op x i m t (sendSegs op lay j node addr key segs u) :=
  h.congr ((sendSegs_touches (μ := partSet [.link, .io, .sec]) op lay j node addr key segs rfl (.refl _ u)).ops.resolve_left (by decide))

theorem access_ops (cluster : Nat) (a : PageAt) (u : State) : (access cluster a u).ops = u.ops :=
  (access_touches (μ := partSet [.tier]) cluster a rfl (.refl _ u)).ops.resolve_left (by decide)

/-- The tile a stream sends next is counted as sent. -/
theorem StreamAs.sent {u : State} (h : StreamAs op x i m t u) : ∃ o' l,
    mget (Machine.modTileSts op (fun l => l.map fun y => { y with next := t.next + 1, sent := y.sent + 1 }) u).ops.tab op = some o' ∧
      o'.body = .stream x i m { t with next := t.next + 1, sent := t.sent + 1, staged := l } := by
  obtain ⟨o, l, hget, hbody⟩ := h
  refine ⟨_, l, modOp_get _ hget, ?_⟩
  dsimp only
  rw [hbody]
  rfl

variable (hget : mget s.ops.tab op = some o) (hbody : o.body = .stream x i m t)

include hget hbody

theorem tileSend_stream : exec (.tileSend op) s = .next (settleTiles op (streamTile op o x i m t s)) := by
  show execTileSend op s = _
  rw [execTileSend, hget]
  dsimp only
  rw [hbody]

/-- A tile that is not staged leaves no staging. -/
theorem streamTile_unstages (hstaged : (t.staged.find? fun y => y.tile == t.next) = none) (part : Nat) (a : PageAt) (cluster : Nat) :
    unstage op part 0 t.next (access cluster a s) = access cluster a s := by
  have hat : stagedAt o 0 t.next = none := by unfold stagedAt tileSts; rw [hbody]; exact hstaged
  unfold unstage
  rw [access_ops, hget, Option.bind_some, hat]

/-- A poisoned tile that is not staged counts as not sent. -/
theorem streamTile_poisoned {w : WtObj} {p : Page} (hnext : t.next < m) (hobj : mget s.wt.objs x = some w)
    (htile : w.tiles[i + t.next]? = some p) (hstaged : (t.staged.find? fun y => y.tile == t.next) = none)
    (hlost : tilePoisoned (access ((clustersFor s o.ctx).headD 0) (.tile x (i + t.next)) s) p = true) :
    ∃ o', mget (streamTile op o x i m t s).ops.tab op = some o' ∧
      o'.body = .stream x i m { t with next := t.next + 1, unsent := t.unsent + 1, poisoned := true } := by
  have hat : stagedAt o 0 t.next = none := by unfold stagedAt tileSts; rw [hbody]; exact hstaged
  have hgetA : mget (access ((clustersFor s o.ctx).headD 0) (.tile x (i + t.next)) s).ops.tab op = some o := by rw [access_ops]; exact hget
  have hsend : streamTile op o x i m t s = modTileSts op (fun l => l.map fun y =>
      { y with next := t.next + 1, unsent := y.unsent + 1, poisoned := true }) (access ((clustersFor s o.ctx).headD 0) (.tile x (i + t.next)) s) := by
    unfold streamTile
    rw [if_neg (Nat.not_le.mpr hnext)]
    dsimp only
    rw [hat, streamTile_unstages hget hbody hstaged]
    rw [show (((none : Option Staged).bind fun y => y.pages.head?.map (·.page)).orElse fun _ =>
      (mget s.wt.objs x).bind fun w => w.tiles[i + t.next]?) = some p by rw [hobj]; exact htile]
    exact if_pos (by rw [hlost]; rfl)
  rw [hsend]
  refine ⟨_, modOp_get _ hgetA, ?_⟩
  dsimp only
  rw [hbody]
  rfl

/-- A tile that is staged or good is sent. -/
theorem streamTile_sent {w : WtObj} {p : Page} (hnext : t.next < m) (hobj : mget s.wt.objs x = some w)
    (htile : w.tiles[i + t.next]? = some p)
    (hgood : (t.staged.find? fun y => y.tile == t.next) ≠ none ∨
      tilePoisoned (access ((clustersFor s o.ctx).headD 0) (.tile x (i + t.next)) s) p = false) :
    ∃ o' l, mget (streamTile op o x i m t s).ops.tab op = some o' ∧
      o'.body = .stream x i m { t with next := t.next + 1, sent := t.sent + 1, staged := l } := by
  have hat : stagedAt o 0 t.next = t.staged.find? fun y => y.tile == t.next := by unfold stagedAt tileSts; rw [hbody]; rfl
  have hstream : StreamAs op x i m t (unstage op (ctxOf s o.ctx).part 0 t.next (access ((clustersFor s o.ctx).headD 0) (.tile x (i + t.next)) s)) :=
    (StreamAs.congr ⟨o, t.staged, hget, hbody⟩ (access_ops _ _ s)).unstage _ _ _
  have hpage : ∃ q, (((stagedAt o 0 t.next).bind fun y => y.pages.head?.map (·.page)).orElse fun _ =>
      (mget s.wt.objs x).bind fun w => w.tiles[i + t.next]?) = some q ∧ (stagedAt o 0 t.next = none → q = p) := by
    rw [hobj, Option.bind_some, htile]
    cases hs : stagedAt o 0 t.next with
    | none => exact ⟨p, rfl, fun _ => rfl⟩
    | some y =>
      rw [Option.bind_some]
      cases y.pages.head?.map (·.page) with
      | none => exact ⟨p, rfl, nofun⟩
      | some q => exact ⟨q, rfl, nofun⟩
  obtain ⟨q, hq, hfound⟩ := hpage
  unfold streamTile
  rw [if_neg (Nat.not_le.mpr hnext)]
  dsimp only
  rw [hq]
  dsimp only
  rw [if_neg]
  · exact (((hstream.makeRoom _ _ _).beginWork).sendSegs _ _ _ _ _ _).sent
  · intro hlost
    rw [Bool.and_eq_true, Option.isNone_iff_eq_none] at hlost
    obtain ⟨hnone, hlost⟩ := hlost
    rw [streamTile_unstages hget hbody (hat ▸ hnone), hfound hnone] at hlost
    rcases hgood with h | h
    · exact h (hat ▸ hnone)
    · rw [h] at hlost; cases hlost

end

/-- Settles O31: a fetch, a prefetch and a stream each end at their first failing check or begin; a tile is sent or counted as not sent. -/
theorem fetchesAndStreams : Obligations.FetchesAndStreams := by
  unfold Obligations.FetchesAndStreams
  intro s n e hring il b ctx obj first k todo
  refine ⟨fun h => ⟨fun c => kvFetch_refused hring h, kvFetch_begins h⟩, fun h => ⟨fun c => kvPrefetch_refused hring h, kvPrefetch_begins h⟩,
    fun h => ⟨fun hnone => wtStream_refused hring h ?_, fun w hobj => ⟨fun hbad => wtStream_refused hring h ?_, fun hsealed hk hsize => ?_⟩⟩,
    fun op o hget => ⟨fun f hbody => ?_, fun x i m t hbody => ⟨tileSend_stream hget hbody, fun w p hnext hobj htile =>
      ⟨streamTile_poisoned hget hbody hnext hobj htile, streamTile_sent hget hbody hnext hobj htile⟩⟩⟩⟩
  · rw [wtStream_starts h, show objNamed s _ _ = none from hnone]
  · rw [wtStream_starts h, show objNamed s _ _ = some w from hobj]
    exact congrArg Host.Outcome.next (if_pos (streamBad_iff.mpr hbad))
  · have hexec := wtStream_starts h
    rw [show objNamed s (ringOf s n).context (field (eInline e.raw) 0 4 % 2 ^ 20) = some w from hobj] at hexec
    refine ⟨_, hexec.trans (congrArg Host.Outcome.next (if_neg fun hbad => ?_)), notedOp_inProgress _ _ _ _, notedOp_only _ _ _ _⟩
    rcases streamBad_iff.mp hbad with h | h | h
    · rw [hsealed] at h; cases h
    · exact hk h
    · exact absurd h (Nat.not_lt.mpr hsize)
  · show execTileSend op s = _
    rw [execTileSend, hget]
    dsimp only
    rw [hbody]

end Sys2Proof.Machine
end

section
/-! SUPPORT. WT_LOAD (09 R289 to R291). -/

namespace Sys2Proof.Machine

open Sys2Proof

section
variable {s : State} {n : Nat} {e : Entry}

theorem wtLoad_starts (h : starting opWtLoad n s = some e) (hready : bit (field (eInline e.raw) 4 1) 0 = false ∨ s.start.wearReady = true) :
    exec (.wtLoad n) s = .next (wtLoad n e (markStarted n e.idx s)) := by
  obtain ⟨hstart, -, -⟩ := starting_some h
  have hopen : (bit (field (eInline e.raw) 4 1) 0 && !s.start.wearReady) = false := by rcases hready with h | h <;> simp [h]
  show execWtLoad n s = _
  rw [execWtLoad, startOp_starting (wtLoad n) h, hstart]
  exact congrArg Host.Outcome.next (if_neg (by dsimp only; rw [Bool.and_assoc, hopen, Bool.and_false]; decide))

theorem wtLoad_waits (h : starting opWtLoad n s = some e) (hcreate : bit (field (eInline e.raw) 4 1) 0 = true) (hscan : s.start.wearReady = false) :
    exec (.wtLoad n) s = .next s := by
  obtain ⟨hstart, hop, -⟩ := starting_some h
  show execWtLoad n s = _
  rw [execWtLoad, hstart]
  exact congrArg Host.Outcome.next (if_pos (by dsimp only; rw [hop, hcreate, hscan]; rfl))

/-- A load that is refused ends and changes no object. -/
theorem wtLoad_ends {a : Ans} (hring : RingOk (ringOf s n)) (h : starting opWtLoad n s = some e)
    (hready : bit (field (eInline e.raw) 4 1) 0 = false ∨ s.start.wearReady = true)
    (hans : wtLoad n e (markStarted n e.idx s) = endNow n e a (markStarted n e.idx s)) :
    ∃ t, exec (.wtLoad n) s = .next t ∧ Ended n e a s t ∧ t.wt = s.wt :=
  ⟨_, (wtLoad_starts h hready).trans (congrArg Host.Outcome.next hans), endNow_ended _ (startable_mem (starting_some h).1).1 hring, endNow_wt n e _ _⟩

/-- The loop in which a load asks for its tiles, on a state in which its object stands. -/
def loadBegun (n : Nat) (e : Entry) (ctx x first id : Nat) (v : State) : State :=
  let il := eInline e.raw
  let k := field il 24 4
  let seals := bit (field il 4 1) 1
  runLoad id (forEach (List.range k) (fun i u =>
    beginRead (.op id i) (field il 14 2) ((field il 8 6 + 65536 * i) % 2 ^ 48) 65536 (ringOf u n).key u)
    (newOp (opOf (countWait ctx e.arrival v) n e (.wtLoad x first k seals [])) (countWait ctx e.arrival v)))

theorem loadBegun_inProgress {ctx x first : Nat} {w : WtObj} {v : State} (hops : v.ops = s.ops) (hobj : mget v.wt.objs x = some w)
    (hfirst : first = w.tiles.length) (hk : field (eInline e.raw) 24 4 ≠ 0) :
    InProgress n e (.wtLoad x first (field (eInline e.raw) 24 4) (bit (field (eInline e.raw) 4 1) 1) []) s (loadBegun n e ctx x first v.ops.next v) ∧
      readsDone (loadBegun n e ctx x first v.ops.next v) s.ops.next = false ∧ (loadBegun n e ctx x first v.ops.next v).wt = v.wt := by
  obtain ⟨t, ht, hbegun⟩ := load_begins (s := s) (n := n) (e := e) ctx (field (eInline e.raw) 24 4) x first (field (eInline e.raw) 14 2)
    (field (eInline e.raw) 8 6) (bit (field (eInline e.raw) 4 1) 1) w v hops hobj hfirst hk
  rw [hops, show loadBegun n e ctx x first s.ops.next v = t from ht]
  exact hbegun

section
variable (hring : RingOk (ringOf s n)) (h : starting opWtLoad n s = some e) (hcreate : bit (field (eInline e.raw) 4 1) 0 = true)
  (hready : s.start.wearReady = true)

include hring h hcreate hready

theorem wtLoad_noNumber (hnone : s.wt.freeQ.take = none) :
    ∃ t, exec (.wtLoad n) s = .next t ∧ Ended n e { status := stNoSpace } s t ∧ t.wt = s.wt := by
  refine wtLoad_ends hring h (.inr hready) ?_
  unfold wtLoad
  dsimp only
  rw [if_pos hcreate, show (markStarted n e.idx s).wt.freeQ.take = none from hnone]

variable {x : Nat} {fq : FreeQ} (hnumber : s.wt.freeQ.take = some (x, fq))

include hnumber

theorem wtLoad_newBadSizes (hbad : field (eInline e.raw) 16 4 = 0 ∨ 1048576 < field (eInline e.raw) 16 4 ∨ field (eInline e.raw) 20 4 ≠ 0 ∨
      (field (eInline e.raw) 24 4 = 0 ∨ field (eInline e.raw) 16 4 < field (eInline e.raw) 20 4 + field (eInline e.raw) 24 4 ∨
        (bit (field (eInline e.raw) 4 1) 1 = true ∧ field (eInline e.raw) 20 4 + field (eInline e.raw) 24 4 ≠ field (eInline e.raw) 16 4))) :
    ∃ t, exec (.wtLoad n) s = .next t ∧ Ended n e (internal 0x43) s t ∧ t.wt = s.wt := by
  refine wtLoad_ends hring h (.inr hready) ?_
  unfold wtLoad
  dsimp only
  rw [if_pos hcreate, show (markStarted n e.idx s).wt.freeQ.take = some (x, fq) from hnumber]
  exact if_pos (newSizes_bad.mpr hbad)

variable (hgood : ¬ (field (eInline e.raw) 16 4 = 0 ∨ 1048576 < field (eInline e.raw) 16 4 ∨ field (eInline e.raw) 20 4 ≠ 0 ∨
      (field (eInline e.raw) 24 4 = 0 ∨ field (eInline e.raw) 16 4 < field (eInline e.raw) 20 4 + field (eInline e.raw) 24 4 ∨
        (bit (field (eInline e.raw) 4 1) 1 = true ∧ field (eInline e.raw) 20 4 + field (eInline e.raw) 24 4 ≠ field (eInline e.raw) 16 4))))

include hgood

theorem wtLoad_noFrames
    (hnone : takeRun (ctxOf s (ringOf s n).context).part (framesFor (8 * field (eInline e.raw) 16 4)) (markStarted n e.idx s) = none) :
    ∃ t, exec (.wtLoad n) s = .next t ∧ Ended n e { status := (if covers s (ctxOf s (ringOf s n).context).part 1
      (frameBytes (framesFor (8 * field (eInline e.raw) 16 4))) then stNoSpace else stQuota) } s t ∧
      t.wt = s.wt := by
  refine wtLoad_ends hring h (.inr hready) ?_
  unfold wtLoad
  dsimp only
  rw [if_pos hcreate, show (markStarted n e.idx s).wt.freeQ.take = some (x, fq) from hnumber]
  refine (if_neg fun hb => hgood (newSizes_bad.mp hb)).trans ?_
  rw [context_markStarted (startable_mem (starting_some h).1).1,
    show takeRun (ctxOf (markStarted n e.idx s) (ringOf s n).context).part _ _ = none from hnone]
  rfl

omit hring in
theorem wtLoad_creates {run : Run} {v : State}
    (hrun : takeRun (ctxOf s (ringOf s n).context).part (framesFor (8 * field (eInline e.raw) 16 4)) (markStarted n e.idx s) = some (run, v)) :
    ∃ t w, exec (.wtLoad n) s = .next t ∧
      InProgress n e (.wtLoad x 0 (field (eInline e.raw) 24 4) (bit (field (eInline e.raw) 4 1) 1) []) s t ∧ mget t.wt.objs x = some w ∧
      w.size = field (eInline e.raw) 16 4 ∧ w.part = (ctxOf s (ringOf s n).context).part ∧ w.tenant = (ctxOf s (ringOf s n).context).tenant ∧
      w.hint = field (eInline e.raw) 5 1 % 4 ∧ w.prio = field (eInline e.raw) 6 1 ∧ w.table = some run ∧ w.tiles = [] ∧ w.sealed = false ∧
      t.wt.freeQ = fq := by
  have hcontext := context_markStarted (startable_mem (starting_some h).1).1
  have hfirst : field (eInline e.raw) 20 4 = 0 := Classical.not_not.mp fun hne => hgood (.inr (.inr (.inl hne)))
  have hk : field (eInline e.raw) 24 4 ≠ 0 := fun hz => hgood (.inr (.inr (.inr (.inl hz))))
  have htaken := takeRun_touches (μ := partSet [.coh, .hbm]) (ctxOf s (ringOf s n).context).part (framesFor (8 * field (eInline e.raw) 16 4)) rfl
    (.refl _ (markStarted n e.idx s))
  rw [hrun] at htaken
  have hopsV : v.ops = s.ops := htaken.ops.resolve_left (by decide)
  obtain ⟨w, hw⟩ : ∃ w : WtObj, w = {
      oid := (takeSeq 1 v).1, part := (ctxOf s (ringOf s n).context).part, tenant := (ctxOf s (ringOf s n).context).tenant
      size := field (eInline e.raw) 16 4, hint := field (eInline e.raw) 5 1 % 4, prio := field (eInline e.raw) 6 1, table := some run } := ⟨_, rfl⟩
  obtain ⟨z, hz⟩ : ∃ z, z = catWeight x ((takeSeq 1 v).2.modWt fun y => { y with objs := mset y.objs x w, freeQ := fq }) := ⟨_, rfl⟩
  have touched : Touches (partSet [.ftl]) ((takeSeq 1 v).2.modWt fun y => { y with objs := mset y.objs x w, freeQ := fq }) z := by
    rw [hz]; exact catWeight_touches x rfl (.refl _ _)
  have hopsZ : z.ops = s.ops := (touched.ops.resolve_left (by decide)).trans hopsV
  have hwtZ : z.wt = { v.wt with objs := mset v.wt.objs x w, freeQ := fq } := touched.wt.resolve_left (by decide)
  have hobj : mget z.wt.objs x = some w := by rw [hwtZ]; exact mget_mset _ _ _
  obtain ⟨hprogress, -, hwt⟩ := loadBegun_inProgress (n := n) (e := e) (ctx := (ringOf s n).context) (first := 0) hopsZ hobj (by rw [hw]; rfl) hk
  have hload : wtLoad n e (markStarted n e.idx s) = loadBegun n e (ringOf s n).context x 0 z.ops.next z := by
    unfold wtLoad
    dsimp only
    rw [if_pos hcreate, show (markStarted n e.idx s).wt.freeQ.take = some (x, fq) from hnumber]
    refine (if_neg fun hb => hgood (newSizes_bad.mp hb)).trans ?_
    rw [hcontext, show takeRun (ctxOf (markStarted n e.idx s) (ringOf s n).context).part _ _ = some (run, v) from hrun, hz, hw, hfirst]
    rfl
  refine ⟨_, w, (wtLoad_starts h (.inr hready)).trans (congrArg Host.Outcome.next hload), hprogress, by rw [hwt]; exact hobj, ?_⟩
  rw [hwt, hwtZ, hw]
  exact ⟨rfl, rfl, rfl, rfl, rfl, rfl, rfl, rfl, rfl⟩

end

section
variable (hring : RingOk (ringOf s n)) (h : starting opWtLoad n s = some e) (hold : bit (field (eInline e.raw) 4 1) 0 = false)

include hring h hold

theorem wtLoad_unknown (hnone : objNamed s (ringOf s n).context (field (eInline e.raw) 0 4 % 2 ^ 20) = none) :
    ∃ t, exec (.wtLoad n) s = .next t ∧ Ended n e (internal 0x40) s t ∧ t.wt = s.wt := by
  refine wtLoad_ends hring h (.inl hold) ?_
  unfold wtLoad
  dsimp only
  rw [if_neg (by rw [hold]; decide), context_markStarted (startable_mem (starting_some h).1).1,
    show objNamed (markStarted n e.idx s) _ _ = none from hnone]

variable {w : WtObj} (hobj : objNamed s (ringOf s n).context (field (eInline e.raw) 0 4 % 2 ^ 20) = some w)

include hobj

theorem wtLoad_moreBadSizes (hbad : w.sealed = true ∨ field (eInline e.raw) 20 4 ≠ w.tiles.length ∨
      (field (eInline e.raw) 24 4 = 0 ∨ w.size < field (eInline e.raw) 20 4 + field (eInline e.raw) 24 4 ∨
        (bit (field (eInline e.raw) 4 1) 1 = true ∧ field (eInline e.raw) 20 4 + field (eInline e.raw) 24 4 ≠ w.size))) :
    ∃ t, exec (.wtLoad n) s = .next t ∧ Ended n e (internal 0x43) s t ∧ t.wt = s.wt := by
  refine wtLoad_ends hring h (.inl hold) ?_
  unfold wtLoad
  dsimp only
  rw [if_neg (by rw [hold]; decide), context_markStarted (startable_mem (starting_some h).1).1,
    show objNamed (markStarted n e.idx s) _ _ = some w from hobj]
  exact if_pos (moreSizes_bad.mpr hbad)

omit hring in
theorem wtLoad_goesOn (hopen : w.sealed = false) (hfirst : field (eInline e.raw) 20 4 = w.tiles.length)
    (hgood : ¬ (field (eInline e.raw) 24 4 = 0 ∨ w.size < field (eInline e.raw) 20 4 + field (eInline e.raw) 24 4 ∨
        (bit (field (eInline e.raw) 4 1) 1 = true ∧ field (eInline e.raw) 20 4 + field (eInline e.raw) 24 4 ≠ w.size))) :
    ∃ t, exec (.wtLoad n) s = .next t ∧
        InProgress n e (.wtLoad (field (eInline e.raw) 0 4 % 2 ^ 20) (field (eInline e.raw) 20 4) (field (eInline e.raw) 24 4)
          (bit (field (eInline e.raw) 4 1) 1) []) s t ∧ readsDone t s.ops.next = false ∧ t.wt = s.wt := by
  have hcontext := context_markStarted (startable_mem (starting_some h).1).1
  have hget : mget s.wt.objs (field (eInline e.raw) 0 4 % 2 ^ 20) = some w := by
    unfold objNamed at hobj
    split at hobj
    · cases hobj
    · next x hx =>
      split at hobj
      · rw [← hobj]; exact hx
      · cases hobj
  have hload : wtLoad n e (markStarted n e.idx s) = loadBegun n e (ringOf s n).context (field (eInline e.raw) 0 4 % 2 ^ 20)
      (field (eInline e.raw) 20 4) (markStarted n e.idx s).ops.next (markStarted n e.idx s) := by
    unfold wtLoad
    dsimp only
    rw [if_neg (by rw [hold]; decide), hcontext, show objNamed (markStarted n e.idx s) _ _ = some w from hobj]
    refine (if_neg fun hb => ?_).trans rfl
    rcases moreSizes_bad.mp hb with hx | hx | hx
    · rw [hopen] at hx; cases hx
    · exact hx hfirst
    · exact hgood hx
  exact ⟨_, (wtLoad_starts h (.inl hold)).trans (congrArg Host.Outcome.next hload),
    loadBegun_inProgress (v := markStarted n e.idx s) rfl hget hfirst fun hz => hgood (.inl hz)⟩

end

end

/-- Settles O32: a load creates its object or takes the one it names, and asks for its tiles; each check that fails ends it. -/
theorem weightLoadsReadTheirTiles : Obligations.WeightLoadsReadTheirTiles := by
  unfold Obligations.WeightLoadsReadTheirTiles
  intro s n e hring h il ctx c create seals o first k size u bad
  refine ⟨wtLoad_waits h, fun hcreate hready => ⟨wtLoad_noNumber hring h hcreate hready, fun x fq hnumber =>
    ⟨wtLoad_newBadSizes hring h hcreate hready hnumber, fun hsome hmost hfirst hgood => ?_⟩⟩, fun hold => ⟨wtLoad_unknown hring h hold, fun w hobj =>
    ⟨wtLoad_moreBadSizes hring h hold hobj, wtLoad_goesOn h hold hobj⟩⟩⟩
  have hsizes : ¬ (size = 0 ∨ 1048576 < size ∨ first ≠ 0 ∨ bad size) := by
    rintro (hz | hz | hz | hz)
    · exact hsome hz
    · exact absurd hz (Nat.not_lt.mpr hmost)
    · exact hz hfirst
    · exact hgood hz
  exact ⟨wtLoad_noFrames hring h hcreate hready hnumber hsizes, fun run v => wtLoad_creates h hcreate hready hnumber hsizes⟩

end Sys2Proof.Machine
end

section
/-! SUPPORT. Context entries, deadlines and slowdowns (11 R340, R341, R357, R364, R365). -/

namespace Sys2Proof.Machine

open Sys2Proof

section
variable {s : State} {path : Path}

/-- An operator's context command reaches the entries; one that is refused sets err. -/
theorem ctxCmd_operator (hop : operates path 0xA0204 s = true) (hfree : s.sch.ctxBusy = false) (f : Party → State → Option State) :
    regAccess path 0xA0204 (ctxCmd path f) s = (f .operator s).getD { s with sch := { s.sch with ctxErr := true } } := by
  obtain ⟨hreg, hparty⟩ := operates_access hop (ctxCmd path f)
  rw [hreg, ctxCmd, hfree, isOperator_eq hparty]
  dsimp only
  rw [if_neg (by decide)]
  cases f .operator s <;> rfl

/-- The entry a write puts at the selected place. -/
def writtenCtx (s : State) : Ctx :=
  let old := ctxOf s s.sch.ctxSel
  let c := ctxParse s.sch.ctxData old
  if c.enable && !old.enable then enableCtx s c else c

theorem ctxWrite_operator (hop : operates path 0xA0204 s = true) (hfree : s.sch.ctxBusy = false) : exec (.ctxWrite path) s = .next
    (if !ctxOk s s.sch.ctxSel (ctxOf s s.sch.ctxSel) (ctxParse s.sch.ctxData (ctxOf s s.sch.ctxSel)) then { s with sch := { s.sch with ctxErr := true } }
      else { s with sch := { s.sch with ctxs := mset s.sch.ctxs s.sch.ctxSel (writtenCtx s) } }) := by
  refine congrArg Host.Outcome.next ((ctxCmd_operator hop hfree _).trans ?_)
  cases hok : ctxOk s s.sch.ctxSel (ctxOf s s.sch.ctxSel) (ctxParse s.sch.ctxData (ctxOf s s.sch.ctxSel)) <;>
    simp [mayCtx, hok, State.modSch, writtenCtx]

theorem ctxRead_operator (hop : operates path 0xA0204 s = true) (hfree : s.sch.ctxBusy = false) :
    exec (.ctxRead path) s = .next { s with sch := { s.sch with ctxData := ctxBytes (ctxOf s s.sch.ctxSel) } } :=
  congrArg Host.Outcome.next (ctxCmd_operator hop hfree _)

theorem ctxDisable_operator (hop : operates path 0xA0204 s = true) (hfree : s.sch.ctxBusy = false) : exec (.ctxDisable path) s = .next
    (if (ctxOf s s.sch.ctxSel).enable && ringBound s s.sch.ctxSel then { s with sch := { s.sch with ctxErr := true } }
      else { s with sch := { s.sch with ctxs := mmod s.sch.ctxs s.sch.ctxSel fun c => { c with enable := false } } }) := by
  refine congrArg Host.Outcome.next ((ctxCmd_operator hop hfree _).trans ?_)
  cases hbound : (ctxOf s s.sch.ctxSel).enable && ringBound s s.sch.ctxSel <;> simp [mayCtx, hbound, State.modSch]

end

section
variable {s : State} {op : Nat} {o : Op} {a : AttnSt}

/-- An evaluation that finds nothing to do leaves the op. -/
theorem evalAttn_idle (hget : mget s.ops.tab op = some o) (hbody : o.body = .attn a)
    (hidle : s.sch.monitorEn = false ∨ o.deadline = 0 ∨ unstarted s op = []) : evalAttn op s = s := by
  have hattn : attnOf o = some a := by rw [attnOf, hbody]
  unfold evalAttn
  rw [hget]
  dsimp only
  rw [hattn]
  exact if_pos (by rcases hidle with h | h | h <;> simp [h])

/-- An evaluation moves the op to the first rung that meets its deadline. -/
theorem evalAttn_moves (hget : mget s.ops.tab op = some o) (hbody : o.body = .attn a) (hmonitor : s.sch.monitorEn = true)
    (hdeadline : o.deadline ≠ 0) (hunits : unstarted s op ≠ []) : evalAttn op s = modOp op (fun p => { p with
      rung := pickRung ((attnRungs a).filter fun r => r != 4 || noneStarted s op a) o.rung
        fun r => decide (tPred s a.opcode o.ctx (attnWork s op a r) ≤ o.arrival + o.deadline) }) s := by
  have hattn : attnOf o = some a := by rw [attnOf, hbody]
  unfold evalAttn
  rw [hget]
  dsimp only
  rw [hattn]
  exact if_neg (by simp [hmonitor, hdeadline, hunits])

/-- An op at another rung than ABSTAIN is left as it is evaluated. -/
theorem deadlineEvaluation_settles {u : State} {p : Op} (heval : evalAttn op s = u) (hget : mget u.ops.tab op = some p) (hbody : p.body = .attn a)
    (hrung : p.rung ≠ 4) : exec (.deadlineEvaluation op) s = .next u := by
  have hattn : attnOf p = some a := by rw [attnOf, hbody]
  have hsettle : settleAbstain op u = u := by
    unfold settleAbstain
    rw [hget]
    dsimp only
    rw [hattn]
    exact if_neg (by simpa using hrung)
  have hfetch : deadlineFetch op u = u := by
    unfold deadlineFetch
    rw [hget]
    dsimp only
    rw [hbody]
  show execDeadlineEvaluation op s = _
  rw [execDeadlineEvaluation, deadlineAttn, heval, hsettle, hfetch]

end

/-- What a table holds at a key once every entry has been changed. -/
theorem mget_map_snd {α : Type} (f : α → α) (m : AMap α) (k : Nat) : mget (m.map fun x => (x.1, f x.2)) k = (mget m k).map f := by
  induction m with
  | nil => rfl
  | cons x r ih =>
    simp only [List.map_cons, mget]
    split
    · rfl
    · exact ih

/-- A context once its slowdown has been published. -/
def slowdownPublished (c : Ctx) : Ctx := { c with slow := slowdownOf c, slowOps := sat16 c.opsDone, actual := 0, solo := 0, opsDone := 0 }

theorem slowdownPublished_eq (c : Ctx) : slowdownPublished c = { c with
    slow := if c.opsDone = 0 ∨ c.solo = 0 then 0 else min 65535 (c.actual * 256 / c.solo), slowOps := min 65535 c.opsDone
    actual := 0, solo := 0, opsDone := 0 } := by
  simp [slowdownPublished, slowdownOf, sat16, Nat.min_comm]

/-- Settles O34: the operator's context commands, an op's evaluation, and each context's slowdown. -/
theorem contextsDeadlinesSlowdowns : Obligations.ContextsDeadlinesSlowdowns := by
  unfold Obligations.ContextsDeadlinesSlowdowns
  intro s path n old c
  refine ⟨fun hop hfree => ⟨fun hok => ?_, fun hbad => ?_, ctxRead_operator hop hfree, fun hfreed => ?_, fun henabled hbound => ?_⟩,
    fun op o a hget hbody => ⟨fun hidle hrung => deadlineEvaluation_settles (evalAttn_idle hget hbody hidle) hget hbody hrung,
      fun hmonitor hdeadline hunits r hr hrung => ?_⟩, fun hwork => ?_⟩
  · refine (ctxWrite_operator hop hfree).trans (congrArg Host.Outcome.next (if_neg ?_))
    rw [show ctxOk s s.sch.ctxSel (ctxOf s s.sch.ctxSel) (ctxParse s.sch.ctxData (ctxOf s s.sch.ctxSel)) = true from hok]
    decide
  · exact (ctxWrite_operator hop hfree).trans (congrArg Host.Outcome.next (if_pos (congrArg not hbad)))
  · exact (ctxDisable_operator hop hfree).trans (congrArg Host.Outcome.next (if_neg (by
      rcases hfreed with h | h
      · rw [show (ctxOf s s.sch.ctxSel).enable = false from h, Bool.false_and]; decide
      · rw [show ringBound s s.sch.ctxSel = false from h, Bool.and_false]; decide)))
  · exact (ctxDisable_operator hop hfree).trans (congrArg Host.Outcome.next (if_pos (by
      rw [show (ctxOf s s.sch.ctxSel).enable = true from henabled, show ringBound s s.sch.ctxSel = true from hbound]; rfl)))
  · have heval := evalAttn_moves hget hbody hmonitor hdeadline hunits
    rw [← hr] at heval
    exact deadlineEvaluation_settles heval (modOp_get _ hget) hbody hrung
  · refine ⟨_, congrArg Host.Outcome.next (working_on _ hwork), (Touches.modSch _ rfl (.refl _ s)).only, fun k => ?_⟩
    refine (mget_map_snd slowdownPublished s.sch.ctxs k).trans ?_
    congr 1
    funext x
    exact slowdownPublished_eq x

end Sys2Proof.Machine
end

section
/-! SUPPORT. Heat, the background mover, moves and quotas (09 R279 to R281, R285). -/

namespace Sys2Proof.Machine

open Sys2Proof

section
variable {s : State} {part : Nat}

/-- A halving that is due begins. -/
theorem startHalving_due {u : State} (hdue : u.tier.due ≠ 0) (hsweep : u.tier.sweep = false) : startHalving u = { u with tier := { u.tier with
    due := u.tier.due - 1, sweep := true, halvings := u.tier.halvings + 1, heat := u.tier.heat.map fun x => (x.1, x.2 / 2)
    flashHeat := u.tier.flashHeat.map fun x => (x.1, x.2.1, x.2.2 / 2) } } := if_neg (by simp [hdue, hsweep])

theorem startHalving_idle {u : State} (h : u.tier.due = 0 ∨ u.tier.sweep = true) : startHalving u = u :=
  if_pos (by rcases h with h | h <;> simp [h])

theorem halvingSweepEnd_ends (hwork : atRest s = false) (hsweep : s.tier.sweep = true) : exec .halvingSweepEnd s =
    .next (startHalving (s.modTier fun t => { t with sweep := false, warm := true, halvEnded := t.halvEnded + 1 })) :=
  congrArg Host.Outcome.next ((working_on _ hwork).trans (if_pos hsweep))

theorem halvingSweepEnd_idle (hwork : atRest s = false) (hsweep : s.tier.sweep = false) : exec .halvingSweepEnd s = .next s :=
  congrArg Host.Outcome.next ((working_on _ hwork).trans (if_neg (by rw [hsweep]; decide)))

/-- Whether a partition demotes in the background (R280). -/
def demotes (s : State) (part : Nat) : Bool :=
  s.tier.warm && (decide (freeHbm s part < lowMark s part) || (s.tier.relief.contains part && decide (freeHbm s part < highMark s part))) &&
    !(coolPages s part).isEmpty

theorem demotes_iff : demotes s part = true ↔ s.tier.warm = true ∧
    (freeHbm s part < lowMark s part ∨ (part ∈ s.tier.relief ∧ freeHbm s part < highMark s part)) ∧ coolPages s part ≠ [] := by
  simp [demotes, and_assoc]

/-- The state with the partition's demotion turned on or off. -/
def reliefSet (s : State) (part : Nat) : State :=
  s.modTier fun t => { t with
    relief := if demotes s part then (if t.relief.contains part then t.relief else t.relief ++ [part]) else t.relief.filter (· != part) }

theorem backgroundMove_moves (hwork : atRest s = false) : exec (.backgroundMove part) s = .next
    (if s.start.wearReady && decide (movesOf s part < 64) then firstMove (pickMove (reliefSet s part) part (demotes s part)) (reliefSet s part)
      else reliefSet s part) :=
  congrArg Host.Outcome.next (working_on _ hwork)

theorem mem_relief_self : part ∈ (reliefSet s part).tier.relief ↔ demotes s part = true := by
  show part ∈ (if demotes s part then (if s.tier.relief.contains part then s.tier.relief else s.tier.relief ++ [part])
    else s.tier.relief.filter (· != part)) ↔ _
  cases hon : demotes s part with
  | false => simp
  | true =>
    rw [if_pos rfl]
    split
    · next h => simpa using h
    · simp

theorem mem_relief_other {p : Nat} (hp : p ≠ part) : p ∈ (reliefSet s part).tier.relief ↔ p ∈ s.tier.relief := by
  show p ∈ (if demotes s part then (if s.tier.relief.contains part then s.tier.relief else s.tier.relief ++ [part])
    else s.tier.relief.filter (· != part)) ↔ _
  split
  · split
    · rfl
    · simp [hp]
  · simp [hp]

theorem moveCopyDone_at {id : Nat} {m : Move} {ok : Bool} (hwork : atRest s = false) (hget : mget s.tier.moves id = some m) :
    exec (.moveCopyDone id ok) s = .next (if !ok then driveAll (moveEnded id m false (abandonMove id s))
      else if !m.toHbm && !programmed s m.image then s else driveAll (moveEnded id m true (switchMove id m s))) := by
  refine congrArg Host.Outcome.next ((working_on _ hwork).trans ?_)
  rw [hget]

theorem tierQuotaWrite_operator {path : Path} {k value : Nat} (hop : operates path 0x80100 s = true) (hk : k < 5) :
    exec (.tierQuotaWrite path part k value) s = .next (if partExists s part then quotaWrite part k (value % 2 ^ 32) s else s) := by
  obtain ⟨hreg, hparty⟩ := operates_access hop (asOperator path fun s =>
    if partExists s part && decide (k < 5) then quotaWrite part k (value % 2 ^ 32) s else s)
  show execTierQuotaWrite path part k value s = _
  rw [execTierQuotaWrite, hreg, asOperator, hparty, decide_eq_true hk, Bool.and_true]
  rfl

end

/-- Settles O36: each event of heat, of the mover, of a move's copy and of a quota. -/
theorem heatAndMoves : Obligations.HeatAndMoves := by
  unfold Obligations.HeatAndMoves
  intro s part hwork
  refine ⟨fun hdue hsweep => congrArg Host.Outcome.next ((working_on _ hwork).trans (startHalving_due hdue hsweep)),
    fun hidle => congrArg Host.Outcome.next ((working_on _ hwork).trans (startHalving_idle hidle)),
    fun hsweep hdue => (halvingSweepEnd_ends hwork hsweep).trans (congrArg Host.Outcome.next (startHalving_idle (.inl hdue))),
    fun hsweep hdue => (halvingSweepEnd_ends hwork hsweep).trans (congrArg Host.Outcome.next (startHalving_due hdue rfl)),
    halvingSweepEnd_idle hwork, ?_, fun id m hget => ⟨?_, fun hdown hstaged => ?_, fun hwhole => ?_⟩, fun path k value hop hk => ⟨?_, ?_, ?_⟩⟩
  · intro on
    have hon : demotes s part = decide on := Bool.eq_iff_iff.mpr (demotes_iff.trans (decide_eq_true_iff (p := on)).symm)
    have hgo : (s.start.wearReady && decide (movesOf s part < 64)) = true ↔ s.start.wearReady = true ∧ movesOf s part < 64 := by simp
    refine ⟨_, reliefSet s part, backgroundMove_moves hwork, (Touches.modTier _ rfl (.refl _ s)).only, fun h => mem_relief_self.mpr (demotes_iff.mpr h),
      fun h hmem => h (demotes_iff.mp (mem_relief_self.mp hmem)), fun p => mem_relief_other, fun hready hfew => ?_, fun hnot => ?_⟩
    · rw [if_pos (hgo.mpr ⟨hready, hfew⟩), hon]
    · refine if_neg fun h => ?_
      obtain ⟨hready, hfew⟩ := hgo.mp h
      rcases hnot with h | h
      · rw [hready] at h; cases h
      · omega
  · exact (moveCopyDone_at hwork hget).trans rfl
  · exact (moveCopyDone_at hwork hget).trans (congrArg Host.Outcome.next ((if_neg (by decide)).trans (if_pos (by rw [hdown, hstaged]; rfl))))
  · exact (moveCopyDone_at hwork hget).trans (congrArg Host.Outcome.next ((if_neg (by decide)).trans (if_neg (by rcases hwhole with h | h <;> simp [h]))))
  · exact fun hpart hover => (tierQuotaWrite_operator hop hk).trans (congrArg Host.Outcome.next ((if_pos hpart).trans (if_pos hover)))
  · exact fun hpart hover => (tierQuotaWrite_operator hop hk).trans
      (congrArg Host.Outcome.next ((if_pos hpart).trans (if_neg (by rw [hover]; decide))))
  · exact fun hpart => (tierQuotaWrite_operator hop hk).trans (congrArg Host.Outcome.next (if_neg (by rw [hpart]; decide)))

end Sys2Proof.Machine
end

section
/-! SUPPORT. EXT_GRANT and the end of its zeroing (09 R293, R294). -/

namespace Sys2Proof.Machine

open Sys2Proof

section
variable {s : State} {n : Nat} {e : Entry}

/-- The grantees an entry names. -/
def grantees (e : Entry) : List (Nat × Bool) :=
  ((List.range 4).map fun i => (field (eInline e.raw) (8 + 2 * i) 2, bit (field (eInline e.raw) 1 1) i)).filter fun g => g.1 != 0

/-- The extent an entry asks for, still to be zeroed. -/
def askedExtent (e : Entry) (c : Ctx) (runs : List Run) (op : Nat) : Extent :=
  { state := .zeroing, log2 := field (eInline e.raw) 0 1, grantees := grantees e, key := field (eInline e.raw) 4 4
    grace := field (eInline e.raw) 2 2, part := c.part, tenant := c.tenant, runs := runs, op := some op }

/-- What EXT_GRANT does with a started entry, check by check. -/
theorem extGrant_checks (h : starting opExtGrant n s = some e) : exec (.extGrant n) s = .next
    (let m := markStarted n e.idx s
    let z := field (eInline e.raw) 0 1
    let c := ctxOf s (ringOf s n).context
    if z < 21 || 36 < z || 10000 < field (eInline e.raw) 2 2 || (grantees e).isEmpty || (grantees e).any (fun g => g.1 == 0xFFFF) then
      endNow n e (internal 0x44) m
    else match s.ext.freeQ.take with
      | none => endNow n e { status := stNoSpace } m
      | some (x, fq) =>
        if !covers s c.part 1 (2 ^ z) then endNow n e { status := stQuota } m
        else match takeUnits c.part (2 ^ (z - 21)) m with
          | none => endNow n e { status := stNoSpace } m
          | some (runs, u) => (newOp (opOf u n e (.extGrant x)) u).modExt fun y =>
            { y with freeQ := fq, table := mset y.table x (askedExtent e c runs u.ops.next) }) := by
  show execExtGrant n s = _
  rw [execExtGrant, startOp_starting (extGrant n) h, extGrant]
  dsimp only
  rw [context_markStarted (startable_mem (starting_some h).1).1]
  rfl

/-- An EXT_GRANT refused ends and changes no extent. -/
theorem extGrant_refused {a : Ans} (hring : RingOk (ringOf s n)) (h : starting opExtGrant n s = some e)
    (hans : exec (.extGrant n) s = .next (endNow n e a (markStarted n e.idx s))) :
    ∃ t, exec (.extGrant n) s = .next t ∧ Ended n e a s t ∧ t.ext = s.ext :=
  ⟨_, hans, endNow_ended _ (startable_mem (starting_some h).1).1 hring, endNow_ext n e _ _⟩

/-- The operands of a grant that passes its first check. -/
def GrantOk (e : Entry) : Prop :=
  21 ≤ field (eInline e.raw) 0 1 ∧ field (eInline e.raw) 0 1 ≤ 36 ∧ field (eInline e.raw) 2 2 ≤ 10000 ∧ grantees e ≠ [] ∧
    ∀ g ∈ grantees e, g.1 ≠ 0xFFFF

section
variable (h : starting opExtGrant n s = some e)

include h

theorem extGrant_bad (hbad : ¬ GrantOk e) : exec (.extGrant n) s = .next (endNow n e (internal 0x44) (markStarted n e.idx s)) :=
  (extGrant_checks h).trans (congrArg Host.Outcome.next (if_pos ((grantees_bad _ _ _).mpr hbad)))

variable (hok : GrantOk e)

include hok

theorem extGrant_noNumber (hnone : s.ext.freeQ.take = none) :
    exec (.extGrant n) s = .next (endNow n e { status := stNoSpace } (markStarted n e.idx s)) := by
  refine (extGrant_checks h).trans (congrArg Host.Outcome.next ((if_neg fun hb => (grantees_bad _ _ _).mp hb hok).trans ?_))
  rw [hnone]

variable {x : Nat} {fq : FreeQ} (hnumber : s.ext.freeQ.take = some (x, fq))

include hnumber

theorem extGrant_numbered : exec (.extGrant n) s = .next
    (if !covers s (ctxOf s (ringOf s n).context).part 1 (2 ^ field (eInline e.raw) 0 1) then
        endNow n e { status := stQuota } (markStarted n e.idx s)
      else match takeUnits (ctxOf s (ringOf s n).context).part (2 ^ (field (eInline e.raw) 0 1 - 21)) (markStarted n e.idx s) with
        | none => endNow n e { status := stNoSpace } (markStarted n e.idx s)
        | some (runs, u) => (newOp (opOf u n e (.extGrant x)) u).modExt fun y =>
          { y with freeQ := fq, table := mset y.table x (askedExtent e (ctxOf s (ringOf s n).context) runs u.ops.next) }) := by
  refine (extGrant_checks h).trans (congrArg Host.Outcome.next ((if_neg fun hb => (grantees_bad _ _ _).mp hb hok).trans ?_))
  rw [hnumber]

theorem extGrant_overQuota (hquota : covers s (ctxOf s (ringOf s n).context).part 1 (2 ^ field (eInline e.raw) 0 1) = false) :
    exec (.extGrant n) s = .next (endNow n e { status := stQuota } (markStarted n e.idx s)) :=
  (extGrant_numbered h hok hnumber).trans (congrArg Host.Outcome.next (if_pos (by rw [hquota]; rfl)))

variable (hquota : covers s (ctxOf s (ringOf s n).context).part 1 (2 ^ field (eInline e.raw) 0 1) = true)

include hquota

theorem extGrant_noRuns
    (hnone : takeUnits (ctxOf s (ringOf s n).context).part (2 ^ (field (eInline e.raw) 0 1 - 21)) (markStarted n e.idx s) = none) :
    exec (.extGrant n) s = .next (endNow n e { status := stNoSpace } (markStarted n e.idx s)) := by
  refine (extGrant_numbered h hok hnumber).trans (congrArg Host.Outcome.next ((if_neg (by rw [hquota]; decide)).trans ?_))
  rw [hnone]

theorem extGrant_zeroes {runs : List Run} {u : State}
    (hruns : takeUnits (ctxOf s (ringOf s n).context).part (2 ^ (field (eInline e.raw) 0 1 - 21)) (markStarted n e.idx s) = some (runs, u)) :
    ∃ t, exec (.extGrant n) s = .next t ∧ InProgress n e (.extGrant x) s t ∧ t.ext.freeQ = fq ∧ t.hbm = u.hbm ∧
      t.ext.table = mset s.ext.table x (askedExtent e (ctxOf s (ringOf s n).context) runs s.ops.next) := by
  have htaken := takeUnits_touches (μ := partSet [.coh, .hbm]) (ctxOf s (ringOf s n).context).part rfl
    (2 ^ (field (eInline e.raw) 0 1 - 21)) (.refl _ (markStarted n e.idx s))
  rw [hruns] at htaken
  have hops : u.ops = s.ops := htaken.ops.resolve_left (by decide)
  have hext : u.ext = s.ext := htaken.ext.resolve_left (by decide)
  have hexec := (extGrant_numbered h hok hnumber).trans (congrArg Host.Outcome.next (if_neg (by rw [hquota]; decide)))
  rw [hruns] at hexec
  have hget := newOp_get (opOf u n e (.extGrant x)) u
  rw [hops] at hget
  refine ⟨_, hexec, ⟨_, hget, rfl, rfl, rfl⟩, rfl, rfl, ?_⟩
  show mset u.ext.table x (askedExtent e _ runs u.ops.next) = _
  rw [hext, hops]

end

theorem extZeroDone_zeroing {x : Nat} {ext : Extent} (hwork : atRest s = false) (hget : mget s.ext.table x = some ext)
    (hzeroing : ext.state = .zeroing) : exec (.extZeroDone x) s = .next
    (match ext.op with
      | some id => finishOp id { status := stOk, a := x, b := ext.runs.length } (modExtent x (fun y => { y with state := .active, op := none }) s)
      | none => modExtent x (fun y => { y with state := .active, op := none }) s) := by
  refine congrArg Host.Outcome.next ((working_on _ hwork).trans ?_)
  rw [hget]
  exact if_neg (by rw [hzeroing]; decide)

theorem extZeroDone_grants {x id : Nat} {ext : Extent} (hwork : atRest s = false) (hget : mget s.ext.table x = some ext)
    (hzeroing : ext.state = .zeroing) (hop : ext.op = some id) : ∃ t, exec (.extZeroDone x) s = .next t ∧
      mget t.ext.table x = some { ext with state := .active, op := none } ∧
      t = finishOp id { status := stOk, a := x, b := ext.runs.length }
        { s with ext := { s.ext with table := mmod s.ext.table x fun y => { y with state := .active, op := none } } } := by
  have hexec := extZeroDone_zeroing hwork hget hzeroing
  rw [hop] at hexec
  refine ⟨_, hexec, ?_, rfl⟩
  rw [(finishOp_touches (μ := partSet [.link, .hbm, .rng, .io, .seqs, .casc, .ops, .cdc, .tier, .wt, .ftl, .sch, .sec]) id _ rfl (.refl _ _)).ext.resolve_left
    (by decide)]
  show mget (mmod s.ext.table x _) x = _
  rw [mget_mmod, hget]
  rfl

end

/-- Settles O37: a grant ends at its first failing check or zeroes its extent, which is granted when that is done. -/
theorem extentsAreGrantedZeroed : Obligations.ExtentsAreGrantedZeroed := by
  unfold Obligations.ExtentsAreGrantedZeroed
  intro s n e hring il c z gs ok
  refine ⟨fun h => ⟨fun hbad => extGrant_refused hring h (extGrant_bad h hbad),
    fun hok hnone => extGrant_refused hring h (extGrant_noNumber h hok hnone), fun hok x fq hnumber =>
      ⟨fun hquota => extGrant_refused hring h (extGrant_overQuota h hok hnumber hquota),
        fun hquota hnone => extGrant_refused hring h (extGrant_noRuns h hok hnumber hquota hnone),
        fun hquota runs u => extGrant_zeroes h hok hnumber hquota⟩⟩, fun hwork x ext hget hzeroing => ⟨fun hop => ?_, fun id => extZeroDone_grants hwork hget hzeroing⟩⟩
  rw [extZeroDone_zeroing hwork hget hzeroing, hop]
  rfl

end Sys2Proof.Machine
end

section
/-! SUPPORT. A message under its key (04 R94, R110; 12 R385). -/

namespace Sys2Proof.Machine

open Sys2Proof

/-- The flits of a message: its header and body in payloads of 240 bytes, of 224 where they are sealed. -/
def flitsOf (m : OutMsg) : Nat :=
  (chunks (if m.key = 0 then 240 else 224) 64 (msgHeader m.addr m.tag m.status m.flags ++ m.body)).length

/-- A key that carries no message of its own: not installed, or with no room in its count. -/
def NoRoom (s : State) (m : OutMsg) : Prop :=
  m.key ≠ 0 ∧ ∀ k, mget s.sec.keys m.key = some k → 2 ^ 63 - 1 < k.sent + flitsOf m

/-- Nothing leaves by any port under a key without room. -/
theorem sendVia_noRoom {s : State} {m : OutMsg} (p : Option Nat) (h : NoRoom s m) : sendVia p m s = s := by
  obtain ⟨h0, hroom⟩ := h
  unfold sendVia
  extract_lets kb dir hop sent fs det v w
  refine if_pos (Bool.and_eq_true_iff.mpr ⟨bne_iff_ne.mpr h0, Bool.or_eq_true_iff.mpr ?_⟩)
  cases hk : mget s.sec.keys m.key with
  | none => exact .inl (congrArg Option.isNone hk)
  | some k =>
    refine .inr (decide_eq_true ?_)
    have hsent : sent = k.sent := congrArg (fun o : Option JobKey => (o.map JobKey.sent).getD 0) hk
    have hfs : fs.length = flitsOf m := flitize_length ..
    rw [hsent, hfs]
    exact hroom k hk

theorem send_noRoom {s : State} {m : OutMsg} (h : NoRoom s m) : send m s = s := by
  have idle : wasSent s s = false := decide_eq_false (Nat.lt_irrefl _)
  unfold send
  dsimp only
  rw [sendVia_noRoom _ h, idle, Bool.and_false]
  exact if_neg Bool.false_ne_true

/-- With room the message joins those sent and its flits are counted under its key. -/
theorem sendVia_counts {s : State} {m : OutMsg} {k : JobKey} (p : Option Nat) (hk : mget s.sec.keys m.key = some k)
    (hroom : k.sent + flitsOf m ≤ 2 ^ 63 - 1) :
    (sendVia p m s).link.outbox = s.link.outbox ++ [m] ∧
      (sendVia p m s).sec.keys = mmod s.sec.keys m.key fun k => { k with sent := k.sent + flitsOf m } := by
  unfold sendVia
  extract_lets kb dir hop sent fs det v w
  have hsent : sent = k.sent := congrArg (fun o : Option JobKey => (o.map JobKey.sent).getD 0) hk
  have hfs : fs.length = flitsOf m := flitize_length ..
  have open_ : ¬ (m.key != 0 && (kb.isNone || decide (2 ^ 63 - 1 < sent + fs.length))) = true := by
    have hkb : kb.isNone = false := congrArg Option.isNone hk
    rw [hkb, Bool.false_or, hsent, hfs, decide_eq_false (Nat.not_lt.mpr hroom), Bool.and_false]
    exact Bool.false_ne_true
  have counted : v.sec.keys = mmod s.sec.keys m.key fun k => { k with sent := k.sent + flitsOf m } := by
    rw [← hfs]
    rfl
  rw [if_neg open_]
  cases p with
  | none => exact ⟨rfl, counted⟩
  | some n => exact ⟨rfl, counted⟩

theorem keepChoice_outbox (dst vc : Nat) (p : Option Nat) (s : State) : (keepChoice dst vc p s).link.outbox = s.link.outbox := by
  unfold keepChoice
  cases p with
  | none => rfl
  | some n => exact (apply_ite (fun u : State => u.link.outbox) _ _ _).trans (ite_self _)

/-- The message that `send` lets go is the one its port's `sendVia` lets go. -/
theorem send_outbox (m : OutMsg) (s : State) : (send m s).link.outbox = (sendVia (pickPort s m.dst m.vc) m s).link.outbox := by
  unfold send
  dsimp only
  rw [apply_ite (fun u : State => u.link.outbox), keepChoice_outbox, ite_self]

theorem send_counts {s : State} {m : OutMsg} {k : JobKey} (hk : mget s.sec.keys m.key = some k) (hroom : k.sent + flitsOf m ≤ 2 ^ 63 - 1) :
    (send m s).link.outbox = s.link.outbox ++ [m] ∧ mget (send m s).sec.keys m.key = some { k with sent := k.sent + flitsOf m } ∧
      ∀ j, j ≠ m.key → mget (send m s).sec.keys j = mget s.sec.keys j := by
  have sent := sendVia_counts (pickPort s m.dst m.vc) hk hroom
  rw [send_outbox, (send_via m s).1, sent.2]
  exact ⟨sent.1, by rw [mget_mmod, hk]; rfl, fun j hj => mget_mmod_ne _ _ hj⟩

/-- Settles O44: a key without room sends nothing, one with room counts the flits of the message it lets go. -/
theorem messagesAreSealedAndCounted : Obligations.MessagesAreSealedAndCounted := by
  unfold Obligations.MessagesAreSealedAndCounted
  intro s m
  refine ⟨fun h0 hk => send_noRoom ⟨h0, fun k h => nomatch hk.symm.trans h⟩, fun k hk => ⟨fun h0 hfull => send_noRoom ⟨h0, ?_⟩, fun hroom => ?_⟩⟩
  · intro k' hk'
    cases hk.symm.trans hk'
    exact hfull
  · obtain ⟨left, counted, others⟩ := send_counts hk hroom
    exact ⟨left, counted, others, (send_touches m (by decide) (.refl (partSet [.link, .sec]) s)).only⟩

end Sys2Proof.Machine
end

section
/-! SUPPORT. A partition reset begins and ends (11 R359, R360; 13 R399, R402, R405). -/

namespace Sys2Proof.Machine

open Sys2Proof

/-- What step 1 of a reset of partition `p` leaves of the state `u` it begins in. -/
def ResetBegun (p cause k : Nat) (u t : State) : Prop :=
  t.bbx = u.bbx.arrive (eventAt 9 p evPartReset [cause, k] u) ∧
    partOf t p = { partOf u p with reset := .clearing, switch := .none, outgoing := (partOf u p).slice.or (partOf u p).outgoing, slice := none, incoming := none, expired := false, scrubbing := true, slots := List.replicate 4 none } ∧
    ∀ n ∈ ringsOf u p, (ringOf t n).entries = [] ∧
      (ringOf t n).ready = (ringOf u n).ready ++ (ringOf u n).entries.map fun e => cplOf u e { status := stPartReset }

/-- A command that resets a partition begins no reset while one is in progress, and one otherwise. -/
def Resets (c : Instr) (p cause k : Nat) (s u : State) : Prop :=
  ((partOf s p).reset ≠ .none → exec c s = .next u) ∧
    ((partOf s p).reset = .none → s.ops.tab = [] → RingsOk s.rng → ∃ t, exec c s = .next t ∧ ResetBegun p cause k u t ∧ t.spare = u.spare)

/-- A command that is the reset of a partition, in a state whose partitions, ops and rings are those of its start. -/
theorem resets_of_exec {c : Instr} {p cause k : Nat} {s u : State} (hexec : exec c s = .next (resetPartition p cause k u))
    (hpart : partOf u p = partOf s p) (hops : u.ops = s.ops) (hrng : u.rng = s.rng) : Resets c p cause k s u := by
  refine ⟨fun busy => hexec.trans (congrArg Host.Outcome.next (resetPartition_busy (by rw [hpart]; exact busy) cause k)), fun idle hno hok => ?_⟩
  obtain ⟨event, part, rings, spare⟩ :=
    resetPartition_begins (by rw [hpart]; exact idle) (by rw [hops]; exact hno) (by rw [hrng]; exact hok) cause k
  exact ⟨_, hexec, ⟨event, part, rings⟩, spare⟩

/-- What an uncorrectable error notes of its site: the second of a core slot within an epoch makes it due for retirement,
a Hamper row that failed is due for replacement. -/
def sramNoted (cluster : Nat) (site : SramSite) (x : Spare) : Spare :=
  match site with
  | .core slot => if (cluster, slot) ∈ x.coreErr then { x with retireDue := if (cluster, slot) ∈ x.retireDue then x.retireDue else x.retireDue ++ [(cluster, slot)] }
    else { x with coreErr := x.coreErr ++ [(cluster, slot)] }
  | .hamper row => { x with hamperDue := if (cluster, row) ∈ x.hamperDue then x.hamperDue else x.hamperDue ++ [(cluster, row)] }

theorem sramNoted_unwritten (cluster : Nat) (site : SramSite) (x : Spare) : (sramNoted cluster site x).unwritten = x.unwritten := by
  cases site with
  | core slot => exact (apply_ite Spare.unwritten _ _ _).trans (ite_self _)
  | hamper row => rfl

theorem execSramUncorrectable_noted (cluster : Nat) (site : SramSite) (s : State) : execSramUncorrectable cluster site s =
    .next (working (fun s => if (partOfCluster s cluster).isNone then s else clusterFault cluster 1 { s with spare := sramNoted cluster site s.spare }) s) := by
  cases site with
  | core slot => simp only [execSramUncorrectable, sramNoted, State.modSpare, List.contains_iff_mem]
  | hamper row => simp only [execSramUncorrectable, sramNoted, State.modSpare, List.contains_iff_mem]

/-- A noted error leaves each cluster in its partition: the spares' words stay. -/
theorem partOfCluster_sramNoted (s : State) (cluster : Nat) (site : SramSite) (c : Nat) :
    partOfCluster { s with spare := sramNoted cluster site s.spare } c = partOfCluster s c := by
  have word : ∀ w, spareNat { s with spare := sramNoted cluster site s.spare } w = spareNat s w := fun w =>
    congrArg (fun m => mgetD m w (tlyNat s w)) (sramNoted_unwritten cluster site s.spare)
  have same : ∀ q, clustersOf { s with spare := sramNoted cluster site s.spare } q = clustersOf s q := fun q => by
    unfold clustersOf
    simp only [word]
    rfl
  unfold partOfCluster
  simp only [same]
  rfl

section
variable {s : State} {cluster p : Nat} (hwork : atRest s = false) (hp : partOfCluster s cluster = some p)

include hwork hp

/-- A fault of a cluster, with nothing noted first, resets the cluster's partition. -/
theorem resets_of_fault {c : Instr} {cause : Nat} (h : exec c s = .next (working (clusterFault cluster cause) s)) :
    Resets c p cause cluster s s := by
  refine resets_of_exec (h.trans (congrArg Host.Outcome.next ?_)) rfl rfl rfl
  exact (working_on _ hwork).trans (clusterFault_at hp cause)

/-- An uncorrectable error notes its site and resets the cluster's partition. -/
theorem sramUncorrectable_resets (site : SramSite) :
    Resets (.sramUncorrectable cluster site) p 1 cluster s { s with spare := sramNoted cluster site s.spare } := by
  have hpu : partOfCluster { s with spare := sramNoted cluster site s.spare } cluster = some p :=
    (partOfCluster_sramNoted s cluster site cluster).trans hp
  have serves : ¬ (partOfCluster s cluster).isNone = true := by rw [hp]; exact Bool.false_ne_true
  refine resets_of_exec ?_ rfl rfl rfl
  show execSramUncorrectable cluster site s = _
  rw [execSramUncorrectable_noted, working_on _ hwork, if_neg serves, clusterFault_at hpu 1]

end

/-- The operator's write resets the partition it names, where there is one. -/
theorem partitionResetWrite_resets {s : State} {path : Path} {p : Nat} (h : operates path 0xA0100 s = true) :
    (partExists s p = true → Resets (.partitionResetWrite path p) p 5 0 s s) ∧
      (partExists s p = false → exec (.partitionResetWrite path p) s = .next s) := by
  have byOperator : exec (.partitionResetWrite path p) s = .next (resetByOperator p s) := congrArg Host.Outcome.next (operates_op h _)
  exact ⟨fun hp => resets_of_exec (byOperator.trans (congrArg Host.Outcome.next (if_pos hp))) rfl rfl rfl,
    fun hp => byOperator.trans (congrArg Host.Outcome.next (if_neg (by rw [hp]; exact Bool.false_ne_true)))⟩

/-- Settles O42: each cause is a reset of its partition, which begins where none is in progress. -/
theorem partitionResetsBegin : Obligations.PartitionResetsBegin := by
  unfold Obligations.PartitionResetsBegin
  intro s cluster p
  refine ⟨fun hwork hp => ⟨resets_of_fault hwork hp rfl, resets_of_fault hwork hp rfl, resets_of_fault hwork hp rfl, fun slot => ?_, fun row => ?_⟩,
    fun path h => partitionResetWrite_resets h⟩
  · exact sramUncorrectable_resets hwork hp (.core slot)
  · exact sramUncorrectable_resets hwork hp (.hamper row)

end Sys2Proof.Machine
end

section
/-! SUPPORT. The end of a partition reset (11 R360; 13 R399, R405). -/

namespace Sys2Proof.Machine

open Sys2Proof

section
variable (s : State) (p : Nat) (bad : List (Nat × Nat))

/-- The cores of the partition that are retired at the end of its reset. -/
def retiredAtEnd : List (Nat × Nat) :=
  nodup ((s.spare.retireDue.filter fun x => (clustersOf s p).contains x.1) ++ bad.filter fun x => (clustersOf s p).contains x.1)

/-- The errors noted of the partition's cores are settled with the reset. -/
def errorsSettled : State := s.modSpare fun x =>
  { x with
    retireDue := x.retireDue.filter fun y => !(s.spare.retireDue.filter fun x => (clustersOf s p).contains x.1).contains y
    coreErr := x.coreErr.filter fun y => !(retiredAtEnd s p bad).contains y }

/-- The spares brought in at the end of a reset, generations and counts aside. -/
def sparesIn : State := replaceRows p (forEach (retiredAtEnd s p bad) (fun x s => retireCore x.1 x.2 s) (errorsSettled s p bad))

/-- The state a reset that is through its self-test ends in. -/
def resetEnded : State :=
  modPart p (fun x => { x with reset := .none, resets := sat32 (x.resets + 1) }) (forEach (clustersOf s p) bumpCluster (sparesIn s p bad))

end

variable {s : State} {p : Nat} {bad : List (Nat × Nat)}

theorem partitionResetDone_ends (hwork : atRest s = false) (h : (partOf s p).reset = .testing) :
    exec (.partitionResetDone p bad) s = .next (resetEnded s p bad) := by
  have testing : ¬ ((partOf s p).reset != .testing) = true := by rw [h]; decide
  exact congrArg Host.Outcome.next ((working_on _ hwork).trans (if_neg testing))

/-- The spares brought in change no generation and no partition's run-time state. -/
theorem sparesIn_keeps (s : State) (p : Nat) (bad : List (Nat × Nat)) :
    (sparesIn s p bad).spare.genCl = s.spare.genCl ∧ (sparesIn s p bad).sch.parts = s.sch.parts := by
  have retired : (forEach (retiredAtEnd s p bad) (fun x s => retireCore x.1 x.2 s) (errorsSettled s p bad)).spare.genCl = s.spare.genCl ∧
      (forEach (retiredAtEnd s p bad) (fun x s => retireCore x.1 x.2 s) (errorsSettled s p bad)).sch.parts = s.sch.parts :=
    forEach_mem_inv (fun u => u.spare.genCl = s.spare.genCl ∧ u.sch.parts = s.sch.parts) (fun x _ u h =>
      have k := retireCore_keeps x.1 x.2 u
      ⟨k.1.trans h.1, k.2.trans h.2⟩) _ ⟨rfl, rfl⟩
  have rows := replaceRows_keeps p (forEach (retiredAtEnd s p bad) (fun x s => retireCore x.1 x.2 s) (errorsSettled s p bad))
  exact ⟨rows.1.trans retired.1, rows.2.trans retired.2⟩

/-- Issue resumes in the partition, and the reset is counted. -/
theorem resetEnded_part (s : State) (p : Nat) (bad : List (Nat × Nat)) :
    partOf (resetEnded s p bad) p = { partOf s p with reset := .none, resets := sat32 ((partOf s p).resets + 1) } := by
  have parts : (forEach (clustersOf s p) bumpCluster (sparesIn s p bad)).sch.parts = s.sch.parts :=
    (congrArg Sch.parts (bumps_keep _ _).2.2).trans (sparesIn_keeps s p bad).2
  have same : partOf (forEach (clustersOf s p) bumpCluster (sparesIn s p bad)) p = partOf s p := congrArg (fun m => mgetD m p ({} : Part)) parts
  unfold resetEnded
  rw [partOf_modPart, same]

/-- Each of the partition's clusters has a new generation. -/
theorem resetEnded_generation (hnd : (clustersOf s p).Nodup) : ∀ c ∈ clustersOf s p, c < s.spare.genCl.length →
    nth (resetEnded s p bad).spare.genCl c 0 = nth s.spare.genCl c 0 + 1 := by
  intro c hc hlen
  have gen := (sparesIn_keeps s p bad).1
  exact ((bumps_gen _ hnd (sparesIn s p bad)).1 c hc (by rw [gen]; exact hlen)).trans (by rw [gen])

/-- What becomes of a cluster's word when one of its cores, in service in a tile slot, is retired. -/
theorem retireCore_word {c slot n : Nat} {u : State} (hin : bit (spareNat u (clWord c)) 16 = false) (hslot : slot < 64)
    (hserved : servedBy (spareNat u (clWord c)) slot = some n) (hwritten : mget u.spare.unwritten (clWord c) = none) :
    (∀ k, freeSpareSlot (spareNat u (clWord c)) = some k → spareNat (retireCore c slot u) (clWord c) = putSub (spareNat u (clWord c)) k n) ∧
      (freeSpareSlot (spareNat u (clWord c)) = none → spareNat (retireCore c slot u) (clWord c) = setBit (spareNat u (clWord c)) 16) := by
  unfold retireCore
  dsimp only
  rw [hin, Bool.false_or, decide_eq_false (by omega : ¬ 65 < slot), if_neg Bool.false_ne_true, hserved]
  dsimp only
  rw [if_neg (by omega : ¬ 64 ≤ slot)]
  refine ⟨fun k hk => ?_, fun hk => ?_⟩
  · rw [hk]
    exact spareNat_set (putSub (spareNat u (clWord c)) k n) hwritten
  · rw [hk]
    exact spareNat_set (setBit (spareNat u (clWord c)) 16) hwritten

theorem spareNat_of_unwritten {s t : State} (hspare : t.spare.unwritten = s.spare.unwritten) (htly : t.tly = s.tly) (w : Nat) :
    spareNat t w = spareNat s w := by
  unfold spareNat tlyNat
  rw [hspare, htly]

theorem spareSet_hamperDue (w v : Nat) (s : State) : (spareSet w v s).spare.hamperDue = s.spare.hamperDue := by
  unfold spareSet
  split
  · rfl
  · show (spareWrite w v s).spare.hamperDue = _
    rw [(spareWrite_touches (μ := partSet [.tly, .bbx]) w v (by decide) (.refl _ s)).spare.resolve_left (by decide)]

theorem retireCore_hamperDue (c slot : Nat) (s : State) : (retireCore c slot s).spare.hamperDue = s.spare.hamperDue := by
  unfold retireCore
  dsimp only
  split
  · rfl
  · split
    · split
      · exact spareSet_hamperDue ..
      · rfl
    · split
      · exact spareSet_hamperDue ..
      · exact spareSet_hamperDue ..

section
variable {c slot : Nat} (hc : c ∈ clustersOf s p) (hdue : s.spare.retireDue = []) (hrows : s.spare.hamperDue = [])

include hc hdue

theorem retiredAtEnd_one : retiredAtEnd s p [(c, slot)] = [(c, slot)] := by
  have one : [(c, slot)].filter (fun x => (clustersOf s p).contains x.1) = [(c, slot)] :=
    List.filter_cons_of_pos (List.contains_iff_mem.mpr hc)
  unfold retiredAtEnd
  rw [hdue, one]
  rfl

include hrows

/-- With one core failed and nothing else due, a cluster's word at the end is that the core's retirement left. -/
theorem resetEnded_word (w : Nat) :
    spareNat (resetEnded s p [(c, slot)]) w = spareNat (retireCore c slot (errorsSettled s p [(c, slot)])) w := by
  obtain ⟨unwritten, tly, -⟩ := bumps_keep (clustersOf s p) (sparesIn s p [(c, slot)])
  obtain ⟨v, hv, rowsSpare, rowsTly, -⟩ := replaceRows_none (p := p) (s := retireCore c slot (errorsSettled s p [(c, slot)]))
    ((retireCore_hamperDue ..).trans hrows)
  have brought : sparesIn s p [(c, slot)] = v := by
    rw [← hv]
    unfold sparesIn
    rw [retiredAtEnd_one hc hdue]
    rfl
  calc spareNat (resetEnded s p [(c, slot)]) w
      = spareNat (sparesIn s p [(c, slot)]) w := spareNat_of_unwritten unwritten tly w
    _ = spareNat v w := by rw [brought]
    _ = _ := spareNat_of_unwritten (by rw [rowsSpare]) rowsTly w

end

/-- Settles O43: the reset that is through its self-test ends with its cores retired, its clusters of new generations and its issue resumed. -/
theorem partitionResetsEnd : Obligations.PartitionResetsEnd := by
  unfold Obligations.PartitionResetsEnd
  intro s p bad hwork h
  refine ⟨_, partitionResetDone_ends hwork h, by rw [resetEnded_part], by rw [resetEnded_part], resetEnded_generation, ?_⟩
  rintro c slot rfl hc hslot hdue hrows hwritten n hserved
  rw [resetEnded_word hc hdue hrows]
  have inService : bit (spareNat s (clWord c)) 16 = false := by
    have := (List.mem_filter.mp hc).2
    exact Bool.not_eq_true' _ ▸ this
  exact retireCore_word (u := errorsSettled s p [(c, slot)]) inService hslot hserved hwritten

end Sys2Proof.Machine
end

section
/-! SUPPORT. Flash programs, reads and erases (10 R318 to R321, R327; 09 R283, R309). -/

namespace Sys2Proof.Machine

open Sys2Proof

section
variable {s : State}

/-! ### Programs -/

theorem programFailed_at {use k : Nat} (hk : nextBlock s.ftl use 0 = some k) : programFailed use s = retireBlockF k (countErr 5 s) := by
  have hk' : nextBlock (countErr 5 s).ftl use 0 = some k := hk
  unfold programFailed
  dsimp only
  rw [hk']

theorem only_ftl (f : Ftl) : Only [.ftl] s { s with ftl := f } :=
  (Touches.modFtl (w := partSet [.ftl]) (fun _ => f) (by decide) (.refl _ s)).only

theorem retireFailed_only (k j : Nat) (s : State) : Only [.ftl] s (retireBlockF k (countErr j s)) :=
  (retireBlockF_touches (μ := partSet [.ftl]) k (by decide) (countErr_touches j (by decide) (.refl _ s))).only

section
variable {id : Nat} (hrun : stopped s = false) (hin : inStaging s id = true)

include hrun hin

theorem flashProgramDone_runs (ok : Bool) :
    exec (.flashProgramDone id ok) s = .next (if ok then programGood id s else programBad id s) := by
  have staged : ¬ (!inStaging s id) = true := by rw [hin]; decide
  exact congrArg Host.Outcome.next ((unlessStopped_on _ hrun).trans (if_neg staged))

/-- A program that fails retires its block; where it was a move's image, the move is abandoned. -/
theorem flashProgramDone_fails {k : Nat} (hk : nextBlock s.ftl (useOf s id) 0 = some k) :
    (s.tier.moves.find? (fun m => m.2.image == some id) = none →
      exec (.flashProgramDone id false) s = .next (retireBlockF k (countErr 5 s))) ∧
    ∀ mv m, s.tier.moves.find? (fun m => m.2.image == some id) = some (mv, m) →
      exec (.flashProgramDone id false) s = .next (driveAll (moveEnded mv m false (abandonMove mv (retireBlockF k (countErr 5 s))))) := by
  have moves : (retireBlockF k (countErr 5 s)).tier = s.tier := (retireFailed_only k 5 s).2 .tier (by decide)
  have runs := flashProgramDone_runs hrun hin false
  rw [if_neg Bool.false_ne_true, programBad, programFailed_at hk] at runs
  rw [moves] at runs
  refine ⟨fun h => runs.trans (by rw [h]), fun mv m h => runs.trans (by rw [h])⟩

theorem flashProgramDone_good {u : State}
    (h : (if mhas s.ftl.images id then (programImage id s).map (replaceBacking id) else if recTurn s id then programRec id s else none) = some u) :
    exec (.flashProgramDone id true) s = .next (driveAll (sweepJournals u)) := by
  refine (flashProgramDone_runs hrun hin true).trans (congrArg Host.Outcome.next ((if_pos rfl).trans ?_))
  unfold programGood
  rw [h]

end

/-! ### Reads -/

section
variable (hrun : stopped s = false) {corrected step : Nat} (target : FlashTarget)

include hrun

/-- A read that took a recovery step counts it. -/
theorem flashReadDone_runs : exec (.flashReadDone target corrected step) s = .next
    (let u := when (decide (2 ≤ step)) (countErr (min step 5 - 1)) s
    if 5 ≤ step then match target with
      | .image id _ => loseImage id u
      | .journal id => u.modFtl fun f => { f with recs := mmod f.recs id fun r => { r with live := false } }
    else if overThreshold u corrected then forEach (stripesRead u.ftl target) collectSoon (countErr 0 u) else u) := by
  refine congrArg Host.Outcome.next ((unlessStopped_on _ hrun).trans ?_)
  rfl

theorem flashReadDone_below (hstep : step < 5) (hbelow : overThreshold s corrected = false) :
    exec (.flashReadDone target corrected step) s = .next (if 2 ≤ step then countErr (step - 1) s else s) := by
  have capped : min step 5 = step := by omega
  rw [flashReadDone_runs hrun]
  dsimp only
  rw [if_neg (by omega), if_neg, capped]
  · by_cases h : 2 ≤ step
    · rw [decide_eq_true h, if_pos h]; rfl
    · rw [decide_eq_false h, if_neg h]; rfl
  · have kept : overThreshold (when (decide (2 ≤ step)) (countErr (min step 5 - 1)) s) corrected = overThreshold s corrected := by
      by_cases h : 2 ≤ step
      · rw [decide_eq_true h]; rfl
      · rw [decide_eq_false h]; rfl
    rw [kept, hbelow]
    exact Bool.false_ne_true

theorem flashReadDone_above (hstep : step < 2) (habove : overThreshold s corrected = true) :
    exec (.flashReadDone target corrected step) s = .next (forEach (stripesRead s.ftl target) collectSoon (countErr 0 s)) := by
  rw [flashReadDone_runs hrun]
  dsimp only
  rw [if_neg (by omega), decide_eq_false (by omega)]
  exact congrArg Host.Outcome.next (if_pos habove)

theorem flashReadDone_lost {id slot : Nat} (hstep : 5 ≤ step) :
    exec (.flashReadDone (.image id slot) corrected step) s = .next (loseImage id (countErr 4 s)) := by
  have capped : min step 5 = 5 := by omega
  rw [flashReadDone_runs hrun]
  dsimp only
  rw [if_pos hstep, decide_eq_true (by omega), capped]
  rfl

end

/-! ### Closed stripes -/

theorem collectSoon_get {id : Nat} {st : Stripe} (h : mget s.ftl.stripes id = some st) :
    mget (collectSoon id s).ftl.stripes id = some { st with collectFirst := true } :=
  (mget_mmod _ _ _).trans (congrArg (Option.map _) h)

section
variable (hwork : atRest s = false) {id : Nat} {st : Stripe} (hst : mget s.ftl.stripes id = some st) (hclosed : st.closed = true)
  (hkept : st.freed = false)

include hwork hst hclosed hkept

/-- A closed stripe read back: one above the threshold is queued for collection, else its parity is given up. -/
theorem stripeCloseVerify_reads (corrected : Nat) : exec (.stripeCloseVerify id corrected) s = .next
    (if overThreshold s corrected then collectSoon id s
    else freeDead { s with ftl := { s.ftl with stripes := mset s.ftl.stripes id { st with parity := false } } }) := by
  refine congrArg Host.Outcome.next ((working_on _ hwork).trans ?_)
  dsimp only
  rw [hst]
  dsimp only
  rw [hclosed, hkept]
  rfl

theorem flashPatrol_reads (corrected : Nat) : exec (.flashPatrol id corrected) s = .next
    (if s.ftl.patrolEn && overThreshold s corrected then collectSoon id (countErr 0 s) else s) := by
  refine congrArg Host.Outcome.next ((working_on _ hwork).trans ?_)
  rw [hst]
  dsimp only
  rw [hclosed, hkept, Bool.not_false, Bool.and_true, Bool.and_true]

end

/-! ### Erases -/

section
variable (hrun : stopped s = false) (hnone : NoDiscard s) {die block : Nat}

include hrun hnone

/-- With no discard in progress an erase ends with the block's own record. -/
theorem flashEraseDone_ends (ok : Bool) : exec (.flashEraseDone die block ok) s = .next
    (let k := blockKey die block
    if ok then
      if (fblock s.ftl k).st == .free then { s with ftl := { s.ftl with
        stripes := erasedFrom [k] s.ftl.stripes, blocks := mset s.ftl.blocks k { fblock s.ftl k with erases := (fblock s.ftl k).erases + 1, stripe := none } } }
      else s
    else retireBlockF k (countErr 6 s)) := by
  refine congrArg Host.Outcome.next ((unlessStopped_on _ hrun).trans ?_)
  dsimp only
  have tail : ∀ u : State, u.ops = s.ops → ∀ b, driveDiscards (when b (fun s => s.modOps fun x =>
      { x with tab := x.tab.map (offDiscard (blockKey die block)) }) u) = u := by
    intro u hops b
    have none := hnone.congr hops
    cases b with
    | false => exact driveDiscards_id none
    | true => exact eraseTail_id none _ (offDiscard_id none _)
  refine tail _ ?_ _
  cases ok with
  | false => exact (retireFailed_only _ 6 s).2 .ops (by decide)
  | true => exact (apply_ite State.ops ((fblock s.ftl (blockKey die block)).st == .free) _ _).trans (ite_self _)

end

theorem retireBlockF_st {k : Nat} {u : State} (h : (fblock u.ftl k).stripe = none) : (fblock (retireBlockF k u).ftl k).st = .retired := by
  unfold retireBlockF
  dsimp only
  rw [h]
  exact congrArg FBlock.st (mgetD_mset _ _ _ _)

/-! ### A migration that waits for the write path -/

theorem writePathTimeout_gives {id : Nat} {o : Op} {a : PageAt} {rest mv al nm dr qu ms} {p : Page} (hrun : stopped s = false) (ho : mget s.ops.tab id = some o)
    (hbody : o.body = .migrate (a :: rest) mv al nm dr qu ms) (hwaits : field (eInline o.raw) 1 1 ≠ 0) (hp : getPage s a = some p)
    (hstill : p.moving = false) : exec (.writePathTimeout id) s =
      .next (runMigrate id (modOp id (fun o => { o with body := .migrate rest mv al (nm + 1) dr qu ms }) s)) := by
  refine congrArg Host.Outcome.next ((unlessStopped_on _ hrun).trans ?_)
  dsimp only
  rw [ho]
  dsimp only
  rw [hbody]
  dsimp only
  rw [hp, bne_iff_ne.mpr hwaits, Bool.true_and]
  exact if_pos (by rw [Option.map_some, Option.getD_some, hstill]; rfl)

end

/-- Settles O39: what a program, a read, a verify, a patrol, an erase and a timeout of the write path leave of flash. -/
theorem flashProgramsReadsErases : Obligations.FlashProgramsReadsErases := by
  unfold Obligations.FlashProgramsReadsErases
  intro s id
  refine ⟨fun hrun hin => ⟨fun k hk hmove => ?_, fun k mv m hk => (flashProgramDone_fails hrun hin hk).2 mv m, fun u => flashProgramDone_good hrun hin⟩,
    fun hrun target corrected step => flashReadDone_below hrun target, fun hrun target corrected step => flashReadDone_above hrun target,
    fun hrun slot corrected step => flashReadDone_lost hrun, fun hwork st corrected hst hclosed hkept => ?_,
    fun hrun die block hnone => ⟨fun hfree => ?_, ?_⟩, fun hrun o a rest mv al nm dr qu ms p => writePathTimeout_gives hrun⟩
  · exact ⟨_, (flashProgramDone_fails hrun hin hk).1 hmove, retireFailed_only k 5 s, rfl, retireBlockF_errs ..⟩
  · have verify := stripeCloseVerify_reads hwork hst hclosed hkept corrected
    have patrol := flashPatrol_reads hwork hst hclosed hkept corrected
    refine ⟨fun below => ?_, fun above => ?_, fun hen above => ?_, fun hoff => ?_⟩
    · rw [verify, below]
      rfl
    · rw [verify, above]
      exact ⟨_, _, rfl, collectSoon_get hst, rfl⟩
    · rw [patrol, hen, above]
      exact ⟨_, _, rfl, collectSoon_get (s := countErr 0 s) hst, rfl, rfl⟩
    · refine patrol.trans (congrArg Host.Outcome.next (if_neg ?_))
      rw [Bool.and_eq_true, Classical.not_and_iff_not_or_not, Bool.not_eq_true, Bool.not_eq_true]
      exact hoff
  · have erased := flashEraseDone_ends (die := die) (block := block) hrun hnone true
    dsimp only at erased
    rw [if_pos rfl, if_pos (by rw [hfree]; rfl)] at erased
    exact ⟨_, erased, only_ftl _, congrArg FBlock.erases (mgetD_mset _ _ _ _)⟩
  · exact ⟨_, flashEraseDone_ends hrun hnone false, rfl, retireFailed_only _ 6 s, retireBlockF_st (u := countErr 6 s)⟩

end Sys2Proof.Machine
end

section
/-! SUPPORT. The work of the flash layer on its own account (10 R308, R310, R313, R316, R322, R323, R336). -/

namespace Sys2Proof.Machine

open Sys2Proof

/-! ### Freed stripes -/

/-- The stripe is freed and no longer queued first. -/
def Freed (id : Nat) (s : State) : Prop := ∃ x, mget s.ftl.stripes id = some x ∧ x.freed = true ∧ x.collectFirst = false

theorem freeStripe_at {id : Nat} {s : State} {st : Stripe} (h : mget s.ftl.stripes id = some st) : (freeStripe id s).ftl.stripes =
    mset s.ftl.stripes id { st with freed := true, closed := true, parity := false, collectFirst := false, leaving := false } := by
  unfold freeStripe State.modFtl
  dsimp only
  rw [h]

theorem freeStripe_absent {id : Nat} {s : State} (h : mget s.ftl.stripes id = none) : (freeStripe id s).ftl = s.ftl := by
  unfold freeStripe State.modFtl
  dsimp only
  rw [h]

theorem freeStripe_freed {id : Nat} {s : State} (h : ∃ y, mget s.ftl.stripes id = some y) : Freed id (freeStripe id s) := by
  obtain ⟨st, hst⟩ := h
  exact ⟨_, (congrArg (mget · id) (freeStripe_at hst)).trans (mget_mset _ _ _), rfl, rfl⟩

theorem freeStripe_freed_of_freed {id : Nat} (j : Nat) {s : State} (h : Freed id s) : Freed id (freeStripe j s) := by
  obtain ⟨x, hx, hfreed, hfirst⟩ := h
  by_cases hj : id = j
  · subst hj
    exact freeStripe_freed ⟨x, hx⟩
  · refine ⟨x, ?_, hfreed, hfirst⟩
    cases hst : mget s.ftl.stripes j with
    | none => rw [freeStripe_absent hst]; exact hx
    | some st => rw [freeStripe_at hst, mget_mset_ne _ _ hj]; exact hx

theorem freeDead_freed {id : Nat} {s : State} (h : Freed id s) : Freed id (freeDead s) := by
  unfold freeDead
  exact forEach_mem_inv (Freed id) (fun j _ u hu => freeStripe_freed_of_freed j hu) s h

theorem freeStripe_recs (j : Nat) (s : State) : (freeStripe j s).ftl.recs = s.ftl.recs := by
  unfold freeStripe State.modFtl
  dsimp only
  split <;> rfl

/-- Freeing what holds nothing live drops no record. -/
theorem freeDead_recs (s : State) : (freeDead s).ftl.recs = s.ftl.recs := by
  unfold freeDead
  exact forEach_mem_inv (fun u => u.ftl.recs = s.ftl.recs) (fun j _ u hu => (freeStripe_recs j u).trans hu) s rfl

section
variable {s : State} (hwork : atRest s = false)

/-! ### Folds -/

theorem foldUnit_idle {unit : Nat} (h : mapReady s = false ∨ unfolded s unit = []) : foldUnit unit s = none := by
  unfold foldUnit
  dsimp only
  refine if_pos ?_
  rcases h with h | h
  · rw [h, Bool.not_false, Bool.or_true, Bool.true_or]
  · rw [h, List.isEmpty_nil, Bool.true_or, Bool.true_or]

theorem foldUnit_only {unit : Nat} {u : State} (h : foldUnit unit s = some u) : Only [.ftl] s u := by
  have touched := foldUnit_touches (μ := partSet [.ftl]) unit (by decide) (.refl _ s)
  rw [h] at touched
  exact Touches.only touched

include hwork

theorem fold_idle {unit : Nat} (h : foldUnit unit s = none) : exec (.fold unit) s = .next s := by
  refine congrArg Host.Outcome.next ((working_on _ hwork).trans ?_)
  rw [h]

theorem fold_settles {unit : Nat} {u : State} (h : foldUnit unit s = some u) :
    exec (.fold unit) s = .next (freeDead (forEach ((unfolded s unit).map (·.1)) settleBulk u)) := by
  refine congrArg Host.Outcome.next ((working_on _ hwork).trans ?_)
  rw [h]

/-! ### Collection -/

theorem gcCollect_idle {die : Nat} (h : victimOn s die = none ∨ mapReady s = false) : exec (.gcCollect die) s = .next s := by
  refine congrArg Host.Outcome.next ((working_on _ hwork).trans ?_)
  rcases h with h | h
  · rw [h]
    exact ite_self _
  · rw [h]
    rfl

theorem gcCollect_room {die id : Nat} {st : Stripe} (hv : victimOn s die = some (id, st)) (hroom : dieCollects s.ftl die = false)
    (hfirst : st.collectFirst = false) : exec (.gcCollect die) s = .next s := by
  refine congrArg Host.Outcome.next ((working_on _ hwork).trans ?_)
  rw [hv]
  dsimp only
  rw [hroom, hfirst]
  exact ite_self _

theorem gcCollect_frees {die id : Nat} {st : Stripe} {u : State} (hmap : mapReady s = true) (hv : victimOn s die = some (id, st))
    (hdue : dieCollects s.ftl die = true ∨ st.collectFirst = true) (hu : copyOut id s = some u) :
    exec (.gcCollect die) s = .next (freeDead (freeStripe id u)) := by
  refine congrArg Host.Outcome.next ((working_on _ hwork).trans ?_)
  rw [hmap, hv]
  dsimp only
  rw [if_neg (by decide), if_pos (Bool.or_eq_true_iff.mpr hdue), hu]

/-! ### Heat, catalog and reserve -/

theorem writeHeatHalving_early (h : s.ftl.heatSamples < 2 ^ 20) : exec .writeHeatHalving s = .next s :=
  congrArg Host.Outcome.next ((working_on _ hwork).trans (if_pos h))

theorem writeHeatHalving_due (h : 2 ^ 20 ≤ s.ftl.heatSamples) : exec .writeHeatHalving s = .next { s with ftl := { s.ftl with
    heatSamples := s.ftl.heatSamples - 2 ^ 20, units := s.ftl.units.map fun x => (x.1, { x.2 with heat := x.2.heat / 2 }) } } :=
  congrArg Host.Outcome.next ((working_on _ hwork).trans (if_neg (Nat.not_lt.mpr h)))

theorem catalogCompaction_early (h : s.start.wearReady = false ∨ catalogBytes s.ftl false ≤ 2 * catalogBytes s.ftl true) :
    exec .catalogCompaction s = .next s := by
  refine congrArg Host.Outcome.next ((working_on _ hwork).trans (if_pos (Bool.or_eq_true_iff.mpr ?_)))
  exact h.imp (fun early => by rw [early]; rfl) decide_eq_true

/-- The catalog with the records it no longer needs dropped. -/
def catalogKept (s : State) : State := s.modFtl fun f => { f with recs := f.recs.filter fun x => keptRec f x.2 }

theorem catalogCompaction_due (hready : s.start.wearReady = true) (h : 2 * catalogBytes s.ftl true < catalogBytes s.ftl false) :
    exec .catalogCompaction s = .next (freeDead (catalogKept s)) := by
  refine congrArg Host.Outcome.next ((working_on _ hwork).trans (if_neg ?_))
  rw [hready, decide_eq_false (Nat.not_le.mpr h)]
  decide

omit hwork in
theorem keptRec_iff (f : Ftl) (r : FRec) : keptRec f r = true ↔ ((∃ c, r.body = .catalog c) → catNeeded f r = true ∨ r.programmed = false) := by
  unfold keptRec
  cases r.body with
  | catalog c =>
    refine ⟨fun kept _ => ?_, fun needed => ?_⟩
    · exact (Bool.or_eq_true_iff.mp kept).imp id fun late => by simpa using late
    · exact Bool.or_eq_true_iff.mpr ((needed ⟨c, rfl⟩).imp id fun late => by rw [late]; rfl)
  | journal => exact iff_of_true rfl fun ⟨_, h⟩ => nomatch h

theorem reserveRefill_ready (hready : s.start.wearReady = true) :
    exec .reserveRefill s = .next { s with ftl := { s.ftl with reserveUsed := 0, reserveReady := true } } :=
  congrArg Host.Outcome.next ((working_on _ hwork).trans (if_pos hready))

/-! ### Hours of service -/

omit hwork in
/-- A word counts one more, and no other changes. -/
theorem tlyWrite_counts {n : Nat} (h : Fresh (n + 1) s) (w : Nat) : Fresh n (tlyWrite w (s.tly.word w + 1) s) ∧
    ∀ x, (tlyWrite w (s.tly.word w + 1) s).tly.word x = if x = w then s.tly.word x + 1 else s.tly.word x := by
  obtain ⟨fresh, words⟩ := tlyWrite_fresh h w (s.tly.word w + 1)
  refine ⟨fresh, fun x => (words x).trans ?_⟩
  by_cases hx : x = w
  · rw [if_pos hx, if_pos hx, hx]
  · rw [if_neg hx, if_neg hx]

omit hwork in
theorem tempBin_le (low t : Int) : tempBin low t ≤ 15 := by
  unfold tempBin
  split
  · omega
  · exact Nat.min_le_left _ _

/-- A word of the Tally counts one more. -/
def counted (w : Nat) (s : State) : State := tlyWrite w (s.tly.word w + 1) s

theorem hourOfService_counts (junction flash : Int) : exec (.hourOfService junction flash) s =
    .next (counted (0x0B0 + tempBin 25 flash) (counted (0x0A0 + tempBin 40 junction) (counted 0x0C0 s))) :=
  congrArg Host.Outcome.next (working_on _ hwork)

omit hwork in
theorem counted_only {t : State} (w : Nat) (h : Touches (partSet [.tly, .bbx]) s t) : Touches (partSet [.tly, .bbx]) s (counted w t) :=
  tlyWrite_touches w _ (by decide) h

omit hwork in
theorem counted_thrice {a b c : Nat} (h : Fresh 3 s) (hab : a ≠ b) (hac : a ≠ c) (hbc : b ≠ c) (w : Nat) :
    (counted c (counted b (counted a s))).tly.word w = if w = a ∨ w = b ∨ w = c then s.tly.word w + 1 else s.tly.word w := by
  obtain ⟨fresh1, first⟩ := tlyWrite_counts h a
  obtain ⟨fresh2, second⟩ := tlyWrite_counts fresh1 b
  obtain ⟨-, third⟩ := tlyWrite_counts fresh2 c
  have words : (counted c (counted b (counted a s))).tly.word w =
      if w = c then (if w = b then (if w = a then s.tly.word w + 1 else s.tly.word w) + 1 else if w = a then s.tly.word w + 1 else s.tly.word w) + 1
      else if w = b then (if w = a then s.tly.word w + 1 else s.tly.word w) + 1 else if w = a then s.tly.word w + 1 else s.tly.word w := by
    rw [← first w, ← second w]
    exact third w
  rw [words]
  by_cases ha : w = a
  · rw [if_neg (ha ▸ hac), if_neg (ha ▸ hab), if_pos ha, if_pos (.inl ha)]
  · by_cases hb : w = b
    · rw [if_neg (hb ▸ hbc), if_pos hb, if_neg ha, if_pos (.inr (.inl hb))]
    · by_cases hc : w = c
      · rw [if_pos hc, if_neg hb, if_neg ha, if_pos (.inr (.inr hc))]
      · rw [if_neg hc, if_neg hb, if_neg ha, if_neg (by simp [ha, hb, hc])]

end

/-- Settles O40: each of the flash layer's own events has its effect and its idle case. -/
theorem flashHousekeeping : Obligations.FlashHousekeeping := by
  unfold Obligations.FlashHousekeeping
  intro s hwork
  refine ⟨fun unit h => fold_idle hwork (foldUnit_idle h), fun unit => ⟨fold_idle hwork, fun u h => ⟨foldUnit_only h, fold_settles hwork h⟩⟩,
    fun die => ⟨gcCollect_idle hwork, fun id st u hmap hv hdue hu hex => ?_, fun id st => gcCollect_room hwork⟩,
    writeHeatHalving_early hwork, writeHeatHalving_due hwork, catalogCompaction_early hwork, fun hready h => ?_, reserveRefill_ready hwork,
    fun junction flash hgood hplace => ?_⟩
  · obtain ⟨x, freed⟩ := freeDead_freed (freeStripe_freed hex)
    exact ⟨_, x, gcCollect_frees hwork hmap hv hdue hu, freed⟩
  · refine ⟨_, catalogCompaction_due hwork hready h, ?_, fun x => ?_⟩
    · exact (freeDead_touches (μ := partSet [.ftl]) (by decide) (Touches.modFtl _ (by decide) (.refl _ s))).only
    · rw [freeDead_recs]
      exact List.mem_filter.trans (and_congr_right fun _ => keptRec_iff s.ftl x.2)
  · have fresh : Fresh 3 s := ⟨fun w => ⟨(hgood w).1, by have := (hgood w).2; omega⟩, hplace⟩
    have hj := tempBin_le 40 junction
    have hf := tempBin_le 25 flash
    exact ⟨_, hourOfService_counts hwork junction flash, (counted_only _ (counted_only _ (counted_only _ (.refl _ s)))).only,
      counted_thrice fresh (by omega) (by omega) (by omega)⟩

end Sys2Proof.Machine
end

section
/-! SUPPORT. DISCARD and DISCARD_SECURE (10 R328, R329). -/

namespace Sys2Proof.Machine

open Sys2Proof

section
variable {s : State} {n : Nat} {e : Entry}

/-! ### The one discard in progress -/

theorem mmod_mset {α : Type} (m : AMap α) (k : Nat) (v : α) (f : α → α) : mmod (mset m k v) k f = mset m k (f v) := by
  unfold mmod
  rw [mget_mset]
  exact mset_mset m k v (f v)

/-- The state has the discard `o` in progress beside the ops there were when its entry started. -/
structure Discarding (n : Nat) (e : Entry) (o : Op) (s u : State) : Prop where
  rng : u.rng = (markStarted n e.idx s).rng
  clk : u.clk = s.clk
  tab : u.ops.tab = mset s.ops.tab s.ops.next o
  ring : o.ring = n
  idx : o.idx = e.idx
  body : ∀ k, o.body ≠ .seqClose k

/-- A change of other parts leaves the discard in progress. -/
theorem Discarding.keep {o : Op} {u v : State} (h : Discarding n e o s u) (hrng : v.rng = u.rng) (hclk : v.clk = u.clk) (hops : v.ops = u.ops) :
    Discarding n e o s v :=
  { h with rng := hrng.trans h.rng, clk := hclk.trans h.clk, tab := (congrArg Ops.tab hops).trans h.tab }

theorem Discarding.get {o : Op} {u : State} (h : Discarding n e o s u) : mget u.ops.tab s.ops.next = some o := by
  rw [h.tab]
  exact mget_mset _ _ _

theorem Discarding.inProgress {o : Op} {u : State} (h : Discarding n e o s u) : InProgress n e o.body s u :=
  ⟨o, h.get, h.ring, h.idx, rfl⟩

/-- The discard that ends leaves no discard to drive, and flash as it was. -/
theorem Discarding.ends {o : Op} {u : State} (h : Discarding n e o s u) (hmem : e ∈ (ringOf s n).entries) (hring : RingOk (ringOf s n))
    (hclose : NoClose s) (hnone : NoDiscard s) (a : Ans) :
    Ended n e a s (driveDiscards (finishOp s.ops.next a u)) ∧ (driveDiscards (finishOp s.ops.next a u)).ftl = u.ftl := by
  have noClose : NoClose u := fun x hx => by
    rw [h.tab] at hx
    exact mset_all (P := fun o : Op => ∀ k, o.body ≠ .seqClose k) (fun y hy => hclose y hy) h.body hx
  obtain ⟨ended, eq⟩ := finishOp_ended a hmem hring h.rng h.clk h.get h.ring h.idx noClose
  have tab : (finishOp s.ops.next a u).ops.tab = mdel (mset s.ops.tab s.ops.next o) s.ops.next := by
    rw [eq, endEntry_ops, ← h.tab]
    rfl
  rw [driveDiscards_id (hnone.after _ o tab)]
  refine ⟨ended, ?_⟩
  rw [eq]
  exact (endEntry_touches (μ := partSet [.rng, .sch]) n e.idx a _ (by decide) (.refl _ _)).ftl.resolve_left (by decide)

/-- Nothing is driven while the discard waits. -/
theorem Discarding.waits {o : Op} {u : State} (h : Discarding n e o s u) (hnone : NoDiscard s)
    (hidle : driveDiscard s.ops.next u = u) : driveDiscards u = u :=
  driveDiscards_one hnone _ o h.tab hidle

/-- A secure discard that waits for erases empties again what still holds its blocks. -/
theorem driveDiscard_erasing {o : Op} {u : State} {i : Nat} {sec kind id f k co m bl} (hget : mget u.ops.tab i = some o)
    (hbody : o.body = .discard sec kind id true f k co m bl) (hbl : bl ≠ []) :
    driveDiscard i u = forEach (unemptied u.ftl bl) evacuate u := by
  unfold driveDiscard
  rw [hget]
  dsimp only
  rw [hbody]
  dsimp only
  rw [Bool.not_true, if_neg Bool.false_ne_true, if_neg (by rw [List.isEmpty_iff]; exact hbl)]

theorem evacuateAll_ops (l : List Nat) (u : State) : (forEach l evacuate u).ops = u.ops :=
  forEach_mem_inv (fun w => w.ops = u.ops) (fun x _ w hw =>
    ((evacuate_touches (μ := partSet [.ftl]) x (by decide) (.refl _ w)).ops.resolve_left (by decide)).trans hw) u rfl

/-- The discard that waits for erases stays in progress, and the state is as it was where nothing is left to empty. -/
theorem Discarding.erases {o : Op} {u : State} (h : Discarding n e o s u) (hnone : NoDiscard s) {sec kind id f k co m bl}
    (hbody : o.body = .discard sec kind id true f k co m bl) (hbl : bl ≠ []) :
    InProgress n e o.body s (driveDiscards u) ∧ (unemptied u.ftl bl = [] → driveDiscards u = u) := by
  have kept : (driveDiscards u).ops = u.ops := by
    unfold driveDiscards
    refine forEach_mem_inv (fun v => v.ops = u.ops) (fun x hx v hv => ?_) u rfl
    rw [h.tab] at hx
    rcases mem_mset hx with hx | hx
    · subst hx
      dsimp only
      rw [hbody]
      dsimp only
      rw [driveDiscard_erasing (by rw [hv]; exact h.get) hbody hbl, evacuateAll_ops, hv]
    · have other := hnone x hx
      split
      · next hb => rw [hb] at other; exact other.elim
      · exact hv
  refine ⟨⟨o, by rw [kept]; exact h.get, h.ring, h.idx, rfl⟩, fun hempty => h.waits hnone ?_⟩
  rw [driveDiscard_erasing h.get hbody hbl, hempty]
  rfl

/-! ### A discard begins -/

/-- The op a discard's entry becomes. -/
def discardOf (secure : Bool) (n : Nat) (e : Entry) (s : State) : Op :=
  { opOf (markStarted n e.idx s) n e (.discard secure (field (eInline e.raw) 0 1) (field (eInline e.raw) 4 4) false 0 0 0 0 []) with
    bufs := [(0, e.operands.getD [])] }

/-- The state with the discard's entry an op in progress, its sequence closing where it names one. -/
def discardBegun (secure : Bool) (n : Nat) (e : Entry) (s : State) : State :=
  let m := markStarted n e.idx s
  let b := .discard secure (field (eInline e.raw) 0 1) (field (eInline e.raw) 4 4) false 0 0 0 0 []
  let u := modOp s.ops.next (fun o => { o with bufs := [(0, e.operands.getD [])] }) (newOp (opOf m n e b) m)
  if field (eInline e.raw) 0 1 == 0 then modSeq (field (eInline e.raw) 4 4 % 2 ^ 24) (fun q => { q with closing := true }) u else u

theorem discardBegun_discarding (secure : Bool) (n : Nat) (e : Entry) (s : State) :
    Discarding n e (discardOf secure n e s) s (discardBegun secure n e s) where
  rng := (apply_ite State.rng _ _ _).trans (ite_self _)
  clk := (apply_ite State.clk _ _ _).trans (ite_self _)
  tab := by
    unfold discardBegun
    dsimp only
    rw [apply_ite (fun u : State => u.ops.tab)]
    exact (ite_self _).trans (mmod_mset _ _ _ _)
  ring := rfl
  idx := rfl
  body := fun _ => nofun

theorem discardBegun_only (secure : Bool) (n : Nat) (e : Entry) (s : State) :
    Only [.ops, .seqs] (markStarted n e.idx s) (discardBegun secure n e s) := by
  have begun := Touches.modOps (w := partSet [.ops, .seqs]) (fun x => { x with tab := mmod x.tab s.ops.next fun o => { o with bufs := [(0, e.operands.getD [])] } })
    (by decide) (Touches.modOps (fun x => { x with tab := mset x.tab x.next (opOf (markStarted n e.idx s) n e (discardOf secure n e s).body), next := x.next + 1 })
      (by decide) (.refl _ (markStarted n e.idx s)))
  exact (Touches.ite (Touches.modSeqs _ (by decide) begun) begun).only

/-! ### What a discard's entry does -/

/-- What a discard may not name, with the subcode of its refusal. -/
def DiscardBad (s : State) (ctx : Nat) (e : Entry) (sub : Nat) : Prop :=
  (field (eInline e.raw) 0 1 = 0 ∧ seqOk s ctx (field (eInline e.raw) 4 4 % 2 ^ 24) = false ∧ sub = 0x10) ∨
    (field (eInline e.raw) 0 1 = 2 ∧ objNamed s ctx (field (eInline e.raw) 4 4 % 2 ^ 20) = none ∧ sub = 0x40) ∨ (2 < field (eInline e.raw) 0 1 ∧ sub = 0x41)

/-- What a discard may name. -/
def DiscardGood (s : State) (ctx : Nat) (e : Entry) : Prop :=
  (field (eInline e.raw) 0 1 = 0 ∧ seqOk s ctx (field (eInline e.raw) 4 4 % 2 ^ 24) = true) ∨ field (eInline e.raw) 0 1 = 1 ∨
    (field (eInline e.raw) 0 1 = 2 ∧ (objNamed s ctx (field (eInline e.raw) 4 4 % 2 ^ 20)).isSome = true)

section
variable (hmem : e ∈ (ringOf s n).entries) (secure : Bool)

include hmem

theorem discardOp_bad {sub : Nat} (h : DiscardBad s (ringOf s n).context e sub) :
    discardOp secure n e (markStarted n e.idx s) = endNow n e (internal sub) (markStarted n e.idx s) := by
  have seqs : ∀ c k, seqOk (markStarted n e.idx s) c k = seqOk s c k := fun _ _ => rfl
  have objs : ∀ c k, objNamed (markStarted n e.idx s) c k = objNamed s c k := fun _ _ => rfl
  unfold discardOp
  dsimp only
  rw [context_markStarted hmem]
  rcases h with ⟨hkind, hno, rfl⟩ | ⟨hkind, hno, rfl⟩ | ⟨hkind, rfl⟩
  · rw [hkind, seqs, hno]
    rfl
  · rw [hkind, objs, hno]
    rfl
  · obtain ⟨j, hj⟩ := Nat.exists_eq_add_of_lt hkind
    rw [hj, show 2 + j + 1 = j + 3 by omega]
    rfl

theorem discardOp_good (h : DiscardGood s (ringOf s n).context e) :
    discardOp secure n e (markStarted n e.idx s) = driveDiscard s.ops.next (discardBegun secure n e s) := by
  have seqs : ∀ c k, seqOk (markStarted n e.idx s) c k = seqOk s c k := fun _ _ => rfl
  have objs : ∀ c k, objNamed (markStarted n e.idx s) c k = objNamed s c k := fun _ _ => rfl
  unfold discardOp discardBegun
  dsimp only
  rw [context_markStarted hmem]
  rcases h with ⟨hkind, hyes⟩ | hkind | ⟨hkind, hyes⟩
  · rw [hkind, seqs, hyes]
    rfl
  · rw [hkind]
    rfl
  · rw [hkind, objs, hyes]
    rfl

end

/-! ### What a begun discard does -/

section
variable {op : Nat} {i : Instr} {secure : Bool} (hring : RingOk (ringOf s n)) (hclose : NoClose s) (hnone : NoDiscard s)
  (hmem : e ∈ (ringOf s n).entries)

include hmem in
/-- A discard drives its object's unmapping. -/
theorem driveDiscard_begun : driveDiscard s.ops.next (discardBegun secure n e s) =
    match unmapObject (ringOf s n).context (eInline e.raw) (e.operands.getD []) (discardBegun secure n e s) with
    | .refused sub => finishOp s.ops.next (internal sub) (discardBegun secure n e s)
    | .later => discardBegun secure n e s
    | .done f k v => if !secure then finishOp s.ops.next { status := stOk, a := f, b := k } v
      else
        let r := beginErase (secureSet (discardBegun secure n e s) v)
          (withholdOf s.ops.next (discardBegun secure n e s) (secureSet (discardBegun secure n e s) v)) v
        let w := modOp s.ops.next (fun o => { o with
          body := .discard secure (field (eInline e.raw) 0 1) (field (eInline e.raw) 4 4) true f k r.2.1 r.1.length r.1 }) r.2.2
        if r.1.isEmpty then finishOp s.ops.next { status := stOk, a := f, b := k, c := r.2.1 } (eraseEnded s.ops.next w) else w := by
  have ctx : (discardOf secure n e s).ctx = (ringOf s n).context := context_markStarted hmem
  rw [← ctx]
  unfold driveDiscard
  rw [(discardBegun_discarding secure n e s).get]
  rfl

theorem unmapped_discarding {u v : State} {o : Op} {ctx f k : Nat} {il key : List Byte} (h : Discarding n e o s u)
    (hdone : unmapObject ctx il key u = .done f k v) : Discarding n e o s v := by
  have touched := Touches.ofUnmapped_done hdone (unmapObject_touches
    (μ := partSet [.link, .hbm, .io, .seqs, .pfx, .casc, .cdc, .tier, .wt, .ftl, .sec]) ctx il key (by decide) (.refl _ u))
  exact h.keep (touched.rng.resolve_left (by decide)) (touched.clk.resolve_left (by decide)) (touched.ops.resolve_left (by decide))

theorem beginErase_discarding {v : State} {o : Op} (ids : List Nat) (hold : List (Nat × Nat × Nat)) (h : Discarding n e o s v) :
    Discarding n e o s (beginErase ids hold v).2.2 := by
  have touched := beginErase_touches (μ := partSet [.ftl]) ids hold (by decide) (.refl _ v)
  exact h.keep (touched.rng.resolve_left (by decide)) (touched.clk.resolve_left (by decide)) (touched.ops.resolve_left (by decide))

/-- The discard under way with another body of its kind. -/
theorem Discarding.setBody {u : State} {o : Op} {b : OpBody} (h : Discarding n e o s u) (hb : ∀ k, b ≠ .seqClose k) :
    Discarding n e { o with body := b } s (modOp s.ops.next (fun o => { o with body := b }) u) where
  rng := h.rng
  clk := h.clk
  tab := by
    show mmod u.ops.tab s.ops.next _ = _
    rw [h.tab]
    exact mmod_mset _ _ _ _
  ring := h.ring
  idx := h.idx
  body := hb

/-- The end of its erases leaves the discard in progress. -/
theorem Discarding.erased {u : State} {o : Op} (h : Discarding n e o s u) : Discarding n e o s (eraseEnded s.ops.next u) :=
  h.keep rfl rfl rfl

section
variable (hexec : exec i s = .next (driveDiscards (startOp op n (discardOp secure n) s))) (h : starting op n s = some e)

include hexec h

theorem discard_starts : exec i s = .next (driveDiscards (discardOp secure n e (markStarted n e.idx s))) :=
  hexec.trans (congrArg (fun u => Host.Outcome.next (driveDiscards u)) (startOp_starting _ h))

include hring hnone

/-- A discard of what the context does not hold ends with its subcode, and flash stays as it was. -/
theorem discard_refused {sub : Nat} (hbad : DiscardBad s (ringOf s n).context e sub) :
    ∃ t, exec i s = .next t ∧ Ended n e (internal sub) s t ∧ t.ftl = s.ftl := by
  have hmem := (startable_mem (starting_some h).1).1
  have ops : (endNow n e (internal sub) (markStarted n e.idx s)).ops = s.ops := (endNow_keeps ..).2
  have idle : driveDiscards (endNow n e (internal sub) (markStarted n e.idx s)) = endNow n e (internal sub) (markStarted n e.idx s) :=
    driveDiscards_id (hnone.congr ops)
  refine ⟨_, (discard_starts hexec h).trans (congrArg Host.Outcome.next ?_), endNow_ended _ hmem hring,
    (endNow_touches (μ := partSet [.rng, .sch]) n e _ (by decide) (.refl _ (markStarted n e.idx s))).ftl.resolve_left (by decide)⟩
  rw [discardOp_bad hmem secure hbad, idle]

include hclose

/-- A discard of what the context holds unmaps it, waits for it, or is refused by its block. -/
theorem discard_unmaps (hgood : DiscardGood s (ringOf s n).context e) :
    ∃ t, exec i s = .next t ∧ let u := discardBegun secure n e s
      let r := unmapObject (ringOf s n).context (eInline e.raw) (e.operands.getD []) u
      (∀ sub, r = .refused sub → Ended n e (internal sub) s t) ∧ (r = .later → t = u) ∧
      ∀ f k v, r = .done f k v → (secure = false → Ended n e { status := stOk, a := f, b := k } s t ∧ t.ftl = v.ftl) ∧
        (secure = true → ∀ bl co x, beginErase (secureSet u v) (withholdOf s.ops.next u (secureSet u v)) v = (bl, co, x) →
          (bl = [] → Ended n e { status := stOk, a := f, b := k, c := co } s t) ∧
          (bl ≠ [] → InProgress n e (.discard true (field (eInline e.raw) 0 1) (field (eInline e.raw) 4 4) true f k co bl.length bl) s t ∧
            (unemptied x.ftl bl = [] → t.ftl = x.ftl))) := by
  have hmem := (startable_mem (starting_some h).1).1
  have begun := discardBegun_discarding secure n e s
  have drives := driveDiscard_begun (secure := secure) hmem
  refine ⟨_, (discard_starts hexec h).trans (congrArg (fun u => Host.Outcome.next (driveDiscards u)) (discardOp_good hmem secure hgood)), ?_⟩
  generalize discardBegun secure n e s = u at *
  refine ⟨fun sub hr => ?_, fun hr => ?_, fun f k v hr => ?_⟩
  · rw [drives, hr]
    exact (begun.ends hmem hring hclose hnone _).1
  · rw [hr] at drives
    rw [drives]
    exact begun.waits hnone drives
  · have unmapped := unmapped_discarding begun hr
    rw [hr] at drives
    refine ⟨fun hplain => ?_, fun hsecure bl co x hbegin => ?_⟩
    · rw [drives, hplain]
      exact unmapped.ends hmem hring hclose hnone _
    · subst hsecure
      have erasing := beginErase_discarding (secureSet u v) (withholdOf s.ops.next u (secureSet u v)) unmapped
      dsimp only at drives
      rw [hbegin] at drives erasing
      have waits := erasing.setBody (b := .discard true (field (eInline e.raw) 0 1) (field (eInline e.raw) 4 4) true f k co bl.length bl) fun _ => nofun
      rw [if_neg (by decide)] at drives
      refine ⟨fun hbl => ?_, fun hbl => ?_⟩
      · rw [drives, if_pos (by rw [hbl]; rfl)]
        exact (waits.erased.ends hmem hring hclose hnone _).1
      · rw [drives, if_neg (by rw [List.isEmpty_iff]; exact hbl)]
        obtain ⟨erases, idle⟩ := waits.erases hnone rfl hbl
        exact ⟨erases, fun hempty => (congrArg State.ftl (idle hempty) :)⟩

end

end

end

/-- Settles O41: a discard is refused, waits, ends with what it freed, or erases the blocks that hold a copy. -/
theorem discardsUnmap : Obligations.DiscardsUnmap := by
  unfold Obligations.DiscardsUnmap
  intro s n e hring hclose hnone
  refine ⟨fun h => ⟨fun sub hbad => ?_, fun hgood => ?_⟩, fun h => ⟨fun sub hbad => ?_, fun hgood => ?_⟩⟩
  · exact discard_refused hring hnone rfl h hbad
  · obtain ⟨t, ht, spec⟩ := discard_unmaps (i := .discard n) (secure := false) hring hclose hnone rfl h hgood
    exact ⟨t, _, ht, (discardBegun_discarding false n e s).inProgress, discardBegun_only false n e s, spec⟩
  · exact discard_refused hring hnone rfl h hbad
  · obtain ⟨t, ht, spec⟩ := discard_unmaps (i := .discardSecure n) (secure := true) hring hclose hnone rfl h hgood
    exact ⟨t, _, ht, (discardBegun_discarding true n e s).inProgress, discardBegun_only true n e s, spec⟩

end Sys2Proof.Machine
end

section
/-! SUPPORT. Key-management requests (12 R366, R377, R379, R383 to R385). -/

namespace Sys2Proof.Machine

open Sys2Proof

/-! ### A request arrives -/

section
variable {s : State} {session : Nat} {msg : List Byte}

/-- A signature over the request by one of the image's keys. -/
def KmVerified (s : State) (msg : List Byte) : Prop :=
  ∃ k ∈ (s.img.cur.map (·.kmKeys)).getD [], ecdsaVerify k (msg.take (16 + field msg 2 2)) (msg.drop (16 + field msg 2 2)) = true

theorem kmSigOk_iff : kmSigOk ((s.img.cur.map (·.kmKeys)).getD []) msg = true ↔ KmVerified s msg := by
  unfold kmSigOk KmVerified
  exact List.any_eq_true

/-- A request that its session accepts. -/
def KmAccepts (s : State) (session : Nat) (msg : List Byte) (x : Session) : Prop :=
  x.finished = true ∧ msg.length = 148 + field msg 2 2 ∧ field msg 4 4 = x.kmSeq ∧ field msg 8 4 = session ∧ KmVerified s msg ∧
    1 ≤ field msg 0 1 ∧ field msg 0 1 ≤ 5

/-- The model's checks of a request are those of its session. -/
theorem kmChecks_iff {x : Session} : (!x.finished || !kmWhole msg || field msg 4 4 != x.kmSeq || field msg 8 4 != session ||
    !(decide (1 ≤ field msg 0 1) && decide (field msg 0 1 ≤ 5)) || !kmSigOk ((s.img.cur.map (·.kmKeys)).getD []) msg) = true ↔
      ¬ KmAccepts s session msg x := by
  unfold KmAccepts kmWhole
  rw [← kmSigOk_iff]
  simp only [Bool.or_eq_true, Bool.not_eq_true', bne_iff_ne, Bool.and_eq_false_iff, decide_eq_false_iff_not, beq_eq_false_iff_ne, Classical.not_and_iff_not_or_not,
    Bool.not_eq_true, or_assoc]
  grind

theorem takeKm_accepts {x : Session} (hx : mget s.sec.sessions session = some x) (h : KmAccepts s session msg x) :
    takeKm session msg s = { s with sec := { s.sec with
      km := s.sec.km ++ [{ session := session, code := field msg 0 1, flags := field msg 1 1, seq := x.kmSeq, body := (msg.take (16 + field msg 2 2)).drop 16 }]
      sessions := mset s.sec.sessions session { x with kmSeq := x.kmSeq + 1 } } } := by
  unfold takeKm
  dsimp only
  rw [hx]
  dsimp only
  rw [if_neg fun bad => kmChecks_iff.mp bad h]
  rfl

theorem takeKm_discards (h : ∀ x, mget s.sec.sessions session = some x → ¬ KmAccepts s session msg x) :
    takeKm session msg s = { s with bbx := s.bbx.arrive (eventAt 0 0 evKmDiscard [session, field msg 0 1] s) } := by
  unfold takeKm
  dsimp only
  cases hx : mget s.sec.sessions session with
  | none => rfl
  | some x =>
    dsimp only
    rw [if_pos (kmChecks_iff.mpr (h x hx))]
    rfl

end

/-! ### A request is carried out -/

section
variable {s : State} {r : KmReq} {rest : List KmReq} (hkm : s.sec.km = r :: rest)

/-- The state with the oldest request taken. -/
def kmTaken (rest : List KmReq) (s : State) : State := { s with sec := { s.sec with km := rest } }

/-- The command ends the request with this answer, in this state. -/
def KmEnds (c : Instr) (r : KmReq) (status sub : Nat) (s v : State) : Prop :=
  exec c s = .next (answerKm r.session r.code r.seq { status := status, a := sub } [] v)

include hkm

/-- A tenant that may not be created is refused. -/
theorem kmTenantCreate_refused (hcode : r.code = 1)
    (h : (tenantSt s (field r.body 0 2)).created = true ∨ (tenantSt s (field r.body 0 2)).removing = true ∨ 0xFF < field r.body 0 2) :
    KmEnds (.kmTenantCreate r.session) r stInternal 0x60 s (kmTaken rest s) := by
  refine congrArg Host.Outcome.next ((kmRun_at hkm rfl hcode _).trans (if_pos ?_))
  rw [Bool.or_assoc, Bool.or_eq_true_iff, Bool.or_eq_true_iff, decide_eq_true_iff]
  exact h

theorem kmTenantCreate_creates (hcode : r.code = 1) (hcreated : (tenantSt s (field r.body 0 2)).created = false)
    (hremoving : (tenantSt s (field r.body 0 2)).removing = false) (hrange : field r.body 0 2 ≤ 0xFF) :
    KmEnds (.kmTenantCreate r.session) r stOk 0 s { s with free := s.free + 1, sec := { (kmTaken rest s).sec with
      tenants := mset s.sec.tenants (field r.body 0 2) { created := true, flashKey := some (Config.drbg s.free) } } } := by
  refine congrArg Host.Outcome.next ((kmRun_at hkm rfl hcode _).trans (if_neg ?_))
  have same : ∀ t, tenantSt (s.modSec fun x => { x with km := rest }) t = tenantSt s t := fun _ => rfl
  rw [same, hcreated, hremoving, decide_eq_false (Nat.not_lt.mpr hrange)]
  decide

/-- What a job key may be opened for: a created tenant, a free index, the session's own node. -/
def JobOk (s : State) (r : KmReq) : Prop :=
  (tenantSt s (field r.body 4 2)).created = true ∧ (tenantSt s (field r.body 4 2)).removing = false ∧
    (1 ≤ field r.body 0 4 ∧ field r.body 0 4 ≤ 0x7FFFFFFF ∧ mhas s.sec.keys (field r.body 0 4) = false) ∧
    field r.body 6 2 = (mgetD s.sec.sessions r.session { node := 0 }).node

omit hkm in
theorem jobChecks_iff : (!(tenantSt s (field r.body 4 2)).created || (tenantSt s (field r.body 4 2)).removing || !keyFree s (field r.body 0 4) ||
    field r.body 6 2 != (mgetD s.sec.sessions r.session { node := 0 }).node) = true ↔ ¬ JobOk s r := by
  unfold JobOk
  rw [← keyFree_iff]
  simp only [Bool.or_eq_true, Bool.not_eq_true', bne_iff_ne, Classical.not_and_iff_not_or_not, Bool.not_eq_true, Bool.not_eq_false, or_assoc]

theorem kmJobOpen_refused (hcode : r.code = 3) (h : ¬ JobOk s r) :
    KmEnds (.kmJobOpen r.session) r stInternal 0x62 s (kmTaken rest s) :=
  congrArg Host.Outcome.next ((kmRun_at hkm rfl hcode _).trans (if_pos (jobChecks_iff.mpr h)))

theorem kmJobOpen_full (hcode : r.code = 3) (h : JobOk s r) (hfull : 16384 ≤ jobKeys s) :
    KmEnds (.kmJobOpen r.session) r stNoSpace 0 s (kmTaken rest s) :=
  congrArg Host.Outcome.next ((kmRun_at hkm rfl hcode _).trans ((if_neg fun bad => jobChecks_iff.mp bad h).trans (if_pos hfull)))

theorem kmJobOpen_opens (hcode : r.code = 3) (h : JobOk s r) (hroom : jobKeys s < 16384) :
    KmEnds (.kmJobOpen r.session) r stOk 0 s { kmTaken rest s with sec := { (kmTaken rest s).sec with
      keys := mset s.sec.keys (field r.body 0 4) { tenant := field r.body 4 2, node := (mgetD s.sec.sessions r.session { node := 0 }).node
                                                   bytes := jobKey (mgetD s.sec.sessions r.session { node := 0 }).ems (field r.body 0 4) (field r.body 4 2)
                                                     (mgetD s.sec.sessions r.session { node := 0 }).node } } } := by
  obtain ⟨-, -, -, hnode⟩ := id h
  rw [← hnode]
  exact congrArg Host.Outcome.next ((kmRun_at hkm rfl hcode _).trans
    ((if_neg fun bad => jobChecks_iff.mp bad h).trans (if_neg (Nat.not_le.mpr hroom))))

/-- What a pair key may be opened for: a free index and another member of the group. -/
def PeerOk (s : State) (r : KmReq) : Prop :=
  (1 ≤ field r.body 0 4 ∧ field r.body 0 4 ≤ 0x7FFFFFFF ∧ mhas s.sec.keys (field r.body 0 4) = false) ∧ 1 < cascSize s ∧
    ∃ q, q < cascSize s ∧ q ≠ cascPos s ∧ cascNode s q = field r.body 4 2

omit hkm in
theorem peerChecks_iff : (!keyFree s (field r.body 0 4) || !(decide (1 < cascSize s) &&
    (List.range (cascSize s)).any fun q => q != cascPos s && cascNode s q == field r.body 4 2)) = true ↔ ¬ PeerOk s r := by
  have member : (List.range (cascSize s)).any (fun q => q != cascPos s && cascNode s q == field r.body 4 2) = true ↔
      ∃ q, q < cascSize s ∧ q ≠ cascPos s ∧ cascNode s q = field r.body 4 2 := by
    simp only [List.any_eq_true, List.mem_range, Bool.and_eq_true, bne_iff_ne, beq_iff_eq]
  unfold PeerOk
  rw [← keyFree_iff, ← member]
  simp only [Bool.or_eq_true, Bool.not_eq_true', Bool.and_eq_false_iff, decide_eq_false_iff_not, Classical.not_and_iff_not_or_not, Bool.not_eq_true]

theorem kmPeerOpen_refused (hcode : r.code = 5) (h : ¬ PeerOk s r) :
    KmEnds (.kmPeerOpen r.session) r stInternal 0x64 s (kmTaken rest s) :=
  congrArg Host.Outcome.next ((kmRun_at hkm rfl hcode _).trans (if_pos (peerChecks_iff.mpr h)))

theorem kmPeerOpen_full (hcode : r.code = 5) (h : PeerOk s r) (hfull : 16384 ≤ jobKeys s) :
    KmEnds (.kmPeerOpen r.session) r stNoSpace 0 s (kmTaken rest s) :=
  congrArg Host.Outcome.next ((kmRun_at hkm rfl hcode _).trans ((if_neg fun bad => peerChecks_iff.mp bad h).trans (if_pos hfull)))

theorem kmPeerOpen_opens (hcode : r.code = 5) (h : PeerOk s r) (hroom : jobKeys s < 16384) :
    KmEnds (.kmPeerOpen r.session) r stOk 0 s { kmTaken rest s with sec := { (kmTaken rest s).sec with
      keys := mset s.sec.keys (field r.body 0 4) { tenant := 0, node := field r.body 4 2, bytes := (r.body.drop 8).take 32, pair := true } } } :=
  congrArg Host.Outcome.next ((kmRun_at hkm rfl hcode _).trans
    ((if_neg fun bad => peerChecks_iff.mp bad h).trans (if_neg (Nat.not_le.mpr hroom))))

end

/-- Settles O45: a request is accepted or discarded, and the oldest accepted one is refused or opens its tenant or key. -/
theorem keyRequestsOpenTenantsAndKeys : Obligations.KeyRequestsOpenTenantsAndKeys := by
  unfold Obligations.KeyRequestsOpenTenantsAndKeys
  intro s session
  refine ⟨fun c flags len kmSeq named rest => ⟨fun x hx hfin hlen hseq hsession hsig h1 h5 => ?_, fun h => ?_⟩, ?_⟩
  · exact congrArg Host.Outcome.next (takeKm_accepts hx ⟨hfin, hlen, hseq, hsession, hsig, h1, h5⟩)
  · refine congrArg Host.Outcome.next (takeKm_discards fun x hx => ?_)
    rintro ⟨hfin, hlen, hseq, hsession, hsig, h1, h5⟩
    rcases h with h | h | h | h | h | h
    · rcases h x hx with h | h
      · exact nomatch hfin.symm.trans h
      · exact h hseq
    · exact h hlen
    · exact h hsession
    · exact h hsig
    · exact absurd h (Nat.ne_of_gt h1)
    · exact absurd h (Nat.not_lt.mpr h5)
  · rintro r rest hkm rfl
    exact ⟨fun hcode => ⟨kmTenantCreate_refused hkm hcode, kmTenantCreate_creates hkm hcode⟩,
      fun hcode => ⟨kmJobOpen_refused hkm hcode, kmJobOpen_full hkm hcode, kmJobOpen_opens hkm hcode⟩,
      fun hcode => ⟨kmPeerOpen_refused hkm hcode, kmPeerOpen_full hkm hcode, kmPeerOpen_opens hkm hcode⟩⟩

end Sys2Proof.Machine
end

section
/-! SUPPORT. The end of a removal's drain (12 R379, R386, R391 steps 3 to 7). -/

namespace Sys2Proof.Machine

open Sys2Proof

/-! ### A tenant's objects are freed -/

/-- The state with the tenant's context entries, records and bindings gone, and its flash key destroyed. -/
def entriesGone (t : Nat) (slots : List Nat) (s : State) : State :=
  ((s.modSch fun x => { x with ctxs := x.ctxs.filter fun c => c.2.tenant != t }).modFtl fun f =>
    { f with recs := f.recs.filter fun r => r.2.tenant != t, ghosts := f.ghosts.filter fun i => i.2.tenant != t }).modSec fun x =>
    { x with
      slots := x.slots.filter fun y => !slots.contains y.1
      tenants := mmod x.tenants t fun y => { y with created := false, flashKey := none } }

/-- Where no extent stands, a tenant's erase frees its objects, with no op and no context entry touched, and then drops its entries. -/
theorem eraseTenant_noExtents {t : Nat} {s : State} (h : s.ext.table = []) : ∃ slots v,
    Touches (partSet [.link, .hbm, .io, .seqs, .pfx, .casc, .cdc, .tier, .wt, .ftl, .sec]) s v ∧ (eraseTenant t s).2 = entriesGone t slots v := by
  unfold eraseTenant
  dsimp only
  generalize hm : forEach _ abandonMove s = m
  generalize hq : forEach _ (fun h s => (closeSeq h s).2.2) m = q
  generalize hb : forEach _ (fun b s => (retireBlock b s).2) q = b
  generalize ho : forEach _ (fun o s => (freeObj o s).2) b = o
  have touched : Touches (partSet [.link, .hbm, .io, .seqs, .pfx, .casc, .cdc, .tier, .wt, .ftl, .sec]) s o := by
    rw [← ho, ← hb, ← hq, ← hm]
    refine Touches.forEach _ _ (fun o u hu => freeObj_touches o (by decide) hu) ?_
    refine Touches.forEach _ _ (fun b u hu => retireBlock_touches b (by decide) hu) ?_
    refine Touches.forEach _ _ (fun h u hu => closeSeq_touches h (by decide) hu) ?_
    exact Touches.forEach _ _ (fun m u hu => abandonMove_touches m (by decide) hu) (.refl _ s)
  refine ⟨slotsOf m t true, o, touched, ?_⟩
  rw [touched.ext.resolve_left (by decide), h]
  rfl

/-! ### The drain ends -/

section
variable {s : State} {r : Removal}

/-- The removal with the flits its keys had discarded. -/
def drained (r : Removal) (s : State) : Removal :=
  { r with flits := sum (r.keys.map fun k => ((mget s.sec.keys k).map (·.discarded)).getD 0) }

/-- The state with the removal's keys destroyed. -/
def keysGone (r : Removal) (s : State) : State := s.modSec fun x => { x with keys := x.keys.filter fun k => !r.keys.contains k.1 }

theorem keysGone_none {j : Nat} (hj : j ∈ r.keys) : mget (keysGone r s).sec.keys j = none := mget_filter_none _ hj

/-- The state with the removal's save slots released too. -/
def slotsGone (n : Nat) (r : Removal) (s : State) : State := (keysGone r s).modSch fun x => { x with parts := x.parts.map fun p =>
  (p.1, { p.2 with slots := p.2.slots.map fun y => if y == some n then none else y }) }

section
variable (hwork : atRest s = false) (hr : (s.sec.removals.find? fun r => r.stage == 1) = some r)

include hwork hr

theorem removeDrainDone_close (hclose : r.tenant = none) : exec .removeDrainDone s =
    .next (answerKm r.session r.code r.seq { status := stOk } (leBytes 4 r.aborted ++ leBytes 4 (drained r s).flits) (dropRemoval r (keysGone r s))) := by
  refine congrArg Host.Outcome.next ((working_on _ hwork).trans ?_)
  rw [hr]
  dsimp only
  rw [hclose]
  rfl

theorem removeDrainDone_tenant {n : Nat} (hn : r.tenant = some n) :
    exec .removeDrainDone s = .next (removalScrub n (drained r s) (keysGone r s)) := by
  refine congrArg Host.Outcome.next ((working_on _ hwork).trans ?_)
  rw [hr]
  dsimp only
  split
  · next t ht =>
    cases hn.symm.trans ht
    rfl
  · next ht => exact nomatch hn.symm.trans ht

end

/-- With none of its partitions in a reset, the removal's scrubs begin. -/
theorem removalScrub_scrubs {n : Nat} (hsome : r.scrubs ≠ []) (hidle : ∀ p ∈ r.scrubs, (partOf s p).reset = .none) :
    removalScrub n (drained r s) (keysGone r s) = putRemoval { drained r s with stage := 2, scrubs := r.scrubs }
      (forEach r.scrubs (fun p s => beginScrub p (modPart p (fun x => { x with outgoing := some n }) s)) (slotsGone n r s)) := by
  have all : r.scrubs.filter (fun p => (partOf (keysGone r s) p).reset == .none) = r.scrubs :=
    List.filter_eq_self.mpr fun p hp => beq_iff_eq.mpr (hidle p hp)
  have rest : r.scrubs.filter (fun p => !r.scrubs.contains p) = [] :=
    List.filter_eq_nil_iff.mpr fun p hp => by rw [List.contains_iff_mem.mpr hp]; decide
  unfold removalScrub
  dsimp only
  rw [show (drained r s).scrubs = r.scrubs from rfl, all, rest, if_neg (by rw [List.isEmpty_iff]; exact hsome)]
  rfl

theorem scrubsBegun_keys {n : Nat} (l : List Nat) (u : State) :
    (forEach l (fun p s => beginScrub p (modPart p (fun x => { x with outgoing := some n }) s)) u).sec = u.sec := by
  refine forEach_mem_inv (fun v => v.sec = u.sec) (fun p _ v hv => ?_) u rfl
  exact hv

theorem removalScrub_none {n : Nat} (hnone : r.scrubs = []) :
    removalScrub n (drained r s) (keysGone r s) = finishRemoval n (drained r s) (slotsGone n r s) := by
  unfold removalScrub
  dsimp only
  rw [show (drained r s).scrubs = r.scrubs from rfl, hnone]
  rfl

/-! ### The removal completes -/

section
variable {n : Nat} (hno : s.ops.tab = [])

include hno

/-- A removal without ERASE completes with the tenant's state as it was. -/
theorem finishRemoval_keeps (herase : r.erase = false) :
    (finishRemoval n (drained r s) (slotsGone n r s)).sec.tenants = mmod s.sec.tenants n (fun y => { y with removing := false }) ∧
      (finishRemoval n (drained r s) (slotsGone n r s)).sch.ctxs = s.sch.ctxs ∧ (finishRemoval n (drained r s) (slotsGone n r s)).ftl = s.ftl ∧
      (finishRemoval n (drained r s) (slotsGone n r s)).seqs = s.seqs := by
  have plain : (if (drained r s).erase then eraseTenant n (slotsGone n r s) else ({}, slotsGone n r s)) = ({}, slotsGone n r s) :=
    if_neg (by rw [show (drained r s).erase = r.erase from rfl, herase]; exact Bool.false_ne_true)
  obtain ⟨tenants, sch, ftl, seqs⟩ := finishRemoval_spec plain hno
  exact ⟨tenants, by rw [sch]; rfl, ftl, seqs⟩

/-- A removal with ERASE completes with nothing of the tenant's left. -/
theorem finishRemoval_erases (hext : s.ext.table = []) (herase : r.erase = true) :
    (∃ m, (finishRemoval n (drained r s) (slotsGone n r s)).sec.tenants =
      mmod (mmod m n fun y => { y with created := false, flashKey := none }) n fun y => { y with removing := false }) ∧
      (∀ c ∈ (finishRemoval n (drained r s) (slotsGone n r s)).sch.ctxs, c.2.tenant ≠ n) ∧
      ∀ x ∈ (finishRemoval n (drained r s) (slotsGone n r s)).ftl.recs, x.2.tenant ≠ n := by
  obtain ⟨slots, v, touched, gone⟩ := eraseTenant_noExtents (t := n) (show (slotsGone n r s).ext.table = [] from hext)
  have erased : (if (drained r s).erase then eraseTenant n (slotsGone n r s) else ({}, slotsGone n r s)) =
      ((eraseTenant n (slotsGone n r s)).1, entriesGone n slots v) := by
    rw [if_pos (show (drained r s).erase = true from herase), ← gone]
  have ops : (entriesGone n slots v).ops.tab = [] := by
    show v.ops.tab = []
    rw [touched.ops.resolve_left (by decide)]
    exact hno
  obtain ⟨tenants, sch, ftl, -⟩ := finishRemoval_spec erased ops
  refine ⟨⟨_, tenants⟩, fun c hc => ?_, fun x hx => ?_⟩
  · rw [sch] at hc
    exact bne_iff_ne.mp (List.mem_filter.mp hc).2
  · rw [ftl] at hx
    exact bne_iff_ne.mp (List.mem_filter.mp hx).2

end

end

/-- Settles O47: the drain ends by an answer, by the removal's scrubs, or by its completion. -/
theorem drainedKeysAreDestroyed : Obligations.DrainedKeysAreDestroyed := by
  unfold Obligations.DrainedKeysAreDestroyed
  intro s r hwork hr
  dsimp only
  cases hn : r.tenant with
  | none =>
    refine ⟨_, removeDrainDone_close hwork hr hn, fun _ => ⟨rfl, fun j hj => ?_⟩, nofun, nofun⟩
    exact (answerKm_keeps ..).1 j (keysGone_none (s := s) hj)
  | some m =>
    refine ⟨_, removeDrainDone_tenant hwork hr hn, nofun, ?_, ?_⟩
    · rintro n ⟨⟩ hsome hidle
      rw [removalScrub_scrubs hsome hidle]
      refine ⟨fun j hj => ?_, forEach_parts_scrub m r.scrubs (slotsGone m r s)⟩
      show mget (forEach r.scrubs _ (slotsGone m r s)).sec.keys j = none
      rw [scrubsBegun_keys]
      exact keysGone_none (s := s) hj
    · rintro n ⟨⟩ hnone hno hext
      rw [removalScrub_none hnone]
      cases herase : r.erase with
      | false =>
        obtain ⟨tenants, kept⟩ := finishRemoval_keeps (n := m) hno herase
        refine ⟨fun x hx => ?_, nofun, fun _ => kept⟩
        rw [tenants, mget_mmod] at hx
        obtain ⟨y, -, rfl⟩ := Option.map_eq_some_iff.mp hx
        exact ⟨rfl, nofun⟩
      | true =>
        obtain ⟨⟨old, tenants⟩, gone⟩ := finishRemoval_erases (n := m) hno hext herase
        refine ⟨fun x hx => ?_, fun _ => gone, nofun⟩
        rw [tenants, mget_mmod, mget_mmod] at hx
        obtain ⟨y, hy, rfl⟩ := Option.map_eq_some_iff.mp hx
        obtain ⟨z, -, rfl⟩ := Option.map_eq_some_iff.mp hy
        exact ⟨rfl, fun _ => ⟨rfl, rfl⟩⟩

end Sys2Proof.Machine
end

section
/-! SUPPORT. SPDM requests (12 R381, R382, Table 12.3). -/

namespace Sys2Proof.Machine

open Sys2Proof

section
variable {s : State} {h : Hdr} {body : List Byte}

/-- A request that is heard, not late, and in cleartext or under a key that is not dying. -/
def SpdmLive (s : State) (h : Hdr) : Prop :=
  deaf s = false ∧ spdmLate s h = false ∧ (h.key = 0 ∨ ∃ k, mget s.sec.keys h.key = some k ∧ k.dying = false)

/-- An answer as Table 12.3 gives it: it goes to the source, and the exchange joins the node's transcript. -/
def spdmAnswer (h : Hdr) (body : List Byte) (code rsp : Nat) (content : List Byte) (u : State) : State :=
  let req := (if code = 0x84 then [] else mgetD u.sec.spdm h.src []) ++ leBytes 1 0x13 ++ leBytes 1 code ++ body
  let head := leBytes 1 0x13 ++ leBytes 1 rsp ++ content
  let out := head ++ Config.spdmBody rsp (req ++ head) u.free
  reply h mtSpdm 3 0 0 out { u with free := u.free + 1, sec := { u.sec with spdm := mset u.sec.spdm h.src (req ++ out) } }

theorem answerSpdm_eq (code rsp : Nat) (content : List Byte) (u : State) :
    answerSpdm h code body rsp content u = spdmAnswer h body code rsp content u := by
  have old : (if code == 0x84 then [] else mgetD u.sec.spdm h.src []) = if code = 0x84 then [] else mgetD u.sec.spdm h.src [] :=
    ite_congr (propext beq_iff_eq) (fun _ => rfl) fun _ => rfl
  unfold answerSpdm spdmAnswer
  rw [old]
  rfl

/-- A live request whose answer is fixed by its code and the state it is taken in. -/
theorem takeSpdm_answers (hl : SpdmLive s h) {f : State → State} {code rsp : Nat} {content : List Byte}
    (hf : f (took h mtSpdm s) = answerSpdm h code body rsp content (took h mtSpdm s)) :
    takeSpdm h f s = spdmAnswer h body code rsp content (took h mtSpdm s) := by
  obtain ⟨hear, early, key⟩ := hl
  rw [takeSpdm_live f hear early key, hf, answerSpdm_eq]

section
variable (hl : SpdmLive s h)

include hl

theorem getMeasurements_answers : exec (.getMeasurements h body) s = .next (spdmAnswer h body 0xE0 0x60
    (leBytes 1 (if measured (field body 1 1) = [] then 9 else (measured (field body 1 1)).length) ++
      (measured (field body 1 1)).flatMap fun i => Config.dmtfBlock i (measurement s i)) (took h mtSpdm s)) := by
  refine congrArg Host.Outcome.next (takeSpdm_answers hl ?_)
  have blocks : (if (measured (field body 1 1)).isEmpty then 9 else (measured (field body 1 1)).length) =
      if measured (field body 1 1) = [] then 9 else (measured (field body 1 1)).length := ite_congr (propext List.isEmpty_iff) (fun _ => rfl) fun _ => rfl
  dsimp only
  rw [blocks]
  rfl

theorem keyExchange_busy (hfull : 64 ≤ s.sec.sessions.length) :
    exec (.keyExchange h body) s = .next (spdmAnswer h body 0xE4 0x7F (leBytes 1 0x03) (took h mtSpdm s)) :=
  congrArg Host.Outcome.next (takeSpdm_answers hl (if_pos hfull))

theorem keyExchange_opens {id : Nat} (hroom : s.sec.sessions.length < 64)
    (hid : lowestFree s.sec.sessions (s.sec.nextSession % 2 ^ 16) 65 = some id) :
    let u := took h mtSpdm s
    exec (.keyExchange h body) s = .next (spdmAnswer h body 0xE4 0x64 (leBytes 2 id)
      { u with free := u.free + 1, sec := { u.sec with nextSession := id + 1, sessions := mset u.sec.sessions id { node := h.src, ems := Config.sessionSecret u.free } } }) := by
  obtain ⟨hear, early, key⟩ := hl
  have given : (lowestFree (took h mtSpdm s).sec.sessions ((took h mtSpdm s).sec.nextSession % 2 ^ 16) 65).getD 0 = id := by
    rw [show (took h mtSpdm s).sec = s.sec from rfl, hid]
    rfl
  refine congrArg Host.Outcome.next ((takeSpdm_live _ hear early key).trans ((if_neg (Nat.not_le.mpr hroom)).trans ?_))
  rw [given]
  exact answerSpdm_eq ..

theorem finish_none (hno : openingOf s h.src = none) :
    exec (.finish h body) s = .next (spdmAnswer h body 0xE5 0x7F (leBytes 1 0x04) (took h mtSpdm s)) := by
  refine congrArg Host.Outcome.next (takeSpdm_answers hl ?_)
  have none : openingOf (took h mtSpdm s) h.src = none := hno
  rw [none]
  rfl

/-- FINISH installs the session's management key after its answer. -/
theorem finish_installs {id : Nat} {x : Session} (hx : openingOf s h.src = some (id, x)) : ∃ t, exec (.finish h body) s = .next t ∧
    mget t.sec.sessions id = some { x with finished := true, key := mgmtKey id } ∧
    mget t.sec.keys (mgmtKey id) = some { tenant := 0, node := h.src, bytes := Config.sessionKey (s.free + 1), mgmt := true } ∧
    t.link = (spdmAnswer h body 0xE5 0x65 [] (took h mtSpdm s)).link := by
  obtain ⟨hear, early, key⟩ := hl
  have found : openingOf (took h mtSpdm s) h.src = some (id, x) := hx
  obtain ⟨-, -, -, -, free⟩ := answerSpdm_sec h 0xE5 body 0x65 [] (took h mtSpdm s)
  refine ⟨_, congrArg Host.Outcome.next (takeSpdm_live _ hear early key), ?_⟩
  rw [found]
  dsimp only
  refine ⟨mget_mset _ _ _, ?_, ?_⟩
  · rw [free]
    exact mget_mset _ _ _
  · rw [answerSpdm_eq]
    rfl

end

/-! ### The rows of Table 12.3 -/

/-- Each request code with its command. -/
def spdmRows (h : Hdr) (body : List Byte) : List (Nat × Instr) :=
  [(0x84, .getVersion h body), (0xE1, .getCapabilities h body), (0xE3, .negotiateAlgorithms h body), (0x81, .getDigests h body),
    (0x82, .getCertificate h body), (0x83, .challenge h body), (0xE0, .getMeasurements h body), (0xE4, .keyExchange h body),
    (0xE5, .finish h body), (0xEC, .endSession h body)]

/-- Each row takes its message as an SPDM request, and the SPDM row dispatches to it. -/
theorem spdmRows_take {row : Nat × Instr} (hrow : row ∈ spdmRows h body) :
    (∃ f, exec row.2 s = .next (takeSpdm h f s)) ∧ exec (.spdm h row.1 body) s = exec row.2 s := by
  simp only [spdmRows, List.mem_cons, List.not_mem_nil, or_false] at hrow
  rcases hrow with rfl | rfl | rfl | rfl | rfl | rfl | rfl | rfl | rfl | rfl
  all_goals exact ⟨⟨_, rfl⟩, rfl⟩

theorem spdm_unlisted {code : Nat} (hcode : code ∉ (spdmRows h body).map (·.1)) :
    exec (.spdm h code body) s = exec (.spdmUnsupported h code body) s := by
  have codes : (spdmRows h body).map (·.1) = [0x84, 0xE1, 0xE3, 0x81, 0x82, 0x83, 0xE0, 0xE4, 0xE5, 0xEC] := rfl
  rw [codes] at hcode
  show execSpdm h code body s = execSpdmUnsupported h code body s
  unfold execSpdm
  split
  iterate 10 exact absurd (by decide) hcode
  rfl

end

/-- Settles O48: a live request is answered by its row, one not heard has no effect, and one under no usable key is counted. -/
theorem spdmRequestsAreAnswered : Obligations.SpdmRequestsAreAnswered := by
  unfold Obligations.SpdmRequestsAreAnswered
  intro s h body
  refine ⟨fun hl => ⟨?_, ?_, ?_, ?_, ?_, ?_, getMeasurements_answers hl, keyExchange_busy hl, fun id => keyExchange_opens hl, finish_none hl,
    fun id x => finish_installs hl, fun code => ?_⟩, fun hoff row hrow => ?_, fun hear hkey hdying row hrow => ?_, fun row hrow => (spdmRows_take hrow).2,
    fun code => spdm_unlisted⟩
  iterate 7 exact congrArg Host.Outcome.next (takeSpdm_answers hl rfl)
  · obtain ⟨f, takes⟩ := (spdmRows_take (s := s) hrow).1
    exact takes.trans (congrArg Host.Outcome.next (hoff.elim (takeSpdm_deaf f) (takeSpdm_late f)))
  · obtain ⟨f, takes⟩ := (spdmRows_take (s := s) hrow).1
    exact takes.trans (congrArg Host.Outcome.next (takeSpdm_nokey f hear hkey hdying))

end Sys2Proof.Machine
end

section
/-! SUPPORT. Debug halts, steps and accesses (12 R393). -/

namespace Sys2Proof.Machine

open Sys2Proof

section
variable {s : State} {path : Path}

/-! ### Halts and steps -/

section
variable (hop : operates path 0xB0024 s = true)

include hop

theorem debugHalt_runs (halt : Bool) : exec (.debugHalt path halt) s = .next (debugHalt halt s) := congrArg Host.Outcome.next (operates_op hop _)

theorem debugStep_runs : exec (.debugStep path) s = .next (debugStep s) := congrArg Host.Outcome.next (operates_op hop _)

end

/-- A session's first command writes its event. -/
theorem openDebug_event (h : s.sec.dbgActive = false) :
    (openDebug s).bbx = s.bbx.arrive (eventAt 1 s.sec.dbgCluster evDebug [s.sec.dbgCore] s) := by
  unfold openDebug
  rw [if_neg (by rw [h]; exact Bool.false_ne_true)]
  rfl

theorem debugHalt_halts (h : mhas s.core.halted (dbgCore s) = false) :
    debugHalt true s = (openDebug s).modCore fun c => { c with halted := mset c.halted (dbgCore s) (stamp s) } := by
  unfold debugHalt
  dsimp only
  rw [if_pos rfl, if_neg (by rw [h]; exact Bool.false_ne_true)]

theorem debugHalt_again (h : mhas s.core.halted (dbgCore s) = true) : debugHalt true s = s := by
  unfold debugHalt
  dsimp only
  rw [if_pos rfl, if_pos h]

theorem debugHalt_idle (h : mhas s.core.halted (dbgCore s) = false) : debugHalt false s = s := by
  have none : mget s.core.halted (dbgCore s) = none := by
    cases hm : mget s.core.halted (dbgCore s) with
    | none => rfl
    | some t => rw [mhas, hm] at h; exact nomatch h
  unfold debugHalt
  dsimp only
  rw [if_neg Bool.false_ne_true, none]

/-- What the halt took is not charged: the unit's run is taken to have begun so much later. -/
def uncharged (t : Nat) (s : State) : State :=
  match unitOn s s.sec.dbgCluster s.sec.dbgCore with
  | some (id, u) => (match u.st with
    | .running c j since false => modUnit id (fun u => { u with st := .running c j (stamp s - (t - since)) false }) s
    | _ => s)
  | none => s

theorem uncharged_only (t : Nat) (s : State) : Touches (partSet [.attn]) s (uncharged t s) := by
  have kept := Touches.refl (partSet [.attn]) s
  unfold uncharged
  split
  · split
    · exact Touches.modAttn _ (by decide) kept
    · exact kept
  · exact kept

theorem uncharged_unit {t id c j since : Nat} {u : WUnit} (hon : unitOn s s.sec.dbgCluster s.sec.dbgCore = some (id, u))
    (hu : mget s.attn.units id = some u) (hst : u.st = .running c j since false) :
    mget (uncharged t s).attn.units id = some { u with st := .running c j (stamp s - (t - since)) false } := by
  unfold uncharged
  rw [hon]
  dsimp only
  rw [hst]
  exact (mget_mmod _ _ _).trans (congrArg (Option.map _) hu)

/-- The last halted core that goes on ends the session. -/
theorem debugHalt_last {t : Nat} (h : s.core.halted = [(dbgCore s, t)]) :
    debugHalt false s = ((uncharged t s).modCore fun c => { c with halted := [] }).modSec fun x => { x with dbgActive := false } := by
  have found : mget s.core.halted (dbgCore s) = some t := by
    rw [h]
    exact if_pos (beq_self_eq_true _)
  have last : mdel (uncharged t s).core.halted (dbgCore s) = [] := by
    rw [(uncharged_only t s).core.resolve_left (by decide), h]
    exact if_pos (beq_self_eq_true _)
  have gone : ((uncharged t s).modCore fun c => { c with halted := mdel c.halted (dbgCore s) }) = (uncharged t s).modCore fun c => { c with halted := [] } := by
    unfold State.modCore
    dsimp only
    rw [last]
  have goesOn : debugHalt false s = (let v := (uncharged t s).modCore fun c => { c with halted := mdel c.halted (dbgCore s) }
      if v.core.halted.isEmpty then v.modSec fun x => { x with dbgActive := false } else v) := by
    unfold debugHalt
    dsimp only
    rw [if_neg Bool.false_ne_true, found]
    rfl
  rw [goesOn, gone]
  rfl

theorem useCore_free (k : Nat) (s : State) : k ∈ (useCore k s).core.dirty ∧ ∀ x ∈ (useCore k s).core.mem, x.1 / 2 ^ 20 ≠ k := by
  refine ⟨?_, fun x hx => bne_iff_ne.mp (List.mem_filter.mp hx).2⟩
  show k ∈ if s.core.dirty.contains k then s.core.dirty else s.core.dirty ++ [k]
  split
  · next h => exact List.contains_iff_mem.mp h
  · exact List.mem_append_right _ List.mem_cons_self

theorem debugStep_steps (h : mhas s.core.halted (dbgCore s) = true) : debugStep s = useCore (dbgCore s) (openDebug s) := if_pos h

theorem debugStep_idle (h : mhas s.core.halted (dbgCore s) = false) : debugStep s = s :=
  if_neg (by rw [h]; exact Bool.false_ne_true)

/-! ### Data accesses -/

/-- An open session changes neither what is selected nor where. -/
theorem openDebug_selected (s : State) : dbgInside (openDebug s) = dbgInside s ∧ dbgCore (openDebug s) = dbgCore s ∧ dbgOffset (openDebug s) = dbgOffset s ∧
    (openDebug s).sec.dbgAddr = s.sec.dbgAddr := by
  obtain ⟨-, -, sec, -⟩ := openDebug_keeps s
  refine ⟨?_, ?_, ?_, ?_⟩
  · unfold dbgInside
    rw [sec]
  · unfold dbgCore
    rw [sec]
  · unfold dbgOffset
    rw [sec]
  · rw [sec]

theorem debugWrite_inside {v : Nat} (h : dbgInside s = true) :
    debugWrite v s = dbgAdvance (putCore (dbgCore s) (dbgOffset s) (leBytes 4 v) (openDebug s)) := by
  obtain ⟨inside, core, offset, -⟩ := openDebug_selected s
  unfold debugWrite
  dsimp only
  rw [inside, if_pos h, core, offset]

theorem debugRead_inside (h : dbgInside s = true) {v : Nat} {t : State}
    (hw : coreWord (dbgCore s) (dbgOffset s) (openDebug s) = (v, t)) : debugRead s = (v, dbgAdvance t) := by
  obtain ⟨inside, core, offset, -⟩ := openDebug_selected s
  unfold debugRead
  dsimp only
  rw [inside, if_pos h, core, offset, hw]

/-- A word written where the session stands is read back there. -/
theorem debugRead_written {u : State} {v : Nat} (hin : dbgInside s = true) (hv : v < 2 ^ 32) (hcore : u.core = (debugWrite v s).core) (hsec : u.sec = s.sec) :
    debugRead u = (v, dbgAdvance (openDebug u)) := by
  have inside : dbgInside u = dbgInside s := by unfold dbgInside; rw [hsec]
  have core : dbgCore u = dbgCore s := by unfold dbgCore; rw [hsec]
  have offset : dbgOffset u = dbgOffset s := by unfold dbgOffset; rw [hsec]
  refine debugRead_inside (inside.trans hin) ?_
  rw [core, offset]
  refine coreWord_put _ _ v (openDebug s) (openDebug u) hv ?_
  rw [(openDebug_keeps u).1, hcore, debugWrite_inside hin]
  rfl

end

/-- Settles O51: halts, steps and accesses of the core selected. -/
theorem debugAccesses : Obligations.DebugAccesses := by
  unfold Obligations.DebugAccesses
  intro s path
  refine ⟨fun hop => ⟨fun hrun => ?_, fun hhalted => ⟨?_, ?_⟩, fun hrun => ⟨?_, ?_⟩, fun t0 hlast => ?_⟩, fun hop hin v hv => ?_⟩
  · obtain ⟨-, attn, sec, -⟩ := openDebug_keeps s
    refine ⟨_, debugHalt_runs hop true, ?_⟩
    rw [debugHalt_halts hrun]
    exact ⟨mget_mset _ _ _, congrArg Sec.dbgActive sec, attn, openDebug_event⟩
  · rw [debugHalt_runs hop, debugHalt_again hhalted]
  · refine ⟨_, debugStep_runs hop, ?_⟩
    rw [debugStep_steps hhalted]
    obtain ⟨dirty, mem⟩ := useCore_free (dbgCore s) (openDebug s)
    exact ⟨dirty, (openDebug_keeps s).2.1, mem⟩
  · rw [debugHalt_runs hop, debugHalt_idle hrun]
  · rw [debugStep_runs hop, debugStep_idle hrun]
  · refine ⟨_, debugHalt_runs hop false, ?_⟩
    rw [debugHalt_last hlast]
    exact ⟨rfl, rfl, fun id u c j since hon hu hst => ⟨_, uncharged_unit hon hu hst, rfl⟩⟩
  · have written : (debugWrite v s).sec.dbgAddr = (s.sec.dbgAddr + 4) % 2 ^ 18 := by
      rw [debugWrite_inside hin]
      show ((openDebug s).sec.dbgAddr + 4) % 2 ^ 18 = _
      rw [(openDebug_selected s).2.2.2]
    refine ⟨_, congrArg Host.Outcome.next (operates_op hop _), written, fun u hcore hsec hop' => ?_⟩
    refine ⟨_, congrArg Host.Outcome.next (operates_op hop' _), ?_⟩
    have read := debugRead_written hin hv hcore hsec
    show [(debugRead u).1] = [v] ∧ (debugRead u).2.sec.dbgAddr = _
    rw [read]
    refine ⟨rfl, ?_⟩
    show ((openDebug u).sec.dbgAddr + 4) % 2 ^ 18 = _
    rw [(openDebug_selected u).2.2.2, hsec]

end Sys2Proof.Machine
end

section
/-! SUPPORT. The tenant's view and freed frames (12 R380, R394). -/

namespace Sys2Proof.Machine

open Sys2Proof

section
variable {s : State}

theorem tenantViewSnapshot_takes (h : ∀ x ∈ s.sch.parts, x.2.scrubbing = false) :
    exec .tenantViewSnapshot s = .next { s with mgmt := { s.mgmt with view := viewNow s } } := by
  refine congrArg Host.Outcome.next (if_neg ?_)
  rw [List.any_eq_true]
  rintro ⟨x, hx, scrubs⟩
  exact nomatch (h x hx).symm.trans scrubs

theorem tenantViewSnapshot_scrubbing (h : ∃ x ∈ s.sch.parts, x.2.scrubbing = true) : exec .tenantViewSnapshot s = .next s :=
  congrArg Host.Outcome.next (if_pos (List.any_eq_true.mpr h))

/-- The nearest multiple of 16 W, in units of 0.25 W. -/
theorem nearest16W {pin : Nat} (h : pin < 65504) : min 0xFFFF ((pin + 32) / 64 * 64) % 64 = 0 ∧ min 0xFFFF ((pin + 32) / 64 * 64) ≤ pin + 32 ∧
    pin < min 0xFFFF ((pin + 32) / 64 * 64) + 32 := by
  have fits : min 0xFFFF ((pin + 32) / 64 * 64) = (pin + 32) / 64 * 64 := Nat.min_eq_right (by omega)
  rw [fits]
  omega

/-- The frames of a run zeroed are no longer to be zeroed. -/
theorem zeroed_mem {l : List (Nat × Run)} {p : Nat} {r : Run} (x : Nat × Run) :
    x ∈ l.filter (fun d => !(d.1 == p && d.2.start == r.start && d.2.len == r.len)) ↔ x ∈ l ∧ x ≠ (p, r) := by
  obtain ⟨q, start, len⟩ := x
  obtain ⟨start', len'⟩ := r
  rw [List.mem_filter, Bool.not_eq_true', Bool.eq_false_iff, ne_eq, Bool.and_eq_true, Bool.and_eq_true, beq_iff_eq, beq_iff_eq, beq_iff_eq, ne_eq,
    Prod.mk.injEq, Run.mk.injEq, and_assoc]

end

/-- Settles O52: each snapshot and each zeroing has its effect alone. -/
theorem viewsAndFreedFrames : Obligations.ViewsAndFreedFrames := by
  unfold Obligations.ViewsAndFreedFrames
  intro s p r
  refine ⟨tenantViewSnapshot_takes, tenantViewSnapshot_scrubbing, ⟨_, rfl, (Touches.modPwr _ (by decide) (.refl (partSet [.pwr]) s)).only, nearest16W⟩,
    fun hwork => ⟨_, congrArg Host.Outcome.next (working_on _ hwork), (Touches.modHbm _ (by decide) (.refl (partSet [.hbm]) s)).only, rfl, zeroed_mem⟩⟩

end Sys2Proof.Machine
end

section
/-! SUPPORT. HBM and bridge spares (04 R104; 13 R401, R405, R406). -/

namespace Sys2Proof.Machine

open Sys2Proof

section
variable {s : State} {stack block : Nat}

/-! ### Uncorrectable errors -/

/-- A block put down for a remap, once. -/
def dueForRemap (stack block : Nat) (x : Spare) : Spare :=
  if (stack, block) ∈ x.remapping then x else { x with remapping := x.remapping ++ [(stack, block)] }

/-- Whether a block can be put down for a remap: it is, or its stack has a reserve block left. -/
def RemapRoom (s : State) (stack block : Nat) : Prop := (stack, block) ∈ s.spare.remapping ∨ remapUsed s stack < 2048

/-- The state with the line of an uncorrectable error poisoned and its event written. -/
def linePoisoned (a : Nat) (s : State) : State :=
  emit 4 (stackOf a) evPoison [lo32 a, hi32 a, 2] (s.modCoh fun c =>
    { c with
      poisonPhys := if c.poisonPhys.contains a then c.poisonPhys else c.poisonPhys ++ [a]
      poison := match lineOfPhys s a with
        | some l => if c.poison.contains l then c.poison else c.poison ++ [l]
        | none => c.poison })

theorem hbmUncorrectable_poisons (addr : Nat) : exec (.hbmUncorrectable addr) s =
    .next (remapBlock (stackOf (addr / 64 * 64)) (blockOf (addr / 64 * 64)) (linePoisoned (addr / 64 * 64) s)) := rfl

theorem mem_addOnce {α : Type} [BEq α] [LawfulBEq α] (l : List α) (a : α) :
    a ∈ (if l.contains a then l else l ++ [a]) ∧ ∀ x ∈ l, x ∈ if l.contains a then l else l ++ [a] := by
  split
  · next h => exact ⟨List.contains_iff_mem.mp h, fun _ hx => hx⟩
  · exact ⟨List.mem_append_right _ List.mem_cons_self, fun _ hx => List.mem_append_left _ hx⟩

theorem linePoisoned_lines (a : Nat) (s : State) : a ∈ (linePoisoned a s).coh.poisonPhys ∧
    (∀ l, lineOfPhys s a = some l → l ∈ (linePoisoned a s).coh.poison) ∧ (∀ l ∈ s.coh.poison, l ∈ (linePoisoned a s).coh.poison) ∧
    (linePoisoned a s).coh.mem = s.coh.mem := by
  have poison : (linePoisoned a s).coh.poison = (match lineOfPhys s a with
      | some l => if s.coh.poison.contains l then s.coh.poison else s.coh.poison ++ [l]
      | none => s.coh.poison) := rfl
  refine ⟨(mem_addOnce _ _).1, fun l hl => ?_, fun l hl => ?_, rfl⟩
  · rw [poison, hl]
    exact (mem_addOnce _ _).1
  · rw [poison]
    cases lineOfPhys s a with
    | none => exact hl
    | some m => exact (mem_addOnce _ _).2 l hl

theorem remapBlock_coh (stack block : Nat) (s : State) : (remapBlock stack block s).coh = s.coh :=
  (remapBlock_touches (μ := partSet [.tly, .spare, .bbx]) stack block (by decide) (.refl _ s)).coh.resolve_left (by decide)

/-- With no room the stack is marked exhausted. -/
theorem remapBlock_exhausted (h : ¬ RemapRoom s stack block) (hwritten : mget s.spare.unwritten (stackWord stack) = none) :
    spareNat (remapBlock stack block s) (stackWord stack) = setBit (spareNat s (stackWord stack)) 20 := by
  obtain ⟨fresh, full⟩ := not_or.mp h
  unfold remapBlock
  rw [if_neg fun there => fresh (List.contains_iff_mem.mp there), if_neg full]
  exact spareNat_set (setBit (spareNat s (stackWord stack)) 20) hwritten

/-! ### Corrected errors -/

/-- The corrected errors of other blocks. -/
def otherErrors (s : State) (stack block : Nat) : List ((Nat × Nat) × (Nat × Nat)) := s.spare.corrected.filter fun x => x.1 != (stack, block)

/-- The error that comes now. -/
def errorNow (s : State) (stack block : Nat) : (Nat × Nat) × (Nat × Nat) := ((stack, block), (epochNo s, now s))

/-- An error of the block counts as recent when no more than 2^42 CCLK have passed. -/
def isRecent (s : State) (stack block : Nat) (x : (Nat × Nat) × (Nat × Nat)) : Bool :=
  x.1 == (stack, block) && decide (stamp s < x.2.1 * 2 ^ 48 + x.2.2 + 2 ^ 42)

theorem otherErrors_notRecent (t : State) : (otherErrors s stack block).filter (isRecent t stack block) = [] := by
  refine List.filter_eq_nil_iff.mpr fun x hx => ?_
  have other : (x.1 == (stack, block)) = false := by
    have := (List.mem_filter.mp hx).2
    exact beq_eq_false_iff_ne.mpr (bne_iff_ne.mp this)
  rw [isRecent, other]
  exact Bool.false_ne_true

theorem errorNow_recent : isRecent s stack block (errorNow s stack block) = true := by
  unfold isRecent errorNow
  rw [Bool.and_eq_true]
  exact ⟨beq_self_eq_true _, decide_eq_true (by show stamp s < epochNo s * 2 ^ 48 + now s + 2 ^ 42; unfold stamp; omega)⟩

theorem recentErrors_mine : (recentErrors s stack block ++ [errorNow s stack block]).filter (fun x => x.1 != (stack, block)) = [] := by
  refine List.filter_eq_nil_iff.mpr fun x hx => ?_
  rcases List.mem_append.mp hx with hx | hx
  · have := (Bool.and_eq_true_iff.mp (List.mem_filter.mp hx).2).1
    rw [bne, this]
    decide
  · cases List.mem_singleton.mp hx
    rw [bne, show ((errorNow s stack block).1 == (stack, block)) = true from beq_self_eq_true _]
    decide

section
variable (hwork : atRest s = false)

include hwork

theorem hbmCorrectedError_counts (h : (recentErrors s stack block).length < 31) : exec (.hbmCorrectedError stack block) s =
    .next { s with spare := { s.spare with corrected := otherErrors s stack block ++ (recentErrors s stack block ++ [errorNow s stack block]) } } := by
  refine congrArg Host.Outcome.next ((working_on _ hwork).trans (if_neg ?_))
  rw [List.length_append, List.length_singleton]
  omega

theorem hbmCorrectedError_remaps (h : 31 ≤ (recentErrors s stack block).length) (hroom : RemapRoom s stack block) :
    exec (.hbmCorrectedError stack block) s =
      .next { s with spare := dueForRemap stack block { s.spare with corrected := otherErrors s stack block } } := by
  refine congrArg Host.Outcome.next ((working_on _ hwork).trans ((if_pos ?_).trans ?_))
  · rw [List.length_append, List.length_singleton]
    omega
  · exact remapBlock_room (s := { s with spare := { s.spare with corrected := otherErrors s stack block } }) hroom

end

/-- The block's recent errors after one more. -/
theorem recentErrors_counted : recentErrors { s with spare := { s.spare with
      corrected := otherErrors s stack block ++ (recentErrors s stack block ++ [errorNow s stack block]) } } stack block =
    recentErrors s stack block ++ [errorNow s stack block] := by
  have recent : (recentErrors s stack block).filter (isRecent s stack block) = recentErrors s stack block :=
    List.filter_eq_self.mpr fun x hx => (List.mem_filter.mp hx).2
  have new : [errorNow s stack block].filter (isRecent s stack block) = [errorNow s stack block] := List.filter_cons_of_pos errorNow_recent
  show (otherErrors s stack block ++ (recentErrors s stack block ++ [errorNow s stack block])).filter (isRecent s stack block) = _
  rw [List.filter_append, List.filter_append, otherErrors_notRecent, recent, new, List.nil_append]

/-- The other blocks' errors stay. -/
theorem otherErrors_counted : (otherErrors s stack block ++ (recentErrors s stack block ++ [errorNow s stack block])).filter (fun x => x.1 != (stack, block)) =
    otherErrors s stack block := by
  rw [List.filter_append, recentErrors_mine, List.append_nil]
  exact List.filter_eq_self.mpr fun x hx => (List.mem_filter.mp hx).2

theorem dueForRemap_mem (x : Spare) : (stack, block) ∈ (dueForRemap stack block x).remapping := by
  unfold dueForRemap
  split
  · next h => exact h
  · exact List.mem_append_right _ List.mem_cons_self

theorem dueForRemap_corrected (x : Spare) : (dueForRemap stack block x).corrected = x.corrected :=
  (apply_ite Spare.corrected _ _ _).trans (ite_self _)

theorem only_spare (x : Spare) : Only [.spare] s { s with spare := x } :=
  (Touches.modSpare (w := partSet [.spare]) (fun _ => x) (by decide) (.refl _ s)).only

theorem hbmRemapDone_unasked (hwork : atRest s = false) (h : (stack, block) ∉ s.spare.remapping) :
    exec (.hbmRemapDone stack block) s = .next s := by
  refine congrArg Host.Outcome.next ((working_on _ hwork).trans (if_pos ?_))
  rw [Bool.not_eq_true', Bool.eq_false_iff]
  exact fun there => h (List.contains_iff_mem.mp there)

/-! ### Die bridges -/

section
variable {die errors : Nat}

theorem bridgeCrcLimit_few (hwork : atRest s = false) (h : errors ≤ 16 ∨ die ∈ s.spare.retraining) : exec (.bridgeCrcLimit die errors) s = .next s := by
  refine congrArg Host.Outcome.next ((working_on _ hwork).trans (if_pos (Bool.or_eq_true_iff.mpr ?_)))
  exact h.imp decide_eq_true List.contains_iff_mem.mpr

theorem bridgeCrcLimit_retrains (hwork : atRest s = false) (hmany : 16 < errors) (h : die ∉ s.spare.retraining) :
    exec (.bridgeCrcLimit die errors) s = .next { s with
      spare := { s.spare with retraining := s.spare.retraining ++ [die] }, bbx := s.bbx.arrive (eventAt 3 die evBridge [errors] s) } := by
  refine congrArg Host.Outcome.next ((working_on _ hwork).trans ((if_neg ?_).trans rfl))
  rw [Bool.or_eq_true_iff, not_or]
  exact ⟨fun few => absurd (of_decide_eq_true few) (Nat.not_le.mpr hmany), fun there => h (List.contains_iff_mem.mp there)⟩

/-- The state a retrain that ends well leaves: a new generation of the die, its clusters' lookaside entries flushed. -/
def bridgeRetrained (die : Nat) (s : State) : State :=
  emit 3 die evGeneration [(nth s.spare.genDie die 0 + 1).toNat]
    (((s.modSpare fun x => { x with retraining := x.retraining.filter (· != die) }).modSeqs fun x => { x with plb := x.plb.filter fun e => e.1 / 16 != die }).modSpare
      fun x => { x with genDie := lput x.genDie die (nth s.spare.genDie die 0 + 1) })

theorem bridgeRetrainDone_good (h : die ∈ s.spare.retraining) : exec (.bridgeRetrainDone die true) s = .next (bridgeRetrained die s) := by
  have there : ¬ (!s.spare.retraining.contains die) = true := by
    rw [List.contains_iff_mem.mpr h]
    decide
  exact congrArg Host.Outcome.next (if_neg there)

theorem bridgeRetrained_only (die : Nat) (s : State) : Only [.bbx, .spare, .seqs] s (bridgeRetrained die s) :=
  (emit_touches (μ := partSet [.bbx, .spare, .seqs]) _ _ _ _ (by decide)
    (Touches.modSpare _ (by decide) (Touches.modSeqs _ (by decide) (Touches.modSpare _ (by decide) (.refl _ s))))).only

theorem bridgeRetrainDone_unasked (ok : Bool) (h : die ∉ s.spare.retraining) : exec (.bridgeRetrainDone die ok) s = .next s := by
  refine congrArg Host.Outcome.next (if_pos ?_)
  rw [Bool.not_eq_true', Bool.eq_false_iff]
  exact fun there => h (List.contains_iff_mem.mp there)

end

end

/-- Settles O53: errors poison, are counted or put a block down, and remaps and retrains end as asked. -/
theorem hbmAndBridgesAreRepaired : Obligations.HbmAndBridgesAreRepaired := by
  unfold Obligations.HbmAndBridgesAreRepaired
  intro s addr stack block die errors
  refine ⟨?_, fun hwork hfew => ?_, fun hwork hmany hroom => ?_, fun hwork h => remap_done hwork h, hbmRemapDone_unasked, bridgeCrcLimit_few,
    bridgeCrcLimit_retrains, fun h => ?_, bridgeRetrainDone_unasked⟩
  · obtain ⟨phys, line, lines, mem⟩ := linePoisoned_lines (addr / 64 * 64) s
    refine ⟨_, hbmUncorrectable_poisons addr, ?_⟩
    rw [remapBlock_coh]
    refine ⟨phys, line, lines, mem, fun hroom => ?_, fun hfull hwritten => ?_⟩
    · rw [remapBlock_room (s := linePoisoned (addr / 64 * 64) s) hroom]
      exact ⟨rfl, rfl⟩
    · exact remapBlock_exhausted (s := linePoisoned (addr / 64 * 64) s) hfull hwritten
  · exact ⟨_, hbmCorrectedError_counts hwork hfew, only_spare _, rfl, recentErrors_counted, otherErrors_counted⟩
  · refine ⟨_, hbmCorrectedError_remaps hwork hmany hroom, only_spare _, dueForRemap_mem _, ?_⟩
    show (dueForRemap stack block _).corrected.filter (isRecent s stack block) = []
    rw [dueForRemap_corrected]
    exact otherErrors_notRecent s
  · refine ⟨_, bridgeRetrainDone_good h, bridgeRetrained_only die s, fun hmem => ?_, fun hdie => nth_lput _ _ _ _ hdie, fun e => ?_, rfl⟩
    · exact absurd (List.mem_filter.mp hmem).2 (by rw [bne_self_eq_false]; exact Bool.false_ne_true)
    · exact List.mem_filter.trans (and_congr_right fun _ => bne_iff_ne)

end Sys2Proof.Machine
end

section
/-! SUPPORT. The Saddlebag and the operator's Tally words (13 R409, R411, R412, R415, R416, R421). -/

namespace Sys2Proof.Machine

open Sys2Proof

section
variable {s : State} {path : Path}

/-! ### Events -/

theorem only_bbx (b : Bbx) : Only [.bbx] s { s with bbx := b } :=
  (Touches.modBbx (w := partSet [.bbx]) (fun _ => b) (by decide) (.refl _ s)).only

theorem saddlebagEventWrite_takes {e : Event} {rest : List Event} (hq : s.bbx.queue = e :: rest) (hf : s.bbx.frozen = false) :
    exec .saddlebagEventWrite s = .next { s with bbx := { s.bbx.write e with queue := rest } } := by
  show Host.Outcome.next (s.modBbx _) = _
  unfold State.modBbx
  dsimp only
  rw [hq]
  dsimp only
  rw [if_neg (by rw [hf]; exact Bool.false_ne_true)]

theorem saddlebagEventWrite_idle (h : s.bbx.queue = [] ∨ s.bbx.frozen = true) : exec .saddlebagEventWrite s = .next s := by
  show Host.Outcome.next (s.modBbx _) = _
  unfold State.modBbx
  dsimp only
  split
  · next e rest hq =>
    rw [if_pos (h.resolve_left (by rw [hq]; exact List.cons_ne_nil e rest))]
  · rfl

theorem write_ring_length (b : Bbx) (e : Event) : (b.write e).ring.length ≤ 8192 := by
  rw [write_ring, List.length_drop]
  omega

/-- The SUPPRESSED event of a kind. -/
def suppressedOf (s : State) (r : Rate) : Event :=
  { time := nextInterval s, epoch := epochNo s, cls := r.cls, unit := r.unit, code := evSuppressed, a0 := r.code, a1 := r.count - 16 }

/-- The SUPPRESSED events of an interval, one of each kind of which some were not written. -/
def beyondLimit (s : State) : List Event := (s.bbx.rate.filter fun r : Rate => decide (16 < r.count)).map (suppressedOf s)

theorem suppressionIntervalEnd_tells : exec .suppressionIntervalEnd s =
    .next { s with bbx := (beyondLimit s).foldl Bbx.enqueue { s.bbx with rate := [] } } := by
  unfold beyondLimit
  rw [List.foldl_map]
  rfl

/-! ### Commands -/

section
variable (hop : operates path 0xD0004 s = true)

include hop

theorem bbxCmd_busy (f : State → State) (h : s.bbx.copy.isSome = true) : regAccess path 0xD0004 (bbxCmd path f) s = s := by
  rw [(operates_access hop _).1]
  refine if_neg ?_
  rw [← Option.not_isSome, h, Bool.not_true, Bool.and_false]
  exact Bool.false_ne_true

theorem bbxCmd_acts (f : State → State) (h : s.bbx.copy = none) : regAccess path 0xD0004 (bbxCmd path f) s = f s := by
  rw [(operates_access hop _).1]
  refine if_pos ?_
  rw [(operates_access hop f).2, h]
  rfl

end

theorem holdSlot_eq (n : Nat) (s : State) : holdSlot n s =
    if 3 ≤ count (fun x => Snapshot.held x) s.bbx.slots then s else { s with bbx := { s.bbx with slots := lmod s.bbx.slots n fun x => { x with held := true } } } := by
  unfold holdSlot State.modBbx
  dsimp only
  by_cases h : 3 ≤ count (fun x => Snapshot.held x) s.bbx.slots
  · rw [if_pos h, if_pos h]
  · rw [if_neg h, if_neg h]

/-! ### Operator words -/

section
variable {w : Nat} {v : BitVec 32} (hgood : (s.tly.physAt (s.tly.place w)).bad = false) (hcount : (s.tly.physAt (s.tly.place w)).count < 1000000)

include hgood hcount

/-- A write at a place that has not failed and is not worn stores the value there. -/
theorem tlyWrite_good : (tlyWrite w v s).tly = { s.tly with copy := mset s.tly.copy w v, phys := mset s.tly.phys (s.tly.place w) { s.tly.physAt (s.tly.place w) with value := v, count := (s.tly.physAt (s.tly.place w)).count + 1 } } := by
  have noSpare : s.tly.needsSpare w = false := by
    unfold Tally.needsSpare
    dsimp only
    rw [hgood, Bool.false_or, decide_eq_false_iff_not]
    omega
  have warn : ∀ b u, (when b (emit 8 0 evTallyWarn [w]) u).tly = u.tly := fun b u => by cases b <;> rfl
  unfold tlyWrite
  rw [noSpare, Bool.false_and, Bool.false_and]
  show (tlyWriteRaw w v s).tly = _
  unfold tlyWriteRaw
  dsimp only
  rw [hgood, Bool.false_or, if_neg (by rw [decide_eq_true_iff]; omega), warn]
  rfl

theorem tlyWrite_same : (tlyWrite w v s).tly.word w = v := by
  rw [tlyWrite_good hgood hcount]
  exact mgetD_mset _ _ _ _

theorem tlyWrite_other {x : Nat} (hx : x ≠ w) (hplace : s.tly.place x ≠ s.tly.place w) : (tlyWrite w v s).tly.word x = s.tly.word x := by
  rw [tlyWrite_good hgood hcount]
  unfold Tally.word Tally.physAt Tally.place
  dsimp only
  rw [mgetD_mset_ne _ _ _ hx]
  exact congrArg (fun p : PhysWord => mgetD s.tly.copy x p.value) (mgetD_mset_ne _ _ _ hplace)

end

theorem tlyWordWrite_runs (hop : operates path 0xC0008 s = true) (v : Nat) :
    exec (.tlyWordWrite path v) s = .next (if s.tly.sel < 0x100 then s else tlyWrite s.tly.sel (BitVec.ofNat 32 v) s) :=
  congrArg Host.Outcome.next (operates_op hop _)

end

/-- Settles O54: events are written, told and frozen, and the operator's words kept, as 13 says. -/
theorem saddlebagAndOperatorWords : Obligations.SaddlebagAndOperatorWords := by
  unfold Obligations.SaddlebagAndOperatorWords
  intro s path n
  refine ⟨fun e rest hq hf => ?_, saddlebagEventWrite_idle, ?_, fun hop => ⟨fun hbusy => ?_, fun hfree => ⟨?_, ?_, fun hf hl => ?_⟩⟩, fun hop v => ⟨fun hlow => ?_, fun hhigh hgood hcount => ?_⟩⟩
  · refine ⟨_, saddlebagEventWrite_takes hq hf, only_bbx _, rfl, write_serial s.bbx e, by dsimp only; exact write_ring_length s.bbx e, fun hroom => ?_, fun x l hring hfull => ?_⟩
    · dsimp only
      rw [write_ring]
      exact drop_room _ _ hroom
    · dsimp only
      rw [write_ring]
      exact drop_full hring _ hfull
  · obtain ⟨rate, ring, queue⟩ := enqueue_spec (beyondLimit s) { s.bbx with rate := [] }
    refine ⟨_, suppressionIntervalEnd_tells, rate, ring, fun hf hroom => ⟨_, queue hf ?_, List.map_map⟩⟩
    have fewer : (beyondLimit s).length ≤ s.bbx.rate.length := by
      unfold beyondLimit
      rw [List.length_map]
      exact List.length_filter_le _ _
    exact Nat.le_trans (Nat.add_le_add_left fewer _) hroom
  · exact ⟨congrArg Host.Outcome.next (bbxCmd_busy hop _ hbusy), congrArg Host.Outcome.next (bbxCmd_busy hop _ hbusy),
      congrArg Host.Outcome.next (bbxCmd_busy hop _ hbusy)⟩
  · exact congrArg Host.Outcome.next ((bbxCmd_acts hop _ hfree).trans (holdSlot_eq n s))
  · exact congrArg Host.Outcome.next (bbxCmd_acts hop _ hfree)
  · obtain ⟨k, spec⟩ := snapshot_spec hfree hf hl
    exact ⟨_, k, congrArg Host.Outcome.next (bbxCmd_acts hop _ hfree), spec⟩
  · exact (tlyWordWrite_runs hop v).trans (congrArg Host.Outcome.next (if_pos hlow))
  · exact ⟨_, (tlyWordWrite_runs hop v).trans (congrArg Host.Outcome.next (if_neg (Nat.not_lt.mpr hhigh))),
      (tlyWrite_touches (μ := partSet [.tly, .bbx]) _ _ (by decide) (.refl _ s)).only, tlyWrite_same hgood hcount,
      fun x => tlyWrite_other hgood hcount⟩

end Sys2Proof.Machine
end

section
/-! SUPPORT. Liveness, the master and the view (14 R423 to R425, R436). -/

namespace Sys2Proof.Machine

open Sys2Proof

section
variable {s : State} {h : Hdr} {pos view mask epoch : Nat} {digest : List Byte}

/-- A cascade message is taken: the ports hear, and its live key is that of the pair with its source. -/
def PeerTakes (s : State) (h : Hdr) : Prop := takes h s = true ∧ ∃ k, mget s.sec.keys h.key = some k ∧ k.pair = true ∧ k.node = h.src

/-- A device that neither brings a page in from a peer nor serves one, and has no lookup across the group. -/
def Alone (s : State) : Prop := s.casc.imports = [] ∧ s.casc.exports = [] ∧ s.casc.lookup = none

/-- Another position of the group. -/
def OtherPos (s : State) (pos : Nat) : Prop := pos < cascSize s ∧ pos ≠ cascPos s

/-- The device with the view adopted where the position is its master, as HELLO leaves it. -/
def adopted (pos view mask : Nat) (s : State) : State :=
  if masterSeen s == pos && (s.casc.view, s.casc.mask) != (view, mask) then setView view mask s else s

/-- What a change of the view and its mask leaves of the group on a device that neither brings in nor serves a page. -/
theorem setView_group (hi : s.casc.imports = []) (he : s.casc.exports = []) (view mask : Nat) :
    (setView view mask s).casc.pos = s.casc.pos ∧ (setView view mask s).casc.masterPos = s.casc.masterPos ∧
      (setView view mask s).casc.lookup = s.casc.lookup ∧ (setView view mask s).casc.view = view ∧ (setView view mask s).casc.mask = mask ∧
      (setView view mask s).img = s.img := by
  rw [setView_alone hi he]
  exact ⟨rfl, rfl, rfl, rfl, rfl, rfl⟩

/-- The group as a view adopted or kept leaves it. -/
theorem adopted_group (hi : s.casc.imports = []) (he : s.casc.exports = []) (pos view mask : Nat) :
    (adopted pos view mask s).casc.pos = s.casc.pos ∧ (adopted pos view mask s).casc.masterPos = s.casc.masterPos ∧
      (adopted pos view mask s).casc.lookup = s.casc.lookup ∧ (adopted pos view mask s).img = s.img ∧
      (masterSeen s = pos → (adopted pos view mask s).casc.view = view ∧ (adopted pos view mask s).casc.mask = mask) ∧
      (masterSeen s ≠ pos → adopted pos view mask s = s) := by
  unfold adopted
  by_cases hm : masterSeen s = pos
  · by_cases hv : (s.casc.view, s.casc.mask) = (view, mask)
    · obtain ⟨hview, hmask⟩ := Prod.mk.inj hv
      rw [if_neg (by rw [hv, bne_self_eq_false, Bool.and_false]; exact Bool.false_ne_true)]
      exact ⟨rfl, rfl, rfl, rfl, fun _ => ⟨hview, hmask⟩, fun hn => absurd hm hn⟩
    · rw [if_pos (Bool.and_eq_true_iff.mpr ⟨beq_iff_eq.mpr hm, bne_iff_ne.mpr hv⟩)]
      obtain ⟨pos', master, lookup, view', mask', img⟩ := setView_group hi he view mask
      exact ⟨pos', master, lookup, img, fun _ => ⟨view', mask'⟩, fun hn => absurd hm hn⟩
  · rw [if_neg (by rw [beq_eq_false_iff_ne.mpr hm, Bool.false_and]; exact Bool.false_ne_true)]
    exact ⟨rfl, rfl, rfl, rfl, fun hm' => absurd hm' hm, fun _ => rfl⟩

/-- One HELLO more of a position, of a device with this configuration digest. -/
def helloNoted (pos epoch : Nat) (digest cfg : List Byte) (l : List PosSt) : List PosSt :=
  lmod l pos fun x =>
    let n := if digest = cfg then min 2 (x.hellos + 1) else 0
    { hellos := n, live := decide (n = 2), digestBad := decide (digest ≠ cfg), epoch := epoch % 2 ^ 32 }

/-- The model's note of a HELLO. -/
theorem helloNoted_eq (pos epoch : Nat) (digest cfg : List Byte) (l : List PosSt) :
    lmod l pos (fun x =>
      let n := if digest == cfg then min 2 (x.hellos + 1) else 0
      { hellos := n, live := n == 2, digestBad := !(digest == cfg), epoch := epoch % 2 ^ 32 }) = helloNoted pos epoch digest cfg l := by
  unfold helloNoted
  simp only [beq_iff_eq, ne_eq, decide_not, ← Bool.beq_eq_decide_eq]

/-- The state with a HELLO counted. -/
def helloCounted (pos view epoch : Nat) (digest : List Byte) (s : State) : State := s.modCasc fun c =>
  { c with highest := max c.highest (view % 65536), pos := helloNoted pos epoch digest (configDigest s) c.pos }

section
variable (hok : PeerTakes s h)

include hok

theorem hello_ignored (hno : ¬ (s.pins.rdy = true ∧ OtherPos s pos ∧ cascNode s pos = h.src)) :
    exec (.hello h pos view mask epoch digest) s = .next (reply h mtAck 1 0 0 [] (took h mtPageRd s)) := by
  obtain ⟨ht, hk⟩ := hok
  have kept := reply_only h mtAck 1 0 0 [] (took h mtPageRd s)
  refine congrArg Host.Outcome.next ((takePeer_takes _ _ ht hk).trans ?_)
  dsimp only
  generalize reply h mtAck 1 0 0 [] (took h mtPageRd s) = u at *
  have pins : u.pins = s.pins := kept.2 .pins (by decide)
  have img : u.img = s.img := kept.2 .img (by decide)
  refine if_pos ?_
  unfold OtherPos cascNode cascPos cascSize at *
  rw [pins, img]
  simp only [Bool.or_eq_true, Bool.not_eq_true', decide_eq_true_eq, beq_iff_eq, bne_iff_ne]
  refine Classical.byContradiction fun hall => ?_
  simp only [not_or, Bool.not_eq_false, Nat.not_le, ne_eq, Decidable.not_not] at hall
  obtain ⟨⟨⟨rdy, lt⟩, ne⟩, src⟩ := hall
  exact hno ⟨rdy, ⟨lt, ne⟩, src⟩

/-- A HELLO that counts: its position is noted, the view is settled and the master's is adopted. -/
theorem hello_counts (halone : Alone s) (hrdy : s.pins.rdy = true) (hother : OtherPos s pos) (hsrc : cascNode s pos = h.src) :
    exec (.hello h pos view mask epoch digest) s = .next (adopted pos (view % 65536) (mask % 256)
      (refreshView (helloCounted pos view epoch digest (reply h mtAck 1 0 0 [] (took h mtPageRd s))))) := by
  obtain ⟨ht, hk⟩ := hok
  obtain ⟨hi, he, hl⟩ := halone
  obtain ⟨hlt, hne⟩ := hother
  have kept := reply_only h mtAck 1 0 0 [] (took h mtPageRd s)
  refine congrArg Host.Outcome.next ((takePeer_takes _ _ ht hk).trans ?_)
  dsimp only
  generalize reply h mtAck 1 0 0 [] (took h mtPageRd s) = u at *
  have pins : u.pins = s.pins := kept.2 .pins (by decide)
  have img : u.img = s.img := kept.2 .img (by decide)
  have casc : u.casc = s.casc := kept.2 .casc (by decide)
  have counts : ¬ (!u.pins.rdy || decide (cascSize u ≤ pos) || pos == cascPos u || cascNode u pos != h.src) = true := by
    unfold cascNode cascPos cascSize at *
    rw [pins, img, hrdy, hsrc, decide_eq_false (Nat.not_le.mpr hlt), beq_eq_false_iff_ne.mpr hne, bne_self_eq_false]
    decide
  have noted : (u.modCasc fun c => { c with
      highest := max c.highest (view % 65536)
      pos := lmod c.pos pos fun x =>
        let n := if digest == configDigest u then min 2 (x.hellos + 1) else 0
        { hellos := n, live := n == 2, digestBad := !(digest == configDigest u), epoch := epoch % 2 ^ 32 } }) = helloCounted pos view epoch digest u := by
    unfold helloCounted State.modCasc
    dsimp only
    rw [← helloNoted_eq]
  rw [if_neg counts, noted]
  have counted := refreshView_alone (s := helloCounted pos view epoch digest u) (by rw [show (helloCounted pos view epoch digest u).casc.imports = u.casc.imports from rfl, casc]; exact hi)
    (by rw [show (helloCounted pos view epoch digest u).casc.exports = u.casc.exports from rfl, casc]; exact he)
  obtain ⟨-, -, imports, exports, lookup, -⟩ := counted
  have none : (adopted pos (view % 65536) (mask % 256) (refreshView (helloCounted pos view epoch digest u))).casc.lookup = none := by
    rw [(adopted_group imports exports _ _ _).2.2.1, lookup]
    show u.casc.lookup = none
    rw [casc]
    exact hl
  exact afterView_alone none _

end

/-! ### A HELLO that counts -/

/-- What a settled view is: the master is the one seen, and where that is the device itself its mask is what lives, under a number raised
by a new mask or by its becoming master. -/
def Settled (s : State) (highest : Nat) (t : State) : Prop :=
  t.casc.masterPos = masterSeen t ∧ (masterSeen t = cascPos s → s.pins.rdy = true → 1 < cascSize s →
    t.casc.mask = maskOf (liveSet t) ∧ t.casc.view = if s.casc.masterPos = cascPos s ∧ s.casc.mask ≠ 0
      then (if maskOf (liveSet t) = s.casc.mask then s.casc.view else (s.casc.view + 1) % 65536) else (highest + 1) % 65536)

/-- The group settled after a HELLO, or adopted from it, in a state of the same group, image and outputs. -/
theorem adopted_settled {u : State} (halone : Alone s) (hne : pos ≠ cascPos s) (hcasc : u.casc = s.casc) (himg : u.img = s.img) (hpins : u.pins = s.pins) :
    let t := adopted pos (view % 65536) (mask % 256) (refreshView (helloCounted pos view epoch digest u))
    t.casc.pos = helloNoted pos epoch digest (configDigest u) s.casc.pos ∧ Settled s (max s.casc.highest (view % 65536)) t ∧
      (masterSeen t = pos → t.casc.view = view % 65536 ∧ t.casc.mask = mask % 256) ∧
      (masterSeen t ≠ pos → masterSeen t ≠ cascPos s → t.casc.view = s.casc.view ∧ t.casc.mask = s.casc.mask) := by
  obtain ⟨hi, he, -⟩ := halone
  have counted : (helloCounted pos view epoch digest u).casc = { s.casc with highest := max s.casc.highest (view % 65536)
                                                                             pos := helloNoted pos epoch digest (configDigest u) s.casc.pos } := by
    rw [← hcasc]
    rfl
  have cimg : (helloCounted pos view epoch digest u).img = s.img := himg
  have cpins : (helloCounted pos view epoch digest u).pins = s.pins := hpins
  generalize helloCounted pos view epoch digest u = v at *
  obtain ⟨wpos, wmaster, wimports, wexports, -, wimg, mine, others⟩ := refreshView_alone (s := v) (by rw [counted]; exact hi) (by rw [counted]; exact he)
  obtain ⟨tpos, tmaster, -, timg, adopts, keeps⟩ := adopted_group wimports wexports pos (view % 65536) (mask % 256)
  obtain ⟨-, seenW, -, -⟩ := liveSet_congr wpos wimg
  obtain ⟨liveT, seenT, -, -⟩ := liveSet_congr tpos timg
  obtain ⟨liveW, -, -, -⟩ := liveSet_congr wpos wimg
  have here : cascPos v = cascPos s := by unfold cascPos; rw [cimg]
  have size : cascSize v = cascSize s := by unfold cascSize; rw [cimg]
  dsimp only
  rw [Settled, tmaster, wmaster, tpos, wpos, seenT, seenW, liveT, liveW, counted]
  rw [seenW] at adopts keeps
  rw [here, size, cpins, counted] at mine
  rw [here, counted] at others
  refine ⟨rfl, ⟨rfl, fun hme hrdy hsize => ?_⟩, adopts, fun hpos hme => ?_⟩
  · rw [keeps (by rw [hme]; exact Ne.symm hne)]
    exact mine hme hrdy hsize
  · rw [keeps hpos]
    exact others hme

/-! ### A position without a HELLO -/

/-- The state with the position not live. -/
def notLive (pos : Nat) (s : State) : State := s.modCasc fun c => { c with pos := lmod c.pos pos fun x => { x with hellos := 0, live := false } }

/-- The state with the position out of the mask. -/
def unmasked (pos : Nat) (s : State) : State := if bit s.casc.mask pos then setView s.casc.view (s.casc.mask - 2 ^ pos) s else s

theorem positionDead_idle (hno : ¬ (OtherPos s pos ∧ ((nth s.casc.pos pos {}).live = true ∨ bit s.casc.mask pos = true))) :
    exec (.positionDead pos) s = .next s := by
  refine congrArg Host.Outcome.next (if_pos ?_)
  unfold OtherPos at hno
  rw [← Bool.or_eq_true, ← Nat.not_le] at hno
  refine Classical.byContradiction fun hall => ?_
  rw [Bool.or_eq_true, Bool.or_eq_true, decide_eq_true_eq, beq_iff_eq, Bool.not_eq_true', not_or, not_or, Bool.not_eq_false] at hall
  exact hno hall

theorem unmasked_group (hi : s.casc.imports = []) (he : s.casc.exports = []) (pos : Nat) :
    (unmasked pos s).casc.pos = s.casc.pos ∧ (unmasked pos s).casc.masterPos = s.casc.masterPos ∧ (unmasked pos s).casc.lookup = s.casc.lookup ∧
      (unmasked pos s).img = s.img ∧ (unmasked pos s).casc.view = s.casc.view ∧
      (unmasked pos s).casc.mask = if bit s.casc.mask pos then s.casc.mask - 2 ^ pos else s.casc.mask := by
  unfold unmasked
  by_cases hb : bit s.casc.mask pos = true
  · obtain ⟨pos', master, lookup, view, mask, img⟩ := setView_group hi he s.casc.view (s.casc.mask - 2 ^ pos)
    rw [if_pos hb, if_pos hb]
    exact ⟨pos', master, lookup, img, view, mask⟩
  · rw [if_neg hb, if_neg hb]
    exact ⟨rfl, rfl, rfl, rfl, rfl, rfl⟩

/-- A position whose HELLOs stop is not live, and leaves the view. -/
theorem positionDead_leaves (halone : Alone s) (hother : OtherPos s pos) (hlive : (nth s.casc.pos pos {}).live = true ∨ bit s.casc.mask pos = true) :
    ∃ t, exec (.positionDead pos) s = .next t ∧ t.casc.pos = lmod s.casc.pos pos (fun x => { x with hellos := 0, live := false }) ∧
      t.casc.masterPos = masterSeen t ∧ (masterSeen t ≠ cascPos s → t.casc.view = s.casc.view ∧
        t.casc.mask = if bit s.casc.mask pos then s.casc.mask - 2 ^ pos else s.casc.mask) := by
  obtain ⟨hi, he, hl⟩ := halone
  obtain ⟨hlt, hne⟩ := hother
  have acts : ¬ (decide (cascSize s ≤ pos) || pos == cascPos s || !((nth s.casc.pos pos {}).live || bit s.casc.mask pos)) = true := by
    rw [decide_eq_false (Nat.not_le.mpr hlt), beq_eq_false_iff_ne.mpr hne, Bool.or_eq_true_iff.mpr hlive]
    decide
  obtain ⟨wpos, wmaster, wimports, wexports, wlookup, wimg, -, others⟩ := refreshView_alone (s := notLive pos s) hi he
  obtain ⟨tpos, tmaster, tlookup, timg, tview, tmask⟩ := unmasked_group wimports wexports pos
  obtain ⟨-, seenW, -, -⟩ := liveSet_congr wpos wimg
  obtain ⟨-, seenT, -, -⟩ := liveSet_congr tpos timg
  have none : (unmasked pos (refreshView (notLive pos s))).casc.lookup = none := by
    rw [tlookup, wlookup]
    exact hl
  refine ⟨unmasked pos (refreshView (notLive pos s)), congrArg Host.Outcome.next ((if_neg acts).trans (afterView_alone none _)), tpos.trans wpos, ?_, fun hme => ?_⟩
  · rw [tmaster, wmaster, seenT, seenW]
  · rw [seenT, seenW] at hme
    obtain ⟨view, mask⟩ := others hme
    rw [tview, tmask, view, mask]
    exact ⟨rfl, rfl⟩

/-! ### Intervals -/

theorem helloInterval_idle (h : s.pins.rdy = false ∨ cascSize s ≤ 1) : exec .helloInterval s = .next s := by
  refine congrArg Host.Outcome.next (if_pos (Bool.or_eq_true_iff.mpr ?_))
  exact h.imp (fun hrdy => by rw [hrdy]; rfl) decide_eq_true

/-- The HELLO a device sends each other position. -/
def helloBody (s : State) : List Byte :=
  leBytes 1 (cascPos s) ++ leBytes 1 0 ++ leBytes 1 s.casc.mask ++ leBytes 1 0 ++ leBytes 4 (epochNo s) ++ configDigest s

theorem helloInterval_sends (hrdy : s.pins.rdy = true) (hsize : 1 < cascSize s) (hl : s.casc.lookup = none) : exec .helloInterval s =
    .next (forEach ((List.range (cascSize s)).filter fun q => q != cascPos s) (fun q x => sendPageRd (cascNode x q) 4 (helloBody s) x) s) := by
  have active : ¬ (!s.pins.rdy || decide (cascSize s ≤ 1)) = true := by
    rw [hrdy, decide_eq_false (Nat.not_le.mpr hsize)]
    decide
  refine congrArg Host.Outcome.next ((if_neg active).trans ?_)
  refine if_neg ?_
  have sent := Touches.forEach (w := partSet [.link, .io, .sec]) ((List.range (cascSize s)).filter fun q => q != cascPos s)
    (fun q x => sendPageRd (cascNode x q) 4 (helloBody s) x) (fun q x hx => sendPageRd_touches _ _ _ (by decide) hx) (.refl _ s)
  have lookup := congrArg Casc.lookup (sent.casc.resolve_left (by decide))
  unfold helloBody at lookup
  rw [lookup, hl]
  exact Bool.false_ne_true

end

/-- Settles O55: a HELLO is ignored or counts, the view settles by its master, and silence and intervals have their effect. -/
theorem membersAndViews : Obligations.MembersAndViews := by
  unfold Obligations.MembersAndViews
  intro s h pos view mask epoch digest
  refine ⟨hello_ignored, fun hok halone hrdy hother hsrc => ?_, positionDead_leaves, positionDead_idle, helloInterval_sends, helloInterval_idle⟩
  have kept := reply_only h mtAck 1 0 0 [] (took h mtPageRd s)
  have casc : (reply h mtAck 1 0 0 [] (took h mtPageRd s)).casc = s.casc := kept.2 .casc (by decide)
  have img : (reply h mtAck 1 0 0 [] (took h mtPageRd s)).img = s.img := kept.2 .img (by decide)
  have pins : (reply h mtAck 1 0 0 [] (took h mtPageRd s)).pins = s.pins := kept.2 .pins (by decide)
  have seqs : (reply h mtAck 1 0 0 [] (took h mtPageRd s)).seqs = s.seqs := kept.2 .seqs (by decide)
  have cfg : configDigest (reply h mtAck 1 0 0 [] (took h mtPageRd s)) = configDigest s := by
    unfold configDigest mdOf
    rw [img, seqs]
  obtain ⟨noted, spec⟩ := adopted_settled (view := view) (mask := mask) (epoch := epoch) (digest := digest) halone hother.2 casc img pins
  rw [cfg] at noted
  exact ⟨_, hello_counts hok halone hrdy hother hsrc, noted, spec⟩

end Sys2Proof.Machine
end

section
/-! SUPPORT. Searches and claims across the group (06 R204, R206, R207; 14 R425, R428, R430, R431). -/

namespace Sys2Proof.Machine

open Sys2Proof

section
variable {s : State} {h : Hdr} {view owner set sid won : Nat} {keys : List (List Byte)} {prios : List Nat} {entries : List ResEntry}

/-- A cascade message taken is handled with its copy gone from the inbox. -/
theorem takePeer_ok (hok : PeerTakes s h) (typ : Nat) (f : State → State) : takePeer h typ f s = f (took h typ s) :=
  takePeer_takes typ f hok.1 hok.2

/-! ### Members -/

section
variable (hok : PeerTakes s h)

include hok

theorem search_refused (hno : fromMaster s h.src view = false) :
    exec (.search h view owner set sid keys) s = .next (nakTo h stRevoked (took h mtPageRd s)) := by
  refine congrArg Host.Outcome.next ((takePeer_ok hok _ _).trans (if_pos ?_))
  rw [show fromMaster (took h mtPageRd s) h.src view = fromMaster s h.src view from rfl, hno]
  rfl

theorem claim_refused (hno : fromMaster s h.src view = false) : exec (.claim h view sid won) s = .next (nakTo h stRevoked (took h mtPageRd s)) := by
  refine congrArg Host.Outcome.next ((takePeer_ok hok _ _).trans (if_pos ?_))
  rw [show fromMaster (took h mtPageRd s) h.src view = fromMaster s h.src view from rfl, hno]
  rfl

/-- A CLAIM of the master's is answered from the search it names, or with nothing won. -/
theorem claim_taken (hyes : fromMaster s h.src view = true) :
    (∀ m, (s.casc.searches.find? fun m => m.sid == sid && m.master == h.src) = some m →
      exec (.claim h view sid won) s = .next (answerResult h m (bitsOf m.keys.length won) (took h mtPageRd s))) ∧
    ((s.casc.searches.find? fun m => m.sid == sid && m.master == h.src) = none →
      exec (.claim h view sid won) s = .next (answerPage h 3 stOk (leBytes 4 sid ++ leBytes 4 0) (took h mtPageRd s))) := by
  have mine : ¬ (!fromMaster (took h mtPageRd s) h.src view) = true := by
    rw [show fromMaster (took h mtPageRd s) h.src view = fromMaster s h.src view from rfl, hyes]
    decide
  have same : (took h mtPageRd s).casc.searches = s.casc.searches := rfl
  refine ⟨fun m hm => ?_, fun hm => ?_⟩
  all_goals
    refine congrArg Host.Outcome.next ((takePeer_ok hok _ _).trans ((if_neg mine).trans ?_))
    rw [same, hm]

end

/-- The winners of a SEARCH. -/
def winsOf (s : State) (set owner : Nat) (keys : List (List Byte)) : List (Option (Nat × Row)) := keys.map fun k => searchTag s set (tagOf k) owner

/-- The state of a member with a SEARCH counted and its winners latched. -/
def searchLatched (h : Hdr) (set owner sid : Nat) (keys : List (List Byte)) (s : State) : State :=
  (s.modPfx fun p => { p with searches := sat32 (p.searches + 1), tagHits := sat32 (p.tagHits + count (·.isSome) (winsOf s set owner keys)) }).modCasc fun c =>
    { c with
      searches := [{ sid := sid, master := h.src, key := h.key, owner := owner, keys := keys, wins := winsOf s set owner keys }]
      stirrup := if stirrupMode s then some { count := keys.length, prios := (winsOf s set owner keys).map prioOf } else none }

/-- What a member answers a SEARCH with. -/
def searchAnswer (s : State) (set owner sid : Nat) (keys : List (List Byte)) : List Byte :=
  leBytes 4 sid ++ if stirrupMode s then [] else ((winsOf s set owner keys).map prioOf).flatMap (leBytes 1)

theorem search_latches (hok : PeerTakes s h) (hyes : fromMaster s h.src view = true) : exec (.search h view owner set sid keys) s =
    .next (answerPage h 2 stOk (searchAnswer s set owner sid keys) (searchLatched h set owner sid keys (took h mtPageRd s))) := by
  have mine : ¬ (!fromMaster (took h mtPageRd s) h.src view) = true := by
    rw [show fromMaster (took h mtPageRd s) h.src view = fromMaster s h.src view from rfl, hyes]
    decide
  exact congrArg Host.Outcome.next ((takePeer_ok hok _ _).trans (if_neg mine))

/-! ### The master -/

section
variable {l : MLookup} {q : Nat} (hok : PeerTakes s h)

include hok

section
variable (hl : s.casc.lookup = some l) (hq : positionOf s h.src = some q) (hsid : l.sid = sid) (hawaited : q ∈ l.awaited)

include hl hq hsid hawaited

/-- An acknowledgement awaited is counted; the last one resolves the lookup. -/
theorem searchAck_counts (hfirst : ∀ x ∈ l.acks, x.1 ≠ q) :
    let acked := { l with acks := l.acks ++ [(q, prios)], awaited := l.awaited.filter (· != q) }
    exec (.searchAck h sid prios) s = .next (if acked.awaited = [] then resolveLookup acked (took h mtPageData s) else putLookup acked (took h mtPageData s)) := by
  have lookup : (took h mtPageData s).casc.lookup = some l := hl
  have position : positionOf (took h mtPageData s) h.src = some q := hq
  have awaited : ¬ (l.sid != sid || !l.awaited.contains q || l.acks.any fun x => x.1 == q) = true := by
    have fresh : (l.acks.any fun x => x.1 == q) = false := List.any_eq_false.mpr fun x hx => by rw [beq_iff_eq]; exact hfirst x hx
    rw [hsid, bne_self_eq_false, List.contains_iff_mem.mpr hawaited, fresh]
    decide
  refine congrArg Host.Outcome.next ((takePeer_ok hok _ _).trans ?_)
  dsimp only
  rw [lookup, position]
  exact (if_neg awaited).trans (ite_congr (propext List.isEmpty_iff) (fun _ => rfl) fun _ => rfl)

/-- A RESULT awaited is counted; the last one completes the lookup. -/
theorem result_counts (hacks : l.acks ≠ []) :
    let heard := { l with results := l.results ++ [(h.src, entries)], awaited := l.awaited.filter (· != q) }
    exec (.result h sid entries) s = .next (if heard.awaited = [] ∧ l.kept.length = l.keys.length then finishLookup heard (took h mtPageData s)
      else putLookup heard (took h mtPageData s)) := by
  have lookup : (took h mtPageData s).casc.lookup = some l := hl
  have position : positionOf (took h mtPageData s) h.src = some q := hq
  have awaited : ¬ (l.sid != sid || !l.awaited.contains q || l.acks.isEmpty) = true := by
    rw [hsid, bne_self_eq_false, List.contains_iff_mem.mpr hawaited, List.isEmpty_eq_false_iff.mpr hacks]
    decide
  refine congrArg Host.Outcome.next ((takePeer_ok hok _ _).trans ?_)
  dsimp only
  rw [lookup, position]
  refine (if_neg awaited).trans (ite_congr (propext ?_) (fun _ => rfl) fun _ => rfl)
  rw [Bool.and_eq_true, List.isEmpty_iff, beq_iff_eq]

end

/-- With no lookup an acknowledgement does nothing, and a RESULT has its handles released. -/
theorem answers_late (hl : s.casc.lookup = none) : exec (.searchAck h sid prios) s = .next (took h mtPageData s) ∧
    exec (.result h sid entries) s = .next (releaseAll h.src (((s.casc.abandoned.find? fun x => x.1 == sid).map (·.2)).getD 256)
      (entries.map (·.handle)) (took h mtPageData s)) := by
  have lookup : (took h mtPageData s).casc.lookup = none := hl
  constructor
  all_goals
    refine congrArg Host.Outcome.next ((takePeer_ok hok _ _).trans ?_)
    dsimp only
    rw [lookup]
  rfl

end

/-! ### The Stirrup bus -/

section
variable {v : Nat} (hrun : stopped s = false)

include hrun

theorem stirrupBeat_idle (hnone : s.casc.stirrup = none) : exec (.stirrupBeat v) s = .next s := by
  refine congrArg Host.Outcome.next ((unlessStopped_on _ hrun).trans ?_)
  rw [hnone]

/-- A member passes the larger of the beat and its own priority. -/
theorem stirrupBeat_member {st : Stirrup} (hst : s.casc.stirrup = some st) (hl : s.casc.lookup = none) (hbeat : st.beat < st.count) :
    exec (.stirrupBeat v) s = .next { s with casc := { s.casc with
      stirrup := some { st with beat := st.beat + 1, won := st.won ++ [decide (v % 256 < nth st.prios st.beat 0)] }
      matchOut := s.casc.matchOut ++ [max (v % 256) (nth st.prios st.beat 0)] } } := by
  refine congrArg Host.Outcome.next ((unlessStopped_on _ hrun).trans ?_)
  refine Eq.trans (b := memberBeat st (v % 256) s) ?_ (if_pos hbeat)
  rw [hst]
  dsimp only
  rw [hl]

/-- The master notes the larger, and whether its own stands, until the last beat of the phase. -/
theorem stirrupBeat_master {st : Stirrup} {l : MLookup} (hst : s.casc.stirrup = some st) (hl : s.casc.lookup = some l) (hbeat : st.beat + 1 < st.count) :
    exec (.stirrupBeat v) s = .next { s with casc := { s.casc with
      stirrup := some { st with beat := st.beat + 1 }
      lookup := some { l with maxes := l.maxes ++ [max (v % 256) (nth st.prios st.beat 0)]
                              kept := l.kept ++ [decide (v % 256 ≤ nth st.prios st.beat 0) && decide (0 < nth st.prios st.beat 0)] } } } := by
  refine congrArg Host.Outcome.next ((unlessStopped_on _ hrun).trans ?_)
  rw [hst]
  dsimp only
  rw [hl]
  exact (if_neg (by omega)).trans ((if_neg (by omega)).trans (if_pos hbeat))

end

end

/-- Settles O56: members refuse or answer by their master and view, the master counts each answer once, and beats take the larger priority. -/
theorem groupLookups : Obligations.GroupLookups := by
  unfold Obligations.GroupLookups
  intro s h view owner set sid won v keys prios entries
  refine ⟨fun hok hno => ⟨search_refused hok hno, claim_refused hok hno⟩, fun hok hyes => ?_, claim_taken,
    fun hok l q hl hq hsid hawaited => ⟨searchAck_counts hok hl hq hsid hawaited, result_counts hok hl hq hsid hawaited⟩, answers_late,
    stirrupBeat_idle, fun hrun st => stirrupBeat_member hrun, fun hrun st l => stirrupBeat_master hrun⟩
  have kept := answerPage_only h 2 stOk (searchAnswer s set owner sid keys) (searchLatched h set owner sid keys (took h mtPageRd s))
  have casc : _ = (searchLatched h set owner sid keys (took h mtPageRd s)).casc := kept.2 .casc (by decide)
  have pfx : _ = (searchLatched h set owner sid keys (took h mtPageRd s)).pfx := kept.2 .pfx (by decide)
  refine ⟨_, search_latches hok hyes, ?_⟩
  rw [casc, pfx]
  refine ⟨rfl, rfl, rfl, ?_⟩
  rintro y rfl
  rfl

end Sys2Proof.Machine
end

section
/-! SUPPORT. Peer pages (14 R432 to R435, R437). -/

namespace Sys2Proof.Machine

open Sys2Proof

section
variable {s : State} {h : Hdr} {handle layer offset len status tag : Nat} {bytes : List Byte}

/-! ### READs -/

/-- A READ whose page has the codec its run began with, or that begins a run. -/
def SameCodec (offset layer codec : Nat) (x : Export) : Prop := offset = 0 ∨ ∀ y ∈ x.seen, y.1 = layer → y.2 = codec

theorem sameCodec_other {x : Export} {codec : Nat} (hc : SameCodec offset layer codec x) :
    (offset != 0 && ((x.seen.find? fun y => y.1 == layer).map (·.2)).isSome && ((x.seen.find? fun y => y.1 == layer).map (·.2)) != some codec) = false := by
  rcases hc with rfl | hall
  · rfl
  · cases hf : x.seen.find? fun y => y.1 == layer with
    | none => rw [Option.map_none, Option.isSome_none, Bool.and_false, Bool.false_and]
    | some y =>
      have codecOk := hall y (List.mem_of_find?_eq_some hf) (beq_iff_eq.mp (List.find?_some (p := fun y : Nat × Nat => y.1 == layer) hf))
      rw [Option.map_some, codecOk, bne_self_eq_false, Bool.and_false]

section
variable {slot : Nat} {x : Export} (hx : exportOf s handle h.src = some (slot, x))

/-- A READ under no handle of the holder's, or of a layer that is not there, is refused. -/
theorem servePeer_refused (hno : exportOf s handle h.src = none ∨ ∃ slot x, exportOf s handle h.src = some (slot, x) ∧ (x.layers ≤ layer ∨ layer ∈ x.released)) :
    servePeer h handle layer offset len s = answerRead h none s := by
  unfold servePeer
  rcases hno with hno | ⟨slot, x, hx, hgone⟩
  · rw [hno]
  · have gone : (decide (x.layers ≤ layer) || x.released.contains layer) = true :=
      Bool.or_eq_true_iff.mpr (hgone.imp decide_eq_true List.contains_iff_mem.mpr)
    rw [hx]
    dsimp only
    split
    · rfl
    · rw [gone, Bool.true_or, Bool.true_or, if_pos rfl]

variable {r : SharedRec} (hlayer : layer < x.layers) (hlive : layer ∉ x.released) (hr : recOf s (nth x.recs layer 0) = some r) (htier : r.page.tier ≠ .dropped)
  (hc : SameCodec offset layer r.page.codec x)

include hx hlayer hlive hr htier hc

/-- A READ of a page that is there: of a Peer page not yet whole it waits for its exporter, else it is served. -/
theorem servePeer_serves : servePeer h handle layer offset len s =
    if r.page.tier == .peer && !peerWhole s (.chain slot layer) (nth x.recs layer 0) then
      wantPeer (.chain slot layer) (nth x.recs layer 0) (s.modCasc fun c =>
        { c with chained := c.chained ++ [{ port := h.port, src := h.src, key := h.key, tag := h.tag, handle := handle, layer := layer, offset := offset, len := len }] })
    else
      let v := s.modCasc fun c => { c with exports := mmod c.exports slot fun y => { y with seen := (layer, r.page.codec) :: y.seen.filter fun z => z.1 != layer } }
      let img := if r.page.tier == .peer then peerGot v (.chain slot layer) (nth x.recs layer 0) else imageBytes r.page.model r.page
      let w := answerRead h (some ((img.drop offset).take (min len 8192))) (access 32 (.rec_ (nth x.recs layer 0)) v)
      if img.length ≤ offset + min len 8192 then dropImages (.chain slot layer) w else w := by
  have there : ¬ (decide (x.layers ≤ layer) || x.released.contains layer || r.page.tier == .dropped || (offset != 0 &&
      ((x.seen.find? fun y => y.1 == layer).map (·.2)).isSome && ((x.seen.find? fun y => y.1 == layer).map (·.2)) != some r.page.codec)) = true := by
    rw [sameCodec_other hc, decide_eq_false (Nat.not_le.mpr hlayer), beq_eq_false_iff_ne.mpr htier, Bool.eq_false_iff.mpr fun hmem => hlive (List.contains_iff_mem.mp hmem)]
    decide
  unfold servePeer
  rw [hx]
  dsimp only
  rw [hr]
  dsimp only
  rw [if_neg there]

end

/-- The page that begins a run is read anew; no page served and no record changes. -/
theorem freshRun_keeps (h : Hdr) (handle layer offset : Nat) (s : State) :
    (∀ a b, exportOf (freshRun h handle layer offset s) a b = exportOf s a b) ∧ (∀ r, recOf (freshRun h handle layer offset s) r = recOf s r) ∧
      (freshRun h handle layer offset s).casc.peerRefused = s.casc.peerRefused := by
  unfold freshRun
  split
  · split
    · exact ⟨fun _ _ => rfl, fun _ => rfl, rfl⟩
    · exact ⟨fun _ _ => rfl, fun _ => rfl, rfl⟩
  · exact ⟨fun _ _ => rfl, fun _ => rfl, rfl⟩

section
variable (hok : PeerTakes s h) {f : State} (hf : f = freshRun h handle layer offset (took h mtPageRd s))

include hok hf

theorem read_serves : exec (.read h handle layer offset len) s = .next (servePeer h handle layer offset len f) := by
  rw [hf]
  exact congrArg Host.Outcome.next (takePeer_ok hok _ _)

theorem read_refused (hno : exportOf s handle h.src = none ∨ ∃ slot x, exportOf s handle h.src = some (slot, x) ∧ (x.layers ≤ layer ∨ layer ∈ x.released)) :
    exec (.read h handle layer offset len) s =
      .next (answerPage h 1 stRevoked (leBytes 4 0) { f with casc := { f.casc with peerRefused := sat32 (s.casc.peerRefused + 1) } }) := by
  obtain ⟨exports, -, refused⟩ := freshRun_keeps h handle layer offset (took h mtPageRd s)
  rw [read_serves hok hf, servePeer_refused (by rw [hf, exports]; exact hno), ← show f.casc.peerRefused = s.casc.peerRefused by rw [hf]; exact refused]
  rfl

section
variable {slot : Nat} {x : Export} {r : SharedRec} (hx : exportOf s handle h.src = some (slot, x)) (hlayer : layer < x.layers) (hlive : layer ∉ x.released)
  (hr : recOf s (nth x.recs layer 0) = some r) (htier : r.page.tier ≠ .dropped) (hc : SameCodec offset layer r.page.codec x)

include hx hlayer hlive hr htier hc

/-- A READ of the device's own page is answered with the bytes asked for, its access counted. -/
theorem read_answers (hown : r.page.tier ≠ .peer) {img : List Byte} (himg : img = imageBytes r.page.model r.page) :
    ∃ v : State, v.casc.peerRefused = s.casc.peerRefused ∧ exec (.read h handle layer offset len) s =
      .next (when (decide (img.length ≤ offset + min len 8192)) (dropImages (.chain slot layer))
        (answerPage h 1 stOk (leBytes 4 ((img.drop offset).take (min len 8192)).length ++ (img.drop offset).take (min len 8192)) v)) := by
  obtain ⟨exports, recs, refused⟩ := freshRun_keeps h handle layer offset (took h mtPageRd s)
  have own : (r.page.tier == .peer) = false := beq_eq_false_iff_ne.mpr hown
  have counted : ∀ u : State, (access 32 (.rec_ (nth x.recs layer 0)) u).casc = u.casc := fun u =>
    (access_touches (μ := partSet [.tier]) 32 (.rec_ (nth x.recs layer 0)) (by decide) (.refl _ u)).casc.resolve_left (by decide)
  refine ⟨access 32 (.rec_ (nth x.recs layer 0)) (f.modCasc fun c => { c with exports := mmod c.exports slot fun y =>
    { y with seen := (layer, r.page.codec) :: y.seen.filter fun z => z.1 != layer } }), ?_, ?_⟩
  · rw [counted]
    show f.casc.peerRefused = s.casc.peerRefused
    rw [hf]
    exact refused
  · rw [read_serves hok hf, servePeer_serves (s := f) (by rw [hf, exports]; exact hx) hlayer hlive (by rw [hf, recs]; exact hr) htier hc, own, Bool.false_and,
      if_neg Bool.false_ne_true]
    dsimp only
    rw [if_neg Bool.false_ne_true, ← himg]
    exact congrArg Host.Outcome.next (ite_congr (propext (decide_eq_true_iff).symm) (fun _ => rfl) fun _ => rfl)

/-- A READ of a Peer page not yet whole waits while the page is read from its own exporter. -/
theorem read_chains (hpeer : r.page.tier = .peer) (hpart : peerWhole f (.chain slot layer) (nth x.recs layer 0) = false) :
    exec (.read h handle layer offset len) s = .next (wantPeer (.chain slot layer) (nth x.recs layer 0) { f with casc := { f.casc with chained := f.casc.chained ++
      [{ port := h.port, src := h.src, key := h.key, tag := h.tag, handle := handle, layer := layer, offset := offset, len := len }] } }) := by
  obtain ⟨exports, recs, -⟩ := freshRun_keeps h handle layer offset (took h mtPageRd s)
  rw [read_serves hok hf, servePeer_serves (s := f) (by rw [hf, exports]; exact hx) hlayer hlive (by rw [hf, recs]; exact hr) htier hc, hpart,
    if_pos (by rw [hpeer]; decide)]
  rfl

end

end

/-! ### Answers and timeouts of READs -/

theorem pageData_foreign (hok : PeerTakes s h) (hno : mget s.casc.reads h.tag = none ∨ ∃ r, mget s.casc.reads h.tag = some r ∧ r.node ≠ h.src) :
    exec (.pageData h status bytes) s = .next (took h mtPageData s) := by
  have same : mget (took h mtPageData s).casc.reads h.tag = mget s.casc.reads h.tag := rfl
  refine congrArg Host.Outcome.next ((takePeer_ok hok _ _).trans ?_)
  rcases hno with hno | ⟨r, hr, hnode⟩
  · rw [same, hno]
  · rw [same, hr]
    exact if_pos (bne_iff_ne.mpr hnode)

section
variable {r : PeerRead} (hr : mget s.casc.reads tag = some r)

include hr

theorem peerReadTimeout_waits (h3 : 3 ≤ r.resends) : exec (.peerReadTimeout tag) s = .next s := by
  show execPeerReadTimeout tag s = _
  rw [execPeerReadTimeout, hr]
  exact congrArg Host.Outcome.next (if_pos h3)

theorem peerReadTimeout_resends (h3 : r.resends < 3) : exec (.peerReadTimeout tag) s =
    .next (sendPeerRead tag { s with casc := { s.casc with reads := mset s.casc.reads tag { r with resends := r.resends + 1 } } }) := by
  show execPeerReadTimeout tag s = _
  rw [execPeerReadTimeout, hr]
  exact congrArg Host.Outcome.next (if_neg (Nat.not_le.mpr h3))

end

/-! ### RELEASEs -/

section
variable {e : RelEntry} (hok : PeerTakes s h)

include hok

theorem release_unnamed (hno : exportOf s e.handle h.src = none) : exec (.release h [e]) s = .next (reply h mtAck 1 0 0 [] (took h mtPageWr s)) := by
  have unnamed : exportOf (reply h mtAck 1 0 0 [] (took h mtPageWr s)) e.handle h.src = none := by
    rw [exportOf_same (reply_only ..), hno]
  refine congrArg Host.Outcome.next ((takePeer_ok hok _ _).trans ?_)
  unfold forEach
  rw [List.foldl_cons, List.foldl_nil]
  dsimp only
  rw [unnamed]

theorem release_releases {slot : Nat} {x : Export} (hx : exportOf s e.handle h.src = some (slot, x)) :
    exec (.release h [e]) s = .next (releaseExport slot e.layer (reply h mtAck 1 0 0 [] (took h mtPageWr s))) := by
  have named : exportOf (reply h mtAck 1 0 0 [] (took h mtPageWr s)) e.handle h.src = some (slot, x) := by
    rw [exportOf_same (reply_only ..), hx]
  refine congrArg Host.Outcome.next ((takePeer_ok hok _ _).trans ?_)
  unfold forEach
  rw [List.foldl_cons, List.foldl_nil]
  dsimp only
  rw [named]

end

/-- The live slot a handle names. -/
theorem exportOf_slot {slot : Nat} {x : Export} {holder : Node} (hx : exportOf s handle holder = some (slot, x)) : mget s.casc.exports slot = some x := by
  unfold exportOf at hx
  dsimp only at hx
  split at hx
  · exact nomatch hx
  · obtain ⟨y, hy, hholder⟩ := Option.bind_eq_some_iff.mp hx
    split at hholder
    · obtain ⟨rfl, rfl⟩ := Prod.mk.inj (Option.some.inj hholder)
      exact hy
    · exact nomatch hholder

/-- A layer already released, or none of the slot's, is released no more. -/
theorem releaseExport_again {slot : Nat} {x : Export} (hx : mget s.casc.exports slot = some x) (hgone : x.layers ≤ layer ∨ layer ∈ x.released) :
    releaseExport slot layer s = s := by
  unfold releaseExport
  rw [hx]
  dsimp only
  refine if_pos (Bool.or_eq_true_iff.mpr ?_)
  exact hgone.imp decide_eq_true List.contains_iff_mem.mpr

end

/-- Settles O57: READs are refused, served or chained, their answers taken or not, and RELEASEs acknowledged. -/
theorem peerPagesAreServed : Obligations.PeerPagesAreServed := by
  unfold Obligations.PeerPagesAreServed
  intro s h handle layer offset len status tag bytes e
  refine ⟨?_, ?_, fun r hr => ⟨peerReadTimeout_waits hr, peerReadTimeout_resends hr⟩, ?_⟩
  · rintro u f ⟨ht, hk, rfl⟩ hf
    refine ⟨read_refused ⟨ht, hk⟩ hf, fun slot x r hx hlayer hlive hr htier hc => ⟨fun hown img => ?_, read_chains ⟨ht, hk⟩ hf hx hlayer hlive hr htier hc⟩⟩
    exact read_answers ⟨ht, hk⟩ hf hx hlayer hlive hr htier hc hown
  · rintro u ⟨ht, hk, hu⟩
    refine ⟨fun hno => ?_, fun r hr hnode => pageData_mine h status bytes ⟨ht, hk⟩ hu hr hnode⟩
    rw [hu]
    exact pageData_foreign ⟨ht, hk⟩ hno
  · rintro u ⟨ht, hk, rfl⟩
    refine ⟨release_unnamed ⟨ht, hk⟩, fun slot x hx => ⟨release_releases ⟨ht, hk⟩ hx, fun hgone => ?_⟩⟩
    have there : mget (reply h mtAck 1 0 0 [] (took h mtPageWr s)).casc.exports slot = some x := by
      rw [(reply_only h mtAck 1 0 0 [] (took h mtPageWr s)).2 .casc (by decide)]
      exact exportOf_slot hx
    rw [release_releases ⟨ht, hk⟩ hx, releaseExport_again there hgone]

end Sys2Proof.Machine
end

section
/-! SUPPORT. Single register accesses (15 R450, R453, R456). -/

namespace Sys2Proof.Machine

open Sys2Proof

section
variable {s : State} {path : Path} {off v : Nat}

/-! ### Reads -/

/-- A read that is not served returns nothing and changes nothing. -/
theorem readOne_unserved (h : servedAt path off s = false) : readOne path off s = s :=
  if_neg (by show ¬ servedAt path off s = true; rw [h]; exact Bool.false_ne_true)

/-- The latching reads and BBX_READ_DATA, with their offsets. -/
def readRows (path : Path) : List (Nat × Instr) :=
  [(0x00108, .topCclkLoRead path), (0x60120, .atnKeysLoRead path), (0x90020, .ftlSeqLoRead path), (0xA0304, .schAcctCycLoRead path),
    (0xA0310, .schAcctSaveLoRead path), (0xD0028, .bbxReadDataRead path)]

/-- Each is one register access at its offset. -/
theorem readRows_read {x : Nat × Instr} (hx : x ∈ readRows path) : exec x.2 s = .next (readOne path x.1 s) := by
  simp only [readRows, List.mem_cons, List.not_mem_nil, or_false] at hx
  rcases hx with rfl | rfl | rfl | rfl | rfl | rfl
  all_goals rfl

/-- The operator's read of BBX_READ_DATA shows the word and moves its offset by 4. -/
theorem bbxReadData_advances (h : operates path 0xD0028 s = true) : exec (.bbxReadDataRead path) s = .next { s with
    mgmt := { s.mgmt with reply := [bbxWord s] }, bbx := { s.bbx with readAddr := (s.bbx.readAddr + 4) % 2 ^ 18 } } := by
  obtain ⟨served, operator⟩ := operates_iff.mp h
  refine congrArg Host.Outcome.next ((readOne_at served).trans ?_)
  rw [operator_reads operator]
  rfl

/-- None of these registers is one a management context reads exactly. -/
theorem readRows_notExact : ∀ p < 16, ∀ off ∈ [0x60120, 0x90020, 0xA0304, 0xA0310, 0xD0028], allExact off = false ∧ mgmtExact p off = false := by
  decide

/-- Any other party's read of one of these, but TOP_CCLK_LO, shows the tenant view alone. -/
theorem readRows_tenant {x : Nat × Instr} (hx : x ∈ (readRows path).tail) (hserved : servedAt path x.1 s = true) (hnot : (partyOf s path).isOperator = false)
    (hpart : ∀ p, partyOf s path = .mgmt p → p < 16) : exec x.2 s = .next { s with mgmt := { s.mgmt with
      reply := [if partyOf s path = .nobody then 0 else tenantWord s (pathTenant s path) x.1] } } := by
  have hoff : x.1 ∈ [0x60120, 0x90020, 0xA0304, 0xA0310, 0xD0028] := List.mem_map_of_mem (f := Prod.fst) hx
  refine (readRows_read (List.mem_of_mem_tail hx)).trans (congrArg Host.Outcome.next ?_)
  exact tenant_reads hserved hnot (readRows_notExact 0 (by decide) _ hoff).1 fun p hp => (readRows_notExact p (hpart p hp) _ hoff).2

/-! ### Writes -/

section
variable (hv : v < 2 ^ 32)

include hv

theorem write_attnCfg (h : operates path 0x60000 s = true) :
    exec (.registerWrite path 0x60000 v) s = .next { s with attn := { s.attn with splitEn := bit v 0, groupEn := bit v 1 } } :=
  operator_writes h hv

/-- A W1C bit is cleared by a 1 alone. -/
theorem write_pwrStatus (h : operates path 0xE0000 s = true) : exec (.registerWrite path 0xE0000 v) s = .next { s with pwr := { s.pwr with
    ovEvent := s.pwr.ovEvent && !bit v 7, uvEvent := s.pwr.uvEvent && !bit v 8 } } :=
  operator_writes h hv

/-- A value out of a field's range changes nothing. -/
theorem write_schCfg (h : operates path 0xA0000 s = true) : exec (.registerWrite path 0xA0000 v) s =
    .next (if v % 1024 = 0 ∨ 1000 < v % 1024 ∨ 100 < bits v 10 7 then s
      else { s with sch := { s.sch with quantum := v % 1024, cheapWait := bits v 10 7, monitorEn := bit v 17 } }) := by
  refine (operator_writes h hv).trans (congrArg Host.Outcome.next ?_)
  have range : (v % 1024 == 0 || decide (1000 < v % 1024) || decide (100 < bits v 10 7)) = true ↔ v % 1024 = 0 ∨ 1000 < v % 1024 ∨ 100 < bits v 10 7 := by
    rw [Bool.or_eq_true, Bool.or_eq_true, beq_iff_eq, decide_eq_true_iff, decide_eq_true_iff, or_assoc]
  show writeSchCfg v s = _
  exact ite_congr (propext range) (fun _ => rfl) fun _ => rfl

theorem write_bbxReadAddr (h : operates path 0xD0024 s = true) :
    exec (.registerWrite path 0xD0024 v) s = .next { s with bbx := { s.bbx with readAddr := v % 2 ^ 18 / 4 * 4 } } :=
  operator_writes h hv

end

end

/-- Settles O60: what a single register access shows, changes or leaves. -/
theorem registerAccesses : Obligations.RegisterAccesses := by
  unfold Obligations.RegisterAccesses
  intro s path off v
  refine ⟨fun x hx hserved => ?_, bbxReadData_advances, fun x hx => readRows_tenant hx, registerWrite_ignored,
    fun hv => ⟨write_attnCfg hv, write_pwrStatus hv, write_schCfg hv, write_bbxReadAddr hv⟩⟩
  rw [readRows_read hx, readOne_unserved hserved]

end Sys2Proof.Machine
end

section
/-! SUPPORT. Transfers of the management unit (15 R451 to R454). -/

namespace Sys2Proof.Machine

open Sys2Proof

section
variable {s : State} {h : Hdr} {off len n a : Nat} {bytes : List Byte}

/-- A well-formed access of the management window. -/
def AccessGood (off len : Nat) : Prop := off % 4 = 0 ∧ len % 4 = 0 ∧ 4 ≤ len ∧ len ≤ 64 ∧ off < 2 ^ 24 ∧ off / 0x10000 = (off + len - 1) / 0x10000

theorem accessOk_good (h : AccessGood off len) : accessOk off len = true := (accessOk_iff off len).mpr h

theorem accessOk_bad (h : ¬ AccessGood off len) : accessOk off len = false := Bool.eq_false_iff.mpr fun ok => h ((accessOk_iff off len).mp ok)

/-! ### Over Dorlink -/

/-- A well-formed read is one register access a word. -/
theorem mgmtRd_reads {u : State} (ht : takes h s = true) (hu : u = took h mtMgmtRd s) (hrdy : s.pins.rdy = true) (hgood : AccessGood off len) :
    ∃ (st : Nat → State) (ws : List Nat), st 0 = u ∧ ws.length = len / 4 ∧
      (∀ i, i < len / 4 → readWord (.dorlink h.key) (off + 4 * i) (st i) = (nth ws i 0, st (i + 1))) ∧
      exec (.mgmtRd h off len) s = .next (reply h mtMgmtData 3 0 0 (ws.flatMap (leBytes 4)) (st (len / 4))) := by
  obtain ⟨st, ws, first, length, words, all⟩ := readWords_chain (.dorlink h.key) (fun _ => true) (len / 4) off u fun _ _ => rfl
  refine ⟨st, ws, first, length, words, ((mgmtRd_clause s u h off len ht hu).2.2 hrdy (accessOk_good hgood)).trans ?_⟩
  unfold answerMgmtRd
  rw [all]

/-- A well-formed write is one register access a word, answered by whether each could be made. -/
theorem mgmtWr_writes {u : State} (ht : takes h s = true) (hu : u = took h mtMgmtWr s) (hrdy : s.pins.rdy = true) (hgood : AccessGood off bytes.length) :
    ∃ st : Nat → State, st 0 = u ∧
      (∀ i, i < bytes.length / 4 → st (i + 1) = writeWord (.dorlink h.key) (off + 4 * i) (field bytes (4 * i) 4) (st i)) ∧
      ((∃ i, i < bytes.length / 4 ∧ wornWrite (.dorlink h.key) (off + 4 * i) (field bytes (4 * i) 4) (st i) = true) →
        exec (.mgmtWr h off bytes) s = .next (nakTo h stTallyWorn (st (bytes.length / 4)))) ∧
      ((∀ i, i < bytes.length / 4 → wornWrite (.dorlink h.key) (off + 4 * i) (field bytes (4 * i) 4) (st i) = false) →
        exec (.mgmtWr h off bytes) s = .next (reply h mtAck 1 0 0 [] (st (bytes.length / 4)))) := by
  obtain ⟨st, first, words, last, worn⟩ := writeWords_chain (.dorlink h.key) (fun _ => true) (wordsOf bytes) off u fun _ _ => rfl
  have runs := (mgmtWr_clause s u h off bytes ht hu).2.2 hrdy (accessOk_good hgood)
  unfold answerMgmtWr at runs
  dsimp only at runs
  rw [last] at runs
  rw [wordsOf_length] at words last worn runs
  refine ⟨st, first, fun i hi => by rw [words i hi, wordsOf_nth _ hi], fun ⟨i, hi, hworn⟩ => ?_, fun hfine => ?_⟩
  · refine runs.trans (congrArg Host.Outcome.next (if_pos (worn.mpr ⟨i, hi, ?_⟩)))
    rw [wordsOf_nth _ hi]
    exact hworn
  · refine runs.trans (congrArg Host.Outcome.next (if_neg fun hany => ?_))
    obtain ⟨i, hi, hworn⟩ := worn.mp hany
    rw [wordsOf_nth _ hi, hfine i hi] at hworn
    exact nomatch hworn

/-! ### Over I3C -/

/-- The block of an offset is served over I3C. -/
def ServedI3c (s : State) (off : Nat) : Prop := 13 ∈ s.start.done ∨ off / 0x10000 ∈ [0, 1, 11, 12, 13, 14, 15]

/-- The words of a well-formed access over I3C lie in one block, served or not as a whole. -/
theorem servedWords {i : Nat} (hgood : AccessGood off len) (hi : i < len / 4) : served s .i3c ((off + 4 * i) / 0x10000) = served s .i3c (off / 0x10000) := by
  obtain ⟨-, -, -, -, -, block⟩ := hgood
  rw [same_block block hi]

section
variable (hawake : 2 ∈ s.start.done)

include hawake

theorem i3cPrivateWrite_pointer (hlen : bytes.length = 4) (hoff : field bytes 0 4 < 2 ^ 24) (halign : field bytes 0 4 % 4 = 0) :
    exec (.i3cPrivateWrite bytes) s = .next { s with mgmt := { s.mgmt with i3cPtr := field bytes 0 4 } } := by
  refine congrArg Host.Outcome.next ((i3cTransfer_at _ hawake ((i3cWriteOk_iff bytes).mpr ⟨by omega, hoff, halign, .inl hlen⟩)).trans ?_)
  exact if_pos (List.isEmpty_iff.mpr (List.drop_eq_nil_of_le (by omega)))

/-- More than four bytes write from the offset they begin with. -/
theorem i3cPrivateWrite_words (hlen : 4 < bytes.length) (hgood : AccessGood (field bytes 0 4) (bytes.drop 4).length) : exec (.i3cPrivateWrite bytes) s =
    .next (writeWords .i3c (served s .i3c) (field bytes 0 4) (wordsOf (bytes.drop 4)) s).2 := by
  have more : (bytes.drop 4).length = bytes.length - 4 := List.length_drop
  have ok : i3cWriteOk bytes = true := (i3cWriteOk_iff bytes).mpr
    ⟨by omega, hgood.2.2.2.2.1, hgood.1, .inr (accessOk_good (by rw [← more]; exact hgood))⟩
  refine congrArg Host.Outcome.next ((i3cTransfer_at _ hawake ok).trans (if_neg ?_))
  rw [List.isEmpty_iff, List.drop_eq_nil_iff]
  omega

/-- In a served block each word is one register access. -/
theorem i3cPrivateWrite_served (hlen : 4 < bytes.length) (hgood : AccessGood (field bytes 0 4) (bytes.drop 4).length) (hserved : ServedI3c s (field bytes 0 4)) :
    ∃ st : Nat → State, st 0 = s ∧
      (∀ i, i < (bytes.drop 4).length / 4 → st (i + 1) = writeWord .i3c (field bytes 0 4 + 4 * i) (field (bytes.drop 4) (4 * i) 4) (st i)) ∧
      exec (.i3cPrivateWrite bytes) s = .next (st ((bytes.drop 4).length / 4)) := by
  have length := wordsOf_length (bytes.drop 4)
  obtain ⟨st, first, words, last, -⟩ := writeWords_chain .i3c (served s .i3c) (wordsOf (bytes.drop 4)) (field bytes 0 4) s fun i hi =>
    (servedWords hgood (length ▸ hi)).trans ((served_i3c s _).mpr hserved)
  rw [length] at words last
  refine ⟨st, first, fun i hi => by rw [words i hi, wordsOf_nth _ hi], ?_⟩
  rw [i3cPrivateWrite_words hawake hlen hgood, last]

theorem i3cPrivateWrite_unserved (hlen : 4 < bytes.length) (hgood : AccessGood (field bytes 0 4) (bytes.drop 4).length) (hno : ¬ ServedI3c s (field bytes 0 4)) :
    exec (.i3cPrivateWrite bytes) s = .next s := by
  rw [i3cPrivateWrite_words hawake hlen hgood, writeWords_unserved .i3c (served s .i3c) _ _ _ fun i hi => ?_]
  rw [servedWords hgood (wordsOf_length (bytes.drop 4) ▸ hi)]
  exact Bool.eq_false_iff.mpr fun yes => hno ((served_i3c s _).mp yes)

end

/-- A malformed write over I3C accesses nothing. -/
theorem i3cPrivateWrite_malformed (hbad : bytes.length < 4 ∨ 2 ^ 24 ≤ field bytes 0 4 ∨ field bytes 0 4 % 4 ≠ 0 ∨
    (bytes.length ≠ 4 ∧ ¬ AccessGood (field bytes 0 4) (bytes.drop 4).length)) :
    exec (.i3cPrivateWrite bytes) s = .next { s with mgmt := { s.mgmt with reply := [] } } := by
  refine congrArg Host.Outcome.next (i3cTransfer_nack _ (.inr (Bool.eq_false_iff.mpr fun ok => ?_)))
  obtain ⟨whole, range, aligned, form⟩ := (i3cWriteOk_iff bytes).mp ok
  rcases hbad with h | h | h | ⟨hlen, hbad⟩
  · omega
  · exact absurd range (Nat.not_lt.mpr h)
  · exact h aligned
  · refine hbad ?_
    rw [List.length_drop]
    exact (accessOk_iff _ _).mp (form.resolve_left hlen)

section
variable (hawake : 2 ∈ s.start.done)

include hawake

section
variable (hptr : s.mgmt.i3cPtr < 2 ^ 24)

include hptr

theorem i3cPrivateRead_words : exec (.i3cPrivateRead n) s = .next
    (let r := readWords .i3c (served s .i3c) s.mgmt.i3cPtr (i3cCount s n) s
    { r.2 with mgmt := { r.2.mgmt with i3cPtr := r.2.mgmt.i3cPtr + 4 * i3cCount s n, reply := r.1 } }) :=
  congrArg Host.Outcome.next (i3cTransfer_at _ hawake (decide_eq_true hptr))

omit hawake hptr in
/-- A read over I3C stays in the block of its pointer. -/
theorem i3cCount_block {i : Nat} (hi : i < i3cCount s n) : (s.mgmt.i3cPtr + 4 * i) / 0x10000 = s.mgmt.i3cPtr / 0x10000 := by
  unfold i3cCount at hi
  omega

theorem i3cPrivateRead_served (hserved : ServedI3c s s.mgmt.i3cPtr) : ∃ (st : Nat → State) (ws : List Nat), st 0 = s ∧ ws.length = i3cCount s n ∧
    (∀ i, i < i3cCount s n → readWord .i3c (s.mgmt.i3cPtr + 4 * i) (st i) = (nth ws i 0, st (i + 1))) ∧
    exec (.i3cPrivateRead n) s = .next { st (i3cCount s n) with
      mgmt := { (st (i3cCount s n)).mgmt with i3cPtr := (st (i3cCount s n)).mgmt.i3cPtr + 4 * i3cCount s n, reply := ws } } := by
  obtain ⟨st, ws, first, length, words, all⟩ := readWords_chain .i3c (served s .i3c) (i3cCount s n) s.mgmt.i3cPtr s fun i hi => by
    rw [i3cCount_block hi]
    exact (served_i3c s _).mpr hserved
  refine ⟨st, ws, first, length, words, ?_⟩
  rw [i3cPrivateRead_words hawake hptr, all]

theorem i3cPrivateRead_unserved (hno : ¬ ServedI3c s s.mgmt.i3cPtr) : exec (.i3cPrivateRead n) s =
    .next { s with mgmt := { s.mgmt with i3cPtr := s.mgmt.i3cPtr + 4 * i3cCount s n, reply := List.replicate (i3cCount s n) 0 } } := by
  rw [i3cPrivateRead_words hawake hptr, readWords_unserved .i3c (served s .i3c) _ _ _ fun i hi => ?_]
  rw [i3cCount_block hi]
  exact Bool.eq_false_iff.mpr fun yes => hno ((served_i3c s _).mp yes)

end

/-- ENTDAA and SETDASA leave an address already given in place. -/
theorem takeAddr_keeps {c : Instr} (hc : c ∈ [Instr.entdaa a, .setdasa a]) :
    exec c s = .next { s with mgmt := { s.mgmt with i3cAddr := some (s.mgmt.i3cAddr.getD a) } } := by
  have taken : takeAddr a s = { s with mgmt := { s.mgmt with i3cAddr := some (s.mgmt.i3cAddr.getD a) } } := by
    unfold takeAddr State.modMgmt
    dsimp only
    cases s.mgmt.i3cAddr with
    | none => rfl
    | some b => rfl
  rw [← taken]
  simp only [List.mem_cons, List.not_mem_nil, or_false] at hc
  rcases hc with rfl | rfl
  all_goals exact congrArg Host.Outcome.next (i3cTransfer_at _ hawake rfl)

end

/-- Before the end of phase 2 the target answers no transfer. -/
theorem i3c_asleep (hasleep : 2 ∉ s.start.done) {c : Instr}
    (hc : c ∈ [Instr.i3cPrivateWrite bytes, .i3cPrivateRead n, .entdaa a, .setdasa a, .rstdaa, .getpid, .getbcr, .getdcr, .getstatus]) :
    exec c s = .next { s with mgmt := { s.mgmt with reply := [] } } := by
  simp only [List.mem_cons, List.not_mem_nil, or_false] at hc
  rcases hc with rfl | rfl | rfl | rfl | rfl | rfl | rfl | rfl | rfl
  all_goals exact congrArg Host.Outcome.next (i3cTransfer_nack _ (.inl hasleep))

end

/-- Settles O58: transfers over Dorlink and I3C are turned away, or are one register access a word. -/
theorem managementTransfers : Obligations.ManagementTransfers := by
  unfold Obligations.ManagementTransfers
  intro s h off len n a bytes
  refine ⟨fun u ht hu => ?_, fun u ht hu => ?_, i3cPrivateWrite_pointer, fun hawake hlen hgood => ⟨i3cPrivateWrite_served hawake hlen hgood, i3cPrivateWrite_unserved hawake hlen hgood⟩,
    i3cPrivateWrite_malformed, ?_, fun hawake => ⟨?_, ?_, ?_, ?_, ?_, fun c hc => takeAddr_keeps hawake hc⟩, fun hasleep c hc => i3c_asleep hasleep hc⟩
  · obtain ⟨late, bad, -⟩ := mgmtRd_clause s u h off len ht hu
    exact ⟨late, fun hrdy hbad => bad hrdy (accessOk_bad hbad), mgmtRd_reads ht hu⟩
  · obtain ⟨late, bad, -⟩ := mgmtWr_clause s u h off bytes ht hu
    exact ⟨late, fun hrdy hbad => bad hrdy (accessOk_bad hbad), mgmtWr_writes ht hu⟩
  · rintro hawake hptr m rfl
    exact ⟨i3cPrivateRead_served hawake hptr, i3cPrivateRead_unserved hawake hptr⟩
  all_goals exact congrArg Host.Outcome.next (i3cTransfer_at _ hawake rfl)

end Sys2Proof.Machine
end
